-- ==== Sys2Proof/Word.lean ====
section
/-!
DEFINITION. The word types of the machine: the plain bit vectors the manual reads and writes as bits (R2).
-/
namespace Sys2Proof

/-- A byte of memory. -/
abbrev Byte := BitVec 8

/-- A 32-bit value: a full/empty word, an instruction word, a signal-box register. -/
abbrev W32 := BitVec 32

/-- A 64-bit scalar register, control register or virtual address (R88, R136). -/
abbrev Word := BitVec 64

/-- The 512 data bits of a vector register (R92). -/
abbrev V512 := BitVec 512

/-- The 256 bits of a message, a message register or a signal-box vector register (R94, R384). -/
abbrev V256 := BitVec 256

/-- The 1,024 bits of one row of a tile register (R93). -/
abbrev RowBits := BitVec 1024

/-- A physical site, numbered 64 y + x (R11, R469). -/
abbrev SiteId := BitVec 12

/-- A core of a tile (R19). -/
abbrev CoreId := BitVec 3

/-- A wafer logical tile number L, or a job tile number t (R15, R17). -/
abbrev TileNo := BitVec 12

end Sys2Proof
end

