-- ==== Sys2Proof/Syntax.lean ====
section
/-!
DEFINITION. The instructions of the machine: the core words of R70-R87, the signal-box words of R384-R386 and the
events of the operation table, with the operand records the events carry.
-/
namespace Sys2Proof

/-- The two planes of a link direction (R22). -/
inductive Line where
  | main | relief
deriving DecidableEq, Repr

/-- A port of a junction, towards one neighbour (R462, R480). -/
inductive Port where
  | north | east | south | west
deriving DecidableEq, Repr

/-- The outcome of a site's built-in self-test (R456): passed; failed with a routing junction; failed with a dead
junction (R468); or fused at the factory (R14). -/
inductive SelfTest where
  | passed | failed | deadJunction | fused
deriving DecidableEq, Repr

/-- A bind record of a slot (R347) with the domain registers written beside it (R326). -/
structure BindRecord where
  /-- Team number: launch number in [31:12], job tile in [11:0]. -/
  team : W32
  /-- KIND: true for a server core, false for a root core. -/
  server : Bool
  /-- Core mask of the team on this tile. -/
  cores : BitVec 8
  /-- Level: 0 J, 1 S, 2 M. -/
  level : BitVec 2
  /-- DETMODE.RACE. -/
  race : Bool
  job : BitVec 6
  prio : BitVec 2
  entry : Word
  /-- Window-stack base and limit. -/
  wbase : W32
  wlimit : W32
  /-- Argument for a0. -/
  arg : Word
  /-- HBM address of the team save area. -/
  save : Word
  tvec : Word
  tlimit : W32
  bpHigh : W32
  bp0 : W32
  bp1 : W32
  dom0 : Word
  dom1 : Word
  dom2 : Word
  dom3 : Word
  /-- Written beside the record: TSHAPE of the launch descriptor (R256), the page-table root of the job (R143), its
  rectangle as JSHAPE (R341), and the HBM address of the job tile's tile record (R369). -/
  tshape : Vector Word 8
  root : BitVec 36
  jshape : Word
  tileRecord : Word
deriving DecidableEq, Repr

/-- What the dispatcher settles for a job that is not bound yet (R17, R18, R143, R173): its choice. -/
structure JobPlace where
  prio : BitVec 2
  /-- The rectangle, laid out as JSHAPE (R341). -/
  jshape : Word
  root : BitVec 36
  race : Bool
  /-- The job's policy (R188, R409): QUOTA of each slice, and CKCTL. -/
  quota : Word := 0x810
  ckctl : Word := 0x0000004010000014
deriving DecidableEq, Repr

/-- HBM that the dispatcher allocates for a launch (R344, R368, R369, R419): first addresses of the team save areas
(2 MiB for each job tile), of the tile records (512 KiB each), of the waybill regions (32 MiB each) and of the two depot
image slots (8 MiB each). -/
structure LaunchHbm where
  save : Nat
  record : Nat
  waybill : Nat
  depot : Nat
deriving DecidableEq, Repr

/-- A launch command (R344-R346, R472 code 1) as a station reads it, with the port that delivered it. -/
structure LaunchCmd where
  tag : W32
  port : BitVec 3
  job : BitVec 6
  /-- Virtual address of the launch descriptor (R106). -/
  desc : Word
  level : Nat
  mailbox : Word
  handler : Word
  /-- The reduction format of an elastic launch (R372): a format tag, or 32 for exact. -/
  elastic : Option Nat
  /-- The dispatcher's choice of the number of tiles for an elastic launch (R372). -/
  split : Nat := 1
  /-- The dispatcher's placement, used when the job is not bound yet, and its allocation; none when it cannot
  allocate. -/
  place : JobPlace
  hbm : Option LaunchHbm
deriving DecidableEq, Repr

/-- An install-flow command (R400, R472 code 2). -/
structure InstallCmd where
  tag : W32
  job : BitVec 6
  tile : TileNo
  /-- Virtual address of the flow descriptor. -/
  desc : Word
  /-- Virtual address and length of the kernel words. -/
  words : Word
  len : Nat
deriving DecidableEq, Repr

/-- A parked job named by the answer to its fault record (R286, R312): the tile, the core, the engine and the ticket. -/
structure ParkedJob where
  tile : TileNo
  core : CoreId
  copy : Bool
  seq : BitVec 16
deriving DecidableEq, Repr

/-- A unit that keeps access counters (R146). -/
inductive CounterUnit where
  | controller (c : BitVec 6)
  | hostPort (p : BitVec 3)
deriving DecidableEq, Repr

/-- A home slice: of the tile carried by a site, or of a rim memory controller (R178). -/
inductive SliceLoc where
  | tile (site : SiteId) (slice : BitVec 3)
  | rim (controller : BitVec 6) (slice : BitVec 3)
deriving DecidableEq, Repr

/-- What command 6 names (R364): a core of its tile, and whether the thread of that core ends there (assumption 88). -/
structure ResumeOrder where
  core : CoreId
  finish : Bool := false
  deriving DecidableEq, Repr

/-- A barrier domain: the launch of a job, its level and the domain number within the launch (R326). -/
structure DomainKey where
  job : BitVec 6
  launch : BitVec 20
  level : BitVec 2
  did : BitVec 12
  /-- Where VALID is 0, the only member (R327); did is then its job tile. -/
  alone : Option CoreId
deriving DecidableEq, Repr

/-- What a failed check reports (R432, R435, R480). -/
structure ErrorReport where
  src : BitVec 8
  addr : Word
  synd : Word
  /-- The unit corrected the error. -/
  corrected : Bool := false
deriving DecidableEq, Repr

/-- The causes of a power domain fault (R477, R480 SRC 17). -/
inductive PowerFault where
  | regulator | overCurrent | temperature
deriving DecidableEq, Repr

/-- A unit that loads firmware of its own at boot (R475). -/
inductive FirmwareUnit where
  | station (n : BitVec 2)
  | crane (n : BitVec 2)
deriving DecidableEq, Repr

/-- The device-written rings of an MHL port (R471). -/
inductive Ring where
  | completion | fault | notification
deriving DecidableEq, Repr


/-- One constructor for each row of the operation table (opcode_table.json). A core or signal-box
instruction carries its fields from the lowest bit up; an event carries the unit it happens at. -/
inductive Instr where
  /-- R111. Writes the 64-bit wrapped sum of s1 and s2 to d. -/
  | add (d : BitVec 5) (a : BitVec 5) (b : BitVec 5)
  /-- R111. Writes the 64-bit wrapped difference s1 minus s2 to d. -/
  | sub (d : BitVec 5) (a : BitVec 5) (b : BitVec 5)
  /-- R111. Writes s1 AND s2 to d. -/
  | and (d : BitVec 5) (a : BitVec 5) (b : BitVec 5)
  /-- R111. Writes s1 AND NOT s2 to d. -/
  | andn (d : BitVec 5) (a : BitVec 5) (b : BitVec 5)
  /-- R111. Writes s1 OR s2 to d. -/
  | or (d : BitVec 5) (a : BitVec 5) (b : BitVec 5)
  /-- R111. Writes s1 XOR s2 to d. -/
  | xor (d : BitVec 5) (a : BitVec 5) (b : BitVec 5)
  /-- R111. Shifts s1 left by s2[5:0] into d. -/
  | sll (d : BitVec 5) (a : BitVec 5) (b : BitVec 5)
  /-- R111. Shifts s1 right logically by s2[5:0] into d. -/
  | srl (d : BitVec 5) (a : BitVec 5) (b : BitVec 5)
  /-- R111. Shifts s1 right arithmetically by s2[5:0] into d. -/
  | sra (d : BitVec 5) (a : BitVec 5) (b : BitVec 5)
  /-- R111. Rotates s1 left by s2[5:0] into d. -/
  | rol (d : BitVec 5) (a : BitVec 5) (b : BitVec 5)
  /-- R111. Sets d to 1 when signed s1 is less than signed s2, else 0. -/
  | slt (d : BitVec 5) (a : BitVec 5) (b : BitVec 5)
  /-- R111. Sets d to 1 when unsigned s1 is less than unsigned s2, else 0. -/
  | sltn (d : BitVec 5) (a : BitVec 5) (b : BitVec 5)
  /-- R111. Writes the signed smaller of s1 and s2 to d. -/
  | min (d : BitVec 5) (a : BitVec 5) (b : BitVec 5)
  /-- R111. Writes the signed larger of s1 and s2 to d. -/
  | max (d : BitVec 5) (a : BitVec 5) (b : BitVec 5)
  /-- R111. Writes the unsigned smaller of s1 and s2 to d. -/
  | minn (d : BitVec 5) (a : BitVec 5) (b : BitVec 5)
  /-- R111. Writes the unsigned larger of s1 and s2 to d. -/
  | maxn (d : BitVec 5) (a : BitVec 5) (b : BitVec 5)
  /-- R111. Writes the low 64 bits of s1 times s2 to d. -/
  | mul (d : BitVec 5) (a : BitVec 5) (b : BitVec 5)
  /-- R111. Writes the high 64 bits of the signed product to d. -/
  | mulh (d : BitVec 5) (a : BitVec 5) (b : BitVec 5)
  /-- R111. Writes the high 64 bits of the unsigned product to d. -/
  | mulhn (d : BitVec 5) (a : BitVec 5) (b : BitVec 5)
  /-- R112. Writes the signed quotient rounded towards zero, with the non-trapping borderline cases. -/
  | div (d : BitVec 5) (a : BitVec 5) (b : BitVec 5)
  /-- R112. Writes the unsigned quotient, all ones for a zero divisor. -/
  | divn (d : BitVec 5) (a : BitVec 5) (b : BitVec 5)
  /-- R112. Writes the signed remainder with the sign of s1. -/
  | rem (d : BitVec 5) (a : BitVec 5) (b : BitVec 5)
  /-- R112. Writes the unsigned remainder. -/
  | remn (d : BitVec 5) (a : BitVec 5) (b : BitVec 5)
  /-- R111. Writes the count of leading zero bits of s1 to d. -/
  | clz (d : BitVec 5) (a : BitVec 5)
  /-- R111. Writes the count of trailing zero bits of s1 to d. -/
  | ctz (d : BitVec 5) (a : BitVec 5)
  /-- R111. Writes the count of one bits of s1 to d. -/
  | popc (d : BitVec 5) (a : BitVec 5)
  /-- R111. Sign-extends s1[7:0] into d. -/
  | sextB (d : BitVec 5) (a : BitVec 5)
  /-- R111. Sign-extends s1[15:0] into d. -/
  | sextH (d : BitVec 5) (a : BitVec 5)
  /-- R111. Sign-extends s1[31:0] into d. -/
  | sextW (d : BitVec 5) (a : BitVec 5)
  /-- R111. Zero-extends s1[7:0] into d. -/
  | zextB (d : BitVec 5) (a : BitVec 5)
  /-- R111. Zero-extends s1[15:0] into d. -/
  | zextH (d : BitVec 5) (a : BitVec 5)
  /-- R111. Zero-extends s1[31:0] into d. -/
  | zextW (d : BitVec 5) (a : BitVec 5)
  /-- R113. Adds the sign-extended 15-bit immediate to s1 into d. -/
  | addi (d : BitVec 5) (a : BitVec 5) (i : BitVec 15)
  /-- R113. ANDs s1 with the sign-extended immediate into d. -/
  | andi (d : BitVec 5) (a : BitVec 5) (i : BitVec 15)
  /-- R113. ORs s1 with the sign-extended immediate into d. -/
  | ori (d : BitVec 5) (a : BitVec 5) (i : BitVec 15)
  /-- R113. XORs s1 with the sign-extended immediate into d. -/
  | xori (d : BitVec 5) (a : BitVec 5) (i : BitVec 15)
  /-- R114. Shifts s1 left by an immediate amount into d. -/
  | slli (d : BitVec 5) (a : BitVec 5) (n : BitVec 6)
  /-- R114. Shifts s1 right logically by an immediate amount into d. -/
  | srli (d : BitVec 5) (a : BitVec 5) (n : BitVec 6)
  /-- R114. Shifts s1 right arithmetically by an immediate amount into d. -/
  | srai (d : BitVec 5) (a : BitVec 5) (n : BitVec 6)
  /-- R114. Rotates s1 left by an immediate amount into d. -/
  | roli (d : BitVec 5) (a : BitVec 5) (n : BitVec 6)
  /-- R115. Sets d to 1 when signed s1 is below the 14-bit signed immediate. -/
  | slti (d : BitVec 5) (a : BitVec 5) (i : BitVec 14)
  /-- R115. Sets d to 1 when unsigned s1 is below the sign-extended immediate taken unsigned. -/
  | sltni (d : BitVec 5) (a : BitVec 5) (i : BitVec 14)
  /-- R116. Loads the sign-extended imm20 shifted left by 12 into d. -/
  | lih (d : BitVec 5) (i : BitVec 20)
  /-- R116. Writes pc plus the sign-extended imm20 shifted left by 12 into d. -/
  | lipc (d : BitVec 5) (i : BitVec 20)
  /-- R127. Reads a control register into x after the number and level checks, recording timing-dependent registers. -/
  | mfc (x : BitVec 5) (c : BitVec 12)
  /-- R127. Writes x into a control register field by field after the number and level checks; the write to any register without a row of its own. -/
  | mtc (x : BitVec 5) (c : BitVec 12)
  /-- R117. Branches pc-relative when s1 equals s2. -/
  | beq (a : BitVec 5) (b : BitVec 5) (i : BitVec 12)
  /-- R117. Branches pc-relative when s1 differs from s2. -/
  | bne (a : BitVec 5) (b : BitVec 5) (i : BitVec 12)
  /-- R117. Branches when signed s1 is less than signed s2. -/
  | blt (a : BitVec 5) (b : BitVec 5) (i : BitVec 12)
  /-- R117. Branches when signed s1 is at least signed s2. -/
  | bge (a : BitVec 5) (b : BitVec 5) (i : BitVec 12)
  /-- R117. Branches when unsigned s1 is less than unsigned s2. -/
  | bltn (a : BitVec 5) (b : BitVec 5) (i : BitVec 12)
  /-- R117. Branches when unsigned s1 is at least unsigned s2. -/
  | bgen (a : BitVec 5) (b : BitVec 5) (i : BitVec 12)
  /-- R118. Jumps to pc plus the sign-extended imm25 times 2. -/
  | jmp (i : BitVec 25)
  /-- R122. Shifts the register window up, spilling the oldest frame when needed, writes the return address to o7 and jumps. -/
  | call (i : BitVec 25)
  /-- R119. Jumps to the address in s1, trapping when it is odd. -/
  | jr (a : BitVec 5)
  /-- R122. Calls the address in s1 with the window shift and spill of call. -/
  | callr (a : BitVec 5)
  /-- R123. Returns to a7, filling the caller's frame from the window stack when spilled, and shifts the window down. -/
  | ret
  /-- R129. Advances pc with no other effect. -/
  | nop
  /-- R130. Ends with a trap of cause 8 carrying a 10-bit code. -/
  | trap (c : BitVec 10)
  /-- R361. Returns from the trap handler to TPC at the saved level, leaving the trap window. -/
  | rft
  /-- R131. Stops the core after advancing pc, leaving its team bound and its posted work completing. -/
  | halt
  /-- R132. Waits until the wake latch is set, then clears it and advances pc. -/
  | wfi
  /-- R365. Advances pc and lets a waiting team of at least equal urgency pre-empt the core's team. -/
  | yield
  /-- R356. Ends an inline task, a served task or the team's thread with a code. -/
  | exit (c : BitVec 10)
  /-- R133. Names a leader core and makes the core seek to follow its instruction stream. -/
  | couple (n : BitVec 3)
  /-- R134. Ends following or seeking and advances pc. -/
  | uncouple
  /-- R453. Requests a tile boundary and holds the core until that boundary has committed. -/
  | ckpt
  /-- R148. Loads a sign-extended byte into d. -/
  | ldB (d : BitVec 5) (a : BitVec 5) (w : BitVec 2) (i : BitVec 10)
  /-- R148. Loads a sign-extended halfword into d. -/
  | ldH (d : BitVec 5) (a : BitVec 5) (w : BitVec 2) (i : BitVec 10)
  /-- R148. Loads a sign-extended word into d. -/
  | ldW (d : BitVec 5) (a : BitVec 5) (w : BitVec 2) (i : BitVec 10)
  /-- R148. Loads a doubleword into d. -/
  | ldD (d : BitVec 5) (a : BitVec 5) (w : BitVec 2) (i : BitVec 10)
  /-- R148. Loads a zero-extended byte into d. -/
  | ldBn (d : BitVec 5) (a : BitVec 5) (w : BitVec 2) (i : BitVec 10)
  /-- R148. Loads a zero-extended halfword into d. -/
  | ldHn (d : BitVec 5) (a : BitVec 5) (w : BitVec 2) (i : BitVec 10)
  /-- R148. Loads a zero-extended word into d. -/
  | ldWn (d : BitVec 5) (a : BitVec 5) (w : BitVec 2) (i : BitVec 10)
  /-- R151. Starts a far-cache fill of the line of a translatable HBM, host or peer address, or is dropped. -/
  | prf (a : BitVec 5) (w : BitVec 2) (i : BitVec 10)
  /-- R149. Stores a byte, locally in tile order or posted to a remote target. -/
  | stB (d : BitVec 5) (a : BitVec 5) (w : BitVec 2) (i : BitVec 10)
  /-- R149. Stores a halfword, locally or posted. -/
  | stH (d : BitVec 5) (a : BitVec 5) (w : BitVec 2) (i : BitVec 10)
  /-- R149. Stores a word, locally or posted. -/
  | stW (d : BitVec 5) (a : BitVec 5) (w : BitVec 2) (i : BitVec 10)
  /-- R149. Stores a doubleword, locally or posted. -/
  | stD (d : BitVec 5) (a : BitVec 5) (w : BitVec 2) (i : BitVec 10)
  /-- R156. Waits for a full word, reads it and leaves it full. -/
  | ldf (d : BitVec 5) (a : BitVec 5) (w : BitVec 2) (i : BitVec 10)
  /-- R156. Waits for a full word, reads it and leaves it empty. -/
  | ldfe (d : BitVec 5) (a : BitVec 5) (w : BitVec 2) (i : BitVec 10)
  /-- R156. Waits for an empty word, writes it and sets it full. -/
  | ste (d : BitVec 5) (a : BitVec 5) (w : BitVec 2) (i : BitVec 10)
  /-- R156. Writes a word and sets it full without waiting, posted when remote. -/
  | stf (d : BitVec 5) (a : BitVec 5) (w : BitVec 2) (i : BitVec 10)
  /-- R156. Reads the full/empty tag of a word. -/
  | ldtag (d : BitVec 5) (a : BitVec 5) (w : BitVec 2) (i : BitVec 10)
  /-- R156. Sets the full/empty tag of a word from d[0]. -/
  | settag (d : BitVec 5) (a : BitVec 5) (w : BitVec 2) (i : BitVec 10)
  /-- R159. Writes 8 scalar bytes and then sets a flag word full in the same tile. -/
  | putsF (d : BitVec 5) (a : BitVec 5) (b : BitVec 5)
  /-- R159. Writes 8 scalar bytes and then increments a counter word in the same tile. -/
  | putsC (d : BitVec 5) (a : BitVec 5) (b : BitVec 5)
  /-- R159. Writes 64 bytes of a vector register and then sets a flag word full. -/
  | putvF (d : BitVec 5) (a : BitVec 5) (b : BitVec 5)
  /-- R159. Writes 64 bytes of a vector register and then increments a counter word. -/
  | putvC (d : BitVec 5) (a : BitVec 5) (b : BitVec 5)
  /-- R162. Waits until all three posted counts are zero. -/
  | fence
  /-- R162. Invalidates the far-cache lines of the 4 KiB block of s1's target. -/
  | fenceR (a : BitVec 5)
  /-- R162. Flushes siding rows of the named classes and waits for their counts to reach zero. -/
  | waitc (c : BitVec 3)
  /-- R162. Empties the tile's far cache. -/
  | acq
  /-- R162. Waits until PSTM and PSTX are zero. -/
  | rel
  /-- R162. Waits until every earlier engine job of the core has completed and its remote writes are performed. -/
  | fenceE
  /-- R186. Sends or applies a 32-bit integer add accumulate, with siding ride-along. -/
  | accAddI32 (d : BitVec 5) (a : BitVec 5) (w : BitVec 2) (i : BitVec 10)
  /-- R186. Sends or applies a 64-bit integer add accumulate. -/
  | accAddI64 (d : BitVec 5) (a : BitVec 5) (w : BitVec 2) (i : BitVec 10)
  /-- R186. Sends or applies an f32 add accumulate rounded RNE. -/
  | accAddF32 (d : BitVec 5) (a : BitVec 5) (w : BitVec 2) (i : BitVec 10)
  /-- R186. Sends or applies a signed 32-bit max accumulate. -/
  | accMaxI32 (d : BitVec 5) (a : BitVec 5) (w : BitVec 2) (i : BitVec 10)
  /-- R186. Sends or applies a signed 32-bit min accumulate. -/
  | accMinI32 (d : BitVec 5) (a : BitVec 5) (w : BitVec 2) (i : BitVec 10)
  /-- R186. Sends or applies a 64-bit OR accumulate. -/
  | accOrD (d : BitVec 5) (a : BitVec 5) (w : BitVec 2) (i : BitVec 10)
  /-- R186. Sends or applies a 64-bit AND accumulate. -/
  | accAndD (d : BitVec 5) (a : BitVec 5) (w : BitVec 2) (i : BitVec 10)
  /-- R186. Sends or applies a 64-bit XOR accumulate. -/
  | accXorD (d : BitVec 5) (a : BitVec 5) (w : BitVec 2) (i : BitVec 10)
  /-- R209. Atomically swaps a 32-bit word, returning the old value. -/
  | amoSwapW (d : BitVec 5) (a : BitVec 5) (b : BitVec 5)
  /-- R209. Atomically swaps a 64-bit word. -/
  | amoSwapD (d : BitVec 5) (a : BitVec 5) (b : BitVec 5)
  /-- R209. Atomically compares a 32-bit word with d and swaps on equality. -/
  | amoCasW (d : BitVec 5) (a : BitVec 5) (b : BitVec 5)
  /-- R209. Atomically compares a 64-bit word with d and swaps on equality. -/
  | amoCasD (d : BitVec 5) (a : BitVec 5) (b : BitVec 5)
  /-- R209. Atomically adds to a 32-bit word, returning the old value. -/
  | amoAddW (d : BitVec 5) (a : BitVec 5) (b : BitVec 5)
  /-- R209. Atomically adds to a 64-bit word. -/
  | amoAddD (d : BitVec 5) (a : BitVec 5) (b : BitVec 5)
  /-- R210. Atomically adds an f32 value and delivers the addition's flags to FFLAGS. -/
  | amoFaddF32 (d : BitVec 5) (a : BitVec 5) (b : BitVec 5)
  /-- R209. Atomically stores the signed larger of the word and s2. -/
  | amoMaxW (d : BitVec 5) (a : BitVec 5) (b : BitVec 5)
  /-- R209. Atomically stores the signed smaller of the word and s2. -/
  | amoMinW (d : BitVec 5) (a : BitVec 5) (b : BitVec 5)
  /-- R202. Flushes every relaxed siding row without waiting. -/
  | sdfl
  /-- R202. Flushes the relaxed siding rows of one address without waiting. -/
  | sdfla (a : BitVec 5)
  /-- R202. Reads one word of one siding row into d. -/
  | sdrd (d : BitVec 5) (a : BitVec 5) (b : BitVec 5)
  /-- R202. Writes the mask of valid siding rows into d. -/
  | sdst (d : BitVec 5)
  /-- R202. Waits until no relaxed row is valid, none is in flight and no relaxed bounce waits. -/
  | sdwait
  /-- R226. Adds active vector elements. -/
  | vadd (d : BitVec 5) (a : BitVec 5) (b : BitVec 5) (p : BitVec 3) (n : BitVec 1)
  /-- R226. Subtracts active vector elements. -/
  | vsub (d : BitVec 5) (a : BitVec 5) (b : BitVec 5) (p : BitVec 3) (n : BitVec 1)
  /-- R226. Multiplies active vector elements. -/
  | vmul (d : BitVec 5) (a : BitVec 5) (b : BitVec 5) (p : BitVec 3) (n : BitVec 1)
  /-- R226. Computes vs1 times vs2 plus vd, rounded once. -/
  | vfma (d : BitVec 5) (a : BitVec 5) (b : BitVec 5) (p : BitVec 3) (n : BitVec 1)
  /-- R226. Computes vs1 times vs2 minus vd, rounded once. -/
  | vfms (d : BitVec 5) (a : BitVec 5) (b : BitVec 5) (p : BitVec 3) (n : BitVec 1)
  /-- R226. Computes vd minus vs1 times vs2, rounded once. -/
  | vnfma (d : BitVec 5) (a : BitVec 5) (b : BitVec 5) (p : BitVec 3) (n : BitVec 1)
  /-- R226. Takes the larger of active elements. -/
  | vmax (d : BitVec 5) (a : BitVec 5) (b : BitVec 5) (p : BitVec 3) (n : BitVec 1)
  /-- R226. Takes the smaller of active elements. -/
  | vmin (d : BitVec 5) (a : BitVec 5) (b : BitVec 5) (p : BitVec 3) (n : BitVec 1)
  /-- R226. Takes the absolute value of active elements. -/
  | vabs (d : BitVec 5) (a : BitVec 5) (p : BitVec 3) (n : BitVec 1)
  /-- R226. Negates active elements. -/
  | vneg (d : BitVec 5) (a : BitVec 5) (p : BitVec 3) (n : BitVec 1)
  /-- R226. ANDs active elements. -/
  | vand (d : BitVec 5) (a : BitVec 5) (b : BitVec 5) (p : BitVec 3) (n : BitVec 1)
  /-- R226. ANDs active elements with the complement of vs2. -/
  | vandn (d : BitVec 5) (a : BitVec 5) (b : BitVec 5) (p : BitVec 3) (n : BitVec 1)
  /-- R226. ORs active elements. -/
  | vor (d : BitVec 5) (a : BitVec 5) (b : BitVec 5) (p : BitVec 3) (n : BitVec 1)
  /-- R226. XORs active elements. -/
  | vxor (d : BitVec 5) (a : BitVec 5) (b : BitVec 5) (p : BitVec 3) (n : BitVec 1)
  /-- R229. Shifts active elements left by per-element amounts. -/
  | vsll (d : BitVec 5) (a : BitVec 5) (b : BitVec 5) (p : BitVec 3) (n : BitVec 1)
  /-- R229. Shifts active elements right with zero fill. -/
  | vsrl (d : BitVec 5) (a : BitVec 5) (b : BitVec 5) (p : BitVec 3) (n : BitVec 1)
  /-- R229. Shifts active elements right copying the sign bit. -/
  | vsra (d : BitVec 5) (a : BitVec 5) (b : BitVec 5) (p : BitVec 3) (n : BitVec 1)
  /-- R230. Copies a vector register, with its side field when unmasked. -/
  | vmov (d : BitVec 5) (a : BitVec 5) (p : BitVec 3) (n : BitVec 1)
  /-- R230. Selects each element from vs1 or vs2 by the mask. -/
  | vsel (d : BitVec 5) (a : BitVec 5) (b : BitVec 5) (p : BitVec 3) (n : BitVec 1)
  /-- R75. Compact vd := vd + vs. -/
  | vaddC (d : BitVec 5) (s : BitVec 5) (m : BitVec 1)
  /-- R75. Compact vd := vd - vs. -/
  | vsubC (d : BitVec 5) (s : BitVec 5) (m : BitVec 1)
  /-- R75. Compact vd := vd * vs. -/
  | vmulC (d : BitVec 5) (s : BitVec 5) (m : BitVec 1)
  /-- R75. Compact vd := max(vd, vs). -/
  | vmaxC (d : BitVec 5) (s : BitVec 5) (m : BitVec 1)
  /-- R75. Compact vd := min(vd, vs). -/
  | vminC (d : BitVec 5) (s : BitVec 5) (m : BitVec 1)
  /-- R75. Compact vd := vd AND vs. -/
  | vandC (d : BitVec 5) (s : BitVec 5) (m : BitVec 1)
  /-- R75. Compact vd := vd AND NOT vs. -/
  | vandnC (d : BitVec 5) (s : BitVec 5) (m : BitVec 1)
  /-- R75. Compact vd := vd OR vs. -/
  | vorC (d : BitVec 5) (s : BitVec 5) (m : BitVec 1)
  /-- R75. Compact vd := vd XOR vs. -/
  | vxorC (d : BitVec 5) (s : BitVec 5) (m : BitVec 1)
  /-- R75. Compact vd := vs. -/
  | vmovC (d : BitVec 5) (s : BitVec 5) (m : BitVec 1)
  /-- R75. Compact vd := abs(vs). -/
  | vabsC (d : BitVec 5) (s : BitVec 5) (m : BitVec 1)
  /-- R75. Compact vd := -vs. -/
  | vnegC (d : BitVec 5) (s : BitVec 5) (m : BitVec 1)
  /-- R75. Compact left shift of vd by vs. -/
  | vsllC (d : BitVec 5) (s : BitVec 5) (m : BitVec 1)
  /-- R75. Compact logical right shift of vd by vs. -/
  | vsrlC (d : BitVec 5) (s : BitVec 5) (m : BitVec 1)
  /-- R75. Compact arithmetic right shift of vd by vs. -/
  | vsraC (d : BitVec 5) (s : BitVec 5) (m : BitVec 1)
  /-- R75. Compact vd := vd + vs * v31, rounded once. -/
  | vfmacC (d : BitVec 5) (s : BitVec 5) (m : BitVec 1)
  /-- R232. Sets predicate bits where active elements are equal. -/
  | vceq (d : BitVec 3) (a : BitVec 5) (b : BitVec 5) (p : BitVec 3) (n : BitVec 1)
  /-- R232. Sets predicate bits where active elements differ. -/
  | vcne (d : BitVec 3) (a : BitVec 5) (b : BitVec 5) (p : BitVec 3) (n : BitVec 1)
  /-- R232. Sets predicate bits where vs1 is less than vs2. -/
  | vclt (d : BitVec 3) (a : BitVec 5) (b : BitVec 5) (p : BitVec 3) (n : BitVec 1)
  /-- R232. Sets predicate bits where vs1 is at most vs2. -/
  | vcle (d : BitVec 3) (a : BitVec 5) (b : BitVec 5) (p : BitVec 3) (n : BitVec 1)
  /-- R232. Sets predicate bits where vs1 is greater than vs2. -/
  | vcgt (d : BitVec 3) (a : BitVec 5) (b : BitVec 5) (p : BitVec 3) (n : BitVec 1)
  /-- R232. Sets predicate bits where vs1 is at least vs2. -/
  | vcge (d : BitVec 3) (a : BitVec 5) (b : BitVec 5) (p : BitVec 3) (n : BitVec 1)
  /-- R232. Sets predicate bits where the pair is unordered. -/
  | vcun (d : BitVec 3) (a : BitVec 5) (b : BitVec 5) (p : BitVec 3) (n : BitVec 1)
  /-- R233. ANDs two predicates. -/
  | pand (d : BitVec 3) (a : BitVec 3) (b : BitVec 3)
  /-- R233. ORs two predicates. -/
  | por (d : BitVec 3) (a : BitVec 3) (b : BitVec 3)
  /-- R233. XORs two predicates. -/
  | pxor (d : BitVec 3) (a : BitVec 3) (b : BitVec 3)
  /-- R233. Complements a predicate. -/
  | pnot (d : BitVec 3) (a : BitVec 3)
  /-- R233. Copies a predicate. -/
  | pmov (d : BitVec 3) (a : BitVec 3)
  /-- R233. Copies a scalar register into a predicate. -/
  | pmovxToPredicate (d : BitVec 3) (a : BitVec 5)
  /-- R233. Copies a predicate into a scalar register. -/
  | pmovxToScalar (d : BitVec 5) (a : BitVec 3)
  /-- R235. Converts active elements to the target tag, zeroing the others. -/
  | vcvt (d : BitVec 5) (a : BitVec 5) (t : BitVec 5) (p : BitVec 3) (n : BitVec 1)
  /-- R236. Converts active elements to a floating target with stochastic rounding. -/
  | vcvtSr (d : BitVec 5) (a : BitVec 5) (t : BitVec 5) (p : BitVec 3) (n : BitVec 1)
  /-- R237. Copies the register bits and retags them. -/
  | vtag (d : BitVec 5) (a : BitVec 5) (t : BitVec 5)
  /-- R238. Permutes elements by indices in vs2. -/
  | vperm (d : BitVec 5) (a : BitVec 5) (b : BitVec 5) (p : BitVec 3) (n : BitVec 1)
  /-- R238. Slides elements up by an immediate. -/
  | vslup (d : BitVec 5) (a : BitVec 5) (s : BitVec 5) (p : BitVec 3) (n : BitVec 1)
  /-- R238. Slides elements down by an immediate. -/
  | vsldn (d : BitVec 5) (a : BitVec 5) (s : BitVec 5) (p : BitVec 3) (n : BitVec 1)
  /-- R238. Broadcasts one element to every active element. -/
  | vbcast (d : BitVec 5) (a : BitVec 5) (s : BitVec 5) (p : BitVec 3) (n : BitVec 1)
  /-- R239. Extracts one element into a scalar register. -/
  | vext (d : BitVec 5) (a : BitVec 5) (s : BitVec 5)
  /-- R239. Inserts a scalar into one element. -/
  | vins (d : BitVec 5) (a : BitVec 5) (s : BitVec 5)
  /-- R238. Interleaves the low halves of two registers. -/
  | vzip (d : BitVec 5) (a : BitVec 5) (b : BitVec 5) (p : BitVec 3) (n : BitVec 1)
  /-- R238. Gathers the even elements of two registers. -/
  | vunzip (d : BitVec 5) (a : BitVec 5) (b : BitVec 5) (p : BitVec 3) (n : BitVec 1)
  /-- R241. Reduces active elements by addition over a fixed tree. -/
  | vredadd (d : BitVec 5) (a : BitVec 5) (p : BitVec 3) (n : BitVec 1)
  /-- R241. Reduces active elements by max. -/
  | vredmax (d : BitVec 5) (a : BitVec 5) (p : BitVec 3) (n : BitVec 1)
  /-- R241. Reduces active elements by min. -/
  | vredmin (d : BitVec 5) (a : BitVec 5) (p : BitVec 3) (n : BitVec 1)
  /-- R251. Loads 64 contiguous bytes into a vector register under an optional mask. -/
  | vld (v : BitVec 5) (a : BitVec 5) (p : BitVec 3) (n : BitVec 1) (w : BitVec 2) (t : BitVec 5)
  /-- R251. Loads strided elements into a vector register. -/
  | vlds (v : BitVec 5) (a : BitVec 5) (s : BitVec 5) (w : BitVec 2) (t : BitVec 5)
  /-- R251. Loads four b4 blocks and their scale bytes. -/
  | vldq (v : BitVec 5) (a : BitVec 5) (s : BitVec 5) (w : BitVec 2)
  /-- R253. Gathers 16 lanes lane by lane from VPROG.LANE. -/
  | vgth (v : BitVec 5) (a : BitVec 5) (o : BitVec 5) (w : BitVec 2) (t : BitVec 5)
  /-- R251. Stores 64 contiguous bytes of a vector register under an optional mask. -/
  | vst (v : BitVec 5) (a : BitVec 5) (p : BitVec 3) (n : BitVec 1) (w : BitVec 2) (t : BitVec 5)
  /-- R251. Stores vector elements with a stride. -/
  | vsts (v : BitVec 5) (a : BitVec 5) (s : BitVec 5) (w : BitVec 2) (t : BitVec 5)
  /-- R251. Stores four b4 blocks and their scale bytes. -/
  | vstq (v : BitVec 5) (a : BitVec 5) (s : BitVec 5) (w : BitVec 2)
  /-- R253. Scatters 16 lanes lane by lane from VPROG.LANE. -/
  | vsct (v : BitVec 5) (a : BitVec 5) (o : BitVec 5) (w : BitVec 2) (t : BitVec 5)
  /-- R211. Scatter-accumulates 16 f32 lanes as accumulates from VPROG.LANE. -/
  | vaccF32 (v : BitVec 5) (a : BitVec 5) (o : BitVec 5) (w : BitVec 2)
  /-- R211. Scatter-accumulates 16 i32 lanes as accumulates from VPROG.LANE. -/
  | vaccI32 (v : BitVec 5) (a : BitVec 5) (o : BitVec 5) (w : BitVec 2)
  /-- R243. Rounds active elements to integral values in FRM.RM. -/
  | vrndi (d : BitVec 5) (a : BitVec 5) (p : BitVec 3) (n : BitVec 1)
  /-- R243. Converts to the integer tag of the same width by truncation. -/
  | vcvti (d : BitVec 5) (a : BitVec 5) (p : BitVec 3) (n : BitVec 1)
  /-- R244. Computes 2 to the power f by a fixed polynomial. -/
  | vfexp (d : BitVec 5) (a : BitVec 5) (p : BitVec 3) (n : BitVec 1)
  /-- R245. Scales vs1 by 2 to the truncated vs2. -/
  | vexpins (d : BitVec 5) (a : BitVec 5) (b : BitVec 5) (p : BitVec 3) (n : BitVec 1)
  /-- R245. Extracts floor(log2|x|) as a floating value. -/
  | vgetexp (d : BitVec 5) (a : BitVec 5) (p : BitVec 3) (n : BitVec 1)
  /-- R246. Computes the correctly rounded reciprocal. -/
  | vrcp (d : BitVec 5) (a : BitVec 5) (p : BitVec 3) (n : BitVec 1)
  /-- R246. Computes the correctly rounded reciprocal square root. -/
  | vrsq (d : BitVec 5) (a : BitVec 5) (p : BitVec 3) (n : BitVec 1)
  /-- R247. Quantises 32 elements into b4 block j of vd. -/
  | vqnt (d : BitVec 5) (a : BitVec 5) (j : BitVec 2)
  /-- R248. Divides by a scale and converts to vd's tag. -/
  | vcvts (d : BitVec 5) (a : BitVec 5) (b : BitVec 5) (p : BitVec 3) (n : BitVec 1)
  /-- R249. Decodes 16 b4 codes into f32 elements. -/
  | vdq (d : BitVec 5) (a : BitVec 5) (m : BitVec 3) (p : BitVec 3) (n : BitVec 1)
  /-- R249. Broadcasts the largest magnitude of the active elements. -/
  | barq (d : BitVec 5) (a : BitVec 5) (p : BitVec 3) (n : BitVec 1)
  /-- R266. Queues a tile-register load job and returns a ticket. -/
  | tld (m : BitVec 3) (b : BitVec 5) (r : BitVec 5) (s : BitVec 5) (t : BitVec 5)
  /-- R266. Queues a tile-register store job and returns a ticket. -/
  | tst (m : BitVec 3) (b : BitVec 5) (r : BitVec 5) (s : BitVec 5) (t : BitVec 5)
  /-- R272. Queues a multiply-accumulate job into mc and returns a ticket. -/
  | mma (c : BitVec 3) (a : BitVec 3) (b : BitVec 3) (t : BitVec 5)
  /-- R272. Queues a multiply job that first zeroes C. -/
  | mmaZ (c : BitVec 3) (a : BitVec 3) (b : BitVec 3) (t : BitVec 5)
  /-- R272. Queues a multiply-accumulate job with negated products. -/
  | mmaN (c : BitVec 3) (a : BitVec 3) (b : BitVec 3) (t : BitVec 5)
  /-- R272. Queues a multiply job that zeroes C and negates products. -/
  | mmaZn (c : BitVec 3) (a : BitVec 3) (b : BitVec 3) (t : BitVec 5)
  /-- R277. Queues a job that zeroes a tile register with the TSHAPE tag. -/
  | tzero (d : BitVec 3)
  /-- R277. Queues a job that copies a whole tile register. -/
  | tmov (d : BitVec 3) (a : BitVec 3)
  /-- R277. Queues a job that transposes each 32x32 block. -/
  | ttr (d : BitVec 3) (a : BitVec 3)
  /-- R279. Queues a job that converts a tile register to the TSHAPE target. -/
  | tcvt (d : BitVec 3) (a : BitVec 3)
  /-- R277. Queues an elementwise f32 or i32 addition of two tile registers. -/
  | tadd (d : BitVec 3) (a : BitVec 3) (b : BitVec 3)
  /-- R278. Queues a job that copies a half-row of a tile register into a vector register. -/
  | trowv (a : BitVec 3) (x : BitVec 5) (v : BitVec 5)
  /-- R278. Queues a job that writes a vector register into a half-row of a tile register. -/
  | tvrow (d : BitVec 3) (x : BitVec 5) (v : BitVec 5)
  /-- R282. Waits for a matrix ticket's job and observes its slot. -/
  | twait (d : BitVec 5) (a : BitVec 5)
  /-- R282. Polls a matrix ticket's slot without waiting. -/
  | tpoll (d : BitVec 5) (a : BitVec 5)
  /-- R283. Waits for all earlier engine jobs and observes every completed slot. -/
  | twaitall (d : BitVec 5)
  /-- R299. Reads a job card and queues a copy job, returning a ticket. -/
  | copy (d : BitVec 5) (a : BitVec 5)
  /-- R299. Queues a copy job that also computes a running checksum. -/
  | copyc (d : BitVec 5) (a : BitVec 5)
  /-- R306. Queues a multicast copy to a rectangle of job tiles. -/
  | mcast (d : BitVec 5) (a : BitVec 5)
  /-- R298. Waits for a copy ticket's job and observes its slot. -/
  | cwait (d : BitVec 5) (a : BitVec 5)
  /-- R298. Polls a copy ticket's slot without waiting. -/
  | cpoll (d : BitVec 5) (a : BitVec 5)
  /-- R320. Sends 8 scalar bytes as a 32-byte message to a core's q register. -/
  | send (a : BitVec 5) (b : BitVec 5)
  /-- R320. Sends 32 bytes of a vector register as a message. -/
  | sendv (h : BitVec 1) (a : BitVec 5) (v : BitVec 5)
  /-- R321. Waits for a full q register, reads 8 bytes and clears the full bit. -/
  | recv (d : BitVec 5) (q : BitVec 4)
  /-- R321. Waits for a full q register, writes it into half a vector register and clears the full bit. -/
  | recvv (v : BitVec 5) (q : BitVec 4) (h : BitVec 1)
  /-- R322. Writes the recorded receive status without waiting. -/
  | qstat (d : BitVec 5)
  /-- R331. Arrives at a barrier of level n if not arrived and awaits its release. -/
  | sync (n : BitVec 2)
  /-- R331. Drains the core's posted work and sends its barrier arrival. -/
  | arrive (n : BitVec 2)
  /-- R331. Waits for the release of an outstanding barrier and completes it. -/
  | await (n : BitVec 2)
  /-- R335. Waits until a scratchpad word no longer equals a value, using a monitor entry. -/
  | waita (d : BitVec 5) (a : BitVec 5) (b : BitVec 5)
  /-- R338. Adds to an event counter with saturation and releases satisfied waiters. -/
  | cntinc (d : BitVec 5) (c : BitVec 3) (b : BitVec 5)
  /-- R338. Resets an event counter and releases every waiter with status 1. -/
  | cntrst (c : BitVec 3)
  /-- R338. Waits until an event counter reaches a bound. -/
  | cntwait (d : BitVec 5) (c : BitVec 3) (b : BitVec 5)
  /-- R352. Queues a task in the pool or overflow queue and returns its handle. -/
  | spawn (d : BitVec 5) (a : BitVec 5) (b : BitVec 5)
  /-- R354. Runs a queued task inline or waits for it, then frees its entry. -/
  | tjoin (d : BitVec 5) (a : BitVec 5)
  /-- R357. Reports a task's state without waiting, recorded. -/
  | tstat (d : BitVec 5) (a : BitVec 5)
  /-- R388. Signal-box no-operation. -/
  | sbNop
  /-- R388. Signal-box register add. -/
  | sbAdd (d : BitVec 4) (a : BitVec 4) (b : BitVec 4)
  /-- R388. Signal-box add of a sign-extended immediate. -/
  | sbAddImm (d : BitVec 4) (a : BitVec 4) (i : BitVec 13)
  /-- R388. Signal-box register subtract. -/
  | sbSub (d : BitVec 4) (a : BitVec 4) (b : BitVec 4)
  /-- R388. Signal-box subtract of an immediate. -/
  | sbSubImm (d : BitVec 4) (a : BitVec 4) (i : BitVec 13)
  /-- R388. Signal-box register AND. -/
  | sbAnd (d : BitVec 4) (a : BitVec 4) (b : BitVec 4)
  /-- R388. Signal-box AND with an immediate. -/
  | sbAndImm (d : BitVec 4) (a : BitVec 4) (i : BitVec 13)
  /-- R388. Signal-box register OR. -/
  | sbOr (d : BitVec 4) (a : BitVec 4) (b : BitVec 4)
  /-- R388. Signal-box OR with an immediate. -/
  | sbOrImm (d : BitVec 4) (a : BitVec 4) (i : BitVec 13)
  /-- R388. Signal-box register XOR. -/
  | sbXor (d : BitVec 4) (a : BitVec 4) (b : BitVec 4)
  /-- R388. Signal-box XOR with an immediate. -/
  | sbXorImm (d : BitVec 4) (a : BitVec 4) (i : BitVec 13)
  /-- R388. Signal-box left shift by a register. -/
  | sbShl (d : BitVec 4) (a : BitVec 4) (b : BitVec 4)
  /-- R388. Signal-box left shift by an immediate. -/
  | sbShlImm (d : BitVec 4) (a : BitVec 4) (i : BitVec 13)
  /-- R388. Signal-box logical right shift by a register. -/
  | sbShr (d : BitVec 4) (a : BitVec 4) (b : BitVec 4)
  /-- R388. Signal-box logical right shift by an immediate. -/
  | sbShrImm (d : BitVec 4) (a : BitVec 4) (i : BitVec 13)
  /-- R388. Loads a sign-extended 16-bit immediate. -/
  | sbLi (d : BitVec 4) (i : BitVec 16)
  /-- R388. Loads a 16-bit immediate into the upper half. -/
  | sbLih (d : BitVec 4) (i : BitVec 16)
  /-- R389. Branches forward when the register is zero. -/
  | sbBfz (a : BitVec 4) (o : BitVec 11)
  /-- R389. Branches forward when the register is not zero. -/
  | sbBfnz (a : BitVec 4) (o : BitVec 11)
  /-- R389. Repeats the following body of up to 8 words up to 16 times. -/
  | sbRpt (n : BitVec 3) (c : BitVec 4)
  /-- R380. Ends the kernel, commits and delivers the packet to the hosting tile. -/
  | sbDone
  /-- R380. Ends the kernel, commits and discards the packet. -/
  | sbDrop
  /-- R390. Ends the kernel, commits and sends the packet to alternate ALT[k]. -/
  | sbReroute (a : BitVec 4)
  /-- R391. Loads a word from the flow's state window. -/
  | sbLdst (d : BitVec 4) (a : BitVec 4) (i : BitVec 13)
  /-- R391. Buffers a word write to the state window. -/
  | sbStst (d : BitVec 4) (a : BitVec 4) (i : BitVec 13)
  /-- R391. Loads 32 bytes of the state window into a y register. -/
  | sbVldst (d : BitVec 3) (a : BitVec 4) (i : BitVec 13)
  /-- R391. Buffers a 32-byte write to the state window. -/
  | sbVstst (d : BitVec 3) (a : BitVec 4) (i : BitVec 13)
  /-- R392. Reads a payload beat into a y register. -/
  | sbVrdp (d : BitVec 3) (k : BitVec 2)
  /-- R392. Writes a y register over a payload beat. -/
  | sbVwrp (d : BitVec 3) (k : BitVec 2)
  /-- R392. Reads a packet header field. -/
  | sbRdh (d : BitVec 4) (i : BitVec 4)
  /-- R393. Adds integer lanes. -/
  | sbVaddi (d : BitVec 3) (a : BitVec 3) (b : BitVec 3)
  /-- R393. Adds f32 lanes rounded RNE. -/
  | sbVaddf (d : BitVec 3) (a : BitVec 3) (b : BitVec 3)
  /-- R393. Multiplies f32 lanes rounded RNE. -/
  | sbVmulf (d : BitVec 3) (a : BitVec 3) (b : BitVec 3)
  /-- R393. Takes the f32 larger of lanes. -/
  | sbVmaxf (d : BitVec 3) (a : BitVec 3) (b : BitVec 3)
  /-- R393. Takes the f32 smaller of lanes. -/
  | sbVminf (d : BitVec 3) (a : BitVec 3) (b : BitVec 3)
  /-- R393. Takes the signed larger of integer lanes. -/
  | sbVmaxi (d : BitVec 3) (a : BitVec 3) (b : BitVec 3)
  /-- R393. ANDs lanes. -/
  | sbVand (d : BitVec 3) (a : BitVec 3) (b : BitVec 3)
  /-- R393. ORs lanes. -/
  | sbVor (d : BitVec 3) (a : BitVec 3) (b : BitVec 3)
  /-- R393. XORs lanes. -/
  | sbVxor (d : BitVec 3) (a : BitVec 3) (b : BitVec 3)
  /-- R394. Rounds 8 f32 lanes to bf16 into one half of yd. -/
  | sbVcvtbfF2b (d : BitVec 3) (a : BitVec 3) (h : BitVec 1)
  /-- R394. Widens 8 bf16 elements to f32 lanes. -/
  | sbVcvtbfB2f (d : BitVec 3) (a : BitVec 3) (h : BitVec 1)
  /-- R395. Sums the 8 f32 lanes by a fixed tree into a b register. -/
  | sbVsum (d : BitVec 4) (a : BitVec 3)
  /-- R395. Compares f32 lanes into a bit mask. -/
  | sbVcmpf (d : BitVec 4) (a : BitVec 3) (b : BitVec 3) (c : BitVec 2)
  /-- R395. Selects lanes from two y registers by a bit mask. -/
  | sbVself (d : BitVec 3) (a : BitVec 3) (b : BitVec 3) (c : BitVec 4)
  /-- R396. Ends the kernel with a trap of cause 5 and a code. -/
  | sbTrap (a : BitVec 4) (c : BitVec 8)
  /-- R396. Reads CLOCK[31:0], recorded as a determinant. -/
  | sbStamp (d : BitVec 4)
  /-- R396. Appends a 32-byte message for an alternate tile to the emit list. -/
  | sbEmit (d : BitVec 3) (a : BitVec 4)
  /-- R143. A write of PTBASE changes the core's page-table root and invalidates its TLB. -/
  | ptbaseWrite (v : Word)
  /-- R203. A write of ACCMODE first flushes relaxed siding rows and waits as sdwait, then changes the mode. -/
  | accmodeWrite (v : Word)
  /-- R56. A write of SRSEED sets the stochastic generator state, with zero replaced by the default seed. -/
  | srseedWrite (v : Word)
  /-- R337. A write of an event counter sets its value, clears OVF on request and releases reached waiters. -/
  | evcWrite (c : BitVec 3) (v : Word)
  /-- R280. An mfc or mtc of FFLAGS waits until every earlier tcvt and tadd has completed. -/
  | fflagsAccess (write : Bool) (x : BitVec 5)
  /-- R438. Writing 1 to ERRDATA bit 0 clears the selected error record. -/
  | errdataClear
  /-- R460. A write of PLA6 on a corner sets a points table entry and marks the site logical. -/
  | pointsEntryWrite (v : Word)
  /-- R348. The dispatcher writes a slot, and the core starts a team or becomes an idle server. -/
  | bindRecordWrite (site : SiteId) (core : CoreId) (rec : Option BindRecord)
  /-- R462. Boot command that floods the quadrant to give junctions coordinates and gather the site state map. -/
  | discover (site : SiteId)
  /-- R464. Boot command that copies the quadrant's points entries and state map to every junction of the quadrant. -/
  | ptflood (site : SiteId)
  /-- R461. Boot command that loads and verifies a stage-two image from flash into scratchpad. -/
  | loadimg (site : SiteId)
  /-- R465. Boot command that floods the quadrant's block wafer-wide and lends reserves to short quadrants. -/
  | join (site : SiteId)
  /-- R461. Boot command that ends the quadrant's boot job and releases its crane. -/
  | handoff (site : SiteId)
  /-- R460. A PLA1 write of an unlisted OP sets RESULT to 0xFF and does nothing else. -/
  | plaUnlistedOp (op : BitVec 4)
  /-- R461. A running boot command finishes, clearing BUSY and setting RESULT. -/
  | bootCommandCompletion (site : SiteId)
  /-- R462. A junction receives a discovery packet, takes its coordinates and parent on the first, forwards it or echoes at once. -/
  | discoveryPacketArrival (id : Nat)
  /-- R462. A junction or corner receives an echo and, when all are in, echoes to its parent or completes. -/
  | discoveryEchoArrival (id : Nat)
  /-- R462. A forwarded discovery packet unanswered for 2^12 cycles counts as answered by a dead junction. -/
  | discoveryAnswerTimeout (site : SiteId) (port : Port)
  /-- R461. A flash command unanswered for 2^20 cycles is retried once, then LOADIMG fails with result 2. -/
  | flashResponseTimeout (site : SiteId)
  /-- R461. A quadrant that has not joined within 2^24 cycles makes JOIN fail with result 1. -/
  | joinTimeout (site : SiteId)
  /-- R465. A junction accepts a flooded block of points entries from that block's corner and acknowledges it. -/
  | pointsBlockArrival (site : SiteId) (quadrant : BitVec 2)
  /-- R456. The tray reset line or an MHL reset command quiets every site, junction and rim unit. -/
  | resetAssert
  /-- R456. On release each site runs its built-in self-test. -/
  | resetRelease
  /-- R456. A site finishes self-test, clears its scratchpad, copies the boot ROM and starts core 0, or stays fused or failed. -/
  | selfTestComplete (site : SiteId) (result : SelfTest)
  /-- R344. Host command 1: checks a launch, allocates, builds trees and writes bind records, answering with a status. -/
  | launch (cmd : LaunchCmd)
  /-- R400. Host command 2: the loader verifies a flow descriptor and kernel and installs it or refuses with a status. -/
  | installFlow (cmd : InstallCmd)
  /-- R402. Host command 3: clears VALID of a named flow of the job, or completes with status 1. -/
  | removeFlow (tag : W32) (job : BitVec 6) (tile : TileNo) (flow : BitVec 6)
  /-- R286. Host command 4 resume: a parked tile or copy job checks its row or chunk again and continues. -/
  | faultAnswerResume (tag : W32) (job : ParkedJob)
  /-- R286. Host command 4 fail: a parked job ends with FAULT, cause 4 or 5 and ADDR set. -/
  | faultAnswerFail (tag : W32) (job : ParkedJob)
  /-- R144. Host command 5: the dispatcher invalidates every matching TLB entry of the job before completing. -/
  | pageTableChange (tag : W32) (job : BitVec 6)
  /-- R362, R364. Host command 6: resumes a halted or escalated core at its saved level and TPC, or ends the thread of a
  halted one. -/
  | resumeCore (tag : W32) (tile : TileNo) (order : ResumeOrder)
  /-- R362. Host command 7: stops a team on one tile, discards its tasks and ends its threads as exit 0. -/
  | endTeam (tag : W32) (job : BitVec 6) (team : W32)
  /-- R452. Host command 8: clears a failed site's state after a repair test. -/
  | clearFailedSite (tag : W32) (site : SiteId)
  /-- R476. Host command 9: returns an 896-byte report signed by the identity key over a nonce and MR0-MR11. -/
  | attest (tag : W32) (nonce : BitVec 384)
  /-- R476. Host command 10: returns the Melrid device certificate chain. -/
  | readCertificateChain (tag : W32)
  /-- R146. Host command 11: sets the threshold for migration hints. -/
  | setAccessCounterThreshold (tag : W32) (unit : CounterUnit) (value : BitVec 16)
  /-- R477. Host command 12: sets the power limit between 6 and 24 kW. -/
  | setPowerLimit (tag : W32) (watts : Nat)
  /-- R473. A host write through an MHL memory window is performed at its HBM home slice. -/
  | hostWindowWrite (port : BitVec 3) (window : BitVec 3) (span : BitVec 6) (offset : BitVec 36) (data : List Byte)
  /-- R16. A packet reaches its resolved site's junction, which re-resolves it, holds it for an absent entry, or delivers it. -/
  | junctionPacketArrival (id : Nat)
  /-- R25. A flit fails its hop CRC and is resent from the replay buffer, raising a machine check when retries are exhausted. -/
  | flitCrcFailure (site : SiteId) (port : Port) (line : Line) (exhausted : Bool)
  /-- R165. A remote write reaches its home slice, is performed in the word's order and is acknowledged. -/
  | remoteStoreArrival (id : Nat)
  /-- R168. A remote load request reaches its home slice or controller and a reply is sent. -/
  | remoteLoadRequestArrival (id : Nat)
  /-- R148. A reply to a blocking remote access arrives, completes the instruction and is recorded as a determinant. -/
  | replyArrival (id : Nat)
  /-- R152. An acknowledgement of a posted access arrives and its class count falls by 1. -/
  | acknowledgementArrival (id : Nat)
  /-- R160. A put reaches its tile; the payload is performed before the flag or counter changes. -/
  | putArrival (id : Nat)
  /-- R157. A full/empty request reaches its home slice and is performed, queued as a waiter or returned when the table is full. -/
  | fullEmptyRequestArrival (id : Nat)
  /-- R158. A returned full/empty request is resent 64 cycles later. -/
  | fullEmptyResend (id : Nat)
  /-- R335. A remote waita reaches the home slice and returns a status or takes a monitor entry. -/
  | waitaRequestArrival (id : Nat)
  /-- R367. A blocking remote access unanswered 1,400 cycles after a boundary request is cancelled and recorded. -/
  | blockingAccessAbandon (site : SiteId) (core : CoreId)
  /-- R367. A cancel reaches the first holder of the request, which answers dropped or performed. -/
  | cancelArrival (id : Nat)
  /-- R367. The answer to a cancel arrives and is recorded as a determinant for the reissued instruction. -/
  | cancelAnswerArrival (id : Nat)
  /-- R189. A relaxed accumulate reaches its slice and is accepted, queued for a place or refused with a bounce. -/
  | accumulateRequestArrival (id : Nat)
  /-- R180. A slice takes one request from its queue and applies comb to the word. -/
  | accumulateApply (slice : SliceLoc)
  /-- R178. An HBM home slice's missing accumulate line arrives from the stack. -/
  | hbmAccumulateLineRead (slice : SliceLoc) (line : Nat)
  /-- R189. Every 256 cycles a slice clears its 64 budget counters. -/
  | quotaWindowReset (slice : SliceLoc)
  /-- R209. An atomic reaches its home slice and is performed in one indivisible step with its reply. -/
  | atomicRequestArrival (id : Nat)
  /-- R191. A junction merges a matching accumulate with one waiting there. -/
  | junctionMerge (site : SiteId) (first second : Nat)
  /-- R192. A refused merged request returns to the merging junction, which bounces each contributor's addend. -/
  | mergedBounceSplit (id : Nat)
  /-- R190. A bounce reaches the issuing tile and waits in the core's inbound buffer or the junction. -/
  | bounceArrival (id : Nat)
  /-- R194. A bounce is parked into the siding, one per cycle, combining, taking a way or evicting a row. -/
  | bouncePark (site : SiteId) (core : CoreId)
  /-- R196. A siding row's age reaches SDCTL.AGE and it is flushed must-accept. -/
  | sidingAgeFlush (site : SiteId) (core : CoreId) (row : BitVec 5)
  /-- R204. A deterministic accumulate is held, sorted into a run, or evicts a larger key under R205. -/
  | deterministicRequestArrival (id : Nat)
  /-- R329. A barrier arrival reaches a combining junction and is counted and combined upward. -/
  | barrierArrival (id : Nat)
  /-- R331. The root has counted every member and runs the deterministic merge or sends the release. -/
  | barrierRootComplete (domain : DomainKey)
  /-- R206. Slices apply held entries of the domain in ascending key, one per cycle. -/
  | deterministicMerge (domain : DomainKey)
  /-- R206. Members re-send deterministic rows and ring entries in ascending key and wait until each is held or bounced. -/
  | catchUpRound (domain : DomainKey)
  /-- R331. A release reaches a member's tile, setting BST to 2 or being recorded for an away team. -/
  | barrierReleaseArrival (id : Nat)
  /-- R317. A message reaches its tile and is placed in a q register, the inbound buffer, or held by the junction. -/
  | messageArrival (id : Nat)
  /-- R317. The oldest buffered message for a core and q moves into the emptied register 2 cycles later. -/
  | messageBufferMove (site : SiteId) (core : CoreId) (q : BitVec 4)
  /-- R324. The dispatcher moves a message for a saved-away team into its save area. -/
  | messageToSaveArea (site : SiteId) (core : CoreId)
  /-- R163. A far-cache line fill arrives and is installed unless invalidated in flight. -/
  | farCacheFill (id : Nat)
  /-- R109. An instruction-buffer miss fill arrives and replaces the least recently used line. -/
  | instructionBufferFill (site : SiteId) (core : CoreId)
  /-- R144. A rim walker completes a walk and the translation fills the TLBs or raises a fault. -/
  | pageWalkComplete (site : SiteId) (core : CoreId)
  /-- R262. The matrix engine starts one card per cycle by weighted round-robin. -/
  | tileJobStart (site : SiteId) (core : CoreId)
  /-- R266. A tld or tst moves one row, or parks on a translation or permission failure. -/
  | tileJobRow (site : SiteId) (core : CoreId) (card : Nat)
  /-- R263. A tile job completes and its slot, tag flag and flags are updated. -/
  | tileJobComplete (site : SiteId) (core : CoreId) (card : Nat)
  /-- R292. The copy unit starts the oldest eligible card, or hands it to its rim engine. -/
  | copyJobStart (site : SiteId) (core : CoreId)
  /-- R299. A copy job translates, reads and sends one 4 KiB chunk, or parks. -/
  | copyChunk (site : SiteId) (core : CoreId) (card : Nat)
  /-- R308. A chunk reaches a destination, is written and its checksum verified. -/
  | copyChunkArrival (id : Nat)
  /-- R299. A copy job ends, setting its flag, writing STATUS and DONEB and completing its slot. -/
  | copyJobEnd (site : SiteId) (core : CoreId) (card : Nat)
  /-- R353. An idle server takes the oldest queued task and starts it. -/
  | taskClaim (site : SiteId) (core : CoreId)
  /-- R358. A task that has run TLIMIT cycles traps with cause 12. -/
  | taskWatchdog (site : SiteId) (core : CoreId)
  /-- R363. An enabled breakpoint address traps before its instruction issues. -/
  | breakpoint (site : SiteId) (core : CoreId)
  /-- R133. A seeking core becomes a follower at the first boundary where the leader issued its next pc 2 cycles earlier. -/
  | coupleFollow (site : SiteId) (core : CoreId)
  /-- R366. A pre-emption or context save stops the team's cores, takes a boundary and saves the team. -/
  | preemptionRequest (site : SiteId) (team : W32)
  /-- R366. A saved team is bound again on the site that carries its tile and resumes at its saved pc. -/
  | teamRestore (job : BitVec 6) (team : W32)
  /-- R370. A time slice among equal-class teams ends and the dispatcher pre-empts or swaps double-headed tiles. -/
  | timeSliceExpiry (site : SiteId)
  /-- R411. 2^LEN cycles after the last boundary the tile requests a boundary. -/
  | intervalTimer (site : SiteId)
  /-- R430. A sender with a full send log asks a receiver to take a boundary. -/
  | closeRequestArrival (id : Nat)
  /-- R412. The tile stops its cores and units, drains, records its state area and starts the delta copy. -/
  | checkpointBoundary (site : SiteId)
  /-- R416. The buddy holds every line and the state record, and commit notices are sent. -/
  | boundaryCommit (site : SiteId)
  /-- R429. A sender frees its send-log entries covered by a receiver's commit. -/
  | commitNoticeArrival (id : Nat)
  /-- R422. The buddy appends a determinant record to the log in HBM and returns a confirmation. -/
  | determinantRecordArrival (id : Nat)
  /-- R422. A confirmation frees a queued determinant and lets held packets leave. -/
  | determinantConfirmation (id : Nat)
  /-- R427. Every 256 cycles a unit reports its output sequences to its holder. -/
  | outputMarkReport (site : SiteId)
  /-- R434. Every 1,024 cycles a junction sends its tile's heartbeat count to the buddy. -/
  | heartbeat (site : SiteId)
  /-- R434. No heartbeat with a new count arrives within WDLIM x 1,024 cycles, and a watchdog machine check is raised. -/
  | watchdogTimeout (site : SiteId)
  /-- R433. A detected failure stops the tile and sends the crane to fence it and flood a hold. -/
  | machineCheck (site : SiteId) (err : ErrorReport)
  /-- R439. Every junction acknowledges the hold; the crane chooses a reserve and floods the points change. -/
  | holdComplete (tile : TileNo) (place : Option SiteId)
  /-- R439. The new points entry is in every junction and the restoration copy starts. -/
  | pointsChangeComplete (tile : TileNo)
  /-- R439. The shadow image and state record are loaded on the reserve and replay begins. -/
  | restorationComplete (tile : TileNo)
  /-- R444. The last log record is applied, the tile resumes live and held packets are released and resent. -/
  | replayEnd (tile : TileNo)
  /-- R420. A buddy fails and the tile takes a full-image boundary to its HBM buddy. -/
  | holderLoss (site : SiteId)
  /-- R447. A crane fails and the next crane takes over its quadrant and recoveries. -/
  | craneTakeover (crane : BitVec 2)
  /-- R450. 64 x 2^LEN cycles after the last round the dispatcher opens a depot round. -/
  | depotRoundOpen (job : BitVec 6)
  /-- R450. A packet of the newer epoch makes the tile take its depot boundary before performing it. -/
  | depotInducedBoundary (id : Nat)
  /-- R450. Every tile and controller has committed the round and the old round's records are freed. -/
  | depotRoundComplete (job : BitVec 6)
  /-- R451. The whole job is rolled back to the last completed depot round. -/
  | depotRecovery (job : BitVec 6)
  /-- R477. A regulator fault, over-current or 115 C removes power from one domain. -/
  | powerDomainFault (domain : BitVec 6) (kind : PowerFault)
  /-- R477. Draw over 2^16 cycles exceeds the limit and idle cycles are inserted before matrix and copy jobs. -/
  | powerLimitExceeded
  /-- R477. A junction temperature of 105 C inserts idle cycles in the domain. -/
  | temperatureThrottle (domain : BitVec 6)
  /-- R378. A packet for the hosting tile enters the box queue, or bypasses on a job or member mismatch. -/
  | signalBoxPacketArrival (id : Nat)
  /-- R387. The box takes a packet from its queue and runs the flow's kernel within its budget. -/
  | kernelRun (site : SiteId)
  /-- R399. A waiting signal-box trap record is injected when the mailbox path frees. -/
  | trapRecordInject (site : SiteId)
  /-- R405. A type 4 access is performed at the junction between two kernel runs. -/
  | stateWindowAccess (id : Nat)
  /-- R474. A fabric port's retries are exhausted; it leaves every mask and its requests are resent. -/
  | fabricPortLoss (port : BitVec 7)
  /-- R474. A peer with no live port for 2^24 cycles is reported and its blocking accesses trap. -/
  | peerUnreachable (peer : BitVec 8)
  /-- R474. A fabric port learns its partner's wafer number and the stations set the route masks. -/
  | linkTraining (port : BitVec 7) (peer : BitVec 8)
  /-- R84. A word with a reserved major opcode, sub-operation value or field value traps as illegal at issue. -/
  | illegalInstruction (word : W32)
  /-- R475. At boot each station and crane loads and verifies its signed firmware record from the boot flash and extends its measurement register. -/
  | stationAndCraneFirmwareLoad (unit : FirmwareUnit)
  /-- R470. The host writes an MHL port's supervisor-launch enable, which takes effect only before the port carries its first command after reset. -/
  | supervisorLaunchEnableWrite (port : BitVec 3) (value : Bool)
  /-- R471. The host advances the consumer index of a device-written ring, freeing space so that held completion, fault or notification entries can be written. -/
  | consumerIndexWrite (ring : Ring) (index : Nat)
  /-- R416. The buddy finishes applying a committed boundary's staged lines to its shadow image, and only then answers the tile's next boundary. -/
  | shadowApplyComplete (site : SiteId)
  /-- R447. A replaying tile's request for a descriptor payload reaches the sender, which answers it from its send log or lent copy between its other work. -/
  | sendLogFetch (id : Nat)
deriving DecidableEq, Repr

end Sys2Proof
end

