-- ==== Sys2Proof/WellFormed.lean ====
section
/-!
DEFINITION. Which terms of Instr are instructions: the checks of R71, R85, R161, R234, R250, R270 and R386 on the
fields of a word that its field widths do not already make, and the bounds on what an event carries.
-/
namespace Sys2Proof

/-- The format tags that a gather or scatter admits (R250, kind 3): raw, f32, i32, n32. -/
def laneTag (t : BitVec 5) : Bool := t == 0 || t == 1 || t == 6 || t == 9

/-- A bind record names level J, S or M and a window stack on 128-byte bounds (R347). -/
def bindRecordOk : Option BindRecord → Bool
  | none => true
  | some r => r.level.toNat ≤ 2 && r.wbase.toNat % 128 == 0 && r.save.toNat % 2 ^ 21 == 0

/-- The save areas that a launch command's allocation gives begin at multiples of 2 MiB (R347, R368). -/
def launchHbmOk : Option LaunchHbm → Bool
  | none => true
  | some a => a.save % 2 ^ 21 == 0

/-- The term is an instruction of the machine. -/
def Instr.wellFormed : Instr → Bool
  | .add .. => true
  | .sub .. => true
  | .and .. => true
  | .andn .. => true
  | .or .. => true
  | .xor .. => true
  | .sll .. => true
  | .srl .. => true
  | .sra .. => true
  | .rol .. => true
  | .slt .. => true
  | .sltn .. => true
  | .min .. => true
  | .max .. => true
  | .minn .. => true
  | .maxn .. => true
  | .mul .. => true
  | .mulh .. => true
  | .mulhn .. => true
  | .div .. => true
  | .divn .. => true
  | .rem .. => true
  | .remn .. => true
  | .clz .. => true
  | .ctz .. => true
  | .popc .. => true
  | .sextB .. => true
  | .sextH .. => true
  | .sextW .. => true
  | .zextB .. => true
  | .zextH .. => true
  | .zextW .. => true
  | .addi .. => true
  | .andi .. => true
  | .ori .. => true
  | .xori .. => true
  | .slli .. => true
  | .srli .. => true
  | .srai .. => true
  | .roli .. => true
  | .slti .. => true
  | .sltni .. => true
  | .lih .. => true
  | .lipc .. => true
  | .mfc .. => true
  | .mtc .. => true
  | .beq .. => true
  | .bne .. => true
  | .blt .. => true
  | .bge .. => true
  | .bltn .. => true
  | .bgen .. => true
  | .jmp .. => true
  | .call .. => true
  | .jr .. => true
  | .callr .. => true
  | .ret => true
  | .nop => true
  | .trap .. => true
  | .rft => true
  | .halt => true
  | .wfi => true
  | .yield => true
  | .exit .. => true
  | .couple .. => true
  | .uncouple => true
  | .ckpt => true
  | .ldB .. => true
  | .ldH .. => true
  | .ldW .. => true
  | .ldD .. => true
  | .ldBn .. => true
  | .ldHn .. => true
  | .ldWn .. => true
  | .prf .. => true
  | .stB .. => true
  | .stH .. => true
  | .stW .. => true
  | .stD .. => true
  | .ldf .. => true
  | .ldfe .. => true
  | .ste .. => true
  | .stf .. => true
  | .ldtag .. => true
  | .settag .. => true
  | .putsF .. => true
  | .putsC .. => true
  | .putvF .. => true
  | .putvC .. => true
  | .fence => true
  | .fenceR .. => true
  | .waitc c => !(c == 0)
  | .acq => true
  | .rel => true
  | .fenceE => true
  | .accAddI32 .. => true
  | .accAddI64 .. => true
  | .accAddF32 .. => true
  | .accMaxI32 .. => true
  | .accMinI32 .. => true
  | .accOrD .. => true
  | .accAndD .. => true
  | .accXorD .. => true
  | .amoSwapW .. => true
  | .amoSwapD .. => true
  | .amoCasW .. => true
  | .amoCasD .. => true
  | .amoAddW .. => true
  | .amoAddD .. => true
  | .amoFaddF32 .. => true
  | .amoMaxW .. => true
  | .amoMinW .. => true
  | .sdfl => true
  | .sdfla .. => true
  | .sdrd .. => true
  | .sdst .. => true
  | .sdwait => true
  | .vadd .. => true
  | .vsub .. => true
  | .vmul .. => true
  | .vfma .. => true
  | .vfms .. => true
  | .vnfma .. => true
  | .vmax .. => true
  | .vmin .. => true
  | .vabs .. => true
  | .vneg .. => true
  | .vand .. => true
  | .vandn .. => true
  | .vor .. => true
  | .vxor .. => true
  | .vsll .. => true
  | .vsrl .. => true
  | .vsra .. => true
  | .vmov .. => true
  | .vsel .. => true
  | .vaddC d s m => !(d == 0 && s == 0 && m == 0)
  | .vsubC .. => true
  | .vmulC .. => true
  | .vmaxC .. => true
  | .vminC .. => true
  | .vandC .. => true
  | .vandnC .. => true
  | .vorC .. => true
  | .vxorC .. => true
  | .vmovC .. => true
  | .vabsC .. => true
  | .vnegC .. => true
  | .vsllC .. => true
  | .vsrlC .. => true
  | .vsraC .. => true
  | .vfmacC .. => true
  | .vceq .. => true
  | .vcne .. => true
  | .vclt .. => true
  | .vcle .. => true
  | .vcgt .. => true
  | .vcge .. => true
  | .vcun .. => true
  | .pand .. => true
  | .por .. => true
  | .pxor .. => true
  | .pnot .. => true
  | .pmov .. => true
  | .pmovxToPredicate .. => true
  | .pmovxToScalar .. => true
  | .vcvt _ _ t _ _ => 1 ≤ t.toNat && t.toNat ≤ 11
  | .vcvtSr _ _ t _ _ => 1 ≤ t.toNat && t.toNat ≤ 5
  | .vtag _ _ t => t.toNat ≤ 12
  | .vperm .. => true
  | .vslup .. => true
  | .vsldn .. => true
  | .vbcast .. => true
  | .vext .. => true
  | .vins .. => true
  | .vzip .. => true
  | .vunzip .. => true
  | .vredadd .. => true
  | .vredmax .. => true
  | .vredmin .. => true
  | .vld _ _ _ _ _ t => t.toNat ≤ 11
  | .vlds _ _ _ _ t => t.toNat ≤ 11
  | .vldq .. => true
  | .vgth _ _ _ _ t => laneTag t
  | .vst _ _ _ _ _ t => t.toNat ≤ 11
  | .vsts _ _ _ _ t => t.toNat ≤ 11
  | .vstq .. => true
  | .vsct _ _ _ _ t => laneTag t
  | .vaccF32 .. => true
  | .vaccI32 .. => true
  | .vrndi .. => true
  | .vcvti .. => true
  | .vfexp .. => true
  | .vexpins .. => true
  | .vgetexp .. => true
  | .vrcp .. => true
  | .vrsq .. => true
  | .vqnt .. => true
  | .vcvts .. => true
  | .vdq .. => true
  | .barq .. => true
  | .tld .. => true
  | .tst .. => true
  | .mma c a b _ => !(c == a) && !(c == b)
  | .mmaZ c a b _ => !(c == a) && !(c == b)
  | .mmaN c a b _ => !(c == a) && !(c == b)
  | .mmaZn c a b _ => !(c == a) && !(c == b)
  | .tzero .. => true
  | .tmov .. => true
  | .ttr .. => true
  | .tcvt .. => true
  | .tadd .. => true
  | .trowv .. => true
  | .tvrow .. => true
  | .twait .. => true
  | .tpoll .. => true
  | .twaitall .. => true
  | .copy .. => true
  | .copyc .. => true
  | .mcast .. => true
  | .cwait .. => true
  | .cpoll .. => true
  | .send .. => true
  | .sendv .. => true
  | .recv .. => true
  | .recvv .. => true
  | .qstat .. => true
  | .sync .. => true
  | .arrive .. => true
  | .await .. => true
  | .waita .. => true
  | .cntinc .. => true
  | .cntrst .. => true
  | .cntwait .. => true
  | .spawn .. => true
  | .tjoin .. => true
  | .tstat .. => true
  | .sbNop => true
  | .sbAdd .. => true
  | .sbAddImm .. => true
  | .sbSub .. => true
  | .sbSubImm .. => true
  | .sbAnd .. => true
  | .sbAndImm .. => true
  | .sbOr .. => true
  | .sbOrImm .. => true
  | .sbXor .. => true
  | .sbXorImm .. => true
  | .sbShl .. => true
  | .sbShlImm .. => true
  | .sbShr .. => true
  | .sbShrImm .. => true
  | .sbLi .. => true
  | .sbLih .. => true
  | .sbBfz .. => true
  | .sbBfnz .. => true
  | .sbRpt .. => true
  | .sbDone => true
  | .sbDrop => true
  | .sbReroute .. => true
  | .sbLdst .. => true
  | .sbStst .. => true
  | .sbVldst .. => true
  | .sbVstst .. => true
  | .sbVrdp .. => true
  | .sbVwrp .. => true
  | .sbRdh _ i => i.toNat ≤ 13
  | .sbVaddi .. => true
  | .sbVaddf .. => true
  | .sbVmulf .. => true
  | .sbVmaxf .. => true
  | .sbVminf .. => true
  | .sbVmaxi .. => true
  | .sbVand .. => true
  | .sbVor .. => true
  | .sbVxor .. => true
  | .sbVcvtbfF2b .. => true
  | .sbVcvtbfB2f .. => true
  | .sbVsum .. => true
  | .sbVcmpf .. => true
  | .sbVself .. => true
  | .sbTrap .. => true
  | .sbStamp .. => true
  | .sbEmit .. => true
  | .ptbaseWrite .. => true
  | .accmodeWrite .. => true
  | .srseedWrite .. => true
  | .evcWrite .. => true
  | .fflagsAccess .. => true
  | .errdataClear => true
  | .pointsEntryWrite .. => true
  | .bindRecordWrite _ _ rec => bindRecordOk rec
  | .discover .. => true
  | .ptflood .. => true
  | .loadimg .. => true
  | .join .. => true
  | .handoff .. => true
  | .plaUnlistedOp op => op == 0 || 6 ≤ op.toNat
  | .bootCommandCompletion .. => true
  | .discoveryPacketArrival .. => true
  | .discoveryEchoArrival .. => true
  | .discoveryAnswerTimeout .. => true
  | .flashResponseTimeout .. => true
  | .joinTimeout .. => true
  | .pointsBlockArrival .. => true
  | .resetAssert => true
  | .resetRelease => true
  | .selfTestComplete .. => true
  | .launch cmd => launchHbmOk cmd.hbm
  | .installFlow .. => true
  | .removeFlow .. => true
  | .faultAnswerResume .. => true
  | .faultAnswerFail .. => true
  | .pageTableChange .. => true
  | .resumeCore .. => true
  | .endTeam .. => true
  | .clearFailedSite .. => true
  | .attest .. => true
  | .readCertificateChain .. => true
  | .setAccessCounterThreshold .. => true
  | .setPowerLimit .. => true
  | .hostWindowWrite _ _ _ offset data => 0 < data.length && offset.toNat + data.length ≤ 0x1000000000
  | .junctionPacketArrival .. => true
  | .flitCrcFailure .. => true
  | .remoteStoreArrival .. => true
  | .remoteLoadRequestArrival .. => true
  | .replyArrival .. => true
  | .acknowledgementArrival .. => true
  | .putArrival .. => true
  | .fullEmptyRequestArrival .. => true
  | .fullEmptyResend .. => true
  | .waitaRequestArrival .. => true
  | .blockingAccessAbandon .. => true
  | .cancelArrival .. => true
  | .cancelAnswerArrival .. => true
  | .accumulateRequestArrival .. => true
  | .accumulateApply .. => true
  | .hbmAccumulateLineRead .. => true
  | .quotaWindowReset .. => true
  | .atomicRequestArrival .. => true
  | .junctionMerge .. => true
  | .mergedBounceSplit .. => true
  | .bounceArrival .. => true
  | .bouncePark .. => true
  | .sidingAgeFlush .. => true
  | .deterministicRequestArrival .. => true
  | .barrierArrival .. => true
  | .barrierRootComplete .. => true
  | .deterministicMerge .. => true
  | .catchUpRound .. => true
  | .barrierReleaseArrival .. => true
  | .messageArrival .. => true
  | .messageBufferMove .. => true
  | .messageToSaveArea .. => true
  | .farCacheFill .. => true
  | .instructionBufferFill .. => true
  | .pageWalkComplete .. => true
  | .tileJobStart .. => true
  | .tileJobRow .. => true
  | .tileJobComplete .. => true
  | .copyJobStart .. => true
  | .copyChunk .. => true
  | .copyChunkArrival .. => true
  | .copyJobEnd .. => true
  | .taskClaim .. => true
  | .taskWatchdog .. => true
  | .breakpoint .. => true
  | .coupleFollow .. => true
  | .preemptionRequest .. => true
  | .teamRestore .. => true
  | .timeSliceExpiry .. => true
  | .intervalTimer .. => true
  | .closeRequestArrival .. => true
  | .checkpointBoundary .. => true
  | .boundaryCommit .. => true
  | .commitNoticeArrival .. => true
  | .determinantRecordArrival .. => true
  | .determinantConfirmation .. => true
  | .outputMarkReport .. => true
  | .heartbeat .. => true
  | .watchdogTimeout .. => true
  | .machineCheck .. => true
  | .holdComplete .. => true
  | .pointsChangeComplete .. => true
  | .restorationComplete .. => true
  | .replayEnd .. => true
  | .holderLoss .. => true
  | .craneTakeover .. => true
  | .depotRoundOpen .. => true
  | .depotInducedBoundary .. => true
  | .depotRoundComplete .. => true
  | .depotRecovery .. => true
  | .powerDomainFault .. => true
  | .powerLimitExceeded => true
  | .temperatureThrottle .. => true
  | .signalBoxPacketArrival .. => true
  | .kernelRun .. => true
  | .trapRecordInject .. => true
  | .stateWindowAccess .. => true
  | .fabricPortLoss .. => true
  | .peerUnreachable .. => true
  | .linkTraining .. => true
  | .illegalInstruction .. => true
  | .stationAndCraneFirmwareLoad .. => true
  | .supervisorLaunchEnableWrite .. => true
  | .consumerIndexWrite .. => true
  | .shadowApplyComplete .. => true
  | .sendLogFetch .. => true

end Sys2Proof
end

