-- ==== Sys2Proof/Decode.lean ====
section
/-!
DEFINITION. The decoder of core and signal-box words (R70-R86, R384-R386), total on any bytes, and the encoder written
from the same encodings. A word the decoder refuses is one that R84-R86 or R386 calls illegal on its fields alone.
-/
namespace Sys2Proof

/-- Bits [lo + len - 1 : lo] of a word read as a number (R2). -/
def fld (w lo len : Nat) : Nat := w / 2 ^ lo % 2 ^ len

/-- The same bits as a bit vector. -/
def bits (w lo len : Nat) : BitVec len := BitVec.ofNat len (w / 2 ^ lo)

/-- The words with MAJ 0x01 (R83; R111, R112). -/
def decodeAlu (w : Nat) : Option Instr :=
  match fld w 22 10 with
  | 0 => some (.add (bits w 7 5) (bits w 12 5) (bits w 17 5))
  | 1 => some (.sub (bits w 7 5) (bits w 12 5) (bits w 17 5))
  | 2 => some (.and (bits w 7 5) (bits w 12 5) (bits w 17 5))
  | 3 => some (.andn (bits w 7 5) (bits w 12 5) (bits w 17 5))
  | 4 => some (.or (bits w 7 5) (bits w 12 5) (bits w 17 5))
  | 5 => some (.xor (bits w 7 5) (bits w 12 5) (bits w 17 5))
  | 6 => some (.sll (bits w 7 5) (bits w 12 5) (bits w 17 5))
  | 7 => some (.srl (bits w 7 5) (bits w 12 5) (bits w 17 5))
  | 8 => some (.sra (bits w 7 5) (bits w 12 5) (bits w 17 5))
  | 9 => some (.rol (bits w 7 5) (bits w 12 5) (bits w 17 5))
  | 10 => some (.slt (bits w 7 5) (bits w 12 5) (bits w 17 5))
  | 11 => some (.sltn (bits w 7 5) (bits w 12 5) (bits w 17 5))
  | 12 => some (.min (bits w 7 5) (bits w 12 5) (bits w 17 5))
  | 13 => some (.max (bits w 7 5) (bits w 12 5) (bits w 17 5))
  | 14 => some (.minn (bits w 7 5) (bits w 12 5) (bits w 17 5))
  | 15 => some (.maxn (bits w 7 5) (bits w 12 5) (bits w 17 5))
  | 16 => some (.mul (bits w 7 5) (bits w 12 5) (bits w 17 5))
  | 17 => some (.mulh (bits w 7 5) (bits w 12 5) (bits w 17 5))
  | 18 => some (.mulhn (bits w 7 5) (bits w 12 5) (bits w 17 5))
  | 19 => some (.div (bits w 7 5) (bits w 12 5) (bits w 17 5))
  | 20 => some (.divn (bits w 7 5) (bits w 12 5) (bits w 17 5))
  | 21 => some (.rem (bits w 7 5) (bits w 12 5) (bits w 17 5))
  | 22 => some (.remn (bits w 7 5) (bits w 12 5) (bits w 17 5))
  | 23 =>
    if fld w 17 5 = 0 then some (.clz (bits w 7 5) (bits w 12 5))
    else none
  | 24 =>
    if fld w 17 5 = 0 then some (.ctz (bits w 7 5) (bits w 12 5))
    else none
  | 25 =>
    if fld w 17 5 = 0 then some (.popc (bits w 7 5) (bits w 12 5))
    else none
  | 26 =>
    if fld w 17 5 = 0 then some (.sextB (bits w 7 5) (bits w 12 5))
    else none
  | 27 =>
    if fld w 17 5 = 0 then some (.sextH (bits w 7 5) (bits w 12 5))
    else none
  | 28 =>
    if fld w 17 5 = 0 then some (.sextW (bits w 7 5) (bits w 12 5))
    else none
  | 29 =>
    if fld w 17 5 = 0 then some (.zextB (bits w 7 5) (bits w 12 5))
    else none
  | 30 =>
    if fld w 17 5 = 0 then some (.zextH (bits w 7 5) (bits w 12 5))
    else none
  | 31 =>
    if fld w 17 5 = 0 then some (.zextW (bits w 7 5) (bits w 12 5))
    else none
  | _ => none

/-- The words with MAJ 0x02 (R83; R113). -/
def decodeAddi (w : Nat) : Option Instr :=
  some (.addi (bits w 7 5) (bits w 12 5) (bits w 17 15))

/-- The words with MAJ 0x03 (R83; R113). -/
def decodeAndi (w : Nat) : Option Instr :=
  some (.andi (bits w 7 5) (bits w 12 5) (bits w 17 15))

/-- The words with MAJ 0x04 (R83; R113). -/
def decodeOri (w : Nat) : Option Instr :=
  some (.ori (bits w 7 5) (bits w 12 5) (bits w 17 15))

/-- The words with MAJ 0x05 (R83; R113). -/
def decodeXori (w : Nat) : Option Instr :=
  some (.xori (bits w 7 5) (bits w 12 5) (bits w 17 15))

/-- The words with MAJ 0x06 (R83; R114). -/
def decodeShi (w : Nat) : Option Instr :=
  match fld w 23 2 with
  | 0 =>
    if fld w 25 7 = 0 then some (.slli (bits w 7 5) (bits w 12 5) (bits w 17 6))
    else none
  | 1 =>
    if fld w 25 7 = 0 then some (.srli (bits w 7 5) (bits w 12 5) (bits w 17 6))
    else none
  | 2 =>
    if fld w 25 7 = 0 then some (.srai (bits w 7 5) (bits w 12 5) (bits w 17 6))
    else none
  | 3 =>
    if fld w 25 7 = 0 then some (.roli (bits w 7 5) (bits w 12 5) (bits w 17 6))
    else none
  | _ => none

/-- The words with MAJ 0x07 (R83; R115). -/
def decodeCmpi (w : Nat) : Option Instr :=
  match fld w 31 1 with
  | 0 => some (.slti (bits w 7 5) (bits w 12 5) (bits w 17 14))
  | 1 => some (.sltni (bits w 7 5) (bits w 12 5) (bits w 17 14))
  | _ => none

/-- The words with MAJ 0x08 (R83; R116). -/
def decodeLih (w : Nat) : Option Instr :=
  some (.lih (bits w 7 5) (bits w 12 20))

/-- The words with MAJ 0x09 (R83; R116). -/
def decodeLipc (w : Nat) : Option Instr :=
  some (.lipc (bits w 7 5) (bits w 12 20))

/-- The words with MAJ 0x0A (R83; R127). -/
def decodeCreg (w : Nat) : Option Instr :=
  match fld w 12 1 with
  | 0 =>
    if fld w 25 7 = 0 then some (.mfc (bits w 7 5) (bits w 13 12))
    else none
  | 1 =>
    if fld w 25 7 = 0 then some (.mtc (bits w 7 5) (bits w 13 12))
    else none
  | _ => none

/-- The words with MAJ 0x0B (R83; R117). -/
def decodeBr (w : Nat) : Option Instr :=
  match fld w 17 3 with
  | 0 => some (.beq (bits w 7 5) (bits w 12 5) (bits w 20 12))
  | 1 => some (.bne (bits w 7 5) (bits w 12 5) (bits w 20 12))
  | 2 => some (.blt (bits w 7 5) (bits w 12 5) (bits w 20 12))
  | 3 => some (.bge (bits w 7 5) (bits w 12 5) (bits w 20 12))
  | 4 => some (.bltn (bits w 7 5) (bits w 12 5) (bits w 20 12))
  | 5 => some (.bgen (bits w 7 5) (bits w 12 5) (bits w 20 12))
  | _ => none

/-- The words with MAJ 0x0C (R83; R118). -/
def decodeJmp (w : Nat) : Option Instr :=
  some (.jmp (bits w 7 25))

/-- The words with MAJ 0x0D (R83; R122). -/
def decodeCall (w : Nat) : Option Instr :=
  some (.call (bits w 7 25))

/-- The words with MAJ 0x0E (R83; R119, R122, R123). -/
def decodeJind (w : Nat) : Option Instr :=
  match fld w 22 10 with
  | 0 =>
    if fld w 7 5 = 0 ∧ fld w 17 5 = 0 then some (.jr (bits w 12 5))
    else none
  | 1 =>
    if fld w 7 5 = 0 ∧ fld w 17 5 = 0 then some (.callr (bits w 12 5))
    else none
  | 2 =>
    if fld w 7 15 = 0 then some .ret
    else none
  | _ => none

/-- The words with MAJ 0x0F (R83; R129, R130, R131, R132, R133, R134, R356, R361, R365, R453). -/
def decodeSys (w : Nat) : Option Instr :=
  match fld w 22 10 with
  | 0 =>
    if fld w 7 15 = 0 then some .nop
    else none
  | 1 =>
    if fld w 7 5 = 0 then some (.trap (bits w 12 10))
    else none
  | 2 =>
    if fld w 7 15 = 0 then some .rft
    else none
  | 3 =>
    if fld w 7 15 = 0 then some .halt
    else none
  | 4 =>
    if fld w 7 15 = 0 then some .wfi
    else none
  | 5 =>
    if fld w 7 15 = 0 then some .yield
    else none
  | 6 =>
    if fld w 7 5 = 0 then some (.exit (bits w 12 10))
    else none
  | 7 =>
    if fld w 7 5 = 0 ∧ fld w 15 7 = 0 then some (.couple (bits w 12 3))
    else none
  | 8 =>
    if fld w 7 15 = 0 then some .uncouple
    else none
  | 9 =>
    if fld w 7 15 = 0 then some .ckpt
    else none
  | _ => none

/-- The words with MAJ 0x10 (R83; R148, R151). -/
def decodeLd (w : Nat) : Option Instr :=
  match fld w 19 3 with
  | 0 => some (.ldB (bits w 7 5) (bits w 12 5) (bits w 17 2) (bits w 22 10))
  | 1 => some (.ldH (bits w 7 5) (bits w 12 5) (bits w 17 2) (bits w 22 10))
  | 2 => some (.ldW (bits w 7 5) (bits w 12 5) (bits w 17 2) (bits w 22 10))
  | 3 => some (.ldD (bits w 7 5) (bits w 12 5) (bits w 17 2) (bits w 22 10))
  | 4 => some (.ldBn (bits w 7 5) (bits w 12 5) (bits w 17 2) (bits w 22 10))
  | 5 => some (.ldHn (bits w 7 5) (bits w 12 5) (bits w 17 2) (bits w 22 10))
  | 6 => some (.ldWn (bits w 7 5) (bits w 12 5) (bits w 17 2) (bits w 22 10))
  | 7 =>
    if fld w 7 5 = 0 then some (.prf (bits w 12 5) (bits w 17 2) (bits w 22 10))
    else none
  | _ => none

/-- The words with MAJ 0x11 (R83; R149). -/
def decodeSt (w : Nat) : Option Instr :=
  match fld w 19 3 with
  | 0 => some (.stB (bits w 7 5) (bits w 12 5) (bits w 17 2) (bits w 22 10))
  | 1 => some (.stH (bits w 7 5) (bits w 12 5) (bits w 17 2) (bits w 22 10))
  | 2 => some (.stW (bits w 7 5) (bits w 12 5) (bits w 17 2) (bits w 22 10))
  | 3 => some (.stD (bits w 7 5) (bits w 12 5) (bits w 17 2) (bits w 22 10))
  | _ => none

/-- The words with MAJ 0x12 (R83; R156). -/
def decodeFe (w : Nat) : Option Instr :=
  match fld w 19 3 with
  | 0 => some (.ldf (bits w 7 5) (bits w 12 5) (bits w 17 2) (bits w 22 10))
  | 1 => some (.ldfe (bits w 7 5) (bits w 12 5) (bits w 17 2) (bits w 22 10))
  | 2 => some (.ste (bits w 7 5) (bits w 12 5) (bits w 17 2) (bits w 22 10))
  | 3 => some (.stf (bits w 7 5) (bits w 12 5) (bits w 17 2) (bits w 22 10))
  | 4 => some (.ldtag (bits w 7 5) (bits w 12 5) (bits w 17 2) (bits w 22 10))
  | 5 => some (.settag (bits w 7 5) (bits w 12 5) (bits w 17 2) (bits w 22 10))
  | _ => none

/-- The words with MAJ 0x13 (R83; R159). -/
def decodePut (w : Nat) : Option Instr :=
  match fld w 22 10 with
  | 0 => some (.putsF (bits w 7 5) (bits w 12 5) (bits w 17 5))
  | 1 => some (.putsC (bits w 7 5) (bits w 12 5) (bits w 17 5))
  | 2 => some (.putvF (bits w 7 5) (bits w 12 5) (bits w 17 5))
  | 3 => some (.putvC (bits w 7 5) (bits w 12 5) (bits w 17 5))
  | _ => none

/-- The words with MAJ 0x14 (R83; R162). -/
def decodeOrd (w : Nat) : Option Instr :=
  match fld w 22 10 with
  | 0 =>
    if fld w 7 15 = 0 then some .fence
    else none
  | 1 =>
    if fld w 7 5 = 0 ∧ fld w 17 5 = 0 then some (.fenceR (bits w 12 5))
    else none
  | 2 =>
    if fld w 7 5 = 0 ∧ fld w 15 7 = 0 then some (.waitc (bits w 12 3))
    else none
  | 3 =>
    if fld w 7 15 = 0 then some .acq
    else none
  | 4 =>
    if fld w 7 15 = 0 then some .rel
    else none
  | 5 =>
    if fld w 7 15 = 0 then some .fenceE
    else none
  | _ => none

/-- The words with MAJ 0x15 (R83; R186). -/
def decodeAcc (w : Nat) : Option Instr :=
  match fld w 19 3 with
  | 0 => some (.accAddI32 (bits w 7 5) (bits w 12 5) (bits w 17 2) (bits w 22 10))
  | 1 => some (.accAddI64 (bits w 7 5) (bits w 12 5) (bits w 17 2) (bits w 22 10))
  | 2 => some (.accAddF32 (bits w 7 5) (bits w 12 5) (bits w 17 2) (bits w 22 10))
  | 3 => some (.accMaxI32 (bits w 7 5) (bits w 12 5) (bits w 17 2) (bits w 22 10))
  | 4 => some (.accMinI32 (bits w 7 5) (bits w 12 5) (bits w 17 2) (bits w 22 10))
  | 5 => some (.accOrD (bits w 7 5) (bits w 12 5) (bits w 17 2) (bits w 22 10))
  | 6 => some (.accAndD (bits w 7 5) (bits w 12 5) (bits w 17 2) (bits w 22 10))
  | 7 => some (.accXorD (bits w 7 5) (bits w 12 5) (bits w 17 2) (bits w 22 10))
  | _ => none

/-- The words with MAJ 0x16 (R83; R209, R210). -/
def decodeAmo (w : Nat) : Option Instr :=
  match fld w 22 10 with
  | 0 => some (.amoSwapW (bits w 7 5) (bits w 12 5) (bits w 17 5))
  | 1 => some (.amoSwapD (bits w 7 5) (bits w 12 5) (bits w 17 5))
  | 2 => some (.amoCasW (bits w 7 5) (bits w 12 5) (bits w 17 5))
  | 3 => some (.amoCasD (bits w 7 5) (bits w 12 5) (bits w 17 5))
  | 4 => some (.amoAddW (bits w 7 5) (bits w 12 5) (bits w 17 5))
  | 5 => some (.amoAddD (bits w 7 5) (bits w 12 5) (bits w 17 5))
  | 6 => some (.amoFaddF32 (bits w 7 5) (bits w 12 5) (bits w 17 5))
  | 7 => some (.amoMaxW (bits w 7 5) (bits w 12 5) (bits w 17 5))
  | 8 => some (.amoMinW (bits w 7 5) (bits w 12 5) (bits w 17 5))
  | _ => none

/-- The words with MAJ 0x17 (R83; R202). -/
def decodeSiding (w : Nat) : Option Instr :=
  match fld w 22 10 with
  | 0 =>
    if fld w 7 15 = 0 then some .sdfl
    else none
  | 1 =>
    if fld w 7 5 = 0 ∧ fld w 17 5 = 0 then some (.sdfla (bits w 12 5))
    else none
  | 2 => some (.sdrd (bits w 7 5) (bits w 12 5) (bits w 17 5))
  | 3 =>
    if fld w 12 10 = 0 then some (.sdst (bits w 7 5))
    else none
  | 4 =>
    if fld w 7 15 = 0 then some .sdwait
    else none
  | _ => none

/-- The words with MAJ 0x18 (R83; R226, R229, R230). -/
def decodeVarith (w : Nat) : Option Instr :=
  match fld w 26 6 with
  | 0 => some (.vadd (bits w 7 5) (bits w 12 5) (bits w 17 5) (bits w 22 3) (bits w 25 1))
  | 1 => some (.vsub (bits w 7 5) (bits w 12 5) (bits w 17 5) (bits w 22 3) (bits w 25 1))
  | 2 => some (.vmul (bits w 7 5) (bits w 12 5) (bits w 17 5) (bits w 22 3) (bits w 25 1))
  | 3 => some (.vfma (bits w 7 5) (bits w 12 5) (bits w 17 5) (bits w 22 3) (bits w 25 1))
  | 4 => some (.vfms (bits w 7 5) (bits w 12 5) (bits w 17 5) (bits w 22 3) (bits w 25 1))
  | 5 => some (.vnfma (bits w 7 5) (bits w 12 5) (bits w 17 5) (bits w 22 3) (bits w 25 1))
  | 6 => some (.vmax (bits w 7 5) (bits w 12 5) (bits w 17 5) (bits w 22 3) (bits w 25 1))
  | 7 => some (.vmin (bits w 7 5) (bits w 12 5) (bits w 17 5) (bits w 22 3) (bits w 25 1))
  | 8 =>
    if fld w 17 5 = 0 then some (.vabs (bits w 7 5) (bits w 12 5) (bits w 22 3) (bits w 25 1))
    else none
  | 9 =>
    if fld w 17 5 = 0 then some (.vneg (bits w 7 5) (bits w 12 5) (bits w 22 3) (bits w 25 1))
    else none
  | 10 => some (.vand (bits w 7 5) (bits w 12 5) (bits w 17 5) (bits w 22 3) (bits w 25 1))
  | 11 => some (.vandn (bits w 7 5) (bits w 12 5) (bits w 17 5) (bits w 22 3) (bits w 25 1))
  | 12 => some (.vor (bits w 7 5) (bits w 12 5) (bits w 17 5) (bits w 22 3) (bits w 25 1))
  | 13 => some (.vxor (bits w 7 5) (bits w 12 5) (bits w 17 5) (bits w 22 3) (bits w 25 1))
  | 14 => some (.vsll (bits w 7 5) (bits w 12 5) (bits w 17 5) (bits w 22 3) (bits w 25 1))
  | 15 => some (.vsrl (bits w 7 5) (bits w 12 5) (bits w 17 5) (bits w 22 3) (bits w 25 1))
  | 16 => some (.vsra (bits w 7 5) (bits w 12 5) (bits w 17 5) (bits w 22 3) (bits w 25 1))
  | 17 =>
    if fld w 17 5 = 0 then some (.vmov (bits w 7 5) (bits w 12 5) (bits w 22 3) (bits w 25 1))
    else none
  | 18 => some (.vsel (bits w 7 5) (bits w 12 5) (bits w 17 5) (bits w 22 3) (bits w 25 1))
  | _ => none

/-- The words with MAJ 0x19 (R83; R232, R233). -/
def decodeVcmp (w : Nat) : Option Instr :=
  match fld w 26 6 with
  | 0 =>
    if fld w 10 2 = 0 then some (.vceq (bits w 7 3) (bits w 12 5) (bits w 17 5) (bits w 22 3) (bits w 25 1))
    else none
  | 1 =>
    if fld w 10 2 = 0 then some (.vcne (bits w 7 3) (bits w 12 5) (bits w 17 5) (bits w 22 3) (bits w 25 1))
    else none
  | 2 =>
    if fld w 10 2 = 0 then some (.vclt (bits w 7 3) (bits w 12 5) (bits w 17 5) (bits w 22 3) (bits w 25 1))
    else none
  | 3 =>
    if fld w 10 2 = 0 then some (.vcle (bits w 7 3) (bits w 12 5) (bits w 17 5) (bits w 22 3) (bits w 25 1))
    else none
  | 4 =>
    if fld w 10 2 = 0 then some (.vcgt (bits w 7 3) (bits w 12 5) (bits w 17 5) (bits w 22 3) (bits w 25 1))
    else none
  | 5 =>
    if fld w 10 2 = 0 then some (.vcge (bits w 7 3) (bits w 12 5) (bits w 17 5) (bits w 22 3) (bits w 25 1))
    else none
  | 6 =>
    if fld w 10 2 = 0 then some (.vcun (bits w 7 3) (bits w 12 5) (bits w 17 5) (bits w 22 3) (bits w 25 1))
    else none
  | 7 =>
    if fld w 10 2 = 0 ∧ fld w 15 2 = 0 ∧ fld w 20 6 = 0 then some (.pand (bits w 7 3) (bits w 12 3) (bits w 17 3))
    else none
  | 8 =>
    if fld w 10 2 = 0 ∧ fld w 15 2 = 0 ∧ fld w 20 6 = 0 then some (.por (bits w 7 3) (bits w 12 3) (bits w 17 3))
    else none
  | 9 =>
    if fld w 10 2 = 0 ∧ fld w 15 2 = 0 ∧ fld w 20 6 = 0 then some (.pxor (bits w 7 3) (bits w 12 3) (bits w 17 3))
    else none
  | 10 =>
    if fld w 10 2 = 0 ∧ fld w 15 11 = 0 then some (.pnot (bits w 7 3) (bits w 12 3))
    else none
  | 11 =>
    if fld w 10 2 = 0 ∧ fld w 15 11 = 0 then some (.pmov (bits w 7 3) (bits w 12 3))
    else none
  | 12 =>
    if fld w 10 2 = 0 ∧ fld w 17 9 = 0 then some (.pmovxToPredicate (bits w 7 3) (bits w 12 5))
    else   if fld w 15 11 = 4 then some (.pmovxToScalar (bits w 7 5) (bits w 12 3))
    else none
  | _ => none

/-- The words with MAJ 0x1A (R83; R235, R236, R237). -/
def decodeVcvt (w : Nat) : Option Instr :=
  match fld w 26 6 with
  | 0 => some (.vcvt (bits w 7 5) (bits w 12 5) (bits w 17 5) (bits w 22 3) (bits w 25 1))
  | 1 => some (.vcvtSr (bits w 7 5) (bits w 12 5) (bits w 17 5) (bits w 22 3) (bits w 25 1))
  | 2 =>
    if fld w 22 4 = 0 then some (.vtag (bits w 7 5) (bits w 12 5) (bits w 17 5))
    else none
  | _ => none

/-- The words with MAJ 0x1B (R83; R238, R239, R241). -/
def decodeVperm (w : Nat) : Option Instr :=
  match fld w 26 6 with
  | 0 => some (.vperm (bits w 7 5) (bits w 12 5) (bits w 17 5) (bits w 22 3) (bits w 25 1))
  | 1 => some (.vslup (bits w 7 5) (bits w 12 5) (bits w 17 5) (bits w 22 3) (bits w 25 1))
  | 2 => some (.vsldn (bits w 7 5) (bits w 12 5) (bits w 17 5) (bits w 22 3) (bits w 25 1))
  | 3 => some (.vbcast (bits w 7 5) (bits w 12 5) (bits w 17 5) (bits w 22 3) (bits w 25 1))
  | 4 =>
    if fld w 22 4 = 0 then some (.vext (bits w 7 5) (bits w 12 5) (bits w 17 5))
    else none
  | 5 =>
    if fld w 22 4 = 0 then some (.vins (bits w 7 5) (bits w 12 5) (bits w 17 5))
    else none
  | 6 => some (.vzip (bits w 7 5) (bits w 12 5) (bits w 17 5) (bits w 22 3) (bits w 25 1))
  | 7 => some (.vunzip (bits w 7 5) (bits w 12 5) (bits w 17 5) (bits w 22 3) (bits w 25 1))
  | 8 =>
    if fld w 17 5 = 0 then some (.vredadd (bits w 7 5) (bits w 12 5) (bits w 22 3) (bits w 25 1))
    else none
  | 9 =>
    if fld w 17 5 = 0 then some (.vredmax (bits w 7 5) (bits w 12 5) (bits w 22 3) (bits w 25 1))
    else none
  | 10 =>
    if fld w 17 5 = 0 then some (.vredmin (bits w 7 5) (bits w 12 5) (bits w 22 3) (bits w 25 1))
    else none
  | _ => none

/-- The words with MAJ 0x1C (R83; R251, R253). -/
def decodeVldx (w : Nat) : Option Instr :=
  match fld w 29 3 with
  | 0 =>
    if fld w 21 1 = 0 then some (.vld (bits w 7 5) (bits w 12 5) (bits w 17 3) (bits w 20 1) (bits w 22 2) (bits w 24 5))
    else none
  | 1 => some (.vlds (bits w 7 5) (bits w 12 5) (bits w 17 5) (bits w 22 2) (bits w 24 5))
  | 2 =>
    if fld w 24 5 = 12 then some (.vldq (bits w 7 5) (bits w 12 5) (bits w 17 5) (bits w 22 2))
    else none
  | 3 => some (.vgth (bits w 7 5) (bits w 12 5) (bits w 17 5) (bits w 22 2) (bits w 24 5))
  | _ => none

/-- The words with MAJ 0x1D (R83; R251, R253). -/
def decodeVstx (w : Nat) : Option Instr :=
  match fld w 29 3 with
  | 0 =>
    if fld w 21 1 = 0 then some (.vst (bits w 7 5) (bits w 12 5) (bits w 17 3) (bits w 20 1) (bits w 22 2) (bits w 24 5))
    else none
  | 1 => some (.vsts (bits w 7 5) (bits w 12 5) (bits w 17 5) (bits w 22 2) (bits w 24 5))
  | 2 =>
    if fld w 24 5 = 12 then some (.vstq (bits w 7 5) (bits w 12 5) (bits w 17 5) (bits w 22 2))
    else none
  | 3 => some (.vsct (bits w 7 5) (bits w 12 5) (bits w 17 5) (bits w 22 2) (bits w 24 5))
  | _ => none

/-- The words with MAJ 0x1E (R83; R211). -/
def decodeVacc (w : Nat) : Option Instr :=
  match fld w 29 3 with
  | 0 =>
    if fld w 24 5 = 1 then some (.vaccF32 (bits w 7 5) (bits w 12 5) (bits w 17 5) (bits w 22 2))
    else   if fld w 24 5 = 6 then some (.vaccI32 (bits w 7 5) (bits w 12 5) (bits w 17 5) (bits w 22 2))
    else none
  | _ => none

/-- The words with MAJ 0x1F (R83; R243, R244, R245, R246, R247, R248, R249). -/
def decodeVspec (w : Nat) : Option Instr :=
  match fld w 26 6 with
  | 0 =>
    if fld w 17 5 = 0 then some (.vrndi (bits w 7 5) (bits w 12 5) (bits w 22 3) (bits w 25 1))
    else none
  | 1 =>
    if fld w 17 5 = 0 then some (.vcvti (bits w 7 5) (bits w 12 5) (bits w 22 3) (bits w 25 1))
    else none
  | 2 =>
    if fld w 17 5 = 0 then some (.vfexp (bits w 7 5) (bits w 12 5) (bits w 22 3) (bits w 25 1))
    else none
  | 3 => some (.vexpins (bits w 7 5) (bits w 12 5) (bits w 17 5) (bits w 22 3) (bits w 25 1))
  | 4 =>
    if fld w 17 5 = 0 then some (.vgetexp (bits w 7 5) (bits w 12 5) (bits w 22 3) (bits w 25 1))
    else none
  | 5 =>
    if fld w 17 5 = 0 then some (.vrcp (bits w 7 5) (bits w 12 5) (bits w 22 3) (bits w 25 1))
    else none
  | 6 =>
    if fld w 17 5 = 0 then some (.vrsq (bits w 7 5) (bits w 12 5) (bits w 22 3) (bits w 25 1))
    else none
  | 7 =>
    if fld w 19 7 = 0 then some (.vqnt (bits w 7 5) (bits w 12 5) (bits w 17 2))
    else none
  | 8 => some (.vcvts (bits w 7 5) (bits w 12 5) (bits w 17 5) (bits w 22 3) (bits w 25 1))
  | 9 =>
    if fld w 20 2 = 0 then some (.vdq (bits w 7 5) (bits w 12 5) (bits w 17 3) (bits w 22 3) (bits w 25 1))
    else none
  | 10 =>
    if fld w 17 5 = 0 then some (.barq (bits w 7 5) (bits w 12 5) (bits w 22 3) (bits w 25 1))
    else none
  | _ => none

/-- The words with MAJ 0x20 (R83; R266). -/
def decodeTmem (w : Nat) : Option Instr :=
  match fld w 30 1 with
  | 0 =>
    if fld w 31 1 = 0 then some (.tld (bits w 7 3) (bits w 10 5) (bits w 15 5) (bits w 20 5) (bits w 25 5))
    else none
  | 1 =>
    if fld w 31 1 = 0 then some (.tst (bits w 7 3) (bits w 10 5) (bits w 15 5) (bits w 20 5) (bits w 25 5))
    else none
  | _ => none

/-- The words with MAJ 0x21 (R83; R272). -/
def decodeMma (w : Nat) : Option Instr :=
  match fld w 21 3 with
  | 0 =>
    if fld w 24 8 = 0 then some (.mma (bits w 7 3) (bits w 10 3) (bits w 13 3) (bits w 16 5))
    else none
  | 1 =>
    if fld w 24 8 = 0 then some (.mmaZ (bits w 7 3) (bits w 10 3) (bits w 13 3) (bits w 16 5))
    else none
  | 2 =>
    if fld w 24 8 = 0 then some (.mmaN (bits w 7 3) (bits w 10 3) (bits w 13 3) (bits w 16 5))
    else none
  | 3 =>
    if fld w 24 8 = 0 then some (.mmaZn (bits w 7 3) (bits w 10 3) (bits w 13 3) (bits w 16 5))
    else none
  | _ => none

/-- The words with MAJ 0x22 (R83; R277, R278, R279). -/
def decodeTmisc (w : Nat) : Option Instr :=
  match fld w 26 6 with
  | 0 =>
    if fld w 10 16 = 0 then some (.tzero (bits w 7 3))
    else none
  | 1 =>
    if fld w 13 13 = 0 then some (.tmov (bits w 7 3) (bits w 10 3))
    else none
  | 2 =>
    if fld w 13 13 = 0 then some (.ttr (bits w 7 3) (bits w 10 3))
    else none
  | 3 =>
    if fld w 13 13 = 0 then some (.tcvt (bits w 7 3) (bits w 10 3))
    else none
  | 4 =>
    if fld w 16 10 = 0 then some (.tadd (bits w 7 3) (bits w 10 3) (bits w 13 3))
    else none
  | 5 =>
    if fld w 7 3 = 0 ∧ fld w 13 3 = 0 then some (.trowv (bits w 10 3) (bits w 16 5) (bits w 21 5))
    else none
  | 6 =>
    if fld w 10 6 = 0 then some (.tvrow (bits w 7 3) (bits w 16 5) (bits w 21 5))
    else none
  | _ => none

/-- The words with MAJ 0x23 (R83; R282, R283). -/
def decodeTsync (w : Nat) : Option Instr :=
  match fld w 22 10 with
  | 0 =>
    if fld w 17 5 = 0 then some (.twait (bits w 7 5) (bits w 12 5))
    else none
  | 1 =>
    if fld w 17 5 = 0 then some (.tpoll (bits w 7 5) (bits w 12 5))
    else none
  | 2 =>
    if fld w 12 10 = 0 then some (.twaitall (bits w 7 5))
    else none
  | _ => none

/-- The words with MAJ 0x24 (R83; R298, R299, R306). -/
def decodeCopy (w : Nat) : Option Instr :=
  match fld w 22 10 with
  | 0 =>
    if fld w 17 5 = 0 then some (.copy (bits w 7 5) (bits w 12 5))
    else none
  | 1 =>
    if fld w 17 5 = 0 then some (.copyc (bits w 7 5) (bits w 12 5))
    else none
  | 2 =>
    if fld w 17 5 = 0 then some (.mcast (bits w 7 5) (bits w 12 5))
    else none
  | 3 =>
    if fld w 17 5 = 0 then some (.cwait (bits w 7 5) (bits w 12 5))
    else none
  | 4 =>
    if fld w 17 5 = 0 then some (.cpoll (bits w 7 5) (bits w 12 5))
    else none
  | _ => none

/-- The words with MAJ 0x25 (R83; R320, R321, R322). -/
def decodeMsg (w : Nat) : Option Instr :=
  match fld w 22 10 with
  | 0 =>
    if fld w 7 5 = 0 then some (.send (bits w 12 5) (bits w 17 5))
    else none
  | 1 =>
    if fld w 8 4 = 0 then some (.sendv (bits w 7 1) (bits w 12 5) (bits w 17 5))
    else none
  | 2 =>
    if fld w 16 6 = 0 then some (.recv (bits w 7 5) (bits w 12 4))
    else none
  | 3 =>
    if fld w 16 1 = 0 ∧ fld w 18 4 = 0 then some (.recvv (bits w 7 5) (bits w 12 4) (bits w 17 1))
    else none
  | 4 =>
    if fld w 12 10 = 0 then some (.qstat (bits w 7 5))
    else none
  | _ => none

/-- The words with MAJ 0x26 (R83; R331, R335, R338). -/
def decodeSync (w : Nat) : Option Instr :=
  match fld w 22 10 with
  | 0 =>
    if fld w 7 5 = 0 ∧ fld w 14 8 = 0 then some (.sync (bits w 12 2))
    else none
  | 1 =>
    if fld w 7 5 = 0 ∧ fld w 14 8 = 0 then some (.arrive (bits w 12 2))
    else none
  | 2 =>
    if fld w 7 5 = 0 ∧ fld w 14 8 = 0 then some (.await (bits w 12 2))
    else none
  | 3 => some (.waita (bits w 7 5) (bits w 12 5) (bits w 17 5))
  | 4 =>
    if fld w 15 2 = 0 then some (.cntinc (bits w 7 5) (bits w 12 3) (bits w 17 5))
    else none
  | 5 =>
    if fld w 7 5 = 0 ∧ fld w 15 7 = 0 then some (.cntrst (bits w 12 3))
    else none
  | 6 =>
    if fld w 15 2 = 0 then some (.cntwait (bits w 7 5) (bits w 12 3) (bits w 17 5))
    else none
  | _ => none

/-- The words with MAJ 0x27 (R83; R352, R354, R357). -/
def decodeTask (w : Nat) : Option Instr :=
  match fld w 22 10 with
  | 0 => some (.spawn (bits w 7 5) (bits w 12 5) (bits w 17 5))
  | 1 =>
    if fld w 17 5 = 0 then some (.tjoin (bits w 7 5) (bits w 12 5))
    else none
  | 2 =>
    if fld w 17 5 = 0 then some (.tstat (bits w 7 5) (bits w 12 5))
    else none
  | _ => none

/-- A 32-bit core word by its major opcode (R77, R83, R84); the field rules of R81, R82 and R85 hold bit by bit. -/
def decodeMajor (w : Nat) : Option Instr :=
  match fld w 0 7 with
  | 0x03 => decodeAlu w
  | 0x05 => decodeAddi w
  | 0x07 => decodeAndi w
  | 0x09 => decodeOri w
  | 0x0B => decodeXori w
  | 0x0D => decodeShi w
  | 0x0F => decodeCmpi w
  | 0x11 => decodeLih w
  | 0x13 => decodeLipc w
  | 0x15 => decodeCreg w
  | 0x17 => decodeBr w
  | 0x19 => decodeJmp w
  | 0x1B => decodeCall w
  | 0x1D => decodeJind w
  | 0x1F => decodeSys w
  | 0x21 => decodeLd w
  | 0x23 => decodeSt w
  | 0x25 => decodeFe w
  | 0x27 => decodePut w
  | 0x29 => decodeOrd w
  | 0x2B => decodeAcc w
  | 0x2D => decodeAmo w
  | 0x2F => decodeSiding w
  | 0x31 => decodeVarith w
  | 0x33 => decodeVcmp w
  | 0x35 => decodeVcvt w
  | 0x37 => decodeVperm w
  | 0x39 => decodeVldx w
  | 0x3B => decodeVstx w
  | 0x3D => decodeVacc w
  | 0x3F => decodeVspec w
  | 0x41 => decodeTmem w
  | 0x43 => decodeMma w
  | 0x45 => decodeTmisc w
  | 0x47 => decodeTsync w
  | 0x49 => decodeCopy w
  | 0x4B => decodeMsg w
  | 0x4D => decodeSync w
  | 0x4F => decodeTask w
  | _ => none

/-- A 16-bit instruction by its op field (R74, R75). -/
def decodeHalf (w : Nat) : Option Instr :=
  match fld w 1 4 with
  | 0 => some (.vaddC (bits w 5 5) (bits w 10 5) (bits w 15 1))
  | 1 => some (.vsubC (bits w 5 5) (bits w 10 5) (bits w 15 1))
  | 2 => some (.vmulC (bits w 5 5) (bits w 10 5) (bits w 15 1))
  | 3 => some (.vmaxC (bits w 5 5) (bits w 10 5) (bits w 15 1))
  | 4 => some (.vminC (bits w 5 5) (bits w 10 5) (bits w 15 1))
  | 5 => some (.vandC (bits w 5 5) (bits w 10 5) (bits w 15 1))
  | 6 => some (.vandnC (bits w 5 5) (bits w 10 5) (bits w 15 1))
  | 7 => some (.vorC (bits w 5 5) (bits w 10 5) (bits w 15 1))
  | 8 => some (.vxorC (bits w 5 5) (bits w 10 5) (bits w 15 1))
  | 9 => some (.vmovC (bits w 5 5) (bits w 10 5) (bits w 15 1))
  | 10 => some (.vabsC (bits w 5 5) (bits w 10 5) (bits w 15 1))
  | 11 => some (.vnegC (bits w 5 5) (bits w 10 5) (bits w 15 1))
  | 12 => some (.vsllC (bits w 5 5) (bits w 10 5) (bits w 15 1))
  | 13 => some (.vsrlC (bits w 5 5) (bits w 10 5) (bits w 15 1))
  | 14 => some (.vsraC (bits w 5 5) (bits w 10 5) (bits w 15 1))
  | 15 => some (.vfmacC (bits w 5 5) (bits w 10 5) (bits w 15 1))
  | _ => none

/-- A signal-box word by its opcode (R384-R386). It is noncomputable only because Lean's code generator builds no
value of a constructor past the 244th of a type; the kernel evaluates it. -/
noncomputable def decodeBoxRaw (w : Nat) : Option Instr :=
  match fld w 0 6 with
  | 0 =>
    if fld w 6 26 = 0 then some .sbNop
    else none
  | 1 =>
    if fld w 18 14 = 0 then some (.sbAdd (bits w 6 4) (bits w 10 4) (bits w 14 4))
    else   if fld w 14 5 = 16 then some (.sbAddImm (bits w 6 4) (bits w 10 4) (bits w 19 13))
    else none
  | 2 =>
    if fld w 18 14 = 0 then some (.sbSub (bits w 6 4) (bits w 10 4) (bits w 14 4))
    else   if fld w 14 5 = 16 then some (.sbSubImm (bits w 6 4) (bits w 10 4) (bits w 19 13))
    else none
  | 3 =>
    if fld w 18 14 = 0 then some (.sbAnd (bits w 6 4) (bits w 10 4) (bits w 14 4))
    else   if fld w 14 5 = 16 then some (.sbAndImm (bits w 6 4) (bits w 10 4) (bits w 19 13))
    else none
  | 4 =>
    if fld w 18 14 = 0 then some (.sbOr (bits w 6 4) (bits w 10 4) (bits w 14 4))
    else   if fld w 14 5 = 16 then some (.sbOrImm (bits w 6 4) (bits w 10 4) (bits w 19 13))
    else none
  | 5 =>
    if fld w 18 14 = 0 then some (.sbXor (bits w 6 4) (bits w 10 4) (bits w 14 4))
    else   if fld w 14 5 = 16 then some (.sbXorImm (bits w 6 4) (bits w 10 4) (bits w 19 13))
    else none
  | 6 =>
    if fld w 18 14 = 0 then some (.sbShl (bits w 6 4) (bits w 10 4) (bits w 14 4))
    else   if fld w 14 5 = 16 then some (.sbShlImm (bits w 6 4) (bits w 10 4) (bits w 19 13))
    else none
  | 7 =>
    if fld w 18 14 = 0 then some (.sbShr (bits w 6 4) (bits w 10 4) (bits w 14 4))
    else   if fld w 14 5 = 16 then some (.sbShrImm (bits w 6 4) (bits w 10 4) (bits w 19 13))
    else none
  | 8 =>
    if fld w 10 6 = 0 then some (.sbLi (bits w 6 4) (bits w 16 16))
    else none
  | 9 =>
    if fld w 10 6 = 0 then some (.sbLih (bits w 6 4) (bits w 16 16))
    else none
  | 10 =>
    if fld w 6 4 = 0 ∧ fld w 25 7 = 0 then some (.sbBfz (bits w 10 4) (bits w 14 11))
    else none
  | 11 =>
    if fld w 6 4 = 0 ∧ fld w 25 7 = 0 then some (.sbBfnz (bits w 10 4) (bits w 14 11))
    else none
  | 12 =>
    if fld w 9 1 = 0 ∧ fld w 14 18 = 0 then some (.sbRpt (bits w 6 3) (bits w 10 4))
    else none
  | 13 =>
    if fld w 6 26 = 0 then some .sbDone
    else none
  | 14 =>
    if fld w 6 26 = 0 then some .sbDrop
    else none
  | 15 =>
    if fld w 6 4 = 0 ∧ fld w 14 18 = 0 then some (.sbReroute (bits w 10 4))
    else none
  | 16 =>
    if fld w 14 5 = 0 then some (.sbLdst (bits w 6 4) (bits w 10 4) (bits w 19 13))
    else none
  | 17 =>
    if fld w 14 5 = 0 then some (.sbStst (bits w 6 4) (bits w 10 4) (bits w 19 13))
    else none
  | 18 =>
    if fld w 9 1 = 0 ∧ fld w 14 5 = 0 then some (.sbVldst (bits w 6 3) (bits w 10 4) (bits w 19 13))
    else none
  | 19 =>
    if fld w 9 1 = 0 ∧ fld w 14 5 = 0 then some (.sbVstst (bits w 6 3) (bits w 10 4) (bits w 19 13))
    else none
  | 20 =>
    if fld w 9 5 = 0 ∧ fld w 16 16 = 0 then some (.sbVrdp (bits w 6 3) (bits w 14 2))
    else none
  | 21 =>
    if fld w 9 5 = 0 ∧ fld w 16 16 = 0 then some (.sbVwrp (bits w 6 3) (bits w 14 2))
    else none
  | 22 =>
    if fld w 10 4 = 0 ∧ fld w 18 14 = 0 then some (.sbRdh (bits w 6 4) (bits w 14 4))
    else none
  | 23 =>
    if fld w 9 1 = 0 ∧ fld w 13 1 = 0 ∧ fld w 17 15 = 0 then some (.sbVaddi (bits w 6 3) (bits w 10 3) (bits w 14 3))
    else none
  | 24 =>
    if fld w 9 1 = 0 ∧ fld w 13 1 = 0 ∧ fld w 17 15 = 0 then some (.sbVaddf (bits w 6 3) (bits w 10 3) (bits w 14 3))
    else none
  | 25 =>
    if fld w 9 1 = 0 ∧ fld w 13 1 = 0 ∧ fld w 17 15 = 0 then some (.sbVmulf (bits w 6 3) (bits w 10 3) (bits w 14 3))
    else none
  | 26 =>
    if fld w 9 1 = 0 ∧ fld w 13 1 = 0 ∧ fld w 17 15 = 0 then some (.sbVmaxf (bits w 6 3) (bits w 10 3) (bits w 14 3))
    else none
  | 27 =>
    if fld w 9 1 = 0 ∧ fld w 13 1 = 0 ∧ fld w 17 15 = 0 then some (.sbVminf (bits w 6 3) (bits w 10 3) (bits w 14 3))
    else none
  | 28 =>
    if fld w 9 1 = 0 ∧ fld w 13 1 = 0 ∧ fld w 17 15 = 0 then some (.sbVmaxi (bits w 6 3) (bits w 10 3) (bits w 14 3))
    else none
  | 29 =>
    if fld w 9 1 = 0 ∧ fld w 13 1 = 0 ∧ fld w 17 15 = 0 then some (.sbVand (bits w 6 3) (bits w 10 3) (bits w 14 3))
    else none
  | 30 =>
    if fld w 9 1 = 0 ∧ fld w 13 1 = 0 ∧ fld w 17 15 = 0 then some (.sbVor (bits w 6 3) (bits w 10 3) (bits w 14 3))
    else none
  | 31 =>
    if fld w 9 1 = 0 ∧ fld w 13 1 = 0 ∧ fld w 17 15 = 0 then some (.sbVxor (bits w 6 3) (bits w 10 3) (bits w 14 3))
    else none
  | 32 =>
    if fld w 9 1 = 0 ∧ fld w 13 6 = 0 ∧ fld w 20 12 = 0 then some (.sbVcvtbfF2b (bits w 6 3) (bits w 10 3) (bits w 19 1))
    else   if fld w 9 1 = 0 ∧ fld w 13 6 = 32 ∧ fld w 20 12 = 0 then some (.sbVcvtbfB2f (bits w 6 3) (bits w 10 3) (bits w 19 1))
    else none
  | 33 =>
    if fld w 13 19 = 0 then some (.sbVsum (bits w 6 4) (bits w 10 3))
    else none
  | 34 =>
    if fld w 13 1 = 0 ∧ fld w 17 1 = 0 ∧ fld w 20 12 = 0 then some (.sbVcmpf (bits w 6 4) (bits w 10 3) (bits w 14 3) (bits w 18 2))
    else none
  | 35 =>
    if fld w 9 1 = 0 ∧ fld w 13 1 = 0 ∧ fld w 17 1 = 0 ∧ fld w 22 10 = 0 then some (.sbVself (bits w 6 3) (bits w 10 3) (bits w 14 3) (bits w 18 4))
    else none
  | 36 =>
    if fld w 6 4 = 0 ∧ fld w 22 10 = 0 then some (.sbTrap (bits w 10 4) (bits w 14 8))
    else none
  | 37 =>
    if fld w 10 22 = 0 then some (.sbStamp (bits w 6 4))
    else none
  | 38 =>
    if fld w 9 1 = 0 ∧ fld w 14 18 = 0 then some (.sbEmit (bits w 6 3) (bits w 10 4))
    else none
  | _ => none

/-- Keep a decoded term only where its fields make an instruction (R86 steps 1 to 4). -/
def keepWellFormed : Option Instr → Option Instr
  | some i => if i.wellFormed then some i else none
  | none => none

/-- A 32-bit core word. -/
def decodeWord (w : Nat) : Option Instr := keepWellFormed (decodeMajor w)

/-- A 16-bit core instruction; the halfword 0 is reserved (R71). -/
def decodeCompact (w : Nat) : Option Instr := keepWellFormed (decodeHalf w)

/-- A signal-box word (R386). -/
noncomputable def decodeBox (w : Nat) : Option Instr := keepWellFormed (decodeBoxRaw w)

/-- The value of bytes in little-endian order (R2). -/
def leBytes : List Byte → Nat
  | [] => 0
  | b :: bs => b.toNat + 256 * leBytes bs

/-- The n low bytes of a value, in little-endian order (R2). -/
def toBytes : Nat → Nat → List Byte
  | 0, _ => []
  | n + 1, v => BitVec.ofNat 8 v :: toBytes n (v / 256)

/-- What a core reads from bytes that start at an instruction: bit 0 of the first halfword gives the length (R70). The
answer is the instruction and its length in bytes. -/
def decodeCore : List Byte → Option (Instr × Nat)
  | b0 :: b1 :: rest =>
    if b0.toNat % 2 = 0 then (decodeCompact (leBytes [b0, b1])).map fun i => (i, 2)
    else match rest with
      | b2 :: b3 :: _ => (decodeWord (leBytes [b0, b1, b2, b3])).map fun i => (i, 4)
      | _ => none
  | _ => none

/-- The instruction a table row's word stands for. Core and signal-box words share 32-bit values: a word with bit 0 set
is read by the core decoder, and by the signal-box decoder where that refuses it; a 32-bit word with bit 0 clear cannot
be a 32-bit core word (R70) and is read as a signal-box word. -/
noncomputable def decodeTableWord (nbits w : Nat) : Option Instr :=
  if nbits ≤ 16 then (decodeCore (toBytes 2 w)).map (·.1)
  else if w % 2 = 1 then
    match decodeCore (toBytes 4 w) with
    | some (i, _) => some i
    | none => decodeBox (w % 2 ^ 32)
  else decodeBox (w % 2 ^ 32)

/-- The word of an instruction and its length in bits, from the encodings of R74-R81 and R384; an event has none. -/
def encode : Instr → Option (Nat × Nat)
  | .add d a b => some (32, 0x00000003 + d.toNat * 0x80 + a.toNat * 0x1000 + b.toNat * 0x20000)
  | .sub d a b => some (32, 0x00400003 + d.toNat * 0x80 + a.toNat * 0x1000 + b.toNat * 0x20000)
  | .and d a b => some (32, 0x00800003 + d.toNat * 0x80 + a.toNat * 0x1000 + b.toNat * 0x20000)
  | .andn d a b => some (32, 0x00C00003 + d.toNat * 0x80 + a.toNat * 0x1000 + b.toNat * 0x20000)
  | .or d a b => some (32, 0x01000003 + d.toNat * 0x80 + a.toNat * 0x1000 + b.toNat * 0x20000)
  | .xor d a b => some (32, 0x01400003 + d.toNat * 0x80 + a.toNat * 0x1000 + b.toNat * 0x20000)
  | .sll d a b => some (32, 0x01800003 + d.toNat * 0x80 + a.toNat * 0x1000 + b.toNat * 0x20000)
  | .srl d a b => some (32, 0x01C00003 + d.toNat * 0x80 + a.toNat * 0x1000 + b.toNat * 0x20000)
  | .sra d a b => some (32, 0x02000003 + d.toNat * 0x80 + a.toNat * 0x1000 + b.toNat * 0x20000)
  | .rol d a b => some (32, 0x02400003 + d.toNat * 0x80 + a.toNat * 0x1000 + b.toNat * 0x20000)
  | .slt d a b => some (32, 0x02800003 + d.toNat * 0x80 + a.toNat * 0x1000 + b.toNat * 0x20000)
  | .sltn d a b => some (32, 0x02C00003 + d.toNat * 0x80 + a.toNat * 0x1000 + b.toNat * 0x20000)
  | .min d a b => some (32, 0x03000003 + d.toNat * 0x80 + a.toNat * 0x1000 + b.toNat * 0x20000)
  | .max d a b => some (32, 0x03400003 + d.toNat * 0x80 + a.toNat * 0x1000 + b.toNat * 0x20000)
  | .minn d a b => some (32, 0x03800003 + d.toNat * 0x80 + a.toNat * 0x1000 + b.toNat * 0x20000)
  | .maxn d a b => some (32, 0x03C00003 + d.toNat * 0x80 + a.toNat * 0x1000 + b.toNat * 0x20000)
  | .mul d a b => some (32, 0x04000003 + d.toNat * 0x80 + a.toNat * 0x1000 + b.toNat * 0x20000)
  | .mulh d a b => some (32, 0x04400003 + d.toNat * 0x80 + a.toNat * 0x1000 + b.toNat * 0x20000)
  | .mulhn d a b => some (32, 0x04800003 + d.toNat * 0x80 + a.toNat * 0x1000 + b.toNat * 0x20000)
  | .div d a b => some (32, 0x04C00003 + d.toNat * 0x80 + a.toNat * 0x1000 + b.toNat * 0x20000)
  | .divn d a b => some (32, 0x05000003 + d.toNat * 0x80 + a.toNat * 0x1000 + b.toNat * 0x20000)
  | .rem d a b => some (32, 0x05400003 + d.toNat * 0x80 + a.toNat * 0x1000 + b.toNat * 0x20000)
  | .remn d a b => some (32, 0x05800003 + d.toNat * 0x80 + a.toNat * 0x1000 + b.toNat * 0x20000)
  | .clz d a => some (32, 0x05C00003 + d.toNat * 0x80 + a.toNat * 0x1000)
  | .ctz d a => some (32, 0x06000003 + d.toNat * 0x80 + a.toNat * 0x1000)
  | .popc d a => some (32, 0x06400003 + d.toNat * 0x80 + a.toNat * 0x1000)
  | .sextB d a => some (32, 0x06800003 + d.toNat * 0x80 + a.toNat * 0x1000)
  | .sextH d a => some (32, 0x06C00003 + d.toNat * 0x80 + a.toNat * 0x1000)
  | .sextW d a => some (32, 0x07000003 + d.toNat * 0x80 + a.toNat * 0x1000)
  | .zextB d a => some (32, 0x07400003 + d.toNat * 0x80 + a.toNat * 0x1000)
  | .zextH d a => some (32, 0x07800003 + d.toNat * 0x80 + a.toNat * 0x1000)
  | .zextW d a => some (32, 0x07C00003 + d.toNat * 0x80 + a.toNat * 0x1000)
  | .addi d a i => some (32, 0x00000005 + d.toNat * 0x80 + a.toNat * 0x1000 + i.toNat * 0x20000)
  | .andi d a i => some (32, 0x00000007 + d.toNat * 0x80 + a.toNat * 0x1000 + i.toNat * 0x20000)
  | .ori d a i => some (32, 0x00000009 + d.toNat * 0x80 + a.toNat * 0x1000 + i.toNat * 0x20000)
  | .xori d a i => some (32, 0x0000000B + d.toNat * 0x80 + a.toNat * 0x1000 + i.toNat * 0x20000)
  | .slli d a n => some (32, 0x0000000D + d.toNat * 0x80 + a.toNat * 0x1000 + n.toNat * 0x20000)
  | .srli d a n => some (32, 0x0080000D + d.toNat * 0x80 + a.toNat * 0x1000 + n.toNat * 0x20000)
  | .srai d a n => some (32, 0x0100000D + d.toNat * 0x80 + a.toNat * 0x1000 + n.toNat * 0x20000)
  | .roli d a n => some (32, 0x0180000D + d.toNat * 0x80 + a.toNat * 0x1000 + n.toNat * 0x20000)
  | .slti d a i => some (32, 0x0000000F + d.toNat * 0x80 + a.toNat * 0x1000 + i.toNat * 0x20000)
  | .sltni d a i => some (32, 0x8000000F + d.toNat * 0x80 + a.toNat * 0x1000 + i.toNat * 0x20000)
  | .lih d i => some (32, 0x00000011 + d.toNat * 0x80 + i.toNat * 0x1000)
  | .lipc d i => some (32, 0x00000013 + d.toNat * 0x80 + i.toNat * 0x1000)
  | .mfc x c => some (32, 0x00000015 + x.toNat * 0x80 + c.toNat * 0x2000)
  | .mtc x c => some (32, 0x00001015 + x.toNat * 0x80 + c.toNat * 0x2000)
  | .beq a b i => some (32, 0x00000017 + a.toNat * 0x80 + b.toNat * 0x1000 + i.toNat * 0x100000)
  | .bne a b i => some (32, 0x00020017 + a.toNat * 0x80 + b.toNat * 0x1000 + i.toNat * 0x100000)
  | .blt a b i => some (32, 0x00040017 + a.toNat * 0x80 + b.toNat * 0x1000 + i.toNat * 0x100000)
  | .bge a b i => some (32, 0x00060017 + a.toNat * 0x80 + b.toNat * 0x1000 + i.toNat * 0x100000)
  | .bltn a b i => some (32, 0x00080017 + a.toNat * 0x80 + b.toNat * 0x1000 + i.toNat * 0x100000)
  | .bgen a b i => some (32, 0x000A0017 + a.toNat * 0x80 + b.toNat * 0x1000 + i.toNat * 0x100000)
  | .jmp i => some (32, 0x00000019 + i.toNat * 0x80)
  | .call i => some (32, 0x0000001B + i.toNat * 0x80)
  | .jr a => some (32, 0x0000001D + a.toNat * 0x1000)
  | .callr a => some (32, 0x0040001D + a.toNat * 0x1000)
  | .ret => some (32, 0x0080001D)
  | .nop => some (32, 0x0000001F)
  | .trap c => some (32, 0x0040001F + c.toNat * 0x1000)
  | .rft => some (32, 0x0080001F)
  | .halt => some (32, 0x00C0001F)
  | .wfi => some (32, 0x0100001F)
  | .yield => some (32, 0x0140001F)
  | .exit c => some (32, 0x0180001F + c.toNat * 0x1000)
  | .couple n => some (32, 0x01C0001F + n.toNat * 0x1000)
  | .uncouple => some (32, 0x0200001F)
  | .ckpt => some (32, 0x0240001F)
  | .ldB d a w i => some (32, 0x00000021 + d.toNat * 0x80 + a.toNat * 0x1000 + w.toNat * 0x20000 + i.toNat * 0x400000)
  | .ldH d a w i => some (32, 0x00080021 + d.toNat * 0x80 + a.toNat * 0x1000 + w.toNat * 0x20000 + i.toNat * 0x400000)
  | .ldW d a w i => some (32, 0x00100021 + d.toNat * 0x80 + a.toNat * 0x1000 + w.toNat * 0x20000 + i.toNat * 0x400000)
  | .ldD d a w i => some (32, 0x00180021 + d.toNat * 0x80 + a.toNat * 0x1000 + w.toNat * 0x20000 + i.toNat * 0x400000)
  | .ldBn d a w i => some (32, 0x00200021 + d.toNat * 0x80 + a.toNat * 0x1000 + w.toNat * 0x20000 + i.toNat * 0x400000)
  | .ldHn d a w i => some (32, 0x00280021 + d.toNat * 0x80 + a.toNat * 0x1000 + w.toNat * 0x20000 + i.toNat * 0x400000)
  | .ldWn d a w i => some (32, 0x00300021 + d.toNat * 0x80 + a.toNat * 0x1000 + w.toNat * 0x20000 + i.toNat * 0x400000)
  | .prf a w i => some (32, 0x00380021 + a.toNat * 0x1000 + w.toNat * 0x20000 + i.toNat * 0x400000)
  | .stB d a w i => some (32, 0x00000023 + d.toNat * 0x80 + a.toNat * 0x1000 + w.toNat * 0x20000 + i.toNat * 0x400000)
  | .stH d a w i => some (32, 0x00080023 + d.toNat * 0x80 + a.toNat * 0x1000 + w.toNat * 0x20000 + i.toNat * 0x400000)
  | .stW d a w i => some (32, 0x00100023 + d.toNat * 0x80 + a.toNat * 0x1000 + w.toNat * 0x20000 + i.toNat * 0x400000)
  | .stD d a w i => some (32, 0x00180023 + d.toNat * 0x80 + a.toNat * 0x1000 + w.toNat * 0x20000 + i.toNat * 0x400000)
  | .ldf d a w i => some (32, 0x00000025 + d.toNat * 0x80 + a.toNat * 0x1000 + w.toNat * 0x20000 + i.toNat * 0x400000)
  | .ldfe d a w i => some (32, 0x00080025 + d.toNat * 0x80 + a.toNat * 0x1000 + w.toNat * 0x20000 + i.toNat * 0x400000)
  | .ste d a w i => some (32, 0x00100025 + d.toNat * 0x80 + a.toNat * 0x1000 + w.toNat * 0x20000 + i.toNat * 0x400000)
  | .stf d a w i => some (32, 0x00180025 + d.toNat * 0x80 + a.toNat * 0x1000 + w.toNat * 0x20000 + i.toNat * 0x400000)
  | .ldtag d a w i => some (32, 0x00200025 + d.toNat * 0x80 + a.toNat * 0x1000 + w.toNat * 0x20000 + i.toNat * 0x400000)
  | .settag d a w i => some (32, 0x00280025 + d.toNat * 0x80 + a.toNat * 0x1000 + w.toNat * 0x20000 + i.toNat * 0x400000)
  | .putsF d a b => some (32, 0x00000027 + d.toNat * 0x80 + a.toNat * 0x1000 + b.toNat * 0x20000)
  | .putsC d a b => some (32, 0x00400027 + d.toNat * 0x80 + a.toNat * 0x1000 + b.toNat * 0x20000)
  | .putvF d a b => some (32, 0x00800027 + d.toNat * 0x80 + a.toNat * 0x1000 + b.toNat * 0x20000)
  | .putvC d a b => some (32, 0x00C00027 + d.toNat * 0x80 + a.toNat * 0x1000 + b.toNat * 0x20000)
  | .fence => some (32, 0x00000029)
  | .fenceR a => some (32, 0x00400029 + a.toNat * 0x1000)
  | .waitc c => some (32, 0x00800029 + c.toNat * 0x1000)
  | .acq => some (32, 0x00C00029)
  | .rel => some (32, 0x01000029)
  | .fenceE => some (32, 0x01400029)
  | .accAddI32 d a w i => some (32, 0x0000002B + d.toNat * 0x80 + a.toNat * 0x1000 + w.toNat * 0x20000 + i.toNat * 0x400000)
  | .accAddI64 d a w i => some (32, 0x0008002B + d.toNat * 0x80 + a.toNat * 0x1000 + w.toNat * 0x20000 + i.toNat * 0x400000)
  | .accAddF32 d a w i => some (32, 0x0010002B + d.toNat * 0x80 + a.toNat * 0x1000 + w.toNat * 0x20000 + i.toNat * 0x400000)
  | .accMaxI32 d a w i => some (32, 0x0018002B + d.toNat * 0x80 + a.toNat * 0x1000 + w.toNat * 0x20000 + i.toNat * 0x400000)
  | .accMinI32 d a w i => some (32, 0x0020002B + d.toNat * 0x80 + a.toNat * 0x1000 + w.toNat * 0x20000 + i.toNat * 0x400000)
  | .accOrD d a w i => some (32, 0x0028002B + d.toNat * 0x80 + a.toNat * 0x1000 + w.toNat * 0x20000 + i.toNat * 0x400000)
  | .accAndD d a w i => some (32, 0x0030002B + d.toNat * 0x80 + a.toNat * 0x1000 + w.toNat * 0x20000 + i.toNat * 0x400000)
  | .accXorD d a w i => some (32, 0x0038002B + d.toNat * 0x80 + a.toNat * 0x1000 + w.toNat * 0x20000 + i.toNat * 0x400000)
  | .amoSwapW d a b => some (32, 0x0000002D + d.toNat * 0x80 + a.toNat * 0x1000 + b.toNat * 0x20000)
  | .amoSwapD d a b => some (32, 0x0040002D + d.toNat * 0x80 + a.toNat * 0x1000 + b.toNat * 0x20000)
  | .amoCasW d a b => some (32, 0x0080002D + d.toNat * 0x80 + a.toNat * 0x1000 + b.toNat * 0x20000)
  | .amoCasD d a b => some (32, 0x00C0002D + d.toNat * 0x80 + a.toNat * 0x1000 + b.toNat * 0x20000)
  | .amoAddW d a b => some (32, 0x0100002D + d.toNat * 0x80 + a.toNat * 0x1000 + b.toNat * 0x20000)
  | .amoAddD d a b => some (32, 0x0140002D + d.toNat * 0x80 + a.toNat * 0x1000 + b.toNat * 0x20000)
  | .amoFaddF32 d a b => some (32, 0x0180002D + d.toNat * 0x80 + a.toNat * 0x1000 + b.toNat * 0x20000)
  | .amoMaxW d a b => some (32, 0x01C0002D + d.toNat * 0x80 + a.toNat * 0x1000 + b.toNat * 0x20000)
  | .amoMinW d a b => some (32, 0x0200002D + d.toNat * 0x80 + a.toNat * 0x1000 + b.toNat * 0x20000)
  | .sdfl => some (32, 0x0000002F)
  | .sdfla a => some (32, 0x0040002F + a.toNat * 0x1000)
  | .sdrd d a b => some (32, 0x0080002F + d.toNat * 0x80 + a.toNat * 0x1000 + b.toNat * 0x20000)
  | .sdst d => some (32, 0x00C0002F + d.toNat * 0x80)
  | .sdwait => some (32, 0x0100002F)
  | .vadd d a b p n => some (32, 0x00000031 + d.toNat * 0x80 + a.toNat * 0x1000 + b.toNat * 0x20000 + p.toNat * 0x400000 + n.toNat * 0x2000000)
  | .vsub d a b p n => some (32, 0x04000031 + d.toNat * 0x80 + a.toNat * 0x1000 + b.toNat * 0x20000 + p.toNat * 0x400000 + n.toNat * 0x2000000)
  | .vmul d a b p n => some (32, 0x08000031 + d.toNat * 0x80 + a.toNat * 0x1000 + b.toNat * 0x20000 + p.toNat * 0x400000 + n.toNat * 0x2000000)
  | .vfma d a b p n => some (32, 0x0C000031 + d.toNat * 0x80 + a.toNat * 0x1000 + b.toNat * 0x20000 + p.toNat * 0x400000 + n.toNat * 0x2000000)
  | .vfms d a b p n => some (32, 0x10000031 + d.toNat * 0x80 + a.toNat * 0x1000 + b.toNat * 0x20000 + p.toNat * 0x400000 + n.toNat * 0x2000000)
  | .vnfma d a b p n => some (32, 0x14000031 + d.toNat * 0x80 + a.toNat * 0x1000 + b.toNat * 0x20000 + p.toNat * 0x400000 + n.toNat * 0x2000000)
  | .vmax d a b p n => some (32, 0x18000031 + d.toNat * 0x80 + a.toNat * 0x1000 + b.toNat * 0x20000 + p.toNat * 0x400000 + n.toNat * 0x2000000)
  | .vmin d a b p n => some (32, 0x1C000031 + d.toNat * 0x80 + a.toNat * 0x1000 + b.toNat * 0x20000 + p.toNat * 0x400000 + n.toNat * 0x2000000)
  | .vabs d a p n => some (32, 0x20000031 + d.toNat * 0x80 + a.toNat * 0x1000 + p.toNat * 0x400000 + n.toNat * 0x2000000)
  | .vneg d a p n => some (32, 0x24000031 + d.toNat * 0x80 + a.toNat * 0x1000 + p.toNat * 0x400000 + n.toNat * 0x2000000)
  | .vand d a b p n => some (32, 0x28000031 + d.toNat * 0x80 + a.toNat * 0x1000 + b.toNat * 0x20000 + p.toNat * 0x400000 + n.toNat * 0x2000000)
  | .vandn d a b p n => some (32, 0x2C000031 + d.toNat * 0x80 + a.toNat * 0x1000 + b.toNat * 0x20000 + p.toNat * 0x400000 + n.toNat * 0x2000000)
  | .vor d a b p n => some (32, 0x30000031 + d.toNat * 0x80 + a.toNat * 0x1000 + b.toNat * 0x20000 + p.toNat * 0x400000 + n.toNat * 0x2000000)
  | .vxor d a b p n => some (32, 0x34000031 + d.toNat * 0x80 + a.toNat * 0x1000 + b.toNat * 0x20000 + p.toNat * 0x400000 + n.toNat * 0x2000000)
  | .vsll d a b p n => some (32, 0x38000031 + d.toNat * 0x80 + a.toNat * 0x1000 + b.toNat * 0x20000 + p.toNat * 0x400000 + n.toNat * 0x2000000)
  | .vsrl d a b p n => some (32, 0x3C000031 + d.toNat * 0x80 + a.toNat * 0x1000 + b.toNat * 0x20000 + p.toNat * 0x400000 + n.toNat * 0x2000000)
  | .vsra d a b p n => some (32, 0x40000031 + d.toNat * 0x80 + a.toNat * 0x1000 + b.toNat * 0x20000 + p.toNat * 0x400000 + n.toNat * 0x2000000)
  | .vmov d a p n => some (32, 0x44000031 + d.toNat * 0x80 + a.toNat * 0x1000 + p.toNat * 0x400000 + n.toNat * 0x2000000)
  | .vsel d a b p n => some (32, 0x48000031 + d.toNat * 0x80 + a.toNat * 0x1000 + b.toNat * 0x20000 + p.toNat * 0x400000 + n.toNat * 0x2000000)
  | .vaddC d s m => some (16, 0x0000 + d.toNat * 0x20 + s.toNat * 0x400 + m.toNat * 0x8000)
  | .vsubC d s m => some (16, 0x0002 + d.toNat * 0x20 + s.toNat * 0x400 + m.toNat * 0x8000)
  | .vmulC d s m => some (16, 0x0004 + d.toNat * 0x20 + s.toNat * 0x400 + m.toNat * 0x8000)
  | .vmaxC d s m => some (16, 0x0006 + d.toNat * 0x20 + s.toNat * 0x400 + m.toNat * 0x8000)
  | .vminC d s m => some (16, 0x0008 + d.toNat * 0x20 + s.toNat * 0x400 + m.toNat * 0x8000)
  | .vandC d s m => some (16, 0x000A + d.toNat * 0x20 + s.toNat * 0x400 + m.toNat * 0x8000)
  | .vandnC d s m => some (16, 0x000C + d.toNat * 0x20 + s.toNat * 0x400 + m.toNat * 0x8000)
  | .vorC d s m => some (16, 0x000E + d.toNat * 0x20 + s.toNat * 0x400 + m.toNat * 0x8000)
  | .vxorC d s m => some (16, 0x0010 + d.toNat * 0x20 + s.toNat * 0x400 + m.toNat * 0x8000)
  | .vmovC d s m => some (16, 0x0012 + d.toNat * 0x20 + s.toNat * 0x400 + m.toNat * 0x8000)
  | .vabsC d s m => some (16, 0x0014 + d.toNat * 0x20 + s.toNat * 0x400 + m.toNat * 0x8000)
  | .vnegC d s m => some (16, 0x0016 + d.toNat * 0x20 + s.toNat * 0x400 + m.toNat * 0x8000)
  | .vsllC d s m => some (16, 0x0018 + d.toNat * 0x20 + s.toNat * 0x400 + m.toNat * 0x8000)
  | .vsrlC d s m => some (16, 0x001A + d.toNat * 0x20 + s.toNat * 0x400 + m.toNat * 0x8000)
  | .vsraC d s m => some (16, 0x001C + d.toNat * 0x20 + s.toNat * 0x400 + m.toNat * 0x8000)
  | .vfmacC d s m => some (16, 0x001E + d.toNat * 0x20 + s.toNat * 0x400 + m.toNat * 0x8000)
  | .vceq d a b p n => some (32, 0x00000033 + d.toNat * 0x80 + a.toNat * 0x1000 + b.toNat * 0x20000 + p.toNat * 0x400000 + n.toNat * 0x2000000)
  | .vcne d a b p n => some (32, 0x04000033 + d.toNat * 0x80 + a.toNat * 0x1000 + b.toNat * 0x20000 + p.toNat * 0x400000 + n.toNat * 0x2000000)
  | .vclt d a b p n => some (32, 0x08000033 + d.toNat * 0x80 + a.toNat * 0x1000 + b.toNat * 0x20000 + p.toNat * 0x400000 + n.toNat * 0x2000000)
  | .vcle d a b p n => some (32, 0x0C000033 + d.toNat * 0x80 + a.toNat * 0x1000 + b.toNat * 0x20000 + p.toNat * 0x400000 + n.toNat * 0x2000000)
  | .vcgt d a b p n => some (32, 0x10000033 + d.toNat * 0x80 + a.toNat * 0x1000 + b.toNat * 0x20000 + p.toNat * 0x400000 + n.toNat * 0x2000000)
  | .vcge d a b p n => some (32, 0x14000033 + d.toNat * 0x80 + a.toNat * 0x1000 + b.toNat * 0x20000 + p.toNat * 0x400000 + n.toNat * 0x2000000)
  | .vcun d a b p n => some (32, 0x18000033 + d.toNat * 0x80 + a.toNat * 0x1000 + b.toNat * 0x20000 + p.toNat * 0x400000 + n.toNat * 0x2000000)
  | .pand d a b => some (32, 0x1C000033 + d.toNat * 0x80 + a.toNat * 0x1000 + b.toNat * 0x20000)
  | .por d a b => some (32, 0x20000033 + d.toNat * 0x80 + a.toNat * 0x1000 + b.toNat * 0x20000)
  | .pxor d a b => some (32, 0x24000033 + d.toNat * 0x80 + a.toNat * 0x1000 + b.toNat * 0x20000)
  | .pnot d a => some (32, 0x28000033 + d.toNat * 0x80 + a.toNat * 0x1000)
  | .pmov d a => some (32, 0x2C000033 + d.toNat * 0x80 + a.toNat * 0x1000)
  | .pmovxToPredicate d a => some (32, 0x30000033 + d.toNat * 0x80 + a.toNat * 0x1000)
  | .pmovxToScalar d a => some (32, 0x30020033 + d.toNat * 0x80 + a.toNat * 0x1000)
  | .vcvt d a t p n => some (32, 0x00000035 + d.toNat * 0x80 + a.toNat * 0x1000 + t.toNat * 0x20000 + p.toNat * 0x400000 + n.toNat * 0x2000000)
  | .vcvtSr d a t p n => some (32, 0x04000035 + d.toNat * 0x80 + a.toNat * 0x1000 + t.toNat * 0x20000 + p.toNat * 0x400000 + n.toNat * 0x2000000)
  | .vtag d a t => some (32, 0x08000035 + d.toNat * 0x80 + a.toNat * 0x1000 + t.toNat * 0x20000)
  | .vperm d a b p n => some (32, 0x00000037 + d.toNat * 0x80 + a.toNat * 0x1000 + b.toNat * 0x20000 + p.toNat * 0x400000 + n.toNat * 0x2000000)
  | .vslup d a s p n => some (32, 0x04000037 + d.toNat * 0x80 + a.toNat * 0x1000 + s.toNat * 0x20000 + p.toNat * 0x400000 + n.toNat * 0x2000000)
  | .vsldn d a s p n => some (32, 0x08000037 + d.toNat * 0x80 + a.toNat * 0x1000 + s.toNat * 0x20000 + p.toNat * 0x400000 + n.toNat * 0x2000000)
  | .vbcast d a s p n => some (32, 0x0C000037 + d.toNat * 0x80 + a.toNat * 0x1000 + s.toNat * 0x20000 + p.toNat * 0x400000 + n.toNat * 0x2000000)
  | .vext d a s => some (32, 0x10000037 + d.toNat * 0x80 + a.toNat * 0x1000 + s.toNat * 0x20000)
  | .vins d a s => some (32, 0x14000037 + d.toNat * 0x80 + a.toNat * 0x1000 + s.toNat * 0x20000)
  | .vzip d a b p n => some (32, 0x18000037 + d.toNat * 0x80 + a.toNat * 0x1000 + b.toNat * 0x20000 + p.toNat * 0x400000 + n.toNat * 0x2000000)
  | .vunzip d a b p n => some (32, 0x1C000037 + d.toNat * 0x80 + a.toNat * 0x1000 + b.toNat * 0x20000 + p.toNat * 0x400000 + n.toNat * 0x2000000)
  | .vredadd d a p n => some (32, 0x20000037 + d.toNat * 0x80 + a.toNat * 0x1000 + p.toNat * 0x400000 + n.toNat * 0x2000000)
  | .vredmax d a p n => some (32, 0x24000037 + d.toNat * 0x80 + a.toNat * 0x1000 + p.toNat * 0x400000 + n.toNat * 0x2000000)
  | .vredmin d a p n => some (32, 0x28000037 + d.toNat * 0x80 + a.toNat * 0x1000 + p.toNat * 0x400000 + n.toNat * 0x2000000)
  | .vld v a p n w t => some (32, 0x00000039 + v.toNat * 0x80 + a.toNat * 0x1000 + p.toNat * 0x20000 + n.toNat * 0x100000 + w.toNat * 0x400000 + t.toNat * 0x1000000)
  | .vlds v a s w t => some (32, 0x20000039 + v.toNat * 0x80 + a.toNat * 0x1000 + s.toNat * 0x20000 + w.toNat * 0x400000 + t.toNat * 0x1000000)
  | .vldq v a s w => some (32, 0x4C000039 + v.toNat * 0x80 + a.toNat * 0x1000 + s.toNat * 0x20000 + w.toNat * 0x400000)
  | .vgth v a o w t => some (32, 0x60000039 + v.toNat * 0x80 + a.toNat * 0x1000 + o.toNat * 0x20000 + w.toNat * 0x400000 + t.toNat * 0x1000000)
  | .vst v a p n w t => some (32, 0x0000003B + v.toNat * 0x80 + a.toNat * 0x1000 + p.toNat * 0x20000 + n.toNat * 0x100000 + w.toNat * 0x400000 + t.toNat * 0x1000000)
  | .vsts v a s w t => some (32, 0x2000003B + v.toNat * 0x80 + a.toNat * 0x1000 + s.toNat * 0x20000 + w.toNat * 0x400000 + t.toNat * 0x1000000)
  | .vstq v a s w => some (32, 0x4C00003B + v.toNat * 0x80 + a.toNat * 0x1000 + s.toNat * 0x20000 + w.toNat * 0x400000)
  | .vsct v a o w t => some (32, 0x6000003B + v.toNat * 0x80 + a.toNat * 0x1000 + o.toNat * 0x20000 + w.toNat * 0x400000 + t.toNat * 0x1000000)
  | .vaccF32 v a o w => some (32, 0x0100003D + v.toNat * 0x80 + a.toNat * 0x1000 + o.toNat * 0x20000 + w.toNat * 0x400000)
  | .vaccI32 v a o w => some (32, 0x0600003D + v.toNat * 0x80 + a.toNat * 0x1000 + o.toNat * 0x20000 + w.toNat * 0x400000)
  | .vrndi d a p n => some (32, 0x0000003F + d.toNat * 0x80 + a.toNat * 0x1000 + p.toNat * 0x400000 + n.toNat * 0x2000000)
  | .vcvti d a p n => some (32, 0x0400003F + d.toNat * 0x80 + a.toNat * 0x1000 + p.toNat * 0x400000 + n.toNat * 0x2000000)
  | .vfexp d a p n => some (32, 0x0800003F + d.toNat * 0x80 + a.toNat * 0x1000 + p.toNat * 0x400000 + n.toNat * 0x2000000)
  | .vexpins d a b p n => some (32, 0x0C00003F + d.toNat * 0x80 + a.toNat * 0x1000 + b.toNat * 0x20000 + p.toNat * 0x400000 + n.toNat * 0x2000000)
  | .vgetexp d a p n => some (32, 0x1000003F + d.toNat * 0x80 + a.toNat * 0x1000 + p.toNat * 0x400000 + n.toNat * 0x2000000)
  | .vrcp d a p n => some (32, 0x1400003F + d.toNat * 0x80 + a.toNat * 0x1000 + p.toNat * 0x400000 + n.toNat * 0x2000000)
  | .vrsq d a p n => some (32, 0x1800003F + d.toNat * 0x80 + a.toNat * 0x1000 + p.toNat * 0x400000 + n.toNat * 0x2000000)
  | .vqnt d a j => some (32, 0x1C00003F + d.toNat * 0x80 + a.toNat * 0x1000 + j.toNat * 0x20000)
  | .vcvts d a b p n => some (32, 0x2000003F + d.toNat * 0x80 + a.toNat * 0x1000 + b.toNat * 0x20000 + p.toNat * 0x400000 + n.toNat * 0x2000000)
  | .vdq d a m p n => some (32, 0x2400003F + d.toNat * 0x80 + a.toNat * 0x1000 + m.toNat * 0x20000 + p.toNat * 0x400000 + n.toNat * 0x2000000)
  | .barq d a p n => some (32, 0x2800003F + d.toNat * 0x80 + a.toNat * 0x1000 + p.toNat * 0x400000 + n.toNat * 0x2000000)
  | .tld m b r s t => some (32, 0x00000041 + m.toNat * 0x80 + b.toNat * 0x400 + r.toNat * 0x8000 + s.toNat * 0x100000 + t.toNat * 0x2000000)
  | .tst m b r s t => some (32, 0x40000041 + m.toNat * 0x80 + b.toNat * 0x400 + r.toNat * 0x8000 + s.toNat * 0x100000 + t.toNat * 0x2000000)
  | .mma c a b t => some (32, 0x00000043 + c.toNat * 0x80 + a.toNat * 0x400 + b.toNat * 0x2000 + t.toNat * 0x10000)
  | .mmaZ c a b t => some (32, 0x00200043 + c.toNat * 0x80 + a.toNat * 0x400 + b.toNat * 0x2000 + t.toNat * 0x10000)
  | .mmaN c a b t => some (32, 0x00400043 + c.toNat * 0x80 + a.toNat * 0x400 + b.toNat * 0x2000 + t.toNat * 0x10000)
  | .mmaZn c a b t => some (32, 0x00600043 + c.toNat * 0x80 + a.toNat * 0x400 + b.toNat * 0x2000 + t.toNat * 0x10000)
  | .tzero d => some (32, 0x00000045 + d.toNat * 0x80)
  | .tmov d a => some (32, 0x04000045 + d.toNat * 0x80 + a.toNat * 0x400)
  | .ttr d a => some (32, 0x08000045 + d.toNat * 0x80 + a.toNat * 0x400)
  | .tcvt d a => some (32, 0x0C000045 + d.toNat * 0x80 + a.toNat * 0x400)
  | .tadd d a b => some (32, 0x10000045 + d.toNat * 0x80 + a.toNat * 0x400 + b.toNat * 0x2000)
  | .trowv a x v => some (32, 0x14000045 + a.toNat * 0x400 + x.toNat * 0x10000 + v.toNat * 0x200000)
  | .tvrow d x v => some (32, 0x18000045 + d.toNat * 0x80 + x.toNat * 0x10000 + v.toNat * 0x200000)
  | .twait d a => some (32, 0x00000047 + d.toNat * 0x80 + a.toNat * 0x1000)
  | .tpoll d a => some (32, 0x00400047 + d.toNat * 0x80 + a.toNat * 0x1000)
  | .twaitall d => some (32, 0x00800047 + d.toNat * 0x80)
  | .copy d a => some (32, 0x00000049 + d.toNat * 0x80 + a.toNat * 0x1000)
  | .copyc d a => some (32, 0x00400049 + d.toNat * 0x80 + a.toNat * 0x1000)
  | .mcast d a => some (32, 0x00800049 + d.toNat * 0x80 + a.toNat * 0x1000)
  | .cwait d a => some (32, 0x00C00049 + d.toNat * 0x80 + a.toNat * 0x1000)
  | .cpoll d a => some (32, 0x01000049 + d.toNat * 0x80 + a.toNat * 0x1000)
  | .send a b => some (32, 0x0000004B + a.toNat * 0x1000 + b.toNat * 0x20000)
  | .sendv h a v => some (32, 0x0040004B + h.toNat * 0x80 + a.toNat * 0x1000 + v.toNat * 0x20000)
  | .recv d q => some (32, 0x0080004B + d.toNat * 0x80 + q.toNat * 0x1000)
  | .recvv v q h => some (32, 0x00C0004B + v.toNat * 0x80 + q.toNat * 0x1000 + h.toNat * 0x20000)
  | .qstat d => some (32, 0x0100004B + d.toNat * 0x80)
  | .sync n => some (32, 0x0000004D + n.toNat * 0x1000)
  | .arrive n => some (32, 0x0040004D + n.toNat * 0x1000)
  | .await n => some (32, 0x0080004D + n.toNat * 0x1000)
  | .waita d a b => some (32, 0x00C0004D + d.toNat * 0x80 + a.toNat * 0x1000 + b.toNat * 0x20000)
  | .cntinc d c b => some (32, 0x0100004D + d.toNat * 0x80 + c.toNat * 0x1000 + b.toNat * 0x20000)
  | .cntrst c => some (32, 0x0140004D + c.toNat * 0x1000)
  | .cntwait d c b => some (32, 0x0180004D + d.toNat * 0x80 + c.toNat * 0x1000 + b.toNat * 0x20000)
  | .spawn d a b => some (32, 0x0000004F + d.toNat * 0x80 + a.toNat * 0x1000 + b.toNat * 0x20000)
  | .tjoin d a => some (32, 0x0040004F + d.toNat * 0x80 + a.toNat * 0x1000)
  | .tstat d a => some (32, 0x0080004F + d.toNat * 0x80 + a.toNat * 0x1000)
  | .sbNop => some (32, 0x00000000)
  | .sbAdd d a b => some (32, 0x00000001 + d.toNat * 0x40 + a.toNat * 0x400 + b.toNat * 0x4000)
  | .sbAddImm d a i => some (32, 0x00040001 + d.toNat * 0x40 + a.toNat * 0x400 + i.toNat * 0x80000)
  | .sbSub d a b => some (32, 0x00000002 + d.toNat * 0x40 + a.toNat * 0x400 + b.toNat * 0x4000)
  | .sbSubImm d a i => some (32, 0x00040002 + d.toNat * 0x40 + a.toNat * 0x400 + i.toNat * 0x80000)
  | .sbAnd d a b => some (32, 0x00000003 + d.toNat * 0x40 + a.toNat * 0x400 + b.toNat * 0x4000)
  | .sbAndImm d a i => some (32, 0x00040003 + d.toNat * 0x40 + a.toNat * 0x400 + i.toNat * 0x80000)
  | .sbOr d a b => some (32, 0x00000004 + d.toNat * 0x40 + a.toNat * 0x400 + b.toNat * 0x4000)
  | .sbOrImm d a i => some (32, 0x00040004 + d.toNat * 0x40 + a.toNat * 0x400 + i.toNat * 0x80000)
  | .sbXor d a b => some (32, 0x00000005 + d.toNat * 0x40 + a.toNat * 0x400 + b.toNat * 0x4000)
  | .sbXorImm d a i => some (32, 0x00040005 + d.toNat * 0x40 + a.toNat * 0x400 + i.toNat * 0x80000)
  | .sbShl d a b => some (32, 0x00000006 + d.toNat * 0x40 + a.toNat * 0x400 + b.toNat * 0x4000)
  | .sbShlImm d a i => some (32, 0x00040006 + d.toNat * 0x40 + a.toNat * 0x400 + i.toNat * 0x80000)
  | .sbShr d a b => some (32, 0x00000007 + d.toNat * 0x40 + a.toNat * 0x400 + b.toNat * 0x4000)
  | .sbShrImm d a i => some (32, 0x00040007 + d.toNat * 0x40 + a.toNat * 0x400 + i.toNat * 0x80000)
  | .sbLi d i => some (32, 0x00000008 + d.toNat * 0x40 + i.toNat * 0x10000)
  | .sbLih d i => some (32, 0x00000009 + d.toNat * 0x40 + i.toNat * 0x10000)
  | .sbBfz a o => some (32, 0x0000000A + a.toNat * 0x400 + o.toNat * 0x4000)
  | .sbBfnz a o => some (32, 0x0000000B + a.toNat * 0x400 + o.toNat * 0x4000)
  | .sbRpt n c => some (32, 0x0000000C + n.toNat * 0x40 + c.toNat * 0x400)
  | .sbDone => some (32, 0x0000000D)
  | .sbDrop => some (32, 0x0000000E)
  | .sbReroute a => some (32, 0x0000000F + a.toNat * 0x400)
  | .sbLdst d a i => some (32, 0x00000010 + d.toNat * 0x40 + a.toNat * 0x400 + i.toNat * 0x80000)
  | .sbStst d a i => some (32, 0x00000011 + d.toNat * 0x40 + a.toNat * 0x400 + i.toNat * 0x80000)
  | .sbVldst d a i => some (32, 0x00000012 + d.toNat * 0x40 + a.toNat * 0x400 + i.toNat * 0x80000)
  | .sbVstst d a i => some (32, 0x00000013 + d.toNat * 0x40 + a.toNat * 0x400 + i.toNat * 0x80000)
  | .sbVrdp d k => some (32, 0x00000014 + d.toNat * 0x40 + k.toNat * 0x4000)
  | .sbVwrp d k => some (32, 0x00000015 + d.toNat * 0x40 + k.toNat * 0x4000)
  | .sbRdh d i => some (32, 0x00000016 + d.toNat * 0x40 + i.toNat * 0x4000)
  | .sbVaddi d a b => some (32, 0x00000017 + d.toNat * 0x40 + a.toNat * 0x400 + b.toNat * 0x4000)
  | .sbVaddf d a b => some (32, 0x00000018 + d.toNat * 0x40 + a.toNat * 0x400 + b.toNat * 0x4000)
  | .sbVmulf d a b => some (32, 0x00000019 + d.toNat * 0x40 + a.toNat * 0x400 + b.toNat * 0x4000)
  | .sbVmaxf d a b => some (32, 0x0000001A + d.toNat * 0x40 + a.toNat * 0x400 + b.toNat * 0x4000)
  | .sbVminf d a b => some (32, 0x0000001B + d.toNat * 0x40 + a.toNat * 0x400 + b.toNat * 0x4000)
  | .sbVmaxi d a b => some (32, 0x0000001C + d.toNat * 0x40 + a.toNat * 0x400 + b.toNat * 0x4000)
  | .sbVand d a b => some (32, 0x0000001D + d.toNat * 0x40 + a.toNat * 0x400 + b.toNat * 0x4000)
  | .sbVor d a b => some (32, 0x0000001E + d.toNat * 0x40 + a.toNat * 0x400 + b.toNat * 0x4000)
  | .sbVxor d a b => some (32, 0x0000001F + d.toNat * 0x40 + a.toNat * 0x400 + b.toNat * 0x4000)
  | .sbVcvtbfF2b d a h => some (32, 0x00000020 + d.toNat * 0x40 + a.toNat * 0x400 + h.toNat * 0x80000)
  | .sbVcvtbfB2f d a h => some (32, 0x00040020 + d.toNat * 0x40 + a.toNat * 0x400 + h.toNat * 0x80000)
  | .sbVsum d a => some (32, 0x00000021 + d.toNat * 0x40 + a.toNat * 0x400)
  | .sbVcmpf d a b c => some (32, 0x00000022 + d.toNat * 0x40 + a.toNat * 0x400 + b.toNat * 0x4000 + c.toNat * 0x40000)
  | .sbVself d a b c => some (32, 0x00000023 + d.toNat * 0x40 + a.toNat * 0x400 + b.toNat * 0x4000 + c.toNat * 0x40000)
  | .sbTrap a c => some (32, 0x00000024 + a.toNat * 0x400 + c.toNat * 0x4000)
  | .sbStamp d => some (32, 0x00000025 + d.toNat * 0x40)
  | .sbEmit d a => some (32, 0x00000026 + d.toNat * 0x40 + a.toNat * 0x400)
  | _ => none

end Sys2Proof
end

