-- ==== Sys2Proof/Machine/Formats.lean ====
section
/-!
DEFINITION. The format tags (R36), the floating-point layouts (R37, R38) and the exact values that their encodings
stand for. Everything here is arithmetic on natural numbers and integers: no state.
-/
namespace Sys2Proof.Machine

/-- A format tag (R36). The tags 13 to 31 are reserved and have no constructor. -/
inductive Tag where
  | raw | f32 | bf16 | f16 | e4m3 | e5m2 | i32 | i16 | i8 | n32 | n16 | n8 | b4
  deriving DecidableEq, Repr

/-- The number of a tag in an encoding (R36). -/
def Tag.code : Tag → Nat
  | .raw => 0 | .f32 => 1 | .bf16 => 2 | .f16 => 3 | .e4m3 => 4 | .e5m2 => 5 | .i32 => 6
  | .i16 => 7 | .i8 => 8 | .n32 => 9 | .n16 => 10 | .n8 => 11 | .b4 => 12

/-- The tag that a number names; the reserved numbers name none (R36, R48). -/
def Tag.numbered : Nat → Option Tag
  | 0 => some .raw | 1 => some .f32 | 2 => some .bf16 | 3 => some .f16 | 4 => some .e4m3
  | 5 => some .e5m2 | 6 => some .i32 | 7 => some .i16 | 8 => some .i8 | 9 => some .n32
  | 10 => some .n16 | 11 => some .n8 | 12 => some .b4 | _ => none

/-- The tag that an encoding field names. -/
def Tag.ofBits (t : BitVec 5) : Option Tag := Tag.numbered t.toNat

/-- Bits of one element (R36). -/
def Tag.width : Tag → Nat
  | .raw | .f32 | .i32 | .n32 => 32
  | .bf16 | .f16 | .i16 | .n16 => 16
  | .e4m3 | .e5m2 | .i8 | .n8 => 8
  | .b4 => 4

/-- Elements of a 512-bit vector register (R43). -/
def Tag.lanes (t : Tag) : Nat := 512 / t.width

/-- Elements of a 1,024-bit tile register row (R43). -/
def Tag.rowLanes (t : Tag) : Nat := 1024 / t.width

/-- Lanes that a predicate governs: elements, or blocks for b4 (R43). -/
def Tag.predLanes (t : Tag) : Nat :=
  match t with
  | .b4 => 4
  | t => t.lanes

/-- Bits governed by one predicate bit: the element, or the whole block for b4 (R43). -/
def Tag.laneWidth (t : Tag) : Nat := 512 / t.predLanes

/-- A floating-point format (R37). -/
inductive FloatFmt where
  | f32 | bf16 | f16 | e4m3 | e5m2
  deriving DecidableEq, Repr

/-- The floating-point format of a tag. -/
def Tag.float : Tag → Option FloatFmt
  | .f32 => some .f32 | .bf16 => some .bf16 | .f16 => some .f16
  | .e4m3 => some .e4m3 | .e5m2 => some .e5m2 | _ => none

/-- Whether a tag is a two's-complement or unsigned integer format (R39). -/
def Tag.isInt : Tag → Bool
  | .i32 | .i16 | .i8 | .n32 | .n16 | .n8 => true
  | _ => false

/-- Whether a tag is a two's-complement integer format (R39). -/
def Tag.isSigned : Tag → Bool
  | .i32 | .i16 | .i8 => true
  | _ => false

/-- Mantissa bits (R37). -/
def FloatFmt.mant : FloatFmt → Nat
  | .f32 => 23 | .bf16 => 7 | .f16 => 10 | .e4m3 => 3 | .e5m2 => 2

/-- Exponent bits (R37). -/
def FloatFmt.expBits : FloatFmt → Nat
  | .f32 => 8 | .bf16 => 8 | .f16 => 5 | .e4m3 => 4 | .e5m2 => 5

/-- Exponent bias (R37). -/
def FloatFmt.bias : FloatFmt → Nat
  | .f32 => 127 | .bf16 => 127 | .f16 => 15 | .e4m3 => 7 | .e5m2 => 15

/-- Width of an element (R37). -/
def FloatFmt.width (f : FloatFmt) : Nat := 1 + f.expBits + f.mant

/-- The exponent of the smallest normal value. -/
def FloatFmt.emin (f : FloatFmt) : Int := 1 - (f.bias : Int)

/-- The magnitude bits just above the largest finite value: infinity, or the NaN of e4m3 (R38). -/
def FloatFmt.beyond (f : FloatFmt) : Nat :=
  match f with
  | .e4m3 => 0x7F
  | f => (2 ^ f.expBits - 1) * 2 ^ f.mant

/-- The sign bit of an encoding. -/
def FloatFmt.signBit (f : FloatFmt) (neg : Bool) : Nat := if neg then 2 ^ (f.width - 1) else 0

/-- The canonical NaN of a format (R57). -/
def FloatFmt.canonicalNaN : FloatFmt → Nat
  | .f32 => 0x7FC00000 | .bf16 => 0x7FC0 | .f16 => 0x7E00 | .e4m3 => 0x7F | .e5m2 => 0x7E

/-- What an encoding stands for (R37, R38): a NaN with its mantissa, an infinity, or the finite
value m times 2 to the power e with its sign. -/
inductive FVal where
  | nan (neg : Bool) (signalling : Bool) (mantissa : Nat)
  | inf (neg : Bool)
  | fin (neg : Bool) (m : Nat) (e : Int)
  deriving DecidableEq, Repr

/-- The value of the bits of an element (R37, R38). -/
def FloatFmt.value (f : FloatFmt) (bits : Nat) : FVal :=
  let neg := bits / 2 ^ (f.width - 1) % 2 == 1
  let ex := bits / 2 ^ f.mant % 2 ^ f.expBits
  let mn := bits % 2 ^ f.mant
  let finite : FVal :=
    if ex = 0 then .fin neg mn (f.emin - f.mant)
    else .fin neg (2 ^ f.mant + mn) ((ex : Int) - f.bias - f.mant)
  match f with
  | .e4m3 => if ex = 15 ∧ mn = 7 then .nan neg false 7 else finite
  | f =>
    if ex + 1 = 2 ^ f.expBits then
      if mn = 0 then .inf neg else .nan neg (mn < 2 ^ (f.mant - 1)) mn
    else finite

/-- The value is a NaN. -/
def FVal.isNaN : FVal → Bool
  | .nan _ _ _ => true
  | _ => false

/-- The value is a signalling NaN (R38). -/
def FVal.isSignalling : FVal → Bool
  | .nan _ s _ => s
  | _ => false

/-- The value is an infinity. -/
def FVal.isInf : FVal → Bool
  | .inf _ => true
  | _ => false

/-- The value is a zero of either sign. -/
def FVal.isZero : FVal → Bool
  | .fin _ m _ => m == 0
  | _ => false

/-- The sign of a value. -/
def FVal.neg : FVal → Bool
  | .nan n _ _ => n
  | .inf n => n
  | .fin n _ _ => n

/-- An exact binary fraction: m times 2 to the power e. -/
structure Dyadic where
  m : Int
  e : Int
  deriving DecidableEq, Repr

/-- The exact value of a finite encoding; 0 for the others, which no caller asks. -/
def FVal.dyadic : FVal → Dyadic
  | .fin n m e => ⟨if n then -(m : Int) else m, e⟩
  | _ => ⟨0, 0⟩

/-- An exact sum. -/
def Dyadic.add (a b : Dyadic) : Dyadic :=
  if a.e ≤ b.e then ⟨a.m + b.m * 2 ^ (b.e - a.e).toNat, a.e⟩
  else ⟨a.m * 2 ^ (a.e - b.e).toNat + b.m, b.e⟩

/-- An exact product. -/
def Dyadic.mul (a b : Dyadic) : Dyadic := ⟨a.m * b.m, a.e + b.e⟩

/-- The negated value. -/
def Dyadic.neg (a : Dyadic) : Dyadic := ⟨-a.m, a.e⟩

/-- The numerator of the magnitude. -/
def Dyadic.num (a : Dyadic) : Nat := a.m.natAbs * 2 ^ a.e.toNat

/-- The denominator of the magnitude. -/
def Dyadic.den (a : Dyadic) : Nat := 2 ^ (-a.e).toNat

/-- The order of two exact values. -/
def Dyadic.lt (a b : Dyadic) : Bool := (a.add b.neg).m < 0

/-- Equality of two exact values. -/
def Dyadic.eqv (a b : Dyadic) : Bool := (a.add b.neg).m == 0

end Sys2Proof.Machine
end

