-- ==== Sys2Proof/Machine/Flags.lean ====
section
/-!
DEFINITION. Rounding (R51 to R54), the flags that an operation raises (R52, R58 to R62) and the arithmetic of single
elements: an element is the natural number of its bits, a result is the bits and the flags raised.
-/
namespace Sys2Proof.Machine

/-- The flags that an operation raises, as FFLAGS holds them (R61). -/
structure FpFlags where
  nv : Bool := false
  dz : Bool := false
  of : Bool := false
  uf : Bool := false
  nx : Bool := false
  deriving DecidableEq, Repr

/-- No flag. -/
def FpFlags.none : FpFlags := {}

/-- Invalid operation only. -/
def FpFlags.invalid : FpFlags := { nv := true }

/-- The flags of two operations together; flags are sticky (R61). -/
def FpFlags.or (a b : FpFlags) : FpFlags :=
  { nv := a.nv || b.nv, dz := a.dz || b.dz, of := a.of || b.of, uf := a.uf || b.uf, nx := a.nx || b.nx }

/-- The five bits of FFLAGS, NX lowest (R61). -/
def FpFlags.bits (f : FpFlags) : BitVec 5 :=
  BitVec.ofBool f.nv ++ BitVec.ofBool f.dz ++ BitVec.ofBool f.of ++ BitVec.ofBool f.uf ++ BitVec.ofBool f.nx

/-- FFLAGS read back as flags. -/
def FpFlags.ofBits (b : BitVec 5) : FpFlags :=
  { nv := b.getLsbD 4, dz := b.getLsbD 3, of := b.getLsbD 2, uf := b.getLsbD 1, nx := b.getLsbD 0 }

/-- A rounding: one of the four modes of FRM.RM (R50), or stochastic with its draw g (R54). -/
inductive Rounding where
  | rne | rtz | rup | rdn
  | stochastic (g : Nat)
  deriving DecidableEq, Repr

/-- The mode that FRM.RM names (R50). -/
def Rounding.ofBits (rm : BitVec 2) : Rounding :=
  match rm.toNat with
  | 0 => .rne
  | 1 => .rtz
  | 2 => .rup
  | _ => .rdn

/-- Whether the larger magnitude is chosen, for lower multiple k with remainder r of D (R51, R54). -/
def Rounding.up (m : Rounding) (neg : Bool) (k r D : Nat) : Bool :=
  match m with
  | .rne => D < 2 * r || (2 * r == D && k % 2 == 1)
  | .rtz => false
  | .rup => r != 0 && !neg
  | .rdn => r != 0 && neg
  | .stochastic g => 65536 ≤ 65536 * r / D + g

/-- A bit of a sign in a Boolean result. -/
def b2n (b : Bool) : Nat := if b then 1 else 0

/-- floor(log2(num / den)) of a positive fraction. -/
def log2Ratio (num den : Nat) : Int :=
  let k : Int := (num.log2 : Int) - den.log2
  let ge := if 0 ≤ k then decide (den * 2 ^ k.toNat ≤ num) else decide (den ≤ num * 2 ^ (-k).toNat)
  if ge then k else k - 1

/-- The quotient, remainder and divisor of num / den counted in units of 2 to the power q. -/
def inUnits (num den : Nat) (q : Int) : Nat × Nat × Nat :=
  let N := num * 2 ^ (-q).toNat
  let D := den * 2 ^ q.toNat
  (N / D, N % D, D)

/-- What a format gives for a magnitude beyond its largest finite value (R51, R54). -/
def overflowBits (f : FloatFmt) (m : Rounding) (neg : Bool) : Nat :=
  match f with
  | .e4m3 => 0x7E
  | f =>
    match m with
    | .rtz => f.beyond - 1
    | .rup => if neg then f.beyond - 1 else f.beyond
    | .rdn => if neg then f.beyond else f.beyond - 1
    | _ => f.beyond

/-- Whether the exact num / den is tiny (R52): below the smallest normal value after rounding with
an unbounded exponent range, or before it for a stochastic rounding. -/
def isTiny (f : FloatFmt) (m : Rounding) (neg : Bool) (num den : Nat) (e : Int) : Bool :=
  if f.emin ≤ e then false
  else
    match m with
    | .stochastic _ => true
    | m =>
      if e + 1 < f.emin then true
      else
        let u := inUnits num den (e - f.mant)
        u.1 + b2n (m.up neg u.1 u.2.1 u.2.2) != 2 ^ (f.mant + 1)

/-- round(x, f, m) for x of magnitude num / den and the given sign, with its flags (R51, R52, R54).
An exact zero keeps the given sign. -/
def roundRatio (f : FloatFmt) (m : Rounding) (neg : Bool) (num den : Nat) : Nat × FpFlags :=
  if num = 0 then (f.signBit neg, {})
  else
    let e := log2Ratio num den
    let u := inUnits num den (max e f.emin - f.mant)
    let k := u.1 + b2n (m.up neg u.1 u.2.1 u.2.2)
    let mag := k + (max e f.emin - f.emin).toNat * 2 ^ f.mant
    let inexact := u.2.1 != 0
    let clamp : Bool := match f, m with
      | .e4m3, .stochastic _ => decide (448 * den < num)
      | _, _ => false
    if f.beyond ≤ mag then
      (f.signBit neg + overflowBits f m neg, { of := true, nx := true })
    else
      (f.signBit neg + mag,
        { of := clamp, nx := inexact, uf := inexact && isTiny f m neg num den e })

/-- round of an exact value; a zero takes the sign given. -/
def roundDyadic (f : FloatFmt) (m : Rounding) (zeroNeg : Bool) (x : Dyadic) : Nat × FpFlags :=
  if x.m = 0 then (f.signBit zeroNeg, {}) else roundRatio f m (x.m < 0) x.num x.den

/-- An exact magnitude rounded to an integer: the integer and whether it is inexact (R51). -/
def roundToInt (m : Rounding) (neg : Bool) (num den : Nat) : Nat × Bool :=
  let k := num / den
  let r := num % den
  (k + b2n (m.up neg k r den), r != 0)

/-- The quiet form of a NaN encoding (R38, R58). -/
def FloatFmt.quiet (f : FloatFmt) (bits : Nat) : Nat := bits ||| 2 ^ (f.mant - 1)

/-- The first NaN operand in order, quiet, with NV when any operand is signalling (R58). -/
def nanOperand (f : FloatFmt) (ops : List Nat) : Option (Nat × FpFlags) :=
  match ops.find? (fun b => (f.value b).isNaN) with
  | none => none
  | some b => some (f.quiet b, { nv := ops.any (fun b => (f.value b).isSignalling) })

/-- The bits of an infinity. -/
def FloatFmt.infinity (f : FloatFmt) (neg : Bool) : Nat := f.signBit neg + f.beyond

/-- The canonical NaN with NV: a NaN from operands that hold none (R58). -/
def generatedNaN (f : FloatFmt) : Nat × FpFlags := (f.canonicalNaN, .invalid)

/-- Sum of two values that are not NaN, rounded once (R51, R58, R227). -/
def addValues (f : FloatFmt) (m : Rounding) (x y : FVal) : Nat × FpFlags :=
  match x, y with
  | .inf a, .inf b => if a = b then (f.infinity a, {}) else generatedNaN f
  | .inf a, _ => (f.infinity a, {})
  | _, .inf b => (f.infinity b, {})
  | x, y =>
    let zeroNeg := if x.isZero && y.isZero && x.neg == y.neg then x.neg else m == .rdn
    roundDyadic f m zeroNeg (x.dyadic.add y.dyadic)

/-- The value with its sign inverted. -/
def FVal.flip : FVal → FVal
  | .nan n s p => .nan (!n) s p
  | .inf n => .inf (!n)
  | .fin n k e => .fin (!n) k e

/-- vadd of two elements (R226, R227). -/
def fpAdd (f : FloatFmt) (m : Rounding) (a b : Nat) : Nat × FpFlags :=
  match nanOperand f [a, b] with
  | some r => r
  | none => addValues f m (f.value a) (f.value b)

/-- vsub of two elements (R226, R227). -/
def fpSub (f : FloatFmt) (m : Rounding) (a b : Nat) : Nat × FpFlags :=
  match nanOperand f [a, b] with
  | some r => r
  | none => addValues f m (f.value a) (f.value b).flip

/-- The exact product of two values that are not NaN, or none for 0 times infinity (R227). -/
def mulValues (x y : FVal) : Option FVal :=
  match x, y with
  | .inf a, y => if y.isZero then none else some (.inf (a != y.neg))
  | x, .inf b => if x.isZero then none else some (.inf (x.neg != b))
  | .fin a k e, .fin b l g => some (.fin (a != b) (k * l) (e + g))
  | _, _ => none

/-- vmul of two elements (R226, R227). -/
def fpMul (f : FloatFmt) (m : Rounding) (a b : Nat) : Nat × FpFlags :=
  match nanOperand f [a, b] with
  | some r => r
  | none =>
    match mulValues (f.value a) (f.value b) with
    | none => generatedNaN f
    | some (.inf n) => (f.infinity n, {})
    | some p => roundDyadic f m p.neg p.dyadic

/-- The fused forms: (±) a × b (±) c, rounded once (R227). -/
def fpFma (f : FloatFmt) (m : Rounding) (negProduct negAddend : Bool) (a b c : Nat) : Nat × FpFlags :=
  let prod :=
    if (f.value a).isNaN || (f.value b).isNaN then some (f.value a) else mulValues (f.value a) (f.value b)
  match nanOperand f [a, b, c] with
  | some r => (r.1, if prod.isNone then r.2.or .invalid else r.2)
  | none =>
    match prod with
    | none => generatedNaN f
    | some p =>
      addValues f m (if negProduct then p.flip else p)
        (if negAddend then (f.value c).flip else f.value c)

/-- The order of two values that are not NaN: -0 below +0 only where zeros are told apart. -/
def FVal.lt (x y : FVal) : Bool :=
  match x, y with
  | .inf a, .inf b => a && !b
  | .inf a, _ => a
  | _, .inf b => !b
  | x, y => x.dyadic.lt y.dyadic

/-- Equality of two values that are not NaN, -0 equal to +0 (R232). -/
def FVal.same (x y : FVal) : Bool :=
  match x, y with
  | .inf a, .inf b => a == b
  | .inf _, _ => false
  | _, .inf _ => false
  | x, y => x.dyadic.eqv y.dyadic

/-- vmax or vmin of two elements (R58, R228). -/
def fpExtreme (f : FloatFmt) (isMax : Bool) (a b : Nat) : Nat × FpFlags :=
  let x := f.value a
  let y := f.value b
  if x.isSignalling || y.isSignalling || (x.isNaN && y.isNaN) then
    (nanOperand f [a, b]).getD (a, {})
  else if x.isNaN then (b, {})
  else if y.isNaN then (a, {})
  else if x.isZero && y.isZero then
    (f.signBit (if isMax then x.neg && y.neg else x.neg || y.neg), {})
  else if isMax then (if x.lt y then b else a, {})
  else (if y.lt x then b else a, {})

/-- The seven outcomes that a compare can ask for (R232). -/
inductive Compare where
  | eq | ne | lt | le | gt | ge | un
  deriving DecidableEq, Repr

/-- A floating compare of two elements: the predicate bit and NV (R232). -/
def fpCompare (f : FloatFmt) (c : Compare) (a b : Nat) : Bool × FpFlags :=
  let x := f.value a
  let y := f.value b
  let sig := x.isSignalling || y.isSignalling
  if x.isNaN || y.isNaN then
    match c with
    | .eq => (false, { nv := sig })
    | .ne => (true, { nv := sig })
    | .un => (true, { nv := sig })
    | _ => (false, .invalid)
  else
    match c with
    | .eq => (x.same y, {})
    | .ne => (!x.same y, {})
    | .lt => (x.lt y, {})
    | .le => (!y.lt x, {})
    | .gt => (y.lt x, {})
    | .ge => (!x.lt y, {})
    | .un => (false, {})

/-- An element of w bits read as signed or unsigned (R39). -/
def intValue (signed : Bool) (w bits : Nat) : Int :=
  if signed && 2 ^ (w - 1) ≤ bits % 2 ^ w then (bits % 2 ^ w : Nat) - (2 ^ w : Nat) else (bits % 2 ^ w : Nat)

/-- The low w bits of an integer (R39). -/
def wrapInt (w : Nat) (x : Int) : Nat := (x % (2 ^ w : Nat)).toNat

/-- An integer compare of two elements (R232). -/
def intCompare (signed : Bool) (w : Nat) (c : Compare) (a b : Nat) : Bool :=
  let x := intValue signed w a
  let y := intValue signed w b
  match c with
  | .eq => x == y
  | .ne => x != y
  | .lt => x < y
  | .le => x ≤ y
  | .gt => y < x
  | .ge => y ≤ x
  | .un => false

/-- The smallest integer of a format (R39). -/
def intMin (signed : Bool) (w : Nat) : Int := if signed then -(2 ^ (w - 1) : Nat) else 0

/-- The largest integer of a format (R39). -/
def intMax (signed : Bool) (w : Nat) : Int := if signed then (2 ^ (w - 1) : Nat) - 1 else (2 ^ w : Nat) - 1

/-- An integer saturated to a format (R236): the value and whether it was out of range. -/
def saturate (signed : Bool) (w : Nat) (x : Int) : Int × Bool :=
  if x < intMin signed w then (intMin signed w, true)
  else if intMax signed w < x then (intMax signed w, true)
  else (x, false)

/-- The exact num / den converted to an integer format (R59). -/
def ratioToInt (m : Rounding) (signed : Bool) (w : Nat) (neg : Bool) (num den : Nat) : Nat × FpFlags :=
  let k := roundToInt m neg num den
  let s := saturate signed w (if neg then -(k.1 : Int) else k.1)
  (wrapInt w s.1, if s.2 then .invalid else { nx := k.2 })

/-- A value converted to an integer format (R59). -/
def valueToInt (m : Rounding) (signed : Bool) (w : Nat) (x : FVal) : Nat × FpFlags :=
  match x with
  | .nan _ _ _ => (0, .invalid)
  | .inf n => (wrapInt w (if n then intMin signed w else intMax signed w), .invalid)
  | .fin n k e => ratioToInt m signed w n (k * 2 ^ e.toNat) (2 ^ (-e).toNat)

/-- A NaN of one format placed in another (R59). -/
def convertNaN (src tgt : FloatFmt) (neg signalling : Bool) (mantissa : Nat) : Nat × FpFlags :=
  match src, tgt with
  | .e4m3, t => (t.canonicalNaN, {})
  | _, .e4m3 => (FloatFmt.e4m3.canonicalNaN, { nv := signalling })
  | _, .e5m2 => (FloatFmt.e5m2.canonicalNaN, { nv := signalling })
  | s, t =>
    (t.quiet (t.signBit neg + t.beyond + mantissa * 2 ^ t.mant / 2 ^ s.mant), { nv := signalling })

/-- An infinity placed in a floating format (R59). -/
def convertInf (tgt : FloatFmt) (neg : Bool) : Nat × FpFlags :=
  match tgt with
  | .e4m3 => (FloatFmt.e4m3.signBit neg + 0x7F, .invalid)
  | t => (t.infinity neg, {})

/-- convert of an element between floating formats (R59, R236). -/
def floatToFloat (src tgt : FloatFmt) (m : Rounding) (bits : Nat) : Nat × FpFlags :=
  match src.value bits with
  | .nan n s p => convertNaN src tgt n s p
  | .inf n => convertInf tgt n
  | .fin n k e => roundDyadic tgt m n ⟨if n then -(k : Int) else k, e⟩

/-- Fewer mantissa bits or a smaller exponent range: a narrowing conversion (R53). -/
def narrows (src tgt : FloatFmt) : Bool := tgt.mant < src.mant || tgt.expBits < src.expBits

/-- A conversion from b4 is narrowing to f16, e4m3 and e5m2 only (R53). -/
def narrowsB4 (tgt : FloatFmt) : Bool :=
  match tgt with
  | .f16 | .e4m3 | .e5m2 => true
  | _ => false

/-- The magnitude of code index c of a sign-and-magnitude block type, in eighths (R42). -/
def b4Eighths (type c : Nat) : Nat :=
  match type with
  | 1 => match c with | 0 => 0 | 1 => 4 | 2 => 8 | 3 => 12 | 4 => 16 | 5 => 24 | 6 => 32 | _ => 48
  | 2 => match c with | 0 => 0 | 1 => 1 | 2 => 2 | 3 => 4 | 4 => 8 | 5 => 16 | 6 => 32 | _ => 64
  | _ => match c with | 0 => 0 | 1 => 8 | 2 => 16 | 3 => 24 | 4 => 32 | 5 => 48 | 6 => 64 | _ => 96

/-- The value of a b4 code without its scale: sign and eighths (R42). -/
def b4Code (type code : Nat) : Bool × Nat :=
  if type = 0 then (if 8 ≤ code then (true, (16 - code) * 8) else (false, code * 8))
  else (8 ≤ code, b4Eighths type (code % 8))

/-- The value of a b4 code under its scale byte (R41, R42); e = 63 makes every element a NaN. -/
def b4Value (scale code : Nat) : FVal :=
  let e := scale % 64
  if e = 63 then .nan false false 0
  else
    let c := b4Code (scale / 64) (code % 16)
    .fin c.1 c.2 ((e : Int) - 35)

/-- A b4 element converted to a floating format (R59, R236). -/
def b4ToFloat (tgt : FloatFmt) (m : Rounding) (scale code : Nat) : Nat × FpFlags :=
  match b4Value scale code with
  | .fin n k e => roundDyadic tgt m n ⟨if n then -(k : Int) else k, e⟩
  | _ => (tgt.canonicalNaN, {})

/-- An integer converted to a floating format (R59). -/
def intToFloat (tgt : FloatFmt) (m : Rounding) (x : Int) : Nat × FpFlags := roundDyadic tgt m false ⟨x, 0⟩

/-- The largest index i up to n - 1 with table i times den at most num (R68). -/
def largestIndex (type num den : Nat) : Nat → Nat
  | 0 => 0
  | i + 1 => if b4Eighths type (i + 1) * den ≤ num then i + 1 else largestIndex type num den i

/-- qround for a sign-and-magnitude block type (R68); num / den is the magnitude in eighths. -/
def qroundMagnitude (type : Nat) (m : Rounding) (neg : Bool) (num den : Nat) : Nat × FpFlags :=
  let i := largestIndex type num den 7
  let lo := b4Eighths type i
  let sign := if neg then 8 else 0
  if lo * den = num then (sign + i, {})
  else if i = 7 then (sign + 7, { of := true, nx := true })
  else
    let j := i + b2n (m.up neg i (num - lo * den) ((b4Eighths type (i + 1) - lo) * den))
    (sign + j, { nx := true, uf := j == 0 })

/-- qround for the int block type (R68); num / den is the magnitude. -/
def qroundInt (m : Rounding) (neg : Bool) (num den : Nat) : Nat × FpFlags :=
  let beyond := if neg then decide (8 * den < num) else decide (7 * den < num)
  if beyond then (if neg then 8 else 7, { of := true, nx := true })
  else
    let k := roundToInt m neg num den
    (wrapInt 4 (if neg then -(k.1 : Int) else k.1), { nx := k.2, uf := k.2 && k.1 == 0 })

/-- qround(x / 2^(e - 32), T) of a finite x (R68). -/
def qround (type : Nat) (m : Rounding) (e : Nat) (x : FVal) : Nat × FpFlags :=
  let d : Dyadic := ⟨x.dyadic.m, x.dyadic.e + 32 - e⟩
  if type = 0 then qroundInt m x.neg d.num d.den
  else qroundMagnitude type m x.neg (8 * d.num) d.den

/-- Whether a finite x lies within the range of block type T at exponent e (R67). -/
def fitsBlock (type e : Nat) (x : FVal) : Bool :=
  let hi : Int := match type with | 0 => 7 | 1 => 6 | 2 => 8 | _ => 12
  let lo : Int := match type with | 0 => -8 | 1 => -6 | 2 => -8 | _ => -12
  let s : Int := (e : Int) - 32
  !(x.dyadic.lt ⟨lo, s⟩) && !(Dyadic.lt ⟨hi, s⟩ x.dyadic)

/-- The scale exponent of a block: the smallest that fits every element, or 62 (R67). -/
def blockExponent (type : Nat) (xs : List FVal) : Nat :=
  ((List.range 63).find? (fun e => xs.all (fitsBlock type e))).getD 62

/-- vrndi of one element (R243). -/
def fpRoundIntegral (f : FloatFmt) (m : Rounding) (a : Nat) : Nat × FpFlags :=
  match f.value a with
  | .nan _ _ _ => (nanOperand f [a]).getD (a, {})
  | .inf _ => (a, {})
  | .fin n k e =>
    let r := roundToInt m n (k * 2 ^ e.toNat) (2 ^ (-e).toNat)
    ((roundRatio f .rne n r.1 1).1, {})

/-- The coefficients c_0 to c_7 of vfexp, as f32 encodings: c_k = round(ln(2)^k / k!, f32, RNE) (R244). -/
def expCoefficients : List Nat :=
  [0x3F800000, 0x3F317218, 0x3E75FDF0, 0x3D635847, 0x3C1D955B, 0x3AAEC3FF, 0x39218489, 0x377FE5FE]

/-- The exact polynomial of vfexp by Horner's rule (R244). -/
def expPolynomial (x : Dyadic) : List Nat → Dyadic
  | [] => ⟨0, 0⟩
  | c :: cs => (FloatFmt.f32.value c).dyadic.add (x.mul (expPolynomial x cs))

/-- vfexp of one element (R244). -/
def fpExp (f : FloatFmt) (m : Rounding) (a : Nat) : Nat × FpFlags :=
  match f.value a with
  | .nan _ _ _ => (nanOperand f [a]).getD (a, {})
  | .inf _ => generatedNaN f
  | .fin n k e =>
    if Dyadic.lt ⟨1, 0⟩ ⟨k, e⟩ then generatedNaN f
    else roundDyadic f m false (expPolynomial ⟨if n then -(k : Int) else k, e⟩ expCoefficients)

/-- trunc(m) of a finite value (R245). -/
def FVal.truncate (x : FVal) : Int :=
  match x with
  | .fin n k e =>
    let t : Int := (k * 2 ^ e.toNat / 2 ^ (-e).toNat : Nat)
    if n then -t else t
  | _ => 0

/-- vexpins of two elements (R245). Exponents beyond a thousand give what a thousand gives. -/
def fpScale (f : FloatFmt) (m : Rounding) (y p : Nat) : Nat × FpFlags :=
  match nanOperand f [y, p] with
  | some r => r
  | none =>
    match f.value y, f.value p with
    | y, .inf false => if y.isZero then generatedNaN f else (f.infinity y.neg, {})
    | y, .inf true => if y.isInf then generatedNaN f else (f.signBit y.neg, {})
    | .inf n, _ => (f.infinity n, {})
    | y, p =>
      let t := max (-1000) (min 1000 p.truncate)
      roundDyadic f m y.neg ⟨y.dyadic.m, y.dyadic.e + t⟩

/-- vgetexp of one element (R245). -/
def fpExponent (f : FloatFmt) (a : Nat) : Nat × FpFlags :=
  match f.value a with
  | .nan _ _ _ => (nanOperand f [a]).getD (a, {})
  | .inf _ => (f.infinity false, {})
  | .fin _ k e =>
    if k = 0 then (f.infinity true, {})
    else roundDyadic f .rne false ⟨(k.log2 : Int) + e, 0⟩

/-- vrcp of one element (R246). -/
def fpReciprocal (f : FloatFmt) (m : Rounding) (a : Nat) : Nat × FpFlags :=
  match f.value a with
  | .nan _ _ _ => (nanOperand f [a]).getD (a, {})
  | .inf n => (f.signBit n, {})
  | .fin n k e =>
    if k = 0 then (f.infinity n, { dz := true })
    else roundRatio f m n (2 ^ (-e).toNat) (k * 2 ^ e.toNat)

/-- One bit of a square root at a time, from bit n - 1 down. -/
def sqrtBits (x : Nat) : Nat → Nat → Nat
  | 0, r => r
  | n + 1, r => sqrtBits x n (if (r + 2 ^ n) * (r + 2 ^ n) ≤ x then r + 2 ^ n else r)

/-- The integer square root of x below 2 to the power 2n. -/
def isqrt (n x : Nat) : Nat := sqrtBits x n 0

/-- 1 / sqrt(k × 2^e), as a fraction of 64 significant bits or more whose last place is set when the
value is not exact: rounding it gives the rounding of the exact value (R246). -/
def inverseSqrt (k : Nat) (e : Int) : Nat × Nat :=
  let odd := e % 2 != 0
  let k' := if odd then 2 * k else k
  let h := (if odd then e - 1 else e) / 2
  let X := 2 ^ 200
  let root := isqrt 101 (X / k')
  let exact := root * root * k' == X
  let n := 2 * root + b2n (!exact)
  (n * 2 ^ (-h).toNat, 2 ^ 101 * 2 ^ h.toNat)

/-- vrsq of one element (R246). -/
def fpInverseSqrt (f : FloatFmt) (m : Rounding) (a : Nat) : Nat × FpFlags :=
  match f.value a with
  | .nan _ _ _ => (nanOperand f [a]).getD (a, {})
  | .inf n => if n then generatedNaN f else (0, {})
  | .fin n k e =>
    if k = 0 then (f.infinity n, { dz := true })
    else if n then generatedNaN f
    else
      let r := inverseSqrt k e
      roundRatio f m false r.1 r.2

/-- The quotient of vcvts, by the cases of R69 in their order. -/
inductive Quotient where
  | operand                                  -- x itself, a NaN
  | generated
  | inf (neg : Bool)
  | exact (neg : Bool) (num den : Nat)
  deriving DecidableEq, Repr

/-- The division of vcvts: x of format f by the f32 scale s (R69). -/
def scaleQuotient (x s : FVal) : Quotient × FpFlags :=
  match x, s with
  | .nan _ _ _, _ => (.operand, {})
  | _, .nan _ sig _ => (.generated, { nv := sig })
  | .inf a, .inf _ => if a then (.generated, .invalid) else (.generated, .invalid)
  | .inf a, .fin b _ _ => (.inf (a != b), {})
  | .fin a _ _, .inf b => (.exact (a != b) 0 1, {})
  | .fin a k e, .fin b l g =>
    if l = 0 then (if k = 0 then (.generated, .invalid) else (.inf (a != b), { dz := true }))
    else
      let d := e - g
      (.exact (a != b) (k * 2 ^ d.toNat) (l * 2 ^ (-d).toNat), {})

/-- The quotient converted to a floating target (R69). -/
def quotientToFloat (src tgt : FloatFmt) (m : Rounding) (x : FVal) (q : Quotient × FpFlags) : Nat × FpFlags :=
  match q.1 with
  | .operand =>
    match x with
    | .nan n s p => convertNaN src tgt n s p
    | _ => (tgt.canonicalNaN, {})
  | .generated => (tgt.canonicalNaN, q.2)
  | .inf n => ((convertInf tgt n).1, q.2.or (convertInf tgt n).2)
  | .exact n num den => ((roundRatio tgt m n num den).1, q.2.or (roundRatio tgt m n num den).2)

/-- The quotient converted to i16 or i8 (R69). -/
def quotientToInt (w : Nat) (m : Rounding) (q : Quotient × FpFlags) : Nat × FpFlags :=
  match q.1 with
  | .operand => (0, .invalid)
  | .generated => (0, q.2.or .invalid)
  | .inf n => (wrapInt w (if n then intMin true w else intMax true w), q.2.or .invalid)
  | .exact n num den => ((ratioToInt m true w n num den).1, q.2.or (ratioToInt m true w n num den).2)

/-- One step of the generator: the new state and the 16-bit draw (R55). -/
def drawStep (gs : Word) : Word × Nat :=
  let s := gs ^^^ (gs <<< 13)
  let s := s ^^^ (s >>> 7)
  let s := s ^^^ (s <<< 17)
  (s, (s >>> 48).toNat)

end Sys2Proof.Machine
end

