-- ==== Sys2Proof/Config.lean ====
section
/-!
DEFINITION. What the spec leaves open: each value is an opaque constant, so nothing can be proved of it. Free values of
steps take the model's own counter (Wafer.free) as their argument.
-/
namespace Sys2Proof.Config

/-- Cycles that a step takes beyond the first (R10, R108, R147): timing is not modelled (log entry 3). -/
opaque extraCycles : Nat → Nat

/-- The level that TSTAT.PLEV = 3 names, a field value without a meaning in R359 (log entry 9): two bits. -/
opaque reservedLevel : Nat → Bool × Bool

/-- The host that holds the adapter card of an MHL port (R139): the system builder's cabling (log entry 10). -/
opaque hostOf : BitVec 3 → Nat

/-- What the status and counters of a rim unit's device page read (R469): its class, unit, offset, and the clock of the
read (log entry 11). -/
opaque deviceStatus : Nat → Nat → Nat → Nat → BitVec 64

/-- SHA-384 (R475, R476), which the spec names and does not define (log entry 12). -/
opaque sha384 : List (BitVec 8) → BitVec 384

/-- A key hash matches a fused key slot that is not revoked (R475), and the fused minimum of SVN for a KIND. -/
opaque keyAccepted : BitVec 384 → Bool
opaque minimumSvn : Nat → Nat

/-- ECDSA over brainpoolP384: a signature verifies under the key of a hash on a digest (R475). -/
opaque verifies : BitVec 384 → BitVec 384 → List (BitVec 8) → Bool

/-- The attestation unit (R476): the report's header, the device serial, the fused SVN minimums as 16 bytes, the
identity key's signature of a digest as 96 bytes, and the certificate chain. -/
opaque reportHeader : BitVec 128
opaque deviceSerial : BitVec 128
opaque svnMinimums : BitVec 128
opaque identitySign : BitVec 384 → BitVec 768
opaque certificates : List (BitVec 8)

/-- Bytes that an entry of the send log takes for a payload of some bytes (R428, log entry 13). -/
opaque sendEntryBytes : Nat → Nat

/-- The retries that a hop has made of a flit when its check fails (R25, R480 SRC 10, log entry 14). -/
opaque hopRetries : Nat → BitVec 64

/-- The status of a command, by its code, that names nothing it could act on: the spec lists none (R472, log entry 15). -/
opaque refusedStatus : Nat → Nat

/-- The code of a kind of abandoned request in its record (R368), which the spec does not number (log entry 16). -/
opaque abandonedCode : Nat → BitVec 4

/-- Bytes of a state area and of a channel record's entry in HBM, whose layout the spec does not give (R413, R419, R450,
log entry 90). -/
opaque areaByte : Nat → Nat → BitVec 8
opaque channelEntry : Nat → List (BitVec 8)

end Sys2Proof.Config
end

