-- ==== Sys2Proof/Machine/BootRom.lean ====
section
/-!
DEFINITION. The boot ROM (15_bringup.md, the listing of "Booting one quadrant"), assembled by R74 to R87 and R104, as the
scratchpad that a site holds when its core 0 starts (R456).
-/
namespace Sys2Proof.Machine

/-- Words of the boot ROM from address 0. -/
def bootWords0 : List Nat :=
  [0x00260095, 0x00A2110D, 0x00022107, 0x00A20117, 0x00050291, 0x00005025, 0x00010311, 0x0000601D,
   0x00020C05, 0x0000411B, 0x07E20C17, 0x00060C05, 0x00080C91, 0x00003D1B, 0x07620C17, 0x00264115]

/-- Words of the boot ROM from address 64. -/
def bootWords1 : List Nat :=
  [0x00000213, 0x02804205, 0x01104123, 0x0098110D, 0x00062107, 0x00022187, 0x0082210D, 0x000A328D,
   0x000A230D, 0x0002210D, 0x00446383, 0x000C738D, 0x000A7383, 0x07800085, 0x00040205, 0x00400B85]

/-- Words of the boot ROM from address 128. -/
def bootWords2 : List Nat :=
  [0x00000805, 0x00000885, 0x00226A03, 0x000C3A8D, 0x01295A83, 0x00267A95, 0x00268915, 0x00000985,
   0x00072A87, 0x01C24A97, 0x008B0A8D, 0x000D5A8D, 0x003F0B07, 0x002D5A83, 0x000F5A83, 0x0026BA95]

/-- Words of the boot ROM from address 192. -/
def bootWords3 : List Nat :=
  [0x000D4A8D, 0x00265B03, 0x012D5A83, 0x20015A89, 0x0026DA95, 0x00030805, 0x00C01817, 0x0085290D,
   0x00033985, 0xFDE37997, 0x00031885, 0xFCE37897, 0x00040C05, 0x00000D1B, 0x01620C17, 0x00080C05]

/-- Words of the boot ROM from address 256. -/
def bootWords4 : List Nat :=
  [0x00000A1B, 0x01020C17, 0x00000213, 0x00F04205, 0x00804149, 0x00C02149, 0x00620117, 0x00010311,
   0x0000601D, 0x00C0001F, 0x00265495, 0x00263415, 0x00262415, 0xFFE40417, 0x00E0840D, 0x01FE8407]

/-- Words of the boot ROM from address 320. -/
def bootWords5 : List Nat :=
  [0x0080001D, 0x0000001F, 0x0000001F, 0x0000001F, 0x0000001F, 0x0000001F, 0x0000001F, 0x0000001F,
   0x0000001F, 0x0000001F, 0x0000001F, 0x0000001F, 0x0000001F, 0x0000001F, 0x0000001F, 0x0000001F]

/-- Words of the boot ROM from address 384. -/
def bootWords6 : List Nat :=
  [0x00080000, 0x00000000, 0x00010000, 0x00000000, 0x00000000, 0x00000004, 0x00000000, 0x00000000,
   0x00050000, 0x00000000, 0x00F20000, 0x00000000, 0x00000000, 0x00000000, 0x00000000, 0x00000000]

/-- The words of the boot ROM, code and then the card. -/
def bootWords : List Nat :=
  bootWords0 ++ bootWords1 ++ bootWords2 ++ bootWords3 ++ bootWords4 ++ bootWords5 ++ bootWords6

/-- The non-zero bytes of words from an address, lowest byte first. -/
def wordCells : Nat → List Nat → List Host.Cell
  | _, [] => []
  | a, w :: r =>
    ([(a, BitVec.ofNat 8 w), (a + 1, BitVec.ofNat 8 (w / 0x100)), (a + 2, BitVec.ofNat 8 (w / 0x10000)),
      (a + 3, BitVec.ofNat 8 (w / 0x1000000))].filter (fun c => c.2 != 0)) ++ wordCells (a + 4) r

/-- The scratchpad of a site when its core 0 starts (R456). -/
def bootRom : List Host.Cell := wordCells 0 bootWords

end Sys2Proof.Machine
end

