-- ==== Sys2Proof/Machine/CoreState.lean ====
section
/-!
DEFINITION. The state of one core: registers, windows, control registers, counters, siding, engine queues and the
records of accesses that wait. Each field's value at reset is its default.
-/
namespace Sys2Proof.Machine

/-- A byte memory: addresses strictly rising, no entry equal to what an unlisted address reads as. -/
abbrev Memory := List Host.Cell

/-- 256 bytes: a line of the scratchpad, the far cache or an instruction buffer. -/
abbrev LineBits := BitVec 2048

/-- The access levels of R5. -/
inductive Level where
  | J | S | M
  deriving DecidableEq, Repr

/-- The classes of posted accesses (R137, R152): near, memory, external. -/
inductive PostClass where
  | n | m | x
  deriving DecidableEq, Repr

/-- A vector register with its side field (R92). -/
structure VReg where
  data : V512 := 0
  tag : Tag := .raw
  special : Bool := false
  scales : W32 := 0
  deriving DecidableEq, Repr

/-- A message register (R94). -/
structure QReg where
  data : V256 := 0
  full : Bool := false
  deriving DecidableEq, Repr

/-- A tile register: 32 rows of 128 bytes with eight scale bytes each (R93). -/
structure TReg where
  rows : Vector RowBits 32 := Vector.replicate 32 0
  scales : Vector Word 32 := Vector.replicate 32 0
  tag : Tag := .raw
  special : Bool := false
  deriving DecidableEq, Repr

/-- The program-named registers of a core (R88 to R94). -/
structure Regs where
  /-- x0 to x7; the entry of x0 is never read. -/
  glob : Vector Word 8 := Vector.replicate 8 0
  /-- The 16 physical frames: a0-a7 then k0-k7 of frame f from index 16 f. -/
  frames : Vector Word 256 := Vector.replicate 256 0
  /-- The trap window's a0-a7, k0-k7 and o0-o7 (R361). -/
  trapWin : Vector Word 24 := Vector.replicate 24 0
  /-- p0 to p7; the entry of p0 is never read. -/
  preds : Vector Word 8 := Vector.replicate 8 0
  vregs : Vector VReg 32 := Vector.replicate 32 {}
  qregs : Vector QReg 16 := Vector.replicate 16 {}
  tregs : Vector TReg 8 := Vector.replicate 8 {}
  deriving DecidableEq, Repr

/-- The register windows (R120, R121). -/
structure Win where
  depth : BitVec 16 := 1
  res : BitVec 4 := 1
  cwp : BitVec 4 := 0
  spills : BitVec 16 := 0
  fills : BitVec 16 := 0
  wsp : Word := 0
  wslim : Word := 0
  deriving DecidableEq, Repr

/-- The control registers of arithmetic: FRM, FFLAGS, GS, QTYPE, VPROG (R50, R61, R56, R224, R223). -/
structure FpCtl where
  frm : Word := 0
  fflags : BitVec 5 := 0
  gs : Word := 0x9E3779B97F4A7C15
  qtype : BitVec 2 := 1
  vprog : BitVec 6 := 0
  deriving DecidableEq, Repr

/-- The trap registers (R359) and the breakpoint check that an rft suppresses (R361). -/
structure TrapCtl where
  tvec : Word := 0
  tcause : Word := 0
  tpc : Word := 0
  tval : Word := 0
  tstat : Word := 0
  /-- The next instruction is not checked for breakpoints. -/
  skip : Bool := false
  deriving DecidableEq, Repr

/-- A core of the wafer by logical tile and number. -/
structure CoreRef where
  tile : TileNo
  core : CoreId
  deriving DecidableEq, Repr

/-- One checked access for the race rules (R172): its core and that core's access count. -/
structure AccessId where
  who : CoreRef
  tick : Nat
  deriving DecidableEq, Repr

/-- Posted counts (R153), the failures that posted accesses report later with cause and address (R175, R437), and the
output sequence (R426). -/
structure Post where
  n : Nat := 0
  m : Nat := 0
  x : Nat := 0
  oseq : W32 := 0
  races : List (PostClass × Nat × Word) := []
  /-- Lines that travel as two packets, neither of them acknowledged (R481). -/
  halves : List W32 := []
  deriving DecidableEq, Repr

/-- What a core knows of the accesses ordered before its own (R172). -/
structure RaceCtl where
  detmode : Bool := false
  /-- Checked accesses of this core so far. -/
  tick : Nat := 0
  /-- Accesses of other cores ordered before this core's next access. -/
  known : List AccessId := []
  /-- This core's posted accesses that no wait has covered yet, with their class and the tile they went to. -/
  uncovered : List (AccessId × PostClass × TileNo) := []
  deriving DecidableEq, Repr

/-- The answer to a blocking access. -/
inductive Reply where
  /-- The bytes read, or none for a pure acknowledgement, and the accesses known to be ordered before. -/
  | data (bytes : List Byte) (known : List AccessId)
  /-- The access raced and was not performed (R175). -/
  | race
  /-- The peer wafer that the access names cannot be reached (R474). -/
  | unreachable
  /-- The access failed with a cause: its place holds data that cannot be delivered (R310, R437), or it was checked
  before the request was sent. -/
  | fault (cause : Nat)
  deriving DecidableEq, Repr

/-- The kinds of blocking remote access that can be abandoned (R367, R368). -/
inductive BlockKind where
  | load | gather | amo | ldf | ldfe | ste | ldtag | settag | waita | device
  deriving DecidableEq, Repr

/-- The memories of the machine (R137): a logical tile's scratchpad, the HBM of this wafer, the host
memory behind an MHL port, a peer wafer's HBM, the state window of a tile's junction, device registers. -/
inductive Space where
  | spad (tile : TileNo)
  | hbm
  | host (port : BitVec 3)
  | peer (wafer : BitVec 8)
  | window (tile : TileNo)
  | device
  deriving DecidableEq, Repr

/-- A byte address within one memory, resolved at issue (R183). -/
structure Place where
  space : Space
  a : Nat
  deriving DecidableEq, Repr

/-- One request that the core's present instruction waits for. -/
structure Fetch where
  id : Nat
  /-- Virtual address of the bytes asked for. -/
  va : Nat
  /-- The lane of a gather, or the place of the request among those of its instruction. -/
  lane : Nat := 0
  reply : Option Reply := none
  /-- What a cancel names (R367): the kind, the resolved target, and the tag; none for a local wait. -/
  kind : BlockKind := .load
  place : Option Place := none
  tag : W32 := 0
  /-- Its operands (R367): the value that it carries, and the value that an atomic compares with. -/
  ops : Word × Word := (0, 0)
  deriving DecidableEq, Repr

/-- A page of a translation, held in a TLB (R144). -/
structure TlbEntry where
  job : BitVec 6
  root : BitVec 36
  /-- First virtual address and size of the page. -/
  base : Nat
  size : Nat
  /-- The leaf entry. -/
  pte : Word
  deriving DecidableEq, Repr

/-- A page walk of the core (R144), and whether it has found no valid leaf. -/
structure Walk where
  va : Nat
  job : BitVec 6
  root : BitVec 36
  failed : Bool := false
  deriving DecidableEq, Repr

/-- Where a translated access goes (R137, R141): the own scratchpad, or elsewhere. -/
inductive Target where
  | own (a : Nat)
  | far (p : Place)
  deriving DecidableEq, Repr

/-- The operations of accumulates (R186). -/
inductive AccOp where
  | addI32 | addI64 | addF32 | maxI32 | minI32 | orD | andD | xorD
  deriving DecidableEq, Repr

/-- What a core is doing (R131, R132, R348, R362, R367). -/
inductive RunState where
  | unbound | running | halted | trapped | idleServer | exited
  deriving DecidableEq, Repr

/-- Coupling to a leader (R133, R134). -/
inductive Coupling where
  | none
  | seeking (leader : CoreId)
  | following (leader : CoreId)
  deriving DecidableEq, Repr

/-- The key of an accumulate (R182): issuer job tile, issuer core, sequence. -/
structure AccKey where
  jt : TileNo
  core : CoreId
  seq : W32
  deriving DecidableEq, Repr

/-- A row of a siding (R193). Its age is the clock less since (R213). -/
structure Row where
  det : Bool
  cls : PostClass
  op : AccOp
  /-- Virtual address, bits [1:0] zero. -/
  va : Word
  place : Place
  value : Word
  since : Nat
  key : AccKey
  deriving DecidableEq, Repr

/-- An addend that a home slice refused, on its way to be parked (R190). -/
structure Bounce where
  det : Bool
  cls : PostClass
  op : AccOp
  va : Word
  place : Place
  addend : Word
  key : AccKey
  /-- The request was counted in its class, so parking its bounce lowers the count (R152, R190). -/
  counted : Bool
  deriving DecidableEq, Repr

/-- The siding and the accumulate controls of a core (R182, R193, R199, R200, R203, R205). -/
structure Accum where
  aseq : W32 := 0
  sdctl : Word := 0x1000
  accmode : BitVec 2 := 0
  rides : BitVec 16 := 0
  bounces : BitVec 16 := 0
  flight : Nat := 0
  rows : Vector (Option Row) 32 := Vector.replicate 32 none
  /-- Bounces that wait to be parked, oldest first; at most four. -/
  inbound : List Bounce := []
  /-- For each event whose flush waits for a count to fall, the rows that it has still to flush, in order (R196). -/
  flushing : List (List (BitVec 5)) := []
  /-- A waitc has flushed its rows and waits for its counts (R162). -/
  flushed : Bool := false
  /-- Deterministic entries of the ring in the team save area (R205). -/
  ring : List Row := []
  /-- Entries that the catch-up round has still to send again, in ascending key (R206). -/
  resend : List Row := []
  deriving DecidableEq, Repr

/-- A value taken by record(v) of R7, with the retired-instruction count at which it was taken (R98). -/
structure Recorded where
  pos : Nat
  value : Word
  deriving DecidableEq, Repr

/-- A ticket slot (R260, R297). -/
structure Slot where
  seq : BitVec 16 := 0
  /-- 0 free, 1 pending, 2 complete and not yet observed, 3 observed. -/
  state : BitVec 2 := 0
  fault : Bool := false
  flags : BitVec 5 := 0
  cause : BitVec 4 := 0
  addr : BitVec 48 := 0
  deriving DecidableEq, Repr

/-- The state of a job card (R289, R314); a started job that a boundary has cut stays started. -/
inductive CardState where
  | queued | started | parked
  deriving DecidableEq, Repr

/-- The job of a tile card, with the fields its word names (R264, R270, R276). -/
inductive TileJob where
  | tld (m : BitVec 3)
  | tst (m : BitVec 3)
  | mma (c a b : BitVec 3) (zero neg : Bool)
  | tzero (d : BitVec 3)
  | tmov (d a : BitVec 3)
  | ttr (d a : BitVec 3)
  | tcvt (d a : BitVec 3)
  | tadd (d a b : BitVec 3)
  | trowv (a : BitVec 3) (v : BitVec 5)
  | tvrow (d : BitVec 3) (v : BitVec 5)
  deriving DecidableEq, Repr

/-- A card of the matrix engine (R258, R266, R289) with what it fixed at issue. -/
structure TileCard where
  /-- Its place in the order in which the tile's jobs were issued (R261). -/
  num : Nat
  job : TileJob
  /-- The instruction's word (R289). -/
  word : W32 := 0
  /-- The ticket's sequence, for tld, tst and mma. -/
  seq : Option (BitVec 16) := none
  /-- xb, or the value of xa for trowv and tvrow. -/
  base : Word := 0
  stride : Word := 0
  scale : Word := 0
  shape : Word := 0
  perturb : Word := 0
  /-- The tags of the source (or of the data that tst stores) and of the destination at issue (R45). -/
  srcTag : Tag := .raw
  dstTag : Tag := .raw
  /-- FRM and the generator state at issue, for tcvt (R279). -/
  frm : Word := 0
  gs : Word := 0
  /-- The vector that tvrow read at issue. -/
  vec : VReg := {}
  prog : Nat := 0
  state : CardState := .queued
  /-- Why a parked job parked: the cause, and the address that failed (R286). -/
  fault : Option (BitVec 4 × Word) := none
  /-- Requests of the row in hand that are not yet answered or acknowledged. -/
  waits : List Fetch := []
  deriving DecidableEq, Repr

/-- The matrix engine's state for one core (R255 to R260, R262, R275). -/
structure Engine where
  tshape : Vector Word 8 := Vector.replicate 8 0
  mwgt : BitVec 4 := 1
  perturb : Word := 0
  mseq : BitVec 16 := 0
  /-- Tile registers written since the last boundary (R413). -/
  fresh : BitVec 8 := 0
  slots : Vector Slot 16 := Vector.replicate 16 {}
  /-- The card queue, oldest first; at most eight. -/
  cards : List TileCard := []
  deriving DecidableEq, Repr

/-- The three kinds of copy job (R295). -/
inductive CopyKind where
  | copy | copyc | mcast
  deriving DecidableEq, Repr

/-- A copy job: its card as read at issue (R294) and its progress (R314). -/
structure CopyJob where
  /-- Its place in the order in which the tile's jobs were issued (R300). -/
  num : Nat
  kind : CopyKind
  xc : Word
  seq : BitVec 16
  inject : Word
  src : Word
  dst : Word
  len : Nat
  ctl : W32
  expect : W32
  flag : Word
  rect : W32
  /-- SEED of the card (R294). -/
  seed : W32 := 0
  run : W32 := 0
  /-- RUN after the chunk in hand, taken in once that chunk is performed everywhere (R299). -/
  next : W32 := 0
  prog : Nat := 0
  /-- Chunks sent so far. -/
  sent : Nat := 0
  /-- The unfinished copyc before this one, for a chained job (R300). -/
  pred : Option Nat := none
  /-- Whether the copyc before ended with a fault, and its CRCOUT (R299). -/
  chained : Bool × W32 := (false, 0)
  /-- A rim copy engine runs the job: its place in the order in which jobs reached that engine (R291). -/
  rim : Option Nat := none
  /-- The cause with which the job ends once its chunks are performed, and the ADDR of its slot. -/
  ending : Option (BitVec 4) := none
  endAddr : Word := 0
  /-- The checks of the job's start have been made (R299). -/
  checked : Bool := false
  /-- Packets of the chunk in hand, or of the flag, that are not yet acknowledged, with the class that counts them. -/
  waits : List (Nat × PostClass) := []
  /-- Reads of the chunk in hand, in order, with the bytes that came. -/
  reads : List Fetch := []
  /-- The tile and address of the flag word, from the checks of the start (R299). -/
  flagAt : Option (TileNo × Nat) := none
  flagSent : Bool := false
  state : CardState := .queued
  /-- Why a parked job parked: the cause, and the address that failed (R312). -/
  fault : Option (BitVec 4 × Word) := none
  deriving DecidableEq, Repr

/-- The copy unit's state for one core (R292, R297, R300, R311). -/
structure CopyCtl where
  cseq : BitVec 16 := 0
  slots : Vector Slot 16 := Vector.replicate 16 {}
  jobs : List CopyJob := []
  inj : Word := 0
  /-- The last copyc issued since team bind; once it has completed, whether it ended with a fault, and its
  CRCOUT (R299, R300). -/
  lastCopyc : Option Nat := none
  lastResult : Bool × W32 := (false, 0)
  deriving DecidableEq, Repr

/-- A waiting cntwait: its counter, its bound and its release (R338). -/
structure CntWait where
  c : BitVec 3
  bound : W32
  status : Option (BitVec 1) := none
  deriving DecidableEq, Repr

/-- Barriers, messages and counter waits of a core (R318, R326, R328, R331, R338). -/
structure SyncCtl where
  bst : Vector (BitVec 2) 4 := Vector.replicate 4 0
  step : Vector (BitVec 16) 4 := Vector.replicate 4 0
  dom : Vector Word 4 := Vector.replicate 4 0
  msgSeq : W32 := 0
  /-- A deterministic accumulate was issued since the last arrival at each level (R329). -/
  det : Vector Bool 4 := Vector.replicate 4 false
  /-- What the last release at each level says is ordered before it (R333). -/
  relKnown : Vector (List AccessId) 4 := Vector.replicate 4 []
  cnt : Option CntWait := none
  deriving DecidableEq, Repr

/-- An inline run (R355, R356): the DEPTH it started at, its task, the tjoin that it returns to with the register of
its result, and the cycle count of the code around it (R358). -/
structure InlineRun where
  depth : BitVec 16
  handle : Word
  back : Word
  d : BitVec 5
  since : Nat
  counting : Bool
  deriving DecidableEq, Repr

/-- The tasks of a core (R353 to R358). -/
structure TaskCtl where
  /-- The task being served, or 0. -/
  served : Word := 0
  /-- WHOAMI.TASK. -/
  inTask : Bool := false
  /-- The clock from which the task's cycles count, while they count (R358). -/
  since : Nat := 0
  counting : Bool := false
  inline : List InlineRun := []
  /-- A tjoin that has recorded that it waits. -/
  joinWaits : Bool := false
  /-- The code with which the root thread ended (R356). -/
  code : Option (BitVec 10) := none
  deriving DecidableEq, Repr

/-- An abandoned request (R367): its record and the answer of its cancel. -/
structure Abandoned where
  kind : BlockKind
  place : Place
  tag : W32
  fetch : Nat
  va : Nat
  lane : Nat
  ops : Word × Word := (0, 0)
  /-- none: no answer yet; dropped: some none; performed: the reply. -/
  answer : Option (Option Reply) := none
  deriving DecidableEq, Repr

/-- One of the four records of an error bank (R435). -/
structure ErrRec where
  valid : Bool := false
  sev : BitVec 2 := 0
  lost : Bool := false
  inj : Bool := false
  mc : Bool := false
  src : BitVec 8 := 0
  count : BitVec 16 := 0
  addr : Word := 0
  synd : Word := 0
  clock : Word := 0
  deriving DecidableEq, Repr

/-- A bank of error records of a tile, a junction or a rim controller (R435). -/
abbrev ErrBank := Vector ErrRec 4

/-- One core (R19, R88 to R96): everything that belongs to it. -/
structure Core where
  pc : Word := 0
  level : Level := .J
  run : RunState := .unbound
  /-- Retired instructions since team bind (R422). -/
  retired : Nat := 0
  wake : Bool := false
  /-- The core waits in wfi (R132, R366, R412). -/
  inWfi : Bool := false
  regs : Regs := {}
  win : Win := {}
  fp : FpCtl := {}
  trap : TrapCtl := {}
  post : Post := {}
  race : RaceCtl := {}
  acc : Accum := {}
  eng : Engine := {}
  cpy : CopyCtl := {}
  sync : SyncCtl := {}
  task : TaskCtl := {}
  ptbase : Word := 0
  /-- ERRSEL (R438). -/
  errsel : BitVec 5 := 0
  /-- The slot of the core in the tile's slot table (R347). -/
  slot : Option BindRecord := none
  /-- What stores to the page of an empty slot have written so far (R469). -/
  draft : Option BindRecord := none
  /-- Its last dword has been written, which makes it the slot's (assumption 89). -/
  drafted : Bool := false
  coupling : Coupling := .none
  /-- The address of the last instruction that the core issued (R133). -/
  lastIssue : Option Word := none
  /-- The last branch or jump that the core resolved: its address and the pc that followed (R134). -/
  lastJump : Option (Word × Word) := none
  /-- That branch or jump spilled or filled a frame (R134). -/
  jumpShift : Bool := false
  /-- Requests that the present instruction waits for. -/
  pend : List Fetch := []
  abandoned : List Abandoned := []
  /-- The blocking-request tag counter of R367. -/
  blockTag : W32 := 0
  /-- A boundary or pre-emption that asks the core to stop (R366, R411). -/
  stopAsked : Bool := false
  /-- The interval whose commit a ckpt waits for (R453). -/
  commitWait : Option (BitVec 32) := none
  tlb : List TlbEntry := []
  walk : Option Walk := none
  /-- Lines of the instruction buffer by line number (address / 256), most recently used first; at most 64 (R109). -/
  ibuf : List (Nat × LineBits) := []
  /-- The line that a fetch from outside the scratchpad waits for. -/
  fetchMiss : Option Nat := none
  /-- The line that such a fetch could not be given (R437). -/
  fetchBad : Option Nat := none
  deriving DecidableEq, Repr

end Sys2Proof.Machine
end

