-- ==== Sys2Proof/Machine/TileState.lean ====
section
/-!
DEFINITION. The state that the cores of a tile share, the packets between units, and the state of a site.
-/
namespace Sys2Proof.Machine

/-- Superstep numbers of a core in each domain that it belongs to, narrowest first (R174, R328): the
domain's name and its superstep. -/
abbrev Supersteps := List (Nat × Nat)

/-- What a checked access carries to the line that it reaches (R172 to R175). -/
structure RaceStamp where
  acc : AccessId
  write : Bool
  known : List AccessId
  steps : Supersteps
  /-- DETMODE.RACE of the issuing core. -/
  trapping : Bool
  deriving DecidableEq, Repr

/-- A checked access that reached a line of the scratchpad (R174). -/
structure LineRecord where
  line : Nat
  acc : AccessId
  write : Bool
  steps : Supersteps
  deriving DecidableEq, Repr

/-- The header that a request from a core carries (R183, R318, R426). -/
structure Req where
  src : CoreRef
  jt : TileNo
  job : BitVec 6
  cls : PostClass
  /-- The number of the request, which rises in order of issue (R167); an answer names it. -/
  fetch : Nat
  seq : W32
  va : Word
  stamp : Option RaceStamp
  replay : Bool := false
  /-- A store of `st.b` to `st.d`, or of a line of `vst`, `vsts` or `vsct`, which a flow may take (R374). -/
  listed : Bool := false
  /-- The first or the second packet of a line that travels as two (R481). -/
  half : Option Bool := none
  deriving DecidableEq, Repr

/-- What a request in a home slice's queue does (R178): an accumulate, or an atomic of R209. -/
inductive SliceOp where
  | acc (op : AccOp)
  | amo (func : BitVec 4) (cmp : Word)
  deriving DecidableEq, Repr

/-- A request for a home slice's accumulate unit (R183), with its contributors when merged (R192). -/
structure AccReq where
  req : Req
  op : SliceOp
  place : Place
  value : Word
  det : Bool
  must : Bool
  nomerge : Bool
  /-- A flushed siding row: its acknowledgement lowers SDOCC.FLIGHT (R196). -/
  flush : Bool
  /-- Keys, sources and addends of the members of a merged request, in order of arrival. -/
  parts : List (Req × Word) := []
  /-- Bit 0 of the sender's depot epoch, from the packet that brought the request (R450). -/
  epoch : Bool := false
  /-- The interval in which the home tile's own box delivered the request (R380, R406). -/
  boxed : Option W32 := none
  deriving DecidableEq, Repr

/-- A deterministic update held at a home slice (R204), and the job and domains of its issuer. -/
structure Held where
  op : AccOp
  place : Place
  va : Word
  value : Word
  key : AccKey
  job : BitVec 6
  src : CoreRef
  deriving DecidableEq, Repr

/-- A home slice (R178, R188, R189, R204). -/
structure Slice where
  queue : List AccReq := []
  /-- Accepts of each source counter in this window; sources not listed have none. -/
  cnt : List (Nat × Nat) := []
  hold : List Held := []
  /-- The sort area: runs of 16 entries in key order. -/
  runs : List (List Held) := []
  quota : Word := 0x810
  /-- Lines in the accumulate buffer of an HBM home slice, most recently used first; at most 64 (R178). -/
  lines : List Nat := []
  deriving DecidableEq, Repr

/-- The high-water marks that a destination keeps for a source core, and its stored result (R184, R427); none of a kind
of which nothing has come. -/
structure Mark where
  src : CoreRef
  aseq : Option W32 := none
  mseq : Option W32 := none
  oseq : Option W32 := none
  /-- The output sequence of the source tile's junction, kept in the entry of its core 0 (R396). -/
  bseq : Option W32 := none
  /-- The OSEQ of a line of which one packet has been performed here, and which (R481). -/
  half : Option (W32 × Bool) := none
  result : Option (W32 × Reply) := none
  deriving DecidableEq, Repr

/-- A full/empty request that waits for its condition (R157, R158); a local one carries no request. -/
structure Waiter where
  a : Nat
  kind : BlockKind
  data : W32
  req : Req
  remote : Bool
  deriving DecidableEq, Repr

/-- An entry of the monitor table (R335). -/
structure Monitor where
  a : Nat
  value : W32
  req : Req
  remote : Bool
  deriving DecidableEq, Repr

/-- A message on its way to a core (R316, R318). -/
structure Message where
  /-- The sender: job tile and core, and the logical tile. -/
  jt : TileNo
  core : CoreId
  tile : TileNo
  job : BitVec 6
  seq : W32
  dst : CoreId
  q : BitVec 4
  data : V256
  /-- From a core, whose PSTN counts it; otherwise from a junction. -/
  counted : Bool
  replay : Bool := false
  /-- From a signal box: a trap record or an emitted message, under the junction's own sequence (R396, R398). -/
  fromBox : Bool := false
  /-- Its number in the order of issue (R167, R318). -/
  order : Nat := 0
  deriving DecidableEq, Repr

/-- The states of a task entry (R351). -/
inductive TaskState where
  | free | queued | running | complete
  deriving DecidableEq, Repr

/-- An entry of the task pool or of the overflow queue (R351, R352). -/
structure Task where
  pc : Word := 0
  arg : Word := 0
  handle : Word := 0
  state : TaskState := .free
  core : CoreId := 0
  detached : Bool := false
  code : BitVec 10 := 0
  team : W32 := 0
  deriving DecidableEq, Repr

/-- A 256-byte line of the far cache (R163), most recently used first. -/
structure FarLine where
  space : Space
  base : Nat
  data : LineBits
  deriving DecidableEq, Repr

/-- One chunk of a copy job on its way (R299, R308): its bytes as sent, its checksum, and the places that they go to. -/
structure Chunk where
  card : Nat
  bytes : List Byte
  check : W32
  /-- First address and length of each part, in order. -/
  parts : List (Nat × Nat)
  deriving DecidableEq, Repr

/-- A barrier domain with the release or arrival that travels for it (R329). -/
structure BarrierMsg where
  domain : DomainKey
  /-- The member that arrives: its job tile and core. -/
  member : Nat × CoreId
  src : CoreRef
  seq : W32
  det : Bool
  known : List AccessId
  replay : Bool
  deriving DecidableEq, Repr

/-- The kinds of determinant (R421). -/
inductive DetKind where
  | message | reply | amo | bounce | recorded | engine | release | remoteWrite | flowPacket | conflict
  | boundary | injection
  deriving DecidableEq, Repr

/-- The kinds of unit that a determinant names as its source (R422). -/
inductive SrcKind where
  | core | junction | rim | host | fabric | copy
  deriving DecidableEq, Repr

/-- A determinant record (R422). -/
structure Det where
  kind : DetKind
  core : CoreId
  slice : BitVec 3
  pos : Nat
  srcKind : SrcKind
  src : Nat
  srcCore : CoreId
  seq : W32
  payload : List Byte
  /-- The position of each core, for a boundary (R421) and for a merge (R206); for a bounce, one entry when parking it
  lowers a count (R190). -/
  places : List Nat := []
  /-- The kernel runs before a type 4 store, which is performed between two of them (R405, R406). -/
  runs : Option Nat := none
  deriving DecidableEq, Repr

/-- What packets carry. -/
inductive Msg where
  /-- A posted store of the listed bytes (R149, R252). -/
  | store (r : Req) (space : Space) (cells : List Host.Cell)
  /-- A posted stf (R157). -/
  | stf (r : Req) (tile : TileNo) (a : Nat) (word : W32)
  /-- A request for the bytes at the listed addresses (R148, R252). -/
  | load (r : Req) (space : Space) (addrs : List Nat)
  /-- A request for a line of the far cache (R163). -/
  | line (r : Req) (space : Space) (base : Nat)
  | reply (dst : CoreRef) (fetch : Nat) (rep : Reply) (kind : DetKind)
  | fill (dst : CoreRef) (fetch : Nat) (space : Space) (base : Nat) (data : LineBits)
  /-- The acknowledgement of a posted access: the cause and address of the failure that it met, whether it was a siding
  flush, and the OSEQ of a line that travels as two packets (R481). -/
  | ack (dst : CoreRef) (cls : PostClass) (failed : Option (Nat × Word)) (flush : Bool) (line : Option W32)
  | put (r : Req) (tile : TileNo) (cells : List Host.Cell) (flag : Nat) (counter : Bool)
  | fullEmpty (r : Req) (kind : BlockKind) (tile : TileNo) (a : Nat) (data : W32)
  /-- A full/empty request that found the table full, back at its sender (R158). -/
  | fullEmptyBack (r : Req) (kind : BlockKind) (tile : TileNo) (a : Nat) (data : W32)
  | waita (r : Req) (tile : TileNo) (a : Nat) (data : W32)
  | acc (q : AccReq)
  | bounce (dst : CoreRef) (b : Bounce)
  /-- A refused merged request, back at the merging junction (R192). -/
  | mergedBounce (q : AccReq)
  | amo (q : AccReq)
  | message (m : Message)
  | arrival (b : BarrierMsg)
  | release (b : BarrierMsg) (dst : TileNo)
  /-- The merge of a barrier at the tile, as its send-log entry names it (R206, R421). -/
  | mergeRound (domain : DomainKey)
  | cancel (r : Req) (kind : BlockKind) (place : Place)
  | cancelAnswer (dst : CoreRef) (fetch : Nat) (answer : Option Reply)
  | chunkData (dst : CoreRef) (card : Nat) (fetch : Nat) (rep : Reply)
  | chunkRead (r : Req) (card : Nat) (space : Space) (base len : Nat)
  | chunk (r : Req) (space : Space) (c : Chunk)
  /-- The acknowledgement of a chunk or of a job's flag, with the checksums of the reading and of the writing end when
  they differ (R308). -/
  | chunkAck (dst : CoreRef) (card : Nat) (id : Nat) (ends : Option (W32 × W32)) (raced : Bool) (cls : PostClass)
  /-- Sets the flag word of a copy job full (R299). -/
  | setFlag (r : Req) (card : Nat) (tile : TileNo) (a : Nat)
  /-- One row, or scale part, of a tst, and one row of a tld (R266, R269). -/
  | rowStore (r : Req) (card : Nat) (space : Space) (cells : List Host.Cell)
  | rowLoad (r : Req) (card : Nat) (space : Space) (addrs : List Nat)
  | rowReply (dst : CoreRef) (card : Nat) (fetch : Nat) (rep : Reply)
  | rowAck (dst : CoreRef) (card : Nat) (fetch : Nat) (cls : PostClass) (raced : Bool)
  /-- An access to a page of type 4 or 5 (R405, R469); a store carries its value. -/
  | window (r : Req) (tile : TileNo) (a size : Nat) (value : Option Word)
  | device (r : Req) (a : Nat) (value : Option Word)
  | closeRequest (tile : TileNo)
  | commitNotice (from_ : TileNo) (src : CoreRef) (aseq mseq oseq : Option W32)
  | determinant (tile : TileNo) (num : Nat) (d : Det)
  | confirm (tile : TileNo) (num : Nat)
  | sendLogFetch (from_ to_ : TileNo) (entry : Nat)
  /-- A discovery packet that enters a junction through a port, and its echo (R462): states of sites. -/
  | discovery (quadrant : BitVec 2) (to_ : SiteId) (port : Port)
  | discoveryEcho (to_ : SiteId) (port : Port) (map : List (Nat × BitVec 2))
  deriving DecidableEq, Repr

/-- Where a packet goes: a logical tile, or a rim unit (R16, R26). -/
inductive Dest where
  | tile (l : TileNo)
  | site (s : SiteId)
  | controller (c : Nat)
  | hostPort (p : BitVec 3)
  /-- A peer wafer and the physical page of the access, which picks the port (R474). -/
  | fabric (w : BitVec 8) (page : Nat)
  /-- Unit n of a kind with k units on each side (R26, R478). -/
  | unit (k n : Nat)
  deriving DecidableEq, Repr

/-- A packet in flight (R16, R22, R24). -/
structure Packet where
  id : Nat
  line : Line
  /-- The site of the injecting junction. -/
  origin : SiteId
  dest : Dest
  /-- The site resolved at injection. -/
  site : SiteId
  /-- Its place in the order of arrival, once it has reached its destination's junction or rim attachment. -/
  arrived : Option Nat := none
  /-- It has been through a signal-box kernel (R375). -/
  processed : Bool := false
  /-- The interval in which the box of its own destination delivered it (R380, R406). -/
  boxed : Option W32 := none
  /-- Sent on again by the box of a tile that is replayed: its sender has had its acknowledgement (R406, R443). -/
  again : Bool := false
  /-- Site and number of further packets that a junction has merged into it (R24, R192). -/
  joined : List (SiteId × Nat) := []
  /-- It comes from a rim unit (R26). -/
  fromRim : Bool := false
  /-- Bit 0 of the sender's depot epoch (R450). -/
  epoch : Bool := false
  /-- Determinants of the origin's tile that must be confirmed before the packet leaves (R423). -/
  gate : Nat := 0
  /-- The request that it answers, which its sender still holds (R445). -/
  asks : Option Msg := none
  msg : Msg
  deriving DecidableEq, Repr

/-- A kernel run of a signal box (R379, R381, R389): its flow, its packet with the payload beats, the registers,
the pc and the cycle count, the write buffer and the emit list, and the words of a rpt with the passes left. -/
structure BoxRun where
  flow : BitVec 6
  pkt : Packet
  beats : Vector V256 4
  bregs : Vector W32 16 := Vector.replicate 16 0
  yregs : Vector V256 8 := Vector.replicate 8 0
  pc : Nat
  count : Nat := 0
  buffer : List Host.Cell := []
  emits : List (Nat × V256) := []
  loop : Option (Nat × Nat × Nat) := none
  deriving DecidableEq, Repr

/-- A signal box (R377, R378, R391, R399): the flow table, the program store and the state as bytes, the input queue
of packets with their flows, the run under way, the waiting trap records with their mailboxes, the output sequence;
and what changed since the last boundary (R413). -/
structure Box where
  table : Memory := []
  store : Memory := []
  mem : Memory := []
  queue : List (BitVec 6 × Packet) := []
  run : Option BoxRun := none
  recs : List (W32 × V256) := []
  seq : W32 := 0
  /-- Kernel runs so far. -/
  runs : Nat := 0
  freshFlows : List Nat := []
  freshWords : List Nat := []
  deriving DecidableEq, Repr

/-- A request to leave (R365, R366, R371): the team that is pre-empted, or none where a double-headed site changes its
logical tile; and whether the cores' wake latches have been set for it (R132). -/
structure Leave where
  team : Option W32
  called : Bool := false
  deriving DecidableEq, Repr

/-- The state that the eight cores of a logical tile share (R19, R155, R188, R317, R335, R337, R351, R409). -/
structure Tile where
  /-- The wafer logical tile, the job that owns the tile, the job tile number and JSHAPE (R15, R17, R341). -/
  tile : TileNo := 0
  job : Option (BitVec 6) := none
  prio : BitVec 2 := 0
  jt : TileNo := 0
  jshape : Word := 0
  mem : Memory := []
  /-- Addresses of the 32-bit words whose full/empty tag is full, rising (R155). -/
  full : List Nat := []
  /-- Checked accesses of this superstep that reached the tile's lines (R174). -/
  lines : List LineRecord := []
  /-- What the setter of each full/empty word knew when it set it (R169, R172). -/
  tagKnown : List (Nat × List AccessId) := []
  /-- The same for the counter words of puts (R172). -/
  cntKnown : List (Nat × List AccessId) := []
  /-- The same for the event counters (R338). -/
  evcKnown : Vector (List AccessId) 8 := Vector.replicate 8 []
  waiters : List Waiter := []
  monitors : List Monitor := []
  marks : List Mark := []
  inbound : List Message := []
  /-- Messages restored from the save areas of bound teams that still wait (R324). -/
  restored : List Message := []
  evc : Vector Word 8 := Vector.replicate 8 0
  slices : Vector Slice 8 := Vector.replicate 8 {}
  /-- Accesses performed at each slice (R422). -/
  sliceCount : Vector Nat 8 := Vector.replicate 8 0
  /-- Lines of the far cache, most recently used first (R163). -/
  far : List FarLine := []
  /-- Fills in flight: the request's number, the line, and whether it may still be installed (R163). -/
  fills : List (Nat × Space × Nat × Bool) := []
  tlb : List TlbEntry := []
  pool : Vector Task 64 := Vector.replicate 64 {}
  /-- The overflow queue as it lies in the tile record, and its head there (R351, R369). -/
  overflow : List Task := []
  overflowHead : Nat := 0
  tseq : W32 := 0
  /-- Copy and tile jobs issued on the tile so far. -/
  jobNo : Nat := 0
  /-- A machine check has stopped the tile (R433). -/
  stopped : Bool := false
  /-- What the dispatcher has asked the tile's teams to leave for, and the clock when the present time slice began (R366,
  R370, R371). -/
  leaving : Option Leave := none
  sliceAt : Nat := 0
  /-- The last answer to each core's ldf, ldtag or waita, by the number of its request: what a cancel of it is answered
  with (R158, R336, R367). -/
  answers : List (CoreRef × Nat × Reply) := []
  ckctl : Word := 0x0000004010000014
  intv : Word := 0
  /-- Lines written since the last boundary (R411). -/
  dirty : List Nat := []
  /-- The last access to each line of this interval: line, source, and whether it wrote (R425). -/
  touched : List (Nat × Nat × Bool) := []
  /-- Accesses that each source has made to the tile's lines and event counters (R425). -/
  made : List (Nat × Nat) := []
  /-- A boundary has been asked for (R411). -/
  closeAsked : Bool := false
  /-- The queue of determinants that are not confirmed, oldest first, the number of the first, and how many are
  confirmed (R422). -/
  dets : List Det := []
  detBase : Nat := 0
  confirmed : Nat := 0
  /-- Determinants still to be replayed, with their numbers, when the tile replays (R442). -/
  replay : Option (List (Nat × Det)) := none
  /-- The tile's error bank, which travels with it (R435, R436). -/
  bank : ErrBank := Vector.replicate 4 {}
  /-- The signal box that serves the tile (R373). -/
  box : Box := {}
  /-- HBM address of the job tile's tile record (R369). -/
  record : Word := 0
  /-- The heartbeat count (R434). -/
  beat : Nat := 0
  /-- The clock since which the tile stands still for a boundary, if it does (R213). -/
  pausedAt : Option Nat := none
  /-- The clock when the last boundary began (R411). -/
  boundaryAt : Nat := 0
  /-- A depot boundary has been asked for (R450). -/
  depotAsked : Bool := false
  /-- In a replay: the output marks last reported (R443), by core: ASEQ, message sequence, OSEQ; the
  descriptor payloads that have been fetched (R442); and the junction's output sequence last reported (R399). -/
  outMarks : List (CoreId × W32 × W32 × W32) := []
  fetched : List Nat := []
  boxMark : Option W32 := none
  /-- From the end of a replay to the next commit, packets carry the replay flag (R444). -/
  flagged : Bool := false
  deriving DecidableEq, Repr

end Sys2Proof.Machine
end

