-- ==== Sys2Proof/Machine/State.lean ====
section
/-!
DEFINITION. The state of the machine, the reasons for which a step can stop, and the machine right after reset.
-/
namespace Sys2Proof.Machine

/-- A reason for which the machine stops with a fault. -/
inductive Fault where
  /-- An access to an address above the 2,560 GiB of HBM, which R26 says do not exist and for which no rule names an
  effect: raised by HOST_WINDOW_WRITE to a span above HBM. Safe: the model stops where the spec gives no memory to
  write. -/
  | noSuchMemory (a : Nat)
  deriving DecidableEq, Repr

/-- A reason for which the machine refuses an instruction. -/
inductive Refusal where
  /-- An instruction to which this model gives no meaning yet: raised by its arm of exec alone. Safe: nothing
  is claimed about it. -/
  | notModelled (mnemonic : String)
  deriving DecidableEq, Repr

/-- Who moves next (R10): an event of the operation table, or a core of a site. -/
inductive Turn where
  | event (i : Instr)
  | core (site : SiteId) (core : CoreId)
  deriving DecidableEq, Repr

/-- The states of a site (R14, R456), as far as its junction and its crane know it. -/
inductive SiteStatus where
  | untested | fused | logical | reserve | failed
  deriving DecidableEq, Repr

/-- A site's junction and the registers of the physical site: what does not move with a logical tile. -/
structure Site where
  status : SiteStatus := .untested
  /-- The points table of the junction: present entries, rising by logical tile (R16). -/
  points : List (Nat × SiteId) := []
  /-- The site state map, two bits a site, rising by site; a site not listed is 0 (R459). -/
  map : List (Nat × BitVec 2) := []
  /-- The junction knows its coordinates and quadrant (R457, R459, R462). -/
  located : Bool := false
  /-- PLA1: OP, BUSY, RESULT; whether the running command has begun (R459, R460). -/
  plaOp : BitVec 4 := 0
  plaBusy : Bool := false
  plaResult : BitVec 8 := 0
  plaBegun : Bool := false
  /-- The result that the running command will report, and the clock when the command, its flash access or the
  junction's own discovery packets began (R461, R462). -/
  plaNext : BitVec 8 := 0
  since : Nat := 0
  /-- PLA2, PLA3 and PLA5 (R459). -/
  plaArg : Word := 0
  plaRow : BitVec 7 := 0
  plaIdx : BitVec 12 := 0
  /-- Combining trees with an entry here (R329). -/
  trees : Vector (Option DomainKey) 16 := Vector.replicate 16 none
  /-- The junction routes but serves no tile: fused, failed or fenced (R23, R439). -/
  passThrough : Bool := false
  /-- Discovery (R462): a first packet has come; the parent's port; ports whose answer is awaited; the states of
  the subtree so far. -/
  found : Bool := false
  parent : Option Port := none
  asked : List Port := []
  subtree : List (Nat × BitVec 2) := []
  /-- Quadrants whose block of points entries the junction holds (R465). -/
  blocks : List (BitVec 2) := []
  /-- The junction's error bank (R435). -/
  bank : ErrBank := Vector.replicate 4 {}
  deriving DecidableEq, Repr

/-- A site that is not in focus: its junction, its tile and its cores; cores not listed are at reset. -/
structure SiteRec where
  junction : Site := {}
  tile : Tile := {}
  coreNo : CoreId := 0
  cores : List (CoreId × Core) := []
  deriving DecidableEq, Repr

/-- A job that is bound (R17, R18, R143, R173), and the number of its last accepted launch (R347). -/
structure Job where
  job : BitVec 6
  prio : BitVec 2
  jshape : Word
  root : BitVec 36
  race : Bool
  /-- The job's policy: QUOTA of each slice and CKCTL of its tiles (R188, R409). -/
  quota : Word := 0x810
  ckctl : Word := 0x0000004010000014
  lastLaunch : BitVec 20 := 0
  /-- The depot epoch, and the clock when the last round completed (R450). -/
  epoch : BitVec 16 := 0
  depotAt : Nat := 0
  deriving DecidableEq, Repr

/-- The code of a root thread (R356): job tile, core, code, and whether a command ended the thread (R362). -/
structure ThreadEnd where
  tile : Nat
  core : CoreId
  code : BitVec 10
  byCommand : Bool := false
  deriving DecidableEq, Repr

/-- A live launch, as the dispatcher keeps it (R105, R344, R346, R347, R356). -/
structure Launch where
  job : BitVec 6
  num : BitVec 20
  mailbox : Word
  port : BitVec 3
  cores : BitVec 8
  /-- The job's width, the launch's tiles, and dw × dh of levels 1 to 3. -/
  width : Nat
  w : Nat
  h : Nat
  blocks : List (Nat × Nat)
  wstack : Nat
  /-- The number of tiles that share the reduction dimension of an elastic launch, fixed when it is bound (R372). -/
  split : Option Nat := none
  /-- Job tiles on which the team has not ended. -/
  live : List Nat
  codes : List ThreadEnd := []
  deriving DecidableEq, Repr

/-- What a barrier's root is doing (R331, R206). -/
inductive BarrierPhase where
  | collecting | merging | resending | settling
  deriving DecidableEq, Repr

/-- The counted arrivals of a domain's barrier (R329, R331), by job tile and core. -/
structure Barrier where
  domain : DomainKey
  arrived : List (Nat × CoreId)
  det : Bool
  known : List AccessId
  phase : BarrierPhase := .collecting
  deriving DecidableEq, Repr

/-- The last arrival of a member that a domain's tree has counted: its OSEQ (R427, R443). -/
structure TreeMark where
  domain : DomainKey
  member : Nat × CoreId
  seq : W32
  deriving DecidableEq, Repr

/-- A team that is saved away (R366): its logical tile, its slots, and what the layout of its save area does not
name. -/
structure SavedTeam where
  team : W32
  job : BitVec 6
  tile : TileNo
  prio : BitVec 2
  slots : List (CoreId × BindRecord)
  /-- The cores when they were saved, for what the area has no place for, and the clock then. -/
  cores : List (CoreId × Core)
  clock : Nat
  /-- The number of the interval whose boundary it was saved at (R366). -/
  num : W32 := 0
  deriving DecidableEq, Repr

/-- A tile with all its cores and the tree entries of its junction, as a boundary records them (R413), and the clock
then. -/
structure Image where
  tile : Tile
  cores : List (CoreId × Core)
  trees : Vector (Option DomainKey) 16 := Vector.replicate 16 none
  /-- Bytes of the state area (R479). -/
  area : Nat := 0
  clock : Nat
  deriving DecidableEq, Repr

/-- Where a tile's shadow lies (R418, R419). -/
inductive Holder where
  | buddy (site : SiteId)
  | hbm
  deriving DecidableEq, Repr

/-- What a core's outputs had reached at the last report (R427). -/
structure OutMark where
  core : CoreId
  aseq : W32
  mseq : W32
  oseq : W32
  deriving DecidableEq, Repr

/-- The waybill of a logical tile (R416, R418 to R422, R427, R450). -/
structure Waybill where
  tile : TileNo
  job : BitVec 6
  /-- HBM address of the waybill region. -/
  region : Nat
  /-- HBM address of the two depot image slots (R419). -/
  slots : Nat := 0
  holder : Holder
  committed : Image
  /-- The boundary under way, with the count of determinants before it. -/
  staged : Option (Image × Nat) := none
  /-- The holder still applies the last commit to the shadow (R416). -/
  applying : Bool := false
  /-- The holder was lost, and no boundary has committed since (R420, R449). -/
  lost : Bool := false
  /-- Determinants that reached the holder, oldest first, and the number of the first. -/
  log : List Det := []
  logBase : Nat := 0
  /-- Bytes written to the determinant log's ring so far (R419). -/
  logAt : Nat := 0
  marks : List OutMark := []
  /-- The output sequence of the tile's junction at the last report (R399, R427). -/
  boxMark : W32 := 0
  /-- The last heartbeat count that came, and when (R434). -/
  beat : Nat := 0
  beatAt : Nat := 0
  /-- Clocks of the tile's failures (R449). -/
  failures : List Nat := []
  /-- Depot images of the last completed round and of the open one, with their epochs (R450). -/
  depots : List (BitVec 16 × Image) := []
  /-- Packets of the old epoch that came after the depot boundary of an epoch (R450). -/
  channel : List (BitVec 16 × Packet) := []
  /-- Bytes written to the channel record so far (R419). -/
  channelAt : Nat := 0
  deriving DecidableEq, Repr

/-- An entry of a send log (R428): the sending tile, or none for a rim unit; the receiver, the number of the
receiver's determinant, and the packet. -/
structure SentEntry where
  src : Option TileNo
  dst : TileNo
  num : Nat
  pkt : Packet
  deriving DecidableEq, Repr

/-- The steps of a recovery (R439). -/
inductive RecPhase where
  | fenced | held | moved | restored
  deriving DecidableEq, Repr

/-- A recovery in progress (R439, R448). -/
structure Recovery where
  tile : TileNo
  failed : SiteId
  crane : BitVec 2
  phase : RecPhase := .fenced
  site : Option SiteId := none
  /-- Tiles that roll back with it, on their own sites (R448). -/
  members : List TileNo := []
  deriving DecidableEq, Repr

/-- A depot round (R450), open or the last that completed: the job's HBM lines before their first write of the
new epoch, and the old epoch's writes that came later; the clock of its line. -/
structure DepotRound where
  job : BitVec 6
  epoch : BitVec 16
  complete : Bool := false
  clock : Nat := 0
  closed : List TileNo := []
  lines : List (Nat × LineBits) := []
  late : List Host.Cell := []
  deriving DecidableEq, Repr

/-- An entry of the notification queue, by its kind (R472). -/
inductive Notice where
  | launchDone (job : BitVec 6) (num : BitVec 20) (codes : List ThreadEnd)
  | teamTrap (dwords : List Word)
  | halted (job : BitVec 6) (tile : TileNo) (core : CoreId)
  | migration (job : BitVec 6) (region value : Nat)
  | errorRecord (unit : Nat) (dwords : List Word)
  | depot (job : BitVec 6) (clock : Word)
  | capacityLoss (tiles : Nat)
  | mismatch (tile : TileNo) (flow : BitVec 6) (job : BitVec 6) (src : CoreRef) (cls : Nat)
  | peerUnreachable (peer : BitVec 8)
  | bootStatus (quadrant : BitVec 2) (op result : Nat)
  | bootReady
  | replaced (tile : TileNo)
  deriving DecidableEq, Repr

/-- An entry of the host driver's fault queue (R286, R312), or a page posted as poisoned (R437). -/
structure FaultRec where
  job : BitVec 6
  tile : TileNo
  core : CoreId
  ticket : Word
  va : Word
  write : Bool
  cause : BitVec 4
  poison : Option Nat := none
  deriving DecidableEq, Repr

/-- A completion (R472): the tag, the status and what the command returns. -/
structure Completion where
  tag : W32
  status : Nat
  values : List Nat := []
  bytes : List Byte := []
  deriving DecidableEq, Repr

/-- A firmware record of the boot flash (R475): its kind, its slot and its bytes. -/
structure FlashRecord where
  kind : Nat
  slotB : Bool
  bytes : List Byte
  deriving DecidableEq, Repr

/-- A flood of a quadrant's points entries and site state map (R461, R465): to its own quadrant or to the wafer, with
the sites that have not acknowledged it. -/
structure Flood where
  quadrant : BitVec 2
  wide : Bool
  points : List (Nat × SiteId)
  map : List (Nat × BitVec 2)
  pending : List SiteId
  deriving DecidableEq, Repr

/-- A second logical tile of a double-headed site, saved in HBM (R30, R371, R408), and whether its teams lie in their save
areas. -/
structure AwayTile where
  site : SiteId
  image : Image
  saved : Bool := false
  deriving DecidableEq, Repr

/-- What the healing of the wafer keeps (13_healing.md). -/
structure Healing where
  waybills : List Waybill := []
  sent : List SentEntry := []
  recoveries : List Recovery := []
  rounds : List DepotRound := []
  /-- Logical tiles under a hold (R439). -/
  holds : List TileNo := []
  /-- Dead junctions (R468). -/
  dead : List SiteId := []
  /-- The crane that serves each quadrant (R12, R447). -/
  cranes : Vector (BitVec 2) 4 := #v[0, 1, 2, 3]
  /-- Banks of the power domains (R432, R469). -/
  domainBanks : List (Nat × ErrBank) := []
  away : List AwayTile := []
  deriving DecidableEq, Repr

/-- A sector of HBM whose next read fails its ECC (source 14) or its integrity tag (source 15) (R432, R437). -/
structure BadSector where
  a : Nat
  src : BitVec 8
  synd : Word
  deriving DecidableEq, Repr

/-- The rim units (R26, R146, R178, R435, R470 to R474). -/
structure Rim where
  /-- Accumulate units of the rim controllers: slice s of controller c at 8 c + s. -/
  slices : List (Nat × Slice) := []
  marks : List (Nat × List Mark) := []
  banks : List (Nat × ErrBank) := []
  /-- Access counters of 64 KiB regions by unit, and the threshold of each unit (R146): unit c for controller c,
  40 + p for MHL port p. -/
  hits : List (Nat × Nat × Nat) := []
  limits : List (Nat × Nat) := []
  /-- Trained fabric ports and their partners (R474). -/
  fabric : List (BitVec 7 × BitVec 8) := []
  /-- Peers reported as unreachable. -/
  lost : List (BitVec 8) := []
  /-- Supervisor-launch enables of the MHL ports, and the ports that have carried a command (R346, R470). -/
  supervisor : BitVec 8 := 0
  carried : BitVec 8 := 0
  /-- Entries that the host has consumed of the completion, fault and notification rings (R471). -/
  consumed : Nat × Nat × Nat := (0, 0, 0)
  /-- Sectors of HBM that fail when they are read, and the pages that the controllers no longer deliver (R437). -/
  failing : List BadSector := []
  poisoned : List Nat := []
  /-- The power limit in watts (R477). -/
  watts : Nat := 24000
  deriving DecidableEq, Repr

/-- Boot, firmware and attestation (15_bringup.md). -/
structure Boot where
  /-- Reset is held (R456). -/
  held : Bool := false
  /-- Quadrants that have handed off (R467). -/
  handedOff : List (BitVec 2) := []
  /-- TCAUSE and TPC of a stopped boot core, by quadrant (R457, R470). -/
  stops : List (BitVec 2 × Word × Word) := []
  /-- Quadrants whose corner failed its self-test (R458). -/
  failed : List (BitVec 2) := []
  /-- Launch commands that wait for the stations (R344, R467). -/
  waiting : List LaunchCmd := []
  flash : List FlashRecord := []
  /-- Corners whose flash command has been retried once (R461). -/
  retried : List (BitVec 2) := []
  floods : List Flood := []
  /-- MR0 to MR11 (R476). -/
  measured : Vector (BitVec 384) 12 := Vector.replicate 12 0
  deriving DecidableEq, Repr

/-- Everything outside the site in focus. -/
structure Wafer where
  sites : List (SiteId × SiteRec) := []
  hbm : Memory := []
  /-- Host memory: port p's byte a at p × 2^52 + a. -/
  host : Memory := []
  /-- Peer memory: wafer w's byte a at w × 2^52 + a. -/
  peer : Memory := []
  net : List Packet := []
  nextId : Nat := 0
  /-- Packets that have arrived so far. -/
  arrivals : Nat := 0
  agenda : List Turn := []
  clock : Nat := 0
  /-- The model's own: how many free values have been taken. -/
  free : Nat := 0
  jobs : List Job := []
  launches : List Launch := []
  saved : List SavedTeam := []
  barriers : List Barrier := []
  treeMarks : List TreeMark := []
  /-- The notification, fault and completion queues, oldest first, less what the host has consumed (R471). -/
  notices : List Notice := []
  faults : List FaultRec := []
  completions : List Completion := []
  healing : Healing := {}
  rim : Rim := {}
  boot : Boot := {}
  deriving DecidableEq, Repr

/-- The machine: the core in focus, the other cores of its tile, its tile, its junction, and the rest. -/
structure State where
  core : Core := {}
  coreNo : CoreId := 0
  others : List (CoreId × Core) := []
  tile : Tile := {}
  junction : Site := {}
  site : SiteId := 0
  wafer : Wafer := {}
  deriving DecidableEq, Repr

/-- The state of core 0 under the boot binding of quadrant 0 (R457). -/
def bootCore : Core :=
  { level := .M, run := .running, win := { wsp := 0x5F0000, wslim := 0x600000 } }

/-- The tile of a boot corner under the boot binding (R457), its scratchpad holding the boot ROM (R456). -/
def bootTile : Tile := { job := some 60, jshape := 0x1E20, mem := bootRom }

/-- The machine right after reset: core 0 of the north-west boot corner at 0x0000 under the boot binding. -/
def State.reset : State := { core := bootCore, tile := bootTile, junction := { status := .reserve, located := true } }

end Sys2Proof.Machine
end

