-- ==== Sys2Proof/Machine/Ops.lean ====
section
/-!
DEFINITION. The named operations over memory and registers that every meaning uses: bytes of a memory, scalar and
predicate registers, the cores of a tile, taking a trap and returning from one, and the three ways an instruction ends.
-/
namespace Sys2Proof.Machine

/-- The outcome of a step of this machine. -/
abbrev Result := Host.Outcome State Fault Refusal

/-! ### Words and bits -/

/-- v[n-1:0] sign-extended to 64 bits (R7). -/
def sext64 {n : Nat} (v : BitVec n) : Word := v.signExtend 64

/-- v[n-1:0] zero-extended to 64 bits (R7). -/
def zext64 {n : Nat} (v : BitVec n) : Word := v.setWidth 64

/-- A bit as a word. -/
def bit64 (b : Bool) : Word := if b then 1 else 0

/-- Bits [lo+len-1:lo] of a value. -/
def field {n : Nat} (v : BitVec n) (lo len : Nat) : Nat := v.toNat / 2 ^ lo % 2 ^ len

/-! ### Memories (R2) -/

/-- The byte at an address; an address not listed reads zero. -/
def Memory.read (m : Memory) (a : Nat) : Byte :=
  match m with
  | [] => 0
  | (k, b) :: r => if k = a then b else Memory.read r a

/-- Lists a byte at its place among rising addresses. -/
def Memory.list (m : Memory) (a : Nat) (v : Byte) : Memory :=
  match m with
  | [] => [(a, v)]
  | (k, b) :: r =>
    if k = a then (a, v) :: r else if a < k then (a, v) :: (k, b) :: r else (k, b) :: Memory.list r a v

/-- Stores one byte and keeps the canonical form: a zero byte is not listed. -/
def Memory.write (m : Memory) (a : Nat) (v : Byte) : Memory :=
  if v = 0 then m.filter (fun c => c.1 != a) else m.list a v

/-- The canonical form: addresses strictly rising, from lo up, and no zero byte listed. -/
def Memory.wfFrom (lo : Nat) : Memory → Bool
  | [] => true
  | (k, b) :: r => decide (lo ≤ k) && (b != 0) && Memory.wfFrom (k + 1) r

/-- The canonical form of a memory. -/
def Memory.wf (m : Memory) : Bool := Memory.wfFrom 0 m

/-- n bytes from a, lowest address first. -/
def Memory.readBytes (m : Memory) (a : Nat) : Nat → List Byte
  | 0 => []
  | n + 1 => m.read a :: Memory.readBytes m (a + 1) n

/-- Stores the listed bytes, each at its address. -/
def Memory.writeCells (m : Memory) : List Host.Cell → Memory
  | [] => m
  | (a, b) :: r => Memory.writeCells (m.write a b) r

/-- Bytes at rising addresses from a. -/
def cellsAt (a : Nat) : List Byte → List Host.Cell
  | [] => []
  | b :: r => (a, b) :: cellsAt (a + 1) r

/-- The number that little-endian bytes stand for (R2). -/
def leNat : List Byte → Nat
  | [] => 0
  | b :: r => b.toNat + 256 * leNat r

/-- The n little-endian bytes of a number (R2). -/
def natBytes (v : Nat) : Nat → List Byte
  | 0 => []
  | n + 1 => BitVec.ofNat 8 v :: natBytes (v / 256) n

/-- The little-endian value of n bytes. -/
def Memory.readNat (m : Memory) (a n : Nat) : Nat := leNat (m.readBytes a n)

/-! ### Sorted lists of numbers -/

/-- Adds a number to a rising list. -/
def insertNat (x : Nat) : List Nat → List Nat
  | [] => [x]
  | y :: r => if x = y then y :: r else if x < y then x :: y :: r else y :: insertNat x r

/-- Removes a number from a list. -/
def removeNat (x : Nat) (l : List Nat) : List Nat := l.filter (· != x)

/-! ### Vectors -/

/-- Reads a vector by a number; a number beyond the end reads the first of the given values. -/
def vget {α : Type} {n : Nat} (v : Vector α n) (i : Nat) (d : α) : α := v.toArray.getD i d

/-- Writes a vector by a number; a number beyond the end writes nothing. -/
def vset {α : Type} {n : Nat} (v : Vector α n) (i : Nat) (x : α) : Vector α n := v.setIfInBounds i x

/-! ### Scalar registers and predicates (R88, R89, R91, R361) -/

/-- The core runs its trap handler (R359). -/
def Core.inTrap (c : Core) : Bool := c.trap.tstat.getLsbD 0

/-- The index in the physical frames of a window register: a and k of the current frame, o of the frame above. -/
def frameIndex (cwp : BitVec 4) (r : BitVec 5) : Nat :=
  if r.toNat < 24 then 16 * cwp.toNat + (r.toNat - 8) else 16 * (cwp + 1).toNat + (r.toNat - 24)

/-- The value of a scalar register (R88). -/
def Core.reg (c : Core) (r : BitVec 5) : Word :=
  if r = 0 then 0
  else if r.toNat < 8 then vget c.regs.glob r.toNat 0
  else if c.inTrap then vget c.regs.trapWin (r.toNat - 8) 0
  else vget c.regs.frames (frameIndex c.win.cwp r) 0

/-- Writes a scalar register; a write of x0 is discarded (R88). -/
def Core.setReg (c : Core) (r : BitVec 5) (v : Word) : Core :=
  if r = 0 then c
  else if r.toNat < 8 then { c with regs := { c.regs with glob := vset c.regs.glob r.toNat v } }
  else if c.inTrap then { c with regs := { c.regs with trapWin := vset c.regs.trapWin (r.toNat - 8) v } }
  else { c with regs := { c.regs with frames := vset c.regs.frames (frameIndex c.win.cwp r) v } }

/-- The value of a predicate; p0 reads all ones (R91). -/
def Core.pred (c : Core) (p : BitVec 3) : Word := if p = 0 then BitVec.allOnes 64 else vget c.regs.preds p.toNat 0

/-- Writes a predicate; a write of p0 is discarded (R91). -/
def Core.setPred (c : Core) (p : BitVec 3) (v : Word) : Core :=
  if p = 0 then c else { c with regs := { c.regs with preds := vset c.regs.preds p.toNat v } }

/-- A vector register. -/
def Core.vreg (c : Core) (v : BitVec 5) : VReg := vget c.regs.vregs v.toNat {}

/-- Writes a vector register with its side field. -/
def Core.setVReg (c : Core) (v : BitVec 5) (x : VReg) : Core :=
  { c with regs := { c.regs with vregs := vset c.regs.vregs v.toNat x } }

/-- A tile register. -/
def Core.treg (c : Core) (m : BitVec 3) : TReg := vget c.regs.tregs m.toNat {}

/-- Writes a tile register. -/
def Core.setTReg (c : Core) (m : BitVec 3) (x : TReg) : Core :=
  { c with regs := { c.regs with tregs := vset c.regs.tregs m.toNat x },
           eng := { c.eng with fresh := c.eng.fresh ||| (1 <<< m.toNat) } }

/-! ### The core in focus -/

/-- Applies a change to the core in focus. -/
def State.mapCore (s : State) (f : Core → Core) : State := { s with core := f s.core }

/-- Applies a change to the tile in focus. -/
def State.mapTile (s : State) (f : Tile → Tile) : State := { s with tile := f s.tile }

/-- Applies a change to the rest of the wafer. -/
def State.mapWafer (s : State) (f : Wafer → Wafer) : State := { s with wafer := f s.wafer }

/-- A scalar register of the core in focus. -/
def State.reg (s : State) (r : BitVec 5) : Word := s.core.reg r

/-- Writes a scalar register of the core in focus. -/
def State.setReg (s : State) (r : BitVec 5) (v : Word) : State := { s with core := s.core.setReg r v }

/-- The pc of the core in focus is set. -/
def State.setPc (s : State) (v : Word) : State := { s with core := { s.core with pc := v } }

/-- The pc of the core in focus moves past an instruction of n bytes (R70). -/
def State.skip (s : State) (n : Nat) : State := s.setPc (s.core.pc + BitVec.ofNat 64 n)

/-- Raises flags in FFLAGS; flags are sticky (R61). -/
def Core.raise (c : Core) (f : BitVec 5) : Core := { c with fp := { c.fp with fflags := c.fp.fflags ||| f } }

/-! ### Cores of the tile, and the focus -/

/-- Looks a core up in a list of cores; a core not listed is at reset. -/
def findCore (l : List (CoreId × Core)) (c : CoreId) : Core :=
  match l with
  | [] => {}
  | (k, x) :: r => if k = c then x else findCore r c

/-- Places a core in a list of cores. -/
def putCore (l : List (CoreId × Core)) (c : CoreId) (x : Core) : List (CoreId × Core) :=
  match l with
  | [] => [(c, x)]
  | (k, y) :: r =>
    if k = c then (c, x) :: r else if c.toNat < k.toNat then (c, x) :: (k, y) :: r else (k, y) :: putCore r c x

/-- Takes a core out of a list of cores. -/
def dropCore (l : List (CoreId × Core)) (c : CoreId) : List (CoreId × Core) := l.filter (fun p => p.1 != c)

/-- A core of the tile in focus. -/
def State.coreAt (s : State) (c : CoreId) : Core := if c = s.coreNo then s.core else findCore s.others c

/-- Applies a change to a core of the tile in focus. -/
def State.updCore (s : State) (c : CoreId) (f : Core → Core) : State :=
  if c = s.coreNo then { s with core := f s.core }
  else { s with others := putCore s.others c (f (findCore s.others c)) }

/-- The eight core numbers. -/
def coreIds : List CoreId := [0, 1, 2, 3, 4, 5, 6, 7]

/-- Applies a change to every core of the tile in focus. -/
def State.updCores (s : State) (f : Core → Core) : State :=
  { s with core := f s.core, others := s.others.map (fun p => (p.1, f p.2)) }

/-- Brings another core of the tile into focus. -/
def State.focusCore (s : State) (c : CoreId) : State :=
  if c = s.coreNo then s
  else
    { s with core := findCore s.others c, coreNo := c, others := putCore (dropCore s.others c) s.coreNo s.core }

/-- Looks a site up; a site not listed is at reset. -/
def findSite (l : List (SiteId × SiteRec)) (x : SiteId) : SiteRec :=
  match l with
  | [] => {}
  | (k, r) :: t => if k = x then r else findSite t x

/-- Places a site in the list of sites, rising. -/
def putSite (l : List (SiteId × SiteRec)) (x : SiteId) (v : SiteRec) : List (SiteId × SiteRec) :=
  match l with
  | [] => [(x, v)]
  | (k, r) :: t =>
    if k = x then (x, v) :: t else if x.toNat < k.toNat then (x, v) :: (k, r) :: t else (k, r) :: putSite t x v

/-- Takes a site out of the list of sites. -/
def dropSite (l : List (SiteId × SiteRec)) (x : SiteId) : List (SiteId × SiteRec) := l.filter (fun p => p.1 != x)

/-- Brings a core of a site into focus. -/
def State.focus (s : State) (x : SiteId) (c : CoreId) : State :=
  if x = s.site then s.focusCore c
  else
    let r := findSite s.wafer.sites x
    let here : SiteRec :=
      { junction := s.junction, tile := s.tile, coreNo := s.coreNo, cores := putCore s.others s.coreNo s.core }
    { core := findCore r.cores c, coreNo := c, others := dropCore r.cores c, tile := r.tile,
      junction := r.junction, site := x,
      wafer := { s.wafer with sites := putSite (dropSite s.wafer.sites x) s.site here } }

/-- The site's tile, wherever the focus is. -/
def State.tileAt (s : State) (x : SiteId) : Tile := if x = s.site then s.tile else (findSite s.wafer.sites x).tile

/-- The site's junction, wherever the focus is. -/
def State.junctionAt (s : State) (x : SiteId) : Site :=
  if x = s.site then s.junction else (findSite s.wafer.sites x).junction

/-- The sites that are not at reset. -/
def State.siteIds (s : State) : List SiteId := s.site :: s.wafer.sites.map (·.1)

/-! ### Packets (R16, R22, R24, R423, R478) -/

/-- Looks a logical tile up in a points table. -/
def findPoint (l : List (Nat × SiteId)) (t : Nat) : Option SiteId :=
  match l with
  | [] => none
  | (k, x) :: r => if k = t then some x else findPoint r t

/-- The edge junction of unit n of a kind with k units on each side (R478). -/
def attachment (k n : Nat) : SiteId :=
  let p := (64 * (n % k) + 32) / k
  match n / k with
  | 0 => BitVec.ofNat 12 p
  | 1 => BitVec.ofNat 12 (64 * p + 63)
  | 2 => BitVec.ofNat 12 (64 * 63 + p)
  | _ => BitVec.ofNat 12 (64 * p)

/-- The fabric port that carries a page of a peer wafer (R474), if a port leads there. -/
def peerPort (fabric : List (BitVec 7 × BitVec 8)) (w : BitVec 8) (page : Nat) : Option Nat :=
  let l := (fabric.filter (fun p => p.2 == w)).map (fun p => p.1.toNat)
  l[page % l.length]?

/-- The site that a destination is resolved to at injection (R16, R26, R474). -/
def State.resolve (s : State) (d : Dest) : Option SiteId :=
  match d with
  | .tile l => findPoint s.junction.points l.toNat
  | .site x => some x
  | .controller c => some (attachment 10 c)
  | .hostPort p => some (attachment 2 p.toNat)
  | .fabric w page => (peerPort s.wafer.rim.fabric w page).map (attachment 32)
  | .unit k n => some (attachment k n)

/-- Determinants that the tile in focus has recorded so far (R423). -/
def State.detCount (s : State) : Nat := s.tile.detBase + s.tile.dets.length

/-- A sequence is at or below a mark, modulo 2^32 (R184, R427). -/
def atMost (seq mark : W32) : Bool := decide ((mark - seq).toNat < 2 ^ 31)

/-- The core in focus by logical tile and number. -/
def State.me (s : State) : CoreRef := { tile := s.tile.tile, core := s.coreNo }

/-- The output marks of a core: ASEQ, message sequence, OSEQ (R443). -/
def Tile.markOf (t : Tile) (c : CoreId) : Option (W32 × W32 × W32) :=
  (t.outMarks.find? (fun m => m.1 == c)).map (·.2)

/-- The sequence of a packet stands at or below the reported mark that a choice takes from a core's marks (R443). -/
def Tile.reported (t : Tile) (c : CoreId) (pick : W32 × W32 × W32 → W32) (seq : W32) : Bool :=
  match t.markOf c with
  | some m => atMost seq (pick m)
  | none => false

/-- The log of a replay holds a bounce of an accumulate that was refused (R190, R214): parking it lowers the count. -/
def Tile.bouncesAgain (t : Tile) (r : Req) : Bool :=
  (t.replay.getD []).any (fun d =>
    d.2.kind = .bounce && d.2.core == r.src.core && d.2.seq == r.seq && !d.2.places.isEmpty)

/-- What a replay does with a packet that it forms again (R442, R443): none when it is sent; otherwise it is not
sent, and the acknowledgement that stands in for it, if it was posted. -/
def Tile.withheld (t : Tile) (m : Msg) : Option (Option Msg) :=
  let posted (r : Req) (pick : W32 × W32 × W32 → W32) (flush : Bool) : Option (Option Msg) :=
    if t.reported r.src.core pick r.seq then some (some (.ack r.src r.cls none flush (r.half.map (fun _ => r.seq)))) else none
  let oseq (m : W32 × W32 × W32) : W32 := m.2.2
  let blocking (r : Req) : Option (Option Msg) :=
    match t.replay with
    | some ds =>
      if ds.any (fun d => (d.2.kind = .reply || d.2.kind = .amo) && d.2.core == r.src.core) then some none else none
    | none => none
  if t.replay.isNone then none
  else
    match m with
    | .ack _ _ _ _ _ => some none
    | .chunkAck _ _ _ _ _ _ => some none
    | .rowAck _ _ _ _ _ => some none
    | .store r _ _ => posted r oseq false
    | .stf r _ _ _ => posted r oseq false
    | .put r _ _ _ _ => posted r oseq false
    | .acc q => if t.bouncesAgain q.req then some none else posted q.req (fun m => m.1) q.flush
    | .message x =>
      if x.fromBox then
        match t.boxMark with
        | some m => if atMost x.seq m then some none else none
        | none => none
      else if t.reported x.core (fun m => m.2.1) x.seq then
        some (if x.counted then some (.ack { tile := x.tile, core := x.core } .n none false none) else none)
      else none
    | .chunk r _ c =>
      if t.reported r.src.core oseq r.seq then some (some (.chunkAck r.src c.card r.fetch none false r.cls)) else none
    | .setFlag r card _ _ =>
      if t.reported r.src.core oseq r.seq then some (some (.chunkAck r.src card r.fetch none false r.cls)) else none
    | .rowStore r card _ _ =>
      if t.reported r.src.core oseq r.seq then some (some (.rowAck r.src card r.fetch r.cls false)) else none
    | .arrival b => if t.reported b.src.core oseq b.seq then some none else none
    | .load r _ _ => blocking r
    | .line r _ _ => blocking r
    | .fullEmpty r _ _ _ _ => blocking r
    | .waita r _ _ _ => blocking r
    | .amo q => blocking q.req
    | .rowLoad r _ _ _ => blocking r
    | .chunkRead r _ _ _ _ => blocking r
    | _ => none

/-- A packet joins the network at the junction in focus. A destination whose entry is absent holds its packet at its
own junction (R16). -/
def State.launchPacket (s : State) (line : Line) (d : Dest) (arrived : Option Nat) (m : Msg) : State :=
  let gate := match m with
    | .ack _ _ _ _ _ => 0
    | .chunkAck _ _ _ _ _ _ => 0
    | .rowAck _ _ _ _ _ => 0
    | .determinant _ _ _ => 0
    | .confirm _ _ => 0
    | .release _ _ => 0
    | _ => s.detCount
  let p : Packet :=
    { id := s.wafer.nextId, line := line, origin := s.site, dest := d, site := (s.resolve d).getD s.site,
      arrived := arrived, epoch := s.tile.intv.getLsbD 48, gate := gate, msg := m }
  { s with wafer := { s.wafer with net := s.wafer.net ++ [p], nextId := s.wafer.nextId + 1 } }

/-- Injects a packet at the junction in focus, unless a replay withholds it (R443). -/
def State.inject (s : State) (line : Line) (d : Dest) (m : Msg) : State :=
  let s := match m with
    | .line r sp base => { s with tile := { s.tile with fills := s.tile.fills ++ [(r.fetch, sp, base, true)] } }
    | _ => s
  match s.tile.withheld m with
  | none => s.launchPacket line d none m
  | some none => { s with wafer := { s.wafer with nextId := s.wafer.nextId + 1 } }
  | some (some a) => s.launchPacket .relief (.site s.site) (some s.wafer.arrivals) a

/-- The packet of a number, if it is in flight. -/
def State.packet (s : State) (id : Nat) : Option Packet := s.wafer.net.find? (fun p => p.id == id)

/-- Takes a packet out of the network. -/
def State.dropPacket (s : State) (id : Nat) : State :=
  { s with wafer := { s.wafer with net := s.wafer.net.filter (fun p => p.id != id) } }

/-- Changes a packet in flight. -/
def State.setPacket (s : State) (id : Nat) (f : Packet → Packet) : State :=
  { s with wafer := { s.wafer with net := s.wafer.net.map (fun p => if p.id = id then f p else p) } }

/-! ### Logical names (R15, R17, R340) -/

/-- Width of the job's rectangle. -/
def Tile.width (t : Tile) : Nat := field t.jshape 0 7

/-- Height of the job's rectangle. -/
def Tile.height (t : Tile) : Nat := field t.jshape 8 6

/-- The logical tile of job tile n (R17); a rectangle without width has none but its origin. -/
def Tile.logical (t : Tile) (n : Nat) : TileNo :=
  BitVec.ofNat 12 ((field t.jshape 24 6 + n / t.width) * 64 + field t.jshape 16 6 + n % t.width)

/-- The quadrant of a site (R12). -/
def quadrant (x : SiteId) : BitVec 2 := BitVec.ofBool (x.getLsbD 11) ++ BitVec.ofBool (x.getLsbD 5)

/-- CLOCK as a word (R342). -/
def State.clock (s : State) : Word := BitVec.ofNat 64 s.wafer.clock

/-! ### Traps (R359 to R362) -/

/-- The number of a level (R347, R359). -/
def Level.bits : Level → BitVec 2
  | .J => 0
  | .S => 1
  | .M => 2

/-- The level that two bits name; the value 3 has no meaning in R359, and a free value stands for it. -/
def levelOf (n : Nat) (b : BitVec 2) : Level :=
  if b = 0 then .J else if b = 1 then .S else if b = 2 then .M
  else
    match Config.reservedLevel n with
    | (true, _) => .M
    | (false, true) => .S
    | (false, false) => .J

/-- A core that follows another does so no longer; one that seeks goes on seeking (R133, R134). -/
def Core.unfollow (c : Core) : Core :=
  match c.coupling with
  | .following _ => { c with coupling := .none }
  | _ => c

/-- The core in focus ceases to follow, and the cores that follow it do (R134). -/
def State.uncouple (s : State) : State :=
  { s with
    core := s.core.unfollow,
    others := s.others.map (fun p =>
      if p.2.coupling = .following s.coreNo then (p.1, { p.2 with coupling := .none }) else p) }

/-- The core serves or runs a boot job, which exists until HANDOFF (R457). -/
def State.booting (s : State) : Bool :=
  match s.tile.job with
  | some j => 60 ≤ j.toNat && !(s.wafer.boot.handedOff.contains (quadrant s.site))
  | none => true

/-- The team number of the core in focus, or 0 without a slot. -/
def State.team (s : State) : W32 :=
  match s.core.slot with
  | some r => r.team
  | none => 0

/-- The live launch of the core's team (R346, R347). -/
def State.launchOf (s : State) : Option Launch :=
  s.wafer.launches.find? (fun l => some l.job == s.tile.job && l.num == BitVec.ofNat 20 (s.team.toNat / 4096))

/-- The four dwords of a team trap record (R362). -/
def teamTrapRecord (s : State) (double : Bool) : List Word :=
  let c := s.core.trap
  [BitVec.ofNat 64 (2 * 2 ^ 56 + field c.tcause 0 4 * 2 ^ 52 + (if double then 2 ^ 51 else 0) + s.tile.jt.toNat * 2 ^ 36
      + s.coreNo.toNat * 2 ^ 32 + s.team.toNat),
    c.tpc, c.tval, s.clock]

/-- 32 bytes of four dwords, the first lowest. -/
def dwords256 (l : List Word) : V256 :=
  BitVec.ofNat 256 (l.foldr (fun w n => w.toNat + 2 ^ 64 * n) 0)

/-- The dispatcher sends a record to the launch's trap mailbox and posts it to the host (R325, R362); a replay, which
only repeats the trap, sends nothing. -/
def postTeamTrap (s : State) (double : Bool) : State :=
  if s.tile.replay.isSome then s
  else
  let rec4 := teamTrapRecord s double
  let s := { s with wafer := { s.wafer with notices := s.wafer.notices ++ [Notice.teamTrap rec4] } }
  match s.launchOf with
  | none => s
  | some l =>
    let m : Message :=
      { jt := s.tile.jt, core := s.coreNo, tile := s.tile.tile, job := l.job, seq := 0,
        dst := BitVec.ofNat 3 (field l.mailbox 12 3), q := BitVec.ofNat 4 (field l.mailbox 16 4),
        data := dwords256 rec4, counted := false }
    s.inject .relief (.tile (s.tile.logical (field l.mailbox 0 12))) (.message m)

/-- Escalation: the core stops in the trapped state and its record is sent (R362); under the boot binding only
the boot status shows the stop (R457). -/
def escalate (double : Bool) (s : State) : State :=
  let s := { s with core := { s.core with run := .trapped } }
  if s.booting then
    { s with wafer := { s.wafer with boot := { s.wafer.boot with
        stops := (quadrant s.site, s.core.trap.tcause, s.core.trap.tpc) :: s.wafer.boot.stops } } }
  else postTeamTrap s double

/-- The word of TCAUSE: the cause, and TASK when the core runs a task (R359). -/
def causeWord (cause : Nat) (inTask : Bool) : Word := BitVec.ofNat 64 (cause + (if inTask then 256 else 0))

/-- TSTAT with the level before the trap (R359). -/
def withPlev (t : Word) (l : Level) : Word := (t &&& 0x9) ||| (zext64 l.bits <<< 1)

/-- Taking a trap (R360): TCAUSE, TPC and TVAL are written; without a handler, or in the handler, the core
escalates; otherwise the handler starts at level S in the trap window. A walk, requests and an armed wait under
way belong to the instruction, which is no longer waited for. -/
def takeTrap (cause : Nat) (val : Word) (s : State) : State :=
  let s := s.uncouple
  let c := s.core
  let t := c.trap
  let first := !c.inTrap
  let t' : TrapCtl :=
    { t with
      tcause := causeWord cause c.task.inTask, tpc := c.pc &&& 0xFFFFFFFFFFFE, tval := val,
      tstat := if first then withPlev t.tstat c.level else t.tstat }
  let s := { s with core := { c with
      trap := t', walk := none, pend := [], inWfi := false, sync := { c.sync with cnt := none },
      acc := { c.acc with flushed := false }, task := { c.task with joinWaits := false } } }
  if !first || t.tvec &&& 0xFFFFFFFFFFFE = 0 then escalate (!first) s
  else
    { s with
      core := { s.core with
        trap := { t' with tstat := t'.tstat ||| 1 }, level := .S, pc := t.tvec &&& 0xFFFFFFFFFFFE } }

/-- The return from a trap (R361): level and window of the interrupted code, the pc from TPC; the first
breakpoint check is skipped when TSTAT.BPSKIP asks for it; a task's cycle count starts again (R358). -/
def returnFromTrap (s : State) : State :=
  let c := s.core
  let t := c.trap
  { s with
    core := { c with
      level := levelOf s.wafer.free (BitVec.ofNat 2 (field t.tstat 1 2)),
      trap := { t with tstat := t.tstat &&& 0x6, skip := t.tstat.getLsbD 3 },
      task := if c.task.inTask && !c.task.counting then { c.task with since := s.wafer.clock, counting := true }
        else c.task,
      pc := t.tpc &&& 0xFFFFFFFFFFFE },
    wafer := { s.wafer with free := s.wafer.free + 1 } }

/-! ### How an instruction ends -/

/-- An instruction completes, waits at its address to be issued again, or traps with a cause and a value
(R7, R359). -/
inductive Issue where
  | done (s : State)
  | wait (s : State)
  | trap (cause : Nat) (val : Word) (s : State)
  | stop (f : Fault)

/-- Counts a completed instruction (R422). -/
def State.retire (s : State) : State := { s with core := { s.core with retired := s.core.retired + 1 } }

/-- What a step makes of an instruction's end: a wait leaves the state ready to issue again. -/
def Issue.result : Issue → Result
  | .done s => .next s.retire
  | .wait s => .next s
  | .trap cause val s => .next (takeTrap cause val s)
  | .stop f => .fault f

/-- The instruction of four bytes completes. -/
def State.next4 (s : State) : Issue := .done (s.skip 4)

end Sys2Proof.Machine
end

