-- ==== Sys2Proof/Machine/Access.lean ====
section
/-!
DEFINITION. Memory access (05_memory.md): determinants and recorded values, translation and its checks, races, footprints,
waits on posted counts, and performing an access at the tile's own scratchpad.
-/
namespace Sys2Proof.Machine

/-! ### Determinants and recorded values (R98, R343, R421, R422) -/

/-- The tile's queue of unconfirmed determinants has room for one more (R422). -/
def State.detRoom (s : State) : Bool := s.booting || decide (s.tile.dets.length < 64)

/-- The site that holds the checkpoint shadow of a site (R13). -/
def buddySite (x : SiteId) : SiteId := x ^^^ 8

/-- The waybill of a logical tile (R419). -/
def Wafer.waybill (w : Wafer) (l : TileNo) : Option Waybill := w.healing.waybills.find? (fun b => b.tile == l)

/-- The unit that holds a tile's waybill (R418 to R420). -/
def Waybill.dest (b : Waybill) : Dest :=
  match b.holder with
  | .buddy x => .site x
  | .hbm => .controller (b.region / 4096 % 40)

/-- The tile in focus keeps a waybill: it is bound to a job that is not a boot job. -/
def State.keepsWaybill (s : State) : Bool := !s.booting && (s.wafer.waybill s.tile.tile).isSome

/-- Records a determinant and streams it to the tile's holder (R422); a boot job keeps no waybill, and a replay
records nothing of what it repeats. -/
def State.noteDet (s : State) (d : Det) : State :=
  if s.booting || s.tile.replay.isSome then s
  else
    match s.wafer.waybill s.tile.tile with
    | none => s
    | some b =>
      let num := s.detCount
      let s := { s with tile := { s.tile with dets := s.tile.dets ++ [d] } }
      s.inject .relief b.dest (.determinant s.tile.tile num d)

/-- A determinant consumed by a core, from a source core. -/
def coreDet (s : State) (kind : DetKind) (c : CoreId) (src : CoreRef) (seq : W32) (payload : List Byte) : Det :=
  { kind := kind, core := c, slice := 0, pos := (s.coreAt c).retired, srcKind := .core, src := src.tile.toNat,
    srcCore := src.core, seq := seq, payload := payload }

/-- The first recorded value of a core in a stream, and the stream without it. -/
def takeRecorded (c : CoreId) : List (Nat × Det) → Option (Word × List (Nat × Det))
  | [] => none
  | d :: r =>
    if d.2.kind = .recorded && d.2.srcKind = .core && d.2.core = c then
      some (BitVec.ofNat 64 (leNat d.2.payload), r)
    else (takeRecorded c r).map (fun x => (x.1, d :: x.2))

/-- The next value that a replay holds for the core in focus (R343); none in a run. -/
def State.nextRecorded (s : State) : Option Word :=
  (s.tile.replay.bind (takeRecorded s.coreNo)).map (·.1)

/-- record(v) of R7: the value, or in a replay the recorded one; none when the determinant queue is full. -/
def State.record (s : State) (v : Word) : Option (Word × State) :=
  match s.tile.replay with
  | some ds =>
    match takeRecorded s.coreNo ds with
    | some (x, r) => some (x, { s with tile := { s.tile with replay := some r } })
    | none => some (v, s)
  | none =>
    if s.detRoom then some (v, s.noteDet (coreDet s .recorded s.coreNo s.me 0 (natBytes v.toNat 8))) else none

/-! ### Translation (R136 to R144) -/

/-- Bytes of HBM (R26, R34): 2,560 GiB. -/
def hbmSize : Nat := 2560 * 2 ^ 30

/-- Bytes of a scratchpad (R136). -/
def spadSize : Nat := 0x600000

/-- The type of a page-table entry (R139). -/
def pteType (pte : Word) : Nat := field pte 8 3

/-- The address that FRAME holds (R139). -/
def pteFrame (pte : Word) : Nat := field pte 12 36 * 4096

/-- A leaf keeps the rules of R139 for its page size, in a job of the given count of tiles. -/
def leafValid (tiles size : Nat) (pte : Word) : Bool :=
  let f := pteFrame pte
  let dest := field pte 48 8
  let tileOk := decide (f / 2 ^ 23 < tiles)
  field pte 56 8 = 0 && !pte.getLsbD 11 && !pte.getLsbD 7 && f % size = 0 &&
    match pteType pte with
    | 0 => dest = 0 && f + size ≤ hbmSize
    | 1 => dest = 0 && f < 2 ^ 35 && tileOk && f % 2 ^ 23 + size ≤ spadSize
    | 2 => dest < 8
    | 3 => true
    | 4 => dest = 0 && f < 2 ^ 35 && tileOk && f % 2 ^ 23 < 0x8000 && size = 4096
    | 5 => dest = 0
    | _ => false

/-- A pointing entry keeps the rules of R138 and R139. -/
def pointerValid (pte : Word) : Bool :=
  field pte 56 8 = 0 && field pte 48 8 = 0 && !pte.getLsbD 11 && !pte.getLsbD 7 && pteType pte = 0 &&
    decide (pteFrame pte + 4096 ≤ hbmSize)

/-- An entry of a 64 KiB page stands at the place that FRAME[15:12] counts (R139). -/
def counted (va : Nat) (pte : Word) : Bool := !pte.getLsbD 5 || field pte 12 4 == va / 4096 % 16

/-- The walk of R138 from a table, for the shifts of the levels that remain: first address and size of
the page, and its leaf. Each of the 16 entries of a 64 KiB page maps its own 4 KiB (R139). -/
def walkFrom (m : Memory) (tiles va : Nat) : List Nat → Nat → Option (Nat × Nat × Word)
  | [], _ => none
  | sh :: r, table =>
    let pte := BitVec.ofNat 64 (m.readNat (table + 8 * (va / 2 ^ sh % 512)) 8)
    if !pte.getLsbD 0 then none
    else if pte.getLsbD 1 then
      if sh = 39 then none
      else if leafValid tiles (2 ^ sh) pte && (sh != 12 || counted va pte) then some (va / 2 ^ sh * 2 ^ sh, 2 ^ sh, pte) else none
    else if pointerValid pte then walkFrom m tiles va r (pteFrame pte) else none

/-- Job tiles of the tile's job. -/
def Tile.tiles (t : Tile) : Nat := t.width * t.height

/-- The walk of the core in focus from its ROOT (R143); ROOT = 0 names no table. -/
def State.walkTables (s : State) (va : Nat) : Option (Nat × Nat × Word) :=
  if field s.core.ptbase 12 36 = 0 then none
  else walkFrom s.wafer.hbm s.tile.tiles va [39, 30, 21, 12] (field s.core.ptbase 12 36 * 4096)

/-- The TLB entry that serves the core in focus for an address, in its own TLB or the tile's (R144). -/
def State.tlbHit (s : State) (va : Nat) : Option TlbEntry :=
  (s.core.tlb ++ s.tile.tlb).find? (fun e =>
    some e.job == s.tile.job && e.root.toNat == field s.core.ptbase 12 36 && decide (e.base ≤ va) &&
      decide (va < e.base + e.size))

/-- The place of a translated address (R139, R141). -/
def State.target (s : State) (e : TlbEntry) (va : Nat) : Target :=
  let p := pteFrame e.pte + (va - e.base)
  let l := s.tile.logical (p / 2 ^ 23)
  match pteType e.pte with
  | 0 => .far { space := .hbm, a := p }
  | 1 => if l = s.tile.tile then .own (p % 2 ^ 23) else .far { space := .spad l, a := p % 2 ^ 23 }
  | 2 => .far { space := .host (BitVec.ofNat 3 (field e.pte 48 8)), a := p }
  | 3 => .far { space := .peer (BitVec.ofNat 8 (field e.pte 48 8)), a := p }
  | 4 => .far { space := .window l, a := p % 2 ^ 23 }
  | _ => .far { space := .device, a := p }

/-- What an access needs of its page (R140). -/
structure Need where
  r : Bool := false
  w : Bool := false
  x : Bool := false
  deriving DecidableEq, Repr

/-- The outcome of the checks of R140 up to protection. -/
inductive Checked where
  | ok (t : Target)
  | fail (cause : Nat)
  | miss
  deriving DecidableEq, Repr

/-- The level of R137 admits the page type. -/
def levelAdmits (l : Level) (type : Nat) : Bool :=
  match type with
  | 4 => l != .J
  | 5 => l == .M
  | _ => true

/-- A far target whose logical tile has no points entry is a protection fault (R16). -/
def State.present (s : State) (t : Target) : Bool :=
  match t with
  | .own _ => true
  | .far p =>
    match p.space with
    | .spad l => (findPoint s.junction.points l.toNat).isSome
    | .window l => (findPoint s.junction.points l.toNat).isSome
    | _ => true

/-- Level, permissions and freezing (R140 order 3). -/
def State.permit (s : State) (need : Need) (va : Nat) (e : TlbEntry) : Checked :=
  let t := s.target e va
  if levelAdmits s.core.level (pteType e.pte) && (!need.r || e.pte.getLsbD 2) && (!need.w || e.pte.getLsbD 3)
      && (!need.x || e.pte.getLsbD 4) && !(need.w && e.pte.getLsbD 6) && s.present t
  then .ok t else .fail 5

/-- Translation and protection of an address (R136, R140 orders 2 and 3). A miss asks for a walk; a walk that
found no valid leaf makes the address fail. -/
def State.translate (s : State) (need : Need) (va : Nat) : Checked :=
  if 2 ^ 48 ≤ va then .fail 4
  else if va < spadSize then .ok (.own va)
  else
    match s.tlbHit va with
    | some e => s.permit need va e
    | none =>
      if field s.core.ptbase 12 36 = 0 then .fail 4
      else
        match s.core.walk with
        | some w => if w.failed && w.va / 4096 == va / 4096 then .fail 4 else .miss
        | none => .miss

/-- Translation without a wait, for prefetches, fence.r and engines: a miss walks at once (R144, R145). -/
def State.translateNow (s : State) (need : Need) (va : Nat) : Checked :=
  if 2 ^ 48 ≤ va then .fail 4
  else if va < spadSize then .ok (.own va)
  else
    match s.tlbHit va with
    | some e => s.permit need va e
    | none =>
      match s.walkTables va with
      | some (b, n, pte) =>
        s.permit need va { job := s.tile.job.getD 0, root := 0, base := b, size := n, pte := pte }
      | none => .fail 4

/-- Asks for the walk of an address (R144). -/
def State.startWalk (s : State) (va : Nat) : State :=
  let fresh : Walk :=
    { va := va, job := s.tile.job.getD 0, root := BitVec.ofNat 36 (field s.core.ptbase 12 36) }
  match s.core.walk with
  | some w =>
    if w.va / 4096 == va / 4096 && !w.failed then s else { s with core := { s.core with walk := some fresh } }
  | none => { s with core := { s.core with walk := some fresh } }

/-- The checks of R140 on one access: alignment, translation, protection; a miss waits for its walk. -/
def access (need : Need) (va size : Nat) (s : State) (k : Target → State → Issue) : Issue :=
  if va % size ≠ 0 then .trap 3 (BitVec.ofNat 64 va) s
  else
    match s.translate need va with
    | .ok t => k t s
    | .fail c => .trap c (BitVec.ofNat 64 va) s
    | .miss => .wait (s.startWalk va)

/-! ### Races (R172 to R175) -/

/-- The superstep of the core in focus at a level: the counts of that level and those above (R328). -/
def Core.superstep (c : Core) (n : Nat) : Nat :=
  ((List.range 4).filter (fun m => n ≤ m)).foldl (fun a m => a + (vget c.sync.step m 0).toNat) 0

/-- The domains of the core in focus, narrowest first, with its superstep in each (R174, R326). -/
def State.supersteps (s : State) : Supersteps :=
  (List.range 4).filterMap (fun n =>
    let d := vget s.core.sync.dom n 0
    if d.getLsbD 40 then
      some (((n * 2 ^ 12 + field d 0 12) * 2 ^ 20 + s.team.toNat / 4096) * 64 + (s.tile.job.getD 0).toNat,
        s.core.superstep n)
    else none)

/-- Two cores are in the same superstep of the narrowest domain that holds both (R174). -/
def sameSuperstep (a : Supersteps) : Supersteps → Bool
  | [] => false
  | (k, n) :: r =>
    match a.find? (fun p => p.1 == k) with
    | some p => p.2 == n
    | none => sameSuperstep a r

/-- What the core in focus's next checked access carries (R174). -/
def State.stamp (s : State) (write : Bool) : RaceStamp :=
  { acc := { who := s.me, tick := s.core.race.tick }, write := write, known := s.core.race.known,
    steps := s.supersteps, trapping := s.core.race.detmode }

/-- A checked access to a line meets a concurrent conflicting one (R174). -/
def Tile.races (t : Tile) (st : RaceStamp) (line : Nat) : Bool :=
  t.lines.any (fun r => r.line == line && r.acc.who != st.acc.who && (r.write || st.write)
    && !(st.known.contains r.acc) && sameSuperstep r.steps st.steps)

/-- A checked access is noted at its line (R173, R174): home slices keep their records whatever RACE holds. -/
def Tile.noteLine (t : Tile) (st : RaceStamp) (line : Nat) : Tile :=
  { t with lines := t.lines ++ [{ line := line, acc := st.acc, write := st.write, steps := st.steps }] }

/-- The core in focus has made a checked access; a posted one is uncovered until a wait covers it (R172). -/
def Core.tickAccess (c : Core) (me : CoreRef) (posted : Option (PostClass × TileNo)) : Core :=
  let r := c.race
  { c with race := { r with
      tick := r.tick + 1,
      uncovered := match posted with
        | some (cls, t) => r.uncovered ++ [({ who := me, tick := r.tick }, cls, t)]
        | none => r.uncovered } }

/-- What the core in focus hands on when it sets a tag or a counter in a tile (R169, R172): what it knows and
its own accesses, but for posted accesses to other tiles that no wait has covered. -/
def State.publish (s : State) (t : TileNo) : List AccessId :=
  let r := s.core.race
  let own := (List.range r.tick).map (fun n => ({ who := s.me, tick := n } : AccessId))
  r.known ++ own.filter (fun a => !(r.uncovered.any (fun u => u.1 == a && u.2.2 != t)))

/-- The core in focus learns of accesses ordered before its next one (R172). -/
def Core.learn (c : Core) (k : List AccessId) : Core :=
  { c with race := { c.race with known := c.race.known ++ k.filter (fun a => !(c.race.known.contains a)) } }

/-! ### Footprints (R171, R268, R301) -/

/-- The 256-byte lines of n bytes from a. -/
def linesOf (a n : Nat) : List Nat := (List.range ((a + n - 1) / 256 + 1 - a / 256)).map (· + a / 256)

/-- Rows that a card of tld or tst moves (R256, R266). -/
def TileCard.rowCount (c : TileCard) : Nat := field c.shape 8 5 + 1

/-- The virtual address of row r of a card (R266). -/
def TileCard.rowVa (c : TileCard) (r : Nat) : Nat := (c.base + BitVec.ofNat 64 r * c.stride).toNat

/-- The virtual address of row r's scale bytes (R266). -/
def TileCard.scaleVa (c : TileCard) (r : Nat) : Nat := (c.scale + BitVec.ofNat 64 (8 * r)).toNat

/-- The card moves a b4 register, so its scale bytes lie in memory too (R265). -/
def TileCard.scaled (c : TileCard) : Bool :=
  match c.job with
  | .tld _ => c.dstTag == .b4
  | .tst _ => c.srcTag == .b4
  | _ => false

/-- Ranges of 256-byte lines, first and last. -/
abbrev Ranges := List (Nat × Nat)

/-- The lines of n bytes from a. -/
def rangeOf (a n : Nat) : Nat × Nat := (a / 256, (a + n - 1) / 256)

/-- Two ranges share a line. -/
def meets (a b : Nat × Nat) : Bool := decide (a.1 ≤ b.2) && decide (b.1 ≤ a.2)

/-- Some range of one list meets some range of the other. -/
def overlap (a b : Ranges) : Bool := a.any (fun x => b.any (meets x))

/-- What a job reads and what it writes (R268, R301). -/
structure Footprint where
  reads : Ranges := []
  writes : Ranges := []
  deriving DecidableEq, Repr

/-- Lines of memory that a tile job touches (R268). -/
def TileCard.memLines (c : TileCard) : Ranges :=
  (List.range c.rowCount).flatMap (fun r =>
    rangeOf (c.rowVa r) 128 :: (if c.scaled then [rangeOf (c.scaleVa r) 8] else []))

/-- The footprint of a tile job (R268). -/
def TileCard.footprint (c : TileCard) : Footprint :=
  match c.job with
  | .tld _ => { reads := c.memLines }
  | .tst _ => { writes := c.memLines }
  | _ => {}

/-- FLAGSET of a job (R294). -/
def CopyJob.flagset (j : CopyJob) : Bool := j.ctl.getLsbD 2

/-- Job tile n lies in the RECT of a multicast of a job of width W (R306). -/
def inRect (rect : W32) (W n : Nat) : Bool :=
  let t0 := field rect 0 12
  let w := field rect 12 7
  let h := field rect 19 6
  decide (t0 % W ≤ n % W) && decide (n % W < t0 % W + w) && decide (t0 / W ≤ n / W) && decide (n / W < t0 / W + h)

/-- The footprint of a copy job of a tile (R301): a multicast writes the own scratchpad only when its
rectangle holds the own tile. -/
def CopyJob.footprint (j : CopyJob) (t : Tile) : Footprint :=
  { reads := [rangeOf j.src.toNat j.len],
    writes := rangeOf j.xc.toNat 64 ::
      ((if j.flagset then [rangeOf j.flag.toNat 4] else []) ++
       (if j.kind != .mcast || inRect j.rect t.width t.jt.toNat then [rangeOf j.dst.toNat j.len] else [])) }

/-- The cores of the tile in focus. -/
def State.allCores (s : State) : List Core := s.core :: s.others.map (·.2)

/-- Footprints of the unfinished jobs of the tile, with their places in the order of issue. -/
def State.footprints (s : State) : List (Nat × Footprint) :=
  s.allCores.flatMap (fun c =>
    c.eng.cards.map (fun k => (k.num, k.footprint)) ++ c.cpy.jobs.map (fun j => (j.num, j.footprint s.tile)))

/-- A core access to n bytes at a virtual address overlaps the footprint of an unfinished job (R171). -/
def State.footprintStall (s : State) (va n : Nat) (write : Bool) : Bool :=
  s.footprints.any (fun f =>
    overlap f.2.writes [rangeOf va n] || (write && overlap f.2.reads [rangeOf va n]))

/-- A job conflicts with a footprint: read after write, write after read or write after write (R171). -/
def Footprint.conflicts (a b : Footprint) : Bool :=
  overlap a.reads b.writes || overlap a.writes b.reads || overlap a.writes b.writes

/-- A job must wait for an earlier unfinished job of the tile whose footprint it overlaps (R171, R261, R300). -/
def State.jobBlocked (s : State) (num : Nat) (f : Footprint) : Bool :=
  s.footprints.any (fun g => decide (g.1 < num) && f.conflicts g.2)

/-! ### Waits on posted counts (R152 to R154, R162, R175, R269, R303) -/

/-- A posted count. -/
def Post.count (p : Post) : PostClass → Nat
  | .n => p.n
  | .m => p.m
  | .x => p.x

/-- A posted count changed. -/
def Post.setCount (p : Post) (c : PostClass) (v : Nat) : Post :=
  match c with
  | .n => { p with n := v }
  | .m => { p with m := v }
  | .x => { p with x := v }

/-- A posted access more of a class (R152). -/
def Core.countUp (c : Core) (cls : PostClass) : Core := { c with post := c.post.setCount cls (c.post.count cls + 1) }

/-- A posted access less of a class (R152). -/
def Core.countDown (c : Core) (cls : PostClass) : Core := { c with post := c.post.setCount cls (c.post.count cls - 1) }

/-- The count of a class admits one more (R153). -/
def Core.countRoom (c : Core) (cls : PostClass) : Bool := decide (c.post.count cls < 256)

/-- The chunks of a copy job (R299). -/
def CopyJob.chunks (j : CopyJob) : Nat := (j.len + 4095) / 4096

/-- Every tst of the core has started and every copy job has sent its last chunk or ended (R269, R303). -/
def Core.engineSent (c : Core) : Bool :=
  c.eng.cards.all (fun k => match k.job with
    | .tst _ => k.state != .queued
    | _ => true) &&
  c.cpy.jobs.all (fun j => j.ending.isSome || decide (j.chunks ≤ j.sent))

/-- A failure of a posted access that the core must report at a wait on its class, with cause and address (R175,
R437). -/
def Core.raceFor (c : Core) (cls : List PostClass) : Option (PostClass × Nat × Word) :=
  c.post.races.find? (fun r => cls.contains r.1)

/-- A wait on classes has completed: their races are none and their accesses are covered (R172). -/
def Core.cover (c : Core) (cls : List PostClass) : Core :=
  { c with race := { c.race with uncovered := c.race.uncovered.filter (fun u => !(cls.contains u.2.1)) } }

/-- Waits until the counts of classes are zero; reports a failed posted access first (R154, R162, R175, R437). -/
def waitCounts (cls : List PostClass) (s : State) (k : State → Issue) : Issue :=
  match s.core.raceFor cls with
  | some r =>
    .trap r.2.1 r.2.2 { s with core := { s.core with post := { s.core.post with races := s.core.post.races.filter (· != r) } } }
  | none =>
    if s.core.engineSent && cls.all (fun c => s.core.post.count c == 0) then
      k { s with core := s.core.cover cls }
    else .wait s

/-- The class that a W field names (R78). -/
def wClass (w : BitVec 2) : List PostClass :=
  if w = 0 then [] else if w = 1 then [.n] else if w = 2 then [.m] else [.x]

/-- The wait of a W field, before every check of the access (R154). -/
def waitW (w : BitVec 2) (s : State) (k : State → Issue) : Issue :=
  if w = 0 then k s else waitCounts (wClass w) s k

/-- The posting class of a place (R137). -/
def Space.cls : Space → PostClass
  | .spad _ => .n
  | .window _ => .n
  | .hbm => .m
  | .host _ => .x
  | .peer _ => .x
  | .device => .n

/-- The unit that a place's packets go to (R16, R26, R142, R469, R478); a page of a power domain is served at the first
dispatcher core (assumption 74). -/
def Place.dest (p : Place) : Dest :=
  match p.space with
  | .spad l => .tile l
  | .window l => .tile l
  | .hbm => .controller (p.a / 4096 % 40)
  | .host q => .hostPort q
  | .peer w => .fabric w (p.a / 4096)
  | .device =>
    match p.a / 2 ^ 36 % 16 with
    | 0 => .site (BitVec.ofNat 12 (p.a / 2 ^ 24))
    | 1 => .site (BitVec.ofNat 12 (p.a / 2 ^ 24))
    | 2 => .controller (p.a / 2 ^ 24 % 4096)
    | 4 => .unit 64 (p.a / 2 ^ 24 % 4096)
    | 5 => .unit 32 (p.a / 2 ^ 24 % 4096)
    | 6 => .unit 2 (p.a / 2 ^ 24 % 4096)
    | 3 => .unit 4 (p.a / 2 ^ 24 % 4096)
    | _ => .unit 4 0

/-! ### Performing an access at the tile in focus (R155, R163, R165, R166, R335, R411, R425) -/

/-- Sources of accesses for conflict records (R425): a core, its matrix engine jobs, the copy unit, a remote core. -/
def srcCore (c : CoreId) : Nat := c.toNat
def srcEngine (c : CoreId) : Nat := 8 + c.toNat
def srcCopy : Nat := 16
def srcRemote (r : CoreRef) : Nat := 32 + r.tile.toNat * 8 + r.core.toNat

/-- Accesses that a source has made (R425). -/
def Tile.madeBy (t : Tile) (src : Nat) : Nat :=
  match t.made.find? (fun p => p.1 == src) with
  | some p => p.2
  | none => 0

/-- Notes an access of a source to a line of this interval, with the conflict record of R425: the slice and its count of
accesses, the source and its own count. -/
def State.touch (s : State) (src line : Nat) (write : Bool) : State :=
  let prev := s.tile.touched.find? (fun p => p.1 == line)
  let sl := line % 8
  let n := s.tile.madeBy src
  let s1 := { s with tile := { s.tile with
      touched := (line, src, write) :: s.tile.touched.filter (fun p => p.1 != line),
      made := (src, n + 1) :: s.tile.made.filter (fun p => p.1 != src),
      sliceCount := vset s.tile.sliceCount sl (vget s.tile.sliceCount sl 0 + 1) } }
  match prev with
  | some (_, o, w) =>
    if o != src && (w || write) then
      s1.noteDet { kind := .conflict, core := 0, slice := BitVec.ofNat 3 sl, pos := vget s.tile.sliceCount sl 0,
                   srcKind := .core, src := src, srcCore := 0, seq := BitVec.ofNat 32 n, payload := [] }
    else s1
  | none => s1

/-- Notes an access of the core in focus to event counter c (R425), which counts at slice c. -/
def State.touchEvc (s : State) (c : Nat) (write : Bool) : State := s.touch (srcCore s.coreNo) (2 ^ 32 + c) write

/-- Delivers the answer of a blocked access to a core of the tile in focus. -/
def State.answerHere (s : State) (c : CoreId) (fetch : Nat) (rep : Reply) : State :=
  s.updCore c (fun x => { x with pend := x.pend.map (fun f => if f.id = fetch then { f with reply := some rep } else f) })

/-- Answers the core of a request: one of this tile at once, another by a reply on the relief line. -/
def State.answer (s : State) (r : Req) (remote : Bool) (rep : Reply) (kind : DetKind) : State :=
  if remote then s.inject .relief (.tile r.src.tile) (.reply r.src r.fetch rep kind)
  else s.answerHere r.src.core r.fetch rep

/-- A 32-bit word of the scratchpad. -/
def Tile.word (t : Tile) (a : Nat) : W32 := BitVec.ofNat 32 (t.mem.readNat a 4)

/-- The answer to a core's ldf, ldtag or waita is kept for a cancel that may follow it (R158, R336, R367). -/
def Tile.keepAnswer (t : Tile) (r : Req) (rep : Reply) : Tile :=
  { t with answers := (r.src, r.fetch, rep) :: t.answers.filter (fun x => x.1 != r.src) }

/-- What a load of n bytes from a, or a wait on them, observes of the counter words of puts (R172). -/
def Tile.counted (t : Tile) (a n : Nat) : List AccessId :=
  (t.cntKnown.filter (fun p => decide (p.1 < a + n) && decide (a < p.1 + 4))).flatMap (·.2)

/-- Monitors that a performed write has freed are woken with status 1 (R335). -/
def wakeMonitors (ms : List Monitor) (s : State) : State :=
  match ms with
  | [] => s
  | m :: r =>
    let s := if s.tile.word m.a != m.value then
        let s := { s with tile := { s.tile with monitors := s.tile.monitors.filter (· != m) } }
        let id := s.wafer.nextId
        let rep : Reply := .data (natBytes 1 8) (s.tile.counted m.a 4)
        let s := if m.remote then { s with tile := s.tile.keepAnswer m.req rep } else s
        let s := s.answer m.req m.remote rep .reply
        s.setPacket id (fun p => { p with asks := some (.waita m.req s.tile.tile m.a m.value) })
      else s
    wakeMonitors r s

/-- EARLY of CKCTL (R409). -/
def Tile.early (t : Tile) : Nat := field t.ckctl 16 13

/-- Lines become dirty (R414). -/
def Tile.markDirty (t : Tile) (lines : List Nat) : Tile :=
  { t with dirty := lines.foldl (fun l x => insertNat x l) t.dirty }

/-- Bytes are written at the scratchpad in focus: the lines become dirty, buffered lines of the tile's own
stores are invalidated (R109), and monitored words wake their waiters. -/
def State.writeOwn (s : State) (cells : List Host.Cell) (ownStore : Bool) : State :=
  let lines := cells.foldl (fun l c => insertNat (c.1 / 256) l) []
  let s := { s with tile := { s.tile.markDirty lines with mem := s.tile.mem.writeCells cells } }
  let s := if ownStore then
      s.updCores (fun c => { c with ibuf := c.ibuf.filter (fun l => !(lines.contains l.1)) })
    else s
  wakeMonitors s.tile.monitors s

/-- A far-cache line of the tile that a store of the tile touches is invalidated (R163). -/
def Tile.farDrop (t : Tile) (sp : Space) (cells : List Host.Cell) : Tile :=
  let hit (space : Space) (base : Nat) : Bool := space == sp && cells.any (fun c => c.1 / 256 * 256 == base)
  { t with far := t.far.filter (fun l => !(hit l.space l.base)),
           fills := t.fills.map (fun f => (f.1, f.2.1, f.2.2.1, f.2.2.2 && !(hit f.2.1 f.2.2.1))) }

/-- The far cache is emptied (R164); no fill in flight is installed. -/
def Tile.farEmpty (t : Tile) : Tile :=
  { t with far := [], fills := t.fills.map (fun f => (f.1, f.2.1, f.2.2.1, false)) }

/-- A local access of the core in focus takes its place in the tile-local order (R166): it stalls against
footprints (R171) and traps as a race (R175) before it is performed. -/
def localAccess (va a n : Nat) (write checked : Bool) (s : State) (k : State → Issue) : Issue :=
  if s.footprintStall va n write || !s.detRoom then .wait s
  else
    let st := s.stamp write
    let lines := linesOf a n
    if checked && st.trapping && lines.any (fun l => s.tile.races st l) then .trap 9 (BitVec.ofNat 64 va) s
    else
      let s := lines.foldl (fun s l => s.touch (srcCore s.coreNo) l write) s
      k (if checked then
          { s with tile := lines.foldl (fun t l => t.noteLine st l) s.tile, core := s.core.tickAccess s.me none }
        else s)

/-- The header of a request of the core in focus. -/
def State.req (s : State) (cls : PostClass) (seq : W32) (va : Nat) (st : Option RaceStamp) : Req :=
  { src := s.me, jt := s.tile.jt, job := s.tile.job.getD 0, cls := cls, fetch := s.wafer.nextId, seq := seq,
    va := BitVec.ofNat 64 va, stamp := st, replay := s.tile.replay.isSome || s.tile.flagged }

/-- OSEQ advances for a packet (R426). -/
def Core.nextOseq (c : Core) : Core := { c with post := { c.post with oseq := c.post.oseq + 1 } }

/-- A posted store of cells to another place: counted in its class, the tile's far-cache lines of it
invalidated, and sent on the main line, a packet for each 128-byte half (R149, R152, R163, R167, R481); `listed`: a flow may take
it (R374). The caller has found room in the count. -/
def State.postStore (s : State) (sp : Space) (cells : List Host.Cell) (va : Nat) (listed : Bool := true) : State :=
  let cls := sp.cls
  let a := (cells.head?.map (·.1)).getD 0
  let checked := match sp with
    | .spad _ => true
    | _ => false
  let toTile := match sp with
    | .spad l => l
    | _ => 0
  let st := s.stamp true
  let core := (s.core.nextOseq.countUp cls)
  let first := cells.filter (fun c => c.1 / 128 == a / 128)
  let rest := cells.filter (fun c => c.1 / 128 != a / 128)
  let core := if rest.isEmpty then core
    else { core with post := { core.post with halves := core.post.halves ++ [core.post.oseq] } }
  let r := { s.req cls core.post.oseq va (if checked then some st else none) with listed := listed }
  let s := { s with core := if checked then core.tickAccess s.me (some (cls, toTile)) else core,
                    tile := s.tile.farDrop sp cells }
  let send (s : State) (half : Option Bool) (l : List Host.Cell) : State :=
    s.inject .main (Place.dest { space := sp, a := a }) (.store { r with half := half } sp l)
  if rest.isEmpty then send s none first else send (send s (some false) first) (some true) rest

end Sys2Proof.Machine
end

