-- ==== Sys2Proof/Machine/Scalar.lean ====
section
/-!
DEFINITION. Scalar arithmetic and control flow (04_scalar.md): the ALU, immediates, branches, jumps, register windows and
coupling.
-/
namespace Sys2Proof.Machine

/-- The word of an instruction, zero-extended (R71). -/
def wordOf (i : Instr) : Word :=
  match encode i with
  | some (_, w) => BitVec.ofNat 64 w
  | none => 0

/-! ### Shared forms -/

/-- d := f s1 s2 (R111). -/
def alu2 (f : Word → Word → Word) (d a b : BitVec 5) (s : State) : Result :=
  (s.setReg d (f (s.reg a) (s.reg b))).next4.result

/-- d := f s1 (R111, unary). -/
def alu1 (f : Word → Word) (d a : BitVec 5) (s : State) : Result := (s.setReg d (f (s.reg a))).next4.result

/-- d := f s1 i (R113 to R115). -/
def aluI (f : Word → Word → Word) (d a : BitVec 5) (i : Word) (s : State) : Result :=
  (s.setReg d (f (s.reg a) i)).next4.result

/-- s2[5:0], the amount of a shift (R111). -/
def shiftAmount (b : Word) : Nat := field b 0 6

def shiftLeft (a b : Word) : Word := a <<< shiftAmount b
def shiftRight (a b : Word) : Word := a >>> shiftAmount b
def shiftRightSigned (a b : Word) : Word := a.sshiftRight (shiftAmount b)
def rotateLeft (a b : Word) : Word := a.rotateLeft (shiftAmount b)
def lessSigned (a b : Word) : Word := bit64 (a.slt b)
def lessUnsigned (a b : Word) : Word := bit64 (a.ult b)
def minSigned (a b : Word) : Word := if b.slt a then b else a
def maxSigned (a b : Word) : Word := if a.slt b then b else a
def minUnsigned (a b : Word) : Word := if b.ult a then b else a
def maxUnsigned (a b : Word) : Word := if a.ult b then b else a

/-- Bits [127:64] of a signed product (R111). -/
def mulHighSigned (a b : Word) : Word := (BitVec.ofInt 128 (a.toInt * b.toInt)).extractLsb' 64 64

/-- Bits [127:64] of an unsigned product (R111). -/
def mulHighUnsigned (a b : Word) : Word := (BitVec.ofNat 128 (a.toNat * b.toNat)).extractLsb' 64 64

/-- Signed quotient towards zero, with the borderline cases of R112. -/
def divSigned (a b : Word) : Word := if b = 0 then BitVec.allOnes 64 else a.sdiv b

/-- Unsigned quotient, with the borderline case of R112. -/
def divUnsigned (a b : Word) : Word := if b = 0 then BitVec.allOnes 64 else a / b

/-- Signed remainder with the sign of s1, with the borderline cases of R112. -/
def remSigned (a b : Word) : Word := if b = 0 then a else a.srem b

/-- Unsigned remainder, with the borderline case of R112. -/
def remUnsigned (a b : Word) : Word := if b = 0 then a else a % b

/-- Leading zero bits, 0 to 64 (R111). -/
def leadingZeros (a : Word) : Word := if a = 0 then 64 else BitVec.ofNat 64 (63 - a.toNat.log2)

/-- Trailing zeros of a number, at most n. -/
def ctzNat : Nat → Nat → Nat
  | 0, _ => 0
  | n + 1, x => if x % 2 = 1 then 0 else 1 + ctzNat n (x / 2)

/-- One bits among the lowest n of a number. -/
def popcNat : Nat → Nat → Nat
  | 0, _ => 0
  | n + 1, x => x % 2 + popcNat n (x / 2)

/-- Trailing zero bits, 0 to 64 (R111). -/
def trailingZeros (a : Word) : Word := BitVec.ofNat 64 (ctzNat 64 a.toNat)

/-- One bits, 0 to 64 (R111). -/
def oneBits (a : Word) : Word := BitVec.ofNat 64 (popcNat 64 a.toNat)

/-! ### The ALU (R111, R112) -/

def execAdd (d a b : BitVec 5) (s : State) : Result := alu2 (fun a b => a + b) d a b s
def execSub (d a b : BitVec 5) (s : State) : Result := alu2 (fun a b => a - b) d a b s
def execAnd (d a b : BitVec 5) (s : State) : Result := alu2 (fun a b => a &&& b) d a b s
def execAndn (d a b : BitVec 5) (s : State) : Result := alu2 (fun a b => a &&& ~~~b) d a b s
def execOr (d a b : BitVec 5) (s : State) : Result := alu2 (fun a b => a ||| b) d a b s
def execXor (d a b : BitVec 5) (s : State) : Result := alu2 (fun a b => a ^^^ b) d a b s
def execSll (d a b : BitVec 5) (s : State) : Result := alu2 shiftLeft d a b s
def execSrl (d a b : BitVec 5) (s : State) : Result := alu2 shiftRight d a b s
def execSra (d a b : BitVec 5) (s : State) : Result := alu2 shiftRightSigned d a b s
def execRol (d a b : BitVec 5) (s : State) : Result := alu2 rotateLeft d a b s
def execSlt (d a b : BitVec 5) (s : State) : Result := alu2 lessSigned d a b s
def execSltn (d a b : BitVec 5) (s : State) : Result := alu2 lessUnsigned d a b s
def execMin (d a b : BitVec 5) (s : State) : Result := alu2 minSigned d a b s
def execMax (d a b : BitVec 5) (s : State) : Result := alu2 maxSigned d a b s
def execMinn (d a b : BitVec 5) (s : State) : Result := alu2 minUnsigned d a b s
def execMaxn (d a b : BitVec 5) (s : State) : Result := alu2 maxUnsigned d a b s
def execMul (d a b : BitVec 5) (s : State) : Result := alu2 (fun a b => a * b) d a b s
def execMulh (d a b : BitVec 5) (s : State) : Result := alu2 mulHighSigned d a b s
def execMulhn (d a b : BitVec 5) (s : State) : Result := alu2 mulHighUnsigned d a b s
def execDiv (d a b : BitVec 5) (s : State) : Result := alu2 divSigned d a b s
def execDivn (d a b : BitVec 5) (s : State) : Result := alu2 divUnsigned d a b s
def execRem (d a b : BitVec 5) (s : State) : Result := alu2 remSigned d a b s
def execRemn (d a b : BitVec 5) (s : State) : Result := alu2 remUnsigned d a b s
def execClz (d a : BitVec 5) (s : State) : Result := alu1 leadingZeros d a s
def execCtz (d a : BitVec 5) (s : State) : Result := alu1 trailingZeros d a s
def execPopc (d a : BitVec 5) (s : State) : Result := alu1 oneBits d a s
def execSextB (d a : BitVec 5) (s : State) : Result := alu1 (fun a => sext64 (a.setWidth 8)) d a s
def execSextH (d a : BitVec 5) (s : State) : Result := alu1 (fun a => sext64 (a.setWidth 16)) d a s
def execSextW (d a : BitVec 5) (s : State) : Result := alu1 (fun a => sext64 (a.setWidth 32)) d a s
def execZextB (d a : BitVec 5) (s : State) : Result := alu1 (fun a => zext64 (a.setWidth 8)) d a s
def execZextH (d a : BitVec 5) (s : State) : Result := alu1 (fun a => zext64 (a.setWidth 16)) d a s
def execZextW (d a : BitVec 5) (s : State) : Result := alu1 (fun a => zext64 (a.setWidth 32)) d a s

/-! ### Immediates (R113 to R116) -/

def execAddi (d a : BitVec 5) (i : BitVec 15) (s : State) : Result := aluI (fun a i => a + i) d a (sext64 i) s
def execAndi (d a : BitVec 5) (i : BitVec 15) (s : State) : Result := aluI (fun a i => a &&& i) d a (sext64 i) s
def execOri (d a : BitVec 5) (i : BitVec 15) (s : State) : Result := aluI (fun a i => a ||| i) d a (sext64 i) s
def execXori (d a : BitVec 5) (i : BitVec 15) (s : State) : Result := aluI (fun a i => a ^^^ i) d a (sext64 i) s
def execSlli (d a : BitVec 5) (n : BitVec 6) (s : State) : Result := aluI shiftLeft d a (zext64 n) s
def execSrli (d a : BitVec 5) (n : BitVec 6) (s : State) : Result := aluI shiftRight d a (zext64 n) s
def execSrai (d a : BitVec 5) (n : BitVec 6) (s : State) : Result := aluI shiftRightSigned d a (zext64 n) s
def execRoli (d a : BitVec 5) (n : BitVec 6) (s : State) : Result := aluI rotateLeft d a (zext64 n) s
def execSlti (d a : BitVec 5) (i : BitVec 14) (s : State) : Result := aluI lessSigned d a (sext64 i) s
def execSltni (d a : BitVec 5) (i : BitVec 14) (s : State) : Result := aluI lessUnsigned d a (sext64 i) s

/-- sext(imm20 << 12, 32) (R116). -/
def upper (i : BitVec 20) : Word := sext64 ((i.setWidth 32) <<< 12)

def execLih (d : BitVec 5) (i : BitVec 20) (s : State) : Result := (s.setReg d (upper i)).next4.result
def execLipc (d : BitVec 5) (i : BitVec 20) (s : State) : Result := (s.setReg d (s.core.pc + upper i)).next4.result

/-! ### Branches and jumps (R117 to R119), and what they do to a coupling (R134) -/

/-- The core's leader resolved the same branch to another pc (R134). -/
def State.leaderDiffers (s : State) (target : Word) : Bool :=
  match s.core.coupling with
  | .following n =>
    match (s.coreAt n).lastJump with
    | some (a, t) => a == s.core.pc && t != target
    | none => false
  | _ => false

/-- Control goes on at an address; a follower whose leader went elsewhere is no longer coupled. -/
def State.jumpTo (s : State) (target : Word) : State :=
  { s with core := { s.core with
      lastJump := some (s.core.pc, target),
      coupling := if s.leaderDiffers target then .none else s.core.coupling,
      pc := target } }

/-- A conditional branch (R117). -/
def branch (cond : Word → Word → Bool) (a b : BitVec 5) (i : BitVec 12) (s : State) : Result :=
  let target := if cond (s.reg a) (s.reg b) then s.core.pc + sext64 i * 2 else s.core.pc + 4
  (Issue.done (s.jumpTo target)).result

def execBeq (a b : BitVec 5) (i : BitVec 12) (s : State) : Result := branch (fun a b => a == b) a b i s
def execBne (a b : BitVec 5) (i : BitVec 12) (s : State) : Result := branch (fun a b => a != b) a b i s
def execBlt (a b : BitVec 5) (i : BitVec 12) (s : State) : Result := branch (fun a b => a.slt b) a b i s
def execBge (a b : BitVec 5) (i : BitVec 12) (s : State) : Result := branch (fun a b => !(a.slt b)) a b i s
def execBltn (a b : BitVec 5) (i : BitVec 12) (s : State) : Result := branch (fun a b => a.ult b) a b i s
def execBgen (a b : BitVec 5) (i : BitVec 12) (s : State) : Result := branch (fun a b => !(a.ult b)) a b i s

def execJmp (i : BitVec 25) (s : State) : Result := (Issue.done (s.jumpTo (s.core.pc + sext64 i * 2))).result

def execJr (a : BitVec 5) (s : State) : Result :=
  let target := s.reg a
  (if target.getLsbD 0 then Issue.trap 3 target s else .done (s.jumpTo target)).result

/-! ### Register windows (R120 to R125) -/

/-- LIM: WSLIM, but not past the scratchpad (R121). -/
def Core.windowLimit (c : Core) : Nat := min c.win.wslim.toNat spadSize

/-- The 16 registers of physical frame f, a0 first (R90). -/
def Core.frame (c : Core) (f : BitVec 4) : List Word :=
  (List.range 16).map (fun i => vget c.regs.frames (16 * f.toNat + i) 0)

/-- Writes the 16 registers of physical frame f (R90). -/
def Core.setFrame (c : Core) (f : BitVec 4) (l : List Word) : Core :=
  let fr := (List.range 16).foldl (fun v i => vset v (16 * f.toNat + i) (l.getD i 0)) c.regs.frames
  { c with regs := { c.regs with frames := fr } }

/-- The 128 bytes of a spilled frame (R90). -/
def frameBytes (l : List Word) : List Byte := l.flatMap (fun w => natBytes w.toNat 8)

/-- The registers of a spilled frame at an address (R90). -/
def readFrame (m : Memory) (a : Nat) : List Word :=
  (List.range 16).map (fun i => BitVec.ofNat 64 (m.readNat (a + 8 * i) 8))

/-- Makes room for one more activation: spills the oldest resident frame when all are resident (R122, R125). -/
def spillIfFull (s : State) (k : State → Issue) : Issue :=
  let c := s.core
  if c.win.res = 15 then
    let a := c.win.wsp.toNat
    if c.windowLimit < a + 128 then .trap 7 c.win.wsp s
    else
      localAccess a a 128 true false s fun s =>
        let c := s.core
        let s := s.writeOwn (cellsAt a (frameBytes (c.frame (c.win.cwp - 14)))) true
        let w := s.core.win
        k { s with core := { s.core with
          win := { w with wsp := w.wsp + 128, res := w.res - 1, spills := w.spills + 1 } } }
  else k s

/-- The window shift of a call (R122): the frame above becomes current. -/
def Core.windowUp (c : Core) : Core :=
  { c with win := { c.win with cwp := c.win.cwp + 1, res := c.win.res + 1, depth := c.win.depth + 1 } }

/-- A call to a target (R122): a spill if needed, the return address in o7, the window shift. -/
def callTo (target : Word) (s : State) : Issue :=
  spillIfFull s fun s =>
    let s := (s.setReg 31 (s.core.pc + 4)).jumpTo target
    .done { s with core := s.core.windowUp }

/-- Trap window: call, callr, ret, exit and yield trap as illegal (R361). -/
def outsideTrapWindow (i : Instr) (s : State) (k : Issue) : Issue :=
  if s.core.inTrap then .trap 1 (wordOf i) s else k

def execCall (i : BitVec 25) (s : State) : Result :=
  (outsideTrapWindow (.call i) s (callTo (s.core.pc + sext64 i * 2) s)).result

def execCallr (a : BitVec 5) (s : State) : Result :=
  let target := s.reg a
  (outsideTrapWindow (.callr a) s (if target.getLsbD 0 then .trap 3 target s else callTo target s)).result

/-! ### nop, trap, rft, halt, wfi and coupling (R128 to R134, R361) -/

def execNop (s : State) : Result := s.next4.result

def execTrap (c : BitVec 10) (s : State) : Result := (Issue.trap 8 (zext64 c) s).result

/-- rft (R361): privileged at J, illegal outside a handler. -/
def execRft (s : State) : Result :=
  (if s.core.level = .J then Issue.trap 2 (wordOf .rft) s
   else if !s.core.inTrap then .trap 1 (wordOf .rft) s
   else .done (returnFromTrap s)).result

/-- halt (R131, R364): the core stops after the instruction, and the dispatcher reports it, once: a replay repeats no
report. -/
def execHalt (s : State) : Result :=
  let s := (s.skip 4).uncouple
  let s := { s with core := { s.core with run := .halted } }
  let n := Notice.halted (s.tile.job.getD 0) s.tile.tile s.coreNo
  (Issue.done (if s.booting || s.tile.replay.isSome then s
    else { s with wafer := { s.wafer with notices := s.wafer.notices ++ [n] } })).result

/-- wfi (R132): waits for the wake latch and clears it. -/
def execWfi (s : State) : Result :=
  (if s.core.wake then
    let s := s.skip 4
    Issue.done { s with core := { s.core with wake := false, inWfi := false } }
   else
    let s := s.uncouple
    .wait { s with core := { s.core with inWfi := true } }).result

def execCouple (n : BitVec 3) (s : State) : Result :=
  let s := s.skip 4
  (Issue.done { s with core := { s.core with coupling := .seeking n } }).result

def execUncouple (s : State) : Result :=
  let s := s.skip 4
  (Issue.done { s with core := { s.core with coupling := .none } }).result

/-- A word or halfword that is no instruction (R71, R84, R87): it traps as illegal, TVAL holding it. -/
def execIllegalInstruction (w : W32) (s : State) : Result := (Issue.trap 1 (zext64 w) s).result

end Sys2Proof.Machine
end

