-- ==== Sys2Proof/Machine/LoadStore.lean ====
section
/-!
DEFINITION. Loads, stores, prefetch, full/empty words, puts, fences and the far cache (05_memory.md, R148 to R164).
-/
namespace Sys2Proof.Machine

/-! ### Blocking accesses (R148, R157, R367) -/

/-- The trap that an answer asks for: a race (R175), an unreachable peer (R474), or the cause that it names (R437). -/
def Reply.cause : Reply → Option Nat
  | .data _ _ => none
  | .race => some 9
  | .unreachable => some 4
  | .fault c => some c

/-- The bytes of an answer. -/
def Fetch.bytes (f : Fetch) : List Byte :=
  match f.reply with
  | some (.data b _) => b
  | _ => []

/-- What an answer says is ordered before it (R169). -/
def Fetch.known (f : Fetch) : List AccessId :=
  match f.reply with
  | some (.data _ k) => k
  | _ => []

/-- The first answer that asks for a trap: its cause and address. -/
def failedFetch (fs : List Fetch) : Option (Nat × Nat) :=
  fs.findSome? (fun f => (f.reply.bind Reply.cause).map (fun c => (c, f.va)))

/-- The answers of abandoned requests, as answers of the instruction that issues again (R367). -/
def answersOf (l : List Abandoned) : List Fetch :=
  l.map (fun a => { id := a.fetch, va := a.va, lane := a.lane, reply := a.answer.join })

/-- An instruction that may block: it issues, or it waits for the answers that it asked for, or it completes with
them. An abandoned access first waits for the answer of its cancel; what was performed completes, and what was
dropped is issued anew (R367). -/
def blocked (s : State) (issue : State → Issue) (complete : List Fetch → State → Issue) : Issue :=
  let finish (fs : List Fetch) (s : State) : Issue :=
    match failedFetch fs with
    | some (c, va) => .trap c (BitVec.ofNat 64 va) s
    | none => complete fs { s with core := s.core.learn (fs.flatMap Fetch.known) }
  let ab := s.core.abandoned
  if ab.any (fun a => a.answer.isNone) then .wait s
  else if !ab.isEmpty then
    let fs := s.core.pend ++ answersOf ab
    let s := { s with core := { s.core with abandoned := [], pend := [] } }
    if ab.all (fun a => a.answer.join.isSome) then finish fs s else issue s
  else
    match s.core.pend with
    | [] => issue s
    | fs =>
      if fs.all (fun f => f.reply.isSome) then finish fs { s with core := { s.core with pend := [] } } else .wait s

/-- One request more that the instruction waits for, under the next packet number; a request that leaves the tile
names what a cancel needs (R367). -/
def State.await (s : State) (va lane : Nat) (kind : BlockKind) (place : Option Place) (tag : W32)
    (ops : Word × Word := (0, 0)) : State :=
  let f : Fetch := { id := s.wafer.nextId, va := va, lane := lane, kind := kind, place := place, tag := tag, ops := ops }
  { s with core := { s.core with pend := s.core.pend ++ [f] } }

/-- The tag of a blocking request advances (R367). -/
def Core.nextTag (c : Core) : Core := { c with blockTag := c.blockTag + 1 }

/-! ### The far cache (R163, R164) -/

/-- The bytes of a line in order. -/
def lineBytes (d : LineBits) : List Byte := (List.range 256).map (fun i => d.extractLsb' (8 * i) 8)

/-- A line of bytes. -/
def bytesLine (l : List Byte) : LineBits := BitVec.ofNat 2048 (leNat l)

/-- A place whose lines the far cache holds (R163). -/
def Space.cached : Space → Bool
  | .hbm => true
  | .host _ => true
  | .peer _ => true
  | _ => false

/-- The far-cache line that holds an address. -/
def Tile.farLine (t : Tile) (sp : Space) (a : Nat) : Option FarLine :=
  t.far.find? (fun l => l.space == sp && l.base == a / 256 * 256)

/-- A use of a line makes it the most recently used. -/
def Tile.farUse (t : Tile) (l : FarLine) : Tile := { t with far := l :: t.far.filter (· != l) }

/-- Keeps the first eight lines of each set: the least recently used of a full set goes (R163). -/
def keepWays (set : Nat) : Nat → List FarLine → List FarLine
  | _, [] => []
  | n, l :: r =>
    if l.base / 256 % 128 = set then (if n = 0 then keepWays set 0 r else l :: keepWays set (n - 1) r)
    else l :: keepWays set n r

/-- Installs a filled line (R163). -/
def Tile.farInstall (t : Tile) (l : FarLine) : Tile :=
  { t with far := keepWays (l.base / 256 % 128) 8 (l :: t.far.filter (fun k => !(k.space == l.space && k.base == l.base))) }

/-! ### Loads (R148) -/

/-- Asks for the bytes of an access outside the own scratchpad, checked for races or not (R174); the answer completes
the instruction. -/
def State.requestLoad (s : State) (p : Place) (va n lane : Nat) (checks : Bool) (kind : BlockKind := .load)
    (operand : Word := 0) : State :=
  let s := { s with core := s.core.nextTag }
  let checked := checks && match p.space with
    | .spad _ => true
    | _ => false
  let r := s.req p.space.cls s.core.blockTag va (if checked then some (s.stamp false) else none)
  let msg : Msg := match p.space with
    | .device => .device r p.a none
    | .window l => .window r l p.a n none
    | .spad _ => .load r p.space ((List.range n).map (· + p.a))
    | sp => .line r sp (p.a / 256 * 256)
  let s := s.await va lane (if p.space = .device then .device else kind) (some p) s.core.blockTag (operand, 0)
  let s := if checked then { s with core := s.core.tickAccess s.me none } else s
  s.inject .relief p.dest msg

/-- A load of n bytes, n at most 8 (R148): from the own scratchpad at once, from the far cache when it holds the
line, and otherwise by a request whose answer is waited for. -/
def loadFrom (va n : Nat) (s : State) (k : Nat → State → Issue) : Issue :=
  access { r := true } va n s fun t s =>
    match t with
    | .own a =>
      localAccess va a n false true s fun s =>
        k (s.tile.mem.readNat a n) { s with core := s.core.learn (s.tile.counted a n) }
    | .far p =>
      if p.space = .device && n ≠ 8 then .trap 5 (BitVec.ofNat 64 va) s
      else if s.footprintStall va n false then .wait s
      else
        match (if p.space.cached then s.tile.farLine p.space p.a else none) with
        | some l => k (l.data.extractLsb' (8 * (p.a % 256)) (8 * n)).toNat { s with tile := s.tile.farUse l }
        | none => .wait (s.requestLoad p va n 0 true)

/-- The value that a single answer carries. -/
def answerNat (fs : List Fetch) : Nat :=
  match fs with
  | f :: _ => leNat f.bytes
  | [] => 0

/-- A load instruction (R148): the address, the wait of W, the access, and the extended value into d. -/
def load (size : Nat) (ext : Nat → Word) (d a : BitVec 5) (w : BitVec 2) (i : BitVec 10) (s : State) : Result :=
  let va := (s.reg a + sext64 i * BitVec.ofNat 64 size).toNat
  (blocked s
    (fun s => waitW w s fun s => loadFrom va size s fun v s => .done ((s.setReg d (ext v)).skip 4))
    (fun fs s => .done ((s.setReg d (ext (answerNat fs))).skip 4))).result

/-- sext(v, n) of a loaded value. -/
def signedOf (n v : Nat) : Word := sext64 (BitVec.ofNat n v)

/-- zext(v, n) of a loaded value. -/
def unsignedOf (n v : Nat) : Word := zext64 (BitVec.ofNat n v)

def execLdB (d a : BitVec 5) (w : BitVec 2) (i : BitVec 10) (s : State) : Result := load 1 (signedOf 8) d a w i s
def execLdH (d a : BitVec 5) (w : BitVec 2) (i : BitVec 10) (s : State) : Result := load 2 (signedOf 16) d a w i s
def execLdW (d a : BitVec 5) (w : BitVec 2) (i : BitVec 10) (s : State) : Result := load 4 (signedOf 32) d a w i s
def execLdD (d a : BitVec 5) (w : BitVec 2) (i : BitVec 10) (s : State) : Result := load 8 (unsignedOf 64) d a w i s
def execLdBn (d a : BitVec 5) (w : BitVec 2) (i : BitVec 10) (s : State) : Result := load 1 (unsignedOf 8) d a w i s
def execLdHn (d a : BitVec 5) (w : BitVec 2) (i : BitVec 10) (s : State) : Result := load 2 (unsignedOf 16) d a w i s
def execLdWn (d a : BitVec 5) (w : BitVec 2) (i : BitVec 10) (s : State) : Result := load 4 (unsignedOf 32) d a w i s

/-- Starts the fill of the far-cache line of an address that translates with R to a cached place (R151). -/
def State.prefetch (s : State) (va : Nat) : State :=
  match s.translateNow { r := true } va with
  | .ok (.far p) =>
    if p.space.cached && (s.tile.farLine p.space p.a).isNone then
      s.inject .relief p.dest (.line (s.req p.space.cls 0 va none) p.space (p.a / 256 * 256))
    else s
  | _ => s

/-- The wait of the W field of a prf (R151, R154): it never traps, and reports no failed access. -/
def waitQuiet (cls : List PostClass) (s : State) (k : State → Issue) : Issue :=
  if cls.isEmpty then k s
  else if s.core.engineSent && cls.all (fun c => s.core.post.count c == 0) then k s
  else .wait s

def execPrf (a : BitVec 5) (w : BitVec 2) (i : BitVec 10) (s : State) : Result :=
  let va := (s.reg a + sext64 i * 256).toNat / 256 * 256
  (waitQuiet (wClass w) s fun s => (s.prefetch va).next4).result

/-! ### Stores (R149) -/

/-- Asks for a store to a device register, which blocks until it is performed (R149). -/
def State.requestDevice (s : State) (p : Place) (va : Nat) (v : Word) : State :=
  let s := { s with core := s.core.nextTag }
  let r := s.req .n s.core.blockTag va none
  (s.await va 0 .device (some p) s.core.blockTag (v, 0)).inject .main p.dest (.device r p.a (some v))

/-- A store of n bytes, n at most 8 (R149): performed at the own scratchpad, or posted in its class. -/
def storeTo (va n : Nat) (v : Word) (s : State) (k : State → Issue) : Issue :=
  access { w := true } va n s fun t s =>
    let bytes := natBytes v.toNat n
    match t with
    | .own a => localAccess va a n true true s fun s => k (s.writeOwn (cellsAt a bytes) true)
    | .far p =>
      if p.space = .device then
        if n ≠ 8 then .trap 5 (BitVec.ofNat 64 va) s else .wait (s.requestDevice p va v)
      else if s.footprintStall va n true || !s.core.countRoom p.space.cls then .wait s
      else k (s.postStore p.space (cellsAt p.a bytes) va)

/-- A store instruction (R149). -/
def store (size : Nat) (d a : BitVec 5) (w : BitVec 2) (i : BitVec 10) (s : State) : Result :=
  let va := (s.reg a + sext64 i * BitVec.ofNat 64 size).toNat
  (blocked s (fun s => waitW w s fun s => storeTo va size (s.reg d) s State.next4) (fun _ s => s.next4)).result

def execStB (d a : BitVec 5) (w : BitVec 2) (i : BitVec 10) (s : State) : Result := store 1 d a w i s
def execStH (d a : BitVec 5) (w : BitVec 2) (i : BitVec 10) (s : State) : Result := store 2 d a w i s
def execStW (d a : BitVec 5) (w : BitVec 2) (i : BitVec 10) (s : State) : Result := store 4 d a w i s
def execStD (d a : BitVec 5) (w : BitVec 2) (i : BitVec 10) (s : State) : Result := store 8 d a w i s

/-! ### Full/empty words (R155 to R158, R169) -/

/-- The word's tag is full. -/
def Tile.isFull (t : Tile) (a : Nat) : Bool := t.full.contains a

/-- Sets the tag of a word. -/
def Tile.setTag (t : Tile) (a : Nat) (full : Bool) : Tile :=
  { t.markDirty [a / 256] with full := if full then insertNat a t.full else removeNat a t.full }

/-- What the last setter of a word's tag handed on (R169). -/
def Tile.knownAt (t : Tile) (a : Nat) : List AccessId :=
  match t.tagKnown.find? (fun p => p.1 == a) with
  | some p => p.2
  | none => []

/-- A tag is set by an access that hands on what it knows (R169). -/
def Tile.tagBy (t : Tile) (a : Nat) (full : Bool) (k : List AccessId) : Tile :=
  { t.setTag a full with tagKnown := (a, k) :: t.tagKnown.filter (fun p => p.1 != a) }

/-- The condition that a full/empty instruction waits for (R156). -/
def Tile.tagReady (t : Tile) (kind : BlockKind) (a : Nat) : Bool :=
  match kind with
  | .ldf => t.isFull a
  | .ldfe => t.isFull a
  | .ste => !t.isFull a
  | _ => true

/-- A full/empty instruction is performed at its word (R156): the value that it answers and the new state; only a store
of the tile's own reaches the instruction buffers (R109). -/
def performTag (kind : BlockKind) (a : Nat) (data : W32) (k : List AccessId) (own : Bool) (s : State) : Nat × State :=
  let w := s.tile.mem.readNat a 4
  match kind with
  | .ldfe => (w, { s with tile := s.tile.tagBy a false k })
  | .ste => (0, ({ s with tile := s.tile.tagBy a true k }).writeOwn (cellsAt a (natBytes data.toNat 4)) own)
  | .ldtag => (if s.tile.isFull a then 1 else 0, s)
  | .settag => (0, { s with tile := s.tile.tagBy a (data.getLsbD 0) k })
  | _ => (w, s)

/-- The knowledge that a request hands on. -/
def Req.known (r : Req) : List AccessId :=
  match r.stamp with
  | some st => st.known
  | none => []

/-- The oldest waiter of a word whose condition holds (R157). -/
def Tile.nextWaiter (t : Tile) (a : Nat) : Option Waiter :=
  t.waiters.find? (fun w => w.a == a && t.tagReady w.kind a)

/-- A mark takes in a sequence: it stays at the highest (R184). -/
def raiseMark (m : Option W32) (seq : W32) : Option W32 :=
  match m with
  | some k => if atMost seq k then some k else some seq
  | none => some seq

/-- A sequence stands at or below a mark (R184, R427). -/
def underMark (m : Option W32) (seq : W32) : Bool :=
  match m with
  | some k => atMost seq k
  | none => false

/-- The OSEQ mark takes in a request (R427). Of a line that travels as two packets it does so with the second here, or
with the next request of the source, which follows what has not come here (R167, R481). -/
def Mark.takeOseq (m : Mark) (r : Req) : Mark :=
  match r.half, m.half with
  | none, _ => { m with oseq := raiseMark m.oseq r.seq, half := none }
  | some b, none => { m with half := some (r.seq, b) }
  | some b, some (q, c) =>
    if q = r.seq then (if b = c then m else { m with oseq := raiseMark m.oseq q, half := none })
    else { m with oseq := raiseMark m.oseq q, half := some (r.seq, b) }

/-- The packet of a line has been performed here (R481). -/
def Mark.tookHalf (m : Mark) (r : Req) : Bool := r.half.any (fun b => m.half == some (r.seq, b))

/-- The mark of a source; a source without an entry has none (R184). -/
def findMark (l : List Mark) (src : CoreRef) : Option Mark := l.find? (fun m => m.src == src)

/-- A source has an entry, or there is room for one (R184). -/
def markRoom (l : List Mark) (src : CoreRef) : Bool := (findMark l src).isSome || decide (l.length < 2048)

/-- The mark of a source is changed, or made. -/
def putMark (l : List Mark) (src : CoreRef) (f : Mark → Mark) : List Mark :=
  match findMark l src with
  | some _ => l.map (fun k => if k.src == src then f k else k)
  | none => l ++ [f { src := src }]

/-- A full/empty request changes the state, so its answer is kept with the mark (R427). -/
def BlockKind.changes : BlockKind → Bool
  | .ldfe => true
  | .ste => true
  | .settag => true
  | _ => false

/-- The answer of a remote full/empty request is kept: of one that changes state with the source's mark (R427). -/
def Tile.keepResult (t : Tile) (kind : BlockKind) (r : Req) (rep : Reply) : Tile :=
  if kind.changes then
    { t with marks := putMark t.marks r.src (fun m => { m with oseq := raiseMark m.oseq r.seq, result := some (r.seq, rep) }) }
  else t.keepAnswer r rep

/-- Serves the waiters of a word, oldest first, for as long as conditions hold (R157). -/
def serveWaiters (a : Nat) : Nat → State → State
  | 0, s => s
  | n + 1, s =>
    match s.tile.nextWaiter a with
    | none => s
    | some w =>
      let s := { s with tile := { s.tile with waiters := s.tile.waiters.erase w } }
      let before := s.tile.knownAt a
      let r := performTag w.kind a w.data w.req.known (!w.remote) s
      let rep : Reply := .data (natBytes r.1 8) before
      let s := if w.remote then { r.2 with tile := r.2.tile.keepResult w.kind w.req rep } else r.2
      serveWaiters a n (s.answer w.req w.remote rep .reply)

/-- A change of a word's tag releases its waiters (R157). -/
def State.tagChanged (s : State) (a : Nat) : State := serveWaiters a s.tile.waiters.length s

/-- A full/empty access at the own scratchpad (R157): performed, or waiting in order of arrival. -/
def tagHere (kind : BlockKind) (va a : Nat) (data : W32) (s : State) (k : Nat → State → Issue) : Issue :=
  localAccess va a 4 (kind != .ldf && kind != .ldtag) false s fun s =>
    let known := s.publish s.tile.tile
    if s.tile.tagReady kind a then
      let s := { s with core := s.core.learn (s.tile.knownAt a) }
      let r := performTag kind a data known true s
      k r.1 (r.2.tagChanged a)
    else
      let req := s.req .n 0 va (some { s.stamp false with known := known })
      let s := s.await va 0 kind none 0
      .wait { s with
        tile := { s.tile with waiters := s.tile.waiters ++
          [{ a := a, kind := kind, data := data, req := req, remote := false }] },
        wafer := { s.wafer with nextId := s.wafer.nextId + 1 } }

/-- A full/empty access at another tile (R157): a request whose answer is waited for. -/
def State.requestTag (s : State) (kind : BlockKind) (l : TileNo) (va a : Nat) (data : W32) : State :=
  let s := { s with core := s.core.nextOseq }
  let r := s.req .n s.core.post.oseq va (some { s.stamp false with known := s.publish l })
  (s.await va 0 kind (some { space := .spad l, a := a }) s.core.post.oseq (zext64 data, 0)).inject .relief (.tile l)
    (.fullEmpty r kind l a data)

/-- What each full/empty instruction needs of its page (R140). -/
def BlockKind.need : BlockKind → Need
  | .ldf => { r := true }
  | .ldtag => { r := true }
  | .ldfe => { r := true, w := true }
  | _ => { w := true }

/-- A full/empty instruction that can block (R156, R157). -/
def fullEmpty (kind : BlockKind) (isLoad : Bool) (d a : BitVec 5) (w : BitVec 2) (i : BitVec 10) (s : State) : Result :=
  let va := (s.reg a + sext64 i * 4).toNat
  let finish (v : Nat) (s : State) : Issue :=
    .done ((if isLoad then s.setReg d (BitVec.ofNat 64 v) else s).skip 4)
  (blocked s
    (fun s => waitW w s fun s =>
      access kind.need va 4 s fun t s =>
        let data := (s.reg d).setWidth 32
        match t with
        | .own a => tagHere kind va a data s finish
        | .far p =>
          match p.space with
          | .spad l =>
            if s.footprintStall va 4 (kind != .ldf && kind != .ldtag) then .wait s
            else .wait (s.requestTag kind l va p.a data)
          | _ => .trap 5 (BitVec.ofNat 64 va) s)
    (fun fs s => finish (answerNat fs) s)).result

def execLdf (d a : BitVec 5) (w : BitVec 2) (i : BitVec 10) (s : State) : Result := fullEmpty .ldf true d a w i s
def execLdfe (d a : BitVec 5) (w : BitVec 2) (i : BitVec 10) (s : State) : Result := fullEmpty .ldfe true d a w i s
def execSte (d a : BitVec 5) (w : BitVec 2) (i : BitVec 10) (s : State) : Result := fullEmpty .ste false d a w i s
def execLdtag (d a : BitVec 5) (w : BitVec 2) (i : BitVec 10) (s : State) : Result := fullEmpty .ldtag true d a w i s
def execSettag (d a : BitVec 5) (w : BitVec 2) (i : BitVec 10) (s : State) : Result := fullEmpty .settag false d a w i s

/-- stf at its word: the word and a full tag (R156). -/
def performStf (a : Nat) (data : W32) (known : List AccessId) (ownStore : Bool) (s : State) : State :=
  let s := { s with tile := s.tile.tagBy a true known }
  (s.writeOwn (cellsAt a (natBytes data.toNat 4)) ownStore).tagChanged a

/-- stf (R156, R157): performed here, or posted and counted in PSTN. -/
def execStf (d a : BitVec 5) (w : BitVec 2) (i : BitVec 10) (s : State) : Result :=
  let va := (s.reg a + sext64 i * 4).toNat
  (waitW w s fun s =>
    access { w := true } va 4 s fun t s =>
      let data := (s.reg d).setWidth 32
      match t with
      | .own a =>
        localAccess va a 4 true false s fun s => (performStf a data (s.publish s.tile.tile) true s).next4
      | .far p =>
        match p.space with
        | .spad l =>
          if s.footprintStall va 4 true || !s.core.countRoom .n then .wait s
          else
            let s := { s with core := (s.core.nextOseq).countUp .n }
            let r := s.req .n s.core.post.oseq va (some { s.stamp true with known := s.publish l })
            (s.inject .main (.tile l) (.stf r l p.a data)).next4
        | _ => .trap 5 (BitVec.ofNat 64 va) s).result

/-! ### Puts (R159, R160) -/

/-- A put to a counter word hands on what it knows, beside what the puts before it have (R172). -/
def Tile.countBy (t : Tile) (a : Nat) (k : List AccessId) : Tile :=
  let old := match t.cntKnown.find? (fun p => p.1 == a) with
    | some p => p.2
    | none => []
  { t with cntKnown := (a, old ++ k.filter (fun x => !(old.contains x))) :: t.cntKnown.filter (fun p => p.1 != a) }

/-- The mark after a put's payload: the flag becomes full, or the counter word steps by one (R159). -/
def performMark (flag : Nat) (counter : Bool) (known : List AccessId) (ownStore : Bool) (s : State) : State :=
  if counter then
    let v := s.tile.mem.readNat flag 4 + 1
    let s := s.writeOwn (cellsAt flag (natBytes v 4)) ownStore
    { s with tile := s.tile.countBy flag known }
  else ({ s with tile := s.tile.tagBy flag true known }).tagChanged flag

/-- A put of n payload bytes (R159, R160): both addresses are checked before anything is sent. -/
def put (n : Nat) (bytes : List Byte) (counter : Bool) (a b : BitVec 5) (s : State) : Result :=
  let va := (s.reg a).toNat
  let vf := (s.reg b).toNat
  (access { w := true } va n s fun t s =>
    access { w := true } vf 4 s fun f s =>
      match t, f with
      | .own a, .own g =>
        if s.footprintStall vf 4 true then .wait s
        else
          localAccess va a n true true s fun s =>
            let s := s.writeOwn (cellsAt a bytes) true
            let s := s.touch (srcCore s.coreNo) (g / 256) true
            (performMark g counter (s.publish s.tile.tile) true s).next4
      | .far p, .far q =>
        match p.space, q.space with
        | .spad l, .spad m =>
          if l ≠ m then .trap 5 (BitVec.ofNat 64 vf) s
          else if s.footprintStall va n true || s.footprintStall vf 4 true || !s.core.countRoom .n then .wait s
          else
            let st := s.stamp true
            let s := { s with core := (s.core.nextOseq.countUp .n).tickAccess s.me (some (.n, l)) }
            let r := s.req .n s.core.post.oseq va (some { st with known := s.publish l })
            (s.inject .main (.tile l) (.put r l (cellsAt p.a bytes) q.a counter)).next4
        | _, _ => .trap 5 (BitVec.ofNat 64 vf) s
      | _, _ => .trap 5 (BitVec.ofNat 64 vf) s).result

/-- The 64 bytes of a vector register, whatever its tag (R159). -/
def vectorBytes (v : VReg) : List Byte := natBytes v.data.toNat 64

def execPutsF (d a b : BitVec 5) (s : State) : Result := put 8 (natBytes (s.reg d).toNat 8) false a b s
def execPutsC (d a b : BitVec 5) (s : State) : Result := put 8 (natBytes (s.reg d).toNat 8) true a b s
def execPutvF (d a b : BitVec 5) (s : State) : Result := put 64 (vectorBytes (s.core.vreg d)) false a b s
def execPutvC (d a b : BitVec 5) (s : State) : Result := put 64 (vectorBytes (s.core.vreg d)) true a b s

/-! ### Fences (R161, R162) -/

def execFence (s : State) : Result := (waitCounts [.n, .m, .x] s State.next4).result

def execRel (s : State) : Result := (waitCounts [.m, .x] s State.next4).result

def execAcq (s : State) : Result := ({ s with tile := s.tile.farEmpty }).next4.result

/-- fence.r (R162): the far-cache lines of the 4 KiB block of the target; never a trap. -/
def execFenceR (a : BitVec 5) (s : State) : Result :=
  (match s.translateNow {} (s.reg a).toNat with
    | .ok (.far p) =>
      let page (i : Nat) : Host.Cell := (p.a / 4096 * 4096 + 256 * i, 0)
      ({ s with tile := s.tile.farDrop p.space ((List.range 16).map page) }).next4
    | _ => s.next4).result

/-- fence.e (R162): every engine job of the core has completed; one that has, has performed its writes. -/
def execFenceE (s : State) : Result :=
  (if s.core.eng.cards.isEmpty && s.core.cpy.jobs.isEmpty then s.next4 else .wait s).result

end Sys2Proof.Machine
end

