-- ==== Sys2Proof/Machine/Windows.lean ====
section
/-!
DEFINITION. The return from an activation (04_scalar.md, R123): the fills of spilled frames, and ret.
-/
namespace Sys2Proof.Machine

/-- The window shift of a return (R123): the frame below becomes current. -/
def Core.windowDown (c : Core) : Core :=
  { c with win := { c.win with cwp := c.win.cwp - 1, res := c.win.res - 1, depth := c.win.depth - 1 } }

/-- The caller's frame becomes resident again with the registers that the window stack held (R123). -/
def Core.fillFrame (c : Core) (l : List Word) : Core :=
  let c := c.setFrame (c.win.cwp - 1) l
  { c with win := { c.win with wsp := c.win.wsp - 128, res := c.win.res + 1, fills := c.win.fills + 1 } }

/-- n returns, each with the next filled frame when only the current one is resident (R123). -/
def Core.leave : Nat → List (List Word) → Core → Core
  | 0, _, c => c
  | n + 1, fs, c =>
    if c.win.res = 1 then
      match fs with
      | f :: r => Core.leave n r (c.fillFrame f).windowDown
      | [] => c
    else Core.leave n fs c.windowDown

/-- Fills that n returns need: the frames that are not resident (R123). -/
def Core.fillsFor (c : Core) (n : Nat) : Nat := n - (c.win.res.toNat - 1)

/-- The places of spilled frames, from the top of the window stack down (R7, R123, R136, R140): each is an access that
needs R, and the first that fails traps. -/
def frameTargets : List Nat → State → (List (Nat × Target) → State → Issue) → Issue
  | [], s, k => k [] s
  | va :: r, s, k =>
    access { r := true } va 128 s fun t s =>
      match t with
      | .far ⟨.device, _⟩ => .trap 5 (BitVec.ofNat 64 va) s
      | t => frameTargets r s fun l s => k ((va, t) :: l) s

/-- Bytes that are there at once, in the place of an answer to a request of the instruction. -/
def State.answered (s : State) (va : Nat) (bytes : List Byte) : State :=
  let f : Fetch := { id := s.wafer.nextId, va := va, reply := some (.data bytes []) }
  { s with core := { s.core with pend := s.core.pend ++ [f] }, wafer := { s.wafer with nextId := s.wafer.nextId + 1 } }

/-- Reads a spilled frame: from the own scratchpad or the far cache at once, from elsewhere by a request; a fill is not
checked for races (R174). -/
def readSpilled (s : State) (x : Nat × Target) : State :=
  match x.2 with
  | .own a =>
    let s := (linesOf a 128).foldl (fun s l => s.touch (srcCore s.coreNo) l false) s
    s.answered x.1 (s.tile.mem.readBytes a 128)
  | .far p =>
    match (if p.space.cached then s.tile.farLine p.space p.a else none) with
    | some l => ({ s with tile := s.tile.farUse l }).answered x.1 (((lineBytes l.data).drop (p.a % 256)).take 128)
    | none => s.requestLoad p x.1 128 0 false

/-- The 16 registers of a frame of bytes (R90). -/
def frameOf (b : List Byte) : List Word := (List.range 16).map (fun i => BitVec.ofNat 64 (leNat ((b.drop (8 * i)).take 8)))

/-- n returns of the core in focus (R123): without a fill at once; otherwise every spilled frame is read first, and an
exhausted window stack or a failing address traps before anything changes (R8). -/
def returns (n : Nat) (s : State) (k : State → Issue) : Issue :=
  let f := s.core.fillsFor n
  let wsp := s.core.win.wsp.toNat
  let leave (fs : List Fetch) (s : State) : Issue :=
    k { s with core := Core.leave n (fs.map (fun f => frameOf (f.bytes.take 128))) s.core }
  if f = 0 then leave [] s
  else if wsp < 128 * f then .trap 7 (BitVec.ofNat 64 (wsp % 128)) s
  else
    blocked s
      (fun s => frameTargets ((List.range f).map (fun i => wsp - 128 * (i + 1))) s fun l s =>
        if l.any (fun x => s.footprintStall x.1 128 false) || !s.detRoom then .wait s
        else
          let t := l.foldl readSpilled s
          if t.core.pend.all (fun f => f.reply.isSome) then
            leave t.core.pend { t with core := { t.core with pend := [] } }
          else .wait t)
      leave

/-- The activation has no caller: the first of the team or task, or the first of an inline run (R123, R355). -/
def Core.noCaller (c : Core) : Bool :=
  c.win.depth == 1 ||
    match c.task.inline with
    | r :: _ => r.depth == c.win.depth
    | [] => false

def execRet (s : State) : Result :=
  (outsideTrapWindow .ret s
    (if s.core.noCaller then .trap 7 1 s
     else
       let target := s.reg 15
       if target.getLsbD 0 then .trap 3 target s
       else
         returns 1 s fun s => .done (s.jumpTo target))).result

end Sys2Proof.Machine
end

