-- ==== Sys2Proof/Machine/Accumulate.lean ====
section
/-!
DEFINITION. Accumulates, atomics and sidings (06_accumulate.md): the combining function, the acc and amo instructions, the
siding and its flushes, deterministic holding at a home slice.
-/
namespace Sys2Proof.Machine

/-! ### The combining function (R179) -/

/-- func3 of an operation (R179). -/
def AccOp.code : AccOp → Nat
  | .addI32 => 0 | .addI64 => 1 | .addF32 => 2 | .maxI32 => 3 | .minI32 => 4 | .orD => 5 | .andD => 6 | .xorD => 7

/-- Bytes that an operation acts on (R179). -/
def AccOp.size : AccOp → Nat
  | .addI64 => 8 | .orD => 8 | .andD => 8 | .xorD => 8
  | _ => 4

/-- comb(op, x, y) with the flags of a floating addition (R179). -/
def combFlags (op : AccOp) (x y : Word) : Word × FpFlags :=
  let x32 : W32 := x.setWidth 32
  let y32 : W32 := y.setWidth 32
  match op with
  | .addI32 => (zext64 (x32 + y32), {})
  | .addI64 => (x + y, {})
  | .addF32 =>
    let r := fpAdd .f32 .rne x32.toNat y32.toNat
    (BitVec.ofNat 64 r.1, r.2)
  | .maxI32 => (zext64 (if x32.slt y32 then y32 else x32), {})
  | .minI32 => (zext64 (if y32.slt x32 then y32 else x32), {})
  | .orD => (x ||| y, {})
  | .andD => (x &&& y, {})
  | .xorD => (x ^^^ y, {})

/-- comb(op, x, y) (R179). -/
def comb (op : AccOp) (x y : Word) : Word := (combFlags op x y).1

/-! ### Keys (R182) -/

/-- A key as one number: job tile, core, sequence (R182). -/
def AccKey.num (k : AccKey) : Nat := (k.jt.toNat * 8 + k.core.toNat) * 2 ^ 32 + k.seq.toNat

/-- ASEQ advances (R182). -/
def Core.nextAseq (c : Core) : Core := { c with acc := { c.acc with aseq := c.acc.aseq + 1 } }

/-- The key of the core's latest request (R182). -/
def State.key (s : State) : AccKey := { jt := s.tile.jt, core := s.coreNo, seq := s.core.acc.aseq }

/-- ACCMODE.DET (R203). -/
def Core.accDet (c : Core) : Bool := c.acc.accmode.getLsbD 0

/-- ACCMODE.NOMERGE (R203). -/
def Core.noMerge (c : Core) : Bool := c.acc.accmode.getLsbD 1

/-- SDCTL.NORIDE (R199). -/
def Core.noRide (c : Core) : Bool := c.acc.sdctl.getLsbD 16

/-! ### Requests (R183) -/

/-- The request of an accumulate of the core in focus, under its present sequence. -/
def State.accReq (s : State) (op : AccOp) (p : Place) (va : Word) (v : Word) (det must flush : Bool) (key : AccKey) :
    AccReq :=
  { req := { s.req p.space.cls key.seq va.toNat none with seq := key.seq }, op := .acc op, place := p, value := v,
    det := det, must := must, nomerge := s.core.noMerge, flush := flush }

/-- Sends a request of the core in focus to a home slice, counted in its class (R152, R183). -/
def State.sendAcc (s : State) (q : AccReq) : State :=
  ({ s with core := s.core.countUp q.place.space.cls }).inject .relief q.place.dest (.acc q)

/-! ### Siding rows (R193 to R196) -/

/-- Row k of the siding. -/
def Core.row (c : Core) (k : Nat) : Option Row := vget c.acc.rows k none

/-- Writes row k of the siding. -/
def Core.setRow (c : Core) (k : Nat) (r : Option Row) : Core :=
  { c with acc := { c.acc with rows := vset c.acc.rows k r } }

/-- The rows that are valid, with their numbers, ascending. -/
def Core.validRows (c : Core) : List (Nat × Row) :=
  (List.range 32).filterMap (fun k => (c.row k).map (fun r => (k, r)))

/-- Frees row k of the siding: no event has it to flush any more (R196, R198). -/
def Core.clearRow (c : Core) (k : Nat) : Core :=
  let c := c.setRow k none
  { c with acc := { c.acc with
      flushing := (c.acc.flushing.map (fun l => l.filter (fun r => r.toNat != k))).filter (fun l => !l.isEmpty) } }

/-- Flushes row k must-accept under a new sequence and frees it (R196). -/
def State.flushRow (s : State) (k : Nat) (r : Row) : State :=
  let s := { s with core := s.core.nextAseq }
  let q := s.accReq r.op r.place r.va r.value false true true s.key
  let c := s.core.clearRow k
  ({ s with core := { c with acc := { c.acc with flight := c.acc.flight + 1 } } }).sendAcc q

/-- Sends the rows of one event in order, for as long as their counts have room (R153, R196), and what is left. -/
def drainRows : List (BitVec 5) → State → List (BitVec 5) × State
  | [], s => ([], s)
  | k :: r, s =>
    match s.core.row k.toNat with
    | none => drainRows r s
    | some row =>
      if row.det then drainRows r s
      else if s.core.countRoom row.cls then drainRows r (s.flushRow k.toNat row)
      else (k :: r, s)

/-- Sends the rows of some events, each in its own order (R196), and what is left of them. -/
def drainEvents : List (List (BitVec 5)) → State → List (List (BitVec 5)) × State
  | [], s => ([], s)
  | l :: r, s =>
    let x := drainRows l s
    let y := drainEvents r x.2
    (x.1 :: y.1, y.2)

/-- Flushes go on (R196). -/
def State.drain (s : State) : State :=
  let x := drainEvents s.core.acc.flushing { s with core := { s.core with acc := { s.core.acc with flushing := [] } } }
  let left := x.1.map (fun l => l.filter (fun k => (x.2.core.row k.toNat).isSome))
  let c := x.2.core
  { x.2 with core := { c with acc := { c.acc with flushing := left.filter (fun l => !l.isEmpty) } } }

/-- An event has rows to flush, in ascending order (R196). -/
def Core.flushEvent (c : Core) (ks : List (BitVec 5)) : Core :=
  if ks.isEmpty then c else { c with acc := { c.acc with flushing := c.acc.flushing ++ [ks] } }

/-- The relaxed rows that an event selects, in ascending row number. -/
def Core.selectRows (c : Core) (sel : Row → Bool) : List (BitVec 5) :=
  c.validRows.filterMap (fun p => if !p.2.det && sel p.2 then some (BitVec.ofNat 5 p.1) else none)

/-- An event flushes the relaxed rows that it selects (R196). -/
def State.flushRows (s : State) (sel : Row → Bool) : State :=
  { s with core := s.core.flushEvent (s.core.selectRows sel) }.drain

/-- An event that goes on until no relaxed row is left flushes those that no event has selected yet (R196). -/
def State.flushAll (s : State) : State :=
  let old := s.core.acc.flushing.flatten
  { s with core := s.core.flushEvent ((s.core.selectRows (fun _ => true)).filter (fun k => !(old.contains k))) }.drain

/-- A row of some classes has still to be flushed. -/
def Core.flushWaits (c : Core) (cls : List PostClass) : Bool :=
  c.acc.flushing.any (fun l => l.any (fun k => match c.row k.toNat with
    | some r => cls.contains r.cls
    | none => false))

/-- A relaxed row is valid. -/
def Core.relaxedRows (c : Core) : Bool := c.validRows.any (fun p => !p.2.det)

/-- A relaxed bounce waits to be parked. -/
def Core.relaxedInbound (c : Core) : Bool := c.acc.inbound.any (fun b => !b.det)

/-- The siding has drained as sdwait asks (R202). -/
def Core.sidingQuiet (c : Core) : Bool := !c.relaxedRows && c.acc.flight == 0 && !c.relaxedInbound

/-- The set of a virtual address (R193). -/
def sidingSet (va : Word) : Nat := field va 5 3 ^^^ field va 8 3

/-- The relaxed row that holds an address and operation (R186, R194). -/
def Core.findRow (c : Core) (va : Word) (op : AccOp) : Option (Nat × Row) :=
  c.validRows.find? (fun p => !p.2.det && p.2.op == op && p.2.va >>> 2 == va >>> 2)

/-! ### Holding deterministic requests (R204, R205) -/

/-- Inserts an entry into a run sorted by key. -/
def insertHeld (h : Held) : List Held → List Held
  | [] => [h]
  | x :: r => if h.key.num < x.key.num then h :: x :: r else x :: insertHeld h r

/-- A run sorted by key (R204). -/
def sortHeld (l : List Held) : List Held := l.foldl (fun a h => insertHeld h a) []

/-- Entries of the sort area. -/
def Slice.sorted (x : Slice) : Nat := (x.runs.map List.length).sum

/-- The buffer and the sort area are both full (R205). -/
def Slice.full (x : Slice) : Bool := decide (16 ≤ x.hold.length) && decide (1024 ≤ x.sorted)

/-- Places an entry in the holding buffer; a full buffer is first written out as one sorted run (R204). A sort area
without room for 16 takes the entry itself (assumption 82). -/
def Slice.place (x : Slice) (h : Held) : Slice :=
  if x.hold.length < 16 then { x with hold := x.hold ++ [h] }
  else if x.sorted + 16 ≤ 1024 then { x with runs := x.runs ++ [sortHeld x.hold], hold := [h] }
  else { x with runs := x.runs ++ [[h]] }

/-- An entry takes the place of another (R205). -/
def Slice.replace (x : Slice) (m h : Held) : Slice :=
  if x.hold.contains m then { x with hold := x.hold.erase m ++ [h] }
  else { x with runs := x.runs.map (fun r => if r.contains m then insertHeld h (r.erase m) else r) }

/-- The held entry of a job with the largest key (R205). -/
def Slice.largest (x : Slice) (job : BitVec 6) : Option Held :=
  ((x.runs.flatten ++ x.hold).filter (fun h => h.job == job)).foldl
    (fun m h => match m with
      | none => some h
      | some k => if k.key.num < h.key.num then some h else some k) none

/-- Holds an entry, or gives back the one to bounce (R205). -/
def Slice.holdEntry (x : Slice) (h : Held) : Slice × Option Held :=
  if !x.full then (x.place h, none)
  else
    match x.largest h.job with
    | none => (x, some h)
    | some m => if m.key.num < h.key.num then (x, some h) else (x.replace m h, some m)

/-- The bounce of a held entry (R190, R205). -/
def Held.bounce (h : Held) (counted : Bool) : Bounce :=
  { det := true, cls := h.place.space.cls, op := h.op, va := h.va, place := h.place, addend := h.value, key := h.key,
    counted := counted }

/-! ### acc (R186, R187, R208, R332) -/

/-- Accumulates of a deterministic core stall until every outstanding barrier has been released, and while siding and
ring are full (R208, R332). -/
def Core.detStall (c : Core) : Bool :=
  c.accDet && ((List.range 4).any (fun n => vget c.sync.bst n 0 == 1) ||
    (decide (4096 ≤ c.acc.ring.length) && decide (32 ≤ c.validRows.length)))

/-- A deterministic accumulate has been issued since the last arrival at every level (R329). -/
def Core.markDet (c : Core) : Core := { c with sync := { c.sync with det := Vector.replicate 4 true } }

/-- A local accumulate (R186): combined at the word, or held at its home slice, which advances its mark (R204). -/
def accHere (op : AccOp) (a : Nat) (va y : Word) (s : State) : State :=
  let s := { s with core := s.core.nextAseq }
  if s.core.accDet then
    let h : Held :=
      { op := op, place := { space := .spad s.tile.tile, a := a }, va := va, value := y, key := s.key,
        job := s.tile.job.getD 0, src := s.me }
    let k := a / 256 % 8
    let r := (vget s.tile.slices k {}).holdEntry h
    let t := { s.tile with slices := vset s.tile.slices k r.1 }
    let held := r.2 != some h && markRoom t.marks s.me
    let marks := putMark t.marks s.me (fun m => { m with aseq := raiseMark m.aseq h.key.seq })
    let s := { s with core := s.core.markDet, tile := if held then { t with marks := marks } else t }
    match r.2 with
    | none => s
    | some m => s.inject .relief (.tile m.src.tile) (.bounce m.src (m.bounce false))
  else
    let x := BitVec.ofNat 64 (s.tile.mem.readNat a op.size)
    s.writeOwn (cellsAt a (natBytes (comb op x y).toNat op.size)) true

/-- A remote accumulate (R186): it takes a matching siding row along, and is sent and counted. -/
def accFar (op : AccOp) (p : Place) (va y : Word) (s : State) : State :=
  let s := { s with core := s.core.nextAseq }
  if s.core.accDet then
    ({ s with core := s.core.markDet }).sendAcc (s.accReq op p va y true false false s.key)
  else
    match (if s.core.noRide then none else s.core.findRow va op) with
    | some (k, row) =>
      let c := s.core.clearRow k
      let c := { c with acc := { c.acc with rides := c.acc.rides + 1 } }
      ({ s with core := c }).sendAcc (s.accReq op p va (comb op row.value y) false false false s.key)
    | none => s.sendAcc (s.accReq op p va y false false false s.key)

/-- One accumulate of y at an address whose checks have passed (R186 from the target check on). -/
def accAt (op : AccOp) (t : Target) (va : Nat) (y : Word) (s : State) (k : State → Issue) : Issue :=
  let v := BitVec.ofNat 64 va
  let stalled := s.core.detStall || !s.core.acc.inbound.isEmpty
  match t with
  | .own a =>
    if stalled then .wait s else localAccess va a op.size true false s fun s => k (accHere op a v y s)
  | .far p =>
    match p.space with
    | .spad _ =>
      if stalled || s.footprintStall va op.size true || !s.core.countRoom .n then .wait s
      else k (accFar op p v y s)
    | .hbm =>
      if stalled || s.footprintStall va op.size true || !s.core.countRoom .m then .wait s
      else k (accFar op p v y { s with tile := s.tile.farDrop p.space [(p.a, 0)] })
    | _ => .trap 5 v s

/-- An acc instruction (R186). -/
def accumulate (op : AccOp) (d a : BitVec 5) (w : BitVec 2) (i : BitVec 10) (s : State) : Result :=
  let va := (s.reg a + sext64 i * BitVec.ofNat 64 op.size).toNat
  let y := if op.size = 4 then zext64 ((s.reg d).setWidth 32) else s.reg d
  (waitW w s fun s =>
    access { r := true, w := true } va op.size s fun t s => accAt op t va y s State.next4).result

def execAccAddI32 (d a : BitVec 5) (w : BitVec 2) (i : BitVec 10) (s : State) : Result := accumulate .addI32 d a w i s
def execAccAddI64 (d a : BitVec 5) (w : BitVec 2) (i : BitVec 10) (s : State) : Result := accumulate .addI64 d a w i s
def execAccAddF32 (d a : BitVec 5) (w : BitVec 2) (i : BitVec 10) (s : State) : Result := accumulate .addF32 d a w i s
def execAccMaxI32 (d a : BitVec 5) (w : BitVec 2) (i : BitVec 10) (s : State) : Result := accumulate .maxI32 d a w i s
def execAccMinI32 (d a : BitVec 5) (w : BitVec 2) (i : BitVec 10) (s : State) : Result := accumulate .minI32 d a w i s
def execAccOrD (d a : BitVec 5) (w : BitVec 2) (i : BitVec 10) (s : State) : Result := accumulate .orD d a w i s
def execAccAndD (d a : BitVec 5) (w : BitVec 2) (i : BitVec 10) (s : State) : Result := accumulate .andD d a w i s
def execAccXorD (d a : BitVec 5) (w : BitVec 2) (i : BitVec 10) (s : State) : Result := accumulate .xorD d a w i s

/-! ### Siding instructions (R202) and waitc (R162) -/

def execSdfl (s : State) : Result := ((s.flushRows (fun _ => true)).next4).result

def execSdfla (a : BitVec 5) (s : State) : Result :=
  let v := s.reg a
  ((s.flushRows (fun r => field r.va 2 46 == field v 2 46)).next4).result

/-- The age of a row in cycles (R213): it stands still while the tile is stopped for a boundary. -/
def State.rowAge (s : State) (r : Row) : Nat := s.tile.pausedAt.getD s.wafer.clock - r.since

/-- The four words of a row (R202). -/
def State.rowWord (s : State) (r : Row) (n : Nat) : Word :=
  match n with
  | 0 => BitVec.ofNat 64 (2 ^ 63 + (if r.det then 2 ^ 62 else 0) + (if r.cls = .m then 2 ^ 61 else 0)
      + r.op.code * 2 ^ 58 + field r.va 2 46 * 4)
  | 1 => r.value
  | 2 => BitVec.ofNat 64 (min (s.rowAge r) 0xFFFF)
  | _ => if r.det then BitVec.ofNat 64 (r.key.jt.toNat * 2 ^ 36 + r.key.core.toNat * 2 ^ 32 + r.key.seq.toNat) else 0

def execSdrd (d a b : BitVec 5) (s : State) : Result :=
  let v := match s.core.row (field (s.reg a) 0 5) with
    | some r => s.rowWord r (field (s.reg b) 0 2)
    | none => 0
  (s.setReg d v).next4.result

/-- The mask of valid rows (R202). -/
def Core.rowMask (c : Core) : Word := BitVec.ofNat 64 ((c.validRows.map (fun p => 2 ^ p.1)).sum)

def execSdst (d : BitVec 5) (s : State) : Result := (s.setReg d s.core.rowMask).next4.result

def execSdwait (s : State) : Result := (if s.core.sidingQuiet then s.next4 else .wait s).result

/-- The classes of waitc's mask (R161). -/
def maskClasses (c : BitVec 3) : List PostClass :=
  (if c.getLsbD 0 then [.n] else []) ++ (if c.getLsbD 1 then [.m] else []) ++ (if c.getLsbD 2 then [.x] else [])

/-- Whether waitc has flushed its rows and waits for the counts. -/
def Core.setFlushed (c : Core) (b : Bool) : Core := { c with acc := { c.acc with flushed := b } }

/-- waitc (R162): flushes the rows of its classes, then waits for their counts. -/
def execWaitc (c : BitVec 3) (s : State) : Result :=
  let cls := maskClasses c
  (match s.core.raceFor cls with
    | some _ => waitCounts cls s State.next4
    | none =>
      let s := if s.core.acc.flushed then s else s.flushRows (fun r => cls.contains r.cls)
      let s := { s with core := s.core.setFlushed true }
      if !s.core.flushWaits cls then
        waitCounts cls s fun s => ({ s with core := s.core.setFlushed false }).next4
      else .wait s).result

/-! ### Atomics (R209, R210) -/

/-- Bytes of an atomic (R209). -/
def amoSize (func : Nat) : Nat :=
  match func with
  | 1 => 8 | 3 => 8 | 5 => 8
  | _ => 4

/-- The new word of an atomic and the flags of its addition (R209); cmp is d for the compare. -/
def amoNew (func : Nat) (old operand cmp : Word) : Word × FpFlags :=
  let o32 : W32 := old.setWidth 32
  let v32 : W32 := operand.setWidth 32
  match func with
  | 0 => (zext64 v32, {})
  | 1 => (operand, {})
  | 2 => (if o32 = cmp.setWidth 32 then zext64 v32 else old, {})
  | 3 => (if old = cmp then operand else old, {})
  | 4 => (zext64 (o32 + v32), {})
  | 5 => (old + operand, {})
  | 6 => combFlags .addF32 old (zext64 v32)
  | 7 => (zext64 (if o32.slt v32 then v32 else o32), {})
  | _ => (zext64 (if v32.slt o32 then v32 else o32), {})

/-- An atomic's answer: the old word, then the flags of its addition. -/
def amoAnswer (old : Word) (f : FpFlags) : List Byte := natBytes old.toNat 8 ++ natBytes f.bits.toNat 1

/-- An atomic at the own scratchpad, in tile-local order (R210). -/
def amoHere (func : Nat) (a : Nat) (operand cmp : Word) (s : State) : Word × FpFlags × State :=
  let old := BitVec.ofNat 64 (s.tile.mem.readNat a (amoSize func))
  let r := amoNew func old operand cmp
  (old, r.2, s.writeOwn (cellsAt a (natBytes r.1.toNat (amoSize func))) true)

/-- An atomic completes: d takes the old word, and FFLAGS the flags of its addition (R210). -/
def amoFinish (d : BitVec 5) (old : Word) (f : BitVec 5) (s : State) : Issue :=
  let s := s.setReg d old
  ({ s with core := s.core.raise f }).next4

/-- An amo instruction (R209, R210). -/
def atomic (func : Nat) (d a b : BitVec 5) (s : State) : Result :=
  let va := (s.reg a).toNat
  (blocked s
    (fun s => access { r := true, w := true } va (amoSize func) s fun t s =>
      match t with
      | .own a =>
        localAccess va a (amoSize func) true false s fun s =>
          let s := { s with core := s.core.nextAseq }
          let r := amoHere func a (s.reg b) (s.reg d) s
          amoFinish d r.1 r.2.1.bits r.2.2
      | .far p =>
        let go : Issue :=
          if s.footprintStall va (amoSize func) true then .wait s
          else
            let s := { s with core := s.core.nextAseq }
            let q : AccReq :=
              { req := s.req p.space.cls s.core.acc.aseq va none, op := .amo (BitVec.ofNat 4 func) (s.reg d), place := p,
                value := s.reg b, det := false, must := true, nomerge := true, flush := false }
            .wait ((s.await va 0 .amo (some p) s.core.acc.aseq (s.reg b, s.reg d)).inject .relief p.dest (.amo q))
        match p.space with
        | .spad _ => go
        | .hbm => go
        | _ => .trap 5 (BitVec.ofNat 64 va) s)
    (fun fs s =>
      let b := (fs.head?.map Fetch.bytes).getD []
      amoFinish d (BitVec.ofNat 64 (leNat (b.take 8))) (BitVec.ofNat 5 (leNat (b.drop 8))) s)).result

def execAmoSwapW (d a b : BitVec 5) (s : State) : Result := atomic 0 d a b s
def execAmoSwapD (d a b : BitVec 5) (s : State) : Result := atomic 1 d a b s
def execAmoCasW (d a b : BitVec 5) (s : State) : Result := atomic 2 d a b s
def execAmoCasD (d a b : BitVec 5) (s : State) : Result := atomic 3 d a b s
def execAmoAddW (d a b : BitVec 5) (s : State) : Result := atomic 4 d a b s
def execAmoAddD (d a b : BitVec 5) (s : State) : Result := atomic 5 d a b s
def execAmoFaddF32 (d a b : BitVec 5) (s : State) : Result := atomic 6 d a b s
def execAmoMaxW (d a b : BitVec 5) (s : State) : Result := atomic 7 d a b s
def execAmoMinW (d a b : BitVec 5) (s : State) : Result := atomic 8 d a b s

end Sys2Proof.Machine
end

