-- ==== Sys2Proof/Machine/CReg.lean ====
section
/-!
DEFINITION. The control registers (R96 to R98, R127): numbers, access levels, the values read and the fields written, and
the operations that a write starts.
-/
namespace Sys2Proof.Machine

/-- The lowest level that may write a control register (R5, R96). -/
inductive CAccess where
  | j | s | m
  /-- Jr: read by all; a write is privileged at J and changes nothing at S and M. -/
  | jr
  deriving DecidableEq, Repr

/-- The access of a control register number; none for a number outside the table of R96. -/
def cregAccess (n : Nat) : Option CAccess :=
  if n ≤ 0x004 then some .jr
  else if 0x008 ≤ n ∧ n ≤ 0x00B then some .j
  else if 0x010 ≤ n ∧ n ≤ 0x017 then some .j
  else if n = 0x018 then some .s
  else if n = 0x020 ∨ n = 0x021 then some .s
  else if n = 0x022 then some .jr
  else if 0x030 ≤ n ∧ n ≤ 0x033 then some .s
  else if 0x040 ≤ n ∧ n ≤ 0x042 then some .jr
  else if 0x048 ≤ n ∧ n ≤ 0x050 then some .j
  else if n = 0x051 then some .jr
  else if n = 0x058 then some .j
  else if n = 0x059 then some .s
  else if n = 0x060 then some .j
  else if 0x070 ≤ n ∧ n ≤ 0x074 then some .s
  else if 0x100 ≤ n ∧ n ≤ 0x107 then some .m
  else if n = 0x110 ∨ n = 0x111 then some .s
  else if n = 0x120 then some .m
  else if 0x130 ≤ n ∧ n ≤ 0x140 then some .m
  else if n = 0x150 ∨ n = 0x151 then some .m
  else none

/-- A read of a register of this access is allowed at a level (R5). -/
def CAccess.mayRead (a : CAccess) (l : Level) : Bool :=
  match a with
  | .s => l != .J
  | .m => l == .M
  | _ => true

/-- A write of a register of this access is allowed at a level (R5). -/
def CAccess.mayWrite (a : CAccess) (l : Level) : Bool :=
  match a with
  | .j => true
  | .m => l == .M
  | _ => l != .J

/-- The register is read through record(v) (R96, R98). -/
def recordedCreg (n : Nat) : Bool := n == 0x001 || n == 0x040 || n == 0x041 || n == 0x042

/-! ### Values of registers that gather fields -/

/-- WHOAMI (R340). -/
def State.whoami (s : State) : Word :=
  BitVec.ofNat 64 ((if s.core.task.inTask then 2 ^ 48 else 0) + s.tile.tile.toNat * 2 ^ 32 + s.tile.prio.toNat * 2 ^ 22
    + (s.tile.job.getD 0).toNat * 2 ^ 16 + s.tile.jt.toNat * 16 + s.coreNo.toNat)

/-- STEP (R328). -/
def Core.stepWord (c : Core) : Word :=
  BitVec.ofNat 64 ((List.range 4).foldl (fun a n => a + (vget c.sync.step n 0).toNat * 2 ^ (16 * n)) 0)

/-- WDEPTH (R120). -/
def Core.wdepth (c : Core) : Word :=
  BitVec.ofNat 64 (c.win.fills.toNat * 2 ^ 48 + c.win.spills.toNat * 2 ^ 32 + c.win.cwp.toNat * 2 ^ 24
    + c.win.res.toNat * 2 ^ 16 + c.win.depth.toNat)

/-- SDOCC (R200). -/
def Core.sdocc (c : Core) : Word :=
  BitVec.ofNat 64 (c.acc.rides.toNat * 2 ^ 48 + c.acc.bounces.toNat * 2 ^ 32 + c.acc.ring.length % 2 ^ 13 * 2 ^ 16
    + c.acc.flight % 2 ^ 9 * 2 ^ 7 + c.validRows.length)

/-- The state of a site as the map codes it (R459). -/
def SiteStatus.code : SiteStatus → BitVec 2
  | .fused => 0
  | .logical => 1
  | .reserve => 2
  | .untested => 2
  | .failed => 3

/-- The boot corner of a quadrant (R12, R462): the site of the quadrant at the corner of the wafer. -/
def cornerOf (q : BitVec 2) : SiteId :=
  (if q.getLsbD 1 then 0xFC0 else 0) ||| (if q.getLsbD 0 then 0x03F else 0)

/-- The site is a boot corner. -/
def isCorner (x : SiteId) : Bool := cornerOf (quadrant x) == x

/-- PLA0 (R459). -/
def State.pla0 (s : State) : Word :=
  BitVec.ofNat 64 ((if isCorner s.site then 2 ^ 17 else 0) + s.junction.status.code.toNat * 2 ^ 14 +
    (if s.junction.located then 2 ^ 16 + (quadrant s.site).toNat * 2 ^ 12 + s.site.toNat else 0))

/-- PLA1 (R459). -/
def Site.pla1 (j : Site) : Word :=
  BitVec.ofNat 64 ((if j.plaBusy then 2 ^ 63 else 0) + j.plaResult.toNat * 2 ^ 48 + j.plaOp.toNat)

/-- The state of a site in a map (R459). -/
def mapState (m : List (Nat × BitVec 2)) (x : Nat) : BitVec 2 :=
  match m with
  | [] => 0
  | (k, v) :: r => if k = x then v else mapState r x

/-- Places a state in a rising map. -/
def insertState (x : Nat) (v : BitVec 2) : List (Nat × BitVec 2) → List (Nat × BitVec 2)
  | [] => [(x, v)]
  | (k, w) :: r => if x < k then (x, v) :: (k, w) :: r else (k, w) :: insertState x v r

/-- Writes a site's state in a map, rising, states of 0 not listed (R459). -/
def setMap (x : Nat) (v : BitVec 2) (m : List (Nat × BitVec 2)) : List (Nat × BitVec 2) :=
  let r := m.filter (fun p => p.1 != x)
  if v = 0 then r else insertState x v r

/-- The states of 32 sites of row y, from x = 0 or 32, as PLA4 packs them (R459). -/
def mapWord (m : List (Nat × BitVec 2)) (y half : Nat) : Word :=
  BitVec.ofNat 64
    ((List.range 32).foldl (fun a i => a + (mapState m (64 * y + 32 * half + i)).toNat * 2 ^ (2 * i)) 0)

/-- Places an entry in a rising points table. -/
def insertPoint (l : Nat) (x : SiteId) : List (Nat × SiteId) → List (Nat × SiteId)
  | [] => [(l, x)]
  | (k, y) :: r => if l < k then (l, x) :: (k, y) :: r else (k, y) :: insertPoint l x r

/-- Sets or clears a points table entry, keeping the table rising (R16, R460). -/
def setPoint (l : Nat) (v : Option SiteId) (t : List (Nat × SiteId)) : List (Nat × SiteId) :=
  let r := t.filter (fun p => p.1 != l)
  match v with
  | some x => insertPoint l x r
  | none => r

/-- PLA6 of the selected entry (R459). -/
def Site.pla6 (j : Site) : Word :=
  match findPoint j.points j.plaIdx.toNat with
  | some x => BitVec.ofNat 64 (2 ^ 12 + x.toNat % 64 + x.toNat / 64 * 64)
  | none => 0

/-- A dword of an error record (R435). -/
def ErrRec.dword (r : ErrRec) (n : Nat) : Word :=
  match n with
  | 0 => BitVec.ofNat 64 ((if r.valid then 2 ^ 63 else 0) + r.sev.toNat * 2 ^ 61 + (if r.lost then 2 ^ 60 else 0)
      + (if r.inj then 2 ^ 59 else 0) + (if r.mc then 2 ^ 58 else 0) + r.src.toNat * 2 ^ 48 + r.count.toNat * 2 ^ 32)
  | 1 => r.addr
  | 2 => r.synd
  | _ => r.clock

/-- The record that ERRSEL selects (R438). -/
def State.errRec (s : State) : ErrRec :=
  vget (if s.core.errsel.getLsbD 4 then s.junction.bank else s.tile.bank) (field s.core.errsel 2 2) {}

/-- The value of a control register (R96). A number without a register reads zero (R97). -/
def State.cregValue (s : State) (n : Nat) : Word :=
  let c := s.core
  match n with
  | 0x000 => s.whoami
  | 0x001 => s.clock
  | 0x002 => c.stepWord
  | 0x003 => s.tile.intv
  | 0x004 => s.tile.jshape
  | 0x008 => c.fp.frm
  | 0x009 => zext64 c.fp.fflags
  | 0x00A => c.fp.gs
  | 0x00B => zext64 c.fp.qtype
  | 0x018 => zext64 c.eng.mwgt
  | 0x020 => c.win.wsp
  | 0x021 => c.win.wslim
  | 0x022 => c.wdepth
  | 0x040 => BitVec.ofNat 64 c.post.n
  | 0x041 => BitVec.ofNat 64 c.post.m
  | 0x042 => BitVec.ofNat 64 c.post.x
  | 0x050 => c.acc.sdctl
  | 0x051 => c.sdocc
  | 0x058 => zext64 c.acc.accmode
  | 0x059 => bit64 c.race.detmode
  | 0x060 => zext64 c.fp.vprog
  | 0x070 => c.trap.tvec
  | 0x071 => c.trap.tcause
  | 0x072 => c.trap.tpc
  | 0x073 => c.trap.tval
  | 0x074 => c.trap.tstat
  | 0x110 => c.eng.perturb
  | 0x111 => c.cpy.inj
  | 0x120 => c.ptbase
  | 0x130 => s.pla0
  | 0x131 => s.junction.pla1
  | 0x132 => s.junction.plaArg
  | 0x133 => zext64 s.junction.plaRow
  | 0x134 => mapWord s.junction.map (field s.junction.plaRow 0 6) (field s.junction.plaRow 6 1)
  | 0x135 => zext64 s.junction.plaIdx
  | 0x136 => s.junction.pla6
  | 0x140 => s.tile.ckctl
  | 0x150 => zext64 c.errsel
  | 0x151 => s.errRec.dword (field c.errsel 0 2)
  | n =>
    if 0x010 ≤ n ∧ n ≤ 0x017 then vget c.eng.tshape (n - 0x010) 0
    else if 0x030 ≤ n ∧ n ≤ 0x033 then vget c.sync.dom (n - 0x030) 0
    else if 0x048 ≤ n ∧ n ≤ 0x04F then vget s.tile.evc (n - 0x048) 0
    else if 0x100 ≤ n ∧ n ≤ 0x107 then (vget s.tile.slices (n - 0x100) {}).quota
    else 0

/-! ### Writes with an operation of their own -/

/-- The instruction in hand reads or writes FFLAGS: it waits for the tcvt and tadd issued before it (R280). -/
def Core.flagsPending (c : Core) : Bool :=
  c.eng.cards.any (fun k => match k.job with
    | .tcvt _ _ => true
    | .tadd _ _ _ => true
    | _ => false)

/-- A write of PTBASE: the root changes and the core's TLB is invalidated (R143). -/
def writePtbase (v : Word) (s : State) : State :=
  { s with core := { s.core with ptbase := v &&& 0x0000FFFFFFFFF000, tlb := [], walk := none } }

/-- A write of SRSEED (R56). -/
def writeSrseed (v : Word) (s : State) : State :=
  { s with core := { s.core with fp := { s.core.fp with gs := if v = 0 then 0x9E3779B97F4A7C15 else v } } }

/-- A write of ACCMODE (R203): every relaxed row is flushed, the siding drains, and then the mode changes. -/
def writeAccmode (v : Word) (s : State) (k : State → Issue) : Issue :=
  let s := s.flushAll
  if s.core.sidingQuiet then
    k { s with core := { s.core with acc := { s.core.acc with accmode := v.setWidth 2 } } }
  else .wait s

/-- VALUE of an event counter (R337). -/
def Tile.evcValue (t : Tile) (c : Nat) : Nat := field (vget t.evc c 0) 0 32

/-- The wake latch of a core is set (R132). -/
def Core.wakeUp (c : Core) : Core := { c with wake := true }

/-- The core's cntwait on a counter is armed and not yet released (R338). -/
def Core.armedOn (x : Core) (c : BitVec 3) (sel : Nat → Bool) : Bool :=
  match x.sync.cnt with
  | some w => w.c == c && w.status.isNone && sel w.bound.toNat
  | none => false

/-- A released cntwait, with what the releasing access knew (R338). -/
def Core.releaseCnt (x : Core) (status : BitVec 1) (known : List AccessId) : Core :=
  let x := x.learn known
  { x with sync := { x.sync with cnt := x.sync.cnt.map (fun w => { w with status := some status }) } }

/-- Releases the armed waiters of a counter whose bound is selected (R337, R338). -/
def releaseWaiters (c : BitVec 3) (sel : Nat → Bool) (status : BitVec 1) (known : List AccessId) (s : State) : State :=
  s.updCores (fun x => if x.armedOn c sel then x.releaseCnt status known else x)

/-- A write of an event counter (R337): VALUE is set, OVF is cleared by a 1, and waiters whose bound the new
value reaches are released. -/
def writeEvc (c : BitVec 3) (v : Word) (s : State) : State :=
  let old := vget s.tile.evc c.toNat 0
  let value := field v 0 32
  let ovf := old.getLsbD 32 && !v.getLsbD 32
  let w := BitVec.ofNat 64 (value + (if ovf then 2 ^ 32 else 0))
  let s := s.touchEvc c.toNat true
  let s := { s with tile := { s.tile with evc := vset s.tile.evc c.toNat w } }
  let s := if field old 0 32 = value then s else s.updCores Core.wakeUp
  if field old 0 32 < value then releaseWaiters c (fun b => decide (b ≤ value)) 0 (s.publish s.tile.tile) s else s

/-- Writing 1 to ERRDATA.D0 clears the selected record (R438). -/
def clearErrorRecord (s : State) : State :=
  let i := field s.core.errsel 2 2
  if s.core.errsel.getLsbD 4 then { s with junction := { s.junction with bank := vset s.junction.bank i {} } }
  else { s with tile := { s.tile with bank := vset s.tile.bank i {} } }

/-- A write to PLA1, PLA2, PLA5 or PLA6 has an effect (R460). -/
def State.plaOpen (s : State) : Bool :=
  isCorner s.site && !s.junction.plaBusy && !(s.wafer.boot.handedOff.contains (quadrant s.site))

/-- A write of PLA6: the selected entry, and the named site becomes logical in the map (R460). -/
def writePointsEntry (v : Word) (s : State) : State :=
  if s.plaOpen then
    let x : SiteId := v.setWidth 12
    let j := s.junction
    if v.getLsbD 12 && decide (j.plaIdx.toNat < 3840) then
      { s with junction := { j with points := setPoint j.plaIdx.toNat (some x) j.points, map := setMap x.toNat 1 j.map } }
    else { s with junction := { j with points := setPoint j.plaIdx.toNat none j.points } }
  else s

/-- An OP that R461 does not list sets RESULT to 0xFF and does nothing else (R460). -/
def unlistedOp (op : BitVec 4) (s : State) : State :=
  { s with junction := { s.junction with plaOp := op, plaResult := 0xFF } }

/-- A write of PLA1 starts a command (R460, R461). -/
def writePla1 (v : Word) (s : State) : State :=
  if s.plaOpen then
    let op : BitVec 4 := v.setWidth 4
    if 1 ≤ op.toNat ∧ op.toNat ≤ 5 then
      { s with junction := { s.junction with
          plaOp := op, plaBusy := true, plaBegun := false, plaNext := 0, since := s.wafer.clock } }
    else unlistedOp op s
  else s

/-- A field clamped to bounds. -/
def clamp (lo hi v : Nat) : Nat := max lo (min hi v)

/-- CKCTL as stored (R409). -/
def storedCkctl (v : Word) : Word :=
  BitVec.ofNat 64 (max 1 (field v 32 16) * 2 ^ 32 + clamp 256 4096 (field v 16 13) * 2 ^ 16 + clamp 12 30 (field v 0 5))

/-- SDCTL as stored (R199). -/
def storedSdctl (v : Word) : Word := BitVec.ofNat 64 (field v 16 1 * 2 ^ 16 + max 64 (field v 0 16))

/-- WSP and WSLIM as stored (R121). -/
def storedWindow (v : Word) : Word := v &&& 0x7FFF80

/-- TVEC and TPC as stored (R359). -/
def storedAddr (v : Word) : Word := v &&& 0xFFFFFFFFFFFE

/-- TCAUSE as stored (R359). -/
def storedCause (v : Word) : Word := v &&& 0x10F

/-- PERTURB as stored (R275). -/
def storedPerturb (v : Word) : Word := v &&& 0x80021F1FFFFFFFFF

/-- COPYINJ as stored (R311). -/
def storedInject (v : Word) : Word := v &&& 0x80000007FFFFFFFF

/-- A TSHAPE as stored (R256). -/
def storedShape (v : Word) : Word := v &&& 0x1F1F

/-- A domain register as stored (R3, R326). -/
def storedDom (v : Word) : Word := v &&& 0x1FFFFFFFFFF

/-- The write of a register whose write is done at once; registers that are read only keep their value (R127). -/
def State.cregStore (s : State) (n : Nat) (v : Word) : State :=
  let c := s.core
  match n with
  | 0x008 => { s with core := { c with fp := { c.fp with frm := v &&& 0xB } } }
  | 0x009 => { s with core := { c with fp := { c.fp with fflags := v.setWidth 5 } } }
  | 0x00A => writeSrseed v s
  | 0x00B => { s with core := { c with fp := { c.fp with qtype := v.setWidth 2 } } }
  | 0x018 => { s with core := { c with eng := { c.eng with mwgt := BitVec.ofNat 4 (max 1 (field v 0 4)) } } }
  | 0x020 => { s with core := { c with win := { c.win with wsp := storedWindow v } } }
  | 0x021 => { s with core := { c with win := { c.win with wslim := storedWindow v } } }
  | 0x050 => { s with core := { c with acc := { c.acc with sdctl := storedSdctl v } } }
  | 0x059 => { s with core := { c with race := { c.race with detmode := v.getLsbD 0 } } }
  | 0x060 => { s with core := { c with fp := { c.fp with vprog := v.setWidth 6 } } }
  | 0x070 => { s with core := { c with trap := { c.trap with tvec := storedAddr v } } }
  | 0x071 => { s with core := { c with trap := { c.trap with tcause := storedCause v } } }
  | 0x072 => { s with core := { c with trap := { c.trap with tpc := storedAddr v } } }
  | 0x073 => { s with core := { c with trap := { c.trap with tval := v } } }
  | 0x074 => { s with core := { c with trap := { c.trap with tstat := (v &&& 0xE) ||| (c.trap.tstat &&& 1) } } }
  | 0x110 => { s with core := { c with eng := { c.eng with perturb := storedPerturb v } } }
  | 0x111 => { s with core := { c with cpy := { c.cpy with inj := storedInject v } } }
  | 0x120 => writePtbase v s
  | 0x131 => writePla1 v s
  | 0x132 => if s.plaOpen then { s with junction := { s.junction with plaArg := v } } else s
  | 0x133 => { s with junction := { s.junction with plaRow := v.setWidth 7 } }
  | 0x135 => if s.plaOpen then { s with junction := { s.junction with plaIdx := v.setWidth 12 } } else s
  | 0x136 => writePointsEntry v s
  | 0x140 => { s with tile := { s.tile with ckctl := storedCkctl v } }
  | 0x150 => { s with core := { c with errsel := v.setWidth 5 } }
  | 0x151 => if v.getLsbD 0 then clearErrorRecord s else s
  | n =>
    if 0x010 ≤ n ∧ n ≤ 0x017 then
      { s with core := { c with eng := { c.eng with tshape := vset c.eng.tshape (n - 0x010) (storedShape v) } } }
    else if 0x048 ≤ n ∧ n ≤ 0x04F then writeEvc (BitVec.ofNat 3 (n - 0x048)) v s
    else if 0x100 ≤ n ∧ n ≤ 0x107 then
      let x := vget s.tile.slices (n - 0x100) {}
      { s with tile := { s.tile with slices := vset s.tile.slices (n - 0x100) { x with quota := v &&& 0x3FFF } } }
    else s

/-! ### mfc and mtc (R127) -/

/-- The checks of R97 and R5, then the access. -/
def cregAccessChecked (word : Word) (n : Nat) (may : CAccess → Bool) (s : State) (unknown : Issue) (k : Issue) : Issue :=
  match cregAccess n with
  | none => if s.core.level = .M then unknown else .trap 1 word s
  | some a => if may a then k else .trap 2 word s

def execMfc (x : BitVec 5) (c : BitVec 12) (s : State) : Result :=
  let n := c.toNat
  (cregAccessChecked (wordOf (.mfc x c)) n (fun a => a.mayRead s.core.level) s ((s.setReg x 0).next4)
    (if n = 0x009 && s.core.flagsPending then .wait s
     else if recordedCreg n then
       match s.record (s.cregValue n) with
       | some (v, s) => (s.setReg x v).next4
       | none => .wait s
     else if 0x048 ≤ n && n ≤ 0x04F then
       if s.detRoom then ((s.touchEvc (n - 0x048) false).setReg x (s.cregValue n)).next4 else .wait s
     else (s.setReg x (s.cregValue n)).next4)).result

def execMtc (x : BitVec 5) (c : BitVec 12) (s : State) : Result :=
  let n := c.toNat
  let v := s.reg x
  (cregAccessChecked (wordOf (.mtc x c)) n (fun a => a.mayWrite s.core.level) s s.next4
    (if n = 0x009 && s.core.flagsPending then .wait s
     else if n = 0x058 then writeAccmode v s State.next4
     else if 0x048 ≤ n && n ≤ 0x04F && !s.detRoom then .wait s
     else (s.cregStore n v).next4)).result

/-! ### The writes as operations of their own (rows of the table without a word) -/

def execPtbaseWrite (v : Word) (s : State) : Result := .next (writePtbase v s)

/-- The write of ACCMODE; while the siding drains, the state is ready for the write to be tried again. -/
def execAccmodeWrite (v : Word) (s : State) : Result :=
  match writeAccmode v s Issue.wait with
  | .wait t => .next t
  | i => i.result

def execSrseedWrite (v : Word) (s : State) : Result := .next (writeSrseed v s)

def execEvcWrite (c : BitVec 3) (v : Word) (s : State) : Result := .next (writeEvc c v s)

/-- An access of FFLAGS with its wait (R280): a read into x, or a write from x. -/
def execFflagsAccess (write : Bool) (x : BitVec 5) (s : State) : Result :=
  if s.core.flagsPending then .next s
  else if write then .next (s.cregStore 0x009 (s.reg x)) else .next (s.setReg x (s.cregValue 0x009))

def execErrdataClear (s : State) : Result := .next (clearErrorRecord s)

def execPointsEntryWrite (v : Word) (s : State) : Result := .next (writePointsEntry v s)

/-- A write of an unlisted OP to PLA1 (R460); an OP that R461 lists is no such write. -/
def execPlaUnlistedOp (op : BitVec 4) (s : State) : Result :=
  if s.plaOpen && !(1 ≤ op.toNat && op.toNat ≤ 5) then .next (unlistedOp op s) else .next s

end Sys2Proof.Machine
end

