-- ==== Sys2Proof/Machine/Errors.lean ====
section
/-!
DEFINITION. Error records and machine checks (13_healing.md, R432, R433, R435, R436).
-/
namespace Sys2Proof.Machine

/-- Replaces one entry of a list keyed by number. -/
def putKey {α : Type} (l : List (Nat × α)) (k : Nat) (v : α) : List (Nat × α) := (k, v) :: l.filter (fun p => p.1 != k)

/-- A record for an error seen now (R435). -/
def newError (sev : BitVec 2) (mc inj : Bool) (err : ErrorReport) (clock : Word) : ErrRec :=
  { valid := true, sev := sev, inj := inj, mc := mc, src := err.src, count := 1, addr := err.addr, synd := err.synd,
    clock := clock }

/-- A record is below another in rank, or equal and older (R436). -/
def ErrRec.below (a b : ErrRec) : Bool :=
  decide (a.sev.toNat < b.sev.toNat) || (a.sev == b.sev && decide (a.clock.toNat < b.clock.toNat))

/-- The number of the lowest-ranked, oldest record of a bank (R436). -/
def ErrBank.lowest (b : ErrBank) : Nat :=
  [1, 2, 3].foldl (fun m i => if ErrRec.below (vget b i {}) (vget b m {}) then i else m) 0

/-- The number of a record that a condition selects, lowest first. -/
def ErrBank.first (b : ErrBank) (sel : ErrRec → Bool) : Option Nat := [0, 1, 2, 3].find? (fun i => sel (vget b i {}))

/-- A count one higher, saturating (R435). -/
def countMore (n : BitVec 16) : BitVec 16 := if n = 0xFFFF then n else n + 1

/-- Adds an error to a bank (R436), and says whether a record was written for it. -/
def ErrBank.add (b : ErrBank) (e : ErrRec) : ErrBank × Bool :=
  match b.first (fun r => r.valid && r.sev == e.sev && r.src == e.src && r.addr == e.addr) with
  | some i =>
    let r := vget b i {}
    (vset b i { r with count := countMore r.count }, false)
  | none =>
    match b.first (fun r => !r.valid) with
    | some i => (vset b i e, true)
    | none =>
      let i := b.lowest
      let r := vget b i {}
      if r.sev.toNat ≤ e.sev.toNat then (vset b i e, true) else (vset b i { r with lost := true }, false)

/-- The dwords of an error record (R435). -/
def ErrRec.dwords (r : ErrRec) : List Word :=
  [BitVec.ofNat 64 ((if r.valid then 2 ^ 63 else 0) + r.sev.toNat * 2 ^ 61 + (if r.lost then 2 ^ 60 else 0)
      + (if r.inj then 2 ^ 59 else 0) + (if r.mc then 2 ^ 58 else 0) + r.src.toNat * 2 ^ 48 + r.count.toNat * 2 ^ 32),
    r.addr, r.synd, r.clock]

/-- The crane posts a deferred or uncorrected record when it is written (R436). -/
def State.postError (s : State) (unit : Nat) (e : ErrRec) (written : Bool) : State :=
  if written && decide (2 ≤ e.sev.toNat) then
    { s with wafer := { s.wafer with notices := s.wafer.notices ++ [Notice.errorRecord unit e.dwords] } }
  else s

/-- An error of the tile in focus is recorded (R436). -/
def State.tileError (s : State) (e : ErrRec) : State :=
  let r := s.tile.bank.add e
  ({ s with tile := { s.tile with bank := r.1 } }).postError s.site.toNat e r.2

/-- An error of the junction in focus is recorded (R436). -/
def State.junctionError (s : State) (e : ErrRec) : State :=
  let r := s.junction.bank.add e
  ({ s with junction := { s.junction with bank := r.1 } }).postError (4096 + s.site.toNat) e r.2

/-- A machine check of the tile in focus (R433): its cores, engines and deliveries stop, and the uncorrected
error is recorded. -/
def State.machineCheck (s : State) (inj : Bool) (err : ErrorReport) : State :=
  let s := s.tileError (newError 3 true inj err s.clock)
  { s with tile := { s.tile with stopped := true } }

end Sys2Proof.Machine
end

