-- ==== Sys2Proof/Machine/Engine.lean ====
section
/-!
DEFINITION. What the matrix engine and the copy unit share: ticket slots, tickets, waiting for jobs, parking (R259, R260,
R282, R284, R286, R297, R298, R312).
-/
namespace Sys2Proof.Machine

/-- The engines that give tickets (R259, R297). -/
inductive EngineKind where
  | matrix | copier
  deriving DecidableEq, Repr

/-- ENGINE of a ticket (R259, R297). -/
def EngineKind.code : EngineKind → Nat
  | .matrix => 1
  | .copier => 2

/-- The slots of an engine of a core. -/
def Core.slotsOf (c : Core) : EngineKind → Vector Slot 16
  | .matrix => c.eng.slots
  | .copier => c.cpy.slots

/-- Replaces the slots of an engine of a core. -/
def Core.setSlots (c : Core) (e : EngineKind) (v : Vector Slot 16) : Core :=
  match e with
  | .matrix => { c with eng := { c.eng with slots := v } }
  | .copier => { c with cpy := { c.cpy with slots := v } }

/-- The slot of a sequence (R260). -/
def Core.slotOf (c : Core) (e : EngineKind) (seq : BitVec 16) : Slot := vget (c.slotsOf e) (seq.toNat % 16) {}

/-- Writes the slot of a sequence. -/
def Core.setSlot (c : Core) (e : EngineKind) (seq : BitVec 16) (x : Slot) : Core :=
  c.setSlots e (vset (c.slotsOf e) (seq.toNat % 16) x)

/-- The ticket of a job (R259). -/
def ticket (e : EngineKind) (core : CoreId) (seq : BitVec 16) : Word :=
  BitVec.ofNat 64 (e.code * 2 ^ 19 + core.toNat * 2 ^ 16 + seq.toNat)

/-- A ticket that this core's engine gave (R282). -/
def ownTicket (e : EngineKind) (core : CoreId) (t : Word) : Bool :=
  field t 21 43 == 0 && field t 19 2 == e.code && field t 16 3 == core.toNat

/-- The first observation of a complete job (R282): a fault is reported, or its flags are delivered. -/
def observe (e : EngineKind) (seq : BitVec 16) (s : State) (k : State → Issue) : Issue :=
  let x := s.core.slotOf e seq
  let c := s.core.setSlot e seq { x with state := 3 }
  if x.fault then .trap 10 (BitVec.ofNat 64 (x.addr.toNat + x.cause.toNat * 2 ^ 48)) { s with core := c }
  else k { s with core := c.raise x.flags }

/-- twait, tpoll, cwait and cpoll (R282, R298). -/
def awaitTicket (e : EngineKind) (poll : Bool) (d a : BitVec 5) (s : State) : Result :=
  let t := s.reg a
  let give (n : Word) (s : State) : Issue := (s.setReg d n).next4
  (if !ownTicket e s.coreNo t then give 3 s
   else
     let seq : BitVec 16 := t.setWidth 16
     let x := s.core.slotOf e seq
     if x.seq ≠ seq ∨ x.state = 0 then give 1 s
     else if x.state = 1 then (if poll then give 2 s else .wait s)
     else if x.state = 3 then give 1 s
     else observe e seq s (give 0)).result

/-- A ticketed job takes its slot (R260). -/
def Core.takeSlot (c : Core) (e : EngineKind) (seq : BitVec 16) : Core := c.setSlot e seq { seq := seq, state := 1 }

/-- A job's slot shows it complete (R260, R266, R299); a job completion sets the wake latch (R284). -/
def Core.endSlot (c : Core) (e : EngineKind) (seq : BitVec 16) (flags : BitVec 5) (cause : BitVec 4) (addr : Word) :
    Core :=
  { c.setSlot e seq
      { seq := seq, state := 2, fault := cause != 0, flags := flags, cause := cause, addr := addr.setWidth 48 } with
    wake := true }

/-- The two words of a slot (R260). -/
def Slot.bytes (x : Slot) : List Byte :=
  natBytes (x.seq.toNat + x.state.toNat * 2 ^ 16 + (if x.fault then 2 ^ 18 else 0) + x.flags.toNat * 2 ^ 19
    + x.cause.toNat * 2 ^ 24) 8 ++ natBytes x.addr.toNat 8

/-- The record of the completion of a job of a core, in a replay (R442). -/
def isCompletion (c : CoreId) (num : Nat) (d : Nat × Det) : Bool :=
  d.2.kind = .engine && d.2.core == c && d.2.seq.toNat == num % 2 ^ 32

/-- A job of the core in focus may complete: in a replay, when its record says so (R290, R315, R442). -/
def State.mayComplete (s : State) (num : Nat) : Bool :=
  match s.tile.replay with
  | none => true
  | some ds => ds.any (fun d => isCompletion s.coreNo num d && decide (d.2.pos ≤ s.core.retired))

/-- The completion of an engine job is a determinant with its slot record (R284, R315, R421); a replay takes it from
its log. -/
def State.noteCompletion (s : State) (num : Nat) (slot : List Byte) : State :=
  match s.tile.replay with
  | none => s.noteDet (coreDet s .engine s.coreNo s.me (BitVec.ofNat 32 num) slot)
  | some ds =>
    { s with tile := { s.tile with replay := some (ds.eraseP (isCompletion s.coreNo num)) } }

/-- The fault with which the log of a replay says that a job ended, cause and address (R290, R315, R442). -/
def State.recordedFault (s : State) (num : Nat) : Option (BitVec 4 × Word) :=
  match (s.tile.replay.getD []).find? (isCompletion s.coreNo num) with
  | some d =>
    let w := BitVec.ofNat 64 (leNat (d.2.payload.take 8))
    if w.getLsbD 18 then some (BitVec.ofNat 4 (field w 24 4), BitVec.ofNat 64 (leNat (d.2.payload.drop 8))) else none
  | none => none

/-- The log of a replay says that a job ended at an address with one of some causes. -/
def State.endsAt (s : State) (num : Nat) (causes : List (BitVec 4)) (va : Nat) : Option (BitVec 4 × Word) :=
  match s.recordedFault num with
  | some (c, a) => if causes.contains c && a.toNat == va % 2 ^ 48 then some (c, a) else none
  | none => none

/-- The perturbation or injection that a job used is a determinant (R275, R311, R421 kind 12). -/
def State.noteInjection (s : State) (num : Nat) (v : Word) : State :=
  if s.tile.replay.isNone && v.getLsbD 63 then
    s.noteDet (coreDet s .injection s.coreNo s.me (BitVec.ofNat 32 num) (natBytes v.toNat 16))
  else s

/-- The perturbation or injection that the log of a replay gives a job; otherwise its own (R275, R311, R446). -/
def State.injectionFor (s : State) (num : Nat) (own : Word) : Word :=
  match (s.tile.replay.getD []).find? (fun d =>
      d.2.kind = .injection && d.2.core == s.coreNo && d.2.seq.toNat == num % 2 ^ 32) with
  | some d => BitVec.ofNat 64 (leNat (d.2.payload.take 8))
  | none => own

/-- A job that fails a translation or permission check is reported to the host driver (R286, R312). -/
def State.postFault (s : State) (t va : Word) (write : Bool) (cause : BitVec 4) : State :=
  let f : FaultRec :=
    { job := s.tile.job.getD 0, tile := s.tile.tile, core := s.coreNo, ticket := t, va := va, write := write,
      cause := cause }
  { s with wafer := { s.wafer with faults := s.wafer.faults ++ [f] } }

/-- The engines of the core in focus may move: the tile is not stopped and no boundary waits for them
(R288, R313, R433). -/
def State.engineRuns (s : State) : Bool := !s.tile.stopped && !s.core.stopAsked

end Sys2Proof.Machine
end

