-- ==== Sys2Proof/Machine/Operands.lean ====
section
/-!
DEFINITION. Vector operands (02_formats.md, R40 to R48; 07_vector.md, R218 to R222): elements and blocks of a register, the
side field, masks, tag checks, and the draws of stochastic rounding.
-/
namespace Sys2Proof.Machine

/-! ### Elements, blocks and the side field (R40, R43, R44, R221) -/

/-- Element i of a register read at a width (R43). -/
def VReg.elem (r : VReg) (w i : Nat) : Nat := r.data.toNat / 2 ^ (w * i) % 2 ^ w

/-- The first n elements of a width. -/
def VReg.elems (r : VReg) (w n : Nat) : List Nat := (List.range n).map (r.elem w)

/-- Scale byte j (R40). -/
def scaleByte (scales : W32) (j : Nat) : Nat := field scales (8 * j) 8

/-- Elements of a width packed from the lowest bits up (R43). -/
def packLanes (w : Nat) : List Nat → Nat
  | [] => 0
  | x :: r => x % 2 ^ w + 2 ^ w * packLanes w r

/-- Writes element i of a width into bits. -/
def setLane (w i : Nat) (data x : Nat) : Nat :=
  data - data / 2 ^ (w * i) % 2 ^ w * 2 ^ (w * i) + x % 2 ^ w * 2 ^ (w * i)

/-- An encoding is a NaN or an infinity (R38). -/
def FVal.isSpecial : FVal → Bool
  | .fin _ _ _ => false
  | _ => true

/-- The special flag of elements and scale bytes under a tag (R44). -/
def specialOf (t : Tag) (elems : List Nat) (scales : List Nat) : Bool :=
  match t with
  | .b4 => scales.any (fun b => b % 64 == 63)
  | t =>
    match t.float with
    | some f => elems.any (fun x => (f.value x).isSpecial)
    | none => false

/-- A register's content with the special flag that R44 gives it. -/
def VReg.make (t : Tag) (data : Nat) (scales : W32) : VReg :=
  let r : VReg := { data := BitVec.ofNat 512 data, tag := t, scales := scales }
  { r with special := specialOf t (r.elems t.width t.lanes) ((List.range 4).map (scaleByte scales)) }

/-- Predicate lane i under a tag, with the scale byte of its block for b4 (R43, R240). -/
def VReg.lane (r : VReg) (t : Tag) (i : Nat) : Nat × Nat :=
  (r.elem t.laneWidth i, match t with
    | .b4 => scaleByte r.scales i
    | _ => 0)

/-- A register made of predicate lanes; only b4 lanes carry scale bytes (R221, R240). -/
def VReg.ofLanes (t : Tag) (scales : W32) (l : List (Nat × Nat)) : VReg :=
  VReg.make t (packLanes t.laneWidth (l.map (·.1)))
    (match t with
      | .b4 => BitVec.ofNat 32 (packLanes 8 (l.map (·.2)))
      | _ => scales)

/-! ### Masks (R218) -/

/-- The mask of a predicate field and its negate bit (R218). -/
def Core.mask (c : Core) (p : BitVec 3) (n : BitVec 1) : Word := if n = 1 then ~~~(c.pred p) else c.pred p

/-- The instruction is masked (R218). -/
def isMasked (p : BitVec 3) (n : BitVec 1) : Bool := p != 0 || n != 0

/-! ### Tag checks (R46, R47) -/

/-- Tags of arithmetic, compares and reductions (R46). -/
def Tag.arith : Tag → Bool
  | .f32 | .bf16 | .f16 | .i32 | .i16 | .i8 | .n32 | .n16 | .n8 => true
  | _ => false

/-- Tags of bitwise logic and shifts (R46). -/
def Tag.logic : Tag → Bool
  | .raw | .i32 | .i16 | .i8 | .n32 | .n16 | .n8 => true
  | _ => false

/-- Tags of conversion sources (R46). -/
def Tag.convertible : Tag → Bool
  | .raw => false
  | _ => true

/-- Tags of quantisation sources and of most special functions (R46, R242). -/
def Tag.quantisable : Tag → Bool
  | .f32 | .bf16 | .f16 => true
  | _ => false

/-- Every tag. -/
def anyTag : Tag → Bool := fun _ => true

/-- TVAL of a format tag mismatch (R47): the first operand's tag and the one that disagrees with it, or the same
tag again with bit 13 when the operation does not allow it. -/
def mismatchVal (first other : Tag) (notAdmitted : Bool) : Word :=
  BitVec.ofNat 64 (first.code + other.code * 256 + (if notAdmitted then 2 ^ 13 else 0))

/-- The tag check over the checked operands in encoding order (R46, R47); the common tag goes on. -/
def checkTags (ops : List Tag) (allow : Tag → Bool) (s : State) (k : Tag → Issue) : Issue :=
  match ops with
  | [] => k .raw
  | t :: r =>
    if !allow t then .trap 6 (mismatchVal t t true) s
    else
      match r.find? (· != t) with
      | some u => .trap 6 (mismatchVal t u false) s
      | none => k t

/-! ### Rounding controls (R50, R53 to R55) -/

/-- The rounding of FRM.RM (R50). -/
def Core.rounding (c : Core) : Rounding := Rounding.ofBits (c.fp.frm.setWidth 2)

/-- FRM.SR (R50). -/
def Core.stochastic (c : Core) : Bool := c.fp.frm.getLsbD 3

/-- Converts elements in ascending order; an element that is none is only zeroed. When the conversion is
stochastic each converted element takes one generator step (R55). -/
def drawMap (stochastic : Bool) (rm : Rounding) (f : Rounding → Nat × Nat → Nat × FpFlags) :
    List (Option (Nat × Nat)) → Word → List Nat × FpFlags × Word
  | [], gs => ([], {}, gs)
  | none :: r, gs =>
    let t := drawMap stochastic rm f r gs
    (0 :: t.1, t.2.1, t.2.2)
  | some x :: r, gs =>
    let d := drawStep gs
    let y := if stochastic then f (.stochastic d.2) x else f rm x
    let t := drawMap stochastic rm f r (if stochastic then d.1 else gs)
    (y.1 :: t.1, y.2.or t.2.1, t.2.2)

/-- Flags of a list of results together. -/
def flagsOf (l : List (Nat × FpFlags)) : FpFlags := l.foldl (fun a x => a.or x.2) {}

/-- The state with generator state gs. -/
def Core.setGs (c : Core) (gs : Word) : Core := { c with fp := { c.fp with gs := gs } }

/-! ### Conversions (R59, R235, R236) -/

/-- Element i of a register for a conversion: its scale byte, for b4, and its code (R235). -/
def VReg.source (r : VReg) (i : Nat) : Nat × Nat :=
  match r.tag with
  | .b4 => (scaleByte r.scales (i / 32), r.elem 4 i)
  | t => (0, r.elem t.width i)

/-- The conversion of one element from a tag to a tag (R236): its scale byte and code, under a rounding. -/
def convert (src tgt : Tag) (m : Rounding) (x : Nat × Nat) : Nat × FpFlags :=
  match src.float, tgt.float with
  | some f, some g => floatToFloat f g m x.2
  | some f, none => valueToInt m tgt.isSigned tgt.width (f.value x.2)
  | none, some g =>
    if src = .b4 then b4ToFloat g m x.1 x.2 else intToFloat g m (intValue src.isSigned src.width x.2)
  | none, none =>
    if src = .b4 then valueToInt m tgt.isSigned tgt.width (b4Value x.1 x.2)
    else (wrapInt tgt.width (saturate tgt.isSigned tgt.width (intValue src.isSigned src.width x.2)).1, {})

/-- The conversion is narrowing (R53). -/
def narrowing (src tgt : Tag) : Bool :=
  match src.float, tgt.float with
  | some f, some g => narrows f g
  | none, some g => src == .b4 && narrowsB4 g
  | _, _ => false

end Sys2Proof.Machine
end

