-- ==== Sys2Proof/Machine/Matrix.lean ====
section
/-!
DEFINITION. Tile registers and the matrix engine (08_matrix.md): the instructions that queue cards, the waits, and what
the engine does with a card.
-/
namespace Sys2Proof.Machine

/-! ### Queueing cards (R257 to R260) -/

/-- TSHAPE of a tile register. -/
def Core.tshape (c : Core) (m : BitVec 3) : Word := vget c.eng.tshape m.toNat 0

/-- FMT of a TSHAPE value; none is reserved (R48, R256). -/
def shapeFmt (v : Word) : Option Tag := Tag.numbered (field v 0 5)

/-- Element i of a row read at a width (R43). -/
def rowElem (r : RowBits) (w i : Nat) : Nat := r.toNat / 2 ^ (w * i) % 2 ^ w

/-- The special flag of a tile register under a tag (R44). -/
def TReg.specialUnder (r : TReg) (t : Tag) : Bool :=
  (List.range 32).any (fun i =>
    specialOf t ((List.range t.rowLanes).map (rowElem (vget r.rows i 0) t.width))
      ((List.range 8).map (fun j => field (vget r.scales i 0) (8 * j) 8)))

/-- A tile register whose special flag follows its content under its tag (R44). -/
def TReg.flagged (r : TReg) : TReg := { r with special := r.specialUnder r.tag }

/-- The tag of a tile register changes at issue (R45), and its special flag with it (R44). -/
def Core.retag (c : Core) (m : BitVec 3) (t : Tag) : Core := c.setTReg m { c.treg m with tag := t }.flagged

/-- Places a card in the core's queue, if there is room (R258). -/
def queueCard (k : TileCard) (s : State) (fin : State → Issue) : Issue :=
  if 8 ≤ s.core.eng.cards.length then .wait s
  else
    let k := { k with num := s.tile.jobNo }
    fin { s with
      core := { s.core with eng := { s.core.eng with cards := s.core.eng.cards ++ [k] } },
      tile := { s.tile with jobNo := s.tile.jobNo + 1 } }

/-- Places a ticketed card (R259, R260): it takes MSEQ and its slot, and the ticket goes to xt. -/
def queueTicketed (t : BitVec 5) (k : TileCard) (s : State) : Issue :=
  let seq := s.core.eng.mseq
  if (s.core.slotOf .matrix seq).state = 1 then .wait s
  else
    queueCard { k with seq := some seq } s fun s =>
      let c := s.core.takeSlot .matrix seq
      let c := { c with eng := { c.eng with mseq := c.eng.mseq + 1 } }
      (({ s with core := c }).setReg t (ticket .matrix s.coreNo seq)).next4

/-! ### tld and tst (R264, R265) -/

/-- The misaligned value that R265 reports, in the order xb, xr, xs. -/
def tileMisaligned (base stride scale : Word) (scaled : Bool) : Option Word :=
  if base.toNat % 128 ≠ 0 then some base
  else if stride.toNat % 128 ≠ 0 then some stride
  else if scaled && scale.toNat % 8 ≠ 0 then some scale
  else none

/-- A tile load or store: the checks of R265, then the card. -/
def tileMove (isLoad : Bool) (word : Word) (m : BitVec 3) (b r x t : BitVec 5) (s : State) : Result :=
  let c := s.core
  let base := s.reg b
  let stride := s.reg r
  let scale := s.reg x
  let mem := (c.treg m).tag
  (match shapeFmt (c.tshape m) with
    | none => Issue.trap 1 word s
    | some fmt =>
      let scaled := if isLoad then fmt == Tag.b4 else mem == Tag.b4
      if (x != 0) != scaled then .trap 1 word s
      else if !isLoad && fmt != Tag.raw && fmt != mem then .trap 6 (mismatchVal fmt mem false) s
      else
        match tileMisaligned base stride scale scaled with
        | some v => .trap 3 v s
        | none =>
          let k : TileCard :=
            { num := 0, job := if isLoad then .tld m else .tst m, word := word.setWidth 32, base := base,
              stride := if r = 0 then 128 else stride, scale := scale, shape := c.tshape m, srcTag := mem,
              dstTag := if isLoad then fmt else mem }
          match queueTicketed t k s with
          | .done s => .done (if isLoad then { s with core := s.core.retag m fmt } else s)
          | i => i).result

def execTld (m : BitVec 3) (b r x t : BitVec 5) (s : State) : Result := tileMove true (wordOf (.tld m b r x t)) m b r x t s
def execTst (m : BitVec 3) (b r x t : BitVec 5) (s : State) : Result := tileMove false (wordOf (.tst m b r x t)) m b r x t s

/-! ### mma (R270, R271) -/

/-- Tags of mma inputs (R46). -/
def mmaInput : Tag → Bool
  | .bf16 | .f16 | .e4m3 | .e5m2 | .i8 | .b4 => true
  | _ => false

/-- The accumulator tag of an input tag (R46). -/
def accumulatorTag (t : Tag) : Tag := if t = Tag.i8 then .i32 else .f32

/-- An mma instruction: the checks of R271, then the card, which takes an armed PERTURB along (R275). -/
def multiply (zero neg : Bool) (word : Word) (c a b : BitVec 3) (t : BitVec 5) (s : State) : Result :=
  let ta := (s.core.treg a).tag
  let tb := (s.core.treg b).tag
  let tc := (s.core.treg c).tag
  (if c = a ∨ c = b then Issue.trap 1 word s
   else if !mmaInput ta then .trap 6 (mismatchVal ta ta true) s
   else if tb ≠ ta then .trap 6 (mismatchVal ta tb false) s
   else if !zero && tc != accumulatorTag ta then .trap 6 (mismatchVal ta tc true) s
   else
     let p := s.core.eng.perturb
     let k : TileCard :=
       { num := 0, job := .mma c a b zero neg, word := word.setWidth 32, perturb := if p.getLsbD 63 then p else 0,
         srcTag := ta, dstTag := accumulatorTag ta }
     match queueTicketed t k s with
     | .done s =>
       let x := s.core.retag c (accumulatorTag ta)
       .done { s with core := { x with eng := { x.eng with perturb := x.eng.perturb &&& 0x7FFFFFFFFFFFFFFF } } }
     | i => i).result

def execMma (c a b : BitVec 3) (t : BitVec 5) (s : State) : Result := multiply false false (wordOf (.mma c a b t)) c a b t s
def execMmaZ (c a b : BitVec 3) (t : BitVec 5) (s : State) : Result := multiply true false (wordOf (.mmaZ c a b t)) c a b t s
def execMmaN (c a b : BitVec 3) (t : BitVec 5) (s : State) : Result := multiply false true (wordOf (.mmaN c a b t)) c a b t s
def execMmaZn (c a b : BitVec 3) (t : BitVec 5) (s : State) : Result := multiply true true (wordOf (.mmaZn c a b t)) c a b t s

/-! ### Housekeeping jobs (R276 to R279) -/

/-- A housekeeping card whose destination takes its tag at issue. -/
def housekeeping (k : TileCard) (d : BitVec 3) (t : Tag) (s : State) : Issue :=
  queueCard k s fun s => ({ s with core := s.core.retag d t }).next4

def execTzero (d : BitVec 3) (s : State) : Result :=
  (match shapeFmt (s.core.tshape d) with
    | none => Issue.trap 1 (wordOf (.tzero d)) s
    | some t => housekeeping { num := 0, job := .tzero d, word := (wordOf (.tzero d)).setWidth 32, dstTag := t } d t s).result

def execTmov (d a : BitVec 3) (s : State) : Result :=
  let t := (s.core.treg a).tag
  (housekeeping { num := 0, job := .tmov d a, word := (wordOf (.tmov d a)).setWidth 32, srcTag := t, dstTag := t } d t s).result

def execTtr (d a : BitVec 3) (s : State) : Result :=
  (checkTags [(s.core.treg a).tag] (· != .b4) s fun t =>
    housekeeping { num := 0, job := .ttr d a, word := (wordOf (.ttr d a)).setWidth 32, srcTag := t, dstTag := t } d t s).result

/-- Targets of tcvt (R279). -/
def tcvtTarget : Tag → Bool
  | .f32 | .bf16 | .f16 | .e4m3 | .e5m2 | .i32 | .i16 | .i8 => true
  | _ => false

/-- n generator steps (R55). -/
def drawSteps : Nat → Word → Word
  | 0, gs => gs
  | n + 1, gs => drawSteps n (drawStep gs).1

/-- Rows of a TSHAPE value (R256). -/
def shapeRows (v : Word) : Nat := field v 8 5 + 1

/-- tcvt (R279): the target is FMT of md's shape; the generator advances at issue by the elements converted. -/
def execTcvt (d a : BitVec 3) (s : State) : Result :=
  let c := s.core
  let word := wordOf (.tcvt d a)
  let shape := c.tshape d
  (match shapeFmt shape with
    | none => Issue.trap 1 word s
    | some tgt =>
      if !tcvtTarget tgt then .trap 6 (mismatchVal tgt tgt true) s
      else
        checkTags [(c.treg a).tag] Tag.convertible s fun src =>
          let k : TileCard :=
            { num := 0, job := .tcvt d a, word := word.setWidth 32, shape := shape, srcTag := src, dstTag := tgt,
              frm := c.fp.frm, gs := c.fp.gs }
          let steps := if c.stochastic && narrowing src tgt then shapeRows shape * min src.rowLanes tgt.rowLanes else 0
          queueCard k s fun s =>
            ({ s with core := (s.core.retag d tgt).setGs (drawSteps steps s.core.fp.gs) }).next4).result

def execTadd (d a b : BitVec 3) (s : State) : Result :=
  (checkTags [(s.core.treg a).tag, (s.core.treg b).tag] (fun t => t == .f32 || t == .i32) s fun t =>
    housekeeping { num := 0, job := .tadd d a b, word := (wordOf (.tadd d a b)).setWidth 32, srcTag := t, dstTag := t } d t s).result

def execTrowv (a : BitVec 3) (x v : BitVec 5) (s : State) : Result :=
  (queueCard
    { num := 0, job := .trowv a v, word := (wordOf (.trowv a x v)).setWidth 32, base := s.reg x,
      srcTag := (s.core.treg a).tag } s State.next4).result

/-- tvrow (R278): vs, as read at issue, carries md's tag, which stays. -/
def execTvrow (d : BitVec 3) (x v : BitVec 5) (s : State) : Result :=
  let r := s.core.vreg v
  (checkTags [r.tag, (s.core.treg d).tag] anyTag s fun t =>
    queueCard
      { num := 0, job := .tvrow d v, word := (wordOf (.tvrow d x v)).setWidth 32, base := s.reg x, srcTag := t,
        dstTag := t, vec := r } s State.next4).result

/-! ### Waits (R281 to R283) -/

def execTwait (d a : BitVec 5) (s : State) : Result := awaitTicket .matrix false d a s
def execTpoll (d a : BitVec 5) (s : State) : Result := awaitTicket .matrix true d a s

/-- Sequences of the 16 slots, the one furthest behind MSEQ first (R283). -/
def Core.slotOrder (c : Core) : List (BitVec 16) :=
  (List.range 16).map (fun i => c.eng.mseq - BitVec.ofNat 16 (16 - i))

/-- Visits the complete slots that nobody has observed (R283), counting them. -/
def visitSlots : List (BitVec 16) → Nat → State → (Nat → State → Issue) → Issue
  | [], n, s, k => k n s
  | q :: r, n, s, k =>
    let x := s.core.slotOf .matrix q
    if x.state = 2 then observe .matrix q s (fun s => visitSlots r (n + 1) s k) else visitSlots r n s k

def execTwaitall (d : BitVec 5) (s : State) : Result :=
  (if s.core.eng.cards.isEmpty then
    visitSlots s.core.slotOrder 0 s fun n s => (s.setReg d (BitVec.ofNat 64 n)).next4
   else .wait s).result

/-! ### Starting a card (R261 to R263) -/

/-- Tile registers that a job reads, and those that it writes (R261, R276). -/
def TileJob.reads : TileJob → List (BitVec 3)
  | .tld _ => []
  | .tst m => [m]
  | .mma c a b z _ => if z then [a, b] else [a, b, c]
  | .tzero _ => []
  | .tmov _ a => [a]
  | .ttr _ a => [a]
  | .tcvt _ a => [a]
  | .tadd _ a b => [a, b]
  | .trowv a _ => [a]
  | .tvrow _ _ => []

def TileJob.writes : TileJob → List (BitVec 3)
  | .tld m => [m]
  | .tst _ => []
  | .mma c _ _ _ _ => [c]
  | .tzero d => [d]
  | .tmov d _ => [d]
  | .ttr d _ => [d]
  | .tcvt d _ => [d]
  | .tadd d _ _ => [d]
  | .trowv _ _ => []
  | .tvrow d _ => [d]

/-- One job writes a register that the other reads or writes (R261). -/
def TileJob.depends (a b : TileJob) : Bool :=
  a.writes.any (fun m => b.reads.contains m || b.writes.contains m) || b.writes.any (fun m => a.reads.contains m)

/-- The three units of the engine (R263). -/
inductive EngineUnit where
  | array | transfer | house
  deriving DecidableEq, Repr

def TileJob.unit : TileJob → EngineUnit
  | .mma _ _ _ _ _ => .array
  | .tld _ => .transfer
  | .tst _ => .transfer
  | _ => .house

/-- A started card keeps its unit busy: a transfer until its last row has moved or it parks (R263). -/
def TileCard.busy (k : TileCard) : Bool :=
  k.state == .started &&
    match k.job.unit with
    | .transfer => decide (k.prog < k.rowCount)
    | _ => true

/-- The unit of a job is free (R263). -/
def State.unitFree (s : State) (u : EngineUnit) : Bool :=
  !(s.allCores.any (fun c => c.eng.cards.any (fun k => k.job.unit == u && k.busy)))

/-- The first card of a queue that has not started, and whether the cards before it let it start (R261). -/
def nextCard : List TileCard → List TileCard → Option (TileCard × Bool)
  | [], _ => none
  | k :: r, before =>
    if k.state = .queued then some (k, !(before.any (fun e => e.job.depends k.job))) else nextCard r (before ++ [k])

/-- Replaces a card of the core in focus. -/
def Core.setCard (c : Core) (num : Nat) (f : TileCard → TileCard) : Core :=
  { c with eng := { c.eng with cards := c.eng.cards.map (fun k => if k.num = num then f k else k) } }

/-- The card of a number. -/
def Core.card (c : Core) (num : Nat) : Option TileCard := c.eng.cards.find? (fun k => k.num == num)

/-- The engine starts the oldest card of a core that has not started, when it can start (R261, R262). -/
def execTileJobStart (site : SiteId) (core : CoreId) (s : State) : Result :=
  let s := s.focus site core
  match nextCard s.core.eng.cards [] with
  | some (k, free) =>
    if s.engineRuns && free && s.unitFree k.job.unit && !(s.jobBlocked k.num k.footprint) then
      .next { s with core := s.core.setCard k.num (fun k => { k with state := .started }) }
    else .next s
  | none => .next s

/-! ### Rows of tld and tst (R266, R267, R269) -/

/-- A card leaves the queue. -/
def Core.dropCard (c : Core) (num : Nat) : Core :=
  { c with eng := { c.eng with cards := c.eng.cards.filter (fun k => k.num != num) } }

/-- The slot record of a card that has ended; none for a job without a ticket. -/
def TileCard.slotBytes (k : TileCard) (c : Core) : List Byte :=
  match k.seq with
  | some q => (c.slotOf .matrix q).bytes
  | none => []

/-- A job ends with a fault (R286): it is complete for every rule of order. -/
def endFaulted (k : TileCard) (cause : BitVec 4) (va : Word) (s : State) : State :=
  let c := s.core.dropCard k.num
  let c := match k.seq with
    | some q => c.endSlot .matrix q 0 cause va
    | none => c
  ({ s with core := c }).noteCompletion k.num (k.slotBytes c)

/-- The ticket of a card, or 0 (R289). -/
def TileCard.ticketOf (k : TileCard) (core : CoreId) : Word :=
  match k.seq with
  | some q => ticket .matrix core q
  | none => 0

/-- A row that cannot be translated or may not be reached parks its job (R286). -/
def parkCard (k : TileCard) (va : Nat) (write : Bool) (cause : Nat) (s : State) : State :=
  let why := (BitVec.ofNat 4 cause, BitVec.ofNat 64 va)
  ({ s with core := s.core.setCard k.num (fun k => { k with state := .parked, fault := some why }) }).postFault
    (k.ticketOf s.coreNo) why.2 write why.1

/-- A job whose end the log of a replay gives stops without a record of its own (R290, R442). -/
def haltCard (k : TileCard) (why : BitVec 4 × Word) (s : State) : State :=
  { s with core := s.core.setCard k.num (fun k => { k with state := .parked, fault := some why }) }

/-- The parts of row r: its data, and for b4 its scale bytes, with the virtual address and size of each. -/
def TileCard.parts (k : TileCard) (r : Nat) : List (Nat × Nat × Nat) :=
  (0, k.rowVa r, 128) :: (if k.scaled then [(1, k.scaleVa r, 8)] else [])

/-- The parts of a row are translated and checked together (R266, R267). -/
def checkParts (s : State) (need : Need) : List (Nat × Nat × Nat) → Except (Nat × Nat) (List (Nat × Nat × Nat × Target))
  | [] => .ok []
  | (p, va, n) :: r =>
    match s.translateNow need va with
    | .ok (.far ⟨.window _, _⟩) => .error (va, 5)
    | .ok (.far ⟨.device, _⟩) => .error (va, 5)
    | .ok t =>
      match checkParts s need r with
      | .ok l => .ok ((p, va, n, t) :: l)
      | .error e => .error e
    | .fail c => .error (va, c)
    | .miss => .error (va, 4)

/-- Bytes of a row, or its scale bytes. -/
def TReg.part (t : TReg) (r p : Nat) : List Byte :=
  if p = 0 then natBytes (vget t.rows r 0).toNat 128 else natBytes (vget t.scales r 0).toNat 8

/-- Writes a row, or its scale bytes, and the special flag with it (R44). -/
def TReg.setPart (t : TReg) (r p : Nat) (b : List Byte) : TReg :=
  (if p = 0 then { t with rows := vset t.rows r (BitVec.ofNat 1024 (leNat b)) }
   else { t with scales := vset t.scales r (BitVec.ofNat 64 (leNat b)) }).flagged

/-- The tile register that a transfer moves. -/
def TileJob.moved : TileJob → BitVec 3
  | .tld m => m
  | .tst m => m
  | _ => 0

/-- The race stamp of an access of the core in focus, when the place is checked (R174). -/
def State.stampFor (s : State) (sp : Space) (write : Bool) : Option RaceStamp :=
  match sp with
  | .spad _ => some (s.stamp write)
  | _ => none

/-- Moves one part of a row of a tld: own bytes at once, others by a request whose reply brings them. -/
def loadPart (k : TileCard) (r : Nat) (s : State) (x : Nat × Nat × Nat × Target) : State :=
  let m := k.job.moved
  match x.2.2.2 with
  | .own a =>
    let s := (linesOf a x.2.2.1).foldl (fun s l => s.touch (srcEngine s.coreNo) l false) s
    let st := s.stamp false
    { s with core := (s.core.setTReg m ((s.core.treg m).setPart r x.1 (s.tile.mem.readBytes a x.2.2.1))).tickAccess s.me none,
             tile := (linesOf a x.2.2.1).foldl (fun t l => t.noteLine st l) s.tile }
  | .far p =>
    let q := s.req p.space.cls 0 x.2.1 (s.stampFor p.space false)
    let f : Fetch := { id := s.wafer.nextId, va := x.2.1, lane := 2 * r + x.1 }
    let s := { s with core := (s.core.tickAccess s.me none).setCard k.num (fun k => { k with waits := k.waits ++ [f] }) }
    s.inject .relief p.dest (.rowLoad q k.num p.space ((List.range x.2.2.1).map (· + p.a)))

/-- Moves one part of a row of a tst: own bytes at once, others posted and counted (R269). -/
def storePart (k : TileCard) (r : Nat) (s : State) (x : Nat × Nat × Nat × Target) : State :=
  let bytes := (s.core.treg k.job.moved).part r x.1
  match x.2.2.2 with
  | .own a =>
    let s := (linesOf a x.2.2.1).foldl (fun s l => s.touch (srcEngine s.coreNo) l true) s
    let st := s.stamp true
    let s := { s with core := s.core.tickAccess s.me none,
                      tile := (linesOf a x.2.2.1).foldl (fun t l => t.noteLine st l) s.tile }
    s.writeOwn (cellsAt a bytes) true
  | .far p =>
    let cells := cellsAt p.a bytes
    let q := s.req p.space.cls (s.core.post.oseq + 1) x.2.1 (s.stampFor p.space true)
    let f : Fetch := { id := s.wafer.nextId, va := x.2.1, lane := 2 * r + x.1 }
    let dst := match p.space with
      | .spad l => l
      | _ => 0
    let c := ((s.core.nextOseq).countUp p.space.cls).tickAccess s.me (some (p.space.cls, dst))
    let s := { s with core := c.setCard k.num (fun k => { k with waits := k.waits ++ [f] }),
                      tile := s.tile.farDrop p.space cells }
    s.inject .main p.dest (.rowStore q k.num p.space cells)

/-- An own part of a row races (R174, R175). -/
def racingPart (s : State) (write : Bool) (l : List (Nat × Nat × Nat × Target)) : Option Nat :=
  let st := s.stamp write
  if st.trapping then
    l.findSome? (fun x => match x.2.2.2 with
      | .own a => if (linesOf a x.2.2.1).any (fun n => s.tile.races st n) then some x.2.1 else none
      | _ => none)
  else none

/-- The counts have room for the parts of a row (R153, R269). -/
def partsRoom (c : Core) (l : List (Nat × Nat × Nat × Target)) : Bool :=
  [PostClass.n, PostClass.m, PostClass.x].all (fun k =>
    decide (c.post.count k + (l.filter (fun x => match x.2.2.2 with
      | .far p => p.space.cls == k
      | _ => false)).length ≤ 256))

/-- A row of a transfer (R266): translated and checked, then moved; a tld moves on when its row is in. In a replay a job
stops at the row at which it ended (R290). -/
def moveRow (k : TileCard) (isLoad : Bool) (s : State) : State :=
  let r := k.prog
  let ends (causes : List (BitVec 4)) : Option (BitVec 4 × Word) :=
    (k.parts r).findSome? (fun x => s.endsAt k.num causes x.2.1)
  match ends [4, 5] with
  | some why => haltCard k why s
  | none =>
  match checkParts s (if isLoad then { r := true } else { w := true }) (k.parts r) with
  | .error (va, c) => parkCard k va (!isLoad) c s
  | .ok l =>
    match racingPart s (!isLoad) l with
    | some va => endFaulted k 9 (BitVec.ofNat 64 va) s
    | none =>
      if isLoad then
        let s := l.foldl (loadPart k r) s
        { s with core := s.core.setCard k.num (fun k => { k with prog := if k.waits.isEmpty then r + 1 else r }) }
      else if partsRoom s.core l then
        let s := l.foldl (storePart k r) s
        match ends [9] with
        | some why => haltCard k why s
        | none => { s with core := s.core.setCard k.num (fun k => { k with prog := r + 1 }) }
      else s

/-- One row of a started tld or tst (R266); a tld waits for the row it has asked for. -/
def execTileJobRow (site : SiteId) (core : CoreId) (card : Nat) (s : State) : Result :=
  let s := s.focus site core
  match s.core.card card with
  | some k =>
    if s.engineRuns && s.detRoom && k.state == .started && decide (k.prog < k.rowCount) then
      match k.job with
      | .tld _ => .next (if k.waits.isEmpty then moveRow k true s else s)
      | .tst _ => .next (moveRow k false s)
      | _ => .next s
    else .next s
  | none => .next s

/-! ### The arithmetic of mma (R60, R63 to R66) -/

/-- K and the group size g of an input tag (R63). -/
def mmaDepth (t : Tag) : Nat × Nat :=
  match t with
  | .bf16 | .f16 => (64, 4)
  | .b4 => (256, 16)
  | _ => (128, 8)

/-- Element k of row i of an input, as a value; b4 codes carry their block's scale (R42, R64). -/
def TReg.value (t : TReg) (tag : Tag) (i k : Nat) : FVal :=
  let x := rowElem (vget t.rows i 0) tag.width k
  match tag.float with
  | some f => f.value x
  | none => b4Value (field (vget t.scales i 0) (8 * (k / 32)) 8) x

/-- An exact group sum: whether it is a NaN, whether one was made or signalling, which infinities it holds, and its
finite part (R60, R64). -/
structure GroupSum where
  nan : Bool := false
  nv : Bool := false
  pos : Bool := false
  neg : Bool := false
  fin : Dyadic := ⟨0, 0⟩
  /-- Some value of A in the group is not zero (R66). -/
  live : Bool := false

/-- Adds a product of two values to a group sum (R60). -/
def GroupSum.step (g : GroupSum) (x y : FVal) : GroupSum :=
  let g := { g with live := g.live || !x.isZero }
  if x.isNaN || y.isNaN then { g with nan := true, nv := g.nv || x.isSignalling || y.isSignalling }
  else
    match mulValues x y with
    | none => { g with nan := true, nv := true }
    | some (.inf n) => if n then { g with neg := true } else { g with pos := true }
    | some v => { g with fin := g.fin.add v.dyadic }

/-- S negated (R272). -/
def GroupSum.negate (g : GroupSum) : GroupSum := { g with pos := g.neg, neg := g.pos, fin := g.fin.neg }

/-- C + S, rounded once to f32 by RNE, with the NaN rules of R60. An exact sum of zero is +0 (R51); but a group whose A
values are all zero leaves C as it is, as when the engine skips it (R66). -/
def addGroup (c : Nat) (g : GroupSum) : Nat × FpFlags :=
  let canonical := FloatFmt.f32.canonicalNaN
  if g.nan || g.pos && g.neg then (canonical, { nv := g.nv || g.pos && g.neg })
  else
    match FloatFmt.f32.value c with
    | .nan _ _ _ => (canonical, {})
    | .inf n => if (n && g.pos) || (!n && g.neg) then (canonical, .invalid) else (c, {})
    | .fin n m e =>
      if g.pos || g.neg then (FloatFmt.f32.infinity g.neg, {})
      else if !g.live then (c, {})
      else roundDyadic .f32 .rne false (Dyadic.add (FVal.fin n m e).dyadic g.fin)

/-- One element of a floating mma (R64): C normalised, then one rounding for each group. -/
def mmaElement (t : Tag) (neg : Bool) (a b : TReg) (i j c : Nat) : Nat × FpFlags :=
  let d := mmaDepth t
  let c0 := if c = 0x80000000 then 0 else c
  (List.range (d.1 / d.2)).foldl (fun r n =>
    let g := (List.range d.2).foldl (fun (g : GroupSum) k =>
      g.step (a.value t i (d.2 * n + k)) (b.value t j (d.2 * n + k))) {}
    let x := addGroup r.1 (if neg then g.negate else g)
    (x.1, r.2.or x.2)) (c0, {})

/-- One element of an i8 mma (R65, R272). -/
def mmaInteger (neg : Bool) (a b : TReg) (i j c : Nat) : Nat :=
  let sum := (List.range 128).foldl (fun (s : Int) k =>
    s + intValue true 8 (rowElem (vget a.rows i 0) 8 k) * intValue true 8 (rowElem (vget b.rows j 0) 8 k)) 0
  wrapInt 32 ((c : Int) + if neg then -sum else sum)

/-- A tile register made of rows, with its special flag under a tag (R44). -/
def TReg.make (tag : Tag) (rows : List Nat) (scales : Nat → Word) : TReg :=
  let r : TReg :=
    { rows := Vector.ofFn (fun (i : Fin 32) => BitVec.ofNat 1024 (rows.getD i.val 0)),
      scales := Vector.ofFn (fun (i : Fin 32) => scales i.val), tag := tag }
  r.flagged

/-- The rows of C after an mma, with its flags (R64, R65). -/
def mmaRows (t : Tag) (zero neg : Bool) (a b c : TReg) : List Nat × FpFlags :=
  let rows := (List.range 32).map (fun i =>
    (List.range 32).map (fun j =>
      let c0 := if zero then 0 else rowElem (vget c.rows i 0) 32 j
      if t = Tag.i8 then (mmaInteger neg a b i j c0, ({} : FpFlags)) else mmaElement t neg a b i j c0))
  (rows.map (fun r => packLanes 32 (r.map (·.1))), flagsOf (rows.flatten))

/-- The planted fault of PERTURB (R275): VALUE added to the bits of one element. -/
def perturbRows (p : Word) (rows : List Nat) : List Nat :=
  if p.getLsbD 63 then
    let i := field p 32 5
    let j := field p 40 5
    let r := rows.getD i 0
    rows.set i (setLane 32 j r ((r / 2 ^ (32 * j) + field p 0 32) % 2 ^ 32))
  else rows

/-! ### Housekeeping effects (R277 to R279) -/

/-- The rows of a register as numbers. -/
def TReg.rowNats (r : TReg) : List Nat := (List.range 32).map (fun i => (vget r.rows i 0).toNat)

/-- ttr (R277): each 32 × 32 block is transposed in place. -/
def transposed (t : Tag) (a : TReg) : List Nat :=
  let w := t.width
  (List.range 32).map (fun r =>
    packLanes w ((List.range t.rowLanes).map (fun e => rowElem (vget a.rows (e % 32) 0) w (e / 32 * 32 + r))))

/-- An element of a tile row as a conversion source (R235, R279). -/
def TReg.source (r : TReg) (t : Tag) (i k : Nat) : Nat × Nat :=
  match t with
  | .b4 => (field (vget r.scales i 0) (8 * (k / 32)) 8, rowElem (vget r.rows i 0) 4 k)
  | t => (0, rowElem (vget r.rows i 0) t.width k)

/-- The rows of a tcvt from row r on (R279), with flags; the generator goes on from row to row. -/
def convertRows (src tgt : Tag) (stochastic : Bool) (rm : Rounding) (a : TReg) : List Nat → Word → List Nat × FpFlags
  | [], _ => ([], {})
  | r :: rest, gs =>
    let lanes := (List.range tgt.rowLanes).map (fun k =>
      if k < min src.rowLanes tgt.rowLanes then some (a.source src r k) else none)
    let x := drawMap stochastic rm (convert src tgt) lanes gs
    let y := convertRows src tgt stochastic rm a rest x.2.2
    (packLanes tgt.width x.1 :: y.1, x.2.1.or y.2)

/-- An element sum of tadd (R277): f32 by RNE with the NaNs of R60, i32 wrapping. -/
def taddElement (t : Tag) (x y : Nat) : Nat × FpFlags :=
  if t = Tag.i32 then (wrapInt 32 ((x : Int) + y), {})
  else
    let u := FloatFmt.f32.value x
    let v := FloatFmt.f32.value y
    if u.isNaN || v.isNaN then (FloatFmt.f32.canonicalNaN, { nv := u.isSignalling || v.isSignalling })
    else fpAdd .f32 .rne x y

/-- The rows of a tadd with its flags (R277). -/
def taddRows (t : Tag) (a b : TReg) : List Nat × FpFlags :=
  let rows := (List.range 32).map (fun i =>
    (List.range 32).map (fun k => taddElement t (rowElem (vget a.rows i 0) 32 k) (rowElem (vget b.rows i 0) 32 k)))
  (rows.map (fun r => packLanes 32 (r.map (·.1))), flagsOf rows.flatten)

/-- A housekeeping job's effect (R277 to R279): the core's registers, and the flags it raises in FFLAGS (R280). -/
def housekeep (k : TileCard) (c : Core) : Core × FpFlags :=
  let keep (d : BitVec 3) (r : TReg) : Core := c.setTReg d { r with tag := (c.treg d).tag }.flagged
  match k.job with
  | .tzero d => (keep d {}, {})
  | .tmov d a => (keep d (c.treg a), {})
  | .ttr d a => (keep d (TReg.make k.dstTag (transposed k.srcTag (c.treg a)) (fun _ => 0)), {})
  | .tcvt d a =>
    let frm := k.frm
    let x := convertRows k.srcTag k.dstTag (frm.getLsbD 3 && narrowing k.srcTag k.dstTag)
      (Rounding.ofBits (frm.setWidth 2)) (c.treg a) (List.range (shapeRows k.shape)) k.gs
    (keep d (TReg.make k.dstTag x.1 (fun _ => 0)), x.2)
  | .tadd d a b =>
    let x := taddRows k.srcTag (c.treg a) (c.treg b)
    (keep d (TReg.make k.dstTag x.1 (fun i => vget (c.treg d).scales i 0)), x.2)
  | .trowv a v =>
    let r := c.treg a
    let i := field k.base 0 5
    let h := field k.base 5 1
    let data := (vget r.rows i 0).toNat / 2 ^ (512 * h) % 2 ^ 512
    let scales : W32 :=
      if k.srcTag = Tag.b4 then BitVec.ofNat 32 (field (vget r.scales i 0) (32 * h) 32) else (c.vreg v).scales
    (c.setVReg v (VReg.make k.srcTag data scales), {})
  | .tvrow d _ =>
    let r := c.treg d
    let i := field k.base 0 5
    let h := field k.base 5 1
    let rows := vset r.rows i (BitVec.ofNat 1024 (setLane 512 h (vget r.rows i 0).toNat k.vec.data.toNat))
    let scales := if k.srcTag = Tag.b4 then
        vset r.scales i (BitVec.ofNat 64 (setLane 32 h (vget r.scales i 0).toNat k.vec.scales.toNat))
      else r.scales
    (c.setTReg d { r with rows := rows, scales := scales }.flagged, {})
  | _ => (c, {})

/-! ### Completion (R266, R272, R275, R280, R284) -/

/-- A job whose completion is a determinant (R421): a ticketed one, or trowv. -/
def TileCard.recorded (k : TileCard) : Bool :=
  k.seq.isSome || match k.job with
    | .trowv _ _ => true
    | _ => false

/-- A job completes: its card leaves, its slot shows its flags. -/
def endCard (k : TileCard) (flags : FpFlags) (s : State) : State :=
  let c := s.core.dropCard k.num
  let c := match k.seq with
    | some q => c.endSlot .matrix q flags.bits 0 0
    | none => { c with wake := true }
  let s := { s with core := c }
  if k.recorded then s.noteCompletion k.num (k.slotBytes c) else s

/-- A tld completes: rows beyond the shape become zero, and the special flag is that of the content (R266). -/
def endLoad (k : TileCard) (m : BitVec 3) (s : State) : State :=
  let r := s.core.treg m
  let n := k.rowCount
  let x := TReg.make k.dstTag ((List.range 32).map (fun i => if i < n then (vget r.rows i 0).toNat else 0))
    (fun i => if i < n then vget r.scales i 0 else 0)
  endCard k {} { s with core := s.core.setTReg m { x with tag := r.tag }.flagged }

/-- The element that a detected perturbation names, as an error report (R480). -/
def perturbReport (k : TileCard) (core : CoreId) : ErrorReport :=
  { src := 6,
    addr := BitVec.ofNat 64 (core.toNat * 2 ^ 16 + (k.job.writes.headD 0).toNat * 2 ^ 13 + field k.perturb 32 5 * 2 ^ 8
      + field k.perturb 40 5),
    synd := BitVec.ofNat 64 (2 ^ 16 + 15 * 2 ^ 20) }

/-- An mma completes (R272); a perturbation that the residues show is a machine check, and nothing is written
(R274, R275). A perturbation that nothing detects is recorded with the completion, and a replay applies it again. -/
def endMultiply (k : TileCard) (c a b : BitVec 3) (zero neg : Bool) (s : State) : State :=
  let k := { k with perturb := s.injectionFor k.num k.perturb }
  if k.perturb.getLsbD 63 && !k.perturb.getLsbD 49 then s.machineCheck true (perturbReport k s.coreNo)
  else
    let r := s.core.treg c
    let x := mmaRows k.srcTag zero neg (s.core.treg a) (s.core.treg b) r
    let y := TReg.make k.dstTag (perturbRows k.perturb x.1) (fun i => vget r.scales i 0)
    (endCard k x.2 { s with core := s.core.setTReg c { y with tag := r.tag }.flagged }).noteInjection k.num k.perturb

/-- A started job completes (R263): its last result is written. In a replay one that parked and was failed ends as its
record says (R290). -/
def execTileJobComplete (site : SiteId) (core : CoreId) (card : Nat) (s : State) : Result :=
  let s := s.focus site core
  match s.core.card card with
  | some k =>
    if s.tile.stopped || !s.detRoom || (k.recorded && !s.mayComplete k.num) then .next s
    else if k.state != .started then
      .next (match k.state, s.recordedFault k.num with
        | .parked, some why => endFaulted k why.1 why.2 s
        | _, _ => s)
    else
      match k.job with
      | .tld m => .next (if k.prog = k.rowCount && k.waits.isEmpty then endLoad k m s else s)
      | .tst _ => .next (if k.prog = k.rowCount && k.waits.isEmpty then endCard k {} s else s)
      | .mma c a b z n => .next (endMultiply k c a b z n s)
      | _ =>
        let x := housekeep k s.core
        .next (endCard k {} { s with core := x.1.raise x.2.bits })
  | none => .next s

end Sys2Proof.Machine
end

