-- ==== Sys2Proof/Machine/Copy.lean ====
section
/-!
DEFINITION. Copy jobs (09_copy.md): the copy instructions, the start of a job, its chunks, and its end.
-/
namespace Sys2Proof.Machine

/-! ### Checksums (R307) -/

/-- n steps of the reflected polynomial (R307). -/
def crcSteps : Nat → W32 → W32
  | 0, v => v
  | n + 1, v => crcSteps n (if v.getLsbD 0 then (v >>> 1) ^^^ 0x82F63B78 else v >>> 1)

/-- crc32c(s, bytes) (R307). -/
def crc32c (s : W32) (b : List Byte) : W32 :=
  b.foldl (fun v x => crcSteps 8 (v ^^^ x.setWidth 32)) (s ^^^ 0xFFFFFFFF) ^^^ 0xFFFFFFFF

/-! ### The checks at issue (R294, R296) -/

/-- The card's bytes as a job: kind, address, fields (R294). -/
def readCard (kind : CopyKind) (xc : Word) (m : Memory) : CopyJob :=
  let a := xc.toNat
  let d (o : Nat) : Word := BitVec.ofNat 64 (m.readNat (a + o) 8)
  let w (o : Nat) : W32 := BitVec.ofNat 32 (m.readNat (a + o) 4)
  { num := 0, kind := kind, xc := xc, seq := 0, inject := 0, src := d 0, dst := d 8, len := m.readNat (a + 0x10) 4,
    ctl := w 0x14, seed := w 0x18, run := w 0x18, expect := w 0x1C, flag := d 0x20, rect := w 0x28 }

/-- CHAIN, COMPARE of a job (R294). -/
def CopyJob.chain (j : CopyJob) : Bool := j.kind == .copyc && j.ctl.getLsbD 0
def CopyJob.compares (j : CopyJob) : Bool := j.kind == .copyc && j.ctl.getLsbD 1

/-- The CTL bits that an instruction allows (R294). -/
def CopyKind.ctlBits : CopyKind → W32
  | .copyc => 7
  | _ => 4

/-- The rectangle lies in the job's (R296). -/
def rectFits (rect : W32) (W H : Nat) : Bool :=
  let t0 := field rect 0 12
  let w := field rect 12 7
  let h := field rect 19 6
  field rect 25 7 == 0 && decide (1 ≤ w) && decide (1 ≤ h) && decide (t0 % W + w ≤ W) && decide (t0 / W + h ≤ H)

/-- The offset of the first field that breaks step 4 of R296; pad is the dword at 0x2C. -/
def badField (j : CopyJob) (pad : Nat) (W H : Nat) : Option Nat :=
  let mc := j.kind == .mcast
  if mc && decide (spadSize < j.dst.toNat + j.len) then some 0x08
  else if j.len < 4 ∨ 2 ^ 30 < j.len then some 0x10
  else if j.ctl &&& ~~~j.kind.ctlBits ≠ 0 then some 0x14
  else if mc && j.flagset && decide (spadSize ≤ j.flag.toNat) then some 0x20
  else if (if mc then !rectFits j.rect W H else j.rect != 0) then some 0x28
  else if pad ≠ 0 then some 0x2C
  else none

/-- The first misaligned value of step 5 of R296. -/
def misalignedField (j : CopyJob) : Option Word :=
  if j.src.toNat % 4 ≠ 0 then some j.src
  else if j.dst.toNat % 4 ≠ 0 then some j.dst
  else if j.len % 4 ≠ 0 then some (BitVec.ofNat 64 j.len)
  else if j.flagset && decide (j.flag.toNat % 4 ≠ 0) then some j.flag
  else none

/-- The core issues its copyc job (R299, R300): what a chained one depends on. -/
def Core.chainOf (c : Core) (j : CopyJob) : CopyJob :=
  if j.chain then
    match c.cpy.lastCopyc with
    | none => j
    | some n =>
      if c.cpy.jobs.any (fun k => k.num == n) then { j with pred := some n } else { j with chained := c.cpy.lastResult }
  else j

/-- Queues a checked job (R292, R297, R299), with the fields of COPYINJ (R311, R314). -/
def queueJob (t : BitVec 5) (j : CopyJob) (s : State) : Issue :=
  let c := s.core
  let seq := c.cpy.cseq
  if 8 ≤ c.cpy.jobs.length ∨ (c.slotOf .copier seq).state = 1 then .wait s
  else
    let inj := c.cpy.inj
    let j := c.chainOf { j with num := s.tile.jobNo, seq := seq, inject := s.injectionFor s.tile.jobNo inj }
    let c := c.takeSlot .copier seq
    let c := { c with cpy := { c.cpy with
      cseq := seq + 1, jobs := c.cpy.jobs ++ [j], inj := inj &&& 0x7FFFFFFFFFFFFFFF,
      lastCopyc := if j.kind = .copyc then some j.num else c.cpy.lastCopyc } }
    let s := { s with core := c, tile := { s.tile with jobNo := s.tile.jobNo + 1 } }
    (s.setReg t (ticket .copier s.coreNo seq)).next4

/-- copy, copyc and mcast (R296, R299). -/
def copyJob (kind : CopyKind) (d a : BitVec 5) (s : State) : Result :=
  let xc := s.reg a
  (if xc.toNat % 64 ≠ 0 then Issue.trap 3 xc s
   else if spadSize ≤ xc.toNat + 63 then .trap 5 xc s
   else
     localAccess xc.toNat xc.toNat 64 false false s fun s =>
       let j := readCard kind xc s.tile.mem
       match badField j (s.tile.mem.readNat (xc.toNat + 0x2C) 4) s.tile.width s.tile.height with
       | some o => .trap 5 (xc + BitVec.ofNat 64 o) s
       | none =>
         match misalignedField j with
         | some v => .trap 3 v s
         | none => queueJob d j s).result

def execCopy (d a : BitVec 5) (s : State) : Result := copyJob .copy d a s
def execCopyc (d a : BitVec 5) (s : State) : Result := copyJob .copyc d a s
def execMcast (d a : BitVec 5) (s : State) : Result := copyJob .mcast d a s
def execCwait (d a : BitVec 5) (s : State) : Result := awaitTicket .copier false d a s
def execCpoll (d a : BitVec 5) (s : State) : Result := awaitTicket .copier true d a s

/-! ### Jobs of the core in focus -/

/-- The job of a number. -/
def Core.copyOf (c : Core) (num : Nat) : Option CopyJob := c.cpy.jobs.find? (fun j => j.num == num)

/-- Replaces a job. -/
def Core.setJob (c : Core) (num : Nat) (f : CopyJob → CopyJob) : Core :=
  { c with cpy := { c.cpy with jobs := c.cpy.jobs.map (fun j => if j.num = num then f j else j) } }

/-- Changes a job of the core in focus. -/
def State.setJob (s : State) (num : Nat) (f : CopyJob → CopyJob) : State := { s with core := s.core.setJob num f }

/-- The job ends with a cause once what it has sent is performed. -/
def CopyJob.end_ (j : CopyJob) (cause : BitVec 4) (addr : Word) : CopyJob :=
  { j with ending := some cause, endAddr := addr, reads := [] }

/-- A job whose end the log of a replay gives stops without a record of its own (R315, R442). -/
def haltJob (j : CopyJob) (why : BitVec 4 × Word) (s : State) : State := s.setJob j.num (fun j => j.end_ why.1 why.2)

/-- A job that fails a translation or permission check parks (R312). -/
def parkJob (j : CopyJob) (va : Nat) (write : Bool) (cause : Nat) (s : State) : State :=
  let why := (BitVec.ofNat 4 cause, BitVec.ofNat 64 va)
  (s.setJob j.num (fun j => { j with state := .parked, reads := [], fault := some why })).postFault
    (ticket .copier s.coreNo j.seq) why.2 write why.1

/-! ### The start of a job (R291, R292, R299, R300) -/

/-- The first job that has not started. -/
def Core.nextJob (c : Core) : Option CopyJob := c.cpy.jobs.find? (fun j => j.state == .queued)

/-- An address lies in HBM, host or peer memory (R291). -/
def State.outer (s : State) (va : Word) (write : Bool) : Bool :=
  match s.translateNow { r := !write, w := write } va.toNat with
  | .ok (.far p) => p.space.cached
  | _ => false

/-- Jobs in progress at the tile's unit (R291); a parked job holds no place (R312). -/
def State.inProgress (s : State) : Nat :=
  (s.allCores.map (fun c => (c.cpy.jobs.filter (fun j => j.state == .started && j.rim.isNone)).length)).sum

/-- The rim copy engine of a wafer logical tile (R291). -/
def rimEngine (l : TileNo) : Nat := l.toNat % 256

/-- The jobs that a rim copy engine has (R291), of every tile that it serves. -/
def State.engineJobs (s : State) (e : Nat) : List CopyJob :=
  (s.siteIds.filter (fun x => rimEngine (s.tileAt x).tile == e)).flatMap (fun x =>
    ((s.focus x 0).allCores.flatMap (fun c => c.cpy.jobs)).filter (fun j => j.rim.isSome))

/-- A rim engine starts a job now (R291): fewer than four are in progress, and none that reached it earlier waits. -/
def State.engineTakes (s : State) (n : Nat) : Bool :=
  let l := s.engineJobs (rimEngine s.tile.tile)
  decide ((l.filter (fun j => j.state == .started)).length < 4) &&
    l.all (fun j => j.state != .queued || decide (n ≤ j.rim.getD 0))

/-- The tile unit hands a job that can start to its rim engine, once (R291). -/
def State.handOver (s : State) (j : CopyJob) : State × Nat :=
  match j.rim with
  | some n => (s, n)
  | none =>
    let n := s.wafer.nextId
    ({ s.setJob j.num (fun j => { j with rim := some n }) with wafer := { s.wafer with nextId := n + 1 } }, n)

/-- The copy unit starts the oldest card of a core that can start, or hands it to a rim engine, which starts it in its
turn (R291, R292, R300). -/
def execCopyJobStart (site : SiteId) (core : CoreId) (s : State) : Result :=
  let s := s.focus site core
  match s.core.nextJob with
  | none => .next s
  | some j =>
    let can := s.engineRuns && j.pred.isNone && !(s.jobBlocked j.num (j.footprint s.tile))
    let begin (s : State) : State := s.setJob j.num (fun j => { j with state := .started })
    if j.rim.isSome || (j.kind != .mcast && s.outer j.src false && s.outer j.dst true) then
      if j.rim.isNone && !can then .next s
      else
        let h := s.handOver j
        .next (if s.engineRuns && h.1.engineTakes h.2 then begin h.1 else h.1)
    else .next (if can && decide (s.inProgress < 4) then begin s else s)

/-- The tile and address of an address in a scratchpad. -/
def State.spadOf (s : State) (va : Word) (need : Need) : Except Nat (Option (TileNo × Nat)) :=
  match s.translateNow need va.toNat with
  | .ok (.own a) => .ok (some (s.tile.tile, a))
  | .ok (.far ⟨.spad l, a⟩) => .ok (some (l, a))
  | .ok _ => .ok none
  | .fail c => .error c
  | .miss => .error 4

/-- The tile and address of the flag word of a copy or copyc (R299): translated with the first byte of DST; the first
failure is an address with its cause, and none says that FLAG is no word of the tile of that page. -/
def State.flagPlace (s : State) (j : CopyJob) : Except (Nat × Nat) (Option (TileNo × Nat)) :=
  match s.spadOf j.flag { w := true }, s.spadOf j.dst { w := true } with
  | .error c, _ => .error (j.flag.toNat, c)
  | _, .error c => .error (j.dst.toNat, c)
  | .ok (some f), .ok (some d) => .ok (if f.1 = d.1 then some f else none)
  | _, _ => .ok none

/-- The checks of a job's start (R299): the chain with its seed, and the flag word of FLAGSET. -/
def startChecks (j : CopyJob) (s : State) : State :=
  if j.chain && j.chained.1 then s.setJob j.num (fun j => { j with checked := true }.end_ 13 j.xc)
  else
    let s := s.setJob j.num (fun j => { j with run := if j.chain then j.chained.2 else j.run })
    if j.flagset && j.kind != .mcast then
      match [j.flag, j.dst].findSome? (fun a => s.endsAt j.num [4, 5] a.toNat), s.flagPlace j with
      | some why, _ => haltJob j why s
      | none, .error (va, c) => parkJob j va true c s
      | none, .ok (some f) => s.setJob j.num (fun j => { j with checked := true, flagAt := some f })
      | none, .ok none => s.setJob j.num (fun j => { j with checked := true }.end_ 5 j.flag)
    else s.setJob j.num (fun j => { j with checked := true })

/-! ### Chunks (R299, R302, R303, R306, R308, R311) -/

/-- First byte and length of chunk c (R299). -/
def CopyJob.chunkAt (j : CopyJob) (c : Nat) : Nat × Nat := (4096 * c, min 4096 (j.len - 4096 * c))

/-- The pieces of n bytes from a virtual address that lie in one page each: address and length. -/
def pagePieces (va : Word) (n : Nat) : List (Nat × Nat) :=
  let first := min n (4096 - va.toNat % 4096)
  (va.toNat, first) :: (if first < n then [((va + BitVec.ofNat 64 first).toNat, n - first)] else [])

/-- The pieces are translated and checked in order; a failure names its address and cause. Only types 0 to 3
and the own window can be copied. -/
def checkPieces (s : State) (need : Need) : List (Nat × Nat) → Except (Nat × Nat) (List (Nat × Nat × Target))
  | [] => .ok []
  | (va, n) :: r =>
    match s.translateNow need va with
    | .ok (.far ⟨.window _, _⟩) => .error (va, 5)
    | .ok (.far ⟨.device, _⟩) => .error (va, 5)
    | .ok t =>
      match checkPieces s need r with
      | .ok l => .ok ((va, n, t) :: l)
      | .error e => .error e
    | .fail c => .error (va, c)
    | .miss => .error (va, 4)

/-- The tiles of a multicast's rectangle (R306). -/
def CopyJob.targets (j : CopyJob) (t : Tile) : List Nat :=
  (List.range t.tiles).filter (inRect j.rect t.width)

/-- Where the pieces of a chunk go (R299, R306): for a multicast the same offsets in every tile of RECT; a tile whose points
entry is absent is a protection fault (R16). -/
def destinations (j : CopyJob) (off n : Nat) (s : State) : Except (Nat × Nat) (List (Nat × Nat × Target)) :=
  match j.kind with
  | .mcast =>
    let a := j.dst.toNat + off
    let ts := (j.targets s.tile).map s.tile.logical
    if ts.all (fun l => l == s.tile.tile || (findPoint s.junction.points l.toNat).isSome) then
      .ok (ts.map (fun l => (a, n, if l = s.tile.tile then Target.own a else .far { space := .spad l, a := a })))
    else .error (a, 5)
  | _ => checkPieces s { w := true } (pagePieces (j.dst + BitVec.ofNat 64 off) n)

/-- Some own piece races (R174, R175). -/
def racingPiece (s : State) (write : Bool) (l : List (Nat × Nat × Target)) : Bool :=
  let st := s.stamp write
  st.trapping && l.any (fun x => match x.2.2 with
    | .own a => (linesOf a x.2.1).any (fun n => s.tile.races st n)
    | _ => false)

/-- An own piece is reached by the copy unit in tile-local order (R302). -/
def State.copyTouch (s : State) (a n : Nat) (write : Bool) : State :=
  let st := s.stamp write
  let s := (linesOf a n).foldl (fun s l => s.touch srcCopy l write) s
  { s with core := s.core.tickAccess s.me none, tile := (linesOf a n).foldl (fun t l => t.noteLine st l) s.tile }

/-- The stamp of a chunk that goes to a scratchpad (R174). -/
def copyStamp (s : State) (sp : Space) (write : Bool) : Option RaceStamp :=
  match sp with
  | .spad _ => some (s.stamp write)
  | _ => none

/-- Reads one piece of a chunk: own bytes at once, others by a request. -/
def readPiece (j : CopyJob) (s : State) (x : Nat × Nat × Target) : State :=
  match x.2.2 with
  | .own a =>
    let s := s.copyTouch a x.2.1 false
    let f : Fetch := { id := s.wafer.nextId, va := x.1, reply := some (.data (s.tile.mem.readBytes a x.2.1) []) }
    let s := s.setJob j.num (fun j => { j with reads := j.reads ++ [f] })
    { s with wafer := { s.wafer with nextId := s.wafer.nextId + 1 } }
  | .far p =>
    let q := s.req p.space.cls 0 x.1 (copyStamp s p.space false)
    let f : Fetch := { id := s.wafer.nextId, va := x.1 }
    let s := { s with core := s.core.tickAccess s.me none }.setJob j.num (fun j => { j with reads := j.reads ++ [f] })
    s.inject .relief p.dest (.chunkRead q j.num p.space p.a x.2.1)

/-- The byte of COPYINJ inverted in a chunk's bytes from offset off (R311). -/
def injected (inj : Word) (off : Nat) (b : List Byte) : List Byte :=
  let o := field inj 0 32
  if inj.getLsbD 63 && decide (off ≤ o) && decide (o < off + b.length) then
    b.set (o - off) (b.getD (o - off) 0 ^^^ BitVec.ofNat 8 (2 ^ field inj 32 3))
  else b

/-- A chunk failed its checksum (R308): a deferred error, marked when it was injected. -/
def State.chunkError (s : State) (j : CopyJob) (va : Word) (here there : W32) : State :=
  s.tileError (newError 2 false (j.inject.getLsbD 63)
    { src := 11, addr := va, synd := BitVec.ofNat 64 (here.toNat + there.toNat * 2 ^ 32) } s.clock)

/-- The destination address of the chunk in hand, as ADDR gives it (R297). -/
def CopyJob.chunkVa (j : CopyJob) : Word := j.dst + BitVec.ofNat 64 (4096 * j.prog)

/-- The part of a chunk's bytes that goes to a piece. -/
def CopyJob.slice (j : CopyJob) (off : Nat) (bytes : List Byte) (x : Nat × Nat × Target) : List Byte :=
  (bytes.drop (BitVec.ofNat 64 x.1 - (j.dst + BitVec.ofNat 64 off)).toNat).take x.2.1

/-- A piece is performed here. -/
def writeOwnPiece (s : State) (x : Nat × List Byte) : State :=
  (s.copyTouch x.1 x.2.length true).writeOwn (cellsAt x.1 x.2) true

/-- A flag word's tag becomes full, handing on what the core knows (R169, R299). -/
def setFlagHere (a : Nat) (s : State) : State :=
  { s with tile := s.tile.tagBy a true (s.publish s.tile.tile) }.tagChanged a

/-- The pieces of a chunk by destination (R303, R308): those that go to one memory by way of one unit go together. -/
def byPlace : List (Nat × Nat × Target) → List (List (Nat × Nat × Target))
  | [] => []
  | x :: r =>
    match byPlace r with
    | (y :: g) :: gs =>
      let same := match x.2.2, y.2.2 with
        | .own _, .own _ => true
        | .far p, .far q => p.space == q.space && p.dest == q.dest
        | _, _ => false
      if same then (x :: y :: g) :: gs else [x] :: (y :: g) :: gs
    | gs => [x] :: gs

/-- Sends what goes to one destination, or performs it here, its checksum over all its bytes (R308). A multicast inverts
the injected bit only in the copy for the lowest tile (R311). -/
def sendPieces (j : CopyJob) (off : Nat) (bytes : List Byte) (first : Nat) (s : State) (g : List (Nat × Nat × Target)) :
    State :=
  let check := crc32c 0 (g.flatMap (j.slice off bytes))
  let hit := j.kind != .mcast || g.any (fun x => match x.2.2 with
    | .own _ => s.tile.jt.toNat == first
    | .far p => p.space == .spad (s.tile.logical first))
  let sent := if hit then injected j.inject off bytes else bytes
  match g with
  | (va, _, .far p) :: _ =>
    let q := s.req p.space.cls (s.core.post.oseq + 1) va (copyStamp s p.space true)
    let id := s.wafer.nextId
    let parts := g.filterMap (fun x => match x.2.2 with
      | .far p => some (p.a, x.2.1)
      | .own _ => none)
    let c : Chunk := { card := j.num, bytes := g.flatMap (j.slice off sent), check := check, parts := parts }
    let core := s.core.nextOseq.tickAccess s.me none
    let s := { s with core := core.setJob j.num (fun j => { j with waits := j.waits ++ [(id, p.space.cls)] }),
                      tile := s.tile.farDrop p.space (parts.flatMap (fun (x : Nat × Nat) => cellsAt x.1 (List.replicate x.2 0))) }
    s.inject .main p.dest (.chunk q p.space c)
  | g =>
    let l := g.filterMap (fun x => match x.2.2 with
      | .own a => some (a, j.slice off sent x)
      | .far _ => none)
    let s := l.foldl writeOwnPiece s
    let found := crc32c 0 (l.flatMap (·.2))
    if found = check then s
    else (s.chunkError j j.chunkVa check found).setJob j.num (fun j => j.end_ 14 j.chunkVa)

/-- The chunk in hand is performed everywhere: RUN takes it in and PROG moves on (R299), but in a replay of a job that
ended there. -/
def chunkDone (num : Nat) (s : State) : State :=
  s.setJob num (fun j =>
    if j.waits.isEmpty && j.sent == j.prog + 1 && j.ending.isNone then
      match s.endsAt num [9, 14] j.chunkVa.toNat with
      | some why => j.end_ why.1 why.2
      | none => { j with prog := j.sent, run := j.next }
    else j)

/-- The classes in which a chunk counts, each once (R303). -/
def chunkClasses (l : List (Nat × Nat × Target)) : List PostClass :=
  [PostClass.n, PostClass.m, PostClass.x].filter (fun k => l.any (fun x => match x.2.2 with
    | .far p => p.space.cls == k
    | _ => false))

/-- Delivers the chunk in hand, whose bytes have been read (R299, R308). It counts 1 in the class of its destination
(R303), for a multicast in PSTN; when its two pages have different classes, 1 in each (assumption 65). -/
def deliver (j : CopyJob) (dsts : List (Nat × Nat × Target)) (s : State) : State :=
  let bytes := j.reads.flatMap Fetch.bytes
  let off := 4096 * j.prog
  let cls := chunkClasses dsts
  if racingPiece s true dsts then s.setJob j.num (fun j => j.end_ 9 j.chunkVa)
  else if !cls.all s.core.countRoom then s
  else
    let s := s.setJob j.num (fun j =>
      { j with sent := j.prog + 1, reads := [], next := if j.kind = .copyc then crc32c j.run bytes else j.run })
    let s := (byPlace dsts).foldl (sendPieces j off bytes ((j.targets s.tile).headD 0)) s
    chunkDone j.num { s with core := cls.foldl Core.countUp s.core }

/-- One turn of a job on its chunk (R299): the checks, the reads, and, once they are in, the delivery. When pages of both
ends fail, the record names the source's (assumption 81). -/
def chunkTurn (j : CopyJob) (s : State) : State :=
  let (off, n) := j.chunkAt j.prog
  match s.endsAt j.num [4, 5] j.chunkVa.toNat with
  | some why => haltJob j why s
  | none =>
  match checkPieces s { r := true } (pagePieces (j.src + BitVec.ofNat 64 off) n), destinations j off n s with
  | .error (va, c), _ => parkJob j va false c s
  | _, .error (va, c) => parkJob j va true c s
  | .ok srcs, .ok dsts =>
    match j.reads with
    | [] =>
      if racingPiece s false srcs then s.setJob j.num (fun j => j.end_ 9 j.chunkVa)
      else
        let s := srcs.foldl (readPiece j) s
        match s.core.copyOf j.num with
        | some j => if j.reads.all (fun f => f.reply.isSome) then deliver j dsts s else s
        | none => s
    | fs => if fs.all (fun f => f.reply.isSome) then deliver j dsts s else s

/-- A started job makes its checks, or moves a chunk (R299). -/
def execCopyChunk (site : SiteId) (core : CoreId) (card : Nat) (s : State) : Result :=
  let s := s.focus site core
  match s.core.copyOf card with
  | some j =>
    if s.tile.stopped || !s.detRoom || j.state != .started || j.ending.isSome then .next s
    else if !j.checked then .next (if s.core.stopAsked then s else startChecks j s)
    else if j.sent = j.prog && decide (j.prog < j.chunks) && (!s.core.stopAsked || !j.reads.isEmpty) then
      .next (chunkTurn j s)
    else .next s
  | none => .next s

/-! ### The end of a job (R299) -/

/-- STATUS of a job that ends with a cause (R294, R299). -/
def CopyJob.status (j : CopyJob) (k : BitVec 4) : Word :=
  BitVec.ofNat 64 (k.toNat * 2 ^ 36 + (if k = 0 then 0 else 2 ^ 33) + 2 ^ 32
    + (if j.kind = .copyc && k != 13 then j.run.toNat else 0))

/-- A copyc has ended: what the jobs chained to it see (R299, R300). -/
def Core.copycEnded (c : Core) (num : Nat) (r : Bool × W32) : Core :=
  { c with cpy := { c.cpy with
      lastResult := if c.cpy.lastCopyc = some num then r else c.cpy.lastResult,
      jobs := c.cpy.jobs.map (fun j => if j.pred = some num then { j with pred := none, chained := r } else j) } }

/-- end(k) (R299): STATUS and DONEB are written as a local store, and the slot is complete; an injection is recorded with
the completion (R311). -/
def endJob (j : CopyJob) (k : BitVec 4) (s : State) : State :=
  let a := j.xc.toNat + 0x30
  let done := min (4096 * j.prog) j.len
  let s := s.touch (srcCore s.coreNo) (a / 256) true
  let s := s.writeOwn (cellsAt a (natBytes (j.status k).toNat 8 ++ natBytes done 8)) true
  let c := s.core
  let c := { c with cpy := { c.cpy with jobs := c.cpy.jobs.filter (fun x => x.num != j.num) } }
  let c := if j.kind = .copyc then c.copycEnded j.num (k != 0, if k = 13 then 0 else j.run) else c
  let c := c.endSlot .copier j.seq 0 k (if k = 0 then 0 else j.endAddr)
  (({ s with core := c }).noteCompletion j.num (c.slotOf .copier j.seq).bytes).noteInjection j.num j.inject

/-- The flag words of a job (R299): for a multicast the word at offset FLAG of every destination tile; otherwise the one
that the start has checked. -/
def CopyJob.flags (j : CopyJob) (s : State) : List (TileNo × Nat) :=
  if j.kind = .mcast then (j.targets s.tile).map (fun t => (s.tile.logical t, j.flag.toNat))
  else
    match j.flagAt, s.flagPlace j with
    | some f, _ => [f]
    | none, .ok (some f) => [f]
    | none, _ => []

/-- Sets one flag word full, here or by a packet that is acknowledged (R299). -/
def sendFlag (j : CopyJob) (s : State) (f : TileNo × Nat) : State :=
  if f.1 = s.tile.tile then setFlagHere f.2 s
  else
    let st := { s.stamp true with known := s.publish f.1 }
    let s := { s with core := s.core.nextOseq }
    let q := s.req .n s.core.post.oseq j.flag.toNat (some st)
    let id := s.wafer.nextId
    (s.setJob j.num (fun j => { j with waits := j.waits ++ [(id, .n)] })).inject .main (.tile f.1)
      (.setFlag q j.num f.1 f.2)

/-- Every chunk has been performed: the compare, then the flags, then the end (R299). -/
def finishJob (j : CopyJob) (s : State) : State :=
  if j.compares && j.run != j.expect then endJob { j with endAddr := j.xc } 15 s
  else if j.flagset && !j.flagSent then
    let fs := j.flags s
    let s := fs.foldl (sendFlag j) (s.setJob j.num (fun j => { j with flagSent := true }))
    if fs.all (fun f => f.1 == s.tile.tile) then endJob j 0 s else s
  else endJob j 0 s

/-- A job whose chunks have all been performed, or that has failed, ends (R299). -/
def execCopyJobEnd (site : SiteId) (core : CoreId) (card : Nat) (s : State) : Result :=
  let s := s.focus site core
  match s.core.copyOf card with
  | some j =>
    if s.tile.stopped || !s.detRoom || j.state != .started || !j.waits.isEmpty || !s.mayComplete j.num then .next s
    else
      match j.ending with
      | some k => .next (endJob j k s)
      | none => .next (if j.checked && j.prog == j.chunks then finishJob j s else s)
  | none => .next s

end Sys2Proof.Machine
end

