-- ==== Sys2Proof/Machine/Flows.lean ====
section
/-!
DEFINITION. Flows of a signal box (12_signalbox.md): the flow table, which packets a flow takes, and the header and
payload that a kernel sees (R373 to R377, R383, R481).
-/
namespace Sys2Proof.Machine

/-! ### The flow table (R377) -/

/-- The 32-bit word at an offset of a flow's entry. -/
def Box.word (b : Box) (f : BitVec 6) (o : Nat) : W32 := BitVec.ofNat 32 (b.table.readNat (64 * f.toNat + o) 4)

/-- Writes the 32-bit word at an offset of a flow's entry. -/
def Box.setWord (b : Box) (f : BitVec 6) (o : Nat) (v : W32) : Box :=
  { b with table := b.table.writeCells (cellsAt (64 * f.toNat + o) (natBytes v.toNat 4)),
           freshFlows := insertNat f.toNat b.freshFlows }

/-- VALID, STATEFUL and POLICY of CTL. -/
def Box.valid (b : Box) (f : BitVec 6) : Bool := (b.word f 0).getLsbD 0
def Box.stateful (b : Box) (f : BitVec 6) : Bool := (b.word f 0).getLsbD 1
def Box.dropPolicy (b : Box) (f : BitVec 6) : Bool := (b.word f 0).getLsbD 2

/-- CLASSES and JOB of CTL. -/
def Box.classes (b : Box) (f : BitVec 6) : Nat := field (b.word f 0) 4 3
def Box.job (b : Box) (f : BitVec 6) : BitVec 6 := BitVec.ofNat 6 (field (b.word f 0) 8 6)

/-- ENTRY and LEN of PROG. -/
def Box.entry (b : Box) (f : BitVec 6) : Nat := field (b.word f 4) 0 11
def Box.len (b : Box) (f : BitVec 6) : Nat := field (b.word f 4) 12 11

/-- First byte and size of the state window (R391). -/
def Box.windowBase (b : Box) (f : BitVec 6) : Nat := field (b.word f 8) 0 10 * 32
def Box.windowSize (b : Box) (f : BitVec 6) : Nat := field (b.word f 8) 10 11 * 32

def Box.budget (b : Box) (f : BitVec 6) : Nat := field (b.word f 0xC) 0 9

/-- ALT[k] and ALTN. -/
def Box.alt (b : Box) (f : BitVec 6) (k : Nat) : Nat :=
  field (BitVec.ofNat 64 (b.table.readNat (64 * f.toNat + 0x20) 8)) (12 * k) 12
def Box.altn (b : Box) (f : BitVec 6) : Nat := field (b.word f 0x24) 16 3

/-- First job tile, width and height of MEMBERS. -/
def Box.members (b : Box) (f : BitVec 6) : Nat × Nat × Nat :=
  let m := b.word f 0x30
  (field m 0 12, field m 12 7, field m 19 6)

/-! ### What a packet is to a flow (R374, R383, R481) -/

/-- The header of a packet that a flow may take (R383); its fields but for FLOW and STIDX. -/
structure Header where
  cls : Nat
  srct : TileNo
  srcc : CoreId
  job : BitVec 6
  dcore : CoreId := 0
  dq : BitVec 4 := 0
  addr : Nat := 0
  beats : Nat := 1
  bytes : Nat := 32
  seq : W32 := 0
  op : Nat := 0
  plane : Nat := 1
  replay : Bool := false
  deriving DecidableEq, Repr

/-- The header of a packet of a class of R374; none for the packets that no flow takes. -/
def Msg.header : Msg → Option Header
  | .message m =>
    if m.counted then
      some { cls := 0, srct := m.jt, srcc := m.core, job := m.job, dcore := m.dst, dq := m.q, seq := m.seq,
             replay := m.replay }
    else none
  | .store r (.spad _) cells =>
    match (cells.map (·.1)).min?, (cells.map (·.1)).max? with
    | some first, some last =>
      if r.listed then
        some { cls := 1, srct := r.jt, srcc := r.src.core, job := r.job, addr := first,
               beats := last % 128 / 32 + 1, bytes := last - first + 1, plane := 0, replay := r.replay }
      else none
    | _, _ => none
  | .acc q =>
    match q.place.space, q.op with
    | .spad _, .acc op =>
      if q.det || q.must || q.flush || !q.parts.isEmpty then none
      else
        some { cls := 2, srct := q.req.jt, srcc := q.req.src.core, job := q.req.job, addr := q.place.a,
               bytes := op.size, seq := q.req.seq, op := op.code, replay := q.req.replay }
    | _, _ => none
  | _ => none

/-- A flow takes a packet with a header (R374). -/
def Box.takes (b : Box) (h : Header) (f : BitVec 6) : Bool :=
  b.valid f && b.classes f / 2 ^ h.cls % 2 == 1 &&
    (if h.cls = 0 then (b.word f 0x10).getLsbD h.dcore.toNat && (b.word f 0x10).getLsbD (16 + h.dq.toNat)
     else decide (field (b.word f 0x18) 0 23 ≤ h.addr) && decide (h.addr < field (b.word f 0x1C) 0 24))

/-- The 64 flow numbers. -/
def flowIds : List (BitVec 6) := (List.range 64).map (BitVec.ofNat 6)

/-- The flow that takes a packet, which has not been through a kernel (R374, R375). -/
def Box.flowOf (b : Box) (p : Packet) : Option (BitVec 6) :=
  if p.processed || b.table.isEmpty then none
  else
    match p.msg.header with
    | some h => flowIds.find? (b.takes h)
    | none => none

/-- The place of a job tile in MEMBERS, when it lies there (R383). -/
def memberIndex (m : Nat × Nat × Nat) (W t : Nat) : Option Nat :=
  let (t0, w, h) := m
  let dx := t % W - t0 % W
  let dy := t / W - t0 / W
  if t0 % W ≤ t % W ∧ dx < w ∧ t0 / W ≤ t / W ∧ dy < h then some ((t - t0) % W + (t - t0) / W * w) else none

/-- A packet that a flow takes but that bypasses the kernel (R376). -/
def Box.bypasses (b : Box) (W : Nat) (f : BitVec 6) (h : Header) : Bool :=
  h.job != b.job f || (b.stateful f && (memberIndex (b.members f) W h.srct.toNat).isNone)

/-! ### The payload beats (R383) -/

/-- The bytes of a packet's flit: a store's bytes lie where its address puts them within 128 bytes. -/
def Msg.flit : Msg → List Host.Cell
  | .message m => cellsAt 0 (natBytes m.data.toNat 32)
  | .store _ _ cells => cells.map (fun c => (c.1 % 128, c.2))
  | .acc q =>
    match q.op with
    | .acc op => cellsAt 0 (natBytes q.value.toNat op.size)
    | _ => []
  | _ => []

/-- The four beats of a packet. -/
def Msg.beats (m : Msg) : Vector V256 4 :=
  let mem : Memory := Memory.writeCells [] m.flit
  #v[BitVec.ofNat 256 (mem.readNat 0 32), BitVec.ofNat 256 (mem.readNat 32 32), BitVec.ofNat 256 (mem.readNat 64 32),
     BitVec.ofNat 256 (mem.readNat 96 32)]

/-- A byte of the beats. -/
def beatByte (b : Vector V256 4) (o : Nat) : Byte := (vget b (o / 32) 0).extractLsb' (8 * (o % 32)) 8

/-- The packet with its payload taken from the beats; bytes that it does not deliver are dropped (R383, R481). An
accumulate leaves a kernel must-accept (R380). -/
def Msg.withBeats (m : Msg) (b : Vector V256 4) : Msg :=
  match m with
  | .message x => .message { x with data := vget b 0 0 }
  | .store r sp cells => .store r sp (cells.map (fun c => (c.1, beatByte b (c.1 % 128))))
  | .acc q =>
    match q.op with
    | .acc op => .acc { q with value := BitVec.ofNat 64 (field (vget b 0 0) 0 (8 * op.size)), must := true }
    | _ => .acc q
  | m => m

/-- An accumulate that is forwarded is delivered must-accept (R380). -/
def Msg.mustAccept (interval : W32) : Msg → Msg
  | .acc q => .acc { q with must := true, boxed := some interval }
  | m => m

/-- The packet sent to another tile, at the same core, q or scratchpad address (R380); it issues there anew, for the order
of R167 (assumption 75). -/
def Msg.reroute (m : Msg) (l : TileNo) (order : Nat) : Msg :=
  match m with
  | .store r _ cells => .store { r with fetch := order } (.spad l) cells
  | .acc q => .acc { q with place := { q.place with space := .spad l }, req := { q.req with fetch := order } }
  | .message x => .message { x with order := order }
  | m => m

end Sys2Proof.Machine
end

