-- ==== Sys2Proof/Machine/Packets.lean ====
section
/-!
DEFINITION. What every arrival shares: the sites, sending from a rim unit, when an arrived packet may be performed, the
marks of a destination, the memories behind the rim, and the determinants of what enters a tile.
-/
namespace Sys2Proof.Machine

/-! ### Sites -/

/-- Brings a site into focus, at the core that was last in focus there. -/
def State.focusSite (s : State) (x : SiteId) : State :=
  if x = s.site then s else s.focus x (findSite s.wafer.sites x).coreNo

/-- Applies a change at another site, and comes back. -/
def State.atSite (s : State) (x : SiteId) (f : State → State) : State := (f (s.focusSite x)).focus s.site s.coreNo

/-- The site that carries a logical tile: its own junction's entry names it (R16). -/
def State.carrier (s : State) (l : TileNo) : Option SiteId :=
  s.siteIds.find? (fun x => findPoint (s.junctionAt x).points l.toNat == some x && (s.tileAt x).tile == l)

/-- The sites whose tiles belong to a job. -/
def State.jobSites (s : State) (j : BitVec 6) : List SiteId := s.siteIds.filter (fun x => (s.tileAt x).job == some j)

/-- Applies a change at each of some sites. -/
def State.atSites (s : State) (f : State → State) : List SiteId → State
  | [] => s
  | x :: r => (s.atSite x f).atSites f r

/-! ### Sending from a rim unit (R26) -/

/-- A packet from the unit attached at a site's junction. -/
def State.rimSend (s : State) (x : SiteId) (line : Line) (d : Dest) (m : Msg) : State :=
  let p : Packet :=
    { id := s.wafer.nextId, line := line, origin := x, dest := d, site := (s.resolve d).getD x, fromRim := true,
      msg := m }
  { s with wafer := { s.wafer with net := s.wafer.net ++ [p], nextId := s.wafer.nextId + 1 } }

/-- Sends from the rim unit at a site, or from the tile in focus. -/
def State.sendAs (s : State) (rim : Option SiteId) (line : Line) (d : Dest) (m : Msg) : State :=
  match rim with
  | some x => s.rimSend x line d m
  | none => s.inject line d m

/-- The acknowledgement of a posted access (R152), with the cause and address of the failure that it met. -/
def State.ackTo (s : State) (rim : Option SiteId) (r : Req) (failed : Option (Nat × Word)) (flush : Bool) : State :=
  s.sendAs rim .relief (.tile r.src.tile) (.ack r.src r.cls failed flush (r.half.map (fun _ => r.seq)))

/-! ### When an arrived packet may be performed (R24, R317, R378, R433, R442, R450) -/

/-- A packet that the hosting tile performs, which waits behind the signal box's queue (R378). -/
def Msg.isRequest : Msg → Bool
  | .store _ _ _ => true
  | .stf _ _ _ _ => true
  | .load _ _ _ => true
  | .put _ _ _ _ _ => true
  | .fullEmpty _ _ _ _ _ => true
  | .waita _ _ _ _ => true
  | .acc _ => true
  | .amo _ => true
  | .message _ => true
  | .chunk _ _ _ => true
  | .chunkRead _ _ _ _ _ => true
  | .setFlag _ _ _ _ => true
  | .rowStore _ _ _ _ => true
  | .rowLoad _ _ _ _ => true
  | .window _ _ _ _ _ => true
  | .device _ _ _ => true
  | _ => false

/-- A packet that a replaying tile takes from the network: acknowledgements and confirmations (R442). -/
def Msg.passesReplay : Msg → Bool
  | .ack _ _ _ _ _ => true
  | .chunkAck _ _ _ _ _ _ => true
  | .rowAck _ _ _ _ _ => true
  | .confirm _ _ => true
  | _ => false

/-- A message, which its destination's junction may hold (R317). -/
def Msg.isMessage : Msg → Bool
  | .message _ => true
  | _ => false

/-- An accumulate or an atomic, which a slice takes into its queue before it performs it (R178). -/
def Msg.queues : Msg → Bool
  | .acc _ => true
  | .amo _ => true
  | _ => false

/-- The junctions that injected a packet, or the packets merged into it, and its number at each (R24, R192). -/
def Packet.injections (p : Packet) : List (SiteId × Nat) := if p.joined.isEmpty then [(p.origin, p.id)] else p.joined

/-- One junction injected both packets. -/
def Packet.sharesOrigin (p q : Packet) : Bool := p.injections.any (fun a => q.injections.any (fun b => a.1 == b.1))

/-- An arrived packet for the same tile or unit that must go first: of the same junction on the same line, or a message
that the destination's junction holds with the arrivals behind it (R24, R317). -/
def State.behind (s : State) (p : Packet) (n : Nat) : Bool :=
  s.wafer.net.any (fun q =>
    match q.arrived with
    | some m =>
      decide (m < n) && q.site == p.site && q.dest == p.dest && q.line == p.line && (q.sharesOrigin p || q.msg.isMessage)
    | none => false)

/-! ### The order of one core's accesses (R167 to R169, R318, R335) -/

/-- The posted accesses that a packet carries: their cores, and their numbers in the order of issue (R152, R167). -/
def Msg.postedBy : Msg → List (CoreRef × Nat)
  | .store r _ _ => [(r.src, r.fetch)]
  | .stf r _ _ _ => [(r.src, r.fetch)]
  | .put r _ _ _ _ => [(r.src, r.fetch)]
  | .rowStore r _ _ _ => [(r.src, r.fetch)]
  | .acc q => if q.parts.isEmpty then [(q.req.src, q.req.fetch)] else q.parts.map (fun m => (m.1.src, m.1.fetch))
  | .message m => if m.fromBox then [] else [({ tile := m.tile, core := m.core }, m.order)]
  | _ => []

/-- The bytes that a posted access writes. -/
def Msg.written : Msg → Option (Space × List Nat)
  | .store _ sp c => some (sp, c.map (·.1))
  | .stf _ l a _ => some (.spad l, [a, a + 1, a + 2, a + 3])
  | .put _ l c f _ => some (.spad l, c.map (·.1) ++ [f, f + 1, f + 2, f + 3])
  | .rowStore _ _ sp c => some (sp, c.map (·.1))
  | .acc q => some (q.place.space, (List.range 8).map (q.place.a + ·))
  | _ => none

/-- The blocking access that a packet carries: its core and number, and the bytes that it reads or acts on; a line of
the far cache counts whole (R163, R168). -/
def Msg.blocking : Msg → Option (CoreRef × Nat × Space × List Nat)
  | .load r sp l => some (r.src, r.fetch, sp, l)
  | .line r sp b => some (r.src, r.fetch, sp, (List.range 256).map (b + ·))
  | .fullEmpty r _ l a _ => some (r.src, r.fetch, .spad l, [a, a + 1, a + 2, a + 3])
  | .waita r l a _ => some (r.src, r.fetch, .spad l, [a, a + 1, a + 2, a + 3])
  | .amo q => some (q.req.src, q.req.fetch, q.place.space, (List.range 8).map (q.place.a + ·))
  | .window r l a n none => some (r.src, r.fetch, .window l, (List.range n).map (a + ·))
  | _ => none

/-- A destination of R167, by its first place: a job tile's scratchpad, a rim memory controller, a 4 KiB page of host
memory or of a peer wafer. -/
def orderKey (sp : Space) (a : Nat) : Option Place :=
  match sp with
  | .spad _ => some { space := sp, a := 0 }
  | .hbm => some { space := sp, a := a / 4096 % 40 }
  | .host _ => some { space := sp, a := a / 4096 }
  | .peer _ => some { space := sp, a := a / 4096 }
  | _ => none

/-- The destination to which a packet's posted accesses keep their order (R167, R318). -/
def Packet.orderPlace (p : Packet) : Option Place :=
  match p.msg, p.dest with
  | .message _, .tile l => orderKey (.spad l) 0
  | m, _ => m.written.bind (fun w => orderKey w.1 (w.2.headD 0))

/-- A full/empty access that sets a tag, which shows its core's earlier accesses to the tile (R169). -/
def Msg.setsTag : Msg → Option TileNo
  | .fullEmpty _ .ldfe l _ _ => some l
  | .fullEmpty _ .ste l _ _ => some l
  | .fullEmpty _ .settag l _ _ => some l
  | _ => none

/-- A packet carries a posted access that one of another packet's accesses follows: a posted one to the same destination
(R167), a tag that is set there (R169), or an access to the same bytes (R168, R335). -/
def Packet.follows (p q : Packet) : Bool :=
  let first := q.msg.postedBy
  let after (c : CoreRef) (n : Nat) : Bool := first.any (fun b => b.1 == c && decide (b.2 < n))
  p.msg != q.msg && ((p.msg.postedBy.any (fun a => after a.1 a.2) && p.orderPlace.isSome && p.orderPlace == q.orderPlace) ||
    match p.msg.blocking with
    | some (c, n, sp, l) =>
      after c n && ((p.msg.setsTag.isSome && q.orderPlace == (p.msg.setsTag.bind (fun t => orderKey (.spad t) 0))) ||
        match q.msg.written with
        | some w => w.1 == sp && l.any w.2.contains
        | none => false)
    | none => false)

/-- A packet that stands for a request in a slice's queue. -/
def AccReq.packet (q : AccReq) (site : SiteId) : Packet :=
  { id := 0, line := .relief, origin := site, dest := q.place.dest, site := site, epoch := q.epoch,
    msg := match q.op with
      | .acc _ => .acc q
      | .amo _ _ => .amo q }

/-- The requests that wait in the slices of a tile or a rim controller. -/
def queued (l : List Slice) : List Packet := l.flatMap (fun x => x.queue.map (fun q => q.packet 0))

/-- What a packet's destination has taken in and not performed: kernel packets and queued accumulates. -/
def State.takenIn (s : State) (p : Packet) : List Packet :=
  match p.dest with
  | .controller c => queued ((s.wafer.rim.slices.filter (fun x => x.1 / 8 == c)).map (·.2))
  | .tile _ =>
    let b := s.tile.box
    b.queue.map (·.2) ++ (b.run.map (·.pkt)).toList ++ queued s.tile.slices.toList
  | _ => []

/-- A packet waits for an earlier access of its core that is on its way (R167 to R169). -/
def State.orderWaits (s : State) (p : Packet) : Bool := s.wafer.net.any p.follows

/-- A packet waits for an earlier access of its core that its destination has taken in; a slice takes requests in
without a wait, and performs them in order (R167, R178). -/
def State.queueWaits (s : State) (p : Packet) : Bool := !p.msg.queues && (s.takenIn p).any p.follows

/-- One packet arrives before another: injected earlier at one junction, on one line, towards one site (R24), or of an
earlier access of the same core that the other follows (R167 to R169). -/
def Packet.precedes (q p : Packet) : Bool :=
  p.follows q ||
    (p.id != q.id && p.line == q.line && p.site == q.site &&
      p.injections.any (fun a => q.injections.any (fun b => a.1 == b.1 && decide (b.2 < a.2))))

/-- An earlier packet waits in the signal box's queue or run (R378). -/
def Box.holds (b : Box) (n : Nat) : Bool :=
  (b.queue.map (·.2) ++ (b.run.map (·.pkt)).toList).any (fun q =>
    match q.arrived with
    | some m => decide (m < n)
    | none => false)

/-- A packet that a depot round tells apart by its epoch (R450): what changes its tile, but for answers to requests,
which no tile has outstanding at its boundary. -/
def Msg.crosses : Msg → Bool
  | .release _ _ => true
  | m => m.isRequest

/-- The open depot round of the tile's job (R450). -/
def State.openRound (s : State) : Option DepotRound := 
  s.wafer.healing.rounds.find? (fun r => some r.job == s.tile.job && !r.complete)

/-- A request of the other epoch reached a tile that has not taken its depot boundary (R450). -/
def State.induces (s : State) (p : Packet) : Bool :=
  match s.openRound with
  | some r => p.msg.crosses && !(r.closed.contains s.tile.tile) && p.epoch != s.tile.intv.getLsbD 48
  | none => false

/-- Where the next bytes of a channel record go (R419, R450). -/
def Waybill.channelCells (b : Waybill) (l : List Byte) : List Host.Cell :=
  (l.zipIdx b.channelAt).map (fun p => (b.region + 0x1800000 + p.2 % 2 ^ 23, p.1))

/-- A channel record keeps a packet, and its entry is written to HBM (R419, R450; assumption 90). -/
def Waybill.keepPacket (b : Waybill) (epoch : BitVec 16) (p : Packet) (entry : List Byte) : Waybill :=
  { b with channel := b.channel ++ [(epoch, p)], channelAt := b.channelAt + entry.length }

/-- A request of the old epoch reached a tile that has taken its depot boundary: the channel record keeps it (R450). -/
def State.recordChannel (s : State) (p : Packet) : State :=
  match s.openRound with
  | some r =>
    if p.msg.crosses && r.closed.contains s.tile.tile && p.epoch != s.tile.intv.getLsbD 48 then
      let w := s.wafer
      let entry := Config.channelEntry w.free
      let mine (b : Waybill) : Bool := b.tile == s.tile.tile
      let cells := (w.healing.waybills.filter mine).flatMap (fun b => b.channelCells entry)
      let bs := w.healing.waybills.map (fun b => if mine b then b.keepPacket r.epoch p entry else b)
      { s with wafer := { w with
        free := w.free + 1, hbm := w.hbm.writeCells cells, healing := { w.healing with waybills := bs } } }
    else s
  | none => s

/-- A packet for a logical tile that shares the site in focus and is saved in HBM (R30, R371). -/
def State.forAway (s : State) (p : Packet) : Bool :=
  s.wafer.healing.away.any (fun a => a.site == s.site && p.dest == .tile a.image.tile.tile)

/-- A packet that has arrived at the site in focus may enter its tile, or its signal box, now. -/
def State.mayEnter (s : State) (p : Packet) (n : Nat) : Bool :=
  !s.forAway p && !s.junction.passThrough && !s.tile.stopped && !s.behind p n && !s.orderWaits p && s.detRoom &&
    !s.induces p && (s.tile.replay.isNone || p.msg.passesReplay)

/-- A packet that has arrived at the site in focus may be taken by its tile now: no flow takes it, and nothing before
it waits in the signal box. -/
def State.mayTake (s : State) (p : Packet) (n : Nat) : Bool :=
  s.mayEnter p n && !s.queueWaits p && !(p.msg.isRequest && s.tile.box.holds n) && (s.tile.box.flowOf p).isNone

/-- A packet that goes to a rim unit. -/
def Dest.rim : Dest → Bool
  | .tile _ => false
  | .site _ => false
  | _ => true

/-- The requester of a request that leaves no record when it is answered: a read, a wait, or an accumulate that is
refused (R421). -/
def Msg.unrecorded : Msg → Option CoreRef
  | .load r _ _ => some r.src
  | .rowLoad r _ _ _ => some r.src
  | .chunkRead r _ _ _ _ => some r.src
  | .window r _ _ _ none => some r.src
  | .waita r _ _ _ => some r.src
  | .cancel r _ _ => some r.src
  | .acc q => some q.req.src
  | _ => none

/-- An answer, which waits for the records before it (R423). -/
def Msg.answers : Msg → Bool
  | .reply _ _ _ _ => true
  | .rowReply _ _ _ _ => true
  | .chunkData _ _ _ _ => true
  | .cancelAnswer _ _ _ => true
  | .bounce _ _ => true
  | .mergedBounce _ => true
  | _ => false

/-- The answers formed since a packet number belong to a request, which its sender holds until it has one (R445). -/
def State.asking (s : State) (first : Nat) (m : Msg) : State :=
  if m.unrecorded.isSome then
    { s with wafer := { s.wafer with net := s.wafer.net.map (fun p =>
        if decide (first ≤ p.id) && p.origin == s.site && p.msg.answers then { p with asks := some m } else p) } }
  else s

/-- An event takes an arrived packet: it is performed at its tile or its rim unit, or it waits and nothing changes. -/
def State.take (s : State) (id : Nat) (k : Packet → State → Option State) : Result :=
  match s.packet id with
  | none => .next s
  | some p =>
    match p.arrived with
    | none => .next s
    | some n =>
      if p.dest.rim then
        if s.behind p n || s.orderWaits p || s.queueWaits p then .next s
        else
          match k p (s.dropPacket id) with
          | some t => .next t
          | none => .next s
      else
        let t := s.focusSite p.site
        if t.mayTake p n then
          match k p ((t.dropPacket id).recordChannel p) with
          | some u => .next (u.asking t.wafer.nextId p.msg)
          | none => .next s
        else .next s

/-- The rim unit that performs a packet, by the site that it attaches to. -/
def Packet.rim (p : Packet) : Option SiteId := if p.dest.rim then some p.site else none

/-! ### Marks (R184, R427) -/

/-- A replay-flagged request whose sequence stands at or below its mark, or a packet of a line that has been performed
(R184, R427, R481). -/
def repeated (l : List Mark) (r : Req) (pick : Mark → Option W32) : Bool :=
  r.replay &&
    match findMark l r.src with
    | some m => underMark (pick m) r.seq || m.tookHalf r
    | none => false

/-- Advances the OSEQ mark of a source. -/
def Tile.markOseq (t : Tile) (r : Req) : Tile := { t with marks := putMark t.marks r.src (fun m => m.takeOseq r) }

/-- The marks of a rim controller. -/
def State.rimMarks (s : State) (c : Nat) : List Mark :=
  match s.wafer.rim.marks.find? (fun p => p.1 == c) with
  | some p => p.2
  | none => []

/-- Changes the marks of a rim controller. -/
def State.setRimMarks (s : State) (c : Nat) (l : List Mark) : State :=
  { s with wafer := { s.wafer with rim := { s.wafer.rim with
      marks := (c, l) :: s.wafer.rim.marks.filter (fun p => p.1 != c) } } }

/-- A posted write to a memory behind the rim is performed once (R427, R443): a rim controller keeps marks for it. -/
def State.rimOnce (s : State) (p : Packet) (r : Req) (again : State → State) (k : State → State) : Option State :=
  match p.dest with
  | .controller c =>
    let marks := s.rimMarks c
    if repeated marks r Mark.oseq then some (again s)
    else if !markRoom marks r.src then none
    else some (k (s.setRimMarks c (putMark marks r.src (fun m => m.takeOseq r))))
  | _ => some (k s)

/-! ### Determinants of what enters the tile (R421, R422, R428) -/

/-- A packet that enters the tile is recorded, and its sender keeps it for a replay (R421, R428). -/
def State.noteInput (s : State) (kind : DetKind) (core : CoreId) (slice : BitVec 3) (pos : Nat) (src : CoreRef)
    (jt : TileNo) (seq : W32) (payload : List Byte) (p : Packet) (places : List Nat := [])
    (runs : Option Nat := none) : State :=
  if !s.keepsWaybill || s.tile.replay.isSome then s
  else
    let h := s.wafer.healing
    let e : SentEntry :=
      { src := if p.fromRim then none else some (s.tileAt p.origin).tile, dst := s.tile.tile, num := s.detCount, pkt := p }
    let s := { s with wafer := { s.wafer with healing := { h with sent := h.sent ++ [e] } } }
    s.noteDet
      { kind := kind, core := core, slice := slice, pos := pos,
        srcKind := if p.fromRim then .rim else .core, src := jt.toNat, srcCore := src.core, seq := seq, payload := payload,
        places := places, runs := runs }

/-- A remote write that the tile performs at an address (R421, kind 8). -/
def State.noteWrite (s : State) (r : Req) (a : Nat) (payload : List Byte) (p : Packet) (runs : Option Nat := none) :
    State :=
  let k := a / 256 % 8
  s.noteInput .remoteWrite 0 (BitVec.ofNat 3 k) (vget s.tile.sliceCount k 0) r.src r.jt r.seq (payload.take 8) p [] runs

/-! ### The memories behind the rim (R26, R139, R146, R165, R450) -/

/-- First key of the memory that an MHL port reaches (R139). -/
def hostBase (p : BitVec 3) : Nat := Config.hostOf p * 2 ^ 52

/-- First key of a peer wafer's memory. -/
def peerBase (w : BitVec 8) : Nat := w.toNat * 2 ^ 52

/-- n bytes of HBM, host memory or peer memory. -/
def Wafer.bytesAt (w : Wafer) (sp : Space) (a n : Nat) : List Byte :=
  match sp with
  | .hbm => w.hbm.readBytes a n
  | .host p => w.host.readBytes (hostBase p + a) n
  | .peer x => w.peer.readBytes (peerBase x + a) n
  | _ => List.replicate n 0

/-- The bytes at listed addresses. -/
def Wafer.cellsOf (w : Wafer) (sp : Space) (l : List Nat) : List Byte := l.flatMap (fun a => w.bytesAt sp a 1)

/-- An address lies in a sector (R437); its 32 bytes are the model's choice (assumption 79). -/
def BadSector.holds (b : BadSector) (a : Nat) : Bool := a / 32 == b.a / 32

/-- HBM addresses that a controller does not deliver (R437). -/
def Rim.fails (r : Rim) (l : List Nat) : Bool :=
  l.any (fun a => r.poisoned.contains (a / 4096) || r.failing.any (fun b => b.holds a))

/-- An error is recorded in the bank of a rim controller (R435, R436). -/
def State.controllerError (s : State) (c : Nat) (e : ErrRec) : State :=
  let rim := s.wafer.rim
  let bank := match rim.banks.find? (fun p => p.1 == c) with
    | some p => p.2
    | none => Vector.replicate 4 {}
  let r := bank.add e
  let s := { s with wafer := { s.wafer with rim := { rim with banks := putKey rim.banks c r.1 } } }
  s.postError (8256 + c) e r.2

/-- A read meets a failing sector (R437): the error is recorded at its controller, and the page is posted to the host
driver as poisoned. -/
def State.poisonPage (job : BitVec 6) (src : CoreRef) (va : Word) (s : State) (b : BadSector) : State :=
  let page := b.a / 4096
  let s := s.controllerError (page % 40)
    (newError 3 false false { src := b.src, addr := BitVec.ofNat 64 (b.a / 32 * 32), synd := b.synd } s.clock)
  let f : FaultRec :=
    { job := job, tile := src.tile, core := src.core, ticket := 0, va := va, write := false, cause := 4,
      poison := some page }
  let rim := s.wafer.rim
  { s with wafer := { s.wafer with
      faults := s.wafer.faults ++ [f],
      rim := { rim with poisoned := insertNat page rim.poisoned, failing := rim.failing.filter (· != b) } } }

/-- A read of listed addresses that the controller does not deliver (R437): what it leaves behind. None: it delivers
the data. -/
def State.undelivered (s : State) (sp : Space) (l : List Nat) (job : BitVec 6) (src : CoreRef) (va : Word) :
    Option State :=
  if sp = .hbm && s.wafer.rim.fails l then
    some ((s.wafer.rim.failing.filter (fun b => l.any b.holds)).foldl (State.poisonPage job src va) s)
  else none

/-- n addresses from one on. -/
def span (a n : Nat) : List Nat := (List.range n).map (a + ·)

/-- Shifts the addresses of cells. -/
def shiftCells (n : Nat) (l : List Host.Cell) : List Host.Cell := l.map (fun c => (n + c.1, c.2))

/-- What an open depot round keeps of a write of a job to HBM (R450): lines before the first write of the new epoch,
and later writes of the old one. -/
def DepotRound.keep (r : DepotRound) (hbm : Memory) (epoch : Bool) (cells : List Host.Cell) : DepotRound :=
  if r.complete || epoch == r.epoch.getLsbD 0 then
    let ls := (cells.map (fun c => c.1 / 256)).eraseDups.filter (fun l => !(r.lines.any (fun k => k.1 == l)))
    { r with lines := r.lines ++ ls.map (fun l => (l, bytesLine (hbm.readBytes (256 * l) 256))) }
  else { r with late := r.late ++ cells.filter (fun c => r.lines.any (fun k => k.1 == c.1 / 256)) }

/-- A write behind the rim, for a job in an epoch. -/
def Wafer.put (w : Wafer) (sp : Space) (job : BitVec 6) (epoch : Bool) (cells : List Host.Cell) : Wafer :=
  match sp with
  | .hbm =>
    { w with
      healing := { w.healing with
        rounds := w.healing.rounds.map (fun r => if r.job = job then r.keep w.hbm epoch cells else r) },
      hbm := w.hbm.writeCells cells }
  | .host p => { w with host := w.host.writeCells (shiftCells (hostBase p) cells) }
  | .peer x => { w with peer := w.peer.writeCells (shiftCells (peerBase x) cells) }
  | _ => w

/-- The rim side nearest to a site (R26, R146): 0 north, 1 east, 2 south, 3 west; the first of equals. -/
def nearestSide (x : SiteId) : Nat :=
  let cx := field x 0 6
  let cy := field x 6 6
  let d := [cy, 63 - cx, 63 - cy, cx]
  [1, 2, 3].foldl (fun m i => if d.getD i 0 < d.getD m 0 then i else m) 0

/-- An access of a tile counts at the unit that keeps its region's counter (R146): above the threshold a hint is
posted and the counter cleared. -/
def State.countAccess (s : State) (unit side a : Nat) (origin : SiteId) (job : BitVec 6) : State :=
  if nearestSide origin = side then s
  else
    let rim := s.wafer.rim
    let region := a / 65536
    let old := match rim.hits.find? (fun h => h.1 == unit && h.2.1 == region) with
      | some h => h.2.2
      | none => 0
    let new := min (old + 1) 0xFFFF
    let limit := match rim.limits.find? (fun l => l.1 == unit) with
      | some l => l.2
      | none => 0xFFFF
    let rest := rim.hits.filter (fun h => !(h.1 == unit && h.2.1 == region))
    if limit < new then
      { s with wafer := { s.wafer with
          rim := { rim with hits := rest }, notices := s.wafer.notices ++ [Notice.migration job region new] } }
    else { s with wafer := { s.wafer with rim := { rim with hits := (unit, region, new) :: rest } } }

/-- An access from a site to HBM or host memory counts (R146). -/
def State.countSpace (s : State) (origin : SiteId) (sp : Space) (a : Nat) (job : BitVec 6) : State :=
  match sp with
  | .hbm => let c := a / 4096 % 40; s.countAccess c (c / 10) a origin job
  | .host q => s.countAccess (40 + q.toNat) (q.toNat / 2) a origin job
  | _ => s

/-- An access of a packet to HBM or host memory counts (R146). -/
def State.countFor (s : State) (p : Packet) (sp : Space) (a : Nat) (job : BitVec 6) : State :=
  s.countSpace p.origin sp a job

end Sys2Proof.Machine
end

