-- ==== Sys2Proof/Machine/VectorMem.lean ====
section
/-!
DEFINITION. Vector loads and stores (07_vector.md, R250 to R254) and the vector accumulates (06_accumulate.md, R211, R212).
-/
namespace Sys2Proof.Machine

/-! ### Addresses of elements (R251) -/

/-- An element of a vector access: its index, or its place after the codes for a scale byte, its virtual address and
its size. -/
structure Element where
  i : Nat
  va : Nat
  size : Nat
  deriving DecidableEq, Repr

/-- Elements of a contiguous or strided access under a tag (R251), the selected ones in ascending order. -/
def elementsOf (base stride : Word) (t : Tag) (sel : Nat → Bool) : List Element :=
  (List.range t.lanes).filterMap (fun i =>
    if sel i then some { i := i, va := (base + BitVec.ofNat 64 i * stride).toNat, size := t.width / 8 } else none)

/-- Elements of a b4 access (R251): four blocks of codes, then the four scale bytes. -/
def blockElements (base scales : Word) : List Element :=
  (List.range 4).map (fun j => { i := j, va := (base + BitVec.ofNat 64 (16 * j)).toNat, size := 16 }) ++
    (List.range 4).map (fun j => { i := 4 + j, va := (scales + BitVec.ofNat 64 j).toNat, size := 1 })

/-- The checks of R140 on one element: alignment, translation, protection, and the race of a line of the own scratchpad
(R174, R175). Device registers take accesses of 8 bytes only (R469). -/
def Element.check (need : Need) (write : Bool) (s : State) (e : Element) : Checked :=
  if e.va % e.size ≠ 0 then .fail 3
  else
    match s.translate need e.va with
    | .ok (.far ⟨.device, _⟩) => .fail 5
    | .ok (.own a) =>
      let st := s.stamp write
      if st.trapping && s.tile.races st (a / 256) then .fail 9 else .ok (.own a)
    | r => r

/-- Every element is checked under R140 in ascending order, before anything is performed (R252): the elements that pass,
and the first that does not, with its cause, or none where it waits for its translation. -/
def checkElements (need : Need) (write : Bool) (s : State) :
    List Element → List (Element × Target) × Option (Element × Option Nat)
  | [] => ([], none)
  | e :: r =>
    match e.check need write s with
    | .ok t =>
      let x := checkElements need write s r
      ((e, t) :: x.1, x.2)
    | .fail c => ([], some (e, some c))
    | .miss => ([], some (e, none))

/-- The line of a target: its memory and first address. -/
def Target.lineOf (own : TileNo) : Target → Place
  | .own a => { space := .spad own, a := a / 256 * 256 }
  | .far p => { space := p.space, a := p.a / 256 * 256 }

/-- The first elements of each 256-byte line, in order. -/
def firstOfLines (own : TileNo) : List (Element × Target) → List Place → List (Element × Target)
  | [], _ => []
  | e :: r, seen =>
    let l := e.2.lineOf own
    if seen.contains l then firstOfLines own r seen else e :: firstOfLines own r (seen ++ [l])

/-- Some element overlaps a footprint (R171). -/
def State.elementsStall (s : State) (es : List (Element × Target)) (write : Bool) : Bool :=
  es.any (fun e => s.footprintStall e.1.va e.1.size write)

/-- Lines of the own scratchpad that a vector access reaches, each once. -/
def ownLines (es : List (Element × Target)) : List Nat :=
  es.foldl (fun l e => match e.2 with
    | .own a => insertNat (a / 256) l
    | _ => l) []

/-- The lines of the own scratchpad are reached as one access (R252). -/
def State.touchOwn (s : State) (es : List (Element × Target)) (write : Bool) : State :=
  let lines := ownLines es
  if lines.isEmpty then s
  else
    let st := s.stamp write
    let s := lines.foldl (fun s l => s.touch (srcCore s.coreNo) l write) s
    { s with tile := lines.foldl (fun t l => t.noteLine st l) s.tile, core := s.core.tickAccess s.me none }

/-! ### Loads of kinds 0 to 2 (R252) -/

/-- The first elements of each 256-byte line of virtual addresses, in order: what a load asks for. -/
def firstOfPages : List (Element × Target) → List Nat → List (Element × Target)
  | [], _ => []
  | e :: r, seen =>
    if seen.contains (e.1.va / 256) then firstOfPages r seen else e :: firstOfPages r (seen ++ [e.1.va / 256])

/-- An answer that the instruction has at once, in the place of a request. -/
def State.pendNow (s : State) (va : Nat) (rep : Reply) : State :=
  let f : Fetch := { id := s.wafer.nextId, va := va, reply := some rep }
  { s with core := { s.core with pend := s.core.pend ++ [f] }, wafer := { s.wafer with nextId := s.wafer.nextId + 1 } }

/-- Asks for one line of a load, for its first element: the own scratchpad and a far-cache hit answer at once. -/
def State.fetchLine (s : State) (e : Element) (t : Target) : State :=
  match t with
  | .own a => s.pendNow e.va (.data (s.tile.mem.readBytes (a / 256 * 256) 256) [])
  | .far p =>
    match (if p.space.cached then s.tile.farLine p.space p.a else none) with
    | some l => { s with tile := s.tile.farUse l }.pendNow e.va (.data (lineBytes l.data) [])
    | none => s.requestLoad { p with a := p.a / 256 * 256 } e.va 256 0 true

/-- The bytes of an element from the lines that answered. -/
def elementBytes (fs : List Fetch) (e : Element) : Nat :=
  match fs.find? (fun f => f.va / 256 == e.va / 256) with
  | some f => leNat ((f.bytes.drop (e.va % 256)).take e.size)
  | none => 0

/-- Elements in other tiles' scratchpads, whose races are found there and trap (R174, R175). -/
def State.racingAway (s : State) (ts : List (Element × Target)) : List (Element × Target) :=
  if (s.stamp false).trapping then
    ts.filter (fun e => match e.2 with
      | .far ⟨.spad _, _⟩ => true
      | _ => false)
  else []

/-- Asks for the lines of some elements; with every answer there, the load goes on. -/
def askLines (ts : List (Element × Target)) (last : State → State) (finish : List Fetch → State → Issue) (s : State) :
    Issue :=
  if s.elementsStall ts false || !s.detRoom then .wait s
  else
    let s := s.touchOwn ts false
    let s := last ((firstOfPages ts []).foldl (fun s e => s.fetchLine e.1 e.2) s)
    if s.core.pend.all (fun f => f.reply.isSome) then finish s.core.pend { s with core := { s.core with pend := [] } }
    else .wait s

/-- A load of kinds 0 to 2 (R252): checked as a whole, asked for line by line, written when every line is in. Where an
element fails its checks, the lines before it that may race elsewhere are asked for first: the lowest failure traps. -/
def vectorLoad (w : BitVec 2) (es : List Element) (write : List Fetch → State → State) (s : State) : Issue :=
  let finish (fs : List Fetch) (s : State) : Issue :=
    match failedFetch fs with
    | some (c, va) => .trap c (BitVec.ofNat 64 va) s
    | none => (write fs s).next4
  blocked s
    (fun s => waitW w s fun s =>
      match checkElements { r := true } false s es with
      | (_, some (e, none)) => .wait (s.startWalk e.va)
      | (ts, some (e, some c)) =>
        match s.racingAway ts with
        | [] => .trap c (BitVec.ofNat 64 e.va) s
        | ts => askLines ts (fun s => s.pendNow e.va (.fault c)) finish s
      | (ts, none) => askLines ts id finish s)
    finish

/-- Writes the loaded elements into v under a tag; elements not loaded stay. -/
def State.setLoaded (s : State) (v : BitVec 5) (t : Tag) (es : List Element) (fs : List Fetch) : State :=
  let r := s.core.vreg v
  let data := es.foldl (fun d e => setLane t.width e.i d (elementBytes fs e)) r.data.toNat
  { s with core := s.core.setVReg v (VReg.make t data r.scales) }

/-- The tag field of a VM word, or an illegal trap (R48, R250). -/
def withTag (t : BitVec 5) (allowed : Tag → Bool) (word : Word) (s : State) (k : Tag → Issue) : Issue :=
  match Tag.ofBits t with
  | some x => if allowed x then k x else .trap 1 word s
  | none => .trap 1 word s

/-- Tags of kinds 0 and 1: all but b4 (R250). -/
def notBlock (t : Tag) : Bool := t != .b4

/-- Tags of kind 3: elements of 32 bits (R250). -/
def word32Tag (t : Tag) : Bool := t.width == 32

/-- vld (R251): a masked load accesses its active elements only, and checks that v carries the field's tag. -/
def execVld (v a : BitVec 5) (p : BitVec 3) (n : BitVec 1) (w : BitVec 2) (t : BitVec 5) (s : State) : Result :=
  (withTag t notBlock (wordOf (.vld v a p n w t)) s fun x =>
    let m := s.core.mask p n
    let es := elementsOf (s.reg a) (BitVec.ofNat 64 (x.width / 8)) x (fun i => m.getLsbD i)
    checkTags (if isMasked p n then [x, (s.core.vreg v).tag] else [x]) anyTag s fun _ =>
      vectorLoad w es (fun fs s => s.setLoaded v x es fs) s).result

def execVlds (v a k : BitVec 5) (w : BitVec 2) (t : BitVec 5) (s : State) : Result :=
  (withTag t notBlock (wordOf (.vlds v a k w t)) s fun x =>
    let es := elementsOf (s.reg a) (s.reg k) x (fun _ => true)
    vectorLoad w es (fun fs s => s.setLoaded v x es fs) s).result

/-- vldq (R251): the codes and the four scale bytes; v becomes b4. -/
def execVldq (v a k : BitVec 5) (w : BitVec 2) (s : State) : Result :=
  let es := blockElements (s.reg a) (s.reg k)
  (vectorLoad w es (fun fs s =>
    let vals := es.map (elementBytes fs)
    let scales : W32 := BitVec.ofNat 32 (packLanes 8 (vals.drop 4))
    { s with core := s.core.setVReg v (VReg.make .b4 (packLanes 128 (vals.take 4)) scales) }) s).result

/-! ### Stores of kinds 0 to 2 (R252) -/

/-- The bytes of a store that go to one line, in element order. -/
def cellsInLine (own : TileNo) (l : Place) (ts : List (Element × Target)) (value : Element → Nat) : List Host.Cell :=
  ts.flatMap (fun e =>
    if e.2.lineOf own = l then cellsAt (l.a + e.1.va % 256) (natBytes (value e.1) e.1.size) else [])

/-- Lines of other memories that a store reaches, with the address of the first element in each. -/
def farLines (own : TileNo) (ts : List (Element × Target)) : List (Place × Nat) :=
  (firstOfLines own ts []).filterMap (fun e => match e.2 with
    | .far _ => some (e.2.lineOf own, e.1.va)
    | _ => none)

/-- The counts have room for one more posted access of each line (R153). -/
def Core.linesRoom (c : Core) (ls : List (Place × Nat)) : Bool :=
  [PostClass.n, PostClass.m, PostClass.x].all (fun k =>
    let n := (ls.filter (fun l => l.1.space.cls == k)).length
    n == 0 || decide (c.post.count k + n ≤ 256))

/-- A store of kinds 0 to 2 (R252): checked as a whole; performed at the own scratchpad, one request a line
elsewhere, which a flow may take unless it is of kind 2 (R374). -/
def vectorStore (w : BitVec 2) (es : List Element) (value : Element → Nat) (listed : Bool) (s : State) : Issue :=
  waitW w s fun s =>
    match checkElements { w := true } true s es with
    | (_, some (e, none)) => .wait (s.startWalk e.va)
    | (_, some (e, some c)) => .trap c (BitVec.ofNat 64 e.va) s
    | (ts, none) =>
      let own := s.tile.tile
      let far := farLines own ts
      if s.elementsStall ts true || !s.detRoom || !s.core.linesRoom far then .wait s
      else
        let s := s.touchOwn ts true
        let cells := ts.flatMap (fun e => match e.2 with
          | .own a => cellsAt a (natBytes (value e.1) e.1.size)
          | _ => [])
        let s := if cells.isEmpty then s else s.writeOwn cells true
        (far.foldl (fun s l => s.postStore l.1.space (cellsInLine own l.1 ts value) l.2 listed) s).next4

/-- The check of a store's tag field against v's tag: a raw field stores the bits whatever the tag (R46, R251). -/
def storeTag (x : Tag) (v : BitVec 5) (s : State) (k : Issue) : Issue :=
  if x = .raw then k else checkTags [x, (s.core.vreg v).tag] anyTag s (fun _ => k)

def execVst (v a : BitVec 5) (p : BitVec 3) (n : BitVec 1) (w : BitVec 2) (t : BitVec 5) (s : State) : Result :=
  (withTag t notBlock (wordOf (.vst v a p n w t)) s fun x =>
    let m := s.core.mask p n
    let r := s.core.vreg v
    storeTag x v s
      (vectorStore w (elementsOf (s.reg a) (BitVec.ofNat 64 (x.width / 8)) x (fun i => m.getLsbD i))
        (fun e => r.elem x.width e.i) true s)).result

def execVsts (v a k : BitVec 5) (w : BitVec 2) (t : BitVec 5) (s : State) : Result :=
  (withTag t notBlock (wordOf (.vsts v a k w t)) s fun x =>
    let r := s.core.vreg v
    storeTag x v s
      (vectorStore w (elementsOf (s.reg a) (s.reg k) x (fun _ => true)) (fun e => r.elem x.width e.i) true s)).result

/-- vstq (R251): v must be b4; the codes and the four scale bytes. -/
def execVstq (v a k : BitVec 5) (w : BitVec 2) (s : State) : Result :=
  let r := s.core.vreg v
  (checkTags [Tag.b4, r.tag] anyTag s fun _ =>
    vectorStore w (blockElements (s.reg a) (s.reg k))
      (fun e => if e.i < 4 then r.elem 128 e.i else scaleByte r.scales (e.i - 4)) false s).result

/-! ### Gathers, scatters and vector accumulates (R211, R223, R253) -/

/-- The address of lane i: xb + sext(voff[i], 32). -/
def laneVa (s : State) (a o : BitVec 5) (i : Nat) : Nat :=
  (s.reg a + sext64 (BitVec.ofNat 32 ((s.core.vreg o).elem 32 i))).toNat

/-- VPROG.LANE is set (R223). -/
def State.setLaneAt (s : State) (i : Nat) : State :=
  { s with core := { s.core with fp := { s.core.fp with vprog := BitVec.ofNat 6 i } } }

/-- The lanes from i on, each in its turn, and then LANE := 0. A lane that cannot be performed leaves LANE at
its number. -/
def laneLoop (body : Nat → State → (State → Issue) → Issue) (fin : State → Issue) : Nat → State → Issue
  | 0, s => fin s
  | n + 1, s => body (15 - n) (s.setLaneAt (15 - n)) (laneLoop body fin n)

/-- A lane-serial instruction starts at VPROG.LANE (R223); from 16 on it performs no lane. -/
def lanes (body : Nat → State → (State → Issue) → Issue) (fin : State → Issue) (s : State) : Issue :=
  laneLoop body fin (16 - s.core.fp.vprog.toNat) s

/-- Replies of lanes are outstanding: a trap first waits for them (R253). -/
def afterReplies (s : State) (i : Issue) : Issue :=
  match i with
  | .trap c v t => if s.core.pend.isEmpty then .trap c v t else .wait s
  | i => i

/-- Writes one lane of a gather. -/
def State.setGathered (s : State) (v : BitVec 5) (i x : Nat) : State :=
  let r := s.core.vreg v
  { s with core := s.core.setVReg v (VReg.make r.tag (setLane 32 i r.data.toNat x) r.scales) }

/-- One lane of a gather (R253). -/
def gatherLane (v a o : BitVec 5) (i : Nat) (s : State) (k : State → Issue) : Issue :=
  let va := laneVa s a o i
  afterReplies s <|
    access { r := true } va 4 s fun t s =>
      match t with
      | .own x => localAccess va x 4 false true s fun s => k (s.setGathered v i (s.tile.mem.readNat x 4))
      | .far p =>
        if p.space = .device then .trap 5 (BitVec.ofNat 64 va) s
        else if s.footprintStall va 4 false then .wait s
        else
          match (if p.space.cached then s.tile.farLine p.space p.a else none) with
          | some l =>
            k ({ s with tile := s.tile.farUse l }.setGathered v i
              (l.data.extractLsb' (8 * (p.a % 256)) 32).toNat)
          | none => k (s.requestLoad p va 4 i true .gather (zext64 v))

/-- The replies of lanes are written; the lowest lane that failed traps with LANE at its number (R253). -/
def State.gathered (s : State) (v : BitVec 5) (fs : List Fetch) (k : State → Issue) : Issue :=
  let failed := (List.range 16).findSome? (fun i =>
    (fs.find? (fun f => f.lane == i)).bind (fun f => (f.reply.bind Reply.cause).map (fun c => (i, c, f.va))))
  let upTo := match failed with
    | some (i, _, _) => i
    | none => 16
  let s := (fs.filter (fun f => decide (f.lane < upTo))).foldl
    (fun s f => s.setGathered v f.lane (leNat f.bytes % 2 ^ 32)) s
  let s := { s with core := s.core.learn (fs.flatMap Fetch.known) }
  match failed with
  | some (i, c, va) => .trap c (BitVec.ofNat 64 va) (s.setLaneAt i)
  | none => k s

/-- The lane at which a gather goes on after an abandonment (R254): the lowest from VPROG.LANE on whose cancel has brought
no data. -/
def resumeLane (ab : List Abandoned) (low : Nat) : Nat :=
  let done (i : Nat) : Bool := ab.any (fun a => a.lane == i && match a.answer with
    | some (some (.data _ _)) => true
    | _ => false)
  ((List.range 16).find? (fun i => decide (low ≤ i) && !(done i))).getD 16

/-- A gather goes on from VPROG.LANE (R253). -/
def gatherOn (v a o : BitVec 5) (s : State) : Issue :=
  lanes (gatherLane v a o)
    (fun s => if s.core.pend.isEmpty then (s.setLaneAt 0).next4 else .wait (s.setLaneAt 16)) s

/-- v takes the tag of the field before any lane (R253), once the access issues (R154). -/
def State.tagGathered (s : State) (v : BitVec 5) (t : Tag) : State :=
  let r := s.core.vreg v
  { s with core := s.core.setVReg v (VReg.make t r.data.toNat r.scales) }

/-- vgth (R253). Remote lanes may be outstanding together; their replies are written when all are in. -/
def execVgth (v a o : BitVec 5) (w : BitVec 2) (t : BitVec 5) (s : State) : Result :=
  (withTag t word32Tag (wordOf (.vgth v a o w t)) s fun x =>
    let ab := s.core.abandoned
    if ab.any (fun a => a.answer.isNone) then .wait s
    else if !ab.isEmpty then
      let on := resumeLane ab s.core.fp.vprog.toNat
      let fs := (answersOf ab).filter (fun f => f.reply.isSome && decide (f.lane ≤ on))
      let s := { s with core := { s.core with abandoned := [], pend := [] } }
      s.gathered v fs fun s => gatherOn v a o (s.setLaneAt on)
    else if s.core.pend.isEmpty then waitW w s fun s => gatherOn v a o (s.tagGathered v x)
    else if s.core.pend.all (fun f => f.reply.isSome) then
      ({ s with core := { s.core with pend := [] } }).gathered v s.core.pend (gatherOn v a o)
    else .wait s).result

/-- One lane of a scatter (R253). -/
def scatterLane (v a o : BitVec 5) (i : Nat) (s : State) (k : State → Issue) : Issue :=
  let va := laneVa s a o i
  let x := natBytes ((s.core.vreg v).elem 32 i) 4
  access { w := true } va 4 s fun t s =>
    match t with
    | .own b => localAccess va b 4 true true s fun s => k (s.writeOwn (cellsAt b x) true)
    | .far p =>
      if p.space = .device then .trap 5 (BitVec.ofNat 64 va) s
      else if s.footprintStall va 4 true || !s.core.countRoom p.space.cls then .wait s
      else k (s.postStore p.space (cellsAt p.a x) va)

def execVsct (v a o : BitVec 5) (w : BitVec 2) (t : BitVec 5) (s : State) : Result :=
  (withTag t word32Tag (wordOf (.vsct v a o w t)) s fun x =>
    storeTag x v s
      (waitW w s fun s => lanes (scatterLane v a o) (fun s => (s.setLaneAt 0).next4) s)).result

/-- One lane of a vector accumulate (R211). -/
def accLane (op : AccOp) (v a o : BitVec 5) (i : Nat) (s : State) (k : State → Issue) : Issue :=
  let va := laneVa s a o i
  let y := BitVec.ofNat 64 ((s.core.vreg v).elem 32 i)
  access { r := true, w := true } va 4 s fun t s => accAt op t va y s k

/-- vacc (R211): v must carry the format tag. -/
def vectorAccumulate (op : AccOp) (t : Tag) (v a o : BitVec 5) (w : BitVec 2) (s : State) : Result :=
  (checkTags [t, (s.core.vreg v).tag] anyTag s fun _ =>
    waitW w s fun s => lanes (accLane op v a o) (fun s => (s.setLaneAt 0).next4) s).result

def execVaccF32 (v a o : BitVec 5) (w : BitVec 2) (s : State) : Result := vectorAccumulate .addF32 .f32 v a o w s
def execVaccI32 (v a o : BitVec 5) (w : BitVec 2) (s : State) : Result := vectorAccumulate .addI32 .i32 v a o w s

end Sys2Proof.Machine
end

