-- ==== Sys2Proof/Machine/Network.lean ====
section
/-!
DEFINITION. Packets at junctions, tiles and rim units: arrival, remote loads and stores, puts, full/empty requests, replies,
acknowledgements, cancels, far-cache and instruction-buffer fills, page walks, copy chunks (R16, R22 to R24, R109, R144,
R148 to R163, R299, R308, R335, R367).
-/
namespace Sys2Proof.Machine

/-! ### At the junction (R16, R423, R439) -/

/-- A packet waits in a junction under the hold of its logical tile (R439). -/
def State.heldBack (s : State) (p : Packet) : Bool :=
  match p.dest with
  | .tile l => s.wafer.healing.holds.contains l
  | _ => false

/-- A packet that must arrive before this one has not arrived yet (R24, R167 to R169). -/
def State.overtakes (s : State) (p : Packet) : Bool := s.wafer.net.any (fun q => q.arrived.isNone && q.precedes p)

/-- The packet joins the arrivals of its site. -/
def State.arrive (s : State) (id : Nat) : State :=
  let s := s.setPacket id (fun p => { p with arrived := some s.wafer.arrivals })
  { s with wafer := { s.wafer with arrivals := s.wafer.arrivals + 1 } }

/-- Bytes of payload of a packet that its sender keeps (R428); none for the packets of which it keeps nothing. -/
def Msg.kept : Msg → Option Nat
  | .message _ => some 32
  | .store _ _ c => some c.length
  | .stf _ _ _ _ => some 4
  | .acc _ => some 8
  | .put _ _ c _ _ => some c.length
  | .chunk _ _ c => some c.bytes.length
  | .rowStore _ _ _ c => some c.length
  | .reply _ _ rep _ => match rep with
    | .data b _ => if 8 < b.length then some b.length else none
    | _ => none
  | .rowReply _ _ _ rep => match rep with
    | .data b _ => if 8 < b.length then some b.length else none
    | _ => none
  | _ => none

/-- Bytes of a tile's send log that are in use (R428). -/
def State.sendLogBytes (s : State) (l : TileNo) : Nat :=
  (s.wafer.healing.sent.filter (fun e => e.src == some l)).foldl (fun n e =>
    match e.pkt.msg.kept with
    | some b => n + Config.sendEntryBytes b
    | none => n) 0

/-- A packet that waits for room in its tile's send log of 1 MiB (R428, R430). -/
def State.logWaits (s : State) (p : Packet) : Bool :=
  match p.msg.kept with
  | some b =>
    !p.fromRim && p.processed == false &&
      match s.sendLogBytes (s.tileAt p.origin).tile with
      | 0 => false
      | n => decide (2 ^ 20 < n + Config.sendEntryBytes b)
  | none => false

/-- The sender asks the receiver of its oldest entry to take a boundary (R430), once. -/
def State.askClose (s : State) (p : Packet) : State :=
  let l := (s.tileAt p.origin).tile
  match s.wafer.healing.sent.find? (fun e => e.src == some l) with
  | none => s
  | some e =>
    if s.wafer.net.any (fun q => q.msg == .closeRequest e.dst && q.origin == p.origin) then s
    else s.atSite p.origin (fun s => s.launchPacket .relief (.tile e.dst) none (.closeRequest e.dst))

/-- A packet reaches its resolved site's junction (R16): another entry there sends it on, an absent one holds it, a
fenced site leaves it in the junction before. It leaves its tile only when the determinants before it are
confirmed (R423). -/
def execJunctionPacketArrival (id : Nat) (s : State) : Result :=
  .next (match s.packet id with
    | none => s
    | some p =>
      if p.arrived.isSome || s.heldBack p || decide ((s.tileAt p.origin).confirmed < p.gate) then s
      else if s.logWaits p then s.askClose p
      else
        match p.dest with
        | .tile l =>
          match findPoint (s.junctionAt p.site).points l.toNat with
          | none => s
          | some x =>
            if x = p.site then (if (s.junctionAt x).passThrough || s.overtakes p then s else s.arrive id)
            else s.setPacket id (fun p => { p with site := x })
        | .site _ => if s.overtakes p then s else s.arrive id
        | d =>
          match s.resolve d with
          | none => s
          | some x =>
            if x = p.site then (if s.overtakes p then s else s.arrive id)
            else s.setPacket id (fun p => { p with site := x }))

/-! ### Races and lines at the destination (R174, R175) -/

/-- A request races at some of the lines that it reaches. -/
def State.requestRaces (s : State) (r : Req) (lines : List Nat) : Bool :=
  match r.stamp with
  | some st => st.trapping && lines.any (fun l => s.tile.races st l)
  | none => false

/-- A request reaches lines of the tile in focus: it takes its place among their accesses. -/
def State.reach (s : State) (r : Req) (lines : List Nat) (write : Bool) : State :=
  let s := lines.foldl (fun s l => s.touch (srcRemote r.src) l write) s
  match r.stamp with
  | some st => { s with tile := lines.foldl (fun t l => t.noteLine st l) s.tile }
  | none => s

/-- The lines of cells. -/
def cellLines (cells : List Host.Cell) : List Nat := (cells.map (fun c => c.1 / 256)).eraseDups

/-- First address of cells. -/
def firstCell (cells : List Host.Cell) : Nat := (cells.head?.map (·.1)).getD 0

/-! ### Remote stores (R149, R157, R252, R269) -/

/-- A store has been performed at the tile in focus: the mark advances, and it is acknowledged (R152, R427). -/
def State.storeDone (s : State) (r : Req) (failed : Option (Nat × Word)) : State :=
  { s with tile := s.tile.markOseq r }.ackTo none r failed false

/-- A remote store reaches its tile. One that a box sent on, and that the replay of the box's tile sends again, has been
acknowledged (R406, R443). -/
def storeAtTile (p : Packet) (r : Req) (cells : List Host.Cell) (s : State) : Option State :=
  if repeated s.tile.marks r Mark.oseq then some (if p.again then s else s.ackTo none r none false)
  else if !markRoom s.tile.marks r.src then none
  else if s.requestRaces r (cellLines cells) then some (s.storeDone r (some (9, r.va)))
  else
    let s := s.noteWrite r (firstCell cells) (cells.map (·.2)) p
    some (((s.reach r (cellLines cells) true).writeOwn cells false).storeDone r none)

/-- A remote stf reaches its tile (R157). -/
def stfAtTile (p : Packet) (r : Req) (a : Nat) (w : W32) (s : State) : Option State :=
  if repeated s.tile.marks r Mark.oseq then some (s.ackTo none r none false)
  else if !markRoom s.tile.marks r.src then none
  else
    let s := s.noteWrite r a (natBytes w.toNat 4) p
    let s := performStf a w r.known false (s.touch (srcRemote r.src) (a / 256) true)
    some ({ s with tile := s.tile.markOseq r }.ackTo none r none false)

/-- One part of a row of a tst reaches its tile (R269). -/
def rowAtTile (p : Packet) (r : Req) (card : Nat) (cells : List Host.Cell) (s : State) : Option State :=
  let ack (raced : Bool) (s : State) : State :=
    s.inject .relief (.tile r.src.tile) (.rowAck r.src card r.fetch r.cls raced)
  if repeated s.tile.marks r Mark.oseq then some (ack false s)
  else if !markRoom s.tile.marks r.src then none
  else if s.requestRaces r (cellLines cells) then some (ack true s)
  else
    let s := s.noteWrite r (firstCell cells) (cells.map (·.2)) p
    let s := (s.reach r (cellLines cells) true).writeOwn cells false
    some (ack false { s with tile := s.tile.markOseq r })

/-! ### Device register pages (R469) -/

/-- CLASS, INDEX, PAGE and offset of a device register address. -/
def deviceFields (a : Nat) : Nat × Nat × Nat × Nat := (a / 2 ^ 36 % 16, a / 2 ^ 24 % 4096, a / 4096 % 4096, a % 4096)

/-- A dword of a bank: record 32 n, dword 8 k within it (R435). -/
def ErrBank.dwordAt (b : ErrBank) (o : Nat) : Word :=
  if o < 128 then (vget b (o / 32) {}).dwords.getD (o % 32 / 8) 0 else 0

/-- The 64 bytes of a bind record (R347). -/
def recordBytes (r : BindRecord) : List Byte :=
  natBytes r.team.toNat 4 ++ natBytes (if r.server then 1 else 0) 1 ++ natBytes r.cores.toNat 1 ++
  natBytes (r.level.toNat + (if r.race then 4 else 0)) 1 ++ natBytes (r.job.toNat + 64 * r.prio.toNat) 1 ++
  natBytes r.entry.toNat 8 ++ natBytes r.wbase.toNat 4 ++ natBytes r.wlimit.toNat 4 ++ natBytes r.arg.toNat 8 ++
  natBytes r.save.toNat 8 ++ natBytes r.tvec.toNat 8 ++ natBytes r.tlimit.toNat 4 ++ natBytes r.bpHigh.toNat 4 ++
  natBytes r.bp0.toNat 4 ++ natBytes r.bp1.toNat 4

/-- A bind record with its bytes replaced from 64 bytes (R347). -/
def recordOfBytes (r : BindRecord) (b : List Byte) : BindRecord :=
  let n (o k : Nat) : Nat := leNat ((b.drop o).take k)
  { r with
    team := BitVec.ofNat 32 (n 0 4), server := n 4 1 % 2 = 1, cores := BitVec.ofNat 8 (n 5 1),
    level := BitVec.ofNat 2 (n 6 1), race := n 6 1 / 4 % 2 = 1, job := BitVec.ofNat 6 (n 7 1),
    prio := BitVec.ofNat 2 (n 7 1 / 64), entry := BitVec.ofNat 64 (n 8 8), wbase := BitVec.ofNat 32 (n 0x10 4),
    wlimit := BitVec.ofNat 32 (n 0x14 4), arg := BitVec.ofNat 64 (n 0x18 8), save := BitVec.ofNat 64 (n 0x20 8),
    tvec := BitVec.ofNat 64 (n 0x28 8), tlimit := BitVec.ofNat 32 (n 0x30 4), bpHigh := BitVec.ofNat 32 (n 0x34 4),
    bp0 := BitVec.ofNat 32 (n 0x38 4), bp1 := BitVec.ofNat 32 (n 0x3C 4) }

/-- The domain registers of a record. -/
def recordDom (r : BindRecord) (n : Nat) : Word :=
  match n with
  | 0 => r.dom0
  | 1 => r.dom1
  | 2 => r.dom2
  | _ => r.dom3

/-- Eight bytes from an offset, as a word. -/
def wordAtOffset (b : List Byte) (o : Nat) : Word := BitVec.ofNat 64 (leNat ((b.drop o).take 8))

/-- What the slot of a core shows: its record, or what stores have written of one. -/
def Core.record (c : Core) : Option BindRecord := c.slot.orElse (fun _ => c.draft)

/-- The slot page of the tile in focus (R469, class 0 page 0). -/
def State.slotPage (s : State) (o : Nat) : Word :=
  if o < 0x200 then
    match (s.coreAt (BitVec.ofNat 3 (o / 64))).record with
    | some r => wordAtOffset (recordBytes r) (o % 64)
    | none => 0
  else if o < 0x300 then
    match (s.coreAt (BitVec.ofNat 3 ((o - 0x200) / 32))).record with
    | some r => recordDom r (o % 32 / 8)
    | none => 0
  else 0

/-- A points table entry as 16 bits (R464). -/
def pointBits (points : List (Nat × SiteId)) (l : Nat) : Nat :=
  match findPoint points l with
  | some x => 4096 + x.toNat
  | none => 0

/-- A dword of a device register page of the site in focus (classes 0 and 1) or of a rim unit (R469). Pages whose
contents the spec does not lay out read a free value. -/
def State.deviceRead (s : State) (a : Nat) : Word :=
  let (cls, idx, page, o) := deviceFields a
  match cls, page with
  | 0, 0 => s.slotPage o
  | 0, 1 =>
    if o < 0x40 then (vget s.tile.slices (o / 8) {}).quota else if o = 0x40 then s.tile.ckctl else 0
  | 0, 2 => s.tile.bank.dwordAt o
  | 1, 18 => s.junction.bank.dwordAt o
  | 1, 19 => Config.deviceStatus cls idx (4096 * page + o) s.wafer.clock
  | 1, 20 => if o < 1024 then mapWord s.junction.map (o / 16) (o % 16 / 8) else 0
  | 1, n =>
    let b := s.tile.box
    if n = 0 then BitVec.ofNat 64 (b.table.readNat o 8)
    else if n ≤ 2 then BitVec.ofNat 64 (b.store.readNat (4096 * (n - 1) + o) 8)
    else if 8 ≤ n ∧ n ≤ 15 then BitVec.ofNat 64 (b.mem.readNat (4096 * (n - 8) + o) 8)
    else if 16 ≤ n ∧ n ≤ 17 then
      BitVec.ofNat 64 ((List.range 4).foldl (fun v i =>
        v + pointBits s.junction.points ((4096 * (n - 16) + o) / 2 + i) * 2 ^ (16 * i)) 0)
    else 0
  | 2, 0 =>
    if o < 0x40 then
      match s.wafer.rim.slices.find? (fun p => p.1 == 8 * idx + o / 8) with
      | some p => p.2.quota
      | none => 0x810
    else if o = 0x40 then
      match s.wafer.rim.limits.find? (fun l => l.1 == idx) with
      | some l => BitVec.ofNat 64 l.2
      | none => 0xFFFF
    else 0
  | 2, 1 =>
    match s.wafer.rim.banks.find? (fun p => p.1 == idx) with
    | some p => ErrBank.dwordAt p.2 o
    | none => 0
  | 7, 1 =>
    match s.wafer.healing.domainBanks.find? (fun p => p.1 == idx) with
    | some p => ErrBank.dwordAt p.2 o
    | none => 0
  | c, p =>
    if 3 ≤ c ∧ c ≤ 7 ∧ (p = 0 ∨ p = 1 ∧ c < 7) then Config.deviceStatus c idx (4096 * p + o) s.wafer.clock else 0

/-- Writing 1 to bit 0 of a bank's dword clears its record, as ERRDATA.D0 does (R438). -/
def ErrBank.clearAt (b : ErrBank) (o : Nat) (v : Word) : ErrBank :=
  if v.getLsbD 0 && decide (o < 128) then vset b (o / 32) {} else b

/-- A record of zeros. -/
def blankRecord : BindRecord :=
  { team := 0, server := false, cores := 0, level := 0, race := false, job := 0, prio := 0, entry := 0, wbase := 0,
    wlimit := 0, arg := 0, save := 0, tvec := 0, tlimit := 0, bpHigh := 0, bp0 := 0, bp1 := 0, dom0 := 0, dom1 := 0,
    dom2 := 0, dom3 := 0, tshape := Vector.replicate 8 0, root := 0, jshape := 0, tileRecord := 0 }

/-- Changes the slot of a core: the record that it holds, or the one that stores are writing to an empty slot (R469). -/
def Core.editSlot (c : Core) (f : BindRecord → BindRecord) : Core :=
  match c.slot with
  | some r => { c with slot := some (f r) }
  | none => { c with draft := some (f (c.draft.getD blankRecord)) }

/-- A QUOTA register as stored (R188). -/
def storedQuota (v : Word) : Word := v &&& 0x3FFF

/-- A store to a device register page (R469); the points table and the site state map are read only. -/
def State.deviceWrite (s : State) (a : Nat) (v : Word) : State :=
  let (cls, idx, page, o) := deviceFields a
  let bytes := natBytes v.toNat 8
  let setBox (f : Box → Box) : State := { s with tile := { s.tile with box := f s.tile.box } }
  match cls, page with
  | 0, 0 =>
    if o < 0x200 then
      s.updCore (BitVec.ofNat 3 (o / 64)) (fun c =>
        { c.editSlot (fun r =>
            recordOfBytes r ((recordBytes r).take (o % 64) ++ bytes ++ (recordBytes r).drop (o % 64 + 8))) with
          drafted := c.slot.isNone && (c.drafted || o % 64 == 0x38) })
    else if o < 0x300 then
      s.updCore (BitVec.ofNat 3 ((o - 0x200) / 32)) (fun c =>
        { c.editSlot (fun r =>
            match o % 32 / 8 with
            | 0 => { r with dom0 := storedDom v }
            | 1 => { r with dom1 := storedDom v }
            | 2 => { r with dom2 := storedDom v }
            | _ => { r with dom3 := storedDom v }) with
          sync := { c.sync with dom := vset c.sync.dom (o % 32 / 8) (storedDom v) } })
    else s
  | 0, 1 =>
    if o < 0x40 then
      let x := vget s.tile.slices (o / 8) {}
      { s with tile := { s.tile with slices := vset s.tile.slices (o / 8) { x with quota := storedQuota v } } }
    else if o = 0x40 then { s with tile := { s.tile with ckctl := storedCkctl v } }
    else s
  | 0, 2 => { s with tile := { s.tile with bank := s.tile.bank.clearAt o v } }
  | 1, 18 => { s with junction := { s.junction with bank := s.junction.bank.clearAt o v } }
  | 1, n =>
    if n = 0 then setBox (fun b => { b with table := b.table.writeCells (cellsAt o bytes),
                                            freshFlows := insertNat (o / 64) b.freshFlows })
    else if n ≤ 2 then setBox (fun b =>
      let w := (4096 * (n - 1) + o) / 4
      { b with store := b.store.writeCells (cellsAt (4096 * (n - 1) + o) bytes),
               freshWords := insertNat (w + 1) (insertNat w b.freshWords) })
    else if 8 ≤ n ∧ n ≤ 15 then setBox (fun b => { b with mem := b.mem.writeCells (cellsAt (4096 * (n - 8) + o) bytes) })
    else s
  | 2, 0 =>
    let rim := s.wafer.rim
    if o < 0x40 then
      let k := 8 * idx + o / 8
      let x := match rim.slices.find? (fun p => p.1 == k) with
        | some p => p.2
        | none => {}
      { s with wafer := { s.wafer with rim := { rim with slices := putKey rim.slices k { x with quota := storedQuota v } } } }
    else if o = 0x40 then
      { s with wafer := { s.wafer with rim := { rim with limits := putKey rim.limits idx (field v 0 16) } } }
    else s
  | 2, 1 =>
    match s.wafer.rim.banks.find? (fun p => p.1 == idx) with
    | some p =>
      { s with wafer := { s.wafer with rim := { s.wafer.rim with
          banks := putKey s.wafer.rim.banks idx (ErrBank.clearAt p.2 o v) } } }
    | none => s
  | _, _ => s

/-! ### What arrives at a rim unit -/

/-- A remote write is performed behind the rim (R165). -/
def State.rimWrite (s : State) (p : Packet) (sp : Space) (job : BitVec 6) (cells : List Host.Cell) : State :=
  let s := s.countFor p sp (firstCell cells) job
  { s with wafer := s.wafer.put sp job p.epoch cells }

/-- The window page of a junction (R405): bytes of the 32 KiB of flow state, between two kernel runs. -/
def windowStore (p : Packet) (r : Req) (cells : List Host.Cell) (s : State) : Option State :=
  if s.tile.box.run.isSome then none
  else if repeated s.tile.marks r Mark.oseq then some (s.ackTo none r none false)
  else if !markRoom s.tile.marks r.src then none
  else
    let s := s.noteWrite r (firstCell cells) (cells.map (·.2)) p (some s.tile.box.runs)
    let b := s.tile.box
    let s := { s with tile := { s.tile.markOseq r with
      box := { b with mem := b.mem.writeCells (cells.filter (fun c => decide (c.1 < 0x8000))) } } }
    some (s.ackTo none r none false)

/-- The answer of a blocking access, to the core that asked. -/
def State.replyTo (s : State) (rim : Option SiteId) (line : Line) (r : Req) (rep : Reply) (kind : DetKind) : State :=
  s.sendAs rim line (.tile r.src.tile) (.reply r.src r.fetch rep kind)

/-- A remote write reaches its place (R149, R157, R269). -/
def performWrite (p : Packet) (s : State) : Option State :=
  match p.msg with
  | .store r (.spad _) cells => storeAtTile p r cells s
  | .store _ (.window _) _ => none
  | .store r sp cells =>
    let ack (s : State) : State := s.ackTo p.rim r none false
    s.rimOnce p r ack (fun s => ack (s.rimWrite p sp r.job cells))
  | .stf r _ a w => stfAtTile p r a w s
  | .rowStore r card (.spad _) cells => rowAtTile p r card cells s
  | .rowStore r card sp cells =>
    let ack (s : State) : State := s.sendAs p.rim .relief (.tile r.src.tile) (.rowAck r.src card r.fetch r.cls false)
    s.rimOnce p r ack (fun s => ack (s.rimWrite p sp r.job cells))
  | .device r a (some v) => some ((s.deviceWrite a v).replyTo p.rim .relief r (.data [] []) .reply)
  | _ => none

def execRemoteStoreArrival (id : Nat) (s : State) : Result := s.take id performWrite

/-- The bytes at listed addresses of the scratchpad. -/
def Tile.cellsOf (t : Tile) (l : List Nat) : List Byte := l.map t.mem.read

/-- The answer to a request for a row of a tile register, or for a chunk of a copy job. -/
def State.partReply (s : State) (rim : Option SiteId) (r : Req) (m : Msg) : State :=
  s.sendAs rim .main (.tile r.src.tile) m

/-- A read of a scratchpad by listed addresses (R148, R266, R299): a race is answered (R175), or the bytes. -/
def readHere (r : Req) (l : List Nat) (answer : State → Reply → State) (s : State) : State :=
  let lines := (l.map (· / 256)).eraseDups
  if s.requestRaces r lines then answer s .race
  else
    let s := s.reach r lines false
    answer s (.data (s.tile.cellsOf l) (l.flatMap (fun a => s.tile.counted a 1)).eraseDups)

/-- A read behind the rim by listed addresses: it counts (R146), and an uncorrectable error is answered with a cause
(R310, R437). -/
def readRim (p : Packet) (r : Req) (sp : Space) (l : List Nat) (cause : Nat) (answer : State → Reply → State)
    (s : State) : State :=
  let s := s.countFor p sp (l.headD 0) r.job
  match s.undelivered sp l r.job r.src r.va with
  | some t => answer t (.fault cause)
  | none => answer s (.data (s.wafer.cellsOf sp l) [])

/-- A remote load reaches its place (R148, R163, R266, R299). -/
def performLoad (p : Packet) (s : State) : Option State :=
  match p.msg with
  | .load r sp l =>
    let answer (s : State) (rep : Reply) : State := s.replyTo p.rim .main r rep .reply
    some (match sp with
      | .spad _ => readHere r l answer s
      | sp => readRim p r sp l 4 answer s)
  | .line r sp base =>
    let s := s.countFor p sp base r.job
    some (match s.undelivered sp (span base 256) r.job r.src r.va with
      | some t => t.replyTo p.rim .main r (.fault 4) .reply
      | none =>
        s.sendAs p.rim .main (.tile r.src.tile)
          (.fill r.src r.fetch sp base (bytesLine (s.wafer.bytesAt sp base 256))))
  | .rowLoad r card sp l =>
    let answer (s : State) (rep : Reply) : State := s.partReply p.rim r (.rowReply r.src card r.fetch rep)
    some (match sp with
      | .spad _ => readHere r l answer s
      | sp => readRim p r sp l 4 answer s)
  | .chunkRead r card sp base n =>
    let answer (s : State) (rep : Reply) : State := s.partReply p.rim r (.chunkData r.src card r.fetch rep)
    some (match sp with
      | .spad _ => readHere r (span base n) answer s
      | sp => readRim p r sp (span base n) 14 answer s)
  | .device r a none =>
    some (s.replyTo p.rim .main r (.data (natBytes (s.deviceRead a).toNat 8) []) .reply)
  | _ => none

def execRemoteLoadRequestArrival (id : Nat) (s : State) : Result := s.take id performLoad

/-- A type 4 access is performed at the junction between two kernel runs (R405). -/
def performWindow (p : Packet) (s : State) : Option State :=
  match p.msg with
  | .window r _ a n none =>
    if s.tile.box.run.isSome then none
    else some (s.replyTo none .main r (.data (s.tile.box.mem.readBytes a n) []) .reply)
  | .store r (.window _) cells => windowStore p r cells s
  | _ => none

def execStateWindowAccess (id : Nat) (s : State) : Result := s.take id performWindow

/-! ### Puts, full/empty requests, waits on an address (R157 to R160, R335) -/

/-- A put reaches its tile: the payload, then the flag or the counter (R160). -/
def performPut (p : Packet) (s : State) : Option State :=
  match p.msg with
  | .put r _ cells flag counter =>
    if repeated s.tile.marks r Mark.oseq then some (s.ackTo none r none false)
    else if !markRoom s.tile.marks r.src then none
    else if s.requestRaces r (cellLines cells) then some (s.ackTo none r (some (9, r.va)) false)
    else
      let s := s.noteWrite r (firstCell cells) (cells.map (·.2)) p
      let s := (s.reach r (cellLines cells) true).writeOwn cells false
      let s := performMark flag counter r.known false (s.touch (srcRemote r.src) (flag / 256) true)
      some ({ s with tile := s.tile.markOseq r }.ackTo none r none false)
  | _ => none

def execPutArrival (id : Nat) (s : State) : Result := s.take id performPut

/-- Remote requests that wait at a home slice (R158). -/
def Tile.waitingAt (t : Tile) (slice : Nat) : Nat :=
  (t.waiters.filter (fun w => w.remote && w.a / 256 % 8 == slice)).length

/-- A replay-flagged full/empty request is answered from the stored result (R427). -/
def Tile.storedReply (t : Tile) (r : Req) : Option Reply :=
  match findMark t.marks r.src with
  | some m => match m.result with
    | some (seq, rep) => if r.replay && seq == r.seq then some rep else none
    | none => none
  | none => none

/-- A full/empty request reaches its home slice (R157, R158). -/
def performFullEmpty (p : Packet) (s : State) : Option State :=
  match p.msg with
  | .fullEmpty r kind tile a data =>
    match s.tile.storedReply r with
    | some rep => some (s.replyTo none .relief r rep .reply)
    | none =>
      if kind.changes && !markRoom s.tile.marks r.src then none
      else if s.tile.tagReady kind a then
        let s := if kind.changes then s.noteWrite r a (natBytes data.toNat 4) p else s
        let before := s.tile.knownAt a
        let s := s.touch (srcRemote r.src) (a / 256) kind.changes
        let x := performTag kind a data r.known false s
        let rep : Reply := .data (natBytes x.1 8) before
        let s := { x.2 with tile := x.2.tile.keepResult kind r rep }
        some ((s.replyTo none .relief r rep .reply).tagChanged a)
      else if s.tile.waitingAt (a / 256 % 8) < 16 then
        let s := if kind.changes then s.noteWrite r a (natBytes data.toNat 4) p else s
        some { s with tile := { s.tile with
          waiters := s.tile.waiters ++ [{ a := a, kind := kind, data := data, req := r, remote := true }] } }
      else some (s.inject .relief (.tile r.src.tile) (.fullEmptyBack r kind tile a data))
  | _ => none

def execFullEmptyRequestArrival (id : Nat) (s : State) : Result := s.take id performFullEmpty

/-- A returned request is sent again (R158), unless its core has abandoned it. -/
def performResend (p : Packet) (s : State) : Option State :=
  match p.msg with
  | .fullEmptyBack r kind tile a data =>
    if (s.coreAt r.src.core).pend.any (fun f => f.id == r.fetch && f.reply.isNone) then
      some (s.inject .relief (.tile tile) (.fullEmpty r kind tile a data))
    else some s
  | _ => none

def execFullEmptyResend (id : Nat) (s : State) : Result := s.take id performResend

/-- A waita reaches its home slice (R335): its status, or a monitor entry. -/
def monitorWord (r : Req) (remote : Bool) (a : Nat) (data : W32) (s : State) : Option Nat × State :=
  if s.tile.word a ≠ data then (some 0, s)
  else if 16 ≤ s.tile.monitors.length then (some 2, s)
  else
    (none, { s with tile := { s.tile with
      monitors := s.tile.monitors ++ [{ a := a, value := data, req := r, remote := remote }] } })

def performWaita (p : Packet) (s : State) : Option State :=
  match p.msg with
  | .waita r _ a data =>
    let x := monitorWord r true a data (s.touch (srcRemote r.src) (a / 256) false)
    some (match x.1 with
      | some v =>
        let rep : Reply := .data (natBytes v 8) (s.tile.counted a 4)
        { x.2 with tile := x.2.tile.keepAnswer r rep }.replyTo none .relief r rep .reply
      | none => x.2)
  | _ => none

def execWaitaRequestArrival (id : Nat) (s : State) : Result := s.take id performWaita

/-! ### Replies and acknowledgements (R148, R152, R175, R299) -/

/-- A core of the tile waits for the answer of a request. -/
def Core.awaits (c : Core) (fetch : Nat) : Bool := c.pend.any (fun f => f.id == fetch && f.reply.isNone)

/-- The bytes of an answer. -/
def Reply.bytes : Reply → List Byte
  | .data b _ => b
  | _ => []

/-- The answer of a fetch is noted in a list. -/
def answerIn (fetch : Nat) (rep : Reply) (l : List Fetch) : List Fetch :=
  l.map (fun f => if f.id = fetch then { f with reply := some rep } else f)

/-- A row's part has come for a tld (R266): its bytes are written; the row is done when no part is awaited. A race ends
the job (R286), and a row that cannot be delivered parks it (R437). -/
def rowCame (card fetch : Nat) (rep : Reply) (s : State) : State :=
  match s.core.card card with
  | none => s
  | some k =>
    match k.waits.find? (fun f => f.id == fetch), rep with
    | some f, .data b _ =>
      let m := k.job.moved
      let c := s.core.setTReg m ((s.core.treg m).setPart (f.lane / 2) (f.lane % 2) b)
      { s with core := c.setCard card (fun k =>
          let w := k.waits.filter (fun x => x.id != fetch)
          { k with waits := w, prog := if w.isEmpty then k.prog + 1 else k.prog }) }
    | some f, .race =>
      endFaulted k 9 (BitVec.ofNat 64 f.va) { s with core := s.core.setCard card (fun k => { k with waits := [] }) }
    | some f, _ =>
      parkCard k f.va false 4 { s with core := s.core.setCard card (fun k => { k with waits := [] }) }
    | none, _ => s

/-- The place of a request among those of its instruction, by which a replay finds it again (R442). -/
def placeOf (fetch : Nat) (l : List Fetch) : W32 := BitVec.ofNat 32 (l.findIdx (fun f => f.id == fetch))

/-- An answer arrives at its core (R148, R367): one for an abandoned request is discarded; any other is recorded. -/
def performReply (p : Packet) (s : State) : Option State :=
  match p.msg with
  | .reply dst fetch rep kind =>
    let s := { s with tile := { s.tile with fills := s.tile.fills.filter (fun f => f.1 != fetch) } }
    if (s.coreAt dst.core).awaits fetch then
      let c := s.coreAt dst.core
      let s := s.noteInput kind dst.core 0 c.retired dst s.tile.jt (placeOf fetch c.pend) (rep.bytes.take 8) p
      some (s.answerHere dst.core fetch rep)
    else some s
  | .chunkData dst card fetch rep =>
    let s := s.focusCore dst.core
    let place := placeOf fetch (((s.core.copyOf card).map (·.reads)).getD [])
    let s := s.noteInput .reply dst.core 0 s.core.retired dst s.tile.jt place (rep.bytes.take 8) p
    some (s.setJob card (fun j => match rep with
      | .data _ _ => { j with reads := answerIn fetch rep j.reads }
      | .race => j.end_ 9 j.chunkVa
      | _ => j.end_ 14 j.chunkVa))
  | .rowReply dst card fetch rep =>
    let s := s.focusCore dst.core
    if ((s.core.card card).map (fun k => k.waits.any (fun f => f.id == fetch))).getD false then
      let place := placeOf fetch (((s.core.card card).map (·.waits)).getD [])
      let s := s.noteInput .reply dst.core 0 s.core.retired dst s.tile.jt place (rep.bytes.take 8) p
      some (rowCame card fetch rep s)
    else some s
  | _ => none

def execReplyArrival (id : Nat) (s : State) : Result := s.take id performReply

/-- The count of an acknowledged access falls; that of a line that travels as two packets with the second of them
(R152, R481). -/
def Core.acked (c : Core) (cls : PostClass) (line : Option W32) : Core :=
  match line with
  | some q =>
    if c.post.halves.contains q then { c with post := { c.post with halves := c.post.halves.erase q } } else c.countDown cls
  | none => c.countDown cls

/-- An acknowledgement arrives (R152): its count falls, a failure is kept for the next wait (R175, R437), a flush leaves
FLIGHT (R196), and flushes that waited for the count go on. Of two acknowledgements of one chunk that fail, the later one
decides the cause of its job (assumption 80). -/
def performAck (p : Packet) (s : State) : Option State :=
  match p.msg with
  | .ack dst cls failed flush line =>
    let s := s.focusCore dst.core
    let c := s.core.acked cls line
    let c := if flush then { c with acc := { c.acc with flight := c.acc.flight - 1 } } else c
    let c := match failed with
      | some f => { c with post := { c.post with races := c.post.races ++ [(cls, f)] } }
      | none => c
    some ({ s with core := c }.drain)
  | .rowAck dst card fetch cls raced =>
    let s := s.focusCore dst.core
    let s := { s with core := s.core.countDown cls }.drain
    match s.core.card card with
    | none => some s
    | some k =>
      let va := (k.waits.find? (fun f => f.id == fetch)).map (·.va)
      let s := { s with core := s.core.setCard card (fun k => { k with waits := k.waits.filter (fun x => x.id != fetch) }) }
      if raced then some (endFaulted k 9 (BitVec.ofNat 64 (va.getD 0)) s) else some s
  | .chunkAck dst card id ends raced cls =>
    let s := s.focusCore dst.core
    match s.core.copyOf card with
    | none => some { s with core := s.core.countDown cls }
    | some j =>
      let left := j.waits.filter (fun w => w.1 != id)
      let counted := !j.flagSent && left.all (fun w => w.2 != cls)
      let s := if counted then { s with core := s.core.countDown cls }.drain else s
      let s := s.setJob card (fun j => { j with waits := left })
      let s := match ends with
        | some e => (s.chunkError j j.chunkVa e.1 e.2).setJob card (fun j => j.end_ 14 j.chunkVa)
        | none => s
      let s := if raced then s.setJob card (fun j => j.end_ 9 j.chunkVa) else s
      some (chunkDone card s)
  | _ => none

def execAcknowledgementArrival (id : Nat) (s : State) : Result := s.take id performAck

/-! ### Copy chunks (R299, R303, R308) -/

/-- The cells of bytes that go to parts in order, each a first address and a length. -/
def partCells : List Byte → List (Nat × Nat) → List Host.Cell
  | _, [] => []
  | b, x :: r => cellsAt x.1 (b.take x.2) ++ partCells (b.drop x.2) r

/-- A chunk, or the flag of a job, reaches a destination (R299): it is written, checked and acknowledged. -/
def performChunk (p : Packet) (s : State) : Option State :=
  match p.msg with
  | .chunk r sp c =>
    let found := crc32c 0 c.bytes
    let ends := if found = c.check then none else some (c.check, found)
    let ack (raced : Bool) (s : State) : State :=
      s.sendAs p.rim .relief (.tile r.src.tile)
        (.chunkAck r.src c.card r.fetch (if raced then none else ends) raced r.cls)
    let cells := partCells c.bytes c.parts
    match sp with
    | .spad _ =>
      if repeated s.tile.marks r Mark.oseq then some (ack false s)
      else if !markRoom s.tile.marks r.src then none
      else if s.requestRaces r (cellLines cells) then some (ack true s)
      else
        let s := s.noteWrite r (firstCell cells) c.bytes p
        let s := (s.reach r (cellLines cells) true).writeOwn cells false
        some (ack false { s with tile := s.tile.markOseq r })
    | sp => s.rimOnce p r (ack false) (fun s => ack false (s.rimWrite p sp r.job cells))
  | .setFlag r card _ a =>
    let ack (s : State) : State :=
      s.inject .relief (.tile r.src.tile) (.chunkAck r.src card r.fetch none false r.cls)
    if repeated s.tile.marks r Mark.oseq then some (ack s)
    else if !markRoom s.tile.marks r.src then none
    else
      let s := s.noteWrite r a [] p
      let s := { s with tile := s.tile.tagBy a true r.known }.tagChanged a
      some (ack { s with tile := s.tile.markOseq r })
  | _ => none

def execCopyChunkArrival (id : Nat) (s : State) : Result := s.take id performChunk

/-! ### Fills and walks (R109, R144, R163) -/

/-- Where a core stands, finely enough for the order of a fill and the loads of all cores (R163, R176): its completed
instructions, doubled, and one more while it waits for answers. -/
def Core.moment (c : Core) : Nat := 2 * c.retired + (if c.pend.isEmpty then 0 else 1)

/-- The address of a request's bytes: of its place where it names one. -/
def Fetch.at_ (f : Fetch) : Nat :=
  match f.place with
  | some p => p.a
  | none => f.va

/-- A far-cache fill arrives (R163): installed unless its line was invalidated meanwhile; the load that asked for it, if
one did, takes its bytes from the place of its address on. Every fill is recorded, with where each core stands (R163,
R421). -/
def performFill (p : Packet) (s : State) : Option State :=
  match p.msg with
  | .fill dst fetch sp base data =>
    let c := s.coreAt dst.core
    let moments := coreIds.map (fun c => (s.coreAt c).moment)
    let s := s.noteInput .reply dst.core 0 c.retired dst s.tile.jt (placeOf fetch c.pend) [] p moments
    let good := s.tile.fills.any (fun f => f.1 == fetch && f.2.2.2)
    let s := { s with tile := { s.tile with fills := s.tile.fills.filter (fun f => f.1 != fetch) } }
    let s := if good then { s with tile := s.tile.farInstall { space := sp, base := base, data := data } } else s
    some (match c.pend.find? (fun f => f.id == fetch) with
      | some f => s.answerHere dst.core fetch (.data ((lineBytes data).drop (f.at_ % 256)) [])
      | none => s)
  | _ => none

def execFarCacheFill (id : Nat) (s : State) : Result := s.take id performFill

/-- Keeps a list's first n entries. -/
def putFirst {α : Type} [BEq α] (n : Nat) (x : α) (l : List α) : List α := (x :: l.filter (· != x)).take n

/-- Addresses of the table entries that a walk reads (R138). -/
def walkReads (m : Memory) (va : Nat) : List Nat → Nat → List Nat
  | [], _ => []
  | sh :: r, table =>
    let a := table + 8 * (va / 2 ^ sh % 512)
    let pte := BitVec.ofNat 64 (m.readNat a 8)
    if pte.getLsbD 0 && !pte.getLsbD 1 && pointerValid pte then a :: walkReads m va r (pteFrame pte) else [a]

/-- A rim walker completes the walk of a core (R144): the translation fills the TLBs, or the address fails, also when a
table cannot be delivered (R437). -/
def execPageWalkComplete (site : SiteId) (core : CoreId) (s : State) : Result :=
  let s := s.focus site core
  match s.core.walk with
  | none => .next s
  | some w =>
    if w.failed then .next s
    else
      let fail (s : State) : State := { s with core := { s.core with walk := some { w with failed := true } } }
      let reads := walkReads s.wafer.hbm w.va [39, 30, 21, 12] (w.root.toNat * 4096)
      match s.undelivered .hbm (reads.flatMap (span · 8)) w.job s.me (BitVec.ofNat 64 w.va),
          walkFrom s.wafer.hbm s.tile.tiles w.va [39, 30, 21, 12] (w.root.toNat * 4096) with
      | some t, _ => .next (fail t)
      | none, none => .next (fail s)
      | none, some (b, n, pte) =>
        let e : TlbEntry := { job := w.job, root := w.root, base := b, size := n, pte := pte }
        .next { s with core := { s.core with walk := none, tlb := putFirst 32 e s.core.tlb },
                       tile := { s.tile with tlb := putFirst 256 e s.tile.tlb } }

/-- The 256 bytes of a line at a place, for a fetch; none while no site carries its tile. -/
def State.lineOf (s : State) (t : Target) : Option LineBits :=
  match t with
  | .own a => some (bytesLine (s.tile.mem.readBytes (a / 256 * 256) 256))
  | .far p =>
    let a := p.a / 256 * 256
    match p.space with
    | .spad l => (s.carrier l).map (fun x => bytesLine ((s.tileAt x).mem.readBytes a 256))
    | sp => some (bytesLine (s.wafer.bytesAt sp a 256))

/-- A line joins the instruction buffer of the core in focus, the least recently used going (R109). -/
def State.fillBuffer (s : State) (line : Nat) (d : LineBits) : State :=
  { s with core := { s.core with ibuf := ((line, d) :: s.core.ibuf.filter (fun l => l.1 != line)).take 64 } }

/-- A fill from behind the rim counts as an access of its tile (R146). -/
def State.countFill (s : State) (t : Target) : State :=
  match t with
  | .own _ => s
  | .far p => s.countSpace s.site p.space (p.a / 256 * 256) (s.tile.job.getD 0)

/-- A fill that its controller does not deliver (R437). -/
def State.fillFails (s : State) (t : Target) (va : Nat) : Option State :=
  match t with
  | .own _ => none
  | .far p => s.undelivered p.space (span (p.a / 256 * 256) 256) (s.tile.job.getD 0) s.me (BitVec.ofNat 64 va)

/-- A line that a fetch waits for arrives (R109), or cannot be delivered (R437). -/
def execInstructionBufferFill (site : SiteId) (core : CoreId) (s : State) : Result :=
  let s := s.focus site core
  match s.core.fetchMiss with
  | none => .next s
  | some line =>
    match s.translate { x := true } (256 * line) with
    | .ok t =>
      let s := s.countFill t
      match s.fillFails t (256 * line), s.lineOf t with
      | some u, _ => .next { u with core := { u.core with fetchMiss := none, fetchBad := some line } }
      | none, some d =>
        let s := s.fillBuffer line d
        .next { s with core := { s.core with fetchMiss := none, fetchBad := none } }
      | none, none => .next s
    | _ => .next s

/-! ### Abandoned accesses (R158, R336, R367) -/

/-- A request that carries a number and a source. -/
def Msg.asks (m : Msg) (src : CoreRef) (fetch : Nat) : Bool :=
  let is (r : Req) : Bool := r.src == src && r.fetch == fetch
  match m with
  | .load r _ _ => is r
  | .line r _ _ => is r
  | .fullEmpty r _ _ _ _ => is r
  | .fullEmptyBack r _ _ _ _ => is r
  | .waita r _ _ _ => is r
  | .amo q => is q.req
  | .window r _ _ _ none => is r
  | .device r _ _ => is r
  | _ => false

/-- An unanswered request of the core is cancelled and recorded (R367); a local wait is taken out of its table. A request
whose answer has come beside it is kept with it. -/
def abandonFetch (s : State) (f : Fetch) : State :=
  let drop (s : State) : State :=
    { s with core := { s.core with pend := s.core.pend.filter (fun x => x.id != f.id) } }
  if f.reply.isSome then
    let p := f.place.getD { space := .spad s.tile.tile, a := f.va }
    let a : Abandoned :=
      { kind := f.kind, place := p, tag := f.tag, fetch := f.id, va := f.va, lane := f.lane, ops := f.ops,
        answer := some f.reply }
    let s := drop s
    { s with core := { s.core with abandoned := s.core.abandoned ++ [a] } }
  else
    match f.place with
    | none =>
      drop { s with tile := { s.tile with
        waiters := s.tile.waiters.filter (fun w => w.remote || w.req.fetch != f.id),
        monitors := s.tile.monitors.filter (fun m => m.remote || m.req.fetch != f.id) } }
    | some p =>
      let r := { s.req p.space.cls f.tag f.va none with fetch := f.id }
      let a : Abandoned :=
        { kind := f.kind, place := p, tag := f.tag, fetch := f.id, va := f.va, lane := f.lane, ops := f.ops }
      let s := drop s
      ({ s with core := { s.core with abandoned := s.core.abandoned ++ [a] } }).inject .relief p.dest (.cancel r f.kind p)

/-- A gather is cut (R254): the lanes below the lowest that has no data are written, LANE is set to it, the answers of
lanes above it are discarded, and its other requests are abandoned. -/
def cutGather (s : State) : State :=
  let fs := s.core.pend
  let data (f : Fetch) : Bool := match f.reply with
    | some (.data _ _) => true
    | _ => false
  let low := (fs.filter (fun f => !(data f))).foldl (fun n f => min n f.lane) 16
  let done := fs.filter (fun f => data f && decide (f.lane < low))
  let s := done.foldl (fun s f => s.setGathered (f.ops.1.setWidth 5) f.lane (leNat f.bytes % 2 ^ 32)) s
  let c := s.core.learn (done.flatMap Fetch.known)
  let s := { s with core := { c with
    fp := { c.fp with vprog := BitVec.ofNat 6 low }, pend := c.pend.filter (fun f => f.reply.isNone) } }
  s.core.pend.foldl abandonFetch s

/-- A blocking access that a boundary or a pre-emption has waited for too long is abandoned (R367). -/
def execBlockingAccessAbandon (site : SiteId) (core : CoreId) (s : State) : Result :=
  let s := s.focus site core
  .next (if !s.core.stopAsked || s.core.pend.all (fun f => f.reply.isSome) then s
    else if s.core.pend.any (fun f => f.kind == .gather) then cutGather s
    else s.core.pend.foldl abandonFetch s)

/-- Takes a waiting request of a number out of the tile's tables and slice queues, if one waits there. -/
def Tile.dropWaiting (t : Tile) (src : CoreRef) (fetch : Nat) : Option Tile :=
  let is (r : Req) : Bool := r.src == src && r.fetch == fetch
  if t.waiters.any (fun w => is w.req) then some { t with waiters := t.waiters.filter (fun w => !(is w.req)) }
  else if t.monitors.any (fun m => is m.req) then some { t with monitors := t.monitors.filter (fun m => !(is m.req)) }
  else if t.slices.toList.any (fun x => x.queue.any (fun q => is q.req)) then
    some { t with slices := t.slices.map (fun x => { x with queue := x.queue.filter (fun q => !(is q.req)) }) }
  else none

/-- The answer that the tile has kept for a cancel (R158, R336). -/
def Tile.answerOf (t : Tile) (src : CoreRef) (fetch : Nat) : Option Reply :=
  (t.answers.find? (fun x => x.1 == src && x.2.1 == fetch)).map (·.2.2)

/-- What the destination kept of a request that it performed (R158, R336, R427), or the answer still on its way. -/
def State.performedReply (s : State) (marks : List Mark) (src : CoreRef) (r : Req) : Option Reply :=
  match s.wafer.net.findSome? (fun q =>
      match q.msg with
      | .reply d f rep _ => if d == src && f == r.fetch then some rep else none
      | _ => none) with
  | some rep => some rep
  | none =>
    match findMark marks src with
    | some m => match m.result with
      | some (seq, rep) => if seq == r.seq then some rep else s.tile.answerOf src r.fetch
      | none => s.tile.answerOf src r.fetch
    | none => s.tile.answerOf src r.fetch

/-- A cancel reaches the first place that holds the request (R367): dropped there, or performed already. -/
def execCancelArrival (id : Nat) (s : State) : Result :=
  s.take id fun p s =>
    match p.msg with
    | .cancel r _ pl =>
      let answer (s : State) (a : Option Reply) : State :=
        s.sendAs p.rim .relief (.tile r.src.tile) (.cancelAnswer r.src r.fetch a)
      let marks := if p.dest.rim then s.rimMarks (pl.a / 4096 % 40) else s.tile.marks
      let is (q : AccReq) : Bool := q.req.src == r.src && q.req.fetch == r.fetch
      if p.dest.rim && s.wafer.rim.slices.any (fun k => k.2.queue.any is) then
        let rim := s.wafer.rim
        let keep (k : Nat × Slice) : Nat × Slice := (k.1, { k.2 with queue := k.2.queue.filter (fun q => !(is q)) })
        some (answer { s with wafer := { s.wafer with rim := { rim with slices := rim.slices.map keep } } } none)
      else if s.wafer.net.any (fun q => q.msg.asks r.src r.fetch) then
        some (answer { s with wafer := { s.wafer with
          net := s.wafer.net.filter (fun q => !(q.msg.asks r.src r.fetch)) } } none)
      else
        match (if p.dest.rim then none else s.tile.dropWaiting r.src r.fetch) with
        | some t => some (answer { s with tile := t } none)
        | none => some (answer s (s.performedReply marks r.src r))
    | _ => none

/-- The answer of a cancel arrives and is recorded (R367). -/
def execCancelAnswerArrival (id : Nat) (s : State) : Result :=
  s.take id fun p s =>
    match p.msg with
    | .cancelAnswer dst fetch a =>
      let bytes := (a.map Reply.bytes).getD []
      let c := s.coreAt dst.core
      let place := BitVec.ofNat 32 (c.abandoned.findIdx (fun x => x.fetch == fetch))
      let s := s.noteInput .reply dst.core 0 c.retired dst s.tile.jt place (bytes.take 8) p
      let put (c : Core) : Core :=
        { c with abandoned := c.abandoned.map (fun x => if x.fetch = fetch then { x with answer := some a } else x) }
      let away (t : SavedTeam) : SavedTeam :=
        if t.tile = dst.tile then { t with cores := t.cores.map (fun c => (c.1, if c.1 = dst.core then put c.2 else c.2)) }
        else t
      some ({ s with wafer := { s.wafer with saved := s.wafer.saved.map away } }.updCore dst.core put)
    | _ => none

end Sys2Proof.Machine
end

