-- ==== Sys2Proof/Machine/Sync.lean ====
section
/-!
DEFINITION. Messages, barriers, waits on an address and event counters (10_sync.md, R316 to R338), with the events of the
receive path and of the block signal network.
-/
namespace Sys2Proof.Machine

/-! ### Message registers and the receive path (R316 to R318) -/

/-- A message register. -/
def Core.qreg (c : Core) (q : BitVec 4) : QReg := vget c.regs.qregs q.toNat {}

/-- Writes a message register. -/
def Core.setQ (c : Core) (q : BitVec 4) (x : QReg) : Core :=
  { c with regs := { c.regs with qregs := vset c.regs.qregs q.toNat x } }

/-- A message fills its register and sets the wake latch (R316, R132). -/
def Core.fillQ (c : Core) (q : BitVec 4) (d : V256) : Core := (c.setQ q { data := d, full := true }).wakeUp

/-- An earlier message for a core and q waits in the tile (R317). -/
def Tile.waiting (t : Tile) (c : CoreId) (q : BitVec 4) : Bool :=
  (t.restored ++ t.inbound).any (fun m => m.dst == c && m.q == q)

/-- A core has a bound team of a job (R317). -/
def State.boundFor (s : State) (c : CoreId) (job : BitVec 6) : Bool :=
  (s.coreAt c).run != .unbound && s.tile.job == some job

/-- The delivery of a message at its tile (R317); none while the junction must hold it. -/
def deliverMessage (m : Message) (s : State) : Option State :=
  if s.boundFor m.dst m.job && !((s.coreAt m.dst).qreg m.q).full && !(s.tile.waiting m.dst m.q) then
    some (s.updCore m.dst (fun c => c.fillQ m.q m.data))
  else if s.tile.inbound.length < 32 then some { s with tile := { s.tile with inbound := s.tile.inbound ++ [m] } }
  else none

/-- The acknowledgement of a counted message (R318). -/
def ackMessage (m : Message) (s : State) : State :=
  if m.counted then s.inject .relief (.tile m.tile) (.ack { tile := m.tile, core := m.core } .n none false none) else s

/-- A replay-flagged message stands at or below the mark of its source (R318, R396). -/
def oldMessage (l : List Mark) (m : Message) : Bool :=
  m.replay && (m.counted || m.fromBox) &&
    match findMark l { tile := m.tile, core := m.core } with
    | some k => underMark (if m.fromBox then k.bseq else k.mseq) m.seq
    | none => false

/-- The mark of a message's source advances (R318, R396). -/
def markMessage (m : Message) (s : State) : State :=
  let put (f : Mark → Mark) : State :=
    { s with tile := { s.tile with marks := putMark s.tile.marks { tile := m.tile, core := m.core } f } }
  if m.fromBox then put (fun k => { k with bseq := raiseMark k.bseq m.seq })
  else if m.counted then put (fun k => { k with mseq := raiseMark k.mseq m.seq })
  else s

/-- A message reaches its tile (R317, R318); a repeated one that a box sent on has been acknowledged (R406, R443). -/
def performMessage (p : Packet) (s : State) : Option State :=
  match p.msg with
  | .message m =>
    let src : CoreRef := { tile := m.tile, core := m.core }
    if oldMessage s.tile.marks m then some (if p.again then s else ackMessage m s)
    else if (m.counted || m.fromBox) && !markRoom s.tile.marks src then none
    else
      let noted := s.noteInput .message m.dst 0 (s.coreAt m.dst).retired src m.jt m.seq (natBytes m.data.toNat 32) p
      match deliverMessage m noted with
      | none => none
      | some t =>
        some (ackMessage m (markMessage m t))
  | _ => none

def execMessageArrival (id : Nat) (s : State) : Result := s.take id performMessage

/-- Takes the oldest message for a core and q out of a list. -/
def takeMessage (c : CoreId) (q : BitVec 4) : List Message → Option (Message × List Message)
  | [] => none
  | m :: r =>
    if m.dst = c ∧ m.q = q then some (m, r)
    else (takeMessage c q r).map (fun x => (x.1, m :: x.2))

/-- The oldest waiting message for a core and an empty q moves into it (R317): restored ones first. -/
def moveMessage (c : CoreId) (q : BitVec 4) (s : State) : State :=
  if ((s.coreAt c).qreg q).full || (s.coreAt c).run == .unbound then s
  else
    match takeMessage c q s.tile.restored with
    | some (m, r) =>
      ({ s with tile := { s.tile with restored := r } }).updCore c (fun x => x.fillQ q m.data)
    | none =>
      match takeMessage c q s.tile.inbound with
      | some (m, r) =>
        if s.tile.job = some m.job then
          ({ s with tile := { s.tile with inbound := r } }).updCore c (fun x => x.fillQ q m.data)
        else s
      | none => s

def execMessageBufferMove (site : SiteId) (core : CoreId) (q : BitVec 4) (s : State) : Result :=
  .next (moveMessage core q (s.focusSite site))

/-! ### send, sendv, recv, recvv, qstat (R319 to R322) -/

/-- A message of the core in focus to itself or another core of its tile still waits in the junction (R317). -/
def State.ownHeld (s : State) : Bool :=
  s.wafer.net.any (fun p =>
    match p.msg with
    | .message m => m.tile == s.tile.tile && m.core == s.coreNo && p.dest == .tile s.tile.tile
    | _ => false)

/-- The header of the next message of the core in focus. -/
def State.nextMessage (s : State) (x : Word) (d : V256) (counted : Bool) : Message :=
  { jt := s.tile.jt, core := s.coreNo, tile := s.tile.tile, job := s.tile.job.getD 0, seq := s.core.sync.msgSeq + 1,
    dst := BitVec.ofNat 3 (field x 12 3), q := BitVec.ofNat 4 (field x 16 4), data := d, counted := counted,
    replay := s.tile.replay.isSome || s.tile.flagged, order := s.wafer.nextId }

/-- The message sequence advances (R318). -/
def Core.nextMsgSeq (c : Core) : Core := { c with sync := { c.sync with msgSeq := c.sync.msgSeq + 1 } }

/-- A send (R318, R320): to the own tile performed at once, to another posted and counted. -/
def sendMessage (x : Word) (d : V256) (s : State) : Issue :=
  let l := s.tile.logical (field x 0 12)
  if field x 20 44 ≠ 0 || x.getLsbD 15 || decide (s.tile.tiles ≤ field x 0 12) then .trap 5 x s
  else if l = s.tile.tile then
    let m := s.nextMessage x d false
    let s := { s with core := s.core.nextMsgSeq }
    match (if s.ownHeld then none else deliverMessage m s) with
    | some s => s.next4
    | none => (s.launchPacket .relief (.tile l) none (.message m)).next4
  else if (findPoint s.junction.points l.toNat).isNone then .trap 5 x s
  else if !s.core.countRoom .n then .wait s
  else
    let m := s.nextMessage x d true
    let s := { s with core := s.core.nextMsgSeq.countUp .n }
    (s.inject .relief (.tile l) (.message m)).next4

def execSend (a b : BitVec 5) (s : State) : Result := (sendMessage (s.reg a) (zext64 (s.reg b) |>.setWidth 256) s).result

def execSendv (h : BitVec 1) (a v : BitVec 5) (s : State) : Result :=
  (sendMessage (s.reg a) ((s.core.vreg v).data.extractLsb' (256 * h.toNat) 256) s).result

/-- Empties a message register after its message is read (R321). -/
def Core.emptyQ (c : Core) (q : BitVec 4) : Core := c.setQ q { c.qreg q with full := false }

def execRecv (d : BitVec 5) (q : BitVec 4) (s : State) : Result :=
  (if (s.core.qreg q).full then
    let v : Word := (s.core.qreg q).data.setWidth 64
    Issue.done (({ s with core := s.core.emptyQ q }.setReg d v).skip 4)
   else .wait s).result

/-- Half h of a vector register is replaced, its special flag made anew (R321, R44). -/
def VReg.setHalf (r : VReg) (h : BitVec 1) (d : V256) : VReg :=
  let data := if h = 0 then r.data.extractLsb' 256 256 ++ d else d ++ r.data.extractLsb' 0 256
  VReg.make r.tag data.toNat r.scales

def execRecvv (v : BitVec 5) (q : BitVec 4) (h : BitVec 1) (s : State) : Result :=
  (if (s.core.qreg q).full then
    let c := s.core.setVReg v ((s.core.vreg v).setHalf h (s.core.qreg q).data)
    Issue.done (({ s with core := c.emptyQ q }).skip 4)
   else .wait s).result

/-- The receive status (R322). -/
def State.qstatus (s : State) : Word :=
  BitVec.ofNat 64 ((s.tile.inbound.filter (fun m => m.dst == s.coreNo)).length * 2 ^ 16 +
    (List.range 16).foldl (fun a i => a + if (s.core.qreg (BitVec.ofNat 4 i)).full then 2 ^ i else 0) 0)

def execQstat (d : BitVec 5) (s : State) : Result :=
  (match s.record s.qstatus with
    | some (v, s) => (s.setReg d v).next4
    | none => .wait s).result

/-! ### Domains (R326, R327, R329) -/

/-- The barrier state of a level (R331). -/
def Core.bst (c : Core) (n : BitVec 2) : BitVec 2 := vget c.sync.bst n.toNat 0

/-- Sets the barrier state of a level. -/
def Core.setBst (c : Core) (n : BitVec 2) (v : BitVec 2) : Core :=
  { c with sync := { c.sync with bst := vset c.sync.bst n.toNat v } }

/-- The domain of the core in focus at a level (R326, R327). -/
def State.domain (s : State) (n : BitVec 2) : DomainKey :=
  let d := vget s.core.sync.dom n.toNat 0
  let job := s.tile.job.getD 0
  let launch := BitVec.ofNat 20 (s.team.toNat / 4096)
  if d.getLsbD 40 then { job := job, launch := launch, level := n, did := d.setWidth 12, alone := none }
  else { job := job, launch := launch, level := n, did := s.tile.jt, alone := some s.coreNo }

/-- The live launch of a number (R347). -/
def Wafer.launch (w : Wafer) (job : BitVec 6) (num : BitVec 20) : Option Launch :=
  w.launches.find? (fun l => l.job == job && l.num == num)

/-- Width and height of a launch's level-n blocks (R105, R326). -/
def Launch.block (l : Launch) (n : Nat) : Nat × Nat := if n = 0 then (1, 1) else l.blocks.getD (n - 1) (1, 1)

/-- The job tiles of a domain of a launch, lowest first (R326): at level 0 the job tile itself. -/
def Launch.domainTiles (l : Launch) (n did : Nat) : List Nat :=
  if n = 0 then [did]
  else
    let (dw, dh) := l.block n
    let per := l.w / dw
    let x := did % per * dw
    let y := did / per * dh
    (List.range dh).flatMap (fun j => (List.range dw).map (fun i => (y + j) * l.width + x + i))

/-- The cores of a mask, ascending. -/
def coresOf (m : BitVec 8) : List CoreId := coreIds.filter (fun c => m.getLsbD c.toNat)

/-- The job tiles of a domain. -/
def Wafer.domainTiles (w : Wafer) (d : DomainKey) : List Nat :=
  match d.alone with
  | some _ => [d.did.toNat]
  | none =>
    match w.launch d.job d.launch with
    | some l => l.domainTiles d.level.toNat d.did.toNat
    | none => []

/-- The members of a domain (R327), by job tile and core. -/
def Wafer.members (w : Wafer) (d : DomainKey) : List (Nat × CoreId) :=
  match d.alone with
  | some c => [(d.did.toNat, c)]
  | none =>
    match w.launch d.job d.launch with
    | some l => (w.domainTiles d).flatMap (fun t => (coresOf l.cores).map (fun c => (t, c)))
    | none => []

/-- A member's thread has ended, so that it counts as arrived (R327, R356). -/
def Wafer.threadEnded (w : Wafer) (d : DomainKey) (m : Nat × CoreId) : Bool :=
  match w.launch d.job d.launch with
  | some l => l.codes.any (fun e => e.tile == m.1 && e.core == m.2)
  | none => false

/-- A barrier that the tile's own logic runs, without a junction (R327, R329). -/
def atHome (d : DomainKey) : Bool := d.level = 0 || d.alone.isSome

/-- An arrival is counted (R329): once for each member. -/
def Wafer.count (w : Wafer) (b : BarrierMsg) : Wafer :=
  match w.barriers.find? (fun x => x.domain == b.domain) with
  | none =>
    { w with barriers := w.barriers ++ [{ domain := b.domain, arrived := [b.member], det := b.det, known := b.known }] }
  | some x =>
    if x.arrived.contains b.member then w
    else
      let y := { x with arrived := x.arrived ++ [b.member], det := x.det || b.det, known := x.known ++ b.known }
      { w with barriers := w.barriers.map (fun k => if k.domain == b.domain then y else k) }

/-! ### arrive, await, sync (R330 to R333) -/

/-- The drain of an arrival (R331): relaxed rows flushed, engines started or sent, counts at zero. -/
def drainAll (s : State) (k : State → Issue) : Issue :=
  match s.core.raceFor [.n, .m, .x] with
  | some _ => waitCounts [.n, .m, .x] s k
  | none =>
    let s := s.flushAll
    if s.core.acc.flushing.isEmpty && !s.core.relaxedRows && !s.core.relaxedInbound then
      waitCounts [.n, .m, .x] s k
    else .wait s

/-- Levels up to n have no deterministic accumulate in the superstep that begins (R328, R329). -/
def Core.clearDet (c : Core) (n : Nat) : Core :=
  { c with sync := { c.sync with det := (List.range (n + 1)).foldl (fun v i => vset v i false) c.sync.det } }

/-- The core in focus arrives at the barrier of a level (R329, R331). -/
def State.sendArrival (s : State) (n : BitVec 2) : State :=
  let d := s.domain n
  let det := vget s.core.sync.det n.toNat false
  let known := s.publish s.tile.tile
  let s := { s with core := (s.core.setBst n 1).clearDet n.toNat }
  if atHome d then
    let b : BarrierMsg :=
      { domain := d, member := (s.tile.jt.toNat, s.coreNo), src := s.me, seq := 0, det := det, known := known,
        replay := false }
    { s with wafer := s.wafer.count b }
  else
    let s := { s with core := s.core.nextOseq }
    let b : BarrierMsg :=
      { domain := d, member := (s.tile.jt.toNat, s.coreNo), src := s.me, seq := s.core.post.oseq, det := det,
        known := known, replay := s.tile.replay.isSome || s.tile.flagged }
    s.inject .relief (.tile (s.tile.logical ((s.wafer.domainTiles d).headD 0))) (.arrival b)

/-- A released await completes (R331, R333). -/
def State.passBarrier (s : State) (n : BitVec 2) : State :=
  let c := (s.core.setBst n 0).learn (vget s.core.sync.relKnown n.toNat [])
  let x := c.sync
  { s with
    core := { c with
      ibuf := [],
      sync := { x with
        step := vset x.step n.toNat (vget x.step n.toNat 0 + 1), relKnown := vset x.relKnown n.toNat [] } },
    tile := s.tile.farEmpty }

/-- await n, without the pc (R331). -/
def awaitBarrier (n : BitVec 2) (s : State) (k : State → Issue) : Issue :=
  if s.core.bst n = 0 then k s
  else if s.core.bst n = 2 then k (s.passBarrier n)
  else .wait s

/-- arrive n, without the pc (R331). -/
def arriveBarrier (n : BitVec 2) (s : State) (k : State → Issue) : Issue :=
  awaitBarrier n s fun s => drainAll s fun s => k (s.sendArrival n)

def execArrive (n : BitVec 2) (s : State) : Result := (arriveBarrier n s State.next4).result

def execAwait (n : BitVec 2) (s : State) : Result := (awaitBarrier n s State.next4).result

def execSync (n : BitVec 2) (s : State) : Result :=
  (if s.core.bst n = 0 then drainAll s fun s => awaitBarrier n (s.sendArrival n) State.next4
   else awaitBarrier n s State.next4).result

/-! ### The block signal network (R329, R331, R334) -/

/-- An arrived packet that the junction itself takes, whatever its tile does. -/
def State.takeAtJunction (s : State) (id : Nat) (k : Packet → State → State) : Result :=
  .next (match s.packet id with
    | none => s
    | some p =>
      match p.arrived with
      | none => s
      | some n =>
        let t := s.focusSite p.site
        if t.behind p n || t.junction.passThrough then s else k p (t.dropPacket id))

/-- An arrival reaches its root and is counted (R329); one that a replay sends again and the tree has counted is
discarded (R427, R443). -/
def Wafer.countArrival (w : Wafer) (b : BarrierMsg) : Wafer :=
  let mine (m : TreeMark) : Bool := m.domain == b.domain && m.member == b.member
  if b.replay && w.treeMarks.any (fun m => mine m && atMost b.seq m.seq) then w
  else
    let m : TreeMark := { domain := b.domain, member := b.member, seq := b.seq }
    { w.count b with treeMarks := w.treeMarks.filter (fun m => !(mine m)) ++ [m] }

def execBarrierArrival (id : Nat) (s : State) : Result :=
  match s.packet id with
  | some { msg := .arrival b, .. } => s.takeAtJunction id fun _ s => { s with wafer := s.wafer.countArrival b }
  | _ => .next s

/-- A member of the tile in focus is released (R331). -/
def releaseCore (d : DomainKey) (known : List AccessId) (c : CoreId) (s : State) : State :=
  s.updCore c (fun x =>
    if x.bst d.level = 1 then
      let x := x.setBst d.level 2
      { x with sync := { x.sync with relKnown := vset x.sync.relKnown d.level.toNat known } }
    else x)

/-- The tile in focus belongs to a job and is its job tile t. -/
def State.isJobTile (s : State) (job : BitVec 6) (t : Nat) : Bool :=
  s.tile.job == some job && s.tile.jt.toNat == t

/-- The site whose tile is a job tile of a job. -/
def State.jobTileSite (s : State) (job : BitVec 6) (t : Nat) : Option SiteId :=
  s.siteIds.find? (fun x => (s.tileAt x).job == some job && (s.tileAt x).jt.toNat == t)

/-- Applies a change at the site of a job tile, if a site carries it. -/
def State.atJobTile (s : State) (job : BitVec 6) (t : Nat) (f : State → State) : State :=
  match s.jobTileSite job t with
  | some x => s.atSite x f
  | none => s

/-- First address of a core's area in a team save area (R368). -/
def coreArea (save : Nat) (c : CoreId) : Nat := save + c.toNat * 0x30000

/-- A release for members that a saved team has on its tile sets their BST fields in the save area to 2 (R334, R368). -/
def releaseAway (d : DomainKey) (known : List AccessId) (w : Wafer) (t : SavedTeam) : Wafer :=
  let mine (c : CoreId) : Bool := (w.members d).contains (t.team.toNat % 4096, c)
  (t.slots.filter (fun p => mine p.1)).foldl (fun w p =>
    let a := coreArea p.2.save.toNat p.1 + 8 * 20
    let v := w.hbm.readNat a 8
    let lo := 6 + 2 * d.level.toNat
    if v / 2 ^ lo % 4 = 1 then { w with hbm := w.hbm.writeCells (cellsAt a (natBytes (v + 2 ^ lo) 8)) } else w)
    { w with saved := w.saved.map (fun k =>
        if k == t then
          { k with cores := k.cores.map (fun p =>
              if mine p.1 then
                (p.1, { p.2 with sync := { p.2.sync with relKnown := vset p.2.sync.relKnown d.level.toNat known } })
              else p) }
        else k) }

/-- The saved teams of a domain's launch on a job tile. -/
def Wafer.awayTeams (w : Wafer) (d : DomainKey) (t : Nat) : List SavedTeam :=
  w.saved.filter (fun k => k.job == d.job && k.team.toNat / 4096 == d.launch.toNat && k.team.toNat % 4096 == t)

/-- A core of the tile in focus is not held by another launch than a domain's. -/
def State.holdsMember (s : State) (d : DomainKey) (c : CoreId) : Bool :=
  (s.coreAt c).slot.all (fun r => r.job == d.job && r.team.toNat / 4096 == d.launch.toNat)

/-- The root releases a barrier (R331): its own tile's logic at once, other tiles by packets from the root. A team that is
away is released in its save area (R334). -/
def releaseBarrier (b : Barrier) (s : State) : State :=
  let s := { s with wafer := { s.wafer with barriers := s.wafer.barriers.filter (fun k => !(k.domain == b.domain)) } }
  let ms := s.wafer.members b.domain
  if atHome b.domain then
    let t := b.domain.did.toNat
    let s := { s with wafer := (s.wafer.awayTeams b.domain t).foldl (releaseAway b.domain b.known) s.wafer }
    s.atJobTile b.domain.job t (fun s =>
      (ms.filter (fun m => s.holdsMember b.domain m.2)).foldl (fun s m => releaseCore b.domain b.known m.2 s) s)
  else
    let ts := s.wafer.domainTiles b.domain
    s.atJobTile b.domain.job (ts.headD 0) (fun s =>
      ts.foldl (fun s t =>
        let r : BarrierMsg :=
          { domain := b.domain, member := (t, 0), src := s.me, seq := 0, det := b.det, known := b.known, replay := false }
        s.launchPacket .relief (.tile (s.tile.logical t)) none (.release r (s.tile.logical t))) s)

/-- Every member of a barrier has been counted or has ended its thread (R327, R331). -/
def Wafer.complete (w : Wafer) (b : Barrier) : Bool :=
  let ms := w.members b.domain
  !ms.isEmpty && ms.all (fun m => b.arrived.contains m || w.threadEnded b.domain m)

/-- The phase of a barrier changes. -/
def Wafer.setPhase (w : Wafer) (d : DomainKey) (p : BarrierPhase) : Wafer :=
  { w with barriers := w.barriers.map (fun k => if k.domain == d then { k with phase := p } else k) }

/-- The site that carries the root's tile has it in place (R371). -/
def State.rootPresent (s : State) (b : Barrier) : Bool :=
  (s.jobTileSite b.domain.job (if atHome b.domain then b.domain.did.toNat else (s.wafer.domainTiles b.domain).headD 0)).isSome

/-- The root has counted every member (R331): the merge of R206 begins, or the release goes out. -/
def execBarrierRootComplete (d : DomainKey) (s : State) : Result :=
  .next (match s.wafer.barriers.find? (fun b => b.domain == d) with
    | some b =>
      if b.phase = .collecting && s.wafer.complete b && s.rootPresent b then
        (if b.det then { s with wafer := s.wafer.setPhase d .merging } else releaseBarrier b s)
      else s
    | none => s)

/-- A release for one core, as its send-log entry holds it. -/
def BarrierMsg.toCore (b : BarrierMsg) (t : Nat) (c : CoreId) : BarrierMsg := { b with member := (t, c), replay := true }

/-- A core that waits at the barrier of a level is released, in a replay or from a send log. -/
def releaseAgain (b : BarrierMsg) (c : CoreId) (s : State) : Option State :=
  if (s.coreAt c).bst b.domain.level = 1 then some (releaseCore b.domain b.known c s) else none

/-- A member that the tile in focus runs again has not come to its barrier yet (R444). -/
def State.memberOnTheWay (s : State) (d : DomainKey) (c : CoreId) : Bool :=
  s.tile.flagged && !(s.wafer.threadEnded d (s.tile.jt.toNat, c)) && (s.coreAt c).bst d.level ≠ 1

/-- The release of a core is recorded (R421, kind 7). -/
def noteRelease (p : Packet) (b : BarrierMsg) (dst : TileNo) (c : CoreId) (s : State) : State :=
  let q := { p with msg := .release (b.toCore s.tile.jt.toNat c) dst }
  s.noteInput .release c 0 (s.coreAt c).retired b.src s.tile.jt (zext64 b.domain.level |>.setWidth 32) [] q

/-- A release reaches a tile (R331, R334). -/
def performRelease (p : Packet) (s : State) : Option State :=
  match p.msg with
  | .release b dst =>
    let d := b.domain
    match s.wafer.awayTeams d s.tile.jt.toNat with
    | t :: _ => some { s with wafer := releaseAway d b.known s.wafer t }
    | [] =>
      if b.replay then releaseAgain b b.member.2 (noteRelease p b dst b.member.2 s)
      else
        let cs := ((s.wafer.members d).filter (fun m => m.1 == s.tile.jt.toNat)).map (·.2)
        if cs.any (s.memberOnTheWay d) then none
        else some (cs.foldl (fun s c => releaseCore d b.known c (noteRelease p b dst c s)) s)
  | _ => none

def execBarrierReleaseArrival (id : Nat) (s : State) : Result := s.take id performRelease

/-! ### The deterministic merge (R206) -/

/-- A held entry belongs to a job and its issuer to some members. -/
def Held.issuedIn (h : Held) (job : BitVec 6) (ms : List (Nat × CoreId)) : Bool :=
  h.job == job && ms.contains (h.key.jt.toNat, h.key.core)

/-- The held entries of members at a slice, in ascending key, and the slice without them. -/
def Slice.takeHeld (x : Slice) (job : BitVec 6) (ms : List (Nat × CoreId)) : List Held × Slice :=
  let mine (h : Held) : Bool := h.issuedIn job ms
  (sortHeld ((x.runs.flatten ++ x.hold).filter mine),
   { x with hold := x.hold.filter (fun h => !(mine h)),
            runs := (x.runs.map (fun r => r.filter (fun h => !(mine h)))).filter (fun r => !r.isEmpty) })

/-- A held entry is applied at a scratchpad slice of the tile in focus (R206). -/
def applyHeld (s : State) (h : Held) : State :=
  let x := BitVec.ofNat 64 (s.tile.mem.readNat h.place.a h.op.size)
  s.writeOwn (cellsAt h.place.a (natBytes (comb h.op x h.value).toNat h.op.size)) false

/-- The merge at a tile. -/
def mergeTile (job : BitVec 6) (ms : List (Nat × CoreId)) (s : State) : State :=
  (List.range 8).foldl (fun s k =>
    let r := (vget s.tile.slices k {}).takeHeld job ms
    r.1.foldl applyHeld { s with tile := { s.tile with slices := vset s.tile.slices k r.2 } }) s

/-- A held entry is applied at a rim slice (R206); a word that the controller does not deliver is left as it is (R437). -/
def applyRim (s : State) (h : Held) : State :=
  match s.undelivered .hbm (span h.place.a h.op.size) h.job h.src h.va with
  | some s => s
  | none =>
    let x := BitVec.ofNat 64 (s.wafer.hbm.readNat h.place.a h.op.size)
    let cells := cellsAt h.place.a (natBytes (comb h.op x h.value).toNat h.op.size)
    { s with wafer := s.wafer.put .hbm h.job false cells }

/-- The merge at one rim slice. -/
def mergeRim (job : BitVec 6) (ms : List (Nat × CoreId)) (s : State) (p : Nat × Slice) : State :=
  let r := p.2.takeHeld job ms
  let rim := s.wafer.rim
  r.1.foldl applyRim { s with wafer := { s.wafer with rim := { rim with slices := putKey rim.slices p.1 r.2 } } }

/-- The deterministic rows and ring entries of a core. -/
def Core.detRows (c : Core) : List Row := (c.validRows.map (·.2)).filter (·.det) ++ c.acc.ring

/-- A core of a site. -/
def State.coreOfSite (s : State) (x : SiteId) (c : CoreId) : Core :=
  if x = s.site then s.coreAt c
  else
    let r := findSite s.wafer.sites x
    findCore r.cores c

/-- The cores of the members of a domain that are here, with their sites. -/
def State.memberSites (s : State) (d : DomainKey) : List (SiteId × CoreId) :=
  (s.wafer.members d).filterMap (fun m => (s.jobTileSite d.job m.1).bind (fun x =>
    if (s.coreOfSite x m.2).slot.all (fun r => r.job == d.job && r.team.toNat / 4096 == d.launch.toNat) then some (x, m.2)
    else none))

/-- A member of a domain whose team is away has rows or ring entries to send again (R206). -/
def Wafer.rowsAway (w : Wafer) (d : DomainKey) : Bool :=
  (w.members d).any (fun m => (w.awayTeams d m.1).any (fun t => !(findCore t.cores m.2).detRows.isEmpty))

/-- A row joins others in ascending key. -/
def insertRow (r : Row) : List Row → List Row
  | [] => [r]
  | x :: t => if r.key.num < x.key.num then r :: x :: t else x :: insertRow r t

/-- A core gathers the entries of a catch-up round (R206): its rows and ring are empty until they bounce again. -/
def Core.gather (c : Core) : Core :=
  let rows := c.detRows.foldl (fun l r => insertRow r l) c.acc.resend
  let kept := c.acc.rows.map (fun r => match r with
    | some x => if x.det then none else some x
    | none => none)
  { c with acc := { c.acc with rows := kept, ring := [], resend := rows } }

/-- The core in focus sends its entries again, as far as their counts have room (R153, R206). -/
def resendRows : Nat → State → State
  | 0, s => s
  | n + 1, s =>
    match s.core.acc.resend with
    | [] => s
    | r :: t =>
      if s.core.countRoom r.cls then
        let q := s.accReq r.op r.place r.va r.value true false false r.key
        let q := { q with req := { q.req with seq := r.key.seq, replay := false } }
        let c := s.core
        resendRows n (({ s with core := { c with acc := { c.acc with resend := t } } }).sendAcc q)
      else s

/-- A core of a catch-up round has nothing more on its way (R206). -/
def Core.settled (c : Core) : Bool :=
  c.acc.resend.isEmpty && c.post.n == 0 && c.post.m == 0 && c.acc.inbound.isEmpty

/-- The catch-up round (R206): the members gather and send their entries again, and wait until each is held or
bounced. It waits for members that are away with entries to be bound again (R32, R366). -/
def execCatchUpRound (d : DomainKey) (s : State) : Result :=
  .next (match s.wafer.barriers.find? (fun b => b.domain == d) with
    | some b =>
      let ms := s.memberSites d
      let send (s : State) (m : SiteId × CoreId) : State :=
        s.atSite m.1 (fun s =>
          let c := s.coreNo
          (resendRows (s.focusCore m.2).core.acc.resend.length (s.focusCore m.2)).focusCore c)
      match b.phase with
      | .resending =>
        if s.wafer.rowsAway d then s
        else
        let s := ms.foldl (fun s m => s.atSite m.1 (fun s => s.updCore m.2 Core.gather)) s
        { ms.foldl send s with wafer := (ms.foldl send s).wafer.setPhase d .settling }
      | .settling =>
        let s := ms.foldl send s
        if ms.all (fun m => (s.coreOfSite m.1 m.2).settled) then { s with wafer := s.wafer.setPhase d .merging } else s
      | _ => s
    | none => s)

/-! ### waita (R335) -/

/-- A waita at another tile (R335): a request whose answer is waited for. -/
def State.requestWaita (s : State) (l : TileNo) (va a : Nat) (data : W32) : State :=
  let s := { s with core := s.core.nextOseq }
  let r := s.req .n s.core.post.oseq va none
  (s.await va 0 .waita (some { space := .spad l, a := a }) s.core.post.oseq (zext64 data, 0)).inject .relief (.tile l)
    (.waita r l a data)

def execWaita (d a b : BitVec 5) (s : State) : Result :=
  let va := (s.reg a).toNat
  let data : W32 := (s.reg b).setWidth 32
  let finish (v : Nat) (s : State) : Issue := .done ((s.setReg d (BitVec.ofNat 64 v)).skip 4)
  (blocked s
    (fun s => access { r := true } va 4 s fun t s =>
      match t with
      | .own x =>
        localAccess va x 4 false false s fun s =>
          let m := monitorWord (s.req .n 0 va none) false x data s
          match m.1 with
          | some v => finish v { m.2 with core := m.2.core.learn (m.2.tile.counted x 4) }
          | none =>
            let s := m.2.await va 0 .waita none 0
            .wait { s with wafer := { s.wafer with nextId := s.wafer.nextId + 1 } }
      | .far p =>
        match p.space with
        | .spad l => if s.footprintStall va 4 false then .wait s else .wait (s.requestWaita l va p.a data)
        | _ => .trap 5 (BitVec.ofNat 64 va) s)
    (fun fs s => finish (answerNat fs) s)).result

/-! ### Event counters (R337, R338) -/

/-- A counter takes a value and its overflow bit; a change of VALUE wakes every core of the tile (R337). -/
def State.setEvc (s : State) (c : BitVec 3) (v : Nat) (ovf : Bool) : State :=
  let changed := s.tile.evcValue c.toNat != v
  let w := BitVec.ofNat 64 (v + (if ovf then 2 ^ 32 else 0))
  let s := { s with tile := { s.tile with evc := vset s.tile.evc c.toNat w } }
  if changed then s.updCores Core.wakeUp else s

def execCntinc (d : BitVec 5) (c : BitVec 3) (b : BitVec 5) (s : State) : Result :=
  let v := s.tile.evcValue c.toNat
  let ovf := (vget s.tile.evc c.toNat 0).getLsbD 32
  let by_ := field (s.reg b) 0 32
  let sum := v + by_
  let known := s.publish s.tile.tile
  (if !s.detRoom then .wait s
   else if by_ = 0 then ((s.touchEvc c.toNat false).setReg d (BitVec.ofNat 64 v)).next4
   else
     let s := s.touchEvc c.toNat true
     let new := if 2 ^ 32 ≤ sum then 2 ^ 32 - 1 else sum
     let s := s.setEvc c new (ovf || decide (2 ^ 32 ≤ sum))
     let s := { s with tile := { s.tile with evcKnown := vset s.tile.evcKnown c.toNat known } }
     let s := releaseWaiters c (fun x => decide (x ≤ new)) 0 known s
     (s.setReg d (BitVec.ofNat 64 v)).next4).result

def execCntrst (c : BitVec 3) (s : State) : Result :=
  (if s.detRoom then (releaseWaiters c (fun _ => true) 1 [] ((s.touchEvc c.toNat true).setEvc c 0 false)).next4
   else .wait s).result

/-- cntwait (R338): done when the bound is reached, else armed until it is released. -/
def execCntwait (d : BitVec 5) (c : BitVec 3) (b : BitVec 5) (s : State) : Result :=
  let setCnt (s : State) (w : Option CntWait) : State :=
    { s with core := { s.core with sync := { s.core.sync with cnt := w } } }
  (match s.core.sync.cnt with
    | some w =>
      match w.status with
      | some st => ((setCnt s none).setReg d (zext64 st)).next4
      | none => Issue.wait s
    | none =>
      if !s.detRoom then Issue.wait s
      else
      let bound : W32 := (s.reg b).setWidth 32
      let s := s.touchEvc c.toNat false
      if bound.toNat ≤ s.tile.evcValue c.toNat then
        let s := { s with core := s.core.learn (vget s.tile.evcKnown c.toNat []) }
        (s.setReg d 0).next4
      else .wait (setCnt s (some { c := c, bound := bound }))).result

end Sys2Proof.Machine
end

