-- ==== Sys2Proof/Machine/AccEvents.lean ====
section
/-!
DEFINITION. Accumulates and atomics on their way and at home slices, bounces and sidings (06_accumulate.md, R178 to R205).
-/
namespace Sys2Proof.Machine

/-! ### Home slices of tiles and of rim controllers (R178) -/

/-- A home: the tile in focus, or a rim memory controller. -/
abbrev Home := Option Nat

/-- The home that a packet reaches. -/
def Packet.home (p : Packet) (a : Nat) : Home := if p.dest.rim then some (a / 4096 % 40) else none

/-- Slice k of a home. -/
def State.slice (s : State) (h : Home) (k : Nat) : Slice :=
  match h with
  | none => vget s.tile.slices k {}
  | some c =>
    match s.wafer.rim.slices.find? (fun p => p.1 == 8 * c + k) with
    | some p => p.2
    | none => {}

/-- Changes slice k of a home. -/
def State.setSlice (s : State) (h : Home) (k : Nat) (x : Slice) : State :=
  match h with
  | none => { s with tile := { s.tile with slices := vset s.tile.slices k x } }
  | some c => { s with wafer := { s.wafer with rim := { s.wafer.rim with
      slices := putKey s.wafer.rim.slices (8 * c + k) x } } }

/-- The mark table of a home (R184). -/
def State.homeMarks (s : State) (h : Home) : List Mark :=
  match h with
  | none => s.tile.marks
  | some c => s.rimMarks c

/-- Changes the mark table of a home. -/
def State.setHomeMarks (s : State) (h : Home) (l : List Mark) : State :=
  match h with
  | none => { s with tile := { s.tile with marks := l } }
  | some c => s.setRimMarks c l

/-- The site from which a home sends. -/
def homeSite (h : Home) : Option SiteId := h.map (attachment 10)

/-- The members of a request with their own addends (R192). -/
def AccReq.members (q : AccReq) : List (Req × Word) := if q.parts.isEmpty then [(q.req, q.value)] else q.parts

/-- The home slice's number. -/
def AccReq.sliceNo (q : AccReq) : Nat := q.place.a / 256 % 8

/-- The marks of every member advance (R184, R192). -/
def advanceMarks (l : List Mark) (q : AccReq) : List Mark :=
  q.members.foldl (fun l m => putMark l m.1.src (fun k => { k with aseq := raiseMark k.aseq m.1.seq })) l

/-- Accepts of a source counter. -/
def Slice.accepts (x : Slice) (k : Nat) : Nat := ((x.cnt.find? (fun p => p.1 == k)).map (·.2)).getD 0

/-- THRESH and BUDGET of a slice (R188). -/
def Slice.thresh (x : Slice) : Nat := field x.quota 8 6
def Slice.budget (x : Slice) : Nat := field x.quota 0 8

/-- The decision of R189. -/
inductive Accept where
  | accept | refuse | wait
  deriving DecidableEq, Repr

/-- A slice's decision on a relaxed request of another tile (R189). The source of a merged request is that of its
smallest key (assumption 83). -/
def Slice.decide (x : Slice) (q : AccReq) : Accept :=
  let k := q.req.src.tile.toNat % 64
  if q.must then (if 32 ≤ x.queue.length then .wait else .accept)
  else if x.budget ≠ 0 ∧ x.budget ≤ x.accepts k ∧ x.thresh < x.queue.length then .refuse
  else if 32 ≤ x.queue.length then .wait
  else .accept

/-- The bounce of a relaxed or deterministic request to one of its members (R190, R192). -/
def AccReq.bounceOf (q : AccReq) (m : Req × Word) : Bounce :=
  let op := match q.op with
    | .acc op => op
    | .amo _ _ => .addI32
  { det := q.det, cls := m.1.cls, op := op, va := m.1.va, place := q.place, addend := m.2,
    key := { jt := m.1.jt, core := m.1.src.core, seq := m.1.seq }, counted := true }

/-- A refusal returns the addend; a merged request goes back to its junction, where the packet came from (R190, R192). -/
def State.refuse (s : State) (h : Home) (p : Packet) (q : AccReq) : State :=
  if q.parts.isEmpty then
    s.sendAs (homeSite h) .relief (.tile q.req.src.tile) (.bounce q.req.src (q.bounceOf (q.req, q.value)))
  else s.sendAs (homeSite h) .relief (.site p.origin) (.mergedBounce q)

/-- The members are acknowledged (R152, R192). -/
def State.ackMembers (s : State) (h : Home) (q : AccReq) : State :=
  q.members.foldl (fun s m => s.ackTo (homeSite h) m.1 none q.flush) s

/-- A request joins a slice's queue and counts as an accept (R189). -/
def Slice.push (x : Slice) (q : AccReq) : Slice :=
  let k := q.req.src.tile.toNat % 64
  { x with queue := x.queue ++ [q], cnt := putKey x.cnt k (min (x.accepts k + 1) 255) }

/-- A relaxed request reaches its home slice (R184, R189); a repeated one that a box sent on has been acknowledged
(R406, R443). -/
def performAccumulate (p : Packet) (s : State) : Option State :=
  match p.msg with
  | .acc q =>
    let h := p.home q.place.a
    let x := s.slice h q.sliceNo
    let marks := s.homeMarks h
    if q.det then none
    else if repeated marks q.req Mark.aseq then some (if p.again then s else s.ackMembers h q)
    else if q.members.any (fun m => !markRoom marks m.1.src) then none
    else
      match x.decide q with
      | .wait => none
      | .refuse => some ((s.countFor p q.place.space q.place.a q.req.job).refuse h p q)
      | .accept =>
        let s := (s.countFor p q.place.space q.place.a q.req.job).setHomeMarks h (advanceMarks marks q)
        some (s.setSlice h q.sliceNo (x.push { q with epoch := p.epoch }))
  | _ => none

def execAccumulateRequestArrival (id : Nat) (s : State) : Result := s.take id performAccumulate

/-! ### Applying requests (R178, R180, R209, R210) -/

/-- Bytes of a request's word. -/
def AccReq.size (q : AccReq) : Nat :=
  match q.op with
  | .acc op => op.size
  | .amo f _ => amoSize f.toNat

/-- The word that a request leaves, and the answer of an atomic (R179, R209). -/
def AccReq.outcome (q : AccReq) (old : Word) : Word × Option (List Byte) :=
  match q.op with
  | .acc op => (comb op old q.value, none)
  | .amo f cmp =>
    let r := amoNew f.toNat old q.value cmp
    (r.1, some (amoAnswer old r.2))

/-- An atomic is answered, and its answer kept with the source's mark (R184). -/
def State.answerAtomic (s : State) (h : Home) (q : AccReq) (rep : Reply) : State :=
  let s := s.setHomeMarks h (putMark (s.homeMarks h) q.req.src (fun k =>
    { k with aseq := raiseMark k.aseq q.req.seq, result := some (q.req.seq, rep) }))
  s.sendAs (homeSite h) .relief (.tile q.req.src.tile) (.reply q.req.src q.req.fetch rep .amo)

/-- A request whose word a controller does not deliver is not performed (R437): the accumulate's count falls with the
failure, the atomic is answered with it. -/
def failRequest (h : Home) (q : AccReq) (s : State) : State :=
  match q.op with
  | .acc _ => q.members.foldl (fun s m => s.ackTo (homeSite h) m.1 (some (4, m.1.va)) q.flush) s
  | .amo _ _ => s.answerAtomic h q (.fault 4)

/-- What reading the word of a request at a home leaves behind, when its controller does not deliver it (R437). -/
def State.wordFails (s : State) (h : Home) (q : AccReq) : Option State :=
  if h.isSome then s.undelivered .hbm (span q.place.a q.size) q.req.job q.req.src q.req.va else none

/-- A request is performed at its word in one step (R180, R209): the accumulate is acknowledged, the atomic answered. -/
def performRequest (h : Home) (q : AccReq) (s : State) : State :=
  match s.wordFails h q with
  | some t => failRequest h q t
  | none =>
  let a := q.place.a
  let s := if h.isNone then s.noteWrite q.req a (natBytes q.value.toNat 8) (q.packet s.site) else s
  let old : Word := BitVec.ofNat 64 (match h with
    | none => s.tile.mem.readNat a q.size
    | some _ => s.wafer.hbm.readNat a q.size)
  let r := q.outcome old
  let cells := cellsAt a (natBytes r.1.toNat q.size)
  let s := match h with
    | none => (s.touch (srcRemote q.req.src) (a / 256) true).writeOwn cells false
    | some _ => { s with wafer := s.wafer.put .hbm q.req.job q.epoch cells }
  match r.2 with
  | none => s.ackMembers h q
  | some b => s.answerAtomic h q (.data b [])

/-- The first request of a queue that satisfies a condition, and the queue without it. -/
def firstReady (ok : AccReq → Bool) : List AccReq → Option (AccReq × List AccReq)
  | [] => none
  | q :: r => if ok q then some (q, r) else (firstReady ok r).map (fun x => (x.1, q :: x.2))

/-- The requests that wait in the slices of a home. -/
def State.homeQueue (s : State) (h : Home) : List Packet :=
  match h with
  | none => queued s.tile.slices.toList
  | some c => queued ((s.wafer.rim.slices.filter (fun x => x.1 / 8 == c)).map (·.2))

/-- A queued request follows no other of the same core that waits at the home (R167). -/
def AccReq.firstOf (q : AccReq) (l : List Packet) : Bool := !l.any (q.packet 0).follows

/-- The next request that a slice can apply, of those that wait at its home: the first of its queue, or at HBM the first
whose line stands in the accumulate buffer (R178), none before an earlier request of its core (R167). -/
def Slice.next (x : Slice) (h : Home) (l : List Packet) : Option (AccReq × List AccReq) :=
  match h with
  | none => match x.queue with
    | [] => none
    | q :: r => if q.firstOf l then some (q, r) else none
  | some _ => firstReady (fun q => x.lines.contains (q.place.a / 256) && q.firstOf l) x.queue

/-- A slice applies one request of its queue (R178). -/
def applyNext (h : Home) (k : Nat) (s : State) : State :=
  let x := s.slice h k
  match x.next h (s.homeQueue h) with
  | none => s
  | some (q, r) => performRequest h q (s.setSlice h k { x with queue := r })

/-- Runs an operation at the slice that an event names; a stopped or replaying tile's slices do nothing. -/
def atSlice (l : SliceLoc) (s : State) (f : Home → Nat → State → State) : State :=
  match l with
  | .tile site k =>
    let s := s.focusSite site
    if s.tile.stopped || s.junction.passThrough || s.tile.replay.isSome || !s.detRoom then s else f none k.toNat s
  | .rim c k => f (some c.toNat) k.toNat s

def execAccumulateApply (l : SliceLoc) (s : State) : Result := .next (atSlice l s applyNext)

/-- A line that a queued request waits for comes from the stack (R178). -/
def lineRead (line : Nat) (h : Home) (k : Nat) (s : State) : State :=
  let x := s.slice h k
  if h.isSome && x.queue.any (fun q => q.place.a / 256 == line) then
    s.setSlice h k { x with lines := putFirst 64 line x.lines }
  else s

def execHbmAccumulateLineRead (l : SliceLoc) (line : Nat) (s : State) : Result := .next (atSlice l s (lineRead line))

/-- A slice's budget counters are cleared (R189). -/
def execQuotaWindowReset (l : SliceLoc) (s : State) : Result :=
  .next (match l with
    | .tile site k =>
      let s := s.focusSite site
      s.setSlice none k.toNat { s.slice none k.toNat with cnt := [] }
    | .rim c k => s.setSlice (some c.toNat) k.toNat { s.slice (some c.toNat) k.toNat with cnt := [] })

/-- An atomic that waits in the queue is asked for again by its core's replay, which awaits the answer under a new
number (R184). -/
def Slice.askAgain (x : Slice) (q : AccReq) : Slice :=
  { x with queue := x.queue.map (fun k => if k.req.src == q.req.src && k.req.seq == q.req.seq && k.op == q.op then
      { k with req := q.req } else k) }

/-- An atomic reaches its home slice (R178, R184, R210): a repeated one is answered from the stored result; else it is
accepted, and performed at once or after what waits before it. -/
def performAtomic (p : Packet) (s : State) : Option State :=
  match p.msg with
  | .amo q =>
    let h := p.home q.place.a
    let q := { q with epoch := p.epoch }
    let x := s.slice h q.sliceNo
    let marks := s.homeMarks h
    if repeated marks q.req Mark.aseq then
      some (match (findMark marks q.req.src).bind Mark.result with
        | some (seq, rep) =>
          if seq = q.req.seq then
            s.sendAs (homeSite h) .relief (.tile q.req.src.tile) (.reply q.req.src q.req.fetch rep .amo)
          else s.setSlice h q.sliceNo (x.askAgain q)
        | none => s.setSlice h q.sliceNo (x.askAgain q))
    else if !markRoom marks q.req.src || decide (32 ≤ x.queue.length) then none
    else
      let s := s.countFor p q.place.space q.place.a q.req.job
      if x.queue.isEmpty && (h.isNone || x.lines.contains (q.place.a / 256)) then some (performRequest h q s)
      else
        some ((s.setSlice h q.sliceNo { x with queue := x.queue ++ [q] }).setHomeMarks h (advanceMarks marks q))
  | _ => none

def execAtomicRequestArrival (id : Nat) (s : State) : Result := s.take id performAtomic

/-- A deterministic request reaches its home slice (R204, R205): held, or the larger key bounced. -/
def performDeterministic (p : Packet) (s : State) : Option State :=
  match p.msg with
  | .acc q =>
    match q.op with
    | .amo _ _ => none
    | .acc op =>
      let h := p.home q.place.a
      let x := s.slice h q.sliceNo
      let marks := s.homeMarks h
      if !q.det then none
      else if repeated marks q.req Mark.aseq then some (s.ackMembers h q)
      else if q.members.any (fun m => !markRoom marks m.1.src) then none
      else
        let e : Held :=
          { op := op, place := q.place, va := q.req.va, value := q.value,
            key := { jt := q.req.jt, core := q.req.src.core, seq := q.req.seq }, job := q.req.job, src := q.req.src }
        let r := x.holdEntry e
        let s := s.countFor p q.place.space q.place.a q.req.job
        if r.2 = some e then some (s.refuse h p q)
        else
          let s := if h.isNone then s.noteWrite q.req q.place.a (natBytes q.value.toNat 8) p else s
          let s := (s.setSlice h q.sliceNo r.1).setHomeMarks h (advanceMarks marks q)
          let s := s.ackMembers h q
          some (match r.2 with
            | none => s
            | some m => s.sendAs (homeSite h) .relief (.tile m.src.tile) (.bounce m.src (m.bounce false)))
  | _ => none

def execDeterministicRequestArrival (id : Nat) (s : State) : Result := s.take id performDeterministic

/-! ### Junction merging (R191, R192) -/

/-- A junction lies on the route of a packet (R23): along x first, then along y. -/
def onRoute (a b x : SiteId) : Bool :=
  let between (p q r : Nat) : Bool := decide (min p q ≤ r) && decide (r ≤ max p q)
  let c (v : SiteId) : Nat := field v 0 6
  let y (v : SiteId) : Nat := field v 6 6
  (y x == y a && between (c a) (c b) (c x)) || (c x == c b && between (y a) (y b) (y x))

/-- A packet of an accumulate that may stand in a junction. -/
def State.mergeable (s : State) (site : SiteId) (p : Packet) : Option AccReq :=
  match p.msg with
  | .acc q =>
    if p.arrived.isNone && p.gate ≤ (s.tileAt p.origin).confirmed && onRoute p.origin p.site site && !q.must &&
      !q.req.replay && !q.nomerge
    then some q else none
  | _ => none

/-- Two requests merge (R191). -/
def AccReq.mergesWith (q r : AccReq) : Bool :=
  match q.op, r.op with
  | .acc a, .acc b => a == b && q.place == r.place && q.det == r.det && (a != .addF32 || !q.det)
  | _, _ => false

/-- The number of a request's key. -/
def Req.keyNum (r : Req) : Nat := (AccKey.mk r.jt r.src.core r.seq).num

/-- The merged request (R192): comb in order of arrival, the smallest key. -/
def AccReq.merge (q r : AccReq) : AccReq :=
  let v := match q.op with
    | .acc op => comb op q.value r.value
    | .amo _ _ => q.value
  { q with value := v, parts := q.members ++ r.members,
           req := if r.req.keyNum < q.req.keyNum then r.req else q.req }

/-- Packets in flight that must arrive before one of some packets, and those before them, for n rounds. -/
def State.ahead (s : State) : Nat → List Packet → List Packet
  | 0, l => l
  | n + 1, l =>
    match s.wafer.net.filter (fun q => !(l.any (fun p => p.id == q.id)) && l.any q.precedes) with
    | [] => l
    | more => s.ahead n (l ++ more)

/-- Merging two packets keeps every order of arrival: none in flight stands behind one and before the other (R24,
R167). -/
def State.keepsOrder (s : State) (p r : Packet) : Bool :=
  (s.ahead s.wafer.net.length [p, r]).all (fun x =>
    x.id == p.id || x.id == r.id || !(p.precedes x || r.precedes x))

/-- A junction merges a matching accumulate with one that waits there (R191): up to four, and none that another
junction has merged; a pass-through junction merges nothing (R23), and none leaves the order of R24 and R167. -/
def execJunctionMerge (site : SiteId) (first second : Nat) (s : State) : Result :=
  .next (match s.packet first, s.packet second with
    | some p, some r =>
      match s.mergeable site p, s.mergeable site r with
      | some a, some b =>
        if first ≠ second && !(s.junctionAt site).passThrough && p.site == r.site && p.dest == r.dest &&
            p.epoch == r.epoch && (a.parts.isEmpty || (p.origin == site && decide (a.parts.length < 4))) &&
            b.parts.isEmpty && a.mergesWith b && s.keepsOrder p r then
          (s.dropPacket second).setPacket first (fun k =>
            { k with origin := site, joined := p.injections ++ r.injections, gate := 0, processed := true,
                     msg := .acc (a.merge b) })
        else s
      | _, _ => s
    | _, _ => s)

/-- A refused merged request is back at its junction (R192): each member gets its own addend. -/
def execMergedBounceSplit (id : Nat) (s : State) : Result :=
  match s.packet id with
  | some { msg := .mergedBounce q, .. } =>
    s.takeAtJunction id fun p s =>
      q.members.foldl (fun s m => s.rimSend p.site .relief (.tile m.1.src.tile) (.bounce m.1.src (q.bounceOf m))) s
  | _ => .next s

/-! ### Bounces and the siding (R190, R193, R194, R196) -/

/-- A bounce reaches its tile (R193): it waits in one of four places, or in the junction. -/
def performBounce (p : Packet) (s : State) : Option State :=
  match p.msg with
  | .bounce dst b =>
    if 4 ≤ (s.coreAt dst.core).acc.inbound.length then none
    else
      let key := if b.det then natBytes b.key.num 8 else []
      let s := s.noteInput .bounce dst.core 0 (s.coreAt dst.core).retired dst b.key.jt b.key.seq
        (natBytes b.addend.toNat 8 ++ key) p (if b.counted then [1] else [])
      some (s.updCore dst.core (fun c => { c with acc := { c.acc with inbound := c.acc.inbound ++ [b] } }))
  | _ => none

def execBounceArrival (id : Nat) (s : State) : Result := s.take id performBounce

/-- The row that a bounce becomes. -/
def Bounce.row (b : Bounce) (clock : Nat) : Row :=
  { det := b.det, cls := b.cls, op := b.op, va := b.va, place := b.place, value := b.addend, since := clock,
    key := b.key }

/-- A deterministic entry joins the ring (R205): in the core, and in its place of the team save area. -/
def State.toRing (s : State) (r : Row) : State :=
  let i := s.core.acc.ring.length
  let s' := { s with core := { s.core with acc := { s.core.acc with ring := s.core.acc.ring ++ [r] } } }
  match s.core.slot with
  | none => s'
  | some b =>
    let bytes := [0, 1, 2, 3].flatMap (fun n => natBytes (s.rowWord r n).toNat 8)
    let a := coreArea b.save.toNat s.coreNo + 0xC000 + 32 * i
    { s' with wafer := { s'.wafer with hbm := s'.wafer.hbm.writeCells (cellsAt a bytes) } }

/-- The bounce has been parked (R190, R194). -/
def parked (b : Bounce) (s : State) : State :=
  let c := s.core
  let c := { c with acc := { c.acc with inbound := c.acc.inbound.drop 1, bounces := c.acc.bounces + 1 } }
  ({ s with core := if b.counted then c.countDown b.cls else c }).drain

/-- The relaxed rows of a set with their numbers, oldest first. -/
def Core.oldestRow (c : Core) (set : Nat) : Option (Nat × Row) :=
  ((c.validRows.filter (fun p => p.1 / 4 == set && !p.2.det))).foldl (fun m p =>
    match m with
    | none => some p
    | some k => if p.2.since < k.2.since then some p else some k) none

/-- The deterministic row of a set with the highest key. -/
def Core.highestRow (c : Core) (set : Nat) : Option (Nat × Row) :=
  ((c.validRows.filter (fun p => p.1 / 4 == set && p.2.det))).foldl (fun m p =>
    match m with
    | none => some p
    | some k => if k.2.key.num < p.2.key.num then some p else some k) none

/-- The lowest free row among some. -/
def Core.freeRow (c : Core) (l : List Nat) : Option Nat := l.find? (fun k => (c.row k).isNone)

/-- The ring has room (R205). -/
def Core.ringRoom (c : Core) : Bool := decide (c.acc.ring.length < 4096)

/-- A relaxed bounce is parked (R194). -/
def parkRelaxed (b : Bounce) (s : State) : State :=
  let set := sidingSet b.va
  let row := b.row s.wafer.clock
  let setRow (s : State) (k : Nat) (r : Row) : State := { s with core := s.core.setRow k (some r) }
  match s.core.findRow b.va b.op with
  | some (k, r) => parked b (setRow s k { r with value := comb b.op r.value b.addend })
  | none =>
    match s.core.freeRow [4 * set, 4 * set + 1, 4 * set + 2, 4 * set + 3] with
    | some k => parked b (setRow s k row)
    | none =>
      match s.core.oldestRow set with
      | some (k, r) =>
        if s.core.countRoom r.cls then parked b (setRow (s.flushRow k r) k row)
        else s
      | none =>
        match s.core.highestRow set with
        | some (k, r) => if s.core.ringRoom then parked b (setRow (s.toRing r) k row) else s
        | none => s

/-- A deterministic bounce is parked (R205), in the lowest free row (assumption 84). -/
def parkDeterministic (b : Bounce) (s : State) : State :=
  let row := b.row s.wafer.clock
  match s.core.freeRow (List.range 32) with
  | some k => parked b { s with core := s.core.setRow k (some row) }
  | none => if s.core.ringRoom then parked b (s.toRing row) else s

/-- The oldest waiting bounce is parked (R194). -/
def execBouncePark (site : SiteId) (core : CoreId) (s : State) : Result :=
  let s := s.focus site core
  .next (match s.core.acc.inbound with
    | [] => s
    | b :: _ => if b.det then parkDeterministic b s else parkRelaxed b s)

/-- A row is flushed for its age, unless an event has it to flush already (R196). -/
def flushAged (row : BitVec 5) (s : State) : State :=
  if s.core.acc.flushing.flatten.contains row then s else { s with core := s.core.flushEvent [row] }.drain

/-- A row's age has reached SDCTL.AGE and it is flushed (R196, R199). The flush goes into the determinant stream, from which
a replay takes it (R213, R214): a record of kind 4 without a payload, whose sequence is the row (assumption 85). -/
def execSidingAgeFlush (site : SiteId) (core : CoreId) (row : BitVec 5) (s : State) : Result :=
  let s := s.focus site core
  .next (match s.core.row row.toNat with
    | some r =>
      if !r.det && decide (field s.core.acc.sdctl 0 16 ≤ s.rowAge r) && !s.tile.stopped && s.tile.replay.isNone && s.detRoom
      then flushAged row (s.noteDet (coreDet s .bounce s.coreNo s.me (zext64 row |>.setWidth 32) []))
      else s
    | none => s)

end Sys2Proof.Machine
end

