-- ==== Sys2Proof/Machine/Tasks.lean ====
section
/-!
DEFINITION. Tasks, the end of a thread and of a team, yield, the watchdog, breakpoints and coupling (11_tasks.md, R349 to
R358, R363, R365, R369; R133).
-/
namespace Sys2Proof.Machine

/-! ### The task pool and the overflow queue (R350, R351) -/

/-- Pool entry i. -/
def Tile.task (t : Tile) (i : Nat) : Task := vget t.pool i {}

/-- Writes pool entry i. -/
def Tile.setTask (t : Tile) (i : Nat) (e : Task) : Tile := { t with pool := vset t.pool i e }

/-- The lowest free entry among the first n. -/
def Tile.freeTask (t : Tile) (n : Nat) : Option Nat := (List.range n).find? (fun i => (t.task i).state == .free)

/-- The pool entry of a team's task that can be joined (R354). -/
def Tile.poolTask (t : Tile) (team : W32) (h : Word) : Option Nat :=
  (List.range 64).find? (fun i =>
    let e := t.task i
    e.state != .free && !e.detached && e.handle == h && e.team == team)

/-- The overflow entry of a team's task that can be joined. -/
def Tile.waitingTask (t : Tile) (team : W32) (h : Word) : Option Task :=
  t.overflow.find? (fun e => !e.detached && e.handle == h && e.team == team)

/-- Spawns since the task's own, for the order of age (R352, R353). -/
def Tile.age (t : Tile) (e : Task) : Nat := (t.tseq - e.handle.setWidth 32).toNat

/-- The oldest queued task of a team in the pool (R353). -/
def Tile.oldestTask (t : Tile) (team : W32) : Option Nat :=
  ((List.range 64).filter (fun i => (t.task i).state == .queued && (t.task i).team == team)).foldl
    (fun m i => match m with
      | none => some i
      | some k => if t.age (t.task k) < t.age (t.task i) then some i else some k) none

/-- The code of a task's state. -/
def TaskState.code : TaskState → Nat
  | .free => 0
  | .queued => 1
  | .running => 2
  | .complete => 3

/-- The 64 bytes of a task entry (R369). -/
def taskBytes (e : Task) : List Byte :=
  natBytes e.pc.toNat 8 ++ natBytes e.arg.toNat 8 ++ natBytes e.handle.toNat 8 ++
    natBytes (e.state.code + e.core.toNat * 16 + (if e.detached then 128 else 0) + e.code.toNat * 2 ^ 16) 8 ++
    List.replicate 32 0

/-- The task entry of 64 bytes at an address, for a team. -/
def readTask (m : Memory) (a : Nat) (team : W32) : Task :=
  let v : Word := BitVec.ofNat 64 (m.readNat (a + 0x18) 8)
  let st : TaskState := match field v 0 3 with
    | 1 => .queued
    | 2 => .running
    | 3 => .complete
    | _ => .free
  { pc := BitVec.ofNat 64 (m.readNat a 8), arg := BitVec.ofNat 64 (m.readNat (a + 8) 8),
    handle := BitVec.ofNat 64 (m.readNat (a + 16) 8), state := st, core := BitVec.ofNat 3 (field v 4 3),
    detached := v.getLsbD 7, code := BitVec.ofNat 10 (field v 16 10), team := team }

/-- The cells of the overflow queue in the tile record (R351, R369): head and tail, and the entries from the head on. -/
def Tile.queueCells (t : Tile) : List Host.Cell :=
  let b := t.record.toNat
  cellsAt (b + 0x48) (natBytes t.overflowHead 8 ++ natBytes (t.overflowHead + t.overflow.length) 8) ++
    t.overflow.zipIdx.flatMap (fun p => cellsAt (b + 0x2000 + 64 * ((t.overflowHead + p.2) % 4096)) (taskBytes p.1))

/-- The tile in focus with pool and overflow queue changed: the queue lies in the tile record in HBM (R351, R369). -/
def State.setQueue (s : State) (t : Tile) : State :=
  let s' := { s with tile := t }
  if t.overflow = s.tile.overflow then s'
  else { s' with wafer := { s.wafer with hbm := s.wafer.hbm.writeCells t.queueCells } }

/-- A task leaves the overflow queue: from its head, or from among the others, which close up (assumption 46). -/
def Tile.takeOverflow (t : Tile) (e : Task) : Tile :=
  { t with overflow := t.overflow.erase e,
           overflowHead := if t.overflow.head? = some e then t.overflowHead + 1 else t.overflowHead }

/-- A task moves from the overflow queue into pool entry i. -/
def Tile.moveIn (t : Tile) (e : Task) (i : Nat) : Tile := (t.setTask i e).takeOverflow e

/-- The handle of the next task of the core in focus (R350). -/
def State.nextHandle (s : State) : Word :=
  BitVec.ofNat 64 (s.tile.jt.toNat * 2 ^ 35 + s.coreNo.toNat * 2 ^ 32 + (s.tile.tseq + 1).toNat)

def execSpawn (d a b : BitVec 5) (s : State) : Result :=
  let entry := s.reg a
  let h := s.nextHandle
  let e : Task :=
    { pc := entry, arg := s.reg b, handle := h, state := .queued, detached := d == 0, team := s.team }
  let t := { s.tile with tseq := s.tile.tseq + 1 }
  (if entry.getLsbD 0 then Issue.trap 3 entry s
   else
     match s.tile.freeTask 56 with
     | some i => ({ s with tile := t.setTask i e }.setReg d h).next4
     | none =>
       if s.tile.overflow.length < 4096 then
         ((s.setQueue { t with overflow := t.overflow ++ [e] }).setReg d h).next4
       else .wait s).result

/-! ### Servers (R353) -/

/-- A server core of the tile in focus starts the task of pool entry i (R353). -/
def startTask (i : Nat) (s : State) : State :=
  let e := s.tile.task i
  let base := match s.core.slot with
    | some r => zext64 r.wbase
    | none => s.core.win.wsp
  let c := { s.core with
    run := .running, pc := e.pc,
    win := { s.core.win with depth := 1, res := 1, cwp := 0, wsp := base },
    task := { s.core.task with served := e.handle, inTask := true, since := s.wafer.clock, counting := true } }
  { s with core := ((c.setReg 8 e.arg).setReg 9 e.handle).setReg 15 0,
           tile := s.tile.setTask i { e with state := .running, core := s.coreNo } }

/-- The pool entry that an idle server takes next, the head of the overflow queue moved in when the pool holds none
(R353). -/
def nextTask (team : W32) (t : Tile) : Option (Nat × Tile) :=
  match t.oldestTask team with
  | some i => some (i, t)
  | none =>
    match t.overflow.find? (fun e => e.team == team), t.freeTask 56 with
    | some e, some i => some (i, t.moveIn e i)
    | _, _ => none

/-- The pool entry of the task that a replay says a server takes, moved in if it waits in the overflow queue (R343). -/
def namedTask (h : Word) (t : Tile) : Option (Nat × Tile) :=
  match (List.range 64).find? (fun k => (t.task k).state == .queued && (t.task k).handle == h) with
  | some i => some (i, t)
  | none =>
    match t.overflow.find? (fun e => e.handle == h), t.freeTask 56 with
    | some e, some i => some (i, t.moveIn e i)
    | _, _ => none

/-- An idle server claims a task; the choice is recorded, and a replay takes the recorded one, once it is queued (R343,
R353). -/
def execTaskClaim (site : SiteId) (core : CoreId) (s : State) : Result :=
  let s := s.focus site core
  .next (if s.core.run != .idleServer || s.tile.stopped || s.core.stopAsked then s
    else
      match (match s.nextRecorded with
        | some h => namedTask h s.tile
        | none => nextTask s.team s.tile) with
      | none => s
      | some (i, t) =>
        match s.record (t.task i).handle with
        | none => s
        | some (_, u) =>
          startTask i (u.setQueue { u.tile with pool := t.pool, overflow := t.overflow, overflowHead := t.overflowHead }))

/-! ### tjoin and tstat (R354, R355, R357) -/

/-- A handle names a task of the tile's job tile (R354). -/
def State.ownHandle (s : State) (h : Word) : Bool := field h 47 17 == 0 && field h 35 12 == s.tile.jt.toNat

/-- A core starts the task of pool entry i inline (R355). -/
def runInline (i : Nat) (d : BitVec 5) (s : State) : State :=
  let e := s.tile.task i
  let c := s.core.windowUp
  let r : InlineRun :=
    { depth := c.win.depth, handle := e.handle, back := s.core.pc + 4, d := d, since := c.task.since,
      counting := c.task.counting }
  let c := { c with
    pc := e.pc,
    task := { c.task with inTask := true, since := s.wafer.clock, counting := true, inline := r :: c.task.inline } }
  { s with core := ((c.setReg 8 e.arg).setReg 9 e.handle).setReg 15 0,
           tile := s.tile.setTask i { e with state := .running, core := s.coreNo } }

/-- tjoin waits for the task and frees its entry once it is complete (R354). Of two tjoins that wait for one task, the
one that does not get it waits on, since no entry of the handle completes any more (assumption 87). -/
def joinWait (i : Option Nat) (d : BitVec 5) (s : State) : Issue :=
  match i with
  | some k =>
    let e := s.tile.task k
    if e.state = .complete then
      let s := { s with tile := s.tile.setTask k {},
                        core := { s.core with task := { s.core.task with joinWaits := false } } }
      (s.setReg d (zext64 e.code <<< 16)).next4
    else .wait s
  | none => .wait s

/-- tjoin begins to wait, and records that it does (R343, R354). -/
def joinLater (i : Option Nat) (d : BitVec 5) (s : State) : Issue :=
  match s.record 0 with
  | some (_, s) => joinWait i d { s with core := { s.core with task := { s.core.task with joinWaits := true } } }
  | none => .wait s

/-- A task that waits in the overflow queue moves into the lowest free entry of the whole pool (R354). -/
def State.moveJoined (s : State) (h : Word) : State :=
  match s.tile.waitingTask s.team h, s.tile.freeTask 64 with
  | some e, some i => s.setQueue (s.tile.moveIn e i)
  | _, _ => s

/-- The task of pool entry i can run inline on the core in focus (R354, R361). -/
def State.mayInline (s : State) (i : Nat) : Bool :=
  (s.tile.task i).state == .queued && decide (s.core.task.inline.length < 8) && !s.core.inTrap

/-- tjoin runs its task inline, after the spill that the shift may need; a trap of the spill leaves everything as it was
(R8, R355). -/
def joinInline (i : Nat) (d : BitVec 5) (h : Word) (s : State) : Issue :=
  if !s.detRoom then .wait s
  else
    spillIfFull s fun s =>
      match s.record 1 with
      | some (_, s) => .wait (runInline i d (s.moveJoined h))
      | none => .wait s

def execTjoin (d a : BitVec 5) (s : State) : Result :=
  let h := s.reg a
  let team := s.team
  (if !s.ownHandle h then (s.setReg d 3).next4
   else if s.core.task.joinWaits then joinWait (s.tile.poolTask team h) d s
   else
     let t := s.moveJoined h
     match t.tile.poolTask team h with
     | some i =>
       if t.mayInline i && s.nextRecorded.getD 1 == 1 then joinInline i d h s
       else joinLater (some i) d t
     | none =>
       match t.tile.waitingTask team h with
       | some _ => joinLater none d s
       | none => (s.setReg d 1).next4).result

/-- The status that tstat reports (R357). -/
def State.taskStatus (s : State) (h : Word) : Word :=
  if !s.ownHandle h then 5
  else
    match s.tile.poolTask s.team h with
    | some i =>
      match (s.tile.task i).state with
      | .queued => 0
      | .running => 2
      | .complete => 3 + (zext64 (s.tile.task i).code <<< 16)
      | .free => 4
    | none => if (s.tile.waitingTask s.team h).isSome then 1 else 4

def execTstat (d a : BitVec 5) (s : State) : Result :=
  (match s.record (s.taskStatus (s.reg a)) with
    | some (v, s) => (s.setReg d v).next4
    | none => .wait s).result

/-! ### The tile record (R369) -/

/-- The cells of the tile record (R369). -/
def Tile.recordCells (t : Tile) : List Host.Cell :=
  let b := t.record.toNat
  cellsAt b (t.evc.toList.flatMap (fun v => natBytes v.toNat 8)) ++ cellsAt (b + 0x40) (natBytes t.tseq.toNat 8) ++
    cellsAt (b + 0x1000) (t.pool.toList.flatMap taskBytes) ++ t.queueCells

/-- The tile record is written to HBM (R337, R366). -/
def State.writeTileRecord (s : State) : State :=
  { s with wafer := { s.wafer with hbm := s.wafer.hbm.writeCells s.tile.recordCells } }

/-- Counters, pool and overflow queue are taken from the tile record (R366, R369); a task belongs to the team that
holds its spawning core. -/
def Tile.readRecord (t : Tile) (m : Memory) (base : Nat) (teamOf : CoreId → W32) : Tile :=
  let entry (a : Nat) : Task :=
    let e := readTask m a 0
    if e.state = .free then {} else { e with team := teamOf (BitVec.ofNat 3 (field e.handle 32 3)) }
  let head := m.readNat (base + 0x48) 8
  let n := m.readNat (base + 0x50) 8 - head
  { t with
    record := BitVec.ofNat 64 base,
    evc := Vector.ofFn (fun i : Fin 8 => BitVec.ofNat 64 (m.readNat (base + 8 * i.val) 8)),
    tseq := BitVec.ofNat 32 (m.readNat (base + 0x40) 8),
    pool := Vector.ofFn (fun i : Fin 64 => entry (base + 0x1000 + 64 * i.val)),
    overflowHead := head,
    overflow := (List.range (min n 4096)).map (fun i => entry (base + 0x2000 + 64 * ((head + i) % 4096))) }

/-! ### The end of a team on a tile (R356, R362) -/

/-- The core holds a slot of a team. -/
def Core.ofTeam (c : Core) (team : W32) : Bool :=
  match c.slot with
  | some r => r.team == team
  | none => false

/-- Some core of the tile holds a slot. -/
def State.anySlot (s : State) : Bool := s.allCores.any (fun c => c.slot.isSome)

/-- A core whose slot is emptied: what its siding and its posted counts still have under way goes on (R197). -/
def Core.vacated (c : Core) : Core :=
  { acc := { rows := c.acc.rows, inbound := c.acc.inbound, flushing := c.acc.flushing, flight := c.acc.flight },
    post := { n := c.post.n, m := c.post.m, x := c.post.x } }

/-- What a core of a team does last: its waits fall before their instructions (R362), and its relaxed rows are flushed
(R197). -/
def leaveCore (c : CoreId) (s : State) : State :=
  let back := s.coreNo
  let s := s.focusCore c
  let s := (s.core.pend.foldl abandonFetch s).flushAll
  (s.updCore c Core.vacated).focusCore back

/-- The slots of a team are emptied: its cores are unbound and coupled with none; the last team to leave writes
the tile record (R134, R337, R356, R366). -/
def State.emptySlots (s : State) (team : W32) : State :=
  let gone := coreIds.filter (fun c => (s.coreAt c).ofTeam team)
  let s := gone.foldl (fun s c => leaveCore c s) s
  let s := s.updCores (fun x =>
    match x.coupling with
    | .following n => if gone.contains n then { x with coupling := .none } else x
    | _ => x)
  if s.anySlot then s else s.writeTileRecord

/-- The tasks of a team that are queued or running, in pool or overflow queue. -/
def Tile.busyTasks (t : Tile) (team : W32) : Bool :=
  t.pool.toList.any (fun e => e.team == team && (e.state == .queued || e.state == .running)) ||
    t.overflow.any (fun e => e.team == team)

/-- Frees the entries of a team (R356, R362). -/
def Tile.freeTeam (t : Tile) (team : W32) : Tile :=
  { t with pool := t.pool.map (fun e => if e.team = team then {} else e),
           overflow := t.overflow.filter (fun e => e.team != team) }

/-- Changes a live launch. -/
def Wafer.setLaunch (w : Wafer) (job : BitVec 6) (num : BitVec 20) (f : Launch → Launch) : Wafer :=
  { w with launches := w.launches.map (fun l => if l.job = job ∧ l.num = num then f l else l) }

/-- A launch has ended on a job tile; when it has on every tile, its completion is posted (R356). -/
def Wafer.tileEnded (w : Wafer) (job : BitVec 6) (num : BitVec 20) (t : Nat) : Wafer :=
  let w := w.setLaunch job num (fun l => { l with live := removeNat t l.live })
  match w.launch job num with
  | some l =>
    if l.live.isEmpty then
      { w with launches := w.launches.filter (fun k => !(k.job == job && k.num == num)),
               notices := w.notices ++ [Notice.launchDone job num l.codes] }
    else w
  | none => w

/-- The launch number of a team (R347). -/
def launchNo (team : W32) : BitVec 20 := BitVec.ofNat 20 (team.toNat / 4096)

/-- A team ends on the tile in focus (R356). -/
def State.endTeamHere (s : State) (team : W32) : State :=
  let job := s.tile.job.getD 0
  let s := (s.setQueue (s.tile.freeTeam team)).emptySlots team
  { s with wafer := s.wafer.tileEnded job (launchNo team) s.tile.jt.toNat }

/-- The root cores of a team on the tile in focus. -/
def State.rootCores (s : State) (team : W32) : List Core :=
  s.allCores.filter (fun c => match c.slot with
    | some r => r.team == team && !r.server
    | none => false)

/-- A team ends on the tile when every root core has exited and none of its tasks is queued or running (R356), whether
or not its launch still lives, which in a replay it may not. -/
def State.checkTeamEnd (s : State) (team : W32) : State :=
  let roots := s.rootCores team
  if !roots.isEmpty && roots.all (fun c => c.task.code.isSome) && !s.tile.busyTasks team then s.endTeamHere team else s

/-! ### exit (R356) -/

/-- The pool entry of a running task. -/
def Tile.runningTask (t : Tile) (h : Word) : Option Nat :=
  (List.range 64).find? (fun i => (t.task i).state == .running && (t.task i).handle == h)

/-- An inline task ends (R356): the frames fall back to the joiner, whose tjoin completes. -/
def exitInline (r : InlineRun) (rest : List InlineRun) (code : BitVec 10) (s : State) : Issue :=
  returns ((s.core.win.depth - r.depth).toNat + 1) s fun s =>
    let tile := match s.tile.runningTask r.handle with
      | some i => s.tile.setTask i {}
      | none => s.tile
    let k := s.core.task
    let c := { s.core with
      pc := r.back,
      task := { k with inline := rest, inTask := !rest.isEmpty || k.served != 0, since := r.since,
                       counting := r.counting } }
    .done (({ s with tile := tile, core := c }.setReg r.d (zext64 code <<< 16)).retire)

/-- A task on a server ends (R356). -/
def exitServer (code : BitVec 10) (s : State) : State :=
  let tile := match s.tile.runningTask s.core.task.served with
    | some i =>
      let e := s.tile.task i
      s.tile.setTask i (if e.detached then {} else { e with state := .complete, code := code })
    | none => s.tile
  let k := s.core.task
  { s with tile := tile,
           core := { s.core with run := .idleServer, task := { k with served := 0, inTask := false, counting := false } } }

/-- A root thread ends (R356): its code is kept for the launch's completion, once for each core. -/
def exitThread (code : BitVec 10) (s : State) : State :=
  let e : ThreadEnd := { tile := s.tile.jt.toNat, core := s.coreNo, code := code }
  let known (l : Launch) : Bool := l.codes.any (fun x => x.tile == e.tile && x.core == e.core)
  { s with
    core := { s.core with run := .idleServer, task := { s.core.task with code := some code } },
    wafer := s.wafer.setLaunch (s.tile.job.getD 0) (launchNo s.team) (fun l => if known l then l else { l with codes := l.codes ++ [e] }) }

def execExit (c : BitVec 10) (s : State) : Result :=
  (outsideTrapWindow (.exit c) s
    (match s.core.task.inline with
      | r :: rest => exitInline r rest c s
      | [] =>
        let team := s.team
        let s := s.uncouple.retire
        .wait ((if s.core.task.served != 0 then exitServer c s else exitThread c s).checkTeamEnd team))).result

/-! ### yield (R365) -/

/-- A boundary asks a core to stop (R411); its wake latch keeps its value (R132). -/
def Core.askStop (c : Core) : Core := { c with stopAsked := true }

/-- A pre-emption or context save asks a core to stop, and sets its wake latch (R132, R366). -/
def Core.callAway (c : Core) : Core := c.wakeUp.askStop

/-- A saved team waits for a core's slot on the tile in a class at least as urgent as the tile's (R365). -/
def State.slotWanted (s : State) : Bool :=
  s.wafer.saved.any (fun t => t.tile == s.tile.tile && decide (t.prio.toNat ≤ s.tile.prio.toNat) &&
    t.slots.any (fun p => p.1 == s.coreNo))

/-- A core leaves with a request: it is of the team, or all of the tile's cores are. -/
def Leave.takes (l : Leave) (c : Core) : Bool := l.team.all c.ofTeam

/-- The cores that a request takes are asked to stop, and their wake latches are set, once for each request (R132, R366
step 1); a tile that is stopped or replays comes to it later. -/
def callLeavers (s : State) : State :=
  match s.tile.leaving with
  | some l =>
    if l.called || s.tile.stopped || s.tile.replay.isSome then s
    else
      let s := s.updCores (fun c => if l.takes c then c.callAway else c)
      { s with tile := { s.tile with leaving := some { l with called := true } } }
  | none => s

/-- A team of the tile in focus, or all of them, are asked to leave (R366 step 1); the request is kept until they have,
and another is posted after it. -/
def State.postLeave (team : Option W32) (s : State) : State :=
  if s.tile.leaving.isSome then s
  else callLeavers { s with tile := { s.tile with leaving := some { team := team } } }

def execYield (s : State) : Result :=
  (outsideTrapWindow .yield s
    (let s := s.skip 4
     Issue.done (if s.slotWanted then s.postLeave (some s.team) else s))).result

/-! ### The watchdog of a task, breakpoints (R358, R363) -/

/-- The handle of the task that the core runs. -/
def Core.taskHandle (c : Core) : Word :=
  match c.task.inline with
  | r :: _ => r.handle
  | [] => c.task.served

/-- TLIMIT of the core's slot (R347). -/
def Core.tlimit (c : Core) : Nat :=
  match c.slot with
  | some r => r.tlimit.toNat
  | none => 0

/-- The core stands at an instruction boundary where it would issue (R358, R363). -/
def Core.atIssue (c : Core) : Bool :=
  c.run == .running && c.commitWait.isNone && c.pend.isEmpty && c.abandoned.isEmpty

/-- The core's task has run TLIMIT cycles (R358). -/
def State.watchdogDue (s : State) : Bool :=
  let c := s.core
  !s.tile.stopped && c.atIssue && c.task.inTask && c.task.counting && c.tlimit != 0 &&
    decide (c.tlimit ≤ s.wafer.clock - c.task.since)

/-- The watchdog trap (R358): the task's count stops. -/
def watchdogTrap (s : State) : State :=
  let h := s.core.taskHandle
  takeTrap 12 h { s with core := { s.core with task := { s.core.task with counting := false } } }

def execTaskWatchdog (site : SiteId) (core : CoreId) (s : State) : Result :=
  let s := s.focus site core
  .next (if s.watchdogDue then watchdogTrap s else s)

/-- The address of breakpoint n of a record when it is enabled (R347, R363). -/
def breakAddress (r : BindRecord) (n : Nat) : Option Nat :=
  let w := if n = 0 then r.bp0 else r.bp1
  if w.getLsbD 0 then some (field r.bpHigh (16 * n) 16 * 2 ^ 32 + field w 1 31 * 2) else none

/-- An enabled breakpoint stands at the pc of the core in focus (R363). -/
def State.breakpointHit (s : State) : Bool :=
  !s.tile.stopped && s.core.atIssue && !s.core.inTrap && !s.core.trap.skip &&
    match s.core.slot with
    | some r => breakAddress r 0 == some s.core.pc.toNat || breakAddress r 1 == some s.core.pc.toNat
    | none => false

/-- The breakpoint trap (R363). -/
def breakpointTrap (s : State) : State := takeTrap 11 s.core.pc s

def execBreakpoint (site : SiteId) (core : CoreId) (s : State) : Result :=
  let s := s.focus site core
  .next (if s.breakpointHit then breakpointTrap s else s)

/-! ### Coupling (R133) -/

/-- A seeking core becomes a follower (R133): its leader runs a team of the job, follows none itself, and the last
instruction that it issued is the one that the seeker issues next; that this was two cycles ago is timing. -/
def execCoupleFollow (site : SiteId) (core : CoreId) (s : State) : Result :=
  let s := s.focus site core
  .next (match s.core.coupling with
    | .seeking n =>
      let leader := s.coreAt n
      let free := match leader.coupling with
        | .following _ => false
        | _ => true
      if n != core && leader.run == .running && free && s.core.run == .running && leader.lastIssue == some s.core.pc then
        { s with core := { s.core with coupling := .following n } }
      else s
    | _ => s)

end Sys2Proof.Machine
end

