-- ==== Sys2Proof/Machine/Vector.lean ====
section
/-!
DEFINITION. Vector lane instructions (07_vector.md, R225 to R249) and the compact instructions (R74, R75).
-/
namespace Sys2Proof.Machine

/-! ### How vector instructions end -/

/-- A 16-bit instruction completes. -/
def State.next2 (s : State) : Issue := .done (s.skip 2)

/-- Writes a vector register and raises flags (R62, R222). -/
def State.setVec (s : State) (d : BitVec 5) (r : VReg) (f : FpFlags) : State :=
  { s with core := (s.core.setVReg d r).raise f.bits }

/-! ### Lane arithmetic (R226 to R229) -/

/-- Which operands a lane operation reads and checks beside vs1. -/
inductive Reads where
  | one | two | three
  deriving DecidableEq, Repr

/-- A merging lane operation (R219, R226): active lanes take f of the elements of vs1, vs2 and vd, the others
keep those of vd. shape names the checked operands; a shift reads vs2 unchecked. -/
def lanewise (allow : Tag → Bool) (shape : Reads) (f : Tag → Rounding → Nat → Nat → Nat → Nat × FpFlags)
    (d a b : BitVec 5) (p : BitVec 3) (n : BitVec 1) (s : State) (fin : State → Issue) : Issue :=
  let c := s.core
  let ra := c.vreg a
  let rb := c.vreg b
  let rd := c.vreg d
  let readsD := shape == .three || isMasked p n
  let ops := [ra.tag] ++ (if shape = .one then [] else [rb.tag]) ++ (if readsD then [rd.tag] else [])
  checkTags ops allow s fun t =>
    let w := t.width
    let m := c.mask p n
    let out := (List.range t.lanes).map (fun i =>
      if m.getLsbD i then f t c.rounding (ra.elem w i) (rb.elem w i) (rd.elem w i) else (rd.elem w i, {}))
    fin (s.setVec d (VReg.make t (packLanes w (out.map (·.1))) rd.scales) (flagsOf out))

/-- An operation with one form for floating tags and one for integers, which wraps (R227). -/
def arithOp (fl : FloatFmt → Rounding → Nat → Nat → Nat → Nat × FpFlags) (int : Int → Int → Int → Int) (t : Tag)
    (m : Rounding) (x y z : Nat) : Nat × FpFlags :=
  match t.float with
  | some g => fl g m x y z
  | none =>
    let v := intValue t.isSigned t.width
    (wrapInt t.width (int (v x) (v y) (v z)), {})

def addOp : Tag → Rounding → Nat → Nat → Nat → Nat × FpFlags :=
  arithOp (fun g m x y _ => fpAdd g m x y) (fun x y _ => x + y)
def subOp : Tag → Rounding → Nat → Nat → Nat → Nat × FpFlags :=
  arithOp (fun g m x y _ => fpSub g m x y) (fun x y _ => x - y)
def mulOp : Tag → Rounding → Nat → Nat → Nat → Nat × FpFlags :=
  arithOp (fun g m x y _ => fpMul g m x y) (fun x y _ => x * y)
def fmaOp : Tag → Rounding → Nat → Nat → Nat → Nat × FpFlags :=
  arithOp (fun g m x y z => fpFma g m false false x y z) (fun x y z => x * y + z)
def fmsOp : Tag → Rounding → Nat → Nat → Nat → Nat × FpFlags :=
  arithOp (fun g m x y z => fpFma g m false true x y z) (fun x y z => x * y - z)
def nfmaOp : Tag → Rounding → Nat → Nat → Nat → Nat × FpFlags :=
  arithOp (fun g m x y z => fpFma g m true false x y z) (fun x y z => z - x * y)
def maxOp : Tag → Rounding → Nat → Nat → Nat → Nat × FpFlags :=
  arithOp (fun g _ x y _ => fpExtreme g true x y) (fun x y _ => max x y)
def minOp : Tag → Rounding → Nat → Nat → Nat → Nat × FpFlags :=
  arithOp (fun g _ x y _ => fpExtreme g false x y) (fun x y _ => min x y)

/-- abs clears the sign bit of a floating element (R227, R228). -/
def absOp : Tag → Rounding → Nat → Nat → Nat → Nat × FpFlags :=
  arithOp (fun g _ x _ _ => (x % 2 ^ (g.width - 1), {})) (fun x _ _ => x.natAbs)

/-- neg inverts the sign bit of a floating element (R227, R228). -/
def negOp : Tag → Rounding → Nat → Nat → Nat → Nat × FpFlags :=
  arithOp (fun g _ x _ _ => (x ^^^ 2 ^ (g.width - 1), {})) (fun x _ _ => -x)

/-- Bitwise logic on elements (R226). -/
def logicOp (f : Nat → Nat → Nat) : Tag → Rounding → Nat → Nat → Nat → Nat × FpFlags := fun _ _ x y _ => (f x y, {})

def andnNat (x y : Nat) : Nat := x - (x &&& y)

/-- Shifts by the low log2(w) bits of the amount (R229). -/
def sllOp (t : Tag) (_ : Rounding) (x y _ : Nat) : Nat × FpFlags := (x <<< (y % t.width) % 2 ^ t.width, {})
def srlOp (t : Tag) (_ : Rounding) (x y _ : Nat) : Nat × FpFlags := (x >>> (y % t.width), {})
def sraOp (t : Tag) (_ : Rounding) (x y _ : Nat) : Nat × FpFlags :=
  (wrapInt t.width (intValue true t.width x / 2 ^ (y % t.width)), {})

def execVadd (d a b : BitVec 5) (p : BitVec 3) (n : BitVec 1) (s : State) : Result :=
  (lanewise Tag.arith .two addOp d a b p n s State.next4).result
def execVsub (d a b : BitVec 5) (p : BitVec 3) (n : BitVec 1) (s : State) : Result :=
  (lanewise Tag.arith .two subOp d a b p n s State.next4).result
def execVmul (d a b : BitVec 5) (p : BitVec 3) (n : BitVec 1) (s : State) : Result :=
  (lanewise Tag.arith .two mulOp d a b p n s State.next4).result
def execVfma (d a b : BitVec 5) (p : BitVec 3) (n : BitVec 1) (s : State) : Result :=
  (lanewise Tag.arith .three fmaOp d a b p n s State.next4).result
def execVfms (d a b : BitVec 5) (p : BitVec 3) (n : BitVec 1) (s : State) : Result :=
  (lanewise Tag.arith .three fmsOp d a b p n s State.next4).result
def execVnfma (d a b : BitVec 5) (p : BitVec 3) (n : BitVec 1) (s : State) : Result :=
  (lanewise Tag.arith .three nfmaOp d a b p n s State.next4).result
def execVmax (d a b : BitVec 5) (p : BitVec 3) (n : BitVec 1) (s : State) : Result :=
  (lanewise Tag.arith .two maxOp d a b p n s State.next4).result
def execVmin (d a b : BitVec 5) (p : BitVec 3) (n : BitVec 1) (s : State) : Result :=
  (lanewise Tag.arith .two minOp d a b p n s State.next4).result
def execVabs (d a : BitVec 5) (p : BitVec 3) (n : BitVec 1) (s : State) : Result :=
  (lanewise Tag.arith .one absOp d a a p n s State.next4).result
def execVneg (d a : BitVec 5) (p : BitVec 3) (n : BitVec 1) (s : State) : Result :=
  (lanewise Tag.arith .one negOp d a a p n s State.next4).result
def execVand (d a b : BitVec 5) (p : BitVec 3) (n : BitVec 1) (s : State) : Result :=
  (lanewise Tag.logic .two (logicOp (· &&& ·)) d a b p n s State.next4).result
def execVandn (d a b : BitVec 5) (p : BitVec 3) (n : BitVec 1) (s : State) : Result :=
  (lanewise Tag.logic .two (logicOp andnNat) d a b p n s State.next4).result
def execVor (d a b : BitVec 5) (p : BitVec 3) (n : BitVec 1) (s : State) : Result :=
  (lanewise Tag.logic .two (logicOp (· ||| ·)) d a b p n s State.next4).result
def execVxor (d a b : BitVec 5) (p : BitVec 3) (n : BitVec 1) (s : State) : Result :=
  (lanewise Tag.logic .two (logicOp (· ^^^ ·)) d a b p n s State.next4).result
def execVsll (d a b : BitVec 5) (p : BitVec 3) (n : BitVec 1) (s : State) : Result :=
  (lanewise Tag.logic .one sllOp d a b p n s State.next4).result
def execVsrl (d a b : BitVec 5) (p : BitVec 3) (n : BitVec 1) (s : State) : Result :=
  (lanewise Tag.logic .one srlOp d a b p n s State.next4).result
def execVsra (d a b : BitVec 5) (p : BitVec 3) (n : BitVec 1) (s : State) : Result :=
  (lanewise Tag.logic .one sraOp d a b p n s State.next4).result

/-! ### Moves, selects and permutes (R230, R238, R240) -/

/-- A merging move of predicate lanes (R219, R240): lane i takes the lane that f gives, or keeps vd's. -/
def laneMove (ops : List Tag) (d : BitVec 5) (p : BitVec 3) (n : BitVec 1) (f : Tag → Nat → Option (Nat × Nat))
    (s : State) (fin : State → Issue) : Issue :=
  let rd := s.core.vreg d
  let m := s.core.mask p n
  checkTags ops anyTag s fun t =>
    let out := (List.range t.predLanes).map (fun i =>
      if m.getLsbD i then (f t i).getD (rd.lane t i) else rd.lane t i)
    fin (s.setVec d (VReg.ofLanes t rd.scales out) {})

/-- The tag of vd among the checked operands of a merging move when it is masked (R219). -/
def State.maskedTag (s : State) (d : BitVec 5) (p : BitVec 3) (n : BitVec 1) : List Tag :=
  if isMasked p n then [(s.core.vreg d).tag] else []

/-- vmov (R230): unmasked, the whole register with its side field. -/
def vmovWith (d a : BitVec 5) (p : BitVec 3) (n : BitVec 1) (s : State) (fin : State → Issue) : Issue :=
  let ra := s.core.vreg a
  if isMasked p n then laneMove ([ra.tag] ++ s.maskedTag d p n) d p n (fun t i => some (ra.lane t i)) s fin
  else fin { s with core := s.core.setVReg d ra }

def execVmov (d a : BitVec 5) (p : BitVec 3) (n : BitVec 1) (s : State) : Result :=
  (vmovWith d a p n s State.next4).result

/-- vsel (R230): every lane is written, from vs1 where the mask bit is 1 and else from vs2. -/
def execVsel (d a b : BitVec 5) (p : BitVec 3) (n : BitVec 1) (s : State) : Result :=
  let ra := s.core.vreg a
  let rb := s.core.vreg b
  let m := s.core.mask p n
  (laneMove [ra.tag, rb.tag] d 0 0 (fun t i => some (if m.getLsbD i then ra.lane t i else rb.lane t i)) s
    State.next4).result

/-- vperm (R238): indices are read at the width of vs1's tag, for b4 from the bytes of vs2. -/
def execVperm (d a b : BitVec 5) (p : BitVec 3) (n : BitVec 1) (s : State) : Result :=
  let ra := s.core.vreg a
  let rb := s.core.vreg b
  (laneMove ([ra.tag] ++ s.maskedTag d p n) d p n
    (fun t i => some (ra.lane t (rb.elem (match t with | .b4 => 8 | t => t.width) i % t.predLanes))) s State.next4).result

def execVslup (d a k : BitVec 5) (p : BitVec 3) (n : BitVec 1) (s : State) : Result :=
  let ra := s.core.vreg a
  (laneMove [ra.tag, (s.core.vreg d).tag] d p n
    (fun t i => if k.toNat ≤ i then some (ra.lane t (i - k.toNat)) else none) s State.next4).result

def execVsldn (d a k : BitVec 5) (p : BitVec 3) (n : BitVec 1) (s : State) : Result :=
  let ra := s.core.vreg a
  (laneMove [ra.tag, (s.core.vreg d).tag] d p n
    (fun t i => if i + k.toNat < t.predLanes then some (ra.lane t (i + k.toNat)) else none) s State.next4).result

def execVbcast (d a k : BitVec 5) (p : BitVec 3) (n : BitVec 1) (s : State) : Result :=
  let ra := s.core.vreg a
  (laneMove ([ra.tag] ++ s.maskedTag d p n) d p n (fun t _ => some (ra.lane t (k.toNat % t.predLanes))) s
    State.next4).result

def execVzip (d a b : BitVec 5) (p : BitVec 3) (n : BitVec 1) (s : State) : Result :=
  let ra := s.core.vreg a
  let rb := s.core.vreg b
  (laneMove ([ra.tag, rb.tag] ++ s.maskedTag d p n) d p n
    (fun t i => some (if i % 2 = 0 then ra.lane t (i / 2) else rb.lane t (i / 2))) s State.next4).result

def execVunzip (d a b : BitVec 5) (p : BitVec 3) (n : BitVec 1) (s : State) : Result :=
  let ra := s.core.vreg a
  let rb := s.core.vreg b
  (laneMove ([ra.tag, rb.tag] ++ s.maskedTag d p n) d p n
    (fun t i =>
      let h := t.predLanes / 2
      some (if i < h then ra.lane t (2 * i) else rb.lane t (2 * (i - h)))) s State.next4).result

/-- vext (R239): one element, or one b4 code, extended by tag. -/
def execVext (d a k : BitVec 5) (s : State) : Result :=
  let ra := s.core.vreg a
  let t := ra.tag
  let x := ra.elem t.width (k.toNat % t.lanes)
  (s.setReg d (BitVec.ofInt 64 (if t.isSigned then intValue true t.width x else x))).next4.result

/-- vins (R239): one element, or one b4 code, of vd is written; tag and scale bytes stay. -/
def execVins (d a k : BitVec 5) (s : State) : Result :=
  let rd := s.core.vreg d
  let t := rd.tag
  let data := setLane t.width (k.toNat % t.lanes) rd.data.toNat (s.reg a).toNat
  (s.setVec d (VReg.make t data rd.scales) {}).next4.result

/-! ### Reductions (R241) -/

/-- The join of R241: both present are combined, one present is kept. -/
def joinLanes (op : Nat → Nat → Nat × FpFlags) (a b : Option Nat × FpFlags) : Option Nat × FpFlags :=
  match a.1, b.1 with
  | some x, some y =>
    let r := op x y
    (some r.1, (a.2.or b.2).or r.2)
  | some x, none => (some x, a.2.or b.2)
  | none, y => (y, a.2.or b.2)

/-- The tree of R241 over 2^k positions from i: the joins of a position pair its left half with its right. -/
def reduceTree (op : Nat → Nat → Nat × FpFlags) (lane : Nat → Option Nat) : Nat → Nat → Option Nat × FpFlags
  | 0, i => (lane i, {})
  | k + 1, i => joinLanes op (reduceTree op lane k (2 * i)) (reduceTree op lane k (2 * i + 1))

/-- A reduction (R241). -/
def reduction (f : Tag → Rounding → Nat → Nat → Nat → Nat × FpFlags) (d a : BitVec 5) (p : BitVec 3) (n : BitVec 1)
    (s : State) : Result :=
  let ra := s.core.vreg a
  let m := s.core.mask p n
  (checkTags [ra.tag] Tag.arith s fun t =>
    let lane (i : Nat) : Option Nat := if m.getLsbD i then some (ra.elem t.width i) else none
    let r := reduceTree (fun x y => f t s.core.rounding x y 0) lane t.lanes.log2 0
    (s.setVec d (VReg.make t (r.1.getD 0 % 2 ^ t.width) (s.core.vreg d).scales) r.2).next4).result

def execVredadd (d a : BitVec 5) (p : BitVec 3) (n : BitVec 1) (s : State) : Result := reduction addOp d a p n s
def execVredmax (d a : BitVec 5) (p : BitVec 3) (n : BitVec 1) (s : State) : Result := reduction maxOp d a p n s
def execVredmin (d a : BitVec 5) (p : BitVec 3) (n : BitVec 1) (s : State) : Result := reduction minOp d a p n s

/-! ### Compares and predicates (R231 to R233) -/

/-- A compare (R232): inactive bits and the bits beyond the lanes become 0. -/
def compare (cmp : Compare) (d : BitVec 3) (a b : BitVec 5) (p : BitVec 3) (n : BitVec 1) (s : State) : Result :=
  let ra := s.core.vreg a
  let rb := s.core.vreg b
  let m := s.core.mask p n
  (checkTags [ra.tag, rb.tag] Tag.arith s fun t =>
    let w := t.width
    let out := (List.range t.lanes).map (fun i =>
      if m.getLsbD i then
        match t.float with
        | some g =>
          let r := fpCompare g cmp (ra.elem w i) (rb.elem w i)
          (r.1.toNat, r.2)
        | none => ((intCompare t.isSigned w cmp (ra.elem w i) (rb.elem w i)).toNat, {})
      else (0, {}))
    let bits := BitVec.ofNat 64 (packLanes 1 (out.map (·.1)))
    ({ s with core := (s.core.setPred d bits).raise (flagsOf out).bits }).next4).result

def execVceq (d : BitVec 3) (a b : BitVec 5) (p : BitVec 3) (n : BitVec 1) (s : State) : Result := compare .eq d a b p n s
def execVcne (d : BitVec 3) (a b : BitVec 5) (p : BitVec 3) (n : BitVec 1) (s : State) : Result := compare .ne d a b p n s
def execVclt (d : BitVec 3) (a b : BitVec 5) (p : BitVec 3) (n : BitVec 1) (s : State) : Result := compare .lt d a b p n s
def execVcle (d : BitVec 3) (a b : BitVec 5) (p : BitVec 3) (n : BitVec 1) (s : State) : Result := compare .le d a b p n s
def execVcgt (d : BitVec 3) (a b : BitVec 5) (p : BitVec 3) (n : BitVec 1) (s : State) : Result := compare .gt d a b p n s
def execVcge (d : BitVec 3) (a b : BitVec 5) (p : BitVec 3) (n : BitVec 1) (s : State) : Result := compare .ge d a b p n s
def execVcun (d : BitVec 3) (a b : BitVec 5) (p : BitVec 3) (n : BitVec 1) (s : State) : Result := compare .un d a b p n s

/-- A predicate operation on all 64 bits (R233). -/
def predicate (d : BitVec 3) (v : Word) (s : State) : Result := (State.next4 { s with core := s.core.setPred d v }).result

def execPand (d a b : BitVec 3) (s : State) : Result := predicate d (s.core.pred a &&& s.core.pred b) s
def execPor (d a b : BitVec 3) (s : State) : Result := predicate d (s.core.pred a ||| s.core.pred b) s
def execPxor (d a b : BitVec 3) (s : State) : Result := predicate d (s.core.pred a ^^^ s.core.pred b) s
def execPnot (d a : BitVec 3) (s : State) : Result := predicate d (~~~(s.core.pred a)) s
def execPmov (d a : BitVec 3) (s : State) : Result := predicate d (s.core.pred a) s
def execPmovxToPredicate (d : BitVec 3) (a : BitVec 5) (s : State) : Result := predicate d (s.reg a) s
def execPmovxToScalar (d : BitVec 5) (a : BitVec 3) (s : State) : Result := (s.setReg d (s.core.pred a)).next4.result

/-! ### Conversions (R234 to R237) -/

/-- The lanes of a zeroing conversion (R235): target lanes below min(ns, nd) that are active are converted. -/
def convertLanes (src tgt : Tag) (ra : VReg) (m : Word) : List (Option (Nat × Nat)) :=
  (List.range tgt.lanes).map (fun i => if i < min src.lanes tgt.lanes && m.getLsbD i then some (ra.source i) else none)

/-- Writes the result of a conversion: the register, the flags, the generator. -/
def State.setConverted (s : State) (d : BitVec 5) (tgt : Tag) (r : List Nat × FpFlags × Word) : State :=
  let v := VReg.make tgt (packLanes tgt.width r.1) (s.core.vreg d).scales
  { s with core := ((s.core.setVReg d v).raise r.2.1.bits).setGs r.2.2 }

/-- vcvt and vcvt.sr (R235, R236). -/
def conversion (always : Bool) (word : Word) (admitted : Tag → Bool) (d a t : BitVec 5) (p : BitVec 3) (n : BitVec 1)
    (s : State) : Result :=
  let ra := s.core.vreg a
  (match Tag.ofBits t with
    | none => Issue.trap 1 word s
    | some tgt =>
      if !admitted tgt then .trap 1 word s
      else
        checkTags [ra.tag] Tag.convertible s fun src =>
          let draws := always || (s.core.stochastic && narrowing src tgt)
          (s.setConverted d tgt
            (drawMap draws s.core.rounding (convert src tgt) (convertLanes src tgt ra (s.core.mask p n)) s.core.fp.gs)).next4).result

/-- Targets of vcvt (R234). -/
def cvtTarget : Tag → Bool
  | .raw | .b4 => false
  | _ => true

/-- Targets of vcvt.sr (R234). -/
def cvtSrTarget (t : Tag) : Bool := t.float.isSome

def execVcvt (d a t : BitVec 5) (p : BitVec 3) (n : BitVec 1) (s : State) : Result :=
  conversion false (wordOf (.vcvt d a t p n)) cvtTarget d a t p n s

def execVcvtSr (d a t : BitVec 5) (p : BitVec 3) (n : BitVec 1) (s : State) : Result :=
  conversion true (wordOf (.vcvtSr d a t p n)) cvtSrTarget d a t p n s

/-- vtag (R237): the bits under a new tag; the scale bytes come along for b4 only. -/
def execVtag (d a t : BitVec 5) (s : State) : Result :=
  let ra := s.core.vreg a
  (match Tag.ofBits t with
    | none => Issue.trap 1 (wordOf (.vtag d a t)) s
    | some tgt =>
      (s.setVec d (VReg.make tgt ra.data.toNat (if tgt = Tag.b4 then ra.scales else (s.core.vreg d).scales)) {}).next4).result

/-! ### Special functions (R242 to R249) -/

/-- A lane function of one floating operand. -/
def unaryOp (f : FloatFmt → Rounding → Nat → Nat × FpFlags) (t : Tag) (m : Rounding) (x _ _ : Nat) : Nat × FpFlags :=
  f (t.float.getD .f32) m x

def execVrndi (d a : BitVec 5) (p : BitVec 3) (n : BitVec 1) (s : State) : Result :=
  (lanewise Tag.quantisable .one (unaryOp fpRoundIntegral) d a a p n s State.next4).result
def execVfexp (d a : BitVec 5) (p : BitVec 3) (n : BitVec 1) (s : State) : Result :=
  (lanewise Tag.quantisable .one (unaryOp fpExp) d a a p n s State.next4).result
def execVgetexp (d a : BitVec 5) (p : BitVec 3) (n : BitVec 1) (s : State) : Result :=
  (lanewise Tag.quantisable .one (unaryOp (fun g _ x => fpExponent g x)) d a a p n s State.next4).result
def execVrcp (d a : BitVec 5) (p : BitVec 3) (n : BitVec 1) (s : State) : Result :=
  (lanewise Tag.quantisable .one (unaryOp fpReciprocal) d a a p n s State.next4).result
def execVrsq (d a : BitVec 5) (p : BitVec 3) (n : BitVec 1) (s : State) : Result :=
  (lanewise Tag.quantisable .one (unaryOp fpInverseSqrt) d a a p n s State.next4).result
def execVexpins (d a b : BitVec 5) (p : BitVec 3) (n : BitVec 1) (s : State) : Result :=
  (lanewise Tag.quantisable .two (fun t m x y _ => fpScale (t.float.getD .f32) m x y) d a b p n s State.next4).result

/-- The signed integer tag of a floating tag's width (R242). -/
def Tag.integerOf : Tag → Tag
  | .f32 => .i32
  | .bf16 | .f16 => .i16
  | _ => .i8

/-- vcvti (R243): truncation whatever FRM holds; inactive elements are zeroed. -/
def execVcvti (d a : BitVec 5) (p : BitVec 3) (n : BitVec 1) (s : State) : Result :=
  let ra := s.core.vreg a
  (checkTags [ra.tag] (fun t => t.float.isSome) s fun src =>
    let tgt := src.integerOf
    (s.setConverted d tgt
      (drawMap false .rtz (convert src tgt) (convertLanes src tgt ra (s.core.mask p n)) s.core.fp.gs)).next4).result

/-- The 32 source elements of vqnt (R247): of vs1, or for f32 of vs1 and the register after it. -/
def qntSources (c : Core) (a : BitVec 5) (t : Tag) : List Nat :=
  let ra := c.vreg a
  if t = .f32 then ra.elems 32 16 ++ (c.vreg (a + 1)).elems 32 16 else ra.elems 16 32

/-- One block of vqnt (R67, R68): scale byte, codes, flags, generator. -/
def quantise (qtype : Nat) (f : FloatFmt) (stochastic : Bool) (rm : Rounding) (xs : List Nat) (gs : Word) :
    Nat × List Nat × FpFlags × Word :=
  let vs := xs.map f.value
  let lanes := xs.map (fun x => some (0, x))
  if vs.any FVal.isSpecial then
    let r := drawMap stochastic rm (fun _ _ => (0, {})) lanes gs
    (0x3F, r.1, { nv := vs.any (fun v => v.isInf || v.isSignalling) }, r.2.2)
  else
    let e := blockExponent qtype vs
    let r := drawMap stochastic rm (fun m x => qround qtype m e (f.value x.2)) lanes gs
    (qtype * 64 + e, r.1, r.2.1, r.2.2)

def execVqnt (d a : BitVec 5) (j : BitVec 2) (s : State) : Result :=
  let c := s.core
  let ra := c.vreg a
  (if ra.tag = .f32 && a.getLsbD 0 then Issue.trap 1 (wordOf (.vqnt d a j)) s
   else
    checkTags ([ra.tag] ++ (if ra.tag = .f32 then [(c.vreg (a + 1)).tag] else [])) Tag.quantisable s fun t =>
      let rd := c.vreg d
      let q := quantise c.fp.qtype.toNat (t.float.getD .f32) c.stochastic c.rounding (qntSources c a t) c.fp.gs
      let data := setLane 128 j.toNat rd.data.toNat (packLanes 4 q.2.1)
      let scales : W32 := BitVec.ofNat 32 (setLane 8 j.toNat rd.scales.toNat q.1)
      let s := s.setVec d (VReg.make .b4 data scales) q.2.2.1
      State.next4 { s with core := s.core.setGs q.2.2.2 }).result

/-- Targets of vcvts (R248). -/
def scaledTarget : Tag → Bool
  | .bf16 | .f16 | .e4m3 | .e5m2 | .i16 | .i8 => true
  | _ => false

/-- vcvts (R69, R248): x / s rounded to the target; draws for floating targets only. -/
def execVcvts (d a b : BitVec 5) (p : BitVec 3) (n : BitVec 1) (s : State) : Result :=
  let c := s.core
  let ra := c.vreg a
  let rb := c.vreg b
  (checkTags [ra.tag] Tag.quantisable s fun src =>
    checkTags [rb.tag] (· == .f32) s fun _ =>
      checkTags [(c.vreg d).tag] scaledTarget s fun tgt =>
        let f := src.float.getD .f32
        let scale := FloatFmt.f32.value (rb.elem 32 0)
        let one (m : Rounding) (x : Nat × Nat) : Nat × FpFlags :=
          let q := scaleQuotient (f.value x.2) scale
          match tgt.float with
          | some g => quotientToFloat f g m (f.value x.2) q
          | none => quotientToInt tgt.width m q
        let draws := tgt.float.isSome && c.stochastic
        (s.setConverted d tgt
          (drawMap draws c.rounding one (convertLanes src tgt ra (c.mask p n)) c.fp.gs)).next4).result

/-- vdq (R249): 16 codes of a b4 register decoded exactly. -/
def execVdq (d a : BitVec 5) (m p : BitVec 3) (n : BitVec 1) (s : State) : Result :=
  let ra := s.core.vreg a
  let k := s.core.mask p n
  (checkTags [ra.tag] (· == .b4) s fun _ =>
    let out := (List.range 16).map (fun i =>
      if k.getLsbD i then
        let x := ra.source (16 * m.toNat + i)
        (b4ToFloat .f32 .rne x.1 x.2).1
      else 0)
    (s.setVec d (VReg.make .f32 (packLanes 32 out) (s.core.vreg d).scales) {}).next4).result

/-- The largest magnitude of active elements (R249): a NaN by R58, or the largest value. -/
def largestMagnitude (f : FloatFmt) (xs : List Nat) : Nat × FpFlags :=
  match nanOperand f xs with
  | some r => r
  | none => ((xs.map (fun x => x % 2 ^ (f.width - 1))).foldl max 0, {})

def execBarq (d a : BitVec 5) (p : BitVec 3) (n : BitVec 1) (s : State) : Result :=
  let ra := s.core.vreg a
  let m := s.core.mask p n
  (checkTags [ra.tag] Tag.quantisable s fun t =>
    let xs := (List.range t.lanes).filterMap (fun i => if m.getLsbD i then some (ra.elem t.width i) else none)
    let r := largestMagnitude (t.float.getD .f32) xs
    (s.setVec d (VReg.make t (packLanes t.width (List.replicate t.lanes r.1)) (s.core.vreg d).scales) r.2).next4).result

/-! ### Compact instructions (R74, R75): the varith word with mask predicate m and vs1, vs2 as R75 gives -/

/-- The mask predicate of a compact instruction (R74). -/
def compactMask (m : BitVec 1) : BitVec 3 := m.setWidth 3

def execVaddC (d v : BitVec 5) (m : BitVec 1) (s : State) : Result :=
  (lanewise Tag.arith .two addOp d d v (compactMask m) 0 s State.next2).result
def execVsubC (d v : BitVec 5) (m : BitVec 1) (s : State) : Result :=
  (lanewise Tag.arith .two subOp d d v (compactMask m) 0 s State.next2).result
def execVmulC (d v : BitVec 5) (m : BitVec 1) (s : State) : Result :=
  (lanewise Tag.arith .two mulOp d d v (compactMask m) 0 s State.next2).result
def execVmaxC (d v : BitVec 5) (m : BitVec 1) (s : State) : Result :=
  (lanewise Tag.arith .two maxOp d d v (compactMask m) 0 s State.next2).result
def execVminC (d v : BitVec 5) (m : BitVec 1) (s : State) : Result :=
  (lanewise Tag.arith .two minOp d d v (compactMask m) 0 s State.next2).result
def execVandC (d v : BitVec 5) (m : BitVec 1) (s : State) : Result :=
  (lanewise Tag.logic .two (logicOp (· &&& ·)) d d v (compactMask m) 0 s State.next2).result
def execVandnC (d v : BitVec 5) (m : BitVec 1) (s : State) : Result :=
  (lanewise Tag.logic .two (logicOp andnNat) d d v (compactMask m) 0 s State.next2).result
def execVorC (d v : BitVec 5) (m : BitVec 1) (s : State) : Result :=
  (lanewise Tag.logic .two (logicOp (· ||| ·)) d d v (compactMask m) 0 s State.next2).result
def execVxorC (d v : BitVec 5) (m : BitVec 1) (s : State) : Result :=
  (lanewise Tag.logic .two (logicOp (· ^^^ ·)) d d v (compactMask m) 0 s State.next2).result
def execVmovC (d v : BitVec 5) (m : BitVec 1) (s : State) : Result :=
  (vmovWith d v (compactMask m) 0 s State.next2).result
def execVabsC (d v : BitVec 5) (m : BitVec 1) (s : State) : Result :=
  (lanewise Tag.arith .one absOp d v v (compactMask m) 0 s State.next2).result
def execVnegC (d v : BitVec 5) (m : BitVec 1) (s : State) : Result :=
  (lanewise Tag.arith .one negOp d v v (compactMask m) 0 s State.next2).result
def execVsllC (d v : BitVec 5) (m : BitVec 1) (s : State) : Result :=
  (lanewise Tag.logic .one sllOp d d v (compactMask m) 0 s State.next2).result
def execVsrlC (d v : BitVec 5) (m : BitVec 1) (s : State) : Result :=
  (lanewise Tag.logic .one srlOp d d v (compactMask m) 0 s State.next2).result
def execVsraC (d v : BitVec 5) (m : BitVec 1) (s : State) : Result :=
  (lanewise Tag.logic .one sraOp d d v (compactMask m) 0 s State.next2).result
def execVfmacC (d v : BitVec 5) (m : BitVec 1) (s : State) : Result :=
  (lanewise Tag.arith .three fmaOp d v 31 (compactMask m) 0 s State.next2).result

end Sys2Proof.Machine
end

