-- ==== Sys2Proof/Machine/SignalBox.lean ====
section
/-!
DEFINITION. Signal boxes (12_signalbox.md): packets that a flow takes, the run of a kernel and its words, endings, traps and
trap records (R375 to R399, R406).
-/
namespace Sys2Proof.Machine

/-- Changes the signal box of the tile in focus. -/
def State.mapBox (s : State) (f : Box → Box) : State := { s with tile := { s.tile with box := f s.tile.box } }

/-- A flow is removed (R402): VALID is cleared, and its waiting packets complete. -/
def Box.removeFlow (b : Box) (f : BitVec 6) : Box :=
  { b.setWord f 0 (b.word f 0 &&& ~~~(1 : W32)) with freshFlows := insertNat f.toNat b.freshFlows }

/-- Every flow is removed, as when the job ends (R402). -/
def Box.emptied (b : Box) : Box := if b.table.isEmpty then b else (flowIds.filter b.valid).foldl Box.removeFlow b

/-! ### A packet reaches the box (R374, R376, R378, R481) -/

/-- A replay-flagged packet that stands at or below the tile's mark (R481). -/
def Msg.repeatedAt (l : List Mark) : Msg → Bool
  | .message m => oldMessage l m
  | .acc q => repeated l q.req Mark.aseq
  | _ => false

/-- The source of a packet that a flow may take. -/
def Msg.source : Msg → CoreRef
  | .message m => { tile := m.tile, core := m.core }
  | .store r _ _ => r.src
  | .acc q => q.req.src
  | _ => { tile := 0, core := 0 }

/-- The sender's acknowledgement, without more (R152, R318). -/
def ackPacket (m : Msg) (s : State) : State :=
  match m with
  | .message x => ackMessage x s
  | .acc q => s.ackMembers none q
  | .store r _ _ => s.ackTo none r none false
  | _ => s

/-- An earlier packet for the same tile waits for the box (R378, R408). -/
def State.boxBehind (s : State) (p : Packet) (n : Nat) : Bool :=
  s.wafer.net.any (fun q =>
    match q.arrived with
    | some m => decide (m < n) && q.site == p.site && q.dest == p.dest && (s.tile.box.flowOf q).isSome
    | none => false)

/-- A replay-flagged packet repeats one that is still in the box or on its way from it, and comes to no kernel
(R406, R481, assumption 34). -/
def State.inBox (s : State) (p : Packet) (h : Header) : Bool :=
  let b := s.tile.box
  let out := s.wafer.net.filter (fun q => q.boxed.isSome && q.dest == p.dest)
  let here := b.queue.map (fun q => q.2) ++ (b.run.map (fun r => r.pkt)).toList ++ out
  h.replay && here.any (fun q =>
    match q.msg.header with
    | some k => q.msg.source == p.msg.source && k.cls == h.cls && k.seq == h.seq && k.addr == h.addr
    | none => false)

/-- A packet that a flow takes enters the queue of 16, after its determinant (R378, R406). -/
def enterBox (p : Packet) (f : BitVec 6) (h : Header) (s : State) : State :=
  if 16 ≤ s.tile.box.queue.length || !markRoom s.tile.marks p.msg.source || s.boxBehind p (p.arrived.getD 0) then s
  else
    let s := (s.dropPacket p.id).recordChannel p
    let payload := (natBytes ((vget p.msg.beats 0 0).toNat) 32)
    let s := s.noteInput .flowPacket 0 0 s.tile.box.queue.length p.msg.source h.srct h.seq payload p
    s.mapBox (fun b => { b with queue := b.queue ++ [(f, p)] })

/-- A packet for the hosting tile reaches the box (R376, R378): it waits for its kernel, or it passes by. -/
def boxArrival (p : Packet) (n : Nat) (s : State) : State :=
  match s.tile.box.flowOf p, p.msg.header with
  | some f, some h =>
    if !s.mayEnter p n then s
    else if p.msg.repeatedAt s.tile.marks then ackPacket p.msg (s.dropPacket p.id)
    else if s.inBox p h then s.dropPacket p.id
    else if s.tile.box.bypasses s.tile.width f h then
      let note := Notice.mismatch s.tile.tile f h.job p.msg.source h.cls
      let s := s.setPacket p.id (fun q => { q with processed := true })
      { s with wafer := { s.wafer with notices := s.wafer.notices ++ [note] } }
    else enterBox p f h s
  | _, _ => s

def execSignalBoxPacketArrival (id : Nat) (s : State) : Result :=
  .next (match s.packet id with
    | some p =>
      match p.arrived with
      | some n => boxArrival p n (s.focusSite p.site)
      | none => s
    | none => s)

/-! ### A run begins (R379, R387) -/

/-- A flow takes one packet more (R377). -/
def Box.countPacket (b : Box) (f : BitVec 6) : Box := b.setWord f 0x38 (b.word f 0x38 + 1)

/-- The box takes the first packet of its queue and its flow's kernel begins (R379). -/
def startRun (s : State) : State :=
  let b := s.tile.box
  match b.run, b.queue with
  | none, (f, p) :: r =>
    s.mapBox (fun b =>
      { b.countPacket f with queue := r, runs := b.runs + 1, run := some { flow := f, pkt := p, beats := p.msg.beats, pc := b.entry f } })
  | _, _ => s

def execKernelRun (site : SiteId) (s : State) : Result :=
  let s := s.focusSite site
  .next (if s.tile.stopped || s.junction.passThrough then s else startRun s)

/-! ### The end of a run (R380, R381, R398, R399) -/

/-- The packet is delivered to the hosting tile with a payload: it goes on as a processed packet in its own place of
the order of arrival (R375, R380). -/
def deliverRun (r : BoxRun) (m : Msg) (s : State) : State :=
  let n : W32 := s.tile.intv.setWidth 32
  let p := { r.pkt with site := s.site, processed := true, boxed := some n, msg := m.mustAccept n }
  { s with wafer := { s.wafer with net := s.wafer.net ++ [p] } }

/-- The packet is discarded (R380): the mark advances and the sender is acknowledged. -/
def discardRun (r : BoxRun) (s : State) : State :=
  match r.pkt.msg with
  | .message m => ackMessage m (markMessage m s)
  | .acc q => { s with tile := { s.tile with marks := advanceMarks s.tile.marks q } }.ackMembers none q
  | .store q _ _ => s.storeDone q none
  | _ => s

/-- A packet of the junction that no other junction matches again (R375). -/
def boxSend (s : State) (line : Line) (l : TileNo) (m : Msg) : State :=
  (s.inject line (.tile l) m).setPacket s.wafer.nextId (fun p => { p with processed := true })

/-- A message of the junction under its next output sequence (R396). -/
def boxMessage (s : State) (job : BitVec 6) (t : Nat) (core q : Nat) (d : V256) : State :=
  let seq := s.tile.box.seq + 1
  let m : Message :=
    { jt := s.tile.jt, core := 0, tile := s.tile.tile, job := job, seq := seq, dst := BitVec.ofNat 3 core,
      q := BitVec.ofNat 4 q, data := d, counted := false, replay := s.tile.replay.isSome || s.tile.flagged,
      fromBox := true }
  boxSend (s.mapBox (fun b => { b with seq := seq })) .relief (s.tile.logical t) (.message m)

/-- A run that does not trap commits its writes, and then sends its messages (R381). -/
def commitRun (r : BoxRun) (s : State) : State :=
  let b := s.tile.box
  let eq_ := b.word r.flow 0x2C
  let s := s.mapBox (fun b => { b with mem := b.mem.writeCells r.buffer, run := none })
  r.emits.foldl (fun s e =>
    boxMessage s (b.job r.flow) (b.alt r.flow e.1) (field eq_ 12 3) (field eq_ 16 4) e.2) s

/-- The packet with the replay flag that a replay gives what it sends again. -/
def Msg.flagReplay (m : Msg) (b : Bool) : Msg :=
  if b then
    match m with
    | .message x => .message { x with replay := true }
    | .store r sp c => .store { r with replay := true } sp c
    | .acc q => .acc { q with req := { q.req with replay := true } }
    | m => m
  else m

/-- ALT[k] may be named (R396, R397): k is below ALTN, and the points table holds its logical tile (R16, assumption
76). -/
def State.altPresent (s : State) (f : BitVec 6) (k : Nat) : Bool :=
  decide (k < s.tile.box.altn f) && (findPoint s.junction.points (s.tile.logical (s.tile.box.alt f k)).toNat).isSome

/-- A line of a redirected packet. -/
def BoxRun.line (r : BoxRun) : Line := r.pkt.line

/-- Adds 1 to a 16-bit count that saturates. -/
def sat16 (n : Nat) : Nat := min (n + 1) 0xFFFF

/-- The trap record of R398. -/
def trapRecord (s : State) (r : BoxRun) (cause operand : Nat) : V256 :=
  let h := (r.pkt.msg.header).getD { cls := 0, srct := 0, srcc := 0, job := 0, addr := 0 }
  dwords256 [
    BitVec.ofNat 64 (3 * 2 ^ 56 + cause * 2 ^ 52 + r.flow.toNat * 2 ^ 46 + s.tile.jt.toNat * 2 ^ 34
      + s.tile.tile.toNat * 2 ^ 22 + r.pc * 2 ^ 10),
    BitVec.ofNat 64 (h.cls * 2 ^ 48 + h.srcc.toNat * 2 ^ 44 + h.srct.toNat * 2 ^ 32 + h.seq.toNat),
    BitVec.ofNat 64 operand, s.clock]

/-- TRAPS counts, and the record takes one of four places or is lost (R398, R399). -/
def Box.noteTrap (b : Box) (f : BitVec 6) (d : V256) : Box :=
  let w := b.word f 0x3C
  let full := decide (4 ≤ b.recs.length)
  let lost := if full then sat16 (field w 16 16) else field w 16 16
  let b := b.setWord f 0x3C (BitVec.ofNat 32 (lost * 2 ^ 16 + sat16 (field w 0 16)))
  if full then b else { b with recs := b.recs ++ [(b.word f 0x28, d)] }

/-- A kernel trap (R398): writes and messages are discarded, and the policy decides on the packet. -/
def kernelTrap (r : BoxRun) (cause operand : Nat) (s : State) : State :=
  let d := trapRecord s r cause operand
  let drop := s.tile.box.dropPolicy r.flow
  let s := s.mapBox (fun b => { b.noteTrap r.flow d with run := none })
  if drop then discardRun r s else deliverRun r r.pkt.msg s

/-- A waiting trap record is injected (R399), unless the junction holds messages towards the mailbox tile. -/
def execTrapRecordInject (site : SiteId) (s : State) : Result :=
  let s := s.focusSite site
  .next (match s.tile.box.recs with
    | [] => s
    | (mb, d) :: r =>
      let l := s.tile.logical (field mb 0 12)
      let absent := (findPoint s.junction.points l.toNat).isNone
      let held := l == s.tile.tile && s.wafer.net.any (fun p => p.arrived.isSome && p.site == s.site && p.msg.isMessage)
      if held then s
      else if absent then s.mapBox (fun b => { b with recs := r })
      else
        boxMessage (s.mapBox (fun b => { b with recs := r })) (s.tile.job.getD 0) (field mb 0 12) (field mb 12 3)
          (field mb 16 4) d)

/-! ### The registers of a run (R379, R387) -/

/-- A scalar register of a run; b0 reads zero (R387). -/
def BoxRun.b (r : BoxRun) (i : BitVec 4) : W32 := if i = 0 then 0 else vget r.bregs i.toNat 0

/-- Writes a scalar register; a write of b0 is discarded (R387). -/
def BoxRun.setB (r : BoxRun) (i : BitVec 4) (v : W32) : BoxRun :=
  if i = 0 then r else { r with bregs := vset r.bregs i.toNat v }

/-- A vector register of a run. -/
def BoxRun.y (r : BoxRun) (i : BitVec 3) : V256 := vget r.yregs i.toNat 0

/-- Writes a vector register. -/
def BoxRun.setY (r : BoxRun) (i : BitVec 3) (v : V256) : BoxRun := { r with yregs := vset r.yregs i.toNat v }

/-- Lane i of a vector register. -/
def lane32 (y : V256) (i : Nat) : Nat := field y (32 * i) 32

/-- A vector of eight lanes. -/
def lanes32 (f : Nat → Nat) : V256 := BitVec.ofNat 256 (packLanes 32 ((List.range 8).map f))

/-! ### Performing a word (R387, R389) -/

/-- The word of the program store at a place. -/
def Box.storeWord (b : Box) (n : Nat) : W32 := BitVec.ofNat 32 (b.store.readNat (4 * n) 4)

/-- The first place past the flow's kernel. -/
def Box.stop (b : Box) (f : BitVec 6) : Nat := b.entry f + b.len f

/-- The next pc after a word that does not branch: back to the start of a rpt body while passes are left (R389). -/
def BoxRun.advance (r : BoxRun) : BoxRun :=
  match r.loop with
  | some (first, n, left) =>
    if r.pc + 1 = first + n then
      if 1 < left then { r with pc := first, loop := some (first, n, left - 1) }
      else { r with pc := r.pc + 1, loop := none }
    else { r with pc := r.pc + 1 }
  | none => { r with pc := r.pc + 1 }

/-- A word of a kernel (R387): nothing without a run; a trap when it is illegal in its place or its cost breaks the
budget; otherwise its effect, its cost counted. -/
def boxIssue (illegal : Box → BoxRun → Bool) (w : Nat) (cost : BoxRun → Nat) (s : State) (k : BoxRun → State → State) :
    Result :=
  .next (match s.tile.box.run with
    | none => s
    | some r =>
      if illegal s.tile.box r then kernelTrap r 4 w s
      else if s.tile.box.budget r.flow < r.count + cost r then kernelTrap r 1 r.count s
      else k { r with count := r.count + cost r } s)

/-- The run goes on with the next word. -/
def goOn (r : BoxRun) (s : State) : State := s.mapBox (fun b => { b with run := some r.advance })

/-- A word that only writes registers of the run. -/
def boxOp (cost : Nat) (f : BoxRun → BoxRun) (s : State) : Result :=
  boxIssue (fun _ _ => false) 0 (fun _ => cost) s fun r s => goOn (f r) s

def execSbNop (s : State) : Result := boxOp 1 id s

/-! ### Scalar words (R388) -/

/-- A scalar operation. -/
def scalarOp (f : W32 → W32 → W32) (d a b : BitVec 4) (s : State) : Result :=
  boxOp 1 (fun r => r.setB d (f (r.b a) (r.b b))) s

/-- A scalar operation with an immediate. -/
def scalarImm (f : W32 → W32 → W32) (d a : BitVec 4) (i : BitVec 13) (s : State) : Result :=
  boxOp 1 (fun r => r.setB d (f (r.b a) (i.signExtend 32))) s

/-- The shifts take the low five bits of the count. -/
def shl32 (x v : W32) : W32 := x <<< (v.toNat % 32)
def shr32 (x v : W32) : W32 := x >>> (v.toNat % 32)

def execSbAdd (d a b : BitVec 4) (s : State) : Result := scalarOp (· + ·) d a b s
def execSbAddImm (d a : BitVec 4) (i : BitVec 13) (s : State) : Result := scalarImm (· + ·) d a i s
def execSbSub (d a b : BitVec 4) (s : State) : Result := scalarOp (· - ·) d a b s
def execSbSubImm (d a : BitVec 4) (i : BitVec 13) (s : State) : Result := scalarImm (· - ·) d a i s
def execSbAnd (d a b : BitVec 4) (s : State) : Result := scalarOp (· &&& ·) d a b s
def execSbAndImm (d a : BitVec 4) (i : BitVec 13) (s : State) : Result := scalarImm (· &&& ·) d a i s
def execSbOr (d a b : BitVec 4) (s : State) : Result := scalarOp (· ||| ·) d a b s
def execSbOrImm (d a : BitVec 4) (i : BitVec 13) (s : State) : Result := scalarImm (· ||| ·) d a i s
def execSbXor (d a b : BitVec 4) (s : State) : Result := scalarOp (· ^^^ ·) d a b s
def execSbXorImm (d a : BitVec 4) (i : BitVec 13) (s : State) : Result := scalarImm (· ^^^ ·) d a i s
def execSbShl (d a b : BitVec 4) (s : State) : Result := scalarOp shl32 d a b s
def execSbShlImm (d a : BitVec 4) (i : BitVec 13) (s : State) : Result := scalarImm shl32 d a i s
def execSbShr (d a b : BitVec 4) (s : State) : Result := scalarOp shr32 d a b s
def execSbShrImm (d a : BitVec 4) (i : BitVec 13) (s : State) : Result := scalarImm shr32 d a i s

def execSbLi (d : BitVec 4) (i : BitVec 16) (s : State) : Result := boxOp 1 (fun r => r.setB d (i.signExtend 32)) s

def execSbLih (d : BitVec 4) (i : BitVec 16) (s : State) : Result :=
  boxOp 1 (fun r => r.setB d (i ++ (r.b d).setWidth 16)) s

/-! ### Control words (R386, R389, R390, R396) -/

/-- A branch (R389): forward, within the kernel, and not in a rpt body. -/
def boxBranch (onZero : Bool) (w : Nat) (a : BitVec 4) (o : BitVec 11) (s : State) : Result :=
  let taken (r : BoxRun) : Bool := (r.b a == 0) == onZero
  let target (r : BoxRun) : Nat := r.pc + 1 + o.toNat
  boxIssue (fun b r => r.loop.isSome || decide (b.stop r.flow ≤ target r)) w (fun r => if taken r then 2 else 1) s
    fun r s => if taken r then s.mapBox (fun b => { b with run := some { r with pc := target r } }) else goOn r s

def execSbBfz (a : BitVec 4) (o : BitVec 11) (s : State) : Result :=
  boxBranch true (0xA + a.toNat * 0x400 + o.toNat * 0x4000) a o s

def execSbBfnz (a : BitVec 4) (o : BitVec 11) (s : State) : Result :=
  boxBranch false (0xB + a.toNat * 0x400 + o.toNat * 0x4000) a o s

/-- rpt (R389): the n words that follow run c times; n and c are stored less one. -/
def execSbRpt (n : BitVec 3) (c : BitVec 4) (s : State) : Result :=
  boxIssue (fun b r => r.loop.isSome || decide (b.stop r.flow ≤ r.pc + n.toNat + 1))
    (0xC + n.toNat * 0x40 + c.toNat * 0x400) (fun _ => 1) s
    fun r s => s.mapBox (fun b =>
      { b with run := some { r with pc := r.pc + 1, loop := some (r.pc + 1, n.toNat + 1, c.toNat + 1) } })

/-- A control word outside a rpt body, at cost 1. -/
def boxControl (w : Nat) (s : State) (k : BoxRun → State → State) : Result :=
  boxIssue (fun _ r => r.loop.isSome) w (fun _ => 1) s k

def execSbDone (s : State) : Result :=
  boxControl 0xD s fun r s => deliverRun r (r.pkt.msg.withBeats r.beats) (commitRun r s)

def execSbDrop (s : State) : Result := boxControl 0xE s fun r s => discardRun r (commitRun r s)

def execSbReroute (a : BitVec 4) (s : State) : Result :=
  boxControl (0xF + a.toNat * 0x400) s fun r s =>
    let k := (r.b a).toNat
    if !s.altPresent r.flow k then kernelTrap r 3 k s
    else
      let l := s.tile.logical (s.tile.box.alt r.flow k)
      let s := commitRun r s
      let flag := s.tile.replay.isSome || s.tile.flagged
      let again := flag && !((r.pkt.msg.header).any (·.replay))
      let m := ((r.pkt.msg.withBeats r.beats).reroute l s.wafer.nextId).flagReplay flag
      (s.launchPacket r.line (.tile l) none m).setPacket s.wafer.nextId (fun p =>
        { p with processed := true, again := again })

def execSbTrap (a : BitVec 4) (c : BitVec 8) (s : State) : Result :=
  boxControl (0x24 + a.toNat * 0x400 + c.toNat * 0x4000) s fun r s =>
    kernelTrap r 5 (c.toNat * 2 ^ 32 + (r.b a).toNat) s

/-! ### State words (R391) -/

/-- The byte offset of a state word. -/
def stateOffset (r : BoxRun) (a : BitVec 4) (i : BitVec 13) : Nat := (r.b a + i.signExtend 32).toNat

/-- The check of an offset (R391). -/
def stateAt (a : BitVec 4) (i : BitVec 13) (n : Nat) (r : BoxRun) (s : State) (k : Nat → State) : State :=
  let o := stateOffset r a i
  if o % n ≠ 0 ∨ s.tile.box.windowSize r.flow < o + n then kernelTrap r 2 o s
  else k (s.tile.box.windowBase r.flow + o)

/-- n bytes of the state as the run sees them (R381). -/
def runState (r : BoxRun) (b : Box) (a n : Nat) : Nat := (b.mem.writeCells r.buffer).readNat a n

def execSbLdst (d a : BitVec 4) (i : BitVec 13) (s : State) : Result :=
  boxIssue (fun _ _ => false) 0 (fun _ => 1) s fun r s =>
    stateAt a i 4 r s fun x => goOn (r.setB d (BitVec.ofNat 32 (runState r s.tile.box x 4))) s

/-- A flow that may not write its state (R386). -/
def stateless (b : Box) (r : BoxRun) : Bool := !b.stateful r.flow

def execSbStst (d a : BitVec 4) (i : BitVec 13) (s : State) : Result :=
  boxIssue stateless (0x11 + d.toNat * 0x40 + a.toNat * 0x400 + i.toNat * 0x80000) (fun _ => 1) s fun r s =>
    stateAt a i 4 r s fun x => goOn { r with buffer := r.buffer ++ cellsAt x (natBytes (r.b d).toNat 4) } s

def execSbVldst (d : BitVec 3) (a : BitVec 4) (i : BitVec 13) (s : State) : Result :=
  boxIssue (fun _ _ => false) 0 (fun _ => 2) s fun r s =>
    stateAt a i 32 r s fun x => goOn (r.setY d (BitVec.ofNat 256 (runState r s.tile.box x 32))) s

def execSbVstst (d : BitVec 3) (a : BitVec 4) (i : BitVec 13) (s : State) : Result :=
  boxIssue stateless (0x13 + d.toNat * 0x40 + a.toNat * 0x400 + i.toNat * 0x80000) (fun _ => 2) s fun r s =>
    stateAt a i 32 r s fun x => goOn { r with buffer := r.buffer ++ cellsAt x (natBytes (r.y d).toNat 32) } s

/-! ### Payload and header (R383, R392) -/

/-- Beats of the run's packet. -/
def BoxRun.beatCount (r : BoxRun) : Nat := ((r.pkt.msg.header).map Header.beats).getD 1

def execSbVrdp (d : BitVec 3) (k : BitVec 2) (s : State) : Result :=
  boxOp 1 (fun r => r.setY d (if k.toNat < r.beatCount then vget r.beats k.toNat 0 else 0)) s

def execSbVwrp (d : BitVec 3) (k : BitVec 2) (s : State) : Result :=
  boxOp 1 (fun r => if k.toNat < r.beatCount then { r with beats := vset r.beats k.toNat (r.y d) } else r) s

/-- The field of the header of an index (R383). -/
def headerField (h : Header) (flow : BitVec 6) (stidx : Option Nat) (i : Nat) : Nat :=
  match i with
  | 0 => h.cls
  | 1 => h.srct.toNat
  | 2 => h.srcc.toNat
  | 3 => h.dcore.toNat
  | 4 => h.dq.toNat
  | 5 => h.addr
  | 6 => h.beats
  | 7 => h.bytes
  | 8 => h.seq.toNat
  | 9 => h.op
  | 10 => flow.toNat
  | 11 => stidx.getD 0xFFFFFFFF
  | 12 => h.plane
  | _ => if h.replay then 1 else 0

def execSbRdh (d i : BitVec 4) (s : State) : Result :=
  boxIssue (fun _ _ => decide (13 < i.toNat)) (0x16 + d.toNat * 0x40 + i.toNat * 0x4000) (fun _ => 1) s fun r s =>
    let v := match r.pkt.msg.header with
      | some h => headerField h r.flow (memberIndex (s.tile.box.members r.flow) s.tile.width h.srct.toNat) i.toNat
      | none => 0
    goOn (r.setB d (BitVec.ofNat 32 v)) s

/-! ### Vector words (R393 to R395) -/

/-- A lanewise operation of two vectors. -/
def vectorOp (cost : Nat) (f : Nat → Nat → Nat) (d a b : BitVec 3) (s : State) : Result :=
  boxOp cost (fun r => r.setY d (lanes32 (fun i => f (lane32 (r.y a) i) (lane32 (r.y b) i)))) s

def execSbVaddi (d a b : BitVec 3) (s : State) : Result := vectorOp 1 (fun x y => (x + y) % 2 ^ 32) d a b s
def execSbVaddf (d a b : BitVec 3) (s : State) : Result := vectorOp 2 (fun x y => (fpAdd .f32 .rne x y).1) d a b s
def execSbVmulf (d a b : BitVec 3) (s : State) : Result := vectorOp 2 (fun x y => (fpMul .f32 .rne x y).1) d a b s
def execSbVmaxf (d a b : BitVec 3) (s : State) : Result := vectorOp 2 (fun x y => (fpExtreme .f32 true x y).1) d a b s
def execSbVminf (d a b : BitVec 3) (s : State) : Result := vectorOp 2 (fun x y => (fpExtreme .f32 false x y).1) d a b s
def execSbVmaxi (d a b : BitVec 3) (s : State) : Result :=
  vectorOp 1 (fun x y => if intValue true 32 x < intValue true 32 y then y else x) d a b s
def execSbVand (d a b : BitVec 3) (s : State) : Result := vectorOp 1 (fun x y => x &&& y) d a b s
def execSbVor (d a b : BitVec 3) (s : State) : Result := vectorOp 1 (fun x y => x ||| y) d a b s
def execSbVxor (d a b : BitVec 3) (s : State) : Result := vectorOp 1 (fun x y => x ^^^ y) d a b s

/-- vcvtbf.f2b (R394): eight bf16 values in half h, the other half kept. -/
def execSbVcvtbfF2b (d a : BitVec 3) (h : BitVec 1) (s : State) : Result :=
  boxOp 2 (fun r =>
    let v := packLanes 16 ((List.range 8).map (fun i => (floatToFloat .f32 .bf16 .rne (lane32 (r.y a) i)).1))
    let half : BitVec 128 := BitVec.ofNat 128 v
    let old := r.y d
    r.setY d (if h = 0 then (old.extractLsb' 128 128 ++ half) else (half ++ old.extractLsb' 0 128))) s

/-- vcvtbf.b2f (R394): bf16 elements 8h to 8h + 7, widened. -/
def execSbVcvtbfB2f (d a : BitVec 3) (h : BitVec 1) (s : State) : Result :=
  boxOp 2 (fun r =>
    r.setY d (lanes32 (fun i => (floatToFloat .bf16 .f32 .rne (field (r.y a) (16 * (8 * h.toNat + i)) 16)).1))) s

/-- vsum (R395): the tree of R241 over all eight lanes. -/
def execSbVsum (d : BitVec 4) (a : BitVec 3) (s : State) : Result :=
  boxOp 3 (fun r =>
    let t := reduceTree (fun x y => fpAdd .f32 .rne x y) (fun i => some (lane32 (r.y a) i)) 3 0
    r.setB d (BitVec.ofNat 32 (t.1.getD 0))) s

/-- vcmpf (R395): a bit for each lane. -/
def execSbVcmpf (d : BitVec 4) (a b : BitVec 3) (c : BitVec 2) (s : State) : Result :=
  let cmp : Compare := match c.toNat with
    | 0 => .eq
    | 1 => .lt
    | 2 => .le
    | _ => .un
  boxOp 2 (fun r =>
    r.setB d (BitVec.ofNat 32 ((List.range 8).foldl (fun v i =>
      v + if (fpCompare .f32 cmp (lane32 (r.y a) i) (lane32 (r.y b) i)).1 then 2 ^ i else 0) 0))) s

/-- vself (R395): lanes of a where the bit of c is set, of b elsewhere. -/
def execSbVself (d a b : BitVec 3) (c : BitVec 4) (s : State) : Result :=
  boxOp 1 (fun r =>
    r.setY d (lanes32 (fun i => if (r.b c).getLsbD i then lane32 (r.y a) i else lane32 (r.y b) i))) s

/-! ### stamp and emit (R396) -/

/-- The junction's next recorded value in a stream. -/
def takeStamp : List (Nat × Det) → Option (W32 × List (Nat × Det))
  | [] => none
  | d :: r =>
    if d.2.kind = .recorded && d.2.srcKind = .junction then some (BitVec.ofNat 32 (leNat d.2.payload), r)
    else (takeStamp r).map (fun x => (x.1, d :: x.2))

/-- A value recorded in the hosting tile's stream, or in a replay the recorded one (R396). -/
def State.recordBox (s : State) (v : W32) : Option (W32 × State) :=
  match s.tile.replay with
  | some ds =>
    match takeStamp ds with
    | some (x, r) => some (x, { s with tile := { s.tile with replay := some r } })
    | none => some (v, s)
  | none =>
    if s.detRoom then
      some (v, s.noteDet
        { kind := .recorded, core := 0, slice := 0, pos := 0, srcKind := .junction, src := s.tile.tile.toNat,
          srcCore := 0, seq := 0, payload := natBytes v.toNat 8 })
    else none

def execSbStamp (d : BitVec 4) (s : State) : Result :=
  boxIssue (fun _ _ => false) 0 (fun _ => 1) s fun r s' =>
    match s'.recordBox (s'.clock.setWidth 32) with
    | some (v, t) => goOn (r.setB d v) t
    | none => s

def execSbEmit (d : BitVec 3) (a : BitVec 4) (s : State) : Result :=
  boxIssue (fun _ _ => false) 0 (fun _ => 2) s fun r s =>
    let k := (r.b a).toNat
    if !s.altPresent r.flow k then kernelTrap r 3 k s
    else goOn { r with emits := r.emits ++ [(k, r.y d)] } s

end Sys2Proof.Machine
end

