-- ==== Sys2Proof/Machine/Boundary.lean ====
section
/-!
DEFINITION. Boundaries and their commits, determinants at the holder, send logs, ckpt (13_healing.md, R409 to R430, R453,
R454, R479).
-/
namespace Sys2Proof.Machine

/-! ### The cores of a tile -/

/-- The cores of the tile in focus that are not at reset. -/
def State.coreNos (s : State) : List CoreId := s.coreNo :: s.others.map (·.1)

/-- Applies a change with each core of the tile in focus in turn. -/
def State.eachCore (s : State) (f : State → State) : State :=
  (s.coreNos.foldl (fun t c => f (t.focusCore c)) s).focusCore s.coreNo

/-- The cores of the tile in focus by number, rising. -/
def State.coreList (s : State) : List (CoreId × Core) := putCore s.others s.coreNo s.core

/-- Replaces the tile in focus and its cores. -/
def State.loadTile (s : State) (t : Tile) (cs : List (CoreId × Core)) : State :=
  { s with tile := t, core := findCore cs s.coreNo, others := dropCore cs s.coreNo }

/-- Changes a waybill. -/
def Wafer.setWaybill (w : Wafer) (l : TileNo) (f : Waybill → Waybill) : Wafer :=
  { w with healing := { w.healing with
      waybills := w.healing.waybills.map (fun b => if b.tile = l then f b else b) } }

/-- Changes the waybill of the tile in focus. -/
def State.mapWaybill (s : State) (f : Waybill → Waybill) : State :=
  { s with wafer := s.wafer.setWaybill s.tile.tile f }

/-! ### The size of the state area (R411, R479) -/

/-- Bytes of a core in the state area (R479). -/
def Core.areaBytes (c : Core) : Nat :=
  if c.run = .unbound then 8
  else
    6160 + 32 * c.validRows.length +
      64 * (c.eng.cards.length + (c.eng.cards.filter (fun k => match k.job with
        | .tvrow _ _ => true
        | _ => false)).length) +
      4360 * ((List.range 8).filter (fun i => c.eng.fresh.getLsbD i)).length + 96 * c.cpy.jobs.length

/-- Bytes of the signal box in the state area (R479). -/
def Box.areaBytes (b : Box) : Nat :=
  64 * b.freshFlows.length + 4 * b.freshWords.length +
    (if b.table.isEmpty then 0 else (flowIds.filter b.valid).foldl (fun n f => n + b.windowSize f) 0) +
    128 * b.queue.length + 32 * b.recs.length + 8

/-- Entries that a home slice holds (R479). -/
def Slice.heldCount (x : Slice) : Nat := x.hold.length + (x.runs.map List.length).foldl (· + ·) 0

/-- Bytes of the state area of the tile in focus (R479). -/
def State.areaBytes (s : State) : Nat :=
  let t := s.tile
  (s.allCores.map Core.areaBytes).foldl (· + ·) 0 + 8 * (8 - s.allCores.length) +
    64 * t.restored.length + 768 + 160 +
    64 * ((t.pool.toList.filter (fun e => e.state != .free)).length + t.inbound.length) +
    16 * t.monitors.length + 32 * (t.slices.toList.map Slice.heldCount).foldl (· + ·) 0 + 24 * t.marks.length +
    t.box.areaBytes + 16 * (s.junction.trees.toList.filter Option.isSome).length

/-- The dirty lines and the state area, in units of 256 bytes, reach EARLY (R411, R479). -/
def State.stagingFull (s : State) : Bool :=
  decide (s.tile.early ≤ s.tile.dirty.length + (s.areaBytes + 255) / 256)

/-! ### Asking for a boundary (R411, R442) -/

/-- A boundary of the tile in focus is requested; a replay defers it. -/
def State.requestBoundary (s : State) : State :=
  let s := { s with tile := { s.tile with closeAsked := true } }
  if s.tile.replay.isSome then s else s.updCores Core.askStop

/-- The state area and the dirty lines of the tile in focus have reached EARLY (R411). -/
def State.stagingDue (s : State) : Bool :=
  s.keepsWaybill && s.tile.replay.isNone && !s.tile.closeAsked && s.stagingFull

/-- Every tile whose sum has reached EARLY asks for its boundary (R411). -/
def State.askStaging (s : State) : State :=
  (s.siteIds.filter (fun x => (s.focusSite x).stagingDue)).foldl (fun s x => s.atSite x State.requestBoundary) s

/-- 2^LEN cycles have passed since the last boundary (R411). -/
def execIntervalTimer (site : SiteId) (s : State) : Result :=
  let s := s.focusSite site
  .next (if s.keepsWaybill && !s.tile.stopped && decide (s.tile.boundaryAt + 2 ^ field s.tile.ckctl 0 5 ≤ s.wafer.clock)
    then s.requestBoundary else s)

/-- The sender of an output that finds its log full asks for a boundary (R430). -/
def execCloseRequestArrival (id : Nat) (s : State) : Result :=
  match s.packet id with
  | some { msg := .closeRequest _, .. } =>
    s.takeAtJunction id fun _ s => if s.keepsWaybill && !s.tile.stopped then s.requestBoundary else s
  | _ => .next s

/-- ckpt (R453): a boundary is requested, and the core waits for its commit; a tile that keeps no waybill has none
to wait for. -/
def execCkpt (s : State) : Result :=
  let s := (s.skip 4).retire
  .next (if s.keepsWaybill then
      let s := { s with core := { s.core with commitWait := some (s.tile.intv.setWidth 32) } }
      s.requestBoundary
    else s)

/-! ### Taking a boundary (R412, R413, R421, R427, R450) -/

/-- The core stands at an instruction boundary with nothing on its way (R412, R213). -/
def Core.quiet (c : Core) : Bool :=
  (c.run != .running || c.pend.isEmpty) && !(c.inWfi && c.wake) && c.post.n == 0 && c.post.m == 0 && c.post.x == 0 &&
    !c.relaxedRows && c.acc.inbound.isEmpty && c.acc.flushing.isEmpty && c.acc.flight == 0 &&
    c.eng.cards.all (fun k => k.state != .started || (k.waits.isEmpty && (match k.job with
      | .tld _ => true
      | .tst _ => true
      | _ => false))) &&
    c.cpy.jobs.all (fun j => j.reads.isEmpty && j.waits.isEmpty && j.sent == j.prog)

/-- Waits on the tile's own words, on a counter and on a task fall before their instructions (R354, R366, R412). -/
def withdrawWaits (s : State) : State :=
  let s := (s.core.pend.filter (fun f => f.place.isNone && f.reply.isNone)).foldl abandonFetch s
  let cnt := match s.core.sync.cnt with
    | some w => if w.status.isSome then some w else none
    | none => none
  { s with core := { s.core with
      sync := { s.core.sync with cnt := cnt }, task := { s.core.task with joinWaits := false } } }

/-- What a core that is asked to stop does: its waits are withdrawn and its relaxed rows flushed. -/
def settleCore (s : State) : State := (withdrawWaits s).flushAll

/-- A slice performs what it has accepted. -/
def drainSlice (k : Nat) : Nat → State → State
  | 0, s => s
  | n + 1, s => if s.detRoom then drainSlice k n (applyNext none k s) else s

/-- The slices of the tile in focus perform what they have accepted. -/
def drainSlices (s : State) : State :=
  (List.range 8).foldl (fun s k => drainSlice k (s.slice none k).queue.length s) s

/-- The tile in focus can take its boundary now (R412, R416). -/
def State.boundaryReady (s : State) : Bool :=
  s.allCores.all Core.quiet && s.tile.box.run.isNone && s.tile.slices.toList.all (fun x => x.queue.isEmpty) &&
    (match s.wafer.waybill s.tile.tile with
      | some b => b.staged.isNone
      | none => true) && s.detRoom

/-- A core without what its place gives it: buffered lines and translations, a coupling, a request to stop. -/
def Core.portable (c : Core) : Core :=
  { c with tlb := [], walk := none, ibuf := [], fetchMiss := none, stopAsked := false, coupling := .none,
           commitWait := none, acc := { c.acc with flushed := false } }

/-- The tile, its cores and its junction's tree entries as the state area and the shadow hold them (R413), from
determinant n on. -/
def State.image (s : State) (n : Nat) : Image :=
  { tile := { s.tile with
      dets := [], detBase := n, confirmed := n, far := [], fills := [], tlb := [], replay := none, stopped := false,
      outMarks := [], fetched := [], boxMark := none, flagged := false, pausedAt := none, depotAsked := false },
    cores := s.coreList.map (fun p => (p.1, p.2.portable)), trees := s.junction.trees, clock := s.tile.pausedAt.getD s.wafer.clock }

/-- The output sequences of the tile in focus (R427). -/
def State.outNow (s : State) : List OutMark :=
  s.coreList.map (fun p =>
    { core := p.1, aseq := p.2.acc.aseq, mseq := p.2.sync.msgSeq, oseq := p.2.post.oseq })

/-- The holder learns of the output sequences (R427). -/
def State.reportMarks (s : State) : State :=
  let m := s.outNow
  s.mapWaybill (fun b => { b with marks := m, boxMark := s.tile.box.seq })

/-- The bytes of a range of HBM are replaced by an image's. -/
def Wafer.copyImage (w : Wafer) (a n : Nat) (m : Memory) : Wafer :=
  { w with hbm := Memory.writeCells (w.hbm.filter (fun c => decide (c.1 < a) || decide (a + n ≤ c.1))) (shiftCells a m) }

/-- A state area is written to HBM, in whole units of 256 bytes (R413, R419, R479; assumption 90). -/
def Wafer.writeArea (w : Wafer) (a : Nat) (img : Image) : Wafer :=
  let bytes := (List.range ((img.area + 255) / 256 * 256)).map (Config.areaByte w.free)
  { w with hbm := w.hbm.writeCells (cellsAt a bytes), free := w.free + 1 }

/-- The state record of a commit, and the shadow of a tile whose holder is in HBM (R416, R419). -/
def Wafer.writeRecord (w : Wafer) (b : Waybill) (img : Image) : Wafer :=
  let w := w.writeArea b.region img
  match b.holder with
  | .hbm => w.copyImage (b.region + 0x1200000) spadSize img.tile.mem
  | .buddy _ => w

/-- A depot image goes to the slot of its epoch, the two slots in turn (R419, R450). -/
def Wafer.writeSlot (w : Wafer) (b : Waybill) (epoch : BitVec 16) (img : Image) : Wafer :=
  let a := b.slots + 0x800000 * (epoch.toNat % 2)
  (w.copyImage a spadSize img.tile.mem).writeArea (a + spadSize) img

/-- The depot image of the tile in focus is written. -/
def State.writeDepot (s : State) (epoch : BitVec 16) (img : Image) : State :=
  match s.wafer.waybill s.tile.tile with
  | some b => { s with wafer := s.wafer.writeSlot b epoch img }
  | none => s

/-- A tile's boundary is its depot boundary of the open round (R450): the new epoch, and the image in a depot slot. -/
def takeDepot (img : Image) (s : State) : State :=
  match s.openRound with
  | some r =>
    if s.tile.depotAsked && !(r.closed.contains s.tile.tile) then
      let h := s.wafer.healing
      let l := s.tile.tile
      let s := { s with wafer := { s.wafer with healing := { h with
          rounds := h.rounds.map (fun k => if k == r then { k with closed := k.closed ++ [l] } else k) } } }
      (s.mapWaybill (fun b => { b with depots := b.depots.filter (fun d => d.1 != r.epoch) ++ [(r.epoch, img)] })).writeDepot
        r.epoch img
    else s
  | none => s

/-- The epoch that the boundary of the tile in focus opens: of the open round, where it is the tile's depot boundary; in a
replay that of the depot image that the boundary wrote in the original run (R410, R450). -/
def State.newEpoch (s : State) : Option (BitVec 16) :=
  let num : W32 := s.tile.intv.setWidth 32
  match s.tile.replay, s.openRound with
  | some _, _ =>
    (s.wafer.waybill s.tile.tile).bind (fun b =>
      (b.depots.find? (fun d => d.2.tile.intv.setWidth 32 == num + 1)).map (·.1))
  | none, some r => if s.tile.depotAsked && !(r.closed.contains s.tile.tile) then some r.epoch else none
  | none, none => none

/-- The epoch of a depot boundary enters INTV (R410, R450). -/
def State.enterEpoch (s : State) : State :=
  match s.newEpoch with
  | some e => { s with tile := { s.tile with intv := (s.tile.intv &&& 0xFFFFFFFF) ||| (zext64 e <<< 48) } }
  | none => s

/-- The number of the determinant after the boundary's own: in a replay from its log. -/
def State.afterBoundary (s : State) : Nat :=
  match s.tile.replay with
  | some (d :: _) => d.1 + 1
  | _ => s.detCount + 1

/-- The boundary's own record (R421): written, or in a replay taken from the log. -/
def State.noteBoundary (s : State) : State :=
  match s.tile.replay with
  | some ds => { s with tile := { s.tile with replay := some (ds.drop 1) } }
  | none =>
    s.noteDet
      { kind := .boundary, core := 0, slice := 0, pos := 0, srcKind := .core, src := s.tile.tile.toNat, srcCore := 0,
        seq := s.tile.intv.setWidth 32, payload := [],
        places := coreIds.map (fun c => (s.coreAt c).retired) }

/-- NUM advances, what is counted for an interval begins anew, and the far cache is emptied (R164, R410, R411, R413). -/
def State.nextInterval (s : State) : State :=
  let t := s.tile
  let num : W32 := t.intv.setWidth 32
  let s := { s with tile := { t with
      intv := (t.intv &&& 0xFFFF000000000000) ||| zext64 (num + 1),
      boundaryAt := s.wafer.clock, closeAsked := false, dirty := [], touched := [],
      box := { t.box with freshFlows := [], freshWords := [] } }.farEmpty }
  s.updCores (fun c => { c with eng := { c.eng with fresh := 0 } })

/-- The boundary of the tile in focus, taken as one step (R412, R413): its record, the state area, the new interval.
The image is staged at the holder until it commits. -/
def takeBoundary (s : State) : State :=
  let n := s.afterBoundary
  let area := s.areaBytes
  let live := s.tile.replay.isNone
  let s := s.noteBoundary.enterEpoch.nextInterval
  let s := if live then s.reportMarks else s
  let img := { s.image n with area := area }
  let s := s.updCores Core.unfollow
  let s := if live then takeDepot img s else s
  let s := s.mapWaybill (fun b => { b with staged := some (img, n) })
  { s with tile := { s.tile with depotAsked := false } }

/-- The ages of a core's rows go on after a pause of some cycles (R213). -/
def Core.shiftRows (c : Core) (d : Nat) : Core :=
  let row (r : Row) : Row := { r with since := r.since + d }
  { c with acc := { c.acc with rows := c.acc.rows.map (Option.map row), ring := c.acc.ring.map row,
                               resend := c.acc.resend.map row } }

/-- Every core of the tile in focus stands, or waits in an instruction: the tile is stopped for its boundary (R213). -/
def State.pause (s : State) : State :=
  if s.allCores.all (fun c => c.run != .running || c.stopAsked) && s.tile.pausedAt.isNone then
    { s with tile := { s.tile with pausedAt := some s.wafer.clock } }
  else s

/-- A core of the tile in focus is to leave (R366). -/
def Tile.calls (t : Tile) (c : Core) : Bool := t.leaving.any (fun l => l.called && l.takes c)

/-- The cores go on after a boundary (R412), but for those that are to leave (R366): the ages of their rows have stood
still meanwhile (R213). -/
def State.resumeCores (s : State) : State :=
  let d := s.wafer.clock - s.tile.pausedAt.getD s.wafer.clock
  let t := s.tile
  let s := s.updCores (fun c => { c.shiftRows d with stopAsked := t.calls c })
  { s with tile := { s.tile with pausedAt := none } }

/-- Each core has reached the position that the next record of a replay gives for its boundary (R442). -/
def State.boundaryReplayed (s : State) : Bool :=
  match s.tile.replay with
  | some ((_, d) :: _) =>
    d.kind == .boundary && coreIds.all (fun c => decide (d.places.getD c.toNat 0 ≤ (s.coreAt c).retired))
  | _ => false

/-- Teams that were saved away at the boundary of the tile in focus, or were never bound on it since: in a replay that
has come to it they are away again (R366). -/
def State.savedSince (s : State) (c : Core) : Bool :=
  s.wafer.saved.any (fun t => t.tile == s.tile.tile && some t.job == s.tile.job && t.num == s.tile.intv.setWidth 32 &&
    c.ofTeam t.team)

/-- The slots of teams that were saved away at this boundary are empty (R366). -/
def State.dropSaved (s : State) : State := s.updCores (fun c => if s.savedSince c then {} else c)

/-- The tile in focus stops, drains and takes its boundary when everything is quiet (R412). -/
def boundaryStep (s : State) : State :=
  let s := (drainSlices ((s.updCores Core.askStop).eachCore settleCore)).pause
  if s.boundaryReady then (takeBoundary s).dropSaved.resumeCores else s

/-- A boundary that was asked for is taken (R412); in a replay, at its recorded position (R442). -/
def execCheckpointBoundary (site : SiteId) (s : State) : Result :=
  let s := s.focusSite site
  .next (if s.tile.stopped || !s.keepsWaybill then s
    else
      match s.tile.replay with
      | none => if s.tile.closeAsked || s.tile.depotAsked then boundaryStep s else s
      | some _ => if s.boundaryReplayed then boundaryStep s else s)

/-! ### The commit (R416, R429) -/

/-- Bytes of a determinant record (R422). -/
def Det.bytes (d : Det) : List Byte :=
  let kind := match d.kind with
    | .message => 1
    | .reply => 2
    | .amo => 3
    | .bounce => 4
    | .recorded => 5
    | .engine => 6
    | .release => 7
    | .remoteWrite => 8
    | .flowPacket => 9
    | .conflict => 10
    | .boundary => 11
    | .injection => 12
  let n := d.payload.length
  let plen := if n = 0 then 0 else if n ≤ 8 then 1 else if n ≤ 16 then 2 else 3
  let size := if n = 0 then 0 else if n ≤ 8 then 8 else if n ≤ 16 then 16 else 32
  let srcKind := match d.srcKind with
    | .core => 0
    | .junction => 1
    | .rim => 2
    | .host => 3
    | .fabric => 4
    | .copy => 5
  natBytes (kind * 2 ^ 59 + d.core.toNat * 2 ^ 56 + plen * 2 ^ 54 + d.slice.toNat * 2 ^ 51 + d.pos % 2 ^ 48) 8 ++
    natBytes (srcKind * 2 ^ 61 + d.src % 2 ^ 13 * 2 ^ 48 + d.srcCore.toNat * 2 ^ 45 + d.seq.toNat) 8 ++
    natBytes (leNat d.payload) size

/-- Bytes of the uncommitted determinants of a waybill. -/
def Waybill.logBytes (b : Waybill) : Nat := (b.log.map (fun d => d.bytes.length)).foldl (· + ·) 0

/-- A record is appended to the determinant log's ring in HBM (R419, R422). -/
def Wafer.appendDet (w : Wafer) (b : Waybill) (d : Det) : Wafer :=
  let cells := (d.bytes.zipIdx b.logAt).map (fun p => (b.region + 0x100000 + p.2 % 2 ^ 24, p.1))
  let w := { w with hbm := w.hbm.writeCells cells }
  w.setWaybill b.tile (fun b => { b with log := b.log ++ [d], logAt := b.logAt + d.bytes.length })

/-! ### The deterministic merge (R206, R421) -/

/-- No record of the tile in focus waits for its holder, and it runs live: a merge may be recorded. -/
def State.mayMerge (s : State) : Bool :=
  !s.keepsWaybill || (!s.tile.stopped && s.tile.replay.isNone && s.tile.dets.isEmpty && s.tile.confirmed == s.detCount)

/-- Entries are held at the tile in focus for a merge. -/
def State.holdsFor (s : State) (job : BitVec 6) (ms : List (Nat × CoreId)) : Bool :=
  s.tile.slices.toList.any (fun x => !(x.takeHeld job ms).1.isEmpty)

/-- The merge at the tile in focus is recorded at its holder, with the position of each core (R206, R421). -/
def noteMerge (d : DomainKey) (s : State) : State :=
  match (if s.keepsWaybill then s.wafer.waybill s.tile.tile else none) with
  | none => s
  | some b =>
    let num := s.detCount
    let det : Det :=
      { kind := .remoteWrite, core := 0, slice := 0, pos := 0, srcKind := .junction, src := d.did.toNat, srcCore := 0,
        seq := 0, payload := [], places := coreIds.map (fun c => (s.coreAt c).retired) }
    let p : Packet :=
      { id := 0, line := .relief, origin := s.site, dest := .tile s.tile.tile, site := s.site, fromRim := true,
        msg := .mergeRound d }
    let w := s.wafer.appendDet b det
    let e : SentEntry := { src := none, dst := s.tile.tile, num := num, pkt := p }
    { s with tile := { s.tile with detBase := num + 1, confirmed := num + 1 },
             wafer := { w with healing := { w.healing with sent := w.healing.sent ++ [e] } } }

/-- The merge at the tile in focus, with its record. -/
def mergeHere (d : DomainKey) (ms : List (Nat × CoreId)) (s : State) : State :=
  mergeTile d.job ms (if s.holdsFor d.job ms then noteMerge d s else s)

/-- The merge applies what the members issued (R206); with nothing left to send again, the release goes out. -/
def execDeterministicMerge (d : DomainKey) (s : State) : Result :=
  .next (match s.wafer.barriers.find? (fun b => b.domain == d) with
    | some b =>
      let xs := s.jobSites d.job
      if b.phase = .merging && s.rootPresent b && xs.all (fun x => (s.focusSite x).mayMerge) then
        let ms := s.wafer.members d
        let s := s.atSites (mergeHere d ms) xs
        let s := s.wafer.rim.slices.foldl (mergeRim d.job ms) s
        if !(s.wafer.rowsAway d) && (s.memberSites d).all (fun m => (s.coreOfSite m.1 m.2).detRows.isEmpty) then releaseBarrier b s
        else { s with wafer := s.wafer.setPhase d .resending }
      else s
    | none => s)

/-- Who sent a packet, and its place among the source's sequences (R426): 0 ASEQ, 1 messages, 2 OSEQ. -/
def Msg.stamp : Msg → Option (CoreRef × Nat × W32)
  | .message m => if m.fromBox then none else some ({ tile := m.tile, core := m.core }, 1, m.seq)
  | .acc q => some (q.req.src, 0, q.req.seq)
  | .amo q => some (q.req.src, 0, q.req.seq)
  | .store r _ _ => some (r.src, 2, r.seq)
  | .stf r _ _ _ => some (r.src, 2, r.seq)
  | .put r _ _ _ _ => some (r.src, 2, r.seq)
  | .fullEmpty r _ _ _ _ => some (r.src, 2, r.seq)
  | .chunk r _ _ => some (r.src, 2, r.seq)
  | .setFlag r _ _ _ => some (r.src, 2, r.seq)
  | .rowStore r _ _ _ => some (r.src, 2, r.seq)
  | _ => none

/-- A commit notice goes to each sender of the interval (R416, R429). -/
def sendNotices (img : Image) (s : State) : State :=
  let mine := s.wafer.healing.sent.filter (fun e => e.dst == s.tile.tile && decide (e.num < img.tile.detBase))
  let srcs := (mine.filterMap (fun e => (e.pkt.msg.stamp).map (·.1))).eraseDups
  srcs.foldl (fun s c =>
    match findMark img.tile.marks c with
    | some m => s.launchPacket .relief (.tile c.tile) none (.commitNotice s.tile.tile c m.aseq m.mseq m.oseq)
    | none => s) s

/-- A tile or controller that keeps marks for the tile in focus learns of its commit (R427). -/
def sendCovers (img : Image) (s : State) : State :=
  let l := s.tile.tile
  let cs := img.cores.map (fun p => ({ tile := l, core := p.1 }, p.2))
  let holds (ms : List Mark) (c : CoreRef) : Bool := ms.any (fun m => m.src == c)
  let send (s : State) (d : Dest) (ms : List Mark) : State :=
    cs.foldl (fun s c =>
      if holds ms c.1 then
        s.launchPacket .relief d none (.commitNotice l c.1 (some c.2.acc.aseq) (some c.2.sync.msgSeq) (some c.2.post.oseq))
      else s) s
  let s := s.siteIds.foldl (fun s x => let t := s.tileAt x; send s (.tile t.tile) t.marks) s
  s.wafer.rim.marks.foldl (fun s p => send s (.controller p.1) p.2) s

/-- Entries whose packets carry no sequence of a core are freed with the receiver's commit. -/
def Wafer.freeReplies (w : Wafer) (l : TileNo) (n : Nat) : Wafer :=
  { w with healing := { w.healing with
      sent := w.healing.sent.filter (fun e => !(e.dst == l && decide (e.num < n) && e.pkt.msg.stamp.isNone)) } }

/-- The staged boundary of the tile in focus commits (R416): the state record and the shadow, the log, the notices, and the
cores that wait for it or for one before it, which was lost with its holder (R420). -/
def commitBoundary (b : Waybill) (img : Image) (n : Nat) (s : State) : State :=
  let num : W32 := img.tile.intv.setWidth 32 - 1
  let s := s.mapWaybill (fun b =>
    { b with committed := img, staged := none, applying := true, lost := false, log := b.log.drop (n - b.logBase),
             logBase := max n b.logBase })
  let s := { s with wafer := s.wafer.writeRecord b img }
  let s := sendCovers img (sendNotices img s)
  let s := { s with wafer := s.wafer.freeReplies s.tile.tile n, tile := { s.tile with flagged := false } }
  s.updCores (fun c => if c.commitWait.any (fun n => atMost n num) then { c with commitWait := none } else c)

/-- The holder has every line and the state record (R416), once it has applied the commit before. -/
def execBoundaryCommit (site : SiteId) (s : State) : Result :=
  let s := s.focusSite site
  .next (match s.wafer.waybill s.tile.tile with
    | some b =>
      match b.staged with
      | some (img, n) =>
        if b.applying || s.tile.stopped || decide (b.logBase + b.log.length < n) then s else commitBoundary b img n s
      | none => s
    | none => s)

/-- The holder at a site has applied a commit to the shadow (R416). -/
def execShadowApplyComplete (site : SiteId) (s : State) : Result :=
  .next { s with wafer := { s.wafer with healing := { s.wafer.healing with
    waybills := s.wafer.healing.waybills.map (fun b =>
      let here := match b.holder with
        | .buddy x => x == site
        | .hbm => attachment 10 (b.region / 4096 % 40) == site
      if here then { b with applying := false } else b) } } }

/-- A sender frees the entries that a receiver's commit covers (R429). -/
def freeEntries (from_ : TileNo) (src : CoreRef) (aseq mseq oseq : Option W32) (l : List SentEntry) : List SentEntry :=
  l.filter (fun e =>
    match e.pkt.msg.stamp with
    | some (c, k, seq) =>
      !(e.dst == from_ && c == src && underMark (if k = 0 then aseq else if k = 1 then mseq else oseq) seq)
    | none => true)

/-- The marks of a source that its own commit covers are freed (R427). -/
def freeMarks (src : CoreRef) (aseq mseq oseq : Option W32) (l : List Mark) : List Mark :=
  l.filter (fun m =>
    !(m.src == src && m.bseq.isNone && m.aseq.all (underMark aseq) && m.mseq.all (underMark mseq) &&
      m.oseq.all (underMark oseq) && m.half.all (fun h => underMark oseq h.1)))

/-- A commit notice arrives: of a receiver, which frees the send log, or of a source, which frees its marks (R427,
R429). -/
def execCommitNoticeArrival (id : Nat) (s : State) : Result :=
  match s.packet id with
  | some { msg := .commitNotice from_ src aseq mseq oseq, .. } =>
    s.takeAtJunction id fun p s =>
      if src.tile = from_ then
        match p.dest with
        | .controller c => s.setRimMarks c (freeMarks src aseq mseq oseq (s.rimMarks c))
        | _ => { s with tile := { s.tile with marks := freeMarks src aseq mseq oseq s.tile.marks } }
      else
        { s with wafer := { s.wafer with healing := { s.wafer.healing with
            sent := freeEntries from_ src aseq mseq oseq s.wafer.healing.sent } } }
  | _ => .next s

/-! ### Determinants at the holder (R422) -/

/-- A record reaches the holder (R422): appended when it is the next, and confirmed. A log of 12 MiB asks for a
boundary (R411). -/
def performDeterminant (p : Packet) (s : State) : State :=
  match p.msg with
  | .determinant l num d =>
    match s.wafer.waybill l with
    | none => s
    | some b =>
      let s := if num = b.logBase + b.log.length then { s with wafer := s.wafer.appendDet b d } else s
      let s := s.rimSend p.site .relief (.tile l) (.confirm l num)
      match s.wafer.waybill l, s.carrier l with
      | some b, some x =>
        if 12 * 2 ^ 20 ≤ b.logBytes then s.atSite x State.requestBoundary else s
      | _, _ => s
  | _ => s

/-- The holder of a packet's tile lives: its junction serves its site, or it is a rim controller. -/
def execDeterminantRecordArrival (id : Nat) (s : State) : Result :=
  .next (match s.packet id with
    | some p =>
      match p.msg, p.arrived with
      | .determinant _ _ _, some n =>
        if s.behind p n || (!p.dest.rim && (s.junctionAt p.site).passThrough) then s
        else performDeterminant p (s.dropPacket id)
      | _, _ => s
    | none => s)

/-- A confirmation frees the queue up to its record (R422). -/
def execDeterminantConfirmation (id : Nat) (s : State) : Result :=
  match s.packet id with
  | some { msg := .confirm _ num, .. } =>
    s.takeAtJunction id fun _ s =>
      let t := s.tile
      let n := max t.confirmed (num + 1)
      { s with tile := { t with confirmed := n, dets := t.dets.drop (n - t.detBase), detBase := max n t.detBase } }
  | _ => .next s

/-- Every 256 cycles the output sequences are reported (R427); a replay reports none of its own. -/
def execOutputMarkReport (site : SiteId) (s : State) : Result :=
  let s := s.focusSite site
  .next (if s.tile.stopped || s.tile.replay.isSome then s else s.reportMarks)

/-- A heartbeat reaches the holder (R434). -/
def execHeartbeat (site : SiteId) (s : State) : Result :=
  let s := s.focusSite site
  .next (if s.tile.stopped || s.junction.passThrough then s
    else
      let n := s.tile.beat + 1
      let s := { s with tile := { s.tile with beat := n } }
      let now := s.wafer.clock
      s.mapWaybill (fun b => { b with beat := n, beatAt := now }))

end Sys2Proof.Machine
end

