-- ==== Sys2Proof/Machine/Healing.lean ====
section
/-!
DEFINITION. Recovery of failed tiles (13_healing.md, R432 to R452): machine checks, fences, holds, reserves, restoration,
replay, and losses of holders, cranes, links and power domains.
-/
namespace Sys2Proof.Machine

/-! ### The fence (R439, R445, R448) -/

/-- Applies a change to the header of a request. -/
def Msg.mapReq (f : Req → Req) : Msg → Msg
  | .store r sp c => .store (f r) sp c
  | .stf r t a w => .stf (f r) t a w
  | .load r sp l => .load (f r) sp l
  | .line r sp b => .line (f r) sp b
  | .put r t c a b => .put (f r) t c a b
  | .fullEmpty r k t a d => .fullEmpty (f r) k t a d
  | .waita r t a d => .waita (f r) t a d
  | .acc q => .acc { q with req := f q.req, parts := q.parts.map (fun p => (f p.1, p.2)) }
  | .amo q => .amo { q with req := f q.req }
  | .chunkRead r c sp b n => .chunkRead (f r) c sp b n
  | .chunk r sp c => .chunk (f r) sp c
  | .setFlag r c t a => .setFlag (f r) c t a
  | .rowStore r c sp l => .rowStore (f r) c sp l
  | .rowLoad r c sp l => .rowLoad (f r) c sp l
  | .window r t a n v => .window (f r) t a n v
  | .device r a v => .device (f r) a v
  | m => m

/-- A packet with the replay flag (R443 to R445). -/
def Msg.flagged (m : Msg) : Msg :=
  match m with
  | .message x => .message { x with replay := true }
  | m => m.mapReq (fun r => { r with replay := true })

/-- What the tile's own box delivered in an interval that the tile's last commit does not hold: a replay runs the
kernel again (R406). -/
def State.rerun (s : State) (interval : Option W32) : Bool :=
  match interval, s.wafer.waybill s.tile.tile with
  | some n, some b => decide ((b.committed.tile.intv.setWidth 32).toNat ≤ n.toNat)
  | _, _ => false

/-- Packets for the tile in focus go back to the junctions before it, to be sent again (R445). -/
def State.turnBack (s : State) : State :=
  let mine (p : Packet) : Bool := p.dest == .tile s.tile.tile
  { s with wafer := { s.wafer with net := (s.wafer.net.filter (fun p => !(mine p && s.rerun p.boxed))).map (fun p =>
      if mine p && p.arrived.isSome then { p with arrived := none, msg := p.msg.flagged } else p) } }

/-- A packet that its sender still holds for the tile in focus (R445). -/
def State.heldBy (s : State) (src : CoreRef) (boxed : Option W32) (m : Msg) : Packet :=
  { id := 0, line := .relief, origin := (s.carrier src.tile).getD s.site, dest := .tile s.tile.tile, site := s.site,
    processed := boxed.isSome, boxed := boxed, msg := m.flagged }

/-- Held packets are sent to the tile in focus again, before those that have not reached it (R24, R445). -/
def State.sendAgain (ps : List Packet) (s : State) : State :=
  let waits (p : Packet) : Bool := p.dest == .tile s.tile.tile && p.arrived.isNone
  let all := (ps ++ s.wafer.net.filter waits).zipIdx.map (fun p => { p.1 with id := s.wafer.nextId + p.2 })
  { s with wafer := { s.wafer with net := s.wafer.net.filter (fun p => !(waits p)) ++ all,
                                   nextId := s.wafer.nextId + all.length } }

/-- Packets that have left the tile in focus, or have not (R423): those whose determinants were never confirmed are
lost with the tile, which forms them again; a request that such a packet answers comes again from its sender, which
still holds it (R445). -/
def State.cutOff (s : State) : State :=
  let mine (p : Packet) : Bool := p.origin == s.site && !p.fromRim
  let lost (p : Packet) : Bool := mine p && decide (s.tile.confirmed < p.gate)
  let again := (s.wafer.net.filter lost).filterMap (fun p => p.asks)
  let held := again.map (fun m => s.heldBy (m.unrecorded.getD s.me) none m)
  let net := s.wafer.net.filter (fun p => !(lost p))
  let s := { s with wafer := { s.wafer with net := net.map (fun p => if mine p then { p with gate := 0 } else p) } }
  s.sendAgain held

/-- Requests that the tile in focus has accepted and neither performed nor acknowledged are sent to it again (R445):
those in its slices' queues, and those that wait in its tables and not in its last image. -/
def State.resendHeld (s : State) : State :=
  let qs := (s.tile.slices.toList.flatMap (fun x => x.queue)).filter (fun q => !(s.rerun q.boxed))
  let as := qs.map (fun q => s.heldBy q.req.src q.boxed (match q.op with
    | .acc _ => .acc q
    | .amo _ _ => .amo q))
  match s.wafer.waybill s.tile.tile with
  | none => s.sendAgain as
  | some b =>
    let old := b.committed.tile
    let ws := s.tile.waiters.filter (fun w => w.remote && !(old.waiters.contains w))
    let ms := s.tile.monitors.filter (fun m => m.remote && !(old.monitors.contains m))
    let l := s.tile.tile
    s.sendAgain (as ++ ws.map (fun w => s.heldBy w.req.src none (.fullEmpty w.req w.kind l w.a w.data)) ++
      ms.map (fun m => s.heldBy m.req.src none (.waita m.req l m.a m.value)))

/-- A logical tile is stopped for a recovery and held everywhere (R439, R448). -/
def stopTile (s : State) : State :=
  let h := s.wafer.healing
  let l := s.tile.tile
  let s := { s with tile := { s.tile with stopped := true },
                    wafer := { s.wafer with healing := { h with holds := insertTile l h.holds } } }
  s.turnBack.resendHeld.cutOff
where
  insertTile (l : TileNo) (ls : List TileNo) : List TileNo := if ls.contains l then ls else ls ++ [l]

/-- Tiles of the members' rectangles of the stateful flows that a tile hosts (R407, R448). -/
def Tile.flowMembers (t : Tile) : List TileNo :=
  if t.box.table.isEmpty then []
  else
    let fs := flowIds.filter (fun f => t.box.valid f && t.box.stateful f)
    let ns := fs.flatMap (fun f =>
      let (t0, w, h) := t.box.members f
      (List.range h).flatMap (fun j => (List.range w).map (fun i => t0 + j * t.width + i)))
    ((ns.map (fun n => t.logical n)).eraseDups).filter (· != t.tile)

/-- The tiles that a restoration of a tile takes in, the flows of the members included. -/
def State.widen (s : State) : Nat → List TileNo → List TileNo
  | 0, l => l
  | n + 1, l =>
    let more := l.flatMap (fun t => match s.carrier t with
      | some x => (s.tileAt x).flowMembers
      | none => [])
    let new := more.eraseDups.filter (fun t => !(l.contains t))
    if new.isEmpty then l else s.widen n (l ++ new)

/-- The crane that serves a quadrant (R12, R447). -/
def State.craneOf (s : State) (q : BitVec 2) : BitVec 2 := vget s.wafer.healing.cranes q.toNat q

/-- The failure is noted at the waybill (R449). -/
def State.noteFailure (s : State) : State :=
  let now := s.wafer.clock
  s.mapWaybill (fun b => { b with failures := b.failures ++ [now] })

/-- The tile in focus takes its HBM buddy as holder, and a boundary at once (R420): the records that were not
confirmed are sent again. -/
def holderLost (s : State) : State :=
  let s := s.mapWaybill (fun b =>
    { b with holder := .hbm, lost := true, staged := none, applying := false })
  match s.wafer.waybill s.tile.tile with
  | none => s
  | some b =>
    let dets := s.tile.dets.zipIdx
    let s := dets.foldl (fun s d =>
      s.launchPacket .relief b.dest none (.determinant s.tile.tile (s.tile.detBase + d.2) d.1)) s
    s.requestBoundary

/-- The tiles whose holder is a site. -/
def State.tilesHeldBy (s : State) (x : SiteId) : List SiteId :=
  (s.wafer.healing.waybills.filter (fun b => b.holder == .buddy x)).filterMap (fun b => s.carrier b.tile)

/-- The crane fences the site in focus (R439 step 1): its junction passes through, its tile is stopped and held, with
the members of its stateful flows (R448); the tiles that it held a shadow for lose their holder (R420). A site without
a logical tile, or in the boot, is failed at once; a fused one stays fused (R14). -/
def fence (s : State) : State :=
  let q := quadrant s.site
  let s := { s with junction := { s.junction with passThrough := true } }
  let s := s.atSites holderLost (s.tilesHeldBy s.site)
  if s.junction.status = .fused then s
  else if s.wafer.healing.recoveries.any (fun r => r.tile == s.tile.tile && r.failed == s.site) then s
  else if !s.keepsWaybill then { s with junction := { s.junction with status := .failed } }
  else
    let l := s.tile.tile
    let members := (s.widen 64 [l]).filter (· != l)
    let r : Recovery := { tile := l, failed := s.site, crane := s.craneOf q, members := members }
    let s := s.noteFailure
    let h := s.wafer.healing
    let s := { s with wafer := { s.wafer with healing := { h with
        recoveries := h.recoveries.filter (fun k => k.tile != l) ++ [r] } } }
    let s := stopTile s
    s.atSites stopTile (members.filterMap s.carrier)

/-- A machine check of a tile, with its record unless its own unit has written it (R432, R433). -/
def checkSite (err : ErrorReport) (s : State) : State :=
  fence (if s.tile.stopped then s else s.machineCheck false err)

/-- An uncorrected error of the junction in focus (R432): a machine check of its tile, but that the junction of a fused
or failed site is fenced itself and dead from then on (R468). -/
def checkJunction (err : ErrorReport) (s : State) : State :=
  let s := s.junctionError (newError 3 true false err s.clock)
  if s.junction.status = .fused || s.junction.status = .failed then
    let h := s.wafer.healing
    { s with junction := { s.junction with passThrough := true },
             wafer := { s.wafer with healing := { h with
               dead := if h.dead.contains s.site then h.dead else h.dead ++ [s.site] } } }
  else fence s

/-- The shadow unit's prediction agrees with the lane's result, both in the layout of f32 (R217). -/
def shadowAgrees (p r : W32) : Bool :=
  let zero (v : W32) : Bool := v &&& 0x7FFFFFFF == 0
  let nan (v : W32) : Bool := field v 23 8 == 255 && field v 0 23 != 0
  let top (v : W32) : Nat := field v 15 16
  (zero p && zero r) || (nan p && nan r) ||
    (p.getLsbD 31 == r.getLsbD 31 && decide (top p ≤ top r + 1) && decide (top r ≤ top p + 1))

/-- What a check compares has come apart (R217, R274, R480): the shadow unit's prediction and the lane's result, two
residues, two exponents. Every other source reports an error of its own. -/
def errorDiffers (e : ErrorReport) : Bool :=
  match e.src.toNat with
  | 6 => field e.synd 0 2 != field e.synd 8 2
  | 7 => field e.synd 0 10 != field e.synd 16 10
  | 8 => !shadowAgrees (e.synd.setWidth 32) (BitVec.ofNat 32 (e.synd.toNat / 2 ^ 32))
  | _ => true

/-- A corrected error of the tile in focus is recorded; a far-cache line that fails is discarded, and an
instruction-buffer line is fetched again (R432). Lines count from the most recently used (assumption 86). -/
def correctedError (err : ErrorReport) (s : State) : State :=
  let s := s.tileError (newError 1 false false err s.clock)
  match err.src.toNat with
  | 3 => { s with tile := { s.tile with far := s.tile.far.eraseIdx (field err.addr 0 10) } }
  | 5 =>
    s.updCore (BitVec.ofNat 3 (field err.addr 16 3)) (fun c => { c with ibuf := c.ibuf.eraseIdx (field err.addr 0 6) })
  | _ => s

/-- An uncorrectable error of the hidden SRAM of the site in focus (R432), whose first 7 MiB are the shadow and the
staging (assumption 86): there it is deferred, and the tile that the site holds takes a boundary, whose image in this
model is always the full one; in the send log it is a machine check. -/
def hiddenError (err : ErrorReport) (s : State) : State :=
  if err.addr.toNat < 7 * 2 ^ 20 then
    let s := s.tileError (newError 2 false false err s.clock)
    s.atSites State.requestBoundary (s.tilesHeldBy s.site)
  else checkSite err s

/-- A sector of HBM goes bad: the read that meets it fails (R437). -/
def breakSector (err : ErrorReport) (s : State) : State :=
  let b : BadSector := { a := err.addr.toNat, src := err.src, synd := err.synd }
  { s with wafer := { s.wafer with rim := { s.wafer.rim with failing := s.wafer.rim.failing ++ [b] } } }

/-- A check of the device finds an error at a site (R432 to R437). -/
def execMachineCheck (site : SiteId) (err : ErrorReport) (s : State) : Result :=
  let s := s.focusSite site
  .next (match err.src.toNat, err.corrected with
    | 10, true => s.junctionError (newError 1 false false err s.clock)
    | 10, false => checkJunction err s
    | 13, _ => checkJunction err s
    | 14, true =>
      s.controllerError (err.addr.toNat / 4096 % 40) (newError 1 false false err s.clock)
    | 14, false => breakSector err s
    | 15, _ => breakSector err s
    | 16, true => s.tileError (newError 1 false false err s.clock)
    | 16, false => holderLost (s.tileError (newError 2 false false err s.clock))
    | 11, _ => s
    | 17, _ => s
    | 2, false => hiddenError err s
    | n, c =>
      if c || n = 3 || n = 5 then correctedError err s
      else if errorDiffers err then checkSite err s else s)

/-- No heartbeat with a new count for WDLIM × 1,024 cycles (R434). -/
def execWatchdogTimeout (site : SiteId) (s : State) : Result :=
  let s := s.focusSite site
  .next (match s.wafer.waybill s.tile.tile with
    | some b =>
      if s.keepsWaybill && decide (b.beatAt + field s.tile.ckctl 32 16 * 1024 ≤ s.wafer.clock) then
        checkSite { src := 12, addr := 0, synd := BitVec.ofNat 64 b.beat } s
      else s
    | none => s)

/-! ### The reserve and the points change (R439, R441, R449, R452) -/

/-- Changes a recovery. -/
def State.mapRecovery (s : State) (l : TileNo) (f : Recovery → Recovery) : State :=
  let h := s.wafer.healing
  { s with wafer := { s.wafer with healing := { h with
      recoveries := h.recoveries.map (fun r => if r.tile = l then f r else r) } } }

/-- The recovery of a logical tile. -/
def State.recovery (s : State) (l : TileNo) : Option Recovery :=
  s.wafer.healing.recoveries.find? (fun r => r.tile == l)

/-- The power domain of a site (R13, R480 SRC 17). -/
def powerDomain (x : SiteId) : Nat := 8 * field x 9 3 + field x 3 3

/-- Hops between two sites. -/
def hops (a b : SiteId) : Nat :=
  let d (m n : Nat) : Nat := m - n + (n - m)
  d (field a 0 6) (field b 0 6) + d (field a 6 6) (field b 6 6)

/-- The site where the holder of a tile lies, if it is a site. -/
def Waybill.buddy (b : Waybill) : Option SiteId :=
  match b.holder with
  | .buddy x => some x
  | .hbm => none

/-- The reserves that a tile may move to (R418, R441): unclaimed, and outside the power domain of its buddy. -/
def State.reserves (s : State) (b : Waybill) : List SiteId :=
  s.siteIds.filter (fun x =>
    let j := s.junctionAt x
    j.status == .reserve && j.located && !j.passThrough &&
      !(s.wafer.healing.recoveries.any (fun r => r.site == some x)) && b.buddy.map powerDomain != some (powerDomain x))

/-- A site is nearer to another, or as near and earlier by y and then x (R441). -/
def nearer (c a b : SiteId) : Bool :=
  decide (hops c a < hops c b) || (hops c a == hops c b && decide (a.toNat < b.toNat))

/-- The nearest of some sites. -/
def nearest (c : SiteId) (l : List SiteId) : Option SiteId :=
  l.foldl (fun m x => match m with
    | none => some x
    | some y => if nearer c x y then some x else some y) none

/-- The reserve that the crane chooses (R441): of its own quadrant, then of the next ones in turn. -/
def State.chooseReserve (s : State) (b : Waybill) (failed : SiteId) : Option SiteId :=
  let q := quadrant failed
  ([0, 1, 2, 3] : List (BitVec 2)).findSome? (fun k =>
    nearest failed ((s.reserves b).filter (fun x => quadrant x == q + k)))

/-- The same tile has failed three times within 2^30 cycles (R449). -/
def Waybill.failsOften (b : Waybill) (clock : Nat) : Bool :=
  decide (3 ≤ (b.failures.filter (fun t => decide (clock < t + 2 ^ 30))).length)

/-- Posts a notice to the host (R472). -/
def State.post (s : State) (n : Notice) : State := { s with wafer := { s.wafer with notices := s.wafer.notices ++ [n] } }

/-- A site to which the dispatcher may move a tile (R30, R418): a reserve, or one that carries another tile, in service and
outside the power domain of the tile's buddy. -/
def State.mayCarry (s : State) (b : Waybill) (failed x : SiteId) : Bool :=
  let j := s.junctionAt x
  x != failed && (j.status == .reserve || j.status == .logical) && !j.passThrough &&
    !(s.wafer.healing.recoveries.any (fun r => r.site == some x)) && b.buddy.map powerDomain != some (powerDomain x)

/-- Every junction has acknowledged the hold (R439 step 2): the reserve is chosen (R441). Without one, or when the tile
fails too often, the dispatcher's own choice of a site is taken (R30, R449, R452). -/
def execHoldComplete (tile : TileNo) (place : Option SiteId) (s : State) : Result :=
  .next (match s.recovery tile, s.wafer.waybill tile with
    | some r, some b =>
      if r.phase ≠ .fenced then s
      else
        let place := place.filter (s.mayCarry b r.failed)
        let go (s : State) (x : SiteId) : State := s.mapRecovery tile (fun r => { r with phase := .held, site := some x })
        if b.failsOften s.wafer.clock && place.isSome then go (s.post (.replaced tile)) (place.getD 0)
        else
          match s.chooseReserve b r.failed, place with
          | some x, _ => go s x
          | none, some x => go (s.post (.capacityLoss s.wafer.healing.holds.length)) x
          | none, none => s
    | _, _ => s)

/-! ### Combining trees (R329) -/

/-- A tree entry is free: it holds nothing, or a domain of a launch that has ended. -/
def Wafer.treeFree (w : Wafer) : Option DomainKey → Bool
  | none => true
  | some k => (w.launch k.job k.launch).isNone

/-- The domain takes the lowest free entry of a junction. -/
def addEntry (k : DomainKey) (x : SiteId) (s : State) : Option State :=
  ((List.range 16).find? (fun i => s.wafer.treeFree (vget (s.junctionAt x).trees i none))).map (fun i =>
    s.atSite x (fun s => { s with junction := { s.junction with trees := vset s.junction.trees i (some k) } }))

/-- The tree of a domain whose members stand at some sites, its root first: an entry in every junction of the routes
to the root. -/
def addTree (k : DomainKey) (members : List SiteId) (s : State) : Option State :=
  match members with
  | [] => some s
  | root :: _ =>
    (s.siteIds.filter (fun x => members.any (fun m => onRoute m root x))).foldl (fun o x => o.bind (addEntry k x))
      (some s)

/-- The domains of levels 1 to 3 of a launch with their job tiles. -/
def Launch.domains (l : Launch) : List (DomainKey × List Nat) :=
  [1, 2, 3].flatMap (fun n =>
    let b := l.block n
    (List.range (l.w / b.1 * (l.h / b.2))).map (fun d =>
      ({ job := l.job, launch := l.num, level := BitVec.ofNat 2 n, did := BitVec.ofNat 12 d, alone := none },
        l.domainTiles n d)))

/-- The tree of a domain is built again for members at some sites, its root first: the union of their routes now, each
junction that was on it keeping its entry. -/
def rebuildTree (k : DomainKey) (members : List SiteId) (s : State) : State :=
  match members with
  | [] => s
  | root :: _ =>
    s.siteIds.foldl (fun s x =>
      let has := (s.junctionAt x).trees.toList.contains (some k)
      if members.any (fun m => onRoute m root x) then (if has then s else (addEntry k x s).getD s)
      else if has then
        s.atSite x (fun s => { s with junction := { s.junction with
          trees := s.junction.trees.map (fun e => if e = some k then none else e) } })
      else s) s

/-- The trees of the domains of a tile's job that reach a failed site are built again with another site in its place. -/
def rebuildTrees (job : BitVec 6) (failed x : SiteId) (s : State) : State :=
  let ds := (s.wafer.launches.filter (fun l => l.job == job)).flatMap Launch.domains
  ds.foldl (fun s d =>
    let at_ := d.2.filterMap (s.jobTileSite job)
    if at_.contains failed then rebuildTree d.1 (at_.map (fun y => if y = failed then x else y)) s else s) s

/-- DOMn with TREE naming the entry of the junction where its tile stands now (R326, R329). -/
def retree (old new : Vector (Option DomainKey) 16) (v : Word) : Word :=
  match vget old (field v 24 8) none with
  | some k =>
    match new.toList.findIdx? (· == some k) with
    | some i => (v &&& ~~~0xFF000000) ||| BitVec.ofNat 64 (i * 2 ^ 24)
    | none => v
  | none => v

/-- A bind record whose domains name their entries anew. -/
def retreeRecord (f : Word → Word) (r : BindRecord) : BindRecord :=
  { r with dom1 := f r.dom1, dom2 := f r.dom2, dom3 := f r.dom3 }

/-- A core whose domains name their entries anew; level 0 has none. -/
def Core.retree (c : Core) (f : Word → Word) : Core :=
  { c with slot := c.slot.map (retreeRecord f),
           sync := { c.sync with dom := #v[vget c.sync.dom 0 0, f (vget c.sync.dom 1 0), f (vget c.sync.dom 2 0),
                                            f (vget c.sync.dom 3 0)] } }

/-- The new entry stands in every junction, held packets are resolved anew, and the trees of the tile's domains are built
again (R329, R439 step 4). -/
def movePoints (r : Recovery) (x : SiteId) (s : State) : State :=
  let l := r.tile
  let ids := (if s.siteIds.contains x then [] else [x]) ++ s.siteIds
  let old := (s.junctionAt r.failed).trees
  let s := s.atSites (fun s =>
    let j := s.junction
    let full := !j.points.isEmpty || s.site == x
    let j := if full then { j with points := setPoint l.toNat (some x) j.points } else j
    let j := { j with map := setMap x.toNat 1 (setMap r.failed.toNat 3 j.map) }
    { s with junction := if s.site = x then { j with status := .logical } else j }) ids
  let s := match (s.tileAt r.failed).job with
    | some job => rebuildTrees job r.failed x s
    | none => s
  let f := retree old (s.junctionAt x).trees
  let away (t : SavedTeam) : SavedTeam :=
    if t.tile = l then { t with slots := t.slots.map (fun p => (p.1, retreeRecord f p.2)) } else t
  { s with wafer := { s.wafer with
      saved := s.wafer.saved.map away,
      net := s.wafer.net.map (fun p => if p.dest = .tile l then { p with site := x } else p) } }

/-- The points change has reached every junction (R439 step 4). -/
def execPointsChangeComplete (tile : TileNo) (s : State) : Result :=
  .next (match s.recovery tile with
    | some r =>
      match r.phase, r.site with
      | .held, some x => (movePoints r x s).mapRecovery tile (fun r => { r with phase := .moved })
      | _, _ => s
    | none => s)

/-! ### Restoration (R213, R275, R311, R358, R439 step 5, R448) -/

/-- The ages of a core's rows and its tasks' counts go on from an image's clock (R213). -/
def Core.shift (c : Core) (d : Nat) : Core :=
  { c.shiftRows d with
    task := { c.task with since := c.task.since + d,
                          inline := c.task.inline.map (fun i => { i with since := i.since + d }) } }

/-- PERTURB and COPYINJ are restored disarmed (R439, R446), and so is a card whose perturbation a machine check has shown;
one that nothing detects, and an injection, stay with their job (R275, R311). -/
def Core.disarm (c : Core) : Core :=
  let off (v : Word) : Word := v &&& 0x7FFFFFFFFFFFFFFF
  { c with
    eng := { c.eng with
      perturb := off c.eng.perturb,
      cards := c.eng.cards.map (fun k => if k.perturb.getLsbD 49 then k else { k with perturb := off k.perturb }) },
    cpy := { c.cpy with inj := off c.cpy.inj } }

/-- The log of a waybill with the numbers of its records. -/
def Waybill.numbered (b : Waybill) : List (Nat × Det) := b.log.zipIdx.map (fun p => (b.logBase + p.2, p.1))

/-- What stands at a site after its tile's image is loaded, ready to replay (R439, R442, R443): a team that was saved away
at the image's boundary stays away, and a request to leave goes on (R366); the overflow queue in HBM is the image's
(R369). -/
def restoreImage (b : Waybill) (bank : ErrBank) (leave : Option Leave) (s : State) : State :=
  let img := b.committed
  let t := { img.tile with
    leaving := leave.map (fun l => { l with called := false }), detBase := b.logBase, confirmed := b.logBase, replay := some b.numbered,
    bank := bank, outMarks := b.marks.map (fun m => (m.core, m.aseq, m.mseq, m.oseq)), boxMark := some b.boxMark,
    boundaryAt := s.wafer.clock, beat := b.beat }
  let d := s.wafer.clock - img.clock
  let f := retree img.trees s.junction.trees
  let s := (s.loadTile t (img.cores.map (fun p => (p.1, ((p.2.disarm).shift d).retree f)))).dropSaved
  let s := { s with wafer := { s.wafer with hbm := s.wafer.hbm.writeCells t.queueCells } }
  let now := s.wafer.clock
  s.mapWaybill (fun b => { b with staged := none, applying := false, beatAt := now })

/-- Packets that reached the failed tile and whose records never reached the holder are sent to it again (R445). -/
def resendUnrecorded (b : Waybill) (s : State) : State :=
  let stop := b.logBase + b.log.length
  let gone (e : SentEntry) : Bool := e.dst == b.tile && decide (stop ≤ e.num)
  let again := (s.wafer.healing.sent.filter gone).filter (fun e =>
    match e.pkt.msg with
    | .reply _ _ _ _ => false
    | .fill _ _ _ _ _ => false
    | .rowReply _ _ _ _ => false
    | .chunkData _ _ _ _ => false
    | .cancelAnswer _ _ _ => false
    | _ => !(s.rerun e.pkt.boxed))
  let s := { s with wafer := { s.wafer with healing := { s.wafer.healing with
      sent := s.wafer.healing.sent.filter (fun e => !(gone e)) } } }
  s.sendAgain (again.map (fun e =>
    { e.pkt with dest := .tile s.tile.tile, site := s.site, arrived := none, gate := 0, msg := e.pkt.msg.flagged }))

/-- No record of a tile is still on its way to its holder. -/
def State.recordsSettled (s : State) (l : TileNo) : Bool :=
  !(s.wafer.net.any (fun p => match p.msg with
    | .determinant t _ _ => t == l
    | _ => false))

/-- A member of the recovery is set back on its own site (R448). -/
def restoreMember (l : TileNo) (s : State) : State :=
  match s.carrier l, s.wafer.waybill l with
  | some x, some b => s.atSite x (fun s => resendUnrecorded b (restoreImage b s.tile.bank s.tile.leaving s))
  | _, _ => s

/-- The old site keeps its own bank (R436) and nothing else of the tile. -/
def vacate (s : State) : State := s.loadTile { bank := s.tile.bank } []

/-- A tile that comes to a site which already carries another is saved beside it (R30, R371). -/
def placeTile (b : Waybill) (bank : ErrBank) (leave : Option Leave) (s : State) : State :=
  if s.keepsWaybill && s.tile.tile ≠ b.tile then
    let t := restoreImage b bank leave s
    let a : AwayTile := { site := s.site, image := { tile := t.tile, cores := t.coreList, clock := s.wafer.clock } }
    let h := t.wafer.healing
    { s with wafer := { t.wafer with healing := { h with away := h.away ++ [a] } } }
  else restoreImage b bank leave s

/-- The image and the state record are loaded (R439 step 5), and the replay begins. A tile whose holder was lost with
it waits for the recovery of its job (R449). -/
def execRestorationComplete (tile : TileNo) (s : State) : Result :=
  .next (match s.recovery tile, s.wafer.waybill tile with
    | some r, some b =>
      match r.phase, r.site with
      | .moved, some x =>
        if b.lost || !s.recordsSettled tile || r.members.any (fun l => !s.recordsSettled l) then s
        else
          let old := s.tileAt r.failed
          let s := s.atSite r.failed vacate
          let s := s.atSite x (fun s => resendUnrecorded b (placeTile b old.bank old.leaving s))
          let s := r.members.foldl (fun s l => restoreMember l s) s
          s.mapRecovery tile (fun r => { r with phase := .restored })
      | _, _ => s
    | _, _ => s)

/-! ### Replay (R442 to R445) -/

/-- The packet of a determinant, in its sender's log (R424, R428). -/
def State.entryOf (s : State) (num : Nat) : Option Packet :=
  (s.wafer.healing.sent.find? (fun e => e.dst == s.tile.tile && e.num == num)).map (·.pkt)

/-- A request of an accumulate that the log holds is performed at once, its marks with it. -/
def replayAccumulate (p : Packet) (q : AccReq) (s : State) : Option State :=
  if q.det then performDeterministic p s
  else some (performRequest none q (s.setHomeMarks none (advanceMarks (s.homeMarks none) q)))

/-- The answer that a record holds goes to the request at its place (R442). -/
def replayReply (p : Packet) (d : Det) (s : State) : Option State :=
  let c := s.coreAt d.core
  let at_ (l : List Fetch) : Option Nat :=
    match l[d.seq.toNat]? with
    | some f => if f.reply.isNone then some f.id else none
    | none => none
  match p.msg with
  | .reply dst _ rep k => (at_ c.pend).bind (fun f => performReply { p with msg := .reply dst f rep k } s)
  | .fill dst f sp b v =>
    match c.pend[d.seq.toNat]? with
    | some x => if x.reply.isNone then performFill { p with msg := .fill dst x.id sp b v } s else none
    | none =>
      let asked := s.tile.fills.find? (fun x => x.2.1 == sp && x.2.2.1 == b)
      performFill { p with msg := .fill dst (asked.elim f (·.1)) sp b v } s
  | .rowReply dst k _ rep =>
    (at_ (((c.card k).map (·.waits)).getD [])).bind (fun f => performReply { p with msg := .rowReply dst k f rep } s)
  | .chunkData dst k _ rep =>
    (at_ (((c.copyOf k).map (·.reads)).getD [])).bind (fun f => performReply { p with msg := .chunkData dst k f rep } s)
  | .cancelAnswer _ _ a =>
    match c.abandoned[d.seq.toNat]? with
    | some x =>
      some (s.updCore d.core (fun c => { c with
        abandoned := c.abandoned.map (fun y => if y.fetch = x.fetch then { y with answer := some a } else y) }))
    | none => none
  | _ => none

/-- What a record of the log does to the tile (R442); none when its unit cannot take it yet. -/
def replayPacket (p : Packet) (d : Det) (s : State) : Option State :=
  match p.msg with
  | .message _ => performMessage p s
  | .store _ (.window _) _ => performWindow p s
  | .store _ _ _ => performWrite p s
  | .stf _ _ _ _ => performWrite p s
  | .rowStore _ _ _ _ => performWrite p s
  | .put _ _ _ _ _ => performPut p s
  | .fullEmpty _ _ _ _ _ => performFullEmpty p s
  | .chunk _ _ _ => performChunk p s
  | .setFlag _ _ _ _ => performChunk p s
  | .window _ _ _ _ _ => performWindow p s
  | .acc q => replayAccumulate p q s
  | .amo q => some (performRequest none q s)
  | .bounce _ _ => performBounce p s
  | .release b _ => releaseAgain b d.core s
  | .mergeRound m => some (mergeTile m.job (s.wafer.members m) s)
  | _ => replayReply p d s

/-- The unit that a record belongs to has reached its position (R442). -/
def State.reached (s : State) (d : Det) : Bool :=
  match d.kind with
  | .remoteWrite =>
    decide (d.pos ≤ vget s.tile.sliceCount d.slice.toNat 0) && d.runs.all (fun n => decide (n ≤ s.tile.box.runs)) &&
      coreIds.all (fun c => decide (d.places.getD c.toNat 0 ≤ (s.coreAt c).retired))
  | .conflict => decide (d.pos < vget s.tile.sliceCount d.slice.toNat 0)
  | .flowPacket => decide (s.tile.box.queue.length < 16)
  | .injection => true
  | .reply =>
    decide (d.pos ≤ (s.coreAt d.core).retired) &&
      coreIds.all (fun c => decide (d.places.getD c.toNat 0 ≤ (s.coreAt c).moment))
  | _ => decide (d.pos ≤ (s.coreAt d.core).retired)

/-- A record whose payload is a descriptor must be fetched from its sender first (R424, R442). -/
def needsFetch (p : Packet) : Bool :=
  match p.msg.kept with
  | some n => decide (8 < n) && !p.msg.isMessage
  | none => false

/-- A packet of the log enters the signal box (R406). -/
def replayFlow (p : Packet) (s : State) : State :=
  match p.msg.header.bind (fun _ => s.tile.box.flowOf p) with
  | some f => s.mapBox (fun b => { b with queue := b.queue ++ [(f, p)] })
  | none => s

/-- The payload of a record is asked for once (R424, R447). -/
def askPayload (p : Packet) (num : Nat) (s : State) : State :=
  let from_ := (s.tileAt p.origin).tile
  let m : Msg := .sendLogFetch s.tile.tile from_ num
  if s.wafer.net.any (fun q => q.msg == m) then s else s.launchPacket .relief (.site p.origin) none m

/-- The packet of a record as the tile's box has delivered it again in the replay (R406). -/
def State.delivered (s : State) (p : Packet) : Option Packet :=
  s.wafer.net.find? (fun q => q.boxed.isSome && q.dest == .tile s.tile.tile && q.msg.flagged == p.msg.flagged)

/-- The record of a packet is applied (R442): one that the box delivered comes from the box's own replay (R406). -/
def replayRecord (p : Packet) (d : Det) (s : State) : Option State :=
  if s.rerun p.boxed then (s.delivered p).bind (fun q => replayPacket p d (s.dropPacket q.id))
  else replayPacket p d s

/-- The next record of a replay is applied when its unit has reached it (R442): its kinds for recorded values and for
completions are taken by the units themselves, a boundary's by the boundary. None: nothing to apply yet. -/
def replayNext (s : State) : Option State :=
  match s.tile.replay with
  | some ((num, d) :: rest) =>
    let drop (s : State) : State := { s with tile := { s.tile with replay := some rest } }
    if d.kind = .recorded || d.kind = .engine || !s.reached d then none
    else if d.kind = .boundary then (if s.boundaryReplayed then some (boundaryStep s) else none)
    else if d.kind = .conflict || d.kind = .injection then some (drop s)
    else if d.kind = .bounce && d.payload.isEmpty then
      some (drop ((flushAged (d.seq.setWidth 5) (s.focusCore d.core)).focusCore s.coreNo))
    else
      match s.entryOf num with
      | none => some (drop s)
      | some p =>
        if needsFetch p && !(s.tile.fetched.contains num) then
          (if s.wafer.net.any (fun q => q.msg == .sendLogFetch s.tile.tile (s.tileAt p.origin).tile num) then none
           else some (askPayload p num s))
        else if d.kind = .flowPacket then some (drop (replayFlow p s))
        else (replayRecord p d s).map drop
  | _ => none

/-- In a replay a kernel waits for the type 4 stores that came between the runs before it (R405, R406). -/
def Tile.kernelHolds (t : Tile) : Bool := (t.replay.getD []).any (fun d => d.2.runs == some t.box.runs)

/-- In a replay a core waits for the records of its position (R442): messages, bounces, releases, completions and
boundaries. -/
def State.replayHolds (s : State) : Bool :=
  match s.tile.replay with
  | some ds =>
    ds.any (fun d =>
      match d.2.kind with
      | .boundary => decide (d.2.places.getD s.coreNo.toNat 0 ≤ s.core.retired)
      | .remoteWrite => !d.2.places.isEmpty && decide (d.2.places.getD s.coreNo.toNat 0 ≤ s.core.retired)
      | .reply => !d.2.places.isEmpty && decide (d.2.places.getD s.coreNo.toNat 0 ≤ s.core.moment)
      | .message => d.2.core == s.coreNo && decide (d.2.pos ≤ s.core.retired)
      | .bounce => d.2.core == s.coreNo && decide (d.2.pos ≤ s.core.retired)
      | .release =>
        d.2.core == s.coreNo && decide (d.2.pos ≤ s.core.retired) && decide (s.core.bst (d.2.seq.setWidth 2) = 1)
      | .engine => d.2.core == s.coreNo && decide (d.2.pos ≤ s.core.retired)
      | _ => false)
  | none => false

/-- An access at the tile in focus, which replays, comes at a position that the log gives to another, or does not come at
its own (R176, R425, R442): a conflict record ties a place among the accesses of a slice to one among those of a source. -/
def State.outOfTurn (s t : State) : Bool :=
  let n (x : State) (d : Det) : Nat := vget x.tile.sliceCount d.slice.toNat 0
  let crosses (k a b : Nat) : Bool := decide (a ≤ k) && decide (k < b)
  match s.tile.replay with
  | some ((num, d) :: r) =>
    (d.kind == .remoteWrite && d.places.isEmpty && crosses d.pos (n s d) (n t d)) ||
      ((num, d) :: r).any (fun x => x.2.kind == .conflict &&
        crosses x.2.pos (n s x.2) (n t x.2) != crosses x.2.seq.toNat (s.tile.madeBy x.2.src) (t.tile.madeBy x.2.src))
  | _ => false

/-- A tile has applied the last record of its log. -/
def State.replayDone (s : State) (l : TileNo) : Bool :=
  match s.carrier l with
  | some x => (s.tileAt x).replay == some []
  | none => s.wafer.healing.away.any (fun a => a.image.tile.tile == l && a.image.tile.replay == some [])

/-- A tile after its replay (R444): its packets carry the replay flag until its next commit. -/
def Tile.live (stop : Nat) (t : Tile) : Tile :=
  { t with replay := none, flagged := true, detBase := stop, confirmed := stop, dets := [], outMarks := [],
           fetched := [], boxMark := none }

/-- The tile in focus runs live (R444); what it was asked for meanwhile, a boundary of an open depot round included, is
served now (R442, R450). -/
def goLive (stop : Nat) (s : State) : State :=
  let s := { s with tile := s.tile.live stop }
  let asked := s.openRound.any (fun r => !(r.closed.contains s.tile.tile))
  let s := { s with tile := { s.tile with depotAsked := asked } }
  if asked || s.tile.closeAsked then s.requestBoundary else s

/-- A tile of a recovery goes live where it stands, or where it is saved beside another (R30). -/
def resumeTile (l : TileNo) (s : State) : State :=
  let stop := match s.wafer.waybill l with
    | some b => b.logBase + b.log.length
    | none => 0
  match s.carrier l with
  | some x => s.atSite x (goLive stop)
  | none =>
    let live (a : AwayTile) : AwayTile :=
      if a.image.tile.tile = l then { a with image := { a.image with tile := a.image.tile.live stop } } else a
    { s with wafer := { s.wafer with healing := { s.wafer.healing with away := s.wafer.healing.away.map live } } }

/-- The replay has ended and the tile resumes, with its members (R439 step 7, R444, R448): the holds end and the old
site is failed. -/
def execReplayEnd (tile : TileNo) (s : State) : Result :=
  .next (match s.recovery tile with
    | some r =>
      let all := r.tile :: r.members
      if r.phase = .restored && all.all s.replayDone then
        let s := all.foldl (fun s l => resumeTile l s) s
        let s := s.atSite r.failed (fun s => { s with junction := { s.junction with status := .failed } })
        let h := s.wafer.healing
        { s with wafer := { s.wafer with healing := { h with
            holds := h.holds.filter (fun l => !(all.contains l)),
            recoveries := h.recoveries.filter (fun k => k.tile != tile) } } }
      else s
    | none => s)

/-- A sender answers a replaying tile's fetch of a payload (R424, R447). -/
def execSendLogFetch (id : Nat) (s : State) : Result :=
  match s.packet id with
  | some { msg := .sendLogFetch from_ _ entry, .. } =>
    s.takeAtJunction id fun _ s =>
      match s.carrier from_ with
      | some x => s.atSite x (fun s => { s with tile := { s.tile with fetched := s.tile.fetched ++ [entry] } })
      | none => s
  | _ => .next s

/-! ### Losses of holders and cranes (R420, R447) -/

/-- The buddy at a site fails while its tiles live (R420). -/
def execHolderLoss (site : SiteId) (s : State) : Result :=
  .next (s.atSites holderLost (s.tilesHeldBy site))

/-- A crane fails, and the next takes over its quadrants and recoveries (R447). -/
def execCraneTakeover (crane : BitVec 2) (s : State) : Result :=
  let h := s.wafer.healing
  let next := crane + 1
  .next { s with wafer := { s.wafer with healing := { h with
    cranes := h.cranes.map (fun c => if c = crane then next else c),
    recoveries := h.recoveries.map (fun r => if r.crane = crane then { r with crane := next } else r) } } }

/-! ### Links and power (R25, R432, R477, R480) -/

/-- The number of a link port, and of a line (R480). -/
def portNo : Port → Nat
  | .north => 0
  | .east => 1
  | .south => 2
  | .west => 3

/-- A flit fails its check (R25, R432): resent and recorded as corrected, or with the retries exhausted a machine
check of the junction, which is one of its tile. -/
def execFlitCrcFailure (site : SiteId) (port : Port) (line : Line) (exhausted : Bool) (s : State) : Result :=
  let s := s.focusSite site
  let retries := Config.hopRetries s.wafer.free
  let s := { s with wafer := { s.wafer with free := s.wafer.free + 1 } }
  let err : ErrorReport :=
    { src := 10, addr := BitVec.ofNat 64 (portNo port + (if line = .relief then 4 else 0)), synd := retries }
  .next (if exhausted then checkJunction err s
    else s.junctionError (newError 1 false false err s.clock))

/-- SYND of a power domain fault (R480). -/
def faultCode : PowerFault → Nat
  | .regulator => 1
  | .overCurrent => 2
  | .temperature => 3

/-- The sites of a power domain (R13). -/
def domainSites (d : Nat) : List SiteId :=
  (List.range 64).map (fun k => BitVec.ofNat 12 ((d / 8 * 8 + k / 8) * 64 + d % 8 * 8 + k % 8))

/-- A site that has lost its power: fenced, with no record of its own (R432). Its shadow and staging are gone. -/
def losePower (s : State) : State := fence { s with tile := { s.tile with stopped := true } }

/-- A power domain loses its power (R432, R477): one record in the domain's bank, and a machine check of every site. -/
def execPowerDomainFault (domain : BitVec 6) (kind : PowerFault) (s : State) : Result :=
  let d := domain.toNat
  let bank := match s.wafer.healing.domainBanks.find? (fun b => b.1 == d) with
    | some b => b.2
    | none => Vector.replicate 4 {}
  let e := newError 3 true false
    { src := 17, addr := BitVec.ofNat 64 d, synd := BitVec.ofNat 64 (faultCode kind) } s.clock
  let r := bank.add e
  let s := { s with wafer := { s.wafer with healing := { s.wafer.healing with
      domainBanks := putKey s.wafer.healing.domainBanks d r.1 } } }
  let s := s.postError (8192 + d) e r.2
  let s := s.atSites losePower (domainSites d)
  .next (s.atSites holderLost ((domainSites d).flatMap s.tilesHeldBy))

/-- Idle cycles before matrix and copy jobs (R477): timing alone. -/
def execPowerLimitExceeded (s : State) : Result := .next s

/-- Idle cycles in a domain at 105 °C (R477): timing alone. -/
def execTemperatureThrottle (_domain : BitVec 6) (s : State) : Result := .next s

end Sys2Proof.Machine
end

