-- ==== Sys2Proof/Machine/Depot.lean ====
section
/-!
DEFINITION. Depot rounds and depot recovery (13_healing.md, R450, R451), and the fabric ports (15_bringup.md, R474).
-/
namespace Sys2Proof.Machine

/-! ### Rounds (R450) -/

/-- Changes a bound job. -/
def Wafer.setJob (w : Wafer) (j : BitVec 6) (f : Job → Job) : Wafer :=
  { w with jobs := w.jobs.map (fun k => if k.job = j then f k else k) }

/-- A bound job. -/
def Wafer.job (w : Wafer) (j : BitVec 6) : Option Job := w.jobs.find? (fun k => k.job == j)

/-- The tile in focus is asked for its depot boundary (R450). -/
def askDepot (s : State) : State := { s with tile := { s.tile with depotAsked := true } }.requestBoundary

/-- LEN of the first of some sites, or its value at reset (R409). -/
def State.lenOf (s : State) (l : List SiteId) : Nat :=
  match l with
  | [] => 20
  | x :: _ => field (s.tileAt x).ckctl 0 5

/-- 64 × 2^LEN cycles after the last round completed, the next one opens (R450). -/
def execDepotRoundOpen (job : BitVec 6) (s : State) : Result :=
  .next (match s.wafer.job job with
    | none => s
    | some j =>
      let h := s.wafer.healing
      let sites := s.jobSites job
      if h.rounds.any (fun r => r.job == job && !r.complete) ||
          decide (s.wafer.clock < j.depotAt + 64 * 2 ^ s.lenOf sites) then s
      else
        let r : DepotRound := { job := job, epoch := j.epoch + 1, clock := s.wafer.clock }
        let s := { s with wafer := { s.wafer with healing := { h with rounds := h.rounds ++ [r] } } }
        s.atSites askDepot sites)

/-- A packet of the newer epoch makes the tile take its depot boundary first (R450). -/
def execDepotInducedBoundary (id : Nat) (s : State) : Result :=
  .next (match s.packet id with
    | some p =>
      if p.arrived.isNone || p.dest.rim then s
      else
        let s := s.focusSite p.site
        if s.tile.stopped || s.tile.replay.isSome || !s.induces p then s else boundaryStep (askDepot s)
    | none => s)

/-- No request of the old epoch of a job is on its way or waits in a queue. -/
def State.epochLeft (s : State) (job : BitVec 6) (old : Bool) : Bool :=
  let tileOf (x : SiteId) : Bool := (s.tileAt x).job == some job
  s.wafer.net.any (fun p => p.msg.crosses && !p.fromRim && tileOf p.origin && p.epoch == old) ||
    (s.jobSites job).any (fun x => (s.tileAt x).slices.toList.any (fun k => k.queue.any (fun q => q.epoch == old))) ||
    s.wafer.rim.slices.any (fun k => k.2.queue.any (fun q => q.req.job == job && q.epoch == old))

/-- Every tile has committed its depot boundary and nothing of the old epoch is left (R450): the records of the
round before are freed. -/
def execDepotRoundComplete (job : BitVec 6) (s : State) : Result :=
  .next (match s.wafer.healing.rounds.find? (fun r => r.job == job && !r.complete) with
    | none => s
    | some r =>
      let h := s.wafer.healing
      let mine := h.waybills.filter (fun b => b.job == job)
      if mine.all (fun b => r.closed.contains b.tile && b.staged.isNone) && !(s.epochLeft job (!r.epoch.getLsbD 0)) then
        let rounds := (h.rounds.filter (fun (k : DepotRound) => !(k.job == job && k.complete))).map
          (fun k => if k == r then { k with complete := true } else k)
        let waybills := h.waybills.map (fun (b : Waybill) =>
          if b.job = job then
            { b with depots := b.depots.filter (fun d => d.1 == r.epoch),
                     channel := b.channel.filter (fun c => c.1 == r.epoch), channelAt := 0 }
          else b)
        let s := { s with wafer := { s.wafer with healing := { h with rounds := rounds, waybills := waybills } } }
        let now := s.wafer.clock
        { s with wafer := s.wafer.setJob job (fun j => { j with epoch := r.epoch, depotAt := now }) }
      else s)

/-! ### Depot recovery (R451) -/

/-- The failed tiles of a job with the sites that they move to; none while one has nowhere to go. -/
def moveFailed (job : BitVec 6) (s : State) : Option State :=
  let rs := s.wafer.healing.recoveries.filter (fun r => (s.wafer.waybill r.tile).any (fun b => b.job == job))
  rs.foldl (fun o r =>
    o.bind (fun s =>
      match s.wafer.waybill r.tile with
      | none => some s
      | some b =>
        match r.phase, r.site with
        | .moved, some _ => some s
        | .restored, some _ => some s
        | _, site =>
          match site.orElse (fun _ => s.chooseReserve b r.failed) with
          | some x => some ((movePoints r x s).mapRecovery r.tile (fun r => { r with phase := .moved, site := some x }))
          | none => none)) (some s)

/-- The HBM of a job is set back to the line of a round (R451 step 3). -/
def Wafer.setBack (w : Wafer) (r : DepotRound) : Wafer :=
  let lines := r.lines.flatMap (fun l => cellsAt (256 * l.1) (lineBytes l.2))
  { w with hbm := (w.hbm.writeCells lines).writeCells r.late }

/-- The tile of a waybill, loaded from its depot image where it stands now (R451 step 2); the overflow queue in HBM is
the image's (R369). -/
def loadDepot (b : Waybill) (img : Image) (s : State) : State :=
  let t := { img.tile with bank := s.tile.bank, boundaryAt := s.wafer.clock, beat := b.beat }
  let d := s.wafer.clock - img.clock
  let f := retree img.trees s.junction.trees
  let s := s.loadTile t (img.cores.map (fun p => (p.1, (p.2.shift d).retree f)))
  let s := { s with wafer := { s.wafer with hbm := s.wafer.hbm.writeCells t.queueCells } }
  let now := s.wafer.clock
  s.mapWaybill (fun b =>
    { b with committed := img, staged := none, applying := false, lost := false, log := [],
             logBase := img.tile.detBase, beatAt := now, depots := b.depots.filter (fun d => d.2 == img) })

/-- The packets of a tile's channel record, at its site in their recorded order, before any other input (R451
step 4). -/
def deliverChannel (l : List Packet) (s : State) : State :=
  l.foldl (fun s p =>
    let q := { p with id := s.wafer.nextId, site := s.site, arrived := some s.wafer.arrivals, gate := 0 }
    { s with wafer := { s.wafer with
        net := s.wafer.net ++ [q], nextId := s.wafer.nextId + 1, arrivals := s.wafer.arrivals + 1 } }) s

/-- Where a logical tile stands, after its move if it has failed. -/
def State.siteOf (s : State) (l : TileNo) : Option SiteId :=
  match (s.recovery l).bind Recovery.site with
  | some x => some x
  | none => s.carrier l

/-- One tile of a depot recovery. -/
def recoverTile (epoch : BitVec 16) (s : State) (b : Waybill) : State :=
  match s.siteOf b.tile, b.depots.find? (fun d => d.1 == epoch) with
  | some x, some d =>
    let s := match s.recovery b.tile with
      | some r => s.atSite r.failed (fun s => vacate { s with junction := { s.junction with status := .failed } })
      | none => s
    s.atSite x (fun s =>
      deliverChannel ((b.channel.filter (fun c => c.1 == epoch)).map (·.2)) (loadDepot b d.2 s))
  | _, _ => s

/-- The arrivals of a job's barriers stand as the images' cores show them. -/
def countAgain (job : BitVec 6) (s : State) : State :=
  let bs := s.wafer.barriers.filter (fun b => b.domain.job != job)
  let ms := s.wafer.treeMarks.filter (fun m => m.domain.job != job)
  let s := { s with wafer := { s.wafer with barriers := bs, treeMarks := ms } }
  s.atSites (fun s => s.eachCore (fun s =>
    ([0, 1, 2, 3] : List (BitVec 2)).foldl (fun s n =>
      if s.core.slot.isSome && s.core.bst n = 1 then
        let b : BarrierMsg :=
          { domain := s.domain n, member := (s.tile.jt.toNat, s.coreNo), src := s.me, seq := 0, det := true,
            known := [], replay := false }
        { s with wafer := s.wafer.count b }
      else s) s)) (s.jobSites job)

/-- A packet of a job: from one of its tiles or to one. -/
def State.ofJob (s : State) (ts : List TileNo) (p : Packet) : Bool :=
  ts.contains (s.tileAt p.origin).tile ||
    match p.dest with
    | .tile l => ts.contains l
    | _ => false

/-- The whole job rolls back to its last completed round (R451). -/
def execDepotRecovery (job : BitVec 6) (s : State) : Result :=
  .next (match s.wafer.healing.rounds.find? (fun r => r.job == job && r.complete), moveFailed job s with
    | some r, some s =>
      let bs := s.wafer.healing.waybills.filter (fun b => b.job == job)
      let ts := bs.map (·.tile)
      let s := s.post (.depot job (BitVec.ofNat 64 r.clock))
      let net := s.wafer.net.filter (fun p => !(s.ofJob ts p))
      let rim := s.wafer.rim
      let slices := rim.slices.map (fun k =>
        (k.1, { k.2 with queue := k.2.queue.filter (fun q => q.req.job != job) }))
      let s := { s with wafer := { s.wafer.setBack r with net := net, rim := { rim with slices := slices } } }
      let s := bs.foldl (recoverTile r.epoch) s
      let h := s.wafer.healing
      let rounds := (h.rounds.filter (fun (k : DepotRound) => k.job != job)) ++ [{ r with lines := [], late := [] }]
      let s := { s with wafer := { s.wafer with healing := { h with
        sent := h.sent.filter (fun e => !(ts.contains e.dst)), holds := h.holds.filter (fun l => !(ts.contains l)),
        recoveries := h.recoveries.filter (fun k => !(ts.contains k.tile)), rounds := rounds } } }
      let now := s.wafer.clock
      countAgain job { s with wafer := s.wafer.setJob job (fun j => { j with epoch := r.epoch, depotAt := now }) }
    | _, _ => s)

/-! ### Fabric ports (R474) -/

/-- A port has trained with its partner (R474): the stations set the masks, and a lost peer is back. -/
def execLinkTraining (port : BitVec 7) (peer : BitVec 8) (s : State) : Result :=
  let rim := s.wafer.rim
  let put (l : List (BitVec 7 × BitVec 8)) : List (BitVec 7 × BitVec 8) :=
    l.filter (fun p => decide (p.1.toNat < port.toNat)) ++ (port, peer) ::
      l.filter (fun p => decide (port.toNat < p.1.toNat))
  .next { s with wafer := { s.wafer with
    rim := { rim with fabric := put rim.fabric, lost := rim.lost.filter (· != peer) } } }

/-- A port's retries are exhausted (R474): it leaves every mask, and its requests are sent again with the replay
flag. -/
def execFabricPortLoss (port : BitVec 7) (s : State) : Result :=
  let rim := s.wafer.rim
  let x := attachment 32 port.toNat
  let isPeer (d : Dest) : Bool := match d with
    | .fabric _ _ => true
    | _ => false
  .next { s with wafer := { s.wafer with
    rim := { rim with fabric := rim.fabric.filter (fun p => p.1 != port) },
    net := s.wafer.net.map (fun p =>
      if isPeer p.dest && p.site = x then { p with arrived := none, msg := p.msg.flagged } else p) } }

/-- The core and the number of a blocking access to a peer. -/
def Msg.blocks : Msg → Option (CoreRef × Nat)
  | .load r _ _ => some (r.src, r.fetch)
  | .line r _ _ => some (r.src, r.fetch)
  | .amo q => some (q.req.src, q.req.fetch)
  | _ => none

/-- A peer has had no live port for 2^24 cycles (R474): the host is told, and blocking accesses that wait are answered
as unreachable; posted ones wait on. -/
def execPeerUnreachable (peer : BitVec 8) (s : State) : Result :=
  let rim := s.wafer.rim
  .next (if rim.fabric.any (fun p => p.2 == peer) then s
    else
      let waits (p : Packet) : Bool := match p.dest with
        | .fabric w _ => w == peer && p.msg.blocks.isSome
        | _ => false
      let ps := s.wafer.net.filter waits
      let s := { s with wafer := { s.wafer with
        rim := { rim with lost := if rim.lost.contains peer then rim.lost else rim.lost ++ [peer] },
        net := s.wafer.net.filter (fun p => !(waits p)),
        notices := s.wafer.notices ++ [Notice.peerUnreachable peer] } }
      ps.foldl (fun s p =>
        match p.msg.blocks with
        | some (c, f) => s.rimSend p.site .relief (.tile c.tile) (.reply c f .unreachable .reply)
        | none => s) s)

end Sys2Proof.Machine
end

