-- ==== Sys2Proof/Machine/Save.lean ====
section
/-!
DEFINITION. The team save area (11_tasks.md, R368; R289, R314): what a core writes to HBM when its team is saved, and what
is read back when it is restored.
-/
namespace Sys2Proof.Machine

/-! ### Writing (R366 step 6, R368) -/

/-- The bytes of dwords. -/
def wordsBytes (l : List Word) : List Byte := l.flatMap (fun w => natBytes w.toNat 8)

/-- STATE of the control block (R368). -/
def Core.stateWord (c : Core) : Word :=
  let b (x : Bool) (n : Nat) : Nat := if x then 2 ^ n else 0
  BitVec.ofNat 64 (c.level.bits.toNat + b c.wake 2 + b (c.run == .halted) 3 + b (c.run == .trapped) 4
    + b (c.run == .idleServer) 5 + (List.range 4).foldl (fun n i => n + (vget c.sync.bst i 0).toNat * 2 ^ (6 + 2 * i)) 0
    + c.eng.mwgt.toNat * 2 ^ 14 + b c.race.detmode 18 + c.task.inline.length * 2 ^ 19)

/-- The 32 dwords of the control block of the core in focus (R368). -/
def State.controlBlock (s : State) : List Word :=
  let c := s.core
  let k := c.task
  [c.fp.frm, zext64 c.fp.fflags, c.fp.gs, zext64 c.fp.qtype, zext64 c.fp.vprog, c.acc.sdctl, c.sdocc,
    zext64 c.acc.accmode, c.win.wsp, c.win.wslim, c.wdepth, c.trap.tvec, c.trap.tcause, c.trap.tpc, c.trap.tval,
    c.trap.tstat, c.eng.perturb, c.cpy.inj, c.stepWord, c.pc, c.stateWord,
    BitVec.ofNat 64 (c.post.oseq.toNat * 2 ^ 32 + c.acc.aseq.toNat), k.served,
    BitVec.ofNat 64 (if k.counting then s.wafer.clock - k.since else 0)] ++ c.eng.tshape.toList

/-- The kinds of abandoned request in order. -/
def BlockKind.index : BlockKind → Nat
  | .load => 0
  | .gather => 1
  | .amo => 2
  | .ldf => 3
  | .ldfe => 4
  | .ste => 5
  | .ldtag => 6
  | .settag => 7
  | .waita => 8
  | .device => 9

/-- A resolved target as a word (R368), laid out as a leaf entry names it (assumption 16): the address in [47:0], the
port or wafer in [55:48], the type in [63:60]. -/
def Place.word (p : Place) : Word :=
  let w (kind sel a : Nat) : Word := BitVec.ofNat 64 (kind * 2 ^ 60 + sel * 2 ^ 48 + a % 2 ^ 48)
  match p.space with
  | .hbm => w 0 0 p.a
  | .spad l => w 1 0 (l.toNat * 2 ^ 23 + p.a)
  | .host k => w 2 k.toNat p.a
  | .peer k => w 3 k.toNat p.a
  | .window l => w 4 0 (l.toNat * 2 ^ 23 + p.a)
  | .device => w 5 0 p.a

/-- The record of an abandoned request (R367, R368): kind and tag, target, operands. -/
def Core.abandonedBytes (c : Core) : List Byte :=
  match c.abandoned with
  | [] => List.replicate 64 0
  | a :: _ =>
    let code := (Config.abandonedCode a.kind.index).toNat % 15 + 1
    wordsBytes [BitVec.ofNat 64 (code + a.tag.toNat * 2 ^ 32), a.place.word, a.ops.1, a.ops.2, 0, 0, 0, 0]

/-- The side word of a vector register (R92). -/
def VReg.side (v : VReg) : Word :=
  BitVec.ofNat 64 (v.scales.toNat * 2 ^ 8 + (if v.special then 32 else 0) + v.tag.code)

/-- The 64 bytes of a waiting message (R368). -/
def Message.savedBytes (m : Message) : List Byte :=
  natBytes m.data.toNat 32 ++
    wordsBytes [BitVec.ofNat 64 (m.jt.toNat + m.core.toNat * 2 ^ 12 + m.q.toNat * 2 ^ 16 + 2 ^ 31 + m.seq.toNat * 2 ^ 32),
      0, 0, 0]

/-- The four words of a siding row, or zero (R202, R368). -/
def State.rowBytes (s : State) (r : Option Row) : List Byte :=
  match r with
  | some r => [0, 1, 2, 3].flatMap (fun n => natBytes (s.rowWord r n).toNat 8)
  | none => List.replicate 32 0

/-- A tile register in an engine record: rows, header, scale bytes (R93, R289). -/
def TReg.savedBytes (t : TReg) : List Byte :=
  t.rows.toList.flatMap (fun r => natBytes r.toNat 128) ++
    natBytes (t.tag.code + (if t.special then 32 else 0)) 8 ++ wordsBytes t.scales.toList

/-- The state byte of a card (R289, R314). -/
def CardState.code : CardState → Nat
  | .queued => 0
  | .started => 1
  | .parked => 2

/-- The 64 bytes of a job card (R289). -/
def TileCard.savedBytes (k : TileCard) (core : CoreId) : List Byte :=
  natBytes k.word.toNat 8 ++ wordsBytes [k.ticketOf core, k.base, k.stride, k.scale, k.shape, k.perturb] ++
    natBytes k.prog 1 ++ natBytes k.state.code 1 ++ List.replicate 6 0

/-- The engine record of the core in focus, with the extensions of its tvrow cards (R289). -/
def State.engineRecord (s : State) : List Byte :=
  let e := s.core.eng
  s.core.regs.tregs.toList.flatMap TReg.savedBytes ++ e.slots.toList.flatMap Slot.bytes ++ natBytes e.mseq.toNat 8 ++
    e.cards.flatMap (fun k => k.savedBytes s.coreNo) ++ List.replicate (64 * (8 - e.cards.length)) 0 ++
    e.cards.flatMap (fun k => match k.job with
      | .tvrow _ _ => natBytes k.vec.data.toNat 64
      | _ => [])

/-- The 96 bytes of a copy entry (R314). -/
def CopyJob.savedBytes (j : CopyJob) (core : CoreId) : List Byte :=
  wordsBytes [j.xc, ticket .copier core j.seq, j.inject] ++ natBytes j.state.code 8 ++ wordsBytes [j.src, j.dst] ++
    natBytes j.len 4 ++ natBytes j.ctl.toNat 4 ++ natBytes j.seed.toNat 4 ++ natBytes j.expect.toNat 4 ++
    natBytes j.flag.toNat 8 ++ natBytes j.rect.toNat 8 ++ natBytes j.run.toNat 8 ++ natBytes j.prog 8

/-- The copy record of the core in focus (R314). -/
def State.copyRecord (s : State) : List Byte :=
  let c := s.core.cpy
  c.slots.toList.flatMap Slot.bytes ++ natBytes c.cseq.toNat 8 ++ c.jobs.flatMap (fun j => j.savedBytes s.coreNo)

/-- The q registers and the waiting messages of the core in focus (R368). -/
def State.messageBytes (s : State) (ms : List Message) : List Byte :=
  let qs := s.core.regs.qregs.toList
  let full := qs.zipIdx.foldl (fun n q => n + if q.1.full then 2 ^ q.2 else 0) 0
  wordsBytes [BitVec.ofNat 64 (full + s.core.sync.msgSeq.toNat * 2 ^ 32), BitVec.ofNat 64 ms.length, 0, 0, 0, 0, 0, 0] ++
    qs.flatMap (fun q => natBytes q.data.toNat 32) ++ ms.flatMap Message.savedBytes

/-- The parts of a core's area with their offsets (R368); what lies between them is zero. -/
def State.areaParts (s : State) (ms : List Message) : List (Nat × List Byte) :=
  let c := s.core
  let r := c.regs
  [(0x0000, wordsBytes s.controlBlock),
    (0x0100, wordsBytes (0 :: r.glob.toList.drop 1)),
    (0x0140, wordsBytes (BitVec.allOnes 64 :: r.preds.toList.drop 1)),
    (0x0180, wordsBytes r.frames.toList),
    (0x0980, wordsBytes r.trapWin.toList),
    (0x0A40, c.abandonedBytes),
    (0x0A80, r.vregs.toList.flatMap (fun v => natBytes v.data.toNat 64)),
    (0x1280, wordsBytes (r.vregs.toList.map VReg.side)),
    (0x1380, s.messageBytes ms),
    (0x1DC0, c.acc.rows.toList.flatMap s.rowBytes),
    (0x21C0, wordsBytes (c.task.inline.map (fun i =>
      BitVec.ofNat 64 (i.depth.toNat + i.handle.toNat % 2 ^ 32 * 2 ^ 16)))),
    (0x2200, s.engineRecord),
    (0xB000, s.copyRecord)]

/-- Cells that are not zero. -/
def shown (l : List Host.Cell) : List Host.Cell := l.filter (fun c => c.2 != 0)

/-- The area of the core in focus is written to HBM (R368); the ring lies there already (R205). -/
def State.saveCore (s : State) (save : Nat) (ms : List Message) : State :=
  let a := coreArea save s.coreNo
  let cells := (s.areaParts ms).flatMap (fun p => shown (cellsAt p.1 p.2))
  { s with wafer := s.wafer.copyImage a 0xC000 (Memory.writeCells [] cells) }

/-! ### Reading back (R366, R368, R49) -/

/-- A dword of a core's area. -/
def areaWord (m : Memory) (a o : Nat) : Word := BitVec.ofNat 64 (m.readNat (a + o) 8)

/-- A vector register from its data and its side word (R49, R92): a reserved tag is restored as raw. -/
def savedVReg (data : Nat) (side : Word) : VReg :=
  match Tag.ofBits (side.setWidth 5) with
  | some t => { data := BitVec.ofNat 512 data, tag := t, special := side.getLsbD 5, scales := BitVec.ofNat 32 (field side 8 32) }
  | none => { data := BitVec.ofNat 512 data, tag := .raw, special := false, scales := BitVec.ofNat 32 (field side 8 32) }

/-- A tile register from an engine record (R49, R93, R289): a reserved tag is restored as raw. -/
def readTReg (m : Memory) (a : Nat) : TReg :=
  let h := areaWord m (a + 4096) 0
  let r : TReg :=
    { rows := Vector.ofFn (fun i : Fin 32 => BitVec.ofNat 1024 (m.readNat (a + 128 * i.val) 128)),
      scales := Vector.ofFn (fun i : Fin 32 => areaWord m a (4104 + 8 * i.val)) }
  match Tag.ofBits (h.setWidth 5) with
  | some t => { r with tag := t, special := h.getLsbD 5 }
  | none => r

/-- The registers of a core from its area. -/
def readRegs (m : Memory) (a : Nat) (old : Regs) : Regs :=
  { old with
    glob := Vector.ofFn (fun i : Fin 8 => areaWord m a (0x100 + 8 * i.val)),
    preds := Vector.ofFn (fun i : Fin 8 => if i.val = 0 then 0 else areaWord m a (0x140 + 8 * i.val)),
    frames := Vector.ofFn (fun i : Fin 256 => areaWord m a (0x180 + 8 * i.val)),
    trapWin := Vector.ofFn (fun i : Fin 24 => areaWord m a (0x980 + 8 * i.val)),
    vregs := Vector.ofFn (fun i : Fin 32 =>
      savedVReg (m.readNat (a + 0xA80 + 64 * i.val) 64) (areaWord m a (0x1280 + 8 * i.val))),
    qregs := Vector.ofFn (fun i : Fin 16 =>
      { data := BitVec.ofNat 256 (m.readNat (a + 0x13C0 + 32 * i.val) 32),
        full := (areaWord m a 0x1380).getLsbD i.val }),
    tregs := Vector.ofFn (fun i : Fin 8 => readTReg m (a + 0x2200 + 4360 * i.val)) }

/-- What STATE says a core does (R368). -/
def runOf (v : Word) : RunState :=
  if v.getLsbD 3 then .halted else if v.getLsbD 4 then .trapped else if v.getLsbD 5 then .idleServer else .running

/-- A ticket slot from its two words (R260). -/
def readSlot (m : Memory) (a : Nat) : Slot :=
  let v := areaWord m a 0
  { seq := v.setWidth 16, state := BitVec.ofNat 2 (field v 16 2), fault := v.getLsbD 18, flags := BitVec.ofNat 5 (field v 19 5),
    cause := BitVec.ofNat 4 (field v 24 4), addr := (areaWord m a 8).setWidth 48 }

/-- The job that an instruction word of a card names (R289). -/
def cardJob (w : Nat) : Option TileJob :=
  match decodeCore (toBytes 4 w) with
  | some (.tld m _ _ _ _, _) => some (.tld m)
  | some (.tst m _ _ _ _, _) => some (.tst m)
  | some (.mma c a b _, _) => some (.mma c a b false false)
  | some (.mmaZ c a b _, _) => some (.mma c a b true false)
  | some (.mmaN c a b _, _) => some (.mma c a b false true)
  | some (.mmaZn c a b _, _) => some (.mma c a b true true)
  | some (.tzero d, _) => some (.tzero d)
  | some (.tmov d a, _) => some (.tmov d a)
  | some (.ttr d a, _) => some (.ttr d a)
  | some (.tcvt d a, _) => some (.tcvt d a)
  | some (.tadd d a b, _) => some (.tadd d a b)
  | some (.trowv a _ v, _) => some (.trowv a v)
  | some (.tvrow d _ v, _) => some (.tvrow d v)
  | _ => none

/-- The state of a card that is restored (R288, R313): a parked one asks for its translation again. -/
def restoredState (code : Nat) : CardState := if code = 0 then .queued else .started

/-- A card from its 64 bytes and the vector of its extension (R289), over what it has no place for. -/
def readCard64 (m : Memory) (a ext : Nat) (old : TileCard) : TileCard :=
  let w (o : Nat) : Word := areaWord m a o
  { old with
    word := (w 0).setWidth 32, job := (cardJob (m.readNat a 4)).getD old.job,
    seq := if w 8 = 0 then none else some ((w 8).setWidth 16), base := w 0x10, stride := w 0x18, scale := w 0x20,
    shape := w 0x28, perturb := w 0x30, vec := { old.vec with data := BitVec.ofNat 512 (m.readNat ext 64) },
    prog := m.readNat (a + 0x38) 1, state := restoredState (m.readNat (a + 0x39) 1), fault := none }

/-- The card carries a vector in an extension (R289). -/
def TileCard.extended (k : TileCard) : Bool :=
  match k.job with
  | .tvrow _ _ => true
  | _ => false

/-- Where the extensions of some cards lie, each behind those before it. -/
def extensionsFrom (a : Nat) : List TileCard → List (TileCard × Nat)
  | [] => []
  | k :: r => (k, a) :: extensionsFrom (if k.extended then a + 64 else a) r

/-- The engine of a core from its record (R289) and its control block. -/
def readEngine (m : Memory) (a : Nat) (old : Engine) : Engine :=
  let b := a + 0x2200
  { old with
    slots := Vector.ofFn (fun i : Fin 16 => readSlot m (b + 34880 + 16 * i.val)), mseq := (areaWord m b 35136).setWidth 16,
    cards := (extensionsFrom (b + 35656) old.cards).zipIdx.map (fun k =>
      readCard64 m (b + 35144 + 64 * k.2) k.1.2 k.1.1),
    perturb := storedPerturb (areaWord m a 0x80), mwgt := BitVec.ofNat 4 (field (areaWord m a 0xA0) 14 4),
    tshape := Vector.ofFn (fun i : Fin 8 => storedShape (areaWord m a (0xC0 + 8 * i.val))), fresh := 0xFF }

/-- A copy entry from its 96 bytes (R314), over what it has no place for. -/
def readJob96 (m : Memory) (a : Nat) (old : CopyJob) : CopyJob :=
  let w (o : Nat) : Word := areaWord m a o
  let h (o : Nat) : W32 := BitVec.ofNat 32 (m.readNat (a + o) 4)
  { old with
    xc := w 0, seq := (w 8).setWidth 16, inject := storedInject (w 0x10), state := restoredState (m.readNat (a + 0x18) 1),
    src := w 0x20, dst := w 0x28, len := m.readNat (a + 0x30) 4, ctl := h 0x34, seed := h 0x38, expect := h 0x3C,
    flag := w 0x40, rect := h 0x48, run := h 0x50, prog := m.readNat (a + 0x58) 8, fault := none }

/-- The copy unit of a core from its record (R314) and its control block. -/
def readCopy (m : Memory) (a : Nat) (old : CopyCtl) : CopyCtl :=
  let b := a + 0xB000
  { old with
    slots := Vector.ofFn (fun i : Fin 16 => readSlot m (b + 16 * i.val)), cseq := (areaWord m b 256).setWidth 16,
    jobs := old.jobs.zipIdx.map (fun j => readJob96 m (b + 264 + 96 * j.2) j.1), inj := storedInject (areaWord m a 0x88) }

/-- The operation of func3 (R179). -/
def accOpOf (n : Nat) : AccOp :=
  match n with
  | 0 => .addI32
  | 1 => .addI64
  | 2 => .addF32
  | 3 => .maxI32
  | 4 => .minI32
  | 5 => .orD
  | 6 => .andD
  | _ => .xorD

/-- A siding row from its words (R202, R368), over what they have no place for; none where the row is not valid. An age
that has reached its limit goes on from the row's own. -/
def readRow (m : Memory) (a clock : Nat) (old : Row) : Option Row :=
  let v := areaWord m a 0
  let k := areaWord m a 24
  let age := (areaWord m a 16).toNat % 2 ^ 16
  if v.getLsbD 63 then
    some { old with
      det := v.getLsbD 62, cls := if v.getLsbD 61 then .m else .n, op := accOpOf (field v 58 3),
      va := BitVec.ofNat 64 (field v 2 46 * 4), value := areaWord m a 8,
      since := if age = 0xFFFF then old.since else clock - age,
      key := { jt := BitVec.ofNat 12 (field k 36 12), core := BitVec.ofNat 3 (field k 32 3), seq := k.setWidth 32 } }
  else none

/-- The siding of a core from its area (R205, R368). -/
def readSiding (m : Memory) (a clock : Nat) (old : Accum) : Accum :=
  let occ := areaWord m a 0x30
  let n := field occ 16 13
  { old with
    sdctl := storedSdctl (areaWord m a 0x28), accmode := (areaWord m a 0x38).setWidth 2, aseq := (areaWord m a 0xA8).setWidth 32,
    rides := BitVec.ofNat 16 (field occ 48 16), bounces := BitVec.ofNat 16 (field occ 32 16),
    rows := Vector.ofFn (fun i : Fin 32 => (vget old.rows i.val none).bind (readRow m (a + 0x1DC0 + 32 * i.val) clock)),
    ring := (old.ring.take n).zipIdx.filterMap (fun r => readRow m (a + 0xC000 + 32 * r.2) clock r.1) }

/-- The inline stack of a core from its area (R355, R368), over what it has no place for. -/
def readInline (m : Memory) (a n : Nat) (old : List InlineRun) : List InlineRun :=
  (old.take n).zipIdx.map (fun r =>
    let v := areaWord m a (0x21C0 + 8 * r.2)
    { r.1 with depth := v.setWidth 16, handle := (r.1.handle &&& 0xFFFFFFFF00000000) ||| BitVec.ofNat 64 (field v 16 32) })

/-- A target from its word; one of another type stays what it was. -/
def Place.ofWord (v : Word) (old : Place) : Place :=
  let l : TileNo := BitVec.ofNat 12 (field v 23 12)
  match field v 60 4 with
  | 0 => { space := .hbm, a := field v 0 48 }
  | 1 => { space := .spad l, a := field v 0 23 }
  | 2 => { space := .host (BitVec.ofNat 3 (field v 48 3)), a := field v 0 48 }
  | 3 => { space := .peer (BitVec.ofNat 8 (field v 48 8)), a := field v 0 48 }
  | 4 => { space := .window l, a := field v 0 23 }
  | 5 => { space := .device, a := field v 0 48 }
  | _ => old

/-- The abandoned requests of a core from its area (R367, R368): the record names the first of them; a gather may have
more (assumption 16). -/
def readAbandoned (m : Memory) (a : Nat) : List Abandoned → List Abandoned
  | [] => []
  | x :: r =>
    let v := areaWord m a 0xA40
    if field v 0 4 = 0 then []
    else
      { x with tag := BitVec.ofNat 32 (field v 32 32), place := Place.ofWord (areaWord m a 0xA48) x.place,
               ops := (areaWord m a 0xA50, areaWord m a 0xA58) } :: r

/-- A core from its area, over what the layout has no place for (R366, R368); n counts the free values before. -/
def readCore (m : Memory) (a clock n : Nat) (old : Core) : Core :=
  let w (i : Nat) : Word := areaWord m a (8 * i)
  let st := w 20
  { old with
    pc := w 19, level := levelOf n (st.setWidth 2), run := runOf st, wake := st.getLsbD 2, regs := readRegs m a old.regs,
    win := { depth := (w 10).setWidth 16, res := BitVec.ofNat 4 (field (w 10) 16 4), cwp := BitVec.ofNat 4 (field (w 10) 24 4),
             spills := BitVec.ofNat 16 (field (w 10) 32 16), fills := BitVec.ofNat 16 (field (w 10) 48 16),
             wsp := storedWindow (w 8), wslim := storedWindow (w 9) },
    fp := { frm := w 0 &&& 0xB, fflags := (w 1).setWidth 5, gs := w 2, qtype := (w 3).setWidth 2, vprog := (w 4).setWidth 6 },
    trap := { old.trap with
      tvec := storedAddr (w 11), tcause := storedCause (w 12), tpc := storedAddr (w 13), tval := w 14, tstat := w 15 &&& 0xF },
    post := { old.post with oseq := BitVec.ofNat 32 (field (w 21) 32 32) },
    acc := readSiding m a clock old.acc, eng := readEngine m a old.eng, cpy := readCopy m a old.cpy,
    sync := { old.sync with
      step := Vector.ofFn (fun i : Fin 4 => BitVec.ofNat 16 (field (w 18) (16 * i.val) 16)),
      bst := Vector.ofFn (fun i : Fin 4 => BitVec.ofNat 2 (field st (6 + 2 * i.val) 2)),
      msgSeq := BitVec.ofNat 32 (field (areaWord m a 0x1380) 32 32) },
    race := { old.race with detmode := st.getLsbD 18 },
    task := { old.task with
      served := w 22, since := if old.task.counting then clock - (w 23).toNat else old.task.since,
      inTask := w 22 != 0 || decide (0 < field st 19 4), inline := readInline m a (field st 19 4) old.task.inline },
    abandoned := readAbandoned m a old.abandoned }

/-- The messages that wait in a core's area (R324, R368). -/
def readMessages (m : Memory) (a : Nat) (tile : TileNo) (job : BitVec 6) (core : CoreId) : List Message :=
  (List.range (min 32 (field (areaWord m a 0x1388) 0 6))).map (fun i =>
    let b := a + 0x15C0 + 64 * i
    let w := areaWord m b 32
    { jt := BitVec.ofNat 12 (field w 0 12), core := BitVec.ofNat 3 (field w 12 3), tile := tile, job := job,
      seq := BitVec.ofNat 32 (field w 32 32), dst := core, q := BitVec.ofNat 4 (field w 16 4),
      data := BitVec.ofNat 256 (m.readNat b 32), counted := false })

end Sys2Proof.Machine
end

