-- ==== Sys2Proof/Machine/Teams.lean ====
section
/-!
DEFINITION. Slots and teams (11_tasks.md): bind records, saving and restoring a team, time slices and double-heading, and the
commands that resume a core or end a team (R324, R345 to R348, R362, R364 to R371).
-/
namespace Sys2Proof.Machine

/-! ### Binding (R155, R347, R348, R353) -/

/-- A tile as the dispatcher gives it to a job (R155, R188, R337, R409, R410): cleared, its state at its reset
values but for what the job's policy says, the interval number 1. -/
def freshTile (old : Tile) (job : BitVec 6) (prio : BitVec 2) (jt : TileNo) (jshape record : Word) (epoch : BitVec 16)
    (policy : Word × Word) (clock : Nat) : Tile :=
  let t : Tile :=
    { job := some job, prio := prio, jt := jt, jshape := jshape, intv := (zext64 epoch <<< 48) ||| 1,
      boundaryAt := clock, bank := old.bank, box := old.box.emptied, record := record, sliceAt := clock,
      ckctl := storedCkctl policy.2, slices := Vector.replicate 8 { quota := storedQuota policy.1 } }
  { t with tile := t.logical jt.toNat }

/-- QUOTA and CKCTL of a job's policy (R188, R409); their reset values for a job that no launch has bound. -/
def Wafer.policy (w : Wafer) (j : BitVec 6) : Word × Word :=
  match w.job j with
  | some j => (j.quota, j.ckctl)
  | none => (0x810, 0x0000004010000014)

/-- The tile in focus belongs to the job of a record. -/
def giveTile (r : BindRecord) (s : State) : State :=
  if s.tile.job = some r.job ∧ s.tile.jshape = r.jshape then
    { s with tile := { s.tile with prio := r.prio, jt := r.team.setWidth 12, record := r.tileRecord }.farEmpty }
  else
    let epoch := (s.wafer.job r.job).elim 0 Job.epoch
    s.loadTile (freshTile s.tile r.job r.prio (r.team.setWidth 12) r.jshape r.tileRecord epoch (s.wafer.policy r.job)
      s.wafer.clock) []

/-- DOM0 to DOM3 of a record: valid for a root core, invalid for a server (R348). -/
def boundDom (r : BindRecord) : Vector Word 4 :=
  let valid : Word := 0x10000000000
  #v[r.dom0, r.dom1, r.dom2, r.dom3].map (fun d => storedDom (if r.server then d &&& ~~~valid else d ||| valid))

/-- The core that a bind record starts (R348, R353); n counts the free values before. -/
def startedCore (r : BindRecord) (n : Nat) : Core :=
  let c : Core :=
    { pc := r.entry, level := levelOf n r.level, run := if r.server then .idleServer else .running,
      win := { wsp := storedWindow (zext64 r.wbase), wslim := storedWindow (zext64 r.wlimit) },
      trap := { tvec := storedAddr r.tvec }, race := { detmode := r.race }, eng := { tshape := r.tshape.map storedShape },
      sync := { dom := boundDom r }, ptbase := zext64 r.root <<< 12, slot := some r }
  c.setReg 8 r.arg

/-- The tile in focus belongs to the job of a record already. -/
def State.belongs (s : State) (r : BindRecord) : Bool := s.tile.job == some r.job && s.tile.jshape == r.jshape

/-- The tile in focus is the job's: one that was not takes counters, pool and overflow queue from the tile record
(R337, R369), the tasks being those of a team for each spawning core. -/
def claimTile (r : BindRecord) (teamOf : CoreId → W32) (s : State) : State :=
  if s.belongs r then giveTile r s
  else
    let s := giveTile r s
    { s with tile := s.tile.readRecord s.wafer.hbm r.tileRecord.toNat teamOf }

/-- A core takes its slot; a time slice begins (R370). -/
def bindCore (c : CoreId) (r : BindRecord) (s : State) : State :=
  let s := claimTile r (fun _ => r.team) s
  let n := s.wafer.free
  let s := { s with wafer := { s.wafer with free := n + 1 }, tile := { s.tile with sliceAt := s.wafer.clock } }
  s.updCore c (fun _ => startedCore r n)

/-- The record that stores have written to the slot of the core in focus, with what the dispatcher keeps beside it, takes
effect (R347, R469; assumption 89). -/
def bindDraft (r : BindRecord) (s : State) : State :=
  let j := s.wafer.job r.job
  bindCore s.coreNo
    { r with root := j.elim 0 Job.root, jshape := j.elim s.tile.jshape Job.jshape, tileRecord := s.tile.record } s

/-- The window-stack region of core n with a stack size (R345). -/
def windowRegion (n : CoreId) (wstack : Nat) : Nat × Nat :=
  (spadSize - (n.toNat + 1) * wstack, spadSize - n.toNat * wstack)

/-- A server slot takes the region of its own core number with its team's WSTACK (R345). -/
def Wafer.serverRegion (w : Wafer) (c : CoreId) (r : BindRecord) : BindRecord :=
  match (if r.server then w.launch r.job (launchNo r.team) else none) with
  | some l =>
    let x := windowRegion c l.wstack
    { r with wbase := BitVec.ofNat 32 x.1, wlimit := BitVec.ofNat 32 x.2 }
  | none => r

/-- The dispatcher writes a slot (R345, R347, R348), or empties it. -/
def execBindRecordWrite (site : SiteId) (core : CoreId) (r : Option BindRecord) (s : State) : Result :=
  let s := s.focusSite site
  .next (match r with
    | some r => bindCore core (s.wafer.serverRegion core r) s
    | none =>
      let held := (s.coreAt core).slot.isSome
      let s := s.updCore core (fun _ => {})
      if held && !s.anySlot then s.writeTileRecord else s)

/-! ### Saving a team (R324, R366, R368) -/

/-- The messages of the buffer that wait for a core: what fits into its area, and what stays. -/
def splitMessages (c : CoreId) (t : Tile) : List Message × Tile :=
  let mine (m : Message) : Bool := m.dst == c
  let back := t.restored.filter mine
  let rest := t.inbound.filter (fun m => mine m && some m.job == t.job)
  let room := 32 - back.length
  let kept := rest.take room
  (back ++ kept,
   { t with restored := t.restored.filter (fun m => !(mine m)), inbound := t.inbound.filter (fun m => !(kept.contains m)) })

/-- A core of a team is written to the save area (R368). -/
def saveSlot (s : State) (p : CoreId × BindRecord) : State :=
  let c := s.coreNo
  let s := s.focusCore p.1
  let x := splitMessages p.1 s.tile
  let s := ({ s with tile := x.2 }).saveCore p.2.save.toNat x.1
  s.focusCore c

/-- The cores of the tile in focus that hold slots, with their records. -/
def State.slots (s : State) : List (CoreId × BindRecord) :=
  s.coreList.filterMap (fun p => p.2.slot.map (fun r => (p.1, r)))

/-- The slots of a team on the tile in focus. -/
def State.slotsOf (s : State) (team : W32) : List (CoreId × BindRecord) := s.slots.filter (fun p => p.2.team == team)

/-- The team's state goes to its save area and its slots are emptied (R366 steps 6 and 7). -/
def saveTeam (team : W32) (s : State) : State :=
  let slots := s.slotsOf team
  let cores := (s.coreList.filter (fun p => p.2.ofTeam team)).map (fun p => (p.1, p.2.portable))
  let t : SavedTeam :=
    { team := team, job := s.tile.job.getD 0, tile := s.tile.tile, prio := s.tile.prio, slots := slots, cores := cores,
      clock := s.wafer.clock, num := s.tile.intv.setWidth 32 }
  let s := slots.foldl saveSlot s
  let s := s.emptySlots team
  { s with wafer := { s.wafer with saved := s.wafer.saved ++ [t] } }

/-! ### Restoring a team (R324, R366) -/

/-- A core is bound again as its save area holds it (R366); what the area has no place for is as the core left it at a
clock. -/
def restoreSlot (job : BitVec 6) (old : Core) (left : Nat) (s : State) (p : CoreId × BindRecord) : State :=
  let a := coreArea p.2.save.toNat p.1
  let now := s.wafer.clock
  let n := s.wafer.free
  let c := readCore s.wafer.hbm a now n (old.shift (now - left))
  let ms := readMessages s.wafer.hbm a s.tile.tile job p.1
  let s := { s with wafer := { s.wafer with free := n + 1 }, tile := { s.tile with restored := s.tile.restored ++ ms } }
  s.updCore p.1 (fun _ => { c with slot := some p.2, lastIssue := none })

/-- The saved team's tile is here and its cores are free. -/
def State.canRestore (s : State) (t : SavedTeam) : Bool :=
  t.slots.all (fun p => (s.coreAt p.1).slot.isNone) && !s.tile.stopped && s.tile.replay.isNone

/-- The team that the tasks of a spawning core belong to: the one that holds the core, or the one saved that does. -/
def State.teamOf (s : State) (tile : TileNo) (slots : List (CoreId × BindRecord)) (c : CoreId) : W32 :=
  match slots.find? (fun p => p.1 == c) with
  | some p => p.2.team
  | none =>
    ((s.wafer.saved.filter (fun t => t.tile == tile)).findSome? (fun t =>
      (t.slots.find? (fun p => p.1 == c)).map (fun _ => t.team))).getD 0

/-- A saved team takes its slots again; the far cache starts empty, and a time slice begins (R366, R370). -/
def restoreTeam (t : SavedTeam) (s : State) : State :=
  if s.canRestore t then
    let s := match t.slots with
      | p :: _ => claimTile p.2 (s.teamOf t.tile t.slots) s
      | [] => s
    let s := { s with tile := { s.tile with sliceAt := s.wafer.clock }.farEmpty }
    let s := t.slots.foldl (fun s p => restoreSlot t.job (findCore t.cores p.1) t.clock s p) s
    let s := { s with wafer := { s.wafer with saved := s.wafer.saved.filter (· != t) } }
    if s.keepsWaybill then s.requestBoundary else s
  else s

def execTeamRestore (job : BitVec 6) (team : W32) (s : State) : Result :=
  .next (match s.wafer.saved.find? (fun t => t.job == job && t.team == team) with
    | some t =>
      match s.carrier t.tile with
      | some x => restoreTeam t (s.focusSite x)
      | none => s
    | none => s)

/-! ### Leaving a tile (R30, R366, R370, R371, R408) -/

/-- The logical tiles of a double-headed site change places (R371): the teams of the one that ran, its tile record, and
with its image its scratchpad and flows, go to HBM; the other is installed, its teams read back from their areas. -/
def swapTiles (a : AwayTile) (s : State) : State :=
  let s := (s.slots.foldl saveSlot s).writeTileRecord
  let out : AwayTile := { site := s.site, image := s.image s.detCount, saved := true }
  let h := s.wafer.healing
  let now := s.wafer.clock
  let s := { s with wafer := { s.wafer with healing := { h with away := (h.away.filter (· != a)) ++ [out] } } }
  let s := s.loadTile { a.image.tile with boundaryAt := now, sliceAt := now }
    (a.image.cores.map (fun p => (p.1, p.2.shift (now - a.image.clock))))
  if a.saved then
    let slots := s.slots
    let s := { s with tile := s.tile.readRecord s.wafer.hbm s.tile.record.toNat (s.teamOf s.tile.tile slots) }
    slots.foldl (fun s p => restoreSlot (s.tile.job.getD 0) (findCore a.image.cores p.1) a.image.clock s p) s
  else s

/-- The tile in focus has nothing left to leave for. -/
def State.stay (s : State) : State := { s with tile := { s.tile with leaving := none } }

/-- The cores of the tile in focus stop and drain (R366 steps 2 and 4, R412). -/
def State.settle (s : State) : State := (drainSlices ((s.updCores Core.askStop).eachCore settleCore)).pause

/-- A team leaves (R366): the boundary is taken and the team saved, once everything is quiet; the next boundary records
the tile without it. -/
def leaveTeam (team : W32) (s : State) : State :=
  let s := s.requestBoundary.settle
  if s.boundaryReady then
    let s := if s.keepsWaybill then takeBoundary s else s
    let s := (saveTeam team s).stay.resumeCores
    if s.keepsWaybill then s.requestBoundary else { s with tile := { s.tile with closeAsked := false } }
  else s

/-- A double-headed site changes its logical tile (R371), once everything is quiet and no record is unconfirmed. -/
def leaveSite (a : AwayTile) (s : State) : State :=
  let s := s.settle
  if s.boundaryReady && s.tile.dets.isEmpty then (swapTiles a s.stay).resumeCores else s

/-- The logical tile that waits for the site in focus (R371). -/
def State.awayHere (s : State) : Option AwayTile := s.wafer.healing.away.find? (fun a => a.site == s.site)

/-- A request to leave goes as far as it can now (R366); a tile that is stopped or replays keeps it. -/
def pursueLeave (s : State) : State :=
  match s.tile.leaving with
  | none => s
  | some l =>
    if s.tile.stopped || s.tile.replay.isSome then s
    else
      match l.team, s.awayHere with
      | some team, _ => if (s.slotsOf team).isEmpty then s.stay else leaveTeam team (callLeavers s)
      | none, some a => leaveSite a (callLeavers s)
      | none, none => s.stay

/-- Sites are lost and no reserve is left (R30): the dispatcher re-places teams or double-heads. -/
def State.crowded (s : State) : Bool :=
  let free (x : SiteId) : Bool := (s.junctionAt x).status == .reserve && !(s.junctionAt x).passThrough
  s.siteIds.any (fun x => (s.junctionAt x).status == .failed) && !(s.siteIds.any free)

/-- What the dispatcher pre-empts a team for at other times than a yield or the end of a slice (R370): a team of a more
urgent class that waits for one of its cores, double-heading, or re-placement. -/
def State.mayPreempt (s : State) (team : W32) : Bool :=
  s.awayHere.isSome || s.crowded ||
    s.wafer.saved.any (fun t => t.tile == s.tile.tile && decide (t.prio.toNat < s.tile.prio.toNat) &&
      t.slots.any (fun p => (s.coreAt p.1).ofTeam team))

/-- A pre-emption of a team is asked for (R366, R370); a request for a team that is not here asks for nothing. -/
def execPreemptionRequest (site : SiteId) (team : W32) (s : State) : Result :=
  let s := s.focusSite site
  .next (if !(s.slotsOf team).isEmpty && s.mayPreempt team then pursueLeave (s.postLeave (some team)) else pursueLeave s)

/-- A team of the tile in focus whose slots a saved team of its class waits for (R370). -/
def State.sliceVictim (s : State) : Option W32 :=
  if s.tile.prio = 0 then none
  else
    (s.wafer.saved.filter (fun t => t.tile == s.tile.tile && t.prio == s.tile.prio)).findSome? (fun t =>
      t.slots.findSome? (fun p => match (s.coreAt p.1).slot with
        | some r => some r.team
        | none => none))

/-- A time slice, of at least 2^20 cycles, ends (R370, R371). -/
def execTimeSliceExpiry (site : SiteId) (s : State) : Result :=
  let s := s.focusSite site
  .next (if s.wafer.clock < s.tile.sliceAt + 2 ^ 20 then s
    else if s.awayHere.isSome then pursueLeave (s.postLeave none)
    else
      match s.sliceVictim with
      | some team => pursueLeave (s.postLeave (some team))
      | none => s)

/-- A message for a team that is away leaves the tile's buffer for the team's area, behind those that wait there
(R324, R368). -/
def messageAway (core : CoreId) (s : State) : State :=
  let away (m : Message) : Option (CoreId × BindRecord) :=
    if m.dst ≠ core || (s.coreAt core).run != .unbound then none
    else
      (s.wafer.saved.filter (fun t => t.tile == s.tile.tile && t.job == m.job)).findSome? (fun t =>
        t.slots.find? (fun p => p.1 == core))
  match s.tile.inbound.find? (fun m => (away m).isSome) with
  | none => s
  | some m =>
    match away m with
    | none => s
    | some p =>
      let a := coreArea p.2.save.toNat core
      let n := field (areaWord s.wafer.hbm a 0x1388) 0 6
      if 32 ≤ n then s
      else
        let cells := cellsAt (a + 0x15C0 + 64 * n) m.savedBytes ++ cellsAt (a + 0x1388) (natBytes (n + 1) 8)
        { s with tile := { s.tile with inbound := s.tile.inbound.erase m },
                 wafer := { s.wafer with hbm := s.wafer.hbm.writeCells cells } }

def execMessageToSaveArea (site : SiteId) (core : CoreId) (s : State) : Result :=
  .next (messageAway core (s.focusSite site))

/-! ### Commands about cores and teams (R362, R364, R472) -/

/-- The completion of a command (R472). -/
def State.complete (s : State) (tag : W32) (status : Nat) (values : List Nat) (bytes : List Byte) : State :=
  let c : Completion := { tag := tag, status := status, values := values, bytes := bytes }
  { s with wafer := { s.wafer with completions := s.wafer.completions ++ [c] } }

/-- A command that did what it names. -/
def State.accept (s : State) (tag : W32) : State := s.complete tag 0 [] []

/-- A command that names nothing that it could act on. -/
def State.turnDown (s : State) (tag : W32) (code : Nat) : State := s.complete tag (Config.refusedStatus code) [] []

/-- A stopped core goes on (R362, R364): a halted one at its next instruction, a trapped one at TPC outside the trap
window. -/
def resumeStopped (s : State) : State :=
  match s.core.run with
  | .halted => { s with core := { s.core with run := .running } }
  | _ =>
    let c := s.core
    let n := s.wafer.free
    { s with
      core := { c with
        run := .running, level := levelOf n (BitVec.ofNat 2 (field c.trap.tstat 1 2)),
        trap := { c.trap with tstat := c.trap.tstat &&& ~~~(1 : Word) }, pc := c.trap.tpc &&& 0xFFFFFFFFFFFE },
      wafer := { s.wafer with free := n + 1 } }

/-- The thread of a halted core ends as by exit 0 (R356, R364); the tasks that it runs inline end with it. -/
def endHalted (s : State) : State :=
  let team := s.team
  let inline := s.core.task.inline.map (·.handle)
  let pool := s.tile.pool.map (fun e => if e.state == .running && inline.contains e.handle then {} else e)
  let s := { s with tile := { s.tile with pool := pool },
                    core := { s.core with task := { s.core.task with inline := [] } } }
  (if s.core.task.served != 0 then exitServer 0 s else exitThread 0 s).checkTeamEnd team

/-- Command 6 resumes a core, or ends the thread of a halted one (R364; assumption 88). -/
def execResumeCore (tag : W32) (tile : TileNo) (order : ResumeOrder) (s : State) : Result :=
  .next (match s.carrier tile with
    | some x =>
      let c := s.coreOfSite x order.core
      if c.run = .halted || (c.run = .trapped && !order.finish) then
        (s.atSite x (fun s =>
          let old := s.coreNo
          let s := s.focusCore order.core
          (if order.finish then endHalted s else resumeStopped s).focusCore old)).accept tag
      else s.turnDown tag 6
    | none => s.turnDown tag 6)

/-- The root threads of a team that have not ended count as ended by command with code 0 (R362). -/
def endThreads (job : BitVec 6) (team : W32) (w : Wafer) : Wafer :=
  let t := team.toNat % 4096
  w.setLaunch job (launchNo team) (fun l =>
    let left := (coresOf l.cores).filter (fun c => !(l.codes.any (fun e => e.tile == t && e.core == c)))
    let ends : List ThreadEnd := left.map (fun c => { tile := t, core := c, code := 0, byCommand := true })
    { l with codes := l.codes ++ ends })

/-- The tasks of a team that is saved away are discarded (R362): on the tile that carries them, or in its image. -/
def State.dropTasks (s : State) (tile : TileNo) (team : W32) : State :=
  match s.carrier tile with
  | some x => s.atSite x (fun s => s.setQueue (s.tile.freeTeam team))
  | none =>
    let h := s.wafer.healing
    let drop (a : AwayTile) : AwayTile :=
      if a.image.tile.tile = tile then { a with image := { a.image with tile := a.image.tile.freeTeam team } } else a
    { s with wafer := { s.wafer with healing := { h with away := h.away.map drop } } }

/-- A team ends on one tile by command (R362): where it is bound, or where it is saved. -/
def execEndTeam (tag : W32) (job : BitVec 6) (team : W32) (s : State) : Result :=
  let t := team.toNat % 4096
  .next (match s.wafer.saved.find? (fun k => k.job == job && k.team == team) with
    | some k =>
      let s := s.dropTasks k.tile team
      let w := endThreads job team { s.wafer with saved := s.wafer.saved.filter (· != k) }
      ({ s with wafer := w.tileEnded job (launchNo team) t }).accept tag
    | none =>
      match s.jobTileSite job t with
      | some x =>
        if (s.wafer.launch job (launchNo team)).isNone then s.turnDown tag 7
        else
          (s.atSite x (fun s =>
            let s := { s with wafer := endThreads job team s.wafer }
            s.endTeamHere team)).accept tag
      | none => s.turnDown tag 7)

end Sys2Proof.Machine
end

