-- ==== Sys2Proof/Machine/Loader.lean ====
section
/-!
DEFINITION. The words of a kernel with their meanings (R384 to R386), what the dispatcher reads of a job's memory, and
the loader of the dispatcher: installing and removing flows (12_signalbox.md, R375, R377, R400 to R402).
-/
namespace Sys2Proof.Machine

/-! ### Kernel words (R384 to R386) -/

/-- The meaning of a kernel word by its opcode; none where the word is illegal by its fields (R386). It follows the
cases of decodeBoxRaw, and the laws show that it is the decoder's instruction, executed. -/
def boxRow (w : Nat) : Option (State → Result) :=
  match fld w 0 6 with
  | 0 =>
    if fld w 6 26 = 0 then some execSbNop
    else none
  | 1 =>
    if fld w 18 14 = 0 then some (execSbAdd (bits w 6 4) (bits w 10 4) (bits w 14 4))
    else if fld w 14 5 = 16 then some (execSbAddImm (bits w 6 4) (bits w 10 4) (bits w 19 13))
    else none
  | 2 =>
    if fld w 18 14 = 0 then some (execSbSub (bits w 6 4) (bits w 10 4) (bits w 14 4))
    else if fld w 14 5 = 16 then some (execSbSubImm (bits w 6 4) (bits w 10 4) (bits w 19 13))
    else none
  | 3 =>
    if fld w 18 14 = 0 then some (execSbAnd (bits w 6 4) (bits w 10 4) (bits w 14 4))
    else if fld w 14 5 = 16 then some (execSbAndImm (bits w 6 4) (bits w 10 4) (bits w 19 13))
    else none
  | 4 =>
    if fld w 18 14 = 0 then some (execSbOr (bits w 6 4) (bits w 10 4) (bits w 14 4))
    else if fld w 14 5 = 16 then some (execSbOrImm (bits w 6 4) (bits w 10 4) (bits w 19 13))
    else none
  | 5 =>
    if fld w 18 14 = 0 then some (execSbXor (bits w 6 4) (bits w 10 4) (bits w 14 4))
    else if fld w 14 5 = 16 then some (execSbXorImm (bits w 6 4) (bits w 10 4) (bits w 19 13))
    else none
  | 6 =>
    if fld w 18 14 = 0 then some (execSbShl (bits w 6 4) (bits w 10 4) (bits w 14 4))
    else if fld w 14 5 = 16 then some (execSbShlImm (bits w 6 4) (bits w 10 4) (bits w 19 13))
    else none
  | 7 =>
    if fld w 18 14 = 0 then some (execSbShr (bits w 6 4) (bits w 10 4) (bits w 14 4))
    else if fld w 14 5 = 16 then some (execSbShrImm (bits w 6 4) (bits w 10 4) (bits w 19 13))
    else none
  | 8 =>
    if fld w 10 6 = 0 then some (execSbLi (bits w 6 4) (bits w 16 16))
    else none
  | 9 =>
    if fld w 10 6 = 0 then some (execSbLih (bits w 6 4) (bits w 16 16))
    else none
  | 10 =>
    if fld w 6 4 = 0 ∧ fld w 25 7 = 0 then some (execSbBfz (bits w 10 4) (bits w 14 11))
    else none
  | 11 =>
    if fld w 6 4 = 0 ∧ fld w 25 7 = 0 then some (execSbBfnz (bits w 10 4) (bits w 14 11))
    else none
  | 12 =>
    if fld w 9 1 = 0 ∧ fld w 14 18 = 0 then
      some (execSbRpt (bits w 6 3) (bits w 10 4))
    else none
  | 13 =>
    if fld w 6 26 = 0 then some execSbDone
    else none
  | 14 =>
    if fld w 6 26 = 0 then some execSbDrop
    else none
  | 15 =>
    if fld w 6 4 = 0 ∧ fld w 14 18 = 0 then some (execSbReroute (bits w 10 4))
    else none
  | 16 =>
    if fld w 14 5 = 0 then some (execSbLdst (bits w 6 4) (bits w 10 4) (bits w 19 13))
    else none
  | 17 =>
    if fld w 14 5 = 0 then some (execSbStst (bits w 6 4) (bits w 10 4) (bits w 19 13))
    else none
  | 18 =>
    if fld w 9 1 = 0 ∧ fld w 14 5 = 0 then
      some (execSbVldst (bits w 6 3) (bits w 10 4) (bits w 19 13))
    else none
  | 19 =>
    if fld w 9 1 = 0 ∧ fld w 14 5 = 0 then
      some (execSbVstst (bits w 6 3) (bits w 10 4) (bits w 19 13))
    else none
  | 20 =>
    if fld w 9 5 = 0 ∧ fld w 16 16 = 0 then some (execSbVrdp (bits w 6 3) (bits w 14 2))
    else none
  | 21 =>
    if fld w 9 5 = 0 ∧ fld w 16 16 = 0 then some (execSbVwrp (bits w 6 3) (bits w 14 2))
    else none
  | 22 =>
    if fld w 10 4 = 0 ∧ fld w 18 14 = 0 ∧ fld w 14 4 < 14 then some (execSbRdh (bits w 6 4) (bits w 14 4))
    else none
  | 23 =>
    if fld w 9 1 = 0 ∧ fld w 13 1 = 0 ∧ fld w 17 15 = 0 then
      some (execSbVaddi (bits w 6 3) (bits w 10 3) (bits w 14 3))
    else none
  | 24 =>
    if fld w 9 1 = 0 ∧ fld w 13 1 = 0 ∧ fld w 17 15 = 0 then
      some (execSbVaddf (bits w 6 3) (bits w 10 3) (bits w 14 3))
    else none
  | 25 =>
    if fld w 9 1 = 0 ∧ fld w 13 1 = 0 ∧ fld w 17 15 = 0 then
      some (execSbVmulf (bits w 6 3) (bits w 10 3) (bits w 14 3))
    else none
  | 26 =>
    if fld w 9 1 = 0 ∧ fld w 13 1 = 0 ∧ fld w 17 15 = 0 then
      some (execSbVmaxf (bits w 6 3) (bits w 10 3) (bits w 14 3))
    else none
  | 27 =>
    if fld w 9 1 = 0 ∧ fld w 13 1 = 0 ∧ fld w 17 15 = 0 then
      some (execSbVminf (bits w 6 3) (bits w 10 3) (bits w 14 3))
    else none
  | 28 =>
    if fld w 9 1 = 0 ∧ fld w 13 1 = 0 ∧ fld w 17 15 = 0 then
      some (execSbVmaxi (bits w 6 3) (bits w 10 3) (bits w 14 3))
    else none
  | 29 =>
    if fld w 9 1 = 0 ∧ fld w 13 1 = 0 ∧ fld w 17 15 = 0 then
      some (execSbVand (bits w 6 3) (bits w 10 3) (bits w 14 3))
    else none
  | 30 =>
    if fld w 9 1 = 0 ∧ fld w 13 1 = 0 ∧ fld w 17 15 = 0 then
      some (execSbVor (bits w 6 3) (bits w 10 3) (bits w 14 3))
    else none
  | 31 =>
    if fld w 9 1 = 0 ∧ fld w 13 1 = 0 ∧ fld w 17 15 = 0 then
      some (execSbVxor (bits w 6 3) (bits w 10 3) (bits w 14 3))
    else none
  | 32 =>
    if fld w 9 1 = 0 ∧ fld w 13 6 = 0 ∧ fld w 20 12 = 0 then
      some (execSbVcvtbfF2b (bits w 6 3) (bits w 10 3) (bits w 19 1))
    else if fld w 9 1 = 0 ∧ fld w 13 6 = 32 ∧ fld w 20 12 = 0 then
      some (execSbVcvtbfB2f (bits w 6 3) (bits w 10 3) (bits w 19 1))
    else none
  | 33 =>
    if fld w 13 19 = 0 then some (execSbVsum (bits w 6 4) (bits w 10 3))
    else none
  | 34 =>
    if fld w 13 1 = 0 ∧ fld w 17 1 = 0 ∧ fld w 20 12 = 0 then
      some (execSbVcmpf (bits w 6 4) (bits w 10 3) (bits w 14 3) (bits w 18 2))
    else none
  | 35 =>
    if fld w 9 1 = 0 ∧ fld w 13 1 = 0 ∧ fld w 17 1 = 0 ∧ fld w 22 10 = 0 then
      some (execSbVself (bits w 6 3) (bits w 10 3) (bits w 14 3) (bits w 18 4))
    else none
  | 36 =>
    if fld w 6 4 = 0 ∧ fld w 22 10 = 0 then some (execSbTrap (bits w 10 4) (bits w 14 8))
    else none
  | 37 =>
    if fld w 10 22 = 0 then some (execSbStamp (bits w 6 4))
    else none
  | 38 =>
    if fld w 9 1 = 0 ∧ fld w 14 18 = 0 then
      some (execSbEmit (bits w 6 3) (bits w 10 4))
    else none
  | _ => none

/-- The field rules of R386 hold for a word. -/
def boxLegal (w : Nat) : Bool := (boxRow w).isSome

/-- What a word adds to the count (R385); a branch is not taken. -/
def wordCost (w : Nat) : Nat :=
  match w % 64 with
  | 18 => 2
  | 19 => 2
  | 24 => 2
  | 25 => 2
  | 26 => 2
  | 27 => 2
  | 32 => 2
  | 33 => 3
  | 34 => 2
  | 38 => 2
  | _ => 1

/-- A branch, rpt or ending word (R386). -/
def isBranch (w : Nat) : Bool := w % 64 == 10 || w % 64 == 11
def isRpt (w : Nat) : Bool := w % 64 == 12
def isEnding (w : Nat) : Bool := w % 64 == 13 || w % 64 == 14 || w % 64 == 15 || w % 64 == 36
def isControl (w : Nat) : Bool := isBranch w || isRpt w || isEnding w

/-- How far past the next word a branch goes; the words of a rpt body, and its passes (R389). -/
def branchOffset (w : Nat) : Nat := fld w 14 11
def rptWords (w : Nat) : Nat := fld w 6 3 + 1
def rptPasses (w : Nat) : Nat := fld w 10 4 + 1

/-! ### The dispatcher reads a job's memory (R138, R139, R400) -/

/-- The site that carries a logical tile by the points tables, with no other tile in its place. -/
def State.standsAt (s : State) (l : TileNo) : Option SiteId :=
  s.siteIds.find? (fun x => findPoint (s.junctionAt x).points l.toNat == some x &&
    ((s.tileAt x).job.isNone || (s.tileAt x).tile == l))

/-- One byte at a virtual address of a job, under its page tables at level S; none where there is none to read. -/
def State.jobByte (s : State) (root : BitVec 36) (jshape : Word) (va : Nat) : Option Byte :=
  let t : Tile := { jshape := jshape }
  if va < spadSize || 2 ^ 48 ≤ va || root = 0 then none
  else
    match walkFrom s.wafer.hbm t.tiles va [39, 30, 21, 12] (root.toNat * 4096) with
    | none => none
    | some (base, _, pte) =>
      let p := pteFrame pte + (va - base)
      let l := t.logical (p / 2 ^ 23)
      if !pte.getLsbD 2 then none
      else
        match pteType pte with
        | 0 => (s.wafer.bytesAt .hbm p 1).head?
        | 1 => (s.standsAt l).map (fun x => (s.tileAt x).mem.read (p % 2 ^ 23))
        | 2 => (s.wafer.bytesAt (.host (BitVec.ofNat 3 (field pte 48 8))) p 1).head?
        | 3 => (s.wafer.bytesAt (.peer (BitVec.ofNat 8 (field pte 48 8))) p 1).head?
        | 4 => (s.standsAt l).map (fun x => (s.tileAt x).box.mem.read (p % 2 ^ 23))
        | _ => none

/-- n bytes at a virtual address of a job. -/
def State.jobBytes (s : State) (root : BitVec 36) (jshape : Word) (va n : Nat) : Option (List Byte) :=
  (List.range n).mapM (fun i => s.jobByte root jshape (va + i))

/-! ### The checks of the descriptor (R377, R400) -/

/-- The descriptor as entry 0 of an empty flow table. -/
def flowEntry (b : List Byte) : Box := { table := Memory.writeCells [] (cellsAt 0 b) }

/-- Status 1: reserved fields are zero, and fields keep the limits of R377. -/
def flowFieldsOk (d : Box) (len : Nat) : Bool :=
  let zero (o : Nat) (mask : W32) : Bool := d.word 0 o &&& mask == 0
  let lo := d.word 0 0x18
  let hi := d.word 0 0x1C
  let spans := decide (lo.toNat % 32 = 0) && decide (hi.toNat % 32 = 0) && decide (lo.toNat < hi.toNat) &&
    decide (hi.toNat ≤ spadSize)
  zero 0 0xFFFFC088 && zero 4 0xFF800800 && zero 8 0xFFE00000 && zero 0xC 0xFFFFFE00 && zero 0x10 0xFF00 &&
    zero 0x14 0xFFFFFFFF && zero 0x18 0xFF800000 && zero 0x1C 0xFF000000 && zero 0x24 0xFFF80000 &&
    zero 0x28 0xFFF08000 && zero 0x2C 0xFFF08FFF && zero 0x30 0xFE000000 && zero 0x34 0xFFFFFFFF &&
    d.classes 0 != 0 && decide (1 ≤ d.len 0) && decide (d.stop 0 ≤ 2048) && d.len 0 == len &&
    decide (d.windowBase 0 + d.windowSize 0 ≤ 0x8000) && decide (1 ≤ d.budget 0) && decide (d.budget 0 ≤ 256) &&
    decide (d.altn 0 ≤ 4) && (if d.classes 0 / 2 = 0 then lo == 0 && hi == 0 else spans) &&
    (d.classes 0 % 2 == 1 || zero 0x10 0xFFFF00FF)

/-- Status 10: the hosting tile, the alternates in use, the mailbox tile and MEMBERS lie in the job's rectangle. -/
def flowTilesOk (d : Box) (tile W H : Nat) : Bool :=
  let m := d.members 0
  decide (tile < W * H) && (List.range (d.altn 0)).all (fun k => decide (d.alt 0 k < W * H)) &&
    decide (field (d.word 0 0x28) 0 12 < W * H) && decide (m.1 < W * H) && decide (m.1 % W + m.2.1 ≤ W) &&
    decide (m.1 / W + m.2.2 ≤ H)

/-- The first status that the descriptor breaks (R400). -/
def descriptorStatus (d : Box) (tile len W H : Nat) : Nat :=
  if !flowFieldsOk d len then 1
  else if !flowTilesOk d tile W H then 10
  else if d.stateful 0 && (d.word 0 0x30 == 0 || d.windowSize 0 == 0) then 11
  else 0

/-! ### The checks of the kernel (R386, R400, R401) -/

/-- The places of the words that lie in a rpt body. -/
def bodyPlaces (ws : List Nat) : List Nat :=
  ws.zipIdx.flatMap (fun p => if isRpt p.1 then (List.range (rptWords p.1)).map (fun k => p.2 + 1 + k) else [])

/-- The cost of the longest path from each word on, the end of the kernel last (R401): none where a path runs past
the last word. -/
def pathCosts : List Nat → List (Option Nat)
  | [] => [none]
  | w :: r =>
    let c := pathCosts r
    let at_ (k : Nat) : Option Nat := c.getD k none
    let own :=
      if isEnding w then some 1
      else if isBranch w then
        match at_ 0, at_ (branchOffset w) with
        | some a, some b => some (max (1 + a) (2 + b))
        | _, _ => none
      else if isRpt w then
        let body := ((r.take (rptWords w)).map wordCost).sum
        (at_ (rptWords w)).map (fun n => 1 + rptPasses w * body + n)
      else (at_ 0).map (fun n => wordCost w + n)
    own :: c

/-- The first status that the kernel breaks, with what the completion gives (R400). -/
def kernelStatus (d : Box) (ws : List Nat) : Nat × List Nat :=
  let bodies := bodyPlaces ws
  let n := ws.length
  match ws.findIdx? (fun w => !boxLegal w) with
  | some i => (2, [i])
  | none =>
    if !d.stateful 0 && ws.any (fun w => w % 64 == 17 || w % 64 == 19) then (7, [])
    else if ws.zipIdx.any (fun p => (isBranch p.1 && decide (n ≤ p.2 + 1 + branchOffset p.1)) ||
        (isRpt p.1 && decide (n ≤ p.2 + rptWords p.1))) then (3, [])
    else if ws.zipIdx.any (fun p => isControl p.1 && bodies.contains p.2) then (4, [])
    else
      match (pathCosts ws).headD none with
      | none => (5, [])
      | some c => if d.budget 0 < c then (6, [c]) else (0, [])

/-! ### The checks of the junction, and the entry (R375, R400, R402) -/

/-- The flow's entry, words and units are not free: it is installed, or a packet in the box still runs under it. -/
def Box.taken (b : Box) (f : BitVec 6) : Bool :=
  b.valid f || b.queue.any (fun p => p.1 == f) || b.run.any (fun r => r.flow == f)

/-- Two flows match a packet in common (R375). -/
def flowsOverlap (d b : Box) (f : BitVec 6) : Bool :=
  let both := BitVec.ofNat 3 (d.classes 0) &&& BitVec.ofNat 3 (b.classes f)
  let q := d.word 0 0x10 &&& b.word f 0x10
  (both.getLsbD 0 && field q 0 8 != 0 && field q 16 16 != 0) ||
    ((both.getLsbD 1 || both.getLsbD 2) && decide (d.word 0 0x18 < b.word f 0x1C) &&
      decide (b.word f 0x18 < d.word 0 0x1C))

/-- The lowest run of n free words of the program store. -/
def Box.freeWords (b : Box) (n : Nat) : Option Nat :=
  let used := (flowIds.filter b.taken).map (fun f => (b.entry f, b.len f))
  (List.range (2049 - n)).find? (fun a => used.all (fun u => decide (a + n ≤ u.1) || decide (u.1 + u.2 ≤ a)))

/-- The units of a state window are free. -/
def Box.windowFree (b : Box) (a n : Nat) : Bool :=
  (flowIds.filter b.taken).all (fun f =>
    n == 0 || b.windowSize f == 0 || decide (a + n ≤ b.windowBase f) ||
      decide (b.windowBase f + b.windowSize f ≤ a))

/-- The junction's status, or the flow number and ENTRY that it has free (R400). -/
def junctionStatus (d b : Box) : Except Nat (BitVec 6 × Nat) :=
  if (flowIds.filter b.valid).any (flowsOverlap d b) then .error 9
  else
    match flowIds.find? (fun f => !b.taken f), b.freeWords (d.len 0) with
    | some f, some e => if b.windowFree (d.windowBase 0) (d.windowSize 0) then .ok (f, e) else .error 8
    | _, _ => .error 8

/-- The flow is installed (R402). -/
def Box.install (b d : Box) (f : BitVec 6) (e : Nat) (job : BitVec 6) (ws : List Nat) : Box :=
  let ctl : W32 := (d.word 0 0 &&& 0x76) ||| (job.setWidth 32 <<< 8) ||| 1
  let prog := BitVec.ofNat 32 (e + d.len 0 * 2 ^ 12)
  let entry : List W32 :=
    [ctl, prog, d.word 0 8, d.word 0 0xC, d.word 0 0x10, 0, d.word 0 0x18, d.word 0 0x1C, d.word 0 0x20, d.word 0 0x24,
      d.word 0 0x28, d.word 0 0x2C, d.word 0 0x30, 0, 0, 0]
  { b with
    table := b.table.writeCells (cellsAt (64 * f.toNat) (entry.flatMap (fun w => natBytes w.toNat 4))),
    store := b.store.writeCells (cellsAt (4 * e) (ws.flatMap (fun w => natBytes w 4))),
    mem := b.mem.writeCells (cellsAt (d.windowBase 0) (List.replicate (d.windowSize 0) 0)),
    freshFlows := insertNat f.toNat b.freshFlows,
    freshWords := (List.range ws.length).foldl (fun l i => insertNat (e + i) l) b.freshWords }

/-- Words of bytes. -/
def wordsOf : Nat → List Byte → List Nat
  | 0, _ => []
  | n + 1, b => leNat (b.take 4) :: wordsOf n (b.drop 4)

/-- Installing a flow (R400, R402): the descriptor and the words are read once; the checks come in the order of R400. -/
def execInstallFlow (c : InstallCmd) (s : State) : Result :=
  .next (match s.wafer.job c.job with
    | none => s.turnDown c.tag 2
    | some j =>
      match s.jobBytes j.root j.jshape c.desc.toNat 64, s.jobBytes j.root j.jshape c.words.toNat (4 * c.len) with
      | some bytes, some words =>
        let d := flowEntry bytes
        let t : Tile := { jshape := j.jshape }
        let ws := wordsOf c.len words
        let first := descriptorStatus d c.tile.toNat c.len t.width t.height
        if first ≠ 0 then s.complete c.tag first [] []
        else
          let k := kernelStatus d ws
          if k.1 ≠ 0 then s.complete c.tag k.1 k.2 []
          else
            match s.jobTileSite c.job c.tile.toNat with
            | none => s.turnDown c.tag 2
            | some x =>
              if (s.junctionAt x).passThrough then s.turnDown c.tag 2
              else
                match junctionStatus d (s.tileAt x).box with
                | .error e => s.complete c.tag e [] []
                | .ok (f, e) =>
                  (s.atSite x (fun s => s.mapBox (fun b => b.install d f e c.job ws))).complete c.tag 0 [f.toNat, e] []
      | _, _ => s.turnDown c.tag 2)

/-- Removing a flow (R402). -/
def execRemoveFlow (tag : W32) (job : BitVec 6) (tile : TileNo) (flow : BitVec 6) (s : State) : Result :=
  .next (match s.jobTileSite job tile.toNat with
    | none => s.complete tag 1 [] []
    | some x =>
      let b := (s.tileAt x).box
      if b.valid flow && b.job flow == job then
        (s.atSite x (fun s => s.mapBox (fun b => b.removeFlow flow))).accept tag
      else s.complete tag 1 [] [])

end Sys2Proof.Machine
end

