-- ==== Sys2Proof/Machine/Launch.lean ====
section
/-!
DEFINITION. The launch command (11_tasks.md): the launch descriptor and its checks, binding a job and its tiles, the
combining trees, and the bind records of the teams (R17, R18, R105 to R107, R326, R329, R344 to R347, R372, R419).
-/
namespace Sys2Proof.Machine

/-! ### The launch descriptor (R105 to R107) -/

/-- A launch descriptor, as it is read. -/
structure LaunchDesc where
  magic : Nat
  version : Nat
  cores : BitVec 8
  /-- The reserved bytes are zero. -/
  clean : Bool
  entry : Word
  w : Nat
  h : Nat
  wstack : Nat
  blocks : List (Nat × Nat)
  arg : Word
  tshape : Vector Word 8
  deriving DecidableEq, Repr

/-- The descriptor in 128 bytes (R106). -/
def readDesc (b : List Byte) : LaunchDesc :=
  let n (o k : Nat) : Nat := leNat ((b.drop o).take k)
  { magic := n 0 4, version := n 4 2, cores := BitVec.ofNat 8 (n 6 1),
    clean := n 7 1 == 0 && n 0x24 4 == 0 && n 0x70 16 == 0, entry := BitVec.ofNat 64 (n 8 8), w := n 0x10 2,
    h := n 0x12 2, wstack := n 0x14 4, blocks := [0x18, 0x1C, 0x20].map (fun o => (n o 2, n (o + 2) 2)),
    arg := BitVec.ofNat 64 (n 0x28 8),
    tshape := Vector.ofFn (fun i : Fin 8 => BitVec.ofNat 64 (n (0x30 + 8 * i.val) 8)) }

/-- Blocks divide the launch's rectangle, and each divides the next (R105). -/
def blocksOk (w h : Nat) : List (Nat × Nat) → Bool
  | [] => true
  | b :: r =>
    let up := r.headD (w, h)
    decide (0 < b.1) && decide (0 < b.2) && w % b.1 == 0 && h % b.2 == 0 && up.1 % b.1 == 0 && up.2 % b.2 == 0 &&
      blocksOk w h r

/-- The job tiles of a launch (R105). -/
def LaunchDesc.tiles (d : LaunchDesc) (width : Nat) : List Nat :=
  (List.range d.h).flatMap (fun y => (List.range d.w).map (fun x => y * width + x))

/-- The regions that live teams hold on a job tile: of their root cores, and of server slots (R345). -/
def State.heldRegions (s : State) (job : BitVec 6) (t : Nat) : List (Nat × Nat) :=
  let ls := s.wafer.launches.filter (fun l => l.job == job && l.live.contains t)
  let roots := ls.flatMap (fun l => (coresOf l.cores).map (fun c => windowRegion c l.wstack))
  let region (r : BindRecord) : Option (Nat × Nat) := if r.server then some (r.wbase.toNat, r.wlimit.toNat) else none
  let bound := match s.jobTileSite job t with
    | some x => coreIds.filterMap (fun c => (s.coreOfSite x c).slot.bind region)
    | none => []
  let away := (s.wafer.saved.filter (fun k => k.job == job && k.team.toNat % 4096 == t)).flatMap (fun k =>
    k.slots.filterMap (fun p => region p.2))
  roots ++ bound ++ away

/-- A region of the launch overlaps a region that is held (R345). -/
def State.windowsMeet (s : State) (job : BitVec 6) (d : LaunchDesc) (t : Nat) : Bool :=
  let mine := (coresOf d.cores).map (fun c => windowRegion c d.wstack)
  (s.heldRegions job t).any (fun a => mine.any (fun b => decide (a.1 < b.2) && decide (b.1 < a.2)))

/-- WSTACK keeps the limits of R105 and R345. -/
def LaunchDesc.wstackOk (d : LaunchDesc) : Bool :=
  d.wstack % 128 == 0 && decide (1024 ≤ d.wstack) && decide (d.wstack ≤ 1048576) &&
    (coresOf d.cores).all (fun c => decide ((c.toNat + 1) * d.wstack ≤ 0x300000))

/-- MAILBOX is laid out as a destination and names a job tile of the rectangle (R319, R346). -/
def mailboxOk (m : Word) (tiles : Nat) : Bool :=
  field m 15 1 == 0 && field m 20 44 == 0 && decide (field m 0 12 < tiles)

/-- The formats that an elastic launch may name (R372): 32 stands for exact. -/
def elasticOk (f : Option Nat) : Bool :=
  match f with
  | none => true
  | some n => n == 32 || ([Tag.i32, Tag.i16, Tag.i8, Tag.n32, Tag.n16, Tag.n8].map Tag.code).contains n

/-- The level that the command asks for is permitted (R346). -/
def State.levelOk (s : State) (c : LaunchCmd) : Bool :=
  c.level == 0 || (c.level == 1 && s.wafer.rim.supervisor.getLsbD c.port.toNat)

/-- A rectangle keeps the limits of R17. -/
def rectOk (t : Tile) : Bool :=
  decide (1 ≤ t.width) && decide (t.width ≤ 64) && decide (1 ≤ t.height) && decide (t.height ≤ 60) &&
    decide (field t.jshape 16 6 + t.width ≤ 64) && decide (field t.jshape 24 6 + t.height ≤ 60)

/-- The status of a launch after its level, in the order of R344. -/
def State.launchStatus (s : State) (c : LaunchCmd) (d : LaunchDesc) (j : Job) : Nat :=
  let t : Tile := { jshape := j.jshape }
  if d.magic ≠ 0x51444553 || d.version ≠ 1 then 1
  else if !d.clean then 2
  else if d.cores = 0 then 3
  else if d.entry.getLsbD 0 || c.handler.getLsbD 0 then 4
  else if !rectOk t || d.w = 0 || d.h = 0 || decide (t.width < d.w) || decide (t.height < d.h) || !blocksOk d.w d.h d.blocks ||
      !d.wstackOk || !mailboxOk c.mailbox t.tiles || (d.tiles t.width).any (s.windowsMeet c.job d) then 5
  else if !elasticOk c.elastic then 7
  else if c.hbm.isNone then 6
  else 0

/-! ### Binding a job (R17, R18, R143, R155, R369, R418, R419, R450) -/

/-- Two rectangles share a logical tile. -/
def rectsMeet (a b : Tile) : Bool :=
  let ax := field a.jshape 16 6
  let ay := field a.jshape 24 6
  let bx := field b.jshape 16 6
  let by_ := field b.jshape 24 6
  decide (ax < bx + b.width) && decide (bx < ax + a.width) && decide (ay < by_ + b.height) &&
    decide (by_ < ay + a.height)

/-- The job of a launch command: bound already, or as the dispatcher places it, with its policy (R188, R409). -/
def State.jobFor (s : State) (c : LaunchCmd) : Job :=
  match s.wafer.job c.job with
  | some j => j
  | none =>
    let p := c.place
    { job := c.job, prio := p.prio, jshape := p.jshape, root := p.root, race := p.race, quota := storedQuota p.quota,
      ckctl := storedCkctl p.ckctl }

/-- A bound job that has nothing left to run: no launch, no team, no recovery (assumption 55). -/
def State.idleJob (s : State) (k : Job) : Bool :=
  !(s.wafer.launches.any (fun l => l.job == k.job)) && !(s.wafer.saved.any (fun t => t.job == k.job)) &&
    (s.jobSites k.job).all (fun x => (s.focusSite x).slots.isEmpty) &&
    !(s.wafer.healing.recoveries.any (fun r => (s.wafer.waybill r.tile).any (fun b => b.job == k.job)))

/-- A job ends (R18, R402): its tiles are nobody's, its flows are removed, and its waybills and rounds are freed. -/
def dissolveJob (s : State) (k : Job) : State :=
  let xs := s.jobSites k.job
  let ts := (s.wafer.healing.waybills.filter (fun b => b.job == k.job)).map (·.tile)
  let s := s.atSites (fun s => s.loadTile { bank := s.tile.bank, box := s.tile.box.emptied } []) xs
  let h := s.wafer.healing
  { s with wafer := { s.wafer with
      jobs := s.wafer.jobs.filter (fun j => j.job != k.job),
      barriers := s.wafer.barriers.filter (fun b => b.domain.job != k.job),
      treeMarks := s.wafer.treeMarks.filter (fun m => m.domain.job != k.job),
      healing := { h with
        waybills := h.waybills.filter (fun b => b.job != k.job), rounds := h.rounds.filter (fun r => r.job != k.job),
        sent := h.sent.filter (fun e => !(ts.contains e.dst)),
        away := h.away.filter (fun a => a.image.tile.job != some k.job) } } }

/-- The jobs whose rectangles meet that of a job to be bound. -/
def State.inTheWay (s : State) (j : Job) : List Job :=
  if (s.wafer.job j.job).isSome then [] else s.wafer.jobs.filter (fun k => rectsMeet { jshape := j.jshape } { jshape := k.jshape })

/-- The sites of the logical tiles of a job, by job tile; none while a tile stands nowhere. -/
def State.sitesOf (s : State) (j : Job) : Option (List (Nat × SiteId)) :=
  let t : Tile := { jshape := j.jshape }
  (List.range t.tiles).mapM (fun n => (s.standsAt (t.logical n)).map (fun x => (n, x)))

/-- A memory without the cells of n bytes from a. -/
def Memory.clear (m : Memory) (a n : Nat) : Memory := m.filter (fun c => decide (c.1 < a) || decide (a + n ≤ c.1))

/-- The holder of a tile's shadow (R418, R419): the pair site, unless it is fused, failed or holds another's. -/
def State.pickHolder (s : State) (x : SiteId) : Holder :=
  let y := buddySite x
  if s.wafer.healing.waybills.any (fun b => b.buddy == some y) then .hbm
  else
    match (s.junctionAt y).status with
    | .logical => .buddy y
    | .reserve => .buddy y
    | _ => .hbm

/-- The image of a tile's binding: the first commit, and the depot image of the job's epoch (R411, R419, R450). -/
def bindImage (epoch : BitVec 16) (s : State) : State :=
  let img := { s.image s.detCount with area := s.areaBytes }
  let s := s.mapWaybill (fun b => { b with committed := img, depots := [(epoch, img)] })
  match s.wafer.waybill s.tile.tile with
  | some b => { s with wafer := (s.wafer.writeRecord b img).writeSlot b epoch img }
  | none => s

/-- A tile is given to a job: cleared, with its tile record and its waybill, whose first image is the cleared tile; the
fourth part of the waybill region is zero (R419). -/
def giveJobTile (j : Job) (a : LaunchHbm) (s : State) (p : Nat × SiteId) : State :=
  let n := p.1
  s.atSite p.2 (fun s =>
    let record := a.record + 0x80000 * n
    let t := freshTile s.tile j.job j.prio (BitVec.ofNat 12 n) j.jshape (BitVec.ofNat 64 record) j.epoch
      (j.quota, j.ckctl) s.wafer.clock
    let s := s.loadTile t []
    let h := s.wafer.healing
    let b : Waybill :=
      { tile := t.tile, job := j.job, region := a.waybill + 0x2000000 * n, slots := a.depot + 0x1000000 * n,
        holder := s.pickHolder s.site, committed := s.image 0, beatAt := s.wafer.clock }
    let rest := h.waybills.filter (fun (b : Waybill) => b.tile != t.tile)
    let hbm := (s.wafer.hbm.clear record 0x80000).clear (b.region + 0x1100000) 0x100000
    bindImage j.epoch { s with wafer := { s.wafer with hbm := hbm, healing := { h with waybills := rest ++ [b] } } })

/-- A job is bound (R17, R18): all its tiles are its own, and its binding counts as its first depot round (R450). -/
def bindJob (j : Job) (a : LaunchHbm) (ps : List (Nat × SiteId)) (s : State) : State :=
  let now := s.wafer.clock
  let s := { s with wafer := { s.wafer with jobs := s.wafer.jobs ++ [{ j with depotAt := now }] } }
  let s := ps.foldl (giveJobTile j a) s
  let t : Tile := { jshape := j.jshape }
  let r : DepotRound :=
    { job := j.job, epoch := j.epoch, complete := true, clock := now, closed := (List.range t.tiles).map t.logical }
  let h := s.wafer.healing
  { s with wafer := { s.wafer with healing := { h with rounds := h.rounds ++ [r] } } }

/-! ### Combining trees (R329) -/

/-- The trees of a launch; none while a junction has no free entry. -/
def buildTrees (l : Launch) (ps : List (Nat × SiteId)) (s : State) : Option State :=
  let site (t : Nat) : Option SiteId := (ps.find? (fun p => p.1 == t)).map (·.2)
  l.domains.foldl (fun o d => o.bind (addTree d.1 (d.2.filterMap site))) (some s)

/-- DOMn of a team on a job tile (R326), as the record carries it; TREE names the entry of the tile in focus. -/
def State.domWord (s : State) (l : Launch) (t n : Nat) : Word :=
  let b := l.block n
  let did := if n = 0 then t else t / l.width / b.2 * (l.w / b.1) + t % l.width / b.1
  let k : DomainKey :=
    { job := l.job, launch := l.num, level := BitVec.ofNat 2 n, did := BitVec.ofNat 12 did, alone := none }
  let tree := if n = 0 then 0 else s.junction.trees.toList.findIdx (fun e => e == some k)
  BitVec.ofNat 64 (did + b.1 * b.2 * 2 ^ 12 + tree * 2 ^ 24 + l.cores.toNat * 2 ^ 32)

/-! ### Launch numbers, bind records and teams (R345 to R348) -/

/-- The number of the next launch of a job (R347): past the last one, wrapping to 1, and of no live launch. -/
def Wafer.nextLaunch (w : Wafer) (j : Job) : BitVec 20 :=
  let n (k : Nat) : BitVec 20 := BitVec.ofNat 20 ((j.lastLaunch.toNat + k) % (2 ^ 20 - 1) + 1)
  (((List.range (w.launches.length + 1)).map n).find? (fun m => (w.launch j.job m).isNone)).getD (n 0)

/-- The bind record of a core of the launch on the tile in focus (R347). -/
def State.launchRecord (s : State) (c : LaunchCmd) (d : LaunchDesc) (j : Job) (l : Launch) (a : LaunchHbm)
    (n : CoreId) : BindRecord :=
  let t := s.tile.jt.toNat
  let w := windowRegion n d.wstack
  { team := BitVec.ofNat 32 (l.num.toNat * 4096 + t), server := false, cores := d.cores,
    level := BitVec.ofNat 2 c.level, race := j.race, job := j.job, prio := j.prio, entry := d.entry, wbase := BitVec.ofNat 32 w.1,
    wlimit := BitVec.ofNat 32 w.2, arg := d.arg, save := BitVec.ofNat 64 (a.save + 0x200000 * t),
    tvec := c.handler &&& 0xFFFFFFFFFFFE, tlimit := 0, bpHigh := 0, bp0 := 0, bp1 := 0, dom0 := s.domWord l t 0,
    dom1 := s.domWord l t 1, dom2 := s.domWord l t 2, dom3 := s.domWord l t 3, tshape := d.tshape, root := j.root,
    jshape := j.jshape, tileRecord := s.tile.record }

/-- A team whose cores other teams hold waits in its save area for its slots (R366, R370). -/
def queueTeam (rs : List (CoreId × BindRecord)) (s : State) : State :=
  match rs with
  | [] => s
  | p :: _ =>
    let n := s.wafer.free
    let s := rs.foldl (fun (s : State) (r : CoreId × BindRecord) =>
      let t := s.focusCore r.1
      let saved := ({ t with core := startedCore r.2 n }).saveCore r.2.save.toNat []
      ({ saved with core := t.core }).focusCore s.coreNo) s
    let k : SavedTeam :=
      { team := p.2.team, job := p.2.job, tile := s.tile.tile, prio := p.2.prio, slots := rs,
        cores := rs.map (fun r => (r.1, startedCore r.2 n)), clock := s.wafer.clock }
    { s with wafer := { s.wafer with saved := s.wafer.saved ++ [k], free := s.wafer.free + 1 } }

/-- The team of a launch on the tile in focus is bound (R347, R348); a tile that was just given to the job commits
with it, another takes a boundary. -/
def bindTeam (c : LaunchCmd) (d : LaunchDesc) (j : Job) (l : Launch) (a : LaunchHbm) (new : Bool) (s : State) : State :=
  let rs := (coresOf d.cores).map (fun n => (n, s.launchRecord c d j l a n))
  let s := if rs.all (fun r => (s.coreAt r.1).slot.isNone) then rs.foldl (fun s r => bindCore r.1 r.2 s) s
    else queueTeam rs s
  if new then
    bindImage j.epoch s
  else if s.keepsWaybill then s.requestBoundary
  else s

/-- An accepted launch (R344): the job and its tiles, the launch, its trees and its teams; none where the dispatcher
finds no sites or no tree entries. -/
def placeLaunch (c : LaunchCmd) (d : LaunchDesc) (j : Job) (a : LaunchHbm) (s : State) : Option State :=
  let s := (s.inTheWay j).foldl dissolveJob s
  match s.sitesOf j with
  | none => none
  | some ps =>
    let new := (s.wafer.job j.job).isNone
    let s := if new then bindJob j a ps s else s
    let t : Tile := { jshape := j.jshape }
    let l : Launch :=
      { job := j.job, num := s.wafer.nextLaunch j, mailbox := c.mailbox, port := c.port, cores := d.cores,
        width := t.width, w := d.w, h := d.h, blocks := d.blocks, wstack := d.wstack, live := d.tiles t.width,
        split := c.elastic.map (fun _ => max 1 (min c.split (d.w * d.h))) }
    let w := { s.wafer with launches := s.wafer.launches ++ [l] }
    let s := { s with wafer := w.setJob j.job (fun j => { j with lastLaunch := l.num }) }
    (buildTrees l ps s).map (fun s =>
      (ps.filter (fun p => l.live.contains p.1)).foldl (fun s p => s.atSite p.2 (bindTeam c d j l a new)) s)

/-- The port has carried a command (R346, R470). -/
def State.carry (s : State) (port : BitVec 3) : State :=
  let r := s.wafer.rim
  { s with wafer := { s.wafer with rim := { r with carried := r.carried ||| (1 <<< port.toNat) } } }

/-- The stations place work once all four quadrants have handed off (R461, R467). -/
def State.stationsReady (s : State) : Bool :=
  ([0, 1, 2, 3] : List (BitVec 2)).all (fun q => s.wafer.boot.handedOff.contains q)

/-- A launch command that the stations take up (R344): one whose descriptor cannot be read, or whose job would stand on
the tiles of another that still runs (R18), is turned down. -/
def launchNow (c : LaunchCmd) (s : State) : State :=
  if !s.levelOk c then s.complete c.tag 8 [] []
  else
    let j := s.jobFor c
    match s.jobBytes j.root j.jshape c.desc.toNat 128 with
    | none => s.turnDown c.tag 1
    | some b =>
      let d := readDesc b
      let st := s.launchStatus c d j
      match c.hbm with
      | none => s.complete c.tag st [] []
      | some a =>
        if st ≠ 0 then s.complete c.tag st [] []
        else if !((s.inTheWay j).all s.idleJob) then s.turnDown c.tag 1
        else
          match placeLaunch c d j a s with
          | some s => s.accept c.tag
          | none => s.turnDown c.tag 1

/-- The launch command (R344); one that comes before the stations place work waits for them (R467). -/
def execLaunch (c : LaunchCmd) (s : State) : Result :=
  let s := s.carry c.port
  .next (if s.stationsReady then launchNow c s
    else { s with wafer := { s.wafer with boot := { s.wafer.boot with waiting := s.wafer.boot.waiting ++ [c] } } })

/-- The launch commands that waited for the stations are taken up in their order (R467). -/
def launchWaiting (s : State) : State :=
  s.wafer.boot.waiting.foldl (fun s c => launchNow c s)
    { s with wafer := { s.wafer with boot := { s.wafer.boot with waiting := [] } } }

end Sys2Proof.Machine
end

