-- ==== Sys2Proof/Machine/Command.lean ====
section
/-!
DEFINITION. The other commands of the host (R472): answers to fault records, page-table changes, cleared sites,
attestation, thresholds and the power limit; and what the host writes through an MHL port (15_bringup.md, R470, R471, R473).
-/
namespace Sys2Proof.Machine

/-! ### Parked jobs (R286, R312) -/

/-- The parked tile card of a ticket in the core in focus. -/
def Core.parkedCard (c : Core) (seq : BitVec 16) : Option TileCard :=
  c.eng.cards.find? (fun k => k.seq == some seq && k.state == .parked)

/-- The parked copy job of a ticket in the core in focus. -/
def Core.parkedJob (c : Core) (seq : BitVec 16) : Option CopyJob :=
  c.cpy.jobs.find? (fun j => j.seq == seq && j.state == .parked)

/-- A parked job of the core in focus goes on: its row or chunk is checked again. -/
def resumeParked (copy : Bool) (seq : BitVec 16) (s : State) : Option State :=
  if copy then
    (s.core.parkedJob seq).map (fun j => s.setJob j.num (fun j => { j with state := .started, fault := none }))
  else
    (s.core.parkedCard seq).map (fun k =>
      { s with core := s.core.setCard k.num (fun k => { k with state := .started, fault := none }) })

/-- A parked job of the core in focus ends with the cause that its record named, and the address: of a copy job's chunk
its first byte (R297, R299). -/
def failParked (copy : Bool) (seq : BitVec 16) (s : State) : Option State :=
  if copy then
    (s.core.parkedJob seq).map (fun j =>
      let why := j.fault.getD (4, 0)
      let va := if j.checked then j.chunkVa else why.2
      s.setJob j.num (fun j => { j with state := .started, fault := none }.end_ why.1 va))
  else
    (s.core.parkedCard seq).map (fun k =>
      let why := k.fault.getD (4, 0)
      endFaulted k why.1 why.2 s)

/-- The answer to a fault record, at the tile that it names (R472 code 4). -/
def answerParked (tag : W32) (k : ParkedJob) (f : Bool → BitVec 16 → State → Option State) (s : State) : State :=
  match s.carrier k.tile with
  | none => s.turnDown tag 4
  | some x =>
    match f k.copy k.seq (s.focus x k.core) with
    | some t => (t.focus s.site s.coreNo).accept tag
    | none => s.turnDown tag 4

def execFaultAnswerResume (tag : W32) (job : ParkedJob) (s : State) : Result :=
  .next (answerParked tag job resumeParked s)

def execFaultAnswerFail (tag : W32) (job : ParkedJob) (s : State) : Result :=
  .next (answerParked tag job failParked s)

/-! ### Page tables (R144) -/

/-- A core without the job's translations; a walk that has failed is made again. -/
def Core.dropPages (c : Core) (job : BitVec 6) : Core :=
  { c with
    tlb := c.tlb.filter (fun e => e.job != job),
    walk := match c.walk with
      | some w => if w.job = job ∧ w.failed then none else some w
      | none => none }

/-- Every matching entry of every tile of the job is invalidated before the command completes (R144). -/
def execPageTableChange (tag : W32) (job : BitVec 6) (s : State) : Result :=
  .next ((s.atSites (fun s =>
    let s := s.updCores (fun c => c.dropPages job)
    { s with tile := { s.tile with tlb := s.tile.tlb.filter (fun e => e.job != job) } }) (s.jobSites job)).accept tag)

/-! ### Sites, thresholds and power (R146, R452, R477) -/

/-- A site that a crane marked failed becomes a reserve again (R14, R452): in its junction and in every map. -/
def execClearFailedSite (tag : W32) (site : SiteId) (s : State) : Result :=
  .next (if (s.junctionAt site).status = .failed then
      let s := s.atSite site (fun s =>
        { vacate s with junction := { s.junction with status := .reserve, passThrough := false } })
      let s := s.atSites (fun s =>
        { s with junction := { s.junction with map := setMap site.toNat 2 s.junction.map } }) s.siteIds
      let h := s.wafer.healing
      { s with wafer := { s.wafer with healing := { h with dead := h.dead.filter (· != site) } } }.accept tag
    else s.turnDown tag 8)

/-- The number of a unit that counts accesses (R146), if it is one. -/
def counterKey : CounterUnit → Option Nat
  | .controller c => if c.toNat < 40 then some c.toNat else none
  | .hostPort p => some (40 + p.toNat)

/-- The threshold of migration hints of a unit (R146). -/
def execSetAccessCounterThreshold (tag : W32) (unit : CounterUnit) (value : BitVec 16) (s : State) : Result :=
  .next (match counterKey unit with
    | some k =>
      let r := s.wafer.rim
      { s with wafer := { s.wafer with rim := { r with limits := putKey r.limits k value.toNat } } }.accept tag
    | none => s.turnDown tag 11)

/-- The power limit (R477), from 6 to 24 kW. -/
def execSetPowerLimit (tag : W32) (watts : Nat) (s : State) : Result :=
  .next (if 6000 ≤ watts ∧ watts ≤ 24000 then
      { s with wafer := { s.wafer with rim := { s.wafer.rim with watts := watts } } }.accept tag
    else s.turnDown tag 12)

/-! ### Attestation (R476) -/

/-- The bytes of a report before its signature. -/
def reportBody (nonce : BitVec 384) (w : Wafer) : List Byte :=
  natBytes Config.reportHeader.toNat 16 ++ natBytes Config.deviceSerial.toNat 16 ++ natBytes nonce.toNat 48 ++
    w.boot.measured.toList.flatMap (fun m => natBytes m.toNat 48) ++ natBytes Config.svnMinimums.toNat 16 ++
    List.replicate 128 0

/-- The report of 896 bytes, signed by the identity key. -/
def execAttest (tag : W32) (nonce : BitVec 384) (s : State) : Result :=
  let body := reportBody nonce s.wafer
  .next (s.complete tag 0 [] (body ++ natBytes (Config.identitySign (Config.sha384 body)).toNat 96))

def execReadCertificateChain (tag : W32) (s : State) : Result := .next (s.complete tag 0 [] Config.certificates)

/-! ### Writes of the host (R470, R471, R473) -/

/-- A host write through a memory window is performed at HBM; the span selects 64 GiB (R470, R473). -/
def execHostWindowWrite (_port _window : BitVec 3) (span : BitVec 6) (offset : BitVec 36) (data : List Byte)
    (s : State) : Result :=
  let a := span.toNat * 2 ^ 36 + offset.toNat
  if a + data.length ≤ hbmSize then
    .next { s with wafer := { s.wafer with hbm := s.wafer.hbm.writeCells (cellsAt a data) } }
  else .fault (.noSuchMemory a)

/-- The supervisor-launch enable of a port can be written until the port carries its first command (R346, R470). -/
def execSupervisorLaunchEnableWrite (port : BitVec 3) (value : Bool) (s : State) : Result :=
  let r := s.wafer.rim
  let bit : BitVec 8 := 1 <<< port.toNat
  .next (if r.carried.getLsbD port.toNat then s
    else
      let v := if value then r.supervisor ||| bit else r.supervisor &&& ~~~bit
      { s with wafer := { s.wafer with rim := { r with supervisor := v } } })

/-- The consumer index of a ring moves on: the entries that the host has read leave it (R471). -/
def execConsumerIndexWrite (ring : Ring) (index : Nat) (s : State) : Result :=
  let w := s.wafer
  let r := w.rim
  let (c, f, n) := r.consumed
  .next (match ring with
    | .completion =>
      let k := min index (c + w.completions.length) - c
      { s with wafer := { w with completions := w.completions.drop k, rim := { r with consumed := (c + k, f, n) } } }
    | .fault =>
      let k := min index (f + w.faults.length) - f
      { s with wafer := { w with faults := w.faults.drop k, rim := { r with consumed := (c, f + k, n) } } }
    | .notification =>
      let k := min index (n + w.notices.length) - n
      { s with wafer := { w with notices := w.notices.drop k, rim := { r with consumed := (c, f, n + k) } } })

end Sys2Proof.Machine
end

