-- ==== Sys2Proof/Machine/Boot.lean ====
section
/-!
DEFINITION. Reset and boot (15_bringup.md, R456 to R467, R475, R476): self-tests, discovery, the points floods, stage
two, joining and hand-off, and the firmware of stations and cranes.
-/
namespace Sys2Proof.Machine

/-! ### Reset (R456 to R458) -/

/-- Reset is asserted: every unit is quiet and at its reset values; memory outside the wafer's sites and the boot flash
keep what they hold, and CLOCK counts from zero (R342, R456, R476). -/
def execResetAssert (s : State) : Result :=
  let w := s.wafer
  .next { wafer := { hbm := w.hbm, host := w.host, peer := w.peer, agenda := w.agenda, free := w.free,
                     boot := { held := true, flash := w.boot.flash } } }

/-- Reset is released: the sites begin their self-tests (R456). -/
def execResetRelease (s : State) : Result :=
  .next { s with wafer := { s.wafer with boot := { s.wafer.boot with held := false } } }

/-- The tile of a good site of a quadrant under the boot binding (R456, R457). -/
def bootTileOf (q : BitVec 2) : Tile :=
  { bootTile with
    job := some (60 + q.setWidth 6),
    jshape := BitVec.ofNat 64 (0x1E20 + 32 * (q.toNat % 2) * 2 ^ 16 + 30 * (q.toNat / 2) * 2 ^ 24) }

/-- What a self-test makes of the site in focus (R14, R456, R468). -/
def selfTested (r : SelfTest) (s : State) : State :=
  let j := s.junction
  let q := quadrant s.site
  match r with
  | .passed =>
    let t := { s with junction := { j with status := .reserve, located := isCorner s.site } }
    t.loadTile (bootTileOf q) [(0, bootCore)]
  | .fused => { s with junction := { j with status := .fused, passThrough := true } }
  | .failed => { s with junction := { j with status := .failed, passThrough := true, located := isCorner s.site } }
  | .deadJunction =>
    let h := s.wafer.healing
    { s with junction := { j with status := .failed, passThrough := true },
             wafer := { s.wafer with healing := { h with dead := h.dead ++ [s.site] } } }

/-- A site's self-test ends (R456); a corner is never fused, and one that fails leaves its quadrant without boot
(R458). -/
def execSelfTestComplete (site : SiteId) (result : SelfTest) (s : State) : Result :=
  let t := s.focusSite site
  .next (if s.wafer.boot.held || t.junction.status != .untested || (isCorner site && result == .fused) then s
    else
      let t := selfTested result t
      if isCorner site && result != .passed then
        let b := t.wafer.boot
        { t with wafer := { t.wafer with boot := { b with failed := b.failed ++ [quadrant site] } } }
      else t)

/-! ### Boot commands (R460, R461) -/

/-- The site in focus runs a boot command that has not begun. -/
def Site.starts (j : Site) (op : BitVec 4) : Bool := j.plaBusy && !j.plaBegun && j.plaOp == op

/-- The command has begun. -/
def State.begin (s : State) : State := { s with junction := { s.junction with plaBegun := true } }

/-- A boot command begins at a corner. -/
def startCommand (op : BitVec 4) (site : SiteId) (k : State → State) (s : State) : Result :=
  let t := s.focusSite site
  .next (if t.junction.starts op then k t.begin else s)

/-- The command ends with a result (R461); a failure shows in the boot status (R467). -/
def endCommand (result : BitVec 8) (s : State) : State :=
  let s := { s with junction := { s.junction with plaBusy := false, plaBegun := false, plaResult := result } }
  if result = 0 then s else s.post (.bootStatus (quadrant s.site) s.junction.plaOp.toNat result.toNat)

/-! ### Discovery (R462) -/

/-- The neighbour through a port, if there is one. -/
def neighbour (x : SiteId) (p : Port) : Option SiteId :=
  let c := field x 0 6
  let r := field x 6 6
  match p with
  | .north => if r = 0 then none else some (x - 64)
  | .south => if r = 63 then none else some (x + 64)
  | .west => if c = 0 then none else some (x - 1)
  | .east => if c = 63 then none else some (x + 1)

/-- The port of the neighbour that faces a port. -/
def facing : Port → Port
  | .north => .south
  | .south => .north
  | .west => .east
  | .east => .west

/-- The ports of a site that lead to a site of its quadrant. -/
def quadrantPorts (x : SiteId) : List Port :=
  [Port.west, Port.east, Port.north, Port.south].filter (fun p =>
    match neighbour x p with
    | some y => quadrant y == quadrant x
    | none => false)

/-- The sites of a quadrant, rising. -/
def quadrantSites (q : BitVec 2) : List SiteId :=
  ((List.range 4096).map (BitVec.ofNat 12)).filter (fun x => quadrant x == q)

/-- A packet to the neighbour through a port. -/
def sendThrough (p : Port) (m : SiteId → Port → Msg) (s : State) : State :=
  match neighbour s.site p with
  | some y => s.launchPacket .relief (.site y) none (m y (facing p))
  | none => s

/-- The junction in focus asks through some ports and waits for their answers. -/
def askThrough (ps : List Port) (s : State) : State :=
  let q := quadrant s.site
  let s := { s with junction := { s.junction with asked := ps, since := s.wafer.clock } }
  ps.foldl (fun s p => sendThrough p (fun y f => .discovery q y f) s) s

/-- When nothing is awaited, the states of the subtree go to the parent. -/
def echoIfDone (s : State) : State :=
  match s.junction.asked, s.junction.parent with
  | [], some p => sendThrough p (fun y f => .discoveryEcho y f s.junction.subtree) s
  | _, _ => s

/-- The state of a site as an echo carries it. -/
def echoState (j : Site) : BitVec 2 :=
  match j.status with
  | .fused => 0
  | .failed => 3
  | _ => 2

/-- DISCOVER: a flood of the quadrant begins anew at its corner. -/
def execDiscover (site : SiteId) (s : State) : Result :=
  startCommand 1 site (fun s =>
    let s := s.atSites (fun s => { s with junction := { s.junction with found := false, parent := none, asked := [] } })
      (s.siteIds.filter (fun x => quadrant x == quadrant site))
    let s := { s with junction := { s.junction with found := true, subtree := [(s.site.toNat, echoState s.junction)] } }
    askThrough (quadrantPorts s.site) s) s

/-- A discovery packet reaches a junction through a port. -/
def discoverHere (port : Port) (s : State) : State :=
  if s.junction.found then sendThrough port (fun y f => .discoveryEcho y f []) s
  else
    let j := s.junction
    let s := { s with junction := { j with
        located := true, found := true, parent := some port, subtree := [(s.site.toNat, echoState j)] } }
    echoIfDone (askThrough ((quadrantPorts s.site).filter (· != port)) s)

/-- A discovery packet arrives; a dead junction takes no notice, and one under test is quiet. -/
def execDiscoveryPacketArrival (id : Nat) (s : State) : Result :=
  .next (match s.packet id with
    | some { msg := .discovery _ x port, .. } =>
      let t := s.focusSite x
      if s.wafer.healing.dead.contains x then s.dropPacket id
      else if t.junction.status = .untested then s
      else discoverHere port (t.dropPacket id)
    | _ => s)

/-- An awaited answer has come. -/
def answered (port : Port) (l : List (Nat × BitVec 2)) (s : State) : State :=
  let j := s.junction
  if j.asked.contains port then
    echoIfDone { s with junction := { j with asked := j.asked.erase port, subtree := j.subtree ++ l } }
  else s

/-- An echo arrives. -/
def execDiscoveryEchoArrival (id : Nat) (s : State) : Result :=
  .next (match s.packet id with
    | some { msg := .discoveryEcho x port l, .. } => answered port l ((s.focusSite x).dropPacket id)
    | _ => s)

/-- 2^12 cycles without an answer: a dead junction. -/
def execDiscoveryAnswerTimeout (site : SiteId) (port : Port) (s : State) : Result :=
  let t := s.focusSite site
  .next (match neighbour site port with
    | some y =>
      if t.junction.asked.contains port && decide (t.junction.since + 2 ^ 12 ≤ s.wafer.clock) then
        answered port [(y.toNat, 3)] t
      else s
    | none => s)

/-- The states of the quadrant's sites from the echoes: a site's own word stands before a neighbour's, and a site in
no echo is failed. -/
def mergeEchoes (s : State) : State :=
  let j := s.junction
  let state (x : SiteId) : BitVec 2 :=
    let l := j.subtree.filter (fun e => e.1 == x.toNat)
    match l.find? (fun e => e.2 != 3) with
    | some e => e.2
    | none => 3
  { s with junction := { j with
      map := (quadrantSites (quadrant s.site)).foldl (fun m x => setMap x.toNat (state x) m) j.map } }

/-! ### Points floods (R457, R463 to R465) -/

/-- Logical tile k of a quadrant's block (R463). -/
def blockTile (q : BitVec 2) (k : Nat) : Nat := (30 * (q.toNat / 2) + k / 32) * 64 + 32 * (q.toNat % 2) + k % 32

/-- The quadrant in whose block a logical tile lies. -/
def blockOf (l : Nat) : BitVec 2 := BitVec.ofNat 2 (l / 64 / 30 * 2 + l % 64 / 32)

/-- The job tile of a logical tile in the boot job of its block (R457). -/
def blockJobTile (l : Nat) : Nat := l / 64 % 30 * 32 + l % 32

/-- The entries of a quadrant's block in a points table. -/
def blockPoints (q : BitVec 2) (l : List (Nat × SiteId)) : List (Nat × SiteId) :=
  l.filter (fun e => decide (e.1 < 3840) && blockOf e.1 == q)

/-- The states of a quadrant's sites in a map. -/
def quadrantMap (q : BitVec 2) (m : List (Nat × BitVec 2)) : List (Nat × BitVec 2) :=
  m.filter (fun e => quadrant (BitVec.ofNat 12 e.1) == q)

/-- The junction in focus takes entries and states; a site that an entry names learns its L and JT (R457, R464). -/
def takeBlock (points : List (Nat × SiteId)) (map : List (Nat × BitVec 2)) (s : State) : State :=
  let j := s.junction
  let j := { j with points := points.foldl (fun l e => setPoint e.1 (some e.2) l) j.points,
                    map := map.foldl (fun l e => setMap e.1 e.2 l) j.map }
  match points.find? (fun e => e.2 == s.site) with
  | some e =>
    { s with junction := { j with status := .logical },
             tile := { s.tile with tile := BitVec.ofNat 12 e.1, jt := BitVec.ofNat 12 (blockJobTile e.1) } }
  | none => { s with junction := j }

/-- The junctions that a flood reaches: tested and not dead. -/
def State.liveSites (s : State) : List SiteId :=
  s.siteIds.filter (fun x => (s.junctionAt x).status != .untested && !(s.wafer.healing.dead.contains x))

/-- A flood leaves the corner in focus, which has taken it itself. -/
def startFlood (f : Flood) (s : State) : State :=
  let s := takeBlock f.points f.map s
  let b := s.wafer.boot
  { s with wafer := { s.wafer with boot := { b with floods := b.floods ++ [f] } } }

/-- PTFLOOD: the quadrant's entries and map go to its junctions (R464). -/
def execPtflood (site : SiteId) (s : State) : Result :=
  startCommand 2 site (fun s =>
    let q := quadrant site
    startFlood
      { quadrant := q, wide := false, points := blockPoints q s.junction.points, map := quadrantMap q s.junction.map,
        pending := s.liveSites.filter (fun x => quadrant x == q && x != site) } s) s

/-- The junction holds a quadrant's block (R465). -/
def holdBlock (q : BitVec 2) (s : State) : State :=
  if s.junction.blocks.contains q then s
  else { s with junction := { s.junction with blocks := s.junction.blocks ++ [q] } }

/-- JOIN: the quadrant's block and map go to every junction of the wafer (R465). -/
def execJoin (site : SiteId) (s : State) : Result :=
  startCommand 4 site (fun s =>
    let q := quadrant site
    startFlood
      { quadrant := q, wide := true, points := blockPoints q s.junction.points, map := quadrantMap q s.junction.map,
        pending := s.liveSites.filter (fun x => x != site) } (holdBlock q s)) s

/-- A flooded block reaches a junction, which takes it and acknowledges it (R464, R465). -/
def execPointsBlockArrival (site : SiteId) (quadrant : BitVec 2) (s : State) : Result :=
  .next (match s.wafer.boot.floods.find? (fun f => f.quadrant == quadrant && f.pending.contains site) with
    | none => s
    | some f =>
      let b := s.wafer.boot
      let floods := b.floods.map (fun g => if g = f then { g with pending := g.pending.filter (· != site) } else g)
      let s := { s with wafer := { s.wafer with boot := { b with floods := floods } } }
      let t := takeBlock f.points f.map (s.focusSite site)
      if f.wide then holdBlock quadrant t else t)

/-- No flood of a quadrant's block is under way. -/
def Boot.flooded (b : Boot) (q : BitVec 2) : Bool := b.floods.all (fun f => f.quadrant != q || f.pending.isEmpty)

/-- The logical tiles of a quadrant's block that have no entry in the junction in focus, by k. -/
def State.missingTiles (s : State) (q : BitVec 2) : List Nat :=
  ((List.range 960).map (blockTile q)).filter (fun l => (findPoint s.junction.points l).isNone)

/-- The reserves of the other quadrants in the order in which a quadrant takes them (R465): scan order of each. -/
def State.lentSites (s : State) (q : BitVec 2) : List SiteId :=
  ([1, 2, 3] : List (BitVec 2)).flatMap (fun k =>
    let y := quadrantSites (q + k)
    let lender := s.junctionAt (cornerOf (q + k))
    y.filter (fun x => mapState lender.map x.toNat == 2))

/-- The reserves that stand in for missing tiles are entered at their own corners, and flooded (R465). -/
def lendSites (q : BitVec 2) (pairs : List (Nat × SiteId)) (s : State) : State :=
  let pending := s.liveSites
  ([1, 2, 3] : List (BitVec 2)).foldl (fun s k =>
    let own := pairs.filter (fun p => quadrant p.2 == q + k)
    let corner := cornerOf (q + k)
    if own.isEmpty then s
    else
      s.atSite corner (startFlood
        { quadrant := q, wide := true, points := own, map := own.map (fun p => (p.2.toNat, 1)),
          pending := pending.filter (· != corner) })) s

/-- JOIN comes to its end (R465): with every block everywhere, missing tiles are lent sites, or none can be lent. -/
def finishJoin (s : State) : State :=
  let q := quadrant s.site
  let qs : List (BitVec 2) := [0, 1, 2, 3]
  let all := s.liveSites.all (fun x => qs.all (fun k => (s.junctionAt x).blocks.contains k))
  if !all || !(s.wafer.boot.flooded q) then s
  else
    match s.missingTiles q with
    | [] => endCommand 0 s
    | ls =>
      let xs := s.lentSites q
      if xs.length < ls.length then endCommand 1 s else lendSites q (ls.zip xs) s

/-- A quadrant has not joined within 2^24 cycles (R461). -/
def execJoinTimeout (site : SiteId) (s : State) : Result :=
  let t := s.focusSite site
  let j := t.junction
  .next (if j.plaBusy && j.plaOp == 4 && decide (j.since + 2 ^ 24 ≤ s.wafer.clock) then endCommand 1 t else s)

/-! ### Firmware records (R461, R475, R476) -/

/-- A number in a record. -/
def FlashRecord.num (r : FlashRecord) (o n : Nat) : Nat := leNat ((r.bytes.drop o).take n)

/-- LENGTH, and the bytes that are signed. -/
def FlashRecord.length (r : FlashRecord) : Nat := r.num 0xC 4
def FlashRecord.signed (r : FlashRecord) : List Byte := r.bytes.take (0x80 + r.length)

/-- The body of a record. -/
def FlashRecord.body (r : FlashRecord) : List Byte := (r.bytes.drop 0x80).take r.length

/-- The record is valid for a kind (R475). -/
def FlashRecord.valid (r : FlashRecord) (kind : Nat) : Bool :=
  let key := BitVec.ofNat 384 (r.num 0x10 48)
  r.num 0 4 == 0x31574651 && r.num 4 2 == kind && decide (Config.minimumSvn kind ≤ r.num 8 4) &&
    Config.keyAccepted key &&
    Config.verifies key (Config.sha384 r.signed) ((r.bytes.drop (0x80 + r.length)).take 96)

/-- The record that a loader takes: slot A if it is valid, else slot B. -/
def Boot.image (b : Boot) (kind : Nat) : Option FlashRecord :=
  [false, true].findSome? (fun slot => b.flash.find? (fun r => r.kind == kind && r.slotB == slot && r.valid kind))

/-- A measurement register is extended by a record (R476). -/
def Boot.measure (b : Boot) (i : Nat) (r : FlashRecord) : Boot :=
  let old := natBytes (vget b.measured i 0).toNat 48
  let mr := Config.sha384 (old ++ natBytes (Config.sha384 r.bytes).toNat 48)
  { b with measured := vset b.measured i mr }

/-- The flash has answered, or has failed twice: its command is not a retry any more. -/
def Boot.answered (b : Boot) (q : BitVec 2) : Boot := { b with retried := b.retried.filter (· != q) }

/-- LOADIMG (R461): a valid stage-two image's body is placed at ARG and measured. -/
def execLoadimg (site : SiteId) (s : State) : Result :=
  startCommand 3 site (fun s =>
    let s := { s with wafer := { s.wafer with boot := s.wafer.boot.answered (quadrant site) } }
    let j := s.junction
    let result (n : BitVec 8) : State := { s with junction := { j with plaNext := n } }
    match s.wafer.boot.image 1 with
    | none => result 1
    | some r =>
      if spadSize < j.plaArg.toNat + r.body.length then result 1
      else
        let s := s.writeOwn (cellsAt j.plaArg.toNat r.body) false
        { s with
          junction := { j with plaArg := BitVec.ofNat 64 r.body.length },
          wafer := { s.wafer with boot := s.wafer.boot.measure (quadrant site).toNat r } }) s

/-- The flash has not answered for 2^20 cycles (R461): the command is sent once more, and then LOADIMG fails. -/
def execFlashResponseTimeout (site : SiteId) (s : State) : Result :=
  let t := s.focusSite site
  let b := s.wafer.boot
  .next (if t.junction.starts 3 && decide (t.junction.since + 2 ^ 20 ≤ s.wafer.clock) then
      if b.retried.contains (quadrant site) then
        endCommand 2 { t with wafer := { t.wafer with boot := b.answered (quadrant site) } }
      else
        { t with junction := { t.junction with since := s.wafer.clock },
                 wafer := { t.wafer with boot := { b with retried := b.retried ++ [quadrant site] } } }
    else s)

/-- A station or a crane loads its firmware and measures it (R467, R475, R476). -/
def execStationAndCraneFirmwareLoad (unit : FirmwareUnit) (s : State) : Result :=
  let b := s.wafer.boot
  let load (kind i : Nat) : State :=
    match b.image kind with
    | some r => { s with wafer := { s.wafer with boot := b.measure i r } }
    | none => s
  .next (match unit with
    | .station n => load 2 (4 + n.toNat)
    | .crane n => load 3 (8 + n.toNat))

/-! ### Hand-off and completion (R461, R467) -/

/-- HANDOFF: the boot job of the quadrant ends; with all four, the machine is ready (R457, R461, R467). -/
def execHandoff (site : SiteId) (s : State) : Result :=
  startCommand 5 site (fun s =>
    let q := quadrant site
    let job : BitVec 6 := 60 + q.setWidth 6
    let s := s.atSites (fun s => { s with tile := { s.tile with job := none } }) (s.jobSites job)
    let b := s.wafer.boot
    let s := { s with wafer := { s.wafer with boot := { b with handedOff := b.handedOff ++ [q] } } }
    if s.stationsReady then launchWaiting (s.post .bootReady) else s) s

/-- A running boot command completes once its work is done (R461, R462, R464, R465). -/
def execBootCommandCompletion (site : SiteId) (s : State) : Result :=
  let t := s.focusSite site
  let j := t.junction
  .next (if !j.plaBusy || !j.plaBegun then s
    else
      match j.plaOp.toNat with
      | 1 => if j.asked.isEmpty then endCommand 0 (mergeEchoes t) else s
      | 2 => if s.wafer.boot.flooded (quadrant site) then endCommand 0 t else s
      | 4 => finishJoin t
      | _ => endCommand j.plaNext t)

end Sys2Proof.Machine
end

