-- ==== Sys2Proof/Machine/Dispatch.lean ====
section
/-!
DEFINITION. The meaning of each instruction and event: one arm per constructor of Instr.
-/
namespace Sys2Proof.Machine

def exec (i : Instr) (s : State) : Host.Outcome State Fault Refusal :=
  match i with
  | .add d a b => Sys2Proof.Machine.execAdd d a b s
  | .sub d a b => Sys2Proof.Machine.execSub d a b s
  | .and d a b => Sys2Proof.Machine.execAnd d a b s
  | .andn d a b => Sys2Proof.Machine.execAndn d a b s
  | .or d a b => Sys2Proof.Machine.execOr d a b s
  | .xor d a b => Sys2Proof.Machine.execXor d a b s
  | .sll d a b => Sys2Proof.Machine.execSll d a b s
  | .srl d a b => Sys2Proof.Machine.execSrl d a b s
  | .sra d a b => Sys2Proof.Machine.execSra d a b s
  | .rol d a b => Sys2Proof.Machine.execRol d a b s
  | .slt d a b => Sys2Proof.Machine.execSlt d a b s
  | .sltn d a b => Sys2Proof.Machine.execSltn d a b s
  | .min d a b => Sys2Proof.Machine.execMin d a b s
  | .max d a b => Sys2Proof.Machine.execMax d a b s
  | .minn d a b => Sys2Proof.Machine.execMinn d a b s
  | .maxn d a b => Sys2Proof.Machine.execMaxn d a b s
  | .mul d a b => Sys2Proof.Machine.execMul d a b s
  | .mulh d a b => Sys2Proof.Machine.execMulh d a b s
  | .mulhn d a b => Sys2Proof.Machine.execMulhn d a b s
  | .div d a b => Sys2Proof.Machine.execDiv d a b s
  | .divn d a b => Sys2Proof.Machine.execDivn d a b s
  | .rem d a b => Sys2Proof.Machine.execRem d a b s
  | .remn d a b => Sys2Proof.Machine.execRemn d a b s
  | .clz d a => Sys2Proof.Machine.execClz d a s
  | .ctz d a => Sys2Proof.Machine.execCtz d a s
  | .popc d a => Sys2Proof.Machine.execPopc d a s
  | .sextB d a => Sys2Proof.Machine.execSextB d a s
  | .sextH d a => Sys2Proof.Machine.execSextH d a s
  | .sextW d a => Sys2Proof.Machine.execSextW d a s
  | .zextB d a => Sys2Proof.Machine.execZextB d a s
  | .zextH d a => Sys2Proof.Machine.execZextH d a s
  | .zextW d a => Sys2Proof.Machine.execZextW d a s
  | .addi d a imm => Sys2Proof.Machine.execAddi d a imm s
  | .andi d a imm => Sys2Proof.Machine.execAndi d a imm s
  | .ori d a imm => Sys2Proof.Machine.execOri d a imm s
  | .xori d a imm => Sys2Proof.Machine.execXori d a imm s
  | .slli d a n => Sys2Proof.Machine.execSlli d a n s
  | .srli d a n => Sys2Proof.Machine.execSrli d a n s
  | .srai d a n => Sys2Proof.Machine.execSrai d a n s
  | .roli d a n => Sys2Proof.Machine.execRoli d a n s
  | .slti d a imm => Sys2Proof.Machine.execSlti d a imm s
  | .sltni d a imm => Sys2Proof.Machine.execSltni d a imm s
  | .lih d imm => Sys2Proof.Machine.execLih d imm s
  | .lipc d imm => Sys2Proof.Machine.execLipc d imm s
  | .mfc x c => Sys2Proof.Machine.execMfc x c s
  | .mtc x c => Sys2Proof.Machine.execMtc x c s
  | .beq a b imm => Sys2Proof.Machine.execBeq a b imm s
  | .bne a b imm => Sys2Proof.Machine.execBne a b imm s
  | .blt a b imm => Sys2Proof.Machine.execBlt a b imm s
  | .bge a b imm => Sys2Proof.Machine.execBge a b imm s
  | .bltn a b imm => Sys2Proof.Machine.execBltn a b imm s
  | .bgen a b imm => Sys2Proof.Machine.execBgen a b imm s
  | .jmp imm => Sys2Proof.Machine.execJmp imm s
  | .call imm => Sys2Proof.Machine.execCall imm s
  | .jr a => Sys2Proof.Machine.execJr a s
  | .callr a => Sys2Proof.Machine.execCallr a s
  | .ret => Sys2Proof.Machine.execRet s
  | .nop => Sys2Proof.Machine.execNop s
  | .trap c => Sys2Proof.Machine.execTrap c s
  | .rft => Sys2Proof.Machine.execRft s
  | .halt => Sys2Proof.Machine.execHalt s
  | .wfi => Sys2Proof.Machine.execWfi s
  | .yield => Sys2Proof.Machine.execYield s
  | .exit c => Sys2Proof.Machine.execExit c s
  | .couple n => Sys2Proof.Machine.execCouple n s
  | .uncouple => Sys2Proof.Machine.execUncouple s
  | .ckpt => Sys2Proof.Machine.execCkpt s
  | .ldB d a w imm => Sys2Proof.Machine.execLdB d a w imm s
  | .ldH d a w imm => Sys2Proof.Machine.execLdH d a w imm s
  | .ldW d a w imm => Sys2Proof.Machine.execLdW d a w imm s
  | .ldD d a w imm => Sys2Proof.Machine.execLdD d a w imm s
  | .ldBn d a w imm => Sys2Proof.Machine.execLdBn d a w imm s
  | .ldHn d a w imm => Sys2Proof.Machine.execLdHn d a w imm s
  | .ldWn d a w imm => Sys2Proof.Machine.execLdWn d a w imm s
  | .prf a w imm => Sys2Proof.Machine.execPrf a w imm s
  | .stB d a w imm => Sys2Proof.Machine.execStB d a w imm s
  | .stH d a w imm => Sys2Proof.Machine.execStH d a w imm s
  | .stW d a w imm => Sys2Proof.Machine.execStW d a w imm s
  | .stD d a w imm => Sys2Proof.Machine.execStD d a w imm s
  | .ldf d a w imm => Sys2Proof.Machine.execLdf d a w imm s
  | .ldfe d a w imm => Sys2Proof.Machine.execLdfe d a w imm s
  | .ste d a w imm => Sys2Proof.Machine.execSte d a w imm s
  | .stf d a w imm => Sys2Proof.Machine.execStf d a w imm s
  | .ldtag d a w imm => Sys2Proof.Machine.execLdtag d a w imm s
  | .settag d a w imm => Sys2Proof.Machine.execSettag d a w imm s
  | .putsF d a b => Sys2Proof.Machine.execPutsF d a b s
  | .putsC d a b => Sys2Proof.Machine.execPutsC d a b s
  | .putvF d a b => Sys2Proof.Machine.execPutvF d a b s
  | .putvC d a b => Sys2Proof.Machine.execPutvC d a b s
  | .fence => Sys2Proof.Machine.execFence s
  | .fenceR a => Sys2Proof.Machine.execFenceR a s
  | .waitc c => Sys2Proof.Machine.execWaitc c s
  | .acq => Sys2Proof.Machine.execAcq s
  | .rel => Sys2Proof.Machine.execRel s
  | .fenceE => Sys2Proof.Machine.execFenceE s
  | .accAddI32 d a w imm => Sys2Proof.Machine.execAccAddI32 d a w imm s
  | .accAddI64 d a w imm => Sys2Proof.Machine.execAccAddI64 d a w imm s
  | .accAddF32 d a w imm => Sys2Proof.Machine.execAccAddF32 d a w imm s
  | .accMaxI32 d a w imm => Sys2Proof.Machine.execAccMaxI32 d a w imm s
  | .accMinI32 d a w imm => Sys2Proof.Machine.execAccMinI32 d a w imm s
  | .accOrD d a w imm => Sys2Proof.Machine.execAccOrD d a w imm s
  | .accAndD d a w imm => Sys2Proof.Machine.execAccAndD d a w imm s
  | .accXorD d a w imm => Sys2Proof.Machine.execAccXorD d a w imm s
  | .amoSwapW d a b => Sys2Proof.Machine.execAmoSwapW d a b s
  | .amoSwapD d a b => Sys2Proof.Machine.execAmoSwapD d a b s
  | .amoCasW d a b => Sys2Proof.Machine.execAmoCasW d a b s
  | .amoCasD d a b => Sys2Proof.Machine.execAmoCasD d a b s
  | .amoAddW d a b => Sys2Proof.Machine.execAmoAddW d a b s
  | .amoAddD d a b => Sys2Proof.Machine.execAmoAddD d a b s
  | .amoFaddF32 d a b => Sys2Proof.Machine.execAmoFaddF32 d a b s
  | .amoMaxW d a b => Sys2Proof.Machine.execAmoMaxW d a b s
  | .amoMinW d a b => Sys2Proof.Machine.execAmoMinW d a b s
  | .sdfl => Sys2Proof.Machine.execSdfl s
  | .sdfla a => Sys2Proof.Machine.execSdfla a s
  | .sdrd d a b => Sys2Proof.Machine.execSdrd d a b s
  | .sdst d => Sys2Proof.Machine.execSdst d s
  | .sdwait => Sys2Proof.Machine.execSdwait s
  | .vadd d a b p n => Sys2Proof.Machine.execVadd d a b p n s
  | .vsub d a b p n => Sys2Proof.Machine.execVsub d a b p n s
  | .vmul d a b p n => Sys2Proof.Machine.execVmul d a b p n s
  | .vfma d a b p n => Sys2Proof.Machine.execVfma d a b p n s
  | .vfms d a b p n => Sys2Proof.Machine.execVfms d a b p n s
  | .vnfma d a b p n => Sys2Proof.Machine.execVnfma d a b p n s
  | .vmax d a b p n => Sys2Proof.Machine.execVmax d a b p n s
  | .vmin d a b p n => Sys2Proof.Machine.execVmin d a b p n s
  | .vabs d a p n => Sys2Proof.Machine.execVabs d a p n s
  | .vneg d a p n => Sys2Proof.Machine.execVneg d a p n s
  | .vand d a b p n => Sys2Proof.Machine.execVand d a b p n s
  | .vandn d a b p n => Sys2Proof.Machine.execVandn d a b p n s
  | .vor d a b p n => Sys2Proof.Machine.execVor d a b p n s
  | .vxor d a b p n => Sys2Proof.Machine.execVxor d a b p n s
  | .vsll d a b p n => Sys2Proof.Machine.execVsll d a b p n s
  | .vsrl d a b p n => Sys2Proof.Machine.execVsrl d a b p n s
  | .vsra d a b p n => Sys2Proof.Machine.execVsra d a b p n s
  | .vmov d a p n => Sys2Proof.Machine.execVmov d a p n s
  | .vsel d a b p n => Sys2Proof.Machine.execVsel d a b p n s
  | .vaddC d v_s m => Sys2Proof.Machine.execVaddC d v_s m s
  | .vsubC d v_s m => Sys2Proof.Machine.execVsubC d v_s m s
  | .vmulC d v_s m => Sys2Proof.Machine.execVmulC d v_s m s
  | .vmaxC d v_s m => Sys2Proof.Machine.execVmaxC d v_s m s
  | .vminC d v_s m => Sys2Proof.Machine.execVminC d v_s m s
  | .vandC d v_s m => Sys2Proof.Machine.execVandC d v_s m s
  | .vandnC d v_s m => Sys2Proof.Machine.execVandnC d v_s m s
  | .vorC d v_s m => Sys2Proof.Machine.execVorC d v_s m s
  | .vxorC d v_s m => Sys2Proof.Machine.execVxorC d v_s m s
  | .vmovC d v_s m => Sys2Proof.Machine.execVmovC d v_s m s
  | .vabsC d v_s m => Sys2Proof.Machine.execVabsC d v_s m s
  | .vnegC d v_s m => Sys2Proof.Machine.execVnegC d v_s m s
  | .vsllC d v_s m => Sys2Proof.Machine.execVsllC d v_s m s
  | .vsrlC d v_s m => Sys2Proof.Machine.execVsrlC d v_s m s
  | .vsraC d v_s m => Sys2Proof.Machine.execVsraC d v_s m s
  | .vfmacC d v_s m => Sys2Proof.Machine.execVfmacC d v_s m s
  | .vceq d a b p n => Sys2Proof.Machine.execVceq d a b p n s
  | .vcne d a b p n => Sys2Proof.Machine.execVcne d a b p n s
  | .vclt d a b p n => Sys2Proof.Machine.execVclt d a b p n s
  | .vcle d a b p n => Sys2Proof.Machine.execVcle d a b p n s
  | .vcgt d a b p n => Sys2Proof.Machine.execVcgt d a b p n s
  | .vcge d a b p n => Sys2Proof.Machine.execVcge d a b p n s
  | .vcun d a b p n => Sys2Proof.Machine.execVcun d a b p n s
  | .pand d a b => Sys2Proof.Machine.execPand d a b s
  | .por d a b => Sys2Proof.Machine.execPor d a b s
  | .pxor d a b => Sys2Proof.Machine.execPxor d a b s
  | .pnot d a => Sys2Proof.Machine.execPnot d a s
  | .pmov d a => Sys2Proof.Machine.execPmov d a s
  | .pmovxToPredicate d a => Sys2Proof.Machine.execPmovxToPredicate d a s
  | .pmovxToScalar d a => Sys2Proof.Machine.execPmovxToScalar d a s
  | .vcvt d a t p n => Sys2Proof.Machine.execVcvt d a t p n s
  | .vcvtSr d a t p n => Sys2Proof.Machine.execVcvtSr d a t p n s
  | .vtag d a t => Sys2Proof.Machine.execVtag d a t s
  | .vperm d a b p n => Sys2Proof.Machine.execVperm d a b p n s
  | .vslup d a v_s p n => Sys2Proof.Machine.execVslup d a v_s p n s
  | .vsldn d a v_s p n => Sys2Proof.Machine.execVsldn d a v_s p n s
  | .vbcast d a v_s p n => Sys2Proof.Machine.execVbcast d a v_s p n s
  | .vext d a v_s => Sys2Proof.Machine.execVext d a v_s s
  | .vins d a v_s => Sys2Proof.Machine.execVins d a v_s s
  | .vzip d a b p n => Sys2Proof.Machine.execVzip d a b p n s
  | .vunzip d a b p n => Sys2Proof.Machine.execVunzip d a b p n s
  | .vredadd d a p n => Sys2Proof.Machine.execVredadd d a p n s
  | .vredmax d a p n => Sys2Proof.Machine.execVredmax d a p n s
  | .vredmin d a p n => Sys2Proof.Machine.execVredmin d a p n s
  | .vld v a p n w t => Sys2Proof.Machine.execVld v a p n w t s
  | .vlds v a v_s w t => Sys2Proof.Machine.execVlds v a v_s w t s
  | .vldq v a v_s w => Sys2Proof.Machine.execVldq v a v_s w s
  | .vgth v a o w t => Sys2Proof.Machine.execVgth v a o w t s
  | .vst v a p n w t => Sys2Proof.Machine.execVst v a p n w t s
  | .vsts v a v_s w t => Sys2Proof.Machine.execVsts v a v_s w t s
  | .vstq v a v_s w => Sys2Proof.Machine.execVstq v a v_s w s
  | .vsct v a o w t => Sys2Proof.Machine.execVsct v a o w t s
  | .vaccF32 v a o w => Sys2Proof.Machine.execVaccF32 v a o w s
  | .vaccI32 v a o w => Sys2Proof.Machine.execVaccI32 v a o w s
  | .vrndi d a p n => Sys2Proof.Machine.execVrndi d a p n s
  | .vcvti d a p n => Sys2Proof.Machine.execVcvti d a p n s
  | .vfexp d a p n => Sys2Proof.Machine.execVfexp d a p n s
  | .vexpins d a b p n => Sys2Proof.Machine.execVexpins d a b p n s
  | .vgetexp d a p n => Sys2Proof.Machine.execVgetexp d a p n s
  | .vrcp d a p n => Sys2Proof.Machine.execVrcp d a p n s
  | .vrsq d a p n => Sys2Proof.Machine.execVrsq d a p n s
  | .vqnt d a j => Sys2Proof.Machine.execVqnt d a j s
  | .vcvts d a b p n => Sys2Proof.Machine.execVcvts d a b p n s
  | .vdq d a m p n => Sys2Proof.Machine.execVdq d a m p n s
  | .barq d a p n => Sys2Proof.Machine.execBarq d a p n s
  | .tld m b r v_s t => Sys2Proof.Machine.execTld m b r v_s t s
  | .tst m b r v_s t => Sys2Proof.Machine.execTst m b r v_s t s
  | .mma c a b t => Sys2Proof.Machine.execMma c a b t s
  | .mmaZ c a b t => Sys2Proof.Machine.execMmaZ c a b t s
  | .mmaN c a b t => Sys2Proof.Machine.execMmaN c a b t s
  | .mmaZn c a b t => Sys2Proof.Machine.execMmaZn c a b t s
  | .tzero d => Sys2Proof.Machine.execTzero d s
  | .tmov d a => Sys2Proof.Machine.execTmov d a s
  | .ttr d a => Sys2Proof.Machine.execTtr d a s
  | .tcvt d a => Sys2Proof.Machine.execTcvt d a s
  | .tadd d a b => Sys2Proof.Machine.execTadd d a b s
  | .trowv a x v => Sys2Proof.Machine.execTrowv a x v s
  | .tvrow d x v => Sys2Proof.Machine.execTvrow d x v s
  | .twait d a => Sys2Proof.Machine.execTwait d a s
  | .tpoll d a => Sys2Proof.Machine.execTpoll d a s
  | .twaitall d => Sys2Proof.Machine.execTwaitall d s
  | .copy d a => Sys2Proof.Machine.execCopy d a s
  | .copyc d a => Sys2Proof.Machine.execCopyc d a s
  | .mcast d a => Sys2Proof.Machine.execMcast d a s
  | .cwait d a => Sys2Proof.Machine.execCwait d a s
  | .cpoll d a => Sys2Proof.Machine.execCpoll d a s
  | .send a b => Sys2Proof.Machine.execSend a b s
  | .sendv h a v => Sys2Proof.Machine.execSendv h a v s
  | .recv d q => Sys2Proof.Machine.execRecv d q s
  | .recvv v q h => Sys2Proof.Machine.execRecvv v q h s
  | .qstat d => Sys2Proof.Machine.execQstat d s
  | .sync n => Sys2Proof.Machine.execSync n s
  | .arrive n => Sys2Proof.Machine.execArrive n s
  | .await n => Sys2Proof.Machine.execAwait n s
  | .waita d a b => Sys2Proof.Machine.execWaita d a b s
  | .cntinc d c b => Sys2Proof.Machine.execCntinc d c b s
  | .cntrst c => Sys2Proof.Machine.execCntrst c s
  | .cntwait d c b => Sys2Proof.Machine.execCntwait d c b s
  | .spawn d a b => Sys2Proof.Machine.execSpawn d a b s
  | .tjoin d a => Sys2Proof.Machine.execTjoin d a s
  | .tstat d a => Sys2Proof.Machine.execTstat d a s
  | .sbNop => Sys2Proof.Machine.execSbNop s
  | .sbAdd d a b => Sys2Proof.Machine.execSbAdd d a b s
  | .sbAddImm d a imm => Sys2Proof.Machine.execSbAddImm d a imm s
  | .sbSub d a b => Sys2Proof.Machine.execSbSub d a b s
  | .sbSubImm d a imm => Sys2Proof.Machine.execSbSubImm d a imm s
  | .sbAnd d a b => Sys2Proof.Machine.execSbAnd d a b s
  | .sbAndImm d a imm => Sys2Proof.Machine.execSbAndImm d a imm s
  | .sbOr d a b => Sys2Proof.Machine.execSbOr d a b s
  | .sbOrImm d a imm => Sys2Proof.Machine.execSbOrImm d a imm s
  | .sbXor d a b => Sys2Proof.Machine.execSbXor d a b s
  | .sbXorImm d a imm => Sys2Proof.Machine.execSbXorImm d a imm s
  | .sbShl d a b => Sys2Proof.Machine.execSbShl d a b s
  | .sbShlImm d a imm => Sys2Proof.Machine.execSbShlImm d a imm s
  | .sbShr d a b => Sys2Proof.Machine.execSbShr d a b s
  | .sbShrImm d a imm => Sys2Proof.Machine.execSbShrImm d a imm s
  | .sbLi d imm => Sys2Proof.Machine.execSbLi d imm s
  | .sbLih d imm => Sys2Proof.Machine.execSbLih d imm s
  | .sbBfz a o => Sys2Proof.Machine.execSbBfz a o s
  | .sbBfnz a o => Sys2Proof.Machine.execSbBfnz a o s
  | .sbRpt n c => Sys2Proof.Machine.execSbRpt n c s
  | .sbDone => Sys2Proof.Machine.execSbDone s
  | .sbDrop => Sys2Proof.Machine.execSbDrop s
  | .sbReroute a => Sys2Proof.Machine.execSbReroute a s
  | .sbLdst d a imm => Sys2Proof.Machine.execSbLdst d a imm s
  | .sbStst d a imm => Sys2Proof.Machine.execSbStst d a imm s
  | .sbVldst d a imm => Sys2Proof.Machine.execSbVldst d a imm s
  | .sbVstst d a imm => Sys2Proof.Machine.execSbVstst d a imm s
  | .sbVrdp d k => Sys2Proof.Machine.execSbVrdp d k s
  | .sbVwrp d k => Sys2Proof.Machine.execSbVwrp d k s
  | .sbRdh d imm => Sys2Proof.Machine.execSbRdh d imm s
  | .sbVaddi d a b => Sys2Proof.Machine.execSbVaddi d a b s
  | .sbVaddf d a b => Sys2Proof.Machine.execSbVaddf d a b s
  | .sbVmulf d a b => Sys2Proof.Machine.execSbVmulf d a b s
  | .sbVmaxf d a b => Sys2Proof.Machine.execSbVmaxf d a b s
  | .sbVminf d a b => Sys2Proof.Machine.execSbVminf d a b s
  | .sbVmaxi d a b => Sys2Proof.Machine.execSbVmaxi d a b s
  | .sbVand d a b => Sys2Proof.Machine.execSbVand d a b s
  | .sbVor d a b => Sys2Proof.Machine.execSbVor d a b s
  | .sbVxor d a b => Sys2Proof.Machine.execSbVxor d a b s
  | .sbVcvtbfF2b d a h => Sys2Proof.Machine.execSbVcvtbfF2b d a h s
  | .sbVcvtbfB2f d a h => Sys2Proof.Machine.execSbVcvtbfB2f d a h s
  | .sbVsum d a => Sys2Proof.Machine.execSbVsum d a s
  | .sbVcmpf d a b c => Sys2Proof.Machine.execSbVcmpf d a b c s
  | .sbVself d a b c => Sys2Proof.Machine.execSbVself d a b c s
  | .sbTrap a c => Sys2Proof.Machine.execSbTrap a c s
  | .sbStamp d => Sys2Proof.Machine.execSbStamp d s
  | .sbEmit d a => Sys2Proof.Machine.execSbEmit d a s
  | .ptbaseWrite v => Sys2Proof.Machine.execPtbaseWrite v s
  | .accmodeWrite v => Sys2Proof.Machine.execAccmodeWrite v s
  | .srseedWrite v => Sys2Proof.Machine.execSrseedWrite v s
  | .evcWrite c v => Sys2Proof.Machine.execEvcWrite c v s
  | .fflagsAccess write x => Sys2Proof.Machine.execFflagsAccess write x s
  | .errdataClear => Sys2Proof.Machine.execErrdataClear s
  | .pointsEntryWrite v => Sys2Proof.Machine.execPointsEntryWrite v s
  | .bindRecordWrite site core v_rec => Sys2Proof.Machine.execBindRecordWrite site core v_rec s
  | .discover site => Sys2Proof.Machine.execDiscover site s
  | .ptflood site => Sys2Proof.Machine.execPtflood site s
  | .loadimg site => Sys2Proof.Machine.execLoadimg site s
  | .join site => Sys2Proof.Machine.execJoin site s
  | .handoff site => Sys2Proof.Machine.execHandoff site s
  | .plaUnlistedOp op => Sys2Proof.Machine.execPlaUnlistedOp op s
  | .bootCommandCompletion site => Sys2Proof.Machine.execBootCommandCompletion site s
  | .discoveryPacketArrival id => Sys2Proof.Machine.execDiscoveryPacketArrival id s
  | .discoveryEchoArrival id => Sys2Proof.Machine.execDiscoveryEchoArrival id s
  | .discoveryAnswerTimeout site port => Sys2Proof.Machine.execDiscoveryAnswerTimeout site port s
  | .flashResponseTimeout site => Sys2Proof.Machine.execFlashResponseTimeout site s
  | .joinTimeout site => Sys2Proof.Machine.execJoinTimeout site s
  | .pointsBlockArrival site quadrant => Sys2Proof.Machine.execPointsBlockArrival site quadrant s
  | .resetAssert => Sys2Proof.Machine.execResetAssert s
  | .resetRelease => Sys2Proof.Machine.execResetRelease s
  | .selfTestComplete site result => Sys2Proof.Machine.execSelfTestComplete site result s
  | .launch cmd => Sys2Proof.Machine.execLaunch cmd s
  | .installFlow cmd => Sys2Proof.Machine.execInstallFlow cmd s
  | .removeFlow tag job tile flow => Sys2Proof.Machine.execRemoveFlow tag job tile flow s
  | .faultAnswerResume tag job => Sys2Proof.Machine.execFaultAnswerResume tag job s
  | .faultAnswerFail tag job => Sys2Proof.Machine.execFaultAnswerFail tag job s
  | .pageTableChange tag job => Sys2Proof.Machine.execPageTableChange tag job s
  | .resumeCore tag tile order => Sys2Proof.Machine.execResumeCore tag tile order s
  | .endTeam tag job team => Sys2Proof.Machine.execEndTeam tag job team s
  | .clearFailedSite tag site => Sys2Proof.Machine.execClearFailedSite tag site s
  | .attest tag nonce => Sys2Proof.Machine.execAttest tag nonce s
  | .readCertificateChain tag => Sys2Proof.Machine.execReadCertificateChain tag s
  | .setAccessCounterThreshold tag unit value => Sys2Proof.Machine.execSetAccessCounterThreshold tag unit value s
  | .setPowerLimit tag watts => Sys2Proof.Machine.execSetPowerLimit tag watts s
  | .hostWindowWrite port window span offset data => Sys2Proof.Machine.execHostWindowWrite port window span offset data s
  | .junctionPacketArrival id => Sys2Proof.Machine.execJunctionPacketArrival id s
  | .flitCrcFailure site port line exhausted => Sys2Proof.Machine.execFlitCrcFailure site port line exhausted s
  | .remoteStoreArrival id => Sys2Proof.Machine.execRemoteStoreArrival id s
  | .remoteLoadRequestArrival id => Sys2Proof.Machine.execRemoteLoadRequestArrival id s
  | .replyArrival id => Sys2Proof.Machine.execReplyArrival id s
  | .acknowledgementArrival id => Sys2Proof.Machine.execAcknowledgementArrival id s
  | .putArrival id => Sys2Proof.Machine.execPutArrival id s
  | .fullEmptyRequestArrival id => Sys2Proof.Machine.execFullEmptyRequestArrival id s
  | .fullEmptyResend id => Sys2Proof.Machine.execFullEmptyResend id s
  | .waitaRequestArrival id => Sys2Proof.Machine.execWaitaRequestArrival id s
  | .blockingAccessAbandon site core => Sys2Proof.Machine.execBlockingAccessAbandon site core s
  | .cancelArrival id => Sys2Proof.Machine.execCancelArrival id s
  | .cancelAnswerArrival id => Sys2Proof.Machine.execCancelAnswerArrival id s
  | .accumulateRequestArrival id => Sys2Proof.Machine.execAccumulateRequestArrival id s
  | .accumulateApply slice => Sys2Proof.Machine.execAccumulateApply slice s
  | .hbmAccumulateLineRead slice line => Sys2Proof.Machine.execHbmAccumulateLineRead slice line s
  | .quotaWindowReset slice => Sys2Proof.Machine.execQuotaWindowReset slice s
  | .atomicRequestArrival id => Sys2Proof.Machine.execAtomicRequestArrival id s
  | .junctionMerge site first second => Sys2Proof.Machine.execJunctionMerge site first second s
  | .mergedBounceSplit id => Sys2Proof.Machine.execMergedBounceSplit id s
  | .bounceArrival id => Sys2Proof.Machine.execBounceArrival id s
  | .bouncePark site core => Sys2Proof.Machine.execBouncePark site core s
  | .sidingAgeFlush site core row => Sys2Proof.Machine.execSidingAgeFlush site core row s
  | .deterministicRequestArrival id => Sys2Proof.Machine.execDeterministicRequestArrival id s
  | .barrierArrival id => Sys2Proof.Machine.execBarrierArrival id s
  | .barrierRootComplete domain => Sys2Proof.Machine.execBarrierRootComplete domain s
  | .deterministicMerge domain => Sys2Proof.Machine.execDeterministicMerge domain s
  | .catchUpRound domain => Sys2Proof.Machine.execCatchUpRound domain s
  | .barrierReleaseArrival id => Sys2Proof.Machine.execBarrierReleaseArrival id s
  | .messageArrival id => Sys2Proof.Machine.execMessageArrival id s
  | .messageBufferMove site core q => Sys2Proof.Machine.execMessageBufferMove site core q s
  | .messageToSaveArea site core => Sys2Proof.Machine.execMessageToSaveArea site core s
  | .farCacheFill id => Sys2Proof.Machine.execFarCacheFill id s
  | .instructionBufferFill site core => Sys2Proof.Machine.execInstructionBufferFill site core s
  | .pageWalkComplete site core => Sys2Proof.Machine.execPageWalkComplete site core s
  | .tileJobStart site core => Sys2Proof.Machine.execTileJobStart site core s
  | .tileJobRow site core card => Sys2Proof.Machine.execTileJobRow site core card s
  | .tileJobComplete site core card => Sys2Proof.Machine.execTileJobComplete site core card s
  | .copyJobStart site core => Sys2Proof.Machine.execCopyJobStart site core s
  | .copyChunk site core card => Sys2Proof.Machine.execCopyChunk site core card s
  | .copyChunkArrival id => Sys2Proof.Machine.execCopyChunkArrival id s
  | .copyJobEnd site core card => Sys2Proof.Machine.execCopyJobEnd site core card s
  | .taskClaim site core => Sys2Proof.Machine.execTaskClaim site core s
  | .taskWatchdog site core => Sys2Proof.Machine.execTaskWatchdog site core s
  | .breakpoint site core => Sys2Proof.Machine.execBreakpoint site core s
  | .coupleFollow site core => Sys2Proof.Machine.execCoupleFollow site core s
  | .preemptionRequest site team => Sys2Proof.Machine.execPreemptionRequest site team s
  | .teamRestore job team => Sys2Proof.Machine.execTeamRestore job team s
  | .timeSliceExpiry site => Sys2Proof.Machine.execTimeSliceExpiry site s
  | .intervalTimer site => Sys2Proof.Machine.execIntervalTimer site s
  | .closeRequestArrival id => Sys2Proof.Machine.execCloseRequestArrival id s
  | .checkpointBoundary site => Sys2Proof.Machine.execCheckpointBoundary site s
  | .boundaryCommit site => Sys2Proof.Machine.execBoundaryCommit site s
  | .commitNoticeArrival id => Sys2Proof.Machine.execCommitNoticeArrival id s
  | .determinantRecordArrival id => Sys2Proof.Machine.execDeterminantRecordArrival id s
  | .determinantConfirmation id => Sys2Proof.Machine.execDeterminantConfirmation id s
  | .outputMarkReport site => Sys2Proof.Machine.execOutputMarkReport site s
  | .heartbeat site => Sys2Proof.Machine.execHeartbeat site s
  | .watchdogTimeout site => Sys2Proof.Machine.execWatchdogTimeout site s
  | .machineCheck site err => Sys2Proof.Machine.execMachineCheck site err s
  | .holdComplete tile place => Sys2Proof.Machine.execHoldComplete tile place s
  | .pointsChangeComplete tile => Sys2Proof.Machine.execPointsChangeComplete tile s
  | .restorationComplete tile => Sys2Proof.Machine.execRestorationComplete tile s
  | .replayEnd tile => Sys2Proof.Machine.execReplayEnd tile s
  | .holderLoss site => Sys2Proof.Machine.execHolderLoss site s
  | .craneTakeover crane => Sys2Proof.Machine.execCraneTakeover crane s
  | .depotRoundOpen job => Sys2Proof.Machine.execDepotRoundOpen job s
  | .depotInducedBoundary id => Sys2Proof.Machine.execDepotInducedBoundary id s
  | .depotRoundComplete job => Sys2Proof.Machine.execDepotRoundComplete job s
  | .depotRecovery job => Sys2Proof.Machine.execDepotRecovery job s
  | .powerDomainFault domain kind => Sys2Proof.Machine.execPowerDomainFault domain kind s
  | .powerLimitExceeded => Sys2Proof.Machine.execPowerLimitExceeded s
  | .temperatureThrottle domain => Sys2Proof.Machine.execTemperatureThrottle domain s
  | .signalBoxPacketArrival id => Sys2Proof.Machine.execSignalBoxPacketArrival id s
  | .kernelRun site => Sys2Proof.Machine.execKernelRun site s
  | .trapRecordInject site => Sys2Proof.Machine.execTrapRecordInject site s
  | .stateWindowAccess id => Sys2Proof.Machine.execStateWindowAccess id s
  | .fabricPortLoss port => Sys2Proof.Machine.execFabricPortLoss port s
  | .peerUnreachable peer => Sys2Proof.Machine.execPeerUnreachable peer s
  | .linkTraining port peer => Sys2Proof.Machine.execLinkTraining port peer s
  | .illegalInstruction word => Sys2Proof.Machine.execIllegalInstruction word s
  | .stationAndCraneFirmwareLoad unit => Sys2Proof.Machine.execStationAndCraneFirmwareLoad unit s
  | .supervisorLaunchEnableWrite port value => Sys2Proof.Machine.execSupervisorLaunchEnableWrite port value s
  | .consumerIndexWrite ring index => Sys2Proof.Machine.execConsumerIndexWrite ring index s
  | .shadowApplyComplete site => Sys2Proof.Machine.execShadowApplyComplete site s
  | .sendLogFetch id => Sys2Proof.Machine.execSendLogFetch id s

end Sys2Proof.Machine
end

