-- ==== Sys2Proof/Machine/Fetch.lean ====
section
/-!
DEFINITION. What runs in the focus of the machine: fetching and issuing an instruction of the core (R70 to R72, R86,
R109, R278, R358, R363), a word of a kernel (R387), and the turns of a replay (R442).
-/
namespace Sys2Proof.Machine

/-! ### Fetching (R70, R72, R109) -/

/-- The end of a fetch: bytes, a wait, or a fault of the halfword at an address (R72, R140). -/
inductive Fetched where
  | got (b : List Byte) (s : State)
  | wait (s : State)
  | fault (cause : Nat) (va : Nat)

/-- The two bytes at an offset of a line. -/
def halfAt (d : LineBits) (o : Nat) : List Byte := [d.extractLsb' (8 * o) 8, d.extractLsb' (8 * (o + 1)) 8]

/-- Looks a line up in an instruction buffer. -/
def findLine (l : List (Nat × LineBits)) (k : Nat) : Option LineBits :=
  match l with
  | [] => none
  | (n, d) :: r => if n = k then some d else findLine r k

/-- The halfword at an offset of a buffered line, which becomes the most recently used one. -/
def State.useLine (s : State) (k : Nat) (d : LineBits) (o : Nat) : Fetched := .got (halfAt d o) (s.fillBuffer k d)

/-- Fetches the halfword at a virtual address (R109): a line of the own scratchpad fills at once, another line waits;
a line that cannot be delivered fails (R437). A fetch stalls against footprints as other accesses do (R171). -/
def State.fetchHalf (s : State) (va : Nat) : Fetched :=
  match s.translate { x := true } va with
  | .fail c => .fault c va
  | .miss => .wait (s.startWalk va)
  | .ok t =>
    if s.footprintStall va 2 false then .wait s
    else
    match t with
    | .own a =>
      match findLine s.core.ibuf (a / 256) with
      | some d => s.useLine (a / 256) d (a % 256)
      | none =>
        .got (s.tile.mem.readBytes a 2) (s.fillBuffer (a / 256) (bytesLine (s.tile.mem.readBytes (a / 256 * 256) 256)))
    | .far _ =>
      match findLine s.core.ibuf (va / 256) with
      | some d => s.useLine (va / 256) d (va % 256)
      | none =>
        if s.core.fetchBad = some (va / 256) then .fault 4 va
        else .wait { s with core := { s.core with fetchMiss := some (va / 256) } }

/-- Fetches the instruction at the pc: one halfword, or two when bit 0 of the first is 1 (R70). -/
def State.fetch (s : State) : Fetched :=
  match s.fetchHalf s.core.pc.toNat with
  | .got lo s =>
    if (lo.headD 0).getLsbD 0 then
      match s.fetchHalf (s.core.pc.toNat + 2) with
      | .got hi s => .got (lo ++ hi) s
      | r => r
    else .got lo s
  | r => r

/-! ### Issuing (R86, R278, R358, R363) -/

/-- The vector registers that an instruction reads or writes (R278). -/
def vectorsNamed : Instr → List (BitVec 5)
  | .vadd d a b _ _ => [d, a, b]
  | .vsub d a b _ _ => [d, a, b]
  | .vmul d a b _ _ => [d, a, b]
  | .vfma d a b _ _ => [d, a, b]
  | .vfms d a b _ _ => [d, a, b]
  | .vnfma d a b _ _ => [d, a, b]
  | .vmax d a b _ _ => [d, a, b]
  | .vmin d a b _ _ => [d, a, b]
  | .vabs d a _ _ => [d, a]
  | .vneg d a _ _ => [d, a]
  | .vand d a b _ _ => [d, a, b]
  | .vandn d a b _ _ => [d, a, b]
  | .vor d a b _ _ => [d, a, b]
  | .vxor d a b _ _ => [d, a, b]
  | .vsll d a b _ _ => [d, a, b]
  | .vsrl d a b _ _ => [d, a, b]
  | .vsra d a b _ _ => [d, a, b]
  | .vmov d a _ _ => [d, a]
  | .vsel d a b _ _ => [d, a, b]
  | .vaddC d s _ => [d, s]
  | .vsubC d s _ => [d, s]
  | .vmulC d s _ => [d, s]
  | .vmaxC d s _ => [d, s]
  | .vminC d s _ => [d, s]
  | .vandC d s _ => [d, s]
  | .vandnC d s _ => [d, s]
  | .vorC d s _ => [d, s]
  | .vxorC d s _ => [d, s]
  | .vmovC d s _ => [d, s]
  | .vabsC d s _ => [d, s]
  | .vnegC d s _ => [d, s]
  | .vsllC d s _ => [d, s]
  | .vsrlC d s _ => [d, s]
  | .vsraC d s _ => [d, s]
  | .vfmacC d s _ => [d, s, 31]
  | .vceq _ a b _ _ => [a, b]
  | .vcne _ a b _ _ => [a, b]
  | .vclt _ a b _ _ => [a, b]
  | .vcle _ a b _ _ => [a, b]
  | .vcgt _ a b _ _ => [a, b]
  | .vcge _ a b _ _ => [a, b]
  | .vcun _ a b _ _ => [a, b]
  | .vcvt d a _ _ _ => [d, a]
  | .vcvtSr d a _ _ _ => [d, a]
  | .vtag d a _ => [d, a]
  | .vperm d a b _ _ => [d, a, b]
  | .vslup d a _ _ _ => [d, a]
  | .vsldn d a _ _ _ => [d, a]
  | .vbcast d a _ _ _ => [d, a]
  | .vext _ a _ => [a]
  | .vins d _ _ => [d]
  | .vzip d a b _ _ => [d, a, b]
  | .vunzip d a b _ _ => [d, a, b]
  | .vredadd d a _ _ => [d, a]
  | .vredmax d a _ _ => [d, a]
  | .vredmin d a _ _ => [d, a]
  | .vld v _ _ _ _ _ => [v]
  | .vlds v _ _ _ _ => [v]
  | .vldq v _ _ _ => [v]
  | .vgth v _ o _ _ => [v, o]
  | .vst v _ _ _ _ _ => [v]
  | .vsts v _ _ _ _ => [v]
  | .vstq v _ _ _ => [v]
  | .vsct v _ o _ _ => [v, o]
  | .vaccF32 v _ o _ => [v, o]
  | .vaccI32 v _ o _ => [v, o]
  | .vrndi d a _ _ => [d, a]
  | .vcvti d a _ _ => [d, a]
  | .vfexp d a _ _ => [d, a]
  | .vexpins d a b _ _ => [d, a, b]
  | .vgetexp d a _ _ => [d, a]
  | .vrcp d a _ _ => [d, a]
  | .vrsq d a _ _ => [d, a]
  | .vqnt d a _ => [d, a, a + 1]
  | .vcvts d a b _ _ => [d, a, b]
  | .vdq d a _ _ _ => [d, a]
  | .barq d a _ _ => [d, a]
  | .trowv _ _ v => [v]
  | .tvrow _ _ v => [v]
  | .sendv _ _ v => [v]
  | .recvv v _ _ => [v]
  | .putvF d _ _ => [d]
  | .putvC d _ _ => [d]
  | _ => []

/-- A vector register that a trowv of the core has still to write (R95, R278). -/
def Core.vectorPending (c : Core) (v : BitVec 5) : Bool :=
  c.eng.cards.any (fun k => match k.job with
    | .trowv _ d => d == v
    | _ => false)

/-- The scoreboard holds an instruction that names such a register (R278). -/
def Core.holds (c : Core) (i : Instr) : Bool := (vectorsNamed i).any c.vectorPending

/-- A core that is asked to stop still completes an access whose answers are in, and a wfi whose latch is set
(R366, R412). -/
def Core.completing (c : Core) : Bool :=
  (!c.pend.isEmpty && c.pend.all (fun f => f.reply.isSome)) || (c.inWfi && c.wake)

/-- The core in focus may issue. -/
def State.mayIssue (s : State) : Bool :=
  let c := s.core
  c.run == .running && c.commitWait.isNone && !s.tile.stopped && (!c.stopAsked || c.completing) && !s.replayHolds

/-- The check for breakpoints stays off until the instruction after an rft with BPSKIP has issued (R361, R363). -/
def keepSkip (s t : State) : State :=
  if s.core.trap.skip && t.core.retired == s.core.retired && t.core.pc == s.core.pc then
    { t with core := { t.core with trap := { t.core.trap with skip := true } } }
  else t

/-- The instruction spilled or filled a frame (R122, R123). -/
def shifted (s t : State) : Bool := t.core.win.spills != s.core.win.spills || t.core.win.fills != s.core.win.fills

/-- What the issue leaves for coupling (R133, R134): the address of the instruction, and whether a jump spilled or
filled. -/
def noteIssue (s t : State) : State :=
  if t.core.retired == s.core.retired then t
  else
    let jump := t.core.lastJump.map (·.1) == some s.core.pc
    { t with core := { t.core with
      lastIssue := some s.core.pc, jumpShift := if jump then shifted s t else t.core.jumpShift } }

/-- A follower that stalls uncouples (R134). -/
def State.fallBehind (s : State) : State :=
  match s.core.coupling with
  | .following _ => s.uncouple
  | _ => s

/-- A follower goes on following only past an instruction that it completes as its leader did (R134): it uncouples when
it stalls or waits, or spills or fills where its leader did not; its own followers go with it. -/
def keepPace (s t : State) : State :=
  match s.core.coupling with
  | .following n =>
    let leader := s.coreAt n
    let alone := shifted s t && !(leader.jumpShift && leader.lastJump.map (·.1) == some s.core.pc)
    if t.core.coupling != .following n || t.core.retired == s.core.retired || alone then t.uncouple else t
  | _ => t

/-- An issued instruction: its meaning; an access of a replay that would come out of its turn does not issue (R442). -/
def issue (i : Instr) (s : State) : Result :=
  match exec i { s with core := { s.core with trap := { s.core.trap with skip := false } } } with
  | .next t => .next (if s.outOfTurn t then s else keepPace s (noteIssue s (keepSkip s t)))
  | r => r

/-- The bytes that a core has fetched are decoded and issued (R70, R71, R86). -/
def issueBytes (b : List Byte) (s : State) : Result :=
  match decodeCore b with
  | some (i, _) => if s.core.holds i then .next s.fallBehind else issue i s
  | none => execIllegalInstruction (BitVec.ofNat 32 (leNat b)) s

/-- The core in focus issues its next instruction, or waits, or takes the trap of its watchdog, of a breakpoint or of
its fetch; one whose slot has just been written starts its team (R348). -/
def coreStep (s : State) : Result :=
  if s.core.drafted && !s.tile.stopped then .next (s.core.draft.elim s (fun r => bindDraft r s))
  else if !s.mayIssue then .next s
  else if s.watchdogDue then .next (watchdogTrap s)
  else if s.breakpointHit then .next (breakpointTrap s)
  else
    match s.fetch with
    | .got b s => issueBytes b s
    | .wait s => .next s.fallBehind
    | .fault c va =>
      .next (takeTrap c (BitVec.ofNat 64 va) { s with core := { s.core with fetchBad := none } })

/-! ### A kernel's word (R387) -/

/-- The next word of a kernel run: past the kernel, and where a word is illegal, the run traps with cause 4. -/
def boxStep (r : BoxRun) (s : State) : Result :=
  let b := s.tile.box
  let w := (b.storeWord r.pc).toNat
  if b.stop r.flow ≤ r.pc then .next (kernelTrap r 4 0 s)
  else
    match boxRow w with
    | some f => f s
    | none => .next (kernelTrap r 4 w s)

/-! ### What the focus does next -/

/-- What the tile in focus does next: its kernel's word; in a replay the next kernel or the next record; or else its
core's instruction. -/
def runTile (s : State) : Result :=
  if s.tile.stopped then .next s
  else
    match s.tile.box.run with
    | some r => boxStep r s
    | none =>
      if s.tile.replay.isSome && !s.tile.box.queue.isEmpty && !s.tile.kernelHolds then .next (startRun s)
      else
        match replayNext s with
        | some t => .next t
        | none => coreStep s

/-- The focus runs, a request to leave being pursued first (R366). -/
def runFocus (s : State) : Result := runTile (pursueLeave s)

end Sys2Proof.Machine
end

