-- ==== Sys2Proof/Machine/Step.lean ====
section
/-!
DEFINITION. One step of the machine: the turn that the agenda names, or what the focus does next; and an instruction
placed where the next step runs it.
-/
namespace Sys2Proof.Machine

/-- The cycles that a step takes (R10, R342): one, and more that the spec leaves to the part. -/
def State.tick (s : State) : State :=
  { s with wafer := { s.wafer with clock := s.wafer.clock + 1 + Config.extraCycles s.wafer.clock } }

/-- The state without the first turn of its agenda. -/
def State.turnTaken (s : State) : State := { s with wafer := { s.wafer with agenda := s.wafer.agenda.drop 1 } }

/-- An event at a tile that replays waits when an access of it would come out of its turn (R425, R442). -/
def inTurn (s : State) (r : Result) : Result :=
  match r with
  | .next t => if (s.focusSite t.site).outOfTurn t then .next s else r
  | r => r

/-- The next turn: an event of the operation table, a change of focus, or what the focus does next. A turn that names a
word is no event, and is passed over. -/
def nextTurn (s : State) : Result :=
  match s.wafer.agenda with
  | .event i :: _ => if (encode i).isSome then .next s.turnTaken else inTurn s.turnTaken (exec i s.turnTaken)
  | .core x c :: _ => .next (s.turnTaken.focus x c)
  | [] => runFocus s

/-- One step (R8, R10); tiles whose staging has filled ask for their boundary before it (R411). -/
def step (s : State) : Host.Outcome State Fault Refusal := nextTurn s.tick.askStaging

/-- The focus is a running core with nothing else to do before its next instruction. -/
def State.ready (s : State) : State :=
  { s with
    core := { s.core with
      run := .running, stopAsked := false, commitWait := none, pend := [], abandoned := [], ibuf := [], drafted := false },
    tile := { s.tile with stopped := false, replay := none, leaving := none, box := { s.tile.box with run := none } },
    wafer := { s.wafer with agenda := [] } }

/-- A core word at the pc of the core in focus, in the own scratchpad. -/
def State.placeWord (s : State) (w : Nat) : State :=
  { s with tile := { s.tile with mem := s.tile.mem.writeCells (cellsAt s.core.pc.toNat (toBytes 4 w)) } }

/-- A stateful flow whose kernel takes the whole program store, with the whole state, a budget of 256 cycles and four
alternates, all job tile 0 (R377). -/
def wholeFlow : Memory :=
  Memory.writeCells [] (cellsAt 0 (natBytes 0x13 4 ++ natBytes 0x7FF000 4 ++ natBytes 0x100000 4 ++ natBytes 256 4) ++
    cellsAt 0x24 (natBytes 0x40000 4))

/-- A kernel run that stands at a signal-box word: word 0 of the program store. -/
def State.placeKernelWord (s : State) (w : Nat) : State :=
  let m : Message :=
    { jt := 0, core := 0, tile := 0, job := 0, seq := 0, dst := 0, q := 0, data := 0, counted := true }
  let p : Packet :=
    { id := s.wafer.nextId, line := .main, origin := s.site, dest := .site s.site, site := s.site, msg := .message m }
  let r : BoxRun := { flow := 0, pkt := p, beats := #v[0, 0, 0, 0], pc := 0 }
  let b := s.tile.box
  { s with tile := { s.tile with
      box := { b with table := wholeFlow, store := b.store.writeCells (cellsAt 0 (toBytes 4 w)), run := some r } } }

/-- The state with an instruction of the opcode table where the next step fetches it: a core word at the pc, a
signal-box word as the next word of a kernel run. -/
def State.withFetchWord (s : State) (nbits w : Nat) : State :=
  if nbits ≤ 16 ∨ (w % 2 = 1 ∧ (decodeCore (toBytes 4 w)).isSome) then s.ready.placeWord w
  else s.ready.placeKernelWord w

end Sys2Proof.Machine
end

