-- ==== Sys2Proof/Safety.lean ====
section
/-!
DEFINITION. What counts as a safe run: a run in which every step answers a next state, through states whose memories
all keep their canonical form.
-/
namespace Sys2Proof.Machine

/-- The step goes on: neither a fault nor a refusal. -/
def Result.goesOn : Result → Bool
  | .next _ => true
  | _ => false

/-- The memories of a tile: its scratchpad, and its signal box's flow table, program store and state (R19, R377). -/
def Tile.memories (t : Tile) : List Memory := [t.mem, t.box.table, t.box.store, t.box.mem]

/-- The memories of a recorded tile (R413). -/
def Image.memories (i : Image) : List Memory := i.tile.memories

/-- The memories that a waybill keeps (R413, R416, R450). -/
def Waybill.memories (w : Waybill) : List Memory :=
  w.committed.memories ++ (w.staged.toList.map (fun p => p.1.memories)).flatten ++
    (w.depots.map (fun p => p.2.memories)).flatten

/-- The memories of the wafer outside the tile in focus (R19, R26, R137). -/
def Wafer.memories (w : Wafer) : List Memory :=
  [w.hbm, w.host, w.peer] ++ (w.sites.map (fun p => p.2.tile.memories)).flatten ++
    (w.healing.waybills.map Waybill.memories).flatten ++ (w.healing.away.map (fun a => a.image.memories)).flatten

/-- Every memory of the machine. -/
def State.memories (s : State) : List Memory := s.tile.memories ++ s.wafer.memories

/-- Every memory of the machine is in canonical form: equal memories are equal data. -/
def State.canonical (s : State) : Bool := s.memories.all Memory.wf

/-- A run of n steps from a state is safe when each step goes on, from a canonical state to the next. -/
def Safe : Nat → State → Prop
  | 0, s => s.canonical = true
  | n + 1, s => s.canonical = true ∧ ∃ t, step s = .next t ∧ Safe n t

end Sys2Proof.Machine
end

