-- ==== Sys2Proof/Certificates/Slice0/Claims.lean ====
section
/-!
DEFINITION. The words in which the obligations are stated: an instruction that answers a next state, the places where
registers lie, and what a next state keeps of the state before it.
-/
namespace Sys2Proof.Machine

/-- The instruction answers a next state with a property. -/
def Runs (i : Instr) (s : State) (post : State → Prop) : Prop := ∃ t, exec i s = .next t ∧ post t

/-! ### Registers -/

/-- Where a scalar register lies (R88 to R90, R361): a global, a register of a physical frame, or one of the trap
window. -/
inductive ScalarCell where
  | glob (n : Nat)
  | frame (f n : Nat)
  | trap (n : Nat)
  deriving DecidableEq, Repr

/-- The cell of a scalar register in the current window (R88, R89, R361); x0 has none. -/
def Core.cellOf (c : Core) (r : BitVec 5) : Option ScalarCell :=
  if r = 0 then none
  else if r.toNat < 8 then some (.glob r.toNat)
  else if c.inTrap then some (.trap (r.toNat - 8))
  else if r.toNat < 24 then some (.frame c.win.cwp.toNat (r.toNat - 8))
  else some (.frame ((c.win.cwp.toNat + 1) % 16) (r.toNat - 24))

/-- What a cell holds. -/
def Core.cell (c : Core) : ScalarCell → Word
  | .glob n => vget c.regs.glob n 0
  | .frame f n => vget c.regs.frames (16 * f + n) 0
  | .trap n => vget c.regs.trapWin n 0

/-- A cell of the machine: 8 globals, 16 registers of each of the 16 frames, 24 registers of the trap window. -/
def ScalarCell.exists : ScalarCell → Prop
  | .glob n => n < 8
  | .frame f n => f < 16 ∧ n < 16
  | .trap n => n < 24

/-- The scalar registers of c hold in e what they held, but for d, which holds v; a write of x0 leaves no trace. -/
structure WritesScalar (d : BitVec 5) (v : Word) (c e : Core) : Prop where
  /-- Every register as the program reads it. -/
  reads : ∀ r, e.reg r = if r = 0 then 0 else if r = d then v else c.reg r
  /-- The cell of d, and every other cell, in or out of the window. -/
  written : ∀ p, c.cellOf d = some p → e.cell p = v
  others : ∀ p, p.exists → c.cellOf d ≠ some p → e.cell p = c.cell p

/-- The scalar registers of c, in every cell, hold in e what they held. -/
def KeepsScalars (c e : Core) : Prop :=
  e.regs.glob = c.regs.glob ∧ e.regs.frames = c.regs.frames ∧ e.regs.trapWin = c.regs.trapWin

/-- The state of s with other scalar registers, pc and count of instructions, and nothing else changed. -/
def OnlyScalars (s t : State) : Prop :=
  t = { s with core := { s.core with
          regs := { s.core.regs with
            glob := t.core.regs.glob, frames := t.core.regs.frames, trapWin := t.core.regs.trapWin },
          pc := t.core.pc, retired := t.core.retired } }

/-! ### Memory -/

/-- Every byte of memory reads as before: the scratchpad, HBM, host and peer memory, and the tiles of other sites. -/
structure KeepsMemory (s t : State) : Prop where
  own : ∀ a, t.tile.mem.read a = s.tile.mem.read a
  hbm : ∀ a, t.wafer.hbm.read a = s.wafer.hbm.read a
  host : ∀ a, t.wafer.host.read a = s.wafer.host.read a
  peer : ∀ a, t.wafer.peer.read a = s.wafer.peer.read a
  sites : t.wafer.sites = s.wafer.sites

/-! ### Instructions that write one scalar register -/

/-- The instruction completes with d := v, the pc four further, and everything else as it was. -/
structure Assigns (d : BitVec 5) (v : Word) (s t : State) : Prop where
  result : WritesScalar d v s.core t.core
  pc : t.core.pc = s.core.pc + 4
  retired : t.core.retired = s.core.retired + 1
  only : OnlyScalars s t
  memory : KeepsMemory s t

/-- A core of the tile as it was, but for its coupling (R134). -/
def SameButCoupling (c e : Core) : Prop := e = { c with coupling := e.coupling }

/-- The rest of the machine, outside the core in focus, is unchanged; another core of the tile at most loses its
coupling. -/
structure OthersUncoupled (s t : State) : Prop where
  numbers : t.others.map (·.1) = s.others.map (·.1)
  cores : ∀ c, SameButCoupling (findCore s.others c) (findCore t.others c)
  place : t.coreNo = s.coreNo ∧ t.site = s.site
  tile : t.tile = s.tile
  junction : t.junction = s.junction

/-- Control goes on at an address; nothing changes but the pc, the count of instructions, and what bears on a
coupling (R117, R134). -/
structure Jumps (target : Word) (s t : State) : Prop where
  pc : t.core.pc = target
  coupling : t.core.coupling = s.core.coupling ∨ t.core.coupling = .none
  only : t = { s with core := { s.core with
    pc := target, retired := s.core.retired + 1, lastJump := t.core.lastJump, coupling := t.core.coupling } }
  memory : KeepsMemory s t

/-! ### Traps -/

/-- A handler's trap as R360 tells it: TCAUSE, TPC, TVAL, TSTAT, the level and the pc, and nothing else of the core. -/
structure TrapEntry (cause : Nat) (val : Word) (s t : State) : Prop where
  tcause : t.core.trap.tcause = BitVec.ofNat 64 (cause + if s.core.task.inTask then 256 else 0)
  tpc : t.core.trap.tpc = s.core.pc &&& 0xFFFFFFFFFFFE
  tval : t.core.trap.tval = val
  tvec : t.core.trap.tvec = s.core.trap.tvec
  inTrap : t.core.inTrap = true
  plev : field t.core.trap.tstat 1 2 = s.core.level.bits.toNat
  bpskip : t.core.trap.tstat.getLsbD 3 = s.core.trap.tstat.getLsbD 3
  level : t.core.level = .S
  pc : t.core.pc = s.core.trap.tvec &&& 0xFFFFFFFFFFFE
  running : t.core.run = s.core.run
  registers : t.core.regs = s.core.regs ∧ t.core.win = s.core.win ∧ t.core.fp = s.core.fp
  counts : t.core.retired = s.core.retired ∧ t.core.post = s.core.post ∧ t.core.acc.rows = s.core.acc.rows ∧
    t.core.eng = s.core.eng ∧ t.core.cpy = s.core.cpy
  others : OthersUncoupled s t
  wafer : t.wafer = s.wafer
  memory : KeepsMemory s t

/-- A trap that escalates (R362): TCAUSE, TPC and TVAL hold it, the core stops in the trapped state, and the level, the
pc, TSTAT but for PLEV, and the registers stay. -/
structure TrapStops (cause : Nat) (val : Word) (s t : State) : Prop where
  tcause : t.core.trap.tcause = BitVec.ofNat 64 (cause + if s.core.task.inTask then 256 else 0)
  tpc : t.core.trap.tpc = s.core.pc &&& 0xFFFFFFFFFFFE
  tval : t.core.trap.tval = val
  inTrap : t.core.inTrap = s.core.inTrap
  /-- A trap outside a handler notes the level; a trap in the handler keeps the first trap's. -/
  plev : field t.core.trap.tstat 1 2 =
    if s.core.inTrap then field s.core.trap.tstat 1 2 else s.core.level.bits.toNat
  stopped : t.core.run = .trapped
  level : t.core.level = s.core.level
  pc : t.core.pc = s.core.pc
  registers : t.core.regs = s.core.regs ∧ t.core.win = s.core.win ∧ t.core.fp = s.core.fp
  others : OthersUncoupled s t
  memory : KeepsMemory s t
  /-- The team trap record that the host reads; under the boot binding, and in a replay, none is posted. -/
  report : s.booting = false → s.tile.replay = none → ∃ w : Word,
    t.wafer.notices = s.wafer.notices ++ [.teamTrap [w, t.core.trap.tpc, t.core.trap.tval, BitVec.ofNat 64 s.wafer.clock]] ∧
    field w 56 8 = 2 ∧ field w 52 4 = cause % 16 ∧ w.getLsbD 51 = s.core.inTrap ∧ field w 36 12 = s.tile.jt.toNat ∧
    field w 32 3 = s.coreNo.toNat ∧ field w 0 32 = s.team.toNat

/-- The word of an instruction, as a trap reports it. -/
def HasWord (i : Instr) (w : Word) : Prop := ∃ n x, encode i = some (n, x) ∧ w = BitVec.ofNat 64 x

/-! ### What a local access may change -/

/-- A read of the own scratchpad by the core: the machine keeps a note of the line, and maybe a determinant, and nothing
else changes outside the core. -/
structure OnlyReadsHere (s t : State) : Prop where
  others : t.others = s.others
  place : t.coreNo = s.coreNo ∧ t.site = s.site ∧ t.junction = s.junction
  tile : t.tile = { s.tile with
    touched := t.tile.touched, made := t.tile.made, sliceCount := t.tile.sliceCount, lines := t.tile.lines,
    dets := t.tile.dets }
  wafer : t.wafer = { s.wafer with net := t.wafer.net, nextId := t.wafer.nextId }
  memory : KeepsMemory s t

/-- Bytes at rising addresses from a, as a function of the address. -/
def bytesFrom (a : Nat) (l : List Byte) (b : Nat) : Option Byte := if a ≤ b then l[b - a]? else none

/-- The own scratchpad holds the listed bytes from a, and every other byte of memory is as it was. -/
structure StoresHere (a : Nat) (l : List Byte) (s t : State) : Prop where
  own : ∀ b, t.tile.mem.read b = (bytesFrom a l b).getD (s.tile.mem.read b)
  hbm : t.wafer.hbm = s.wafer.hbm
  host : t.wafer.host = s.wafer.host
  peer : t.wafer.peer = s.wafer.peer
  sites : t.wafer.sites = s.wafer.sites

/-- A store to the own scratchpad: besides the bytes, the dirty lines, notes and determinants change; buffered lines of
instructions go, and monitored words wake their waiters. -/
structure OnlyStoresHere (s t : State) : Prop where
  others : ∀ c, ∃ ib pe, findCore t.others c = { findCore s.others c with ibuf := ib, pend := pe }
  place : t.coreNo = s.coreNo ∧ t.site = s.site ∧ t.junction = s.junction
  tile : t.tile = { s.tile with
    mem := t.tile.mem, dirty := t.tile.dirty, monitors := t.tile.monitors, answers := t.tile.answers,
    touched := t.tile.touched, made := t.tile.made, sliceCount := t.tile.sliceCount, lines := t.tile.lines,
    dets := t.tile.dets }
  wafer : t.wafer = { s.wafer with net := t.wafer.net, nextId := t.wafer.nextId }

/-- The core may make a local access of n bytes at a: no job's footprint covers it (R171), and the determinant queue has
room (R422). -/
def FreeLines (a n : Nat) (write : Bool) (s : State) : Prop :=
  s.footprintStall a n write = false ∧ s.detRoom = true

/-- No checked access of this superstep makes the access a race that traps (R175). -/
def NoRace (a n : Nat) (write : Bool) (s : State) : Prop :=
  s.core.race.detmode = true → ∀ l ∈ linesOf a n, s.tile.races (s.stamp write) l = false

/-- Nothing of an earlier issue of the instruction is under way (R367). -/
def Fresh (s : State) : Prop := s.core.pend = [] ∧ s.core.abandoned = []

/-- The wait of a W field is over (R154): every class that it names has a count of zero, no race to report, and every
job of the core has sent what it posts (R269, R303). -/
def Settled (cls : List PostClass) (s : State) : Prop :=
  s.core.raceFor cls = none ∧ s.core.engineSent = true ∧ ∀ c ∈ cls, s.core.post.count c = 0

/-- The wait of a W field is over, or there is none (R78, R154). -/
def WaitOver (w : BitVec 2) (s : State) : Prop := w = 0 ∨ Settled (wClass w) s

/-! ### Calls and returns -/

/-- The window moves up one frame for a call from s, with the return address in o7 (R122). -/
structure CallEntry (target : Word) (s t : State) : Prop where
  pc : t.core.pc = target
  cwp : t.core.win.cwp = s.core.win.cwp + 1
  depth : t.core.win.depth = s.core.win.depth + 1
  wslim : t.core.win.wslim = s.core.win.wslim ∧ t.core.win.fills = s.core.win.fills
  /-- The caller's o7 holds the return address, every other register of every frame what it held. -/
  cells : ∀ p, p.exists → t.core.cell p = if s.core.cellOf 31 = some p then s.core.pc + 4 else s.core.cell p
  /-- What the callee reads: its a0 to a6 are the caller's o0 to o6, its a7 the return address. -/
  inputs : ∀ r : BitVec 5, 8 ≤ r.toNat → r.toNat < 15 → t.reg r = s.reg (r + 16)
  link : t.reg 15 = s.core.pc + 4
  globals : ∀ r : BitVec 5, r.toNat < 8 → t.reg r = s.reg r
  core : t.core = { s.core with
    regs := { s.core.regs with glob := t.core.regs.glob, frames := t.core.regs.frames },
    win := t.core.win, pc := target, retired := s.core.retired + 1, lastJump := t.core.lastJump,
    coupling := t.core.coupling, ibuf := t.core.ibuf, pend := t.core.pend }

/-- The window moves down one frame for a return from s (R123). -/
structure ReturnExit (target : Word) (s t : State) : Prop where
  pc : t.core.pc = target
  cwp : t.core.win.cwp = s.core.win.cwp - 1
  depth : t.core.win.depth = s.core.win.depth - 1
  wslim : t.core.win.wslim = s.core.win.wslim ∧ t.core.win.spills = s.core.win.spills
  /-- The callee's a0 to a7 are the caller's o0 to o7. -/
  outputs : ∀ r : BitVec 5, 24 ≤ r.toNat → t.reg r = s.reg (r - 16)
  globals : ∀ r : BitVec 5, r.toNat < 8 → t.reg r = s.reg r
  core : t.core = { s.core with
    regs := { s.core.regs with frames := t.core.regs.frames },
    win := t.core.win, pc := target, retired := s.core.retired + 1, lastJump := t.core.lastJump,
    coupling := t.core.coupling }

/-! ### Control registers -/

/-- What a write of a control register by its field table leaves in it (R127): the register, its old value and the value
written; none for a register whose write is not its fields alone, or that a write does not change. -/
def fieldsWritten (n : Nat) (old v : Word) : Option Word :=
  if n = 0x008 then some (v &&& 0xB)
  else if n = 0x009 then some (v &&& 0x1F)
  else if n = 0x00A then some (if v = 0 then 0x9E3779B97F4A7C15 else v)
  else if n = 0x00B then some (v &&& 0x3)
  else if 0x010 ≤ n ∧ n ≤ 0x017 then some (v &&& 0x1F1F)
  else if n = 0x018 then some (if v &&& 0xF = 0 then 1 else v &&& 0xF)
  else if n = 0x020 ∨ n = 0x021 then some (v &&& 0x7FFF80)
  else if n = 0x050 then some ((v &&& 0x10000) + (if (v &&& 0xFFFF).toNat < 64 then 64 else v &&& 0xFFFF))
  else if n = 0x059 then some (v &&& 1)
  else if n = 0x060 then some (v &&& 0x3F)
  else if n = 0x070 ∨ n = 0x072 then some (v &&& 0xFFFFFFFFFFFE)
  else if n = 0x071 then some (v &&& 0x10F)
  else if n = 0x073 then some v
  else if n = 0x074 then some ((v &&& 0xE) ||| (old &&& 1))
  else if 0x100 ≤ n ∧ n ≤ 0x107 then some (v &&& 0x3FFF)
  else if n = 0x110 then some (v &&& 0x80021F1FFFFFFFFF)
  else if n = 0x111 then some (v &&& 0x80000007FFFFFFFF)
  else if n = 0x120 then some (v &&& 0x0000FFFFFFFFF000)
  else if n = 0x133 then some (v &&& 0x7F)
  else if n = 0x150 then some (v &&& 0x1F)
  else none

/-- Registers that a program may not write, or whose every field is read only (R96, R120, R326, R459). -/
def readOnlyRegister (n : Nat) : Bool :=
  n ≤ 0x004 || n == 0x022 || (0x030 ≤ n && n ≤ 0x033) || (0x040 ≤ n && n ≤ 0x042) || n == 0x051 || n == 0x130 ||
    n == 0x134 || (0x137 ≤ n && n ≤ 0x13F)

/-- The value of one register shows what another selects (R459, R438). -/
def selects (n m : Nat) : Prop := (n = 0x133 ∧ m = 0x134) ∨ (n = 0x150 ∧ m = 0x151)

/-- The instruction completed: the pc is four further, and one more instruction has retired. -/
def Completed (s t : State) : Prop := t.core.pc = s.core.pc + 4 ∧ t.core.retired = s.core.retired + 1

/-- s with its pc four further and one more instruction retired. -/
def State.after (s : State) : State :=
  { s with core := { s.core with pc := s.core.pc + 4, retired := s.core.retired + 1 } }

/-! ### Loads and stores -/

/-- The loads (R148): bytes, and the value of d for the little-endian number read. -/
def loadForms (d a : BitVec 5) (w : BitVec 2) (i : BitVec 10) : List (Instr × Nat × (Nat → Word)) :=
  [(.ldB d a w i, 1, fun v => BitVec.ofInt 64 (Int.bmod v (2 ^ 8))),
   (.ldH d a w i, 2, fun v => BitVec.ofInt 64 (Int.bmod v (2 ^ 16))),
   (.ldW d a w i, 4, fun v => BitVec.ofInt 64 (Int.bmod v (2 ^ 32))),
   (.ldD d a w i, 8, fun v => BitVec.ofNat 64 v),
   (.ldBn d a w i, 1, fun v => BitVec.ofNat 64 (v % 2 ^ 8)),
   (.ldHn d a w i, 2, fun v => BitVec.ofNat 64 (v % 2 ^ 16)),
   (.ldWn d a w i, 4, fun v => BitVec.ofNat 64 (v % 2 ^ 32))]

/-- The stores (R149) with their bytes. -/
def storeForms (d a : BitVec 5) (w : BitVec 2) (i : BitVec 10) : List (Instr × Nat) :=
  [(.stB d a w i, 1), (.stH d a w i, 2), (.stW d a w i, 4), (.stD d a w i, 8)]

/-- The address of a load or store of n bytes (R148, R149): s1 + imm × n, modulo 2^64. -/
def State.scaledAddress (s : State) (a : BitVec 5) (i : BitVec 10) (n : Nat) : Nat :=
  (s.reg a + BitVec.ofInt 64 (i.toInt * n)).toNat

/-- The core after an instruction that wrote scalar registers and made accesses: registers, pc, the count of instructions
and what the core knows of earlier accesses, and, after a store, buffered instruction lines; nothing else. -/
def OnlyAccess (s t : State) : Prop :=
  t.core = { s.core with
    regs := { s.core.regs with
      glob := t.core.regs.glob, frames := t.core.regs.frames, trapWin := t.core.regs.trapWin },
    pc := t.core.pc, retired := t.core.retired, race := t.core.race, ibuf := t.core.ibuf, pend := t.core.pend }

/-- One packet more is in flight. -/
def Sends (line : Line) (d : Dest) (m : Msg → Prop) (s t : State) : Prop :=
  ∃ p : Packet, t.wafer.net = s.wafer.net ++ [p] ∧ p.line = line ∧ p.dest = d ∧ p.origin = s.site ∧ m p.msg

/-- The core waits at its instruction: pc, registers, count of instructions and memory stay. -/
def Waits (s t : State) : Prop :=
  t.core.pc = s.core.pc ∧ t.core.retired = s.core.retired ∧ t.core.regs = s.core.regs ∧ KeepsMemory s t

/-- An answer with which the instruction traps (R175, R437, R474): the cause, with the address that was asked for. -/
def TrapsOnAnswer (i : Instr) (s : State) : Prop :=
  ∀ q r c, s.core.abandoned = [] → s.core.pend = [q] → q.reply = some r → r.cause = some c →
    exec i s = .next (takeTrap c (BitVec.ofNat 64 q.va) s)

/-- The core waits with one request under the next number, in one packet (R148, R157, R210). -/
def Asks (line : Line) (d : Dest) (m : Msg → Prop) (s t : State) : Prop :=
  Waits s t ∧ Sends line d m s t ∧ ∃ q, t.core.pend = [q] ∧ q.reply = none ∧ q.id = s.wafer.nextId

/-- A trap before any effect of the instruction; a wait of its W field has only covered earlier accesses (R154, R172). -/
def TrapsAt (cause va : Nat) (i : Instr) (s : State) : Prop :=
  ∃ u : State, u = { s with core := { s.core with race := u.core.race } } ∧
    exec i s = .next (takeTrap cause (BitVec.ofNat 64 va) u)

/-- The accesses that translate an address of n bytes: instruction, what they need of the page, address, bytes. -/
def accessForms (d a : BitVec 5) (w : BitVec 2) (i : BitVec 10) (s : State) : List (Instr × Need × Nat × Nat) :=
  (loadForms d a w i).map (fun f => (f.1, { r := true }, s.scaledAddress a i f.2.1, f.2.1)) ++
  (storeForms d a w i).map (fun f => (f.1, { w := true }, s.scaledAddress a i f.2, f.2)) ++
  [(.ldf d a w i, { r := true }, s.scaledAddress a i 4, 4),
   (.ldfe d a w i, { r := true, w := true }, s.scaledAddress a i 4, 4),
   (.ste d a w i, { w := true }, s.scaledAddress a i 4, 4),
   (.stf d a w i, { w := true }, s.scaledAddress a i 4, 4),
   (.ldtag d a w i, { r := true }, s.scaledAddress a i 4, 4),
   (.settag d a w i, { w := true }, s.scaledAddress a i 4, 4),
   (.accAddI32 d a w i, { r := true, w := true }, s.scaledAddress a i 4, 4),
   (.accAddI64 d a w i, { r := true, w := true }, s.scaledAddress a i 8, 8),
   (.accAddF32 d a w i, { r := true, w := true }, s.scaledAddress a i 4, 4),
   (.accMaxI32 d a w i, { r := true, w := true }, s.scaledAddress a i 4, 4),
   (.accMinI32 d a w i, { r := true, w := true }, s.scaledAddress a i 4, 4),
   (.accOrD d a w i, { r := true, w := true }, s.scaledAddress a i 8, 8),
   (.accAndD d a w i, { r := true, w := true }, s.scaledAddress a i 8, 8),
   (.accXorD d a w i, { r := true, w := true }, s.scaledAddress a i 8, 8)]

/-! ### Full/empty words -/

/-- The full/empty instructions that wait for an answer at another tile (R156): instruction, kind, and whether d takes
the answer. -/
def fullEmptyForms (d a : BitVec 5) (w : BitVec 2) (i : BitVec 10) : List (Instr × BlockKind × Bool) :=
  [(.ldf d a w i, .ldf, true), (.ldfe d a w i, .ldfe, true), (.ste d a w i, .ste, false),
   (.ldtag d a w i, .ldtag, true), (.settag d a w i, .settag, false)]

/-- The tag of a word, and only that, becomes full or empty. -/
def SetsTag (a : Nat) (full : Bool) (s t : State) : Prop :=
  ∀ b, t.tile.isFull b = if b = a then full else s.tile.isFull b

/-- No waiter of the tile waits for the word. -/
def NoWaiter (a : Nat) (s : State) : Prop := ∀ x ∈ s.tile.waiters, x.a ≠ a

/-- Outside the core, a full/empty access at the own scratchpad changes the word, its tag and their records. -/
structure OnlyTagsHere (s t : State) : Prop where
  others : ∀ c, ∃ ib pe, findCore t.others c = { findCore s.others c with ibuf := ib, pend := pe }
  place : t.coreNo = s.coreNo ∧ t.site = s.site ∧ t.junction = s.junction
  tile : t.tile = { s.tile with
    mem := t.tile.mem, full := t.tile.full, tagKnown := t.tile.tagKnown, cntKnown := t.tile.cntKnown,
    dirty := t.tile.dirty, monitors := t.tile.monitors, answers := t.tile.answers, touched := t.tile.touched,
    made := t.tile.made, sliceCount := t.tile.sliceCount, lines := t.tile.lines, dets := t.tile.dets }
  wafer : t.wafer = { s.wafer with net := t.wafer.net, nextId := t.wafer.nextId }

/-- The cells that a packet stores. -/
def Msg.storedCells : Msg → List Host.Cell
  | .store _ _ l => l
  | _ => []

/-- The cells leave in posted stores of the core towards a place, on the main line and in order, and no other packet
does. -/
def PostsCells (p : Place) (l : List Host.Cell) (s t : State) : Prop :=
  ∃ ps : List Packet, t.wafer.net = s.wafer.net ++ ps ∧ ps.flatMap (fun q => q.msg.storedCells) = l ∧
    ∀ q ∈ ps, q.line = .main ∧ q.dest = p.dest ∧ q.origin = s.site ∧
      ∃ r c, q.msg = .store r p.space c ∧ r.src = s.me ∧ r.cls = p.space.cls

/-- The count of one posting class rises by one (R152). -/
def CountsOne (cls : PostClass) (s t : State) : Prop :=
  ∀ c, t.core.post.count c = s.core.post.count c + (if c = cls then 1 else 0)

/-- The words of the combining functions of R179, on the values of R186: the 32-bit ones on the low half. -/
def combined : List (AccOp × Nat × (Nat → Nat → Nat)) :=
  [(.addI32, 4, fun x y => (x + y) % 2 ^ 32), (.addI64, 8, fun x y => (x + y) % 2 ^ 64),
   (.addF32, 4, fun x y => (fpAdd .f32 .rne x y).1 % 2 ^ 32),
   (.maxI32, 4, fun x y => if (BitVec.ofNat 32 x).toInt < (BitVec.ofNat 32 y).toInt then y else x),
   (.minI32, 4, fun x y => if (BitVec.ofNat 32 y).toInt < (BitVec.ofNat 32 x).toInt then y else x),
   (.orD, 8, fun x y => x ||| y), (.andD, 8, fun x y => x &&& y), (.xorD, 8, fun x y => x ^^^ y)]

/-- The accumulate instruction of an operation (R186). -/
def accForm (op : AccOp) (d a : BitVec 5) (w : BitVec 2) (i : BitVec 10) : Instr :=
  match op with
  | .addI32 => .accAddI32 d a w i
  | .addI64 => .accAddI64 d a w i
  | .addF32 => .accAddF32 d a w i
  | .maxI32 => .accMaxI32 d a w i
  | .minI32 => .accMinI32 d a w i
  | .orD => .accOrD d a w i
  | .andD => .accAndD d a w i
  | .xorD => .accXorD d a w i

/-- The atomics (R209): instruction, bytes, the new word of the old word x, the operand y and the register z, and the
flags that it raises. -/
def atomicForms (d a b : BitVec 5) : List (Instr × Nat × (Nat → Nat → Nat → Nat) × (Nat → Nat → BitVec 5)) :=
  let quiet (_ _ : Nat) : BitVec 5 := 0
  [(.amoSwapW d a b, 4, fun _ y _ => y, quiet), (.amoSwapD d a b, 8, fun _ y _ => y, quiet),
   (.amoCasW d a b, 4, fun x y z => if x = z then y else x, quiet),
   (.amoCasD d a b, 8, fun x y z => if x = z then y else x, quiet),
   (.amoAddW d a b, 4, fun x y _ => (x + y) % 2 ^ 32, quiet),
   (.amoAddD d a b, 8, fun x y _ => (x + y) % 2 ^ 64, quiet),
   (.amoFaddF32 d a b, 4, fun x y _ => (fpAdd .f32 .rne x y).1 % 2 ^ 32, fun x y => (fpAdd .f32 .rne x y).2.bits),
   (.amoMaxW d a b, 4, fun x y _ => if (BitVec.ofNat 32 x).toInt < (BitVec.ofNat 32 y).toInt then y else x, quiet),
   (.amoMinW d a b, 4, fun x y _ => if (BitVec.ofNat 32 y).toInt < (BitVec.ofNat 32 x).toInt then y else x, quiet)]

/-- The puts (R159): instruction, payload bytes, and whether the flag is a counter. -/
def putForms (d a b : BitVec 5) (s : State) : List (Instr × List Byte × Bool) :=
  [(.putsF d a b, natBytes (s.reg d).toNat 8, false), (.putsC d a b, natBytes (s.reg d).toNat 8, true),
   (.putvF d a b, natBytes (s.core.vreg d).data.toNat 64, false),
   (.putvC d a b, natBytes (s.core.vreg d).data.toNat 64, true)]

/-- The core after an access that also moved a sequence, flags or the window of races: nothing else of it changed. -/
def OnlyPosts (s t : State) : Prop :=
  t.core = { s.core with
    pc := t.core.pc, retired := t.core.retired, race := t.core.race, post := t.core.post, ibuf := t.core.ibuf,
    pend := t.core.pend }

/-- A posted access of the core leaves in one packet (R149, R152, R157, R159): it is counted in its class under the next
output sequence, and registers and memory stay. -/
def PostsOne (cls : PostClass) (d : Dest) (m : Msg → Prop) (s t : State) : Prop :=
  Completed s t ∧ t.core.regs = s.core.regs ∧ KeepsMemory s t ∧ OnlyPosts s t ∧ CountsOne cls s t ∧
    t.core.post.oseq = s.core.post.oseq + 1 ∧ Sends .main d m s t

/-- The siding holds no relaxed row, no bounce waits, and no flush is under way. -/
def SidingEmpty (s : State) : Prop :=
  (∀ k r, s.core.row k = some r → r.det = true) ∧ s.core.acc.flight = 0 ∧ s.core.acc.inbound = [] ∧
    s.core.acc.flushing = []

/-! ### Vector registers -/

/-- Every register but the vectors holds what it held. -/
def KeepsOtherThanVectors (s t : State) : Prop := t.core.regs = { s.core.regs with vregs := t.core.regs.vregs }

/-- A flag is set that was set, or that an active lane raises (R61, R62). -/
def RaisesFlags (lanes : Nat) (active : Nat → Bool) (f : Nat → FpFlags) (s t : State) : Prop :=
  ∀ k : Nat, t.core.fp.fflags.getLsbD k = true ↔
    s.core.fp.fflags.getLsbD k = true ∨ ∃ i < lanes, active i = true ∧ (f i).bits.getLsbD k = true

/-- The instruction of n bytes wrote vector register d and flags, and nothing else. -/
structure WritesOneVector (n : Nat) (d : BitVec 5) (s t : State) : Prop where
  others : ∀ v, v ≠ d → t.core.vreg v = s.core.vreg v
  registers : KeepsOtherThanVectors s t
  pc : t.core.pc = s.core.pc + BitVec.ofNat 64 n
  only : t = { s with core := { s.core with
    regs := t.core.regs, pc := t.core.pc, retired := s.core.retired + 1,
    fp := { s.core.fp with fflags := t.core.fp.fflags, gs := t.core.fp.gs } } }
  memory : KeepsMemory s t

/-- Vector register d has a tag, given elements, scale bytes and the special flag of R44. -/
structure Holds (d : BitVec 5) (T : Tag) (elem : Nat → Nat) (scales : W32) (t : State) : Prop where
  tag : (t.core.vreg d).tag = T
  elems : ∀ i < T.lanes, (t.core.vreg d).elem T.width i = elem i % 2 ^ T.width
  scaleBytes : (t.core.vreg d).scales = scales
  special : (t.core.vreg d).special =
    specialOf T ((t.core.vreg d).elems T.width T.lanes) ((List.range 4).map (scaleByte scales))

/-- A lane instruction: its bytes, the tags it admits, the registers whose tags it checks, in order, its destination,
mask and negate bit, and what an active lane becomes, from the elements of vs1, vs2 and vd. -/
structure LaneForm where
  instr : Instr
  bytes : Nat
  admits : Tag → Bool
  checked : List (BitVec 5)
  d : BitVec 5
  a : BitVec 5
  b : BitVec 5
  p : BitVec 3
  n : BitVec 1
  lane : Tag → Rounding → Nat → Nat → Nat → Nat × FpFlags

/-- A masked instruction that merges also checks the tag of vd (R46, R219). -/
def mergeCheck (p : BitVec 3) (n : BitVec 1) (d : BitVec 5) : List (BitVec 5) := if p = 0 ∧ n = 0 then [] else [d]

/-- Bit i of the mask of an instruction (R218): a predicate, p0 all ones, inverted by the negate bit. -/
def State.active (s : State) (p : BitVec 3) (n : BitVec 1) (i : Nat) : Bool := (s.core.pred p).getLsbD i != (n == 1)

/-- What R46, R47, R219 and R226 say of a lane instruction: with one admitted tag over the checked registers it completes;
otherwise the first register that disagrees is reported. -/
def LaneForm.Runs (F : LaneForm) (s : State) : Prop :=
  (∀ T, F.admits T = true → F.checked ≠ [] → (∀ v ∈ F.checked, (s.core.vreg v).tag = T) →
    let x (v : BitVec 5) (i : Nat) : Nat := (s.core.vreg v).elem T.width i
    let r (i : Nat) : Nat × FpFlags := F.lane T s.core.rounding (x F.a i) (x F.b i) (x F.d i)
    Machine.Runs F.instr s (fun t =>
      Holds F.d T (fun i => if s.active F.p F.n i then (r i).1 else x F.d i) (s.core.vreg F.d).scales t ∧
      RaisesFlags T.lanes (s.active F.p F.n) (fun i => (r i).2) s t ∧ t.core.fp.gs = s.core.fp.gs ∧
      WritesOneVector F.bytes F.d s t)) ∧
  (∀ v r, F.checked = v :: r →
    let T := (s.core.vreg v).tag
    (F.admits T = false →
      exec F.instr s = .next (takeTrap 6 (BitVec.ofNat 64 (T.code + T.code * 2 ^ 8 + 2 ^ 13)) s)) ∧
    (∀ u, F.admits T = true → r.find? (fun q => (s.core.vreg q).tag != T) = some u →
      exec F.instr s = .next (takeTrap 6 (BitVec.ofNat 64 (T.code + (s.core.vreg u).tag.code * 2 ^ 8)) s)))

/-- One form for floating tags, one for integers read by their sign, modulo 2^w (R39, R227). -/
def laneOf (fl : FloatFmt → Rounding → Nat → Nat → Nat → Nat × FpFlags) (int : Int → Int → Int → Int) (T : Tag)
    (m : Rounding) (x y z : Nat) : Nat × FpFlags :=
  let v (k : Nat) : Int := if T.isSigned then Int.bmod k (2 ^ T.width) else k
  match T.float with
  | some g => fl g m x y z
  | none => ((int (v x) (v y) (v z) % 2 ^ T.width).toNat, {})

/-- What the lanes of the operations of R226 to R229 become. -/
def laneAdd := laneOf (fun g m x y _ => fpAdd g m x y) (fun x y _ => x + y)
def laneSub := laneOf (fun g m x y _ => fpSub g m x y) (fun x y _ => x - y)
def laneMul := laneOf (fun g m x y _ => fpMul g m x y) (fun x y _ => x * y)
def laneFma := laneOf (fun g m x y z => fpFma g m false false x y z) (fun x y z => x * y + z)
def laneFms := laneOf (fun g m x y z => fpFma g m false true x y z) (fun x y z => x * y - z)
def laneNfma := laneOf (fun g m x y z => fpFma g m true false x y z) (fun x y z => z - x * y)
def laneMax := laneOf (fun g _ x y _ => fpExtreme g true x y) (fun x y _ => if x < y then y else x)
def laneMin := laneOf (fun g _ x y _ => fpExtreme g false x y) (fun x y _ => if x < y then x else y)
def laneAbs := laneOf (fun g _ x _ _ => (x % 2 ^ (g.width - 1), {})) (fun x _ _ => if x < 0 then -x else x)
def laneNeg := laneOf (fun g _ x _ _ => (x ^^^ 2 ^ (g.width - 1), {})) (fun x _ _ => -x)
def laneLogic (f : Nat → Nat → Nat) (_ : Tag) (_ : Rounding) (x y _ : Nat) : Nat × FpFlags := (f x y, {})
def laneSll (T : Tag) (_ : Rounding) (x y _ : Nat) : Nat × FpFlags := (x * 2 ^ (y % T.width) % 2 ^ T.width, {})
def laneSrl (T : Tag) (_ : Rounding) (x y _ : Nat) : Nat × FpFlags := (x / 2 ^ (y % T.width), {})
def laneSra (T : Tag) (_ : Rounding) (x y _ : Nat) : Nat × FpFlags :=
  ((Int.bmod x (2 ^ T.width) / 2 ^ (y % T.width) % 2 ^ T.width).toNat, {})

/-- A function of one floating element (R242). -/
def laneFloat (f : FloatFmt → Rounding → Nat → Nat × FpFlags) (T : Tag) (m : Rounding) (x _ _ : Nat) : Nat × FpFlags :=
  match T.float with
  | some g => f g m x
  | none => (0, {})

/-- The lane instructions of 32 bits (R226 to R229). -/
def laneForms (d a b : BitVec 5) (p : BitVec 3) (n : BitVec 1) : List LaneForm :=
  let c := mergeCheck p n d
  [⟨.vadd d a b p n, 4, Tag.arith, [a, b] ++ c, d, a, b, p, n, laneAdd⟩,
   ⟨.vsub d a b p n, 4, Tag.arith, [a, b] ++ c, d, a, b, p, n, laneSub⟩,
   ⟨.vmul d a b p n, 4, Tag.arith, [a, b] ++ c, d, a, b, p, n, laneMul⟩,
   ⟨.vfma d a b p n, 4, Tag.arith, [a, b, d], d, a, b, p, n, laneFma⟩,
   ⟨.vfms d a b p n, 4, Tag.arith, [a, b, d], d, a, b, p, n, laneFms⟩,
   ⟨.vnfma d a b p n, 4, Tag.arith, [a, b, d], d, a, b, p, n, laneNfma⟩,
   ⟨.vmax d a b p n, 4, Tag.arith, [a, b] ++ c, d, a, b, p, n, laneMax⟩,
   ⟨.vmin d a b p n, 4, Tag.arith, [a, b] ++ c, d, a, b, p, n, laneMin⟩,
   ⟨.vabs d a p n, 4, Tag.arith, [a] ++ c, d, a, a, p, n, laneAbs⟩,
   ⟨.vneg d a p n, 4, Tag.arith, [a] ++ c, d, a, a, p, n, laneNeg⟩,
   ⟨.vand d a b p n, 4, Tag.logic, [a, b] ++ c, d, a, b, p, n, laneLogic (· &&& ·)⟩,
   ⟨.vandn d a b p n, 4, Tag.logic, [a, b] ++ c, d, a, b, p, n, laneLogic (fun x y => x - (x &&& y))⟩,
   ⟨.vor d a b p n, 4, Tag.logic, [a, b] ++ c, d, a, b, p, n, laneLogic (· ||| ·)⟩,
   ⟨.vxor d a b p n, 4, Tag.logic, [a, b] ++ c, d, a, b, p, n, laneLogic (· ^^^ ·)⟩,
   ⟨.vsll d a b p n, 4, Tag.logic, [a] ++ c, d, a, b, p, n, laneSll⟩,
   ⟨.vsrl d a b p n, 4, Tag.logic, [a] ++ c, d, a, b, p, n, laneSrl⟩,
   ⟨.vsra d a b p n, 4, Tag.logic, [a] ++ c, d, a, b, p, n, laneSra⟩]

/-- The special functions that merge (R242 to R246). -/
def mathForms (d a b : BitVec 5) (p : BitVec 3) (n : BitVec 1) : List LaneForm :=
  let c := mergeCheck p n d
  [⟨.vrndi d a p n, 4, Tag.quantisable, [a] ++ c, d, a, a, p, n, laneFloat fpRoundIntegral⟩,
   ⟨.vfexp d a p n, 4, Tag.quantisable, [a] ++ c, d, a, a, p, n, laneFloat fpExp⟩,
   ⟨.vexpins d a b p n, 4, Tag.quantisable, [a, b] ++ c, d, a, b, p, n,
     fun T m x y _ => match T.float with | some g => fpScale g m x y | none => (0, {})⟩,
   ⟨.vgetexp d a p n, 4, Tag.quantisable, [a] ++ c, d, a, a, p, n, laneFloat (fun g _ x => fpExponent g x)⟩,
   ⟨.vrcp d a p n, 4, Tag.quantisable, [a] ++ c, d, a, a, p, n, laneFloat fpReciprocal⟩,
   ⟨.vrsq d a p n, 4, Tag.quantisable, [a] ++ c, d, a, a, p, n, laneFloat fpInverseSqrt⟩]

/-- The compact lane instructions (R74, R75): vs1 is vd and the mask is p0 or p1; vabs and vneg read vs, and vfmac takes
vs and v31. -/
def compactForms (d v : BitVec 5) (m : BitVec 1) : List LaneForm :=
  let p : BitVec 3 := if m = 1 then 1 else 0
  let c := mergeCheck p 0 d
  [⟨.vaddC d v m, 2, Tag.arith, [d, v] ++ c, d, d, v, p, 0, laneAdd⟩,
   ⟨.vsubC d v m, 2, Tag.arith, [d, v] ++ c, d, d, v, p, 0, laneSub⟩,
   ⟨.vmulC d v m, 2, Tag.arith, [d, v] ++ c, d, d, v, p, 0, laneMul⟩,
   ⟨.vmaxC d v m, 2, Tag.arith, [d, v] ++ c, d, d, v, p, 0, laneMax⟩,
   ⟨.vminC d v m, 2, Tag.arith, [d, v] ++ c, d, d, v, p, 0, laneMin⟩,
   ⟨.vandC d v m, 2, Tag.logic, [d, v] ++ c, d, d, v, p, 0, laneLogic (· &&& ·)⟩,
   ⟨.vandnC d v m, 2, Tag.logic, [d, v] ++ c, d, d, v, p, 0, laneLogic (fun x y => x - (x &&& y))⟩,
   ⟨.vorC d v m, 2, Tag.logic, [d, v] ++ c, d, d, v, p, 0, laneLogic (· ||| ·)⟩,
   ⟨.vxorC d v m, 2, Tag.logic, [d, v] ++ c, d, d, v, p, 0, laneLogic (· ^^^ ·)⟩,
   ⟨.vabsC d v m, 2, Tag.arith, [v] ++ c, d, v, v, p, 0, laneAbs⟩,
   ⟨.vnegC d v m, 2, Tag.arith, [v] ++ c, d, v, v, p, 0, laneNeg⟩,
   ⟨.vsllC d v m, 2, Tag.logic, [d] ++ c, d, d, v, p, 0, laneSll⟩,
   ⟨.vsrlC d v m, 2, Tag.logic, [d] ++ c, d, d, v, p, 0, laneSrl⟩,
   ⟨.vsraC d v m, 2, Tag.logic, [d] ++ c, d, d, v, p, 0, laneSra⟩,
   ⟨.vfmacC d v m, 2, Tag.arith, [v, 31, d], d, v, 31, p, 0, laneFma⟩]

/-- A move of predicate lanes: its registers checked, and for each lane the register and lane taken, or none where vd keeps
its own (R230, R238, R240). -/
structure MoveForm where
  instr : Instr
  bytes : Nat
  checked : List (BitVec 5)
  d : BitVec 5
  p : BitVec 3
  n : BitVec 1
  source : Tag → Nat → Option (BitVec 5 × Nat)

/-- What R230, R238 and R240 say of a move of lanes, with one tag over the checked registers. -/
def MoveForm.Runs (F : MoveForm) (s : State) : Prop :=
  ∀ T, F.checked ≠ [] → (∀ v ∈ F.checked, (s.core.vreg v).tag = T) →
    Machine.Runs F.instr s (fun t =>
      (t.core.vreg F.d).tag = T ∧
      (∀ i < T.predLanes, (t.core.vreg F.d).lane T i =
        match (if s.active F.p F.n i then F.source T i else none) with
        | some q => (s.core.vreg q.1).lane T q.2
        | none => (s.core.vreg F.d).lane T i) ∧
      (T ≠ .b4 → (t.core.vreg F.d).scales = (s.core.vreg F.d).scales) ∧
      t.core.fp = s.core.fp ∧ WritesOneVector F.bytes F.d s t)

/-- The moves of lanes. vperm reads its indices from vs2 at the width of vs1's tag, for b4 from bytes. -/
def moveForms (d a b k : BitVec 5) (p : BitVec 3) (n : BitVec 1) (s : State) : List MoveForm :=
  let c := mergeCheck p n d
  let lanes (T : Tag) : Nat := T.predLanes
  [⟨.vsel d a b p n, 4, [a, b], d, 0, 0, fun _ i => some (if s.active p n i then (a, i) else (b, i))⟩,
   ⟨.vperm d a b p n, 4, [a] ++ c, d, p, n,
     fun T i => some (a, (s.core.vreg b).elem (if T = .b4 then 8 else T.width) i % lanes T)⟩,
   ⟨.vslup d a k p n, 4, [a, d], d, p, n, fun _ i => if k.toNat ≤ i then some (a, i - k.toNat) else none⟩,
   ⟨.vsldn d a k p n, 4, [a, d], d, p, n, fun T i => if i + k.toNat < lanes T then some (a, i + k.toNat) else none⟩,
   ⟨.vbcast d a k p n, 4, [a] ++ c, d, p, n, fun T _ => some (a, k.toNat % lanes T)⟩,
   ⟨.vzip d a b p n, 4, [a, b] ++ c, d, p, n, fun _ i => some (if i % 2 = 0 then a else b, i / 2)⟩,
   ⟨.vunzip d a b p n, 4, [a, b] ++ c, d, p, n,
     fun T i => some (if i < lanes T / 2 then (a, 2 * i) else (b, 2 * (i - lanes T / 2)))⟩]

/-- The steps of the generator for the first k converted elements (R55). -/
def generatorAfter : Nat → Word → Word
  | 0, gs => gs
  | k + 1, gs => generatorAfter k (drawStep gs).1

/-- Active elements below i among those that a conversion takes (R55, R235). -/
def converted (active : Nat → Bool) (i : Nat) : Nat := (List.range i).countP (fun j => active j)

/-- A zeroing conversion (R235) of n elements into the elements of vd under a tag: each active element below n by f, with
a draw of the generator when it is stochastic; every other element 0. -/
def ConvertsTo (d : BitVec 5) (T : Tag) (n : Nat) (active : Nat → Bool) (draws : Bool) (m : Rounding)
    (f : Rounding → Nat → Nat × FpFlags) (s t : State) : Prop :=
  let on (i : Nat) : Bool := decide (i < n) && active i
  let mode (i : Nat) : Rounding :=
    if draws then .stochastic (drawStep (generatorAfter (converted on i) s.core.fp.gs)).2 else m
  Holds d T (fun i => if on i then (f (mode i) i).1 else 0) (s.core.vreg d).scales t ∧
  RaisesFlags T.lanes on (fun i => (f (mode i) i).2) s t ∧
  t.core.fp.gs = (if draws then generatorAfter (converted on T.lanes) s.core.fp.gs else s.core.fp.gs) ∧
  WritesOneVector 4 d s t

/-- The compares with their conditions (R231, R232). -/
def compareForms (d : BitVec 3) (a b : BitVec 5) (p : BitVec 3) (n : BitVec 1) : List (Instr × Compare × (Int → Int → Bool)) :=
  [(.vceq d a b p n, .eq, fun x y => decide (x = y)), (.vcne d a b p n, .ne, fun x y => decide (x ≠ y)),
   (.vclt d a b p n, .lt, fun x y => decide (x < y)), (.vcle d a b p n, .le, fun x y => decide (x ≤ y)),
   (.vcgt d a b p n, .gt, fun x y => decide (y < x)), (.vcge d a b p n, .ge, fun x y => decide (y ≤ x)),
   (.vcun d a b p n, .un, fun _ _ => false)]

/-- The instruction completes with predicate d := v, flags, and everything else as it was; a write of p0 is discarded. -/
structure AssignsPredicate (d : BitVec 3) (v : Word) (s t : State) : Prop where
  preds : ∀ q, t.core.pred q = if q = 0 then BitVec.allOnes 64 else if q = d then v else s.core.pred q
  completed : Completed s t
  only : t = { s with core := { s.core with
    regs := { s.core.regs with preds := t.core.regs.preds }, pc := t.core.pc, retired := t.core.retired,
    fp := { s.core.fp with fflags := t.core.fp.fflags } } }
  memory : KeepsMemory s t

/-! ### Vector loads and stores -/

/-- Every element lies in the own scratchpad at an address of its alignment, no footprint covers it, and no race traps. -/
def ElementsHere (es : List Element) (write : Bool) (s : State) : Prop :=
  ∀ e ∈ es, e.va % e.size = 0 ∧ e.va < 0x600000 ∧ s.footprintStall e.va e.size write = false ∧
    NoRace e.va e.size write s

/-- The determinant queue has room for n more (R422). -/
def RoomFor (n : Nat) (s : State) : Prop := s.booting = true ∨ s.tile.dets.length + n ≤ 64

/-- The core after a vector access: vectors, pc, the count of instructions, VPROG, what it knows of accesses, and after a
store its posted counts' sequence, buffered lines and answers; nothing else. -/
def OnlyVectorAccess (s t : State) : Prop :=
  t.core = { s.core with
    regs := { s.core.regs with vregs := t.core.regs.vregs }, pc := s.core.pc + 4, retired := s.core.retired + 1,
    fp := { s.core.fp with vprog := t.core.fp.vprog }, race := t.core.race, ibuf := t.core.ibuf, pend := t.core.pend }

/-- Every vector register but v holds what it held. -/
def KeepsOtherVectors (v : BitVec 5) (s t : State) : Prop := ∀ u, u ≠ v → t.core.vreg u = s.core.vreg u

/-- The byte that a store of elements leaves at an address: of the last element that covers it (R252). -/
def elementByte (es : List Element) (value : Element → Nat) (b : Nat) : Option Byte :=
  es.foldl (fun r e => if e.va ≤ b ∧ b < e.va + e.size then some (BitVec.ofNat 8 (value e / 256 ^ (b - e.va))) else r) none

/-- The own scratchpad holds the elements, and every other byte of memory is as it was. -/
structure StoresElements (es : List Element) (value : Element → Nat) (s t : State) : Prop where
  own : ∀ b, t.tile.mem.read b = (elementByte es value b).getD (s.tile.mem.read b)
  hbm : t.wafer.hbm = s.wafer.hbm
  host : t.wafer.host = s.wafer.host
  peer : t.wafer.peer = s.wafer.peer
  sites : t.wafer.sites = s.wafer.sites

/-- The lanes of a gather, scatter or vector accumulate from VPROG.LANE on (R223, R253): 32 bits at xb + sext(voff[i]). -/
def laneElements (a o : BitVec 5) (s : State) : List Element :=
  ((List.range 16).filter (fun i => s.core.fp.vprog.toNat ≤ i)).map (fun i =>
    { i := i, va := (s.reg a + BitVec.ofInt 64 (Int.bmod ((s.core.vreg o).elem 32 i) (2 ^ 32))).toNat, size := 4 })

end Sys2Proof.Machine
end

