-- ==== Sys2Proof/Certificates/Slice0/ClaimsUnits.lean ====
section
/-!
DEFINITION. The words of the statements about the units beside the cores' pipelines: tile and copy jobs, messages and
barriers, tasks, signal boxes.
-/
namespace Sys2Proof.Machine

/-! ### Jobs of the matrix engine -/

/-- The core after it queued a tile job: scalar registers, tags of tile registers, the engine's queue and slots, the
generator, pc and count of instructions; nothing else. -/
def OnlyQueues (s t : State) : Prop :=
  t = { s with
    core := { s.core with
      regs := { s.core.regs with
        glob := t.core.regs.glob, frames := t.core.regs.frames, trapWin := t.core.regs.trapWin,
        tregs := t.core.regs.tregs },
      eng := { s.core.eng with
        cards := t.core.eng.cards, slots := t.core.eng.slots, mseq := t.core.eng.mseq, perturb := t.core.eng.perturb,
        fresh := t.core.eng.fresh },
      fp := { s.core.fp with gs := t.core.fp.gs }, pc := t.core.pc, retired := t.core.retired },
    tile := { s.tile with jobNo := s.tile.jobNo + 1 } }

/-- The content of a tile register, read under a tag, holds a NaN, an infinity, or a block whose scale byte has e = 63
(R44). -/
def TReg.HoldsSpecial (r : TReg) (T : Tag) : Prop :=
  if T = .b4 then ∃ i < 32, ∃ j < 8, field (vget r.scales i 0) (8 * j) 6 = 63
  else ∃ g, T.float = some g ∧ ∃ i < 32, ∃ j < 1024 / T.width,
    (g.value (field (vget r.rows i 0) (T.width * j) T.width)).isSpecial = true

/-- The instruction completes with one card more at the end of the core's queue (R258); at most one tile register takes
a new tag, and its special flag with it, and every row and scale byte stays (R44, R45). -/
structure QueuesCard (k : TileCard) (m : Option (BitVec 3 × Tag)) (s t : State) : Prop where
  cards : t.core.eng.cards = s.core.eng.cards ++ [{ k with num := s.tile.jobNo }]
  registers : ∀ r, t.core.treg r =
    match m with
    | some x => if r = x.1 then { s.core.treg r with tag := x.2, special := (t.core.treg r).special } else s.core.treg r
    | none => s.core.treg r
  special : ∀ x, m = some x → ((t.core.treg x.1).special = true ↔ (s.core.treg x.1).HoldsSpecial x.2)
  completed : Completed s t
  only : OnlyQueues s t
  memory : KeepsMemory s t

/-- A card without a ticket: slots, MSEQ, PERTURB and the scalar registers stay. -/
structure QueuesUnticketed (k : TileCard) (m : Option (BitVec 3 × Tag)) (s t : State) : Prop where
  queued : QueuesCard k m s t
  engine : t.core.eng.slots = s.core.eng.slots ∧ t.core.eng.mseq = s.core.eng.mseq ∧
    t.core.eng.perturb = s.core.eng.perturb
  scalars : KeepsScalars s.core t.core

/-- A card with a ticket (R259, R260): it takes MSEQ, which moves on, and its slot, which becomes pending; xt holds the
ticket. -/
structure QueuesTicketed (k : TileCard) (m : Option (BitVec 3 × Tag)) (d : BitVec 5) (s t : State) : Prop where
  queued : QueuesCard { k with seq := some s.core.eng.mseq } m s t
  mseq : t.core.eng.mseq = s.core.eng.mseq + 1
  slots : ∀ i < 16, vget t.core.eng.slots i {} =
    if i = s.core.eng.mseq.toNat % 16 then { seq := s.core.eng.mseq, state := 1 } else vget s.core.eng.slots i {}
  ticket : WritesScalar d (BitVec.ofNat 64 (2 ^ 19 + s.coreNo.toNat * 2 ^ 16 + s.core.eng.mseq.toNat)) s.core t.core

/-- The queue of the core has room (R258), and the slot of the next ticket is not pending (R260). -/
def CardRoom (s : State) : Prop := s.core.eng.cards.length < 8
def TicketRoom (s : State) : Prop := CardRoom s ∧ (vget s.core.eng.slots (s.core.eng.mseq.toNat % 16) {}).state ≠ 1

/-- FMT of the TSHAPE of a tile register names a format (R256). -/
def ShapeIs (m : BitVec 3) (F : Tag) (s : State) : Prop :=
  Tag.numbered (field (vget s.core.eng.tshape m.toNat 0) 0 5) = some F

/-- The instruction raises the illegal-instruction trap with its own word. -/
def TrapsIllegal (i : Instr) (s : State) : Prop := ∃ w, HasWord i w ∧ exec i s = .next (takeTrap 1 w s)

/-- The values of a tag mismatch trap (R47): the first tag, the tag that disagrees or the same again with bit 13. -/
def TrapsOnTags (i : Instr) (a b : Tag) (wrong : Bool) (s : State) : Prop :=
  exec i s = .next (takeTrap 6 (BitVec.ofNat 64 (a.code + b.code * 2 ^ 8 + if wrong then 2 ^ 13 else 0)) s)

/-! ### Tickets -/

/-- The waits on a ticket (R282, R298): instruction, engine, and whether it polls. -/
def waitForms (d a : BitVec 5) : List (Instr × EngineKind × Bool) :=
  [(.twait d a, .matrix, false), (.tpoll d a, .matrix, true), (.cwait d a, .copier, false), (.cpoll d a, .copier, true)]

/-- A slot of an engine, its state set to observed. -/
def State.observed (s : State) (e : EngineKind) (i : Nat) : State :=
  let o (v : Vector Slot 16) : Vector Slot 16 := vset v i { vget v i {} with state := 3 }
  match e with
  | .matrix => { s with core := { s.core with eng := { s.core.eng with slots := o s.core.eng.slots } } }
  | .copier => { s with core := { s.core with cpy := { s.core.cpy with slots := o s.core.cpy.slots } } }

/-! ### Copy jobs -/

/-- The copy instructions (R295). -/
def copyForms (d a : BitVec 5) : List (Instr × CopyKind) :=
  [(.copy d a, .copy), (.copyc d a, .copyc), (.mcast d a, .mcast)]

/-- What R296 asks of the fields of a card: n its length, c its CTL, r its RECT; the last dword is zero. -/
structure CardIsGood (kind : CopyKind) (m : Memory) (x W H : Nat) : Prop where
  len : 4 ≤ m.readNat (x + 0x10) 4 ∧ m.readNat (x + 0x10) 4 ≤ 2 ^ 30 ∧ m.readNat (x + 0x10) 4 % 4 = 0
  aligned : m.readNat x 8 % 4 = 0 ∧ m.readNat (x + 8) 8 % 4 = 0
  ctl : (BitVec.ofNat 32 (m.readNat (x + 0x14) 4)) &&& ~~~(if kind = .copyc then 7 else 4) = 0
  flag : m.readNat (x + 0x14) 4 / 4 % 2 = 1 → m.readNat (x + 0x20) 8 % 4 = 0 ∧
    (kind = .mcast → m.readNat (x + 0x20) 8 < 0x600000)
  within : kind = .mcast → m.readNat (x + 8) 8 + m.readNat (x + 0x10) 4 ≤ 0x600000
  rect : if kind = .mcast then
      (let r := m.readNat (x + 0x28) 4
       let t := r % 2 ^ 12
       let w := r / 2 ^ 12 % 2 ^ 7
       let h := r / 2 ^ 19 % 2 ^ 6
       r / 2 ^ 25 = 0 ∧ 1 ≤ w ∧ 1 ≤ h ∧ t % W + w ≤ W ∧ t / W + h ≤ H)
    else m.readNat (x + 0x28) 4 = 0
  rest : m.readNat (x + 0x2C) 4 = 0

/-! ### Messages -/

/-- Every q register but one holds what it held. -/
def KeepsOtherQ (q : BitVec 4) (s t : State) : Prop :=
  ∀ k, k ≠ q → vget t.core.regs.qregs k.toNat {} = vget s.core.regs.qregs k.toNat {}

/-- A message in flight, as a send of the core forms it (R318, R319). -/
structure MessageFrom (s : State) (x : Word) (d : V256) (counted : Bool) (m : Message) : Prop where
  source : m.jt = s.tile.jt ∧ m.core = s.coreNo ∧ m.tile = s.tile.tile ∧ m.job = s.tile.job.getD 0
  seq : m.seq = s.core.sync.msgSeq + 1
  place : m.dst.toNat = field x 12 3 ∧ m.q.toNat = field x 16 4
  data : m.data = d
  kind : m.counted = counted ∧ m.fromBox = false

/-- What a message leaves outside the registers of cores, the queue of the tile and the network. -/
def OnlyMessages (s t : State) : Prop :=
  t = { s with
    core := t.core, others := t.others, tile := { s.tile with inbound := t.tile.inbound },
    wafer := { s.wafer with net := t.wafer.net, nextId := t.wafer.nextId } } ∧
  (∀ k, ∃ q w p, t.coreAt k = { s.coreAt k with
    regs := { (s.coreAt k).regs with qregs := q }, wake := w, sync := { (s.coreAt k).sync with msgSeq := p },
    pc := (t.coreAt k).pc, retired := (t.coreAt k).retired, post := (t.coreAt k).post }) ∧
  ∀ k, k ≠ s.coreNo → (t.coreAt k).pc = (s.coreAt k).pc ∧ (t.coreAt k).retired = (s.coreAt k).retired ∧
    (t.coreAt k).post = (s.coreAt k).post

/-! ### Barriers -/

/-- The core has arrived at the barrier of a level (R329, R331): its state is 1, and its arrival is counted by the tile's
own logic, or is on its way to the first tile of the domain under the next output sequence. -/
structure Arrives (n : BitVec 2) (s t : State) : Prop where
  bst : ∀ k < 4, vget t.core.sync.bst k 0 = if k = n.toNat then 1 else vget s.core.sync.bst k 0
  home : n = 0 ∨ (s.domain n).alone.isSome = true →
    (∃ b ∈ t.wafer.barriers, b.domain = s.domain n ∧ (s.tile.jt.toNat, s.coreNo) ∈ b.arrived) ∧
    t.wafer.net = s.wafer.net ∧ t.core.post = s.core.post
  away : n ≠ 0 → (s.domain n).alone = none →
    t.core.post = { s.core.post with oseq := s.core.post.oseq + 1 } ∧ t.wafer.barriers = s.wafer.barriers ∧
    Sends .relief (.tile (s.tile.logical ((s.wafer.domainTiles (s.domain n)).headD 0))) (fun m =>
      ∃ b, m = .arrival b ∧ b.domain = s.domain n ∧ b.member = (s.tile.jt.toNat, s.coreNo) ∧ b.src = s.me ∧
        b.seq = s.core.post.oseq + 1) s t
  registers : t.core.regs = s.core.regs ∧ t.core.acc.rows = s.core.acc.rows
  memory : KeepsMemory s t

/-- A released barrier is passed (R331, R333): the far cache and the buffered instruction lines are empty, and the
superstep of the level moves on. -/
structure Passes (n : BitVec 2) (s t : State) : Prop where
  far : t.tile.far = [] ∧ t.core.ibuf = []
  step : ∀ k < 4, vget t.core.sync.step k 0 = vget s.core.sync.step k 0 + (if k = n.toNat then 1 else 0)
  registers : t.core.regs = s.core.regs ∧ t.core.post = s.core.post
  memory : KeepsMemory s t

/-! ### Counters and tasks -/

/-- The core after an instruction that wrote a scalar register and what the listed parts of it say. -/
def OnlyScalarsAnd (s t : State) (sync : SyncCtl) (task : TaskCtl) : Prop :=
  t.core = { s.core with
    regs := { s.core.regs with
      glob := t.core.regs.glob, frames := t.core.regs.frames, trapWin := t.core.regs.trapWin },
    pc := t.core.pc, retired := t.core.retired, wake := t.core.wake, race := t.core.race, sync := sync, task := task }

/-- The cores of the tile that wait for a counter with a bound that is met are released with a status, and every other
wait stays (R338). -/
def Releases (c : BitVec 3) (met : Nat → Prop) (status : BitVec 1) (s t : State) : Prop :=
  ∀ k, match (s.coreAt k).sync.cnt with
    | none => (t.coreAt k).sync.cnt = none
    | some w =>
      (w.c = c ∧ w.status = none ∧ met w.bound.toNat → (t.coreAt k).sync.cnt = some { w with status := some status }) ∧
      (¬(w.c = c ∧ w.status = none ∧ met w.bound.toNat) → (t.coreAt k).sync.cnt = some w)

/-! ### Signal boxes -/

/-- A word of a kernel has been performed at a cost, and the run goes on with the next word: the start of the body of a
rpt with passes left, else the word behind (R387, R389). -/
structure BoxStep (cost : Nat) (s t : State) (r q : BoxRun) : Prop where
  state : t = { s with tile := { s.tile with box := { s.tile.box with run := some q } } }
  count : q.count = r.count + cost
  pc : q.pc =
    match r.loop with
    | some (first, n, left) => if r.pc + 1 = first + n ∧ 1 < left then first else r.pc + 1
    | none => r.pc + 1
  loop : q.loop =
    match r.loop with
    | some (first, n, left) =>
      if r.pc + 1 = first + n then (if 1 < left then some (first, n, left - 1) else none) else some (first, n, left)
    | none => none
  fixed : q.flow = r.flow ∧ q.pkt = r.pkt

/-- Scalar register d of the run takes a value; b0 reads zero (R387). -/
def BoxScalar (d : BitVec 4) (v : W32) (r q : BoxRun) : Prop :=
  ∀ i, q.b i = if i = 0 then 0 else if i = d then v else r.b i

/-- Vector register d of the run takes a value. -/
def BoxVector (d : BitVec 3) (v : V256) (r q : BoxRun) : Prop := ∀ i, q.y i = if i = d then v else r.y i

/-- What a word leaves alone. -/
def BoxKeepsScalars (r q : BoxRun) : Prop := q.bregs = r.bregs
def BoxKeepsVectors (r q : BoxRun) : Prop := q.yregs = r.yregs
def BoxKeepsPacket (r q : BoxRun) : Prop := q.beats = r.beats
def BoxKeepsOutputs (r q : BoxRun) : Prop := q.buffer = r.buffer ∧ q.emits = r.emits

/-- A word of a run at a cost (R387, R390): within the budget it is performed, with a property of the run before and
after; beyond it the kernel traps with the count. -/
def BoxWord (i : Instr) (cost : Nat) (post : BoxRun → BoxRun → Prop) (s : State) : Prop :=
  ∀ r, s.tile.box.run = some r →
    (r.count + cost ≤ s.tile.box.budget r.flow → Runs i s (fun t => ∃ q, BoxStep cost s t r q ∧ post r q)) ∧
    (s.tile.box.budget r.flow < r.count + cost → exec i s = .next (kernelTrap r 1 r.count s))

/-- A word that writes one scalar register, and nothing else of the run. -/
def BoxAssigns (i : Instr) (cost : Nat) (d : BitVec 4) (v : BoxRun → W32) (s : State) : Prop :=
  BoxWord i cost (fun r q => BoxScalar d (v r) r q ∧ BoxKeepsVectors r q ∧ BoxKeepsPacket r q ∧ BoxKeepsOutputs r q) s

/-- A word that writes one vector register, lane by lane (R393). -/
def BoxLanes (i : Instr) (cost : Nat) (d : BitVec 3) (v : BoxRun → Nat → Nat) (s : State) : Prop :=
  BoxWord i cost (fun r q => (∀ k < 8, field (q.y d) (32 * k) 32 = v r k % 2 ^ 32) ∧ (∀ j, j ≠ d → q.y j = r.y j) ∧
    BoxKeepsScalars r q ∧ BoxKeepsPacket r q ∧ BoxKeepsOutputs r q) s

end Sys2Proof.Machine
end

