-- ==== Sys2Proof/Certificates/Slice0/ClaimsEvents.lean ====
section
/-!
DEFINITION. The words of the statements about the events of the operation table: packets that arrive, what they may
change, and what is in flight after them.
-/
namespace Sys2Proof.Machine

/-! ### Arrivals -/

/-- An arrived packet that a tile takes (R24, R317, R378, R423, R433, R442, R450): t is the state with its site in
focus, the packet in its channel record where an open depot round asks for that. -/
structure Taken (id : Nat) (p : Packet) (s t : State) : Prop where
  packet : s.packet id = some p
  home : p.dest.rim = false
  place : t = (s.focusSite p.site).recordChannel p
  may : ∃ n, p.arrived = some n ∧ (s.focusSite p.site).mayTake p n = true

/-- An arrived packet that a rim unit takes: no earlier one of its source and line, nor an earlier access of its core that
it follows, waits (R24, R167 to R169). -/
structure TakenAtRim (id : Nat) (p : Packet) (s : State) : Prop where
  packet : s.packet id = some p
  home : p.dest.rim = true
  may : ∃ n, p.arrived = some n ∧ s.behind p n = false ∧ s.orderWaits p = false ∧ s.queueWaits p = false

/-- A packet newer than t is in flight from a site. -/
def Sent (x : SiteId) (line : Line) (d : Dest) (m : Msg) (t u : State) : Prop :=
  ∃ q ∈ u.wafer.net, t.wafer.nextId ≤ q.id ∧ q.origin = x ∧ q.line = line ∧ q.dest = d ∧ q.msg = m

/-- The same, of a packet whose content meets a condition. -/
def SentSome (x : SiteId) (line : Line) (d : Dest) (m : Msg → Prop) (t u : State) : Prop :=
  ∃ q ∈ u.wafer.net, t.wafer.nextId ≤ q.id ∧ q.origin = x ∧ q.line = line ∧ q.dest = d ∧ m q.msg

/-- The packet that t held under a number is no longer in flight. -/
def Gone (id : Nat) (t u : State) : Prop := id < t.wafer.nextId → ∀ q ∈ u.wafer.net, q.id ≠ id

/-- The byte that cells leave at an address: of the last cell of that address. -/
def cellByte (cells : List Host.Cell) (b : Nat) : Option Byte :=
  cells.foldl (fun r c => if c.1 = b then some c.2 else r) none

/-- A memory holds the cells, and every other byte as it was. -/
def HoldsCells (cells : List Host.Cell) (m n : Memory) : Prop := ∀ b, n.read b = (cellByte cells b).getD (m.read b)

/-- The own scratchpad holds the cells, and every other byte of memory is as it was. -/
structure StoresCells (cells : List Host.Cell) (t u : State) : Prop where
  own : HoldsCells cells t.tile.mem u.tile.mem
  hbm : u.wafer.hbm = t.wafer.hbm
  host : u.wafer.host = t.wafer.host
  peer : u.wafer.peer = t.wafer.peer
  sites : u.wafer.sites = t.wafer.sites

/-- The output mark of a source covers a request: it stands at its sequence or beyond, or it holds the one packet of two
that has come (R184, R427, R481). -/
def CoveredBy (l : List Mark) (r : Req) : Prop :=
  ∃ k, findMark l r.src = some k ∧ (underMark k.oseq r.seq = true ∨ k.tookHalf r = true)

/-- The tile's marks cover a request. -/
def Marked (r : Req) (u : State) : Prop := CoveredBy u.tile.marks r

/-- The rest of the wafer after an arrival at a tile: packets, send-log entries and channel records. -/
def OnlyTraffic (t u : State) : Prop :=
  u.wafer = { t.wafer with
    net := u.wafer.net, nextId := u.wafer.nextId,
    healing := { t.wafer.healing with waybills := u.wafer.healing.waybills, sent := u.wafer.healing.sent } }

/-- What an access from another tile may change of a tile: the scratchpad and the records of its words and lines,
waiters, marks and determinants; of the cores, buffered instruction lines and answers. -/
structure OnlyArrival (t u : State) : Prop where
  cores : ∀ c, ∃ ib pe, u.coreAt c = { t.coreAt c with ibuf := ib, pend := pe }
  place : u.coreNo = t.coreNo ∧ u.site = t.site ∧ u.junction = t.junction
  tile : u.tile = { t.tile with
    mem := u.tile.mem, full := u.tile.full, tagKnown := u.tile.tagKnown, cntKnown := u.tile.cntKnown,
    waiters := u.tile.waiters, monitors := u.tile.monitors, marks := u.tile.marks, answers := u.tile.answers,
    dirty := u.tile.dirty, touched := u.tile.touched, made := u.tile.made, sliceCount := u.tile.sliceCount,
    lines := u.tile.lines, dets := u.tile.dets }
  wafer : OnlyTraffic t u

/-- The OSEQ that an acknowledgement names: that of a line which travels as two packets (R481). -/
def Req.line (r : Req) : Option W32 := r.half.map (fun _ => r.seq)

/-- A new posted write from another tile: not a repeat of a replay, with room for its mark (R184, R427). -/
def FreshWrite (r : Req) (t : State) : Prop := r.replay = false ∧ markRoom t.tile.marks r.src = true

/-- The full/empty accesses of another tile (R156): kind, the answer, and the tag that they leave. -/
def tagForms (a : Nat) (data : W32) (t : State) : List (BlockKind × Nat × Bool) :=
  let w := t.tile.mem.readNat a 4
  let full := t.tile.isFull a
  [(.ldf, w, full), (.ldfe, w, false), (.ste, 0, true), (.ldtag, if full then 1 else 0, full),
   (.settag, 0, data.getLsbD 0)]

/-- The access may be performed at its word (R156). -/
def TagAllows (kind : BlockKind) (a : Nat) (t : State) : Prop :=
  (kind = .ldf ∨ kind = .ldfe → t.tile.isFull a = true) ∧ (kind = .ste → t.tile.isFull a = false)

/-- A core of the tile waits for the answer of a request. -/
def AwaitsAnswer (c : CoreId) (fetch : Nat) (t : State) : Prop :=
  ∃ f ∈ (t.coreAt c).pend, f.id = fetch ∧ f.reply = none

/-- The answers of a core, with one request answered. -/
def withAnswer (fetch : Nat) (rep : Reply) (l : List Fetch) : List Fetch :=
  l.map (fun f => if f.id = fetch then { f with reply := some rep } else f)

/-- Every core but one is as it was. -/
def OtherCoresKept (c : CoreId) (t u : State) : Prop := ∀ k, k ≠ c → u.coreAt k = t.coreAt k

/-- After an arrival for a core: the core in focus may be another, and the tile keeps all but its determinants. -/
structure OnlyForCore (c : CoreId) (t u : State) : Prop where
  others : OtherCoresKept c t u
  place : u.site = t.site ∧ u.junction = t.junction
  tile : u.tile = { t.tile with dets := u.tile.dets, fills := u.tile.fills }
  wafer : OnlyTraffic t u

/-- After a packet at a rim unit: nothing of any site changes, and no core. -/
structure OnlyAtRim (s u : State) : Prop where
  cores : u.core = s.core ∧ u.coreNo = s.coreNo ∧ u.others = s.others
  site : u.tile = s.tile ∧ u.junction = s.junction ∧ u.site = s.site
  sites : u.wafer.sites = s.wafer.sites

/-- The memory behind the rim that a place names holds the cells, and every other byte of memory is as it was. -/
def StoresBehind (sp : Space) (cells : List Host.Cell) (s u : State) : Prop :=
  let w := s.wafer
  let v := u.wafer
  match sp with
  | .hbm => HoldsCells cells w.hbm v.hbm ∧ v.host = w.host ∧ v.peer = w.peer
  | .host q => HoldsCells (shiftCells (hostBase q) cells) w.host v.host ∧ v.hbm = w.hbm ∧ v.peer = w.peer
  | .peer x => HoldsCells (shiftCells (peerBase x) cells) w.peer v.peer ∧ v.hbm = w.hbm ∧ v.host = w.host
  | _ => False

/-- A posted write at a rim unit: a controller, which keeps marks, has not performed it, and has room for its mark
(R427). -/
def FreshAtRim (p : Packet) (r : Req) (s : State) : Prop :=
  ∀ c, p.dest = .controller c → r.replay = false ∧ markRoom (s.rimMarks c) r.src = true

/-- A controller's marks cover a request. -/
def MarkedAtRim (p : Packet) (r : Req) (u : State) : Prop := ∀ c, p.dest = .controller c → CoveredBy (u.rimMarks c) r

/-- The HBM holds the cells, and every other memory byte is as it was. -/
structure StoresInHbm (cells : List Host.Cell) (s u : State) : Prop where
  hbm : HoldsCells cells s.wafer.hbm u.wafer.hbm
  host : u.wafer.host = s.wafer.host
  peer : u.wafer.peer = s.wafer.peer

/-- A request of a source, under its number, is in flight beside the packet of a number. -/
def AsksInFlight (id : Nat) (src : CoreRef) (fetch : Nat) (t : State) : Prop :=
  ∃ q ∈ t.wafer.net, q.id ≠ id ∧ q.msg.asks src fetch = true

/-- A request of a source and number. -/
def IsRequest (src : CoreRef) (fetch : Nat) (r : Req) : Prop := r.src = src ∧ r.fetch = fetch

/-- An abandoned access as its core records it (R367): cancelled, or with the answer that has come. -/
def IsAbandoned (f : Fetch) (pl : Place) (a : Abandoned) : Prop :=
  a.kind = f.kind ∧ a.place = pl ∧ a.tag = f.tag ∧ a.fetch = f.id ∧ a.va = f.va ∧ a.lane = f.lane ∧ a.ops = f.ops ∧
    a.answer = f.reply.map some

/-! ### Accumulates and their bounces -/

/-- The slices of the tile but one are as they were. -/
def OtherSlicesKept (k : Nat) (t u : State) : Prop :=
  ∀ j, j ≠ k → vget u.tile.slices j {} = vget t.tile.slices j {}

/-- A slice's budget for the source of a request is used up, and its queue is beyond THRESH (R189). -/
def OverQuota (x : Slice) (q : AccReq) : Prop :=
  x.budget ≠ 0 ∧ x.budget ≤ x.accepts (q.req.src.tile.toNat % 64) ∧ x.thresh < x.queue.length

/-- Every source of a request has a mark entry or room for one, and no replay repeats it (R184). -/
def FreshRequest (q : AccReq) (t : State) : Prop :=
  q.req.replay = false ∧ ∀ m ∈ q.members, markRoom t.tile.marks m.1.src = true

/-- Every member of a request is acknowledged (R152, R192). -/
def AcksMembers (q : AccReq) (t u : State) : Prop :=
  ∀ m ∈ q.members, Sent t.site .relief (.tile m.1.src.tile) (.ack m.1.src m.1.cls none q.flush m.1.line) t u

/-- A bounce carries the addend, address, place, operation and key of a held update or a request. -/
structure BounceOf (op : AccOp) (va : Word) (pl : Place) (v : Word) (key : AccKey) (det : Bool) (b : Bounce) : Prop where
  op : b.op = op
  va : b.va = va
  place : b.place = pl
  addend : b.addend = v
  key : b.key = key
  det : b.det = det

/-- The key of a request (R182). -/
def AccReq.keyOf (q : AccReq) : AccKey := { jt := q.req.jt, core := q.req.src.core, seq := q.req.seq }

/-- The deterministic update that a request asks a slice to hold (R204). -/
def AccReq.held (q : AccReq) (op : AccOp) : Held :=
  { op := op, place := q.place, va := q.req.va, value := q.value, key := q.keyOf, job := q.req.job, src := q.req.src }

/-- A slice holds an update, in its buffer or in its sort area. -/
def Slice.isHeld (x : Slice) (h : Held) : Prop := h ∈ x.runs.flatten ++ x.hold

/-- The slice has room for one more update (R204, R205). -/
def Slice.hasRoom (x : Slice) : Prop := x.hold.length < 16 ∨ x.sorted < 1024

/-- The slices of the tile in focus may act (R433, R442, R422). -/
def SlicesRun (t : State) : Prop :=
  t.tile.stopped = false ∧ t.junction.passThrough = false ∧ t.tile.replay = none ∧ t.detRoom = true

/-- The oldest waiting bounce has left, the count of its class falls when it was counted, SDBOUNCES rises, and the rows of
the siding are as they were but for one (R190, R194). -/
structure Parks (k : Nat) (r : Row) (t u : State) : Prop where
  inbound : u.core.acc.inbound = t.core.acc.inbound.drop 1
  bounces : u.core.acc.bounces = t.core.acc.bounces + 1
  row : u.core.row k = some r
  rows : ∀ j < 32, j ≠ k → u.core.row j = t.core.row j
  counts : ∀ c b, t.core.acc.inbound.head? = some b →
    u.core.post.count c = t.core.post.count c - (if b.counted = true ∧ b.cls = c then 1 else 0)
  registers : u.core.regs = t.core.regs ∧ u.core.pc = t.core.pc
  memory : KeepsMemory t u

/-- A member that is saved away is released (R334, R368): BST of the level in its save area becomes 2 where it was 1, and
no other byte of memory changes. -/
def ReleasesAway (d : DomainKey) (c : CoreId) (r : BindRecord) (s u : State) : Prop :=
  let a := r.save.toNat + c.toNat * 0x30000 + 8 * 20
  let lo := 6 + 2 * d.level.toNat
  let v := s.wafer.hbm.readNat a 8
  u.wafer.hbm.readNat a 8 = (if v / 2 ^ lo % 4 = 1 then v + 2 ^ lo else v) ∧
  (∀ b, b < a ∨ a + 8 ≤ b → u.wafer.hbm.read b = s.wafer.hbm.read b) ∧ u.wafer.host = s.wafer.host ∧
  u.wafer.peer = s.wafer.peer

/-! ### Tiles that stand still -/

/-- A core with nothing on its way, that waits for nothing (R412). -/
structure Core.Idle (c : Core) : Prop where
  accesses : c.pend = [] ∧ c.post.n = 0 ∧ c.post.m = 0 ∧ c.post.x = 0
  rows : ∀ k r, c.row k = some r → r.det = true
  bounces : c.acc.inbound = [] ∧ c.acc.flushing = [] ∧ c.acc.flight = 0
  jobs : c.eng.cards = [] ∧ c.cpy.jobs = []
  waits : c.inWfi = false ∧ c.sync.cnt = none

/-- The tile in focus is bound, runs live, and nothing of it is on its way: it may take a boundary at once (R412, R416,
R422). -/
structure StandsStill (t : State) : Prop where
  numbers : (t.coreNo :: t.others.map (·.1)).Nodup
  cores : ∀ c, (t.coreAt c).Idle
  box : t.tile.box.run = none
  slices : ∀ k < 8, (vget t.tile.slices k {}).queue = []
  live : t.tile.stopped = false ∧ t.tile.replay = none
  room : t.detRoom = true
  staged : ∀ b, t.wafer.waybill t.tile.tile = some b → b.staged = none

/-- A trap of the core in focus: the handler's entry, or the stop (R360, R362). -/
def TakesTrap (cause : Nat) (val : Word) (s t : State) : Prop :=
  if s.core.inTrap = false ∧ s.core.trap.tvec &&& 0xFFFFFFFFFFFE ≠ 0 then TrapEntry cause val s t
  else TrapStops cause val s t

/-- A command is complete (R472): one completion more, with its tag and status. -/
def Completes (tag : W32) (status : Nat) (s u : State) : Prop :=
  ∃ c, u.wafer.completions = s.wafer.completions ++ [c] ∧ c.tag = tag ∧ c.status = status

/-! ### Boundaries -/

/-- An arrived packet that the junction of its site takes itself, or the rim unit there (R24). -/
structure AtJunction (id : Nat) (p : Packet) (s t : State) : Prop where
  packet : s.packet id = some p
  place : t = s.focusSite p.site
  may : ∃ n, p.arrived = some n ∧ t.behind p n = false ∧ t.junction.passThrough = false

/-- A boundary of the tile in focus is asked for (R411, R412): its cores are asked to stop, but in a replay. -/
structure AsksBoundary (t u : State) : Prop where
  tile : u.tile = { t.tile with closeAsked := true }
  cores : ∀ k, ∃ b, u.coreAt k = { t.coreAt k with stopAsked := b }
  stop : t.tile.replay = none → u.core.stopAsked = true ∧ ∀ p ∈ u.others, p.2.stopAsked = true
  wafer : u.wafer = t.wafer ∨ OnlyTraffic t u

/-- The waybill of a logical tile before and after. -/
def WaybillStep (l : TileNo) (post : Waybill → Waybill → Prop) (t u : State) : Prop :=
  ∀ b, t.wafer.waybill l = some b → ∃ c, u.wafer.waybill l = some c ∧ post b c

/-! ### Failures -/

/-- An error enters a bank (R436): counted at a valid record of its SEV, SRC and ADDR; else in the first free record; else
over the lowest-ranked, oldest one, unless that one outranks it and only notes the loss. -/
def RecordsError (e : ErrRec) (a b : ErrBank) : Prop :=
  let r (i : Nat) : ErrRec := vget a i {}
  let only (i : Nat) (v : ErrRec) : Prop := ∀ k < 4, vget b k {} = if k = i then v else r k
  let same (i : Nat) : Prop := (r i).valid = true ∧ (r i).sev = e.sev ∧ (r i).src = e.src ∧ (r i).addr = e.addr
  let lowest (i : Nat) : Prop := ∀ k < 4, (r i).sev.toNat < (r k).sev.toNat ∨
    ((r i).sev = (r k).sev ∧ (r i).clock.toNat ≤ (r k).clock.toNat)
  (∀ i < 4, same i → (∀ k < i, ¬same k) →
    only i { r i with count := if (r i).count = 0xFFFF then 0xFFFF else (r i).count + 1 }) ∧
  (∀ i < 4, (∀ k < 4, ¬same k) → (r i).valid = false → (∀ k < i, (r k).valid = true) → only i e) ∧
  ((∀ k < 4, ¬same k ∧ (r k).valid = true) → ∃ i < 4, lowest i ∧
    only i (if (r i).sev.toNat ≤ e.sev.toNat then e else { r i with lost := true }))

/-- The tiles whose shadow a site held take their HBM buddy (R420). -/
def LosesHolder (site : SiteId) (s u : State) : Prop :=
  ∀ l b x, s.wafer.waybill l = some b → b.holder = .buddy site → s.carrier l = some x →
    WaybillStep l (fun _ c => c.holder = .hbm ∧ c.lost = true ∧ c.staged = none) s u

/-- The crane has fenced the site in focus (R439): the junction passes through; a logical tile is stopped and held and its
recovery begins; a site without one is failed (R452), and a fused one stays fused (R14). -/
structure Fenced (t u : State) : Prop where
  junction : u.junction.passThrough = true
  memory : u.tile.mem = t.tile.mem ∧ u.site = t.site
  shadows : LosesHolder t.site t u
  fused : t.junction.status = .fused → u.junction.status = .fused
  tile : t.junction.status ≠ .fused → t.keepsWaybill = true → (∀ r ∈ t.wafer.healing.recoveries, ¬(r.tile = t.tile.tile ∧ r.failed = t.site)) →
    u.tile.stopped = true ∧ t.tile.tile ∈ u.wafer.healing.holds ∧
    (∃ r, u.recovery t.tile.tile = some r ∧ r.failed = t.site ∧ r.phase = .fenced ∧
      r.crane = vget t.wafer.healing.cranes (quadrant t.site).toNat (quadrant t.site)) ∧
    WaybillStep t.tile.tile (fun b c => c.failures = b.failures ++ [t.wafer.clock]) t u
  bare : t.junction.status ≠ .fused → t.keepsWaybill = false → (∀ r ∈ t.wafer.healing.recoveries, ¬(r.tile = t.tile.tile ∧ r.failed = t.site)) →
    u.junction.status = .failed

/-- A junction has failed a check (R432, R468): its site is fenced; that of a fused or failed site passes through and is
dead. -/
def JunctionChecked (t u : State) : Prop :=
  if t.junction.status = .fused ∨ t.junction.status = .failed then
    u.junction.passThrough = true ∧ t.site ∈ u.wafer.healing.dead ∧ u.tile = t.tile ∧ u.core = t.core
  else Fenced t u

/-- A list of banks by number has taken a record in one bank, an empty one where it had none. -/
def RecordsIn (n : Nat) (e : ErrRec) (a b : List (Nat × ErrBank)) : Prop :=
  ∃ x, (n, x) ∈ b ∧ RecordsError e (match a.find? (fun k => k.1 == n) with
    | some k => k.2
    | none => Vector.replicate 4 {}) x

/-- The recovery of a logical tile has gone on to a phase. -/
def RecoveryAt (tile : TileNo) (phase : RecPhase) (site : Option SiteId) (r : Recovery) (u : State) : Prop :=
  u.recovery tile = some { r with phase := phase, site := site }

/-! ### Boot -/

/-- The junction in focus takes points entries and site states, the last of each winning; a site that an entry names is
logical and learns its L and JT (R457, R464). -/
structure TakesBlock (points : List (Nat × SiteId)) (map : List (Nat × BitVec 2)) (t u : State) : Prop where
  entries : ∀ l, findPoint u.junction.points l =
    points.foldl (fun r e => if e.1 = l then some e.2 else r) (findPoint t.junction.points l)
  states : ∀ y, mapState u.junction.map y =
    map.foldl (fun r e => if e.1 = y then e.2 else r) (mapState t.junction.map y)
  named : ∀ e, points.find? (fun e => e.2 == t.site) = some e → u.junction.status = .logical ∧
    u.tile.tile = BitVec.ofNat 12 e.1 ∧ u.tile.jt = BitVec.ofNat 12 (e.1 / 64 % 30 * 32 + e.1 % 32)
  unnamed : points.find? (fun e => e.2 == t.site) = none → u.junction.status = t.junction.status ∧
    u.tile.tile = t.tile.tile ∧ u.tile.jt = t.tile.jt
  memory : KeepsMemory t u

/-- A boot command ends with a result (R461, R467). -/
def EndsCommand (result : BitVec 8) (t u : State) : Prop :=
  u.junction.plaBusy = false ∧ u.junction.plaResult = result ∧
    (result ≠ 0 → Notice.bootStatus (quadrant t.site) t.junction.plaOp.toNat result.toNat ∈ u.wafer.notices)

/-! ### Control registers -/

/-- A write of control register n, by mtc where the level may write it, and by operations of the table: for a value that
meets a condition it completes with a property, and the scalar registers and memory stay. -/
def WritesRegister (n : Nat) (es : List (Word → Instr)) (when_ : Word → Prop) (post : Word → State → Prop)
    (s : State) : Prop :=
  (∀ (x : BitVec 5) (a : CAccess), cregAccess n = some a → a.mayWrite s.core.level = true → when_ (s.reg x) →
    Runs (.mtc x (BitVec.ofNat 12 n)) s (fun u =>
      post (s.reg x) u ∧ Completed s u ∧ u.core.regs = s.core.regs ∧ KeepsMemory s u)) ∧
  ∀ e ∈ es, ∀ v, when_ v → Runs (e v) s (fun u =>
    post v u ∧ u.core.pc = s.core.pc ∧ u.core.retired = s.core.retired ∧ u.core.regs = s.core.regs ∧ KeepsMemory s u)

end Sys2Proof.Machine

namespace Sys2Proof

/-- The words of a signal-box kernel (R384). -/
noncomputable def Instr.isKernelWord : Instr → Bool
  | .sbNop => true
  | .sbAdd _ _ _ => true
  | .sbAddImm _ _ _ => true
  | .sbSub _ _ _ => true
  | .sbSubImm _ _ _ => true
  | .sbAnd _ _ _ => true
  | .sbAndImm _ _ _ => true
  | .sbOr _ _ _ => true
  | .sbOrImm _ _ _ => true
  | .sbXor _ _ _ => true
  | .sbXorImm _ _ _ => true
  | .sbShl _ _ _ => true
  | .sbShlImm _ _ _ => true
  | .sbShr _ _ _ => true
  | .sbShrImm _ _ _ => true
  | .sbLi _ _ => true
  | .sbLih _ _ => true
  | .sbBfz _ _ => true
  | .sbBfnz _ _ => true
  | .sbRpt _ _ => true
  | .sbDone => true
  | .sbDrop => true
  | .sbReroute _ => true
  | .sbLdst _ _ _ => true
  | .sbStst _ _ _ => true
  | .sbVldst _ _ _ => true
  | .sbVstst _ _ _ => true
  | .sbVrdp _ _ => true
  | .sbVwrp _ _ => true
  | .sbRdh _ _ => true
  | .sbVaddi _ _ _ => true
  | .sbVaddf _ _ _ => true
  | .sbVmulf _ _ _ => true
  | .sbVmaxf _ _ _ => true
  | .sbVminf _ _ _ => true
  | .sbVmaxi _ _ _ => true
  | .sbVand _ _ _ => true
  | .sbVor _ _ _ => true
  | .sbVxor _ _ _ => true
  | .sbVcvtbfF2b _ _ _ => true
  | .sbVcvtbfB2f _ _ _ => true
  | .sbVsum _ _ => true
  | .sbVcmpf _ _ _ _ => true
  | .sbVself _ _ _ _ => true
  | .sbTrap _ _ => true
  | .sbStamp _ => true
  | .sbEmit _ _ => true
  | _ => false

end Sys2Proof
end

