-- ==== Sys2Proof/Certificates/Slice0/Obligations.lean ====
section
/-!
DEFINITION. The statements for the provers.
-/
open Sys2Proof Sys2Proof.Machine

/-- R88, R111, R112: the ALU instructions on registers.
R113 to R116: immediates. -/
def Obligations.ScalarResults : Prop :=
   ((∀ (d a b : BitVec 5) (s : State),
      let x := s.reg a
      let y := s.reg b
      let n := y.toNat % 64
      Runs (.add d a b) s (Assigns d (x + y) s) ∧
      Runs (.sub d a b) s (Assigns d (x - y) s) ∧
      Runs (.and d a b) s (Assigns d (x &&& y) s) ∧
      Runs (.andn d a b) s (Assigns d (x &&& ~~~y) s) ∧
      Runs (.or d a b) s (Assigns d (x ||| y) s) ∧
      Runs (.xor d a b) s (Assigns d (x ^^^ y) s) ∧
      Runs (.sll d a b) s (Assigns d (BitVec.ofNat 64 (x.toNat * 2 ^ n)) s) ∧
      Runs (.srl d a b) s (Assigns d (BitVec.ofNat 64 (x.toNat / 2 ^ n)) s) ∧
      Runs (.sra d a b) s (Assigns d (BitVec.ofInt 64 (x.toInt / 2 ^ n)) s) ∧
      Runs (.rol d a b) s (Assigns d (x <<< n ||| x >>> (64 - n)) s) ∧
      Runs (.slt d a b) s (Assigns d (if x.toInt < y.toInt then 1 else 0) s) ∧
      Runs (.sltn d a b) s (Assigns d (if x.toNat < y.toNat then 1 else 0) s) ∧
      Runs (.min d a b) s (Assigns d (BitVec.ofInt 64 (min x.toInt y.toInt)) s) ∧
      Runs (.max d a b) s (Assigns d (BitVec.ofInt 64 (max x.toInt y.toInt)) s) ∧
      Runs (.minn d a b) s (Assigns d (BitVec.ofNat 64 (min x.toNat y.toNat)) s) ∧
      Runs (.maxn d a b) s (Assigns d (BitVec.ofNat 64 (max x.toNat y.toNat)) s) ∧
      Runs (.mul d a b) s (Assigns d (x * y) s) ∧
      Runs (.mulh d a b) s (Assigns d (BitVec.ofInt 64 (x.toInt * y.toInt / 2 ^ 64)) s) ∧
      Runs (.mulhn d a b) s (Assigns d (BitVec.ofNat 64 (x.toNat * y.toNat / 2 ^ 64)) s) ∧
      Runs (.div d a b) s (Assigns d (if y = 0 then BitVec.allOnes 64 else BitVec.ofInt 64 (x.toInt.tdiv y.toInt)) s) ∧
      Runs (.divn d a b) s (Assigns d (if y = 0 then BitVec.allOnes 64 else BitVec.ofNat 64 (x.toNat / y.toNat)) s) ∧
      Runs (.rem d a b) s (Assigns d (if y = 0 then x else BitVec.ofInt 64 (x.toInt.tmod y.toInt)) s) ∧
      Runs (.remn d a b) s (Assigns d (if y = 0 then x else BitVec.ofNat 64 (x.toNat % y.toNat)) s)) ∧
    (∀ (d a : BitVec 5) (s : State),
      let x := s.reg a
      (∃ n ≤ 64, x.toNat < 2 ^ (64 - n) ∧ (n = 64 ∨ 2 ^ (63 - n) ≤ x.toNat) ∧
        Runs (.clz d a) s (Assigns d (BitVec.ofNat 64 n) s)) ∧
      (∃ n ≤ 64, x.toNat % 2 ^ n = 0 ∧ (n = 64 ∨ x.toNat / 2 ^ n % 2 = 1) ∧
        Runs (.ctz d a) s (Assigns d (BitVec.ofNat 64 n) s)) ∧
      Runs (.popc d a) s (Assigns d (BitVec.ofNat 64 ((List.range 64).countP (fun i => x.getLsbD i))) s) ∧
      Runs (.sextB d a) s (Assigns d (BitVec.ofInt 64 (Int.bmod x.toNat (2 ^ 8))) s) ∧
      Runs (.sextH d a) s (Assigns d (BitVec.ofInt 64 (Int.bmod x.toNat (2 ^ 16))) s) ∧
      Runs (.sextW d a) s (Assigns d (BitVec.ofInt 64 (Int.bmod x.toNat (2 ^ 32))) s) ∧
      Runs (.zextB d a) s (Assigns d (BitVec.ofNat 64 (x.toNat % 2 ^ 8)) s) ∧
      Runs (.zextH d a) s (Assigns d (BitVec.ofNat 64 (x.toNat % 2 ^ 16)) s) ∧
      Runs (.zextW d a) s (Assigns d (BitVec.ofNat 64 (x.toNat % 2 ^ 32)) s))) ∧
   (∀ (d a : BitVec 5) (i : BitVec 15) (n : BitVec 6) (j : BitVec 14) (u : BitVec 20) (s : State),
      let x := s.reg a
      let up := BitVec.ofInt 64 (Int.bmod (u.toNat * 4096) (2 ^ 32))
      Runs (.addi d a i) s (Assigns d (BitVec.ofInt 64 (x.toInt + i.toInt)) s) ∧
      Runs (.andi d a i) s (Assigns d (x &&& BitVec.ofInt 64 i.toInt) s) ∧
      Runs (.ori d a i) s (Assigns d (x ||| BitVec.ofInt 64 i.toInt) s) ∧
      Runs (.xori d a i) s (Assigns d (x ^^^ BitVec.ofInt 64 i.toInt) s) ∧
      Runs (.slli d a n) s (Assigns d (BitVec.ofNat 64 (x.toNat * 2 ^ n.toNat)) s) ∧
      Runs (.srli d a n) s (Assigns d (BitVec.ofNat 64 (x.toNat / 2 ^ n.toNat)) s) ∧
      Runs (.srai d a n) s (Assigns d (BitVec.ofInt 64 (x.toInt / 2 ^ n.toNat)) s) ∧
      Runs (.roli d a n) s (Assigns d (x <<< n.toNat ||| x >>> (64 - n.toNat)) s) ∧
      Runs (.slti d a j) s (Assigns d (if x.toInt < j.toInt then 1 else 0) s) ∧
      Runs (.sltni d a j) s (Assigns d (if x.toNat < (BitVec.ofInt 64 j.toInt).toNat then 1 else 0) s) ∧
      Runs (.lih d u) s (Assigns d up s) ∧
      Runs (.lipc d u) s (Assigns d (s.core.pc + up) s))

/-- R117 to R119: branches and jumps. -/
def Obligations.BranchesAndJumps : Prop :=
  ∀ (a b : BitVec 5) (i : BitVec 12) (j : BitVec 25) (s : State),
    let x := s.reg a
    let y := s.reg b
    let there := BitVec.ofInt 64 (s.core.pc.toInt + 2 * i.toInt)
    let goes (c : Prop) (t : State) : Prop := (c → Jumps there s t) ∧ (¬c → Jumps (s.core.pc + 4) s t)
    Runs (.beq a b i) s (goes (x = y)) ∧
    Runs (.bne a b i) s (goes (x ≠ y)) ∧
    Runs (.blt a b i) s (goes (x.toInt < y.toInt)) ∧
    Runs (.bge a b i) s (goes (y.toInt ≤ x.toInt)) ∧
    Runs (.bltn a b i) s (goes (x.toNat < y.toNat)) ∧
    Runs (.bgen a b i) s (goes (y.toNat ≤ x.toNat)) ∧
    Runs (.jmp j) s (Jumps (BitVec.ofInt 64 (s.core.pc.toInt + 2 * j.toInt)) s) ∧
    (x.toNat % 2 = 0 → Runs (.jr a) s (Jumps x s)) ∧
    (x.toNat % 2 = 1 → exec (.jr a) s = .next (takeTrap 3 x s))

/-- R360, R362: how a trap is taken.
R5, R71, R130, R361: the instructions that trap by their own effect, and those that trap by level or in a handler. -/
def Obligations.TrapsAndTrappingInstructions : Prop :=
   (∀ (cause : Nat) (val : Word) (s : State),
      (s.core.inTrap = false → s.core.trap.tvec &&& 0xFFFFFFFFFFFE ≠ 0 → TrapEntry cause val s (takeTrap cause val s)) ∧
      (s.core.inTrap = true ∨ s.core.trap.tvec &&& 0xFFFFFFFFFFFE = 0 → TrapStops cause val s (takeTrap cause val s))) ∧
   (∀ (c : BitVec 10) (w : W32) (s : State),
      Runs (.trap c) s (· = takeTrap 8 (BitVec.ofNat 64 c.toNat) s) ∧
      Runs (.illegalInstruction w) s (· = takeTrap 1 (BitVec.ofNat 64 w.toNat) s) ∧
      (s.core.level = .J → ∃ w, HasWord .rft w ∧ exec .rft s = .next (takeTrap 2 w s)) ∧
      (s.core.level ≠ .J → s.core.inTrap = false → ∃ w, HasWord .rft w ∧ exec .rft s = .next (takeTrap 1 w s)) ∧
      (s.core.inTrap = true →
        ∀ (j : BitVec 25) (a : BitVec 5), ∀ i ∈ [Instr.call j, .callr a, .ret, .exit c, .yield],
          ∃ w, HasWord i w ∧ exec i s = .next (takeTrap 1 w s)))

/-- R361: rft. -/
def Obligations.ReturnFromTrap : Prop :=
  ∀ (s : State), s.core.level ≠ .J → s.core.inTrap = true →
    Runs .rft s (fun t =>
      t.core.pc = s.core.trap.tpc &&& 0xFFFFFFFFFFFE ∧
      (∀ l : Level, field s.core.trap.tstat 1 2 = l.bits.toNat → t.core.level = l) ∧
      t.core.inTrap = false ∧
      field t.core.trap.tstat 1 2 = field s.core.trap.tstat 1 2 ∧
      t.core.trap.tstat.getLsbD 3 = false ∧
      t.core.trap.skip = s.core.trap.tstat.getLsbD 3 ∧
      (t.core.trap.tvec, t.core.trap.tcause, t.core.trap.tpc, t.core.trap.tval) =
        (s.core.trap.tvec, s.core.trap.tcause, s.core.trap.tpc, s.core.trap.tval) ∧
      t = { s with
        core := { s.core with
          level := t.core.level, trap := t.core.trap, task := t.core.task, pc := t.core.pc,
          retired := s.core.retired + 1 },
        wafer := { s.wafer with free := t.wafer.free } } ∧
      KeepsMemory s t)

/-- R90, R122, R124, R125: a call while a frame is free, direct or through a register, and a call with all frames resident,
which spills the oldest or traps. -/
def Obligations.CallsShiftTheWindow : Prop :=
  (∀ (i : BitVec 25) (a : BitVec 5) (s : State), s.core.inTrap = false →
    let there := BitVec.ofInt 64 (s.core.pc.toInt + 2 * i.toInt)
    let plain (target : Word) (t : State) : Prop :=
      CallEntry target s t ∧ t.core.win.res = s.core.win.res + 1 ∧ t.core.win.wsp = s.core.win.wsp ∧
      t.core.win.spills = s.core.win.spills ∧ t = { s with core := t.core } ∧ KeepsMemory s t
    ((s.reg a).toNat % 2 = 1 → exec (.callr a) s = .next (takeTrap 3 (s.reg a) s)) ∧
    (s.core.win.res ≠ 15 →
      Runs (.call i) s (plain there) ∧ ((s.reg a).toNat % 2 = 0 → Runs (.callr a) s (plain (s.reg a))))) ∧
  (∀ (i : BitVec 25) (a : BitVec 5) (s : State), s.core.inTrap = false → s.core.win.res = 15 →
    let there := BitVec.ofInt 64 (s.core.pc.toInt + 2 * i.toInt)
    let w := s.core.win.wsp.toNat
    let limit := min s.core.win.wslim.toNat 0x600000
    let oldest := (s.core.win.cwp.toNat + 2) % 16
    let spills (target : Word) (t : State) : Prop :=
      CallEntry target s t ∧ t.core.win.res = 15 ∧ t.core.win.wsp = s.core.win.wsp + 128 ∧
      t.core.win.spills = s.core.win.spills + 1 ∧ OnlyStoresHere s t ∧
      StoresHere w ((List.range 16).flatMap (fun n => natBytes (s.core.cell (.frame oldest n)).toNat 8)) s t
    (limit < w + 128 →
      exec (.call i) s = .next (takeTrap 7 s.core.win.wsp s) ∧
      ((s.reg a).toNat % 2 = 0 → exec (.callr a) s = .next (takeTrap 7 s.core.win.wsp s))) ∧
    (w + 128 ≤ limit → FreeLines w 128 true s →
      Runs (.call i) s (spills there) ∧ ((s.reg a).toNat % 2 = 0 → Runs (.callr a) s (spills (s.reg a)))))

/-- R90, R123 to R125: a return, from a resident frame or with a fill, and where it traps. RES counts 1 to 15 frames, and
WSP is a multiple of 128 (R120, R121). -/
def Obligations.ReturnsShiftTheWindow : Prop :=
  ∀ (s : State), s.core.inTrap = false →
    let w := s.core.win.wsp.toNat
    let target := s.reg 15
    let below := (s.core.win.cwp.toNat + 15) % 16
    let filled (t : State) (reg : Nat → Word) : Prop :=
      ReturnExit target s t ∧ t.core.win.res = 1 ∧ t.core.win.wsp = s.core.win.wsp - 128 ∧
      t.core.win.fills = s.core.win.fills + 1 ∧
      ∀ f n, f < 16 → n < 16 → t.core.cell (.frame f n) = if f = below then reg n else s.core.cell (.frame f n)
    (s.core.win.depth = 1 → exec .ret s = .next (takeTrap 7 1 s)) ∧
    (∀ r rest, s.core.task.inline = r :: rest → r.depth = s.core.win.depth → exec .ret s = .next (takeTrap 7 1 s)) ∧
    (s.core.noCaller = false → target.toNat % 2 = 1 → exec .ret s = .next (takeTrap 3 target s)) ∧
    (s.core.noCaller = false → target.toNat % 2 = 0 → 2 ≤ s.core.win.res.toNat →
      Runs .ret s (fun t =>
        ReturnExit target s t ∧ t.core.win.res = s.core.win.res - 1 ∧ t.core.win.wsp = s.core.win.wsp ∧
        t.core.win.fills = s.core.win.fills ∧ t.core.regs = s.core.regs ∧ t = { s with core := t.core } ∧
        KeepsMemory s t)) ∧
    (s.core.noCaller = false → target.toNat % 2 = 0 → s.core.win.res = 1 → w < 128 →
      exec .ret s = .next (takeTrap 7 s.core.win.wsp s)) ∧
    (s.core.noCaller = false → target.toNat % 2 = 0 → s.core.win.res = 1 → 128 ≤ w → w % 128 = 0 → Fresh s →
      (w ≤ 0x600000 → FreeLines (w - 128) 128 false s →
        Runs .ret s (fun t =>
          filled t (fun n => BitVec.ofNat 64 (s.tile.mem.readNat (w - 128 + 8 * n) 8)) ∧ OnlyReadsHere s t)) ∧
      (∀ c, s.translate { r := true } (w - 128) = .fail c →
        exec .ret s = .next (takeTrap c (BitVec.ofNat 64 (w - 128)) s)) ∧
      (∀ p, s.translate { r := true } (w - 128) = .ok (.far p) → p.space ≠ .device →
        (p.space.cached = true → s.tile.farLine p.space p.a = none) → s.footprintStall (w - 128) 128 false = false → s.detRoom = true → s.tile.replay = none →
        Runs .ret s (Asks .relief p.dest (fun _ => True) s))) ∧
    (s.core.noCaller = false → target.toNat % 2 = 0 → s.core.win.res = 1 → 128 ≤ w →
      (∀ q b k, s.core.abandoned = [] → s.core.pend = [q] → q.reply = some (.data b k) →
        Runs .ret s (fun t =>
          filled { t with core := { t.core with race := s.core.race, pend := s.core.pend } }
            (fun n => BitVec.ofNat 64 (leNat (((b.take 128).drop (8 * n)).take 8))) ∧
          t.core.pend = [] ∧ t = { s with core := t.core } ∧ KeepsMemory s t)) ∧
      TrapsOnAnswer .ret s)

/-- R129, R131 to R134, R365, R453: nop, halt, wfi, couple, uncouple, yield and ckpt. -/
def Obligations.SystemInstructions : Prop :=
  ∀ (n : BitVec 3) (s : State),
    let next (c : Core) : Core := { c with pc := c.pc + 4, retired := c.retired + 1 }
    Runs .nop s (fun t => t = { s with core := next s.core }) ∧
    Runs .halt s (fun t =>
      t.core = { next s.core.unfollow with run := .halted } ∧ OthersUncoupled s t ∧ KeepsMemory s t ∧
      t.wafer = { s.wafer with notices := t.wafer.notices } ∧
      (s.booting = false → s.tile.replay = none →
        t.wafer.notices = s.wafer.notices ++ [.halted (s.tile.job.getD 0) s.tile.tile s.coreNo])) ∧
    (s.core.wake = true →
      Runs .wfi s (fun t => t = { s with core := { next s.core with wake := false, inWfi := false } })) ∧
    (s.core.wake = false →
      Runs .wfi s (fun t => t.core = { s.core.unfollow with inWfi := true } ∧ OthersUncoupled s t ∧
        t.wafer = s.wafer)) ∧
    Runs (.couple n) s (fun t => t = { s with core := { next s.core with coupling := .seeking n } }) ∧
    Runs .uncouple s (fun t => t = { s with core := { next s.core with coupling := .none } }) ∧
    (s.core.inTrap = false →
      Runs .yield s (fun t =>
        (s.slotWanted = false ∨ s.tile.leaving.isSome = true → t = { s with core := next s.core }) ∧
        (s.slotWanted = true → s.tile.leaving = none → s.tile.stopped = false → s.tile.replay = none →
          t.tile = { s.tile with leaving := some { team := some s.team, called := true } } ∧
          (∀ k, (s.coreAt k).ofTeam s.team = true → (t.coreAt k).wake = true ∧ (t.coreAt k).stopAsked = true) ∧
          t.core = { next s.core with wake := t.core.wake, stopAsked := t.core.stopAsked } ∧
          ∀ k, k ≠ s.coreNo → ∃ w p, t.coreAt k = { s.coreAt k with wake := w, stopAsked := p }) ∧
        t.wafer = s.wafer)) ∧
    Runs .ckpt s (fun t =>
      (s.keepsWaybill = true → t.tile = { s.tile with closeAsked := true } ∧
        t.core = { next s.core with
          commitWait := some (BitVec.ofNat 32 s.tile.intv.toNat), stopAsked := t.core.stopAsked } ∧
        (s.tile.replay = none → t.core.stopAsked = true)) ∧
      (s.keepsWaybill = false → t = { s with core := next s.core }) ∧ t.wafer = s.wafer)

/-- R356: exit of a root thread, of a task on a server, and of an inline task from its own activation. -/
def Obligations.ExitEndsThreadsAndTasks : Prop :=
  ∀ (c : BitVec 10) (s : State), s.core.inTrap = false →
    (s.core.task.inline = [] →
      Runs (.exit c) s (fun t => ∃ u : State, t = u.checkTeamEnd s.team ∧
        u.core.run = .idleServer ∧ u.core.regs = s.core.regs ∧ u.core.win = s.core.win ∧
        u.core.retired = s.core.retired + 1 ∧ OthersUncoupled s { u with tile := s.tile } ∧
        u.tile = { s.tile with pool := u.tile.pool } ∧ u.wafer = { s.wafer with launches := u.wafer.launches } ∧
        (s.core.task.served = 0 →
          u.core.task.code = some c ∧ u.tile = s.tile ∧
          ∀ l, s.wafer.launch (s.tile.job.getD 0) (launchNo s.team) = some l →
            u.wafer.launch (s.tile.job.getD 0) (launchNo s.team) = some { l with
              codes := if ∃ e ∈ l.codes, e.tile = s.tile.jt.toNat ∧ e.core = s.coreNo then l.codes
                else l.codes ++ [{ tile := s.tile.jt.toNat, core := s.coreNo, code := c }] }) ∧
        (s.core.task.served ≠ 0 →
          u.core.task.served = 0 ∧ u.core.task.inTask = false ∧ u.wafer = s.wafer ∧
          ∀ i, s.tile.runningTask s.core.task.served = some i →
            u.tile.task i = (if (s.tile.task i).detached then {} else { s.tile.task i with state := .complete, code := c }) ∧
            ∀ k, k ≠ i → u.tile.task k = s.tile.task k))) ∧
    (∀ r rest, s.core.task.inline = r :: rest → s.core.win.depth = r.depth → 2 ≤ s.core.win.res.toNat →
      Runs (.exit c) s (fun t =>
        let e : Core := { s.core with win := { s.core.win with
          cwp := s.core.win.cwp - 1, res := s.core.win.res - 1, depth := s.core.win.depth - 1 } }
        WritesScalar r.d (BitVec.ofNat 64 (c.toNat * 2 ^ 16)) e t.core ∧
        t.core = { e with
          regs := { e.regs with
            glob := t.core.regs.glob, frames := t.core.regs.frames, trapWin := t.core.regs.trapWin },
          pc := r.back, retired := s.core.retired + 2, task := t.core.task } ∧
        t.core.task.inline = rest ∧ t.core.task.inTask = (!rest.isEmpty || s.core.task.served != 0) ∧
        t = { s with core := t.core, tile := { s.tile with pool := t.tile.pool } } ∧ KeepsMemory s t ∧
        (∀ i, s.tile.runningTask r.handle = some i →
          t.tile.task i = {} ∧ ∀ k, k ≠ i → t.tile.task k = s.tile.task k)))

/-- R5, R97, R98, R127, R340, R120: mfc. -/
def Obligations.ControlRegisterReads : Prop :=
  ∀ (x : BitVec 5) (c : BitVec 12) (s : State),
    let n := c.toNat
    let v := s.cregValue n
    (∀ a, cregAccess n = some a → a.mayRead s.core.level = true → (n = 0x009 → s.core.flagsPending = false) →
      recordedCreg n = false → ¬(0x048 ≤ n ∧ n ≤ 0x04F) → Runs (.mfc x c) s (Assigns x v s)) ∧
    ((recordedCreg n = true ∧ s.tile.replay = none) ∨ (0x048 ≤ n ∧ n ≤ 0x04F) → s.detRoom = true →
      Runs (.mfc x c) s (fun t => WritesScalar x v s.core t.core ∧ Completed s t ∧ OnlyReadsHere s t)) ∧
    (∀ r, recordedCreg n = true → s.nextRecorded = some r →
      Runs (.mfc x c) s (fun t => WritesScalar x r s.core t.core ∧ Completed s t ∧
        t = { s with core := t.core, tile := { s.tile with replay := t.tile.replay } })) ∧
    (∀ a, cregAccess n = some a → a.mayRead s.core.level = false →
      ∃ w, HasWord (.mfc x c) w ∧ exec (.mfc x c) s = .next (takeTrap 2 w s)) ∧
    (cregAccess n = none → s.core.level ≠ .M →
      ∃ w, HasWord (.mfc x c) w ∧ exec (.mfc x c) s = .next (takeTrap 1 w s)) ∧
    (cregAccess n = none → s.core.level = .M → Runs (.mfc x c) s (Assigns x 0 s)) ∧
    (n = 0x000 → field v 0 4 = s.coreNo.toNat ∧ field v 4 12 = s.tile.jt.toNat ∧
      field v 16 6 = (s.tile.job.getD 0).toNat ∧ field v 22 2 = s.tile.prio.toNat ∧
      field v 32 12 = s.tile.tile.toNat ∧ field v 48 1 = (if s.core.task.inTask then 1 else 0)) ∧
    (n = 0x022 → field v 0 16 = s.core.win.depth.toNat ∧ field v 16 4 = s.core.win.res.toNat ∧
      field v 24 4 = s.core.win.cwp.toNat ∧ field v 32 16 = s.core.win.spills.toNat ∧
      field v 48 16 = s.core.win.fills.toNat)

/-- R5, R97, R127: mtc to the registers that are their fields, to read-only registers, and to none. -/
def Obligations.ControlRegisterWrites : Prop :=
  ∀ (x : BitVec 5) (c : BitVec 12) (s : State),
    let n := c.toNat
    let v := s.reg x
    (∀ a w, cregAccess n = some a → a.mayWrite s.core.level = true → (n = 0x009 → s.core.flagsPending = false) →
      fieldsWritten n (s.cregValue n) v = some w →
      Runs (.mtc x c) s (fun t => t.cregValue n = w ∧
        (∀ m, m < 4096 → m ≠ n → ¬selects n m → t.cregValue m = s.cregValue m) ∧
        (n = 0x120 → t.core.tlb = []) ∧ Completed s t ∧ t.core.regs = s.core.regs ∧ KeepsMemory s t)) ∧
    (∀ a, cregAccess n = some a → a.mayWrite s.core.level = true → readOnlyRegister n = true →
      Runs (.mtc x c) s (· = s.after)) ∧
    (∀ a, cregAccess n = some a → a.mayWrite s.core.level = false →
      ∃ w, HasWord (.mtc x c) w ∧ exec (.mtc x c) s = .next (takeTrap 2 w s)) ∧
    (cregAccess n = none → s.core.level ≠ .M →
      ∃ w, HasWord (.mtc x c) w ∧ exec (.mtc x c) s = .next (takeTrap 1 w s)) ∧
    (cregAccess n = none → s.core.level = .M → Runs (.mtc x c) s (· = s.after))

/-- R136, R148, R151, R163: loads from the own scratchpad, and from elsewhere: from a line of the far cache, by a request
that the core waits for, and with its answer. -/
def Obligations.Loads : Prop :=
  (∀ (d a : BitVec 5) (w : BitVec 2) (i : BitVec 10) (s : State), ∀ f ∈ loadForms d a w i,
    let va := s.scaledAddress a i f.2.1
    Fresh s → WaitOver w s → va % f.2.1 = 0 → va < 0x600000 → FreeLines va f.2.1 false s → NoRace va f.2.1 false s →
      Runs f.1 s (fun t => WritesScalar d (f.2.2 (s.tile.mem.readNat va f.2.1)) s.core t.core ∧ Completed s t ∧
        OnlyAccess s t ∧ OnlyReadsHere s t)) ∧
  (∀ (d a : BitVec 5) (w : BitVec 2) (i : BitVec 10) (s : State) (p : Place), ∀ f ∈ loadForms d a w i,
    let n := f.2.1
    let va := s.scaledAddress a i n
    (Fresh s → WaitOver w s → va % n = 0 → s.translate { r := true } va = .ok (.far p) → s.footprintStall va n false = false →
      (∀ l : FarLine, p.space.cached = true → s.tile.farLine p.space p.a = some l →
        Runs f.1 s (fun t =>
          WritesScalar d (f.2.2 (l.data.toNat / 2 ^ (8 * (p.a % 256)) % 2 ^ (8 * n))) s.core t.core ∧ Completed s t ∧
          OnlyAccess s t ∧ t = { s with core := t.core, tile := { s.tile with far := t.tile.far } } ∧ KeepsMemory s t)) ∧
      ((p.space = .device → n = 8) → (p.space.cached = true → s.tile.farLine p.space p.a = none) → s.tile.replay = none →
        Runs f.1 s (Asks .relief p.dest (fun _ => True) s)) ∧
      (p.space = .device → n ≠ 8 → TrapsAt 5 va f.1 s)) ∧
    TrapsOnAnswer f.1 s ∧
    (∀ q b k, s.core.abandoned = [] → s.core.pend = [q] → q.reply = some (.data b k) →
      Runs f.1 s (fun t => WritesScalar d (f.2.2 (leNat b)) s.core t.core ∧ Completed s t ∧ t.core.pend = [] ∧
        OnlyAccess s t ∧ t = { s with core := t.core } ∧ KeepsMemory s t)))

/-- R149, R152, R167: stores to the own scratchpad, and stores to elsewhere, which are posted: counted in their class and
sent on the main line; stores to a device register, which wait for their answer. -/
def Obligations.Stores : Prop :=
  (∀ (d a : BitVec 5) (w : BitVec 2) (i : BitVec 10) (s : State), ∀ f ∈ storeForms d a w i,
    let va := s.scaledAddress a i f.2
    Fresh s → WaitOver w s → va % f.2 = 0 → va < 0x600000 → FreeLines va f.2 true s → NoRace va f.2 true s →
      Runs f.1 s (fun t => StoresHere va (natBytes (s.reg d).toNat f.2) s t ∧ Completed s t ∧
        t.core.regs = s.core.regs ∧ OnlyAccess s t ∧ OnlyStoresHere s t)) ∧
  (∀ (d a : BitVec 5) (w : BitVec 2) (i : BitVec 10) (s : State) (p : Place), ∀ f ∈ storeForms d a w i,
    let va := s.scaledAddress a i f.2
    Fresh s → WaitOver w s → va % f.2 = 0 → s.translate { w := true } va = .ok (.far p) → p.space ≠ .device →
      s.footprintStall va f.2 true = false → s.core.countRoom p.space.cls = true → s.tile.replay = none →
      Runs f.1 s (fun t => Completed s t ∧ t.core.regs = s.core.regs ∧ KeepsMemory s t ∧
        CountsOne p.space.cls s t ∧ t.core.post.oseq = s.core.post.oseq + 1 ∧ OnlyPosts s t ∧
        PostsCells p (cellsAt p.a (natBytes (s.reg d).toNat f.2)) s t)) ∧
  (∀ (d a : BitVec 5) (w : BitVec 2) (i : BitVec 10) (s : State) (p : Place), ∀ f ∈ storeForms d a w i,
    let va := s.scaledAddress a i f.2
    (Fresh s → WaitOver w s → va % f.2 = 0 → s.translate { w := true } va = .ok (.far p) → p.space = .device →
      (f.2 = 8 → s.tile.replay = none →
        Runs f.1 s (Asks .main p.dest (fun m => ∃ r, m = .device r p.a (some (s.reg d))) s)) ∧
      (f.2 ≠ 8 → TrapsAt 5 va f.1 s)) ∧
    (∀ q b k, s.core.abandoned = [] → s.core.pend = [q] → q.reply = some (.data b k) →
      Runs f.1 s (fun t => Completed s t ∧ t.core.regs = s.core.regs ∧ t.core.pend = [] ∧ OnlyAccess s t ∧
        t = { s with core := t.core } ∧ KeepsMemory s t)) ∧
    TrapsOnAnswer f.1 s)

/-- R155 to R157: full/empty instructions at the own scratchpad whose condition holds, and their wait; at another
tile, where all but stf wait for an answer and stf is posted; elsewhere, where they trap. That stf takes the main line
and the others the relief line is the model's choice (log 77). -/
def Obligations.FullEmptyWords : Prop :=
  (∀ (d a : BitVec 5) (w : BitVec 2) (i : BitVec 10) (s : State),
    let va := s.scaledAddress a i 4
    let word := s.tile.mem.readNat va 4
    let full := s.tile.isFull va
    let lowWord := natBytes (s.reg d).toNat 4
    let done (t : State) : Prop := Completed s t ∧ OnlyAccess s t ∧ OnlyTagsHere s t
    let waits (t : State) : Prop := Waits s t ∧ ∃ x, t.tile.waiters = s.tile.waiters ++ [x] ∧ x.a = va
    WaitOver w s → va % 4 = 0 → va < 0x600000 → NoWaiter va s →
    (Fresh s → FreeLines va 4 false s →
      (full = true → Runs (.ldf d a w i) s (fun t => done t ∧ WritesScalar d (BitVec.ofNat 64 word) s.core t.core ∧
        KeepsMemory s t ∧ SetsTag va true s t)) ∧
      (full = false → Runs (.ldf d a w i) s waits) ∧
      Runs (.ldtag d a w i) s (fun t => done t ∧ WritesScalar d (if full then 1 else 0) s.core t.core ∧
        KeepsMemory s t ∧ SetsTag va full s t)) ∧
    (Fresh s → FreeLines va 4 true s →
      (full = true → Runs (.ldfe d a w i) s (fun t => done t ∧ WritesScalar d (BitVec.ofNat 64 word) s.core t.core ∧
        KeepsMemory s t ∧ SetsTag va false s t)) ∧
      (full = false → Runs (.ldfe d a w i) s waits) ∧
      (full = false → Runs (.ste d a w i) s (fun t => done t ∧ t.core.regs = s.core.regs ∧
        StoresHere va lowWord s t ∧ SetsTag va true s t)) ∧
      (full = true → Runs (.ste d a w i) s waits) ∧
      Runs (.settag d a w i) s (fun t => done t ∧ t.core.regs = s.core.regs ∧ KeepsMemory s t ∧
        SetsTag va ((s.reg d).getLsbD 0) s t)) ∧
    (FreeLines va 4 true s → Runs (.stf d a w i) s (fun t => done t ∧ t.core.regs = s.core.regs ∧
      StoresHere va lowWord s t ∧ SetsTag va true s t))) ∧
  (∀ (d a : BitVec 5) (w : BitVec 2) (i : BitVec 10) (s : State), ∀ f ∈ fullEmptyForms d a w i,
    let va := s.scaledAddress a i 4
    (∀ p, Fresh s → WaitOver w s → va % 4 = 0 → s.translate f.2.1.need va = .ok (.far p) →
      (∀ l, p.space = .spad l → s.footprintStall va 4 (f.2.1.need.w) = false → s.tile.replay = none →
        Runs f.1 s (fun t => Asks .relief (.tile l) (fun m => ∃ r, m = .fullEmpty r f.2.1 l p.a ((s.reg d).setWidth 32) ∧
            r.src = s.me ∧ r.seq = s.core.post.oseq + 1) s t ∧ t.core.post.oseq = s.core.post.oseq + 1)) ∧
      ((∀ l, p.space ≠ .spad l) → TrapsAt 5 va f.1 s)) ∧
    (∀ q b k, s.core.abandoned = [] → s.core.pend = [q] → q.reply = some (.data b k) →
      Runs f.1 s (fun t => Completed s t ∧ OnlyAccess s t ∧ t.core.pend = [] ∧ t = { s with core := t.core } ∧
        (if f.2.2 then WritesScalar d (BitVec.ofNat 64 (leNat b)) s.core t.core else t.core.regs = s.core.regs))) ∧
    TrapsOnAnswer f.1 s) ∧
  (∀ (d a : BitVec 5) (w : BitVec 2) (i : BitVec 10) (s : State) (p : Place),
    let va := s.scaledAddress a i 4
    WaitOver w s → va % 4 = 0 → s.translate { w := true } va = .ok (.far p) →
      (∀ l, p.space = .spad l → s.footprintStall va 4 true = false → s.core.countRoom .n = true → s.tile.replay = none →
        Runs (.stf d a w i) s (PostsOne .n (.tile l)
          (fun m => ∃ r, m = .stf r l p.a ((s.reg d).setWidth 32) ∧ r.src = s.me) s)) ∧
      ((∀ l, p.space ≠ .spad l) → TrapsAt 5 va (.stf d a w i) s))

/-- R159, R160: puts within the own scratchpad, and to another tile; where the two places differ, they trap. That a
put takes the main line is the model's choice (log 77). -/
def Obligations.PutsStoreThenMark : Prop :=
  ∀ (d a b : BitVec 5) (s : State), ∀ f ∈ putForms d a b s,
    let va := (s.reg a).toNat
    let vf := (s.reg b).toNat
    let n := f.2.1.length
    va % n = 0 → vf % 4 = 0 →
    (va < 0x600000 → vf < 0x600000 → FreeLines va n true s → s.footprintStall vf 4 true = false → NoRace va n true s →
      NoWaiter vf s →
      Runs f.1 s (fun t => Completed s t ∧ t.core.regs = s.core.regs ∧ OnlyAccess s t ∧ OnlyTagsHere s t ∧
        (f.2.2 = false → StoresHere va f.2.1 s t ∧ SetsTag vf true s t) ∧
        (f.2.2 = true → ∃ m : State, StoresHere va f.2.1 s m ∧
          StoresHere vf (natBytes (m.tile.mem.readNat vf 4 + 1) 4) m t ∧ t.tile.full = s.tile.full))) ∧
    (∀ l x y, s.translate { w := true } va = .ok (.far { space := .spad l, a := x }) →
      s.translate { w := true } vf = .ok (.far { space := .spad l, a := y }) →
      s.footprintStall va n true = false → s.footprintStall vf 4 true = false → s.core.countRoom .n = true →
      s.tile.replay = none →
      Runs f.1 s (PostsOne .n (.tile l) (fun m => ∃ r, m = .put r l (cellsAt x f.2.1) y f.2.2 ∧ r.src = s.me) s)) ∧
    (∀ p q, s.translate { w := true } va = .ok (.far p) → s.translate { w := true } vf = .ok (.far q) →
      (∀ l, ¬(p.space = .spad l ∧ q.space = .spad l)) → exec f.1 s = .next (takeTrap 5 (BitVec.ofNat 64 vf) s)) ∧
    (∀ q, va < 0x600000 → s.translate { w := true } vf = .ok (.far q) →
      exec f.1 s = .next (takeTrap 5 (BitVec.ofNat 64 vf) s)) ∧
    (∀ p, vf < 0x600000 → s.translate { w := true } va = .ok (.far p) →
      exec f.1 s = .next (takeTrap 5 (BitVec.ofNat 64 vf) s))

/-- R151, R161, R162, R164: prefetch, fences and waits on posted counts.
R73, R140, R154: an access that is misaligned, or whose address fails, traps before any effect. -/
def Obligations.FencesAndBadAddresses : Prop :=
   (∀ (a : BitVec 5) (w : BitVec 2) (i : BitVec 10) (c : BitVec 3) (s : State),
      let waited (t : State) : Prop := t = { s.after with core := { s.after.core with race := t.core.race } }
      (w = 0 ∨ (s.core.engineSent = true ∧ ∀ c ∈ wClass w, s.core.post.count c = 0) → Runs (.prf a w i) s (fun t => Completed s t ∧ t.core.regs = s.core.regs ∧ KeepsMemory s t)) ∧
      (Settled [.n, .m, .x] s → Runs .fence s waited) ∧
      (Settled [.m, .x] s → Runs .rel s waited) ∧
      Runs .acq s (fun t => t.tile.far = [] ∧ (∀ f ∈ t.tile.fills, f.2.2.2 = false) ∧
        t = { s.after with tile := { s.tile with far := [], fills := t.tile.fills } }) ∧
      (∀ p, s.translateNow {} (s.reg a).toNat = .ok (.far p) →
        Runs (.fenceR a) s (fun t => (∀ l, l ∈ t.tile.far ↔
            l ∈ s.tile.far ∧ ¬(l.space = p.space ∧ l.base % 256 = 0 ∧ l.base / 4096 = p.a / 4096)) ∧
          t = { s.after with tile := { s.tile with far := t.tile.far, fills := t.tile.fills } })) ∧
      ((∀ p, s.translateNow {} (s.reg a).toNat ≠ .ok (.far p)) → Runs (.fenceR a) s (· = s.after)) ∧
      (s.core.eng.cards = [] → s.core.cpy.jobs = [] → Runs .fenceE s (· = s.after)) ∧
      (s.core.eng.cards ≠ [] ∨ s.core.cpy.jobs ≠ [] → Runs .fenceE s (· = s)) ∧
      (SidingEmpty s → Settled (maskClasses c) s →
        Runs (.waitc c) s (fun t => Completed s t ∧ t.core.regs = s.core.regs ∧ t.core.acc.rows = s.core.acc.rows ∧
          t.core.acc.flushed = false ∧ t = { s with core := t.core }))) ∧
   (∀ (d a : BitVec 5) (w : BitVec 2) (i : BitVec 10) (s : State), ∀ f ∈ accessForms d a w i s,
      Fresh s → WaitOver w s →
        (f.2.2.1 % f.2.2.2 ≠ 0 → TrapsAt 3 f.2.2.1 f.1 s) ∧
        (f.2.2.1 % f.2.2.2 = 0 → 2 ^ 48 ≤ f.2.2.1 → TrapsAt 4 f.2.2.1 f.1 s) ∧
        (∀ c, f.2.2.1 % f.2.2.2 = 0 → s.translate f.2.1 f.2.2.1 = .fail c → TrapsAt c f.2.2.1 f.1 s))

/-- R179, R183, R186, R194, R204: relaxed accumulates at the own scratchpad; accumulates at another tile or in HBM, which
are sent under a new sequence and counted, a siding row of the word and operation riding along with a relaxed one;
deterministic accumulates at the own scratchpad, which the home slice holds; and the places at which they trap. -/
def Obligations.Accumulates : Prop :=
  (∀ (d a : BitVec 5) (w : BitVec 2) (i : BitVec 10) (s : State), ∀ f ∈ combined,
    let n := f.2.1
    let va := s.scaledAddress a i n
    let x := s.tile.mem.readNat va n
    let y := (s.reg d).toNat % 2 ^ (8 * n)
    WaitOver w s → va % n = 0 → va < 0x600000 → FreeLines va n true s → s.core.accDet = false →
      s.core.acc.inbound = [] →
      Runs (accForm f.1 d a w i) s (fun t => StoresHere va (natBytes (f.2.2 x y) n) s t ∧ Completed s t ∧
        t.core.acc = { s.core.acc with aseq := s.core.acc.aseq + 1 } ∧ t.core.regs = s.core.regs ∧
        t.core = { s.core with
          pc := t.core.pc, retired := t.core.retired, acc := t.core.acc, race := t.core.race, ibuf := t.core.ibuf,
          pend := t.core.pend } ∧
        OnlyStoresHere s t)) ∧
  (∀ (d a : BitVec 5) (w : BitVec 2) (i : BitVec 10) (s : State) (p : Place), ∀ f ∈ combined,
    let n := f.2.1
    let va := s.scaledAddress a i n
    let y := (s.reg d).toNat % 2 ^ (8 * n)
    WaitOver w s → va % n = 0 → s.translate { r := true, w := true } va = .ok (.far p) →
      (p.space = .hbm ∨ ∃ l, p.space = .spad l) → s.footprintStall va n true = false →
      s.core.countRoom p.space.cls = true → s.core.detStall = false →
      s.core.acc.inbound = [] → s.tile.replay = none →
      Runs (accForm f.1 d a w i) s (fun t => Completed s t ∧ t.core.regs = s.core.regs ∧ KeepsMemory s t ∧
        t.core.acc.aseq = s.core.acc.aseq + 1 ∧ CountsOne p.space.cls s t ∧
        Sends .relief p.dest (fun m => ∃ q, m = .acc q ∧ q.op = .acc f.1 ∧ q.place = p ∧ q.det = s.core.accDet ∧
          q.must = false ∧ q.flush = false ∧ q.req.src = s.me ∧ q.req.seq = s.core.acc.aseq + 1 ∧
          (s.core.accDet = true ∨ s.core.noRide = true ∨ s.core.findRow (BitVec.ofNat 64 va) f.1 = none →
            q.value = BitVec.ofNat 64 y ∧ t.core.acc.rows = s.core.acc.rows) ∧
          (∀ k r, s.core.accDet = false → s.core.noRide = false → s.core.findRow (BitVec.ofNat 64 va) f.1 = some (k, r) →
            q.value = comb f.1 r.value (BitVec.ofNat 64 y) ∧ t.core.row k = none ∧
            t.core.acc.rides = s.core.acc.rides + 1)) s t)) ∧
  (∀ (d a : BitVec 5) (w : BitVec 2) (i : BitVec 10) (s : State), ∀ f ∈ combined,
    let n := f.2.1
    let va := s.scaledAddress a i n
    let k := va / 256 % 8
    WaitOver w s → va % n = 0 →
      (va < 0x600000 → FreeLines va n true s → s.core.accDet = true → s.core.detStall = false → s.core.acc.inbound = [] →
        (vget s.tile.slices k {}).hasRoom →
        Runs (accForm f.1 d a w i) s (fun t => Completed s t ∧ t.core.regs = s.core.regs ∧ KeepsMemory s t ∧
          t.core.acc.aseq = s.core.acc.aseq + 1 ∧ OtherSlicesKept k s t ∧ (vget t.tile.slices k {}).isHeld
            { op := f.1, place := { space := .spad s.tile.tile, a := va }, va := BitVec.ofNat 64 va,
              value := BitVec.ofNat 64 ((s.reg d).toNat % 2 ^ (8 * n)),
              key := { jt := s.tile.jt, core := s.coreNo, seq := s.core.acc.aseq + 1 }, job := s.tile.job.getD 0,
              src := s.me })) ∧
      (∀ p, s.translate { r := true, w := true } va = .ok (.far p) → p.space ≠ .hbm → (∀ l, p.space ≠ .spad l) →
        TrapsAt 5 va (accForm f.1 d a w i) s))

/-- R209, R210: atomics at the own scratchpad, at another tile or in HBM, where they wait for their answer, and with it;
elsewhere they trap. -/
def Obligations.AtomicResults : Prop :=
  ∀ (d a b : BitVec 5) (s : State), ∀ f ∈ atomicForms d a b,
    let n := f.2.1
    let va := (s.reg a).toNat
    let x := s.tile.mem.readNat va n
    let low (v : Word) : Nat := v.toNat % 2 ^ (8 * n)
    let core (t : State) : Prop := t.core = { s.core with
      regs := { s.core.regs with
        glob := t.core.regs.glob, frames := t.core.regs.frames, trapWin := t.core.regs.trapWin },
      pc := t.core.pc, retired := t.core.retired, acc := { s.core.acc with aseq := t.core.acc.aseq },
      fp := { s.core.fp with fflags := t.core.fp.fflags }, race := t.core.race, ibuf := t.core.ibuf,
      pend := t.core.pend }
    (Fresh s → va % n = 0 → va < 0x600000 → FreeLines va n true s →
      Runs f.1 s (fun t => WritesScalar d (BitVec.ofNat 64 x) s.core t.core ∧
        StoresHere va (natBytes (f.2.2.1 x (low (s.reg b)) (low (s.reg d))) n) s t ∧ Completed s t ∧ core t ∧
        t.core.fp.fflags = s.core.fp.fflags ||| f.2.2.2 x (low (s.reg b)) ∧
        t.core.acc.aseq = s.core.acc.aseq + 1 ∧ OnlyStoresHere s t)) ∧
    (∀ q r k fl, s.core.abandoned = [] → s.core.pend = [q] →
      q.reply = some (.data (natBytes r 8 ++ natBytes fl 1) k) → r < 2 ^ 64 → fl < 32 →
      Runs f.1 s (fun t => WritesScalar d (BitVec.ofNat 64 r) s.core t.core ∧ Completed s t ∧ core t ∧
        t.core.fp.fflags = s.core.fp.fflags ||| BitVec.ofNat 5 fl ∧ t.core.pend = [] ∧ KeepsMemory s t)) ∧
    TrapsOnAnswer f.1 s ∧
    (∀ p, Fresh s → va % n = 0 → s.translate { r := true, w := true } va = .ok (.far p) →
      ((p.space = .hbm ∨ ∃ l, p.space = .spad l) → s.footprintStall va n true = false → s.tile.replay = none →
        Runs f.1 s (fun t => t.core.acc.aseq = s.core.acc.aseq + 1 ∧ Asks .relief p.dest (fun m => ∃ q, m = .amo q ∧
          q.place = p ∧ q.value = s.reg b ∧ q.req.src = s.me ∧ q.req.seq = s.core.acc.aseq + 1) s t)) ∧
      (p.space ≠ .hbm → (∀ l, p.space ≠ .spad l) → exec f.1 s = .next (takeTrap 5 (BitVec.ofNat 64 va) s)))

/-- R200, R202: the siding instructions. -/
def Obligations.SidingInstructions : Prop :=
  ∀ (d a b : BitVec 5) (s : State),
    let row := s.core.row ((s.reg a).toNat % 32)
    (∀ r, row = some r →
      ((s.reg b).toNat % 4 = 0 → Runs (.sdrd d a b) s (fun t => ∃ v : Word, Assigns d v s t ∧ v.getLsbD 63 = true ∧
        v.getLsbD 62 = r.det ∧ v.getLsbD 61 = decide (r.cls = .m) ∧ field v 58 3 = r.op.code ∧
        field v 2 46 = field r.va 2 46)) ∧
      ((s.reg b).toNat % 4 = 1 → Runs (.sdrd d a b) s (Assigns d r.value s)) ∧
      ((s.reg b).toNat % 4 = 2 →
        Runs (.sdrd d a b) s (Assigns d (BitVec.ofNat 64 (min (s.tile.pausedAt.getD s.wafer.clock - r.since) 0xFFFF)) s)) ∧
      ((s.reg b).toNat % 4 = 3 → Runs (.sdrd d a b) s (fun t => ∃ v : Word, Assigns d v s t ∧
        (r.det = false → v = 0) ∧ (r.det = true → field v 0 32 = r.key.seq.toNat ∧ field v 32 3 = r.key.core.toNat ∧
          field v 36 12 = r.key.jt.toNat)))) ∧
    (row = none → Runs (.sdrd d a b) s (Assigns d 0 s)) ∧
    Runs (.sdst d) s (fun t => ∃ v : Word, Assigns d v s t ∧ ∀ k < 64, v.getLsbD k = (s.core.row k).isSome) ∧
    (s.core.sidingQuiet = true → Runs .sdwait s (· = s.after)) ∧
    (s.core.sidingQuiet = false → Runs .sdwait s (· = s)) ∧
    Runs .sdfl s (fun t => Completed s t ∧ t.core.regs = s.core.regs ∧ KeepsMemory s t ∧
      (s.core.acc.flushing = [] → s.core.post.n + 32 ≤ 256 → s.core.post.m + 32 ≤ 256 → s.core.post.x + 32 ≤ 256 →
        ∀ k r, t.core.row k = some r → r.det = true)) ∧
    Runs (.sdfla a) s (fun t => Completed s t ∧ t.core.regs = s.core.regs ∧ KeepsMemory s t ∧
      (s.core.acc.flushing = [] → s.core.post.n + 32 ≤ 256 → s.core.post.m + 32 ≤ 256 → s.core.post.x + 32 ≤ 256 →
        ∀ k r, t.core.row k = some r → r.det = true ∨ field r.va 2 46 ≠ field (s.reg a) 2 46))

/-- R46, R47, R74, R75, R218, R219, R222, R226 to R229, R242 to R246: lane arithmetic, logic and shifts, the special
functions that merge, and the compact instructions, which act as their 32-bit forms and move the pc by two.
R219, R230, R238 to R240: moves, selections and permutes of lanes, vext and vins. -/
def Obligations.VectorLanesAndMoves : Prop :=
   ((∀ (d a b : BitVec 5) (p : BitVec 3) (n : BitVec 1) (s : State), ∀ F ∈ laneForms d a b p n, F.Runs s) ∧
    (∀ (d a b : BitVec 5) (p : BitVec 3) (n : BitVec 1) (s : State), ∀ F ∈ mathForms d a b p n, F.Runs s) ∧
    (∀ (d v : BitVec 5) (m : BitVec 1) (s : State),
      (∀ F ∈ compactForms d v m, F.Runs s) ∧
      (m = 1 → (⟨.vmovC d v m, 2, [v, d], d, 1, 0, fun _ i => some (v, i)⟩ : MoveForm).Runs s) ∧
      (m = 0 → Runs (.vmovC d v m) s (fun t => t.core.vreg d = s.core.vreg v ∧ t.core.fp = s.core.fp ∧
        WritesOneVector 2 d s t)))) ∧
   (∀ (d a b k : BitVec 5) (p : BitVec 3) (n : BitVec 1) (s : State),
      (∀ F ∈ moveForms d a b k p n s, F.Runs s) ∧
      (p ≠ 0 ∨ n ≠ 0 → (⟨.vmov d a p n, 4, [a, d], d, p, n, fun _ i => some (a, i)⟩ : MoveForm).Runs s) ∧
      Runs (.vmov d a 0 0) s (fun t => t.core.vreg d = s.core.vreg a ∧ t.core.fp = s.core.fp ∧ WritesOneVector 4 d s t) ∧
      (let T := (s.core.vreg a).tag
       let x := (s.core.vreg a).elem T.width (k.toNat % T.lanes)
       Runs (.vext d a k) s (Assigns d
         (if T.isSigned then BitVec.ofInt 64 (Int.bmod x (2 ^ T.width)) else BitVec.ofNat 64 x) s)) ∧
      (let T := (s.core.vreg d).tag
       Runs (.vins d a k) s (fun t => t.core.fp = s.core.fp ∧ WritesOneVector 4 d s t ∧
         Holds d T (fun i => if i = k.toNat % T.lanes then (s.reg a).toNat else (s.core.vreg d).elem T.width i)
           (s.core.vreg d).scales t)))

/-- R241: reductions over a binary tree of joins. -/
def Obligations.VectorReductions : Prop :=
  ∀ (d a : BitVec 5) (p : BitVec 3) (n : BitVec 1) (s : State),
    ∀ F ∈ [(Instr.vredadd d a p n, laneAdd), (.vredmax d a p n, laneMax), (.vredmin d a p n, laneMin)],
      let T := (s.core.vreg a).tag
      let x (i : Nat) : Option Nat := if s.active p n i then some ((s.core.vreg a).elem T.width i) else none
      let join (u v : Option Nat × FpFlags) : Option Nat × FpFlags :=
        match u.1, v.1 with
        | some y, some z => (some (F.2 T s.core.rounding y z 0).1, (u.2.or v.2).or (F.2 T s.core.rounding y z 0).2)
        | some y, none => (some y, u.2.or v.2)
        | none, z => (z, u.2.or v.2)
      (T.arith = true → ∀ tree : Nat → Nat → Option Nat × FpFlags,
        (∀ i, tree 0 i = (x i, {})) → (∀ k i, tree (k + 1) i = join (tree k (2 * i)) (tree k (2 * i + 1))) →
        Runs F.1 s (fun t =>
          Holds d T (fun i => if i = 0 then (tree T.lanes.log2 0).1.getD 0 else 0) (s.core.vreg d).scales t ∧
          t.core.fp = { s.core.fp with fflags := s.core.fp.fflags ||| (tree T.lanes.log2 0).2.bits } ∧
          WritesOneVector 4 d s t)) ∧
      (T.arith = false → exec F.1 s = .next (takeTrap 6 (BitVec.ofNat 64 (T.code + T.code * 2 ^ 8 + 2 ^ 13)) s))

/-- R91, R231 to R233: compares write one bit a lane, 0 where inactive and beyond the lanes; predicate operations act on all
64 bits. -/
def Obligations.ComparesAndPredicates : Prop :=
  (∀ (d : BitVec 3) (a b : BitVec 5) (p : BitVec 3) (n : BitVec 1) (s : State), ∀ F ∈ compareForms d a b p n,
    let T := (s.core.vreg a).tag
    let x (i : Nat) : Nat := (s.core.vreg a).elem T.width i
    let y (i : Nat) : Nat := (s.core.vreg b).elem T.width i
    let v (k : Nat) : Int := if T.isSigned then Int.bmod k (2 ^ T.width) else k
    let r (i : Nat) : Bool × FpFlags :=
      match T.float with
      | some g => fpCompare g F.2.1 (x i) (y i)
      | none => (F.2.2 (v (x i)) (v (y i)), {})
    T.arith = true → (s.core.vreg b).tag = T →
      Runs F.1 s (fun t => (∃ w : Word, (∀ i < 64, w.getLsbD i = (decide (i < T.lanes) && s.active p n i && (r i).1)) ∧
          AssignsPredicate d w s t) ∧
        RaisesFlags T.lanes (s.active p n) (fun i => (r i).2) s t)) ∧
  (∀ (d a b : BitVec 3) (x : BitVec 5) (s : State),
    let P (i : Instr) (v : Word) : Prop :=
      Runs i s (fun t => AssignsPredicate d v s t ∧ t.core.fp = s.core.fp)
    P (.pand d a b) (s.core.pred a &&& s.core.pred b) ∧ P (.por d a b) (s.core.pred a ||| s.core.pred b) ∧
    P (.pxor d a b) (s.core.pred a ^^^ s.core.pred b) ∧ P (.pnot d a) (~~~s.core.pred a) ∧
    P (.pmov d a) (s.core.pred a) ∧ P (.pmovxToPredicate d x) (s.reg x) ∧
    Runs (.pmovxToScalar x a) s (Assigns x (s.core.pred a) s))

/-- R53 to R55, R234 to R237, R243, R248, R249: conversions, vtag and vdq. -/
def Obligations.VectorConversions : Prop :=
  ∀ (d a b t : BitVec 5) (m p : BitVec 3) (n : BitVec 1) (s : State),
    let A := (s.core.vreg a).tag
    let on := s.active p n
    let rm := s.core.rounding
    (∀ T, Tag.ofBits t = some T → A ≠ .raw →
      (T ≠ .raw → T ≠ .b4 → Runs (.vcvt d a t p n) s (ConvertsTo d T (min A.lanes T.lanes) on
        (s.core.stochastic && narrowing A T) rm (fun r i => convert A T r ((s.core.vreg a).source i)) s)) ∧
      (T.float.isSome = true → Runs (.vcvtSr d a t p n) s (ConvertsTo d T (min A.lanes T.lanes) on true rm
        (fun r i => convert A T r ((s.core.vreg a).source i)) s))) ∧
    (∀ T, Tag.ofBits t = some T → Runs (.vtag d a t) s (fun u => (u.core.vreg d).data = (s.core.vreg a).data ∧
      Holds d T ((s.core.vreg a).elem T.width)
        (if T = .b4 then (s.core.vreg a).scales else (s.core.vreg d).scales) u ∧
      u.core.fp = s.core.fp ∧ WritesOneVector 4 d s u)) ∧
    (∀ T, A.float.isSome = true → T = (if A = .f32 then Tag.i32 else if A = .bf16 ∨ A = .f16 then .i16 else .i8) →
      Runs (.vcvti d a p n) s (ConvertsTo d T T.lanes on false .rtz
        (fun r i => convert A T r ((s.core.vreg a).source i)) s)) ∧
    (∀ T g, (s.core.vreg d).tag = T → scaledTarget T = true → A.quantisable = true → A.float = some g →
      (s.core.vreg b).tag = .f32 →
      let x (i : Nat) : FVal := g.value ((s.core.vreg a).source i).2
      let q (i : Nat) := scaleQuotient (x i) (FloatFmt.f32.value ((s.core.vreg b).elem 32 0))
      Runs (.vcvts d a b p n) s (ConvertsTo d T (min A.lanes T.lanes) on (T.float.isSome && s.core.stochastic) rm
        (fun r i => match T.float with
          | some h => quotientToFloat g h r (x i) (q i)
          | none => quotientToInt T.width r (q i)) s)) ∧
    (A = .b4 → Runs (.vdq d a m p n) s (fun u =>
      Holds d .f32 (fun i => if on i then
          (b4ToFloat .f32 .rne ((s.core.vreg a).source (16 * m.toNat + i)).1 ((s.core.vreg a).source (16 * m.toNat + i)).2).1
        else 0) (s.core.vreg d).scales u ∧
      u.core.fp = s.core.fp ∧ WritesOneVector 4 d s u))

/-- R67, R68, R247, R249: one block of vqnt, and barq. -/
def Obligations.QuantiseAndBlockMaximum : Prop :=
  ∀ (d a : BitVec 5) (j : BitVec 2) (p : BitVec 3) (n : BitVec 1) (s : State),
    let A := (s.core.vreg a).tag
    let src (i : Nat) : Nat :=
      if A = .f32 then (if i < 16 then (s.core.vreg a).elem 32 i else (s.core.vreg (a + 1)).elem 32 (i - 16))
      else (s.core.vreg a).elem 16 i
    (∀ g, A.quantisable = true → A.float = some g → (A = .f32 → a.toNat % 2 = 0 ∧ (s.core.vreg (a + 1)).tag = .f32) →
      Runs (.vqnt d a j) s (fun t =>
        (t.core.vreg d).tag = .b4 ∧
        (∀ i < 128, i / 32 ≠ j.toNat → (t.core.vreg d).elem 4 i = (s.core.vreg d).elem 4 i) ∧
        (∀ k < 4, k ≠ j.toNat → scaleByte (t.core.vreg d).scales k = scaleByte (s.core.vreg d).scales k) ∧
        ((∃ i < 32, (g.value (src i)).isSpecial = true) →
          scaleByte (t.core.vreg d).scales j.toNat = 0x3F ∧ ∀ i < 32, (t.core.vreg d).elem 4 (32 * j.toNat + i) = 0) ∧
        ((∀ i < 32, (g.value (src i)).isSpecial = false) → ∃ e ≤ 62,
          scaleByte (t.core.vreg d).scales j.toNat = s.core.fp.qtype.toNat * 64 + e ∧
          (∀ e' < e, ∃ i < 32, fitsBlock s.core.fp.qtype.toNat e' (g.value (src i)) = false) ∧
          (e < 62 → ∀ i < 32, fitsBlock s.core.fp.qtype.toNat e (g.value (src i)) = true) ∧
          (s.core.stochastic = false → ∀ i < 32, (t.core.vreg d).elem 4 (32 * j.toNat + i) =
            (qround s.core.fp.qtype.toNat s.core.rounding e (g.value (src i))).1 % 16)) ∧
        t.core.fp.gs = (if s.core.stochastic then generatorAfter 32 s.core.fp.gs else s.core.fp.gs) ∧
        WritesOneVector 4 d s t)) ∧
    (A = .f32 → a.toNat % 2 = 1 → ∃ w, HasWord (.vqnt d a j) w ∧ exec (.vqnt d a j) s = .next (takeTrap 1 w s)) ∧
    (∀ g, A.quantisable = true → A.float = some g →
      (∀ i < A.lanes, s.active p n i = true → (g.value ((s.core.vreg a).elem A.width i)).isNaN = false) →
      Runs (.barq d a p n) s (fun t => ∃ m : Nat,
        Holds d A (fun _ => m) (s.core.vreg d).scales t ∧
        (∀ i < A.lanes, s.active p n i = true → (s.core.vreg a).elem A.width i % 2 ^ (A.width - 1) ≤ m) ∧
        (m = 0 ∨ ∃ i < A.lanes, s.active p n i = true ∧ (s.core.vreg a).elem A.width i % 2 ^ (A.width - 1) = m) ∧
        t.core.fp = s.core.fp ∧ WritesOneVector 4 d s t))

/-- R250 to R253: vector loads and gathers from the own scratchpad, and a load of kinds 0 to 2 with its answers. -/
def Obligations.VectorLoads : Prop :=
  ∀ (v a k o t : BitVec 5) (p : BitVec 3) (n : BitVec 1) (w : BitVec 2) (s : State) (T : Tag),
    Tag.ofBits t = some T → WaitOver w s → s.core.abandoned = [] →
    let old := s.core.vreg v
    let all := elementsOf (s.reg a) (s.reg k) T (fun _ => true)
    let some' := elementsOf (s.reg a) (BitVec.ofNat 64 (T.width / 8)) T (s.active p n)
    let quad := blockElements (s.reg a) (s.reg k)
    let gath := laneElements a o s
    let at' (es : List Element) (i : Nat) : Option Nat :=
      (es.find? (fun e => e.i == i)).map (fun e => s.tile.mem.readNat e.va e.size)
    let frame (u : State) : Prop := OnlyVectorAccess s u ∧ KeepsOtherVectors v s u ∧ OnlyReadsHere s u
    (T ≠ .b4 → s.core.pend = [] → s.detRoom = true →
      ((p ≠ 0 ∨ n ≠ 0 → old.tag = T) → ElementsHere some' false s →
        Runs (.vld v a p n w t) s (fun u => frame u ∧
          Holds v T (fun i => (at' some' i).getD (old.elem T.width i)) old.scales u)) ∧
      (ElementsHere all false s → Runs (.vlds v a k w t) s (fun u => frame u ∧
        Holds v T (fun i => (at' all i).getD 0) old.scales u))) ∧
    (s.core.pend = [] → s.detRoom = true → ElementsHere quad false s → Runs (.vldq v a k w) s (fun u => frame u ∧
      (u.core.vreg v).tag = .b4 ∧
      ∀ j < 4, (u.core.vreg v).elem 128 j = (at' quad j).getD 0 ∧
        scaleByte (u.core.vreg v).scales j = (at' quad (4 + j)).getD 0)) ∧
    (T.width = 32 → s.core.pend = [] → RoomFor 16 s → ElementsHere gath false s →
      Runs (.vgth v a o w t) s (fun u => frame u ∧ u.core.fp.vprog = 0 ∧
        Holds v T (fun i => (at' gath i).getD (old.elem 32 i)) old.scales u)) ∧
    (∀ fs, T ≠ .b4 → s.core.pend = fs → fs ≠ [] → (∀ f ∈ fs, ∃ b q, f.reply = some (.data b q)) →
      Runs (.vlds v a k w t) s (fun u => OnlyVectorAccess s u ∧ u.core.pend = [] ∧ KeepsOtherVectors v s u ∧
        KeepsMemory s u ∧
        Holds v T (fun i => ((all.find? (fun e => e.i == i)).map (elementBytes fs)).getD 0) old.scales u))

/-- R250 to R253: vector stores and scatters to the own scratchpad.
R211, R212, R223: vector accumulates, relaxed, at the own scratchpad: lane after lane from VPROG.LANE on. -/
def Obligations.VectorStoresAndAccumulates : Prop :=
   (∀ (v a k o t : BitVec 5) (p : BitVec 3) (n : BitVec 1) (w : BitVec 2) (s : State) (T : Tag),
      Tag.ofBits t = some T → WaitOver w s →
      let r := s.core.vreg v
      let all := elementsOf (s.reg a) (s.reg k) T (fun _ => true)
      let some' := elementsOf (s.reg a) (BitVec.ofNat 64 (T.width / 8)) T (s.active p n)
      let quad := blockElements (s.reg a) (s.reg k)
      let scat := laneElements a o s
      let frame (u : State) : Prop := OnlyVectorAccess s u ∧ u.core.regs = s.core.regs ∧ OnlyStoresHere s u
      (T ≠ .b4 → (T = .raw ∨ r.tag = T) → s.detRoom = true →
        (ElementsHere some' true s → Runs (.vst v a p n w t) s (fun u => frame u ∧
          StoresElements some' (fun e => r.elem T.width e.i) s u)) ∧
        (ElementsHere all true s → Runs (.vsts v a k w t) s (fun u => frame u ∧
          StoresElements all (fun e => r.elem T.width e.i) s u))) ∧
      (r.tag = .b4 → s.detRoom = true → ElementsHere quad true s → Runs (.vstq v a k w) s (fun u => frame u ∧
        StoresElements quad (fun e => if e.i < 4 then r.elem 128 e.i else scaleByte r.scales (e.i - 4)) s u)) ∧
      (T.width = 32 → (T = .raw ∨ r.tag = T) → RoomFor 16 s → ElementsHere scat true s →
        Runs (.vsct v a o w t) s (fun u => frame u ∧ u.core.fp.vprog = 0 ∧
          StoresElements scat (fun e => r.elem 32 e.i) s u))) ∧
   (∀ (v a o : BitVec 5) (w : BitVec 2) (s : State),
      ∀ F ∈ [(Instr.vaccF32 v a o w, AccOp.addF32, Tag.f32), (.vaccI32 v a o w, .addI32, .i32)],
        let es := laneElements a o s
        (s.core.vreg v).tag = F.2.2 → WaitOver w s → RoomFor 16 s → ElementsHere es true s → s.core.accDet = false →
          s.core.acc.inbound = [] →
          Runs F.1 s (fun t =>
            (∀ b, t.tile.mem.read b = (es.foldl (fun m e => m.writeCells (cellsAt e.va (natBytes (comb F.2.1
                (BitVec.ofNat 64 (m.readNat e.va 4)) (BitVec.ofNat 64 ((s.core.vreg v).elem 32 e.i))).toNat 4)))
              s.tile.mem).read b) ∧
            t.core.fp.vprog = 0 ∧ t.core.regs = s.core.regs ∧ Completed s t ∧
            t.core.acc = { s.core.acc with aseq := s.core.acc.aseq + BitVec.ofNat 32 es.length } ∧ OnlyStoresHere s t))

/-- R175, R250 to R252: strided vector loads and stores outside the own scratchpad: a load waits for a line of each element,
a store is posted on the main line; and where the lowest element that fails its checks traps. -/
def Obligations.VectorAccessesElsewhere : Prop :=
  ∀ (v a k t : BitVec 5) (w : BitVec 2) (s : State) (T : Tag), Tag.ofBits t = some T → T ≠ .b4 → WaitOver w s →
    let all := elementsOf (s.reg a) (s.reg k) T (fun _ => true)
    let value (e : Element) : List Byte := natBytes ((s.core.vreg v).elem T.width e.i) e.size
    let away (need : Need) (pl : Element → Place) : Prop := ∀ e ∈ all,
      e.va % e.size = 0 ∧ s.translate need e.va = .ok (.far (pl e)) ∧ (pl e).space ≠ .device ∧
      (pl e).a % 256 = e.va % 256 ∧ s.footprintStall e.va e.size need.w = false
    (Fresh s → s.detRoom = true → s.tile.replay = none → ∀ pl, away { r := true } pl →
      (∀ e ∈ all, (pl e).space.cached = true → s.tile.farLine (pl e).space ((pl e).a / 256 * 256) = none) →
      Runs (.vlds v a k w t) s (fun u => Waits s u ∧ (∀ f ∈ u.core.pend, f.reply = none) ∧
        ∀ e ∈ all, ∃ f ∈ u.core.pend, f.va / 256 = e.va / 256)) ∧
    (T = .raw ∨ (s.core.vreg v).tag = T → s.detRoom = true → s.tile.replay = none →
      (∀ c, s.core.post.count c + 64 ≤ 256) → ∀ pl, away { w := true } pl →
      Runs (.vsts v a k w t) s (fun u => Completed s u ∧ u.core.regs = s.core.regs ∧ KeepsMemory s u ∧
        ∀ e ∈ all, ∀ c ∈ cellsAt (pl e).a (value e), ∃ q ∈ u.wafer.net, s.wafer.nextId ≤ q.id ∧ q.line = .main ∧
          q.origin = s.site ∧ ∃ r l, q.msg = .store r (pl e).space l ∧ r.src = s.me ∧ r.listed = true ∧ c ∈ l)) ∧
    (∀ e xs ys c, all = xs ++ e :: ys →
      (Fresh s → ElementsHere xs false s → e.check { r := true } false s = .fail c →
        TrapsAt c e.va (.vlds v a k w t) s) ∧
      (T = .raw ∨ (s.core.vreg v).tag = T → ElementsHere xs true s → e.check { w := true } true s = .fail c →
        TrapsAt c e.va (.vsts v a k w t) s))

/-- R258 to R260, R264, R265: tld and tst queue a card and give a ticket, or trap. -/
def Obligations.TileTransfersQueue : Prop :=
  ∀ (m : BitVec 3) (b r x d : BitVec 5) (s : State),
    let mem := (s.core.treg m).tag
    let aligned : Prop := (s.reg b).toNat % 128 = 0 ∧ (s.reg r).toNat % 128 = 0 ∧ (s.reg x).toNat % 8 = 0
    let card (job : TileJob) (w : Nat) (to_ : Tag) : TileCard :=
      { num := 0, job := job, word := BitVec.ofNat 32 w, base := s.reg b, stride := if r = 0 then 128 else s.reg r,
        scale := s.reg x, shape := vget s.core.eng.tshape m.toNat 0, srcTag := mem, dstTag := to_ }
    (∀ F, ShapeIs m F s → (x ≠ 0 ↔ F = .b4) → aligned → TicketRoom s → ∃ w, encode (.tld m b r x d) = some (32, w) ∧
      Runs (.tld m b r x d) s (fun t => QueuesTicketed (card (.tld m) w F) (some (m, F)) d s t ∧
        t.core.eng.perturb = s.core.eng.perturb)) ∧
    (∀ F, ShapeIs m F s → (x ≠ 0 ↔ mem = .b4) → (F = .raw ∨ F = mem) → aligned → TicketRoom s →
      ∃ w, encode (.tst m b r x d) = some (32, w) ∧
        Runs (.tst m b r x d) s (fun t => QueuesTicketed (card (.tst m) w mem) none d s t ∧
          t.core.eng.perturb = s.core.eng.perturb)) ∧
    ((∀ F, ¬ShapeIs m F s) → TrapsIllegal (.tld m b r x d) s ∧ TrapsIllegal (.tst m b r x d) s) ∧
    (∀ F, ShapeIs m F s →
      (¬(x ≠ 0 ↔ F = .b4) → TrapsIllegal (.tld m b r x d) s) ∧
      (¬(x ≠ 0 ↔ mem = .b4) → TrapsIllegal (.tst m b r x d) s) ∧
      ((x ≠ 0 ↔ mem = .b4) → F ≠ .raw → F ≠ mem → TrapsOnTags (.tst m b r x d) F mem false s) ∧
      ((x ≠ 0 ↔ F = .b4) → ¬aligned →
        exec (.tld m b r x d) s = .next (takeTrap 3 (if (s.reg b).toNat % 128 ≠ 0 then s.reg b
          else if (s.reg r).toNat % 128 ≠ 0 then s.reg r else s.reg x) s)))

/-- R45, R46, R257 to R260, R270, R271, R275 to R279: the four forms of mma queue a card and give a ticket, the
housekeeping instructions queue a card without one, or they trap. -/
def Obligations.MatrixJobsQueue : Prop :=
  (∀ (c a b : BitVec 3) (d : BitVec 5) (s : State),
    let A := (s.core.treg a).tag
    let B := (s.core.treg b).tag
    let C := (s.core.treg c).tag
    let sum : Tag := if A = .i8 then .i32 else .f32
    let input : Prop := A ∈ [Tag.bf16, .f16, .e4m3, .e5m2, .i8, .b4]
    let p := s.core.eng.perturb
    ∀ F ∈ [(Instr.mma c a b d, false, false), (.mmaZ c a b d, true, false), (.mmaN c a b d, false, true),
        (.mmaZn c a b d, true, true)],
      (c ≠ a → c ≠ b → input → B = A → (F.2.1 = false → C = sum) → TicketRoom s →
        ∃ w, encode F.1 = some (32, w) ∧
          Runs F.1 s (fun t => QueuesTicketed
            { num := 0, job := .mma c a b F.2.1 F.2.2, word := BitVec.ofNat 32 w,
              perturb := if p.getLsbD 63 then p else 0, srcTag := A, dstTag := sum } (some (c, sum)) d s t ∧
            (∀ k < 63, t.core.eng.perturb.getLsbD k = p.getLsbD k) ∧ t.core.eng.perturb.getLsbD 63 = false)) ∧
      (c = a ∨ c = b → TrapsIllegal F.1 s) ∧
      (c ≠ a → c ≠ b → ¬input → TrapsOnTags F.1 A A true s) ∧
      (c ≠ a → c ≠ b → input → B ≠ A → TrapsOnTags F.1 A B false s) ∧
      (c ≠ a → c ≠ b → input → B = A → F.2.1 = false → C ≠ sum → TrapsOnTags F.1 A C true s)) ∧
  (∀ (d a b : BitVec 3) (x v : BitVec 5) (s : State),
    let A := (s.core.treg a).tag
    let B := (s.core.treg b).tag
    let D := (s.core.treg d).tag
    let card (i : Instr) (k : W32 → TileCard) (m : Option (BitVec 3 × Tag)) (gs : Word) : Prop :=
      CardRoom s → ∃ w, encode i = some (32, w) ∧
        Runs i s (fun t => QueuesUnticketed (k (BitVec.ofNat 32 w)) m s t ∧ t.core.fp.gs = gs)
    let same := s.core.fp.gs
    (∀ F, ShapeIs d F s →
      card (.tzero d) (fun w => { num := 0, job := .tzero d, word := w, dstTag := F }) (some (d, F)) same ∧
      (F ∉ [Tag.raw, .b4, .n32, .n16, .n8] → A ≠ .raw →
        card (.tcvt d a) (fun w =>
          { num := 0, job := .tcvt d a, word := w, shape := vget s.core.eng.tshape d.toNat 0, srcTag := A, dstTag := F,
            frm := s.core.fp.frm, gs := s.core.fp.gs }) (some (d, F))
          (if s.core.stochastic && narrowing A F then
            generatorAfter ((field (vget s.core.eng.tshape d.toNat 0) 8 5 + 1) * min (1024 / A.width) (1024 / F.width)) same
          else same)) ∧
      (F ∈ [Tag.raw, .b4, .n32, .n16, .n8] → TrapsOnTags (.tcvt d a) F F true s) ∧
      (F ∉ [Tag.raw, .b4, .n32, .n16, .n8] → A = .raw → TrapsOnTags (.tcvt d a) A A true s)) ∧
    ((∀ F, ¬ShapeIs d F s) → TrapsIllegal (.tzero d) s ∧ TrapsIllegal (.tcvt d a) s) ∧
    card (.tmov d a) (fun w => { num := 0, job := .tmov d a, word := w, srcTag := A, dstTag := A }) (some (d, A)) same ∧
    (A ≠ .b4 → card (.ttr d a) (fun w => { num := 0, job := .ttr d a, word := w, srcTag := A, dstTag := A })
      (some (d, A)) same) ∧
    (A = .b4 → TrapsOnTags (.ttr d a) A A true s) ∧
    (A = .f32 ∨ A = .i32 → B = A →
      card (.tadd d a b) (fun w => { num := 0, job := .tadd d a b, word := w, srcTag := A, dstTag := A })
        (some (d, A)) same) ∧
    (A ≠ .f32 → A ≠ .i32 → TrapsOnTags (.tadd d a b) A A true s) ∧
    (A = .f32 ∨ A = .i32 → B ≠ A → TrapsOnTags (.tadd d a b) A B false s) ∧
    card (.trowv a x v) (fun w => { num := 0, job := .trowv a v, word := w, base := s.reg x, srcTag := A }) none same ∧
    ((s.core.vreg v).tag = D →
      card (.tvrow d x v) (fun w =>
        { num := 0, job := .tvrow d v, word := w, base := s.reg x, srcTag := D, dstTag := D, vec := s.core.vreg v })
        none same) ∧
    ((s.core.vreg v).tag ≠ D → TrapsOnTags (.tvrow d x v) (s.core.vreg v).tag D false s))

/-- R281 to R283, R286, R298: waits and polls on tickets, and twaitall. -/
def Obligations.TicketWaits : Prop :=
  ∀ (d a : BitVec 5) (s : State),
    (∀ F ∈ waitForms d a,
      let v := s.reg a
      let i := v.toNat % 16
      let slot := vget (s.core.slotsOf F.2.1) i {}
      let code := match F.2.1 with | .matrix => 1 | .copier => 2
      let own : Prop := v.toNat / 2 ^ 16 = 8 * code + s.coreNo.toNat
      (¬own → Runs F.1 s (Assigns d 3 s)) ∧
      (own → slot.seq.toNat ≠ v.toNat % 2 ^ 16 ∨ slot.state = 0 ∨ slot.state = 3 → Runs F.1 s (Assigns d 1 s)) ∧
      (own → slot.seq.toNat = v.toNat % 2 ^ 16 →
        (slot.state = 1 → F.2.2 = true → Runs F.1 s (Assigns d 2 s)) ∧
        (slot.state = 1 → F.2.2 = false → Runs F.1 s (· = s)) ∧
        (slot.state = 2 → slot.fault = false → Runs F.1 s (fun t =>
          WritesScalar d 0 s.core t.core ∧ t.core.fp.fflags = s.core.fp.fflags ||| slot.flags ∧ Completed s t ∧
          t = { s.observed F.2.1 i with core := { (s.observed F.2.1 i).core with
            regs := { s.core.regs with
              glob := t.core.regs.glob, frames := t.core.regs.frames, trapWin := t.core.regs.trapWin },
            fp := { s.core.fp with fflags := t.core.fp.fflags }, pc := t.core.pc, retired := t.core.retired } } ∧
          KeepsMemory s t)) ∧
        (slot.state = 2 → slot.fault = true → exec F.1 s =
          .next (takeTrap 10 (BitVec.ofNat 64 (slot.addr.toNat + slot.cause.toNat * 2 ^ 48)) (s.observed F.2.1 i))))) ∧
    (let slot (u : State) (i : Nat) : Slot := vget u.core.eng.slots i {}
     let due (i : Nat) : Bool := decide ((slot s i).state = 2)
     (s.core.eng.cards ≠ [] → Runs (.twaitall d) s (· = s)) ∧
     (s.core.eng.cards = [] → (∀ i < 16, due i = true → (slot s i).fault = false) →
       Runs (.twaitall d) s (fun t =>
         WritesScalar d (BitVec.ofNat 64 ((List.range 16).countP due)) s.core t.core ∧
         (∀ i < 16, slot t i = if due i = true then { slot s i with state := 3 } else slot s i) ∧
         (∀ k : Nat, t.core.fp.fflags.getLsbD k = true ↔
           s.core.fp.fflags.getLsbD k = true ∨ ∃ i < 16, due i = true ∧ (slot s i).flags.getLsbD k = true) ∧
         Completed s t ∧ KeepsMemory s t ∧
         t = { s with core := { s.core with
           regs := { s.core.regs with
             glob := t.core.regs.glob, frames := t.core.regs.frames, trapWin := t.core.regs.trapWin },
           eng := { s.core.eng with slots := t.core.eng.slots },
           fp := { s.core.fp with fflags := t.core.fp.fflags }, pc := t.core.pc, retired := t.core.retired } })))

/-- R292, R294 to R297, R300, R307, R311: the copy instructions read a card, check it, queue a job and give a ticket. -/
def Obligations.CopyJobsQueue : Prop :=
  ∀ (d a : BitVec 5) (s : State), ∀ F ∈ copyForms d a,
    let x := (s.reg a).toNat
    let m := s.tile.mem
    let dword (o : Nat) : Word := BitVec.ofNat 64 (m.readNat (x + o) 8)
    let word (o : Nat) : W32 := BitVec.ofNat 32 (m.readNat (x + o) 4)
    let seq := s.core.cpy.cseq
    (x % 64 ≠ 0 → exec F.1 s = .next (takeTrap 3 (s.reg a) s)) ∧
    (x % 64 = 0 → 0x600000 ≤ x → exec F.1 s = .next (takeTrap 5 (s.reg a) s)) ∧
    (x % 64 = 0 → x < 0x600000 → FreeLines x 64 false s → CardIsGood F.2 m x s.tile.width s.tile.height →
      s.core.cpy.jobs.length < 8 → (vget s.core.cpy.slots (seq.toNat % 16) {}).state ≠ 1 →
      Runs F.1 s (fun t =>
        (∃ j : CopyJob, t.core.cpy.jobs = s.core.cpy.jobs ++ [j] ∧ j.kind = F.2 ∧ j.xc = s.reg a ∧ j.seq = seq ∧
          (j.src, j.dst, j.flag) = (dword 0, dword 8, dword 0x20) ∧ j.len = m.readNat (x + 0x10) 4 ∧
          (j.ctl, j.seed, j.run) = (word 0x14, word 0x18, word 0x18) ∧ (j.expect, j.rect) = (word 0x1C, word 0x28) ∧
          (s.tile.replay = none → j.inject = s.core.cpy.inj) ∧ j.num = s.tile.jobNo ∧
          j.prog = 0 ∧ j.sent = 0 ∧ j.state = .queued ∧ j.ending = none ∧
          (j.pred ≠ none → F.2 = .copyc ∧ (word 0x14).getLsbD 0 = true ∧ j.pred = s.core.cpy.lastCopyc)) ∧
        t.core.cpy.cseq = seq + 1 ∧
        (∀ i < 16, vget t.core.cpy.slots i {} =
          if i = seq.toNat % 16 then { seq := seq, state := 1 } else vget s.core.cpy.slots i {}) ∧
        (∀ k < 63, t.core.cpy.inj.getLsbD k = s.core.cpy.inj.getLsbD k) ∧ t.core.cpy.inj.getLsbD 63 = false ∧
        WritesScalar d (BitVec.ofNat 64 (2 ^ 20 + s.coreNo.toNat * 2 ^ 16 + seq.toNat)) s.core t.core ∧
        Completed s t ∧ OnlyReadsHere s { t with tile := { t.tile with jobNo := s.tile.jobNo } } ∧
        t.tile.jobNo = s.tile.jobNo + 1 ∧
        t.core = { s.core with
          regs := { s.core.regs with
            glob := t.core.regs.glob, frames := t.core.regs.frames, trapWin := t.core.regs.trapWin },
          cpy := t.core.cpy, pc := t.core.pc, retired := t.core.retired }))

/-- R316 to R322: send, sendv, recv, recvv and qstat. -/
def Obligations.MessageInstructions : Prop :=
  ∀ (d a b v : BitVec 5) (q : BitVec 4) (h : BitVec 1) (s : State),
    let x := s.reg a
    let n := field x 0 12
    let l := s.tile.logical n
    let goodWord : Prop := field x 20 44 = 0 ∧ x.getLsbD 15 = false ∧ n < s.tile.width * s.tile.height
    let c : CoreId := BitVec.ofNat 3 (field x 12 3)
    let k : Nat := field x 16 4
    (∀ F ∈ [(Instr.send a b, BitVec.ofNat 256 (s.reg b).toNat),
        (.sendv h a v, BitVec.ofNat 256 ((s.core.vreg v).data.toNat / 2 ^ (256 * h.toNat)))],
      (¬goodWord → exec F.1 s = .next (takeTrap 5 x s)) ∧
      (goodWord → l ≠ s.tile.tile → findPoint s.junction.points l.toNat = none → exec F.1 s = .next (takeTrap 5 x s)) ∧
      (goodWord → l ≠ s.tile.tile → findPoint s.junction.points l.toNat ≠ none → s.core.countRoom .n = true →
        s.tile.replay = none →
        Runs F.1 s (fun t => Completed s t ∧ t.core.regs = s.core.regs ∧ t.core.sync.msgSeq = s.core.sync.msgSeq + 1 ∧
          CountsOne .n s t ∧ Sends .relief (.tile l) (fun m => ∃ y, m = .message y ∧ MessageFrom s x F.2 true y) s t ∧
          OnlyMessages s t ∧ KeepsMemory s t)) ∧
      (goodWord → l ≠ s.tile.tile → findPoint s.junction.points l.toNat ≠ none → s.core.countRoom .n = false →
        Runs F.1 s (· = s)) ∧
      (goodWord → l = s.tile.tile → s.ownHeld = false →
        Runs F.1 s (fun t => Completed s t ∧ t.core.sync.msgSeq = s.core.sync.msgSeq + 1 ∧ t.core.post = s.core.post ∧
          OnlyMessages s t ∧ KeepsMemory s t ∧
          (s.tile.job.isSome = true → (s.coreAt c).run ≠ .unbound →
            (vget (s.coreAt c).regs.qregs k {}).full = false → (∀ m ∈ s.tile.restored ++ s.tile.inbound, ¬(m.dst = c ∧ m.q.toNat = k)) →
            t.tile.inbound = s.tile.inbound ∧ (t.coreAt c).wake = true ∧
            ∀ e, ∀ j < 16, vget (t.coreAt e).regs.qregs j {} =
              if e = c ∧ j = k then { data := F.2, full := true } else vget (s.coreAt e).regs.qregs j {}) ∧
          ((s.coreAt c).run ≠ .unbound → (vget (s.coreAt c).regs.qregs k {}).full = true → s.tile.inbound.length < 32 →
            ∃ y, t.tile.inbound = s.tile.inbound ++ [y] ∧ MessageFrom s x F.2 false y ∧ t.core.regs = s.core.regs)))) ∧
    (let r := vget s.core.regs.qregs q.toNat {}
     let emptied (t : State) : Prop := vget t.core.regs.qregs q.toNat {} = { r with full := false } ∧
       KeepsOtherQ q s t ∧ Completed s t ∧ KeepsMemory s t ∧
       t = { s with core := { s.core with
         regs := { s.core.regs with
           glob := t.core.regs.glob, frames := t.core.regs.frames, trapWin := t.core.regs.trapWin,
           vregs := t.core.regs.vregs, qregs := t.core.regs.qregs },
         pc := t.core.pc, retired := t.core.retired } }
     (r.full = false → Runs (.recv d q) s (· = s) ∧ Runs (.recvv v q h) s (· = s)) ∧
     (r.full = true →
       Runs (.recv d q) s (fun t => emptied t ∧ WritesScalar d (BitVec.ofNat 64 (r.data.toNat % 2 ^ 64)) s.core t.core ∧
         t.core.regs.vregs = s.core.regs.vregs) ∧
       Runs (.recvv v q h) s (fun t => emptied t ∧ KeepsScalars s.core t.core ∧ KeepsOtherVectors v s t ∧
         (t.core.vreg v).tag = (s.core.vreg v).tag ∧ (t.core.vreg v).scales = (s.core.vreg v).scales ∧
         ∀ i < 512, (t.core.vreg v).data.getLsbD i =
           if i / 256 = h.toNat then r.data.getLsbD (i % 256) else (s.core.vreg v).data.getLsbD i))) ∧
    (s.tile.replay = none → s.detRoom = true → Runs (.qstat d) s (fun t => ∃ w : Word,
      (∀ i < 16, w.getLsbD i = (vget s.core.regs.qregs i {}).full) ∧
      field w 16 48 = (s.tile.inbound.countP (fun m => m.dst == s.coreNo)) % 2 ^ 48 ∧
      WritesScalar d w s.core t.core ∧ Completed s t ∧ OnlyReadsHere s t))

/-- R329 to R333: arrive, await and sync. -/
def Obligations.BarrierInstructions : Prop :=
  ∀ (n : BitVec 2) (s : State),
    let b := vget s.core.sync.bst n.toNat 0
    let drained : Prop := SidingEmpty s ∧ Settled [.n, .m, .x] s ∧ s.tile.replay = none
    (b = 0 → Runs (.await n) s (· = s.after)) ∧
    (b = 1 → Runs (.await n) s (· = s) ∧ Runs (.arrive n) s (· = s) ∧ Runs (.sync n) s (· = s)) ∧
    (b = 2 → ∀ i ∈ [Instr.await n, .sync n], Runs i s (fun t => Passes n s t ∧ Completed s t ∧
      (∀ k < 4, vget t.core.sync.bst k 0 = if k = n.toNat then 0 else vget s.core.sync.bst k 0) ∧
      t = { s with core := t.core, tile := { s.tile with far := t.tile.far, fills := t.tile.fills } })) ∧
    (b = 0 → drained → Runs (.arrive n) s (fun t => Arrives n s t ∧ Completed s t)) ∧
    (b = 2 → drained → Runs (.arrive n) s (fun t => Arrives n s t ∧ Completed s t ∧ Passes n s { t with core := { t.core with post := s.core.post } })) ∧
    (b = 0 → drained → Runs (.sync n) s (fun t => Arrives n s t ∧ t.core.pc = s.core.pc ∧
      t.core.retired = s.core.retired)) ∧
    (s.core.post.count .n ≠ 0 → s.core.raceFor [.n, .m, .x] = none → SidingEmpty s → b = 0 →
      Runs (.arrive n) s (Waits s) ∧ Runs (.sync n) s (Waits s))

/-- R335: waita at the own scratchpad, at another tile, where it waits for an answer, and elsewhere, where it traps.
The line of the request is the model's choice (log 77). -/
def Obligations.WaitsOnAnAddress : Prop :=
  (∀ (d a b : BitVec 5) (s : State),
    let va := (s.reg a).toNat
    let word := s.tile.mem.readNat va 4
    let want := (s.reg b).toNat % 2 ^ 32
    let gives (n : Word) (t : State) : Prop :=
      WritesScalar d n s.core t.core ∧ Completed s t ∧ OnlyAccess s t ∧ OnlyReadsHere s t
    Fresh s → va % 4 = 0 → va < 0x600000 → FreeLines va 4 false s →
      (word ≠ want → Runs (.waita d a b) s (gives 0)) ∧
      (word = want → 16 ≤ s.tile.monitors.length → Runs (.waita d a b) s (gives 2)) ∧
      (word = want → s.tile.monitors.length < 16 → Runs (.waita d a b) s (fun t => Waits s t ∧
        (∃ m, t.tile.monitors = s.tile.monitors ++ [m] ∧ m.a = va ∧ m.value.toNat = want) ∧
        ∃ q, t.core.pend = [q] ∧ q.reply = none)) ∧
      (∀ q k v, v < 2 ^ 64 → Runs (.waita d a b) { s with core := { s.core with
          pend := [{ (q : Fetch) with reply := some (.data (natBytes v 8) k) }] } } (fun t =>
        WritesScalar d (BitVec.ofNat 64 v) s.core t.core ∧ Completed s t ∧ t.core.pend = [] ∧ KeepsMemory s t))) ∧
  (∀ (d a b : BitVec 5) (s : State),
    let va := (s.reg a).toNat
    TrapsOnAnswer (.waita d a b) s ∧
    (∀ p, Fresh s → va % 4 = 0 → s.translate { r := true } va = .ok (.far p) →
      (∀ l, p.space = .spad l → s.footprintStall va 4 false = false → s.tile.replay = none →
        Runs (.waita d a b) s (Asks .relief (.tile l)
          (fun m => ∃ r, m = .waita r l p.a ((s.reg b).setWidth 32) ∧ r.src = s.me) s)) ∧
      ((∀ l, p.space ≠ .spad l) → exec (.waita d a b) s = .next (takeTrap 5 (BitVec.ofNat 64 va) s))))

/-- R337, R338: cntinc, cntrst and cntwait. -/
def Obligations.EventCounters : Prop :=
  ∀ (d : BitVec 5) (c : BitVec 3) (b : BitVec 5) (s : State),
    let old := vget s.tile.evc c.toNat 0
    let v := field old 0 32
    let by_ := (s.reg b).toNat % 2 ^ 32
    let new := min (v + by_) (2 ^ 32 - 1)
    let others (t : State) : Prop := ∀ i < 8, i ≠ c.toNat → vget t.tile.evc i 0 = vget s.tile.evc i 0
    let tile (t : State) : Prop :=
      t.tile = { s.tile with
        evc := t.tile.evc, evcKnown := t.tile.evcKnown, touched := t.tile.touched, made := t.tile.made,
        sliceCount := t.tile.sliceCount, dets := t.tile.dets } ∧
      t.wafer = { s.wafer with net := t.wafer.net, nextId := t.wafer.nextId } ∧ t.junction = s.junction ∧
      t.site = s.site ∧ t.coreNo = s.coreNo
    s.detRoom = true →
    (by_ = 0 → Runs (.cntinc d c b) s (fun t => WritesScalar d (BitVec.ofNat 64 v) s.core t.core ∧ Completed s t ∧
      OnlyScalarsAnd s t s.core.sync s.core.task ∧ OnlyReadsHere s t)) ∧
    (by_ ≠ 0 → Runs (.cntinc d c b) s (fun t =>
      WritesScalar d (BitVec.ofNat 64 v) s.core t.core ∧ field (vget t.tile.evc c.toNat 0) 0 32 = new ∧
      (vget t.tile.evc c.toNat 0).getLsbD 32 = (old.getLsbD 32 || decide (2 ^ 32 ≤ v + by_)) ∧
      Releases c (· ≤ new) 0 s t ∧ (new ≠ v → t.core.wake = true ∧ ∀ p ∈ t.others, p.2.wake = true) ∧
      others t ∧ tile t ∧ Completed s t ∧ OnlyScalarsAnd s t { s.core.sync with cnt := t.core.sync.cnt } s.core.task ∧
      KeepsMemory s t)) ∧
    Runs (.cntrst c) s (fun t => vget t.tile.evc c.toNat 0 = 0 ∧ Releases c (fun _ => True) 1 s t ∧
      (v ≠ 0 → t.core.wake = true ∧ ∀ p ∈ t.others, p.2.wake = true) ∧ others t ∧ tile t ∧ Completed s t ∧
      t.core.regs = s.core.regs ∧ KeepsMemory s t) ∧
    (s.core.sync.cnt = none → by_ ≤ v → Runs (.cntwait d c b) s (fun t => WritesScalar d 0 s.core t.core ∧
      Completed s t ∧ OnlyScalarsAnd s t s.core.sync s.core.task ∧ OnlyReadsHere s t)) ∧
    (s.core.sync.cnt = none → v < by_ → Runs (.cntwait d c b) s (fun t =>
      t.core = { s.core with sync := { s.core.sync with cnt := some { c := c, bound := BitVec.ofNat 32 by_ } } } ∧
      OnlyReadsHere s t)) ∧
    (∀ w, s.core.sync.cnt = some w → w.status = none → Runs (.cntwait d c b) s (· = s)) ∧
    (∀ w x, s.core.sync.cnt = some w → w.status = some x → Runs (.cntwait d c b) s (fun t =>
      WritesScalar d (BitVec.ofNat 64 x.toNat) s.core t.core ∧ Completed s t ∧
      OnlyScalarsAnd s t { s.core.sync with cnt := none } s.core.task ∧ t = { s with core := t.core } ∧ KeepsMemory s t))

/-- R350, R351, R354, R355, R357, R369: spawn, tjoin and tstat; the overflow queue lies in the tile record. That the
queue closes up behind a task taken from its middle is the model's reading (log 46). -/
def Obligations.TaskInstructions : Prop :=
  ∀ (d a b : BitVec 5) (s : State),
    let pool (u : State) (i : Nat) : Task := vget u.tile.pool i {}
    let handle : Word := BitVec.ofNat 64 (s.tile.jt.toNat * 2 ^ 35 + s.coreNo.toNat * 2 ^ 32 + (s.tile.tseq + 1).toNat)
    let e : Task :=
      { pc := s.reg a, arg := s.reg b, handle := handle, state := .queued, detached := d == 0, team := s.team }
    let base := s.tile.record.toNat
    let spawned (t : State) : Prop := WritesScalar d handle s.core t.core ∧ Completed s t ∧
      OnlyScalarsAnd s t s.core.sync s.core.task ∧ t.tile.tseq = s.tile.tseq + 1 ∧
      t = { s with
        core := t.core,
        tile := { s.tile with pool := t.tile.pool, overflow := t.tile.overflow, tseq := t.tile.tseq },
        wafer := { s.wafer with hbm := t.wafer.hbm } }
    let recorded (t : State) : Prop :=
      t.wafer.hbm.readNat (base + 0x50) 8 = (t.tile.overflowHead + t.tile.overflow.length) % 2 ^ 64 ∧
      (∀ j x, t.tile.overflow[j]? = some x → ∀ k < 64,
        t.wafer.hbm.read (base + 0x2000 + 64 * ((t.tile.overflowHead + j) % 4096) + k) = (taskBytes x).getD k 0) ∧
      ∀ k, (k < base + 0x48 ∨ base + 0x58 ≤ k) → (k < base + 0x2000 ∨ base + 0x42000 ≤ k) →
        t.wafer.hbm.read k = s.wafer.hbm.read k
    let h := s.reg a
    let own : Prop := h.toNat / 2 ^ 35 = s.tile.jt.toNat
    let mine (x : Task) : Prop := x.detached = false ∧ x.handle = h ∧ x.team = s.team
    let isTask (i : Nat) : Prop := i < 64 ∧ (pool s i).state ≠ .free ∧ mine (pool s i) ∧
      ∀ k < i, ¬((pool s k).state ≠ .free ∧ mine (pool s k))
    let unknown : Prop := (∀ i < 64, (pool s i).state ≠ .free → ¬mine (pool s i)) ∧ ∀ x ∈ s.tile.overflow, ¬mine x
    let live : Prop := s.tile.replay = none ∧ s.detRoom = true
    ((s.reg a).toNat % 2 = 1 → exec (.spawn d a b) s = .next (takeTrap 3 (s.reg a) s)) ∧
    (∀ i < 56, (s.reg a).toNat % 2 = 0 → (pool s i).state = .free → (∀ k < i, (pool s k).state ≠ .free) →
      Runs (.spawn d a b) s (fun t => spawned t ∧ t.tile.overflow = s.tile.overflow ∧ KeepsMemory s t ∧
        ∀ k < 64, pool t k = if k = i then e else pool s k)) ∧
    ((s.reg a).toNat % 2 = 0 → (∀ k < 56, (pool s k).state ≠ .free) →
      (s.tile.overflow.length < 4096 → Runs (.spawn d a b) s (fun t => spawned t ∧
        t.tile.overflow = s.tile.overflow ++ [e] ∧ t.tile.pool = s.tile.pool ∧ recorded t)) ∧
      (4096 ≤ s.tile.overflow.length → Runs (.spawn d a b) s (· = s))) ∧
    (let gives (v : Word) (t : State) : Prop := WritesScalar d v s.core t.core ∧ Completed s t ∧ OnlyReadsHere s t
     live →
      (¬own → Runs (.tstat d a) s (gives 5)) ∧ (own → unknown → Runs (.tstat d a) s (gives 4)) ∧
      (own → (∀ i < 64, (pool s i).state ≠ .free → ¬mine (pool s i)) → (∃ x ∈ s.tile.overflow, mine x) →
        Runs (.tstat d a) s (gives 1)) ∧
      (∀ i, own → isTask i →
        ((pool s i).state = .queued → Runs (.tstat d a) s (gives 0)) ∧
        ((pool s i).state = .running → Runs (.tstat d a) s (gives 2)) ∧
        ((pool s i).state = .complete →
          Runs (.tstat d a) s (gives (BitVec.ofNat 64 (3 + (pool s i).code.toNat * 2 ^ 16)))))) ∧
    (¬own → Runs (.tjoin d a) s (Assigns d 3 s)) ∧
    (s.core.task.joinWaits = false → own →
      (unknown → Runs (.tjoin d a) s (Assigns d 1 s)) ∧
      (∀ i, isTask i → (∀ x ∈ s.tile.overflow, ¬mine x) → live →
        ((pool s i).state = .complete → Runs (.tjoin d a) s (fun t =>
          WritesScalar d (BitVec.ofNat 64 ((pool s i).code.toNat * 2 ^ 16)) s.core t.core ∧ Completed s t ∧
          KeepsMemory s t ∧ t.tile.overflow = s.tile.overflow ∧ ∀ k < 64, pool t k = if k = i then {} else pool s k)) ∧
        ((pool s i).state = .running → Runs (.tjoin d a) s (fun t => Waits s t ∧ t.core.task.joinWaits = true ∧
          t.tile.pool = s.tile.pool)) ∧
        ((pool s i).state = .queued → s.core.task.inline.length < 8 → s.core.inTrap = false → s.core.win.res ≠ 15 →
          Runs (.tjoin d a) s (fun t =>
            t.core.pc = (pool s i).pc ∧ t.core.win.cwp = s.core.win.cwp + 1 ∧ t.core.win.res = s.core.win.res + 1 ∧
            t.core.win.depth = s.core.win.depth + 1 ∧ t.reg 8 = (pool s i).arg ∧ t.reg 9 = (pool s i).handle ∧
            t.reg 15 = 0 ∧ t.core.task.inTask = true ∧
            (∃ r, t.core.task.inline = r :: s.core.task.inline ∧ r.back = s.core.pc + 4 ∧ r.d = d ∧
              r.handle = (pool s i).handle ∧ r.depth = s.core.win.depth + 1) ∧
            (∀ k < 64, pool t k =
              if k = i then { pool s i with state := .running, core := s.coreNo } else pool s k) ∧ KeepsMemory s t))) ∧
      (∀ i pre x post, (∀ k < 64, (pool s k).state ≠ .free → ¬mine (pool s k)) → s.tile.overflow = pre ++ x :: post →
        (∀ y ∈ pre, ¬mine y) → mine x → x.state = .queued → i < 64 → (pool s i).state = .free →
        (∀ k < i, (pool s k).state ≠ .free) → s.tile.overflow.length ≤ 4096 → live →
        (s.core.task.inline.length = 8 → Runs (.tjoin d a) s (fun t =>
          t.core.pc = s.core.pc ∧ t.core.retired = s.core.retired ∧ t.core.regs = s.core.regs ∧
          t.core.task.joinWaits = true ∧ t.tile.overflow = pre ++ post ∧ recorded t ∧
          ∀ k < 64, pool t k = if k = i then x else pool s k)) ∧
        (s.core.task.inline.length < 8 → s.core.inTrap = false → s.core.win.res ≠ 15 → Runs (.tjoin d a) s (fun t =>
          t.core.pc = x.pc ∧ t.core.win.depth = s.core.win.depth + 1 ∧ t.reg 8 = x.arg ∧ t.reg 9 = x.handle ∧
          t.tile.overflow = pre ++ post ∧ recorded t ∧
          ∀ k < 64, pool t k = if k = i then { x with state := .running, core := s.coreNo } else pool s k))))

/-- R379, R387, R388, R393 to R395: scalar words of a kernel, and vector words, lane by lane, with their costs. -/
def Obligations.KernelArithmeticWords : Prop :=
  (∀ (d a b : BitVec 4) (i : BitVec 13) (k : BitVec 16) (s : State),
    let imm : W32 := BitVec.ofInt 32 i.toInt
    let shl (x v : W32) : W32 := BitVec.ofNat 32 (x.toNat * 2 ^ (v.toNat % 32))
    let shr (x v : W32) : W32 := BitVec.ofNat 32 (x.toNat / 2 ^ (v.toNat % 32))
    BoxWord .sbNop 1 (fun r q => BoxKeepsScalars r q ∧ BoxKeepsVectors r q ∧ BoxKeepsPacket r q ∧ BoxKeepsOutputs r q) s ∧
    (∀ F ∈ [(Instr.sbAdd d a b, Instr.sbAddImm d a i, fun x y : W32 => x + y), (.sbSub d a b, .sbSubImm d a i, fun x y => x - y),
        (.sbAnd d a b, .sbAndImm d a i, fun x y => x &&& y), (.sbOr d a b, .sbOrImm d a i, fun x y => x ||| y),
        (.sbXor d a b, .sbXorImm d a i, fun x y => x ^^^ y), (.sbShl d a b, .sbShlImm d a i, shl),
        (.sbShr d a b, .sbShrImm d a i, shr)],
      BoxAssigns F.1 1 d (fun r => F.2.2 (r.b a) (r.b b)) s ∧ BoxAssigns F.2.1 1 d (fun r => F.2.2 (r.b a) imm) s) ∧
    BoxAssigns (.sbLi d k) 1 d (fun _ => BitVec.ofInt 32 k.toInt) s ∧
    BoxAssigns (.sbLih d k) 1 d (fun r => BitVec.ofNat 32 (k.toNat * 2 ^ 16 + (r.b d).toNat % 2 ^ 16)) s) ∧
  (∀ (d a b : BitVec 3) (e : BitVec 4) (h : BitVec 1) (c : BitVec 2) (s : State),
    let lane (v : V256) (k : Nat) : Nat := v.toNat / 2 ^ (32 * k) % 2 ^ 32
    let word (n : Nat) : Int := Int.bmod n (2 ^ 32)
    (∀ F ∈ [(Instr.sbVaddi d a b, 1, fun x y : Nat => x + y), (.sbVaddf d a b, 2, fun x y => (fpAdd .f32 .rne x y).1),
        (.sbVmulf d a b, 2, fun x y => (fpMul .f32 .rne x y).1),
        (.sbVmaxf d a b, 2, fun x y => (fpExtreme .f32 true x y).1),
        (.sbVminf d a b, 2, fun x y => (fpExtreme .f32 false x y).1),
        (.sbVmaxi d a b, 1, fun x y => if word x < word y then y else x),
        (.sbVand d a b, 1, fun x y => x &&& y), (.sbVor d a b, 1, fun x y => x ||| y),
        (.sbVxor d a b, 1, fun x y => x ^^^ y)],
      BoxLanes F.1 F.2.1 d (fun r k => F.2.2 (lane (r.y a) k) (lane (r.y b) k)) s) ∧
    BoxLanes (.sbVself d a b e) 1 d (fun r k => if (r.b e).getLsbD k then lane (r.y a) k else lane (r.y b) k) s ∧
    BoxLanes (.sbVcvtbfB2f d a h) 2 d
      (fun r k => (floatToFloat .bf16 .f32 .rne ((r.y a).toNat / 2 ^ (16 * (8 * h.toNat + k)) % 2 ^ 16)).1) s ∧
    BoxWord (.sbVcvtbfF2b d a h) 2 (fun r q =>
      (∀ k < 16, (q.y d).toNat / 2 ^ (16 * k) % 2 ^ 16 =
        if k / 8 = h.toNat then (floatToFloat .f32 .bf16 .rne (lane (r.y a) (k % 8))).1 % 2 ^ 16
        else (r.y d).toNat / 2 ^ (16 * k) % 2 ^ 16) ∧
      (∀ j, j ≠ d → q.y j = r.y j) ∧ BoxKeepsScalars r q ∧ BoxKeepsPacket r q ∧ BoxKeepsOutputs r q) s ∧
    BoxAssigns (.sbVsum e a) 3 e (fun r =>
      let x (k : Nat) : Nat := lane (r.y a) k
      let add (u v : Nat) : Nat := (fpAdd .f32 .rne u v).1
      BitVec.ofNat 32 (add (add (add (x 0) (x 1)) (add (x 2) (x 3))) (add (add (x 4) (x 5)) (add (x 6) (x 7))))) s ∧
    (∀ m : Compare, m = (if c = 0 then .eq else if c = 1 then .lt else if c = 2 then .le else .un) →
      BoxWord (.sbVcmpf e a b c) 2 (fun r q =>
        (∃ v : W32, BoxScalar e v r q ∧ ∀ k < 32, v.getLsbD k =
          (decide (k < 8) && (fpCompare .f32 m (lane (r.y a) k) (lane (r.y b) k)).1)) ∧
        BoxKeepsVectors r q ∧ BoxKeepsPacket r q ∧ BoxKeepsOutputs r q) s))

/-- R381, R383, R391, R392, R396: words of a kernel that reach the state, the payload, the header, the clock and the emit
list. -/
def Obligations.KernelMemoryWords : Prop :=
  ∀ (d a n : BitVec 4) (v : BitVec 3) (k : BitVec 2) (i : BitVec 13) (s : State) (r : BoxRun),
    s.tile.box.run = some r →
    let b := s.tile.box
    let off := (r.b a + BitVec.ofInt 32 i.toInt).toNat
    let at_ := b.windowBase r.flow + off
    let seen (z : Nat) : Nat := (r.buffer.foldl (fun m c => m.write c.1 c.2) b.mem).readNat at_ z
    let fits (z : Nat) : Prop := off % z = 0 ∧ off + z ≤ b.windowSize r.flow
    let step (cost : Nat) (post : BoxRun → Prop) (t : State) : Prop := ∃ q, BoxStep cost s t r q ∧ post q
    let kept (q : BoxRun) : Prop := BoxKeepsPacket r q ∧ q.emits = r.emits
    let budget (cost : Nat) : Prop := r.count + cost ≤ b.budget r.flow
    let beats := ((r.pkt.msg.header).map Header.beats).getD 1
    (budget 1 →
      (fits 4 → Runs (.sbLdst d a i) s (step 1 (fun q => BoxScalar d (BitVec.ofNat 32 (seen 4)) r q ∧
        BoxKeepsVectors r q ∧ kept q ∧ q.buffer = r.buffer))) ∧
      (¬fits 4 → exec (.sbLdst d a i) s = .next (kernelTrap { r with count := r.count + 1 } 2 off s)) ∧
      (b.stateful r.flow = true → fits 4 → Runs (.sbStst d a i) s (step 1 (fun q =>
        q.buffer = r.buffer ++ cellsAt at_ (natBytes (r.b d).toNat 4) ∧ BoxKeepsScalars r q ∧ BoxKeepsVectors r q ∧
        kept q))) ∧
      (b.stateful r.flow = true → ¬fits 4 →
        exec (.sbStst d a i) s = .next (kernelTrap { r with count := r.count + 1 } 2 off s)) ∧
      Runs (.sbVrdp v k) s (step 1 (fun q =>
        BoxVector v (if k.toNat < beats then vget r.beats k.toNat 0 else 0) r q ∧ BoxKeepsScalars r q ∧ kept q ∧
        q.buffer = r.buffer)) ∧
      Runs (.sbVwrp v k) s (step 1 (fun q =>
        (∀ j < 4, vget q.beats j 0 = if j = k.toNat ∧ j < beats then r.y v else vget r.beats j 0) ∧
        BoxKeepsScalars r q ∧ BoxKeepsVectors r q ∧ BoxKeepsOutputs r q)) ∧
      (∀ h, n.toNat ≤ 13 → r.pkt.msg.header = some h → Runs (.sbRdh d n) s (step 1 (fun q =>
        BoxScalar d (BitVec.ofNat 32 (([h.cls, h.srct.toNat, h.srcc.toNat, h.dcore.toNat, h.dq.toNat, h.addr, h.beats,
          h.bytes, h.seq.toNat, h.op, r.flow.toNat,
          (memberIndex (b.members r.flow) s.tile.width h.srct.toNat).getD 0xFFFFFFFF, h.plane,
          if h.replay then 1 else 0]).getD n.toNat 0)) r q ∧ BoxKeepsVectors r q ∧ kept q ∧ q.buffer = r.buffer))) ∧
      (s.tile.replay = none → s.detRoom = true → Runs (.sbStamp d) s (fun t => ∃ q,
        BoxScalar d (BitVec.ofNat 32 s.wafer.clock) r q ∧ BoxKeepsVectors r q ∧ kept q ∧ q.buffer = r.buffer ∧
        q.count = r.count + 1 ∧ t.tile.box = { b with run := some q } ∧ t.core = s.core ∧
        OnlyReadsHere { s with tile := { s.tile with box := t.tile.box } } t))) ∧
    (budget 2 →
      (fits 32 → Runs (.sbVldst v a i) s (step 2 (fun q => BoxVector v (BitVec.ofNat 256 (seen 32)) r q ∧
        BoxKeepsScalars r q ∧ kept q ∧ q.buffer = r.buffer))) ∧
      (b.stateful r.flow = true → fits 32 → Runs (.sbVstst v a i) s (step 2 (fun q =>
        q.buffer = r.buffer ++ cellsAt at_ (natBytes (r.y v).toNat 32) ∧ BoxKeepsScalars r q ∧ BoxKeepsVectors r q ∧
        kept q))) ∧
      ((r.b a).toNat < b.altn r.flow →
        findPoint s.junction.points (s.tile.logical (b.alt r.flow (r.b a).toNat)).toNat ≠ none →
        Runs (.sbEmit v a) s (step 2 (fun q =>
        q.emits = r.emits ++ [((r.b a).toNat, r.y v)] ∧ BoxKeepsScalars r q ∧ BoxKeepsVectors r q ∧
        BoxKeepsPacket r q ∧ q.buffer = r.buffer))) ∧
      (b.altn r.flow ≤ (r.b a).toNat →
        exec (.sbEmit v a) s = .next (kernelTrap { r with count := r.count + 2 } 3 (r.b a).toNat s))) ∧
    (13 < n.toNat → ∃ w : Nat, encode (.sbRdh d n) = some (32, w) ∧ exec (.sbRdh d n) s = .next (kernelTrap r 4 w s)) ∧
    (b.stateful r.flow = false → ∀ j ∈ [Instr.sbStst d a i, .sbVstst v a i],
      ∃ w : Nat, encode j = some (32, w) ∧ exec j s = .next (kernelTrap r 4 w s))

/-- R379 to R381, R386, R389, R390, R398, R399: branches and rpt, the words that end a run, and a kernel trap, which drops
the writes and messages of the run, counts, and leaves a trap record. -/
def Obligations.KernelControlWords : Prop :=
  (∀ (a : BitVec 4) (o : BitVec 11) (n : BitVec 3) (c : BitVec 4) (x : BitVec 8) (s : State) (r : BoxRun),
    s.tile.box.run = some r →
    let b := s.tile.box
    let stop := b.entry r.flow + b.len r.flow
    let moved (cost pc : Nat) (loop : Option (Nat × Nat × Nat)) (t : State) : Prop :=
      t = { s with tile := { s.tile with box := { b with
        run := some { r with count := r.count + cost, pc := pc, loop := loop } } } }
    let illegal (i : Instr) : Prop :=
      ∃ w : Nat, encode i = some (32, w) ∧ exec i s = .next (kernelTrap r 4 w s)
    let ended (t : State) : Prop :=
      t.tile.box.run = none ∧ t.tile.box.queue = b.queue ∧ t.tile.box.recs = b.recs ∧ t.tile.box.table = b.table ∧
      (∀ j, t.tile.box.mem.read j = (r.buffer.foldl (fun m e => m.write e.1 e.2) b.mem).read j) ∧
      t.tile.box.seq = b.seq + BitVec.ofNat 32 r.emits.length ∧ t.tile.mem = s.tile.mem ∧ t.core = s.core
    (∀ F ∈ [(Instr.sbBfz a o, decide (r.b a = 0)), (.sbBfnz a o, decide (r.b a ≠ 0))],
      (r.loop = none → r.pc + 1 + o.toNat < stop →
        (F.2 = true → r.count + 2 ≤ b.budget r.flow → Runs F.1 s (moved 2 (r.pc + 1 + o.toNat) none)) ∧
        (F.2 = false → r.count + 1 ≤ b.budget r.flow → Runs F.1 s (moved 1 (r.pc + 1) none))) ∧
      (r.loop ≠ none ∨ stop ≤ r.pc + 1 + o.toNat → illegal F.1)) ∧
    (r.loop = none → r.pc + n.toNat + 1 < stop → r.count + 1 ≤ b.budget r.flow →
      Runs (.sbRpt n c) s (moved 1 (r.pc + 1) (some (r.pc + 1, n.toNat + 1, c.toNat + 1)))) ∧
    (r.loop ≠ none ∨ stop ≤ r.pc + n.toNat + 1 → illegal (.sbRpt n c)) ∧
    (r.loop ≠ none → ∀ i ∈ [Instr.sbDone, .sbDrop, .sbReroute a, .sbTrap a x], illegal i) ∧
    (r.loop = none → r.count + 1 ≤ b.budget r.flow →
      let u : BoxRun := { r with count := r.count + 1 }
      (s.tile.replay = none → Runs .sbDone s (fun t => ended t ∧ ∃ p ∈ t.wafer.net, p.processed = true ∧
        p.site = s.site ∧ p.boxed = some (BitVec.ofNat 32 s.tile.intv.toNat) ∧
        p.msg = (r.pkt.msg.withBeats r.beats).mustAccept (BitVec.ofNat 32 s.tile.intv.toNat) ∧ p.id = r.pkt.id)) ∧
      (s.tile.replay = none → Runs .sbDrop s (fun t => ended t ∧
        (∀ y, r.pkt.msg = .message y → y.counted = true →
          ∃ p ∈ t.wafer.net, p.msg = .ack { tile := y.tile, core := y.core } .n none false none))) ∧
      (s.tile.replay = none → s.tile.flagged = false → (r.b a).toNat < b.altn r.flow →
        findPoint s.junction.points (s.tile.logical (b.alt r.flow (r.b a).toNat)).toNat ≠ none → Runs (.sbReroute a) s (fun t => ended t ∧
        ∃ p ∈ t.wafer.net, p.processed = true ∧ p.line = r.pkt.line ∧
          p.dest = .tile (s.tile.logical (b.alt r.flow (r.b a).toNat)) ∧
          ∃ n, p.msg = (r.pkt.msg.withBeats r.beats).reroute (s.tile.logical (b.alt r.flow (r.b a).toNat)) n)) ∧
      (b.altn r.flow ≤ (r.b a).toNat → exec (.sbReroute a) s = .next (kernelTrap u 3 (r.b a).toNat s)) ∧
      Runs (.sbTrap a x) s (· = kernelTrap u 5 (x.toNat * 2 ^ 32 + (r.b a).toNat) s))) ∧
  (∀ (r : BoxRun) (cause operand : Nat) (s : State),
    let t := kernelTrap r cause operand s
    let b := s.tile.box
    let old := b.word r.flow 0x3C
    let new := t.tile.box.word r.flow 0x3C
    t.tile.box.run = none ∧ t.tile.box.mem = b.mem ∧ t.tile.box.queue = b.queue ∧ t.tile.box.seq = b.seq ∧
    field new 0 16 = min (field old 0 16 + 1) 0xFFFF ∧
    (b.recs.length < 4 → field new 16 16 = field old 16 16 ∧
      ∃ d, t.tile.box.recs = b.recs ++ [d] ∧ d.1 = b.word r.flow 0x28 ∧
        (cause < 16 → r.pc < 2 ^ 12 → field d.2 56 8 = 3 ∧ field d.2 52 4 = cause ∧ field d.2 46 6 = r.flow.toNat ∧
          field d.2 34 12 = s.tile.jt.toNat ∧ field d.2 22 12 = s.tile.tile.toNat ∧ field d.2 10 12 = r.pc) ∧
        field d.2 128 64 = operand % 2 ^ 64 ∧ field d.2 192 64 = s.wafer.clock % 2 ^ 64) ∧
    (4 ≤ b.recs.length → field new 16 16 = min (field old 16 16 + 1) 0xFFFF ∧ t.tile.box.recs = b.recs) ∧
    (b.dropPolicy r.flow = false →
      ∃ p ∈ t.wafer.net, p.id = r.pkt.id ∧ p.processed = true ∧ p.site = s.site ∧ p.msg.beats = r.pkt.msg.beats) ∧
    t.tile.mem = s.tile.mem ∧ t.core = s.core)

/-- R149, R152, R157, R160, R175, R184, R335, R405: posted and blocking accesses of other tiles that change or watch
the scratchpad or the state window. The line of the answers to full/empty requests and to waita is the model's choice
(log 77). -/
def Obligations.WritesArriveAtTiles : Prop :=
  ∀ (id : Nat) (p : Packet) (s t : State), Taken id p s t →
    let ack (r : Req) (failed : Option (Nat × Word)) (u : State) : Prop :=
      Sent t.site .relief (.tile r.src.tile) (.ack r.src r.cls failed false r.line) t u
    let reply (line : Line) (r : Req) (b : List Byte) (k : List AccessId) (u : State) : Prop :=
      Sent t.site line (.tile r.src.tile) (.reply r.src r.fetch (.data b k) .reply) t u
    (∀ r l cells, p.msg = .store r (.spad l) cells → FreshWrite r t →
      (t.requestRaces r (cellLines cells) = false → Runs (.remoteStoreArrival id) s (fun u =>
        StoresCells cells t u ∧ Marked r u ∧ ack r none u ∧ OnlyArrival t u ∧ Gone id t u ∧
        u.tile.full = t.tile.full)) ∧
      (t.requestRaces r (cellLines cells) = true → Runs (.remoteStoreArrival id) s (fun u =>
        KeepsMemory t u ∧ Marked r u ∧ ack r (some (9, r.va)) u ∧ OnlyArrival t u ∧ Gone id t u))) ∧
    (∀ r l a w, p.msg = .stf r l a w → FreshWrite r t → NoWaiter a t →
      Runs (.remoteStoreArrival id) s (fun u => StoresCells (cellsAt a (natBytes w.toNat 4)) t u ∧ SetsTag a true t u ∧
        Marked r u ∧ ack r none u ∧ OnlyArrival t u ∧ Gone id t u)) ∧
    (∀ r l cells flag counter, p.msg = .put r l cells flag counter → FreshWrite r t →
      (t.requestRaces r (cellLines cells) = false → NoWaiter flag t → Runs (.putArrival id) s (fun u =>
        Marked r u ∧ ack r none u ∧ OnlyArrival t u ∧ Gone id t u ∧
        (counter = false → StoresCells cells t u ∧ SetsTag flag true t u) ∧
        (counter = true → ∃ m, StoresCells cells t m ∧
          StoresCells (cellsAt flag (natBytes (m.tile.mem.readNat flag 4 + 1) 4)) m u ∧ u.tile.full = t.tile.full))) ∧
      (t.requestRaces r (cellLines cells) = true → Runs (.putArrival id) s (fun u =>
        KeepsMemory t u ∧ u.tile.full = t.tile.full ∧ ack r (some (9, r.va)) u ∧ OnlyArrival t u ∧ Gone id t u))) ∧
    (∀ r l a data kind, p.msg = .fullEmpty r kind l a data → FreshWrite r t →
      (NoWaiter a t → TagAllows kind a t → ∀ f ∈ tagForms a data t, f.1 = kind →
        Runs (.fullEmptyRequestArrival id) s (fun u => SetsTag a f.2.2 t u ∧
          reply .relief r (natBytes f.2.1 8) (t.tile.knownAt a) u ∧
          (kind = .ste → StoresCells (cellsAt a (natBytes data.toNat 4)) t u) ∧ (kind ≠ .ste → KeepsMemory t u) ∧
          (kind.changes = true → Marked r u ∧ ∃ m, findMark u.tile.marks r.src = some m ∧
            m.result = some (r.seq, .data (natBytes f.2.1 8) (t.tile.knownAt a))) ∧
          OnlyArrival t u ∧ Gone id t u)) ∧
      (¬TagAllows kind a t → t.tile.waitingAt (a / 256 % 8) < 16 → Runs (.fullEmptyRequestArrival id) s (fun u =>
        (∃ x, u.tile.waiters = t.tile.waiters ++ [x] ∧ x.a = a ∧ x.kind = kind ∧ x.data = data ∧ x.req = r) ∧
        KeepsMemory t u ∧ u.tile.full = t.tile.full ∧ OnlyArrival t u ∧ Gone id t u)) ∧
      (¬TagAllows kind a t → 16 ≤ t.tile.waitingAt (a / 256 % 8) → Runs (.fullEmptyRequestArrival id) s (fun u =>
        Sent t.site .relief (.tile r.src.tile) (.fullEmptyBack r kind l a data) t u ∧ KeepsMemory t u ∧
        u.tile = t.tile ∧ Gone id t u))) ∧
    (∀ r l a data kind, p.msg = .fullEmptyBack r kind l a data →
      (AwaitsAnswer r.src.core r.fetch t → Runs (.fullEmptyResend id) s (fun u =>
        Sent t.site .relief (.tile l) (.fullEmpty r kind l a data) t u ∧ KeepsMemory t u ∧ u.tile = t.tile ∧
        u.core = t.core ∧ u.others = t.others ∧ Gone id t u)) ∧
      (¬AwaitsAnswer r.src.core r.fetch t → Runs (.fullEmptyResend id) s (fun u => Gone id t u ∧ u.tile = t.tile ∧
        u.core = t.core ∧ u.others = t.others ∧ KeepsMemory t u))) ∧
    (∀ r l a data, p.msg = .waita r l a data →
      let now (v : Nat) : Prop := Runs (.waitaRequestArrival id) s (fun u =>
        reply .relief r (natBytes v 8) (t.tile.counted a 4) u ∧ u.tile.monitors = t.tile.monitors ∧ KeepsMemory t u ∧
        OnlyArrival t u ∧ Gone id t u)
      (BitVec.ofNat 32 (t.tile.mem.readNat a 4) ≠ data → now 0) ∧
      (BitVec.ofNat 32 (t.tile.mem.readNat a 4) = data → 16 ≤ t.tile.monitors.length → now 2) ∧
      (BitVec.ofNat 32 (t.tile.mem.readNat a 4) = data → t.tile.monitors.length < 16 →
        Runs (.waitaRequestArrival id) s (fun u =>
          (∃ x, u.tile.monitors = t.tile.monitors ++ [x] ∧ x.a = a ∧ x.value = data ∧ x.req = r) ∧ KeepsMemory t u ∧
          OnlyArrival t u ∧ Gone id t u))) ∧
    (∀ r l cells, p.msg = .store r (.window l) cells → FreshWrite r t → t.tile.box.run = none →
      Runs (.stateWindowAccess id) s (fun u =>
        HoldsCells (cells.filter (fun c => decide (c.1 < 0x8000))) t.tile.box.mem u.tile.box.mem ∧ KeepsMemory t u ∧
        Marked r u ∧ ack r none u ∧ u.tile.box = { t.tile.box with mem := u.tile.box.mem } ∧ u.core = t.core ∧
        Gone id t u)) ∧
    (∀ r l a n, p.msg = .window r l a n none → t.tile.box.run = none →
      Runs (.stateWindowAccess id) s (fun u => reply .main r (t.tile.box.mem.readBytes a n) [] u ∧ u.tile = t.tile ∧
        u.core = t.core ∧ u.others = t.others ∧ KeepsMemory t u ∧ Gone id t u))

/-- R16, R24, R26, R146, R148, R149, R163, R165, R167, R175, R266, R299, R308, R310, R428, R437, R439, R469: packets at
junctions, reads that reach tiles and rim units, writes behind the rim, device registers, and chunks of copy jobs. A read
that cannot be delivered poisons its page, and 32 bytes as the size of what fails is the model's choice (log 79). -/
def Obligations.PacketsArrive : Prop :=
  (∀ (id : Nat) (p : Packet) (s : State), s.packet id = some p → p.arrived = none →
    (s.heldBack p = true → Runs (.junctionPacketArrival id) s (· = s)) ∧
    (s.heldBack p = false → p.gate ≤ (s.tileAt p.origin).confirmed →
      (s.logWaits p = true → Runs (.junctionPacketArrival id) s (fun u => u.packet id = some p)) ∧
      (s.logWaits p = false →
      let comes : Prop := Runs (.junctionPacketArrival id) s (fun u =>
        u.packet id = some { p with arrived := some s.wafer.arrivals } ∧
        u = { s with wafer := { s.wafer with net := u.wafer.net, arrivals := s.wafer.arrivals + 1 } })
      let moves (x : SiteId) : Prop := Runs (.junctionPacketArrival id) s (fun u =>
        u.packet id = some { p with site := x } ∧ u = { s with wafer := { s.wafer with net := u.wafer.net } })
      let stays : Prop := Runs (.junctionPacketArrival id) s (· = s)
      (∀ l, p.dest = .tile l →
        (findPoint (s.junctionAt p.site).points l.toNat = none → stays) ∧
        (∀ x, findPoint (s.junctionAt p.site).points l.toNat = some x → x ≠ p.site → moves x) ∧
        (findPoint (s.junctionAt p.site).points l.toNat = some p.site →
          ((s.junctionAt p.site).passThrough = true ∨ s.overtakes p = true → stays) ∧
          ((s.junctionAt p.site).passThrough = false → s.overtakes p = false → comes))) ∧
      (∀ x, p.dest = .site x → (s.overtakes p = true → stays) ∧ (s.overtakes p = false → comes)) ∧
      (p.dest.rim = true →
        (s.resolve p.dest = none → stays) ∧ (∀ x, s.resolve p.dest = some x → x ≠ p.site → moves x) ∧
        (s.resolve p.dest = some p.site → (s.overtakes p = true → stays) ∧ (s.overtakes p = false → comes)))))) ∧
  (∀ (id : Nat) (p : Packet) (s t : State), Taken id p s t →
    let sent (line : Line) (r : Req) (m : Msg) (u : State) : Prop := Sent t.site line (.tile r.src.tile) m t u
    let read (u : State) : Prop := KeepsMemory t u ∧ OnlyArrival t u ∧ Gone id t u
    let reads (r : Req) (x : List Nat) (m : Reply → Msg) : Prop :=
      let ends (a : Reply) : Prop := Runs (.remoteLoadRequestArrival id) s (fun u => sent .main r (m a) u ∧ read u)
      (t.requestRaces r (x.map (· / 256)).eraseDups = false →
        ends (.data (x.map t.tile.mem.read) (x.flatMap (fun a => t.tile.counted a 1)).eraseDups)) ∧
      (t.requestRaces r (x.map (· / 256)).eraseDups = true → ends .race)
    (∀ r l x, p.msg = .load r (.spad l) x → reads r x (fun a => .reply r.src r.fetch a .reply)) ∧
    (∀ r card l x, p.msg = .rowLoad r card (.spad l) x → reads r x (fun a => .rowReply r.src card r.fetch a)) ∧
    (∀ r card l base n, p.msg = .chunkRead r card (.spad l) base n →
      reads r (span base n) (fun a => .chunkData r.src card r.fetch a)) ∧
    (∀ r l c, p.msg = .chunk r (.spad l) c → FreshWrite r t →
      let ends := if crc32c 0 c.bytes = c.check then none else some (c.check, crc32c 0 c.bytes)
      let cells := partCells c.bytes c.parts
      (t.requestRaces r (cellLines cells) = false → Runs (.copyChunkArrival id) s (fun u => StoresCells cells t u ∧
        Marked r u ∧ sent .relief r (.chunkAck r.src c.card r.fetch ends false r.cls) u ∧
        u.tile.full = t.tile.full ∧ OnlyArrival t u ∧ Gone id t u)) ∧
      (t.requestRaces r (cellLines cells) = true → Runs (.copyChunkArrival id) s (fun u =>
        sent .relief r (.chunkAck r.src c.card r.fetch none true r.cls) u ∧ read u))) ∧
    (∀ r card l a, p.msg = .setFlag r card l a → FreshWrite r t → NoWaiter a t →
      Runs (.copyChunkArrival id) s (fun u => SetsTag a true t u ∧ Marked r u ∧
        sent .relief r (.chunkAck r.src card r.fetch none false r.cls) u ∧ read u)) ∧
    (∀ r card l cells, p.msg = .rowStore r card (.spad l) cells → FreshWrite r t →
      (t.requestRaces r (cellLines cells) = false → Runs (.remoteStoreArrival id) s (fun u => StoresCells cells t u ∧
        Marked r u ∧ sent .relief r (.rowAck r.src card r.fetch r.cls false) u ∧ OnlyArrival t u ∧ Gone id t u)) ∧
      (t.requestRaces r (cellLines cells) = true → Runs (.remoteStoreArrival id) s (fun u =>
        sent .relief r (.rowAck r.src card r.fetch r.cls true) u ∧ read u))) ∧
    (∀ r a, p.msg = .device r a none → Runs (.remoteLoadRequestArrival id) s (fun u =>
      sent .main r (.reply r.src r.fetch (.data (natBytes (t.deviceRead a).toNat 8) []) .reply) u ∧ u.tile = t.tile ∧
      u.junction = t.junction ∧ read u)) ∧
    (∀ r a v, p.msg = .device r a (some v) → Runs (.remoteStoreArrival id) s (fun u =>
      sent .relief r (.reply r.src r.fetch (.data [] []) .reply) u ∧ u.tile = (t.deviceWrite a v).tile ∧
      u.junction = (t.deviceWrite a v).junction ∧ (∀ c, u.coreAt c = (t.deviceWrite a v).coreAt c) ∧ KeepsMemory t u ∧
      Gone id t u))) ∧
  (∀ (id : Nat) (p : Packet) (s : State), TakenAtRim id p s →
    let sent (line : Line) (r : Req) (m : Msg) (u : State) : Prop := Sent p.site line (.tile r.src.tile) m s u
    let read (u : State) : Prop := KeepsMemory s u ∧ OnlyAtRim s u ∧ Gone id s u
    let reads (r : Req) (sp : Space) (x : List Nat) (cause : Nat) (m : Reply → Msg) : Prop :=
      let ends (a : Reply) : Prop := Runs (.remoteLoadRequestArrival id) s (fun u => sent .main r (m a) u ∧ read u)
      (s.undelivered sp x r.job r.src r.va = none → ends (.data (s.wafer.cellsOf sp x) [])) ∧
      (s.undelivered sp x r.job r.src r.va ≠ none → ends (.fault cause))
    let writes (r : Req) (sp : Space) (cells : List Host.Cell) (e : Instr) (m : Msg) : Prop :=
      sp.cached = true → FreshAtRim p r s → Runs e s (fun u => StoresBehind sp cells s u ∧ MarkedAtRim p r u ∧
        sent .relief r m u ∧ OnlyAtRim s u ∧ Gone id s u)
    (∀ r sp x, p.msg = .load r sp x → sp.cached = true →
      reads r sp x 4 (fun a => .reply r.src r.fetch a .reply)) ∧
    (∀ r sp base, p.msg = .line r sp base →
      (s.undelivered sp (span base 256) r.job r.src r.va = none → Runs (.remoteLoadRequestArrival id) s (fun u =>
        sent .main r (.fill r.src r.fetch sp base (bytesLine (s.wafer.bytesAt sp base 256))) u ∧ read u)) ∧
      (s.undelivered sp (span base 256) r.job r.src r.va ≠ none → Runs (.remoteLoadRequestArrival id) s (fun u =>
        sent .main r (.reply r.src r.fetch (.fault 4) .reply) u ∧ read u))) ∧
    (∀ r card sp x, p.msg = .rowLoad r card sp x → sp.cached = true →
      reads r sp x 4 (fun a => .rowReply r.src card r.fetch a)) ∧
    (∀ r card sp base n, p.msg = .chunkRead r card sp base n → sp.cached = true →
      reads r sp (span base n) 14 (fun a => .chunkData r.src card r.fetch a)) ∧
    (∀ r sp cells, p.msg = .store r sp cells →
      writes r sp cells (.remoteStoreArrival id) (.ack r.src r.cls none false r.line)) ∧
    (∀ r card sp cells, p.msg = .rowStore r card sp cells →
      writes r sp cells (.remoteStoreArrival id) (.rowAck r.src card r.fetch r.cls false)) ∧
    (∀ r sp c, p.msg = .chunk r sp c →
      writes r sp (partCells c.bytes c.parts) (.copyChunkArrival id) (.chunkAck r.src c.card r.fetch
        (if crc32c 0 c.bytes = c.check then none else some (c.check, crc32c 0 c.bytes)) false r.cls)) ∧
    (∀ r a, p.msg = .device r a none → Runs (.remoteLoadRequestArrival id) s (fun u =>
      sent .main r (.reply r.src r.fetch (.data (natBytes (s.deviceRead a).toNat 8) []) .reply) u ∧ read u)) ∧
    (∀ r a v, p.msg = .device r a (some v) → Runs (.remoteStoreArrival id) s (fun u =>
      sent .relief r (.reply r.src r.fetch (.data [] []) .reply) u ∧ u.wafer.rim = (s.deviceWrite a v).wafer.rim ∧
      KeepsMemory s u ∧ Gone id s u)))

/-- R109, R138, R144, R146, R148, R152, R158, R163, R175, R254, R367, R437, R481: answers and acknowledgements at
their cores, fills, walks, and the cancelling of a blocked access. What of a walk or a fill fails on a poisoned page
is the model's choice (log 79). -/
def Obligations.AnswersArriveAtCores : Prop :=
  (∀ (id : Nat) (p : Packet) (s t : State), Taken id p s t →
    (∀ d fetch rep kind, p.msg = .reply d fetch rep kind →
      (AwaitsAnswer d.core fetch t → Runs (.replyArrival id) s (fun u =>
        u.coreAt d.core = { t.coreAt d.core with pend := withAnswer fetch rep (t.coreAt d.core).pend } ∧
        OnlyForCore d.core t u ∧ Gone id t u)) ∧
      (¬AwaitsAnswer d.core fetch t → Runs (.replyArrival id) s (fun u => (∀ c, u.coreAt c = t.coreAt c) ∧
        OnlyForCore d.core t u ∧ Gone id t u))) ∧
    (∀ d cls failed flush line, p.msg = .ack d cls failed flush line → (t.coreAt d.core).acc.flushing = [] →
      Runs (.acknowledgementArrival id) s (fun u =>
        let c := t.coreAt d.core
        let e := u.coreAt d.core
        let first : Prop := ∃ q, line = some q ∧ q ∈ c.post.halves
        (first → ∀ k, e.post.count k = c.post.count k) ∧
        (¬first → ∀ k, e.post.count k = c.post.count k - (if k = cls then 1 else 0)) ∧
        (∀ q, line = some q → e.post.halves = c.post.halves.erase q) ∧ (line = none → e.post.halves = c.post.halves) ∧
        e.acc.flight = c.acc.flight - (if flush then 1 else 0) ∧
        e.post.races = c.post.races ++ (failed.map (fun f => (cls, f))).toList ∧ e.post.oseq = c.post.oseq ∧
        e = { c with post := e.post, acc := { c.acc with flight := e.acc.flight } } ∧
        OnlyForCore d.core t u ∧ Gone id t u)) ∧
    (∀ d fetch sp base data, p.msg = .fill d fetch sp base data →
      Runs (.farCacheFill id) s (fun u =>
        let good := ∃ f ∈ t.tile.fills, f.1 = fetch ∧ f.2.2.2 = true
        let find := (t.coreAt d.core).pend.find? (fun f => f.id == fetch)
        (good → ∃ l, u.tile.far = { space := sp, base := base, data := data } :: l ∧ ∀ x ∈ l, x ∈ t.tile.far) ∧
        (¬good → u.tile.far = t.tile.far) ∧ (∀ f, f ∈ u.tile.fills ↔ f ∈ t.tile.fills ∧ f.1 ≠ fetch) ∧
        (∀ f, find = some f → u.coreAt d.core = { t.coreAt d.core with
            pend := withAnswer fetch (.data ((lineBytes data).drop (f.at_ % 256)) []) (t.coreAt d.core).pend }) ∧
        (find = none → u.coreAt d.core = t.coreAt d.core) ∧
        OtherCoresKept d.core t u ∧ KeepsMemory t u ∧ Gone id t u)) ∧
    (∀ r kind pl, p.msg = .cancel r kind pl →
      let tells (a : Option Reply) (u : State) : Prop :=
        Sent t.site .relief (.tile r.src.tile) (.cancelAnswer r.src r.fetch a) t u ∧ u.core = t.core ∧
        u.others = t.others ∧ KeepsMemory t u
      let waiting : Prop := (∃ w ∈ t.tile.waiters, IsRequest r.src r.fetch w.req) ∨
        (∃ m ∈ t.tile.monitors, IsRequest r.src r.fetch m.req) ∨
        ∃ k < 8, ∃ q ∈ (vget t.tile.slices k {}).queue, IsRequest r.src r.fetch q.req
      let replied (rep : Reply) : Prop := ∃ q ∈ t.wafer.net, ∃ k, q.msg = .reply r.src r.fetch rep k
      (AsksInFlight id r.src r.fetch t → Runs (.cancelArrival id) s (fun u => tells none u ∧ u.tile = t.tile ∧
        ∀ q ∈ u.wafer.net, q.msg.asks r.src r.fetch = false)) ∧
      (¬AsksInFlight id r.src r.fetch t → waiting → Runs (.cancelArrival id) s (tells none)) ∧
      (¬AsksInFlight id r.src r.fetch t → (∃ w ∈ t.tile.waiters, IsRequest r.src r.fetch w.req) →
        Runs (.cancelArrival id) s (fun u => ∀ w, w ∈ u.tile.waiters ↔
          w ∈ t.tile.waiters ∧ ¬IsRequest r.src r.fetch w.req)) ∧
      (¬AsksInFlight id r.src r.fetch t → ¬waiting → (∃ rep, replied rep) → Runs (.cancelArrival id) s (fun u =>
        u.tile = t.tile ∧ ∃ rep, replied rep ∧ tells (some rep) u)) ∧
      (¬AsksInFlight id r.src r.fetch t → ¬waiting → (∀ rep, ¬replied rep) →
        let stored (rep : Reply) : Prop := ∃ m, findMark t.tile.marks r.src = some m ∧ m.result = some (r.seq, rep)
        (∀ rep, stored rep → Runs (.cancelArrival id) s (fun u => tells (some rep) u ∧ u.tile = t.tile)) ∧
        ((∀ rep, ¬stored rep) →
          Runs (.cancelArrival id) s (fun u => tells (t.tile.answerOf r.src r.fetch) u ∧ u.tile = t.tile)))) ∧
    (∀ d fetch a, p.msg = .cancelAnswer d fetch a → Runs (.cancelAnswerArrival id) s (fun u =>
      let put (c : Core) : Core :=
        { c with abandoned := c.abandoned.map (fun x => if x.fetch = fetch then { x with answer := some a } else x) }
      u.coreAt d.core = put (t.coreAt d.core) ∧ OtherCoresKept d.core t u ∧ u.site = t.site ∧
      u.junction = t.junction ∧ u.tile = { t.tile with dets := u.tile.dets } ∧
      (∀ x ∈ t.wafer.saved, ∃ y ∈ u.wafer.saved, y.team = x.team ∧ y.tile = x.tile ∧
        (x.tile ≠ d.tile → y = x) ∧ (x.tile = d.tile → ∀ c, (d.core, c) ∈ x.cores → (d.core, put c) ∈ y.cores)) ∧
      KeepsMemory t u ∧ Gone id t u))) ∧
  (∀ (id : Nat) (p : Packet) (s : State), TakenAtRim id p s → ∀ r kind pl, p.msg = .cancel r kind pl →
    let tells (a : Option Reply) (u : State) : Prop :=
      Sent p.site .relief (.tile r.src.tile) (.cancelAnswer r.src r.fetch a) s u ∧ KeepsMemory s u ∧ OnlyAtRim s u ∧
      Gone id s u
    let queued : Prop := ∃ k ∈ s.wafer.rim.slices, ∃ q ∈ k.2.queue, IsRequest r.src r.fetch q.req
    (queued → Runs (.cancelArrival id) s (fun u => tells none u ∧
      ∀ k ∈ u.wafer.rim.slices, ∀ q ∈ k.2.queue, ¬IsRequest r.src r.fetch q.req)) ∧
    (¬queued → AsksInFlight id r.src r.fetch s → Runs (.cancelArrival id) s (tells none)) ∧
    (∀ m rep, ¬queued → ¬AsksInFlight id r.src r.fetch s →
      (∀ q ∈ s.wafer.net, ∀ rep k, q.msg ≠ .reply r.src r.fetch rep k) →
      findMark (s.rimMarks (pl.a / 4096 % 40)) r.src = some m → m.result = some (r.seq, rep) →
      Runs (.cancelArrival id) s (tells (some rep)))) ∧
  (∀ (site : SiteId) (core : CoreId) (s : State),
    let t := s.focus site core
    let c := t.core
    let cancels (f : Fetch) (u : State) : Prop := ∀ pl, f.place = some pl → (∃ a ∈ u.core.abandoned, IsAbandoned f pl a) ∧
      (f.reply = none → ∃ q ∈ u.wafer.net, q.line = .relief ∧ q.dest = pl.dest ∧
        ∃ r, q.msg = .cancel r f.kind pl ∧ r.fetch = f.id ∧ r.src = t.me)
    let kept (u : State) : Prop := u.others = t.others ∧
      u.tile = { t.tile with waiters := u.tile.waiters, monitors := u.tile.monitors } ∧ KeepsMemory t u
    let open_ : Prop := c.stopAsked = true ∧ ∃ f ∈ c.pend, f.reply = none
    (¬open_ → Runs (.blockingAccessAbandon site core) s (· = t)) ∧
    (open_ → (∀ f ∈ c.pend, f.kind ≠ .gather) → Runs (.blockingAccessAbandon site core) s (fun u =>
      u.core.pend = [] ∧ (∀ f ∈ c.pend, cancels f u) ∧
      u.core = { c with pend := u.core.pend, abandoned := u.core.abandoned } ∧ kept u)) ∧
    (open_ → (∃ f ∈ c.pend, f.kind = .gather) → Runs (.blockingAccessAbandon site core) s (fun u =>
      let data (f : Fetch) : Prop := ∃ b k, f.reply = some (.data b k)
      u.core.pend = [] ∧ (∀ f ∈ c.pend, f.reply = none → cancels f u) ∧
      (∃ low ≤ 16, u.core.fp.vprog = BitVec.ofNat 6 low ∧ (∀ f ∈ c.pend, data f ∨ low ≤ f.lane) ∧
        (low = 16 ∨ ∃ f ∈ c.pend, ¬data f ∧ f.lane = low)) ∧
      u.core = { c with regs := { c.regs with vregs := u.core.regs.vregs }, fp := { c.fp with vprog := u.core.fp.vprog },
                        race := u.core.race, pend := u.core.pend, abandoned := u.core.abandoned } ∧ kept u)) ∧
    (∀ line tgt, c.fetchMiss = some line → t.translate { x := true } (256 * line) = .ok tgt →
      let counted (u : State) : Prop := u = { t with core := u.core, wafer := { t.wafer with
        rim := { t.wafer.rim with hits := u.wafer.rim.hits }, notices := u.wafer.notices } }
      (∀ d, t.fillFails tgt (256 * line) = none → t.lineOf tgt = some d →
        Runs (.instructionBufferFill site core) s (fun u => findLine u.core.ibuf line = some d ∧
          u.core.ibuf.length ≤ 64 ∧ (∀ x ∈ u.core.ibuf, x = (line, d) ∨ x ∈ c.ibuf) ∧
          u.core = { c with fetchMiss := none, fetchBad := none, ibuf := u.core.ibuf } ∧ counted u)) ∧
      (t.fillFails tgt (256 * line) ≠ none → Runs (.instructionBufferFill site core) s (fun u =>
        u.core = { c with fetchMiss := none, fetchBad := some line } ∧ u.tile = t.tile ∧ u.others = t.others ∧
        KeepsMemory t u))) ∧
    (∀ w, c.walk = some w → w.failed = false →
      let found := walkFrom t.wafer.hbm t.tile.tiles w.va [39, 30, 21, 12] (w.root.toNat * 4096)
      let reads := walkReads t.wafer.hbm w.va [39, 30, 21, 12] (w.root.toNat * 4096)
      let bad := t.undelivered .hbm (reads.flatMap (span · 8)) w.job t.me (BitVec.ofNat 64 w.va)
      (∀ b n pte, bad = none → found = some (b, n, pte) → Runs (.pageWalkComplete site core) s (fun u =>
        let e : TlbEntry := { job := w.job, root := w.root, base := b, size := n, pte := pte }
        u.core.walk = none ∧ e ∈ u.core.tlb ∧ e ∈ u.tile.tlb ∧ u.core.tlb.length ≤ 32 ∧ u.tile.tlb.length ≤ 256 ∧
        (∀ x ∈ u.core.tlb, x = e ∨ x ∈ c.tlb) ∧ (∀ x ∈ u.tile.tlb, x = e ∨ x ∈ t.tile.tlb) ∧
        u = { t with core := { c with walk := none, tlb := u.core.tlb }, tile := { t.tile with tlb := u.tile.tlb } })) ∧
      (bad ≠ none ∨ found = none → Runs (.pageWalkComplete site core) s (fun u =>
        u.core = { c with walk := some { w with failed := true } } ∧ u.tile = t.tile ∧ u.others = t.others ∧
        KeepsMemory t u))))

/-- R178, R180, R183, R184, R189, R190, R192, R204, R205, R209, R210: accumulates and atomics at a home slice of a
tile, their acceptance, bounces and application, and deterministic updates. A word that cannot be read is acknowledged
with cause 4 by the model's choice (log 79). -/
def Obligations.SlicesTakeAndApply : Prop :=
  (∀ (id : Nat) (p : Packet) (s t : State) (q : AccReq), Taken id p s t →
    let k := q.sliceNo
    let x := vget t.tile.slices k {}
    let y (u : State) : Slice := vget u.tile.slices k {}
    let kept (u : State) : Prop := OtherSlicesKept k t u ∧ KeepsMemory t u ∧ Gone id t u
    (p.msg = .acc q → q.det = false → FreshRequest q t →
      (x.queue.length < 32 → q.must = true ∨ ¬OverQuota x q → Runs (.accumulateRequestArrival id) s (fun u =>
        (y u).queue = x.queue ++ [{ q with epoch := p.epoch }] ∧
        (y u).accepts (q.req.src.tile.toNat % 64) = min (x.accepts (q.req.src.tile.toNat % 64) + 1) 255 ∧
        u.tile.marks = advanceMarks t.tile.marks q ∧ kept u)) ∧
      (q.must = false → OverQuota x q → q.parts = [] → ∀ op, q.op = .acc op →
        Runs (.accumulateRequestArrival id) s (fun u => y u = x ∧ u.tile.marks = t.tile.marks ∧ kept u ∧
          ∃ b, Sent t.site .relief (.tile q.req.src.tile) (.bounce q.req.src b) t u ∧
            BounceOf op q.req.va q.place q.value q.keyOf false b)) ∧
      (q.must = false → OverQuota x q → q.parts ≠ [] →
        Runs (.accumulateRequestArrival id) s (fun u => y u = x ∧ u.tile.marks = t.tile.marks ∧ kept u ∧
          Sent t.site .relief (.site p.origin) (.mergedBounce q) t u)) ∧
      (32 ≤ x.queue.length → q.must = true ∨ ¬OverQuota x q → Runs (.accumulateRequestArrival id) s (· = s))) ∧
    (p.msg = .amo q → q.req.replay = false → markRoom t.tile.marks q.req.src = true → x.queue.length < 32 →
      (x.queue ≠ [] → Runs (.atomicRequestArrival id) s (fun u =>
        (y u).queue = x.queue ++ [{ q with epoch := p.epoch }] ∧ u.tile.marks = advanceMarks t.tile.marks q ∧ kept u)) ∧
      (∀ f z, x.queue = [] → q.op = .amo f z → Runs (.atomicRequestArrival id) s (fun u =>
        let old : Word := BitVec.ofNat 64 (t.tile.mem.readNat q.place.a (amoSize f.toNat))
        let r := amoNew f.toNat old q.value z
        let a : Reply := .data (natBytes old.toNat 8 ++ natBytes r.2.bits.toNat 1) []
        StoresCells (cellsAt q.place.a (natBytes r.1.toNat (amoSize f.toNat))) t u ∧ OtherSlicesKept k t u ∧ Gone id t u ∧
        Sent t.site .relief (.tile q.req.src.tile) (.reply q.req.src q.req.fetch a .amo) t u ∧
        ∃ m, findMark u.tile.marks q.req.src = some m ∧ underMark m.aseq q.req.seq = true ∧
          m.result = some (q.req.seq, a)))) ∧
    (∀ op, p.msg = .acc q → q.det = true → q.op = .acc op → FreshRequest q t →
      let h := q.held op
      let acks (u : State) : Prop := AcksMembers q t u ∧ u.tile.marks = advanceMarks t.tile.marks q
      (x.hasRoom → Runs (.deterministicRequestArrival id) s (fun u => (∀ z, (y u).isHeld z ↔ x.isHeld z ∨ z = h) ∧
        (y u).queue = x.queue ∧ acks u ∧ kept u)) ∧
      (¬x.hasRoom → q.parts = [] → (∀ z, x.isHeld z → z.job = h.job → z.key.num < h.key.num) →
        Runs (.deterministicRequestArrival id) s (fun u => y u = x ∧ kept u ∧
          ∃ b, Sent t.site .relief (.tile q.req.src.tile) (.bounce q.req.src b) t u ∧
            BounceOf op q.req.va q.place q.value q.keyOf true b)) ∧
      (∀ m, ¬x.hasRoom → x.isHeld m → m.job = h.job → h.key.num < m.key.num →
        (∀ z, x.isHeld z → z.job = h.job → z ≠ m → z.key.num < m.key.num) →
        Runs (.deterministicRequestArrival id) s (fun u => (y u).isHeld h ∧ acks u ∧ kept u ∧
          ∃ b, Sent t.site .relief (.tile m.src.tile) (.bounce m.src b) t u ∧
            BounceOf m.op m.va m.place m.value m.key true b)))) ∧
  (∀ (site : SiteId) (k : BitVec 3) (s : State) (q : AccReq) (r : List AccReq),
    let t := s.focusSite site
    let x := vget t.tile.slices k.toNat {}
    SlicesRun t → x.queue = q :: r →
    (q.firstOf (t.homeQueue none) = false → Runs (.accumulateApply (.tile site k)) s (· = t)) ∧
    (∀ op, q.firstOf (t.homeQueue none) = true → q.op = .acc op → Runs (.accumulateApply (.tile site k)) s (fun u =>
      StoresCells (cellsAt q.place.a (natBytes
        (comb op (BitVec.ofNat 64 (t.tile.mem.readNat q.place.a op.size)) q.value).toNat op.size)) t u ∧
      vget u.tile.slices k.toNat {} = { x with queue := r } ∧ OtherSlicesKept k.toNat t u ∧ AcksMembers q t u)) ∧
    (∀ f z, q.firstOf (t.homeQueue none) = true → q.op = .amo f z →
      Runs (.accumulateApply (.tile site k)) s (fun u =>
      let old : Word := BitVec.ofNat 64 (t.tile.mem.readNat q.place.a (amoSize f.toNat))
      let v := amoNew f.toNat old q.value z
      StoresCells (cellsAt q.place.a (natBytes v.1.toNat (amoSize f.toNat))) t u ∧
      vget u.tile.slices k.toNat {} = { x with queue := r } ∧ OtherSlicesKept k.toNat t u ∧
      Sent t.site .relief (.tile q.req.src.tile)
        (.reply q.req.src q.req.fetch (.data (natBytes old.toNat 8 ++ natBytes v.2.bits.toNat 1) []) .amo) t u))) ∧
  (∀ (site : SiteId) (k : BitVec 3) (s : State),
    let t := s.focusSite site
    (vget t.tile.slices k.toNat {}).queue = [] → Runs (.accumulateApply (.tile site k)) s (· = t)) ∧
  (∀ (c : BitVec 6) (k : BitVec 3) (line : Nat) (s : State),
    let n := k.toNat
    let h : Home := some c.toNat
    let x := s.slice h n
    let kept (u : State) : Prop := OnlyAtRim s u
    let ready (q : AccReq) : Prop := x.lines.contains (q.place.a / 256) = true ∧ q.firstOf (s.homeQueue h) = true
    (∀ q r op, x.queue = q :: r → ready q → q.op = .acc op →
      let acks (failed : Req → Option (Nat × Word)) (u : State) : Prop := ∀ m ∈ q.members,
        Sent (attachment 10 c.toNat) .relief (.tile m.1.src.tile) (.ack m.1.src m.1.cls (failed m.1) q.flush m.1.line) s u
      (s.wordFails h q = none → Runs (.accumulateApply (.rim c k)) s (fun u =>
        StoresInHbm (cellsAt q.place.a (natBytes
          (comb op (BitVec.ofNat 64 (s.wafer.hbm.readNat q.place.a op.size)) q.value).toNat op.size)) s u ∧
        (u.slice h n).queue = r ∧ kept u ∧ acks (fun _ => none) u)) ∧
      (s.wordFails h q ≠ none → Runs (.accumulateApply (.rim c k)) s (fun u => KeepsMemory s u ∧
        (u.slice h n).queue = r ∧ kept u ∧ acks (fun m => some (4, m.va)) u))) ∧
    ((∀ q ∈ x.queue, ¬ready q) →
      Runs (.accumulateApply (.rim c k)) s (· = s)) ∧
    ((∃ q ∈ x.queue, q.place.a / 256 = line) → Runs (.hbmAccumulateLineRead (.rim c k) line) s (fun u =>
      (∃ l, (u.slice h n).lines = line :: l ∧ l.length < 64 ∧ ∀ a ∈ l, a ∈ x.lines) ∧ (u.slice h n).queue = x.queue ∧
      KeepsMemory s u ∧ kept u)) ∧
    ((∀ q ∈ x.queue, q.place.a / 256 ≠ line) → Runs (.hbmAccumulateLineRead (.rim c k) line) s (· = s)) ∧
    Runs (.quotaWindowReset (.rim c k)) s (fun u => (∀ j, (u.slice h n).accepts j = 0) ∧
      u.slice h n = { x with cnt := [] } ∧ KeepsMemory s u ∧ kept u)) ∧
  (∀ (site : SiteId) (k : BitVec 3) (s : State),
    let t := s.focusSite site
    Runs (.quotaWindowReset (.tile site k)) s (fun u => (∀ j, (vget u.tile.slices k.toNat {}).accepts j = 0) ∧
      OtherSlicesKept k.toNat t u ∧ u = { t with tile := { t.tile with slices := u.tile.slices } }))

/-- R190 to R196, R205: merging at a junction and the splitting of a merged bounce; bounces at their core, their
parking in the siding, and the flush of an old row. The lowest free row and the smallest key of a merged request are
the model's choices (logs 83, 84). -/
def Obligations.BouncesAreParked : Prop :=
  (∀ (site : SiteId) (i j : Nat) (s : State) (p r : Packet) (a b : AccReq) (op : AccOp),
    s.packet i = some p → s.packet j = some r → i ≠ j → s.mergeable site p = some a → s.mergeable site r = some b →
    (s.junctionAt site).passThrough = false → p.site = r.site → p.dest = r.dest → p.epoch = r.epoch →
    (a.parts = [] ∨ (p.origin = site ∧ a.parts.length < 4)) → b.parts = [] → a.op = .acc op → b.op = .acc op →
    a.place = b.place → a.det = b.det → (op = .addF32 → a.det = false) →
      (s.keepsOrder p r = false → Runs (.junctionMerge site i j) s (· = s)) ∧
      (s.keepsOrder p r = true → Runs (.junctionMerge site i j) s (fun u => ∃ q, u.packet i = some
          { p with origin := site, joined := p.injections ++ r.injections, gate := 0, processed := true, msg := .acc q } ∧
        q.value = comb op a.value b.value ∧ q.members = a.members ++ b.members ∧ q.op = .acc op ∧ q.place = a.place ∧
        (q.req = a.req ∨ q.req = b.req) ∧ q.req.keyNum ≤ a.req.keyNum ∧ q.req.keyNum ≤ b.req.keyNum ∧
        (∀ z ∈ u.wafer.net, z.id ≠ j) ∧ u = { s with wafer := { s.wafer with net := u.wafer.net } }))) ∧
  (∀ (id n : Nat) (p : Packet) (q : AccReq) (s : State), s.packet id = some p → p.msg = .mergedBounce q →
    p.arrived = some n →
    let t := s.focusSite p.site
    t.behind p n = false → t.junction.passThrough = false → Runs (.mergedBounceSplit id) s (fun u =>
      (∀ m ∈ q.members, Sent p.site .relief (.tile m.1.src.tile) (.bounce m.1.src (q.bounceOf m)) t u) ∧ Gone id t u ∧
      u = { t with wafer := { t.wafer with net := u.wafer.net, nextId := u.wafer.nextId } })) ∧
  (∀ (id : Nat) (p : Packet) (s t : State) (d : CoreRef) (b : Bounce), Taken id p s t → p.msg = .bounce d b →
    let c := t.coreAt d.core
    (c.acc.inbound.length < 4 → Runs (.bounceArrival id) s (fun u =>
      u.coreAt d.core = { c with acc := { c.acc with inbound := c.acc.inbound ++ [b] } } ∧ OnlyForCore d.core t u ∧
      Gone id t u)) ∧
    (4 ≤ c.acc.inbound.length → Runs (.bounceArrival id) s (· = s))) ∧
  (∀ (site : SiteId) (core : CoreId) (s : State),
    let t := s.focus site core
    let c := t.core
    let fresh (b : Bounce) (r : Row) : Prop := r.det = b.det ∧ r.cls = b.cls ∧ r.op = b.op ∧ r.va = b.va ∧
      r.place = b.place ∧ r.value = b.addend ∧ r.since = t.wafer.clock ∧ r.key = b.key
    (c.acc.inbound = [] → Runs (.bouncePark site core) s (· = t)) ∧
    (∀ b l, c.acc.inbound = b :: l → c.acc.flushing = [] →
      let z := field b.va 5 3 ^^^ field b.va 8 3
      (∀ k r, b.det = false → c.findRow b.va b.op = some (k, r) → k < 32 →
        Runs (.bouncePark site core) s (Parks k { r with value := comb b.op r.value b.addend } t)) ∧
      (∀ k < 4, b.det = false → c.findRow b.va b.op = none → c.row (4 * z + k) = none →
        (∀ j < k, (c.row (4 * z + j)).isSome = true) →
        Runs (.bouncePark site core) s (fun u => ∃ r, fresh b r ∧ Parks (4 * z + k) r t u)) ∧
      (∀ k r, b.det = false → c.findRow b.va b.op = none → (∀ j < 4, (c.row (4 * z + j)).isSome = true) →
        c.oldestRow z = some (k, r) → k < 32 → c.countRoom r.cls = true → t.tile.replay = none →
        Runs (.bouncePark site core) s (fun u => (∃ e, u.core.row k = some e ∧ fresh b e) ∧
          (∀ j < 32, j ≠ k → u.core.row j = c.row j) ∧ u.core.acc.inbound = l ∧
          Sends .relief r.place.dest (fun m => ∃ q, m = .acc q ∧ q.value = r.value ∧ q.must = true ∧ q.flush = true ∧
            q.op = .acc r.op ∧ q.place = r.place) t u ∧
          u.core.acc.flight = c.acc.flight + 1 ∧ u.core.regs = c.regs ∧ KeepsMemory t u)) ∧
      (∀ k < 32, b.det = true → c.row k = none → (∀ j < k, (c.row j).isSome = true) →
        Runs (.bouncePark site core) s (fun u => ∃ r, fresh b r ∧ Parks k r t u)) ∧
      (b.det = true → (∀ j < 32, (c.row j).isSome = true) → c.acc.ring.length < 4096 →
        Runs (.bouncePark site core) s (fun u => (∃ r, u.core.acc.ring = c.acc.ring ++ [r] ∧ fresh b r) ∧
          u.core.acc.rows = c.acc.rows ∧ u.core.acc.inbound = l)))) ∧
  (∀ (site : SiteId) (core : CoreId) (k : BitVec 5) (s : State) (r : Row),
    let t := s.focus site core
    let c := t.core
    c.row k.toNat = some r → r.det = false → t.tile.stopped = false → t.detRoom = true →
    (t.rowAge r < field c.acc.sdctl 0 16 → Runs (.sidingAgeFlush site core k) s (· = t)) ∧
    (field c.acc.sdctl 0 16 ≤ t.rowAge r → c.acc.flushing = [] → c.countRoom r.cls = true → r.cls = r.place.space.cls →
      t.tile.replay = none → Runs (.sidingAgeFlush site core k) s (fun u => u.core.row k.toNat = none ∧
        (∀ j < 32, j ≠ k.toNat → u.core.row j = c.row j) ∧ u.core.acc.flight = c.acc.flight + 1 ∧ CountsOne r.cls t u ∧
        SentSome t.site .relief r.place.dest (fun m => ∃ q, m = .acc q ∧ q.value = r.value ∧ q.must = true ∧ q.flush = true ∧
          q.op = .acc r.op ∧ q.place = r.place ∧ q.req.src = t.me) t u ∧
        u.core.acc.flushing = [] ∧ u.core.regs = c.regs ∧ KeepsMemory t u)))

/-- R316 to R318, R324, R396: messages at their tile, in its buffer, and in the save area of a team that is away. -/
def Obligations.MessagesReachTheirCores : Prop :=
  (∀ (id : Nat) (p : Packet) (s t : State) (m : Message), Taken id p s t → p.msg = .message m → m.replay = false →
    let src : CoreRef := { tile := m.tile, core := m.core }
    (m.counted = true ∨ m.fromBox = true → markRoom t.tile.marks src = true) →
    let c := t.coreAt m.dst
    let direct : Prop := c.run ≠ .unbound ∧ t.tile.job = some m.job ∧
      (vget c.regs.qregs m.q.toNat {}).full = false ∧
      ∀ x ∈ t.tile.restored ++ t.tile.inbound, ¬(x.dst = m.dst ∧ x.q = m.q)
    let counted (u : State) : Prop :=
      (m.counted = true → Sent t.site .relief (.tile m.tile) (.ack src .n none false none) t u) ∧
      (m.counted = true → m.fromBox = false →
        ∃ k, findMark u.tile.marks src = some k ∧ underMark k.mseq m.seq = true) ∧
      (m.fromBox = true → ∃ k, findMark u.tile.marks src = some k ∧ underMark k.bseq m.seq = true) ∧ KeepsMemory t u ∧ Gone id t u
    (direct → Runs (.messageArrival id) s (fun u => counted u ∧ u.tile.inbound = t.tile.inbound ∧
      u.coreAt m.dst = { c with
        regs := { c.regs with qregs := vset c.regs.qregs m.q.toNat { data := m.data, full := true } }, wake := true } ∧
      OtherCoresKept m.dst t u)) ∧
    (¬direct → t.tile.inbound.length < 32 → Runs (.messageArrival id) s (fun u => counted u ∧
      u.tile.inbound = t.tile.inbound ++ [m] ∧ ∀ k, u.coreAt k = t.coreAt k)) ∧
    (¬direct → 32 ≤ t.tile.inbound.length → Runs (.messageArrival id) s (· = s))) ∧
  (∀ (site : SiteId) (core : CoreId) (q : BitVec 4) (s : State),
    let t := s.focusSite site
    let c := t.coreAt core
    let full := (vget c.regs.qregs q.toNat {}).full
    let mine (m : Message) : Prop := m.dst = core ∧ m.q = q
    let filled (m : Message) (u : State) : Prop := OtherCoresKept core t u ∧ u.coreAt core = { c with
      regs := { c.regs with qregs := vset c.regs.qregs q.toNat { data := m.data, full := true } }, wake := true }
    (full = true ∨ c.run = .unbound → Runs (.messageBufferMove site core q) s (· = t)) ∧
    (full = false → c.run ≠ .unbound →
      (∀ a m b, t.tile.restored = a ++ m :: b → mine m → (∀ x ∈ a, ¬mine x) →
        Runs (.messageBufferMove site core q) s (fun u => filled m u ∧ u.tile = { t.tile with restored := a ++ b })) ∧
      (∀ a m b, (∀ x ∈ t.tile.restored, ¬mine x) → t.tile.inbound = a ++ m :: b → mine m → (∀ x ∈ a, ¬mine x) →
        (t.tile.job = some m.job → Runs (.messageBufferMove site core q) s (fun u => filled m u ∧
          u.tile = { t.tile with inbound := a ++ b })) ∧
        (t.tile.job ≠ some m.job → Runs (.messageBufferMove site core q) s (· = t))) ∧
      ((∀ x ∈ t.tile.restored ++ t.tile.inbound, ¬mine x) → Runs (.messageBufferMove site core q) s (· = t)))) ∧
  (∀ (site : SiteId) (core : CoreId) (s : State) (m : Message) (l : List Message) (k : SavedTeam) (r : BindRecord),
    let t := s.focusSite site
    let a := r.save.toNat + core.toNat * 0x30000
    let n := t.wafer.hbm.readNat (a + 0x1388) 8 % 64
    t.tile.inbound = m :: l → m.dst = core → (t.coreAt core).run = .unbound →
    t.wafer.saved = [k] → k.tile = t.tile.tile → k.job = m.job → k.slots = [(core, r)] → n < 32 →
      Runs (.messageToSaveArea site core) s (fun u => u.tile = { t.tile with inbound := l } ∧
        StoresInHbm (cellsAt (a + 0x15C0 + 64 * n) m.savedBytes ++ cellsAt (a + 0x1388) (natBytes (n + 1) 8)) t u ∧
        u.core = t.core ∧ u.others = t.others ∧ u.wafer = { t.wafer with hbm := u.wafer.hbm }))

/-- R206, R327, R329, R331, R334: arrivals at the root of a barrier, its completion, the merge of deterministic updates, the
catch-up round, and releases. -/
def Obligations.BarriersComplete : Prop :=
  (∀ (id n : Nat) (p : Packet) (b : BarrierMsg) (s : State), s.packet id = some p → p.msg = .arrival b →
    p.arrived = some n → b.replay = false →
    let t := s.focusSite p.site
    t.behind p n = false → t.junction.passThrough = false → Runs (.barrierArrival id) s (fun u =>
      (∃ x ∈ u.wafer.barriers, x.domain = b.domain ∧ b.member ∈ x.arrived) ∧
      (∀ x, t.wafer.barriers.find? (fun k => k.domain == b.domain) = some x → ∀ m ∈ x.arrived,
        ∃ y ∈ u.wafer.barriers, y.domain = b.domain ∧ m ∈ y.arrived) ∧
      (∀ x, x.domain ≠ b.domain → (x ∈ u.wafer.barriers ↔ x ∈ t.wafer.barriers)) ∧
      (∀ q ∈ u.wafer.net, q.id ≠ id) ∧
      u = { t with wafer := { t.wafer with
        net := u.wafer.net, barriers := u.wafer.barriers, treeMarks := u.wafer.treeMarks } })) ∧
  (∀ (d : DomainKey) (s : State) (b : Barrier), s.wafer.barriers.find? (fun x => x.domain == d) = some b →
    let ms := s.wafer.members d
    let all : Prop := ms ≠ [] ∧ ∀ m ∈ ms, m ∈ b.arrived ∨ s.wafer.threadEnded d m = true
    let none_ (u : State) : Prop := ∀ x ∈ u.wafer.barriers, x.domain ≠ d
    (¬all → Runs (.barrierRootComplete d) s (· = s)) ∧
    (all → b.phase = .collecting → b.det = false → s.rootPresent b = true →
      (atHome d = true → s.jobTileSite d.job d.did.toNat = some s.site → Runs (.barrierRootComplete d) s (fun u => none_ u ∧
        ∀ c, (u.coreAt c).bst d.level =
          if (∃ m ∈ ms, m.2 = c) ∧ s.holdsMember d c = true ∧ (s.coreAt c).bst d.level = 1 then 2
          else (s.coreAt c).bst d.level)) ∧
      (∀ k c r, atHome d = true → s.wafer.awayTeams d d.did.toNat = [k] → k.slots = [(c, r)] → (d.did.toNat, c) ∈ ms →
        Runs (.barrierRootComplete d) s (fun u => none_ u ∧ ReleasesAway d c r s u)) ∧
      (atHome d = false → Runs (.barrierRootComplete d) s (fun u => none_ u ∧
        ∀ j ∈ s.wafer.domainTiles d, ∃ q ∈ u.wafer.net, s.wafer.nextId ≤ q.id ∧ ∃ r l, q.msg = .release r l ∧
          r.domain = d ∧ r.member.1 = j ∧ r.known = b.known ∧ q.dest = .tile l))) ∧
    (all → b.phase = .collecting → b.det = true → s.rootPresent b = true → Runs (.barrierRootComplete d) s (fun u =>
      u.wafer.barriers = s.wafer.barriers.map (fun k => if k.domain = d then { k with phase := .merging } else k) ∧
      u = { s with wafer := { s.wafer with barriers := u.wafer.barriers } })) ∧
    (b.phase = .merging → s.rootPresent b = true →
      (∀ x ∈ s.jobSites d.job, (s.focusSite x).mayMerge = true) → Runs (.deterministicMerge d) s (fun u =>
        (∀ x ∈ s.jobSites d.job, ∀ k < 8, ∀ h, (vget (u.tileAt x).slices k {}).isHeld h → h.issuedIn d.job ms = false) ∧
        (s.wafer.rowsAway d = false → (∀ m ∈ s.memberSites d, (s.coreOfSite m.1 m.2).detRows = []) → none_ u) ∧
        (s.wafer.rowsAway d = true ∨ (∃ m ∈ s.memberSites d, (s.coreOfSite m.1 m.2).detRows ≠ []) →
          ∃ x ∈ u.wafer.barriers, x.domain = d ∧ x.phase = .resending))) ∧
    (b.phase = .resending → s.wafer.rowsAway d = true → Runs (.catchUpRound d) s (· = s)) ∧
    (b.phase = .resending → s.wafer.rowsAway d = false → Runs (.catchUpRound d) s (fun u =>
      (∃ x ∈ u.wafer.barriers, x.domain = d ∧ x.phase = .settling) ∧
      ∀ m ∈ s.memberSites d, (u.coreOfSite m.1 m.2).detRows = [])) ∧
    (b.phase = .settling → (∀ m ∈ s.memberSites d, (s.coreOfSite m.1 m.2).settled = true) → Runs (.catchUpRound d) s (fun u =>
      ∃ x ∈ u.wafer.barriers, x.domain = d ∧ x.phase = .merging))) ∧
  (∀ (id : Nat) (p : Packet) (s t : State) (b : BarrierMsg) (l : TileNo), Taken id p s t → p.msg = .release b l →
    (∀ k c r, t.wafer.awayTeams b.domain t.tile.jt.toNat = [k] → k.slots = [(c, r)] →
      (t.tile.jt.toNat, c) ∈ t.wafer.members b.domain →
      Runs (.barrierReleaseArrival id) s (fun u => ReleasesAway b.domain c r t u ∧ (∀ c, u.coreAt c = t.coreAt c) ∧
        u.tile = t.tile ∧ Gone id t u)) ∧
    (t.wafer.awayTeams b.domain t.tile.jt.toNat = [] →
    let cs := ((t.wafer.members b.domain).filter (fun m => m.1 == t.tile.jt.toNat)).map (·.2)
    let n := b.domain.level
    b.replay = false → t.tile.flagged = false → Runs (.barrierReleaseArrival id) s (fun u =>
      (∀ c, (u.coreAt c).bst n = if c ∈ cs ∧ (t.coreAt c).bst n = 1 then 2 else (t.coreAt c).bst n) ∧
      (∀ c, u.coreAt c = { t.coreAt c with
        sync := { (t.coreAt c).sync with bst := (u.coreAt c).sync.bst, relKnown := (u.coreAt c).sync.relKnown } }) ∧
      KeepsMemory t u ∧ Gone id t u)))

/-- R261 to R263, R266, R269, R272, R276, R277, R280, R284, R286, R291, R292, R297, R299, R300, R303, R308: jobs of
the matrix engine and of the copy unit start, move rows and chunks, take the answers of other places, and complete.
That the last acknowledgement decides the cause of a chunk is the model's choice (log 80). -/
def Obligations.JobsRun : Prop :=
  (∀ (site : SiteId) (core : CoreId) (s : State) (a b : List TileCard) (k : TileCard),
    let t := s.focus site core
    t.core.eng.cards = a ++ k :: b → k.state = .queued → (∀ x ∈ a, x.state ≠ .queued) →
    let free : Prop := (∀ x ∈ a, x.job.depends k.job = false) ∧ t.engineRuns = true ∧ t.unitFree k.job.unit = true ∧
      t.jobBlocked k.num k.footprint = false
    (free → Runs (.tileJobStart site core) s (fun u =>
      u.core.eng.cards = (a ++ k :: b).map (fun x => if x.num = k.num then { x with state := .started } else x) ∧
      u = { t with core := { t.core with eng := { t.core.eng with cards := u.core.eng.cards } } })) ∧
    (¬free → Runs (.tileJobStart site core) s (· = t))) ∧
  (∀ (site : SiteId) (core : CoreId) (card : Nat) (s : State) (k : TileCard) (m : BitVec 3),
    let t := s.focus site core
    let r := k.prog
    let va := (k.base + BitVec.ofNat 64 r * k.stride).toNat
    let moved (u : State) : Prop := ∃ e, u.core.card card = some e ∧ e.prog = r + 1 ∧ e.state = .started
    t.core.card card = some k → k.state = .started → t.engineRuns = true → t.detRoom = true → t.tile.replay = none →
    r < k.rowCount → va < 0x600000 → t.core.race.detmode = false →
    (k.job = .tld m → k.waits = [] → k.dstTag ≠ .b4 → Runs (.tileJobRow site core card) s (fun u =>
      vget (u.core.treg m).rows r 0 = BitVec.ofNat 1024 (t.tile.mem.readNat va 128) ∧
      (∀ i, i ≠ r → vget (u.core.treg m).rows i 0 = vget (t.core.treg m).rows i 0) ∧
      (u.core.treg m).tag = (t.core.treg m).tag ∧ (∀ j, j ≠ m → u.core.treg j = t.core.treg j) ∧ moved u ∧
      KeepsMemory t u)) ∧
    (k.job = .tst m → k.srcTag ≠ .b4 → (∀ c, t.core.post.count c ≤ 256) →
      Runs (.tileJobRow site core card) s (fun u =>
        StoresHere va (natBytes (vget (t.core.treg m).rows r 0).toNat 128) t u ∧ u.core.regs = t.core.regs ∧
        u.core.post = t.core.post ∧ moved u))) ∧
  (∀ (site : SiteId) (core : CoreId) (card : Nat) (s : State) (k : TileCard),
    let t := s.focus site core
    t.core.card card = some k → k.state = .started → t.tile.stopped = false → t.detRoom = true → t.tile.replay = none →
    let gone (flags : FpFlags) (u : State) : Prop := u.core.card card = none ∧ u.core.wake = true ∧
      (∀ q, k.seq = some q → u.core.slotOf .matrix q = { seq := q, state := 2, flags := flags.bits }) ∧ KeepsMemory t u
    let others (d : BitVec 3) (u : State) : Prop := (∀ j, j ≠ d → u.core.treg j = t.core.treg j) ∧
      (u.core.treg d).tag = (t.core.treg d).tag ∧ u.core.regs = { t.core.regs with tregs := u.core.regs.tregs }
    let rows (d : BitVec 3) (f : Nat → Nat → Nat) (u : State) : Prop :=
      ∀ i < 32, ∀ j < 32, field (vget (u.core.treg d).rows i 0) (32 * j) 32 = f i j % 2 ^ 32
    (∀ m, k.job = .tld m → k.prog = k.rowCount → k.waits = [] → Runs (.tileJobComplete site core card) s (fun u =>
      gone {} u ∧ others m u ∧ ∀ i < 32, vget (u.core.treg m).rows i 0 =
        if i < k.rowCount then vget (t.core.treg m).rows i 0 else 0)) ∧
    (∀ m, k.job = .tst m → k.prog = k.rowCount → k.waits = [] → Runs (.tileJobComplete site core card) s (fun u =>
      gone {} u ∧ u.core.regs = t.core.regs)) ∧
    (∀ m, k.job = .tld m ∨ k.job = .tst m → k.prog ≠ k.rowCount ∨ k.waits ≠ [] →
      Runs (.tileJobComplete site core card) s (· = t)) ∧
    (∀ c a b z n, k.job = .mma c a b z n → k.perturb.getLsbD 63 = false →
      let start (i j : Nat) : Nat := if z = true then 0 else field (vget (t.core.treg c).rows i 0) (32 * j) 32
      Runs (.tileJobComplete site core card) s (fun u => others c u ∧
        (k.srcTag = .i8 → gone {} u ∧ rows c (fun i j =>
          mmaInteger n (t.core.treg a) (t.core.treg b) i j (start i j)) u) ∧
        (k.srcTag ≠ .i8 → (∃ f, gone f u) ∧ rows c (fun i j =>
          (mmaElement k.srcTag n (t.core.treg a) (t.core.treg b) i j (start i j)).1) u))) ∧
    (∀ d, k.job = .tzero d → Runs (.tileJobComplete site core card) s (fun u => gone {} u ∧ others d u ∧
      (∀ i, vget (u.core.treg d).rows i 0 = 0 ∧ vget (u.core.treg d).scales i 0 = 0))) ∧
    (∀ d a, k.job = .tmov d a → Runs (.tileJobComplete site core card) s (fun u => gone {} u ∧ others d u ∧
      (u.core.treg d).rows = (t.core.treg a).rows ∧ (u.core.treg d).scales = (t.core.treg a).scales)) ∧
    (∀ d a b, k.job = .tadd d a b → k.srcTag = .i32 → Runs (.tileJobComplete site core card) s (fun u => gone {} u ∧
      others d u ∧ rows d (fun i j => field (vget (t.core.treg a).rows i 0) (32 * j) 32 +
        field (vget (t.core.treg b).rows i 0) (32 * j) 32) u)) ∧
    (∀ d a, k.job = .ttr d a → k.srcTag.width = 32 → Runs (.tileJobComplete site core card) s (fun u => gone {} u ∧
      others d u ∧ rows d (fun i j => field (vget (t.core.treg a).rows j 0) (32 * i) 32) u)) ∧
    (∀ d a b v, k.job = .tcvt d a ∨ k.job = .trowv a v ∨ k.job = .tvrow d b →
      Runs (.tileJobComplete site core card) s (fun u => gone {} u ∧
        u.core.regs = (housekeep k t.core).1.regs ∧
        u.core.fp.fflags = t.core.fp.fflags ||| (housekeep k t.core).2.bits))) ∧
  (∀ (site : SiteId) (core : CoreId) (s : State) (j : CopyJob),
    let t := s.focus site core
    t.core.nextJob = some j →
    let can : Prop := t.engineRuns = true ∧ j.pred = none ∧ t.jobBlocked j.num (j.footprint t.tile) = false
    let outer : Prop := j.kind ≠ .mcast ∧ t.outer j.src false = true ∧ t.outer j.dst true = true
    let handed := t.handOver j
    let becomes (state : CardState) (rim : Option Nat) (u : State) : Prop :=
      (∃ e ∈ u.core.cpy.jobs, e.num = j.num ∧ e.state = state ∧ e.rim = rim) ∧
      (∀ e, e.num ≠ j.num → (e ∈ u.core.cpy.jobs ↔ e ∈ t.core.cpy.jobs)) ∧
      u = { t with core := { t.core with cpy := { t.core.cpy with jobs := u.core.cpy.jobs } },
                   wafer := { t.wafer with nextId := u.wafer.nextId } }
    (j.rim = none → ¬outer →
      (can ∧ t.inProgress < 4 → Runs (.copyJobStart site core) s (fun u =>
        becomes .started none u ∧ u.wafer.nextId = t.wafer.nextId)) ∧
      (¬(can ∧ t.inProgress < 4) → Runs (.copyJobStart site core) s (· = t))) ∧
    (j.rim = none → outer →
      (can → Runs (.copyJobStart site core) s (fun u => u.wafer.nextId = t.wafer.nextId + 1 ∧
        becomes (if handed.1.engineTakes t.wafer.nextId then .started else .queued) (some t.wafer.nextId) u)) ∧
      (¬can → Runs (.copyJobStart site core) s (· = t))) ∧
    (∀ n, j.rim = some n →
      (t.engineRuns = true ∧ t.engineTakes n = true → Runs (.copyJobStart site core) s (fun u =>
        becomes .started (some n) u ∧ u.wafer.nextId = t.wafer.nextId)) ∧
      (¬(t.engineRuns = true ∧ t.engineTakes n = true) → Runs (.copyJobStart site core) s (· = t)))) ∧
  (∀ (site : SiteId) (core : CoreId) (card : Nat) (s : State) (j : CopyJob),
    let t := s.focus site core
    t.core.copyOf card = some j → t.tile.stopped = false → t.detRoom = true → t.tile.replay = none →
    j.state = .started →
    (let off := 4096 * j.prog
     let n := min 4096 (j.len - off)
     let a := j.src.toNat + off
     let d := j.dst.toNat + off
     j.ending = none → j.checked = true → j.kind = .copy → j.sent = j.prog → j.prog < j.chunks → j.reads = [] →
     j.waits = [] → j.inject = 0 → t.core.stopAsked = false → a + n ≤ 0x600000 → d + n ≤ 0x600000 →
     t.core.race.detmode = false → Runs (.copyChunk site core card) s (fun u =>
       StoresHere d (t.tile.mem.readBytes a n) t u ∧ u.core.regs = t.core.regs ∧ u.core.post = t.core.post ∧
       ∃ e, u.core.copyOf card = some e ∧ e.prog = j.prog + 1 ∧ e.sent = j.prog + 1 ∧ e.reads = [] ∧
         e.waits = [])) ∧
    (let ended (cause : BitVec 4) (u : State) : Prop :=
       StoresHere (j.xc.toNat + 0x30) (natBytes (2 ^ 32 + (if cause = 0 then 0 else 2 ^ 33 + cause.toNat * 2 ^ 36)) 8 ++
         natBytes (min (4096 * j.prog) j.len) 8) t u ∧
       u.core.copyOf card = none ∧ u.core.regs = t.core.regs ∧ u.core.wake = true ∧
       (u.core.slotOf .copier j.seq).seq = j.seq ∧ (u.core.slotOf .copier j.seq).state = 2 ∧
       (u.core.slotOf .copier j.seq).fault = (cause != 0) ∧ (u.core.slotOf .copier j.seq).cause = cause
     let flags : List (TileNo × Nat) :=
       if j.kind = .mcast then
         ((List.range t.tile.tiles).filter (inRect j.rect t.tile.width)).map (fun n => (t.tile.logical n, j.flag.toNat))
       else j.flagAt.toList
     j.waits = [] → j.kind ≠ .copyc →
     (∀ c, j.ending = some c → Runs (.copyJobEnd site core card) s (ended c)) ∧
     (j.ending = none → j.checked = true → j.prog = j.chunks → j.flagset = false ∨ j.flagSent = true →
       Runs (.copyJobEnd site core card) s (ended 0)) ∧
     (j.ending = none → j.checked = true → j.prog = j.chunks → j.flagset = true → j.flagSent = false →
       (j.kind = .copy → j.flagAt ≠ none) → (∀ f ∈ flags, f.1 = t.tile.tile → NoWaiter f.2 t) →
       Runs (.copyJobEnd site core card) s (fun u =>
         (∀ f ∈ flags, f.1 = t.tile.tile → u.tile.isFull f.2 = true) ∧
         (∀ f ∈ flags, f.1 ≠ t.tile.tile →
           SentSome t.site .main (.tile f.1) (fun m => ∃ r, m = .setFlag r card f.1 f.2) t u) ∧
         ((∀ f ∈ flags, f.1 = t.tile.tile) → ended 0 u) ∧
         ((∃ f ∈ flags, f.1 ≠ t.tile.tile) → KeepsMemory t u ∧
           ∃ e, u.core.copyOf card = some e ∧ e.flagSent = true ∧ e.waits ≠ []))) ∧
     (j.ending = none → j.prog ≠ j.chunks → Runs (.copyJobEnd site core card) s (· = t)))) ∧
  (∀ (id : Nat) (p : Packet) (s t : State), Taken id p s t →
    let counted (c : Core) (cls : PostClass) (e : Core) : Prop :=
      ∀ k, e.post.count k = c.post.count k - (if k = cls then 1 else 0)
    (∀ d card fetch rep j, p.msg = .chunkData d card fetch rep → (t.coreAt d.core).copyOf card = some j →
      Runs (.replyArrival id) s (fun u =>
        let fails (k : BitVec 4) : CopyJob :=
          { j with ending := some k, endAddr := j.dst + BitVec.ofNat 64 (4096 * j.prog), reads := [] }
        (u.coreAt d.core).copyOf card = some (match rep with
          | .data _ _ => { j with reads := withAnswer fetch rep j.reads }
          | .race => fails 9
          | _ => fails 14) ∧ OnlyForCore d.core t u ∧ Gone id t u)) ∧
    (∀ d card fetch rep k f, p.msg = .rowReply d card fetch rep → (t.coreAt d.core).card card = some k →
      k.waits.find? (fun f => f.id == fetch) = some f →
      (∀ b n, rep = .data b n → ∀ m, k.job = .tld m → Runs (.replyArrival id) s (fun u =>
        let left := k.waits.filter (fun x => x.id != fetch)
        let x := (t.coreAt d.core).treg m
        let y := (u.coreAt d.core).treg m
        (∀ i, vget y.rows i 0 =
          if i = f.lane / 2 ∧ f.lane % 2 = 0 ∧ i < 32 then BitVec.ofNat 1024 (leNat b) else vget x.rows i 0) ∧
        (∀ i, vget y.scales i 0 =
          if i = f.lane / 2 ∧ f.lane % 2 = 1 ∧ i < 32 then BitVec.ofNat 64 (leNat b) else vget x.scales i 0) ∧
        y.tag = x.tag ∧
        (u.coreAt d.core).card card = some { k with waits := left, prog := if left = [] then k.prog + 1 else k.prog } ∧
        OnlyForCore d.core t u ∧ Gone id t u)) ∧
      (rep = .race → Runs (.replyArrival id) s (fun u =>
        let c := u.coreAt d.core
        c.regs = (t.coreAt d.core).regs ∧
        (∀ q, k.seq = some q →
          c.slotOf .matrix q = { seq := q, state := 2, fault := true, cause := 9, addr := BitVec.ofNat 48 f.va }) ∧
        (∀ x ∈ c.eng.cards, x ∈ (t.coreAt d.core).eng.cards ∧ x.num ≠ card) ∧ OnlyForCore d.core t u ∧ Gone id t u)) ∧
      (rep = .unreachable ∨ (∃ c, rep = .fault c) → Runs (.replyArrival id) s (fun u =>
        (u.coreAt d.core).card card =
          some { k with waits := [], state := .parked, fault := some (4, BitVec.ofNat 64 f.va) } ∧
        OtherCoresKept d.core t u ∧ KeepsMemory t u ∧ Gone id t u))) ∧
    (∀ d card fetch cls k, p.msg = .rowAck d card fetch cls false → (t.coreAt d.core).card card = some k →
      (t.coreAt d.core).acc.flushing = [] → Runs (.acknowledgementArrival id) s (fun u =>
        counted (t.coreAt d.core) cls (u.coreAt d.core) ∧
        (u.coreAt d.core).card card = some { k with waits := k.waits.filter (fun x => x.id != fetch) } ∧
        (u.coreAt d.core).regs = (t.coreAt d.core).regs ∧ OnlyForCore d.core t u ∧ Gone id t u)) ∧
    (∀ d card fetch ends raced cls j, p.msg = .chunkAck d card fetch ends raced cls →
      (t.coreAt d.core).copyOf card = some j → (t.coreAt d.core).acc.flushing = [] → t.tile.replay = none →
      Runs (.acknowledgementArrival id) s (fun u =>
        let left := j.waits.filter (fun w => w.1 != fetch)
        let last : Prop := j.flagSent = false ∧ ∀ w ∈ left, w.2 ≠ cls
        let why : Option (BitVec 4) := if raced then some 9 else if ends.isSome then some 14 else j.ending
        let e : CopyJob := { j with waits := left, ending := why }
        let e := if raced = true ∨ ends.isSome = true then
          { e with endAddr := j.dst + BitVec.ofNat 64 (4096 * j.prog), reads := [] } else e
        (last → counted (t.coreAt d.core) cls (u.coreAt d.core)) ∧
        (¬last → (u.coreAt d.core).post = (t.coreAt d.core).post) ∧
        (u.coreAt d.core).copyOf card = some
          (if left = [] ∧ why = none ∧ j.sent = j.prog + 1 then { e with prog := j.sent, run := j.next } else e) ∧
        OtherCoresKept d.core t u ∧ KeepsMemory t u ∧ Gone id t u)))

/-- R133, R343, R352, R353, R358, R363: servers claim tasks; the watchdog, breakpoints and coupling. -/
def Obligations.CoresChangeTasks : Prop :=
  ∀ (site : SiteId) (core : CoreId) (s : State),
    let t := s.focus site core
    let c := t.core
    let runs (i : Nat) (e : Task) (u : State) : Prop :=
      u.core.run = .running ∧ u.core.pc = e.pc ∧ u.core.win.depth = 1 ∧ u.core.win.res = 1 ∧ u.core.win.cwp = 0 ∧
      u.reg 8 = e.arg ∧ u.reg 9 = e.handle ∧ u.reg 15 = 0 ∧ u.core.task.served = e.handle ∧ u.core.task.inTask = true ∧
      (∀ r, c.slot = some r → u.core.win.wsp = r.wbase.setWidth 64) ∧
      u.tile.task i = { e with state := .running, core := t.coreNo } ∧ (∀ k, k ≠ i → u.tile.task k = t.tile.task k)
    let only (e : Task) (i : Nat) : Prop :=
      ∀ k < 64, k ≠ i → ¬((t.tile.task k).state = .queued ∧ (t.tile.task k).handle = e.handle)
    (c.run = .idleServer → t.tile.stopped = false → c.stopAsked = false → t.tile.replay = none → t.detRoom = true →
      (∀ i, t.tile.oldestTask t.team = some i → only (t.tile.task i) i → Runs (.taskClaim site core) s (fun u =>
        runs i (t.tile.task i) u ∧ u.tile.overflow = t.tile.overflow ∧ KeepsMemory t u)) ∧
      (∀ e i, t.tile.oldestTask t.team = none → t.tile.overflow.find? (fun e => e.team == t.team) = some e →
        t.tile.freeTask 56 = some i → e.state = .queued → only e i → Runs (.taskClaim site core) s (fun u =>
          runs i e u ∧ u.tile.overflow = t.tile.overflow.erase e ∧
          u.tile.overflowHead = t.tile.overflowHead + (if t.tile.overflow.head? = some e then 1 else 0) ∧
          u.tile.mem = t.tile.mem ∧ StoresInHbm u.tile.queueCells t u)) ∧
      (t.tile.oldestTask t.team = none → (∀ e ∈ t.tile.overflow, e.team ≠ t.team) →
        Runs (.taskClaim site core) s (· = t))) ∧
    (c.run ≠ .idleServer ∨ c.stopAsked = true → Runs (.taskClaim site core) s (· = t)) ∧
    (let due : Prop := t.tile.stopped = false ∧ c.commitWait = none ∧ c.run = .running ∧ c.pend = [] ∧ c.abandoned = [] ∧ c.task.inTask = true ∧
       c.task.counting = true ∧ c.tlimit ≠ 0 ∧ c.tlimit ≤ t.wafer.clock - c.task.since
     (due → Runs (.taskWatchdog site core) s (fun u =>
       TakesTrap 12 c.taskHandle t u ∧ u.core.task.counting = false)) ∧
     (¬due → Runs (.taskWatchdog site core) s (· = t))) ∧
    (∀ r, c.slot = some r →
      let hit : Prop := t.tile.stopped = false ∧ c.commitWait = none ∧ c.run = .running ∧ c.pend = [] ∧
        c.abandoned = [] ∧ c.inTrap = false ∧ c.trap.skip = false ∧ ∃ n < 2, breakAddress r n = some c.pc.toNat
      (hit → Runs (.breakpoint site core) s (TakesTrap 11 c.pc t)) ∧
      (¬hit → Runs (.breakpoint site core) s (· = t))) ∧
    (∀ n, c.coupling = .seeking n →
      let joins : Prop := n ≠ core ∧ (t.coreAt n).run = .running ∧ (∀ m, (t.coreAt n).coupling ≠ .following m) ∧
        c.run = .running ∧ (t.coreAt n).lastIssue = some c.pc
      (joins → Runs (.coupleFollow site core) s (· = { t with core := { c with coupling := .following n } })) ∧
      (¬joins → Runs (.coupleFollow site core) s (· = t)))

/-- R155, R337, R345, R347, R348, R356, R362, R364, R366, R368 to R371: slots are bound and emptied, teams are saved
and restored, time slices end, and commands resume cores and end threads and teams. The reasons of a pre-emption and
the operand that ends a halted thread are the model's reading (logs 88, 97). -/
def Obligations.TeamsComeAndGo : Prop :=
  (∀ (site : SiteId) (core : CoreId) (r : BindRecord) (s : State),
    let t := s.focusSite site
    let q : BindRecord :=
      match (if r.server then t.wafer.launch r.job (launchNo r.team) else none) with
      | some l => { r with wbase := BitVec.ofNat 32 (0x600000 - (core.toNat + 1) * l.wstack),
                           wlimit := BitVec.ofNat 32 (0x600000 - core.toNat * l.wstack) }
      | none => r
    let dword (o : Nat) : Word := BitVec.ofNat 64 (t.wafer.hbm.readNat (r.tileRecord.toNat + o) 8)
    (r.level ≠ 3 → Runs (.bindRecordWrite site core (some r)) s (fun u =>
      let e := u.coreAt core
      e.pc = r.entry ∧ e.slot = some q ∧ e.level.bits = r.level ∧ e.win.wsp = q.wbase.setWidth 64 &&& 0x7FFF80 ∧
      e.win.wslim = q.wlimit.setWidth 64 &&& 0x7FFF80 ∧ e.reg 8 = r.arg ∧ e.trap.tvec = r.tvec &&& 0xFFFFFFFFFFFE ∧
      e.run = (if r.server then .idleServer else .running) ∧ field e.ptbase 12 36 = r.root.toNat ∧
      u.tile.job = some r.job ∧ u.tile.jt = r.team.setWidth 12 ∧ u.tile.jshape = r.jshape ∧ u.tile.far = [] ∧
      u.tile.sliceAt = t.wafer.clock ∧
      (t.belongs r = true → u.tile.mem = t.tile.mem ∧ u.tile.full = t.tile.full ∧ u.tile.pool = t.tile.pool ∧
        OtherCoresKept core t u) ∧
      (t.belongs r = false → u.tile.mem = [] ∧ u.tile.full = [] ∧ (∀ k, k ≠ core → u.coreAt k = {}) ∧
        (∀ k < 8, vget u.tile.evc k 0 = dword (8 * k)) ∧ u.tile.tseq = (dword 0x40).setWidth 32) ∧
      u.wafer.hbm = t.wafer.hbm)) ∧
    (let lastOne : Prop := (t.coreAt core).slot ≠ none ∧ ∀ k, k ≠ core → (t.coreAt k).slot = none
     Runs (.bindRecordWrite site core none) s (fun u => u.coreAt core = {} ∧ OtherCoresKept core t u ∧ u.tile = t.tile ∧
      (¬lastOne → u.wafer = t.wafer) ∧ (lastOne → StoresInHbm t.tile.recordCells t u)))) ∧
  (∀ (site : SiteId) (s : State),
    let t := s.focusSite site
    let mine (team : W32) (c : CoreId) : Prop := ∃ r, (t.coreAt c).slot = some r ∧ r.team = team
    let away : Prop := ∃ a ∈ t.wafer.healing.away, a.site = site
    let may (team : W32) : Prop := away ∨ t.crowded = true ∨ ∃ k ∈ t.wafer.saved, k.tile = t.tile.tile ∧
      k.prio.toNat < t.tile.prio.toNat ∧ ∃ p ∈ k.slots, mine team p.1
    let leaves (team : W32) (u : State) : Prop :=
      (∀ c, mine team c → (u.coreAt c).slot = none ∧ (u.coreAt c).run = .unbound) ∧
      (∀ c, ¬mine team c → (u.coreAt c).slot = (t.coreAt c).slot ∧ (u.coreAt c).regs = (t.coreAt c).regs ∧
        (u.coreAt c).pc = (t.coreAt c).pc) ∧
      (∃ k, u.wafer.saved = t.wafer.saved ++ [k] ∧ k.team = team ∧ k.tile = t.tile.tile ∧
        ∀ c r, (c, r) ∈ k.slots ↔ (t.coreAt c).slot = some r ∧ r.team = team) ∧
      u.tile.mem = t.tile.mem ∧ u.tile.leaving = none
    t.tile.leaving = none →
    (∀ team, (∃ c, mine team c) → may team → StandsStill t →
      Runs (.preemptionRequest site team) s (leaves team)) ∧
    (∀ team, (∀ c, ¬mine team c) ∨ ¬may team → Runs (.preemptionRequest site team) s (· = t)) ∧
    (t.wafer.clock < t.tile.sliceAt + 2 ^ 20 → Runs (.timeSliceExpiry site) s (· = t)) ∧
    (t.tile.sliceAt + 2 ^ 20 ≤ t.wafer.clock → ¬away →
      (∀ team, t.sliceVictim = some team → StandsStill t → Runs (.timeSliceExpiry site) s (leaves team)) ∧
      (t.sliceVictim = none → Runs (.timeSliceExpiry site) s (· = t))) ∧
    (∀ a, t.tile.sliceAt + 2 ^ 20 ≤ t.wafer.clock → t.wafer.healing.away = [a] → a.site = site → StandsStill t →
      t.tile.dets = [] → (a.image.cores.map (·.1)).Nodup → Runs (.timeSliceExpiry site) s (fun u =>
        (a.saved = false → u.tile = { a.image.tile with
          boundaryAt := t.wafer.clock, sliceAt := t.wafer.clock, pausedAt := none }) ∧
        u.tile.tile = a.image.tile.tile ∧ u.tile.mem = a.image.tile.mem ∧ u.tile.full = a.image.tile.full ∧
        (∀ p ∈ a.image.cores, (u.coreAt p.1).slot = p.2.slot) ∧
        ∃ o, u.wafer.healing.away = [o] ∧ o.site = site ∧ o.saved = true ∧ o.image.tile.tile = t.tile.tile ∧
          o.image.tile.mem = t.tile.mem ∧ o.image.tile.full = t.tile.full))) ∧
  (∀ (job : BitVec 6) (team : W32) (s : State) (k : SavedTeam) (x : SiteId),
    s.wafer.saved.find? (fun t => t.job == job && t.team == team) = some k → s.carrier k.tile = some x →
    let t := s.focusSite x
    (k.slots.map (·.1)).Nodup → (∀ p ∈ k.slots, (t.coreAt p.1).slot = none) → t.tile.stopped = false →
    t.tile.replay = none → Runs (.teamRestore job team) s (fun u =>
      k ∉ u.wafer.saved ∧ u.wafer.hbm = t.wafer.hbm ∧ u.tile.far = [] ∧ u.tile.sliceAt = t.wafer.clock ∧ ∀ p ∈ k.slots,
        let a := p.2.save.toNat + p.1.toNat * 0x30000
        let w (o : Nat) : Word := BitVec.ofNat 64 (t.wafer.hbm.readNat (a + o) 8)
        let e := u.coreAt p.1
        e.slot = some p.2 ∧ e.pc = w 0x98 ∧ e.win.wsp = w 0x40 &&& 0x7FFF80 ∧ e.win.wslim = w 0x48 &&& 0x7FFF80 ∧
        e.trap.tvec = w 0x58 &&& 0xFFFFFFFFFFFE ∧ e.trap.tval = w 0x70 ∧ e.fp.gs = w 0x10 ∧
        (∀ i < 256, vget e.regs.frames i 0 = w (0x180 + 8 * i)) ∧ (∀ i < 24, vget e.regs.trapWin i 0 = w (0x980 + 8 * i)) ∧
        (∀ i < 32, (vget e.regs.vregs i {}).data = BitVec.ofNat 512 (t.wafer.hbm.readNat (a + 0xA80 + 64 * i) 64)))) ∧
  (∀ (tag : W32) (tile : TileNo) (core : CoreId) (finish : Bool) (s : State) (x : SiteId), s.carrier tile = some x →
    let c := s.coreOfSite x core
    (c.run = .halted → finish = false → Runs (.resumeCore tag tile ⟨core, finish⟩) s (fun u =>
      u.coreOfSite x core = { c with run := .running } ∧ Completes tag 0 s u)) ∧
    (∀ r d q, c.run = .halted → finish = true → c.slot = some r → d ≠ core → (s.coreOfSite x d).slot = some q →
      q.team = r.team → q.server = false → (s.coreOfSite x d).task.code = none →
      Runs (.resumeCore tag tile ⟨core, finish⟩) s (fun u =>
        let e := u.coreOfSite x core
        e.run = .idleServer ∧ e.slot = c.slot ∧ e.task.served = 0 ∧ e.task.inline = [] ∧
        (c.task.served = 0 → e.task.code = some 0) ∧ e.regs = c.regs ∧ Completes tag 0 s u)) ∧
    (c.run = .trapped → finish = false → field c.trap.tstat 1 2 ≠ 3 → Runs (.resumeCore tag tile ⟨core, finish⟩) s (fun u =>
      let e := u.coreOfSite x core
      e.run = .running ∧ e.pc = c.trap.tpc &&& 0xFFFFFFFFFFFE ∧ e.level.bits.toNat = field c.trap.tstat 1 2 ∧
      e.trap = { c.trap with tstat := c.trap.tstat &&& ~~~(1 : Word) } ∧ e.regs = c.regs ∧ Completes tag 0 s u)) ∧
    (c.run ≠ .halted → c.run ≠ .trapped ∨ finish = true → Runs (.resumeCore tag tile ⟨core, finish⟩) s (fun u =>
      ∃ status, Completes tag status s u ∧ u = { s with wafer := { s.wafer with completions := u.wafer.completions } }))) ∧
  (∀ (tag : W32) (job : BitVec 6) (team : W32) (s : State),
    (∀ k, s.wafer.saved.find? (fun k => k.job == job && k.team == team) = some k → Runs (.endTeam tag job team) s (fun u =>
      k ∉ u.wafer.saved ∧ Completes tag 0 s u ∧ (∀ y c, u.coreOfSite y c = s.coreOfSite y c) ∧
      (∀ y, (u.tileAt y).mem = (s.tileAt y).mem) ∧ u.wafer.host = s.wafer.host ∧ u.wafer.peer = s.wafer.peer ∧
      (∀ y, s.carrier k.tile = some y →
        (∀ i, (u.tileAt y).task i = if ((s.tileAt y).task i).team = team then {} else (s.tileAt y).task i) ∧
        (u.tileAt y).overflow = (s.tileAt y).overflow.filter (fun e => e.team != team) ∧
        ((∀ e ∈ (s.tileAt y).overflow, e.team ≠ team) → u.wafer.hbm = s.wafer.hbm)))) ∧
    (∀ x, (∀ k ∈ s.wafer.saved, ¬(k.job = job ∧ k.team = team)) → s.jobTileSite job (team.toNat % 4096) = some x →
      (s.wafer.launch job (launchNo team)).isSome = true → Runs (.endTeam tag job team) s (fun u =>
        (∀ c, (s.coreOfSite x c).ofTeam team = true → (u.coreOfSite x c).slot = none ∧
          (u.coreOfSite x c).run = .unbound ∧ (u.coreOfSite x c).pend = []) ∧ Completes tag 0 s u)))

/-- R56, R143, R203, R280, R337, R409, R438, R460: writes of the registers that do more than hold their fields, by mtc and
as operations of their own. -/
def Obligations.RegisterWritesWithEffects : Prop :=
  ∀ s : State,
    let j := s.junction
    let keeps (l : List Nat) (u : State) : Prop := ∀ m < 4096, m ∉ l → u.cregValue m = s.cregValue m
    let may : Prop := s.site ∈ ([0x000, 0x03F, 0xFC0, 0xFFF] : List SiteId) ∧ j.plaBusy = false ∧
      quadrant s.site ∉ s.wafer.boot.handedOff
    let quiet : Prop := (∀ k r, s.core.row k = some r → r.det = true) ∧ s.core.acc.flight = 0 ∧
      ∀ b ∈ s.core.acc.inbound, b.det = true
    let unit := s.core.errsel.getLsbD 4
    let chosen := field s.core.errsel 2 2
    let cleared (u : State) : Prop := keeps [0x151] u ∧
      (∀ k < 4, vget u.tile.bank k {} = if unit = false ∧ k = chosen then {} else vget s.tile.bank k {}) ∧
      ∀ k < 4, vget u.junction.bank k {} = if unit = true ∧ k = chosen then {} else vget j.bank k {}
    let op (v : Word) : Nat := field v 0 4
    let listed (v : Word) : Prop := 1 ≤ op v ∧ op v ≤ 5
    let unlisted (u : State) : Prop := field (u.cregValue 0x131) 48 8 = 0xFF ∧ field (u.cregValue 0x131) 63 1 = 0 ∧
      keeps [0x131] u
    let same (u : State) : Prop := keeps [] u
    (∀ c : BitVec 3, s.detRoom = true → WritesRegister (0x048 + c.toNat) [.evcWrite c] (fun _ => True) (fun v u =>
      let old := vget s.tile.evc c.toNat 0
      let new := vget u.tile.evc c.toNat 0
      field new 0 32 = field v 0 32 ∧ new.getLsbD 32 = (old.getLsbD 32 && !v.getLsbD 32) ∧
      Releases c (fun b => field old 0 32 < field v 0 32 ∧ b ≤ field v 0 32) 0 s u ∧
      (field old 0 32 ≠ field v 0 32 → u.core.wake = true ∧ ∀ p ∈ u.others, p.2.wake = true) ∧
      keeps [0x048 + c.toNat] u) s) ∧
    WritesRegister 0x00A [.srseedWrite] (fun _ => True) (fun v u =>
      u.cregValue 0x00A = (if v = 0 then 0x9E3779B97F4A7C15 else v) ∧ keeps [0x00A] u) s ∧
    WritesRegister 0x120 [.ptbaseWrite] (fun _ => True) (fun v u =>
      u.cregValue 0x120 = v &&& 0x0000FFFFFFFFF000 ∧ u.core.tlb = [] ∧ keeps [0x120] u) s ∧
    (quiet → WritesRegister 0x058 [.accmodeWrite] (fun _ => True) (fun v u =>
      u.cregValue 0x058 = v &&& 3 ∧ keeps [0x058] u) s) ∧
    (¬quiet → (∀ x, Runs (.mtc x 0x058) s (fun u => Waits s u ∧ u.cregValue 0x058 = s.cregValue 0x058)) ∧
      ∀ v, Runs (.accmodeWrite v) s (fun u => Waits s u ∧ u.cregValue 0x058 = s.cregValue 0x058)) ∧
    WritesRegister 0x140 [] (fun _ => True) (fun v u =>
      field u.tile.ckctl 32 16 = max 1 (field v 32 16) ∧
      field u.tile.ckctl 16 13 = max 256 (min 4096 (field v 16 13)) ∧
      field u.tile.ckctl 0 5 = max 12 (min 30 (field v 0 5)) ∧ u.tile.ckctl &&& ~~~0x0000FFFF1FFF001F = 0 ∧
      keeps [0x140] u) s ∧
    WritesRegister 0x151 [fun _ => .errdataClear] (fun v => v.getLsbD 0 = true) (fun _ u => cleared u) s ∧
    WritesRegister 0x151 [] (fun v => v.getLsbD 0 = false) (fun _ u => same u) s ∧
    (may → WritesRegister 0x131 [] listed (fun v u =>
      field (u.cregValue 0x131) 63 1 = 1 ∧ field (u.cregValue 0x131) 0 4 = op v ∧
      field (u.cregValue 0x131) 48 8 = field (s.cregValue 0x131) 48 8 ∧ keeps [0x131] u) s ∧
      WritesRegister 0x131 [fun v => .plaUnlistedOp (v.setWidth 4)] (fun v => ¬listed v) (fun _ u => unlisted u) s ∧
      WritesRegister 0x132 [] (fun _ => True) (fun v u => u.cregValue 0x132 = v ∧ keeps [0x132] u) s ∧
      WritesRegister 0x135 [] (fun _ => True) (fun v u =>
        u.cregValue 0x135 = v &&& 0xFFF ∧ keeps [0x135, 0x136] u) s ∧
      WritesRegister 0x136 [.pointsEntryWrite] (fun _ => True) (fun v u =>
        let x : SiteId := v.setWidth 12
        let names : Prop := v.getLsbD 12 = true ∧ j.plaIdx.toNat < 3840
        (names → (∀ k, findPoint u.junction.points k = if k = j.plaIdx.toNat then some x else findPoint j.points k) ∧
          ∀ y, mapState u.junction.map y = if y = x.toNat then 1 else mapState j.map y) ∧
        (¬names → (∀ k, findPoint u.junction.points k = if k = j.plaIdx.toNat then none else findPoint j.points k) ∧
          u.junction.map = j.map) ∧
        keeps [0x134, 0x136] u) s) ∧
    (¬may → ∀ e ∈ [(0x131, [fun v : Word => Instr.plaUnlistedOp (v.setWidth 4)]), (0x132, []), (0x135, []),
      (0x136, [.pointsEntryWrite])], WritesRegister e.1 e.2 (fun _ => True) (fun _ u => same u) s) ∧
    (∀ (write : Bool) (x : BitVec 5),
      let e : Instr := .fflagsAccess write x
      (s.core.flagsPending = true → Runs e s (· = s)) ∧
      (s.core.flagsPending = false → write = true → Runs e s (fun u =>
        u.cregValue 0x009 = s.reg x &&& 0x1F ∧ keeps [0x009] u ∧ u.core.regs = s.core.regs ∧ KeepsMemory s u)) ∧
      (s.core.flagsPending = false → write = false → Runs e s (fun u =>
        WritesScalar x (s.cregValue 0x009) s.core u.core ∧ u = { s with core := { s.core with regs := u.core.regs } } ∧
        KeepsMemory s u)))

/-- R410 to R413, R416, R421, R422, R424, R427, R429, R430, R434: boundaries, their commits, and what the holder
keeps. That a boundary is one step is the model's choice (log 20). -/
def Obligations.BoundariesAndCommits : Prop :=
  (∀ (site : SiteId) (s : State),
    let t := s.focusSite site
    let l := t.tile.tile
    let due : Prop := t.keepsWaybill = true ∧ t.tile.stopped = false ∧
      t.tile.boundaryAt + 2 ^ field t.tile.ckctl 0 5 ≤ t.wafer.clock
    (due → Runs (.intervalTimer site) s (AsksBoundary t)) ∧ (¬due → Runs (.intervalTimer site) s (· = t)) ∧
    (t.keepsWaybill = true → t.tile.closeAsked = true ∨ t.tile.depotAsked = true → StandsStill t →
      (∀ k ∈ t.wafer.saved, ∀ c, (t.coreAt c).ofTeam k.team = false) → Runs (.checkpointBoundary site) s (fun u =>
        field u.tile.intv 0 32 = (field t.tile.intv 0 32 + 1) % 2 ^ 32 ∧ u.tile.mem = t.tile.mem ∧
        u.tile.full = t.tile.full ∧ u.tile.closeAsked = false ∧ u.tile.depotAsked = false ∧ u.tile.dirty = [] ∧
        u.tile.far = [] ∧ u.tile.boundaryAt = t.wafer.clock ∧
        (∀ k,
          let c := (t.coreAt k).shiftRows (t.wafer.clock - t.tile.pausedAt.getD t.wafer.clock)
          u.coreAt k = { c.unfollow with
            stopAsked := t.tile.calls c, eng := { c.eng with fresh := 0 }, task := { c.task with joinWaits := false } }) ∧
        (∃ d, u.tile.dets = t.tile.dets ++ [d] ∧ d.kind = .boundary ∧
          (∀ c : CoreId, d.places.getD c.toNat 0 = (t.coreAt c).retired) ∧
          ∀ b, t.wafer.waybill l = some b → Sent t.site .relief b.dest (.determinant l t.detCount d) t u) ∧
        WaybillStep l (fun b c => c.committed = b.committed ∧ ∃ img, c.staged = some (img, t.detCount + 1) ∧
          img.tile.mem = t.tile.mem ∧ img.tile.intv = u.tile.intv ∧
          ∀ k, (findCore img.cores k).regs = (t.coreAt k).regs ∧ (findCore img.cores k).pc = (t.coreAt k).pc) t u ∧
        (t.openRound = none → u.wafer.hbm = t.wafer.hbm))) ∧
    (t.tile.replay = none → t.tile.closeAsked = false → t.tile.depotAsked = false →
      Runs (.checkpointBoundary site) s (· = t)) ∧
    (∀ b img n, t.wafer.waybill l = some b → b.staged = some (img, n) →
      (b.applying = false → t.tile.stopped = false → n ≤ b.logBase + b.log.length →
        Runs (.boundaryCommit site) s (fun u =>
          WaybillStep l (fun _ c => c.committed = img ∧ c.staged = none ∧ c.applying = true ∧
            c.log = b.log.drop (n - b.logBase) ∧ c.logBase = max n b.logBase) t u ∧
          (∀ k, (u.coreAt k).commitWait =
            if (t.coreAt k).commitWait.any (fun w => atMost w (img.tile.intv.setWidth 32 - 1)) then none
            else (t.coreAt k).commitWait) ∧
          (∀ e ∈ t.wafer.healing.sent, e.dst = l → e.num < img.tile.detBase → ∀ c k q m, e.pkt.msg.stamp = some (c, k, q) →
            findMark img.tile.marks c = some m →
            Sent t.site .relief (.tile c.tile) (.commitNotice l c m.aseq m.mseq m.oseq) t u) ∧
          (b.holder = .hbm → img.tile.mem.wf = true → ∀ a < 0x600000,
            u.wafer.hbm.read (b.region + 0x1200000 + a) = img.tile.mem.read a) ∧
          (∀ x, b.holder = .buddy x → ∀ a, a < b.region ∨ b.region + (img.area + 255) / 256 * 256 ≤ a →
            u.wafer.hbm.read a = t.wafer.hbm.read a) ∧ u.tile.mem = t.tile.mem)) ∧
      (b.applying = true ∨ t.tile.stopped = true ∨ b.logBase + b.log.length < n →
        Runs (.boundaryCommit site) s (· = t))) ∧
    (let live : Prop := t.tile.stopped = false ∧ t.tile.replay = none
     (live → Runs (.outputMarkReport site) s (fun u => WaybillStep l (fun _ c => c.boxMark = t.tile.box.seq ∧
        ∀ k ∈ t.coreNo :: t.others.map (·.1), ∃ m ∈ c.marks, m.core = k ∧ m.aseq = (t.coreAt k).acc.aseq ∧
          m.mseq = (t.coreAt k).sync.msgSeq ∧ m.oseq = (t.coreAt k).post.oseq) t u ∧ u.tile = t.tile ∧ u.core = t.core)) ∧
     (¬live → Runs (.outputMarkReport site) s (· = t))) ∧
    (t.tile.stopped = false → t.junction.passThrough = false → Runs (.heartbeat site) s (fun u =>
      u.tile = { t.tile with beat := t.tile.beat + 1 } ∧
      WaybillStep l (fun _ c => c.beat = t.tile.beat + 1 ∧ c.beatAt = t.wafer.clock) t u)) ∧
    (t.tile.stopped = true ∨ t.junction.passThrough = true → Runs (.heartbeat site) s (· = t)) ∧
    (∀ (l : TileNo) (b : Waybill), s.wafer.waybill l = some b → Runs (.shadowApplyComplete site) s (fun u =>
      ∃ c, u.wafer.waybill l = some c ∧ c = { b with applying := c.applying } ∧
        (b.holder = .buddy site → c.applying = false) ∧
        (∀ x, b.holder = .buddy x → x ≠ site → c.applying = b.applying)))) ∧
  (∀ (id : Nat) (p : Packet) (s t : State), AtJunction id p s t →
    (∀ l, p.msg = .closeRequest l → t.keepsWaybill = true → t.tile.stopped = false →
      Runs (.closeRequestArrival id) s (fun u => AsksBoundary t u ∧ Gone id t u)) ∧
    (∀ l num, p.msg = .confirm l num → Runs (.determinantConfirmation id) s (fun u =>
      let n := max t.tile.confirmed (num + 1)
      u.tile = { t.tile with
        confirmed := n, dets := t.tile.dets.drop (n - t.tile.detBase), detBase := max n t.tile.detBase } ∧
      u.core = t.core ∧ u.others = t.others ∧ Gone id t u)) ∧
    (∀ from_ to_ entry x, p.msg = .sendLogFetch from_ to_ entry → t.carrier from_ = some x →
      Runs (.sendLogFetch id) s (fun u =>
        u.tileAt x = { t.tileAt x with fetched := (t.tileAt x).fetched ++ [entry] } ∧ Gone id t u)) ∧
    (∀ from_ src a m o, p.msg = .commitNotice from_ src a m o →
      let covered (k : Nat) (q : W32) : Prop := ∃ n, (if k = 0 then a else if k = 1 then m else o) = some n ∧ atMost q n = true
      let freed (k : Mark) : Prop := k.src = src ∧ k.bseq = none ∧ (∀ q, k.aseq = some q → covered 0 q) ∧
        (∀ q, k.mseq = some q → covered 1 q) ∧ (∀ q, k.oseq = some q → covered 2 q) ∧
        ∀ h, k.half = some h → covered 2 h.1
      (src.tile ≠ from_ → Runs (.commitNoticeArrival id) s (fun u => (∀ e, e ∈ u.wafer.healing.sent ↔
        e ∈ t.wafer.healing.sent ∧
          ¬(e.dst = from_ ∧ ∃ k q, e.pkt.msg.stamp = some (src, k, q) ∧ covered k q)) ∧ u.tile = t.tile ∧ Gone id t u)) ∧
      (src.tile = from_ → p.dest.rim = false → Runs (.commitNoticeArrival id) s (fun u =>
        (∀ k, k ∈ u.tile.marks ↔ k ∈ t.tile.marks ∧ ¬freed k) ∧ u.tile = { t.tile with marks := u.tile.marks } ∧
        Gone id t u)) ∧
      (∀ c, src.tile = from_ → p.dest = .controller c → Runs (.commitNoticeArrival id) s (fun u =>
        (∀ k, k ∈ u.rimMarks c ↔ k ∈ t.rimMarks c ∧ ¬freed k) ∧ u.tile = t.tile ∧ Gone id t u)))) ∧
  (∀ (id : Nat) (p : Packet) (s : State) (l : TileNo) (num n : Nat) (d : Det) (b : Waybill),
    s.packet id = some p → p.arrived = some n → s.behind p n = false →
    p.dest.rim = true ∨ (s.junctionAt p.site).passThrough = false → p.msg = .determinant l num d →
    s.wafer.waybill l = some b → Runs (.determinantRecordArrival id) s (fun u =>
      let next := b.logBase + b.log.length
      WaybillStep l (fun _ c => c.log = if num = next then b.log ++ [d] else b.log) s u ∧
      (num = next → ∀ k (h : k < d.bytes.length),
        u.wafer.hbm.read (b.region + 0x100000 + (b.logAt + k) % 2 ^ 24) = d.bytes[k]) ∧
      (num ≠ next → u.wafer.hbm = s.wafer.hbm) ∧ Sent p.site .relief (.tile l) (.confirm l num) s u ∧ Gone id s u))

/-- R25, R420, R432 to R434, R436, R439, R441, R444, R447, R449: machine checks, fences, reserves, restoration, the
end of a replay, and the losses of holders, cranes, links and power. Which lines of a unit an error report names is
the model's choice (log 86). -/
def Obligations.FailuresAreRecovered : Prop :=
  (∀ (site : SiteId) (err : ErrorReport) (s : State),
    let t := s.focusSite site
    let n := err.src.toNat
    let e (sev : BitVec 2) : ErrRec := newError sev (sev == 3) false err t.clock
    let same (u : State) : Prop := u.tile = t.tile ∧ u.core = t.core ∧ u.others = t.others ∧ KeepsMemory t u
    let checked (u : State) : Prop := Fenced t u ∧
      (t.tile.stopped = false → RecordsError (e 3) t.tile.bank u.tile.bank) ∧
      (t.tile.stopped = true → u.tile.bank = t.tile.bank)
    let runs (post : State → Prop) : Prop := Runs (.machineCheck site err) s post
    (n = 10 → err.corrected = true → runs (fun u => RecordsError (e 1) t.junction.bank u.junction.bank ∧ same u)) ∧
    (n = 13 ∨ (n = 10 ∧ err.corrected = false) → runs (fun u =>
      RecordsError (e 3) t.junction.bank u.junction.bank ∧ JunctionChecked t u)) ∧
    (n = 14 → err.corrected = true → runs (fun u => same u ∧
      RecordsIn (err.addr.toNat / 4096 % 40) (e 1) t.wafer.rim.banks u.wafer.rim.banks)) ∧
    (n = 15 ∨ (n = 14 ∧ err.corrected = false) → runs (· = { t with wafer := { t.wafer with rim := { t.wafer.rim with
      failing := t.wafer.rim.failing ++ [{ a := err.addr.toNat, src := err.src, synd := err.synd }] } } })) ∧
    (n = 16 → runs (fun u => u.tile.mem = t.tile.mem ∧ u.junction = t.junction ∧
      RecordsError (e (if err.corrected then 1 else 2)) t.tile.bank u.tile.bank ∧
      (err.corrected = false →
        WaybillStep t.tile.tile (fun _ c => c.holder = .hbm ∧ c.lost = true ∧ c.staged = none) t u))) ∧
    (n = 11 ∨ n = 17 → runs (· = t)) ∧
    (n = 2 → err.corrected = false →
      (err.addr.toNat < 7 * 2 ^ 20 → runs (fun u => RecordsError (e 2) t.tile.bank u.tile.bank ∧
        u.tile.mem = t.tile.mem ∧ u.junction = t.junction ∧ ∀ l b x, t.wafer.waybill l = some b →
          b.holder = .buddy site → t.carrier l = some x → (u.tileAt x).closeAsked = true)) ∧
      (7 * 2 ^ 20 ≤ err.addr.toNat → runs checked)) ∧
    (n ∉ [10, 11, 13, 14, 15, 16, 17] → err.corrected = true ∨ n = 3 ∨ n = 5 → runs (fun u =>
      RecordsError (e 1) t.tile.bank u.tile.bank ∧ u.tile = { t.tile with bank := u.tile.bank, far := u.tile.far } ∧
      u.tile.far = (if n = 3 then t.tile.far.eraseIdx (field err.addr 0 10) else t.tile.far) ∧
      u.junction = t.junction ∧ (∀ c, ∃ ib, u.coreAt c = { t.coreAt c with ibuf := ib }) ∧ KeepsMemory t u)) ∧
    (n ∉ [2, 3, 5, 10, 11, 13, 14, 15, 16, 17] → err.corrected = false →
      (errorDiffers err = true → runs checked) ∧ (errorDiffers err = false → runs (· = t))) ∧
    (∀ b, t.wafer.waybill t.tile.tile = some b →
      let due : Prop := t.keepsWaybill = true ∧ b.beatAt + field t.tile.ckctl 32 16 * 1024 ≤ t.wafer.clock
      (due → Runs (.watchdogTimeout site) s (fun u => Fenced t u ∧ (t.tile.stopped = false → ∃ e : ErrRec,
        e.src = 12 ∧ e.sev = 3 ∧ e.mc = true ∧ RecordsError e t.tile.bank u.tile.bank))) ∧
      (¬due → Runs (.watchdogTimeout site) s (· = t))) ∧
    (∀ (port : Port) (line : Line) (exhausted : Bool), Runs (.flitCrcFailure site port line exhausted) s (fun u =>
      (∃ e : ErrRec, e.src = 10 ∧ e.sev = (if exhausted then 3 else 1) ∧ e.mc = exhausted ∧
        e.addr.toNat = portNo port + (if line = .relief then 4 else 0) ∧
        RecordsError e t.junction.bank u.junction.bank) ∧
      (exhausted = true → JunctionChecked t u) ∧ (exhausted = false → u.tile = t.tile ∧ u.core = t.core)))) ∧
  (∀ (tile : TileNo) (place : Option SiteId) (s : State) (r : Recovery) (b : Waybill), s.recovery tile = some r →
    s.wafer.waybill tile = some b →
    let turn (x : SiteId) : Nat := (quadrant x - quadrant r.failed).toNat
    let domain (x : SiteId) : Nat × Nat := (field x 9 3, field x 3 3)
    let fit (x : SiteId) : Prop := (s.junctionAt x).status = .reserve ∧ (s.junctionAt x).located = true ∧
      (s.junctionAt x).passThrough = false ∧ (∀ k ∈ s.wafer.healing.recoveries, k.site ≠ some x) ∧
      ∀ y, b.holder = .buddy y → domain x ≠ domain y
    let carries (x : SiteId) : Prop := x ≠ r.failed ∧
      ((s.junctionAt x).status = .reserve ∨ (s.junctionAt x).status = .logical) ∧
      (s.junctionAt x).passThrough = false ∧ (∀ k ∈ s.wafer.healing.recoveries, k.site ≠ some x) ∧
      ∀ y, b.holder = .buddy y → domain x ≠ domain y
    let better (x y : SiteId) : Prop := turn x < turn y ∨ (turn x = turn y ∧
      (hops r.failed x < hops r.failed y ∨ (hops r.failed x = hops r.failed y ∧ x.toNat < y.toNat)))
    let often : Prop := 3 ≤ b.failures.countP (fun t => decide (s.wafer.clock < t + 2 ^ 30))
    let goes (x : SiteId) (u : State) : Prop := RecoveryAt tile .held (some x) r u ∧ KeepsMemory s u
    (r.phase = .fenced →
      (∀ x, fit x → (∀ y, fit y → y ≠ x → better x y) → ¬(often ∧ ∃ y, place = some y ∧ carries y) →
        Runs (.holdComplete tile place) s (goes x)) ∧
      (∀ x, often → place = some x → carries x → Runs (.holdComplete tile place) s (fun u => goes x u ∧
        u.wafer.notices = s.wafer.notices ++ [.replaced tile])) ∧
      (∀ x, ¬often → (∀ y, ¬fit y) → place = some x → carries x → Runs (.holdComplete tile place) s (fun u => goes x u ∧
        ∃ n, u.wafer.notices = s.wafer.notices ++ [.capacityLoss n])) ∧
      ((∀ y, ¬fit y) → (∀ x, place = some x → ¬carries x) → Runs (.holdComplete tile place) s (· = s))) ∧
    (∀ x, r.phase = .held → r.site = some x → Runs (.pointsChangeComplete tile) s (fun u =>
      RecoveryAt tile .moved (some x) r u ∧
      (∀ y, y = x ∨ (y ∈ s.siteIds ∧ (s.junctionAt y).points ≠ []) →
        findPoint (u.junctionAt y).points tile.toNat = some x ∧
        ∀ k, k ≠ tile.toNat → findPoint (u.junctionAt y).points k = findPoint (s.junctionAt y).points k) ∧
      (∀ y, y = x ∨ y ∈ s.siteIds → ∀ k, mapState (u.junctionAt y).map k =
        if k = x.toNat then 1 else if k = r.failed.toNat then 3 else mapState (s.junctionAt y).map k) ∧
      (u.junctionAt x).status = .logical ∧
      ((∀ l ∈ s.wafer.launches, (s.tileAt r.failed).job ≠ some l.job) →
        ∀ y, (u.junctionAt y).trees = (s.junctionAt y).trees) ∧
      ∀ p ∈ u.wafer.net, p.dest = .tile tile → p.site = x)) ∧
    (∀ x, r.phase = .moved → r.site = some x → b.lost = false →
      (∀ p ∈ s.wafer.net, ∀ l n d, p.msg = .determinant l n d → l ≠ tile ∧ l ∉ r.members) →
      let h := s.focusSite x
      let shared : Prop := h.keepsWaybill = true ∧ h.tile.tile ≠ tile ∧ x ≠ r.failed
      let img := b.committed
      (∀ k ∈ s.wafer.saved, ∀ p ∈ img.cores, p.2.ofTeam k.team = false) →
      Runs (.restorationComplete tile) s (fun u => RecoveryAt tile .restored (some x) r u ∧
        (r.members = [] → StoresInHbm img.tile.queueCells s u) ∧
        (r.members = [] → ¬shared →
          let v := u.tileAt x
          v.tile = img.tile.tile ∧ v.mem = img.tile.mem ∧ v.full = img.tile.full ∧ v.evc = img.tile.evc ∧
          v.pool = img.tile.pool ∧ v.bank = (s.tileAt r.failed).bank ∧
          (∃ l, v.replay = some l ∧ l.map (·.2) = b.log ∧ l.map (·.1) = List.range' b.logBase b.log.length) ∧
          ∀ k, (u.coreOfSite x k).regs = (findCore img.cores k).regs ∧
            (u.coreOfSite x k).pc = (findCore img.cores k).pc ∧
            (u.coreOfSite x k).eng.perturb = (findCore img.cores k).eng.perturb &&& 0x7FFFFFFFFFFFFFFF) ∧
        (r.members = [] → shared → u.tileAt x = h.tile ∧ ∃ a ∈ u.wafer.healing.away, a.site = x ∧
          a.image.tile.tile = img.tile.tile ∧ a.image.tile.mem = img.tile.mem) ∧
        (r.members = [] → x ≠ r.failed →
          (u.tileAt r.failed).mem = [] ∧ (u.tileAt r.failed).bank = (s.tileAt r.failed).bank))) ∧
    (r.phase = .restored → (∀ l ∈ tile :: r.members, s.replayDone l = true) → Runs (.replayEnd tile) s (fun u =>
      (∀ k ∈ u.wafer.healing.recoveries, k.tile ≠ tile) ∧ (∀ l ∈ tile :: r.members, l ∉ u.wafer.healing.holds) ∧
      (u.junctionAt r.failed).status = .failed ∧
      (r.members = [] → ∀ x, s.carrier tile = some x →
        (u.tileAt x).replay = none ∧ (u.tileAt x).flagged = true ∧ (u.tileAt x).mem = (s.tileAt x).mem) ∧
      (r.members = [] → s.carrier tile = none → ∀ a ∈ u.wafer.healing.away, a.image.tile.tile = tile →
        a.image.tile.replay = none))) ∧
    (r.phase ≠ .restored → Runs (.replayEnd tile) s (· = s))) ∧
  (∀ (site x : SiteId) (l : TileNo) (s : State) (b : Waybill), s.wafer.waybill l = some b → b.holder = .buddy site →
    s.carrier l = some x → Runs (.holderLoss site) s (fun u =>
      WaybillStep l (fun b c => c.holder = .hbm ∧ c.lost = true ∧ c.staged = none ∧ c.committed = b.committed ∧
        c.log = b.log) s u ∧
      (∀ i d, (s.tileAt x).dets[i]? = some d → Sent x .relief (.controller (b.region / 4096 % 40))
        (.determinant l ((s.tileAt x).detBase + i) d) s u) ∧
      (u.tileAt x).closeAsked = true ∧ (u.tileAt x).mem = (s.tileAt x).mem ∧ u.wafer.hbm = s.wafer.hbm)) ∧
  (∀ (crane : BitVec 2) (s : State), Runs (.craneTakeover crane) s (fun u =>
    (∀ q < 4, vget u.wafer.healing.cranes q 0 =
      if vget s.wafer.healing.cranes q 0 = crane then crane + 1 else vget s.wafer.healing.cranes q 0) ∧
    (∀ l r, s.recovery l = some r →
      u.recovery l = some { r with crane := if r.crane = crane then crane + 1 else r.crane }) ∧
    u.tile = s.tile ∧ u.core = s.core)) ∧
  (∀ (domain : BitVec 6) (kind : PowerFault) (s : State), Runs (.powerDomainFault domain kind) s (fun u =>
    (∀ x : SiteId, 8 * field x 9 3 + field x 3 3 = domain.toNat →
      (u.junctionAt x).passThrough = true ∧ (u.tileAt x).stopped = true) ∧
    ∃ (e : ErrRec) (b : ErrBank), (domain.toNat, b) ∈ u.wafer.healing.domainBanks ∧ e.src = 17 ∧ e.sev = 3 ∧
      e.addr.toNat = domain.toNat ∧ e.synd = (match kind with
        | .regulator => 1
        | .overCurrent => 2
        | .temperature => 3) ∧
      ∀ a, s.wafer.healing.domainBanks.find? (fun k => k.1 == domain.toNat) = some (domain.toNat, a) →
        RecordsError e a b))

/-- R450, R451, R474, R477: depot rounds and the recovery of a job, fabric ports and peers, and the idle cycles of power
and temperature, which only take time. -/
def Obligations.DepotsAndFabric : Prop :=
  (∀ (job : BitVec 6) (s : State) (j : Job), s.wafer.job job = some j →
    let due (n : Nat) : Prop := (∀ r ∈ s.wafer.healing.rounds, r.job = job → r.complete = true) ∧
      (∀ x ∈ s.jobSites job, field (s.tileAt x).ckctl 0 5 = n) ∧ s.jobSites job ≠ [] ∧
      j.depotAt + 64 * 2 ^ n ≤ s.wafer.clock
    (∀ n, due n → Runs (.depotRoundOpen job) s (fun u =>
      (∃ r ∈ u.wafer.healing.rounds, r.job = job ∧ r.epoch = j.epoch + 1 ∧ r.complete = false ∧
        r.clock = s.wafer.clock ∧ r.closed = [] ∧ r.lines = [] ∧ r.late = []) ∧
      ∀ x ∈ s.jobSites job, (u.tileAt x).depotAsked = true ∧ (u.tileAt x).closeAsked = true)) ∧
    ((∃ r ∈ s.wafer.healing.rounds, r.job = job ∧ r.complete = false) → Runs (.depotRoundOpen job) s (· = s)) ∧
    (∀ r, s.wafer.healing.rounds.find? (fun r => r.job == job && !r.complete) = some r →
      let closed : Prop := (∀ b ∈ s.wafer.healing.waybills, b.job = job → b.tile ∈ r.closed ∧ b.staged = none) ∧
        s.epochLeft job (!r.epoch.getLsbD 0) = false
      (closed → Runs (.depotRoundComplete job) s (fun u =>
        { r with complete := true } ∈ u.wafer.healing.rounds ∧
        (∃ k, u.wafer.job job = some k ∧ k = { j with epoch := r.epoch, depotAt := s.wafer.clock }) ∧
        (∀ b ∈ u.wafer.healing.waybills, b.job = job → ∀ d ∈ b.depots, d.1 = r.epoch) ∧ u.core = s.core ∧
        u.tile = s.tile ∧ KeepsMemory s u)) ∧
      (¬closed → Runs (.depotRoundComplete job) s (· = s)))) ∧
  (∀ (id n : Nat) (p : Packet) (s t : State) (r : DepotRound), s.packet id = some p → p.arrived = some n →
    p.dest.rim = false → t = s.focusSite p.site → t.openRound = some r → t.tile.tile ∉ r.closed →
    p.msg.crosses = true → p.epoch ≠ t.tile.intv.getLsbD 48 → t.keepsWaybill = true → StandsStill t →
    Runs (.depotInducedBoundary id) s (fun u =>
      field u.tile.intv 0 32 = (field t.tile.intv 0 32 + 1) % 2 ^ 32 ∧ field u.tile.intv 48 16 = r.epoch.toNat ∧
      u.tile.mem = t.tile.mem ∧ (∃ k ∈ u.wafer.healing.rounds, k.job = r.job ∧ t.tile.tile ∈ k.closed) ∧
      WaybillStep t.tile.tile (fun b c => ∃ img,
        c.depots = b.depots.filter (fun d => d.1 != r.epoch) ++ [(r.epoch, img)] ∧ img.tile.mem = t.tile.mem ∧
        (t.tile.mem.wf = true → ∀ a < 0x600000,
          u.wafer.hbm.read (b.slots + 0x800000 * (r.epoch.toNat % 2) + a) = t.tile.mem.read a)) t u ∧
      p ∈ u.wafer.net)) ∧
  (∀ (job : BitVec 6) (s : State) (r : DepotRound),
    s.wafer.healing.rounds.find? (fun r => r.job == job && r.complete) = some r →
    (∀ k ∈ s.wafer.healing.recoveries, ∀ b, s.wafer.waybill k.tile = some b → b.job ≠ job) →
    let back := r.lines.flatMap (fun l => cellsAt (256 * l.1) (lineBytes l.2)) ++ r.late
    Runs (.depotRecovery job) s (fun u =>
      u.wafer.notices = s.wafer.notices ++ [.depot job (BitVec.ofNat 64 r.clock)] ∧
      ((∀ b ∈ s.wafer.healing.waybills, b.job = job → ∀ d ∈ b.depots, d.1 ≠ r.epoch) →
        HoldsCells back s.wafer.hbm u.wafer.hbm) ∧
      (∀ b x img, s.wafer.healing.waybills.filter (fun b => b.job == job) = [b] → s.wafer.waybill b.tile = some b →
        s.carrier b.tile = some x → b.depots.find? (fun d => d.1 == r.epoch) = some (r.epoch, img) →
        HoldsCells (back ++ img.tile.queueCells) s.wafer.hbm u.wafer.hbm ∧
        (u.tileAt x).mem = img.tile.mem ∧ (u.tileAt x).full = img.tile.full ∧ (u.tileAt x).evc = img.tile.evc ∧
        (∀ k, (u.coreOfSite x k).regs = (findCore img.cores k).regs ∧
          (u.coreOfSite x k).pc = (findCore img.cores k).pc) ∧
        ∀ c ∈ b.channel, c.1 = r.epoch → ∃ q ∈ u.wafer.net, q.msg = c.2.msg ∧ q.site = x ∧ q.arrived.isSome = true))) ∧
  (∀ (port : BitVec 7) (peer : BitVec 8) (s : State),
    let f := s.wafer.rim.fabric
    let stays (u : State) : Prop := u.tile = s.tile ∧ u.core = s.core ∧ u.others = s.others ∧ KeepsMemory s u
    Runs (.linkTraining port peer) s (fun u => (∀ e, e ∈ u.wafer.rim.fabric ↔
      e = (port, peer) ∨ (e.1 ≠ port ∧ e ∈ f)) ∧ peer ∉ u.wafer.rim.lost ∧ u.wafer.net = s.wafer.net ∧ stays u) ∧
    Runs (.fabricPortLoss port) s (fun u => (∀ e, e ∈ u.wafer.rim.fabric ↔ e.1 ≠ port ∧ e ∈ f) ∧
      (∀ p ∈ s.wafer.net, ∀ w page, p.dest = .fabric w page → p.site = attachment 32 port.toNat →
        { p with arrived := none, msg := p.msg.flagged } ∈ u.wafer.net) ∧ stays u) ∧
    ((∀ e ∈ f, e.2 ≠ peer) → Runs (.peerUnreachable peer) s (fun u =>
      u.wafer.notices = s.wafer.notices ++ [.peerUnreachable peer] ∧ peer ∈ u.wafer.rim.lost ∧
      (∀ p ∈ s.wafer.net, ∀ page c k, p.dest = .fabric peer page → p.msg.blocks = some (c, k) →
        Sent p.site .relief (.tile c.tile) (.reply c k .unreachable .reply) s u ∧ p ∉ u.wafer.net) ∧
      (∀ p ∈ s.wafer.net, p.msg.blocks = none → p ∈ u.wafer.net) ∧ stays u)) ∧
    ((∃ e ∈ f, e.2 = peer) → Runs (.peerUnreachable peer) s (· = s))) ∧
  (∀ (domain : BitVec 6) (s : State), Runs .powerLimitExceeded s (· = s) ∧ Runs (.temperatureThrottle domain) s (· = s))

/-- R375, R376, R378, R379, R387, R399, R402: packets reach the signal box, runs begin, trap records leave, and flows are
installed and removed. -/
def Obligations.FlowsAndKernels : Prop :=
  (∀ (id n : Nat) (p : Packet) (s t : State) (f : BitVec 6) (h : Header), s.packet id = some p → p.arrived = some n →
    t = s.focusSite p.site → t.tile.box.flowOf p = some f → p.msg.header = some h → t.mayEnter p n = true →
    let b := t.tile.box
    let bypass : Prop := h.job ≠ b.job f ∨
      (b.stateful f = true ∧ memberIndex (b.members f) t.tile.width h.srct.toNat = none)
    (p.msg.repeatedAt t.tile.marks = true → Runs (.signalBoxPacketArrival id) s (fun u =>
      Gone id t u ∧ u.tile.box = b ∧ KeepsMemory t u)) ∧
    (p.msg.repeatedAt t.tile.marks = false → t.inBox p h = false →
      (bypass → Runs (.signalBoxPacketArrival id) s (fun u => { p with processed := true } ∈ u.wafer.net ∧
        u.wafer.notices = t.wafer.notices ++ [.mismatch t.tile.tile f h.job p.msg.source h.cls] ∧ u.tile = t.tile ∧
        u.core = t.core)) ∧
      (¬bypass → b.queue.length < 16 → markRoom t.tile.marks p.msg.source = true → t.boxBehind p n = false →
        t.openRound = none → Runs (.signalBoxPacketArrival id) s (fun u => u.tile.box = { b with queue := b.queue ++ [(f, p)] } ∧
          u.core = t.core ∧ KeepsMemory t u)))) ∧
  (∀ (site : SiteId) (s : State),
    let t := s.focusSite site
    let b := t.tile.box
    (∀ f p r, t.tile.stopped = false → t.junction.passThrough = false → b.run = none → b.queue = (f, p) :: r →
      Runs (.kernelRun site) s (fun u =>
        (∃ k, u.tile.box.run = some k ∧ k.flow = f ∧ k.pkt = p ∧ k.beats = p.msg.beats ∧ k.pc = b.entry f ∧ k.count = 0 ∧
          (∀ i, k.b i = 0) ∧ (∀ i, k.y i = 0) ∧ k.buffer = [] ∧ k.emits = [] ∧ k.loop = none) ∧
        u.tile.box.queue = r ∧ u.tile.box.word f 0x38 = b.word f 0x38 + 1 ∧
        u.tile.box.mem = b.mem ∧ u.tile.box.store = b.store ∧ u.core = t.core ∧ KeepsMemory t u)) ∧
    (t.tile.stopped = true ∨ t.junction.passThrough = true ∨ b.run ≠ none ∨ b.queue = [] →
      Runs (.kernelRun site) s (· = t)) ∧
    (∀ mb d r, b.recs = (mb, d) :: r → t.tile.replay = none →
      let l := t.tile.logical (field mb 0 12)
      let known := findPoint t.junction.points l.toNat
      (known = none → l ≠ t.tile.tile → Runs (.trapRecordInject site) s (fun u =>
        u = { t with tile := { t.tile with box := { b with recs := r } } })) ∧
      (known ≠ none → (∀ q ∈ t.wafer.net, q.arrived.isSome = true → q.site = t.site → q.msg.isMessage = true → l ≠ t.tile.tile) →
        Runs (.trapRecordInject site) s (fun u => u.tile.box.recs = r ∧ u.tile.box.seq = b.seq + 1 ∧
        (∃ m, Sent t.site .relief (.tile l) (.message m) t u ∧ m.data = d ∧ m.dst.toNat = field mb 12 3 ∧
          m.q.toNat = field mb 16 4 ∧ m.seq = b.seq + 1 ∧ m.fromBox = true) ∧ u.core = t.core ∧ KeepsMemory t u))) ∧
    (b.recs = [] → Runs (.trapRecordInject site) s (· = t))) ∧
  (∀ (tag : W32) (job : BitVec 6) (tile : TileNo) (flow : BitVec 6) (s : State),
    let e : Instr := .removeFlow tag job tile flow
    let nothing : Prop := Runs e s (fun u => Completes tag 1 s u ∧
      u = { s with wafer := { s.wafer with completions := u.wafer.completions } })
    (s.jobTileSite job tile.toNat = none → nothing) ∧
    (∀ x, s.jobTileSite job tile.toNat = some x →
      let b := (s.tileAt x).box
      (b.valid flow = true → b.job flow = job → Runs e s (fun u => Completes tag 0 s u ∧
        (u.tileAt x).box.valid flow = false ∧
        (∀ g o, g ≠ flow → o + 4 ≤ 64 → (u.tileAt x).box.word g o = b.word g o) ∧
        (u.tileAt x).box.queue = b.queue ∧ (u.tileAt x).mem = (s.tileAt x).mem)) ∧
      (b.valid flow = false ∨ b.job flow ≠ job → nothing))) ∧
  (∀ (c : InstallCmd) (s : State) (j : Job) (bytes words : List Byte), s.wafer.job c.job = some j →
    s.jobBytes j.root j.jshape c.desc.toNat 64 = some bytes →
    s.jobBytes j.root j.jshape c.words.toNat (4 * c.len) = some words →
    let t : Tile := { jshape := j.jshape }
    let d := flowEntry bytes
    let ws := wordsOf c.len words
    let first := descriptorStatus d c.tile.toNat c.len t.width t.height
    let only (u : State) : Prop := u = { s with wafer := { s.wafer with completions := u.wafer.completions } }
    (first ≠ 0 → Runs (.installFlow c) s (fun u => Completes c.tag first s u ∧ only u)) ∧
    (first = 0 → (kernelStatus d ws).1 ≠ 0 →
      Runs (.installFlow c) s (fun u => Completes c.tag (kernelStatus d ws).1 s u ∧ only u)) ∧
    (∀ x, first = 0 → (kernelStatus d ws).1 = 0 → s.jobTileSite c.job c.tile.toNat = some x →
      (s.junctionAt x).passThrough = false →
      let b := (s.tileAt x).box
      (∀ k, junctionStatus d b = .error k → Runs (.installFlow c) s (fun u => Completes c.tag k s u ∧ only u)) ∧
      (∀ f e, junctionStatus d b = .ok (f, e) → Runs (.installFlow c) s (fun u => Completes c.tag 0 s u ∧
        let v := (u.tileAt x).box
        (∃ r ∈ u.wafer.completions, r.tag = c.tag ∧ r.values = [f.toNat, e]) ∧
        v.valid f = true ∧ v.job f = c.job ∧ v.classes f = d.classes 0 ∧ v.entry f = e ∧ v.len f = c.len ∧
        v.budget f = d.budget 0 ∧ v.windowBase f = d.windowBase 0 ∧ v.windowSize f = d.windowSize 0 ∧
        (∀ i (_ : i < c.len), v.store.readNat (4 * (e + i)) 4 = ws.getD i 0) ∧
        (∀ a, d.windowBase 0 ≤ a → a < d.windowBase 0 + d.windowSize 0 → v.mem.read a = 0) ∧
        (∀ g o, g ≠ f → o + 4 ≤ 64 → v.word g o = b.word g o) ∧ (u.tileAt x).mem = (s.tileAt x).mem))))

/-- R14, R144, R146, R286, R312, R344, R346, R348, R452, R470 to R473, R476, R477: launches and the other commands of
the host, and what the host writes. That bits above 47 of HANDLER are dropped and how many tiles an elastic launch
takes are the model's choices (logs 94, 98). -/
def Obligations.HostCommands : Prop :=
  (∀ (c : LaunchCmd) (s : State) (q : BitVec 2), q ∉ s.wafer.boot.handedOff → Runs (.launch c) s (fun u =>
    u.wafer.boot.waiting = s.wafer.boot.waiting ++ [c] ∧ u.wafer.completions = s.wafer.completions ∧ u.core = s.core ∧
    u.tile = s.tile ∧ KeepsMemory s u)) ∧
  (∀ (c : LaunchCmd) (s : State), (∀ q, q ∈ s.wafer.boot.handedOff) →
    let level : Prop := c.level = 0 ∨ (c.level = 1 ∧ s.wafer.rim.supervisor.getLsbD c.port.toNat = true)
    let ends (k : Nat) : Prop := Runs (.launch c) s (fun u => Completes c.tag k s u ∧ u.core = s.core ∧
      u.tile = s.tile ∧ u.wafer.launches = s.wafer.launches ∧ u.wafer.jobs = s.wafer.jobs ∧ KeepsMemory s u)
    (¬level → ends 8) ∧
    (∀ j b, level → s.jobFor c = j → s.jobBytes j.root j.jshape c.desc.toNat 128 = some b →
      let d := readDesc b
      let magic : Prop := d.magic = 0x51444553 ∧ d.version = 1
      let even : Prop := d.entry.getLsbD 0 = false ∧ c.handler.getLsbD 0 = false
      let st := s.launchStatus c d j
      (¬magic → ends 1) ∧ (magic → d.clean = false → ends 2) ∧ (magic → d.clean = true → d.cores = 0 → ends 3) ∧
      (magic → d.clean = true → d.cores ≠ 0 → ¬even → ends 4) ∧ (st ≠ 0 → ends st) ∧
      (∀ a v, c.hbm = some a → st = 0 → (s.inTheWay j).all s.idleJob = true →
        placeLaunch c d j a (s.carry c.port) = some v → Runs (.launch c) s (fun u =>
        Completes c.tag 0 s u ∧
        (∃ l, u.wafer.launches = s.wafer.launches ++ [l] ∧ l.job = j.job ∧ l.mailbox = c.mailbox ∧ l.cores = d.cores ∧
          l.w = d.w ∧ l.h = d.h ∧ l.num ≠ 0 ∧ (c.elastic = none → l.split = none) ∧
          ∀ f, c.elastic = some f → ∃ n, l.split = some n ∧ 1 ≤ n ∧ n ≤ max 1 (d.w * d.h)) ∧
        (∀ x, s.wafer.job c.job = none → s.inTheWay j = [] → ({ jshape := j.jshape : Tile }).tiles = 1 →
          s.standsAt ({ jshape := j.jshape : Tile }.logical 0) = some x →
          (u.tileAt x).job = some j.job ∧ (u.tileAt x).jshape = j.jshape ∧ (u.tileAt x).jt = 0 ∧
          (u.tileAt x).mem = []) ∧
        ∀ x n, s.wafer.job c.job = some j → d.w = 1 → d.h = 1 →
          s.standsAt ({ jshape := j.jshape : Tile }.logical 0) = some x → n ∈ coresOf d.cores →
          (∀ m ∈ coresOf d.cores, (s.coreOfSite x m).slot = none) →
          let e := u.coreOfSite x n
          e.pc = d.entry ∧ e.run = .running ∧ e.level = (if c.level = 1 then .S else .J) ∧ e.reg 8 = d.arg ∧
          e.trap.tvec = c.handler &&& 0xFFFFFFFFFFFE ∧ e.win.wslim.toNat = 0x600000 - n.toNat * d.wstack ∧
          e.win.wsp.toNat = 0x600000 - (n.toNat + 1) * d.wstack ∧
          ∃ r, e.slot = some r ∧ r.job = j.job ∧ r.entry = d.entry ∧ r.arg = d.arg ∧ r.server = false)))) ∧
  (∀ (tag : W32) (job : ParkedJob) (s : State) (x : SiteId), s.carrier job.tile = some x →
    let c := s.coreOfSite x job.core
    let now (u : State) : Core := u.coreOfSite x job.core
    let unknown (i : Instr) : Prop := Runs i s (fun u => (∃ k, Completes tag k s u) ∧
      u = { s with wafer := { s.wafer with completions := u.wafer.completions } })
    (∀ k, job.copy = false → c.parkedCard job.seq = some k →
      Runs (.faultAnswerResume tag job) s (fun u => Completes tag 0 s u ∧ (now u).eng.cards =
        c.eng.cards.map (fun q => if q.num = k.num then { q with state := .started, fault := none } else q)) ∧
      ∀ why, k.fault = some why → k.seq = some job.seq → why.1 ≠ 0 → Runs (.faultAnswerFail tag job) s (fun u =>
        Completes tag 0 s u ∧ (∀ q, q ∈ (now u).eng.cards ↔ q ∈ c.eng.cards ∧ q.num ≠ k.num) ∧
        vget (now u).eng.slots (job.seq.toNat % 16) {} = 
          { seq := job.seq, state := 2, fault := true, flags := 0, cause := why.1, addr := why.2.setWidth 48 })) ∧
    (∀ j, job.copy = true → c.parkedJob job.seq = some j →
      Runs (.faultAnswerResume tag job) s (fun u => Completes tag 0 s u ∧ (now u).cpy.jobs =
        c.cpy.jobs.map (fun q => if q.num = j.num then { q with state := .started, fault := none } else q)) ∧
      ∀ why, j.fault = some why → Runs (.faultAnswerFail tag job) s (fun u => Completes tag 0 s u ∧
        ∃ q ∈ (now u).cpy.jobs, q.num = j.num ∧ q.ending = some why.1 ∧
          q.endAddr = if j.checked then j.dst + BitVec.ofNat 64 (4096 * j.prog) else why.2)) ∧
    ((job.copy = false ∧ c.parkedCard job.seq = none) ∨ (job.copy = true ∧ c.parkedJob job.seq = none) →
      unknown (.faultAnswerResume tag job) ∧ unknown (.faultAnswerFail tag job))) ∧
  (∀ (tag : W32) (job : BitVec 6) (s : State), Runs (.pageTableChange tag job) s (fun u => Completes tag 0 s u ∧
    ∀ x ∈ s.jobSites job, (∀ e, e ∈ (u.tileAt x).tlb ↔ e ∈ (s.tileAt x).tlb ∧ e.job ≠ job) ∧
      ∀ k e, e ∈ (u.coreOfSite x k).tlb ↔ e ∈ (s.coreOfSite x k).tlb ∧ e.job ≠ job)) ∧
  (∀ (tag : W32) (site : SiteId) (s : State),
    ((s.junctionAt site).status = .failed → Runs (.clearFailedSite tag site) s (fun u => Completes tag 0 s u ∧
      (u.junctionAt site).status = .reserve ∧ (u.junctionAt site).passThrough = false ∧ (u.tileAt site).job = none ∧
      (∀ x ∈ s.siteIds, ∀ k, mapState (u.junctionAt x).map k =
        if k = site.toNat then 2 else mapState (s.junctionAt x).map k) ∧ site ∉ u.wafer.healing.dead)) ∧
    ((s.junctionAt site).status ≠ .failed → Runs (.clearFailedSite tag site) s (fun u => (∃ k, Completes tag k s u) ∧
      u = { s with wafer := { s.wafer with completions := u.wafer.completions } }))) ∧
  (∀ (tag : W32) (s : State),
    let stays (u : State) : Prop := u.core = s.core ∧ u.tile = s.tile ∧ u.others = s.others ∧ KeepsMemory s u
    (∀ nonce, Runs (.attest tag nonce) s (fun u => stays u ∧ ∃ c, u.wafer.completions = s.wafer.completions ++ [c] ∧
      c.tag = tag ∧ c.status = 0 ∧ c.bytes.length = 896 ∧ (c.bytes.drop 32).take 48 = natBytes nonce.toNat 48 ∧
      (∀ k < 12, (c.bytes.drop (80 + 48 * k)).take 48 = natBytes (vget s.wafer.boot.measured k 0).toNat 48) ∧
      c.bytes.drop 800 = natBytes (Config.identitySign (Config.sha384 (c.bytes.take 800))).toNat 96)) ∧
    Runs (.readCertificateChain tag) s (fun u => stays u ∧ ∃ c, u.wafer.completions = s.wafer.completions ++ [c] ∧
      c.tag = tag ∧ c.status = 0 ∧ c.bytes = Config.certificates) ∧
    (∀ unit k (v : BitVec 16), (unit, k) ∈ (List.range 40).map (fun n => (CounterUnit.controller (BitVec.ofNat 6 n), n)) ++
        (List.range 8).map (fun n => (CounterUnit.hostPort (BitVec.ofNat 3 n), 40 + n)) →
      Runs (.setAccessCounterThreshold tag unit v) s (fun u => stays u ∧ Completes tag 0 s u ∧
        u.wafer.rim.limits.find? (fun p => p.1 == k) = some (k, v.toNat) ∧
        ∀ m, m ≠ k → u.wafer.rim.limits.find? (fun p => p.1 == m) = s.wafer.rim.limits.find? (fun p => p.1 == m))) ∧
    (∀ (c v), 40 ≤ c.toNat → Runs (.setAccessCounterThreshold tag (.controller c) v) s (fun u => stays u ∧
      (∃ k, Completes tag k s u) ∧ u.wafer.rim = s.wafer.rim)) ∧
    (∀ watts, (6000 ≤ watts ∧ watts ≤ 24000 → Runs (.setPowerLimit tag watts) s (fun u => stays u ∧
        Completes tag 0 s u ∧ u.wafer.rim.watts = watts)) ∧
      (¬(6000 ≤ watts ∧ watts ≤ 24000) → Runs (.setPowerLimit tag watts) s (fun u => stays u ∧
        (∃ k, Completes tag k s u) ∧ u.wafer.rim = s.wafer.rim)))) ∧
  (∀ (port window : BitVec 3) (span : BitVec 6) (offset : BitVec 36) (data : List Byte) (s : State),
    let a := span.toNat * 2 ^ 36 + offset.toNat
    let e : Instr := .hostWindowWrite port window span offset data
    (a + data.length ≤ 2560 * 2 ^ 30 → Runs e s (fun u => HoldsCells (cellsAt a data) s.wafer.hbm u.wafer.hbm ∧
      u = { s with wafer := { s.wafer with hbm := u.wafer.hbm } })) ∧
    (2560 * 2 ^ 30 < a + data.length → exec e s = .fault (.noSuchMemory a))) ∧
  (∀ (port : BitVec 3) (v : Bool) (ring : Ring) (index : Nat) (s : State),
    let e : Instr := .supervisorLaunchEnableWrite port v
    let bits (u : State) : Prop := ∀ k < 8, u.wafer.rim.supervisor.getLsbD k =
      if k = port.toNat then v else s.wafer.rim.supervisor.getLsbD k
    let left (n : Nat) (l : Nat) : Nat := min index (n + l) - n
    let r := s.wafer.rim.consumed
    (s.wafer.rim.carried.getLsbD port.toNat = false → Runs e s (fun u => bits u ∧ u.core = s.core ∧ u.tile = s.tile)) ∧
    (s.wafer.rim.carried.getLsbD port.toNat = true → Runs e s (· = s)) ∧
    Runs (.consumerIndexWrite ring index) s (fun u => u.core = s.core ∧ u.tile = s.tile ∧
      (let k := if ring = .completion then left r.1 s.wafer.completions.length else 0
       u.wafer.completions = s.wafer.completions.drop k ∧ u.wafer.rim.consumed.1 = r.1 + k) ∧
      (let k := if ring = .fault then left r.2.1 s.wafer.faults.length else 0
       u.wafer.faults = s.wafer.faults.drop k ∧ u.wafer.rim.consumed.2.1 = r.2.1 + k) ∧
      (let k := if ring = .notification then left r.2.2 s.wafer.notices.length else 0
       u.wafer.notices = s.wafer.notices.drop k ∧ u.wafer.rim.consumed.2.2 = r.2.2 + k)))

/-- R14, R456 to R458, R460 to R468, R475, R476: reset and self-tests, the boot commands and their ends, discovery,
floods of points entries, and firmware. That a reset keeps HBM is presumed (log 26). -/
def Obligations.BootAndReset : Prop :=
  (∀ s : State,
    Runs .resetAssert s (fun u => u.core = {} ∧ u.others = [] ∧ u.tile = {} ∧ u.junction = {} ∧ u.wafer.sites = [] ∧
      u.wafer.net = [] ∧ u.wafer.jobs = [] ∧ u.wafer.launches = [] ∧ u.wafer.clock = 0 ∧ u.wafer.hbm = s.wafer.hbm ∧
      u.wafer.boot.flash = s.wafer.boot.flash ∧ u.wafer.boot.held = true ∧
      (∀ k < 12, vget u.wafer.boot.measured k 0 = 0)) ∧
    Runs .resetRelease s (fun u => u.wafer.boot.held = false ∧ u.core = s.core ∧ u.tile = s.tile ∧ KeepsMemory s u)) ∧
  (∀ (site : SiteId) (s : State),
    let t := s.focusSite site
    let q := quadrant site
    let tests (r : SelfTest) (u : State → Prop) : Prop := s.wafer.boot.held = false → t.junction.status = .untested →
      Runs (.selfTestComplete site r) s u
    let corner : Prop := site ∈ ([0x000, 0x03F, 0xFC0, 0xFFF] : List SiteId)
    tests .passed (fun u => u.junction.status = .reserve ∧ (u.junction.located = true ↔ corner) ∧
      u.tile.mem = bootRom ∧ u.tile.job = some (60 + q.setWidth 6) ∧ field u.tile.jshape 0 7 = 32 ∧
      field u.tile.jshape 8 6 = 30 ∧ field u.tile.jshape 16 6 = 32 * (q.toNat % 2) ∧
      field u.tile.jshape 24 6 = 30 * (q.toNat / 2) ∧
      (u.coreAt 0).pc = 0 ∧ (u.coreAt 0).level = .M ∧ (u.coreAt 0).run = .running ∧
      (u.coreAt 0).win.wsp = 0x5F0000 ∧ (u.coreAt 0).win.wslim = 0x600000 ∧
      ∀ k : CoreId, k ≠ 0 → (u.coreAt k).run = .unbound) ∧
    (¬corner → tests .fused (fun u => u.junction.status = .fused ∧ u.junction.passThrough = true)) ∧
    tests .failed (fun u => u.junction.status = .failed ∧ u.junction.passThrough = true ∧
      (corner → q ∈ u.wafer.boot.failed)) ∧
    tests .deadJunction (fun u => u.junction.status = .failed ∧ site ∈ u.wafer.healing.dead ∧
      (corner → q ∈ u.wafer.boot.failed)) ∧
    (s.wafer.boot.held = true ∨ t.junction.status ≠ .untested → ∀ r, Runs (.selfTestComplete site r) s (· = s))) ∧
  (∀ (site : SiteId) (s : State),
    let t := s.focusSite site
    let j := t.junction
    let q := quadrant site
    let boot := s.wafer.boot
    let starts (op : Nat) : Prop := j.plaBusy = true ∧ j.plaBegun = false ∧ j.plaOp.toNat = op
    let begun (u : State) : Prop := u.junction.plaBegun = true ∧ u.junction.plaBusy = true ∧ u.site = t.site
    let port (p : Port) (y : SiteId) : Prop := neighbour site p = some y ∧ quadrant y = q
    (starts 1 → Runs (.discover site) s (fun u => begun u ∧ u.junction.found = true ∧ u.junction.parent = none ∧
      u.junction.subtree = [(site.toNat, echoState j)] ∧ (∀ p, p ∈ u.junction.asked ↔ ∃ y, port p y) ∧
      (∀ p y, port p y → Sent site .relief (.site y) (.discovery q y (facing p)) t u) ∧
      ∀ x ∈ s.siteIds, x ≠ site → quadrant x = q → (u.junctionAt x).found = false ∧ (u.junctionAt x).asked = [])) ∧
    (starts 2 → Runs (.ptflood site) s (fun u => begun u ∧ ∃ f, u.wafer.boot.floods = boot.floods ++ [f] ∧
      f.quadrant = q ∧ f.wide = false ∧ (∀ e, e ∈ f.points ↔ e ∈ j.points ∧ e.1 < 3840 ∧ blockOf e.1 = q) ∧
      (∀ x, x ∈ f.pending ↔ x ∈ t.liveSites ∧ quadrant x = q ∧ x ≠ site) ∧ TakesBlock f.points f.map t u)) ∧
    (starts 3 →
      (boot.image 1 = none → Runs (.loadimg site) s (fun u => begun u ∧ u.junction.plaNext = 1 ∧ KeepsMemory t u)) ∧
      (∀ r, boot.image 1 = some r → j.plaArg.toNat + r.body.length ≤ 0x600000 → Runs (.loadimg site) s (fun u =>
        begun u ∧ StoresHere j.plaArg.toNat r.body t u ∧ u.junction.plaArg = BitVec.ofNat 64 r.body.length ∧
        u.junction.plaNext = j.plaNext ∧ ∀ k < 12, vget u.wafer.boot.measured k 0 =
          if k = q.toNat then Config.sha384 (natBytes (vget boot.measured k 0).toNat 48 ++
            natBytes (Config.sha384 r.bytes).toNat 48) else vget boot.measured k 0))) ∧
    (starts 4 → Runs (.join site) s (fun u => begun u ∧ q ∈ u.junction.blocks ∧
      ∃ f, u.wafer.boot.floods = boot.floods ++ [f] ∧ f.quadrant = q ∧ f.wide = true ∧
        (∀ e, e ∈ f.points ↔ e ∈ j.points ∧ e.1 < 3840 ∧ blockOf e.1 = q) ∧
        (∀ x, x ∈ f.pending ↔ x ∈ t.liveSites ∧ x ≠ site) ∧ TakesBlock f.points f.map t u)) ∧
    (starts 5 →
      let last : Prop := ∀ k, k = q ∨ k ∈ boot.handedOff
      Runs (.handoff site) s (fun u => begun u ∧ q ∈ u.wafer.boot.handedOff ∧
        (last → u.wafer.boot.waiting = []) ∧ (¬last → u.wafer.boot.waiting = boot.waiting) ∧
        (¬last ∨ boot.waiting = [] → ∀ x ∈ t.jobSites (60 + q.setWidth 6), (u.tileAt x).job = none) ∧
        (last → boot.waiting = [] → u.wafer.notices = s.wafer.notices ++ [.bootReady]))) ∧
    (∀ e ∈ [(1, Instr.discover site), (2, .ptflood site), (3, .loadimg site), (4, .join site), (5, .handoff site)],
      ¬starts e.1 → Runs e.2 s (· = s)) ∧
    (j.plaBusy = true → j.plaBegun = true →
      let e : Instr := .bootCommandCompletion site
      let quiet : Prop := ∀ f ∈ boot.floods, f.quadrant = q → f.pending = []
      let joined : Prop := ∀ x ∈ t.liveSites, ∀ k : BitVec 2, k ∈ (t.junctionAt x).blocks
      let missing (l : Nat) : Prop := ∃ k < 960, blockTile q k = l ∧ findPoint j.points l = none
      (j.plaOp = 1 → j.asked = [] → Runs e s (fun u => EndsCommand 0 t u ∧ ∀ x : SiteId, quadrant x = q →
        mapState u.junction.map x.toNat =
          ((j.subtree.filter (fun k => k.1 == x.toNat && k.2 != 3)).map (·.2)).headD 3)) ∧
      (j.plaOp = 1 → j.asked ≠ [] → Runs e s (· = s)) ∧
      (j.plaOp = 2 → quiet → Runs e s (EndsCommand 0 t)) ∧ (j.plaOp = 2 → ¬quiet → Runs e s (· = s)) ∧
      (j.plaOp = 3 ∨ j.plaOp = 5 → Runs e s (EndsCommand j.plaNext t)) ∧
      (j.plaOp = 4 → quiet → joined → (∀ l, ¬missing l) → Runs e s (EndsCommand 0 t)) ∧
      (j.plaOp = 4 → quiet → joined → (∃ l, missing l) → t.lentSites q = [] → Runs e s (EndsCommand 1 t)) ∧
      (j.plaOp = 4 → ¬(quiet ∧ joined) → Runs e s (· = t))) ∧
    (j.plaOp = 4 → j.plaBusy = true → j.since + 2 ^ 24 ≤ s.wafer.clock → Runs (.joinTimeout site) s (EndsCommand 1 t)) ∧
    (j.plaBusy = false ∨ j.plaOp ≠ 4 ∨ s.wafer.clock < j.since + 2 ^ 24 → Runs (.joinTimeout site) s (· = s)) ∧
    (starts 3 → j.since + 2 ^ 20 ≤ s.wafer.clock →
      (q ∉ boot.retried → Runs (.flashResponseTimeout site) s (fun u => q ∈ u.wafer.boot.retried ∧
        u.junction = { j with since := s.wafer.clock } ∧ u.tile = t.tile)) ∧
      (q ∈ boot.retried → Runs (.flashResponseTimeout site) s (fun u => EndsCommand 2 t u ∧
        q ∉ u.wafer.boot.retried))) ∧
    (¬starts 3 ∨ s.wafer.clock < j.since + 2 ^ 20 → Runs (.flashResponseTimeout site) s (· = s)) ∧
    (∀ (k : BitVec 2) (f : Flood),
      boot.floods.find? (fun f => f.quadrant == k && f.pending.contains site) = some f →
      Runs (.pointsBlockArrival site k) s (fun u => TakesBlock f.points f.map t u ∧
        { f with pending := f.pending.filter (· != site) } ∈ u.wafer.boot.floods ∧
        (f.wide = true → k ∈ u.junction.blocks)))) ∧
  (∀ (id : Nat) (p : Packet) (s : State) (x : SiteId), s.packet id = some p →
    let t := s.focusSite x
    let j := t.junction
    let q := quadrant x
    let others (port r : Port) (y : SiteId) : Prop := r ≠ port ∧ neighbour x r = some y ∧ quadrant y = q
    let echo (port : Port) (m : List (Nat × BitVec 2)) (u : State) : Prop := ∀ y, neighbour x port = some y →
      Sent x .relief (.site y) (.discoveryEcho y (facing port) m) t u
    (∀ k port, p.msg = .discovery k x port → let e : Instr := .discoveryPacketArrival id
      (x ∈ s.wafer.healing.dead → Runs e s (fun u => Gone id s u ∧ u.junction = s.junction)) ∧
      (x ∉ s.wafer.healing.dead → j.status = .untested → Runs e s (· = s)) ∧
      (x ∉ s.wafer.healing.dead → j.status ≠ .untested →
        (j.found = true → Runs e s (fun u => echo port [] u ∧ u.junction = j ∧ Gone id t u)) ∧
        (j.found = false → Runs e s (fun u => u.junction.found = true ∧ u.junction.located = true ∧
          u.junction.parent = some port ∧ u.junction.subtree = [(x.toNat, echoState j)] ∧
          (∀ r, r ∈ u.junction.asked ↔ ∃ y, others port r y) ∧
          (∀ r y, others port r y → Sent x .relief (.site y) (.discovery q y (facing r)) t u) ∧
          ((∀ r y, ¬others port r y) → echo port [(x.toNat, echoState j)] u) ∧ Gone id t u)))) ∧
    (∀ port l, p.msg = .discoveryEcho x port l → let e : Instr := .discoveryEchoArrival id
      (port ∈ j.asked → Runs e s (fun u => u.junction = { j with
        asked := j.asked.erase port, subtree := j.subtree ++ l } ∧ Gone id t u ∧
        (j.asked.erase port = [] → ∀ up, j.parent = some up → echo up (j.subtree ++ l) u))) ∧
      (port ∉ j.asked → Runs e s (fun u => u.junction = j ∧ Gone id t u)))) ∧
  (∀ (x y : SiteId) (port : Port) (s : State), neighbour x port = some y →
    let t := s.focusSite x
    let j := t.junction
    let due : Prop := port ∈ j.asked ∧ j.since + 2 ^ 12 ≤ s.wafer.clock
    (due → Runs (.discoveryAnswerTimeout x port) s (fun u => u.junction = { j with
      asked := j.asked.erase port, subtree := j.subtree ++ [(y.toNat, 3)] })) ∧
    (¬due → Runs (.discoveryAnswerTimeout x port) s (· = s))) ∧
  (∀ (unit : FirmwareUnit) (kind i : Nat) (s : State), (unit, kind, i) ∈
      (List.range 4).map (fun n => (FirmwareUnit.station (BitVec.ofNat 2 n), 2, 4 + n)) ++
        (List.range 4).map (fun n => (FirmwareUnit.crane (BitVec.ofNat 2 n), 3, 8 + n)) →
    let old (k : Nat) : BitVec 384 := vget s.wafer.boot.measured k 0
    (∀ r, s.wafer.boot.image kind = some r → Runs (.stationAndCraneFirmwareLoad unit) s (fun u =>
      (∀ k < 12, vget u.wafer.boot.measured k 0 = if k = i then Config.sha384 (natBytes (old k).toNat 48 ++
        natBytes (Config.sha384 r.bytes).toNat 48) else old k) ∧ u.core = s.core ∧ u.tile = s.tile ∧ KeepsMemory s u)) ∧
    (s.wafer.boot.image kind = none → Runs (.stationAndCraneFirmwareLoad unit) s (· = s)))

/-- R56, R120, R188, R199, R224, R337, R345, R359, R409, R456, R457: the machine right after reset, the boot corner of
quadrant 0 under its boot binding; its memories are canonical. Registers to which no rule gives a value are 0 by the
model's choice (log 2). -/
def Obligations.ResetState : Prop :=
  let s := State.reset
  s.canonical = true ∧ s.core.pc = 0 ∧ s.core.level = .M ∧ s.core.run = .running ∧ s.coreNo = 0 ∧ s.site = 0 ∧
  (∀ k : CoreId, k ≠ 0 → (s.coreAt k).run = .unbound) ∧ s.tile.job = some 60 ∧ s.cregValue 0x004 = 0x1E20 ∧
  s.cregValue 0x020 = 0x5F0000 ∧ s.cregValue 0x021 = 0x600000 ∧ s.cregValue 0x00A = 0x9E3779B97F4A7C15 ∧
  s.cregValue 0x00B = 1 ∧ s.cregValue 0x018 = 1 ∧ s.cregValue 0x022 = 0x10001 ∧ s.cregValue 0x050 = 0x1000 ∧
  s.cregValue 0x140 = 0x4010000014 ∧ (∀ k < 8, s.cregValue (0x100 + k) = 0x810) ∧
  (∀ n ∈ [0x001, 0x002, 0x008, 0x009, 0x040, 0x041, 0x042, 0x058, 0x059, 0x060, 0x070, 0x071, 0x072, 0x073, 0x074, 0x110,
    0x111, 0x120, 0x150], s.cregValue n = 0) ∧ (∀ k < 8, s.cregValue (0x048 + k) = 0 ∧ s.cregValue (0x010 + k) = 0) ∧
  s.tile.full = [] ∧ (∀ a, 0x2000 ≤ a → s.tile.mem.read a = 0) ∧ s.tile.mem.readNat 0 4 = 0x00260095 ∧
  s.junction.points = [] ∧ s.tile.box.table = [] ∧ s.wafer.net = [] ∧ s.wafer.hbm = []

/-- R2, R8, R10: every step keeps every memory in canonical form; the form is the model's (assumption 1). -/
def Obligations.MemoriesStayCanonical : Prop :=
  ∀ s t : State, s.canonical = true → step s = .next t → t.canonical = true

/-- R70, R71, R74 to R87, R384 to R386: the decoders give every well-formed instruction back from its word. -/
def Obligations.EncodingsDecodeBack : Prop :=
  ∀ (i : Instr) (n w : Nat), i.wellFormed = true → encode i = some (n, w) → w < 2 ^ n ∧
    (i.isKernelWord = false → decodeCore (toBytes 4 w) = some (i, n / 8) ∧ (n = 16 ↔ w % 2 = 0)) ∧
    (i.isKernelWord = true → n = 32 ∧ decodeBox w = some i)

/-- R70, R74 to R87, R384: words that the spec prints decode to the instructions that it prints beside them. -/
def Obligations.PrintedWordsDecode : Prop :=
  (∀ p ∈ [(0x00180C05, Instr.addi 24 0 12), (0xFFF60C85, .addi 25 0 0x7FFB), (0x00018283, .add 5 24 0),
      (0x04108803, .mul 16 8 8), (0x0000031B, .call 6), (0x0080001D, .ret), (0x00C0001F, .halt), (0x0240001F, .ckpt),
      (0x00002295, .mfc 5 0x001), (0x00043915, .mtc 18 0x021), (0x080210B5, .vtag 1 1 1), (0x00041135, .vcvt 2 1 2 0 0),
      (0x18400045, .tvrow 0 0 2), (0x00342143, .mmaZ 2 0 1 20), (0x0042704B, .sendv 0 7 1), (0x00C0314B, .recvv 2 3 0)],
    decodeCore (toBytes 4 p.1) = some (p.2, 4)) ∧
  (∀ p ∈ [(0x00140481, Instr.sbAddImm 2 1 2), (0x00004CC6, .sbShl 3 3 1), (0x000100C8, .sbLi 3 1),
      (0x00004098, .sbVaddf 2 0 1), (0x001884A3, .sbVself 2 1 2 6), (0x0000000D, .sbDone), (0x00000014, .sbVrdp 0 0),
      (0x01000013, .sbVstst 0 0 32), (0x01000050, .sbLdst 1 0 32), (0x002C0886, .sbShlImm 2 2 5),
      (0x0001140B, .sbBfnz 5 4)], decodeBox p.1 = some p.2)

/-- R8, R10, R70 to R72, R86, R387: a step runs the instruction that stands at the pc, the next word of a kernel run, or the
turn that is due; the clock moves on. -/
def Obligations.StepRunsInstructions : Prop :=
  ∀ s : State,
    let t := s.tick.askStaging
    let turned : State := { t with wafer := { t.wafer with agenda := t.wafer.agenda.drop 1 } }
    let live : Prop := t.wafer.agenda = [] ∧ t.tile.stopped = false ∧ t.tile.replay = none ∧ t.tile.leaving = none
    let turn : Prop := live ∧ t.tile.box.run = none ∧ t.core.drafted = false
    let issues : Prop := turn ∧ t.mayIssue = true ∧ t.watchdogDue = false ∧ t.breakpointHit = false
    let pc := t.core.pc.toNat
    let past (u : State) : State := { u with core := { u.core with trap := { u.core.trap with skip := false } } }
    let noted (u w : State) : State := keepPace u (noteIssue u (keepSkip u w))
    let ran (i : Instr) (u : State) : Prop := (∀ w, exec i (past u) = .next w → step s = .next (noted u w)) ∧
      (∀ f, exec i (past u) = .fault f → step s = .fault f) ∧ (∀ f, exec i (past u) = .refused f → step s = .refused f)
    let word (r : BoxRun) : Nat := (t.tile.box.storeWord r.pc).toNat
    (s.tick = { s with wafer := { s.wafer with clock := s.tick.wafer.clock } } ∧
      s.wafer.clock < s.tick.wafer.clock) ∧
    ((∀ x ∈ s.tick.siteIds, (s.tick.focusSite x).stagingDue = false) → t = s.tick) ∧
    (∀ u w : State, let v := noted u w
      v.tile = w.tile ∧ v.wafer = w.wafer ∧ v.core.regs = w.core.regs ∧ v.core.pc = w.core.pc ∧
      v.core.retired = w.core.retired ∧ v.core.win = w.core.win ∧
      ((∀ n, u.core.coupling ≠ .following n) → v.others = w.others ∧ v.core.coupling = w.core.coupling)) ∧
    (∀ b u i n, issues → t.fetch = .got b u → decodeCore b = some (i, n) → u.core.holds i = false → ran i u) ∧
    (∀ b u i n, issues → t.fetch = .got b u → decodeCore b = some (i, n) → u.core.holds i = true →
      step s = .next u.fallBehind) ∧
    (∀ b u, issues → t.fetch = .got b u → decodeCore b = none →
      step s = exec (.illegalInstruction (BitVec.ofNat 32 (leNat b))) u) ∧
    (∀ i n, issues → pc % 2 = 0 → pc + 4 ≤ 0x600000 → t.core.ibuf = [] → t.footprintStall pc 2 false = false →
      t.footprintStall (pc + 2) 2 false = false → decodeCore (t.tile.mem.readBytes pc 4) = some (i, n) →
      t.core.holds i = false → ∃ l, ran i { t with core := { t.core with ibuf := l } }) ∧
    (∀ u, issues → t.fetch = .wait u → step s = .next u.fallBehind) ∧
    (∀ c va, issues → t.fetch = .fault c va →
      step s = .next (takeTrap c (BitVec.ofNat 64 va) { t with core := { t.core with fetchBad := none } })) ∧
    (turn → t.mayIssue = false → step s = .next t) ∧
    (turn → t.mayIssue = true → t.watchdogDue = true → step s = .next (watchdogTrap t)) ∧
    (turn → t.mayIssue = true → t.watchdogDue = false → t.breakpointHit = true → step s = .next (breakpointTrap t)) ∧
    (∀ r i, live → t.tile.box.run = some r → r.pc < t.tile.box.stop r.flow → decodeBox (word r) = some i →
      step s = exec i t) ∧
    (∀ r, live → t.tile.box.run = some r → r.pc < t.tile.box.stop r.flow → decodeBox (word r) = none →
      step s = .next (kernelTrap r 4 (word r) t)) ∧
    (∀ r, live → t.tile.box.run = some r → t.tile.box.stop r.flow ≤ r.pc → step s = .next (kernelTrap r 4 0 t)) ∧
    (∀ i r, t.wafer.agenda = .event i :: r → encode i = none →
      (∀ w, exec i turned = .next w →
        step s = .next (if (turned.focusSite w.site).outOfTurn w then turned else w)) ∧
      (∀ f, exec i turned = .fault f → step s = .fault f) ∧ (∀ f, exec i turned = .refused f → step s = .refused f)) ∧
    (∀ i r, t.wafer.agenda = .event i :: r → (encode i).isSome = true → step s = .next turned) ∧
    (∀ x c r, t.wafer.agenda = .core x c :: r → step s = .next (turned.focus x c))
end

