-- ==== Sys2Proof/Laws/Memory.lean ====
section
/-!
SUPPORT. Memories: a read after a write, bytes and cells, and that every operation keeps the canonical form.
-/
namespace Sys2Proof.Machine

set_option Elab.async false

/-- The smallest address that a memory may list rises with it. -/
theorem wfFrom_mono {m : Memory} {lo hi : Nat} (h : m.wfFrom hi = true) (le : lo ≤ hi) : m.wfFrom lo = true := by
  cases m with
  | nil => rfl
  | cons c r =>
    simp only [Memory.wfFrom, Bool.and_eq_true, decide_eq_true_eq] at h ⊢
    exact ⟨⟨by omega, h.1.2⟩, h.2⟩

theorem list_wfFrom {m : Memory} {lo a : Nat} {v : Byte} (h : m.wfFrom lo = true) (ha : lo ≤ a) (hv : v ≠ 0) :
    (m.list a v).wfFrom lo = true := by
  induction m generalizing lo with
  | nil => simpa [Memory.list, Memory.wfFrom, ha] using hv
  | cons c r ih =>
    obtain ⟨k, b⟩ := c
    simp only [Memory.wfFrom, Bool.and_eq_true, decide_eq_true_eq] at h
    simp only [Memory.list]
    split_ifs with e l
    · subst e
      simpa [Memory.wfFrom, ha, h.2] using hv
    · simp only [Memory.wfFrom, Bool.and_eq_true, decide_eq_true_eq]
      exact ⟨⟨ha, by simpa using hv⟩, ⟨by omega, h.1.2⟩, h.2⟩
    · simp only [Memory.wfFrom, Bool.and_eq_true, decide_eq_true_eq]
      exact ⟨h.1, ih h.2 (by omega)⟩

theorem filter_wfFrom {m : Memory} {lo : Nat} (p : Host.Cell → Bool) (h : m.wfFrom lo = true) :
    Memory.wfFrom lo (m.filter p) = true := by
  induction m generalizing lo with
  | nil => rfl
  | cons c r ih =>
    obtain ⟨k, b⟩ := c
    simp only [Memory.wfFrom, Bool.and_eq_true, decide_eq_true_eq] at h
    rw [List.filter_cons]
    split_ifs
    · simp only [Memory.wfFrom, Bool.and_eq_true, decide_eq_true_eq]
      exact ⟨h.1, ih h.2⟩
    · exact wfFrom_mono (ih h.2) (by omega)

/-- A write keeps the canonical form. -/
theorem write_wf {m : Memory} (a : Nat) (v : Byte) (h : m.wf = true) : (m.write a v).wf = true := by
  unfold Memory.wf Memory.write at *
  split_ifs with e
  · exact filter_wfFrom _ h
  · exact list_wfFrom h (by omega) e

/-- Storing cells keeps the canonical form. -/
theorem writeCells_wf {m : Memory} (l : List Host.Cell) (h : m.wf = true) : (m.writeCells l).wf = true := by
  induction l generalizing m with
  | nil => exact h
  | cons c r ih => exact ih (write_wf c.1 c.2 h)

/-- Taking bytes out of a memory keeps the canonical form. -/
theorem filter_wf {m : Memory} (p : Host.Cell → Bool) (h : m.wf = true) : Memory.wf (m.filter p) = true :=
  filter_wfFrom p h

/-! ### A read after a write -/

theorem read_list (m : Memory) (a b : Nat) (v : Byte) : (m.list a v).read b = if b = a then v else m.read b := by
  induction m with
  | nil =>
    simp only [Memory.list, Memory.read]
    by_cases h : a = b
    · rw [if_pos h, if_pos h.symm]
    · rw [if_neg h, if_neg (fun e => h e.symm)]
  | cons c r ih =>
    obtain ⟨k, x⟩ := c
    rcases eq_or_ne k a with e | e
    · subst e
      rcases eq_or_ne b k with h | h
      · subst h; simp [Memory.list, Memory.read]
      · simp [Memory.list, Memory.read, h, h.symm]
    · rcases eq_or_ne b a with h | h
      · subst h
        by_cases l : b < k <;> simp [Memory.list, Memory.read, e, l, ih]
      · by_cases l : a < k <;> simp [Memory.list, Memory.read, e, l, ih, h, h.symm]

theorem read_filter (m : Memory) (a b : Nat) :
    Memory.read (m.filter (fun c => c.1 != a)) b = if b = a then 0 else m.read b := by
  induction m with
  | nil => simp [Memory.read]
  | cons c r ih =>
    obtain ⟨k, x⟩ := c
    rw [List.filter_cons]
    by_cases h : k = a
    · subst h
      simp only [bne_self_eq_false, Bool.false_eq_true, if_false, ih, Memory.read]
      split_ifs <;> simp_all
    · simp only [bne_iff_ne, ne_eq, h, not_false_eq_true, if_true, Memory.read, ih]
      split_ifs <;> simp_all

/-- A write leaves its byte at its address and every other byte alone. -/
@[simp] theorem read_write (m : Memory) (a b : Nat) (v : Byte) :
    (m.write a v).read b = if b = a then v else m.read b := by
  unfold Memory.write
  split_ifs with e <;> simp_all [read_filter, read_list]

@[simp] theorem writeCells_nil (m : Memory) : m.writeCells [] = m := rfl

@[simp] theorem writeCells_cons (m : Memory) (a : Nat) (v : Byte) (r : List Host.Cell) :
    m.writeCells ((a, v) :: r) = (m.write a v).writeCells r := rfl

theorem writeCells_append (m : Memory) (k l : List Host.Cell) : m.writeCells (k ++ l) = (m.writeCells k).writeCells l := by
  induction k generalizing m with
  | nil => rfl
  | cons c r ih => exact ih (m.write c.1 c.2)

/-- A byte that no cell names stays. -/
theorem read_writeCells_other (m : Memory) (l : List Host.Cell) (b : Nat) (h : ∀ c ∈ l, c.1 ≠ b) :
    (m.writeCells l).read b = m.read b := by
  induction l generalizing m with
  | nil => rfl
  | cons c r ih =>
    obtain ⟨a, v⟩ := c
    rw [writeCells_cons, ih _ (fun c hc => h c (List.mem_cons_of_mem _ hc)), read_write,
      if_neg (fun e => h (a, v) List.mem_cons_self e.symm)]

/-- Cells at rising addresses leave each its byte. -/
theorem read_writeCells_cellsAt (m : Memory) (a : Nat) (l : List Byte) (b : Nat) :
    (m.writeCells (cellsAt a l)).read b = (if a ≤ b then l[b - a]? else none).getD (m.read b) := by
  induction l generalizing m a with
  | nil => simp [cellsAt]
  | cons x r ih =>
    rw [cellsAt, writeCells_cons, ih, read_write]
    rcases Nat.lt_trichotomy b a with h | h | h
    · simp [Nat.not_le.mpr h, Nat.not_le.mpr (Nat.lt_succ_of_lt h), Nat.ne_of_lt h]
    · subst h; simp
    · obtain ⟨k, rfl⟩ : ∃ k, b = a + 1 + k := ⟨b - (a + 1), by omega⟩
      have e : a + 1 + k - a = k + 1 := by omega
      simp [e, show a ≤ a + 1 + k by omega, show a + 1 + k ≠ a by omega]

/-! ### Bytes and numbers (R2) -/

@[simp] theorem readBytes_length (m : Memory) (a n : Nat) : (m.readBytes a n).length = n := by
  induction n generalizing a with
  | zero => rfl
  | succ n ih => simp [Memory.readBytes, ih]

@[simp] theorem natBytes_length (v n : Nat) : (natBytes v n).length = n := by
  induction n generalizing v with
  | zero => rfl
  | succ n ih => simp [natBytes, ih]

/-- The bytes of a number, read again, are the number modulo 256 ^ n. -/
theorem leNat_natBytes (v n : Nat) : leNat (natBytes v n) = v % 256 ^ n := by
  induction n generalizing v with
  | zero => simp [natBytes, leNat, Nat.mod_one]
  | succ n ih =>
    have h : v % (256 * 256 ^ n) = v % 256 + 256 * (v / 256 % 256 ^ n) := Nat.mod_mul
    simp only [natBytes, leNat, ih, BitVec.toNat_ofNat, Nat.pow_succ]
    rw [Nat.mul_comm (256 ^ n) 256, h]

theorem leNat_lt (l : List Byte) : leNat l < 256 ^ l.length := by
  induction l with
  | nil => simp [leNat]
  | cons b r ih =>
    simp only [leNat, List.length_cons, Nat.pow_succ]
    have := b.isLt
    omega

/-- Reading is by the bytes alone: memories that agree there read alike. -/
theorem readBytes_congr {m k : Memory} {a n : Nat} (h : ∀ b, a ≤ b → b < a + n → m.read b = k.read b) :
    m.readBytes a n = k.readBytes a n := by
  induction n generalizing a with
  | zero => rfl
  | succ n ih =>
    simp only [Memory.readBytes]
    rw [h a (le_refl _) (by omega), ih (fun b h1 h2 => h b (by omega) (by omega))]

/-- The bytes just stored are the bytes read. -/
theorem readBytes_writeCells (m : Memory) (a : Nat) (l : List Byte) :
    (m.writeCells (cellsAt a l)).readBytes a l.length = l := by
  apply List.ext_getElem (by simp)
  intro i h1 h2
  have g : ∀ (m : Memory) (a n i : Nat) (h : i < (m.readBytes a n).length), (m.readBytes a n)[i] = m.read (a + i) := by
    intro m a n
    induction n generalizing a with
    | zero => intro i h; simp at h
    | succ n ih =>
      intro i h
      cases i with
      | zero => rfl
      | succ i => simp only [Memory.readBytes, List.getElem_cons_succ, ih]; congr 1; omega
  rw [g, read_writeCells_cellsAt]
  simp [h2]

end Sys2Proof.Machine
end

