-- ==== Sys2Proof/Laws/State.lean ====
section
/-!
SUPPORT. What each plain update of the state changes and keeps, one lemma per field.
-/
namespace Sys2Proof.Machine

set_option Elab.async false

/-! ### A change of the core, of the tile, of the wafer -/

@[simp] theorem mapCore_core (s : State) (f : Core → Core) : (s.mapCore f).core = f s.core := rfl
@[simp] theorem mapCore_coreNo (s : State) (f : Core → Core) : (s.mapCore f).coreNo = s.coreNo := rfl
@[simp] theorem mapCore_others (s : State) (f : Core → Core) : (s.mapCore f).others = s.others := rfl
@[simp] theorem mapCore_tile (s : State) (f : Core → Core) : (s.mapCore f).tile = s.tile := rfl
@[simp] theorem mapCore_junction (s : State) (f : Core → Core) : (s.mapCore f).junction = s.junction := rfl
@[simp] theorem mapCore_site (s : State) (f : Core → Core) : (s.mapCore f).site = s.site := rfl
@[simp] theorem mapCore_wafer (s : State) (f : Core → Core) : (s.mapCore f).wafer = s.wafer := rfl

@[simp] theorem mapTile_core (s : State) (f : Tile → Tile) : (s.mapTile f).core = s.core := rfl
@[simp] theorem mapTile_coreNo (s : State) (f : Tile → Tile) : (s.mapTile f).coreNo = s.coreNo := rfl
@[simp] theorem mapTile_others (s : State) (f : Tile → Tile) : (s.mapTile f).others = s.others := rfl
@[simp] theorem mapTile_tile (s : State) (f : Tile → Tile) : (s.mapTile f).tile = f s.tile := rfl
@[simp] theorem mapTile_junction (s : State) (f : Tile → Tile) : (s.mapTile f).junction = s.junction := rfl
@[simp] theorem mapTile_site (s : State) (f : Tile → Tile) : (s.mapTile f).site = s.site := rfl
@[simp] theorem mapTile_wafer (s : State) (f : Tile → Tile) : (s.mapTile f).wafer = s.wafer := rfl

@[simp] theorem mapWafer_core (s : State) (f : Wafer → Wafer) : (s.mapWafer f).core = s.core := rfl
@[simp] theorem mapWafer_coreNo (s : State) (f : Wafer → Wafer) : (s.mapWafer f).coreNo = s.coreNo := rfl
@[simp] theorem mapWafer_others (s : State) (f : Wafer → Wafer) : (s.mapWafer f).others = s.others := rfl
@[simp] theorem mapWafer_tile (s : State) (f : Wafer → Wafer) : (s.mapWafer f).tile = s.tile := rfl
@[simp] theorem mapWafer_junction (s : State) (f : Wafer → Wafer) : (s.mapWafer f).junction = s.junction := rfl
@[simp] theorem mapWafer_site (s : State) (f : Wafer → Wafer) : (s.mapWafer f).site = s.site := rfl
@[simp] theorem mapWafer_wafer (s : State) (f : Wafer → Wafer) : (s.mapWafer f).wafer = f s.wafer := rfl

/-! ### The pc, the count of instructions, a scalar register -/

@[simp] theorem setPc_core (s : State) (v : Word) : (s.setPc v).core = { s.core with pc := v } := rfl
@[simp] theorem setPc_coreNo (s : State) (v : Word) : (s.setPc v).coreNo = s.coreNo := rfl
@[simp] theorem setPc_others (s : State) (v : Word) : (s.setPc v).others = s.others := rfl
@[simp] theorem setPc_tile (s : State) (v : Word) : (s.setPc v).tile = s.tile := rfl
@[simp] theorem setPc_junction (s : State) (v : Word) : (s.setPc v).junction = s.junction := rfl
@[simp] theorem setPc_site (s : State) (v : Word) : (s.setPc v).site = s.site := rfl
@[simp] theorem setPc_wafer (s : State) (v : Word) : (s.setPc v).wafer = s.wafer := rfl

@[simp] theorem skip_core (s : State) (n : Nat) :
    (s.skip n).core = { s.core with pc := s.core.pc + BitVec.ofNat 64 n } := rfl
@[simp] theorem skip_coreNo (s : State) (n : Nat) : (s.skip n).coreNo = s.coreNo := rfl
@[simp] theorem skip_others (s : State) (n : Nat) : (s.skip n).others = s.others := rfl
@[simp] theorem skip_tile (s : State) (n : Nat) : (s.skip n).tile = s.tile := rfl
@[simp] theorem skip_junction (s : State) (n : Nat) : (s.skip n).junction = s.junction := rfl
@[simp] theorem skip_site (s : State) (n : Nat) : (s.skip n).site = s.site := rfl
@[simp] theorem skip_wafer (s : State) (n : Nat) : (s.skip n).wafer = s.wafer := rfl

@[simp] theorem retire_core (s : State) : (s.retire).core = { s.core with retired := s.core.retired + 1 } := rfl
@[simp] theorem retire_coreNo (s : State) : (s.retire).coreNo = s.coreNo := rfl
@[simp] theorem retire_others (s : State) : (s.retire).others = s.others := rfl
@[simp] theorem retire_tile (s : State) : (s.retire).tile = s.tile := rfl
@[simp] theorem retire_junction (s : State) : (s.retire).junction = s.junction := rfl
@[simp] theorem retire_site (s : State) : (s.retire).site = s.site := rfl
@[simp] theorem retire_wafer (s : State) : (s.retire).wafer = s.wafer := rfl

@[simp] theorem setReg_core (s : State) (r : BitVec 5) (v : Word) : (s.setReg r v).core = s.core.setReg r v := rfl
@[simp] theorem setReg_coreNo (s : State) (r : BitVec 5) (v : Word) : (s.setReg r v).coreNo = s.coreNo := rfl
@[simp] theorem setReg_others (s : State) (r : BitVec 5) (v : Word) : (s.setReg r v).others = s.others := rfl
@[simp] theorem setReg_tile (s : State) (r : BitVec 5) (v : Word) : (s.setReg r v).tile = s.tile := rfl
@[simp] theorem setReg_junction (s : State) (r : BitVec 5) (v : Word) : (s.setReg r v).junction = s.junction := rfl
@[simp] theorem setReg_site (s : State) (r : BitVec 5) (v : Word) : (s.setReg r v).site = s.site := rfl
@[simp] theorem setReg_wafer (s : State) (r : BitVec 5) (v : Word) : (s.setReg r v).wafer = s.wafer := rfl

/-! ### Packets -/

@[simp] theorem dropPacket_core (s : State) (id : Nat) : (s.dropPacket id).core = s.core := rfl
@[simp] theorem dropPacket_coreNo (s : State) (id : Nat) : (s.dropPacket id).coreNo = s.coreNo := rfl
@[simp] theorem dropPacket_others (s : State) (id : Nat) : (s.dropPacket id).others = s.others := rfl
@[simp] theorem dropPacket_tile (s : State) (id : Nat) : (s.dropPacket id).tile = s.tile := rfl
@[simp] theorem dropPacket_junction (s : State) (id : Nat) : (s.dropPacket id).junction = s.junction := rfl
@[simp] theorem dropPacket_site (s : State) (id : Nat) : (s.dropPacket id).site = s.site := rfl
@[simp] theorem dropPacket_wafer (s : State) (id : Nat) :
    (s.dropPacket id).wafer = { s.wafer with net := s.wafer.net.filter (fun p => p.id != id) } := rfl

@[simp] theorem setPacket_core (s : State) (id : Nat) (f : Packet → Packet) : (s.setPacket id f).core = s.core := rfl
@[simp] theorem setPacket_coreNo (s : State) (id : Nat) (f : Packet → Packet) :
    (s.setPacket id f).coreNo = s.coreNo := rfl
@[simp] theorem setPacket_others (s : State) (id : Nat) (f : Packet → Packet) :
    (s.setPacket id f).others = s.others := rfl
@[simp] theorem setPacket_tile (s : State) (id : Nat) (f : Packet → Packet) : (s.setPacket id f).tile = s.tile := rfl
@[simp] theorem setPacket_junction (s : State) (id : Nat) (f : Packet → Packet) :
    (s.setPacket id f).junction = s.junction := rfl
@[simp] theorem setPacket_site (s : State) (id : Nat) (f : Packet → Packet) : (s.setPacket id f).site = s.site := rfl
@[simp] theorem setPacket_wafer (s : State) (id : Nat) (f : Packet → Packet) :
    (s.setPacket id f).wafer = { s.wafer with net := s.wafer.net.map (fun p => if p.id = id then f p else p) } := rfl

@[simp] theorem launchPacket_core (s : State) (l : Line) (d : Dest) (x : Option Nat) (m : Msg) :
    (s.launchPacket l d x m).core = s.core := rfl
@[simp] theorem launchPacket_coreNo (s : State) (l : Line) (d : Dest) (x : Option Nat) (m : Msg) :
    (s.launchPacket l d x m).coreNo = s.coreNo := rfl
@[simp] theorem launchPacket_others (s : State) (l : Line) (d : Dest) (x : Option Nat) (m : Msg) :
    (s.launchPacket l d x m).others = s.others := rfl
@[simp] theorem launchPacket_tile (s : State) (l : Line) (d : Dest) (x : Option Nat) (m : Msg) :
    (s.launchPacket l d x m).tile = s.tile := rfl
@[simp] theorem launchPacket_junction (s : State) (l : Line) (d : Dest) (x : Option Nat) (m : Msg) :
    (s.launchPacket l d x m).junction = s.junction := rfl
@[simp] theorem launchPacket_site (s : State) (l : Line) (d : Dest) (x : Option Nat) (m : Msg) :
    (s.launchPacket l d x m).site = s.site := rfl

/-! ### Registers of a core -/

@[simp] theorem core_setReg_pc (c : Core) (r : BitVec 5) (v : Word) : (c.setReg r v).pc = c.pc := by
  unfold Core.setReg; split_ifs <;> rfl
@[simp] theorem core_setReg_level (c : Core) (r : BitVec 5) (v : Word) : (c.setReg r v).level = c.level := by
  unfold Core.setReg; split_ifs <;> rfl
@[simp] theorem core_setReg_run (c : Core) (r : BitVec 5) (v : Word) : (c.setReg r v).run = c.run := by
  unfold Core.setReg; split_ifs <;> rfl
@[simp] theorem core_setReg_retired (c : Core) (r : BitVec 5) (v : Word) : (c.setReg r v).retired = c.retired := by
  unfold Core.setReg; split_ifs <;> rfl
@[simp] theorem core_setReg_wake (c : Core) (r : BitVec 5) (v : Word) : (c.setReg r v).wake = c.wake := by
  unfold Core.setReg; split_ifs <;> rfl
@[simp] theorem core_setReg_inWfi (c : Core) (r : BitVec 5) (v : Word) : (c.setReg r v).inWfi = c.inWfi := by
  unfold Core.setReg; split_ifs <;> rfl
@[simp] theorem core_setReg_win (c : Core) (r : BitVec 5) (v : Word) : (c.setReg r v).win = c.win := by
  unfold Core.setReg; split_ifs <;> rfl
@[simp] theorem core_setReg_fp (c : Core) (r : BitVec 5) (v : Word) : (c.setReg r v).fp = c.fp := by
  unfold Core.setReg; split_ifs <;> rfl
@[simp] theorem core_setReg_trap (c : Core) (r : BitVec 5) (v : Word) : (c.setReg r v).trap = c.trap := by
  unfold Core.setReg; split_ifs <;> rfl
@[simp] theorem core_setReg_post (c : Core) (r : BitVec 5) (v : Word) : (c.setReg r v).post = c.post := by
  unfold Core.setReg; split_ifs <;> rfl
@[simp] theorem core_setReg_race (c : Core) (r : BitVec 5) (v : Word) : (c.setReg r v).race = c.race := by
  unfold Core.setReg; split_ifs <;> rfl
@[simp] theorem core_setReg_acc (c : Core) (r : BitVec 5) (v : Word) : (c.setReg r v).acc = c.acc := by
  unfold Core.setReg; split_ifs <;> rfl
@[simp] theorem core_setReg_eng (c : Core) (r : BitVec 5) (v : Word) : (c.setReg r v).eng = c.eng := by
  unfold Core.setReg; split_ifs <;> rfl
@[simp] theorem core_setReg_cpy (c : Core) (r : BitVec 5) (v : Word) : (c.setReg r v).cpy = c.cpy := by
  unfold Core.setReg; split_ifs <;> rfl
@[simp] theorem core_setReg_sync (c : Core) (r : BitVec 5) (v : Word) : (c.setReg r v).sync = c.sync := by
  unfold Core.setReg; split_ifs <;> rfl
@[simp] theorem core_setReg_task (c : Core) (r : BitVec 5) (v : Word) : (c.setReg r v).task = c.task := by
  unfold Core.setReg; split_ifs <;> rfl
@[simp] theorem core_setReg_ptbase (c : Core) (r : BitVec 5) (v : Word) : (c.setReg r v).ptbase = c.ptbase := by
  unfold Core.setReg; split_ifs <;> rfl
@[simp] theorem core_setReg_errsel (c : Core) (r : BitVec 5) (v : Word) : (c.setReg r v).errsel = c.errsel := by
  unfold Core.setReg; split_ifs <;> rfl
@[simp] theorem core_setReg_slot (c : Core) (r : BitVec 5) (v : Word) : (c.setReg r v).slot = c.slot := by
  unfold Core.setReg; split_ifs <;> rfl
@[simp] theorem core_setReg_coupling (c : Core) (r : BitVec 5) (v : Word) : (c.setReg r v).coupling = c.coupling := by
  unfold Core.setReg; split_ifs <;> rfl
@[simp] theorem core_setReg_lastJump (c : Core) (r : BitVec 5) (v : Word) : (c.setReg r v).lastJump = c.lastJump := by
  unfold Core.setReg; split_ifs <;> rfl
@[simp] theorem core_setReg_pend (c : Core) (r : BitVec 5) (v : Word) : (c.setReg r v).pend = c.pend := by
  unfold Core.setReg; split_ifs <;> rfl
@[simp] theorem core_setReg_abandoned (c : Core) (r : BitVec 5) (v : Word) :
    (c.setReg r v).abandoned = c.abandoned := by
  unfold Core.setReg; split_ifs <;> rfl
@[simp] theorem core_setReg_blockTag (c : Core) (r : BitVec 5) (v : Word) : (c.setReg r v).blockTag = c.blockTag := by
  unfold Core.setReg; split_ifs <;> rfl
@[simp] theorem core_setReg_stopAsked (c : Core) (r : BitVec 5) (v : Word) :
    (c.setReg r v).stopAsked = c.stopAsked := by
  unfold Core.setReg; split_ifs <;> rfl
@[simp] theorem core_setReg_commitWait (c : Core) (r : BitVec 5) (v : Word) :
    (c.setReg r v).commitWait = c.commitWait := by
  unfold Core.setReg; split_ifs <;> rfl
@[simp] theorem core_setReg_tlb (c : Core) (r : BitVec 5) (v : Word) : (c.setReg r v).tlb = c.tlb := by
  unfold Core.setReg; split_ifs <;> rfl
@[simp] theorem core_setReg_walk (c : Core) (r : BitVec 5) (v : Word) : (c.setReg r v).walk = c.walk := by
  unfold Core.setReg; split_ifs <;> rfl
@[simp] theorem core_setReg_ibuf (c : Core) (r : BitVec 5) (v : Word) : (c.setReg r v).ibuf = c.ibuf := by
  unfold Core.setReg; split_ifs <;> rfl
@[simp] theorem core_setReg_fetchMiss (c : Core) (r : BitVec 5) (v : Word) :
    (c.setReg r v).fetchMiss = c.fetchMiss := by
  unfold Core.setReg; split_ifs <;> rfl
@[simp] theorem core_setReg_fetchBad (c : Core) (r : BitVec 5) (v : Word) :
    (c.setReg r v).fetchBad = c.fetchBad := by
  unfold Core.setReg; split_ifs <;> rfl
@[simp] theorem core_setReg_draft (c : Core) (r : BitVec 5) (v : Word) :
    (c.setReg r v).draft = c.draft := by
  unfold Core.setReg; split_ifs <;> rfl
@[simp] theorem core_setReg_drafted (c : Core) (r : BitVec 5) (v : Word) :
    (c.setReg r v).drafted = c.drafted := by
  unfold Core.setReg; split_ifs <;> rfl
@[simp] theorem core_setReg_lastIssue (c : Core) (r : BitVec 5) (v : Word) :
    (c.setReg r v).lastIssue = c.lastIssue := by
  unfold Core.setReg; split_ifs <;> rfl
@[simp] theorem core_setReg_jumpShift (c : Core) (r : BitVec 5) (v : Word) :
    (c.setReg r v).jumpShift = c.jumpShift := by
  unfold Core.setReg; split_ifs <;> rfl

@[simp] theorem core_setPred_pc (c : Core) (p : BitVec 3) (v : Word) : (c.setPred p v).pc = c.pc := by
  unfold Core.setPred; split_ifs <;> rfl
@[simp] theorem core_setPred_level (c : Core) (p : BitVec 3) (v : Word) : (c.setPred p v).level = c.level := by
  unfold Core.setPred; split_ifs <;> rfl
@[simp] theorem core_setPred_run (c : Core) (p : BitVec 3) (v : Word) : (c.setPred p v).run = c.run := by
  unfold Core.setPred; split_ifs <;> rfl
@[simp] theorem core_setPred_retired (c : Core) (p : BitVec 3) (v : Word) : (c.setPred p v).retired = c.retired := by
  unfold Core.setPred; split_ifs <;> rfl
@[simp] theorem core_setPred_wake (c : Core) (p : BitVec 3) (v : Word) : (c.setPred p v).wake = c.wake := by
  unfold Core.setPred; split_ifs <;> rfl
@[simp] theorem core_setPred_inWfi (c : Core) (p : BitVec 3) (v : Word) : (c.setPred p v).inWfi = c.inWfi := by
  unfold Core.setPred; split_ifs <;> rfl
@[simp] theorem core_setPred_win (c : Core) (p : BitVec 3) (v : Word) : (c.setPred p v).win = c.win := by
  unfold Core.setPred; split_ifs <;> rfl
@[simp] theorem core_setPred_fp (c : Core) (p : BitVec 3) (v : Word) : (c.setPred p v).fp = c.fp := by
  unfold Core.setPred; split_ifs <;> rfl
@[simp] theorem core_setPred_trap (c : Core) (p : BitVec 3) (v : Word) : (c.setPred p v).trap = c.trap := by
  unfold Core.setPred; split_ifs <;> rfl
@[simp] theorem core_setPred_post (c : Core) (p : BitVec 3) (v : Word) : (c.setPred p v).post = c.post := by
  unfold Core.setPred; split_ifs <;> rfl
@[simp] theorem core_setPred_race (c : Core) (p : BitVec 3) (v : Word) : (c.setPred p v).race = c.race := by
  unfold Core.setPred; split_ifs <;> rfl
@[simp] theorem core_setPred_acc (c : Core) (p : BitVec 3) (v : Word) : (c.setPred p v).acc = c.acc := by
  unfold Core.setPred; split_ifs <;> rfl
@[simp] theorem core_setPred_eng (c : Core) (p : BitVec 3) (v : Word) : (c.setPred p v).eng = c.eng := by
  unfold Core.setPred; split_ifs <;> rfl
@[simp] theorem core_setPred_cpy (c : Core) (p : BitVec 3) (v : Word) : (c.setPred p v).cpy = c.cpy := by
  unfold Core.setPred; split_ifs <;> rfl
@[simp] theorem core_setPred_sync (c : Core) (p : BitVec 3) (v : Word) : (c.setPred p v).sync = c.sync := by
  unfold Core.setPred; split_ifs <;> rfl
@[simp] theorem core_setPred_task (c : Core) (p : BitVec 3) (v : Word) : (c.setPred p v).task = c.task := by
  unfold Core.setPred; split_ifs <;> rfl
@[simp] theorem core_setPred_ptbase (c : Core) (p : BitVec 3) (v : Word) : (c.setPred p v).ptbase = c.ptbase := by
  unfold Core.setPred; split_ifs <;> rfl
@[simp] theorem core_setPred_errsel (c : Core) (p : BitVec 3) (v : Word) : (c.setPred p v).errsel = c.errsel := by
  unfold Core.setPred; split_ifs <;> rfl
@[simp] theorem core_setPred_slot (c : Core) (p : BitVec 3) (v : Word) : (c.setPred p v).slot = c.slot := by
  unfold Core.setPred; split_ifs <;> rfl
@[simp] theorem core_setPred_coupling (c : Core) (p : BitVec 3) (v : Word) : (c.setPred p v).coupling = c.coupling := by
  unfold Core.setPred; split_ifs <;> rfl
@[simp] theorem core_setPred_lastJump (c : Core) (p : BitVec 3) (v : Word) : (c.setPred p v).lastJump = c.lastJump := by
  unfold Core.setPred; split_ifs <;> rfl
@[simp] theorem core_setPred_pend (c : Core) (p : BitVec 3) (v : Word) : (c.setPred p v).pend = c.pend := by
  unfold Core.setPred; split_ifs <;> rfl
@[simp] theorem core_setPred_abandoned (c : Core) (p : BitVec 3) (v : Word) :
    (c.setPred p v).abandoned = c.abandoned := by
  unfold Core.setPred; split_ifs <;> rfl
@[simp] theorem core_setPred_blockTag (c : Core) (p : BitVec 3) (v : Word) : (c.setPred p v).blockTag = c.blockTag := by
  unfold Core.setPred; split_ifs <;> rfl
@[simp] theorem core_setPred_stopAsked (c : Core) (p : BitVec 3) (v : Word) :
    (c.setPred p v).stopAsked = c.stopAsked := by
  unfold Core.setPred; split_ifs <;> rfl
@[simp] theorem core_setPred_commitWait (c : Core) (p : BitVec 3) (v : Word) :
    (c.setPred p v).commitWait = c.commitWait := by
  unfold Core.setPred; split_ifs <;> rfl
@[simp] theorem core_setPred_tlb (c : Core) (p : BitVec 3) (v : Word) : (c.setPred p v).tlb = c.tlb := by
  unfold Core.setPred; split_ifs <;> rfl
@[simp] theorem core_setPred_walk (c : Core) (p : BitVec 3) (v : Word) : (c.setPred p v).walk = c.walk := by
  unfold Core.setPred; split_ifs <;> rfl
@[simp] theorem core_setPred_ibuf (c : Core) (p : BitVec 3) (v : Word) : (c.setPred p v).ibuf = c.ibuf := by
  unfold Core.setPred; split_ifs <;> rfl
@[simp] theorem core_setPred_fetchMiss (c : Core) (p : BitVec 3) (v : Word) :
    (c.setPred p v).fetchMiss = c.fetchMiss := by
  unfold Core.setPred; split_ifs <;> rfl
@[simp] theorem core_setPred_fetchBad (c : Core) (p : BitVec 3) (v : Word) :
    (c.setPred p v).fetchBad = c.fetchBad := by
  unfold Core.setPred; split_ifs <;> rfl
@[simp] theorem core_setPred_draft (c : Core) (p : BitVec 3) (v : Word) :
    (c.setPred p v).draft = c.draft := by
  unfold Core.setPred; split_ifs <;> rfl
@[simp] theorem core_setPred_drafted (c : Core) (p : BitVec 3) (v : Word) :
    (c.setPred p v).drafted = c.drafted := by
  unfold Core.setPred; split_ifs <;> rfl
@[simp] theorem core_setPred_lastIssue (c : Core) (p : BitVec 3) (v : Word) :
    (c.setPred p v).lastIssue = c.lastIssue := by
  unfold Core.setPred; split_ifs <;> rfl
@[simp] theorem core_setPred_jumpShift (c : Core) (p : BitVec 3) (v : Word) :
    (c.setPred p v).jumpShift = c.jumpShift := by
  unfold Core.setPred; split_ifs <;> rfl

@[simp] theorem core_setVReg_pc (c : Core) (v : BitVec 5) (x : VReg) : (c.setVReg v x).pc = c.pc := rfl
@[simp] theorem core_setVReg_level (c : Core) (v : BitVec 5) (x : VReg) : (c.setVReg v x).level = c.level := rfl
@[simp] theorem core_setVReg_run (c : Core) (v : BitVec 5) (x : VReg) : (c.setVReg v x).run = c.run := rfl
@[simp] theorem core_setVReg_retired (c : Core) (v : BitVec 5) (x : VReg) : (c.setVReg v x).retired = c.retired := rfl
@[simp] theorem core_setVReg_wake (c : Core) (v : BitVec 5) (x : VReg) : (c.setVReg v x).wake = c.wake := rfl
@[simp] theorem core_setVReg_inWfi (c : Core) (v : BitVec 5) (x : VReg) : (c.setVReg v x).inWfi = c.inWfi := rfl
@[simp] theorem core_setVReg_win (c : Core) (v : BitVec 5) (x : VReg) : (c.setVReg v x).win = c.win := rfl
@[simp] theorem core_setVReg_fp (c : Core) (v : BitVec 5) (x : VReg) : (c.setVReg v x).fp = c.fp := rfl
@[simp] theorem core_setVReg_trap (c : Core) (v : BitVec 5) (x : VReg) : (c.setVReg v x).trap = c.trap := rfl
@[simp] theorem core_setVReg_post (c : Core) (v : BitVec 5) (x : VReg) : (c.setVReg v x).post = c.post := rfl
@[simp] theorem core_setVReg_race (c : Core) (v : BitVec 5) (x : VReg) : (c.setVReg v x).race = c.race := rfl
@[simp] theorem core_setVReg_acc (c : Core) (v : BitVec 5) (x : VReg) : (c.setVReg v x).acc = c.acc := rfl
@[simp] theorem core_setVReg_eng (c : Core) (v : BitVec 5) (x : VReg) : (c.setVReg v x).eng = c.eng := rfl
@[simp] theorem core_setVReg_cpy (c : Core) (v : BitVec 5) (x : VReg) : (c.setVReg v x).cpy = c.cpy := rfl
@[simp] theorem core_setVReg_sync (c : Core) (v : BitVec 5) (x : VReg) : (c.setVReg v x).sync = c.sync := rfl
@[simp] theorem core_setVReg_task (c : Core) (v : BitVec 5) (x : VReg) : (c.setVReg v x).task = c.task := rfl
@[simp] theorem core_setVReg_ptbase (c : Core) (v : BitVec 5) (x : VReg) : (c.setVReg v x).ptbase = c.ptbase := rfl
@[simp] theorem core_setVReg_errsel (c : Core) (v : BitVec 5) (x : VReg) : (c.setVReg v x).errsel = c.errsel := rfl
@[simp] theorem core_setVReg_slot (c : Core) (v : BitVec 5) (x : VReg) : (c.setVReg v x).slot = c.slot := rfl
@[simp] theorem core_setVReg_coupling (c : Core) (v : BitVec 5) (x : VReg) :
    (c.setVReg v x).coupling = c.coupling := rfl
@[simp] theorem core_setVReg_lastJump (c : Core) (v : BitVec 5) (x : VReg) :
    (c.setVReg v x).lastJump = c.lastJump := rfl
@[simp] theorem core_setVReg_pend (c : Core) (v : BitVec 5) (x : VReg) : (c.setVReg v x).pend = c.pend := rfl
@[simp] theorem core_setVReg_abandoned (c : Core) (v : BitVec 5) (x : VReg) :
    (c.setVReg v x).abandoned = c.abandoned := rfl
@[simp] theorem core_setVReg_blockTag (c : Core) (v : BitVec 5) (x : VReg) :
    (c.setVReg v x).blockTag = c.blockTag := rfl
@[simp] theorem core_setVReg_stopAsked (c : Core) (v : BitVec 5) (x : VReg) :
    (c.setVReg v x).stopAsked = c.stopAsked := rfl
@[simp] theorem core_setVReg_commitWait (c : Core) (v : BitVec 5) (x : VReg) :
    (c.setVReg v x).commitWait = c.commitWait := rfl
@[simp] theorem core_setVReg_tlb (c : Core) (v : BitVec 5) (x : VReg) : (c.setVReg v x).tlb = c.tlb := rfl
@[simp] theorem core_setVReg_walk (c : Core) (v : BitVec 5) (x : VReg) : (c.setVReg v x).walk = c.walk := rfl
@[simp] theorem core_setVReg_ibuf (c : Core) (v : BitVec 5) (x : VReg) : (c.setVReg v x).ibuf = c.ibuf := rfl
@[simp] theorem core_setVReg_fetchMiss (c : Core) (v : BitVec 5) (x : VReg) :
    (c.setVReg v x).fetchMiss = c.fetchMiss := rfl
@[simp] theorem core_setVReg_fetchBad (c : Core) (v : BitVec 5) (x : VReg) :
    (c.setVReg v x).fetchBad = c.fetchBad := rfl
@[simp] theorem core_setVReg_draft (c : Core) (v : BitVec 5) (x : VReg) :
    (c.setVReg v x).draft = c.draft := rfl
@[simp] theorem core_setVReg_drafted (c : Core) (v : BitVec 5) (x : VReg) :
    (c.setVReg v x).drafted = c.drafted := rfl
@[simp] theorem core_setVReg_lastIssue (c : Core) (v : BitVec 5) (x : VReg) :
    (c.setVReg v x).lastIssue = c.lastIssue := rfl
@[simp] theorem core_setVReg_jumpShift (c : Core) (v : BitVec 5) (x : VReg) :
    (c.setVReg v x).jumpShift = c.jumpShift := rfl

@[simp] theorem core_setTReg_pc (c : Core) (m : BitVec 3) (x : TReg) : (c.setTReg m x).pc = c.pc := rfl
@[simp] theorem core_setTReg_level (c : Core) (m : BitVec 3) (x : TReg) : (c.setTReg m x).level = c.level := rfl
@[simp] theorem core_setTReg_run (c : Core) (m : BitVec 3) (x : TReg) : (c.setTReg m x).run = c.run := rfl
@[simp] theorem core_setTReg_retired (c : Core) (m : BitVec 3) (x : TReg) : (c.setTReg m x).retired = c.retired := rfl
@[simp] theorem core_setTReg_wake (c : Core) (m : BitVec 3) (x : TReg) : (c.setTReg m x).wake = c.wake := rfl
@[simp] theorem core_setTReg_inWfi (c : Core) (m : BitVec 3) (x : TReg) : (c.setTReg m x).inWfi = c.inWfi := rfl
@[simp] theorem core_setTReg_win (c : Core) (m : BitVec 3) (x : TReg) : (c.setTReg m x).win = c.win := rfl
@[simp] theorem core_setTReg_fp (c : Core) (m : BitVec 3) (x : TReg) : (c.setTReg m x).fp = c.fp := rfl
@[simp] theorem core_setTReg_trap (c : Core) (m : BitVec 3) (x : TReg) : (c.setTReg m x).trap = c.trap := rfl
@[simp] theorem core_setTReg_post (c : Core) (m : BitVec 3) (x : TReg) : (c.setTReg m x).post = c.post := rfl
@[simp] theorem core_setTReg_race (c : Core) (m : BitVec 3) (x : TReg) : (c.setTReg m x).race = c.race := rfl
@[simp] theorem core_setTReg_acc (c : Core) (m : BitVec 3) (x : TReg) : (c.setTReg m x).acc = c.acc := rfl
@[simp] theorem core_setTReg_cpy (c : Core) (m : BitVec 3) (x : TReg) : (c.setTReg m x).cpy = c.cpy := rfl
@[simp] theorem core_setTReg_sync (c : Core) (m : BitVec 3) (x : TReg) : (c.setTReg m x).sync = c.sync := rfl
@[simp] theorem core_setTReg_task (c : Core) (m : BitVec 3) (x : TReg) : (c.setTReg m x).task = c.task := rfl
@[simp] theorem core_setTReg_ptbase (c : Core) (m : BitVec 3) (x : TReg) : (c.setTReg m x).ptbase = c.ptbase := rfl
@[simp] theorem core_setTReg_errsel (c : Core) (m : BitVec 3) (x : TReg) : (c.setTReg m x).errsel = c.errsel := rfl
@[simp] theorem core_setTReg_slot (c : Core) (m : BitVec 3) (x : TReg) : (c.setTReg m x).slot = c.slot := rfl
@[simp] theorem core_setTReg_coupling (c : Core) (m : BitVec 3) (x : TReg) :
    (c.setTReg m x).coupling = c.coupling := rfl
@[simp] theorem core_setTReg_lastJump (c : Core) (m : BitVec 3) (x : TReg) :
    (c.setTReg m x).lastJump = c.lastJump := rfl
@[simp] theorem core_setTReg_pend (c : Core) (m : BitVec 3) (x : TReg) : (c.setTReg m x).pend = c.pend := rfl
@[simp] theorem core_setTReg_abandoned (c : Core) (m : BitVec 3) (x : TReg) :
    (c.setTReg m x).abandoned = c.abandoned := rfl
@[simp] theorem core_setTReg_blockTag (c : Core) (m : BitVec 3) (x : TReg) :
    (c.setTReg m x).blockTag = c.blockTag := rfl
@[simp] theorem core_setTReg_stopAsked (c : Core) (m : BitVec 3) (x : TReg) :
    (c.setTReg m x).stopAsked = c.stopAsked := rfl
@[simp] theorem core_setTReg_commitWait (c : Core) (m : BitVec 3) (x : TReg) :
    (c.setTReg m x).commitWait = c.commitWait := rfl
@[simp] theorem core_setTReg_tlb (c : Core) (m : BitVec 3) (x : TReg) : (c.setTReg m x).tlb = c.tlb := rfl
@[simp] theorem core_setTReg_walk (c : Core) (m : BitVec 3) (x : TReg) : (c.setTReg m x).walk = c.walk := rfl
@[simp] theorem core_setTReg_ibuf (c : Core) (m : BitVec 3) (x : TReg) : (c.setTReg m x).ibuf = c.ibuf := rfl
@[simp] theorem core_setTReg_fetchMiss (c : Core) (m : BitVec 3) (x : TReg) :
    (c.setTReg m x).fetchMiss = c.fetchMiss := rfl
@[simp] theorem core_setTReg_fetchBad (c : Core) (m : BitVec 3) (x : TReg) :
    (c.setTReg m x).fetchBad = c.fetchBad := rfl
@[simp] theorem core_setTReg_draft (c : Core) (m : BitVec 3) (x : TReg) :
    (c.setTReg m x).draft = c.draft := rfl
@[simp] theorem core_setTReg_drafted (c : Core) (m : BitVec 3) (x : TReg) :
    (c.setTReg m x).drafted = c.drafted := rfl
@[simp] theorem core_setTReg_lastIssue (c : Core) (m : BitVec 3) (x : TReg) :
    (c.setTReg m x).lastIssue = c.lastIssue := rfl
@[simp] theorem core_setTReg_jumpShift (c : Core) (m : BitVec 3) (x : TReg) :
    (c.setTReg m x).jumpShift = c.jumpShift := rfl

@[simp] theorem core_raise_pc (c : Core) (f : BitVec 5) : (c.raise f).pc = c.pc := rfl
@[simp] theorem core_raise_level (c : Core) (f : BitVec 5) : (c.raise f).level = c.level := rfl
@[simp] theorem core_raise_run (c : Core) (f : BitVec 5) : (c.raise f).run = c.run := rfl
@[simp] theorem core_raise_retired (c : Core) (f : BitVec 5) : (c.raise f).retired = c.retired := rfl
@[simp] theorem core_raise_wake (c : Core) (f : BitVec 5) : (c.raise f).wake = c.wake := rfl
@[simp] theorem core_raise_inWfi (c : Core) (f : BitVec 5) : (c.raise f).inWfi = c.inWfi := rfl
@[simp] theorem core_raise_regs (c : Core) (f : BitVec 5) : (c.raise f).regs = c.regs := rfl
@[simp] theorem core_raise_win (c : Core) (f : BitVec 5) : (c.raise f).win = c.win := rfl
@[simp] theorem core_raise_trap (c : Core) (f : BitVec 5) : (c.raise f).trap = c.trap := rfl
@[simp] theorem core_raise_post (c : Core) (f : BitVec 5) : (c.raise f).post = c.post := rfl
@[simp] theorem core_raise_race (c : Core) (f : BitVec 5) : (c.raise f).race = c.race := rfl
@[simp] theorem core_raise_acc (c : Core) (f : BitVec 5) : (c.raise f).acc = c.acc := rfl
@[simp] theorem core_raise_eng (c : Core) (f : BitVec 5) : (c.raise f).eng = c.eng := rfl
@[simp] theorem core_raise_cpy (c : Core) (f : BitVec 5) : (c.raise f).cpy = c.cpy := rfl
@[simp] theorem core_raise_sync (c : Core) (f : BitVec 5) : (c.raise f).sync = c.sync := rfl
@[simp] theorem core_raise_task (c : Core) (f : BitVec 5) : (c.raise f).task = c.task := rfl
@[simp] theorem core_raise_ptbase (c : Core) (f : BitVec 5) : (c.raise f).ptbase = c.ptbase := rfl
@[simp] theorem core_raise_errsel (c : Core) (f : BitVec 5) : (c.raise f).errsel = c.errsel := rfl
@[simp] theorem core_raise_slot (c : Core) (f : BitVec 5) : (c.raise f).slot = c.slot := rfl
@[simp] theorem core_raise_coupling (c : Core) (f : BitVec 5) : (c.raise f).coupling = c.coupling := rfl
@[simp] theorem core_raise_lastJump (c : Core) (f : BitVec 5) : (c.raise f).lastJump = c.lastJump := rfl
@[simp] theorem core_raise_pend (c : Core) (f : BitVec 5) : (c.raise f).pend = c.pend := rfl
@[simp] theorem core_raise_abandoned (c : Core) (f : BitVec 5) : (c.raise f).abandoned = c.abandoned := rfl
@[simp] theorem core_raise_blockTag (c : Core) (f : BitVec 5) : (c.raise f).blockTag = c.blockTag := rfl
@[simp] theorem core_raise_stopAsked (c : Core) (f : BitVec 5) : (c.raise f).stopAsked = c.stopAsked := rfl
@[simp] theorem core_raise_commitWait (c : Core) (f : BitVec 5) : (c.raise f).commitWait = c.commitWait := rfl
@[simp] theorem core_raise_tlb (c : Core) (f : BitVec 5) : (c.raise f).tlb = c.tlb := rfl
@[simp] theorem core_raise_walk (c : Core) (f : BitVec 5) : (c.raise f).walk = c.walk := rfl
@[simp] theorem core_raise_ibuf (c : Core) (f : BitVec 5) : (c.raise f).ibuf = c.ibuf := rfl
@[simp] theorem core_raise_fetchMiss (c : Core) (f : BitVec 5) : (c.raise f).fetchMiss = c.fetchMiss := rfl
@[simp] theorem core_raise_fetchBad (c : Core) (f : BitVec 5) : (c.raise f).fetchBad = c.fetchBad := rfl
@[simp] theorem core_raise_draft (c : Core) (f : BitVec 5) : (c.raise f).draft = c.draft := rfl
@[simp] theorem core_raise_drafted (c : Core) (f : BitVec 5) : (c.raise f).drafted = c.drafted := rfl
@[simp] theorem core_raise_lastIssue (c : Core) (f : BitVec 5) : (c.raise f).lastIssue = c.lastIssue := rfl
@[simp] theorem core_raise_jumpShift (c : Core) (f : BitVec 5) : (c.raise f).jumpShift = c.jumpShift := rfl

end Sys2Proof.Machine
end

