-- ==== Sys2Proof/Laws/Ops.lean ====
section
/-!
SUPPORT. What the shared operations can do: how an instruction ends, taking a trap and returning from one, the focus,
and sending a packet.
-/
namespace Sys2Proof.Machine

set_option Elab.async false

/-! ### How an instruction ends -/

/-- The four ends of an instruction, as a step sees them. -/
theorem result_cases (e : Issue) :
    (∃ s, e = .done s ∧ e.result = .next s.retire) ∨ (∃ s, e = .wait s ∧ e.result = .next s) ∨
    (∃ c v s, e = .trap c v s ∧ e.result = .next (takeTrap c v s)) ∨ (∃ f, e = .stop f ∧ e.result = .fault f) := by
  cases e with
  | done s => exact .inl ⟨s, rfl, rfl⟩
  | wait s => exact .inr (.inl ⟨s, rfl, rfl⟩)
  | trap c v s => exact .inr (.inr (.inl ⟨c, v, s, rfl, rfl⟩))
  | stop f => exact .inr (.inr (.inr ⟨f, rfl, rfl⟩))

/-- An instruction that answers a next state completed, waits or trapped. -/
theorem result_next {e : Issue} {t : State} (h : e.result = .next t) :
    (∃ s, e = .done s ∧ t = s.retire) ∨ e = .wait t ∨ (∃ c v s, e = .trap c v s ∧ t = takeTrap c v s) := by
  obtain ⟨s, rfl, g⟩ | ⟨s, rfl, g⟩ | ⟨c, v, s, rfl, g⟩ | ⟨f, rfl, g⟩ := result_cases e <;> rw [g] at h <;> cases h
  · exact .inl ⟨s, rfl, rfl⟩
  · exact .inr (.inl rfl)
  · exact .inr (.inr ⟨c, v, s, rfl, rfl⟩)

@[simp] theorem done_result (s : State) : (Issue.done s).result = .next s.retire := rfl
@[simp] theorem wait_result (s : State) : (Issue.wait s).result = .next s := rfl
@[simp] theorem trap_result (c : Nat) (v : Word) (s : State) : (Issue.trap c v s).result = .next (takeTrap c v s) := rfl
@[simp] theorem stop_result (f : Fault) : (Issue.stop f).result = .fault f := rfl
@[simp] theorem next4_result (s : State) : s.next4.result = .next (s.skip 4).retire := rfl

/-! ### Vectors -/

@[simp] theorem vget_vset_same {α : Type} {n : Nat} (v : Vector α n) (i : Nat) (x d : α) (h : i < n) :
    vget (vset v i x) i d = x := by
  simp [vget, vset, Array.getD_eq_getD_getElem?, h]

@[simp] theorem vget_vset_other {α : Type} {n : Nat} (v : Vector α n) (i j : Nat) (x d : α) (h : i ≠ j) :
    vget (vset v i x) j d = vget v j d := by
  simp [vget, vset, Array.getD_eq_getD_getElem?, h]

/-! ### Registers -/

@[simp] theorem reg_zero (c : Core) : c.reg 0 = 0 := rfl
@[simp] theorem setReg_zero (c : Core) (v : Word) : c.setReg 0 v = c := rfl
@[simp] theorem pred_zero (c : Core) : c.pred 0 = BitVec.allOnes 64 := rfl
@[simp] theorem setPred_zero (c : Core) (v : Word) : c.setPred 0 v = c := rfl

/-- A predicate after a write of one. -/
theorem pred_setPred (c : Core) (p q : BitVec 3) (v : Word) :
    (c.setPred p v).pred q = if q = 0 then BitVec.allOnes 64 else if q = p then v else c.pred q := by
  have := p.isLt
  unfold Core.pred Core.setPred
  by_cases h : q = 0
  · simp [h]
  · by_cases e : q = p
    · subst e
      rw [if_neg h, if_neg h, if_neg h, if_pos rfl, vget_vset_same _ _ _ _ (by omega)]
    · have n : p.toNat ≠ q.toNat := fun n => e (BitVec.eq_of_toNat_eq n.symm)
      rw [if_neg h, if_neg h, if_neg h, if_neg e]
      split_ifs
      · rfl
      · exact vget_vset_other _ _ _ _ _ n

/-- A vector register after a write of one. -/
theorem vreg_setVReg (c : Core) (v u : BitVec 5) (x : VReg) :
    (c.setVReg v x).vreg u = if u = v then x else c.vreg u := by
  have := v.isLt
  unfold Core.vreg Core.setVReg
  by_cases e : u = v
  · subst e; rw [if_pos rfl, vget_vset_same _ _ _ _ (by omega)]
  · have : v.toNat ≠ u.toNat := fun n => e (BitVec.eq_of_toNat_eq n.symm)
    simp [e, this]

/-- A tile register after a write of one. -/
theorem treg_setTReg (c : Core) (m k : BitVec 3) (x : TReg) :
    (c.setTReg m x).treg k = if k = m then x else c.treg k := by
  have := m.isLt
  unfold Core.treg Core.setTReg
  by_cases e : k = m
  · subst e; rw [if_pos rfl, vget_vset_same _ _ _ _ (by omega)]
  · have : m.toNat ≠ k.toNat := fun n => e (BitVec.eq_of_toNat_eq n.symm)
    simp [e, this]

/-! ### Packets (R443) -/

/-- A packet that joins the network is the last in flight, under the next number. -/
theorem launchPacket_adds (s : State) (l : Line) (d : Dest) (x : Option Nat) (m : Msg) :
    ∃ p : Packet, p.line = l ∧ p.dest = d ∧ p.msg = m ∧ p.origin = s.site ∧ p.arrived = x ∧ p.id = s.wafer.nextId ∧
      (s.launchPacket l d x m).wafer = { s.wafer with net := s.wafer.net ++ [p], nextId := s.wafer.nextId + 1 } :=
  ⟨_, rfl, rfl, rfl, rfl, rfl, rfl, rfl⟩

/-- A packet that no replay withholds joins the network. -/
theorem inject_sends (s : State) (l : Line) (d : Dest) (m : Msg) (h : s.tile.replay = none) :
    ∃ p : Packet, p.line = l ∧ p.dest = d ∧ p.msg = m ∧ p.origin = s.site ∧ p.arrived = none ∧ p.id = s.wafer.nextId ∧
      (s.inject l d m).wafer = { s.wafer with net := s.wafer.net ++ [p], nextId := s.wafer.nextId + 1 } := by
  have q : ∃ u : State, u.site = s.site ∧ u.wafer = s.wafer ∧ s.inject l d m = u.launchPacket l d none m := by
    have w : ∀ u : Tile, u.replay = none → u.withheld m = none := by
      intro u hu; simp [Tile.withheld, hu]
    cases m
    case line r sp base =>
      refine ⟨{ s with tile := { s.tile with fills := s.tile.fills ++ [(r.fetch, sp, base, true)] } }, rfl, rfl, ?_⟩
      simp only [State.inject]
      rw [w { s.tile with fills := s.tile.fills ++ [(r.fetch, sp, base, true)] } h]
    all_goals
      refine ⟨s, rfl, rfl, ?_⟩
      simp only [State.inject]
      rw [w _ h]
  obtain ⟨u, h1, h2, h3⟩ := q
  obtain ⟨p, a, b, c, e, f, g, k⟩ := launchPacket_adds u l d none m
  exact ⟨p, a, b, c, e.trans h1, f, by rw [g, h2], by rw [h3, k, h2]⟩

/-- Sending a packet touches neither cores nor the junction, nor the memory of the tile. -/
theorem inject_keeps (s : State) (l : Line) (d : Dest) (m : Msg) :
    (s.inject l d m).core = s.core ∧ (s.inject l d m).others = s.others ∧ (s.inject l d m).coreNo = s.coreNo ∧
    (s.inject l d m).site = s.site ∧ (s.inject l d m).junction = s.junction ∧
    (s.inject l d m).tile = { s.tile with fills := (s.inject l d m).tile.fills } ∧
    (s.inject l d m).wafer =
      { s.wafer with net := (s.inject l d m).wafer.net, nextId := (s.inject l d m).wafer.nextId } := by
  simp only [State.inject]
  split <;> split <;> exact ⟨rfl, rfl, rfl, rfl, rfl, rfl, rfl⟩

/-! ### Traps -/

@[simp] theorem uncouple_wafer (s : State) : s.uncouple.wafer = s.wafer := rfl
@[simp] theorem uncouple_tile (s : State) : s.uncouple.tile = s.tile := rfl
@[simp] theorem uncouple_junction (s : State) : s.uncouple.junction = s.junction := rfl
@[simp] theorem uncouple_site (s : State) : s.uncouple.site = s.site := rfl
@[simp] theorem uncouple_coreNo (s : State) : s.uncouple.coreNo = s.coreNo := rfl
@[simp] theorem uncouple_core (s : State) : s.uncouple.core = s.core.unfollow := rfl

/-- A core that ceases to follow keeps everything else. -/
theorem unfollow_keeps (c : Core) : c.unfollow = { c with coupling := c.unfollow.coupling } := by
  unfold Core.unfollow
  split <;> rfl

@[simp] theorem unfollow_inTrap (c : Core) : c.unfollow.inTrap = c.inTrap := by rw [unfollow_keeps]; rfl
@[simp] theorem unfollow_trap (c : Core) : c.unfollow.trap = c.trap := by rw [unfollow_keeps]

/-- A trap with a handler, outside a handler, changes nothing outside the core but couplings (R134, R360). -/
theorem takeTrap_handled (cause : Nat) (val : Word) (s : State) (h : s.core.inTrap = false)
    (v : s.core.trap.tvec &&& 0xFFFFFFFFFFFE ≠ 0) :
    takeTrap cause val s =
      { s.uncouple with
        core := { s.core with
          coupling := s.core.unfollow.coupling, walk := none, pend := [], inWfi := false, sync := { s.core.sync with cnt := none },
          acc := { s.core.acc with flushed := false }, task := { s.core.task with joinWaits := false },
          level := .S, pc := s.core.trap.tvec &&& 0xFFFFFFFFFFFE,
          trap := { s.core.trap with
            tcause := causeWord cause s.core.task.inTask, tpc := s.core.pc &&& 0xFFFFFFFFFFFE, tval := val,
            tstat := withPlev s.core.trap.tstat s.core.level ||| 1 } } } := by
  simp only [takeTrap, uncouple_core, unfollow_inTrap, unfollow_trap, h, Bool.not_false, if_true, v, decide_false,
    Bool.or_false, Bool.not_true, Bool.false_eq_true, if_false]
  rw [unfollow_keeps]

/-- A trap escalates when there is no handler or the core is in it (R362). -/
theorem takeTrap_escalates (cause : Nat) (val : Word) (s : State)
    (h : s.core.inTrap = true ∨ s.core.trap.tvec &&& 0xFFFFFFFFFFFE = 0) :
    (takeTrap cause val s).core.run = .trapped := by
  have e : ∀ (b : Bool) (u : State), (escalate b u).core.run = .trapped := by
    intro b u
    simp only [escalate]
    split_ifs
    · rfl
    · simp only [postTeamTrap]
      split_ifs
      · rfl
      · split
        · rfl
        · rw [(inject_keeps _ _ _ _).1]
  rcases Bool.eq_false_or_eq_true s.core.inTrap with i | i
  · simp only [takeTrap, uncouple_core, unfollow_inTrap, i, Bool.not_true, Bool.not_false, Bool.true_or, if_true]
    exact e _ _
  · have v : s.core.trap.tvec &&& 0xFFFFFFFFFFFE = 0 := h.resolve_left (by simp [i])
    simp only [takeTrap, uncouple_core, unfollow_inTrap, unfollow_trap, i, v, Bool.not_true, Bool.not_false, decide_true, Bool.or_true, if_true]
    exact e _ _

/-! ### Cores and sites -/

@[simp] theorem findCore_putCore (l : List (CoreId × Core)) (c d : CoreId) (x : Core) :
    findCore (putCore l c x) d = if d = c then x else findCore l d := by
  induction l with
  | nil =>
    by_cases h : c = d
    · subst h; simp [putCore, findCore]
    · simp [putCore, findCore, h, Ne.symm h]
  | cons p r ih =>
    obtain ⟨k, y⟩ := p
    rcases eq_or_ne k c with e | e
    · subst e
      rcases eq_or_ne d k with h | h
      · subst h; simp [putCore, findCore]
      · simp [putCore, findCore, h, h.symm]
    · rcases eq_or_ne d c with h | h
      · subst h
        by_cases q : d.toNat < k.toNat <;> simp [putCore, findCore, e, q, ih]
      · by_cases q : c.toNat < k.toNat <;> simp [putCore, findCore, e, q, ih, h, h.symm]

@[simp] theorem findSite_putSite (l : List (SiteId × SiteRec)) (c d : SiteId) (x : SiteRec) :
    findSite (putSite l c x) d = if d = c then x else findSite l d := by
  induction l with
  | nil =>
    by_cases h : c = d
    · subst h; simp [putSite, findSite]
    · simp [putSite, findSite, h, Ne.symm h]
  | cons p r ih =>
    obtain ⟨k, y⟩ := p
    rcases eq_or_ne k c with e | e
    · subst e
      rcases eq_or_ne d k with h | h
      · subst h; simp [putSite, findSite]
      · simp [putSite, findSite, h, h.symm]
    · rcases eq_or_ne d c with h | h
      · subst h
        by_cases q : d.toNat < k.toNat <;> simp [putSite, findSite, e, q, ih]
      · by_cases q : c.toNat < k.toNat <;> simp [putSite, findSite, e, q, ih, h, h.symm]

/-- A core of the tile after a change of one. -/
theorem coreAt_updCore (s : State) (c d : CoreId) (f : Core → Core) :
    (s.updCore c f).coreAt d = if d = c then f (s.coreAt d) else s.coreAt d := by
  unfold State.updCore
  split_ifs with h e e
  · subst h; subst e; simp [State.coreAt]
  · subst h; simp [State.coreAt, e]
  · subst e; simp [State.coreAt, h]
  · simp only [State.coreAt, findCore_putCore, e, if_false]

@[simp] theorem updCore_tile (s : State) (c : CoreId) (f : Core → Core) : (s.updCore c f).tile = s.tile := by
  unfold State.updCore; split_ifs <;> rfl
@[simp] theorem updCore_wafer (s : State) (c : CoreId) (f : Core → Core) : (s.updCore c f).wafer = s.wafer := by
  unfold State.updCore; split_ifs <;> rfl
@[simp] theorem updCore_junction (s : State) (c : CoreId) (f : Core → Core) : (s.updCore c f).junction = s.junction := by
  unfold State.updCore; split_ifs <;> rfl
@[simp] theorem updCore_site (s : State) (c : CoreId) (f : Core → Core) : (s.updCore c f).site = s.site := by
  unfold State.updCore; split_ifs <;> rfl
@[simp] theorem updCore_coreNo (s : State) (c : CoreId) (f : Core → Core) : (s.updCore c f).coreNo = s.coreNo := by
  unfold State.updCore; split_ifs <;> rfl

@[simp] theorem focusCore_tile (s : State) (c : CoreId) : (s.focusCore c).tile = s.tile := by
  unfold State.focusCore; split_ifs <;> rfl
@[simp] theorem focusCore_wafer (s : State) (c : CoreId) : (s.focusCore c).wafer = s.wafer := by
  unfold State.focusCore; split_ifs <;> rfl
@[simp] theorem focusCore_junction (s : State) (c : CoreId) : (s.focusCore c).junction = s.junction := by
  unfold State.focusCore; split_ifs <;> rfl
@[simp] theorem focusCore_site (s : State) (c : CoreId) : (s.focusCore c).site = s.site := by
  unfold State.focusCore; split_ifs <;> rfl
@[simp] theorem focusCore_coreNo (s : State) (c : CoreId) : (s.focusCore c).coreNo = c := by
  unfold State.focusCore; split_ifs with h
  · exact h.symm
  · rfl
@[simp] theorem focusCore_core (s : State) (c : CoreId) : (s.focusCore c).core = s.coreAt c := by
  unfold State.focusCore State.coreAt; split_ifs <;> rfl

/-! ### Points -/

/-- A junction's answer for the packets of one tile depends on its first entry for it alone. -/
theorem findPoint_filter (l : List (Nat × SiteId)) (t u : Nat) :
    findPoint (l.filter (fun p => p.1 != t)) u = if u = t then none else findPoint l u := by
  induction l with
  | nil => simp [findPoint]
  | cons p r ih =>
    obtain ⟨k, x⟩ := p
    rw [List.filter_cons]
    by_cases h : k = t
    · subst h
      simp only [bne_self_eq_false, Bool.false_eq_true, if_false, ih, findPoint]
      split_ifs <;> simp_all
    · simp only [bne_iff_ne, ne_eq, h, not_false_eq_true, if_true, findPoint, ih]
      split_ifs <;> simp_all

end Sys2Proof.Machine
end

