-- ==== Sys2Proof/Laws/Access.lean ====
section
/-!
SUPPORT. What the shared operations of memory access can do: the checks of an address, the waits on posted counts, the
notes a local access leaves, and a write at the tile's own scratchpad.
-/
namespace Sys2Proof.Machine

set_option Elab.async false

/-! ### The checks of an address (R140) -/

/-- An access traps on its alignment, traps on its translation, waits for a walk, or goes on to its target. -/
theorem access_cases (need : Need) (va size : Nat) (s : State) (k : Target → State → Issue) :
    (va % size ≠ 0 ∧ access need va size s k = .trap 3 (BitVec.ofNat 64 va) s) ∨
    (va % size = 0 ∧ ∃ t, s.translate need va = .ok t ∧ access need va size s k = k t s) ∨
    (va % size = 0 ∧ ∃ c, s.translate need va = .fail c ∧ access need va size s k = .trap c (BitVec.ofNat 64 va) s) ∨
    (va % size = 0 ∧ s.translate need va = .miss ∧ access need va size s k = .wait (s.startWalk va)) := by
  unfold access
  by_cases h : va % size = 0
  · rw [if_neg (by simpa using h)]
    cases e : s.translate need va with
    | ok t => exact .inr (.inl ⟨h, t, rfl, rfl⟩)
    | fail c => exact .inr (.inr (.inl ⟨h, c, rfl, rfl⟩))
    | miss => exact .inr (.inr (.inr ⟨h, rfl, rfl⟩))
  · exact .inl ⟨h, by rw [if_pos h]⟩

/-- An address of the own scratchpad needs no translation (R136). -/
@[simp] theorem translate_own (need : Need) (va : Nat) (s : State) (h : va < 0x600000) :
    s.translate need va = .ok (.own va) := by
  unfold State.translate
  rw [if_neg (by omega), if_pos (by simpa [spadSize] using h)]

/-- An address above 48 bits has no translation (R136). -/
@[simp] theorem translate_beyond (need : Need) (va : Nat) (s : State) (h : 2 ^ 48 ≤ va) :
    s.translate need va = .fail 4 := by
  unfold State.translate
  rw [if_pos h]

/-- An aligned address of the own scratchpad reaches it. -/
theorem access_own (need : Need) (va size : Nat) (s : State) (k : Target → State → Issue) (h : va < 0x600000)
    (al : va % size = 0) : access need va size s k = k (.own va) s := by
  unfold access
  rw [if_neg (by simpa using al), translate_own _ _ _ h]

/-! ### Waits on posted counts (R154) -/

/-- A wait reports a race, goes on when the counts are zero, or leaves the state to be issued again. -/
theorem waitCounts_cases (cls : List PostClass) (s : State) (k : State → Issue) :
    (∃ r, s.core.raceFor cls = some r ∧ waitCounts cls s k = .trap r.2.1 r.2.2
      { s with core := { s.core with post := { s.core.post with races := s.core.post.races.filter (· != r) } } }) ∨
    (s.core.raceFor cls = none ∧ (s.core.engineSent && cls.all (fun c => s.core.post.count c == 0)) = true ∧
      waitCounts cls s k = k { s with core := s.core.cover cls }) ∨
    (s.core.raceFor cls = none ∧ (s.core.engineSent && cls.all (fun c => s.core.post.count c == 0)) = false ∧
      waitCounts cls s k = .wait s) := by
  unfold waitCounts
  cases s.core.raceFor cls with
  | some r => exact .inl ⟨r, rfl, rfl⟩
  | none =>
    cases h : s.core.engineSent && cls.all (fun c => s.core.post.count c == 0)
    · exact .inr (.inr ⟨rfl, rfl, rfl⟩)
    · exact .inr (.inl ⟨rfl, rfl, rfl⟩)

@[simp] theorem waitW_zero (s : State) (k : State → Issue) : waitW 0 s k = k s := rfl

/-! ### Notes of an access (R421, R425) -/

/-- What a determinant may change: its queue, and the packet that streams it. -/
structure OnlyNotes (s t : State) : Prop where
  core : t.core = s.core
  others : t.others = s.others
  place : t.coreNo = s.coreNo ∧ t.site = s.site ∧ t.junction = s.junction
  tile : t.tile = { s.tile with
    touched := t.tile.touched, made := t.tile.made, sliceCount := t.tile.sliceCount, dets := t.tile.dets,
    fills := t.tile.fills }
  wafer : t.wafer = { s.wafer with net := t.wafer.net, nextId := t.wafer.nextId }

theorem OnlyNotes.refl (s : State) : OnlyNotes s s := ⟨rfl, rfl, ⟨rfl, rfl, rfl⟩, rfl, rfl⟩

theorem OnlyNotes.trans {s t u : State} (h : OnlyNotes s t) (k : OnlyNotes t u) : OnlyNotes s u :=
  ⟨k.core.trans h.core, k.others.trans h.others,
    ⟨k.place.1.trans h.place.1, k.place.2.1.trans h.place.2.1, k.place.2.2.trans h.place.2.2⟩,
    by rw [k.tile, h.tile], by rw [k.wafer, h.wafer]⟩

theorem inject_onlyNotes (s : State) (l : Line) (d : Dest) (m : Msg) : OnlyNotes s (s.inject l d m) := by
  obtain ⟨a, b, c, e, f, g, h⟩ := inject_keeps s l d m
  exact ⟨a, b, ⟨c, e, f⟩, by rw [g], h⟩

theorem noteDet_onlyNotes (s : State) (d : Det) : OnlyNotes s (s.noteDet d) := by
  unfold State.noteDet
  split_ifs
  · exact .refl s
  · split
    · exact .refl s
    · exact OnlyNotes.trans (t := { s with tile := { s.tile with dets := s.tile.dets ++ [d] } })
        ⟨rfl, rfl, ⟨rfl, rfl, rfl⟩, rfl, rfl⟩ (inject_onlyNotes _ _ _ _)

/-- Under a boot job no determinant is kept. -/
@[simp] theorem noteDet_booting (s : State) (d : Det) (h : s.booting = true) : s.noteDet d = s := by
  simp [State.noteDet, h]

theorem touch_onlyNotes (s : State) (src line : Nat) (write : Bool) : OnlyNotes s (s.touch src line write) := by
  have one : OnlyNotes s { s with tile := { s.tile with
      touched := (line, src, write) :: s.tile.touched.filter (fun p => p.1 != line),
      made := (src, s.tile.madeBy src + 1) :: s.tile.made.filter (fun p => p.1 != src),
      sliceCount := vset s.tile.sliceCount (line % 8) (vget s.tile.sliceCount (line % 8) 0 + 1) } } :=
    ⟨rfl, rfl, ⟨rfl, rfl, rfl⟩, rfl, rfl⟩
  simp only [State.touch]
  split
  · split_ifs
    · exact one.trans (noteDet_onlyNotes _ _)
    · exact one
  · exact one

/-- Touching the lines of an access only leaves notes. -/
theorem touchAll_onlyNotes (s : State) (src : Nat) (lines : List Nat) (write : Bool) :
    OnlyNotes s (lines.foldl (fun s l => s.touch src l write) s) := by
  induction lines generalizing s with
  | nil => exact .refl s
  | cons l r ih => exact (touch_onlyNotes s src l write).trans (ih _)

/-! ### Answers and writes at the own scratchpad (R155, R335, R411) -/

theorem answerHere_keeps (s : State) (c : CoreId) (f : Nat) (r : Reply) :
    (s.answerHere c f r).tile = s.tile ∧ (s.answerHere c f r).wafer = s.wafer ∧ (s.answerHere c f r).site = s.site ∧
    (s.answerHere c f r).junction = s.junction ∧ (s.answerHere c f r).coreNo = s.coreNo := by
  simp [State.answerHere]

/-- A core of the tile that an answer reaches changes only in the requests it waits for. -/
theorem answerHere_coreAt (s : State) (c d : CoreId) (f : Nat) (r : Reply) :
    ∃ pe, (s.answerHere c f r).coreAt d = { s.coreAt d with pend := pe } := by
  simp only [State.answerHere, coreAt_updCore]
  split_ifs
  · exact ⟨_, rfl⟩
  · exact ⟨(s.coreAt d).pend, rfl⟩

/-- Waking monitors changes neither memory nor the place of the focus. -/
theorem wakeMonitors_keeps (ms : List Monitor) (s : State) :
    (wakeMonitors ms s).tile.mem = s.tile.mem ∧ (wakeMonitors ms s).tile.full = s.tile.full ∧
    (wakeMonitors ms s).site = s.site ∧ (wakeMonitors ms s).junction = s.junction ∧
    (wakeMonitors ms s).coreNo = s.coreNo ∧
    (wakeMonitors ms s).wafer =
      { s.wafer with net := (wakeMonitors ms s).wafer.net, nextId := (wakeMonitors ms s).wafer.nextId } := by
  induction ms generalizing s with
  | nil => exact ⟨rfl, rfl, rfl, rfl, rfl, rfl⟩
  | cons m r ih =>
    have one : ∀ u : State, u.tile.mem = s.tile.mem → u.tile.full = s.tile.full → u.site = s.site →
        u.junction = s.junction → u.coreNo = s.coreNo →
        u.wafer = { s.wafer with net := u.wafer.net, nextId := u.wafer.nextId } →
        (wakeMonitors r u).tile.mem = s.tile.mem ∧ (wakeMonitors r u).tile.full = s.tile.full ∧
        (wakeMonitors r u).site = s.site ∧ (wakeMonitors r u).junction = s.junction ∧
        (wakeMonitors r u).coreNo = s.coreNo ∧ (wakeMonitors r u).wafer =
          { s.wafer with net := (wakeMonitors r u).wafer.net, nextId := (wakeMonitors r u).wafer.nextId } := by
      intro u a b c d e f
      obtain ⟨a', b', c', d', e', f'⟩ := ih u
      exact ⟨a'.trans a, b'.trans b, c'.trans c, d'.trans d, e'.trans e, by rw [f', f]⟩
    have q : ∀ (u : State) (rep : Reply), (u.answer m.req m.remote rep .reply).tile.mem = u.tile.mem ∧
        (u.answer m.req m.remote rep .reply).tile.full = u.tile.full ∧
        (u.answer m.req m.remote rep .reply).site = u.site ∧
        (u.answer m.req m.remote rep .reply).junction = u.junction ∧
        (u.answer m.req m.remote rep .reply).coreNo = u.coreNo ∧
        (u.answer m.req m.remote rep .reply).wafer = { u.wafer with
          net := (u.answer m.req m.remote rep .reply).wafer.net,
          nextId := (u.answer m.req m.remote rep .reply).wafer.nextId } := by
      intro u rep
      simp only [State.answer]
      split_ifs
      · obtain ⟨_, _, c, d, e, f, g⟩ := inject_keeps u .relief (.tile m.req.src.tile)
          (.reply m.req.src m.req.fetch rep .reply)
        exact ⟨by rw [f], by rw [f], d, e, c, g⟩
      · obtain ⟨a, b, c, d, e⟩ := answerHere_keeps u m.req.src.core m.req.fetch rep
        exact ⟨by rw [a], by rw [a], c, d, e, by rw [b]⟩
    have two : ∀ (u : State) (rep : Reply) (id : Nat) (f : Packet → Packet), u.tile.mem = s.tile.mem →
        u.tile.full = s.tile.full → u.site = s.site → u.junction = s.junction → u.coreNo = s.coreNo →
        u.wafer = s.wafer → _ := fun u rep id f h1 h2 h3 h4 h5 h6 =>
      have k := q u rep
      one ((u.answer m.req m.remote rep .reply).setPacket id f) (k.1.trans h1) (k.2.1.trans h2) (k.2.2.1.trans h3)
        (k.2.2.2.1.trans h4) (k.2.2.2.2.1.trans h5) (by rw [setPacket_wafer, k.2.2.2.2.2, h6])
    simp only [wakeMonitors]
    split_ifs
    · exact two _ _ _ _ rfl rfl rfl rfl rfl rfl
    · exact two _ _ _ _ rfl rfl rfl rfl rfl rfl
    · exact one s rfl rfl rfl rfl rfl rfl

/-- A write at the own scratchpad stores its cells, and no byte of another memory. -/
theorem writeOwn_memory (s : State) (cells : List Host.Cell) (own : Bool) :
    (s.writeOwn cells own).tile.mem = s.tile.mem.writeCells cells ∧ (s.writeOwn cells own).tile.full = s.tile.full ∧
    (s.writeOwn cells own).site = s.site ∧ (s.writeOwn cells own).junction = s.junction ∧
    (s.writeOwn cells own).coreNo = s.coreNo ∧
    (s.writeOwn cells own).wafer = { s.wafer with
      net := (s.writeOwn cells own).wafer.net, nextId := (s.writeOwn cells own).wafer.nextId } := by
  simp only [State.writeOwn]
  split_ifs
  · exact wakeMonitors_keeps _ _
  · exact wakeMonitors_keeps _ _

/-- A write at the own scratchpad keeps its memory in canonical form. -/
theorem writeOwn_wf (s : State) (cells : List Host.Cell) (own : Bool) (h : s.tile.mem.wf = true) :
    (s.writeOwn cells own).tile.mem.wf = true := by
  rw [(writeOwn_memory s cells own).1]
  exact writeCells_wf cells h

end Sys2Proof.Machine
end

