-- ==== Sys2Proof/Laws/Box.lean ====
section
/-!
SUPPORT. The table of kernel words by which the machine runs a kernel is the decoder's instruction, executed.
-/
namespace Sys2Proof.Machine

set_option Elab.async false

theorem boxRow_0 (w : Nat) (h : fld w 0 6 = 0) : boxRow w = (decodeBox w).map exec := by
  unfold decodeBox decodeBoxRaw boxRow
  simp only [h]
  split_ifs <;> rfl

theorem boxRow_1 (w : Nat) (h : fld w 0 6 = 1) : boxRow w = (decodeBox w).map exec := by
  unfold decodeBox decodeBoxRaw boxRow
  simp only [h]
  split_ifs <;> rfl

theorem boxRow_2 (w : Nat) (h : fld w 0 6 = 2) : boxRow w = (decodeBox w).map exec := by
  unfold decodeBox decodeBoxRaw boxRow
  simp only [h]
  split_ifs <;> rfl

theorem boxRow_3 (w : Nat) (h : fld w 0 6 = 3) : boxRow w = (decodeBox w).map exec := by
  unfold decodeBox decodeBoxRaw boxRow
  simp only [h]
  split_ifs <;> rfl

theorem boxRow_4 (w : Nat) (h : fld w 0 6 = 4) : boxRow w = (decodeBox w).map exec := by
  unfold decodeBox decodeBoxRaw boxRow
  simp only [h]
  split_ifs <;> rfl

theorem boxRow_5 (w : Nat) (h : fld w 0 6 = 5) : boxRow w = (decodeBox w).map exec := by
  unfold decodeBox decodeBoxRaw boxRow
  simp only [h]
  split_ifs <;> rfl

theorem boxRow_6 (w : Nat) (h : fld w 0 6 = 6) : boxRow w = (decodeBox w).map exec := by
  unfold decodeBox decodeBoxRaw boxRow
  simp only [h]
  split_ifs <;> rfl

theorem boxRow_7 (w : Nat) (h : fld w 0 6 = 7) : boxRow w = (decodeBox w).map exec := by
  unfold decodeBox decodeBoxRaw boxRow
  simp only [h]
  split_ifs <;> rfl

theorem boxRow_8 (w : Nat) (h : fld w 0 6 = 8) : boxRow w = (decodeBox w).map exec := by
  unfold decodeBox decodeBoxRaw boxRow
  simp only [h]
  split_ifs <;> rfl

theorem boxRow_9 (w : Nat) (h : fld w 0 6 = 9) : boxRow w = (decodeBox w).map exec := by
  unfold decodeBox decodeBoxRaw boxRow
  simp only [h]
  split_ifs <;> rfl

theorem boxRow_10 (w : Nat) (h : fld w 0 6 = 10) : boxRow w = (decodeBox w).map exec := by
  unfold decodeBox decodeBoxRaw boxRow
  simp only [h]
  split_ifs <;> rfl

theorem boxRow_11 (w : Nat) (h : fld w 0 6 = 11) : boxRow w = (decodeBox w).map exec := by
  unfold decodeBox decodeBoxRaw boxRow
  simp only [h]
  split_ifs <;> rfl

theorem boxRow_12 (w : Nat) (h : fld w 0 6 = 12) : boxRow w = (decodeBox w).map exec := by
  unfold decodeBox decodeBoxRaw boxRow
  simp only [h]
  split_ifs <;> rfl

theorem boxRow_13 (w : Nat) (h : fld w 0 6 = 13) : boxRow w = (decodeBox w).map exec := by
  unfold decodeBox decodeBoxRaw boxRow
  simp only [h]
  split_ifs <;> rfl

theorem boxRow_14 (w : Nat) (h : fld w 0 6 = 14) : boxRow w = (decodeBox w).map exec := by
  unfold decodeBox decodeBoxRaw boxRow
  simp only [h]
  split_ifs <;> rfl

theorem boxRow_15 (w : Nat) (h : fld w 0 6 = 15) : boxRow w = (decodeBox w).map exec := by
  unfold decodeBox decodeBoxRaw boxRow
  simp only [h]
  split_ifs <;> rfl

theorem boxRow_16 (w : Nat) (h : fld w 0 6 = 16) : boxRow w = (decodeBox w).map exec := by
  unfold decodeBox decodeBoxRaw boxRow
  simp only [h]
  split_ifs <;> rfl

theorem boxRow_17 (w : Nat) (h : fld w 0 6 = 17) : boxRow w = (decodeBox w).map exec := by
  unfold decodeBox decodeBoxRaw boxRow
  simp only [h]
  split_ifs <;> rfl

theorem boxRow_18 (w : Nat) (h : fld w 0 6 = 18) : boxRow w = (decodeBox w).map exec := by
  unfold decodeBox decodeBoxRaw boxRow
  simp only [h]
  split_ifs <;> rfl

theorem boxRow_19 (w : Nat) (h : fld w 0 6 = 19) : boxRow w = (decodeBox w).map exec := by
  unfold decodeBox decodeBoxRaw boxRow
  simp only [h]
  split_ifs <;> rfl

theorem boxRow_20 (w : Nat) (h : fld w 0 6 = 20) : boxRow w = (decodeBox w).map exec := by
  unfold decodeBox decodeBoxRaw boxRow
  simp only [h]
  split_ifs <;> rfl

theorem boxRow_21 (w : Nat) (h : fld w 0 6 = 21) : boxRow w = (decodeBox w).map exec := by
  unfold decodeBox decodeBoxRaw boxRow
  simp only [h]
  split_ifs <;> rfl

theorem boxRow_22 (w : Nat) (h : fld w 0 6 = 22) : boxRow w = (decodeBox w).map exec := by
  unfold decodeBox decodeBoxRaw boxRow
  simp only [h]
  by_cases f : fld w 10 4 = 0 ∧ fld w 18 14 = 0
  · have e : (bits w 14 4).toNat = fld w 14 4 := by simp [bits, fld]
    by_cases g : fld w 14 4 < 14
    · rw [if_pos ⟨f.1, f.2, g⟩, if_pos f]
      have v : (Instr.sbRdh (bits w 6 4) (bits w 14 4)).wellFormed = true := by
        simp only [Instr.wellFormed, e, decide_eq_true_eq]; omega
      simp only [keepWellFormed, v, if_true]; rfl
    · rw [if_neg (fun x => g x.2.2), if_pos f]
      have v : (Instr.sbRdh (bits w 6 4) (bits w 14 4)).wellFormed = false := by
        simp only [Instr.wellFormed, e, decide_eq_false_iff_not]; omega
      simp [keepWellFormed, v]
  · rw [if_neg (fun x => f ⟨x.1, x.2.1⟩), if_neg f]; rfl

theorem boxRow_23 (w : Nat) (h : fld w 0 6 = 23) : boxRow w = (decodeBox w).map exec := by
  unfold decodeBox decodeBoxRaw boxRow
  simp only [h]
  split_ifs <;> rfl

theorem boxRow_24 (w : Nat) (h : fld w 0 6 = 24) : boxRow w = (decodeBox w).map exec := by
  unfold decodeBox decodeBoxRaw boxRow
  simp only [h]
  split_ifs <;> rfl

theorem boxRow_25 (w : Nat) (h : fld w 0 6 = 25) : boxRow w = (decodeBox w).map exec := by
  unfold decodeBox decodeBoxRaw boxRow
  simp only [h]
  split_ifs <;> rfl

theorem boxRow_26 (w : Nat) (h : fld w 0 6 = 26) : boxRow w = (decodeBox w).map exec := by
  unfold decodeBox decodeBoxRaw boxRow
  simp only [h]
  split_ifs <;> rfl

theorem boxRow_27 (w : Nat) (h : fld w 0 6 = 27) : boxRow w = (decodeBox w).map exec := by
  unfold decodeBox decodeBoxRaw boxRow
  simp only [h]
  split_ifs <;> rfl

theorem boxRow_28 (w : Nat) (h : fld w 0 6 = 28) : boxRow w = (decodeBox w).map exec := by
  unfold decodeBox decodeBoxRaw boxRow
  simp only [h]
  split_ifs <;> rfl

theorem boxRow_29 (w : Nat) (h : fld w 0 6 = 29) : boxRow w = (decodeBox w).map exec := by
  unfold decodeBox decodeBoxRaw boxRow
  simp only [h]
  split_ifs <;> rfl

theorem boxRow_30 (w : Nat) (h : fld w 0 6 = 30) : boxRow w = (decodeBox w).map exec := by
  unfold decodeBox decodeBoxRaw boxRow
  simp only [h]
  split_ifs <;> rfl

theorem boxRow_31 (w : Nat) (h : fld w 0 6 = 31) : boxRow w = (decodeBox w).map exec := by
  unfold decodeBox decodeBoxRaw boxRow
  simp only [h]
  split_ifs <;> rfl

theorem boxRow_32 (w : Nat) (h : fld w 0 6 = 32) : boxRow w = (decodeBox w).map exec := by
  unfold decodeBox decodeBoxRaw boxRow
  simp only [h]
  split_ifs <;> rfl

theorem boxRow_33 (w : Nat) (h : fld w 0 6 = 33) : boxRow w = (decodeBox w).map exec := by
  unfold decodeBox decodeBoxRaw boxRow
  simp only [h]
  split_ifs <;> rfl

theorem boxRow_34 (w : Nat) (h : fld w 0 6 = 34) : boxRow w = (decodeBox w).map exec := by
  unfold decodeBox decodeBoxRaw boxRow
  simp only [h]
  split_ifs <;> rfl

theorem boxRow_35 (w : Nat) (h : fld w 0 6 = 35) : boxRow w = (decodeBox w).map exec := by
  unfold decodeBox decodeBoxRaw boxRow
  simp only [h]
  split_ifs <;> rfl

theorem boxRow_36 (w : Nat) (h : fld w 0 6 = 36) : boxRow w = (decodeBox w).map exec := by
  unfold decodeBox decodeBoxRaw boxRow
  simp only [h]
  split_ifs <;> rfl

theorem boxRow_37 (w : Nat) (h : fld w 0 6 = 37) : boxRow w = (decodeBox w).map exec := by
  unfold decodeBox decodeBoxRaw boxRow
  simp only [h]
  split_ifs <;> rfl

theorem boxRow_38 (w : Nat) (h : fld w 0 6 = 38) : boxRow w = (decodeBox w).map exec := by
  unfold decodeBox decodeBoxRaw boxRow
  simp only [h]
  split_ifs <;> rfl

theorem boxRow_none (w : Nat) (h : 38 < fld w 0 6) : boxRow w = (decodeBox w).map exec := by
  have a : boxRow w = none := by
    unfold boxRow
    split <;> first | rfl | omega
  have b : decodeBoxRaw w = none := by
    unfold decodeBoxRaw
    split <;> first | rfl | omega
  simp [a, decodeBox, b, keepWellFormed]

/-- A word of the program store runs as the instruction that the decoder reads from it. -/
theorem boxRow_eq (w : Nat) : boxRow w = (decodeBox w).map exec := by
  rcases Nat.lt_or_ge 38 (fld w 0 6) with h | h
  · exact boxRow_none w h
  · generalize k : fld w 0 6 = n at h
    interval_cases n
    · exact boxRow_0 w k
    · exact boxRow_1 w k
    · exact boxRow_2 w k
    · exact boxRow_3 w k
    · exact boxRow_4 w k
    · exact boxRow_5 w k
    · exact boxRow_6 w k
    · exact boxRow_7 w k
    · exact boxRow_8 w k
    · exact boxRow_9 w k
    · exact boxRow_10 w k
    · exact boxRow_11 w k
    · exact boxRow_12 w k
    · exact boxRow_13 w k
    · exact boxRow_14 w k
    · exact boxRow_15 w k
    · exact boxRow_16 w k
    · exact boxRow_17 w k
    · exact boxRow_18 w k
    · exact boxRow_19 w k
    · exact boxRow_20 w k
    · exact boxRow_21 w k
    · exact boxRow_22 w k
    · exact boxRow_23 w k
    · exact boxRow_24 w k
    · exact boxRow_25 w k
    · exact boxRow_26 w k
    · exact boxRow_27 w k
    · exact boxRow_28 w k
    · exact boxRow_29 w k
    · exact boxRow_30 w k
    · exact boxRow_31 w k
    · exact boxRow_32 w k
    · exact boxRow_33 w k
    · exact boxRow_34 w k
    · exact boxRow_35 w k
    · exact boxRow_36 w k
    · exact boxRow_37 w k
    · exact boxRow_38 w k

end Sys2Proof.Machine
end

