-- ==== Sys2Proof/Laws/PerInstr.lean ====
section
/-!
SUPPORT. Per instruction: the word of an instruction has 16 or 32 bits, fits them, and tells its length by bit 0 (R70).
-/
namespace Sys2Proof.Laws.Encoding

set_option Elab.async false

/-- The word of the instruction, if it has one: 16 bits with bit 0 clear, or 32 bits. -/
def Statement (i : Instr) : Prop :=
  ∀ n w, encode i = some (n, w) → (n = 16 ∧ w < 2 ^ 16 ∧ w % 2 = 0) ∨ (n = 32 ∧ w < 2 ^ 32)

theorem of_none {i : Instr} (h : encode i = none) : Statement i := by
  intro n w e; rw [h] at e; cases e

theorem of_word {i : Instr} {v : Nat} (h : encode i = some (32, v)) (b : v < 2 ^ 32) : Statement i := by
  intro n w e; rw [h] at e; cases e; exact .inr ⟨rfl, b⟩

theorem of_half {i : Instr} {v : Nat} (h : encode i = some (16, v)) (b : v < 2 ^ 16) (c : v % 2 = 0) : Statement i := by
  intro n w e; rw [h] at e; cases e; exact .inl ⟨rfl, b, c⟩

theorem add (d : BitVec 5) (a : BitVec 5) (b : BitVec 5) : Statement (.add d a b) :=
  of_word rfl (by have := d.isLt; have := a.isLt; have := b.isLt; omega)
theorem sub (d : BitVec 5) (a : BitVec 5) (b : BitVec 5) : Statement (.sub d a b) :=
  of_word rfl (by have := d.isLt; have := a.isLt; have := b.isLt; omega)
theorem and (d : BitVec 5) (a : BitVec 5) (b : BitVec 5) : Statement (.and d a b) :=
  of_word rfl (by have := d.isLt; have := a.isLt; have := b.isLt; omega)
theorem andn (d : BitVec 5) (a : BitVec 5) (b : BitVec 5) : Statement (.andn d a b) :=
  of_word rfl (by have := d.isLt; have := a.isLt; have := b.isLt; omega)
theorem or (d : BitVec 5) (a : BitVec 5) (b : BitVec 5) : Statement (.or d a b) :=
  of_word rfl (by have := d.isLt; have := a.isLt; have := b.isLt; omega)
theorem xor (d : BitVec 5) (a : BitVec 5) (b : BitVec 5) : Statement (.xor d a b) :=
  of_word rfl (by have := d.isLt; have := a.isLt; have := b.isLt; omega)
theorem sll (d : BitVec 5) (a : BitVec 5) (b : BitVec 5) : Statement (.sll d a b) :=
  of_word rfl (by have := d.isLt; have := a.isLt; have := b.isLt; omega)
theorem srl (d : BitVec 5) (a : BitVec 5) (b : BitVec 5) : Statement (.srl d a b) :=
  of_word rfl (by have := d.isLt; have := a.isLt; have := b.isLt; omega)
theorem sra (d : BitVec 5) (a : BitVec 5) (b : BitVec 5) : Statement (.sra d a b) :=
  of_word rfl (by have := d.isLt; have := a.isLt; have := b.isLt; omega)
theorem rol (d : BitVec 5) (a : BitVec 5) (b : BitVec 5) : Statement (.rol d a b) :=
  of_word rfl (by have := d.isLt; have := a.isLt; have := b.isLt; omega)
theorem slt (d : BitVec 5) (a : BitVec 5) (b : BitVec 5) : Statement (.slt d a b) :=
  of_word rfl (by have := d.isLt; have := a.isLt; have := b.isLt; omega)
theorem sltn (d : BitVec 5) (a : BitVec 5) (b : BitVec 5) : Statement (.sltn d a b) :=
  of_word rfl (by have := d.isLt; have := a.isLt; have := b.isLt; omega)
theorem min (d : BitVec 5) (a : BitVec 5) (b : BitVec 5) : Statement (.min d a b) :=
  of_word rfl (by have := d.isLt; have := a.isLt; have := b.isLt; omega)
theorem max (d : BitVec 5) (a : BitVec 5) (b : BitVec 5) : Statement (.max d a b) :=
  of_word rfl (by have := d.isLt; have := a.isLt; have := b.isLt; omega)
theorem minn (d : BitVec 5) (a : BitVec 5) (b : BitVec 5) : Statement (.minn d a b) :=
  of_word rfl (by have := d.isLt; have := a.isLt; have := b.isLt; omega)
theorem maxn (d : BitVec 5) (a : BitVec 5) (b : BitVec 5) : Statement (.maxn d a b) :=
  of_word rfl (by have := d.isLt; have := a.isLt; have := b.isLt; omega)
theorem mul (d : BitVec 5) (a : BitVec 5) (b : BitVec 5) : Statement (.mul d a b) :=
  of_word rfl (by have := d.isLt; have := a.isLt; have := b.isLt; omega)
theorem mulh (d : BitVec 5) (a : BitVec 5) (b : BitVec 5) : Statement (.mulh d a b) :=
  of_word rfl (by have := d.isLt; have := a.isLt; have := b.isLt; omega)
theorem mulhn (d : BitVec 5) (a : BitVec 5) (b : BitVec 5) : Statement (.mulhn d a b) :=
  of_word rfl (by have := d.isLt; have := a.isLt; have := b.isLt; omega)
theorem div (d : BitVec 5) (a : BitVec 5) (b : BitVec 5) : Statement (.div d a b) :=
  of_word rfl (by have := d.isLt; have := a.isLt; have := b.isLt; omega)
theorem divn (d : BitVec 5) (a : BitVec 5) (b : BitVec 5) : Statement (.divn d a b) :=
  of_word rfl (by have := d.isLt; have := a.isLt; have := b.isLt; omega)
theorem rem (d : BitVec 5) (a : BitVec 5) (b : BitVec 5) : Statement (.rem d a b) :=
  of_word rfl (by have := d.isLt; have := a.isLt; have := b.isLt; omega)
theorem remn (d : BitVec 5) (a : BitVec 5) (b : BitVec 5) : Statement (.remn d a b) :=
  of_word rfl (by have := d.isLt; have := a.isLt; have := b.isLt; omega)
theorem clz (d : BitVec 5) (a : BitVec 5) : Statement (.clz d a) :=
  of_word rfl (by have := d.isLt; have := a.isLt; omega)
theorem ctz (d : BitVec 5) (a : BitVec 5) : Statement (.ctz d a) :=
  of_word rfl (by have := d.isLt; have := a.isLt; omega)
theorem popc (d : BitVec 5) (a : BitVec 5) : Statement (.popc d a) :=
  of_word rfl (by have := d.isLt; have := a.isLt; omega)
theorem sextB (d : BitVec 5) (a : BitVec 5) : Statement (.sextB d a) :=
  of_word rfl (by have := d.isLt; have := a.isLt; omega)
theorem sextH (d : BitVec 5) (a : BitVec 5) : Statement (.sextH d a) :=
  of_word rfl (by have := d.isLt; have := a.isLt; omega)
theorem sextW (d : BitVec 5) (a : BitVec 5) : Statement (.sextW d a) :=
  of_word rfl (by have := d.isLt; have := a.isLt; omega)
theorem zextB (d : BitVec 5) (a : BitVec 5) : Statement (.zextB d a) :=
  of_word rfl (by have := d.isLt; have := a.isLt; omega)
theorem zextH (d : BitVec 5) (a : BitVec 5) : Statement (.zextH d a) :=
  of_word rfl (by have := d.isLt; have := a.isLt; omega)
theorem zextW (d : BitVec 5) (a : BitVec 5) : Statement (.zextW d a) :=
  of_word rfl (by have := d.isLt; have := a.isLt; omega)
theorem addi (d : BitVec 5) (a : BitVec 5) (i : BitVec 15) : Statement (.addi d a i) :=
  of_word rfl (by have := d.isLt; have := a.isLt; have := i.isLt; omega)
theorem andi (d : BitVec 5) (a : BitVec 5) (i : BitVec 15) : Statement (.andi d a i) :=
  of_word rfl (by have := d.isLt; have := a.isLt; have := i.isLt; omega)
theorem ori (d : BitVec 5) (a : BitVec 5) (i : BitVec 15) : Statement (.ori d a i) :=
  of_word rfl (by have := d.isLt; have := a.isLt; have := i.isLt; omega)
theorem xori (d : BitVec 5) (a : BitVec 5) (i : BitVec 15) : Statement (.xori d a i) :=
  of_word rfl (by have := d.isLt; have := a.isLt; have := i.isLt; omega)
theorem slli (d : BitVec 5) (a : BitVec 5) (n : BitVec 6) : Statement (.slli d a n) :=
  of_word rfl (by have := d.isLt; have := a.isLt; have := n.isLt; omega)
theorem srli (d : BitVec 5) (a : BitVec 5) (n : BitVec 6) : Statement (.srli d a n) :=
  of_word rfl (by have := d.isLt; have := a.isLt; have := n.isLt; omega)
theorem srai (d : BitVec 5) (a : BitVec 5) (n : BitVec 6) : Statement (.srai d a n) :=
  of_word rfl (by have := d.isLt; have := a.isLt; have := n.isLt; omega)
theorem roli (d : BitVec 5) (a : BitVec 5) (n : BitVec 6) : Statement (.roli d a n) :=
  of_word rfl (by have := d.isLt; have := a.isLt; have := n.isLt; omega)
theorem slti (d : BitVec 5) (a : BitVec 5) (i : BitVec 14) : Statement (.slti d a i) :=
  of_word rfl (by have := d.isLt; have := a.isLt; have := i.isLt; omega)
theorem sltni (d : BitVec 5) (a : BitVec 5) (i : BitVec 14) : Statement (.sltni d a i) :=
  of_word rfl (by have := d.isLt; have := a.isLt; have := i.isLt; omega)
theorem lih (d : BitVec 5) (i : BitVec 20) : Statement (.lih d i) :=
  of_word rfl (by have := d.isLt; have := i.isLt; omega)
theorem lipc (d : BitVec 5) (i : BitVec 20) : Statement (.lipc d i) :=
  of_word rfl (by have := d.isLt; have := i.isLt; omega)
theorem mfc (x : BitVec 5) (c : BitVec 12) : Statement (.mfc x c) :=
  of_word rfl (by have := x.isLt; have := c.isLt; omega)
theorem mtc (x : BitVec 5) (c : BitVec 12) : Statement (.mtc x c) :=
  of_word rfl (by have := x.isLt; have := c.isLt; omega)
theorem beq (a : BitVec 5) (b : BitVec 5) (i : BitVec 12) : Statement (.beq a b i) :=
  of_word rfl (by have := a.isLt; have := b.isLt; have := i.isLt; omega)
theorem bne (a : BitVec 5) (b : BitVec 5) (i : BitVec 12) : Statement (.bne a b i) :=
  of_word rfl (by have := a.isLt; have := b.isLt; have := i.isLt; omega)
theorem blt (a : BitVec 5) (b : BitVec 5) (i : BitVec 12) : Statement (.blt a b i) :=
  of_word rfl (by have := a.isLt; have := b.isLt; have := i.isLt; omega)
theorem bge (a : BitVec 5) (b : BitVec 5) (i : BitVec 12) : Statement (.bge a b i) :=
  of_word rfl (by have := a.isLt; have := b.isLt; have := i.isLt; omega)
theorem bltn (a : BitVec 5) (b : BitVec 5) (i : BitVec 12) : Statement (.bltn a b i) :=
  of_word rfl (by have := a.isLt; have := b.isLt; have := i.isLt; omega)
theorem bgen (a : BitVec 5) (b : BitVec 5) (i : BitVec 12) : Statement (.bgen a b i) :=
  of_word rfl (by have := a.isLt; have := b.isLt; have := i.isLt; omega)
theorem jmp (i : BitVec 25) : Statement (.jmp i) :=
  of_word rfl (by have := i.isLt; omega)
theorem call (i : BitVec 25) : Statement (.call i) :=
  of_word rfl (by have := i.isLt; omega)
theorem jr (a : BitVec 5) : Statement (.jr a) :=
  of_word rfl (by have := a.isLt; omega)
theorem callr (a : BitVec 5) : Statement (.callr a) :=
  of_word rfl (by have := a.isLt; omega)
theorem ret : Statement .ret := of_word rfl (by decide)
theorem nop : Statement .nop := of_word rfl (by decide)
theorem trap (c : BitVec 10) : Statement (.trap c) :=
  of_word rfl (by have := c.isLt; omega)
theorem rft : Statement .rft := of_word rfl (by decide)
theorem halt : Statement .halt := of_word rfl (by decide)
theorem wfi : Statement .wfi := of_word rfl (by decide)
theorem yield : Statement .yield := of_word rfl (by decide)
theorem exit (c : BitVec 10) : Statement (.exit c) :=
  of_word rfl (by have := c.isLt; omega)
theorem couple (n : BitVec 3) : Statement (.couple n) :=
  of_word rfl (by have := n.isLt; omega)
theorem uncouple : Statement .uncouple := of_word rfl (by decide)
theorem ckpt : Statement .ckpt := of_word rfl (by decide)
theorem ldB (d : BitVec 5) (a : BitVec 5) (w : BitVec 2) (i : BitVec 10) : Statement (.ldB d a w i) :=
  of_word rfl (by have := d.isLt; have := a.isLt; have := w.isLt; have := i.isLt; omega)
theorem ldH (d : BitVec 5) (a : BitVec 5) (w : BitVec 2) (i : BitVec 10) : Statement (.ldH d a w i) :=
  of_word rfl (by have := d.isLt; have := a.isLt; have := w.isLt; have := i.isLt; omega)
theorem ldW (d : BitVec 5) (a : BitVec 5) (w : BitVec 2) (i : BitVec 10) : Statement (.ldW d a w i) :=
  of_word rfl (by have := d.isLt; have := a.isLt; have := w.isLt; have := i.isLt; omega)
theorem ldD (d : BitVec 5) (a : BitVec 5) (w : BitVec 2) (i : BitVec 10) : Statement (.ldD d a w i) :=
  of_word rfl (by have := d.isLt; have := a.isLt; have := w.isLt; have := i.isLt; omega)
theorem ldBn (d : BitVec 5) (a : BitVec 5) (w : BitVec 2) (i : BitVec 10) : Statement (.ldBn d a w i) :=
  of_word rfl (by have := d.isLt; have := a.isLt; have := w.isLt; have := i.isLt; omega)
theorem ldHn (d : BitVec 5) (a : BitVec 5) (w : BitVec 2) (i : BitVec 10) : Statement (.ldHn d a w i) :=
  of_word rfl (by have := d.isLt; have := a.isLt; have := w.isLt; have := i.isLt; omega)
theorem ldWn (d : BitVec 5) (a : BitVec 5) (w : BitVec 2) (i : BitVec 10) : Statement (.ldWn d a w i) :=
  of_word rfl (by have := d.isLt; have := a.isLt; have := w.isLt; have := i.isLt; omega)
theorem prf (a : BitVec 5) (w : BitVec 2) (i : BitVec 10) : Statement (.prf a w i) :=
  of_word rfl (by have := a.isLt; have := w.isLt; have := i.isLt; omega)
theorem stB (d : BitVec 5) (a : BitVec 5) (w : BitVec 2) (i : BitVec 10) : Statement (.stB d a w i) :=
  of_word rfl (by have := d.isLt; have := a.isLt; have := w.isLt; have := i.isLt; omega)
theorem stH (d : BitVec 5) (a : BitVec 5) (w : BitVec 2) (i : BitVec 10) : Statement (.stH d a w i) :=
  of_word rfl (by have := d.isLt; have := a.isLt; have := w.isLt; have := i.isLt; omega)
theorem stW (d : BitVec 5) (a : BitVec 5) (w : BitVec 2) (i : BitVec 10) : Statement (.stW d a w i) :=
  of_word rfl (by have := d.isLt; have := a.isLt; have := w.isLt; have := i.isLt; omega)
theorem stD (d : BitVec 5) (a : BitVec 5) (w : BitVec 2) (i : BitVec 10) : Statement (.stD d a w i) :=
  of_word rfl (by have := d.isLt; have := a.isLt; have := w.isLt; have := i.isLt; omega)
theorem ldf (d : BitVec 5) (a : BitVec 5) (w : BitVec 2) (i : BitVec 10) : Statement (.ldf d a w i) :=
  of_word rfl (by have := d.isLt; have := a.isLt; have := w.isLt; have := i.isLt; omega)
theorem ldfe (d : BitVec 5) (a : BitVec 5) (w : BitVec 2) (i : BitVec 10) : Statement (.ldfe d a w i) :=
  of_word rfl (by have := d.isLt; have := a.isLt; have := w.isLt; have := i.isLt; omega)
theorem ste (d : BitVec 5) (a : BitVec 5) (w : BitVec 2) (i : BitVec 10) : Statement (.ste d a w i) :=
  of_word rfl (by have := d.isLt; have := a.isLt; have := w.isLt; have := i.isLt; omega)
theorem stf (d : BitVec 5) (a : BitVec 5) (w : BitVec 2) (i : BitVec 10) : Statement (.stf d a w i) :=
  of_word rfl (by have := d.isLt; have := a.isLt; have := w.isLt; have := i.isLt; omega)
theorem ldtag (d : BitVec 5) (a : BitVec 5) (w : BitVec 2) (i : BitVec 10) : Statement (.ldtag d a w i) :=
  of_word rfl (by have := d.isLt; have := a.isLt; have := w.isLt; have := i.isLt; omega)
theorem settag (d : BitVec 5) (a : BitVec 5) (w : BitVec 2) (i : BitVec 10) : Statement (.settag d a w i) :=
  of_word rfl (by have := d.isLt; have := a.isLt; have := w.isLt; have := i.isLt; omega)
theorem putsF (d : BitVec 5) (a : BitVec 5) (b : BitVec 5) : Statement (.putsF d a b) :=
  of_word rfl (by have := d.isLt; have := a.isLt; have := b.isLt; omega)
theorem putsC (d : BitVec 5) (a : BitVec 5) (b : BitVec 5) : Statement (.putsC d a b) :=
  of_word rfl (by have := d.isLt; have := a.isLt; have := b.isLt; omega)
theorem putvF (d : BitVec 5) (a : BitVec 5) (b : BitVec 5) : Statement (.putvF d a b) :=
  of_word rfl (by have := d.isLt; have := a.isLt; have := b.isLt; omega)
theorem putvC (d : BitVec 5) (a : BitVec 5) (b : BitVec 5) : Statement (.putvC d a b) :=
  of_word rfl (by have := d.isLt; have := a.isLt; have := b.isLt; omega)
theorem fence : Statement .fence := of_word rfl (by decide)
theorem fenceR (a : BitVec 5) : Statement (.fenceR a) :=
  of_word rfl (by have := a.isLt; omega)
theorem waitc (c : BitVec 3) : Statement (.waitc c) :=
  of_word rfl (by have := c.isLt; omega)
theorem acq : Statement .acq := of_word rfl (by decide)
theorem rel : Statement .rel := of_word rfl (by decide)
theorem fenceE : Statement .fenceE := of_word rfl (by decide)
theorem accAddI32 (d : BitVec 5) (a : BitVec 5) (w : BitVec 2) (i : BitVec 10) : Statement (.accAddI32 d a w i) :=
  of_word rfl (by have := d.isLt; have := a.isLt; have := w.isLt; have := i.isLt; omega)
theorem accAddI64 (d : BitVec 5) (a : BitVec 5) (w : BitVec 2) (i : BitVec 10) : Statement (.accAddI64 d a w i) :=
  of_word rfl (by have := d.isLt; have := a.isLt; have := w.isLt; have := i.isLt; omega)
theorem accAddF32 (d : BitVec 5) (a : BitVec 5) (w : BitVec 2) (i : BitVec 10) : Statement (.accAddF32 d a w i) :=
  of_word rfl (by have := d.isLt; have := a.isLt; have := w.isLt; have := i.isLt; omega)
theorem accMaxI32 (d : BitVec 5) (a : BitVec 5) (w : BitVec 2) (i : BitVec 10) : Statement (.accMaxI32 d a w i) :=
  of_word rfl (by have := d.isLt; have := a.isLt; have := w.isLt; have := i.isLt; omega)
theorem accMinI32 (d : BitVec 5) (a : BitVec 5) (w : BitVec 2) (i : BitVec 10) : Statement (.accMinI32 d a w i) :=
  of_word rfl (by have := d.isLt; have := a.isLt; have := w.isLt; have := i.isLt; omega)
theorem accOrD (d : BitVec 5) (a : BitVec 5) (w : BitVec 2) (i : BitVec 10) : Statement (.accOrD d a w i) :=
  of_word rfl (by have := d.isLt; have := a.isLt; have := w.isLt; have := i.isLt; omega)
theorem accAndD (d : BitVec 5) (a : BitVec 5) (w : BitVec 2) (i : BitVec 10) : Statement (.accAndD d a w i) :=
  of_word rfl (by have := d.isLt; have := a.isLt; have := w.isLt; have := i.isLt; omega)
theorem accXorD (d : BitVec 5) (a : BitVec 5) (w : BitVec 2) (i : BitVec 10) : Statement (.accXorD d a w i) :=
  of_word rfl (by have := d.isLt; have := a.isLt; have := w.isLt; have := i.isLt; omega)
theorem amoSwapW (d : BitVec 5) (a : BitVec 5) (b : BitVec 5) : Statement (.amoSwapW d a b) :=
  of_word rfl (by have := d.isLt; have := a.isLt; have := b.isLt; omega)
theorem amoSwapD (d : BitVec 5) (a : BitVec 5) (b : BitVec 5) : Statement (.amoSwapD d a b) :=
  of_word rfl (by have := d.isLt; have := a.isLt; have := b.isLt; omega)
theorem amoCasW (d : BitVec 5) (a : BitVec 5) (b : BitVec 5) : Statement (.amoCasW d a b) :=
  of_word rfl (by have := d.isLt; have := a.isLt; have := b.isLt; omega)
theorem amoCasD (d : BitVec 5) (a : BitVec 5) (b : BitVec 5) : Statement (.amoCasD d a b) :=
  of_word rfl (by have := d.isLt; have := a.isLt; have := b.isLt; omega)
theorem amoAddW (d : BitVec 5) (a : BitVec 5) (b : BitVec 5) : Statement (.amoAddW d a b) :=
  of_word rfl (by have := d.isLt; have := a.isLt; have := b.isLt; omega)
theorem amoAddD (d : BitVec 5) (a : BitVec 5) (b : BitVec 5) : Statement (.amoAddD d a b) :=
  of_word rfl (by have := d.isLt; have := a.isLt; have := b.isLt; omega)
theorem amoFaddF32 (d : BitVec 5) (a : BitVec 5) (b : BitVec 5) : Statement (.amoFaddF32 d a b) :=
  of_word rfl (by have := d.isLt; have := a.isLt; have := b.isLt; omega)
theorem amoMaxW (d : BitVec 5) (a : BitVec 5) (b : BitVec 5) : Statement (.amoMaxW d a b) :=
  of_word rfl (by have := d.isLt; have := a.isLt; have := b.isLt; omega)
theorem amoMinW (d : BitVec 5) (a : BitVec 5) (b : BitVec 5) : Statement (.amoMinW d a b) :=
  of_word rfl (by have := d.isLt; have := a.isLt; have := b.isLt; omega)
theorem sdfl : Statement .sdfl := of_word rfl (by decide)
theorem sdfla (a : BitVec 5) : Statement (.sdfla a) :=
  of_word rfl (by have := a.isLt; omega)
theorem sdrd (d : BitVec 5) (a : BitVec 5) (b : BitVec 5) : Statement (.sdrd d a b) :=
  of_word rfl (by have := d.isLt; have := a.isLt; have := b.isLt; omega)
theorem sdst (d : BitVec 5) : Statement (.sdst d) :=
  of_word rfl (by have := d.isLt; omega)
theorem sdwait : Statement .sdwait := of_word rfl (by decide)
theorem vadd (d : BitVec 5) (a : BitVec 5) (b : BitVec 5) (p : BitVec 3) (n : BitVec 1) : Statement (.vadd d a b p n) :=
  of_word rfl (by have := d.isLt; have := a.isLt; have := b.isLt; have := p.isLt; have := n.isLt; omega)
theorem vsub (d : BitVec 5) (a : BitVec 5) (b : BitVec 5) (p : BitVec 3) (n : BitVec 1) : Statement (.vsub d a b p n) :=
  of_word rfl (by have := d.isLt; have := a.isLt; have := b.isLt; have := p.isLt; have := n.isLt; omega)
theorem vmul (d : BitVec 5) (a : BitVec 5) (b : BitVec 5) (p : BitVec 3) (n : BitVec 1) : Statement (.vmul d a b p n) :=
  of_word rfl (by have := d.isLt; have := a.isLt; have := b.isLt; have := p.isLt; have := n.isLt; omega)
theorem vfma (d : BitVec 5) (a : BitVec 5) (b : BitVec 5) (p : BitVec 3) (n : BitVec 1) : Statement (.vfma d a b p n) :=
  of_word rfl (by have := d.isLt; have := a.isLt; have := b.isLt; have := p.isLt; have := n.isLt; omega)
theorem vfms (d : BitVec 5) (a : BitVec 5) (b : BitVec 5) (p : BitVec 3) (n : BitVec 1) : Statement (.vfms d a b p n) :=
  of_word rfl (by have := d.isLt; have := a.isLt; have := b.isLt; have := p.isLt; have := n.isLt; omega)
theorem vnfma (d : BitVec 5) (a : BitVec 5) (b : BitVec 5) (p : BitVec 3) (n : BitVec 1) : Statement (.vnfma d a b p n) :=
  of_word rfl (by have := d.isLt; have := a.isLt; have := b.isLt; have := p.isLt; have := n.isLt; omega)
theorem vmax (d : BitVec 5) (a : BitVec 5) (b : BitVec 5) (p : BitVec 3) (n : BitVec 1) : Statement (.vmax d a b p n) :=
  of_word rfl (by have := d.isLt; have := a.isLt; have := b.isLt; have := p.isLt; have := n.isLt; omega)
theorem vmin (d : BitVec 5) (a : BitVec 5) (b : BitVec 5) (p : BitVec 3) (n : BitVec 1) : Statement (.vmin d a b p n) :=
  of_word rfl (by have := d.isLt; have := a.isLt; have := b.isLt; have := p.isLt; have := n.isLt; omega)
theorem vabs (d : BitVec 5) (a : BitVec 5) (p : BitVec 3) (n : BitVec 1) : Statement (.vabs d a p n) :=
  of_word rfl (by have := d.isLt; have := a.isLt; have := p.isLt; have := n.isLt; omega)
theorem vneg (d : BitVec 5) (a : BitVec 5) (p : BitVec 3) (n : BitVec 1) : Statement (.vneg d a p n) :=
  of_word rfl (by have := d.isLt; have := a.isLt; have := p.isLt; have := n.isLt; omega)
theorem vand (d : BitVec 5) (a : BitVec 5) (b : BitVec 5) (p : BitVec 3) (n : BitVec 1) : Statement (.vand d a b p n) :=
  of_word rfl (by have := d.isLt; have := a.isLt; have := b.isLt; have := p.isLt; have := n.isLt; omega)
theorem vandn (d : BitVec 5) (a : BitVec 5) (b : BitVec 5) (p : BitVec 3) (n : BitVec 1) : Statement (.vandn d a b p n) :=
  of_word rfl (by have := d.isLt; have := a.isLt; have := b.isLt; have := p.isLt; have := n.isLt; omega)
theorem vor (d : BitVec 5) (a : BitVec 5) (b : BitVec 5) (p : BitVec 3) (n : BitVec 1) : Statement (.vor d a b p n) :=
  of_word rfl (by have := d.isLt; have := a.isLt; have := b.isLt; have := p.isLt; have := n.isLt; omega)
theorem vxor (d : BitVec 5) (a : BitVec 5) (b : BitVec 5) (p : BitVec 3) (n : BitVec 1) : Statement (.vxor d a b p n) :=
  of_word rfl (by have := d.isLt; have := a.isLt; have := b.isLt; have := p.isLt; have := n.isLt; omega)
theorem vsll (d : BitVec 5) (a : BitVec 5) (b : BitVec 5) (p : BitVec 3) (n : BitVec 1) : Statement (.vsll d a b p n) :=
  of_word rfl (by have := d.isLt; have := a.isLt; have := b.isLt; have := p.isLt; have := n.isLt; omega)
theorem vsrl (d : BitVec 5) (a : BitVec 5) (b : BitVec 5) (p : BitVec 3) (n : BitVec 1) : Statement (.vsrl d a b p n) :=
  of_word rfl (by have := d.isLt; have := a.isLt; have := b.isLt; have := p.isLt; have := n.isLt; omega)
theorem vsra (d : BitVec 5) (a : BitVec 5) (b : BitVec 5) (p : BitVec 3) (n : BitVec 1) : Statement (.vsra d a b p n) :=
  of_word rfl (by have := d.isLt; have := a.isLt; have := b.isLt; have := p.isLt; have := n.isLt; omega)
theorem vmov (d : BitVec 5) (a : BitVec 5) (p : BitVec 3) (n : BitVec 1) : Statement (.vmov d a p n) :=
  of_word rfl (by have := d.isLt; have := a.isLt; have := p.isLt; have := n.isLt; omega)
theorem vsel (d : BitVec 5) (a : BitVec 5) (b : BitVec 5) (p : BitVec 3) (n : BitVec 1) : Statement (.vsel d a b p n) :=
  of_word rfl (by have := d.isLt; have := a.isLt; have := b.isLt; have := p.isLt; have := n.isLt; omega)
theorem vaddC (d : BitVec 5) (s : BitVec 5) (m : BitVec 1) : Statement (.vaddC d s m) :=
  of_half rfl (by have := d.isLt; have := s.isLt; have := m.isLt; omega) (by omega)
theorem vsubC (d : BitVec 5) (s : BitVec 5) (m : BitVec 1) : Statement (.vsubC d s m) :=
  of_half rfl (by have := d.isLt; have := s.isLt; have := m.isLt; omega) (by omega)
theorem vmulC (d : BitVec 5) (s : BitVec 5) (m : BitVec 1) : Statement (.vmulC d s m) :=
  of_half rfl (by have := d.isLt; have := s.isLt; have := m.isLt; omega) (by omega)
theorem vmaxC (d : BitVec 5) (s : BitVec 5) (m : BitVec 1) : Statement (.vmaxC d s m) :=
  of_half rfl (by have := d.isLt; have := s.isLt; have := m.isLt; omega) (by omega)
theorem vminC (d : BitVec 5) (s : BitVec 5) (m : BitVec 1) : Statement (.vminC d s m) :=
  of_half rfl (by have := d.isLt; have := s.isLt; have := m.isLt; omega) (by omega)
theorem vandC (d : BitVec 5) (s : BitVec 5) (m : BitVec 1) : Statement (.vandC d s m) :=
  of_half rfl (by have := d.isLt; have := s.isLt; have := m.isLt; omega) (by omega)
theorem vandnC (d : BitVec 5) (s : BitVec 5) (m : BitVec 1) : Statement (.vandnC d s m) :=
  of_half rfl (by have := d.isLt; have := s.isLt; have := m.isLt; omega) (by omega)
theorem vorC (d : BitVec 5) (s : BitVec 5) (m : BitVec 1) : Statement (.vorC d s m) :=
  of_half rfl (by have := d.isLt; have := s.isLt; have := m.isLt; omega) (by omega)
theorem vxorC (d : BitVec 5) (s : BitVec 5) (m : BitVec 1) : Statement (.vxorC d s m) :=
  of_half rfl (by have := d.isLt; have := s.isLt; have := m.isLt; omega) (by omega)
theorem vmovC (d : BitVec 5) (s : BitVec 5) (m : BitVec 1) : Statement (.vmovC d s m) :=
  of_half rfl (by have := d.isLt; have := s.isLt; have := m.isLt; omega) (by omega)
theorem vabsC (d : BitVec 5) (s : BitVec 5) (m : BitVec 1) : Statement (.vabsC d s m) :=
  of_half rfl (by have := d.isLt; have := s.isLt; have := m.isLt; omega) (by omega)
theorem vnegC (d : BitVec 5) (s : BitVec 5) (m : BitVec 1) : Statement (.vnegC d s m) :=
  of_half rfl (by have := d.isLt; have := s.isLt; have := m.isLt; omega) (by omega)
theorem vsllC (d : BitVec 5) (s : BitVec 5) (m : BitVec 1) : Statement (.vsllC d s m) :=
  of_half rfl (by have := d.isLt; have := s.isLt; have := m.isLt; omega) (by omega)
theorem vsrlC (d : BitVec 5) (s : BitVec 5) (m : BitVec 1) : Statement (.vsrlC d s m) :=
  of_half rfl (by have := d.isLt; have := s.isLt; have := m.isLt; omega) (by omega)
theorem vsraC (d : BitVec 5) (s : BitVec 5) (m : BitVec 1) : Statement (.vsraC d s m) :=
  of_half rfl (by have := d.isLt; have := s.isLt; have := m.isLt; omega) (by omega)
theorem vfmacC (d : BitVec 5) (s : BitVec 5) (m : BitVec 1) : Statement (.vfmacC d s m) :=
  of_half rfl (by have := d.isLt; have := s.isLt; have := m.isLt; omega) (by omega)
theorem vceq (d : BitVec 3) (a : BitVec 5) (b : BitVec 5) (p : BitVec 3) (n : BitVec 1) : Statement (.vceq d a b p n) :=
  of_word rfl (by have := d.isLt; have := a.isLt; have := b.isLt; have := p.isLt; have := n.isLt; omega)
theorem vcne (d : BitVec 3) (a : BitVec 5) (b : BitVec 5) (p : BitVec 3) (n : BitVec 1) : Statement (.vcne d a b p n) :=
  of_word rfl (by have := d.isLt; have := a.isLt; have := b.isLt; have := p.isLt; have := n.isLt; omega)
theorem vclt (d : BitVec 3) (a : BitVec 5) (b : BitVec 5) (p : BitVec 3) (n : BitVec 1) : Statement (.vclt d a b p n) :=
  of_word rfl (by have := d.isLt; have := a.isLt; have := b.isLt; have := p.isLt; have := n.isLt; omega)
theorem vcle (d : BitVec 3) (a : BitVec 5) (b : BitVec 5) (p : BitVec 3) (n : BitVec 1) : Statement (.vcle d a b p n) :=
  of_word rfl (by have := d.isLt; have := a.isLt; have := b.isLt; have := p.isLt; have := n.isLt; omega)
theorem vcgt (d : BitVec 3) (a : BitVec 5) (b : BitVec 5) (p : BitVec 3) (n : BitVec 1) : Statement (.vcgt d a b p n) :=
  of_word rfl (by have := d.isLt; have := a.isLt; have := b.isLt; have := p.isLt; have := n.isLt; omega)
theorem vcge (d : BitVec 3) (a : BitVec 5) (b : BitVec 5) (p : BitVec 3) (n : BitVec 1) : Statement (.vcge d a b p n) :=
  of_word rfl (by have := d.isLt; have := a.isLt; have := b.isLt; have := p.isLt; have := n.isLt; omega)
theorem vcun (d : BitVec 3) (a : BitVec 5) (b : BitVec 5) (p : BitVec 3) (n : BitVec 1) : Statement (.vcun d a b p n) :=
  of_word rfl (by have := d.isLt; have := a.isLt; have := b.isLt; have := p.isLt; have := n.isLt; omega)
theorem pand (d : BitVec 3) (a : BitVec 3) (b : BitVec 3) : Statement (.pand d a b) :=
  of_word rfl (by have := d.isLt; have := a.isLt; have := b.isLt; omega)
theorem por (d : BitVec 3) (a : BitVec 3) (b : BitVec 3) : Statement (.por d a b) :=
  of_word rfl (by have := d.isLt; have := a.isLt; have := b.isLt; omega)
theorem pxor (d : BitVec 3) (a : BitVec 3) (b : BitVec 3) : Statement (.pxor d a b) :=
  of_word rfl (by have := d.isLt; have := a.isLt; have := b.isLt; omega)
theorem pnot (d : BitVec 3) (a : BitVec 3) : Statement (.pnot d a) :=
  of_word rfl (by have := d.isLt; have := a.isLt; omega)
theorem pmov (d : BitVec 3) (a : BitVec 3) : Statement (.pmov d a) :=
  of_word rfl (by have := d.isLt; have := a.isLt; omega)
theorem pmovxToPredicate (d : BitVec 3) (a : BitVec 5) : Statement (.pmovxToPredicate d a) :=
  of_word rfl (by have := d.isLt; have := a.isLt; omega)
theorem pmovxToScalar (d : BitVec 5) (a : BitVec 3) : Statement (.pmovxToScalar d a) :=
  of_word rfl (by have := d.isLt; have := a.isLt; omega)
theorem vcvt (d : BitVec 5) (a : BitVec 5) (t : BitVec 5) (p : BitVec 3) (n : BitVec 1) : Statement (.vcvt d a t p n) :=
  of_word rfl (by have := d.isLt; have := a.isLt; have := t.isLt; have := p.isLt; have := n.isLt; omega)
theorem vcvtSr (d : BitVec 5) (a : BitVec 5) (t : BitVec 5) (p : BitVec 3) (n : BitVec 1) : Statement (.vcvtSr d a t p n) :=
  of_word rfl (by have := d.isLt; have := a.isLt; have := t.isLt; have := p.isLt; have := n.isLt; omega)
theorem vtag (d : BitVec 5) (a : BitVec 5) (t : BitVec 5) : Statement (.vtag d a t) :=
  of_word rfl (by have := d.isLt; have := a.isLt; have := t.isLt; omega)
theorem vperm (d : BitVec 5) (a : BitVec 5) (b : BitVec 5) (p : BitVec 3) (n : BitVec 1) : Statement (.vperm d a b p n) :=
  of_word rfl (by have := d.isLt; have := a.isLt; have := b.isLt; have := p.isLt; have := n.isLt; omega)
theorem vslup (d : BitVec 5) (a : BitVec 5) (s : BitVec 5) (p : BitVec 3) (n : BitVec 1) : Statement (.vslup d a s p n) :=
  of_word rfl (by have := d.isLt; have := a.isLt; have := s.isLt; have := p.isLt; have := n.isLt; omega)
theorem vsldn (d : BitVec 5) (a : BitVec 5) (s : BitVec 5) (p : BitVec 3) (n : BitVec 1) : Statement (.vsldn d a s p n) :=
  of_word rfl (by have := d.isLt; have := a.isLt; have := s.isLt; have := p.isLt; have := n.isLt; omega)
theorem vbcast (d : BitVec 5) (a : BitVec 5) (s : BitVec 5) (p : BitVec 3) (n : BitVec 1) : Statement (.vbcast d a s p n) :=
  of_word rfl (by have := d.isLt; have := a.isLt; have := s.isLt; have := p.isLt; have := n.isLt; omega)
theorem vext (d : BitVec 5) (a : BitVec 5) (s : BitVec 5) : Statement (.vext d a s) :=
  of_word rfl (by have := d.isLt; have := a.isLt; have := s.isLt; omega)
theorem vins (d : BitVec 5) (a : BitVec 5) (s : BitVec 5) : Statement (.vins d a s) :=
  of_word rfl (by have := d.isLt; have := a.isLt; have := s.isLt; omega)
theorem vzip (d : BitVec 5) (a : BitVec 5) (b : BitVec 5) (p : BitVec 3) (n : BitVec 1) : Statement (.vzip d a b p n) :=
  of_word rfl (by have := d.isLt; have := a.isLt; have := b.isLt; have := p.isLt; have := n.isLt; omega)
theorem vunzip (d : BitVec 5) (a : BitVec 5) (b : BitVec 5) (p : BitVec 3) (n : BitVec 1) : Statement (.vunzip d a b p n) :=
  of_word rfl (by have := d.isLt; have := a.isLt; have := b.isLt; have := p.isLt; have := n.isLt; omega)
theorem vredadd (d : BitVec 5) (a : BitVec 5) (p : BitVec 3) (n : BitVec 1) : Statement (.vredadd d a p n) :=
  of_word rfl (by have := d.isLt; have := a.isLt; have := p.isLt; have := n.isLt; omega)
theorem vredmax (d : BitVec 5) (a : BitVec 5) (p : BitVec 3) (n : BitVec 1) : Statement (.vredmax d a p n) :=
  of_word rfl (by have := d.isLt; have := a.isLt; have := p.isLt; have := n.isLt; omega)
theorem vredmin (d : BitVec 5) (a : BitVec 5) (p : BitVec 3) (n : BitVec 1) : Statement (.vredmin d a p n) :=
  of_word rfl (by have := d.isLt; have := a.isLt; have := p.isLt; have := n.isLt; omega)
theorem vld (v : BitVec 5) (a : BitVec 5) (p : BitVec 3) (n : BitVec 1) (w : BitVec 2) (t : BitVec 5) : Statement (.vld v a p n w t) :=
  of_word rfl (by have := v.isLt; have := a.isLt; have := p.isLt; have := n.isLt; have := w.isLt; have := t.isLt; omega)
theorem vlds (v : BitVec 5) (a : BitVec 5) (s : BitVec 5) (w : BitVec 2) (t : BitVec 5) : Statement (.vlds v a s w t) :=
  of_word rfl (by have := v.isLt; have := a.isLt; have := s.isLt; have := w.isLt; have := t.isLt; omega)
theorem vldq (v : BitVec 5) (a : BitVec 5) (s : BitVec 5) (w : BitVec 2) : Statement (.vldq v a s w) :=
  of_word rfl (by have := v.isLt; have := a.isLt; have := s.isLt; have := w.isLt; omega)
theorem vgth (v : BitVec 5) (a : BitVec 5) (o : BitVec 5) (w : BitVec 2) (t : BitVec 5) : Statement (.vgth v a o w t) :=
  of_word rfl (by have := v.isLt; have := a.isLt; have := o.isLt; have := w.isLt; have := t.isLt; omega)
theorem vst (v : BitVec 5) (a : BitVec 5) (p : BitVec 3) (n : BitVec 1) (w : BitVec 2) (t : BitVec 5) : Statement (.vst v a p n w t) :=
  of_word rfl (by have := v.isLt; have := a.isLt; have := p.isLt; have := n.isLt; have := w.isLt; have := t.isLt; omega)
theorem vsts (v : BitVec 5) (a : BitVec 5) (s : BitVec 5) (w : BitVec 2) (t : BitVec 5) : Statement (.vsts v a s w t) :=
  of_word rfl (by have := v.isLt; have := a.isLt; have := s.isLt; have := w.isLt; have := t.isLt; omega)
theorem vstq (v : BitVec 5) (a : BitVec 5) (s : BitVec 5) (w : BitVec 2) : Statement (.vstq v a s w) :=
  of_word rfl (by have := v.isLt; have := a.isLt; have := s.isLt; have := w.isLt; omega)
theorem vsct (v : BitVec 5) (a : BitVec 5) (o : BitVec 5) (w : BitVec 2) (t : BitVec 5) : Statement (.vsct v a o w t) :=
  of_word rfl (by have := v.isLt; have := a.isLt; have := o.isLt; have := w.isLt; have := t.isLt; omega)
theorem vaccF32 (v : BitVec 5) (a : BitVec 5) (o : BitVec 5) (w : BitVec 2) : Statement (.vaccF32 v a o w) :=
  of_word rfl (by have := v.isLt; have := a.isLt; have := o.isLt; have := w.isLt; omega)
theorem vaccI32 (v : BitVec 5) (a : BitVec 5) (o : BitVec 5) (w : BitVec 2) : Statement (.vaccI32 v a o w) :=
  of_word rfl (by have := v.isLt; have := a.isLt; have := o.isLt; have := w.isLt; omega)
theorem vrndi (d : BitVec 5) (a : BitVec 5) (p : BitVec 3) (n : BitVec 1) : Statement (.vrndi d a p n) :=
  of_word rfl (by have := d.isLt; have := a.isLt; have := p.isLt; have := n.isLt; omega)
theorem vcvti (d : BitVec 5) (a : BitVec 5) (p : BitVec 3) (n : BitVec 1) : Statement (.vcvti d a p n) :=
  of_word rfl (by have := d.isLt; have := a.isLt; have := p.isLt; have := n.isLt; omega)
theorem vfexp (d : BitVec 5) (a : BitVec 5) (p : BitVec 3) (n : BitVec 1) : Statement (.vfexp d a p n) :=
  of_word rfl (by have := d.isLt; have := a.isLt; have := p.isLt; have := n.isLt; omega)
theorem vexpins (d : BitVec 5) (a : BitVec 5) (b : BitVec 5) (p : BitVec 3) (n : BitVec 1) : Statement (.vexpins d a b p n) :=
  of_word rfl (by have := d.isLt; have := a.isLt; have := b.isLt; have := p.isLt; have := n.isLt; omega)
theorem vgetexp (d : BitVec 5) (a : BitVec 5) (p : BitVec 3) (n : BitVec 1) : Statement (.vgetexp d a p n) :=
  of_word rfl (by have := d.isLt; have := a.isLt; have := p.isLt; have := n.isLt; omega)
theorem vrcp (d : BitVec 5) (a : BitVec 5) (p : BitVec 3) (n : BitVec 1) : Statement (.vrcp d a p n) :=
  of_word rfl (by have := d.isLt; have := a.isLt; have := p.isLt; have := n.isLt; omega)
theorem vrsq (d : BitVec 5) (a : BitVec 5) (p : BitVec 3) (n : BitVec 1) : Statement (.vrsq d a p n) :=
  of_word rfl (by have := d.isLt; have := a.isLt; have := p.isLt; have := n.isLt; omega)
theorem vqnt (d : BitVec 5) (a : BitVec 5) (j : BitVec 2) : Statement (.vqnt d a j) :=
  of_word rfl (by have := d.isLt; have := a.isLt; have := j.isLt; omega)
theorem vcvts (d : BitVec 5) (a : BitVec 5) (b : BitVec 5) (p : BitVec 3) (n : BitVec 1) : Statement (.vcvts d a b p n) :=
  of_word rfl (by have := d.isLt; have := a.isLt; have := b.isLt; have := p.isLt; have := n.isLt; omega)
theorem vdq (d : BitVec 5) (a : BitVec 5) (m : BitVec 3) (p : BitVec 3) (n : BitVec 1) : Statement (.vdq d a m p n) :=
  of_word rfl (by have := d.isLt; have := a.isLt; have := m.isLt; have := p.isLt; have := n.isLt; omega)
theorem barq (d : BitVec 5) (a : BitVec 5) (p : BitVec 3) (n : BitVec 1) : Statement (.barq d a p n) :=
  of_word rfl (by have := d.isLt; have := a.isLt; have := p.isLt; have := n.isLt; omega)
theorem tld (m : BitVec 3) (b : BitVec 5) (r : BitVec 5) (s : BitVec 5) (t : BitVec 5) : Statement (.tld m b r s t) :=
  of_word rfl (by have := m.isLt; have := b.isLt; have := r.isLt; have := s.isLt; have := t.isLt; omega)
theorem tst (m : BitVec 3) (b : BitVec 5) (r : BitVec 5) (s : BitVec 5) (t : BitVec 5) : Statement (.tst m b r s t) :=
  of_word rfl (by have := m.isLt; have := b.isLt; have := r.isLt; have := s.isLt; have := t.isLt; omega)
theorem mma (c : BitVec 3) (a : BitVec 3) (b : BitVec 3) (t : BitVec 5) : Statement (.mma c a b t) :=
  of_word rfl (by have := c.isLt; have := a.isLt; have := b.isLt; have := t.isLt; omega)
theorem mmaZ (c : BitVec 3) (a : BitVec 3) (b : BitVec 3) (t : BitVec 5) : Statement (.mmaZ c a b t) :=
  of_word rfl (by have := c.isLt; have := a.isLt; have := b.isLt; have := t.isLt; omega)
theorem mmaN (c : BitVec 3) (a : BitVec 3) (b : BitVec 3) (t : BitVec 5) : Statement (.mmaN c a b t) :=
  of_word rfl (by have := c.isLt; have := a.isLt; have := b.isLt; have := t.isLt; omega)
theorem mmaZn (c : BitVec 3) (a : BitVec 3) (b : BitVec 3) (t : BitVec 5) : Statement (.mmaZn c a b t) :=
  of_word rfl (by have := c.isLt; have := a.isLt; have := b.isLt; have := t.isLt; omega)
theorem tzero (d : BitVec 3) : Statement (.tzero d) :=
  of_word rfl (by have := d.isLt; omega)
theorem tmov (d : BitVec 3) (a : BitVec 3) : Statement (.tmov d a) :=
  of_word rfl (by have := d.isLt; have := a.isLt; omega)
theorem ttr (d : BitVec 3) (a : BitVec 3) : Statement (.ttr d a) :=
  of_word rfl (by have := d.isLt; have := a.isLt; omega)
theorem tcvt (d : BitVec 3) (a : BitVec 3) : Statement (.tcvt d a) :=
  of_word rfl (by have := d.isLt; have := a.isLt; omega)
theorem tadd (d : BitVec 3) (a : BitVec 3) (b : BitVec 3) : Statement (.tadd d a b) :=
  of_word rfl (by have := d.isLt; have := a.isLt; have := b.isLt; omega)
theorem trowv (a : BitVec 3) (x : BitVec 5) (v : BitVec 5) : Statement (.trowv a x v) :=
  of_word rfl (by have := a.isLt; have := x.isLt; have := v.isLt; omega)
theorem tvrow (d : BitVec 3) (x : BitVec 5) (v : BitVec 5) : Statement (.tvrow d x v) :=
  of_word rfl (by have := d.isLt; have := x.isLt; have := v.isLt; omega)
theorem twait (d : BitVec 5) (a : BitVec 5) : Statement (.twait d a) :=
  of_word rfl (by have := d.isLt; have := a.isLt; omega)
theorem tpoll (d : BitVec 5) (a : BitVec 5) : Statement (.tpoll d a) :=
  of_word rfl (by have := d.isLt; have := a.isLt; omega)
theorem twaitall (d : BitVec 5) : Statement (.twaitall d) :=
  of_word rfl (by have := d.isLt; omega)
theorem copy (d : BitVec 5) (a : BitVec 5) : Statement (.copy d a) :=
  of_word rfl (by have := d.isLt; have := a.isLt; omega)
theorem copyc (d : BitVec 5) (a : BitVec 5) : Statement (.copyc d a) :=
  of_word rfl (by have := d.isLt; have := a.isLt; omega)
theorem mcast (d : BitVec 5) (a : BitVec 5) : Statement (.mcast d a) :=
  of_word rfl (by have := d.isLt; have := a.isLt; omega)
theorem cwait (d : BitVec 5) (a : BitVec 5) : Statement (.cwait d a) :=
  of_word rfl (by have := d.isLt; have := a.isLt; omega)
theorem cpoll (d : BitVec 5) (a : BitVec 5) : Statement (.cpoll d a) :=
  of_word rfl (by have := d.isLt; have := a.isLt; omega)
theorem send (a : BitVec 5) (b : BitVec 5) : Statement (.send a b) :=
  of_word rfl (by have := a.isLt; have := b.isLt; omega)
theorem sendv (h : BitVec 1) (a : BitVec 5) (v : BitVec 5) : Statement (.sendv h a v) :=
  of_word rfl (by have := h.isLt; have := a.isLt; have := v.isLt; omega)
theorem recv (d : BitVec 5) (q : BitVec 4) : Statement (.recv d q) :=
  of_word rfl (by have := d.isLt; have := q.isLt; omega)
theorem recvv (v : BitVec 5) (q : BitVec 4) (h : BitVec 1) : Statement (.recvv v q h) :=
  of_word rfl (by have := v.isLt; have := q.isLt; have := h.isLt; omega)
theorem qstat (d : BitVec 5) : Statement (.qstat d) :=
  of_word rfl (by have := d.isLt; omega)
theorem sync (n : BitVec 2) : Statement (.sync n) :=
  of_word rfl (by have := n.isLt; omega)
theorem arrive (n : BitVec 2) : Statement (.arrive n) :=
  of_word rfl (by have := n.isLt; omega)
theorem await (n : BitVec 2) : Statement (.await n) :=
  of_word rfl (by have := n.isLt; omega)
theorem waita (d : BitVec 5) (a : BitVec 5) (b : BitVec 5) : Statement (.waita d a b) :=
  of_word rfl (by have := d.isLt; have := a.isLt; have := b.isLt; omega)
theorem cntinc (d : BitVec 5) (c : BitVec 3) (b : BitVec 5) : Statement (.cntinc d c b) :=
  of_word rfl (by have := d.isLt; have := c.isLt; have := b.isLt; omega)
theorem cntrst (c : BitVec 3) : Statement (.cntrst c) :=
  of_word rfl (by have := c.isLt; omega)
theorem cntwait (d : BitVec 5) (c : BitVec 3) (b : BitVec 5) : Statement (.cntwait d c b) :=
  of_word rfl (by have := d.isLt; have := c.isLt; have := b.isLt; omega)
theorem spawn (d : BitVec 5) (a : BitVec 5) (b : BitVec 5) : Statement (.spawn d a b) :=
  of_word rfl (by have := d.isLt; have := a.isLt; have := b.isLt; omega)
theorem tjoin (d : BitVec 5) (a : BitVec 5) : Statement (.tjoin d a) :=
  of_word rfl (by have := d.isLt; have := a.isLt; omega)
theorem tstat (d : BitVec 5) (a : BitVec 5) : Statement (.tstat d a) :=
  of_word rfl (by have := d.isLt; have := a.isLt; omega)
theorem sbNop : Statement .sbNop := of_word rfl (by decide)
theorem sbAdd (d : BitVec 4) (a : BitVec 4) (b : BitVec 4) : Statement (.sbAdd d a b) :=
  of_word rfl (by have := d.isLt; have := a.isLt; have := b.isLt; omega)
theorem sbAddImm (d : BitVec 4) (a : BitVec 4) (i : BitVec 13) : Statement (.sbAddImm d a i) :=
  of_word rfl (by have := d.isLt; have := a.isLt; have := i.isLt; omega)
theorem sbSub (d : BitVec 4) (a : BitVec 4) (b : BitVec 4) : Statement (.sbSub d a b) :=
  of_word rfl (by have := d.isLt; have := a.isLt; have := b.isLt; omega)
theorem sbSubImm (d : BitVec 4) (a : BitVec 4) (i : BitVec 13) : Statement (.sbSubImm d a i) :=
  of_word rfl (by have := d.isLt; have := a.isLt; have := i.isLt; omega)
theorem sbAnd (d : BitVec 4) (a : BitVec 4) (b : BitVec 4) : Statement (.sbAnd d a b) :=
  of_word rfl (by have := d.isLt; have := a.isLt; have := b.isLt; omega)
theorem sbAndImm (d : BitVec 4) (a : BitVec 4) (i : BitVec 13) : Statement (.sbAndImm d a i) :=
  of_word rfl (by have := d.isLt; have := a.isLt; have := i.isLt; omega)
theorem sbOr (d : BitVec 4) (a : BitVec 4) (b : BitVec 4) : Statement (.sbOr d a b) :=
  of_word rfl (by have := d.isLt; have := a.isLt; have := b.isLt; omega)
theorem sbOrImm (d : BitVec 4) (a : BitVec 4) (i : BitVec 13) : Statement (.sbOrImm d a i) :=
  of_word rfl (by have := d.isLt; have := a.isLt; have := i.isLt; omega)
theorem sbXor (d : BitVec 4) (a : BitVec 4) (b : BitVec 4) : Statement (.sbXor d a b) :=
  of_word rfl (by have := d.isLt; have := a.isLt; have := b.isLt; omega)
theorem sbXorImm (d : BitVec 4) (a : BitVec 4) (i : BitVec 13) : Statement (.sbXorImm d a i) :=
  of_word rfl (by have := d.isLt; have := a.isLt; have := i.isLt; omega)
theorem sbShl (d : BitVec 4) (a : BitVec 4) (b : BitVec 4) : Statement (.sbShl d a b) :=
  of_word rfl (by have := d.isLt; have := a.isLt; have := b.isLt; omega)
theorem sbShlImm (d : BitVec 4) (a : BitVec 4) (i : BitVec 13) : Statement (.sbShlImm d a i) :=
  of_word rfl (by have := d.isLt; have := a.isLt; have := i.isLt; omega)
theorem sbShr (d : BitVec 4) (a : BitVec 4) (b : BitVec 4) : Statement (.sbShr d a b) :=
  of_word rfl (by have := d.isLt; have := a.isLt; have := b.isLt; omega)
theorem sbShrImm (d : BitVec 4) (a : BitVec 4) (i : BitVec 13) : Statement (.sbShrImm d a i) :=
  of_word rfl (by have := d.isLt; have := a.isLt; have := i.isLt; omega)
theorem sbLi (d : BitVec 4) (i : BitVec 16) : Statement (.sbLi d i) :=
  of_word rfl (by have := d.isLt; have := i.isLt; omega)
theorem sbLih (d : BitVec 4) (i : BitVec 16) : Statement (.sbLih d i) :=
  of_word rfl (by have := d.isLt; have := i.isLt; omega)
theorem sbBfz (a : BitVec 4) (o : BitVec 11) : Statement (.sbBfz a o) :=
  of_word rfl (by have := a.isLt; have := o.isLt; omega)
theorem sbBfnz (a : BitVec 4) (o : BitVec 11) : Statement (.sbBfnz a o) :=
  of_word rfl (by have := a.isLt; have := o.isLt; omega)
theorem sbRpt (n : BitVec 3) (c : BitVec 4) : Statement (.sbRpt n c) :=
  of_word rfl (by have := n.isLt; have := c.isLt; omega)
theorem sbDone : Statement .sbDone := of_word rfl (by decide)
theorem sbDrop : Statement .sbDrop := of_word rfl (by decide)
theorem sbReroute (a : BitVec 4) : Statement (.sbReroute a) :=
  of_word rfl (by have := a.isLt; omega)
theorem sbLdst (d : BitVec 4) (a : BitVec 4) (i : BitVec 13) : Statement (.sbLdst d a i) :=
  of_word rfl (by have := d.isLt; have := a.isLt; have := i.isLt; omega)
theorem sbStst (d : BitVec 4) (a : BitVec 4) (i : BitVec 13) : Statement (.sbStst d a i) :=
  of_word rfl (by have := d.isLt; have := a.isLt; have := i.isLt; omega)
theorem sbVldst (d : BitVec 3) (a : BitVec 4) (i : BitVec 13) : Statement (.sbVldst d a i) :=
  of_word rfl (by have := d.isLt; have := a.isLt; have := i.isLt; omega)
theorem sbVstst (d : BitVec 3) (a : BitVec 4) (i : BitVec 13) : Statement (.sbVstst d a i) :=
  of_word rfl (by have := d.isLt; have := a.isLt; have := i.isLt; omega)
theorem sbVrdp (d : BitVec 3) (k : BitVec 2) : Statement (.sbVrdp d k) :=
  of_word rfl (by have := d.isLt; have := k.isLt; omega)
theorem sbVwrp (d : BitVec 3) (k : BitVec 2) : Statement (.sbVwrp d k) :=
  of_word rfl (by have := d.isLt; have := k.isLt; omega)
theorem sbRdh (d : BitVec 4) (i : BitVec 4) : Statement (.sbRdh d i) :=
  of_word rfl (by have := d.isLt; have := i.isLt; omega)
theorem sbVaddi (d : BitVec 3) (a : BitVec 3) (b : BitVec 3) : Statement (.sbVaddi d a b) :=
  of_word rfl (by have := d.isLt; have := a.isLt; have := b.isLt; omega)
theorem sbVaddf (d : BitVec 3) (a : BitVec 3) (b : BitVec 3) : Statement (.sbVaddf d a b) :=
  of_word rfl (by have := d.isLt; have := a.isLt; have := b.isLt; omega)
theorem sbVmulf (d : BitVec 3) (a : BitVec 3) (b : BitVec 3) : Statement (.sbVmulf d a b) :=
  of_word rfl (by have := d.isLt; have := a.isLt; have := b.isLt; omega)
theorem sbVmaxf (d : BitVec 3) (a : BitVec 3) (b : BitVec 3) : Statement (.sbVmaxf d a b) :=
  of_word rfl (by have := d.isLt; have := a.isLt; have := b.isLt; omega)
theorem sbVminf (d : BitVec 3) (a : BitVec 3) (b : BitVec 3) : Statement (.sbVminf d a b) :=
  of_word rfl (by have := d.isLt; have := a.isLt; have := b.isLt; omega)
theorem sbVmaxi (d : BitVec 3) (a : BitVec 3) (b : BitVec 3) : Statement (.sbVmaxi d a b) :=
  of_word rfl (by have := d.isLt; have := a.isLt; have := b.isLt; omega)
theorem sbVand (d : BitVec 3) (a : BitVec 3) (b : BitVec 3) : Statement (.sbVand d a b) :=
  of_word rfl (by have := d.isLt; have := a.isLt; have := b.isLt; omega)
theorem sbVor (d : BitVec 3) (a : BitVec 3) (b : BitVec 3) : Statement (.sbVor d a b) :=
  of_word rfl (by have := d.isLt; have := a.isLt; have := b.isLt; omega)
theorem sbVxor (d : BitVec 3) (a : BitVec 3) (b : BitVec 3) : Statement (.sbVxor d a b) :=
  of_word rfl (by have := d.isLt; have := a.isLt; have := b.isLt; omega)
theorem sbVcvtbfF2b (d : BitVec 3) (a : BitVec 3) (h : BitVec 1) : Statement (.sbVcvtbfF2b d a h) :=
  of_word rfl (by have := d.isLt; have := a.isLt; have := h.isLt; omega)
theorem sbVcvtbfB2f (d : BitVec 3) (a : BitVec 3) (h : BitVec 1) : Statement (.sbVcvtbfB2f d a h) :=
  of_word rfl (by have := d.isLt; have := a.isLt; have := h.isLt; omega)
theorem sbVsum (d : BitVec 4) (a : BitVec 3) : Statement (.sbVsum d a) :=
  of_word rfl (by have := d.isLt; have := a.isLt; omega)
theorem sbVcmpf (d : BitVec 4) (a : BitVec 3) (b : BitVec 3) (c : BitVec 2) : Statement (.sbVcmpf d a b c) :=
  of_word rfl (by have := d.isLt; have := a.isLt; have := b.isLt; have := c.isLt; omega)
theorem sbVself (d : BitVec 3) (a : BitVec 3) (b : BitVec 3) (c : BitVec 4) : Statement (.sbVself d a b c) :=
  of_word rfl (by have := d.isLt; have := a.isLt; have := b.isLt; have := c.isLt; omega)
theorem sbTrap (a : BitVec 4) (c : BitVec 8) : Statement (.sbTrap a c) :=
  of_word rfl (by have := a.isLt; have := c.isLt; omega)
theorem sbStamp (d : BitVec 4) : Statement (.sbStamp d) :=
  of_word rfl (by have := d.isLt; omega)
theorem sbEmit (d : BitVec 3) (a : BitVec 4) : Statement (.sbEmit d a) :=
  of_word rfl (by have := d.isLt; have := a.isLt; omega)
theorem ptbaseWrite (v : Word) : Statement (.ptbaseWrite v) := of_none rfl
theorem accmodeWrite (v : Word) : Statement (.accmodeWrite v) := of_none rfl
theorem srseedWrite (v : Word) : Statement (.srseedWrite v) := of_none rfl
theorem evcWrite (c : BitVec 3) (v : Word) : Statement (.evcWrite c v) := of_none rfl
theorem fflagsAccess (write : Bool) (x : BitVec 5) : Statement (.fflagsAccess write x) := of_none rfl
theorem errdataClear : Statement .errdataClear := of_none rfl
theorem pointsEntryWrite (v : Word) : Statement (.pointsEntryWrite v) := of_none rfl
theorem bindRecordWrite (site : SiteId) (core : CoreId) (rec : Option BindRecord) : Statement (.bindRecordWrite site core rec) :=
  of_none rfl
theorem discover (site : SiteId) : Statement (.discover site) := of_none rfl
theorem ptflood (site : SiteId) : Statement (.ptflood site) := of_none rfl
theorem loadimg (site : SiteId) : Statement (.loadimg site) := of_none rfl
theorem join (site : SiteId) : Statement (.join site) := of_none rfl
theorem handoff (site : SiteId) : Statement (.handoff site) := of_none rfl
theorem plaUnlistedOp (op : BitVec 4) : Statement (.plaUnlistedOp op) := of_none rfl
theorem bootCommandCompletion (site : SiteId) : Statement (.bootCommandCompletion site) := of_none rfl
theorem discoveryPacketArrival (id : Nat) : Statement (.discoveryPacketArrival id) := of_none rfl
theorem discoveryEchoArrival (id : Nat) : Statement (.discoveryEchoArrival id) := of_none rfl
theorem discoveryAnswerTimeout (site : SiteId) (port : Port) : Statement (.discoveryAnswerTimeout site port) :=
  of_none rfl
theorem flashResponseTimeout (site : SiteId) : Statement (.flashResponseTimeout site) := of_none rfl
theorem joinTimeout (site : SiteId) : Statement (.joinTimeout site) := of_none rfl
theorem pointsBlockArrival (site : SiteId) (quadrant : BitVec 2) : Statement (.pointsBlockArrival site quadrant) :=
  of_none rfl
theorem resetAssert : Statement .resetAssert := of_none rfl
theorem resetRelease : Statement .resetRelease := of_none rfl
theorem selfTestComplete (site : SiteId) (result : SelfTest) : Statement (.selfTestComplete site result) :=
  of_none rfl
theorem launch (cmd : LaunchCmd) : Statement (.launch cmd) := of_none rfl
theorem installFlow (cmd : InstallCmd) : Statement (.installFlow cmd) := of_none rfl
theorem removeFlow (tag : W32) (job : BitVec 6) (tile : TileNo) (flow : BitVec 6) : Statement (.removeFlow tag job tile flow) :=
  of_none rfl
theorem faultAnswerResume (tag : W32) (job : ParkedJob) : Statement (.faultAnswerResume tag job) := of_none rfl
theorem faultAnswerFail (tag : W32) (job : ParkedJob) : Statement (.faultAnswerFail tag job) := of_none rfl
theorem pageTableChange (tag : W32) (job : BitVec 6) : Statement (.pageTableChange tag job) := of_none rfl
theorem resumeCore (tag : W32) (tile : TileNo) (order : ResumeOrder) : Statement (.resumeCore tag tile order) := of_none rfl
theorem endTeam (tag : W32) (job : BitVec 6) (team : W32) : Statement (.endTeam tag job team) := of_none rfl
theorem clearFailedSite (tag : W32) (site : SiteId) : Statement (.clearFailedSite tag site) := of_none rfl
theorem attest (tag : W32) (nonce : BitVec 384) : Statement (.attest tag nonce) := of_none rfl
theorem readCertificateChain (tag : W32) : Statement (.readCertificateChain tag) := of_none rfl
theorem setAccessCounterThreshold (tag : W32) (unit : CounterUnit) (value : BitVec 16) : Statement (.setAccessCounterThreshold tag unit value) :=
  of_none rfl
theorem setPowerLimit (tag : W32) (watts : Nat) : Statement (.setPowerLimit tag watts) := of_none rfl
theorem hostWindowWrite (port : BitVec 3) (window : BitVec 3) (span : BitVec 6) (offset : BitVec 36) (data : List Byte) : Statement (.hostWindowWrite port window span offset data) :=
  of_none rfl
theorem junctionPacketArrival (id : Nat) : Statement (.junctionPacketArrival id) := of_none rfl
theorem flitCrcFailure (site : SiteId) (port : Port) (line : Line) (exhausted : Bool) : Statement (.flitCrcFailure site port line exhausted) :=
  of_none rfl
theorem remoteStoreArrival (id : Nat) : Statement (.remoteStoreArrival id) := of_none rfl
theorem remoteLoadRequestArrival (id : Nat) : Statement (.remoteLoadRequestArrival id) := of_none rfl
theorem replyArrival (id : Nat) : Statement (.replyArrival id) := of_none rfl
theorem acknowledgementArrival (id : Nat) : Statement (.acknowledgementArrival id) := of_none rfl
theorem putArrival (id : Nat) : Statement (.putArrival id) := of_none rfl
theorem fullEmptyRequestArrival (id : Nat) : Statement (.fullEmptyRequestArrival id) := of_none rfl
theorem fullEmptyResend (id : Nat) : Statement (.fullEmptyResend id) := of_none rfl
theorem waitaRequestArrival (id : Nat) : Statement (.waitaRequestArrival id) := of_none rfl
theorem blockingAccessAbandon (site : SiteId) (core : CoreId) : Statement (.blockingAccessAbandon site core) :=
  of_none rfl
theorem cancelArrival (id : Nat) : Statement (.cancelArrival id) := of_none rfl
theorem cancelAnswerArrival (id : Nat) : Statement (.cancelAnswerArrival id) := of_none rfl
theorem accumulateRequestArrival (id : Nat) : Statement (.accumulateRequestArrival id) := of_none rfl
theorem accumulateApply (slice : SliceLoc) : Statement (.accumulateApply slice) := of_none rfl
theorem hbmAccumulateLineRead (slice : SliceLoc) (line : Nat) : Statement (.hbmAccumulateLineRead slice line) :=
  of_none rfl
theorem quotaWindowReset (slice : SliceLoc) : Statement (.quotaWindowReset slice) := of_none rfl
theorem atomicRequestArrival (id : Nat) : Statement (.atomicRequestArrival id) := of_none rfl
theorem junctionMerge (site : SiteId) (first second : Nat) : Statement (.junctionMerge site first second) :=
  of_none rfl
theorem mergedBounceSplit (id : Nat) : Statement (.mergedBounceSplit id) := of_none rfl
theorem bounceArrival (id : Nat) : Statement (.bounceArrival id) := of_none rfl
theorem bouncePark (site : SiteId) (core : CoreId) : Statement (.bouncePark site core) := of_none rfl
theorem sidingAgeFlush (site : SiteId) (core : CoreId) (row : BitVec 5) : Statement (.sidingAgeFlush site core row) :=
  of_none rfl
theorem deterministicRequestArrival (id : Nat) : Statement (.deterministicRequestArrival id) := of_none rfl
theorem barrierArrival (id : Nat) : Statement (.barrierArrival id) := of_none rfl
theorem barrierRootComplete (domain : DomainKey) : Statement (.barrierRootComplete domain) := of_none rfl
theorem deterministicMerge (domain : DomainKey) : Statement (.deterministicMerge domain) := of_none rfl
theorem catchUpRound (domain : DomainKey) : Statement (.catchUpRound domain) := of_none rfl
theorem barrierReleaseArrival (id : Nat) : Statement (.barrierReleaseArrival id) := of_none rfl
theorem messageArrival (id : Nat) : Statement (.messageArrival id) := of_none rfl
theorem messageBufferMove (site : SiteId) (core : CoreId) (q : BitVec 4) : Statement (.messageBufferMove site core q) :=
  of_none rfl
theorem messageToSaveArea (site : SiteId) (core : CoreId) : Statement (.messageToSaveArea site core) := of_none rfl
theorem farCacheFill (id : Nat) : Statement (.farCacheFill id) := of_none rfl
theorem instructionBufferFill (site : SiteId) (core : CoreId) : Statement (.instructionBufferFill site core) :=
  of_none rfl
theorem pageWalkComplete (site : SiteId) (core : CoreId) : Statement (.pageWalkComplete site core) := of_none rfl
theorem tileJobStart (site : SiteId) (core : CoreId) : Statement (.tileJobStart site core) := of_none rfl
theorem tileJobRow (site : SiteId) (core : CoreId) (card : Nat) : Statement (.tileJobRow site core card) :=
  of_none rfl
theorem tileJobComplete (site : SiteId) (core : CoreId) (card : Nat) : Statement (.tileJobComplete site core card) :=
  of_none rfl
theorem copyJobStart (site : SiteId) (core : CoreId) : Statement (.copyJobStart site core) := of_none rfl
theorem copyChunk (site : SiteId) (core : CoreId) (card : Nat) : Statement (.copyChunk site core card) := of_none rfl
theorem copyChunkArrival (id : Nat) : Statement (.copyChunkArrival id) := of_none rfl
theorem copyJobEnd (site : SiteId) (core : CoreId) (card : Nat) : Statement (.copyJobEnd site core card) :=
  of_none rfl
theorem taskClaim (site : SiteId) (core : CoreId) : Statement (.taskClaim site core) := of_none rfl
theorem taskWatchdog (site : SiteId) (core : CoreId) : Statement (.taskWatchdog site core) := of_none rfl
theorem breakpoint (site : SiteId) (core : CoreId) : Statement (.breakpoint site core) := of_none rfl
theorem coupleFollow (site : SiteId) (core : CoreId) : Statement (.coupleFollow site core) := of_none rfl
theorem preemptionRequest (site : SiteId) (team : W32) : Statement (.preemptionRequest site team) := of_none rfl
theorem teamRestore (job : BitVec 6) (team : W32) : Statement (.teamRestore job team) := of_none rfl
theorem timeSliceExpiry (site : SiteId) : Statement (.timeSliceExpiry site) := of_none rfl
theorem intervalTimer (site : SiteId) : Statement (.intervalTimer site) := of_none rfl
theorem closeRequestArrival (id : Nat) : Statement (.closeRequestArrival id) := of_none rfl
theorem checkpointBoundary (site : SiteId) : Statement (.checkpointBoundary site) := of_none rfl
theorem boundaryCommit (site : SiteId) : Statement (.boundaryCommit site) := of_none rfl
theorem commitNoticeArrival (id : Nat) : Statement (.commitNoticeArrival id) := of_none rfl
theorem determinantRecordArrival (id : Nat) : Statement (.determinantRecordArrival id) := of_none rfl
theorem determinantConfirmation (id : Nat) : Statement (.determinantConfirmation id) := of_none rfl
theorem outputMarkReport (site : SiteId) : Statement (.outputMarkReport site) := of_none rfl
theorem heartbeat (site : SiteId) : Statement (.heartbeat site) := of_none rfl
theorem watchdogTimeout (site : SiteId) : Statement (.watchdogTimeout site) := of_none rfl
theorem machineCheck (site : SiteId) (err : ErrorReport) : Statement (.machineCheck site err) := of_none rfl
theorem holdComplete (tile : TileNo) (place : Option SiteId) : Statement (.holdComplete tile place) := of_none rfl
theorem pointsChangeComplete (tile : TileNo) : Statement (.pointsChangeComplete tile) := of_none rfl
theorem restorationComplete (tile : TileNo) : Statement (.restorationComplete tile) := of_none rfl
theorem replayEnd (tile : TileNo) : Statement (.replayEnd tile) := of_none rfl
theorem holderLoss (site : SiteId) : Statement (.holderLoss site) := of_none rfl
theorem craneTakeover (crane : BitVec 2) : Statement (.craneTakeover crane) := of_none rfl
theorem depotRoundOpen (job : BitVec 6) : Statement (.depotRoundOpen job) := of_none rfl
theorem depotInducedBoundary (id : Nat) : Statement (.depotInducedBoundary id) := of_none rfl
theorem depotRoundComplete (job : BitVec 6) : Statement (.depotRoundComplete job) := of_none rfl
theorem depotRecovery (job : BitVec 6) : Statement (.depotRecovery job) := of_none rfl
theorem powerDomainFault (domain : BitVec 6) (kind : PowerFault) : Statement (.powerDomainFault domain kind) :=
  of_none rfl
theorem powerLimitExceeded : Statement .powerLimitExceeded := of_none rfl
theorem temperatureThrottle (domain : BitVec 6) : Statement (.temperatureThrottle domain) := of_none rfl
theorem signalBoxPacketArrival (id : Nat) : Statement (.signalBoxPacketArrival id) := of_none rfl
theorem kernelRun (site : SiteId) : Statement (.kernelRun site) := of_none rfl
theorem trapRecordInject (site : SiteId) : Statement (.trapRecordInject site) := of_none rfl
theorem stateWindowAccess (id : Nat) : Statement (.stateWindowAccess id) := of_none rfl
theorem fabricPortLoss (port : BitVec 7) : Statement (.fabricPortLoss port) := of_none rfl
theorem peerUnreachable (peer : BitVec 8) : Statement (.peerUnreachable peer) := of_none rfl
theorem linkTraining (port : BitVec 7) (peer : BitVec 8) : Statement (.linkTraining port peer) := of_none rfl
theorem illegalInstruction (word : W32) : Statement (.illegalInstruction word) := of_none rfl
theorem stationAndCraneFirmwareLoad (unit : FirmwareUnit) : Statement (.stationAndCraneFirmwareLoad unit) :=
  of_none rfl
theorem supervisorLaunchEnableWrite (port : BitVec 3) (value : Bool) : Statement (.supervisorLaunchEnableWrite port value) :=
  of_none rfl
theorem consumerIndexWrite (ring : Ring) (index : Nat) : Statement (.consumerIndexWrite ring index) := of_none rfl
theorem shadowApplyComplete (site : SiteId) : Statement (.shadowApplyComplete site) := of_none rfl
theorem sendLogFetch (id : Nat) : Statement (.sendLogFetch id) := of_none rfl

end Sys2Proof.Laws.Encoding
end

