-- ==== Sys2Proof/Laws/Registers.lean ====
section
/-!
SUPPORT. What a write of a scalar register changes and what it keeps.
-/
namespace Sys2Proof.Machine

set_option Elab.async false

theorem vget_vset {α : Type} {n : Nat} (v : Vector α n) (i j : Nat) (x d : α) :
    vget (vset v i x) j d = if i = j ∧ i < n then x else vget v j d := by
  simp only [vget, vset, Vector.toArray_setIfInBounds, Array.getD_eq_getD_getElem?, Array.getElem?_setIfInBounds, Vector.size_toArray]
  by_cases h : i = j
  · subst h
    by_cases h2 : i < n <;> simp [h2]
  · simp [h]

theorem frameIndex_eq (w : BitVec 4) (r : BitVec 5) :
  frameIndex w r = if r.toNat < 24 then 16 * w.toNat + (r.toNat - 8) else 16 * ((w.toNat + 1) % 16) + (r.toNat - 24) := by
  simp [frameIndex, BitVec.toNat_add]

/-- Writes a cell. -/
def Core.setCell (c : Core) (p : ScalarCell) (v : Word) : Core :=
  match p with
  | .glob n => { c with regs := { c.regs with glob := vset c.regs.glob n v } }
  | .frame f n => { c with regs := { c.regs with frames := vset c.regs.frames (16 * f + n) v } }
  | .trap n => { c with regs := { c.regs with trapWin := vset c.regs.trapWin n v } }

theorem cell_setCell (c : Core) (p q : ScalarCell) (v : Word) (hp : p.exists) (hq : q.exists) :
    (c.setCell p v).cell q = if p = q then v else c.cell q := by
  cases p <;> cases q <;> simp_all [Core.setCell, Core.cell, vget_vset, ScalarCell.exists] <;>
    (split_ifs <;> first | rfl | (exfalso; omega))

theorem reg_cell (c : Core) (r : BitVec 5) : c.reg r = match c.cellOf r with | none => 0 | some p => c.cell p := by
  simp only [Core.reg, Core.cellOf, frameIndex_eq]
  split_ifs <;> simp_all [Core.cell]

theorem setReg_cell (c : Core) (r : BitVec 5) (v : Word) :
    c.setReg r v = match c.cellOf r with | none => c | some p => c.setCell p v := by
  simp only [Core.setReg, Core.cellOf, frameIndex_eq]
  split_ifs <;> simp_all [Core.setCell]

theorem cellOf_exists (c : Core) (r : BitVec 5) (p : ScalarCell) (h : c.cellOf r = some p) : p.exists := by
  have := r.isLt
  have := c.win.cwp.isLt
  simp only [Core.cellOf] at h
  split_ifs at h <;> cases h <;> (simp [ScalarCell.exists]; omega)

theorem cellOf_inj (c : Core) (r q : BitVec 5) (p : ScalarCell) (h : c.cellOf r = some p) (h2 : c.cellOf q = some p) :
    r = q := by
  have := r.isLt
  have := q.isLt
  have := c.win.cwp.isLt
  apply BitVec.eq_of_toNat_eq
  have e := h.trans h2.symm
  simp only [Core.cellOf] at h e
  split_ifs at h <;> split_ifs at e <;>
    simp only [Option.some.injEq, ScalarCell.glob.injEq, ScalarCell.trap.injEq, ScalarCell.frame.injEq, reduceCtorEq] at e <;> omega

theorem cellOf_setCell (c : Core) (p : ScalarCell) (r : BitVec 5) (v : Word) : (c.setCell p v).cellOf r = c.cellOf r := by
  cases p <;> rfl

theorem setReg_writes (c : Core) (d : BitVec 5) (v : Word) : WritesScalar d v c (c.setReg d v) := by
  rw [setReg_cell]
  cases h : c.cellOf d with
  | none =>
    have hd : d = 0 := by
      simp only [Core.cellOf] at h; split_ifs at h; assumption
    refine ⟨fun r => ?_, fun p hp => ?_, fun _ _ _ => rfl⟩
    · by_cases hr : r = 0
      · simp [hr, Core.reg]
      · simp_all
    · simp [h] at hp
  | some p =>
    have hp := cellOf_exists c d p h
    refine ⟨fun r => ?_, fun q hq => ?_, fun q hq hn => ?_⟩
    · simp only [reg_cell, cellOf_setCell]
      cases hr : c.cellOf r with
      | none =>
        have : r = 0 := by simp only [Core.cellOf] at hr; split_ifs at hr; assumption
        simp [this]
      | some q =>
        have h0 : r ≠ 0 := by rintro rfl; simp [Core.cellOf] at hr
        simp only [cell_setCell _ _ _ _ hp (cellOf_exists c r q hr), h0, if_false]
        by_cases e : p = q
        · subst e; simp [cellOf_inj c r d p hr h]
        · have : r ≠ d := by rintro rfl; rw [h] at hr; cases hr; exact e rfl
          simp [e, this]
    · rw [h] at hq; cases hq
      simp [cell_setCell _ _ _ _ hp hp]
    · rw [h] at hn
      simp only [cell_setCell _ _ _ _ hp hq]
      rw [if_neg]; rintro rfl; exact hn rfl
/-- Only the registers, the window and the trap state bear on what a program reads. -/
theorem WritesScalar.congr {d : BitVec 5} {v : Word} {c e f : Core} (h : WritesScalar d v c e) (hr : f.regs = e.regs)
    (hw : f.win = e.win) (ht : f.trap = e.trap) : WritesScalar d v c f := by
  have hc : ∀ p, f.cell p = e.cell p := by intro p; cases p <;> simp [Core.cell, hr]
  refine ⟨fun r => ?_, fun p hp => (hc p).trans (h.written p hp), fun p hp hn => (hc p).trans (h.others p hp hn)⟩
  rw [← h.reads r]
  simp [Core.reg, Core.inTrap, hr, hw, ht]

/-- An instruction that writes one scalar register and moves on assigns it. -/
theorem assigns_next4 (d : BitVec 5) (v : Word) (s t : State) (h : (s.setReg d v).next4.result = .next t) :
    Assigns d v s t := by
  simp only [State.next4, Issue.result, Host.Outcome.next.injEq] at h
  subst h
  have hpc : (s.core.setReg d v).pc = s.core.pc := by unfold Core.setReg; split_ifs <;> rfl
  have hre : (s.core.setReg d v).retired = s.core.retired := by unfold Core.setReg; split_ifs <;> rfl
  refine ⟨(setReg_writes s.core d v).congr rfl rfl rfl, ?_, ?_, ?_, ⟨fun _ => rfl, fun _ => rfl, fun _ => rfl, fun _ => rfl, rfl⟩⟩
  · simp [State.retire, State.skip, State.setPc, State.setReg, hpc]
  · simp [State.retire, State.skip, State.setPc, State.setReg, hre]
  · simp only [OnlyScalars, State.retire, State.skip, State.setPc, State.setReg, Core.setReg]
    split_ifs <;> rfl

end Sys2Proof.Machine
end

