-- ==== Sys2Proof/Tests/Slice0.lean ====
section
/-!
SUPPORT. Tests: words that the spec prints, ill-formed terms that are refused, steps on small states whose results come
from the spec, and for every statement with hypotheses a concrete state that meets them.
-/
namespace Sys2Proof.Tests

open Sys2Proof.Machine

set_option Elab.async false

/-! ### Small states -/

/-- Pages of job 5 under the root 1: HBM, the scratchpad of tile 1, host memory, the own state window, the peer wafer 2,
a device page, the scratchpad of tile 2, and a frozen HBM page. -/
def pages : List TlbEntry :=
  let page (va : Nat) (size : Nat) (pte : Word) : TlbEntry := { job := 5, root := 1, base := va, size := size, pte := pte }
  [page 0x10000000 0x200000 0x1F, page 0x20000000 0x200000 0x80011F, page 0x30000000 0x200000 0x21F,
   page 0x40000000 0x1000 0x41F, page 0x50000000 0x200000 0x200000000031F, page 0x60000000 0x1000 0x51F,
   page 0x70000000 0x200000 0x100011F, page 0x80000000 0x200000 0x5F]

/-- Core 0 of logical tile 0 of job 5, a 4 by 4 rectangle at the origin, at level J with nothing under way. -/
def lab : State :=
  { core := { run := .running, win := { wsp := 0x5F0000, wslim := 0x600000 }, ptbase := 0x1000, tlb := pages },
    tile := { job := some 5, jshape := 0x0404 },
    junction := { status := .logical, located := true, points := [(0, 0), (1, 1), (2, 2)] },
    wafer := { jobs := [{ job := 5, prio := 0, jshape := 0x0404, root := 1, race := false }] } }

/-- The same with a change of the core, of the tile, of the wafer. -/
def labCore (f : Core → Core) : State := lab.mapCore f
def labTile (f : Tile → Tile) : State := lab.mapTile f

/-- The waybill that the tile keeps, and the state with it. -/
def bill : Waybill :=
  { tile := 0, job := 5, region := 0x100000, holder := .buddy 8, committed := { tile := {}, cores := [], clock := 0 } }
def billed : State := lab.mapWafer (fun w => { w with healing := { w.healing with waybills := [bill] } })

/-- The bind record of a root core. -/
def bindZero : BindRecord :=
  { team := 0x1001, server := false, cores := 1, level := 0, race := false, job := 5, prio := 0, entry := 0x1000,
    wbase := 0x5F0000, wlimit := 0x600000, arg := 0, save := 0x200000, tvec := 0, tlimit := 0, bpHigh := 0, bp0 := 0,
    bp1 := 0, dom0 := 0, dom1 := 0, dom2 := 0, dom3 := 0, tshape := Vector.replicate 8 0, root := 1, jshape := 0x0404,
    tileRecord := 0x300000 }

/-- A level, a handler, a handler that runs, a window depth. -/
def Core.withLevel (l : Level) (c : Core) : Core := { c with level := l }
def handled (c : Core) : Core := { c with trap := { c.trap with tvec := 0x8000 } }
def inside (c : Core) : Core := { c with trap := { c.trap with tvec := 0x8000, tstat := 1 } }
def deep (depth : BitVec 16) (res : BitVec 4) (c : Core) : Core := { c with win := { c.win with depth := depth, res := res } }
def spilled (wsp : Word) (c : Core) : Core := { c with win := { c.win with wsp := wsp } }

/-! ### Words that the spec prints (R70 to R87, R384) -/

theorem test_decode_integer : decodeCore (toBytes 4 0x00180C05) = some (.addi 24 0 12, 4) ∧
    decodeCore (toBytes 4 0x00018283) = some (.add 5 24 0, 4) ∧ decodeCore (toBytes 4 0x04108803) = some (.mul 16 8 8, 4) := by
  decide +kernel

theorem test_decode_control : decodeCore (toBytes 4 0x0000031B) = some (.call 6, 4) ∧
    decodeCore (toBytes 4 0x0080001D) = some (.ret, 4) ∧ decodeCore (toBytes 4 0x00C0001F) = some (.halt, 4) ∧
    decodeCore (toBytes 4 0x00021895) = some (.mtc 17 0x010, 4) := by decide +kernel

theorem test_decode_memory : decodeCore (toBytes 4 0x000841A5) = some (.ldfe 3 4 0 0, 4) ∧
    decodeCore (toBytes 4 0x000620A7) = some (.putsF 1 2 3, 4) ∧ decodeCore (toBytes 4 0x010C51AD) = some (.amoAddW 3 5 6, 4) ∧
    decodeCore (toBytes 4 0x00801029) = some (.waitc 1, 4) ∧ decodeCore (toBytes 4 0x00000029) = some (.fence, 4) := by
  decide +kernel

theorem test_decode_vector : decodeCore (toBytes 4 0x080210B5) = some (.vtag 1 1 1, 4) ∧
    decodeCore (toBytes 4 0x180210B3) = some (.vcun 1 1 1 0 0, 4) ∧ decodeCore (toBytes 2 0x1060) = some (.vaddC 3 4 0, 2) ∧
    decodeCore (toBytes 2 0x9C5E) = some (.vfmacC 2 7 1, 2) := by decide +kernel

theorem test_decode_engine : decodeCore (toBytes 4 0x18400045) = some (.tvrow 0 0 2, 4) ∧
    decodeCore (toBytes 4 0x14600845) = some (.trowv 2 0 3, 4) ∧ decodeCore (toBytes 4 0x00342143) = some (.mmaZ 2 0 1 20, 4) := by
  decide +kernel

theorem test_decode_messages : decodeCore (toBytes 4 0x0046704B) = some (.sendv 0 7 3, 4) ∧
    decodeCore (toBytes 4 0x00C000CB) = some (.recvv 1 0 0, 4) ∧ decodeCore (toBytes 4 0x010E204D) = some (.cntinc 0 2 7, 4) ∧
    decodeCore (toBytes 4 0x0140204D) = some (.cntrst 2, 4) ∧ decodeCore (toBytes 4 0x018E224D) = some (.cntwait 4 2 7, 4) := by
  decide +kernel

theorem test_decode_kernel_words : decodeBox 0x00140481 = some (.sbAddImm 2 1 2) ∧ decodeBox 0x0000000D = some .sbDone ∧
    decodeBox 0x001884A3 = some (.sbVself 2 1 2 6) := by decide +kernel

/-! ### Ill-formed terms, which the check refuses (R71, R85, R161, R234, R250, R270, R386) -/

theorem test_refuses_waitc : (Instr.waitc 0).wellFormed = false := by decide +kernel
theorem test_refuses_halfword_zero : (Instr.vaddC 0 0 0).wellFormed = false ∧ decodeCore (toBytes 2 0) = none := by decide +kernel
theorem test_refuses_targets : (Instr.vcvt 1 1 12 0 0).wellFormed = false ∧ (Instr.vcvt 1 1 0 0 0).wellFormed = false ∧
    (Instr.vcvtSr 1 1 6 0 0).wellFormed = false ∧ (Instr.vtag 1 1 13).wellFormed = false := by decide +kernel
theorem test_refuses_tags : (Instr.vld 1 1 0 0 0 12).wellFormed = false ∧ (Instr.vlds 1 1 0 0 12).wellFormed = false ∧
    (Instr.vst 1 1 0 0 0 12).wellFormed = false ∧ (Instr.vsts 1 1 0 0 12).wellFormed = false ∧
    (Instr.vgth 1 1 1 0 2).wellFormed = false ∧ (Instr.vsct 1 1 1 0 2).wellFormed = false := by decide +kernel
theorem test_refuses_mma : (Instr.mma 1 1 2 0).wellFormed = false ∧ (Instr.mmaZ 1 2 1 0).wellFormed = false ∧
    (Instr.mmaN 1 1 2 0).wellFormed = false ∧ (Instr.mmaZn 1 2 1 0).wellFormed = false := by decide +kernel
theorem test_refuses_header_field : (Instr.sbRdh 0 14).wellFormed = false ∧ (Instr.sbRdh 0 13).wellFormed = true := by decide +kernel
theorem test_refuses_events : (Instr.bindRecordWrite 0 0 (some { bindZero with level := 3 })).wellFormed = false ∧
    (Instr.plaUnlistedOp 5).wellFormed = false ∧ (Instr.hostWindowWrite 0 0 0 0 []).wellFormed = false ∧
    (Instr.bindRecordWrite 0 0 (some { bindZero with save := 0x210000 })).wellFormed = false ∧
    (Instr.bindRecordWrite 0 0 (some { bindZero with wbase := 0x5F0040 })).wellFormed = false ∧
    launchHbmOk (some { save := 0x210000, record := 0x400000, waybill := 0x2000000, depot := 0x8000000 }) = false := by
  decide +kernel

/-! ### Single instructions; the results stand in the rules -/

/-- The state after an instruction, or the state before it where it stops. -/
def after (i : Instr) (s : State) : State :=
  match exec i s with
  | .next t => t
  | .fault _ => s
  | .refused _ => s

/-- x5 and x6 hold two values. -/
def operands (a b : Word) : State := (lab.setReg 5 a).setReg 6 b

/-- R112: a quotient by zero has all bits one, and a remainder by zero is the dividend. -/
theorem test_div_by_zero : (after (.div 7 5 6) (operands 9 0)).reg 7 = 0xFFFFFFFFFFFFFFFF ∧
    (after (.rem 7 5 6) (operands 9 0)).reg 7 = 9 := by decide +kernel

/-- R112: the most negative dividend divided by -1. -/
theorem test_div_overflow : (after (.div 7 5 6) (operands 0x8000000000000000 0xFFFFFFFFFFFFFFFF)).reg 7 = 0x8000000000000000 ∧
    (after (.rem 7 5 6) (operands 0x8000000000000000 0xFFFFFFFFFFFFFFFF)).reg 7 = 0 := by decide +kernel

/-- R111: a shift amount is bits [5:0]. -/
theorem test_sll_amount : (after (.sll 7 5 6) (operands 3 65)).reg 7 = 6 := by decide +kernel

/-- R88: a write of x0 is discarded. -/
theorem test_x0 : (after (.addi 0 0 5) lab).reg 0 = 0 := by decide +kernel

/-- R122: the caller's o0 is the callee's a0, and the return address stands in a7. -/
theorem test_call_window : (after (.call 6) (lab.setReg 24 7)).reg 8 = 7 ∧ (after (.call 6) lab).reg 15 = 4 := by decide +kernel

/-- R2: a store writes its bytes with the low byte first, at the last double of the scratchpad. -/
theorem test_store_order : (after (.stD 6 5 0 0) (operands 0x5FFFF8 0x0102030405060708)).tile.mem.read 0x5FFFF8 = 0x08 ∧
    (after (.stD 6 5 0 0) (operands 0x5FFFF8 0x0102030405060708)).tile.mem.read 0x5FFFFF = 0x01 := by decide +kernel

/-- R360: a trap enters the handler with the cause, the pc and the level saved. -/
theorem test_trap_entry : (after (.trap 3) (labCore handled)).core.pc = 0x8000 ∧
    (after (.trap 3) (labCore handled)).core.level = .S ∧ (after (.trap 3) (labCore handled)).core.trap.tstat.getLsbD 0 = true := by
  decide +kernel

/-! ### States that meet the hypotheses of the statements: scalar instructions -/

theorem test_meets_BranchesAndJumps :
    (lab.reg 0).toNat % 2 = 0 ∧ ((lab.setReg 1 3).reg 1).toNat % 2 = 1 := by decide +kernel

theorem test_meets_TrapsAndTrappingInstructions :
    ((labCore handled).core.inTrap = false ∧ (labCore handled).core.trap.tvec &&& 0xFFFFFFFFFFFE ≠ 0) ∧
    (labCore inside).core.inTrap = true ∧ lab.core.trap.tvec &&& 0xFFFFFFFFFFFE = 0 ∧ lab.core.level = .J ∧
    ((labCore (Core.withLevel .S)).core.level ≠ .J ∧ (labCore (Core.withLevel .S)).core.inTrap = false) := by
  decide +kernel

theorem test_meets_ReturnFromTrap :
    let s := labCore (fun c => inside { c with level := .S })
    s.core.level ≠ .J ∧ s.core.inTrap = true ∧ field s.core.trap.tstat 1 2 = Level.J.bits.toNat := by decide +kernel

theorem test_meets_CallsShiftTheWindow :
    let odd := lab.setReg 1 3
    let free := labCore (deep 14 14)
    let full := labCore (deep 15 15)
    let none_ := labCore (fun c => spilled 0x5FFFC0 (deep 15 15 c))
    let last := labCore (fun c => spilled 0x5FFF80 (deep 15 15 c))
    (odd.core.inTrap = false ∧ (odd.reg 1).toNat % 2 = 1) ∧
    (free.core.inTrap = false ∧ free.core.win.res ≠ 15 ∧ (free.reg 1).toNat % 2 = 0) ∧
    (none_.core.inTrap = false ∧ none_.core.win.res = 15 ∧
      min none_.core.win.wslim.toNat 0x600000 < none_.core.win.wsp.toNat + 128) ∧
    (full.core.inTrap = false ∧ full.core.win.res = 15 ∧
      full.core.win.wsp.toNat + 128 ≤ min full.core.win.wslim.toNat 0x600000 ∧
      FreeLines full.core.win.wsp.toNat 128 true full) ∧
    (last.core.win.wsp.toNat + 128 ≤ min last.core.win.wslim.toNat 0x600000 ∧
      FreeLines last.core.win.wsp.toNat 128 true last) := by
  unfold FreeLines; decide +kernel

/-- A core in the first activation of a task that it runs inline. -/
def inlineAt : State := labCore (fun c => deep 2 2 { c with task := { c.task with
  inTask := true, inline := [{ depth := 2, handle := 7, back := 0x2000, d := 5, since := 0, counting := true }] } })

theorem test_meets_ReturnsShiftTheWindow :
    let two := labCore (deep 2 2)
    let odd := two.setReg 15 3
    let low := labCore (fun c => spilled 0 (deep 2 1 c))
    let first := labCore (fun c => spilled 128 (deep 2 1 c))
    let last := labCore (fun c => spilled 0x600000 (deep 2 1 c))
    let far (w : Word) := labCore (fun c => spilled w (deep 2 1 c))
    let answered := labCore (fun c => { spilled 0x10000080 (deep 2 1 c) with
      pend := [{ id := 0, va := 0x10000000, reply := some (.data [1] []) }] })
    ((far 0x600100).core.noCaller = false ∧ (far 0x600100).core.win.wsp.toNat % 128 = 0 ∧ Fresh (far 0x600100) ∧
      (far 0x600100).translate { r := true } 0x600080 = .miss) ∧
    ((far 0x1000000000080).translate { r := true } 0x1000000000000 = .fail 4) ∧
    ((far 0x10000080).translate { r := true } 0x10000000 = .ok (.far { space := .hbm, a := 0 }) ∧
      (far 0x10000080).footprintStall 0x10000000 128 false = false ∧ (far 0x10000080).detRoom = true ∧
      (far 0x10000080).tile.farLine .hbm 0 = none ∧ (far 0x10000080).tile.replay = none) ∧
    (answered.core.noCaller = false ∧ (answered.reg 15).toNat % 2 = 0 ∧ answered.core.abandoned = [] ∧
      answered.core.pend.map (·.reply) = [some (.data [1] [])]) ∧
    (lab.core.inTrap = false ∧ lab.core.win.depth = 1) ∧
    (inlineAt.core.inTrap = false ∧ inlineAt.core.task.inline.map (·.depth) = [inlineAt.core.win.depth]) ∧
    (odd.core.inTrap = false ∧ odd.core.noCaller = false ∧ (odd.reg 15).toNat % 2 = 1) ∧
    (two.core.noCaller = false ∧ (two.reg 15).toNat % 2 = 0 ∧ 2 ≤ two.core.win.res.toNat) ∧
    (low.core.noCaller = false ∧ (low.reg 15).toNat % 2 = 0 ∧ low.core.win.res = 1 ∧ low.core.win.wsp.toNat < 128) ∧
    (first.core.noCaller = false ∧ (first.reg 15).toNat % 2 = 0 ∧ first.core.win.res = 1 ∧
      128 ≤ first.core.win.wsp.toNat ∧ first.core.win.wsp.toNat % 128 = 0 ∧ Fresh first ∧ FreeLines (first.core.win.wsp.toNat - 128) 128 false first) ∧
    (last.core.noCaller = false ∧ (last.reg 15).toNat % 2 = 0 ∧ last.core.win.res = 1 ∧
      last.core.win.wsp.toNat ≤ 0x600000 ∧ last.core.win.wsp.toNat % 128 = 0 ∧
      FreeLines (last.core.win.wsp.toNat - 128) 128 false last) := by
  unfold FreeLines Fresh; decide +kernel

/-- A team of low priority that is saved away and wants the slot of core 0. -/
def wanted : State := labCore (fun c => { c with slot := some { bindZero with team := 0x1001 } }) |>.mapWafer (fun w =>
  { w with saved := [{ team := 0x2001, job := 5, tile := 0, prio := 0, slots := [(0, bindZero)], cores := [], clock := 0 }] })

theorem test_meets_SystemInstructions :
    (labCore (fun c => { c with wake := true })).core.wake = true ∧ lab.core.wake = false ∧ lab.booting = false ∧
    (lab.core.inTrap = false ∧ lab.slotWanted = false) ∧
    (wanted.core.inTrap = false ∧ wanted.slotWanted = true ∧ wanted.core.ofTeam wanted.team = true ∧
      wanted.tile.leaving = none ∧ wanted.tile.stopped = false ∧ wanted.tile.replay = none) ∧
    (wanted.mapTile (fun t => { t with leaving := some { team := none } })).tile.leaving.isSome = true ∧
    (billed.keepsWaybill = true ∧ billed.tile.replay = none) ∧ lab.keepsWaybill = false := by decide +kernel

/-- A server that runs the task of handle 7 in the pool's first entry, and a core that runs it inline. -/
def server : State :=
  { lab with
    core := { lab.core with task := { lab.core.task with served := 7, inTask := true } },
    tile := { lab.tile with pool := vset lab.tile.pool 0 { handle := 7, state := .running } } }
def inliner : State := { inlineAt with tile := server.tile }

theorem test_meets_ExitEndsThreadsAndTasks :
    (lab.core.inTrap = false ∧ lab.core.task.inline = [] ∧ lab.core.task.served = 0) ∧
    (server.core.inTrap = false ∧ server.core.task.inline = [] ∧ server.core.task.served ≠ 0 ∧
      server.tile.runningTask server.core.task.served = some 0) ∧
    (inliner.core.inTrap = false ∧ inliner.core.task.inline.map (·.depth) = [inliner.core.win.depth] ∧
      2 ≤ inliner.core.win.res.toNat ∧ inliner.tile.runningTask 7 = some 0) := by decide +kernel

theorem test_meets_ControlRegisterReads :
    ((cregAccess 0x000).any (fun a => a.mayRead lab.core.level) = true ∧ recordedCreg 0x000 = false) ∧
    ((cregAccess 0x009).any (fun a => a.mayRead lab.core.level) = true ∧ lab.core.flagsPending = false) ∧
    (recordedCreg 0x001 = true ∧ lab.tile.replay = none ∧ lab.detRoom = true) ∧
    (labTile (fun t => { t with replay := some [(0, coreDet lab .recorded 0 lab.me 0 [7])] })).nextRecorded = some 7 ∧
    (cregAccess 0x120).any (fun a => !a.mayRead lab.core.level) = true ∧
    (cregAccess 0xFFF = none ∧ lab.core.level ≠ .M) ∧
    (cregAccess 0xFFF = none ∧ (labCore (Core.withLevel .M)).core.level = .M) := by decide +kernel

theorem test_meets_ControlRegisterWrites :
    let m := labCore (Core.withLevel .M)
    ((cregAccess 0x00A).any (fun a => a.mayWrite lab.core.level) = true ∧
      fieldsWritten 0x00A (lab.cregValue 0x00A) (lab.reg 0) = some 0x9E3779B97F4A7C15) ∧
    ((cregAccess 0x120).any (fun a => a.mayWrite m.core.level) = true ∧
      fieldsWritten 0x120 (m.cregValue 0x120) (m.reg 0) = some 0) ∧
    ((cregAccess 0x022).any (fun a => a.mayWrite m.core.level) = true ∧ readOnlyRegister 0x022 = true) ∧
    (cregAccess 0x120).any (fun a => !a.mayWrite lab.core.level) = true ∧
    (cregAccess 0xFFF = none ∧ lab.core.level ≠ .M) ∧ (cregAccess 0xFFF = none ∧ m.core.level = .M) := by decide +kernel

/-! ### Memory instructions -/

/-- x1 holds an address. -/
def at_ (va : Word) (s : State) : State := s.setReg 1 va

theorem test_meets_Loads :
    let own := at_ 0x5FFFF8 lab
    let far := at_ 0x10000000 lab
    let line := far.mapTile (fun t => { t with far := [{ space := .hbm, base := 0, data := 0 }] })
    let answer (r : Reply) := far.mapCore (fun c => { c with pend := [{ id := 0, va := 0x10000000, reply := some r }] })
    let answered := answer (.data [1] [])
    let device := at_ 0x60000000 (labCore (Core.withLevel .M))
    (answer .race).core.pend.map (fun q => q.reply.bind Reply.cause) = [some 9] ∧
    (Fresh device ∧ WaitOver 0 device ∧
      device.translate { r := true } (device.scaledAddress 1 0 8) = .ok (.far { space := .device, a := 0 }) ∧
      device.footprintStall (device.scaledAddress 1 0 8) 8 false = false) ∧
    (Fresh own ∧ WaitOver 3 own ∧ own.scaledAddress 1 0 8 % 8 = 0 ∧ own.scaledAddress 1 0 8 < 0x600000 ∧
      FreeLines (own.scaledAddress 1 0 8) 8 false own ∧ NoRace (own.scaledAddress 1 0 8) 8 false own) ∧
    (Fresh far ∧ WaitOver 0 far ∧ far.translate { r := true } (far.scaledAddress 1 0 8) = .ok (.far { space := .hbm, a := 0 }) ∧
      far.footprintStall (far.scaledAddress 1 0 8) 8 false = false ∧ far.tile.farLine .hbm 0 = none ∧
      far.tile.replay = none) ∧
    (Fresh line ∧ (line.tile.farLine .hbm 0).isSome = true) ∧
    (answered.core.abandoned = [] ∧ answered.core.pend.map (·.reply) = [some (.data [1] [])]) := by
  unfold Fresh WaitOver Settled FreeLines NoRace; decide +kernel

theorem test_meets_Stores :
    let own := at_ 0x5FFFFF lab
    let far := at_ 0x201FFFFC lab
    let device := at_ 0x60000000 (labCore (Core.withLevel .M))
    let answered := device.mapCore (fun c => { c with pend := [{ id := 0, va := 0x60000000, reply := some (.data [] []) }] })
    (Fresh device ∧ WaitOver 0 device ∧
      device.translate { w := true } (device.scaledAddress 1 0 8) = .ok (.far { space := .device, a := 0 }) ∧
      device.tile.replay = none) ∧
    (answered.core.abandoned = [] ∧ answered.core.pend.map (·.reply) = [some (.data [] [])]) ∧
    (Fresh own ∧ WaitOver 1 own ∧ own.scaledAddress 1 0 1 < 0x600000 ∧ FreeLines (own.scaledAddress 1 0 1) 1 true own ∧
      NoRace (own.scaledAddress 1 0 1) 1 true own) ∧
    (Fresh far ∧ WaitOver 2 far ∧ far.scaledAddress 1 0 4 % 4 = 0 ∧
      far.translate { w := true } (far.scaledAddress 1 0 4) = .ok (.far { space := .spad 1, a := 0x1FFFFC }) ∧
      far.footprintStall (far.scaledAddress 1 0 4) 4 true = false ∧ far.core.countRoom (Space.spad 1).cls = true ∧
      far.tile.replay = none) := by
  unfold Fresh WaitOver Settled FreeLines NoRace; decide +kernel

theorem test_meets_FullEmptyWords :
    let s := at_ 0x5FFFFC lab
    let full := s.mapTile (fun t => { t with full := [0x5FFFFC] })
    let there := at_ 0x20000000 lab
    let other := at_ 0x10000000 lab
    let need : Need := { r := true, w := true }
    (Fresh there ∧ WaitOver 0 there ∧ there.translate need (there.scaledAddress 1 0 4) = .ok (.far { space := .spad 1, a := 0 }) ∧
      there.translate { r := true } (there.scaledAddress 1 0 4) = .ok (.far { space := .spad 1, a := 0 }) ∧
      there.translate { w := true } (there.scaledAddress 1 0 4) = .ok (.far { space := .spad 1, a := 0 }) ∧
      there.footprintStall (there.scaledAddress 1 0 4) 4 true = false ∧
      there.footprintStall (there.scaledAddress 1 0 4) 4 false = false ∧ there.core.countRoom .n = true ∧
      there.tile.replay = none) ∧
    (Fresh other ∧ other.translate need (other.scaledAddress 1 0 4) = .ok (.far { space := .hbm, a := 0 }) ∧
      other.translate { w := true } (other.scaledAddress 1 0 4) = .ok (.far { space := .hbm, a := 0 })) ∧
    (fullEmptyForms 3 1 0 0).all (fun f => f.2.1.need == { r := true } || f.2.1.need == need || f.2.1.need == { w := true }) ∧
    (WaitOver 3 s ∧ s.scaledAddress 1 0 4 % 4 = 0 ∧ s.scaledAddress 1 0 4 < 0x600000 ∧ NoWaiter (s.scaledAddress 1 0 4) s ∧
      Fresh s ∧ FreeLines (s.scaledAddress 1 0 4) 4 true s ∧ FreeLines (s.scaledAddress 1 0 4) 4 false s ∧
      s.tile.isFull (s.scaledAddress 1 0 4) = false) ∧
    (Fresh full ∧ FreeLines (full.scaledAddress 1 0 4) 4 true full ∧ FreeLines (full.scaledAddress 1 0 4) 4 false full ∧
      NoWaiter (full.scaledAddress 1 0 4) full ∧ full.tile.isFull (full.scaledAddress 1 0 4) = true) := by
  unfold Fresh WaitOver Settled FreeLines NoWaiter; decide +kernel

theorem test_meets_PutsStoreThenMark :
    let own := (at_ 0x5FFFC0 lab).setReg 2 0x5FFFFC
    let far := (at_ 0x20000000 lab).setReg 2 0x20000040
    let two := (at_ 0x20000000 lab).setReg 2 0x70000000
    ((putForms 0 1 2 own).all (fun f => (own.reg 1).toNat % f.2.1.length == 0) = true ∧ (own.reg 2).toNat % 4 = 0 ∧
      (own.reg 1).toNat < 0x600000 ∧ (own.reg 2).toNat < 0x600000 ∧ FreeLines 0x5FFFC0 64 true own ∧
      own.footprintStall 0x5FFFFC 4 true = false ∧ NoRace 0x5FFFC0 64 true own ∧ NoWaiter 0x5FFFFC own) ∧
    (far.translate { w := true } (far.reg 1).toNat = .ok (.far { space := .spad 1, a := 0 }) ∧
      far.translate { w := true } (far.reg 2).toNat = .ok (.far { space := .spad 1, a := 0x40 }) ∧
      far.footprintStall 0x20000000 64 true = false ∧ far.footprintStall 0x20000040 4 true = false ∧
      far.core.countRoom .n = true ∧ far.tile.replay = none) ∧
    (two.translate { w := true } (two.reg 1).toNat = .ok (.far { space := .spad 1, a := 0 }) ∧
      two.translate { w := true } (two.reg 2).toNat = .ok (.far { space := .spad 2, a := 0 })) ∧
    ((((at_ 0 lab).setReg 2 0x20000040).reg 1).toNat < 0x600000 ∧
      ((at_ 0 lab).setReg 2 0x20000040).translate { w := true } 0x20000040 = .ok (.far { space := .spad 1, a := 0x40 })) ∧
    (lab.translate { w := true } 0x20000000 = .ok (.far { space := .spad 1, a := 0 }) ∧ (lab.reg 2).toNat < 0x600000) := by
  unfold FreeLines NoRace NoWaiter; decide +kernel

theorem test_meets_FencesAndBadAddresses :
    let far := at_ 0x10000000 lab
    let card := labCore (fun c => { c with eng := { c.eng with cards := [{ num := 0, job := .tzero 0 }] } })
    let odd := at_ 2 lab
    let high := at_ 0x1000000000000 lab
    let frozen := at_ 0x80000000 lab
    (lab.core.engineSent = true ∧ ∀ c ∈ wClass 3, lab.core.post.count c = 0) ∧
    (WaitOver 1 lab ∧ Settled [.n, .m, .x] lab ∧ Settled [.m, .x] lab ∧ Settled (maskClasses 7) lab) ∧ SidingEmpty lab ∧
    far.translateNow {} (far.reg 1).toNat = .ok (.far { space := .hbm, a := 0 }) ∧
    lab.translateNow {} (lab.reg 0).toNat = .ok (.own 0) ∧
    (lab.core.eng.cards = [] ∧ lab.core.cpy.jobs = []) ∧ card.core.eng.cards ≠ [] ∧
    (Fresh odd ∧ WaitOver 0 odd ∧ odd.scaledAddress 1 0 4 % 4 ≠ 0) ∧
    (Fresh high ∧ high.scaledAddress 1 0 4 % 4 = 0 ∧ 2 ^ 48 ≤ high.scaledAddress 1 0 4) ∧
    (Fresh frozen ∧ frozen.scaledAddress 1 0 4 % 4 = 0 ∧
      frozen.translate { w := true } (frozen.scaledAddress 1 0 4) = .fail 5) := by
  refine ⟨by decide +kernel, ?_, ⟨fun k r h => ?_, rfl, rfl, rfl⟩, ?_⟩
  · unfold WaitOver Settled; decide +kernel
  · have : ∀ k, lab.core.row k = none := by
      intro k
      simp only [Core.row, vget, lab]
      by_cases h : k < 32 <;> simp [Array.getD_eq_getD_getElem?, h]
    rw [this k] at h; cases h
  · unfold Fresh WaitOver Settled; decide +kernel

/-- A row of the siding, relaxed. -/
def aRow : Row :=
  { det := false, cls := .m, op := .addI32, va := 0x10000000, place := { space := .hbm, a := 0 }, value := 5, since := 0,
    key := { jt := 0, core := 0, seq := 1 } }

theorem test_meets_Accumulates :
    let own := at_ 0x5FFFF8 lab
    let far := at_ 0x101FFFF8 lab
    let det := own.mapCore (fun c => { c with acc := { c.acc with accmode := 1 } })
    let ride := (at_ 0x10000000 lab).mapCore (fun c => { c with acc := { c.acc with rows := vset c.acc.rows 31 (some aRow) } })
    (WaitOver 3 own ∧ own.scaledAddress 1 0 8 % 8 = 0 ∧ own.scaledAddress 1 0 8 < 0x600000 ∧
      FreeLines (own.scaledAddress 1 0 8) 8 true own ∧ own.core.accDet = false ∧ own.core.acc.inbound = []) ∧
    (WaitOver 0 far ∧ far.scaledAddress 1 0 8 % 8 = 0 ∧
      far.translate { r := true, w := true } (far.scaledAddress 1 0 8) = .ok (.far { space := .hbm, a := 0x1FFFF8 }) ∧
      far.footprintStall (far.scaledAddress 1 0 8) 8 true = false ∧ far.core.countRoom Space.hbm.cls = true ∧
      far.core.accDet = false ∧ far.core.acc.inbound = [] ∧ far.tile.replay = none ∧
      far.core.detStall = false ∧
      far.core.findRow (BitVec.ofNat 64 (far.scaledAddress 1 0 8)) .addI64 = none) ∧
    (ride.core.accDet = false ∧ ride.core.noRide = false ∧
      (ride.core.findRow (BitVec.ofNat 64 (ride.scaledAddress 1 0 4)) .addI32).map (·.1) = some 31) ∧
    (WaitOver 0 det ∧ FreeLines (det.scaledAddress 1 0 8) 8 true det ∧ det.core.accDet = true ∧ det.core.detStall = false ∧
      det.core.acc.inbound = [] ∧ Slice.hasRoom (vget det.tile.slices 7 {})) ∧
    (at_ 0x30000000 lab).translate { r := true, w := true } 0x30000000 = .ok (.far { space := .host 0, a := 0 }) := by
  unfold WaitOver Settled FreeLines Slice.hasRoom; decide +kernel

theorem test_meets_AtomicResults :
    let own := at_ 0x5FFFF8 lab
    let answered := labCore (fun c => { c with
      pend := [{ id := 0, va := 0x10000000, reply := some (.data (natBytes 3 8 ++ natBytes 16 1) []) }] })
    let far := at_ 0x20000008 lab
    (Fresh own ∧ (own.reg 1).toNat % 8 = 0 ∧ (own.reg 1).toNat < 0x600000 ∧ FreeLines (own.reg 1).toNat 8 true own) ∧
    (Fresh far ∧ (far.reg 1).toNat % 8 = 0 ∧
      far.translate { r := true, w := true } (far.reg 1).toNat = .ok (.far { space := .spad 1, a := 8 }) ∧
      far.footprintStall (far.reg 1).toNat 8 true = false ∧ far.tile.replay = none) ∧
    (at_ 0x30000000 lab).translate { r := true, w := true } 0x30000000 = .ok (.far { space := .host 0, a := 0 }) ∧
    (answered.core.abandoned = [] ∧
      answered.core.pend.map (·.reply) = [some (.data (natBytes 3 8 ++ natBytes 16 1) [])]) := by
  unfold Fresh FreeLines; decide +kernel

theorem test_meets_SidingInstructions :
    let s := labCore (fun c => { c with acc := { c.acc with rows := vset c.acc.rows 31 (some aRow) } }) |>.setReg 1 31
    let q (n : Word) := s.setReg 2 n
    (s.core.row ((s.reg 1).toNat % 32) = some aRow ∧ (q 0).reg 2 = 0 ∧ ((q 1).reg 2).toNat % 4 = 1 ∧
      ((q 2).reg 2).toNat % 4 = 2 ∧ ((q 3).reg 2).toNat % 4 = 3) ∧
    lab.core.row ((lab.reg 1).toNat % 32) = none ∧ lab.core.sidingQuiet = true ∧ s.core.sidingQuiet = false ∧
    (s.core.acc.flushing = [] ∧ s.core.post.n + 32 ≤ 256 ∧ s.core.post.m + 32 ≤ 256 ∧ s.core.post.x + 32 ≤ 256) := by
  decide +kernel

/-! ### Vector instructions -/

/-- A vector register takes a tag and data. -/
def vec (v : BitVec 5) (T : Tag) (x : V512) (s : State) : State :=
  s.mapCore (fun c => c.setVReg v { c.vreg v with tag := T, data := x })

theorem test_meets_VectorLanesAndMoves :
    let f := lab |> vec 1 .f32 0 |> vec 2 .f32 0 |> vec 3 .f32 0 |> vec 31 .f32 0
    let g := lab |> vec 1 .n32 0 |> vec 2 .n32 0 |> vec 3 .n32 0 |> vec 31 .n32 0
    let meets (F : LaneForm) : Bool :=
      (F.admits .f32 && F.checked.all (fun v => (f.core.vreg v).tag == .f32)) ||
      (F.admits .n32 && F.checked.all (fun v => (g.core.vreg v).tag == .n32))
    (laneForms 3 1 2 1 0).all meets = true ∧ (mathForms 3 1 2 1 0).all meets = true ∧
    (compactForms 3 31 1).all meets = true ∧
    (moveForms 3 1 2 4 1 0 f).all (fun F => F.checked.all (fun v => (f.core.vreg v).tag == .f32)) = true ∧
    Tag.arith .raw = false ∧ ((vec 2 .i8 0 f).core.vreg 2).tag ≠ .f32 := by decide +kernel

theorem test_meets_VectorReductions :
    Tag.arith ((vec 1 .i8 0 lab).core.vreg 1).tag = true ∧ Tag.arith (lab.core.vreg 1).tag = false := by decide +kernel

theorem test_meets_ComparesAndPredicates :
    let s := lab |> vec 1 .n16 0 |> vec 2 .n16 0
    Tag.arith (s.core.vreg 1).tag = true ∧ (s.core.vreg 2).tag = (s.core.vreg 1).tag := by decide +kernel

theorem test_meets_VectorConversions :
    let f := vec 1 .f32 0 lab
    let scaled := f |> vec 3 .e4m3 0 |> vec 2 .f32 0x3F800000
    (Tag.ofBits 2 = some Tag.bf16 ∧ (f.core.vreg 1).tag ≠ .raw ∧ (Tag.float .bf16).isSome = true) ∧
    (f.core.vreg 1).tag.float.isSome = true ∧
    ((scaled.core.vreg 3).tag = .e4m3 ∧ scaledTarget .e4m3 = true ∧ (scaled.core.vreg 1).tag.quantisable = true ∧
      (scaled.core.vreg 2).tag = .f32) ∧
    ((vec 1 .b4 0 lab).core.vreg 1).tag = .b4 := by decide +kernel

theorem test_meets_QuantiseAndBlockMaximum :
    let f := lab |> vec 2 .f32 0 |> vec 3 .f32 0
    let inf := vec 2 .f32 0x7F800000 f
    ((f.core.vreg 2).tag.quantisable = true ∧ (f.core.vreg (2 + 1)).tag = .f32 ∧ (2 : BitVec 5).toNat % 2 = 0 ∧
      f.core.stochastic = false) ∧
    (FloatFmt.f32.value ((f.core.vreg 2).elem 32 0)).isSpecial = false ∧
    (FloatFmt.f32.value ((inf.core.vreg 2).elem 32 0)).isSpecial = true ∧
    ((f.core.vreg 3).tag = .f32 ∧ (3 : BitVec 5).toNat % 2 = 1) ∧
    (∀ i < 16, (FloatFmt.f32.value ((f.core.vreg 2).elem 32 i)).isNaN = false) := by decide +kernel

theorem test_meets_VectorLoads :
    let s := (at_ 0x5FFFC0 lab).setReg 2 4
    let q := (at_ 0x1000 lab).setReg 2 0x2000
    let answered := q.mapCore (fun c => { c with pend := [{ id := 0, va := 0x1000, reply := some (.data [] []) }] })
    (Tag.ofBits 1 = some Tag.f32 ∧ WaitOver 3 s ∧ s.core.abandoned = [] ∧ s.core.pend = [] ∧ s.detRoom = true ∧
      RoomFor 16 s ∧ ElementsHere (elementsOf (s.reg 1) 4 .f32 (s.active 0 0)) false s ∧
      ElementsHere (elementsOf (s.reg 1) (s.reg 2) .f32 (fun _ => true)) false s ∧
      ElementsHere (laneElements 1 4 s) false s) ∧
    ElementsHere (blockElements (q.reg 1) (q.reg 2)) false q ∧
    (answered.core.pend ≠ [] ∧ answered.core.pend.all (fun f => f.reply == some (.data [] [])) = true) := by
  unfold WaitOver Settled RoomFor ElementsHere NoRace; decide +kernel

theorem test_meets_VectorAccessesElsewhere :
    let far := (at_ 0x10000000 (vec 3 .f32 0 lab)).setReg 2 0x100
    let own := (at_ 0x5FFFC0 (vec 3 .f32 0 lab)).setReg 2 0x10
    let all (s : State) := elementsOf (s.reg 1) (s.reg 2) .f32 (fun _ => true)
    let place (e : Element) : Place := { space := .hbm, a := e.va - 0x10000000 }
    (Tag.ofBits 1 = some Tag.f32 ∧ WaitOver 3 far ∧ Fresh far ∧ far.detRoom = true ∧ far.tile.replay = none ∧
      (far.core.vreg 3).tag = .f32 ∧ (∀ c, far.core.post.count c + 64 ≤ 256)) ∧
    (∀ e ∈ all far, e.va % e.size = 0 ∧ far.translate { r := true } e.va = .ok (.far (place e)) ∧
      far.translate { w := true } e.va = .ok (.far (place e)) ∧ (place e).space ≠ .device ∧
      (place e).a % 256 = e.va % 256 ∧ far.footprintStall e.va e.size false = false ∧
      far.footprintStall e.va e.size true = false ∧ far.tile.farLine (place e).space ((place e).a / 256 * 256) = none) ∧
    (ElementsHere ((all own).take 4) false own ∧ ElementsHere ((all own).take 4) true own ∧
      ((all (own.setReg 2 0x11))[1]?.map (fun e => e.check { r := true } false own)) = some (.fail 3) ∧
      ((all (own.setReg 2 0x11))[1]?.map (fun e => e.check { w := true } true own)) = some (.fail 3)) := by
  have count : ∀ s : State, (∀ c ∈ [PostClass.n, .m, .x], s.core.post.count c + 64 ≤ 256) →
      ∀ c, s.core.post.count c + 64 ≤ 256 := fun s h c => h c (by cases c <;> simp)
  refine ⟨⟨by decide +kernel, ?_, ?_, by decide +kernel, by decide +kernel, by decide +kernel, count _ (by decide +kernel)⟩,
    by decide +kernel, ?_⟩
  · unfold WaitOver Settled; decide +kernel
  · unfold Fresh; decide +kernel
  · unfold ElementsHere NoRace; decide +kernel

theorem test_meets_VectorStoresAndAccumulates :
    let s := (at_ 0x5FFFC0 (vec 3 .f32 0 lab)).setReg 2 4
    let i := vec 3 .i32 0 s
    let q := (at_ 0x1000 (vec 3 .b4 0 lab)).setReg 2 0x2000
    (WaitOver 3 s ∧ (s.core.vreg 3).tag = .f32 ∧ s.detRoom = true ∧ RoomFor 16 s ∧
      ElementsHere (elementsOf (s.reg 1) 4 .f32 (s.active 0 0)) true s ∧
      ElementsHere (elementsOf (s.reg 1) (s.reg 2) .f32 (fun _ => true)) true s ∧
      ElementsHere (laneElements 1 4 s) true s ∧ s.core.accDet = false ∧ s.core.acc.inbound = []) ∧
    (i.core.vreg 3).tag = .i32 ∧
    ((q.core.vreg 3).tag = .b4 ∧ q.detRoom = true ∧ ElementsHere (blockElements (q.reg 1) (q.reg 2)) true q) := by
  unfold WaitOver Settled RoomFor ElementsHere NoRace; decide +kernel

/-! ### Tile and copy jobs -/

/-- A tile register takes a tag; a TSHAPE names a format. -/
def tagged (m : BitVec 3) (T : Tag) (s : State) : State := s.mapCore (fun c => c.setTReg m { c.treg m with tag := T })
def shaped (m : Nat) (v : Word) (s : State) : State :=
  s.mapCore (fun c => { c with eng := { c.eng with tshape := vset c.eng.tshape m v } })

theorem test_meets_TileTransfersQueue :
    let s := shaped 0 1 ((at_ 0x5FFF80 lab).setReg 2 0x80)
    let b4 := shaped 0 12 (s.setReg 3 8)
    let wrong := shaped 0 0x1F s
    (ShapeIs 0 .f32 s ∧ (s.reg 1).toNat % 128 = 0 ∧ (s.reg 2).toNat % 128 = 0 ∧ (s.reg 0).toNat % 8 = 0 ∧ TicketRoom s) ∧
    ShapeIs 0 .f32 (tagged 0 .f32 s) ∧ (Tag.numbered (field (vget b4.core.eng.tshape 0 0) 0 5)) = some .b4 ∧
    (b4.reg 3).toNat % 8 = 0 ∧ Tag.numbered (field (vget wrong.core.eng.tshape 0 0) 0 5) = none ∧
    (tagged 0 .i8 s).core.treg 0 ≠ (tagged 0 .f32 s).core.treg 0 ∧
    ((tagged 0 .i8 s).core.treg 0).tag ≠ .f32 ∧ (at_ 1 lab).reg 1 &&& 0x7F ≠ 0 := by
  unfold ShapeIs TicketRoom CardRoom; decide +kernel

theorem test_meets_MatrixJobsQueue :
    let s := lab |> tagged 0 .bf16 |> tagged 1 .bf16 |> tagged 2 .f32 |> shaped 0 1
    ((2 : BitVec 3) ≠ 0 ∧ (2 : BitVec 3) ≠ 1 ∧ (s.core.treg 0).tag ∈ [Tag.bf16, .f16, .e4m3, .e5m2, .i8, .b4] ∧
      (s.core.treg 1).tag = (s.core.treg 0).tag ∧ (s.core.treg 2).tag = .f32 ∧ TicketRoom s) ∧
    (s.core.treg 2).tag ∉ [Tag.bf16, .f16, .e4m3, .e5m2, .i8, .b4] ∧
    ((tagged 1 .i8 s).core.treg 1).tag ≠ (s.core.treg 0).tag ∧ ((tagged 2 .i32 s).core.treg 2).tag ≠ .f32 ∧
    (ShapeIs 0 .f32 s ∧ CardRoom s ∧ Tag.f32 ∉ [Tag.raw, .b4, .n32, .n16, .n8] ∧ (s.core.treg 0).tag ≠ .raw) ∧
    ShapeIs 0 .b4 (shaped 0 12 s) ∧ (s.core.treg 7).tag = .raw ∧
    Tag.numbered (field (vget (shaped 0 0x1F s).core.eng.tshape 0 0) 0 5) = none ∧
    ((tagged 0 .b4 s).core.treg 0).tag = .b4 ∧ ((tagged 1 .f32 s).core.treg 1).tag = (s.core.treg 2).tag ∧
    ((vec 1 .f32 0 s).core.vreg 1).tag = (s.core.treg 2).tag ∧ (s.core.vreg 1).tag ≠ (s.core.treg 2).tag := by
  unfold ShapeIs TicketRoom CardRoom; decide +kernel

/-- Ticket slot 15 of the matrix engine in a state, for core 0. -/
def slotted (x : Slot) : State :=
  (labCore (fun c => { c with eng := { c.eng with slots := vset c.eng.slots 15 x } })).setReg 1 (0x8000F)

theorem test_meets_TicketWaits :
    let own (s : State) : Prop := (s.reg 1).toNat / 2 ^ 16 = 8 * 1 + s.coreNo.toNat
    let slot (s : State) : Slot := vget s.core.eng.slots ((s.reg 1).toNat % 16) {}
    (¬own lab) ∧ (own (slotted {}) ∧ (slot (slotted {})).state = 0) ∧
    (own (slotted { seq := 15, state := 1 }) ∧ (slot (slotted { seq := 15, state := 1 })).seq = 15) ∧
    (slot (slotted { seq := 15, state := 2 })).fault = false ∧
    (slot (slotted { seq := 15, state := 2, fault := true })).fault = true ∧
    (labCore (fun c => { c with eng := { c.eng with cards := [{ num := 0, job := .tzero 0 }] } })).core.eng.cards ≠ [] ∧
    lab.core.eng.cards = [] ∧
    (∀ i < 16, (vget (slotted { seq := 15, state := 2 }).core.eng.slots i {}).fault = false) := by decide +kernel

/-- A copy card at 0x1000: 4 bytes from 0 to 0x2000. -/
def carded : State :=
  at_ 0x1000 (lab.mapTile (fun t => { t with
    mem := Memory.writeCells [] (cellsAt 0x1008 (natBytes 0x2000 8) ++ cellsAt 0x1010 (natBytes 4 4)) }))

/-- The same for a multicast to the rectangle of job tile 0. -/
def multi : State :=
  carded.mapTile (fun t => { t with mem := t.mem.writeCells (cellsAt 0x1028 (natBytes 0x81000 4)) })

theorem test_meets_CopyJobsQueue :
    (at_ 1 lab).reg 1 = 1 ∧ ((at_ 0x600000 lab).reg 1).toNat % 64 = 0 ∧
    ((carded.reg 1).toNat % 64 = 0 ∧ (carded.reg 1).toNat < 0x600000 ∧ FreeLines 0x1000 64 false carded ∧
      carded.core.cpy.jobs.length < 8 ∧
      (vget carded.core.cpy.slots (carded.core.cpy.cseq.toNat % 16) {}).state ≠ 1) ∧
    CardIsGood .copy carded.tile.mem 0x1000 carded.tile.width carded.tile.height ∧
    CardIsGood .copyc carded.tile.mem 0x1000 carded.tile.width carded.tile.height ∧
    CardIsGood .mcast multi.tile.mem 0x1000 multi.tile.width multi.tile.height := by
  refine ⟨by decide +kernel, by decide +kernel, ?_, ?_, ?_, ?_⟩
  · unfold FreeLines; decide +kernel
  all_goals constructor <;> decide +kernel

/-! ### Messages, barriers, counters, tasks -/

theorem test_meets_MessageInstructions :
    let good (s : State) : Prop := field (s.reg 1) 20 44 = 0 ∧ (s.reg 1).getLsbD 15 = false ∧
      field (s.reg 1) 0 12 < s.tile.width * s.tile.height
    let far := at_ 1 lab
    let lost := at_ 3 lab
    let own := at_ 0x3000 lab
    let busy := far.mapCore (fun c => { c with post := { c.post with n := 256 } })
    let bound := { own with others := [(3, { run := .running })] }
    let fullQ := { own with others := [(3, { run := .running, regs := { qregs := vset (Vector.replicate 16 {}) 0 { full := true } } })] }
    (¬good (at_ 0x10 lab)) ∧
    (good lost ∧ lost.tile.logical 3 ≠ lost.tile.tile ∧ findPoint lost.junction.points 3 = none) ∧
    (good far ∧ far.tile.logical 1 ≠ far.tile.tile ∧ findPoint far.junction.points 1 ≠ none ∧
      far.core.countRoom .n = true ∧ far.tile.replay = none) ∧
    (good busy ∧ busy.core.countRoom .n = false) ∧ (good own ∧ own.tile.logical 0 = own.tile.tile ∧ own.ownHeld = false) ∧
    ((bound.coreAt 3).run ≠ .unbound ∧ (vget (bound.coreAt 3).regs.qregs 0 {}).full = false ∧
      bound.tile.job.isSome = true ∧ bound.tile.restored ++ bound.tile.inbound = []) ∧
    ((fullQ.coreAt 3).run ≠ .unbound ∧ (vget (fullQ.coreAt 3).regs.qregs 0 {}).full = true ∧
      fullQ.tile.inbound.length < 32) ∧
    (vget lab.core.regs.qregs 15 {}).full = false ∧
    (vget (labCore (fun c => { c with regs := { c.regs with
      qregs := vset c.regs.qregs 15 { data := 5, full := true } } })).core.regs.qregs 15 {}).full = true ∧
    (lab.tile.replay = none ∧ lab.detRoom = true) := by decide +kernel

/-- The siding of a core with nothing in it. -/
theorem sidingEmpty_lab (f : Core → Core) (h : (f lab.core).acc = lab.core.acc) : SidingEmpty (labCore f) := by
  refine ⟨fun k r hr => ?_, ?_, ?_, ?_⟩
  · have : ∀ k, lab.core.row k = none := by
      intro k
      simp only [Core.row, vget, lab]
      by_cases h : k < 32 <;> simp [Array.getD_eq_getD_getElem?, h]
    simp only [labCore, State.mapCore, Core.row, h] at hr
    rw [show vget lab.core.acc.rows k none = none from this k] at hr; cases hr
  all_goals simp only [labCore, State.mapCore, h]; rfl

/-- A core whose barrier of level 3 is in a state. -/
def arrived (n : BitVec 2) (c : Core) : Core := { c with sync := { c.sync with bst := vset c.sync.bst 3 n } }

theorem test_meets_BarrierInstructions :
    (SidingEmpty (labCore (arrived 0)) ∧ SidingEmpty (labCore (arrived 2)) ∧
      SidingEmpty (labCore (fun c => { c with post := { c.post with n := 1 } }))) ∧
    (Settled [.n, .m, .x] (labCore (arrived 2)) ∧ (labCore (arrived 2)).tile.replay = none) ∧
    (vget (labCore (arrived 0)).core.sync.bst 3 0 = 0 ∧ vget (labCore (arrived 1)).core.sync.bst 3 0 = 1 ∧
      vget (labCore (arrived 2)).core.sync.bst 3 0 = 2) ∧
    ((labCore (fun c => { c with post := { c.post with n := 1 } })).core.post.count .n ≠ 0 ∧
      (labCore (fun c => { c with post := { c.post with n := 1 } })).core.raceFor [.n, .m, .x] = none) := by
  refine ⟨⟨sidingEmpty_lab _ rfl, sidingEmpty_lab _ rfl, sidingEmpty_lab _ rfl⟩, ?_, ?_, ?_⟩
  · unfold Settled; decide +kernel
  · decide +kernel
  · decide +kernel

theorem test_meets_WaitsOnAnAddress :
    let s := at_ 0x5FFFFC lab
    let far := at_ 0x20000000 lab
    let hbm := at_ 0x10000000 lab
    let m : Monitor := { a := 0, value := 0, remote := false, req :=
      { src := { tile := 0, core := 0 }, jt := 0, job := 5, cls := .n, fetch := 0, seq := 0, va := 0, stamp := none } }
    (Fresh s ∧ (s.reg 1).toNat % 4 = 0 ∧ (s.reg 1).toNat < 0x600000 ∧ FreeLines (s.reg 1).toNat 4 false s) ∧
    s.tile.mem.readNat 0x5FFFFC 4 = (s.reg 2).toNat % 2 ^ 32 ∧ s.tile.monitors.length < 16 ∧
    (s.setReg 2 1).tile.mem.readNat 0x5FFFFC 4 ≠ ((s.setReg 2 1).reg 2).toNat % 2 ^ 32 ∧
    16 ≤ (s.mapTile (fun t => { t with monitors := List.replicate 16 m })).tile.monitors.length ∧
    (Fresh far ∧ (far.reg 1).toNat % 4 = 0 ∧
      far.translate { r := true } (far.reg 1).toNat = .ok (.far { space := .spad 1, a := 0 }) ∧
      far.footprintStall (far.reg 1).toNat 4 false = false ∧ far.tile.replay = none) ∧
    (Fresh hbm ∧ hbm.translate { r := true } (hbm.reg 1).toNat = .ok (.far { space := .hbm, a := 0 })) ∧
    (far.mapCore (fun c => { c with pend := [{ id := 0, va := 0x20000000, reply := some .race }] })).core.pend.map
      (fun q => q.reply.bind Reply.cause) = [some 9] := by
  unfold Fresh FreeLines; decide +kernel

theorem test_meets_EventCounters :
    let waiting (x : Option (BitVec 1)) := labCore (fun c => { c with sync := { c.sync with
      cnt := some { c := 2, bound := 1, status := x } } })
    (lab.reg 2).toNat % 2 ^ 32 = 0 ∧ ((lab.setReg 2 0xFFFFFFFF).reg 2).toNat % 2 ^ 32 ≠ 0 ∧
    (lab.core.sync.cnt = none ∧ (lab.reg 2).toNat % 2 ^ 32 ≤ field (vget lab.tile.evc 2 0) 0 32) ∧
    field (vget (lab.setReg 2 1).tile.evc 2 0) 0 32 < ((lab.setReg 2 1).reg 2).toNat % 2 ^ 32 ∧
    ((waiting none).core.sync.cnt.map (·.status) = some none ∧ (waiting (some 0)).core.sync.cnt.map (·.status) = some (some 0)) := by
  decide +kernel

theorem test_meets_TaskInstructions :
    let h : Word := 7
    let task (x : TaskState) : Task := { handle := h, state := x, team := 0 }
    let pooled (i : Nat) (x : TaskState) := (at_ h lab).mapTile (fun t => { t with pool := vset t.pool i (task x) })
    let full := lab.mapTile (fun t => { t with pool := Vector.replicate 64 (task .running) })
    let spilt := full.mapTile (fun t => { t with overflow := List.replicate 4096 (task .queued) })
    let queued := (at_ h lab).mapTile (fun t => { t with overflow := [task .queued] })
    (at_ 1 lab).reg 1 &&& 1 = 1 ∧ (vget lab.tile.pool 0 {}).state = .free ∧
    (∀ k < 56, (vget full.tile.pool k {}).state ≠ .free) ∧ full.tile.overflow.length < 4096 ∧
    4096 ≤ spilt.tile.overflow.length ∧ (lab.tile.replay = none ∧ lab.detRoom = true) ∧
    (at_ (2 ^ 35) lab).reg 1 ≠ 0 ∧ ((at_ (2 ^ 35) lab).reg 1).toNat / 2 ^ 35 ≠ lab.tile.jt.toNat ∧
    ((at_ h lab).reg 1).toNat / 2 ^ 35 = lab.tile.jt.toNat ∧ queued.tile.overflow.map (·.handle) = [h] ∧
    ((∀ k < 64, (vget queued.tile.pool k {}).state = .free) ∧ queued.core.task.joinWaits = false ∧
      queued.tile.overflow.map (fun x => (x.detached, x.team, x.state)) = [(false, queued.team, .queued)] ∧
      queued.core.task.inline.length < 8 ∧ queued.core.inTrap = false ∧ queued.core.win.res ≠ 15) ∧
    (queued.mapCore (fun c => { c with task := { c.task with 
      inline := List.replicate 8 { depth := 2, handle := 7, back := 0, d := 0, since := 0, counting := true } } })).core.task.inline.length = 8 ∧
    ((vget (pooled 63 .queued).tile.pool 63 {}).state = .queued ∧ (vget (pooled 63 .queued).tile.pool 63 {}).handle = h ∧
      (vget (pooled 63 .queued).tile.pool 63 {}).team = (pooled 63 .queued).team) ∧
    ((pooled 0 .queued).core.task.joinWaits = false ∧ (pooled 0 .queued).core.task.inline.length < 8 ∧
      (pooled 0 .queued).core.inTrap = false ∧ (pooled 0 .queued).core.win.res ≠ 15) ∧
    (vget (pooled 0 .running).tile.pool 0 {}).state = .running ∧
    (vget (pooled 0 .complete).tile.pool 0 {}).state = .complete := by decide +kernel

/-! ### Kernels -/

/-- A message of core 2 of tile 1 to core 3. -/
def msg : Message :=
  { jt := 1, core := 2, tile := 1, job := 5, seq := 1, dst := 3, q := 0, data := 0x55, counted := true }

/-- A kernel run of flow 0 of a table whose kernel takes the whole store, on a message, at a count and in a loop. -/
def kernel (table : Memory) (count : Nat) (loop : Option (Nat × Nat × Nat)) : State :=
  let p : Packet := { id := 0, line := .relief, origin := 1, dest := .tile 0, site := 0, msg := .message msg }
  lab.mapTile (fun t => { t with box := { t.box with
    table := table, run := some { flow := 0, pkt := p, beats := #v[0x55, 0, 0, 0], pc := 0, count := count, loop := loop } } })

theorem test_meets_Kernels :
    let b := (kernel wholeFlow 0 none).tile.box
    let c := (kernel (wholeFlow.write 0 0x11) 0 none).tile.box
    b.run.map (·.count) = some 0 ∧ b.budget 0 = 256 ∧ (kernel wholeFlow 256 none).tile.box.run.map (·.count) = some 256 ∧
    (b.stateful 0 = true ∧ c.stateful 0 = false) ∧ b.windowSize 0 = 0x8000 ∧ 0x7FFC % 4 = 0 ∧ 0x7FFC + 4 ≤ b.windowSize 0 ∧
    b.windowSize 0 < 0x8000 + 4 ∧ b.run.map (fun r => r.pkt.msg.header.isSome) = some true ∧
    ((0 : W32).toNat < b.altn 0 ∧ b.altn 0 ≤ (4 : W32).toNat) ∧ b.entry 0 + b.len 0 = 2047 ∧
    (kernel wholeFlow 0 (some (0, 1, 2))).tile.box.run.map (·.loop) = some (some (0, 1, 2)) ∧ b.recs.length < 4 ∧
    b.dropPolicy 0 = false ∧ lab.tile.replay = none ∧ lab.detRoom = true := by decide +kernel

/-! ### Packets at tiles -/

/-- A packet with a message that has arrived at site 0 for tile 0, and the state with only it in flight. -/
def carries (m : Msg) : Packet :=
  { id := 0, line := .relief, origin := 1, dest := .tile 0, site := 0, arrived := some 0, msg := m }
def with_ (m : Msg) (s : State) : State :=
  s.mapWafer (fun w => { w with net := [carries m], nextId := 1, arrivals := 1 })

/-- The tile takes the packet. -/
def takes (m : Msg) (s : State) : Bool :=
  (with_ m s).packet 0 == some (carries m) && (with_ m s).mayTake (carries m) 0 && s.site == 0 && (with_ m s).openRound == none

theorem taken_of (m : Msg) (s : State) (h : takes m s = true) : Taken 0 (carries m) (with_ m s) (with_ m s) := by
  simp only [takes, Bool.and_eq_true, beq_iff_eq] at h
  have e : (with_ m s).focusSite (carries m).site = with_ m s := by
    have : (carries m).site = (with_ m s).site := h.1.2.symm
    simp only [State.focusSite, this, if_true]
  refine ⟨h.1.1.1, rfl, ?_, 0, rfl, by rw [e]; exact h.1.1.2⟩
  rw [e, State.recordChannel, h.2]

/-- A request of core 0 of tile 1, checked or not. -/
def request (st : Option RaceStamp) : Req :=
  { src := { tile := 1, core := 0 }, jt := 1, job := 5, cls := .n, fetch := 7, seq := 1, va := 0x20000000, stamp := st }
def ask : Req := request none

/-- A write to line 0 that races with one of core 2 of the tile, in the same superstep of domain 9. -/
def racer : Req :=
  request (some { acc := { who := { tile := 1, core := 0 }, tick := 0 }, write := true, known := [], steps := [(9, 0)],
                  trapping := true })
def raced : State :=
  lab.mapTile (fun t => { t with
    lines := [{ line := 0, acc := { who := { tile := 0, core := 2 }, tick := 0 }, write := true, steps := [(9, 0)] }] })

/-- A waiter of another tile's core at a word. -/
def waiter : Waiter := { a := 0, kind := .ldf, data := 0, req := ask, remote := true }
def waits (n : Nat) : State := lab.mapTile (fun t => { t with waiters := List.replicate n waiter })

theorem test_meets_WritesArriveAtTiles :
    [Msg.store ask (.spad 0) [(0, 1)], .stf ask 0 0 1, .put ask 0 [(0, 1)] 4 false, .put ask 0 [(0, 1)] 4 true,
      .fullEmpty ask .ste 0 0 1, .fullEmpty ask .ldf 0 0 0, .fullEmptyBack ask .ldf 0 0 0, .waita ask 0 0 0, .waita ask 0 0 1,
      .store ask (.window 0) [(0x7FFF, 1)], .window ask 0 0 8 none, .message msg].all (fun m => takes m lab) = true ∧
    (takes (.store racer (.spad 0) [(0, 1)]) raced = true ∧ raced.requestRaces racer (cellLines [(0, 1)]) = true) ∧
    lab.requestRaces ask (cellLines [(0, 1)]) = false ∧ (FreshWrite ask lab ∧ NoWaiter 0 lab) ∧
    (TagAllows .ste 0 lab ∧ ¬TagAllows .ldf 0 lab) ∧ lab.tile.waitingAt 0 < 16 ∧ 16 ≤ (waits 16).tile.waitingAt 0 ∧
    (¬AwaitsAnswer 0 7 lab ∧ AwaitsAnswer 0 7 (labCore (fun c => { c with pend := [{ id := 7, va := 0 }] }))) ∧
    BitVec.ofNat 32 (lab.tile.mem.readNat 0 4) = 0 ∧ lab.tile.monitors.length < 16 ∧ lab.tile.box.run = none := by
  unfold FreshWrite NoWaiter TagAllows AwaitsAnswer; decide +kernel

/-- A packet for a destination that has not arrived, at a site. -/
def sent (d : Dest) (x : SiteId) : Packet := { id := 0, line := .main, origin := 0, dest := d, site := x, msg := .store ask .hbm [] }
def sends (d : Dest) (x : SiteId) (s : State) : State := s.mapWafer (fun w => { w with net := [sent d x], nextId := 1 })

/-- A packet with a message that has arrived at controller 0, and the state with only it in flight. -/
def rimmed (m : Msg) : Packet :=
  { id := 0, line := .relief, origin := 1, dest := .controller 0, site := 3, arrived := some 0, msg := m }
def rims (m : Msg) (s : State) : State := s.mapWafer (fun w => { w with net := [rimmed m], nextId := 1, arrivals := 1 })

/-- The rim unit takes the packet. -/
def rimTakes (m : Msg) (s : State) : Bool :=
  !(rims m s).behind (rimmed m) 0 && !(rims m s).orderWaits (rimmed m) && !(rims m s).queueWaits (rimmed m)

theorem takenAtRim_of (m : Msg) (s : State) (h : rimTakes m s = true) : TakenAtRim 0 (rimmed m) (rims m s) := by
  simp only [rimTakes, Bool.and_eq_true, Bool.not_eq_true'] at h
  exact ⟨rfl, rfl, 0, rfl, h.1.1, h.1.2, h.2⟩

/-- A sector of HBM at 0 fails when it is read. -/
def failing : State := lab.mapWafer (fun w => { w with rim := { w.rim with failing := [{ a := 0, src := 14, synd := 0 }] } })

theorem test_meets_PacketsArrive :
    let held := (sends (.tile 1) 0 lab).mapWafer (fun w => { w with healing := { w.healing with holds := [1] } })
    let free (s : State) (p : Packet) : Prop :=
      s.packet 0 = some p ∧ p.arrived = none ∧ s.heldBack p = false ∧ p.gate ≤ (s.tileAt p.origin).confirmed ∧
        s.logWaits p = false
    held.heldBack (sent (.tile 1) 0) = true ∧
    (free (sends (.tile 3) 0 lab) (sent (.tile 3) 0) ∧ findPoint (lab.junctionAt 0).points 3 = none) ∧
    (free (sends (.tile 1) 0 lab) (sent (.tile 1) 0) ∧ findPoint (lab.junctionAt 0).points 1 = some 1) ∧
    (free (sends (.tile 0) 0 lab) (sent (.tile 0) 0) ∧ findPoint (lab.junctionAt 0).points 0 = some 0 ∧
      (lab.junctionAt 0).passThrough = false ∧ (sends (.tile 0) 0 lab).overtakes (sent (.tile 0) 0) = false) ∧
    (free (sends (.site 5) 5 lab) (sent (.site 5) 5) ∧ (sends (.site 5) 5 lab).overtakes (sent (.site 5) 5) = false) ∧
    (free (sends (.controller 0) 3 lab) (sent (.controller 0) 3) ∧ lab.resolve (.controller 0) = some 3 ∧
      (Dest.controller 0).rim = true) ∧
    [Msg.load ask (.spad 0) [0, 1], .rowLoad ask 0 (.spad 0) [0], .chunkRead ask 0 (.spad 0) 0 4096,
      .chunk ask (.spad 0) { card := 0, bytes := [1, 2, 3, 4], check := 0, parts := [(0, 4)] }, .setFlag ask 0 0 4,
      .rowStore ask 0 (.spad 0) [(0, 1)], .device ask 0 none, .device ask 0 (some 1)].all (fun m => takes m lab) = true ∧
    crc32c 0 [1, 2, 3, 4] ≠ 0 ∧
    [Msg.load ask .hbm [0], .line ask .hbm 0, .rowLoad ask 0 .hbm [0], .chunkRead ask 0 .hbm 0 4096, .store ask .hbm [(0, 1)],
      .rowStore ask 0 .hbm [(0, 1)], .chunk ask .hbm { card := 0, bytes := [1, 2, 3, 4], check := 0, parts := [(0, 4)] },
      .device ask 0 none, .device ask 0 (some 1)].all (fun m => rimTakes m lab) = true ∧
    (markRoom (lab.rimMarks 0) ask.src = true ∧ lab.undelivered .hbm [0] 5 ask.src 0 = none ∧
      (failing.undelivered .hbm [0] 5 ask.src 0).isSome = true) ∧
    (takes (.load racer (.spad 0) [0]) raced = true ∧ raced.requestRaces racer [0] = true) ∧
    (FreshWrite ask lab ∧ NoWaiter 0x100 lab) ∧ Space.cached .hbm = true := by
  unfold FreshWrite NoWaiter; decide +kernel

theorem test_meets_AnswersArriveAtCores :
    let me : CoreRef := { tile := 0, core := 0 }
    let asked := labCore (fun c => { c with pend := [{ id := 7, va := 0, place := some { space := .hbm, a := 0 } }] })
    let filling := lab.mapTile (fun t => { t with fills := [(7, .hbm, 0, true)] })
    let stopped := asked.mapCore (fun c => { c with stopAsked := true })
    let missed := labCore (fun c => { c with fetchMiss := some 0 })
    let gathers := stopped.mapCore (fun c => { c with pend := [{ id := 7, va := 0, kind := .gather }] })
    let remembers := lab.setRimMarks 0 [{ src := ask.src, result := some (1, .race) }]
    let queues := lab.mapWafer (fun w => { w with rim := { w.rim with slices := [(0, { queue := [
      { req := ask, op := .amo 0 0, place := { space := .hbm, a := 0 }, value := 0, det := false, must := false, nomerge := false, flush := false }] })] } })
    let walking := labCore (fun c => { c with walk := some { va := 0x90000000, job := 5, root := 1 } })
    let mapped := walking.mapWafer (fun w => { w with hbm := Memory.writeCells [] (cellsAt 0x1000 (natBytes 0x2001 8) ++
      cellsAt 0x2010 (natBytes 0x1F 8)) })
    let stored := lab.mapTile (fun t => { t with marks := [{ src := ask.src, result := some (1, .race) }] })
    [Msg.reply me 7 (.data [1] []) .reply, .ack me .n none false none, .fill me 7 .hbm 0 0, .cancel ask .ldf { space := .spad 0, a := 0 },
      .cancelAnswer me 7 none].all (fun m => takes m lab) = true ∧
    (AwaitsAnswer 0 7 asked ∧ ¬AwaitsAnswer 0 7 lab) ∧ (lab.coreAt 0).acc.flushing = [] ∧
    (∃ f ∈ filling.tile.fills, f.1 = 7 ∧ f.2.2.2 = true) ∧
    (∃ w ∈ (waits 1).tile.waiters, w.req.src = ask.src ∧ w.req.fetch = 7) ∧
    (findMark stored.tile.marks ask.src).map (·.result) = some (some (1, .race)) ∧ findMark lab.tile.marks ask.src = none ∧
    (labCore (fun c => { c with post := { c.post with halves := [3] } })).core.post.halves = [3] ∧
    asked.core.stopAsked = false ∧ (stopped.core.stopAsked = true ∧ stopped.core.pend.map (·.reply) = [none] ∧
      (∀ f ∈ stopped.core.pend, f.kind ≠ .gather)) ∧
    gathers.core.pend.map (fun f => (f.kind, f.reply)) = [(.gather, none)] ∧
    ((with_ (.load { ask with fetch := 7 } (.spad 0) [0]) lab).wafer.net.any (fun q => q.msg.asks ask.src 7) = true) ∧
    (rimTakes (.cancel ask .amo { space := .hbm, a := 0 }) lab = true ∧ lab.wafer.rim.slices = [] ∧
      (findMark (remembers.rimMarks 0) ask.src).map (·.result) = some (some (1, .race)) ∧
      (queues.wafer.rim.slices.map (fun k => k.2.queue.map (fun q => q.req.fetch))) = [[7]]) ∧
    ((failing.setReg 1 0).fillFails (.far { space := .hbm, a := 0 }) 0).isSome = true ∧
    lab.fillFails (.far { space := .hbm, a := 0 }) 0 = none ∧
    (failing.undelivered .hbm ((walkReads failing.wafer.hbm 0 [39, 30, 21, 12] 0).flatMap (span · 8)) 5 lab.me 0).isSome = true ∧
    (missed.core.fetchMiss = some 0 ∧ missed.translate { x := true } 0 = .ok (.own 0) ∧ (missed.lineOf (.own 0)).isSome = true) ∧
    (walking.core.walk.map (·.failed) = some false ∧ 1 * 4096 + 4096 ≤ hbmSize ∧
      walkFrom walking.wafer.hbm walking.tile.tiles 0x90000000 [39, 30, 21, 12] 0x1000 = none) ∧
    (walkFrom mapped.wafer.hbm mapped.tile.tiles 0x90000000 [39, 30, 21, 12] 0x1000).isSome = true := by
  unfold AwaitsAnswer; decide +kernel


/-! ### Accumulates at their slices -/

/-- An accumulate of 1 to word 0 of tile 0, an update that carries the flag of R199, and an atomic of the same word. -/
def plain : AccReq :=
  { req := ask, op := .acc .addI32, place := { space := .spad 0, a := 0 }, value := 1, det := false, must := false,
    nomerge := false, flush := false }
def update : AccReq := { plain with det := true }
def swap : AccReq := { plain with op := .amo 1 0 }

/-- Slice 0 of tile 0 in a state. -/
def sliced (x : Slice) : State := lab.mapTile (fun t => { t with slices := vset t.slices 0 x })

/-- Slice 0 of controller 0 in a state. -/
def rimSliced (x : Slice) : State := lab.mapWafer (fun w => { w with rim := { w.rim with slices := [(0, x)] } })

/-- A slice whose quota is used up, a full queue, and a full sort area whose updates have the issue number n. -/
def used : Slice := { queue := List.replicate 9 plain, cnt := [(1, 16)] }
def crowded : Slice := { queue := List.replicate 32 plain }
def heldAt (n : W32) : Held :=
  { op := .addI32, place := plain.place, va := 0, value := 1, key := { jt := 1, core := 0, seq := n }, job := 5, src := ask.src }
def sorted (n : W32) : Slice := { hold := List.replicate 15 (heldAt 0) ++ [heldAt n], runs := List.replicate 64 (List.replicate 16 (heldAt 0)) }

theorem test_meets_SlicesTakeAndApply :
    let merged : AccReq := { plain with parts := [(ask, 1), (ask, 1)] }
    let early : AccReq := { plain with req := { ask with fetch := 6 } }
    [Msg.acc plain, .acc update, .acc merged, .amo swap].all (fun m => takes m lab) = true ∧
    (plain.sliceNo = 0 ∧ FreshRequest plain lab ∧ plain.det = false ∧ (vget lab.tile.slices 0 {}).queue.length < 32 ∧
      ¬OverQuota (vget lab.tile.slices 0 {}) plain) ∧
    (takes (.acc plain) (sliced used) = true ∧ FreshRequest plain (sliced used) ∧
      OverQuota (vget (sliced used).tile.slices 0 {}) plain ∧ OverQuota (vget (sliced used).tile.slices 0 {}) merged) ∧
    (32 ≤ (vget (sliced crowded).tile.slices 0 {}).queue.length ∧ ({ plain with must := true } : AccReq).must = true) ∧
    (swap.req.replay = false ∧ markRoom lab.tile.marks swap.req.src = true ∧ (vget lab.tile.slices 0 {}).queue = [] ∧
      (vget (sliced used).tile.slices 0 {}).queue ≠ []) ∧
    (¬(sorted 0).hasRoom ∧ (sorted 0).sorted = 1024 ∧ (vget lab.tile.slices 0 {}).hasRoom ∧
      ({ hold := List.replicate 15 (heldAt 0), runs := (sorted 0).runs } : Slice).hasRoom) ∧
    (plain.firstOf ((sliced { queue := [plain] }).homeQueue none) = true ∧
      update.firstOf ((sliced { queue := [early, update] }).homeQueue none) = false) ∧
    (failing.wordFails (some 0) { plain with place := { space := .hbm, a := 0 } }).isSome = true ∧
    lab.wordFails (some 0) { plain with place := { space := .hbm, a := 0 } } = none ∧
    (SlicesRun (sliced used) ∧ SlicesRun (sliced { queue := [swap] }) ∧ (vget (sliced { queue := [swap] }).tile.slices 0 {}).queue = [swap]) ∧
    (((rimSliced used).slice (some 0) 0).queue = List.replicate 9 plain ∧
      ((rimSliced { used with lines := [0] }).slice (some 0) 0).lines.contains (plain.place.a / 256) = true ∧
      ((rimSliced used).slice (some 0) 0).lines.contains (plain.place.a / 256) = false) := by
  unfold FreshRequest OverQuota SlicesRun Slice.hasRoom; decide +kernel

/-- A full sort area whose updates all have lower keys, and one with an update of a higher key. -/
theorem test_meets_full_sort_area :
    (∀ z, (sorted 0).isHeld z → z.job = (update.held .addI32).job → z.key.num < (update.held .addI32).key.num) ∧
    ((sorted 2).isHeld (heldAt 2) ∧ (heldAt 2).job = (update.held .addI32).job ∧
      (update.held .addI32).key.num < (heldAt 2).key.num ∧
      ∀ z, (sorted 2).isHeld z → z.job = (update.held .addI32).job → z ≠ heldAt 2 → z.key.num < (heldAt 2).key.num) := by
  unfold Slice.isHeld; decide +kernel

/-- A packet with an accumulate that is on its way through site 0, and the state with two of them. -/
def passing (id : Nat) : Packet := { id := id, line := .main, origin := 0, dest := .tile 2, site := 2, msg := .acc plain }
def two : State := lab.mapWafer (fun w => { w with net := [passing 0, passing 1], nextId := 2 })

/-- A bounce of the accumulate, deterministic or not, and the core with bounces and rows. -/
def back (det : Bool) : Bounce :=
  { det := det, cls := .n, op := .addI32, va := 0x70000000, place := { space := .spad 2, a := 0 }, addend := 1,
    key := { jt := 0, core := 0, seq := 1 }, counted := true }
def aRowOf (det : Bool) (va : Word) : Row :=
  { det := det, cls := .n, op := .addI32, va := va, place := { space := .spad 2, a := 0 }, value := 1, since := 0,
    key := { jt := 0, core := 0, seq := 0 } }
def parked (rows : Vector (Option Row) 32) (l : List Bounce) : State :=
  labCore (fun c => { c with acc := { c.acc with rows := rows, inbound := l } })
def filled (f : Nat → Row) (n : Nat) : Vector (Option Row) 32 := Vector.ofFn (fun i => if i.val < n then some (f i.val) else none)

theorem test_meets_BouncesAreParked :
    let none_ : Vector (Option Row) 32 := Vector.replicate 32 none
    let b := back false
    let z := field b.va 5 3 ^^^ field b.va 8 3
    let same := parked (vset none_ 5 (some (aRowOf false 0x70000000))) [b]
    let full := parked (filled (fun i => aRowOf false (BitVec.ofNat 64 (0x70001000 + 4 * i))) 4) [b]
    let dets := parked (filled (fun _ => aRowOf true 0x70000000) 32) [back true]
    let three := lab.mapWafer (fun w => { w with net := [passing 0, { passing 1 with msg := .stf ask 2 0 1 }, passing 2], nextId := 3 })
    let aged := (parked (filled (fun _ => aRowOf false 0x70000000) 1) []).mapWafer (fun w => { w with clock := 0x1000 })
    (two.packet 0 = some (passing 0) ∧ two.packet 1 = some (passing 1) ∧ two.mergeable 0 (passing 0) = some plain ∧
      two.mergeable 0 (passing 1) = some plain ∧ (two.junctionAt 0).passThrough = false ∧
      (passing 0).site = (passing 1).site ∧ two.keepsOrder (passing 0) (passing 1) = true ∧
      three.keepsOrder (passing 0) (passing 2) = false) ∧
    ([Msg.mergedBounce plain, .bounce { tile := 0, core := 0 } b].all (fun m => takes m lab) = true ∧
      (with_ (.mergedBounce plain) lab).behind (carries (.mergedBounce plain)) 0 = false) ∧
    ((lab.coreAt 0).acc.inbound.length < 4 ∧ 4 ≤ ((parked none_ (List.replicate 4 b)).coreAt 0).acc.inbound.length) ∧
    (lab.core.acc.inbound = [] ∧ z = 0) ∧
    (same.core.acc.inbound = [b] ∧ same.core.acc.flushing = [] ∧
      same.core.findRow b.va b.op = some (5, aRowOf false 0x70000000)) ∧
    ((parked none_ [b]).core.findRow b.va b.op = none ∧ (parked none_ [b]).core.row (4 * z + 0) = none) ∧
    (full.core.findRow b.va b.op = none ∧ (∀ j < 4, (full.core.row (4 * z + j)).isSome = true) ∧
      full.core.oldestRow z = some (0, aRowOf false 0x70001000) ∧ full.core.countRoom .n = true ∧ full.tile.replay = none) ∧
    ((parked none_ [back true]).core.row 0 = none) ∧
    ((∀ j < 32, (dets.core.row j).isSome = true) ∧ dets.core.acc.ring.length < 4096) ∧
    (aged.core.row 0 = some (aRowOf false 0x70000000) ∧ field aged.core.acc.sdctl 0 16 ≤ aged.rowAge (aRowOf false 0x70000000) ∧
      aged.core.acc.flushing = [] ∧ aged.core.countRoom .n = true ∧
      (aRowOf false 0x70000000).cls = (aRowOf false 0x70000000).place.space.cls) ∧
    lab.rowAge (aRowOf false 0x70000000) < field lab.core.acc.sdctl 0 16 := by decide +kernel

/-! ### Messages and barriers -/

/-- A message for message register 0 of core 3 of a job, and a state where core 3 runs. -/
def letter (j : BitVec 6) : Message := { msg with job := j }
def running (full : Bool) (s : State) : State :=
  { s with others := [(3, { run := .running, regs := { qregs := vset (Vector.replicate 16 {}) 0 { full := full } } })] }

theorem test_meets_MessagesReachTheirCores :
    let m := letter 5
    let src : CoreRef := { tile := m.tile, core := m.core }
    let s := running false lab
    let inbox (l r : List Message) (s : State) := s.mapTile (fun t => { t with inbound := l, restored := r })
    let away : SavedTeam := { team := 0x1001, job := 5, tile := 0, prio := 0, slots := [(3, bindZero)], cores := [], clock := 0 }
    let saved := (inbox [m] [] lab).mapWafer (fun w => { w with saved := [away] })
    (takes (.message m) s = true ∧ markRoom s.tile.marks src = true ∧ m.replay = false) ∧
    ((s.coreAt m.dst).run ≠ .unbound ∧ s.tile.job = some m.job ∧ (vget (s.coreAt m.dst).regs.qregs 0 {}).full = false ∧
      s.tile.restored ++ s.tile.inbound = []) ∧
    (takes (.message m) lab = true ∧ (lab.coreAt m.dst).run = .unbound ∧ lab.tile.inbound.length < 32) ∧
    32 ≤ (inbox (List.replicate 32 m) [] lab).tile.inbound.length ∧
    ((vget ((running true lab).coreAt 3).regs.qregs 0 {}).full = true) ∧
    ((inbox [] [m] s).tile.restored = [] ++ m :: [] ∧ (inbox [m] [] s).tile.inbound = [] ++ m :: [] ∧
      (inbox [m] [] s).tile.restored = [] ∧ (inbox [letter 6] [] s).tile.job ≠ some (letter 6).job) ∧
    (saved.tile.inbound = m :: [] ∧ (saved.coreAt 3).run = .unbound ∧ saved.wafer.saved = [away] ∧
      saved.wafer.hbm.readNat (bindZero.save.toNat + 3 * 0x30000 + 0x1388) 8 % 64 < 32) := by decide +kernel

/-- The domain of launch 1 of job 5 at a level, the launch with cores 0 and 1 of job tile 0, and a barrier's root. -/
def domainAt (n : BitVec 2) : DomainKey := { job := 5, launch := 1, level := n, did := 0, alone := none }
def pair : Launch :=
  { job := 5, num := 1, mailbox := 0, port := 0, cores := 3, width := 4, w := 1, h := 1,
    blocks := [(1, 1), (1, 1), (1, 1)], wstack := 0x10000, live := [0] }
def launched (s : State) : State := s.mapWafer (fun w => { w with launches := [pair] })
def rooted (b : Barrier) : State := (launched lab).mapWafer (fun w => { w with barriers := [b] })
def gathered (n : BitVec 2) (det : Bool) (p : BarrierPhase) : Barrier :=
  { domain := domainAt n, arrived := [(0, 0), (0, 1)], det := det, known := [], phase := p }
def signal : BarrierMsg := { domain := domainAt 1, member := (0, 1), src := ask.src, seq := 1, det := false, known := [], replay := false }

/-- Every member of the domain has been counted at its barrier's root, which is present. -/
def isFull (s : State) (b : Barrier) : Bool :=
  s.wafer.barriers.find? (fun x => x.domain == b.domain) == some b && s.wafer.members b.domain == [(0, 0), (0, 1)] &&
    (s.wafer.members b.domain).all (fun m => decide (m ∈ b.arrived)) && s.rootPresent b

theorem test_meets_BarriersComplete :
    let half := rooted { gathered 1 false .collecting with arrived := [(0, 0)] }
    let at0 := rooted (gathered 0 false .collecting)
    let at1 := rooted (gathered 1 false .collecting)
    let det := rooted (gathered 1 true .collecting)
    let merging := rooted (gathered 1 true .merging)
    let away (rows : List Row) : SavedTeam := { team := 0x1000, job := 5, tile := 0, prio := 0, slots := [(0, bindZero)], cores := [(0, { acc := { ring := rows } })], clock := 0 }
    let gone (b : Barrier) (rows : List Row) := (rooted b).mapWafer (fun w => { w with saved := [away rows] })
    let held := merging.mapCore (fun c => { c with acc := { c.acc with ring := [aRowOf true 0x70000000] } })
    ((with_ (.arrival signal) lab).packet 0 = some (carries (.arrival signal)) ∧
      (with_ (.arrival signal) lab).behind (carries (.arrival signal)) 0 = false ∧ lab.junction.passThrough = false) ∧
    (half.wafer.members (domainAt 1) = [(0, 0), (0, 1)] ∧ half.wafer.threadEnded (domainAt 1) (0, 1) = false) ∧
    (isFull at0 (gathered 0 false .collecting) = true ∧ atHome (domainAt 0) = true ∧
      at0.jobTileSite 5 (domainAt 0).did.toNat = some at0.site) ∧
    (isFull at1 (gathered 1 false .collecting) = true ∧ atHome (domainAt 1) = false) ∧
    isFull det (gathered 1 true .collecting) = true ∧
    (isFull merging (gathered 1 true .merging) = true ∧
      (∀ x ∈ merging.jobSites 5, (merging.focusSite x).mayMerge = true) ∧
      merging.memberSites (domainAt 1) = [(0, 0), (0, 1)] ∧ held.memberSites (domainAt 1) = [(0, 0), (0, 1)] ∧
      (∀ c ∈ ([0, 1] : List CoreId), (merging.coreOfSite 0 c).detRows = []) ∧ (held.coreOfSite 0 0).detRows ≠ []) ∧
    (let s := rooted (gathered 1 true .settling)
     s.memberSites (domainAt 1) = [(0, 0), (0, 1)] ∧ ∀ c ∈ ([0, 1] : List CoreId), (s.coreOfSite 0 c).settled = true) ∧
    (gathered 1 true .resending).phase = .resending ∧
    ((gone (gathered 0 false .collecting) []).wafer.awayTeams (domainAt 0) 0 = [away []] ∧
      isFull (gone (gathered 0 false .collecting) []) (gathered 0 false .collecting) = true ∧
      (gone (gathered 1 true .resending) []).wafer.rowsAway (domainAt 1) = false ∧
      (gone (gathered 1 true .resending) [aRowOf true 0x70000000]).wafer.rowsAway (domainAt 1) = true ∧
      takes (.release signal 0) (gone (gathered 1 false .collecting) []) = true) ∧
    (takes (.release signal 0) (launched lab) = true ∧ (launched lab).wafer.awayTeams (domainAt 1) 0 = [] ∧ lab.wafer.saved = [] ∧ signal.replay = false ∧ lab.tile.flagged = false) := by
  decide +kernel

/-! ### Jobs -/

/-- Cards and copy jobs of core 0. -/
def carded_ (l : List TileCard) : State := labCore (fun c => { c with eng := { c.eng with cards := l } })
def copying (l : List CopyJob) : State := labCore (fun c => { c with cpy := { c.cpy with jobs := l } })

/-- A copy of 4,096 bytes, the last of the scratchpad, to 0x1000; a started one; and one from HBM to host memory. -/
def job : CopyJob :=
  { num := 2, kind := .copy, xc := 0x5FFFC0, seq := 0, inject := 0, src := 0x5FF000, dst := 0x1000, len := 4096, ctl := 0,
    expect := 0, flag := 0, rect := 0 }
def started : CopyJob := { job with state := .started, checked := true }
def outside : CopyJob := { job with src := 0x10000000, dst := 0x30000000 }

theorem test_meets_JobsRun :
    let zero : TileCard := { num := 1, job := .tzero 0 }
    let one : TileCard := { num := 2, job := .tadd 2 0 1, srcTag := .i32 }
    let runs (k : TileCard) : TileCard := { k with state := .started }
    let s := carded_ [zero]
    let t := carded_ [runs zero, one]
    let row : TileCard := { num := 1, job := .tld 0, base := 0x5FFF80, srcTag := .f32, dstTag := .f32, state := .started }
    let out : TileCard := { row with job := .tst 7 }
    let done : TileCard := { row with prog := 1 }
    (s.core.eng.cards = [] ++ zero :: [] ∧ s.engineRuns = true ∧ s.unitFree zero.job.unit = true ∧
      s.jobBlocked zero.num zero.footprint = false) ∧
    (t.core.eng.cards = [runs zero] ++ one :: [] ∧ (runs zero).state ≠ .queued ∧ one.state = .queued ∧
      (runs zero).job.depends one.job = true) ∧
    ((carded_ [row]).core.card 1 = some row ∧ (carded_ [row]).engineRuns = true ∧ lab.detRoom = true ∧
      row.prog < row.rowCount ∧ (row.base + BitVec.ofNat 64 0 * row.stride).toNat < 0x600000 ∧
      lab.core.race.detmode = false ∧ (carded_ [out]).core.card 1 = some out ∧
      (∀ c ∈ [PostClass.n, .m, .x], lab.core.post.count c ≤ 256)) ∧
    ((carded_ [done]).core.card 1 = some done ∧ done.prog = done.rowCount ∧ lab.tile.stopped = false ∧ lab.tile.replay = none ∧
      row.prog ≠ row.rowCount) ∧
    [TileJob.mma 7 0 1 true false, .tzero 0, .tmov 0 1, .tadd 0 1 2, .ttr 0 1, .tcvt 0 1, .trowv 0 31, .tvrow 0 31].all (fun j =>
      (carded_ [{ row with job := j, srcTag := .i32 }]).core.card 1 == some { row with job := j, srcTag := .i32 }) = true ∧
    row.perturb.getLsbD 63 = false ∧ row.srcTag.width = 32 := by
  decide +kernel

theorem test_meets_JobsRun_copies :
    let row : TileCard := { num := 1, job := .tld 0, base := 0x5FFF80, srcTag := .f32, dstTag := .f32, state := .started }
    let me : CoreRef := { tile := 0, core := 0 }
    let asks : TileCard := { row with waits := [{ id := 7, va := 0x5FFF80 }] }
    let handed (n : Nat) : CopyJob := { outside with num := 9 + n, rim := some n }
    let busy (n : Nat) : CopyJob := { handed n with state := .started }
    let flagged : CopyJob := { started with prog := 1, sent := 1, ctl := 4, flag := 0x2000, flagAt := some (0, 0x2000) }
    ((copying [job]).core.nextJob = some job ∧ (copying [job]).engineRuns = true ∧ (copying [job]).inProgress < 4 ∧
      (copying [job]).jobBlocked job.num (job.footprint lab.tile) = false ∧
      (copying [{ job with pred := some 1 }]).core.nextJob = some { job with pred := some 1 }) ∧
    ((copying [outside]).core.nextJob = some outside ∧ outside.kind ≠ .mcast ∧ (copying [outside]).outer outside.src false = true ∧
      (copying [outside]).outer outside.dst true = true ∧ (copying [outside]).engineRuns = true ∧ outside.pred = none ∧
      (copying [outside]).jobBlocked outside.num (outside.footprint lab.tile) = false ∧
      ((copying [outside]).handOver outside).1.engineTakes 0 = true ∧
      (copying [handed 0]).core.nextJob = some (handed 0) ∧ (copying [handed 0]).engineTakes 0 = true ∧
      (copying (handed 4 :: [0, 1, 2, 3].map busy)).engineTakes 4 = false) ∧
    ([Msg.chunkData me 2 7 (.data [1] []), .chunkData me 2 7 .race, .chunkAck me 2 7 none false .n,
      .chunkAck me 2 7 (some (1, 2)) true .n, .rowReply me 1 7 (.data [] []), .rowReply me 1 7 .race,
      .rowReply me 1 7 .unreachable, .rowAck me 1 7 .n false].all (fun m => takes m (copying [started]) && takes m (carded_ [asks])) = true ∧
      ((copying [started]).coreAt 0).copyOf 2 = some started ∧ ((carded_ [asks]).coreAt 0).card 1 = some asks ∧
      asks.waits.map (fun f => (f.id, f.lane)) = [(7, 0)] ∧ (lab.coreAt 0).acc.flushing = []) ∧
    ((copying [flagged]).core.copyOf 2 = some flagged ∧ flagged.flagset = true ∧ flagged.prog = flagged.chunks ∧
      flagged.flagAt = some (0, 0x2000) ∧ lab.tile.waiters = []) ∧
    ((copying [started]).core.copyOf 2 = some started ∧ started.prog < started.chunks ∧
      started.sent = started.prog ∧ started.reads = [] ∧ started.waits = [] ∧ started.inject = 0 ∧
      (copying [started]).core.stopAsked = false ∧ started.dst.toNat + min 4096 started.len ≤ 0x600000 ∧
      started.src.toNat + min 4096 started.len ≤ 0x600000) ∧
    ((copying [{ started with ending := some 4 }]).core.copyOf 2 = some { started with ending := some 4 } ∧
      ({ started with prog := 1 } : CopyJob).prog = started.chunks ∧ started.flagset = false ∧ started.prog ≠ started.chunks) := by
  decide +kernel

/-! ### Tasks, teams and cores -/

/-- Core 0 with a slot, the record changed. -/
def seated (f : BindRecord → BindRecord) : State := labCore (fun c => { c with slot := some (f bindZero) })

/-- A queued task of a team. -/
def queuedTask (team : W32) : Task := { pc := 0x2000, handle := 7, state := .queued, team := team }

theorem test_meets_CoresChangeTasks :
    let idle := (seated id).mapCore (fun c => { c with run := .idleServer })
    let pooled := idle.mapTile (fun t => { t with pool := vset t.pool 63 (queuedTask idle.team) })
    let spilt := idle.mapTile (fun t => { t with overflow := [queuedTask idle.team] })
    let late := ((seated (fun r => { r with tlimit := 100 })).mapCore (fun c => { c with
      task := { c.task with inTask := true, counting := true } })).mapWafer (fun w => { w with clock := 100 })
    let stop := seated (fun r => { r with bp0 := 1 })
    let leads (n : CoreId) : State :=
      { (labCore (fun c => { c with coupling := .seeking n })) with others := [(3, { run := .running, lastIssue := some 0 })] }
    (idle.core.run = .idleServer ∧ idle.tile.stopped = false ∧ idle.core.stopAsked = false ∧ idle.tile.replay = none ∧
      idle.detRoom = true ∧ idle.tile.oldestTask idle.team = none ∧ idle.tile.overflow = []) ∧
    (pooled.tile.oldestTask pooled.team = some 63 ∧ ∀ k < 64, k ≠ 63 → (pooled.tile.task k).state ≠ .queued) ∧
    (spilt.tile.oldestTask spilt.team = none ∧
      spilt.tile.overflow.find? (fun e => e.team == spilt.team) = some (queuedTask spilt.team) ∧
      spilt.tile.freeTask 56 = some 0 ∧ ∀ k < 64, (spilt.tile.task k).state ≠ .queued) ∧
    lab.core.run ≠ .idleServer ∧
    (late.tile.stopped = false ∧ late.core.commitWait = none ∧ late.core.run = .running ∧ late.core.pend = [] ∧ late.core.abandoned = [] ∧ late.core.task.inTask = true ∧
      late.core.task.counting = true ∧ late.core.tlimit ≠ 0 ∧
      late.core.tlimit ≤ late.wafer.clock - late.core.task.since) ∧ lab.core.task.inTask = false ∧
    (stop.tile.stopped = false ∧ stop.core.commitWait = none ∧ stop.core.run = .running ∧ stop.core.pend = [] ∧
      stop.core.abandoned = [] ∧ stop.core.slot = some { bindZero with bp0 := 1 } ∧ stop.core.inTrap = false ∧ stop.core.trap.skip = false ∧
      breakAddress { bindZero with bp0 := 1 } 0 = some stop.core.pc.toNat ∧ breakAddress bindZero 0 = none ∧
      breakAddress bindZero 1 = none) ∧
    ((leads 3).core.coupling = .seeking 3 ∧ (3 : CoreId) ≠ 0 ∧ ((leads 3).coreAt 3).run = .running ∧
      ((leads 3).coreAt 3).coupling = .none ∧ ((leads 3).coreAt 3).lastIssue = some (leads 3).core.pc ∧ (leads 3).core.run = .running ∧ ((leads 5).coreAt 5).run ≠ .running) := by
  decide +kernel

theorem row_reset (k : Nat) : ({} : Core).row k = none := by
  simp only [Core.row, vget]
  by_cases h : k < 32 <;> simp [Array.getD_eq_getD_getElem?, h]

theorem idle_of (c : Core) (ha : c.acc = {}) (h : c.pend = [] ∧ c.post = {} ∧ c.eng.cards = [] ∧ c.cpy.jobs = [] ∧
    c.inWfi = false ∧ c.sync.cnt = none) : c.Idle := by
  obtain ⟨h1, h2, h3, h4, h5, h6⟩ := h
  refine ⟨by simp [h1, h2], fun k r hr => ?_, by simp [ha], ⟨h3, h4⟩, ⟨h5, h6⟩⟩
  have := row_reset k
  simp only [Core.row] at hr this
  rw [ha] at hr
  rw [show vget ({} : Core).acc.rows k none = none from this] at hr
  cases hr

/-- The small state stands still, with a change of the core that issues nothing and of the rest that adds nothing. -/
theorem stands_still (s : State) (ho : s.others = []) (ha : s.core.acc = {})
    (hc : s.core.pend = [] ∧ s.core.post = {} ∧ s.core.eng.cards = [] ∧ s.core.cpy.jobs = [] ∧ s.core.inWfi = false ∧
      s.core.sync.cnt = none)
    (ht : s.tile.box.run = none ∧ (∀ k < 8, (vget s.tile.slices k {}).queue = []) ∧ s.tile.stopped = false ∧
      s.tile.replay = none ∧ s.detRoom = true)
    (hb : ∀ b ∈ s.wafer.healing.waybills, b.staged = none) : StandsStill s := by
  refine ⟨by simp [ho], fun c => ?_, ht.1, ht.2.1, ⟨ht.2.2.1, ht.2.2.2.1⟩, ht.2.2.2.2, fun b h => hb b (List.mem_of_find?_eq_some h)⟩
  unfold State.coreAt
  split
  · exact idle_of _ ha hc
  · rw [ho]; exact idle_of _ rfl ⟨rfl, rfl, rfl, rfl, rfl, rfl⟩

theorem test_meets_TeamsComeAndGo :
    let team : SavedTeam := { team := 0x1001, job := 5, tile := 0, prio := 1, slots := [(0, bindZero)], cores := [], clock := 0 }
    let s := lab.mapWafer (fun w => { w with saved := [team] })
    let queuedFor (p : BitVec 2) := (seated id).mapTile (fun t => { t with prio := 1 }) |>.mapWafer (fun w =>
      { w with saved := [{ team with prio := p }], clock := 2 ^ 20 })
    let sliced := queuedFor 1
    let away : AwayTile := { site := 0, image := { tile := { tile := 1 }, cores := [], clock := 0 } }
    let headed := lab.mapWafer (fun w => { w with clock := 2 ^ 20, healing := { w.healing with away := [away] } })
    let beside := { (seated id) with core := { (seated id).core with run := .halted }, others := [(1, (seated id).core)] }
    let halted := labCore (fun c => { c with run := .halted })
    let trapped := labCore (fun c => { c with run := .trapped, trap := { c.trap with tstat := 1 } })
    let one : State := launched lab
    (bindZero.level ≠ 3 ∧ lab.belongs bindZero = true ∧ lab.belongs { bindZero with job := 6 } = false) ∧
    (sliced.core.slot = some bindZero ∧ sliced.tile.leaving = none ∧ (queuedFor 0).mayPreempt bindZero.team = true ∧
      StandsStill sliced) ∧
    (lab.core.slot.all (fun r => r.team != 0x1001) = true ∧ lab.others = []) ∧
    (sliced.wafer.healing.away = [] ∧ sliced.sliceVictim = some 0x1001 ∧ sliced.tile.sliceAt + 2 ^ 20 ≤ sliced.wafer.clock ∧
      lab.wafer.clock < lab.tile.sliceAt + 2 ^ 20) ∧
    (headed.wafer.healing.away = [away] ∧ away.site = 0 ∧ StandsStill headed ∧ headed.tile.dets = [] ∧
      headed.tile.sliceAt + 2 ^ 20 ≤ headed.wafer.clock ∧ (away.image.cores.map (·.1)).Nodup) ∧
    (s.wafer.saved.find? (fun t => t.job == 5 && t.team == 0x1001) = some team ∧ s.carrier team.tile = some 0 ∧
      (team.slots.map (·.1)).Nodup ∧ (s.coreAt 0).slot = none ∧ s.tile.stopped = false ∧ s.tile.replay = none) ∧
    ((halted.coreOfSite 0 0).run = .halted ∧ halted.carrier 0 = some 0) ∧
    ((beside.coreOfSite 0 0).run = .halted ∧ (beside.coreOfSite 0 0).slot = some bindZero ∧
      (beside.coreOfSite 0 1).slot = some bindZero ∧ bindZero.server = false ∧ (beside.coreOfSite 0 1).task.code = none) ∧
    ((trapped.coreOfSite 0 0).run = .trapped ∧ field (trapped.coreOfSite 0 0).trap.tstat 1 2 ≠ 3) ∧
    ((lab.coreOfSite 0 0).run ≠ .halted ∧ (lab.coreOfSite 0 0).run ≠ .trapped) ∧
    (one.wafer.saved = [] ∧ one.jobTileSite 5 ((0x1000 : W32).toNat % 4096) = some 0 ∧
      (one.wafer.launch 5 (launchNo 0x1000)).isSome = true) := by
  intro team s queuedFor sliced away headed beside halted trapped one
  refine ⟨by decide +kernel, ⟨by decide +kernel, rfl, by decide +kernel, ?_⟩, by decide +kernel, by decide +kernel,
    ⟨by decide +kernel, rfl, ?_, rfl, by decide +kernel, by decide +kernel⟩, by decide +kernel, by decide +kernel, by decide +kernel, by decide +kernel, by decide +kernel, by decide +kernel⟩
  all_goals exact stands_still _ rfl rfl (by decide +kernel) (by decide +kernel) (by decide +kernel)

theorem test_meets_RegisterWritesWithEffects :
    let s := labCore (Core.withLevel .M)
    let busy := s.mapWafer (fun w => { w with boot := { w.boot with handedOff := [0] } })
    let row := s.mapCore (fun c => { c with acc := { c.acc with flight := 1 } })
    let level := (cregAccess 0x131).map (fun a => a.mayWrite s.core.level)
    (level = some true ∧ (cregAccess 0x048).map (fun a => a.mayWrite s.core.level) = some true) ∧
    (s.site ∈ ([0x000, 0x03F, 0xFC0, 0xFFF] : List SiteId) ∧ s.junction.plaBusy = false ∧
      quadrant s.site ∉ s.wafer.boot.handedOff) ∧
    quadrant busy.site ∈ busy.wafer.boot.handedOff ∧
    (s.core.acc.flight = 0 ∧ s.core.acc.inbound = [] ∧ row.core.acc.flight ≠ 0) ∧
    ((at_ 1 s).reg 1).getLsbD 0 = true ∧ (s.reg 1).getLsbD 0 = false ∧ ¬(1 ≤ field (s.reg 1) 0 4) ∧
    (1 ≤ field ((at_ 5 s).reg 1) 0 4 ∧ field ((at_ 5 s).reg 1) 0 4 ≤ 5) ∧
    (s.core.flagsPending = false ∧ (carded_ [{ num := 0, job := .tcvt 0 1 }]).core.flagsPending = true) := by decide +kernel

/-! ### Boundaries -/

/-- The waybill changed, in the state with it. -/
def billedWith (f : Waybill → Waybill) (s : State) : State :=
  s.mapWafer (fun w => { w with healing := { w.healing with waybills := [f bill] } })

theorem test_meets_BoundariesAndCommits :
    let due := billed.mapWafer (fun w => { w with clock := 2 ^ 20 })
    let asked := billed.mapTile (fun t => { t with closeAsked := true })
    let img : Image := { tile := {}, cores := [], clock := 0 }
    let staged := billedWith (fun b => { b with staged := some (img, 0) }) lab
    let applying := billedWith (fun b => { b with staged := some (img, 0), applying := true }) lab
    let gone := lab.mapTile (fun t => { t with stopped := true })
    let notice (src : CoreRef) : Msg := .commitNotice 1 src (some 0) none (some 0)
    let far : CoreRef := { tile := 2, core := 0 }
    let record : Det :=
      { kind := .amo, core := 0, slice := 0, pos := 0, srcKind := .core, src := 0, srcCore := 0, seq := 0, payload := [] }
    let atJ (m : Msg) (s : State) : Prop := (with_ m s).packet 0 = some (carries m) ∧ (with_ m s).behind (carries m) 0 = false ∧
      s.junction.passThrough = false
    (due.keepsWaybill = true ∧ due.tile.stopped = false ∧
      due.tile.boundaryAt + 2 ^ field due.tile.ckctl 0 5 ≤ due.wafer.clock) ∧ lab.keepsWaybill = false ∧
    (asked.keepsWaybill = true ∧ asked.tile.closeAsked = true ∧ StandsStill asked ∧ asked.wafer.saved = [] ∧
      asked.openRound = none) ∧
    (lab.tile.replay = none ∧ lab.tile.closeAsked = false ∧ lab.tile.depotAsked = false) ∧
    (staged.wafer.waybill 0 = some { bill with staged := some (img, 0) } ∧ staged.tile.stopped = false ∧
      0 ≤ bill.logBase + bill.log.length ∧ img.tile.mem.wf = true) ∧
    (applying.wafer.waybill 0).map (·.applying) = some true ∧ gone.tile.stopped = true ∧
    (atJ (.closeRequest 0) billed ∧ atJ (.confirm 0 0) billed ∧ atJ (.sendLogFetch 0 1 0) billed ∧ billed.carrier 0 = some 0 ∧
      atJ (notice far) billed ∧ far.tile ≠ 1 ∧ atJ (notice { tile := 1, core := 0 }) billed ∧ (Dest.tile 0).rim = false) ∧
    (atJ (.determinant 0 0 record) billed ∧ billed.wafer.waybill 0 = some bill) ∧
    ((rims (notice { tile := 1, core := 0 }) lab).packet 0 = some (rimmed (notice { tile := 1, core := 0 })) ∧
      (rims (notice far) lab).behind (rimmed (notice far)) 0 = false) := by
  intro due asked img staged applying gone notice far record atJ
  refine ⟨by decide +kernel, by decide +kernel, ⟨by decide +kernel, rfl, ?_, rfl, rfl⟩, ⟨rfl, rfl, rfl⟩, by decide +kernel, by decide +kernel, rfl,
    by decide +kernel, by decide +kernel, by decide +kernel⟩
  exact stands_still _ rfl rfl (by decide +kernel) (by decide +kernel) (by decide +kernel)

/-! ### Failures, depots and the fabric -/

/-- A recovery of tile 0 in a phase, with a reserve at site 16 of another power domain, and what its waybill says. -/
def recovery (p : RecPhase) (x : Option SiteId) : Recovery := { tile := 0, failed := 0, crane := 0, phase := p, site := x }
def recovering (r : Recovery) (f : Waybill → Waybill) (y : Site) : State :=
  (billedWith f lab).mapWafer (fun w => { w with
    sites := [(16, { junction := y })], healing := { w.healing with recoveries := [r], holds := [0] } })
def reserve : Site := { status := .reserve, located := true }

/-- Only site 16 of a recovering wafer may be a reserve. -/
theorem reserve_only (r : Recovery) (f : Waybill → Waybill) (j : Site) (y : SiteId)
    (h : ((recovering r f j).junctionAt y).status = .reserve) : y = 16 := by
  by_contra hy
  revert h
  simp only [State.junctionAt]
  split
  · exact of_decide_eq_true rfl
  · simp only [recovering, billedWith, State.mapWafer, findSite, Ne.symm hy, if_false]
    exact of_decide_eq_true rfl

theorem test_meets_FailuresAreRecovered :
    let fenced := recovering (recovery .fenced none) id reserve
    let often := recovering (recovery .fenced none) (fun b => { b with failures := [0, 0, 0] }) reserve
    let short := recovering (recovery .fenced none) id {}
    let held := recovering (recovery .held (some 16)) id reserve
    let moved := recovering (recovery .moved (some 16)) id reserve
    let ended := (recovering (recovery .restored (some 0)) id reserve).mapTile (fun t => { t with replay := some [] })
    let onto := moved.mapWafer (fun w => { w with
      sites := [(16, { junction := reserve, tile := { tile := 1, job := some 5 } })],
      healing := { w.healing with waybills := { bill with tile := 1 } :: w.healing.waybills } })
    let wrong : ErrorReport := { src := 8, addr := 0, synd := 0x3F800000 }
    let silent := billed.mapWafer (fun w => { w with clock := 0x10 * 1024 * 64 })
    let domain (x : SiteId) : Nat × Nat := (field x 9 3, field x 3 3)
    (lab.tile.stopped = false ∧ silent.wafer.waybill silent.tile.tile = some bill ∧ silent.keepsWaybill = true ∧
      bill.beatAt + field silent.tile.ckctl 32 16 * 1024 ≤ silent.wafer.clock) ∧
    (fenced.recovery 0 = some (recovery .fenced none) ∧ fenced.wafer.waybill 0 = some bill ∧
      (fenced.junctionAt 16).status = .reserve ∧ (fenced.junctionAt 16).located = true ∧
      (fenced.junctionAt 16).passThrough = false ∧ (∀ k ∈ fenced.wafer.healing.recoveries, k.site ≠ some 16) ∧
      domain 16 ≠ domain 8) ∧
    (bill.failures.countP (fun t => decide (0 < t + 2 ^ 30)) < 3 ∧
      (often.wafer.waybill 0).map (fun b => b.failures.countP (fun t => decide (often.wafer.clock < t + 2 ^ 30))) = some 3) ∧
    (short.junctionAt 16).status ≠ .reserve ∧
    (held.recovery 0 = some (recovery .held (some 16))) ∧
    (moved.recovery 0 = some (recovery .moved (some 16)) ∧ bill.lost = false ∧ moved.wafer.net = [] ∧
      (moved.focusSite 16).keepsWaybill = false ∧ moved.wafer.saved = [] ∧ (recovery .moved (some 16)).members = [] ∧
      (16 : SiteId) ≠ 0) ∧
    ((onto.focusSite 16).keepsWaybill = true ∧ (onto.focusSite 16).tile.tile ≠ 0 ∧
      onto.recovery 0 = some (recovery .moved (some 16))) ∧
    (errorDiffers wrong = true ∧ wrong.corrected = false ∧ errorDiffers { wrong with synd := 0 } = false) ∧
    (lab.tile.stopped = false ∧ lab.junction.status ≠ .fused ∧ lab.junction.status ≠ .failed) ∧
    (ended.recovery 0 = some (recovery .restored (some 0)) ∧ ended.replayDone 0 = true ∧ ended.carrier 0 = some 0) ∧
    bill.holder = .buddy 8 ∧ billed.carrier 0 = some 0 := by decide +kernel

theorem test_meets_DepotsAndFabric :
    let round (c : Bool) : DepotRound := { job := 5, epoch := 1, complete := c, closed := if c then [0] else [] }
    let rounds (l : List DepotRound) (s : State) : State := s.mapWafer (fun w => { w with healing := { w.healing with rounds := l } })
    let due := lab.mapWafer (fun w => { w with clock := 64 * 2 ^ 20 })
    let ripe := rounds [{ round false with closed := [0] }] billed
    let newer := (rounds [round false] billed).mapTile (fun t => { t with intv := 2 ^ 48 })
    let m : Msg := .load ask (.spad 0) [0]
    let trained := lab.mapWafer (fun w => { w with rim := { w.rim with fabric := [(127, 2)] } })
    let depot : Waybill := { bill with depots := [(1, { tile := {}, cores := [], clock := 0 })], channel := [(1, carries m)] }
    let kept := billedWith (fun _ => depot) lab
    ((due.wafer.job 5).map (·.depotAt) = some 0 ∧ due.wafer.healing.rounds = [] ∧ due.jobSites 5 = [0] ∧
      field (due.tileAt 0).ckctl 0 5 = 20 ∧ 64 * 2 ^ 20 ≤ due.wafer.clock) ∧
    ((ripe.wafer.healing.rounds.find? (fun r => r.job == 5 && !r.complete)).map (·.closed) = some [0] ∧
      ripe.wafer.healing.waybills = [bill] ∧ bill.tile = 0 ∧ bill.staged = none ∧ ripe.epochLeft 5 false = false) ∧
    ((with_ m newer).packet 0 = some (carries m) ∧ (with_ m newer).openRound = some (round false) ∧
      (with_ m newer).tile.tile ∉ (round false).closed ∧ m.crosses = true ∧ (carries m).epoch ≠ newer.tile.intv.getLsbD 48 ∧
      (with_ m newer).keepsWaybill = true ∧ StandsStill (with_ m newer)) ∧
    ((rounds [round true] billed).wafer.healing.rounds.find? (fun r => r.job == 5 && r.complete) = some (round true) ∧
      billed.wafer.healing.recoveries = []) ∧
    ((rounds [round true] kept).wafer.waybill 0 = some depot ∧ kept.carrier 0 = some 0 ∧
      kept.wafer.healing.waybills.filter (fun b => b.job == 5) = [depot] ∧ depot.channel.map (·.1) = [1] ∧
      (depot.depots.find? (fun d => d.1 == 1)).map (·.1) = some 1) ∧
    (lab.wafer.rim.fabric = [] ∧ ∃ e ∈ trained.wafer.rim.fabric, e.2 = 2) := by
  intro round rounds due ripe newer m trained depot kept
  refine ⟨by decide +kernel, by decide +kernel, ⟨by decide +kernel, by decide +kernel, by decide +kernel, by decide +kernel,
    by decide +kernel, by decide +kernel, ?_⟩, by decide +kernel, by decide +kernel, by decide +kernel⟩
  exact stands_still _ rfl rfl (by decide +kernel) (by decide +kernel) (by decide +kernel)

/-! ### Flows and commands -/

/-- HBM with page tables under the root 1 that map 0x80000000 to its first byte, and bytes from 0x10000. -/
def stored (l : List Byte) (s : State) : State := s.mapWafer (fun w => { w with
  hbm := Memory.writeCells [] (cellsAt 0x1000 (natBytes 0x2001 8) ++ cellsAt 0x2010 (natBytes 0x1F 8) ++ cellsAt 0x10000 l) })

/-- A flow descriptor for messages, of one word and a budget of one cycle, and the kernel word done. -/
def flowBytes : List Byte :=
  natBytes 0x10 4 ++ natBytes 0x1000 4 ++ natBytes 0 4 ++ natBytes 1 4 ++ natBytes 0xFFFF00FF 4 ++ List.replicate 44 0 ++ natBytes 0x0000000D 4

/-- The install command of that flow, and the tile with it as flow 0 of job 5. -/
def install (desc words : Word) : InstallCmd := { tag := 1, job := 5, tile := 0, desc := desc, words := words, len := 1 }
def flowing (s : State) : State := s.mapTile (fun t => { t with
  box := (flowEntry (flowBytes.take 64)).setWord 0 0 0x511 })

theorem test_meets_FlowsAndKernels :
    let s := stored flowBytes lab
    let p (j : BitVec 6) : Packet := carries (.message (letter j))
    let old : Message := { letter 5 with replay := true, seq := 1 }
    let marked := (flowing lab).mapTile (fun t => { t with marks := [{ src := { tile := 1, core := 2 }, mseq := some 1 }] })
    let queue := lab.mapTile (fun t => { t with box := { t.box with queue := [(0, p 5)], recs := [(0x3000, 0)] } })
    let enters (s : State) (q : Packet) : Bool := (s.tile.box.flowOf q == some 0) && s.mayEnter q 0 && q.msg.header.isSome
    let d := flowEntry (flowBytes.take 64)
    (enters (with_ (.message (letter 5)) (flowing lab)) (p 5) = true ∧ enters (with_ (.message (letter 6)) (flowing lab)) (p 6) = true ∧
      (flowing lab).tile.box.job 0 = 5 ∧ (flowing lab).tile.box.stateful 0 = false ∧ (flowing lab).tile.box.queue = []) ∧
    ((with_ (.message (letter 5)) (flowing lab)).boxBehind (p 5) 0 = false ∧ lab.openRound = none ∧
      (p 5).msg.header.map (fun h => (flowing lab).inBox (p 5) h) = some false) ∧
    (enters (with_ (.message old) marked) (carries (.message old)) = true ∧
      (Msg.message old).repeatedAt marked.tile.marks = true ∧ (Msg.message (letter 5)).repeatedAt lab.tile.marks = false) ∧
    (queue.tile.box.queue = (0, p 5) :: [] ∧ queue.tile.box.run = none ∧ queue.tile.stopped = false ∧
      queue.tile.box.recs = (0x3000, 0) :: [] ∧ queue.wafer.net = [] ∧ findPoint queue.junction.points 0 ≠ none ∧
      findPoint queue.junction.points 3 = none ∧ queue.tile.replay = none ∧ queue.junction.passThrough = false) ∧
    (lab.jobTileSite 5 3 = none ∧ lab.jobTileSite 5 0 = some 0 ∧ ((flowing lab).tileAt 0).box.valid 0 = true ∧
      ((flowing lab).tileAt 0).box.valid 63 = false) ∧
    ((s.wafer.job 5).isSome = true ∧ s.jobBytes 1 0x0404 (install 0x80010000 0x80010040).desc.toNat 64 = some (flowBytes.take 64) ∧
      s.jobBytes 1 0x0404 (install 0x80010000 0x80010040).words.toNat 4 = some (flowBytes.drop 64) ∧
      s.jobBytes 1 0x0404 0x80020000 64 = some (List.replicate 64 0)) ∧
    (descriptorStatus d 0 1 4 4 = 0 ∧ descriptorStatus (flowEntry (List.replicate 64 0)) 0 1 4 4 ≠ 0 ∧
      (kernelStatus d (wordsOf 1 (flowBytes.drop 64))).1 = 0 ∧ (kernelStatus d (wordsOf 1 (List.replicate 4 0))).1 ≠ 0) ∧
    ((match junctionStatus d lab.tile.box with | .ok (0, 0) => true | _ => false) = true ∧
      (match junctionStatus d (flowing lab).tile.box with | .error 9 => true | _ => false) = true) := by decide +kernel

/-- A launch descriptor of one core of one tile, the command that names it, and a job of one tile. -/
def launchBytes (magic : Nat) : List Byte :=
  natBytes magic 4 ++ natBytes 1 2 ++ natBytes 1 1 ++ natBytes 0 1 ++ natBytes 0x1000 8 ++ natBytes 1 2 ++ natBytes 1 2 ++
    natBytes 0x10000 4 ++ natBytes 0x10001 4 ++ natBytes 0x10001 4 ++ natBytes 0x10001 4 ++ List.replicate 92 0
def launchCmd : LaunchCmd :=
  { tag := 1, port := 0, job := 5, desc := 0x80010000, level := 0, mailbox := 0, handler := 0, elastic := none,
    place := { prio := 0, jshape := 0x0101, root := 1, race := false },
    hbm := some { save := 0x200000, record := 0x400000, waybill := 0x2000000, depot := 0x8000000 } }
def single : State :=
  (lab.mapTile (fun t => { t with jshape := 0x0101 })).mapWafer (fun w => { w with
    jobs := [{ job := 5, prio := 0, jshape := 0x0101, root := 1, race := false }], boot := { w.boot with handedOff := [0, 1, 2, 3] } })

theorem test_meets_HostCommands :
    let s := stored (launchBytes 0x51444553) single
    let j : Job := { job := 5, prio := 0, jshape := 0x0101, root := 1, race := false }
    let d := readDesc (launchBytes 0x51444553)
    let a : LaunchHbm := { save := 0x200000, record := 0x400000, waybill := 0x2000000, depot := 0x8000000 }
    let new := s.mapWafer (fun w => { w with jobs := [] })
    let park : ParkedJob := { tile := 0, core := 0, copy := false, seq := 0 }
    let card : TileCard := { num := 0, job := .tld 0, seq := some 0, state := .parked, fault := some (2, 0) }
    let copy : CopyJob := { job with state := .parked, fault := some (2, 0) }
    let failed := lab.mapWafer (fun w => { w with sites := [(16, { junction := { status := .failed } })] })
    (∀ q : BitVec 2, s.wafer.boot.handedOff.contains q = true) ∧
    ((0 : BitVec 2) ∉ lab.wafer.boot.handedOff ∧
      (new.wafer.job 5 = none ∧ new.inTheWay (new.jobFor launchCmd) = [] ∧ ({ jshape := j.jshape : Tile }).tiles = 1 ∧
        (placeLaunch launchCmd d j a (new.carry 0)).isSome = true)) ∧
    ((s.inTheWay j).all s.idleJob = true ∧ s.jobFor launchCmd = j ∧ s.jobBytes 1 0x0101 0x80010000 128 = some (launchBytes 0x51444553) ∧
      d.magic = 0x51444553 ∧ d.version = 1 ∧ d.clean = true ∧ d.cores = 1 ∧ d.entry.getLsbD 0 = false ∧
      s.launchStatus launchCmd d j = 0 ∧ launchCmd.level = 0 ∧ s.wafer.job 5 = some j ∧ d.w = 1 ∧ d.h = 1) ∧
    ((placeLaunch launchCmd d j a (s.carry 0)).isSome = true ∧ (0 : CoreId) ∈ coresOf d.cores ∧
      s.standsAt (({ jshape := j.jshape } : Tile).logical 0) = some 0 ∧ (s.coreOfSite 0 0).slot = none) ∧
    ((readDesc (launchBytes 0)).magic ≠ 0x51444553 ∧ ({ d with clean := false } : LaunchDesc).clean = false) ∧
    ((carded_ [card]).carrier 0 = some 0 ∧ ((carded_ [card]).coreOfSite 0 0).parkedCard 0 = some card ∧
      card.seq = some park.seq ∧ ((copying [copy]).coreOfSite 0 0).parkedJob 0 = some copy ∧
      (lab.coreOfSite 0 0).parkedCard 0 = none ∧ (lab.coreOfSite 0 0).parkedJob 0 = none) ∧
    ((failed.junctionAt 16).status = .failed ∧ (lab.junctionAt 16).status ≠ .failed) ∧
    (63 * 2 ^ 36 + 0 ≥ 2560 * 2 ^ 30 ∧ (39 : BitVec 6).toNat * 2 ^ 36 + (2 ^ 36 - 1) + 1 ≤ 2560 * 2 ^ 30) ∧
    (lab.wafer.rim.carried.getLsbD 0 = false ∧ (lab.carry 7).wafer.rim.carried.getLsbD 7 = true) := by decide +kernel

/-! ### Boot, invariants and the step -/

/-- The machine right after reset, with the junction in focus changed, and the same with a packet for it. -/
def booted (f : Site → Site) : State := { State.reset with junction := f State.reset.junction }
def boots (op : BitVec 4) (begun : Bool) : State := booted (fun j => { j with plaBusy := true, plaOp := op, plaBegun := begun })
def asking (m : Msg) (s : State) : State :=
  s.mapWafer (fun w => { w with net := [{ id := 0, line := .relief, origin := 1, dest := .site 0, site := 0, msg := m }] })

theorem test_meets_BootAndReset :
    let flood : Flood := { quadrant := 0, wide := true, points := [], map := [], pending := [0] }
    let flooding := State.reset.mapWafer (fun w => { w with boot := { w.boot with floods := [flood] } })
    let record : FlashRecord := { kind := 1, slotB := false, bytes := [] }
    let dead := State.reset.mapWafer (fun w => { w with healing := { w.healing with dead := [0] } })
    let late (s : State) := s.mapWafer (fun w => { w with clock := 2 ^ 24 })
    let fresh := booted (fun j => { j with status := .untested })
    (fresh.wafer.boot.held = false ∧ fresh.junction.status = .untested ∧ State.reset.junction.status ≠ .untested) ∧
    ([1, 2, 3, 4, 5].all (fun n => (boots n false).junction.plaBusy && !(boots n false).junction.plaBegun &&
      (boots n false).junction.plaOp == n && (boots n true).junction.plaBegun) = true) ∧
    State.reset.wafer.boot.image 1 = none ∧ record.kind = 1 ∧
    ((boots 1 true).junction.asked = [] ∧ (boots 2 true).wafer.boot.floods = [] ∧ flooding.wafer.boot.floods = [flood] ∧
      flood.pending ≠ []) ∧
    ((late (boots 4 true)).junction.since + 2 ^ 24 ≤ (late (boots 4 true)).wafer.clock ∧
      (late (boots 3 false)).junction.since + 2 ^ 20 ≤ (late (boots 3 false)).wafer.clock ∧
      (0 : BitVec 2) ∉ State.reset.wafer.boot.retried) ∧
    (flooding.wafer.boot.floods.find? (fun f => f.quadrant == 0 && f.pending.contains 0) = some flood) ∧
    ((asking (.discovery 0 0 .east) State.reset).packet 0).isSome = true ∧ 0 ∈ dead.wafer.healing.dead ∧
    (State.reset.junction.found = false ∧ (booted (fun j => { j with found := true })).junction.found = true) ∧
    ((booted (fun j => { j with asked := [.east] })).junction.asked = [Port.east] ∧ State.reset.junction.asked = []) ∧
    neighbour 0 .east = some 1 := by decide +kernel

/-- The outcome is a next state. -/
def goesOn (r : Host.Outcome State Fault Refusal) : Bool :=
  match r with
  | .next _ => true
  | .fault _ => false
  | .refused _ => false

theorem test_meets_MemoriesStayCanonical : State.reset.canonical = true ∧ goesOn (step State.reset) = true := by decide +kernel

theorem test_meets_EncodingsDecodeBack :
    ((Instr.addi 24 0 12).wellFormed = true ∧ encode (.addi 24 0 12) = some (32, 0x00180C05) ∧
      (Instr.addi 24 0 12).isKernelWord = false) ∧
    ((Instr.sbDone).wellFormed = true ∧ encode .sbDone = some (32, 0x0000000D) ∧ Instr.sbDone.isKernelWord = true) := by decide +kernel

theorem test_meets_StepRunsInstructions :
    let s := lab.withFetchWord 32 0x00180C05
    let bad := lab.placeWord 0xFFFFFFFF
    let gone := labCore (fun c => { c with pc := 0x40000000 })
    let got (s : State) : Option (List Byte) := match s.tick.askStaging.fetch with | .got b _ => some b | _ => none
    let issues (s : State) : Prop :=
      let t := s.tick.askStaging
      t.wafer.agenda = [] ∧ t.tile.stopped = false ∧ t.tile.replay = none ∧ t.tile.leaving = none ∧
      t.tile.box.run = none ∧ t.core.drafted = false ∧ t.mayIssue = true ∧ t.watchdogDue = false ∧ t.breakpointHit = false
    (issues s ∧ got s = some (toBytes 4 0x00180C05) ∧ decodeCore (toBytes 4 0x00180C05) = some (.addi 24 0 12, 4) ∧
      s.core.holds (.addi 24 0 12) = false ∧ s.core.pc.toNat % 2 = 0 ∧ s.core.ibuf = [] ∧
      decodeCore (s.tile.mem.readBytes s.core.pc.toNat 4) = some (.addi 24 0 12, 4)) ∧
    (issues bad ∧ got bad = some (toBytes 4 0xFFFFFFFF) ∧ decodeCore (toBytes 4 0xFFFFFFFF) = none) ∧
    (issues gone ∧ (match gone.tick.askStaging.fetch with | .fault _ _ => true | _ => false) = true) ∧
    (let k := kernel wholeFlow 0 none
     k.wafer.agenda = [] ∧ k.tile.stopped = false ∧ k.tile.replay = none ∧ k.tile.leaving = none ∧
      (∀ x ∈ k.tick.siteIds, (k.tick.focusSite x).stagingDue = false) ∧
      k.tile.box.run.map (fun r => decide (r.pc < k.tile.box.stop r.flow)) = some true ∧
      decodeBox (k.tile.box.storeWord 0).toNat = some .sbNop ∧ decodeBox 0x3F = none) := by decide +kernel

end Sys2Proof.Tests
end

