-- ==== Sys2Proof/Proofs/Canon.lean ====
section
/-!
SUPPORT. Canonical memories: what it is for each part of the machine to keep its memories in canonical form, the same
for what a step hands on, and that the conjunction over the parts is `State.canonical`.
-/
namespace Sys2Proof.Machine

/-- A value that is there has a property. -/
def OnSome {α : Type} (P : α → Prop) : Option α → Prop
  | some x => P x
  | none => True

/-- The signal box keeps its flow table, its program store and its state in canonical form. -/
def Box.Canon (b : Box) : Prop := b.table.wf = true ∧ b.store.wf = true ∧ b.mem.wf = true

/-- So does the tile, its scratchpad and its box. -/
def Tile.Canon (t : Tile) : Prop := t.mem.wf = true ∧ t.box.Canon

/-- So does a site out of focus. -/
def SiteRec.Canon (r : SiteRec) : Prop := r.tile.Canon

/-- So does a recorded tile. -/
def Image.Canon (i : Image) : Prop := i.tile.Canon

/-- So does a waybill, in its committed, its staged and its depot images. -/
def Waybill.Canon (w : Waybill) : Prop :=
  w.committed.Canon ∧ OnSome (fun p => p.1.Canon) w.staged ∧ ∀ p ∈ w.depots, p.2.Canon

/-- So does a tile that is away from its site. -/
def AwayTile.Canon (a : AwayTile) : Prop := a.image.Canon

/-- So do all waybills and all tiles away. -/
def Healing.Canon (h : Healing) : Prop := (∀ w ∈ h.waybills, w.Canon) ∧ ∀ a ∈ h.away, a.Canon

/-- So does the wafer, in HBM, host memory and the peer's, at its sites and in what heals it. -/
def Wafer.Canon (w : Wafer) : Prop :=
  w.hbm.wf = true ∧ w.host.wf = true ∧ w.peer.wf = true ∧ (∀ p ∈ w.sites, p.2.Canon) ∧ w.healing.Canon

/-- So does the machine. -/
def State.Canon (s : State) : Prop := s.tile.Canon ∧ s.wafer.Canon

/-- So does the state that an issue leaves. -/
def Issue.Canon : Issue → Prop
  | .done s => s.Canon
  | .wait s => s.Canon
  | .trap _ _ s => s.Canon
  | .stop _ => True

/-- So does the state that a fetch leaves. -/
def Fetched.Canon : Fetched → Prop
  | .got _ s => s.Canon
  | .wait s => s.Canon
  | .fault _ _ => True

/-- So does the state that a step leaves. -/
def Result.Canon : Result → Prop
  | .next s => s.Canon
  | .fault _ => True
  | .refused _ => True

/-! ### The parts -/

theorem State.Canon.tile {s : State} (h : s.Canon) : s.tile.Canon := h.1
theorem State.Canon.wafer {s : State} (h : s.Canon) : s.wafer.Canon := h.2
theorem Tile.Canon.mem {t : Tile} (h : t.Canon) : t.mem.wf = true := h.1
theorem Tile.Canon.box {t : Tile} (h : t.Canon) : t.box.Canon := h.2
theorem Box.Canon.table {b : Box} (h : b.Canon) : b.table.wf = true := h.1
theorem Box.Canon.store {b : Box} (h : b.Canon) : b.store.wf = true := h.2.1
theorem Box.Canon.mem {b : Box} (h : b.Canon) : b.mem.wf = true := h.2.2
theorem Wafer.Canon.hbm {w : Wafer} (h : w.Canon) : w.hbm.wf = true := h.1
theorem Wafer.Canon.host {w : Wafer} (h : w.Canon) : w.host.wf = true := h.2.1
theorem Wafer.Canon.peer {w : Wafer} (h : w.Canon) : w.peer.wf = true := h.2.2.1
theorem Wafer.Canon.sites {w : Wafer} (h : w.Canon) : ∀ p ∈ w.sites, p.2.Canon := h.2.2.2.1
theorem Wafer.Canon.healing {w : Wafer} (h : w.Canon) : w.healing.Canon := h.2.2.2.2
theorem Healing.Canon.waybills {x : Healing} (h : x.Canon) : ∀ w ∈ x.waybills, w.Canon := h.1
theorem Healing.Canon.away {x : Healing} (h : x.Canon) : ∀ a ∈ x.away, a.Canon := h.2
theorem Waybill.Canon.committed {x : Waybill} (h : x.Canon) : x.committed.Canon := h.1
theorem Waybill.Canon.staged {x : Waybill} (h : x.Canon) : OnSome (fun p => p.1.Canon) x.staged := h.2.1
theorem Waybill.Canon.depots {x : Waybill} (h : x.Canon) : ∀ p ∈ x.depots, p.2.Canon := h.2.2
theorem SiteRec.Canon.tile {x : SiteRec} (h : x.Canon) : x.tile.Canon := h
theorem Image.Canon.tile {x : Image} (h : x.Canon) : x.tile.Canon := h
theorem AwayTile.Canon.image {x : AwayTile} (h : x.Canon) : x.image.Canon := h

/-! ### The parts make up `State.canonical` -/

theorem Tile.canon_iff (t : Tile) : t.Canon ↔ ∀ m ∈ t.memories, m.wf = true := by
  simp [Tile.Canon, Box.Canon, Tile.memories]

theorem Waybill.canon_iff (w : Waybill) : w.Canon ↔ ∀ m ∈ w.memories, m.wf = true := by
  have hstaged : OnSome (fun p => p.1.Canon) w.staged ↔ ∀ p ∈ w.staged, p.1.Canon := by
    cases w.staged <;> simp [OnSome]
  rw [Waybill.Canon, hstaged]
  simp only [Image.Canon, Tile.canon_iff, Waybill.memories, Image.memories, List.forall_mem_append,
    ← List.flatMap_def, List.forall_mem_flatMap, Option.mem_toList,
    Option.mem_def, and_assoc]

theorem Healing.canon_iff (h : Healing) : h.Canon ↔
    (∀ m ∈ (h.waybills.map Waybill.memories).flatten, m.wf = true) ∧
      ∀ m ∈ (h.away.map (fun a => a.image.memories)).flatten, m.wf = true := by
  simp only [Healing.Canon, Waybill.canon_iff, AwayTile.Canon, Image.Canon, Tile.canon_iff, Image.memories,
    ← List.flatMap_def, List.forall_mem_flatMap]

theorem Wafer.canon_iff (w : Wafer) : w.Canon ↔ ∀ m ∈ w.memories, m.wf = true := by
  simp only [Wafer.Canon, Healing.canon_iff, SiteRec.Canon, Tile.canon_iff, Wafer.memories, List.forall_mem_append,
    ← List.flatMap_def, List.forall_mem_flatMap, List.forall_mem_cons, List.not_mem_nil, false_imp_iff, implies_true,
    and_true, and_assoc]

/-- The conjunction over the parts is the model's own predicate. -/
theorem State.canonical_iff (s : State) : s.canonical = true ↔ s.Canon := by
  simp only [State.canonical, State.memories, List.all_eq_true, List.forall_mem_append, State.Canon, Tile.canon_iff,
    Wafer.canon_iff]

/-! ### What a branch, a fold or a search hands on -/

theorem OnSome.of_eq {α : Type} {P : α → Prop} {o : Option α} {x : α} (h : OnSome P o) (e : o = some x) : P x := by
  subst e; exact h

theorem OnSome.map {α β : Type} {P : β → Prop} {f : α → β} {o : Option α} (h : ∀ x, P (f x)) : OnSome P (o.map f) := by
  cases o with
  | none => trivial
  | some x => exact h x

theorem OnSome.bind {α β : Type} {P : α → Prop} {Q : β → Prop} {f : α → Option β} {o : Option α} (h : OnSome P o)
    (hf : ∀ x, P x → OnSome Q (f x)) : OnSome Q (o.bind f) := by
  cases o with
  | none => trivial
  | some x => exact hf x h

theorem OnSome.mapCanon {α β : Type} {P : α → Prop} {Q : β → Prop} {f : α → β} {o : Option α} (h : OnSome P o)
    (hf : ∀ x, P x → Q (f x)) : OnSome Q (o.map f) := by
  cases o with
  | none => trivial
  | some x => exact hf x h

theorem OnSome.getD {α : Type} {P : α → Prop} {o : Option α} {d : α} (h : OnSome P o) (hd : P d) : P (o.getD d) := by
  cases o with
  | none => exact hd
  | some x => exact h

theorem Result.Canon.of_eq {r : Result} {s : State} (h : Result.Canon r) (e : r = .next s) : s.Canon := by
  subst e; exact h

theorem Fetched.Canon.of_got {r : Fetched} {b} {s : State} (h : Fetched.Canon r) (e : r = .got b s) : s.Canon := by
  subst e; exact h

theorem Fetched.Canon.of_wait {r : Fetched} {s : State} (h : Fetched.Canon r) (e : r = .wait s) : s.Canon := by
  subst e; exact h

theorem Issue.Canon.of_wait {r : Issue} {s : State} (h : Issue.Canon r) (e : r = .wait s) : s.Canon := by
  subst e; exact h

theorem Issue.Canon.of_done {r : Issue} {s : State} (h : Issue.Canon r) (e : r = .done s) : s.Canon := by
  subst e; exact h

/-- A branch has what both its sides have. -/
theorem canon_ite {α : Type} {P : α → Prop} {c : Prop} [Decidable c] {a b : α} (ha : P a) (hb : P b) :
    P (if c then a else b) := iteInduction (fun _ => ha) fun _ => hb

/-- A fold keeps what each of its steps keeps. -/
theorem canon_foldl {α β : Type} {P : β → Prop} {f : β → α → β} {l : List α} {b : β} (hb : P b)
    (hf : ∀ b a, P b → P (f b a)) : P (l.foldl f b) := List.foldlRecOn l f hb fun b hb a _ => hf b a hb

theorem canon_find {α : Type} {P : α → Prop} {l : List α} {p : α → Bool} (h : ∀ x ∈ l, P x) : OnSome P (l.find? p) := by
  cases e : l.find? p with
  | none => trivial
  | some x => exact h x (List.mem_of_find?_eq_some e)

theorem canon_of_snd {α β : Type} {P : β → Prop} {p : α × β} {a : α} {b : β} (h : P p.2) (e : p = (a, b)) : P b := by
  subst e; exact h

theorem canon_of_fst {α β : Type} {P : α → Prop} {p : α × β} {a : α} {b : β} (h : P p.1) (e : p = (a, b)) : P a := by
  subst e; exact h

/-! ### The fields of a state that hold no memory may be replaced -/

section
variable {s : State}

theorem State.Canon.withCore (h : s.Canon) (c : Core) : ({ s with core := c } : State).Canon := ⟨h.tile, h.wafer⟩

theorem State.Canon.withJunction (h : s.Canon) (j : Site) : ({ s with junction := j } : State).Canon :=
  ⟨h.tile, h.wafer⟩

theorem State.Canon.withRim (h : s.Canon) (r : Rim) :
    ({ s with wafer := { s.wafer with rim := r } } : State).Canon :=
  ⟨h.tile, h.wafer.hbm, h.wafer.host, h.wafer.peer, h.wafer.sites, h.wafer.healing⟩

theorem State.Canon.withTile (h : s.Canon) {t : Tile} (hm : t.mem = s.tile.mem) (hb : t.box = s.tile.box) :
    ({ s with tile := t } : State).Canon := ⟨⟨hm ▸ h.tile.mem, hb ▸ h.tile.box⟩, h.wafer⟩

theorem State.Canon.withBox (h : s.Canon) {b : Box} (hb : b.Canon) :
    ({ s with tile := { s.tile with box := b } } : State).Canon := ⟨⟨h.tile.mem, hb⟩, h.wafer⟩

end

end Sys2Proof.Machine
end

