-- ==== Sys2Proof/Proofs/CanonSteps.lean ====
section
/-!
SUPPORT. That every function of the model which hands on a state, a tile, a box, an image or a wafer keeps its memories
in canonical form, in the order of the model and by its modules; then `exec`, the step, and the obligation O57.
-/
namespace Sys2Proof.Machine

variable {s : State}

/-! ### Ops -/

theorem State.setReg_canon {r : BitVec 5} {v : Word} (h : s.Canon) : (s.setReg r v).Canon := h

theorem State.setPc_canon {v : Word} (h : s.Canon) : (s.setPc v).Canon := h

theorem State.skip_canon {n : ℕ} (h : s.Canon) : (s.skip n).Canon := h

theorem State.updCore_canon {c : CoreId} {f : Core → Core} (h : s.Canon) : (s.updCore c f).Canon := canon_ite h h

theorem State.updCores_canon {f : Core → Core} (h : s.Canon) : (s.updCores f).Canon := h

theorem State.focusCore_canon {c : CoreId} (h : s.Canon) : (s.focusCore c).Canon := canon_ite h h

theorem findSite_canon {l : List (SiteId × SiteRec)} {x : SiteId} (hl : ∀ p ∈ l, p.2.Canon) :
    (findSite l x).Canon := by
  induction l with
  | nil => exact ⟨rfl, rfl, rfl, rfl⟩
  | cons p r ih =>
    obtain ⟨k, v⟩ := p
    obtain ⟨hv, hr⟩ := List.forall_mem_cons.mp hl
    unfold findSite
    exact canon_ite hv (ih hr)

theorem putSite_canon {l : List (SiteId × SiteRec)} {x : SiteId} {v : SiteRec} (hl : ∀ p ∈ l, p.2.Canon)
    (hv : v.Canon) : ∀ p ∈ putSite l x v, p.2.Canon := by
  induction l with
  | nil => exact List.forall_mem_singleton.mpr hv
  | cons p r ih =>
    obtain ⟨hp, hr⟩ := List.forall_mem_cons.mp hl
    unfold putSite
    split
    · exact List.forall_mem_cons.mpr ⟨hv, hr⟩
    · split
      · exact List.forall_mem_cons.mpr ⟨hv, hl⟩
      · exact List.forall_mem_cons.mpr ⟨hp, ih hr⟩

theorem dropSite_canon {l : List (SiteId × SiteRec)} {x : SiteId} (hl : ∀ p ∈ l, p.2.Canon) :
    ∀ p ∈ dropSite l x, p.2.Canon := fun p hp => hl p (List.mem_of_mem_filter hp)

theorem State.focus_canon {x : SiteId} {c : CoreId} (h : s.Canon) : (s.focus x c).Canon :=
  canon_ite (State.focusCore_canon h) ⟨(findSite_canon h.wafer.sites).tile, h.wafer.hbm, h.wafer.host, h.wafer.peer,
    putSite_canon (dropSite_canon h.wafer.sites) h.tile, h.wafer.healing⟩

theorem State.tileAt_canon {x : SiteId} (h : s.Canon) : (s.tileAt x).Canon :=
  canon_ite h.tile ((findSite_canon h.wafer.sites).tile)

theorem State.launchPacket_canon {line : Line} {d : Dest} {arrived : Option ℕ} {m : Msg} (h : s.Canon) :
    (s.launchPacket line d arrived m).Canon := h

theorem State.inject_canon {line : Line} {d : Dest} {m : Msg} (h : s.Canon) : (s.inject line d m).Canon := by
  unfold State.inject
  dsimp only
  split
  · split <;> exact State.launchPacket_canon h
  · split <;> exact h
  · split <;> exact State.launchPacket_canon h

theorem State.dropPacket_canon {id : ℕ} (h : s.Canon) : (s.dropPacket id).Canon := h

theorem State.setPacket_canon {id : ℕ} {f : Packet → Packet} (h : s.Canon) : (s.setPacket id f).Canon := h

theorem State.uncouple_canon (h : s.Canon) : s.uncouple.Canon := h

theorem postTeamTrap_canon {double : Bool} (h : s.Canon) : (postTeamTrap s double).Canon := by
  unfold postTeamTrap
  dsimp only
  split
  · exact h
  · split
    · exact h
    · exact State.inject_canon h

theorem escalate_canon {double : Bool} (h : s.Canon) : (escalate double s).Canon := canon_ite h (postTeamTrap_canon h)

theorem takeTrap_canon {cause : ℕ} {val : Word} (h : s.Canon) : (takeTrap cause val s).Canon :=
  canon_ite (escalate_canon h) h

theorem returnFromTrap_canon (h : s.Canon) : (returnFromTrap s).Canon := h

theorem State.retire_canon (h : s.Canon) : s.retire.Canon := h

theorem Issue.result_canon {i : Issue} (h : i.Canon) : Result.Canon i.result := by
  cases i with
  | done s => exact State.retire_canon h
  | wait s => exact h
  | trap cause val s => exact takeTrap_canon h
  | stop f => trivial

theorem State.next4_canon (h : s.Canon) : s.next4.Canon := State.skip_canon h

/-! ### Access -/

theorem Wafer.waybill_canon {w : Wafer} {l : TileNo} (hw : w.Canon) : OnSome Waybill.Canon (w.waybill l) :=
  canon_find hw.healing.waybills

theorem State.noteDet_canon {d : Det} (h : s.Canon) : (s.noteDet d).Canon := by
  unfold State.noteDet
  dsimp only
  split
  · exact h
  · split
    · exact h
    · exact State.inject_canon h

theorem State.record_canon {v : Word} (h : s.Canon) : OnSome (fun x => x.2.Canon) (s.record v) := by
  unfold State.record
  dsimp only
  split
  · split <;> exact h
  · exact canon_ite (State.noteDet_canon h) trivial

theorem State.startWalk_canon {va : ℕ} (h : s.Canon) : (s.startWalk va).Canon := by
  unfold State.startWalk
  dsimp only
  split
  · exact canon_ite h h
  · exact h

theorem access_canon {need : Need} {va size : ℕ} {k : Target → State → Issue} (h : s.Canon)
    (hk : ∀ (x : Target) (t : State), t.Canon → (k x t).Canon) : (access need va size s k).Canon := by
  unfold access
  split
  · exact h
  · split
    · exact hk _ _ h
    · exact h
    · exact State.startWalk_canon h

theorem Tile.noteLine_canon {t : Tile} {st : RaceStamp} {line : ℕ} (ht : t.Canon) : (t.noteLine st line).Canon := ht

theorem waitCounts_canon {cls : List PostClass} {k : State → Issue} (h : s.Canon)
    (hk : ∀ (t : State), t.Canon → (k t).Canon) : (waitCounts cls s k).Canon := by
  unfold waitCounts
  dsimp only
  split
  · exact h
  · exact canon_ite (hk _ h) h

theorem waitW_canon {w : BitVec 2} {k : State → Issue} (h : s.Canon) (hk : ∀ (t : State), t.Canon → (k t).Canon) :
    (waitW w s k).Canon := canon_ite (hk _ h) (waitCounts_canon h hk)

theorem State.touch_canon {src line : ℕ} {write : Bool} (h : s.Canon) : (s.touch src line write).Canon := by
  unfold State.touch
  dsimp only
  split
  · exact canon_ite (State.noteDet_canon h) h
  · exact h

theorem State.touchEvc_canon {c : ℕ} {write : Bool} (h : s.Canon) : (s.touchEvc c write).Canon := State.touch_canon h

theorem State.answerHere_canon {c : CoreId} {fetch : ℕ} {rep : Reply} (h : s.Canon) :
    (s.answerHere c fetch rep).Canon := State.updCore_canon h

theorem State.answer_canon {r : Req} {remote : Bool} {rep : Reply} {kind : DetKind} (h : s.Canon) :
    (s.answer r remote rep kind).Canon := canon_ite (State.inject_canon h) (State.answerHere_canon h)

theorem Tile.keepAnswer_canon {t : Tile} {r : Req} {rep : Reply} (ht : t.Canon) : (t.keepAnswer r rep).Canon := ht

theorem wakeMonitors_canon {ms : List Monitor} (h : s.Canon) : (wakeMonitors ms s).Canon := by
  induction ms generalizing s with
  | nil => exact h
  | cons m r ih =>
    unfold wakeMonitors
    dsimp only
    refine ih (canon_ite (State.setPacket_canon (State.answer_canon ?_)) h)
    split <;> exact h

theorem Tile.markDirty_canon {t : Tile} {lines : List ℕ} (ht : t.Canon) : (t.markDirty lines).Canon := ht

theorem State.writeOwn_canon {cells : List Host.Cell} {ownStore : Bool} (h : s.Canon) :
    (s.writeOwn cells ownStore).Canon :=
  wakeMonitors_canon (canon_ite (State.updCores_canon ⟨⟨writeCells_wf _ h.tile.mem, h.tile.box⟩, h.wafer⟩)
    ⟨⟨writeCells_wf _ h.tile.mem, h.tile.box⟩, h.wafer⟩)

theorem Tile.farDrop_canon {t : Tile} {sp : Space} {cells : List Host.Cell} (ht : t.Canon) :
    (t.farDrop sp cells).Canon := ht

theorem Tile.farEmpty_canon {t : Tile} (ht : t.Canon) : t.farEmpty.Canon := ht

theorem localAccess_canon {va a n : ℕ} {write checked : Bool} {k : State → Issue} (h : s.Canon)
    (hk : ∀ t : State, t.Canon → (k t).Canon) : (localAccess va a n write checked s k).Canon := by
  unfold localAccess
  extract_lets st lines t
  have ht : t.Canon := canon_foldl h fun _ _ hz => State.touch_canon hz
  refine canon_ite h (canon_ite h (hk _ (canon_ite ⟨?_, ht.wafer⟩ ht)))
  exact canon_foldl ht.tile fun _ _ hz => Tile.noteLine_canon hz

theorem State.postStore_canon {sp : Space} {cells : List Host.Cell} {va : ℕ} {listed : Bool} (h : s.Canon) :
    (s.postStore sp cells va listed).Canon :=
  canon_ite (State.inject_canon h) (State.inject_canon (State.inject_canon h))

/-! ### Scalar -/

theorem alu2_canon {f : Word → Word → Word} {d a b : BitVec 5} (h : s.Canon) : (alu2 f d a b s).Canon :=
  Issue.result_canon (State.next4_canon (State.setReg_canon h))

theorem alu1_canon {f : Word → Word} {d a : BitVec 5} (h : s.Canon) : (alu1 f d a s).Canon :=
  Issue.result_canon (State.next4_canon (State.setReg_canon h))

theorem aluI_canon {f : Word → Word → Word} {d a : BitVec 5} {i : Word} (h : s.Canon) : (aluI f d a i s).Canon :=
  Issue.result_canon (State.next4_canon (State.setReg_canon h))

theorem execAndn_canon {d a b : BitVec 5} (h : s.Canon) : (execAndn d a b s).Canon := alu2_canon h

theorem execSextB_canon {d a : BitVec 5} (h : s.Canon) : (execSextB d a s).Canon := alu1_canon h

theorem execSextH_canon {d a : BitVec 5} (h : s.Canon) : (execSextH d a s).Canon := alu1_canon h

theorem execSextW_canon {d a : BitVec 5} (h : s.Canon) : (execSextW d a s).Canon := alu1_canon h

theorem execZextB_canon {d a : BitVec 5} (h : s.Canon) : (execZextB d a s).Canon := alu1_canon h

theorem execZextH_canon {d a : BitVec 5} (h : s.Canon) : (execZextH d a s).Canon := alu1_canon h

theorem execZextW_canon {d a : BitVec 5} (h : s.Canon) : (execZextW d a s).Canon := alu1_canon h

theorem State.jumpTo_canon {target : Word} (h : s.Canon) : (s.jumpTo target).Canon := h

theorem branch_canon {cond : Word → Word → Bool} {a b : BitVec 5} {i : BitVec 12} (h : s.Canon) :
    (branch cond a b i s).Canon := by
  unfold branch
  dsimp only
  exact Issue.result_canon (State.jumpTo_canon h)

theorem execBge_canon {a b : BitVec 5} {i : BitVec 12} (h : s.Canon) : (execBge a b i s).Canon := branch_canon h

theorem execBgen_canon {a b : BitVec 5} {i : BitVec 12} (h : s.Canon) : (execBgen a b i s).Canon := branch_canon h

theorem execJmp_canon {i : BitVec 25} (h : s.Canon) : (execJmp i s).Canon := Issue.result_canon (State.jumpTo_canon h)

theorem spillIfFull_canon {k : State → Issue} (h : s.Canon) (hk : ∀ (t : State), t.Canon → (k t).Canon) :
    (spillIfFull s k).Canon :=
  canon_ite (canon_ite h (localAccess_canon h (fun _ h1 => hk _ ⟨(State.writeOwn_canon h1).tile, (State.writeOwn_canon
    h1).wafer⟩))) (hk _ h)

theorem callTo_canon {target : Word} (h : s.Canon) : (callTo target s).Canon := spillIfFull_canon h (fun _ h1 => h1)

theorem outsideTrapWindow_canon {i : Instr} {k : Issue} (h : s.Canon) (hk : k.Canon) :
    (outsideTrapWindow i s k).Canon := canon_ite h hk

theorem execCallr_canon {a : BitVec 5} (h : s.Canon) : (execCallr a s).Canon :=
  Issue.result_canon (outsideTrapWindow_canon h (canon_ite h (callTo_canon h)))

theorem execTrap_canon {c : BitVec 10} (h : s.Canon) : (execTrap c s).Canon := Issue.result_canon h

theorem execHalt_canon (h : s.Canon) : (execHalt s).Canon := by
  unfold execHalt
  extract_lets t _ u n
  have ht : t.Canon := State.uncouple_canon (State.skip_canon h)
  have hu : u.Canon := ht.withCore _
  clear_value u
  exact Issue.result_canon (canon_ite (P := State.Canon) hu
    ⟨hu.tile, hu.wafer.hbm, hu.wafer.host, hu.wafer.peer, hu.wafer.sites, hu.wafer.healing⟩)

theorem execCouple_canon {n : BitVec 3} (h : s.Canon) : (execCouple n s).Canon := by
  unfold execCouple
  dsimp only
  exact Issue.result_canon h

theorem execUncouple_canon (h : s.Canon) : (execUncouple s).Canon := by
  unfold execUncouple
  dsimp only
  exact Issue.result_canon h

theorem execIllegalInstruction_canon {w : W32} (h : s.Canon) : (execIllegalInstruction w s).Canon :=
  Issue.result_canon h

/-! ### LoadStore -/

theorem blocked_canon {issue : State → Issue} {complete : List Fetch → State → Issue} (h : s.Canon)
    (hissue : ∀ (t : State), t.Canon → (issue t).Canon)
    (hcomplete : ∀ (x : List Fetch) (t : State), t.Canon → (complete x t).Canon) :
    (blocked s issue complete).Canon := by
  unfold blocked
  dsimp only
  split
  · exact h
  · split
    · split
      · split
        · exact h
        · exact hcomplete _ _ h
      · exact hissue _ h
    · split
      · exact hissue _ h
      · split
        · split
          · exact h
          · exact hcomplete _ _ h
        · exact h

theorem State.await_canon {va lane : ℕ} {kind : BlockKind} {place : Option Place} {tag : W32} {ops : Word × Word}
    (h : s.Canon) : (s.await va lane kind place tag ops).Canon :=
  h

theorem Tile.farUse_canon {t : Tile} {l : FarLine} (ht : t.Canon) : (t.farUse l).Canon := ht

theorem Tile.farInstall_canon {t : Tile} {l : FarLine} (ht : t.Canon) : (t.farInstall l).Canon := ht

theorem State.requestLoad_canon {p : Place} {va n lane : ℕ} {checks : Bool} {kind : BlockKind} {operand : Word}
    (h : s.Canon) : (s.requestLoad p va n lane checks kind operand).Canon :=
  State.inject_canon (canon_ite h (State.await_canon h))

theorem loadFrom_canon {va n : ℕ} {k : ℕ → State → Issue} (h : s.Canon)
    (hk : ∀ (x : ℕ) (t : State), t.Canon → (k x t).Canon) : (loadFrom va n s k).Canon := by
  unfold loadFrom
  refine access_canon h ?_
  intro x t h1
  split
  · exact localAccess_canon h1 (fun t1 h2 => hk _ _ h2)
  · split
    · exact h1
    · split
      · exact h1
      · split
        · exact hk _ _ h1
        · exact State.requestLoad_canon h1

theorem load_canon {size : ℕ} {ext : ℕ → Word} {d a : BitVec 5} {w : BitVec 2} {i : BitVec 10} (h : s.Canon) :
    (load size ext d a w i s).Canon :=
  Issue.result_canon (blocked_canon h (fun _ h1 => waitW_canon h1 (fun _ h2 => loadFrom_canon h2 (fun _ _ h3 =>
    State.skip_canon (State.setReg_canon h3)))) (fun _ _ h1 => State.skip_canon (State.setReg_canon h1)))

theorem State.prefetch_canon {va : ℕ} (h : s.Canon) : (s.prefetch va).Canon := by
  unfold State.prefetch
  split
  · exact canon_ite (State.inject_canon h) h
  · exact h

theorem waitQuiet_canon {cls : List PostClass} {k : State → Issue} (h : s.Canon)
    (hk : ∀ (t : State), t.Canon → (k t).Canon) : (waitQuiet cls s k).Canon :=
  canon_ite (hk _ h) (canon_ite (hk _ h) h)

theorem execPrf_canon {a : BitVec 5} {w : BitVec 2} {i : BitVec 10} (h : s.Canon) : (execPrf a w i s).Canon :=
  Issue.result_canon (waitQuiet_canon h (fun _ h1 => State.next4_canon (State.prefetch_canon h1)))

theorem State.requestDevice_canon {p : Place} {va : ℕ} {v : Word} (h : s.Canon) : (s.requestDevice p va v).Canon :=
  State.inject_canon (State.await_canon h)

theorem storeTo_canon {va n : ℕ} {v : Word} {k : State → Issue} (h : s.Canon)
    (hk : ∀ (t : State), t.Canon → (k t).Canon) : (storeTo va n v s k).Canon := by
  unfold storeTo
  dsimp only
  refine access_canon h ?_
  intro x t h1
  split
  · exact localAccess_canon h1 (fun t1 h2 => hk _ (State.writeOwn_canon h2))
  · exact canon_ite (canon_ite h1 (State.requestDevice_canon h1)) (canon_ite h1 (hk _ (State.postStore_canon h1)))

theorem store_canon {size : ℕ} {d a : BitVec 5} {w : BitVec 2} {i : BitVec 10} (h : s.Canon) :
    (store size d a w i s).Canon :=
  Issue.result_canon (blocked_canon h (fun _ h1 => waitW_canon h1 (fun _ h2 => storeTo_canon h2 (fun _ h3 =>
    State.next4_canon h3))) (fun _ _ h1 => State.next4_canon h1))

theorem Tile.setTag_canon {t : Tile} {a : ℕ} {full : Bool} (ht : t.Canon) : (t.setTag a full).Canon := ht

theorem Tile.tagBy_canon {t : Tile} {a : ℕ} {full : Bool} {k : List AccessId} (ht : t.Canon) :
    (t.tagBy a full k).Canon := ht

theorem performTag_canon {kind : BlockKind} {a : ℕ} {data : W32} {k : List AccessId} {own : Bool} (h : s.Canon) :
    (performTag kind a data k own s).2.Canon := by
  unfold performTag
  dsimp only
  split
  · exact h
  · exact State.writeOwn_canon h
  · exact h
  · exact h
  · exact h

theorem Tile.keepResult_canon {t : Tile} {kind : BlockKind} {r : Req} {rep : Reply} (ht : t.Canon) :
    (t.keepResult kind r rep).Canon := canon_ite ht (Tile.keepAnswer_canon ht)

theorem serveWaiters_canon {a n : ℕ} (h : s.Canon) : (serveWaiters a n s).Canon := by
  induction n generalizing s with
  | zero => exact h
  | succ n ih =>
    unfold serveWaiters
    split
    · exact h
    next w _ =>
      extract_lets _ t before r rep _ u
      have hr : r.2.Canon := performTag_canon (s := t) h
      have hu : u.Canon := canon_ite ⟨Tile.keepResult_canon hr.tile, hr.wafer⟩ hr
      exact ih (State.answer_canon hu)

theorem State.tagChanged_canon {a : ℕ} (h : s.Canon) : (s.tagChanged a).Canon := serveWaiters_canon h

theorem tagHere_canon {kind : BlockKind} {va a : ℕ} {data : W32} {k : ℕ → State → Issue} (h : s.Canon)
    (hk : ∀ (x : ℕ) (t : State), t.Canon → (k x t).Canon) : (tagHere kind va a data s k).Canon :=
  localAccess_canon h (fun _ h1 => canon_ite (hk _ _ (State.tagChanged_canon (performTag_canon h1))) h1)

theorem State.requestTag_canon {kind : BlockKind} {l : TileNo} {va a : ℕ} {data : W32} (h : s.Canon) :
    (s.requestTag kind l va a data).Canon := State.inject_canon (State.await_canon h)

theorem fullEmpty_canon {kind : BlockKind} {isLoad : Bool} {d a : BitVec 5} {w : BitVec 2} {i : BitVec 10}
    (h : s.Canon) : (fullEmpty kind isLoad d a w i s).Canon := by
  unfold fullEmpty
  dsimp only
  refine Issue.result_canon ?_
  refine blocked_canon h ?_ (fun x t h1 => State.skip_canon (canon_ite (State.setReg_canon h1) h1))
  intro t h1
  refine waitW_canon h1 ?_
  intro t1 h2
  refine access_canon h2 ?_
  intro x t2 h3
  split
  · exact tagHere_canon h3 (fun x t3 h4 => State.skip_canon (canon_ite (State.setReg_canon h4) h4))
  · split
    · exact canon_ite h3 (State.requestTag_canon h3)
    · exact h3

theorem performStf_canon {a : ℕ} {data : W32} {known : List AccessId} {ownStore : Bool} (h : s.Canon) :
    (performStf a data known ownStore s).Canon := State.tagChanged_canon (State.writeOwn_canon h)

theorem execStf_canon {d a : BitVec 5} {w : BitVec 2} {i : BitVec 10} (h : s.Canon) : (execStf d a w i s).Canon := by
  unfold execStf
  dsimp only
  refine Issue.result_canon ?_
  refine waitW_canon h ?_
  intro t h1
  refine access_canon h1 ?_
  intro x t1 h2
  split
  · exact localAccess_canon h2 (fun t2 h3 => State.next4_canon (performStf_canon h3))
  · split
    · exact canon_ite h2 (State.next4_canon (State.inject_canon h2))
    · exact h2

theorem Tile.countBy_canon {t : Tile} {a : ℕ} {k : List AccessId} (ht : t.Canon) : (t.countBy a k).Canon := ht

theorem performMark_canon {flag : ℕ} {counter : Bool} {known : List AccessId} {ownStore : Bool} (h : s.Canon) :
    (performMark flag counter known ownStore s).Canon :=
  canon_ite ⟨Tile.countBy_canon ((State.writeOwn_canon h).tile), (State.writeOwn_canon h).wafer⟩
    (State.tagChanged_canon h)

theorem put_canon {n : ℕ} {bytes : List Byte} {counter : Bool} {a b : BitVec 5} (h : s.Canon) :
    (put n bytes counter a b s).Canon := by
  unfold put
  dsimp only
  refine Issue.result_canon ?_
  refine access_canon h ?_
  intro x t h1
  refine access_canon h1 ?_
  intro x1 t1 h2
  split
  · exact canon_ite h2 (localAccess_canon h2 (fun t2 h3 => State.next4_canon (performMark_canon (State.touch_canon
      (State.writeOwn_canon h3)))))
  · split
    · exact canon_ite h2 (canon_ite h2 (State.next4_canon (State.inject_canon h2)))
    · exact h2
  · exact h2

theorem execFence_canon (h : s.Canon) : (execFence s).Canon :=
  Issue.result_canon (waitCounts_canon h (fun _ h1 => State.next4_canon h1))

theorem execRel_canon (h : s.Canon) : (execRel s).Canon :=
  Issue.result_canon (waitCounts_canon h (fun _ h1 => State.next4_canon h1))

theorem execFenceR_canon {a : BitVec 5} (h : s.Canon) : (execFenceR a s).Canon := by
  unfold execFenceR
  dsimp only
  refine Issue.result_canon ?_
  split <;> exact State.next4_canon h

/-! ### Windows -/

theorem frameTargets_canon {vas : List ℕ} {k : List (ℕ × Target) → State → Issue} (h : s.Canon)
    (hk : ∀ (l : List (ℕ × Target)) (t : State), t.Canon → (k l t).Canon) : (frameTargets vas s k).Canon := by
  induction vas generalizing s k with
  | nil => exact hk _ _ h
  | cons va r ih =>
    unfold frameTargets
    refine access_canon h fun x t ht => ?_
    split
    · exact ht
    · exact ih ht fun l u hu => hk _ _ hu

theorem State.answered_canon {va : ℕ} {bytes : List Byte} (h : s.Canon) : (s.answered va bytes).Canon := h

theorem readSpilled_canon {x : ℕ × Target} (h : s.Canon) : (readSpilled s x).Canon := by
  unfold readSpilled
  dsimp only
  split
  · exact State.answered_canon (canon_foldl h (fun b a h1 => State.touch_canon h1))
  · split
    · exact State.answered_canon h
    · exact State.requestLoad_canon h

theorem returns_canon {n : ℕ} {k : State → Issue} (h : s.Canon) (hk : ∀ t : State, t.Canon → (k t).Canon) :
    (returns n s k).Canon := by
  unfold returns
  extract_lets f wsp leave
  have hleave (fs : List Fetch) (t : State) (ht : t.Canon) : (leave fs t).Canon := hk _ (ht.withCore _)
  clear_value leave
  refine canon_ite (hleave _ _ h) (canon_ite h
    (blocked_canon h (fun t ht => frameTargets_canon ht fun l u hu => ?_) hleave))
  extract_lets v
  have hv : v.Canon := canon_foldl hu fun _ _ hz => readSpilled_canon hz
  exact canon_ite hu (canon_ite (hleave _ _ (hv.withCore _)) hv)

theorem execRet_canon (h : s.Canon) : (execRet s).Canon :=
  Issue.result_canon (outsideTrapWindow_canon h (canon_ite h (canon_ite h (returns_canon h (fun _ h1 =>
    State.jumpTo_canon h1)))))

/-! ### Accumulate -/

theorem State.sendAcc_canon {q : AccReq} (h : s.Canon) : (s.sendAcc q).Canon := State.inject_canon h

theorem State.flushRow_canon {k : ℕ} {r : Row} (h : s.Canon) : (s.flushRow k r).Canon :=
  State.sendAcc_canon ⟨h.tile, h.wafer⟩

theorem drainRows_canon {l : List (BitVec 5)} (h : s.Canon) : (drainRows l s).2.Canon := by
  induction l generalizing s with
  | nil => exact h
  | cons k r ih =>
    unfold drainRows
    split
    · exact ih h
    · split
      · exact ih h
      · split
        · exact ih (State.flushRow_canon h)
        · exact h

theorem drainEvents_canon {l : List (List (BitVec 5))} (h : s.Canon) : (drainEvents l s).2.Canon := by
  induction l generalizing s with
  | nil => exact h
  | cons k r ih => exact ih (drainRows_canon h)

theorem State.drain_canon (h : s.Canon) : s.drain.Canon := by
  unfold State.drain
  extract_lets _ _ x
  have hx : x.2.Canon := drainEvents_canon h
  exact ⟨hx.tile, hx.wafer⟩

theorem State.flushRows_canon {sel : Row → Bool} (h : s.Canon) : (s.flushRows sel).Canon := State.drain_canon h

theorem State.flushAll_canon (h : s.Canon) : s.flushAll.Canon := State.drain_canon h

theorem accHere_canon {op : AccOp} {a : ℕ} {va y : Word} (h : s.Canon) : (accHere op a va y s).Canon := by
  unfold accHere
  dsimp only
  split
  · split
    · split <;> exact h
    · exact State.inject_canon ⟨canon_ite h.tile h.tile, h.wafer⟩
  · exact State.writeOwn_canon h

theorem accFar_canon {op : AccOp} {p : Place} {va y : Word} (h : s.Canon) : (accFar op p va y s).Canon := by
  unfold accFar
  dsimp only
  split
  · exact State.sendAcc_canon h
  · split
    · exact State.sendAcc_canon ⟨h.tile, h.wafer⟩
    · exact State.sendAcc_canon h

theorem accAt_canon {op : AccOp} {t : Target} {va : ℕ} {y : Word} {k : State → Issue} (h : s.Canon)
    (hk : ∀ (t : State), t.Canon → (k t).Canon) : (accAt op t va y s k).Canon := by
  unfold accAt
  extract_lets v stalled
  split
  · exact canon_ite h (localAccess_canon h (fun t h1 => hk _ (accHere_canon h1)))
  · split
    · exact canon_ite h (hk _ (accFar_canon h))
    · exact canon_ite h (hk _ (accFar_canon h))
    · exact h

theorem accumulate_canon {op : AccOp} {d a : BitVec 5} {w : BitVec 2} {i : BitVec 10} (h : s.Canon) :
    (accumulate op d a w i s).Canon :=
  Issue.result_canon (waitW_canon h (fun _ h1 => access_canon h1 (fun _ _ h2 => accAt_canon h2 (fun _ h3 =>
    State.next4_canon h3))))

theorem execWaitc_canon {c : BitVec 3} (h : s.Canon) : (execWaitc c s).Canon := by
  unfold execWaitc
  dsimp only
  refine Issue.result_canon ?_
  split
  · exact waitCounts_canon h (fun t h1 => State.next4_canon h1)
  · exact canon_ite (waitCounts_canon ⟨(canon_ite h (State.flushRows_canon h)).tile, (canon_ite h
      (State.flushRows_canon h)).wafer⟩ (fun t h1 => State.next4_canon h1)) ⟨(canon_ite h (State.flushRows_canon
      h)).tile, (canon_ite h (State.flushRows_canon h)).wafer⟩

theorem amoHere_canon {func a : ℕ} {operand cmp : Word} (h : s.Canon) : (amoHere func a operand cmp s).2.2.Canon :=
  State.writeOwn_canon h

theorem amoFinish_canon {d : BitVec 5} {old : Word} {f : BitVec 5} (h : s.Canon) : (amoFinish d old f s).Canon :=
  State.next4_canon h

theorem atomic_canon {func : ℕ} {d a b : BitVec 5} (h : s.Canon) : (atomic func d a b s).Canon := by
  unfold atomic
  dsimp only
  refine Issue.result_canon ?_
  refine blocked_canon h ?_ (fun x t h1 => amoFinish_canon h1)
  intro t h1
  refine access_canon h1 ?_
  intro x t1 h2
  split
  · exact localAccess_canon h2 (fun t2 h3 => amoFinish_canon (amoHere_canon h3))
  · split
    · exact canon_ite h2 (State.inject_canon (State.await_canon h2))
    · exact canon_ite h2 (State.inject_canon (State.await_canon h2))
    · exact h2

/-! ### CReg -/

theorem writePtbase_canon {v : Word} (h : s.Canon) : (writePtbase v s).Canon := h

theorem writeSrseed_canon {v : Word} (h : s.Canon) : (writeSrseed v s).Canon := h

theorem writeAccmode_canon {v : Word} {k : State → Issue} (h : s.Canon) (hk : ∀ t : State, t.Canon → (k t).Canon) :
    (writeAccmode v s k).Canon := by
  unfold writeAccmode
  extract_lets t
  have ht : t.Canon := State.flushAll_canon h
  clear_value t
  exact canon_ite (hk _ (ht.withCore _)) ht

theorem releaseWaiters_canon {c : BitVec 3} {sel : ℕ → Bool} {status : BitVec 1} {known : List AccessId}
    (h : s.Canon) : (releaseWaiters c sel status known s).Canon :=
  h

theorem writeEvc_canon {c : BitVec 3} {v : Word} (h : s.Canon) : (writeEvc c v s).Canon := by
  unfold writeEvc
  extract_lets old value ovf w t _ u x
  have ht : t.Canon := State.touchEvc_canon h
  have hu : u.Canon := ht.withTile rfl rfl
  have hx : x.Canon := canon_ite hu (State.updCores_canon hu)
  exact canon_ite (releaseWaiters_canon hx) hx

theorem clearErrorRecord_canon (h : s.Canon) : (clearErrorRecord s).Canon := canon_ite h h

theorem writePointsEntry_canon {v : Word} (h : s.Canon) : (writePointsEntry v s).Canon := canon_ite (canon_ite h h) h

theorem unlistedOp_canon {op : BitVec 4} (h : s.Canon) : (unlistedOp op s).Canon := h

theorem writePla1_canon {v : Word} (h : s.Canon) : (writePla1 v s).Canon :=
  canon_ite (canon_ite h (unlistedOp_canon h)) h

theorem State.cregStore_canon {n : ℕ} {v : Word} (h : s.Canon) : (s.cregStore n v).Canon := by
  fun_cases State.cregStore
  case case3 => exact writeSrseed_canon h
  case case18 => exact writePtbase_canon h
  case case19 => exact writePla1_canon h
  case case20 | case22 | case23 => exact h.withJunction _
  case case25 => exact writePointsEntry_canon h
  case case26 | case32 => exact h.withTile rfl rfl
  case case28 => exact clearErrorRecord_canon h
  case case31 => exact writeEvc_canon h
  case case21 | case24 | case29 | case33 => exact h
  all_goals exact h.withCore _

theorem cregAccessChecked_canon {word : Word} {n : ℕ} {may : CAccess → Bool} {unknown k : Issue} (h : s.Canon)
    (hunknown : unknown.Canon) (hk : k.Canon) : (cregAccessChecked word n may s unknown k).Canon := by
  unfold cregAccessChecked
  split
  · exact canon_ite hunknown h
  · exact canon_ite hk h

theorem execMfc_canon {x : BitVec 5} {c : BitVec 12} (h : s.Canon) : (execMfc x c s).Canon := by
  unfold execMfc
  dsimp only
  refine Issue.result_canon ?_
  refine cregAccessChecked_canon h (State.next4_canon (State.setReg_canon h)) ?_
  split
  · exact h
  · split
    · split
      · exact State.next4_canon (State.setReg_canon ((State.record_canon h).of_eq ‹_›))
      · exact h
    · exact canon_ite (canon_ite (State.next4_canon (State.setReg_canon (State.touchEvc_canon h))) h)
        (State.next4_canon (State.setReg_canon h))

theorem execMtc_canon {x : BitVec 5} {c : BitVec 12} (h : s.Canon) : (execMtc x c s).Canon :=
  Issue.result_canon (cregAccessChecked_canon h (State.next4_canon h) (canon_ite h (canon_ite (writeAccmode_canon h
    (fun _ h1 => State.next4_canon h1)) (canon_ite h (State.next4_canon (State.cregStore_canon h))))))

theorem execAccmodeWrite_canon {v : Word} (h : s.Canon) : Result.Canon (execAccmodeWrite v s) := by
  have hw : (writeAccmode v s Issue.wait).Canon := writeAccmode_canon h fun _ ht => ht
  unfold execAccmodeWrite
  split
  next t e => exact Issue.Canon.of_wait hw e
  · exact Issue.result_canon hw

/-! ### Errors -/

theorem State.postError_canon {unit : ℕ} {e : ErrRec} {written : Bool} (h : s.Canon) :
    (s.postError unit e written).Canon := canon_ite h h

theorem State.tileError_canon {e : ErrRec} (h : s.Canon) : (s.tileError e).Canon := State.postError_canon h

theorem State.junctionError_canon {e : ErrRec} (h : s.Canon) : (s.junctionError e).Canon := State.postError_canon h

theorem State.machineCheck_canon {inj : Bool} {err : ErrorReport} (h : s.Canon) : (s.machineCheck inj err).Canon :=
  ⟨⟨((State.tileError_canon h).tile).mem, ((State.tileError_canon h).tile).box⟩, (State.tileError_canon h).wafer⟩

/-! ### Engine -/

theorem observe_canon {e : EngineKind} {seq : BitVec 16} {k : State → Issue} (h : s.Canon)
    (hk : ∀ (t : State), t.Canon → (k t).Canon) : (observe e seq s k).Canon :=
  canon_ite h (hk _ h)

theorem awaitTicket_canon {e : EngineKind} {poll : Bool} {d a : BitVec 5} (h : s.Canon) :
    (awaitTicket e poll d a s).Canon := by
  unfold awaitTicket
  extract_lets t give seq x
  have hgive (n : Word) (u : State) (hu : u.Canon) : (give n u).Canon := State.next4_canon (State.setReg_canon hu)
  clear_value give
  exact Issue.result_canon (canon_ite (hgive _ _ h) (canon_ite (hgive _ _ h) (canon_ite (canon_ite (hgive _ _ h) h)
    (canon_ite (hgive _ _ h) (observe_canon h (hgive 0))))))

theorem State.noteCompletion_canon {num : ℕ} {slot : List Byte} (h : s.Canon) :
    (s.noteCompletion num slot).Canon := by
  unfold State.noteCompletion
  dsimp only
  split
  · exact State.noteDet_canon h
  · exact h

theorem State.noteInjection_canon {num : ℕ} {v : Word} (h : s.Canon) : (s.noteInjection num v).Canon :=
  canon_ite (State.noteDet_canon h) h

theorem State.postFault_canon {t va : Word} {write : Bool} {cause : BitVec 4} (h : s.Canon) :
    (s.postFault t va write cause).Canon := h

/-! ### Operands -/

theorem checkTags_canon {ops : List Tag} {allow : Tag → Bool} {k : Tag → Issue} (h : s.Canon)
    (hk : ∀ (x : Tag), (k x).Canon) : (checkTags ops allow s k).Canon := by
  unfold checkTags
  split
  · exact hk _
  · split
    · exact h
    · split
      · exact h
      · exact hk _

/-! ### Matrix -/

theorem queueCard_canon {k : TileCard} {fin : State → Issue} (h : s.Canon)
    (hfin : ∀ (t : State), t.Canon → (fin t).Canon) : (queueCard k s fin).Canon :=
  canon_ite h (hfin _ h)

theorem queueTicketed_canon {t : BitVec 5} {k : TileCard} (h : s.Canon) : (queueTicketed t k s).Canon :=
  canon_ite h (queueCard_canon h (fun _ h1 => State.next4_canon (State.setReg_canon h1)))

theorem tileMove_canon {isLoad : Bool} {word : Word} {m : BitVec 3} {b r x t : BitVec 5} (h : s.Canon) :
    (tileMove isLoad word m b r x t s).Canon := by
  unfold tileMove
  refine Issue.result_canon ?_
  split
  · exact h
  · refine canon_ite h (canon_ite h ?_)
    split
    · exact h
    · extract_lets k
      have hk : (queueTicketed t k s).Canon := queueTicketed_canon h
      split
      next u hu => exact canon_ite ⟨(hk.of_done hu).tile, (hk.of_done hu).wafer⟩ (hk.of_done hu)
      · exact hk

theorem multiply_canon {zero neg : Bool} {word : Word} {c a b : BitVec 3} {t : BitVec 5} (h : s.Canon) :
    (multiply zero neg word c a b t s).Canon := by
  unfold multiply
  refine Issue.result_canon (canon_ite h (canon_ite h (canon_ite h (canon_ite h ?_))))
  extract_lets p k
  have hk : (queueTicketed t k s).Canon := queueTicketed_canon h
  split
  next u hu => exact ⟨(hk.of_done hu).tile, (hk.of_done hu).wafer⟩
  · exact hk

theorem housekeeping_canon {k : TileCard} {d : BitVec 3} {t : Tag} (h : s.Canon) : (housekeeping k d t s).Canon :=
  queueCard_canon h (fun _ h1 => State.next4_canon h1)

theorem execTzero_canon {d : BitVec 3} (h : s.Canon) : (execTzero d s).Canon := by
  unfold execTzero
  refine Issue.result_canon ?_
  split
  · exact h
  · exact housekeeping_canon h

theorem execTtr_canon {d a : BitVec 3} (h : s.Canon) : (execTtr d a s).Canon :=
  Issue.result_canon (checkTags_canon h (fun _ => housekeeping_canon h))

theorem execTcvt_canon {d a : BitVec 3} (h : s.Canon) : (execTcvt d a s).Canon := by
  unfold execTcvt
  dsimp only
  refine Issue.result_canon ?_
  split
  · exact h
  · exact canon_ite h (checkTags_canon h (fun x => queueCard_canon h (fun t h1 => State.next4_canon h1)))

theorem execTadd_canon {d a b : BitVec 3} (h : s.Canon) : (execTadd d a b s).Canon :=
  Issue.result_canon (checkTags_canon h (fun _ => housekeeping_canon h))

theorem execTrowv_canon {a : BitVec 3} {x v : BitVec 5} (h : s.Canon) : (execTrowv a x v s).Canon :=
  Issue.result_canon (queueCard_canon h (fun _ h1 => State.next4_canon h1))

theorem execTvrow_canon {d : BitVec 3} {x v : BitVec 5} (h : s.Canon) : (execTvrow d x v s).Canon :=
  Issue.result_canon (checkTags_canon h (fun _ => queueCard_canon h (fun _ h1 => State.next4_canon h1)))

theorem visitSlots_canon {l : List (BitVec 16)} {n : ℕ} {k : ℕ → State → Issue} (h : s.Canon)
    (hk : ∀ (x : ℕ) (t : State), t.Canon → (k x t).Canon) : (visitSlots l n s k).Canon := by
  induction l generalizing s n with
  | nil => exact hk _ _ h
  | cons q r ih =>
    unfold visitSlots
    exact canon_ite (observe_canon h fun t ht => ih ht) (ih h)

theorem execTwaitall_canon {d : BitVec 5} (h : s.Canon) : (execTwaitall d s).Canon :=
  Issue.result_canon (canon_ite (visitSlots_canon h (fun _ _ h1 => State.next4_canon (State.setReg_canon h1))) h)

theorem execTileJobStart_canon {site : SiteId} {core : CoreId} (h : s.Canon) :
    (execTileJobStart site core s).Canon := by
  unfold execTileJobStart
  dsimp only
  split
  · exact canon_ite ⟨(State.focus_canon h).tile, (State.focus_canon h).wafer⟩ (State.focus_canon h)
  · exact State.focus_canon h

theorem endFaulted_canon {k : TileCard} {cause : BitVec 4} {va : Word} (h : s.Canon) :
    (endFaulted k cause va s).Canon := State.noteCompletion_canon h

theorem parkCard_canon {k : TileCard} {va : ℕ} {write : Bool} {cause : ℕ} (h : s.Canon) :
    (parkCard k va write cause s).Canon := h

theorem haltCard_canon {k : TileCard} {why : BitVec 4 × Word} (h : s.Canon) : (haltCard k why s).Canon := h

theorem loadPart_canon {k : TileCard} {r : ℕ} {x : ℕ × ℕ × ℕ × Target} (h : s.Canon) : (loadPart k r s x).Canon := by
  unfold loadPart
  dsimp only
  split
  · exact ⟨canon_foldl ((canon_foldl h (fun b a h1 => State.touch_canon h1)).tile) (fun b a h1 => Tile.noteLine_canon
      h1), (canon_foldl h (fun b a h1 => State.touch_canon h1)).wafer⟩
  · exact State.inject_canon h

theorem storePart_canon {k : TileCard} {r : ℕ} {x : ℕ × ℕ × ℕ × Target} (h : s.Canon) :
    (storePart k r s x).Canon := by
  unfold storePart
  dsimp only
  split
  · exact State.writeOwn_canon ⟨canon_foldl ((canon_foldl h (fun b a h1 => State.touch_canon h1)).tile) (fun b a h1 =>
      Tile.noteLine_canon h1), (canon_foldl h (fun b a h1 => State.touch_canon h1)).wafer⟩
  · exact State.inject_canon ⟨Tile.farDrop_canon h.tile, h.wafer⟩

theorem moveRow_canon {k : TileCard} {isLoad : Bool} (h : s.Canon) : (moveRow k isLoad s).Canon := by
  unfold moveRow
  extract_lets r ends
  split
  · exact haltCard_canon h
  · split
    · exact parkCard_canon h
    next l _ =>
      split
      · exact endFaulted_canon h
      · have hload : (l.foldl (loadPart k r) s).Canon := canon_foldl h fun _ _ hz => loadPart_canon hz
        have hstore : (l.foldl (storePart k r) s).Canon := canon_foldl h fun _ _ hz => storePart_canon hz
        refine canon_ite (hload.withCore _) (canon_ite ?_ h)
        split
        · exact haltCard_canon hstore
        · exact hstore.withCore _

theorem execTileJobRow_canon {site : SiteId} {core : CoreId} {card : ℕ} (h : s.Canon) :
    (execTileJobRow site core card s).Canon := by
  unfold execTileJobRow
  dsimp only
  split
  · split
    · split
      · exact canon_ite (moveRow_canon (State.focus_canon h)) (State.focus_canon h)
      · exact moveRow_canon (State.focus_canon h)
      · exact State.focus_canon h
    · exact State.focus_canon h
  · exact State.focus_canon h

theorem endCard_canon {k : TileCard} {flags : FpFlags} (h : s.Canon) : (endCard k flags s).Canon :=
  canon_ite (State.noteCompletion_canon h) h

theorem endLoad_canon {k : TileCard} {m : BitVec 3} (h : s.Canon) : (endLoad k m s).Canon := endCard_canon h

theorem endMultiply_canon {k : TileCard} {c a b : BitVec 3} {zero neg : Bool} (h : s.Canon) :
    (endMultiply k c a b zero neg s).Canon :=
  canon_ite (State.machineCheck_canon h) (State.noteInjection_canon (endCard_canon h))

theorem execTileJobComplete_canon {site : SiteId} {core : CoreId} {card : ℕ} (h : s.Canon) :
    (execTileJobComplete site core card s).Canon := by
  unfold execTileJobComplete
  dsimp only
  split
  · split
    · exact State.focus_canon h
    · split
      · split
        · exact endFaulted_canon (State.focus_canon h)
        · exact State.focus_canon h
      · split
        · exact canon_ite (endLoad_canon (State.focus_canon h)) (State.focus_canon h)
        · exact canon_ite (endCard_canon (State.focus_canon h)) (State.focus_canon h)
        · exact endMultiply_canon (State.focus_canon h)
        · exact endCard_canon ⟨(State.focus_canon h).tile, (State.focus_canon h).wafer⟩
  · exact State.focus_canon h

/-! ### Copy -/

theorem queueJob_canon {t : BitVec 5} {j : CopyJob} (h : s.Canon) : (queueJob t j s).Canon :=
  canon_ite h (State.next4_canon (State.setReg_canon h))

theorem copyJob_canon {kind : CopyKind} {d a : BitVec 5} (h : s.Canon) : (copyJob kind d a s).Canon := by
  unfold copyJob
  dsimp only
  refine Issue.result_canon ?_
  split
  · exact h
  · split
    · exact h
    · refine localAccess_canon h ?_
      intro t h1
      split
      · exact h1
      · split
        · exact h1
        · exact queueJob_canon h1

theorem execCopy_canon {d a : BitVec 5} (h : s.Canon) : (execCopy d a s).Canon := copyJob_canon h

theorem execCopyc_canon {d a : BitVec 5} (h : s.Canon) : (execCopyc d a s).Canon := copyJob_canon h

theorem execMcast_canon {d a : BitVec 5} (h : s.Canon) : (execMcast d a s).Canon := copyJob_canon h

theorem State.setJob_canon {num : ℕ} {f : CopyJob → CopyJob} (h : s.Canon) : (s.setJob num f).Canon := h

theorem haltJob_canon {j : CopyJob} {why : BitVec 4 × Word} (h : s.Canon) : (haltJob j why s).Canon := h

theorem parkJob_canon {j : CopyJob} {va : ℕ} {write : Bool} {cause : ℕ} (h : s.Canon) :
    (parkJob j va write cause s).Canon := h

theorem State.handOver_canon {j : CopyJob} (h : s.Canon) : (s.handOver j).1.Canon := by
  unfold State.handOver
  dsimp only
  split <;> exact h

theorem execCopyJobStart_canon {site : SiteId} {core : CoreId} (h : s.Canon) :
    (execCopyJobStart site core s).Canon := by
  unfold execCopyJobStart
  dsimp only
  split
  · exact State.focus_canon h
  · exact canon_ite (canon_ite (State.focus_canon h) (canon_ite (State.setJob_canon (State.handOver_canon
      (State.focus_canon h))) (State.handOver_canon (State.focus_canon h)))) (canon_ite (State.setJob_canon
      (State.focus_canon h)) (State.focus_canon h))

theorem startChecks_canon {j : CopyJob} (h : s.Canon) : (startChecks j s).Canon := by
  unfold startChecks
  dsimp only
  split
  · exact State.setJob_canon h
  · split
    · split
      · exact haltJob_canon (State.setJob_canon h)
      · exact parkJob_canon (State.setJob_canon h)
      · exact State.setJob_canon (State.setJob_canon h)
      · exact State.setJob_canon (State.setJob_canon h)
    · exact State.setJob_canon (State.setJob_canon h)

theorem State.copyTouch_canon {a n : ℕ} {write : Bool} (h : s.Canon) : (s.copyTouch a n write).Canon :=
  ⟨canon_foldl ((canon_foldl h (fun _ _ h1 => State.touch_canon h1)).tile) (fun _ _ h1 => Tile.noteLine_canon h1),
    (canon_foldl h (fun _ _ h1 => State.touch_canon h1)).wafer⟩

theorem readPiece_canon {j : CopyJob} {x : ℕ × ℕ × Target} (h : s.Canon) : (readPiece j s x).Canon := by
  unfold readPiece
  split
  next a _ =>
    extract_lets t f u
    have hu : u.Canon := State.setJob_canon (State.copyTouch_canon h)
    exact hu
  next p _ => exact State.inject_canon (State.setJob_canon h)

theorem State.chunkError_canon {j : CopyJob} {va : Word} {here there : W32} (h : s.Canon) :
    (s.chunkError j va here there).Canon := State.tileError_canon h

theorem writeOwnPiece_canon {x : ℕ × List Byte} (h : s.Canon) : (writeOwnPiece s x).Canon :=
  State.writeOwn_canon (State.copyTouch_canon h)

theorem setFlagHere_canon {a : ℕ} (h : s.Canon) : (setFlagHere a s).Canon := State.tagChanged_canon h

theorem sendPieces_canon {j : CopyJob} {off : ℕ} {bytes : List Byte} {first : ℕ} {g : List (ℕ × ℕ × Target)}
    (h : s.Canon) : (sendPieces j off bytes first s g).Canon := by
  unfold sendPieces
  dsimp only
  split
  · exact State.inject_canon h
  · exact canon_ite (canon_foldl h (fun b a h1 => writeOwnPiece_canon h1)) (State.setJob_canon (State.chunkError_canon
      (canon_foldl h (fun b a h1 => writeOwnPiece_canon h1))))

theorem chunkDone_canon {num : ℕ} (h : s.Canon) : (chunkDone num s).Canon := h

theorem deliver_canon {j : CopyJob} {dsts : List (ℕ × ℕ × Target)} (h : s.Canon) : (deliver j dsts s).Canon :=
  canon_ite (State.setJob_canon h) (canon_ite h (chunkDone_canon ⟨(canon_foldl (State.setJob_canon h) (fun _ _ h1 =>
    sendPieces_canon h1)).tile, (canon_foldl (State.setJob_canon h) (fun _ _ h1 => sendPieces_canon h1)).wafer⟩))

theorem chunkTurn_canon {j : CopyJob} (h : s.Canon) : (chunkTurn j s).Canon := by
  unfold chunkTurn
  dsimp only
  split
  · exact haltJob_canon h
  · split
    · exact parkJob_canon h
    · exact parkJob_canon h
    next srcs dsts _ _ =>
      split
      · refine canon_ite (State.setJob_canon h) ?_
        have ht : (srcs.foldl (readPiece j) s).Canon := canon_foldl h fun _ _ hz => readPiece_canon hz
        split
        · exact canon_ite (deliver_canon ht) ht
        · exact ht
      · exact canon_ite (deliver_canon h) h

theorem execCopyChunk_canon {site : SiteId} {core : CoreId} {card : ℕ} (h : s.Canon) :
    (execCopyChunk site core card s).Canon := by
  unfold execCopyChunk
  dsimp only
  split
  · exact canon_ite (State.focus_canon h) (canon_ite (canon_ite (State.focus_canon h) (startChecks_canon
      (State.focus_canon h))) (canon_ite (chunkTurn_canon (State.focus_canon h)) (State.focus_canon h)))
  · exact State.focus_canon h

theorem endJob_canon {j : CopyJob} {k : BitVec 4} (h : s.Canon) : (endJob j k s).Canon :=
  State.noteInjection_canon (State.noteCompletion_canon ⟨(State.writeOwn_canon (State.touch_canon h)).tile,
    (State.writeOwn_canon (State.touch_canon h)).wafer⟩)

theorem sendFlag_canon {j : CopyJob} {f : TileNo × ℕ} (h : s.Canon) : (sendFlag j s f).Canon :=
  canon_ite (setFlagHere_canon h) (State.inject_canon (State.setJob_canon h))

theorem finishJob_canon {j : CopyJob} (h : s.Canon) : (finishJob j s).Canon :=
  canon_ite (endJob_canon h) (canon_ite (canon_ite (endJob_canon (canon_foldl (State.setJob_canon h) (fun _ _ h1 =>
    sendFlag_canon h1))) (canon_foldl (State.setJob_canon h) (fun _ _ h1 => sendFlag_canon h1))) (endJob_canon h))

theorem execCopyJobEnd_canon {site : SiteId} {core : CoreId} {card : ℕ} (h : s.Canon) :
    (execCopyJobEnd site core card s).Canon := by
  unfold execCopyJobEnd
  dsimp only
  split
  · split
    · exact State.focus_canon h
    · split
      · exact endJob_canon (State.focus_canon h)
      · exact canon_ite (finishJob_canon (State.focus_canon h)) (State.focus_canon h)
  · exact State.focus_canon h

/-! ### Flows -/

theorem Box.setWord_canon {b : Box} {f : BitVec 6} {o : ℕ} {v : W32} (hb : b.Canon) : (b.setWord f o v).Canon :=
  ⟨writeCells_wf _ hb.table, hb.store, hb.mem⟩

/-! ### Packets -/

theorem State.focusSite_canon {x : SiteId} (h : s.Canon) : (s.focusSite x).Canon := canon_ite h (State.focus_canon h)

theorem State.atSite_canon {x : SiteId} {f : State → State} (h : s.Canon)
    (hf : ∀ (t : State), t.Canon → (f t).Canon) : (s.atSite x f).Canon :=
  State.focus_canon (hf _ (State.focusSite_canon h))

theorem State.atSites_canon {f : State → State} {l : List SiteId} (h : s.Canon)
    (hf : ∀ t : State, t.Canon → (f t).Canon) : (s.atSites f l).Canon := by
  induction l generalizing s with
  | nil => exact h
  | cons x r ih => exact ih (State.atSite_canon h hf)

theorem State.rimSend_canon {x : SiteId} {line : Line} {d : Dest} {m : Msg} (h : s.Canon) :
    (s.rimSend x line d m).Canon := h

theorem State.sendAs_canon {rim : Option SiteId} {line : Line} {d : Dest} {m : Msg} (h : s.Canon) :
    (s.sendAs rim line d m).Canon := by
  unfold State.sendAs
  split
  · exact State.rimSend_canon h
  · exact State.inject_canon h

theorem State.ackTo_canon {rim : Option SiteId} {r : Req} {failed : Option (ℕ × Word)} {flush : Bool} (h : s.Canon) :
    (s.ackTo rim r failed flush).Canon := State.sendAs_canon h

theorem Waybill.keepPacket_canon {b : Waybill} {epoch : BitVec 16} {p : Packet} {entry : List Byte} (hb : b.Canon) :
    (b.keepPacket epoch p entry).Canon := hb

theorem State.recordChannel_canon {p : Packet} (h : s.Canon) : (s.recordChannel p).Canon := by
  unfold State.recordChannel
  split
  · split
    · refine ⟨h.tile, writeCells_wf _ h.wafer.hbm, h.wafer.host, h.wafer.peer, h.wafer.sites, ?_, h.wafer.healing.away⟩
      exact List.forall_mem_map.mpr fun b hb =>
        canon_ite (Waybill.keepPacket_canon (h.wafer.healing.waybills b hb)) (h.wafer.healing.waybills b hb)
    · exact h
  · exact h

theorem State.asking_canon {first : ℕ} {m : Msg} (h : s.Canon) : (s.asking first m).Canon := canon_ite h h

theorem State.take_canon {id : ℕ} {k : Packet → State → Option State} (h : s.Canon)
    (hk : ∀ (x : Packet) (t : State), t.Canon → OnSome State.Canon (k x t)) : (s.take id k).Canon := by
  unfold State.take
  dsimp only
  split
  · exact h
  · split
    · exact h
    · split
      · split
        · exact h
        · split
          · exact (hk _ _ (State.dropPacket_canon h)).of_eq ‹_›
          · exact h
      · split
        · split
          · exact State.asking_canon ((hk _ _ (State.recordChannel_canon (State.dropPacket_canon
              (State.focusSite_canon h)))).of_eq ‹_›)
          · exact h
        · exact h

theorem Tile.markOseq_canon {t : Tile} {r : Req} (ht : t.Canon) : (t.markOseq r).Canon := ht

theorem State.setRimMarks_canon {c : ℕ} {l : List Mark} (h : s.Canon) : (s.setRimMarks c l).Canon := h

theorem State.rimOnce_canon {p : Packet} {r : Req} {again k : State → State} (h : s.Canon)
    (hagain : ∀ (t : State), t.Canon → (again t).Canon) (hk : ∀ (t : State), t.Canon → (k t).Canon) :
    OnSome State.Canon (s.rimOnce p r again k) := by
  unfold State.rimOnce
  dsimp only
  split
  · exact canon_ite (hagain _ h) (canon_ite trivial (hk _ (State.setRimMarks_canon h)))
  · exact hk _ h

theorem State.noteInput_canon {kind : DetKind} {core : CoreId} {slice : BitVec 3} {pos : ℕ} {src : CoreRef}
    {jt : TileNo} {seq : W32} {payload : List Byte} {p : Packet} {places : List ℕ} {runs : Option ℕ} (h : s.Canon) :
    (s.noteInput kind core slice pos src jt seq payload p places runs).Canon := canon_ite h (State.noteDet_canon h)

theorem State.noteWrite_canon {r : Req} {a : ℕ} {payload : List Byte} {p : Packet} {runs : Option ℕ} (h : s.Canon) :
    (s.noteWrite r a payload p runs).Canon := State.noteInput_canon h

theorem State.controllerError_canon {c : ℕ} {e : ErrRec} (h : s.Canon) : (s.controllerError c e).Canon :=
  State.postError_canon h

theorem State.poisonPage_canon {job : BitVec 6} {src : CoreRef} {va : Word} {b : BadSector} (h : s.Canon) :
    (State.poisonPage job src va s b).Canon := by
  unfold State.poisonPage
  extract_lets page s1 f rim __src
  have hs1 : s1.Canon := State.controllerError_canon h
  have h__src : __src.Canon := hs1.wafer
  exact hs1

theorem State.undelivered_canon {sp : Space} {l : List ℕ} {job : BitVec 6} {src : CoreRef} {va : Word} (h : s.Canon) :
    OnSome State.Canon (s.undelivered sp l job src va) :=
  canon_ite (canon_foldl h (fun _ _ h1 => State.poisonPage_canon h1)) trivial

theorem Wafer.put_canon {w : Wafer} {sp : Space} {job : BitVec 6} {epoch : Bool} {cells : List Host.Cell}
    (hw : w.Canon) : (w.put sp job epoch cells).Canon := by
  unfold Wafer.put
  dsimp only
  split
  · exact ⟨writeCells_wf _ hw.hbm, hw.host, hw.peer, hw.sites, hw.healing⟩
  · exact ⟨hw.hbm, writeCells_wf _ hw.host, hw.peer, hw.sites, hw.healing⟩
  · exact ⟨hw.hbm, hw.host, writeCells_wf _ hw.peer, hw.sites, hw.healing⟩
  · exact hw

theorem State.countAccess_canon {unit side a : ℕ} {origin : SiteId} {job : BitVec 6} (h : s.Canon) :
    (s.countAccess unit side a origin job).Canon := canon_ite h (canon_ite h h)

theorem State.countSpace_canon {origin : SiteId} {sp : Space} {a : ℕ} {job : BitVec 6} (h : s.Canon) :
    (s.countSpace origin sp a job).Canon := by
  unfold State.countSpace
  dsimp only
  split
  · exact State.countAccess_canon h
  · exact State.countAccess_canon h
  · exact h

theorem State.countFor_canon {p : Packet} {sp : Space} {a : ℕ} {job : BitVec 6} (h : s.Canon) :
    (s.countFor p sp a job).Canon := State.countSpace_canon h

/-! ### VectorMem -/

theorem State.touchOwn_canon {es : List (Element × Target)} {write : Bool} (h : s.Canon) :
    (s.touchOwn es write).Canon :=
  canon_ite h ⟨canon_foldl ((canon_foldl h (fun _ _ h1 => State.touch_canon h1)).tile) (fun _ _ h1 =>
    Tile.noteLine_canon h1), (canon_foldl h (fun _ _ h1 => State.touch_canon h1)).wafer⟩

theorem State.pendNow_canon {va : ℕ} {rep : Reply} (h : s.Canon) : (s.pendNow va rep).Canon := h

theorem State.fetchLine_canon {e : Element} {t : Target} (h : s.Canon) : (s.fetchLine e t).Canon := by
  unfold State.fetchLine
  split
  · exact State.pendNow_canon h
  · split
    · exact State.pendNow_canon h
    · exact State.requestLoad_canon h

theorem askLines_canon {ts : List (Element × Target)} {last : State → State} {finish : List Fetch → State → Issue}
    (hlast : ∀ t : State, t.Canon → (last t).Canon)
    (hfinish : ∀ (x : List Fetch) (t : State), t.Canon → (finish x t).Canon) (h : s.Canon) :
    (askLines ts last finish s).Canon := by
  unfold askLines
  extract_lets t u
  have ht : t.Canon := State.touchOwn_canon h
  have hu : u.Canon := hlast _ (canon_foldl ht fun _ _ hz => State.fetchLine_canon hz)
  exact canon_ite h (canon_ite (hfinish _ _ (hu.withCore _)) hu)

theorem vectorLoad_canon {w : BitVec 2} {es : List Element} {write : List Fetch → State → State}
    (hwrite : ∀ (x : List Fetch) (t : State), t.Canon → (write x t).Canon) (h : s.Canon) :
    (vectorLoad w es write s).Canon := by
  unfold vectorLoad
  dsimp only
  refine blocked_canon h ?_ ?_
  · intro t h1
    refine waitW_canon h1 ?_
    intro t1 h2
    split
    · exact State.startWalk_canon h2
    · split
      · exact h2
      · refine askLines_canon (fun t2 h3 => State.pendNow_canon h3) ?_ h2
        intro x t2 h3
        split
        · exact h3
        · exact State.next4_canon (hwrite _ _ h3)
    · refine askLines_canon (fun t2 h3 => h3) ?_ h2
      intro x t2 h3
      split
      · exact h3
      · exact State.next4_canon (hwrite _ _ h3)
  · intro x t h1
    split
    · exact h1
    · exact State.next4_canon (hwrite _ _ h1)

theorem State.setLoaded_canon {v : BitVec 5} {t : Tag} {es : List Element} {fs : List Fetch} (h : s.Canon) :
    (s.setLoaded v t es fs).Canon := h

theorem withTag_canon {t : BitVec 5} {allowed : Tag → Bool} {word : Word} {k : Tag → Issue} (h : s.Canon)
    (hk : ∀ (x : Tag), (k x).Canon) : (withTag t allowed word s k).Canon := by
  unfold withTag
  split
  · exact canon_ite (hk _) h
  · exact h

theorem execVld_canon {v a : BitVec 5} {p : BitVec 3} {n : BitVec 1} {w : BitVec 2} {t : BitVec 5} (h : s.Canon) :
    (execVld v a p n w t s).Canon :=
  Issue.result_canon (withTag_canon h (fun _ => checkTags_canon h (fun _ => vectorLoad_canon (fun _ _ h1 =>
    State.setLoaded_canon h1) h)))

theorem execVlds_canon {v a k : BitVec 5} {w : BitVec 2} {t : BitVec 5} (h : s.Canon) :
    (execVlds v a k w t s).Canon :=
  Issue.result_canon (withTag_canon h (fun _ => vectorLoad_canon (fun _ _ h1 => State.setLoaded_canon h1) h))

theorem execVldq_canon {v a k : BitVec 5} {w : BitVec 2} (h : s.Canon) : (execVldq v a k w s).Canon :=
  Issue.result_canon (vectorLoad_canon (fun _ _ h1 => h1) h)

theorem vectorStore_canon {w : BitVec 2} {es : List Element} {value : Element → ℕ} {listed : Bool} (h : s.Canon) :
    (vectorStore w es value listed s).Canon := by
  unfold vectorStore
  dsimp only
  refine waitW_canon h ?_
  intro t h1
  split
  · exact State.startWalk_canon h1
  · exact h1
  · exact canon_ite h1 (State.next4_canon (canon_foldl (canon_ite (State.touchOwn_canon h1) (State.writeOwn_canon
      (State.touchOwn_canon h1))) (fun b a h2 => State.postStore_canon h2)))

theorem storeTag_canon {x : Tag} {v : BitVec 5} {k : Issue} (h : s.Canon) (hk : k.Canon) : (storeTag x v s k).Canon :=
  canon_ite hk (checkTags_canon h (fun _ => hk))

theorem execVst_canon {v a : BitVec 5} {p : BitVec 3} {n : BitVec 1} {w : BitVec 2} {t : BitVec 5} (h : s.Canon) :
    (execVst v a p n w t s).Canon :=
  Issue.result_canon (withTag_canon h (fun _ => storeTag_canon h (vectorStore_canon h)))

theorem execVsts_canon {v a k : BitVec 5} {w : BitVec 2} {t : BitVec 5} (h : s.Canon) :
    (execVsts v a k w t s).Canon :=
  Issue.result_canon (withTag_canon h (fun _ => storeTag_canon h (vectorStore_canon h)))

theorem execVstq_canon {v a k : BitVec 5} {w : BitVec 2} (h : s.Canon) : (execVstq v a k w s).Canon :=
  Issue.result_canon (checkTags_canon h (fun _ => vectorStore_canon h))

theorem State.setLaneAt_canon {i : ℕ} (h : s.Canon) : (s.setLaneAt i).Canon := h

theorem laneLoop_canon {body : ℕ → State → (State → Issue) → Issue} {fin : State → Issue} {n : ℕ}
    (hbody : ∀ (n : ℕ) (t : State), t.Canon → ∀ k : State → Issue, (∀ u : State, u.Canon → (k u).Canon) →
      (body n t k).Canon) (hfin : ∀ t : State, t.Canon → (fin t).Canon) (h : s.Canon) :
    (laneLoop body fin n s).Canon := by
  induction n generalizing s with
  | zero => exact hfin s h
  | succ n ih => exact hbody _ _ (State.setLaneAt_canon h) _ fun t ht => ih ht

theorem lanes_canon {body : ℕ → State → (State → Issue) → Issue} {fin : State → Issue}
    (hbody : ∀ (n : ℕ) (t : State), t.Canon → ∀ k : State → Issue, (∀ u : State, u.Canon → (k u).Canon) →
      (body n t k).Canon) (hfin : ∀ t : State, t.Canon → (fin t).Canon) (h : s.Canon) :
    (lanes body fin s).Canon := laneLoop_canon hbody hfin h

theorem afterReplies_canon {i : Issue} (h : s.Canon) (hi : i.Canon) : (afterReplies s i).Canon := by
  unfold afterReplies
  split
  · exact canon_ite hi h
  · exact hi

theorem State.setGathered_canon {v : BitVec 5} {i x : ℕ} (h : s.Canon) : (s.setGathered v i x).Canon := h

theorem gatherLane_canon {v a o : BitVec 5} {i : ℕ} {k : State → Issue} (h : s.Canon)
    (hk : ∀ (t : State), t.Canon → (k t).Canon) : (gatherLane v a o i s k).Canon := by
  unfold gatherLane
  dsimp only
  refine afterReplies_canon h ?_
  refine access_canon h ?_
  intro x t h1
  split
  · exact localAccess_canon h1 (fun t1 h2 => hk _ (State.setGathered_canon h2))
  · split
    · exact h1
    · split
      · exact h1
      · split
        · exact hk _ (State.setGathered_canon h1)
        · exact hk _ (State.requestLoad_canon h1)

theorem State.gathered_canon {v : BitVec 5} {fs : List Fetch} {k : State → Issue} (h : s.Canon)
    (hk : ∀ t : State, t.Canon → (k t).Canon) : (s.gathered v fs k).Canon := by
  unfold State.gathered
  extract_lets failed upTo t u
  have ht : t.Canon := canon_foldl h fun _ _ hz => State.setGathered_canon hz
  have hu : u.Canon := ht.withCore _
  clear_value u failed
  split
  · exact State.setLaneAt_canon hu
  · exact hk _ hu

theorem gatherOn_canon {v a o : BitVec 5} (h : s.Canon) : (gatherOn v a o s).Canon :=
  lanes_canon (fun _ _ h1 _ h2 => gatherLane_canon h1 h2) (fun _ h1 => canon_ite (State.next4_canon
    (State.setLaneAt_canon h1)) (State.setLaneAt_canon h1)) h

theorem State.tagGathered_canon {v : BitVec 5} {t : Tag} (h : s.Canon) : (s.tagGathered v t).Canon := h

theorem execVgth_canon {v a o : BitVec 5} {w : BitVec 2} {t : BitVec 5} (h : s.Canon) :
    (execVgth v a o w t s).Canon :=
  Issue.result_canon (withTag_canon h (fun _ => canon_ite h (canon_ite (State.gathered_canon h (fun _ h1 =>
    gatherOn_canon (State.setLaneAt_canon h1))) (canon_ite (waitW_canon h (fun _ h1 => gatherOn_canon
    (State.tagGathered_canon h1))) (canon_ite (State.gathered_canon h (fun _ h1 => gatherOn_canon h1)) h)))))

theorem scatterLane_canon {v a o : BitVec 5} {i : ℕ} {k : State → Issue} (h : s.Canon)
    (hk : ∀ (t : State), t.Canon → (k t).Canon) : (scatterLane v a o i s k).Canon := by
  unfold scatterLane
  dsimp only
  refine access_canon h ?_
  intro x t h1
  split
  · exact localAccess_canon h1 (fun t1 h2 => hk _ (State.writeOwn_canon h2))
  · exact canon_ite h1 (canon_ite h1 (hk _ (State.postStore_canon h1)))

theorem execVsct_canon {v a o : BitVec 5} {w : BitVec 2} {t : BitVec 5} (h : s.Canon) :
    (execVsct v a o w t s).Canon :=
  Issue.result_canon (withTag_canon h (fun _ => storeTag_canon h (waitW_canon h (fun _ h1 => lanes_canon (fun _ _
    h2 _ h3 => scatterLane_canon h2 h3) (fun _ h2 => State.next4_canon (State.setLaneAt_canon h2)) h1))))

theorem accLane_canon {op : AccOp} {v a o : BitVec 5} {i : ℕ} {k : State → Issue} (h : s.Canon)
    (hk : ∀ (t : State), t.Canon → (k t).Canon) : (accLane op v a o i s k).Canon :=
  access_canon h (fun _ _ h1 => accAt_canon h1 hk)

theorem vectorAccumulate_canon {op : AccOp} {t : Tag} {v a o : BitVec 5} {w : BitVec 2} (h : s.Canon) :
    (vectorAccumulate op t v a o w s).Canon :=
  Issue.result_canon (checkTags_canon h (fun _ => waitW_canon h (fun _ h1 => lanes_canon (fun _ _ h2 _ h3 =>
    accLane_canon h2 h3) (fun _ h2 => State.next4_canon (State.setLaneAt_canon h2)) h1)))

/-! ### Network -/

theorem State.arrive_canon {id : ℕ} (h : s.Canon) : (s.arrive id).Canon := h

theorem State.askClose_canon {p : Packet} (h : s.Canon) : (s.askClose p).Canon := by
  unfold State.askClose
  dsimp only
  split
  · exact h
  · exact canon_ite h (State.atSite_canon h (fun t h1 => State.launchPacket_canon h1))

theorem execJunctionPacketArrival_canon {id : ℕ} (h : s.Canon) : (execJunctionPacketArrival id s).Canon := by
  unfold execJunctionPacketArrival
  split
  · exact h
  · split
    · exact h
    · split
      · exact State.askClose_canon h
      · split
        · split
          · exact h
          · exact canon_ite (canon_ite h (State.arrive_canon h)) (State.setPacket_canon h)
        · exact canon_ite h (State.arrive_canon h)
        · split
          · exact h
          · exact canon_ite (canon_ite h (State.arrive_canon h)) (State.setPacket_canon h)

theorem State.reach_canon {r : Req} {lines : List ℕ} {write : Bool} (h : s.Canon) :
    (s.reach r lines write).Canon := by
  unfold State.reach
  dsimp only
  split
  · exact ⟨canon_foldl ((canon_foldl h (fun b a h1 => State.touch_canon h1)).tile) (fun b a h1 => Tile.noteLine_canon
      h1), (canon_foldl h (fun b a h1 => State.touch_canon h1)).wafer⟩
  · exact canon_foldl h (fun b a h1 => State.touch_canon h1)

theorem State.storeDone_canon {r : Req} {failed : Option (ℕ × Word)} (h : s.Canon) : (s.storeDone r failed).Canon :=
  State.ackTo_canon h

theorem storeAtTile_canon {p : Packet} {r : Req} {cells : List Host.Cell} (h : s.Canon) :
    OnSome State.Canon (storeAtTile p r cells s) :=
  canon_ite (canon_ite h (State.ackTo_canon h)) (canon_ite trivial (canon_ite (State.storeDone_canon h)
    (State.storeDone_canon (State.writeOwn_canon (State.reach_canon (State.noteWrite_canon h))))))

theorem stfAtTile_canon {p : Packet} {r : Req} {a : ℕ} {w : W32} (h : s.Canon) :
    OnSome State.Canon (stfAtTile p r a w s) :=
  canon_ite (State.ackTo_canon h) (canon_ite trivial (State.ackTo_canon ⟨Tile.markOseq_canon ((performStf_canon
    (State.touch_canon (State.noteWrite_canon h))).tile), (performStf_canon (State.touch_canon (State.noteWrite_canon
    h))).wafer⟩))

theorem rowAtTile_canon {p : Packet} {r : Req} {card : ℕ} {cells : List Host.Cell} (h : s.Canon) :
    OnSome State.Canon (rowAtTile p r card cells s) :=
  canon_ite (State.inject_canon h) (canon_ite trivial (canon_ite (State.inject_canon h) (State.inject_canon
    ⟨Tile.markOseq_canon ((State.writeOwn_canon (State.reach_canon (State.noteWrite_canon h))).tile),
    (State.writeOwn_canon (State.reach_canon (State.noteWrite_canon h))).wafer⟩)))

theorem State.deviceWrite_canon {a : ℕ} {v : Word} (h : s.Canon) : (s.deviceWrite a v).Canon := by
  have hb : s.tile.box.Canon := h.tile.box
  fun_cases State.deviceWrite
  case case1 | case2 => exact State.updCore_canon h
  case case4 | case5 | case7 => exact h.withTile rfl rfl
  case case8 => exact h.withJunction _
  case case9 => exact h.withBox ⟨writeCells_wf _ hb.table, hb.store, hb.mem⟩
  case case10 => exact h.withBox ⟨hb.table, writeCells_wf _ hb.store, hb.mem⟩
  case case11 => exact h.withBox ⟨hb.table, hb.store, writeCells_wf _ hb.mem⟩
  case case13 | case14 | case16 => exact h.withRim _
  all_goals exact h

theorem State.rimWrite_canon {p : Packet} {sp : Space} {job : BitVec 6} {cells : List Host.Cell} (h : s.Canon) :
    (s.rimWrite p sp job cells).Canon :=
  ⟨(State.countFor_canon h).tile, Wafer.put_canon ((State.countFor_canon h).wafer)⟩

theorem windowStore_canon {p : Packet} {r : Req} {cells : List Host.Cell} (h : s.Canon) :
    OnSome State.Canon (windowStore p r cells s) := by
  unfold windowStore
  refine canon_ite trivial (canon_ite (State.ackTo_canon h) (canon_ite trivial ?_))
  extract_lets t b _ u
  have ht : t.Canon := State.noteWrite_canon h
  have hb : b.Canon := ht.tile.box
  exact State.ackTo_canon (s := u) ⟨⟨ht.tile.mem, hb.table, hb.store, writeCells_wf _ hb.mem⟩, ht.wafer⟩

theorem State.replyTo_canon {rim : Option SiteId} {line : Line} {r : Req} {rep : Reply} {kind : DetKind}
    (h : s.Canon) : (s.replyTo rim line r rep kind).Canon :=
  State.sendAs_canon h

theorem performWrite_canon {p : Packet} (h : s.Canon) : OnSome State.Canon (performWrite p s) := by
  unfold performWrite
  dsimp only
  split
  · exact storeAtTile_canon h
  · exact trivial
  · exact State.rimOnce_canon h (fun t h1 => State.ackTo_canon h1) (fun t h1 => State.ackTo_canon
      (State.rimWrite_canon h1))
  · exact stfAtTile_canon h
  · exact rowAtTile_canon h
  · exact State.rimOnce_canon h (fun t h1 => State.sendAs_canon h1) (fun t h1 => State.sendAs_canon
      (State.rimWrite_canon h1))
  · exact State.replyTo_canon (State.deviceWrite_canon h)
  · exact trivial

theorem execRemoteStoreArrival_canon {id : ℕ} (h : s.Canon) : (execRemoteStoreArrival id s).Canon :=
  State.take_canon h (fun _ _ h1 => performWrite_canon h1)

theorem State.partReply_canon {rim : Option SiteId} {r : Req} {m : Msg} (h : s.Canon) : (s.partReply rim r m).Canon :=
  State.sendAs_canon h

theorem readHere_canon {r : Req} {l : List ℕ} {answer : State → Reply → State}
    (hanswer : ∀ t : State, t.Canon → ∀ x : Reply, (answer t x).Canon) (h : s.Canon) :
    (readHere r l answer s).Canon := canon_ite (hanswer _ h _) (hanswer _ (State.reach_canon h) _)

theorem readRim_canon {p : Packet} {r : Req} {sp : Space} {l : List ℕ} {cause : ℕ} {answer : State → Reply → State}
    (hanswer : ∀ t : State, t.Canon → ∀ x : Reply, (answer t x).Canon) (h : s.Canon) :
    (readRim p r sp l cause answer s).Canon := by
  unfold readRim
  extract_lets t
  have ht : t.Canon := State.countFor_canon h
  split
  next u hu => exact hanswer _ ((State.undelivered_canon ht).of_eq hu) _
  · exact hanswer _ ht _

theorem performLoad_canon {p : Packet} (h : s.Canon) : OnSome State.Canon (performLoad p s) := by
  unfold performLoad
  dsimp only
  split
  · split
    · exact readHere_canon (fun t h1 x => State.replyTo_canon h1) h
    · exact readRim_canon (fun t h1 x => State.replyTo_canon h1) h
  · split
    · exact State.replyTo_canon ((State.undelivered_canon (State.countFor_canon h)).of_eq ‹_›)
    · exact State.sendAs_canon (State.countFor_canon h)
  · split
    · exact readHere_canon (fun t h1 x => State.partReply_canon h1) h
    · exact readRim_canon (fun t h1 x => State.partReply_canon h1) h
  · split
    · exact readHere_canon (fun t h1 x => State.partReply_canon h1) h
    · exact readRim_canon (fun t h1 x => State.partReply_canon h1) h
  · exact State.replyTo_canon h
  · exact trivial

theorem execRemoteLoadRequestArrival_canon {id : ℕ} (h : s.Canon) : (execRemoteLoadRequestArrival id s).Canon :=
  State.take_canon h (fun _ _ h1 => performLoad_canon h1)

theorem performWindow_canon {p : Packet} (h : s.Canon) : OnSome State.Canon (performWindow p s) := by
  unfold performWindow
  split
  · exact canon_ite trivial (State.replyTo_canon h)
  · exact windowStore_canon h
  · exact trivial

theorem execStateWindowAccess_canon {id : ℕ} (h : s.Canon) : (execStateWindowAccess id s).Canon :=
  State.take_canon h (fun _ _ h1 => performWindow_canon h1)

theorem performPut_canon {p : Packet} (h : s.Canon) : OnSome State.Canon (performPut p s) := by
  unfold performPut
  split
  next r tile cells flag counter _ =>
    extract_lets t u v
    have ht : t.Canon := State.noteWrite_canon h
    have hu : u.Canon := State.writeOwn_canon (State.reach_canon ht)
    have hv : v.Canon := performMark_canon (State.touch_canon hu)
    clear_value v
    refine canon_ite (State.ackTo_canon h) (canon_ite trivial (canon_ite (State.ackTo_canon h) ?_))
    exact State.ackTo_canon ⟨Tile.markOseq_canon hv.tile, hv.wafer⟩
  · trivial

theorem execPutArrival_canon {id : ℕ} (h : s.Canon) : (execPutArrival id s).Canon :=
  State.take_canon h (fun _ _ h1 => performPut_canon h1)

theorem performFullEmpty_canon {p : Packet} (h : s.Canon) : OnSome State.Canon (performFullEmpty p s) := by
  unfold performFullEmpty
  split
  next r kind tile a data _ =>
    split
    · exact State.replyTo_canon h
    · extract_lets t before u x rep _ v
      have ht : t.Canon := canon_ite (State.noteWrite_canon h) h
      have hx : x.2.Canon := performTag_canon (State.touch_canon ht)
      have hv : v.Canon := ⟨Tile.keepResult_canon hx.tile, hx.wafer⟩
      clear_value t v
      refine canon_ite trivial (canon_ite (State.tagChanged_canon (State.replyTo_canon hv)) (canon_ite ?_ ?_))
      · exact ht.withTile rfl rfl
      · exact State.inject_canon h
  · trivial

theorem execFullEmptyRequestArrival_canon {id : ℕ} (h : s.Canon) : (execFullEmptyRequestArrival id s).Canon :=
  State.take_canon h (fun _ _ h1 => performFullEmpty_canon h1)

theorem performResend_canon {p : Packet} (h : s.Canon) : OnSome State.Canon (performResend p s) := by
  unfold performResend
  split
  · exact canon_ite (State.inject_canon h) h
  · exact trivial

theorem execFullEmptyResend_canon {id : ℕ} (h : s.Canon) : (execFullEmptyResend id s).Canon :=
  State.take_canon h (fun _ _ h1 => performResend_canon h1)

theorem monitorWord_canon {r : Req} {remote : Bool} {a : ℕ} {data : W32} (h : s.Canon) :
    (monitorWord r remote a data s).2.Canon := by
  unfold monitorWord
  dsimp only
  split
  · exact h
  · split <;> exact h

theorem performWaita_canon {p : Packet} (h : s.Canon) : OnSome State.Canon (performWaita p s) := by
  unfold performWaita
  split
  next r va a data _ =>
    extract_lets x
    have hx : x.2.Canon := monitorWord_canon (State.touch_canon h)
    show State.Canon _
    split
    · exact State.replyTo_canon ⟨Tile.keepAnswer_canon hx.tile, hx.wafer⟩
    · exact hx
  · trivial

theorem execWaitaRequestArrival_canon {id : ℕ} (h : s.Canon) : (execWaitaRequestArrival id s).Canon :=
  State.take_canon h (fun _ _ h1 => performWaita_canon h1)

theorem rowCame_canon {card fetch : ℕ} {rep : Reply} (h : s.Canon) : (rowCame card fetch rep s).Canon := by
  unfold rowCame
  dsimp only
  split
  · exact h
  · split
    · exact h
    · exact endFaulted_canon h
    · exact parkCard_canon h
    · exact h

theorem performReply_canon {p : Packet} (h : s.Canon) : OnSome State.Canon (performReply p s) := by
  unfold performReply
  dsimp only
  split
  · exact canon_ite (State.answerHere_canon (State.noteInput_canon h)) h
  · exact State.setJob_canon (State.noteInput_canon (State.focusCore_canon h))
  · exact canon_ite (rowCame_canon (State.noteInput_canon (State.focusCore_canon h))) (State.focusCore_canon h)
  · exact trivial

theorem execReplyArrival_canon {id : ℕ} (h : s.Canon) : (execReplyArrival id s).Canon :=
  State.take_canon h (fun _ _ h1 => performReply_canon h1)

theorem performAck_canon {p : Packet} (h : s.Canon) : OnSome State.Canon (performAck p s) := by
  unfold performAck
  split
  next dst cls failed flush line _ =>
    extract_lets t
    have ht : t.Canon := State.focusCore_canon h
    exact State.drain_canon ⟨ht.tile, ht.wafer⟩
  next dst card fetch cls raced _ =>
    extract_lets t u
    have ht : t.Canon := State.focusCore_canon h
    have hu : u.Canon := State.drain_canon ⟨ht.tile, ht.wafer⟩
    split
    · exact hu
    · exact canon_ite (endFaulted_canon ⟨hu.tile, hu.wafer⟩) ⟨hu.tile, hu.wafer⟩
  next dst card id ends raced cls _ =>
    extract_lets t
    have ht : t.Canon := State.focusCore_canon h
    split
    · exact ⟨ht.tile, ht.wafer⟩
    next j _ =>
      extract_lets left counted u v w x
      have hu : u.Canon := canon_ite (State.drain_canon ⟨ht.tile, ht.wafer⟩) ht
      have hv : v.Canon := State.setJob_canon hu
      have hw : w.Canon := by
        dsimp only [w]
        split
        · exact State.setJob_canon (State.chunkError_canon hv)
        · exact hv
      have hx : x.Canon := canon_ite (State.setJob_canon hw) hw
      exact chunkDone_canon hx
  · trivial

theorem execAcknowledgementArrival_canon {id : ℕ} (h : s.Canon) : (execAcknowledgementArrival id s).Canon :=
  State.take_canon h (fun _ _ h1 => performAck_canon h1)

theorem performChunk_canon {p : Packet} (h : s.Canon) : OnSome State.Canon (performChunk p s) := by
  unfold performChunk
  split
  next r sp c _ =>
    extract_lets found ends ack cells t u
    have hack (x : Bool) (t : State) (ht : t.Canon) : (ack x t).Canon := State.sendAs_canon ht
    split
    · have hu : u.Canon := State.writeOwn_canon (State.reach_canon (State.noteWrite_canon h))
      refine canon_ite (hack _ _ h) (canon_ite trivial (canon_ite (hack _ _ h) ?_))
      exact hack false _ ⟨Tile.markOseq_canon hu.tile, hu.wafer⟩
    · exact State.rimOnce_canon h (hack false) fun t ht => hack _ _ (State.rimWrite_canon ht)
  next r card sp a _ =>
    extract_lets ack t u
    have hack (t : State) (ht : t.Canon) : (ack t).Canon := State.inject_canon ht
    have ht : t.Canon := State.noteWrite_canon h
    have hu : u.Canon := State.tagChanged_canon ⟨Tile.tagBy_canon ht.tile, ht.wafer⟩
    exact canon_ite (hack _ h) (canon_ite trivial (hack _ ⟨Tile.markOseq_canon hu.tile, hu.wafer⟩))
  · trivial

theorem execCopyChunkArrival_canon {id : ℕ} (h : s.Canon) : (execCopyChunkArrival id s).Canon :=
  State.take_canon h (fun _ _ h1 => performChunk_canon h1)

theorem performFill_canon {p : Packet} (h : s.Canon) : OnSome State.Canon (performFill p s) := by
  unfold performFill
  split
  next dst fetch sp base data _ =>
    extract_lets c moments t good _ u v
    have ht : t.Canon := State.noteInput_canon h
    have hu : u.Canon := ht
    have hv : v.Canon := canon_ite ⟨Tile.farInstall_canon hu.tile, hu.wafer⟩ hu
    show State.Canon _
    split
    · exact State.answerHere_canon hv
    · exact hv
  · trivial

theorem execFarCacheFill_canon {id : ℕ} (h : s.Canon) : (execFarCacheFill id s).Canon :=
  State.take_canon h (fun _ _ h1 => performFill_canon h1)

theorem execPageWalkComplete_canon {site : SiteId} {core : CoreId} (h : s.Canon) :
    (execPageWalkComplete site core s).Canon := by
  unfold execPageWalkComplete
  extract_lets t _ _
  have ht : t.Canon := State.focus_canon h
  split
  · exact ht
  · refine canon_ite ht ?_
    extract_lets fail reads
    split
    next u hu =>
      have hu : u.Canon := (State.undelivered_canon ht).of_eq hu
      exact ⟨hu.tile, hu.wafer⟩
    · exact ⟨ht.tile, ht.wafer⟩
    · exact ⟨ht.tile, ht.wafer⟩

theorem State.fillBuffer_canon {line : ℕ} {d : LineBits} (h : s.Canon) : (s.fillBuffer line d).Canon := h

theorem State.countFill_canon {t : Target} (h : s.Canon) : (s.countFill t).Canon := by
  unfold State.countFill
  split
  · exact h
  · exact State.countSpace_canon h

theorem State.fillFails_canon {t : Target} {va : ℕ} (h : s.Canon) : OnSome State.Canon (s.fillFails t va) := by
  unfold State.fillFails
  split
  · exact trivial
  · exact State.undelivered_canon h

theorem execInstructionBufferFill_canon {site : SiteId} {core : CoreId} (h : s.Canon) :
    (execInstructionBufferFill site core s).Canon := by
  unfold execInstructionBufferFill
  extract_lets t
  have ht : t.Canon := State.focus_canon h
  split
  · exact ht
  next line _ =>
    split
    · extract_lets u
      have hu : u.Canon := State.countFill_canon ht
      split
      next v hv =>
        have hv : v.Canon := (State.fillFails_canon hu).of_eq hv
        exact ⟨hv.tile, hv.wafer⟩
      next d _ _ =>
        have hv : (u.fillBuffer line d).Canon := State.fillBuffer_canon hu
        exact ⟨hv.tile, hv.wafer⟩
      · exact hu
    · exact ht

theorem abandonFetch_canon {f : Fetch} (h : s.Canon) : (abandonFetch s f).Canon := by
  unfold abandonFetch
  dsimp only
  split
  · exact h
  · split
    · exact h
    · exact State.inject_canon h

theorem cutGather_canon (h : s.Canon) : (cutGather s).Canon :=
  canon_foldl ⟨(canon_foldl h (fun _ _ h1 => State.setGathered_canon h1)).tile, (canon_foldl h (fun _ _ h1 =>
    State.setGathered_canon h1)).wafer⟩ (fun _ _ h1 => abandonFetch_canon h1)

theorem execBlockingAccessAbandon_canon {site : SiteId} {core : CoreId} (h : s.Canon) :
    (execBlockingAccessAbandon site core s).Canon :=
  canon_ite (State.focus_canon h) (canon_ite (cutGather_canon (State.focus_canon h)) (canon_foldl (State.focus_canon
    h) (fun _ _ h1 => abandonFetch_canon h1)))

theorem Tile.dropWaiting_canon {t : Tile} {src : CoreRef} {fetch : ℕ} (ht : t.Canon) :
    OnSome Tile.Canon (t.dropWaiting src fetch) := canon_ite ht (canon_ite ht (canon_ite ht trivial))

theorem execCancelArrival_canon {id : ℕ} (h : s.Canon) : (execCancelArrival id s).Canon := by
  unfold execCancelArrival
  dsimp only
  refine State.take_canon h ?_
  intro x t h1
  split
  · split
    · exact State.sendAs_canon h1
    · split
      · exact State.sendAs_canon h1
      · split
        · exact State.sendAs_canon ⟨(canon_ite trivial (Tile.dropWaiting_canon h1.tile)).of_eq ‹_›, h1.wafer⟩
        · exact State.sendAs_canon h1
  · exact trivial

theorem execCancelAnswerArrival_canon {id : ℕ} (h : s.Canon) : Result.Canon (execCancelAnswerArrival id s) := by
  refine State.take_canon h fun p t ht => ?_
  split
  · extract_lets bytes c place u put away
    have hu : u.Canon := State.noteInput_canon ht
    exact State.updCore_canon (s := { u with wafer := { u.wafer with saved := u.wafer.saved.map away } }) hu
  · trivial

/-! ### Sync -/

theorem deliverMessage_canon {m : Message} (h : s.Canon) : OnSome State.Canon (deliverMessage m s) :=
  canon_ite (State.updCore_canon h) (canon_ite h trivial)

theorem ackMessage_canon {m : Message} (h : s.Canon) : (ackMessage m s).Canon := canon_ite (State.inject_canon h) h

theorem markMessage_canon {m : Message} (h : s.Canon) : (markMessage m s).Canon := canon_ite h (canon_ite h h)

theorem performMessage_canon {p : Packet} (h : s.Canon) : OnSome State.Canon (performMessage p s) := by
  unfold performMessage
  dsimp only
  split
  · split
    · exact canon_ite h (ackMessage_canon h)
    · split
      · exact trivial
      · split
        · exact trivial
        · exact ackMessage_canon (markMessage_canon ((deliverMessage_canon (State.noteInput_canon h)).of_eq ‹_›))
  · exact trivial

theorem execMessageArrival_canon {id : ℕ} (h : s.Canon) : (execMessageArrival id s).Canon :=
  State.take_canon h (fun _ _ h1 => performMessage_canon h1)

theorem moveMessage_canon {c : CoreId} {q : BitVec 4} (h : s.Canon) : (moveMessage c q s).Canon := by
  unfold moveMessage
  dsimp only
  split
  · exact h
  · split
    · exact State.updCore_canon h
    · split
      · exact canon_ite (State.updCore_canon h) h
      · exact h

theorem sendMessage_canon {x : Word} {d : V256} (h : s.Canon) : (sendMessage x d s).Canon := by
  unfold sendMessage
  refine canon_ite h (canon_ite ?_ (canon_ite h (canon_ite h (State.next4_canon (State.inject_canon h)))))
  extract_lets m t
  have ht : t.Canon := h
  split
  next u hu =>
    refine State.next4_canon (OnSome.of_eq ?_ hu)
    exact canon_ite trivial (deliverMessage_canon ht)
  · exact State.next4_canon (State.launchPacket_canon ht)

theorem execQstat_canon {d : BitVec 5} (h : s.Canon) : (execQstat d s).Canon := by
  unfold execQstat
  refine Issue.result_canon ?_
  split
  · exact State.next4_canon (State.setReg_canon ((State.record_canon h).of_eq ‹_›))
  · exact h

theorem Wafer.count_canon {w : Wafer} {b : BarrierMsg} (hw : w.Canon) : (w.count b).Canon := by
  unfold Wafer.count
  dsimp only
  split
  · exact hw
  · exact canon_ite hw hw

theorem drainAll_canon {k : State → Issue} (h : s.Canon) (hk : ∀ (t : State), t.Canon → (k t).Canon) :
    (drainAll s k).Canon := by
  unfold drainAll
  dsimp only
  split
  · exact waitCounts_canon h hk
  · exact canon_ite (waitCounts_canon (State.flushAll_canon h) hk) (State.flushAll_canon h)

theorem State.sendArrival_canon {n : BitVec 2} (h : s.Canon) : (s.sendArrival n).Canon :=
  canon_ite ⟨h.tile, Wafer.count_canon h.wafer⟩ (State.inject_canon h)

theorem State.passBarrier_canon {n : BitVec 2} (h : s.Canon) : (s.passBarrier n).Canon := h

theorem awaitBarrier_canon {n : BitVec 2} {k : State → Issue} (h : s.Canon)
    (hk : ∀ (t : State), t.Canon → (k t).Canon) : (awaitBarrier n s k).Canon :=
  canon_ite (hk _ h) (canon_ite (hk _ (State.passBarrier_canon h)) h)

theorem arriveBarrier_canon {n : BitVec 2} {k : State → Issue} (h : s.Canon)
    (hk : ∀ (t : State), t.Canon → (k t).Canon) : (arriveBarrier n s k).Canon :=
  awaitBarrier_canon h (fun _ h1 => drainAll_canon h1 (fun _ h2 => hk _ (State.sendArrival_canon h2)))

theorem execArrive_canon {n : BitVec 2} (h : s.Canon) : (execArrive n s).Canon :=
  Issue.result_canon (arriveBarrier_canon h (fun _ h1 => State.next4_canon h1))

theorem execAwait_canon {n : BitVec 2} (h : s.Canon) : (execAwait n s).Canon :=
  Issue.result_canon (awaitBarrier_canon h (fun _ h1 => State.next4_canon h1))

theorem execSync_canon {n : BitVec 2} (h : s.Canon) : (execSync n s).Canon :=
  Issue.result_canon (canon_ite (drainAll_canon h (fun _ h1 => awaitBarrier_canon (State.sendArrival_canon h1) (fun _
    h2 => State.next4_canon h2))) (awaitBarrier_canon h (fun _ h1 => State.next4_canon h1)))

theorem State.takeAtJunction_canon {id : ℕ} {k : Packet → State → State} (h : s.Canon)
    (hk : ∀ (x : Packet) (t : State), t.Canon → (k x t).Canon) : (s.takeAtJunction id k).Canon := by
  unfold State.takeAtJunction
  dsimp only
  split
  · exact h
  · split
    · exact h
    · exact canon_ite h (hk _ _ (State.dropPacket_canon (State.focusSite_canon h)))

theorem Wafer.countArrival_canon {w : Wafer} {b : BarrierMsg} (hw : w.Canon) : (w.countArrival b).Canon := by
  unfold Wafer.countArrival
  extract_lets mine m __src
  have h__src : __src.Canon := Wafer.count_canon hw
  exact canon_ite hw h__src

theorem execBarrierArrival_canon {id : ℕ} (h : s.Canon) : (execBarrierArrival id s).Canon := by
  unfold execBarrierArrival
  split
  · exact State.takeAtJunction_canon h (fun x t h1 => ⟨h1.tile, Wafer.countArrival_canon h1.wafer⟩)
  · exact h

theorem releaseCore_canon {d : DomainKey} {known : List AccessId} {c : CoreId} (h : s.Canon) :
    (releaseCore d known c s).Canon := State.updCore_canon h

theorem State.atJobTile_canon {job : BitVec 6} {t : ℕ} {f : State → State} (h : s.Canon)
    (hf : ∀ (t : State), t.Canon → (f t).Canon) : (s.atJobTile job t f).Canon := by
  unfold State.atJobTile
  split
  · exact State.atSite_canon h hf
  · exact h

theorem releaseAway_canon {d : DomainKey} {known : List AccessId} {w : Wafer} {t : SavedTeam} (hw : w.Canon) :
    (releaseAway d known w t).Canon :=
  canon_foldl hw (fun _ _ h => canon_ite ⟨writeCells_wf _ h.hbm, h.host, h.peer, h.sites, h.healing⟩ h)

theorem releaseBarrier_canon {b : Barrier} (h : s.Canon) : (releaseBarrier b s).Canon :=
  canon_ite (State.atJobTile_canon ⟨h.tile, canon_foldl h.wafer (fun _ _ h1 => releaseAway_canon h1)⟩ (fun _ h1 =>
    canon_foldl h1 (fun _ _ h2 => releaseCore_canon h2))) (State.atJobTile_canon h (fun _ h1 => canon_foldl h1 (fun
    _ _ h2 => State.launchPacket_canon h2)))

theorem Wafer.setPhase_canon {w : Wafer} {d : DomainKey} {p : BarrierPhase} (hw : w.Canon) : (w.setPhase d p).Canon :=
  hw

theorem execBarrierRootComplete_canon {d : DomainKey} (h : s.Canon) : (execBarrierRootComplete d s).Canon := by
  unfold execBarrierRootComplete
  show State.Canon _
  split
  · exact canon_ite (canon_ite ⟨h.tile, Wafer.setPhase_canon h.wafer⟩ (releaseBarrier_canon h)) h
  · exact h

theorem releaseAgain_canon {b : BarrierMsg} {c : CoreId} (h : s.Canon) : OnSome State.Canon (releaseAgain b c s) :=
  canon_ite (releaseCore_canon h) trivial

theorem noteRelease_canon {p : Packet} {b : BarrierMsg} {dst : TileNo} {c : CoreId} (h : s.Canon) :
    (noteRelease p b dst c s).Canon := State.noteInput_canon h

theorem performRelease_canon {p : Packet} (h : s.Canon) : OnSome State.Canon (performRelease p s) := by
  unfold performRelease
  dsimp only
  split
  · split
    · exact ⟨h.tile, releaseAway_canon h.wafer⟩
    · exact canon_ite (releaseAgain_canon (noteRelease_canon h)) (canon_ite trivial (canon_foldl h (fun b a h1 =>
        releaseCore_canon (noteRelease_canon h1))))
  · exact trivial

theorem execBarrierReleaseArrival_canon {id : ℕ} (h : s.Canon) : (execBarrierReleaseArrival id s).Canon :=
  State.take_canon h (fun _ _ h1 => performRelease_canon h1)

theorem applyHeld_canon {h1 : Held} (h : s.Canon) : (applyHeld s h1).Canon := State.writeOwn_canon h

theorem mergeTile_canon {job : BitVec 6} {ms : List (ℕ × CoreId)} (h : s.Canon) : (mergeTile job ms s).Canon :=
  canon_foldl h (fun _ _ h1 => canon_foldl h1 (fun _ _ h2 => applyHeld_canon h2))

theorem applyRim_canon {h1 : Held} (h : s.Canon) : (applyRim s h1).Canon := by
  unfold applyRim
  dsimp only
  split
  · exact (State.undelivered_canon h).of_eq ‹_›
  · exact ⟨h.tile, Wafer.put_canon h.wafer⟩

theorem mergeRim_canon {job : BitVec 6} {ms : List (ℕ × CoreId)} {p : ℕ × Slice} (h : s.Canon) :
    (mergeRim job ms s p).Canon := canon_foldl h (fun _ _ h1 => applyRim_canon h1)

theorem resendRows_canon {n : ℕ} (h : s.Canon) : (resendRows n s).Canon := by
  induction n generalizing s with
  | zero => exact h
  | succ n ih =>
    unfold resendRows
    split
    · exact h
    · exact canon_ite (ih (State.sendAcc_canon h)) h

theorem execCatchUpRound_canon {d : DomainKey} (h : s.Canon) : (execCatchUpRound d s).Canon := by
  unfold execCatchUpRound
  show State.Canon _
  split
  next b _ =>
    extract_lets ms send t _ v
    have hsend (l : List (SiteId × CoreId)) (t : State) (ht : t.Canon) : (l.foldl send t).Canon :=
      canon_foldl ht fun _ _ hz => State.atSite_canon hz fun _ hx =>
        State.focusCore_canon (resendRows_canon (State.focusCore_canon hx))
    have ht : t.Canon := canon_foldl h fun _ _ hz => State.atSite_canon hz fun _ hx => State.updCore_canon hx
    have hu := hsend ms t ht
    have hv : v.Canon := hsend ms s h
    split
    · exact canon_ite h ⟨hu.tile, Wafer.setPhase_canon hu.wafer⟩
    · exact canon_ite ⟨hv.tile, Wafer.setPhase_canon hv.wafer⟩ hv
    · exact h
  · exact h

theorem State.requestWaita_canon {l : TileNo} {va a : ℕ} {data : W32} (h : s.Canon) :
    (s.requestWaita l va a data).Canon := State.inject_canon (State.await_canon h)

theorem execWaita_canon {d a b : BitVec 5} (h : s.Canon) : Result.Canon (execWaita d a b s) := by
  unfold execWaita
  extract_lets va data finish
  have hfinish (v : ℕ) (t : State) (ht : t.Canon) : (finish v t).Canon := State.skip_canon (State.setReg_canon ht)
  clear_value finish
  refine Issue.result_canon (blocked_canon h (fun t ht => access_canon ht fun x u hu => ?_) fun _ _ ht => hfinish _ _ ht)
  split
  next x =>
    refine localAccess_canon hu fun v hv => ?_
    extract_lets m _ w _
    have hm : m.2.Canon := monitorWord_canon hv
    have hw : w.Canon := State.await_canon hm
    clear_value m w
    split
    · exact hfinish _ _ (hm.withCore _)
    · exact ⟨hw.tile, hw.wafer.hbm, hw.wafer.host, hw.wafer.peer, hw.wafer.sites, hw.wafer.healing⟩
  · split
    · exact canon_ite hu (State.requestWaita_canon hu)
    · exact hu

theorem State.setEvc_canon {c : BitVec 3} {v : ℕ} {ovf : Bool} (h : s.Canon) : (s.setEvc c v ovf).Canon :=
  canon_ite (State.updCores_canon h) h

theorem execCntinc_canon {d : BitVec 5} {c : BitVec 3} {b : BitVec 5} (h : s.Canon) : (execCntinc d c b s).Canon := by
  unfold execCntinc
  extract_lets v ovf by_ sum known t new u _ w x
  have ht : t.Canon := State.touchEvc_canon h
  have hu : u.Canon := State.setEvc_canon ht
  have hw : w.Canon := hu.withTile rfl rfl
  have hx : x.Canon := releaseWaiters_canon hw
  clear_value x
  exact Issue.result_canon (canon_ite h (canon_ite (State.next4_canon (State.setReg_canon (State.touchEvc_canon h)))
    (State.next4_canon (State.setReg_canon hx))))

theorem execCntrst_canon {c : BitVec 3} (h : s.Canon) : (execCntrst c s).Canon :=
  Issue.result_canon (canon_ite (State.next4_canon (releaseWaiters_canon (State.setEvc_canon (State.touchEvc_canon
    h)))) h)

theorem execCntwait_canon {d : BitVec 5} {c : BitVec 3} {b : BitVec 5} (h : s.Canon) :
    (execCntwait d c b s).Canon := by
  unfold execCntwait
  dsimp only
  refine Issue.result_canon ?_
  split
  · split
    · exact State.next4_canon (State.setReg_canon h)
    · exact h
  · exact canon_ite h (canon_ite (State.next4_canon (State.setReg_canon ⟨(State.touchEvc_canon h).tile,
      (State.touchEvc_canon h).wafer⟩)) ⟨(State.touchEvc_canon h).tile, (State.touchEvc_canon h).wafer⟩)

/-! ### AccEvents -/

theorem State.setSlice_canon {h1 : Home} {k : ℕ} {x : Slice} (h : s.Canon) : (s.setSlice h1 k x).Canon := by
  unfold State.setSlice
  dsimp only
  split <;> exact h

theorem State.setHomeMarks_canon {h1 : Home} {l : List Mark} (h : s.Canon) : (s.setHomeMarks h1 l).Canon := by
  unfold State.setHomeMarks
  dsimp only
  split
  · exact h
  · exact State.setRimMarks_canon h

theorem State.refuse_canon {h1 : Home} {p : Packet} {q : AccReq} (h : s.Canon) : (s.refuse h1 p q).Canon :=
  canon_ite (State.sendAs_canon h) (State.sendAs_canon h)

theorem State.ackMembers_canon {h1 : Home} {q : AccReq} (h : s.Canon) : (s.ackMembers h1 q).Canon :=
  canon_foldl h (fun _ _ h2 => State.ackTo_canon h2)

theorem performAccumulate_canon {p : Packet} (h : s.Canon) : OnSome State.Canon (performAccumulate p s) := by
  unfold performAccumulate
  dsimp only
  split
  · split
    · exact trivial
    · split
      · exact canon_ite h (State.ackMembers_canon h)
      · split
        · exact trivial
        · split
          · exact trivial
          · exact State.refuse_canon (State.countFor_canon h)
          · exact State.setSlice_canon (State.setHomeMarks_canon (State.countFor_canon h))
  · exact trivial

theorem execAccumulateRequestArrival_canon {id : ℕ} (h : s.Canon) : (execAccumulateRequestArrival id s).Canon :=
  State.take_canon h (fun _ _ h1 => performAccumulate_canon h1)

theorem State.answerAtomic_canon {h1 : Home} {q : AccReq} {rep : Reply} (h : s.Canon) :
    (s.answerAtomic h1 q rep).Canon := State.sendAs_canon (State.setHomeMarks_canon h)

theorem failRequest_canon {h1 : Home} {q : AccReq} (h : s.Canon) : (failRequest h1 q s).Canon := by
  unfold failRequest
  split
  · exact canon_foldl h (fun b a h2 => State.ackTo_canon h2)
  · exact State.answerAtomic_canon h

theorem State.wordFails_canon {h1 : Home} {q : AccReq} (h : s.Canon) : OnSome State.Canon (s.wordFails h1 q) :=
  canon_ite (State.undelivered_canon h) trivial

theorem performRequest_canon {at_ : Home} {q : AccReq} (h : s.Canon) : (performRequest at_ q s).Canon := by
  unfold performRequest
  split
  next t ht => exact failRequest_canon ((State.wordFails_canon h).of_eq ht)
  · extract_lets a t old r cells u
    have ht : t.Canon := canon_ite (State.noteWrite_canon h) h
    have hu : u.Canon := by
      dsimp only [u]
      split
      · exact State.writeOwn_canon (State.touch_canon ht)
      · exact ⟨ht.tile, Wafer.put_canon ht.wafer⟩
    split
    · exact State.ackMembers_canon hu
    · exact State.answerAtomic_canon hu

theorem applyNext_canon {h1 : Home} {k : ℕ} (h : s.Canon) : (applyNext h1 k s).Canon := by
  unfold applyNext
  dsimp only
  split
  · exact h
  · exact performRequest_canon (State.setSlice_canon h)

theorem atSlice_canon {l : SliceLoc} {f : Home → ℕ → State → State} (h : s.Canon)
    (hf : ∀ (x0 : Home) (x1 : ℕ) (t : State), t.Canon → (f x0 x1 t).Canon) : (atSlice l s f).Canon := by
  unfold atSlice
  dsimp only
  split
  · exact canon_ite (State.focusSite_canon h) (hf _ _ _ (State.focusSite_canon h))
  · exact hf _ _ _ h

theorem execAccumulateApply_canon {l : SliceLoc} (h : s.Canon) : (execAccumulateApply l s).Canon :=
  atSlice_canon h (fun _ _ _ h1 => applyNext_canon h1)

theorem lineRead_canon {line : ℕ} {h1 : Home} {k : ℕ} (h : s.Canon) : (lineRead line h1 k s).Canon :=
  canon_ite (State.setSlice_canon h) h

theorem execHbmAccumulateLineRead_canon {l : SliceLoc} {line : ℕ} (h : s.Canon) :
    (execHbmAccumulateLineRead l line s).Canon := atSlice_canon h (fun _ _ _ h1 => lineRead_canon h1)

theorem execQuotaWindowReset_canon {l : SliceLoc} (h : s.Canon) : (execQuotaWindowReset l s).Canon := by
  unfold execQuotaWindowReset
  dsimp only
  split
  · exact State.setSlice_canon (State.focusSite_canon h)
  · exact State.setSlice_canon h

theorem performAtomic_canon {p : Packet} (h : s.Canon) : OnSome State.Canon (performAtomic p s) := by
  unfold performAtomic
  dsimp only
  split
  · split
    · split
      · exact canon_ite (State.sendAs_canon h) (State.setSlice_canon h)
      · exact State.setSlice_canon h
    · exact canon_ite trivial (canon_ite (performRequest_canon (State.countFor_canon h)) (State.setHomeMarks_canon
        (State.setSlice_canon (State.countFor_canon h))))
  · exact trivial

theorem execAtomicRequestArrival_canon {id : ℕ} (h : s.Canon) : (execAtomicRequestArrival id s).Canon :=
  State.take_canon h (fun _ _ h1 => performAtomic_canon h1)

theorem performDeterministic_canon {p : Packet} (h : s.Canon) : OnSome State.Canon (performDeterministic p s) := by
  unfold performDeterministic
  split
  next q _ =>
    split
    · trivial
    · extract_lets at_ x marks e r t u v w
      have ht : t.Canon := State.countFor_canon h
      have hu : u.Canon := canon_ite (State.noteWrite_canon ht) ht
      have hv : v.Canon := State.setHomeMarks_canon (State.setSlice_canon hu)
      have hw : w.Canon := State.ackMembers_canon hv
      clear_value t w
      refine canon_ite trivial (canon_ite (State.ackMembers_canon h) (canon_ite trivial
        (canon_ite (State.refuse_canon ht) ?_)))
      show State.Canon _
      split
      · exact hw
      · exact State.sendAs_canon hw
  · trivial

theorem execDeterministicRequestArrival_canon {id : ℕ} (h : s.Canon) : (execDeterministicRequestArrival id s).Canon :=
  State.take_canon h (fun _ _ h1 => performDeterministic_canon h1)

theorem execJunctionMerge_canon {site : SiteId} {first second : ℕ} (h : s.Canon) :
    (execJunctionMerge site first second s).Canon := by
  unfold execJunctionMerge
  split
  · split
    · exact canon_ite (State.setPacket_canon (State.dropPacket_canon h)) h
    · exact h
  · exact h

theorem execMergedBounceSplit_canon {id : ℕ} (h : s.Canon) : (execMergedBounceSplit id s).Canon := by
  unfold execMergedBounceSplit
  split
  · exact State.takeAtJunction_canon h (fun x t h1 => canon_foldl h1 (fun b a h2 => State.rimSend_canon h2))
  · exact h

theorem performBounce_canon {p : Packet} (h : s.Canon) : OnSome State.Canon (performBounce p s) := by
  unfold performBounce
  dsimp only
  split
  · exact canon_ite trivial (State.updCore_canon (State.noteInput_canon h))
  · exact trivial

theorem execBounceArrival_canon {id : ℕ} (h : s.Canon) : (execBounceArrival id s).Canon :=
  State.take_canon h (fun _ _ h1 => performBounce_canon h1)

theorem State.toRing_canon {r : Row} (h : s.Canon) : (s.toRing r).Canon := by
  unfold State.toRing
  dsimp only
  split
  · exact h
  · exact ⟨h.tile, writeCells_wf _ h.wafer.hbm, h.wafer.host, h.wafer.peer, h.wafer.sites, h.wafer.healing⟩

theorem parked_canon {b : Bounce} (h : s.Canon) : (parked b s).Canon := State.drain_canon h

theorem parkRelaxed_canon {b : Bounce} (h : s.Canon) : (parkRelaxed b s).Canon := by
  unfold parkRelaxed
  dsimp only
  split
  · exact parked_canon h
  · split
    · exact parked_canon h
    · split
      · exact canon_ite (parked_canon ⟨(State.flushRow_canon h).tile, (State.flushRow_canon h).wafer⟩) h
      · split
        · exact canon_ite (parked_canon ⟨(State.toRing_canon h).tile, (State.toRing_canon h).wafer⟩) h
        · exact h

theorem parkDeterministic_canon {b : Bounce} (h : s.Canon) : (parkDeterministic b s).Canon := by
  unfold parkDeterministic
  dsimp only
  split
  · exact parked_canon h
  · exact canon_ite (parked_canon (State.toRing_canon h)) h

theorem execBouncePark_canon {site : SiteId} {core : CoreId} (h : s.Canon) : (execBouncePark site core s).Canon := by
  unfold execBouncePark
  dsimp only
  split
  · exact State.focus_canon h
  · exact canon_ite (parkDeterministic_canon (State.focus_canon h)) (parkRelaxed_canon (State.focus_canon h))

theorem flushAged_canon {row : BitVec 5} (h : s.Canon) : (flushAged row s).Canon := canon_ite h (State.drain_canon h)

theorem execSidingAgeFlush_canon {site : SiteId} {core : CoreId} {row : BitVec 5} (h : s.Canon) :
    (execSidingAgeFlush site core row s).Canon := by
  unfold execSidingAgeFlush
  dsimp only
  split
  · exact canon_ite (flushAged_canon (State.noteDet_canon (State.focus_canon h))) (State.focus_canon h)
  · exact State.focus_canon h

/-! ### Tasks -/

theorem Tile.setTask_canon {t : Tile} {i : ℕ} {e : Task} (ht : t.Canon) : (t.setTask i e).Canon := ht

theorem State.setQueue_canon {t : Tile} (h : s.Canon) (ht : t.Canon) : (s.setQueue t).Canon :=
  canon_ite ⟨ht, h.wafer⟩ ⟨ht, writeCells_wf _ h.wafer.hbm, h.wafer.host, h.wafer.peer, h.wafer.sites,
    h.wafer.healing⟩

theorem Tile.takeOverflow_canon {t : Tile} {e : Task} (ht : t.Canon) : (t.takeOverflow e).Canon := ht

theorem Tile.moveIn_canon {t : Tile} {e : Task} {i : ℕ} (ht : t.Canon) : (t.moveIn e i).Canon := ht

theorem execSpawn_canon {d a b : BitVec 5} (h : s.Canon) : (execSpawn d a b s).Canon := by
  unfold execSpawn
  dsimp only
  refine Issue.result_canon ?_
  split
  · exact h
  · split
    · exact State.next4_canon (State.setReg_canon h)
    · exact canon_ite (State.next4_canon (State.setReg_canon (State.setQueue_canon h h.tile))) h

theorem startTask_canon {i : ℕ} (h : s.Canon) : (startTask i s).Canon := h

theorem nextTask_canon {team : W32} {t : Tile} (ht : t.Canon) : OnSome (fun x => x.2.Canon) (nextTask team t) := by
  unfold nextTask
  split
  · exact ht
  · split
    · exact Tile.moveIn_canon ht
    · exact trivial

theorem namedTask_canon {h1 : Word} {t : Tile} (ht : t.Canon) : OnSome (fun x => x.2.Canon) (namedTask h1 t) := by
  unfold namedTask
  split
  · exact ht
  · split
    · exact Tile.moveIn_canon ht
    · exact trivial

theorem execTaskClaim_canon {site : SiteId} {core : CoreId} (h : s.Canon) : (execTaskClaim site core s).Canon := by
  unfold execTaskClaim
  extract_lets u
  have hu : u.Canon := State.focus_canon h
  show State.Canon _
  refine canon_ite hu ?_
  split
  · exact hu
  · split
    · exact hu
    next v hv =>
      have hv : v.Canon := (State.record_canon hu).of_eq hv
      exact startTask_canon (State.setQueue_canon hv ⟨hv.tile.mem, hv.tile.box⟩)

theorem runInline_canon {i : ℕ} {d : BitVec 5} (h : s.Canon) : (runInline i d s).Canon := h

theorem joinWait_canon {i : Option ℕ} {d : BitVec 5} (h : s.Canon) : (joinWait i d s).Canon := by
  unfold joinWait
  dsimp only
  split
  · exact canon_ite (State.next4_canon (State.setReg_canon h)) h
  · exact h

theorem joinLater_canon {i : Option ℕ} {d : BitVec 5} (h : s.Canon) : (joinLater i d s).Canon := by
  unfold joinLater
  dsimp only
  split
  · exact joinWait_canon ⟨((State.record_canon h).of_eq ‹_›).tile, ((State.record_canon h).of_eq ‹_›).wafer⟩
  · exact h

theorem State.moveJoined_canon {h1 : Word} (h : s.Canon) : (s.moveJoined h1).Canon := by
  unfold State.moveJoined
  split
  · exact State.setQueue_canon h (Tile.moveIn_canon h.tile)
  · exact h

theorem joinInline_canon {i : ℕ} {d : BitVec 5} {h1 : Word} (h : s.Canon) : (joinInline i d h1 s).Canon := by
  unfold joinInline
  split
  · exact h
  · refine spillIfFull_canon h ?_
    intro t h2
    split
    · exact runInline_canon (State.moveJoined_canon ((State.record_canon h2).of_eq ‹_›))
    · exact h2

theorem execTjoin_canon {d a : BitVec 5} (h : s.Canon) : (execTjoin d a s).Canon := by
  unfold execTjoin
  dsimp only
  refine Issue.result_canon ?_
  split
  · exact State.next4_canon (State.setReg_canon h)
  · split
    · exact joinWait_canon h
    · split
      · exact canon_ite (joinInline_canon h) (joinLater_canon (State.moveJoined_canon h))
      · split
        · exact joinLater_canon h
        · exact State.next4_canon (State.setReg_canon h)

theorem execTstat_canon {d a : BitVec 5} (h : s.Canon) : (execTstat d a s).Canon := by
  unfold execTstat
  refine Issue.result_canon ?_
  split
  · exact State.next4_canon (State.setReg_canon ((State.record_canon h).of_eq ‹_›))
  · exact h

theorem State.writeTileRecord_canon (h : s.Canon) : s.writeTileRecord.Canon :=
  ⟨h.tile, writeCells_wf _ h.wafer.hbm, h.wafer.host, h.wafer.peer, h.wafer.sites, h.wafer.healing⟩

theorem Tile.readRecord_canon {t : Tile} {m : Memory} {base : ℕ} {teamOf : CoreId → W32} (ht : t.Canon) :
    (t.readRecord m base teamOf).Canon := ht

theorem leaveCore_canon {c : CoreId} (h : s.Canon) : (leaveCore c s).Canon :=
  State.focusCore_canon (State.updCore_canon (State.flushAll_canon (canon_foldl (State.focusCore_canon h) (fun _ _ h1
    => abandonFetch_canon h1))))

theorem State.emptySlots_canon {team : W32} (h : s.Canon) : (s.emptySlots team).Canon :=
  canon_ite (State.updCores_canon (canon_foldl h (fun _ _ h1 => leaveCore_canon h1))) (State.writeTileRecord_canon
    (State.updCores_canon (canon_foldl h (fun _ _ h1 => leaveCore_canon h1))))

theorem Tile.freeTeam_canon {t : Tile} {team : W32} (ht : t.Canon) : (t.freeTeam team).Canon := ht

theorem Wafer.setLaunch_canon {w : Wafer} {job : BitVec 6} {num : BitVec 20} {f : Launch → Launch} (hw : w.Canon) :
    (w.setLaunch job num f).Canon := hw

theorem Wafer.tileEnded_canon {w : Wafer} {job : BitVec 6} {num : BitVec 20} {t : ℕ} (hw : w.Canon) :
    (w.tileEnded job num t).Canon := by
  unfold Wafer.tileEnded
  dsimp only
  split
  · exact canon_ite hw (Wafer.setLaunch_canon hw)
  · exact Wafer.setLaunch_canon hw

theorem State.endTeamHere_canon {team : W32} (h : s.Canon) : (s.endTeamHere team).Canon := by
  unfold State.endTeamHere
  extract_lets job t
  have ht : t.Canon := State.emptySlots_canon (State.setQueue_canon h (Tile.freeTeam_canon h.tile))
  exact ⟨ht.tile, Wafer.tileEnded_canon ht.wafer⟩

theorem State.checkTeamEnd_canon {team : W32} (h : s.Canon) : (s.checkTeamEnd team).Canon :=
  canon_ite (State.endTeamHere_canon h) h

theorem exitInline_canon {r : InlineRun} {rest : List InlineRun} {code : BitVec 10} (h : s.Canon) :
    (exitInline r rest code s).Canon := by
  unfold exitInline
  dsimp only
  refine returns_canon h ?_
  intro t h1
  split <;> exact State.retire_canon (State.setReg_canon h1)

theorem exitServer_canon {code : BitVec 10} (h : s.Canon) : (exitServer code s).Canon := by
  unfold exitServer
  dsimp only
  split <;> exact h

theorem exitThread_canon {code : BitVec 10} (h : s.Canon) : (exitThread code s).Canon := h

theorem execExit_canon {c : BitVec 10} (h : s.Canon) : (execExit c s).Canon := by
  unfold execExit
  dsimp only
  refine Issue.result_canon ?_
  refine outsideTrapWindow_canon h ?_
  split
  · exact exitInline_canon h
  · exact State.checkTeamEnd_canon (canon_ite (exitServer_canon (State.retire_canon (State.uncouple_canon h)))
      (exitThread_canon (State.retire_canon (State.uncouple_canon h))))

theorem callLeavers_canon (h : s.Canon) : (callLeavers s).Canon := by
  unfold callLeavers
  dsimp only
  split
  · exact canon_ite h h
  · exact h

theorem State.postLeave_canon {team : Option W32} (h : s.Canon) : (State.postLeave team s).Canon :=
  canon_ite h (callLeavers_canon h)

theorem execYield_canon (h : s.Canon) : (execYield s).Canon :=
  Issue.result_canon (outsideTrapWindow_canon h (canon_ite (State.postLeave_canon (State.skip_canon h))
    (State.skip_canon h)))

theorem watchdogTrap_canon (h : s.Canon) : (watchdogTrap s).Canon := takeTrap_canon h

theorem breakpointTrap_canon (h : s.Canon) : (breakpointTrap s).Canon := takeTrap_canon h

theorem execBreakpoint_canon {site : SiteId} {core : CoreId} (h : s.Canon) : (execBreakpoint site core s).Canon :=
  canon_ite (breakpointTrap_canon (State.focus_canon h)) (State.focus_canon h)

theorem execCoupleFollow_canon {site : SiteId} {core : CoreId} (h : s.Canon) :
    (execCoupleFollow site core s).Canon := by
  unfold execCoupleFollow
  dsimp only
  split
  · exact canon_ite ⟨(State.focus_canon h).tile, (State.focus_canon h).wafer⟩ (State.focus_canon h)
  · exact State.focus_canon h

/-! ### Vector -/

theorem State.next2_canon (h : s.Canon) : s.next2.Canon := State.skip_canon h

theorem State.setVec_canon {d : BitVec 5} {r : VReg} {f : FpFlags} (h : s.Canon) : (s.setVec d r f).Canon := h

theorem lanewise_canon {allow : Tag → Bool} {shape : Reads} {f : Tag → Rounding → ℕ → ℕ → ℕ → ℕ × FpFlags}
    {d a b : BitVec 5} {p : BitVec 3} {n : BitVec 1} {fin : State → Issue} (h : s.Canon)
    (hfin : ∀ (t : State), t.Canon → (fin t).Canon) : (lanewise allow shape f d a b p n s fin).Canon := by
  unfold lanewise
  dsimp only
  exact checkTags_canon h (fun x => hfin _ (State.setVec_canon h))

theorem execVadd_canon {d a b : BitVec 5} {p : BitVec 3} {n : BitVec 1} (h : s.Canon) :
    (execVadd d a b p n s).Canon := Issue.result_canon (lanewise_canon h (fun _ h1 => State.next4_canon h1))

theorem execVsub_canon {d a b : BitVec 5} {p : BitVec 3} {n : BitVec 1} (h : s.Canon) :
    (execVsub d a b p n s).Canon := Issue.result_canon (lanewise_canon h (fun _ h1 => State.next4_canon h1))

theorem execVmul_canon {d a b : BitVec 5} {p : BitVec 3} {n : BitVec 1} (h : s.Canon) :
    (execVmul d a b p n s).Canon := Issue.result_canon (lanewise_canon h (fun _ h1 => State.next4_canon h1))

theorem execVfma_canon {d a b : BitVec 5} {p : BitVec 3} {n : BitVec 1} (h : s.Canon) :
    (execVfma d a b p n s).Canon := Issue.result_canon (lanewise_canon h (fun _ h1 => State.next4_canon h1))

theorem execVfms_canon {d a b : BitVec 5} {p : BitVec 3} {n : BitVec 1} (h : s.Canon) :
    (execVfms d a b p n s).Canon := Issue.result_canon (lanewise_canon h (fun _ h1 => State.next4_canon h1))

theorem execVnfma_canon {d a b : BitVec 5} {p : BitVec 3} {n : BitVec 1} (h : s.Canon) :
    (execVnfma d a b p n s).Canon := Issue.result_canon (lanewise_canon h (fun _ h1 => State.next4_canon h1))

theorem execVmax_canon {d a b : BitVec 5} {p : BitVec 3} {n : BitVec 1} (h : s.Canon) :
    (execVmax d a b p n s).Canon := Issue.result_canon (lanewise_canon h (fun _ h1 => State.next4_canon h1))

theorem execVmin_canon {d a b : BitVec 5} {p : BitVec 3} {n : BitVec 1} (h : s.Canon) :
    (execVmin d a b p n s).Canon := Issue.result_canon (lanewise_canon h (fun _ h1 => State.next4_canon h1))

theorem execVabs_canon {d a : BitVec 5} {p : BitVec 3} {n : BitVec 1} (h : s.Canon) : (execVabs d a p n s).Canon :=
  Issue.result_canon (lanewise_canon h (fun _ h1 => State.next4_canon h1))

theorem execVneg_canon {d a : BitVec 5} {p : BitVec 3} {n : BitVec 1} (h : s.Canon) : (execVneg d a p n s).Canon :=
  Issue.result_canon (lanewise_canon h (fun _ h1 => State.next4_canon h1))

theorem execVand_canon {d a b : BitVec 5} {p : BitVec 3} {n : BitVec 1} (h : s.Canon) :
    (execVand d a b p n s).Canon := Issue.result_canon (lanewise_canon h (fun _ h1 => State.next4_canon h1))

theorem execVandn_canon {d a b : BitVec 5} {p : BitVec 3} {n : BitVec 1} (h : s.Canon) :
    (execVandn d a b p n s).Canon := Issue.result_canon (lanewise_canon h (fun _ h1 => State.next4_canon h1))

theorem execVor_canon {d a b : BitVec 5} {p : BitVec 3} {n : BitVec 1} (h : s.Canon) : (execVor d a b p n s).Canon :=
  Issue.result_canon (lanewise_canon h (fun _ h1 => State.next4_canon h1))

theorem execVxor_canon {d a b : BitVec 5} {p : BitVec 3} {n : BitVec 1} (h : s.Canon) :
    (execVxor d a b p n s).Canon := Issue.result_canon (lanewise_canon h (fun _ h1 => State.next4_canon h1))

theorem execVsll_canon {d a b : BitVec 5} {p : BitVec 3} {n : BitVec 1} (h : s.Canon) :
    (execVsll d a b p n s).Canon := Issue.result_canon (lanewise_canon h (fun _ h1 => State.next4_canon h1))

theorem execVsrl_canon {d a b : BitVec 5} {p : BitVec 3} {n : BitVec 1} (h : s.Canon) :
    (execVsrl d a b p n s).Canon := Issue.result_canon (lanewise_canon h (fun _ h1 => State.next4_canon h1))

theorem execVsra_canon {d a b : BitVec 5} {p : BitVec 3} {n : BitVec 1} (h : s.Canon) :
    (execVsra d a b p n s).Canon := Issue.result_canon (lanewise_canon h (fun _ h1 => State.next4_canon h1))

theorem laneMove_canon {ops : List Tag} {d : BitVec 5} {p : BitVec 3} {n : BitVec 1} {f : Tag → ℕ → Option (ℕ × ℕ)}
    {fin : State → Issue} (h : s.Canon) (hfin : ∀ (t : State), t.Canon → (fin t).Canon) :
    (laneMove ops d p n f s fin).Canon := by
  unfold laneMove
  dsimp only
  exact checkTags_canon h (fun x => hfin _ (State.setVec_canon h))

theorem vmovWith_canon {d a : BitVec 5} {p : BitVec 3} {n : BitVec 1} {fin : State → Issue} (h : s.Canon)
    (hfin : ∀ (t : State), t.Canon → (fin t).Canon) : (vmovWith d a p n s fin).Canon := by
  unfold vmovWith
  dsimp only
  exact canon_ite (laneMove_canon h hfin) (hfin _ h)

theorem execVmov_canon {d a : BitVec 5} {p : BitVec 3} {n : BitVec 1} (h : s.Canon) : (execVmov d a p n s).Canon :=
  Issue.result_canon (vmovWith_canon h (fun _ h1 => State.next4_canon h1))

theorem execVsel_canon {d a b : BitVec 5} {p : BitVec 3} {n : BitVec 1} (h : s.Canon) :
    (execVsel d a b p n s).Canon := by
  unfold execVsel
  dsimp only
  exact Issue.result_canon (laneMove_canon h (fun t h1 => State.next4_canon h1))

theorem execVperm_canon {d a b : BitVec 5} {p : BitVec 3} {n : BitVec 1} (h : s.Canon) :
    (execVperm d a b p n s).Canon := by
  unfold execVperm
  dsimp only
  exact Issue.result_canon (laneMove_canon h (fun t h1 => State.next4_canon h1))

theorem execVslup_canon {d a k : BitVec 5} {p : BitVec 3} {n : BitVec 1} (h : s.Canon) :
    (execVslup d a k p n s).Canon := by
  unfold execVslup
  dsimp only
  exact Issue.result_canon (laneMove_canon h (fun t h1 => State.next4_canon h1))

theorem execVsldn_canon {d a k : BitVec 5} {p : BitVec 3} {n : BitVec 1} (h : s.Canon) :
    (execVsldn d a k p n s).Canon := by
  unfold execVsldn
  dsimp only
  exact Issue.result_canon (laneMove_canon h (fun t h1 => State.next4_canon h1))

theorem execVbcast_canon {d a k : BitVec 5} {p : BitVec 3} {n : BitVec 1} (h : s.Canon) :
    (execVbcast d a k p n s).Canon := by
  unfold execVbcast
  dsimp only
  exact Issue.result_canon (laneMove_canon h (fun t h1 => State.next4_canon h1))

theorem execVzip_canon {d a b : BitVec 5} {p : BitVec 3} {n : BitVec 1} (h : s.Canon) :
    (execVzip d a b p n s).Canon := by
  unfold execVzip
  dsimp only
  exact Issue.result_canon (laneMove_canon h (fun t h1 => State.next4_canon h1))

theorem execVunzip_canon {d a b : BitVec 5} {p : BitVec 3} {n : BitVec 1} (h : s.Canon) :
    (execVunzip d a b p n s).Canon := by
  unfold execVunzip
  dsimp only
  exact Issue.result_canon (laneMove_canon h (fun t h1 => State.next4_canon h1))

theorem reduction_canon {f : Tag → Rounding → ℕ → ℕ → ℕ → ℕ × FpFlags} {d a : BitVec 5} {p : BitVec 3}
    {n : BitVec 1} (h : s.Canon) : (reduction f d a p n s).Canon :=
  Issue.result_canon (checkTags_canon h (fun _ => State.next4_canon (State.setVec_canon h)))

theorem compare_canon {cmp : Compare} {d : BitVec 3} {a b : BitVec 5} {p : BitVec 3} {n : BitVec 1} (h : s.Canon) :
    (compare cmp d a b p n s).Canon := Issue.result_canon (checkTags_canon h (fun _ => State.next4_canon h))

theorem predicate_canon {d : BitVec 3} {v : Word} (h : s.Canon) : (predicate d v s).Canon :=
  Issue.result_canon (State.next4_canon h)

theorem State.setConverted_canon {d : BitVec 5} {tgt : Tag} {r : List ℕ × FpFlags × Word} (h : s.Canon) :
    (s.setConverted d tgt r).Canon := h

theorem conversion_canon {always : Bool} {word : Word} {admitted : Tag → Bool} {d a t : BitVec 5} {p : BitVec 3}
    {n : BitVec 1} (h : s.Canon) : (conversion always word admitted d a t p n s).Canon := by
  unfold conversion
  dsimp only
  refine Issue.result_canon ?_
  split
  · exact h
  · exact canon_ite h (checkTags_canon h (fun x => State.next4_canon (State.setConverted_canon h)))

theorem execVtag_canon {d a t : BitVec 5} (h : s.Canon) : (execVtag d a t s).Canon := by
  unfold execVtag
  dsimp only
  refine Issue.result_canon ?_
  split
  · exact h
  · exact State.next4_canon (State.setVec_canon h)

theorem execVrndi_canon {d a : BitVec 5} {p : BitVec 3} {n : BitVec 1} (h : s.Canon) : (execVrndi d a p n s).Canon :=
  Issue.result_canon (lanewise_canon h (fun _ h1 => State.next4_canon h1))

theorem execVfexp_canon {d a : BitVec 5} {p : BitVec 3} {n : BitVec 1} (h : s.Canon) : (execVfexp d a p n s).Canon :=
  Issue.result_canon (lanewise_canon h (fun _ h1 => State.next4_canon h1))

theorem execVgetexp_canon {d a : BitVec 5} {p : BitVec 3} {n : BitVec 1} (h : s.Canon) :
    (execVgetexp d a p n s).Canon := Issue.result_canon (lanewise_canon h (fun _ h1 => State.next4_canon h1))

theorem execVrcp_canon {d a : BitVec 5} {p : BitVec 3} {n : BitVec 1} (h : s.Canon) : (execVrcp d a p n s).Canon :=
  Issue.result_canon (lanewise_canon h (fun _ h1 => State.next4_canon h1))

theorem execVrsq_canon {d a : BitVec 5} {p : BitVec 3} {n : BitVec 1} (h : s.Canon) : (execVrsq d a p n s).Canon :=
  Issue.result_canon (lanewise_canon h (fun _ h1 => State.next4_canon h1))

theorem execVexpins_canon {d a b : BitVec 5} {p : BitVec 3} {n : BitVec 1} (h : s.Canon) :
    (execVexpins d a b p n s).Canon := Issue.result_canon (lanewise_canon h (fun _ h1 => State.next4_canon h1))

theorem execVcvti_canon {d a : BitVec 5} {p : BitVec 3} {n : BitVec 1} (h : s.Canon) : (execVcvti d a p n s).Canon :=
  Issue.result_canon (checkTags_canon h (fun _ => State.next4_canon (State.setConverted_canon h)))

theorem execVqnt_canon {d a : BitVec 5} {j : BitVec 2} (h : s.Canon) : (execVqnt d a j s).Canon :=
  Issue.result_canon (canon_ite h (checkTags_canon h (fun _ => State.next4_canon h)))

theorem execVcvts_canon {d a b : BitVec 5} {p : BitVec 3} {n : BitVec 1} (h : s.Canon) :
    (execVcvts d a b p n s).Canon :=
  Issue.result_canon (checkTags_canon h (fun _ => checkTags_canon h (fun _ => checkTags_canon h (fun _ =>
    State.next4_canon (State.setConverted_canon h)))))

theorem execVdq_canon {d a : BitVec 5} {m p : BitVec 3} {n : BitVec 1} (h : s.Canon) : (execVdq d a m p n s).Canon :=
  Issue.result_canon (checkTags_canon h (fun _ => State.next4_canon (State.setVec_canon h)))

theorem execBarq_canon {d a : BitVec 5} {p : BitVec 3} {n : BitVec 1} (h : s.Canon) : (execBarq d a p n s).Canon :=
  Issue.result_canon (checkTags_canon h (fun _ => State.next4_canon (State.setVec_canon h)))

theorem execVaddC_canon {d v : BitVec 5} {m : BitVec 1} (h : s.Canon) : (execVaddC d v m s).Canon :=
  Issue.result_canon (lanewise_canon h (fun _ h1 => State.next2_canon h1))

theorem execVsubC_canon {d v : BitVec 5} {m : BitVec 1} (h : s.Canon) : (execVsubC d v m s).Canon :=
  Issue.result_canon (lanewise_canon h (fun _ h1 => State.next2_canon h1))

theorem execVmulC_canon {d v : BitVec 5} {m : BitVec 1} (h : s.Canon) : (execVmulC d v m s).Canon :=
  Issue.result_canon (lanewise_canon h (fun _ h1 => State.next2_canon h1))

theorem execVmaxC_canon {d v : BitVec 5} {m : BitVec 1} (h : s.Canon) : (execVmaxC d v m s).Canon :=
  Issue.result_canon (lanewise_canon h (fun _ h1 => State.next2_canon h1))

theorem execVminC_canon {d v : BitVec 5} {m : BitVec 1} (h : s.Canon) : (execVminC d v m s).Canon :=
  Issue.result_canon (lanewise_canon h (fun _ h1 => State.next2_canon h1))

theorem execVandC_canon {d v : BitVec 5} {m : BitVec 1} (h : s.Canon) : (execVandC d v m s).Canon :=
  Issue.result_canon (lanewise_canon h (fun _ h1 => State.next2_canon h1))

theorem execVandnC_canon {d v : BitVec 5} {m : BitVec 1} (h : s.Canon) : (execVandnC d v m s).Canon :=
  Issue.result_canon (lanewise_canon h (fun _ h1 => State.next2_canon h1))

theorem execVorC_canon {d v : BitVec 5} {m : BitVec 1} (h : s.Canon) : (execVorC d v m s).Canon :=
  Issue.result_canon (lanewise_canon h (fun _ h1 => State.next2_canon h1))

theorem execVxorC_canon {d v : BitVec 5} {m : BitVec 1} (h : s.Canon) : (execVxorC d v m s).Canon :=
  Issue.result_canon (lanewise_canon h (fun _ h1 => State.next2_canon h1))

theorem execVmovC_canon {d v : BitVec 5} {m : BitVec 1} (h : s.Canon) : (execVmovC d v m s).Canon :=
  Issue.result_canon (vmovWith_canon h (fun _ h1 => State.next2_canon h1))

theorem execVabsC_canon {d v : BitVec 5} {m : BitVec 1} (h : s.Canon) : (execVabsC d v m s).Canon :=
  Issue.result_canon (lanewise_canon h (fun _ h1 => State.next2_canon h1))

theorem execVnegC_canon {d v : BitVec 5} {m : BitVec 1} (h : s.Canon) : (execVnegC d v m s).Canon :=
  Issue.result_canon (lanewise_canon h (fun _ h1 => State.next2_canon h1))

theorem execVsllC_canon {d v : BitVec 5} {m : BitVec 1} (h : s.Canon) : (execVsllC d v m s).Canon :=
  Issue.result_canon (lanewise_canon h (fun _ h1 => State.next2_canon h1))

theorem execVsrlC_canon {d v : BitVec 5} {m : BitVec 1} (h : s.Canon) : (execVsrlC d v m s).Canon :=
  Issue.result_canon (lanewise_canon h (fun _ h1 => State.next2_canon h1))

theorem execVsraC_canon {d v : BitVec 5} {m : BitVec 1} (h : s.Canon) : (execVsraC d v m s).Canon :=
  Issue.result_canon (lanewise_canon h (fun _ h1 => State.next2_canon h1))

theorem execVfmacC_canon {d v : BitVec 5} {m : BitVec 1} (h : s.Canon) : (execVfmacC d v m s).Canon :=
  Issue.result_canon (lanewise_canon h (fun _ h1 => State.next2_canon h1))

/-! ### SignalBox -/

theorem State.mapBox_canon {f : Box → Box} (h : s.Canon) (hf : ∀ (x : Box), x.Canon → (f x).Canon) :
    (s.mapBox f).Canon := ⟨⟨h.tile.mem, hf _ h.tile.box⟩, h.wafer⟩

theorem Box.removeFlow_canon {b : Box} {f : BitVec 6} (hb : b.Canon) : (b.removeFlow f).Canon :=
  ⟨(Box.setWord_canon hb).table, (Box.setWord_canon hb).store, (Box.setWord_canon hb).mem⟩

theorem Box.emptied_canon {b : Box} (hb : b.Canon) : b.emptied.Canon :=
  canon_ite hb (canon_foldl hb (fun _ _ h => Box.removeFlow_canon h))

theorem ackPacket_canon {m : Msg} (h : s.Canon) : (ackPacket m s).Canon := by
  unfold ackPacket
  split
  · exact ackMessage_canon h
  · exact State.ackMembers_canon h
  · exact State.ackTo_canon h
  · exact h

theorem enterBox_canon {p : Packet} {f : BitVec 6} {h1 : Header} (h : s.Canon) : (enterBox p f h1 s).Canon :=
  canon_ite h (State.mapBox_canon (State.noteInput_canon (State.recordChannel_canon (State.dropPacket_canon h))) (fun
    _ h2 => h2))

theorem boxArrival_canon {p : Packet} {n : ℕ} (h : s.Canon) : (boxArrival p n s).Canon := by
  unfold boxArrival
  dsimp only
  split
  · exact canon_ite h (canon_ite (ackPacket_canon (State.dropPacket_canon h)) (canon_ite (State.dropPacket_canon h)
      (canon_ite h (enterBox_canon h))))
  · exact h

theorem execSignalBoxPacketArrival_canon {id : ℕ} (h : s.Canon) : (execSignalBoxPacketArrival id s).Canon := by
  unfold execSignalBoxPacketArrival
  split
  · split
    · exact boxArrival_canon (State.focusSite_canon h)
    · exact h
  · exact h

theorem Box.countPacket_canon {b : Box} {f : BitVec 6} (hb : b.Canon) : (b.countPacket f).Canon :=
  Box.setWord_canon hb

theorem startRun_canon (h : s.Canon) : (startRun s).Canon := by
  unfold startRun
  extract_lets b
  split
  next f p r _ _ =>
    refine State.mapBox_canon h fun c hb => ?_
    have hc : (c.countPacket f).Canon := Box.countPacket_canon hb
    exact ⟨hc.table, hc.store, hc.mem⟩
  · exact h

theorem execKernelRun_canon {site : SiteId} (h : s.Canon) : (execKernelRun site s).Canon :=
  canon_ite (State.focusSite_canon h) (startRun_canon (State.focusSite_canon h))

theorem deliverRun_canon {r : BoxRun} {m : Msg} (h : s.Canon) : (deliverRun r m s).Canon := h

theorem discardRun_canon {r : BoxRun} (h : s.Canon) : (discardRun r s).Canon := by
  unfold discardRun
  dsimp only
  split
  · exact ackMessage_canon (markMessage_canon h)
  · exact State.ackMembers_canon h
  · exact State.storeDone_canon h
  · exact h

theorem boxSend_canon {line : Line} {l : TileNo} {m : Msg} (h : s.Canon) : (boxSend s line l m).Canon :=
  State.setPacket_canon (State.inject_canon h)

theorem boxMessage_canon {job : BitVec 6} {t core q : ℕ} {d : V256} (h : s.Canon) :
    (boxMessage s job t core q d).Canon := boxSend_canon (State.mapBox_canon h (fun _ h1 => h1))

theorem commitRun_canon {r : BoxRun} (h : s.Canon) : (commitRun r s).Canon :=
  canon_foldl (State.mapBox_canon h (fun _ h1 => ⟨h1.table, h1.store, writeCells_wf _ h1.mem⟩)) (fun _ _ h1 =>
    boxMessage_canon h1)

theorem Box.noteTrap_canon {b : Box} {f : BitVec 6} {d : V256} (hb : b.Canon) : (b.noteTrap f d).Canon := by
  unfold Box.noteTrap
  extract_lets w full lost c
  have hc : c.Canon := Box.setWord_canon hb
  exact canon_ite hc ⟨hc.table, hc.store, hc.mem⟩

theorem kernelTrap_canon {r : BoxRun} {cause operand : ℕ} (h : s.Canon) : (kernelTrap r cause operand s).Canon := by
  unfold kernelTrap
  extract_lets d drop t
  have ht : t.Canon := State.mapBox_canon h fun b hb =>
    have hd : (b.noteTrap r.flow d).Canon := Box.noteTrap_canon hb
    ⟨hd.table, hd.store, hd.mem⟩
  exact canon_ite (discardRun_canon ht) (deliverRun_canon ht)

theorem execTrapRecordInject_canon {site : SiteId} (h : s.Canon) : (execTrapRecordInject site s).Canon := by
  unfold execTrapRecordInject
  dsimp only
  split
  · exact State.focusSite_canon h
  · exact canon_ite (State.focusSite_canon h) (canon_ite (State.mapBox_canon (State.focusSite_canon h) (fun x h1 =>
      h1)) (boxMessage_canon (State.mapBox_canon (State.focusSite_canon h) (fun x h1 => h1))))

theorem boxIssue_canon {illegal : Box → BoxRun → Bool} {w : ℕ} {cost : BoxRun → ℕ} {k : BoxRun → State → State}
    (h : s.Canon) (hk : ∀ (x : BoxRun) (t : State), t.Canon → (k x t).Canon) :
    (boxIssue illegal w cost s k).Canon := by
  unfold boxIssue
  split
  · exact h
  · exact canon_ite (kernelTrap_canon h) (canon_ite (kernelTrap_canon h) (hk _ _ h))

theorem goOn_canon {r : BoxRun} (h : s.Canon) : (goOn r s).Canon := h

theorem boxOp_canon {cost : ℕ} {f : BoxRun → BoxRun} (h : s.Canon) : (boxOp cost f s).Canon :=
  boxIssue_canon h (fun _ _ h1 => goOn_canon h1)

theorem scalarOp_canon {f : W32 → W32 → W32} {d a b : BitVec 4} (h : s.Canon) : (scalarOp f d a b s).Canon :=
  boxOp_canon h

theorem scalarImm_canon {f : W32 → W32 → W32} {d a : BitVec 4} {i : BitVec 13} (h : s.Canon) :
    (scalarImm f d a i s).Canon := boxOp_canon h

theorem execSbLi_canon {d : BitVec 4} {i : BitVec 16} (h : s.Canon) : (execSbLi d i s).Canon := boxOp_canon h

theorem execSbLih_canon {d : BitVec 4} {i : BitVec 16} (h : s.Canon) : (execSbLih d i s).Canon := boxOp_canon h

theorem boxBranch_canon {onZero : Bool} {w : ℕ} {a : BitVec 4} {o : BitVec 11} (h : s.Canon) :
    (boxBranch onZero w a o s).Canon := by
  unfold boxBranch
  dsimp only
  exact boxIssue_canon h (fun x t h1 => canon_ite (State.mapBox_canon h1 (fun x1 h2 => h2)) (goOn_canon h1))

theorem execSbRpt_canon {n : BitVec 3} {c : BitVec 4} (h : s.Canon) : (execSbRpt n c s).Canon :=
  boxIssue_canon h (fun _ _ h1 => State.mapBox_canon h1 (fun _ h2 => h2))

theorem boxControl_canon {w : ℕ} {k : BoxRun → State → State} (h : s.Canon)
    (hk : ∀ (x : BoxRun) (t : State), t.Canon → (k x t).Canon) : (boxControl w s k).Canon :=
  boxIssue_canon h hk

theorem execSbDone_canon (h : s.Canon) : (execSbDone s).Canon :=
  boxControl_canon h (fun _ _ h1 => deliverRun_canon (commitRun_canon h1))

theorem execSbDrop_canon (h : s.Canon) : (execSbDrop s).Canon :=
  boxControl_canon h (fun _ _ h1 => discardRun_canon (commitRun_canon h1))

theorem execSbReroute_canon {a : BitVec 4} (h : s.Canon) : (execSbReroute a s).Canon :=
  boxControl_canon h (fun _ _ h1 => canon_ite (kernelTrap_canon h1) (State.setPacket_canon (State.launchPacket_canon
    (commitRun_canon h1))))

theorem execSbTrap_canon {a : BitVec 4} {c : BitVec 8} (h : s.Canon) : (execSbTrap a c s).Canon :=
  boxControl_canon h (fun _ _ h1 => kernelTrap_canon h1)

theorem stateAt_canon {a : BitVec 4} {i : BitVec 13} {n : ℕ} {r : BoxRun} {k : ℕ → State} (h : s.Canon)
    (hk : ∀ (x : ℕ), (k x).Canon) : (stateAt a i n r s k).Canon :=
  canon_ite (kernelTrap_canon h) (hk _)

theorem execSbLdst_canon {d a : BitVec 4} {i : BitVec 13} (h : s.Canon) : (execSbLdst d a i s).Canon :=
  boxIssue_canon h (fun _ _ h1 => stateAt_canon h1 (fun _ => goOn_canon h1))

theorem execSbStst_canon {d a : BitVec 4} {i : BitVec 13} (h : s.Canon) : (execSbStst d a i s).Canon :=
  boxIssue_canon h (fun _ _ h1 => stateAt_canon h1 (fun _ => goOn_canon h1))

theorem execSbVldst_canon {d : BitVec 3} {a : BitVec 4} {i : BitVec 13} (h : s.Canon) : (execSbVldst d a i s).Canon :=
  boxIssue_canon h (fun _ _ h1 => stateAt_canon h1 (fun _ => goOn_canon h1))

theorem execSbVstst_canon {d : BitVec 3} {a : BitVec 4} {i : BitVec 13} (h : s.Canon) : (execSbVstst d a i s).Canon :=
  boxIssue_canon h (fun _ _ h1 => stateAt_canon h1 (fun _ => goOn_canon h1))

theorem execSbVrdp_canon {d : BitVec 3} {k : BitVec 2} (h : s.Canon) : (execSbVrdp d k s).Canon := boxOp_canon h

theorem execSbVwrp_canon {d : BitVec 3} {k : BitVec 2} (h : s.Canon) : (execSbVwrp d k s).Canon := boxOp_canon h

theorem execSbRdh_canon {d i : BitVec 4} (h : s.Canon) : (execSbRdh d i s).Canon :=
  boxIssue_canon h (fun _ _ h1 => h1)

theorem vectorOp_canon {cost : ℕ} {f : ℕ → ℕ → ℕ} {d a b : BitVec 3} (h : s.Canon) :
    (vectorOp cost f d a b s).Canon := boxOp_canon h

theorem execSbVaddi_canon {d a b : BitVec 3} (h : s.Canon) : (execSbVaddi d a b s).Canon := vectorOp_canon h

theorem execSbVaddf_canon {d a b : BitVec 3} (h : s.Canon) : (execSbVaddf d a b s).Canon := vectorOp_canon h

theorem execSbVmulf_canon {d a b : BitVec 3} (h : s.Canon) : (execSbVmulf d a b s).Canon := vectorOp_canon h

theorem execSbVmaxf_canon {d a b : BitVec 3} (h : s.Canon) : (execSbVmaxf d a b s).Canon := vectorOp_canon h

theorem execSbVminf_canon {d a b : BitVec 3} (h : s.Canon) : (execSbVminf d a b s).Canon := vectorOp_canon h

theorem execSbVmaxi_canon {d a b : BitVec 3} (h : s.Canon) : (execSbVmaxi d a b s).Canon := vectorOp_canon h

theorem execSbVcvtbfF2b_canon {d a : BitVec 3} {h1 : BitVec 1} (h : s.Canon) : (execSbVcvtbfF2b d a h1 s).Canon :=
  boxOp_canon h

theorem execSbVcvtbfB2f_canon {d a : BitVec 3} {h1 : BitVec 1} (h : s.Canon) : (execSbVcvtbfB2f d a h1 s).Canon :=
  boxOp_canon h

theorem execSbVsum_canon {d : BitVec 4} {a : BitVec 3} (h : s.Canon) : (execSbVsum d a s).Canon := boxOp_canon h

theorem execSbVcmpf_canon {d : BitVec 4} {a b : BitVec 3} {c : BitVec 2} (h : s.Canon) :
    (execSbVcmpf d a b c s).Canon := boxOp_canon h

theorem execSbVself_canon {d a b : BitVec 3} {c : BitVec 4} (h : s.Canon) : (execSbVself d a b c s).Canon :=
  boxOp_canon h

theorem State.recordBox_canon {v : W32} (h : s.Canon) : OnSome (fun x => x.2.Canon) (s.recordBox v) := by
  unfold State.recordBox
  dsimp only
  split
  · split <;> exact h
  · exact canon_ite (State.noteDet_canon h) trivial

theorem execSbStamp_canon {d : BitVec 4} (h : s.Canon) : (execSbStamp d s).Canon := by
  unfold execSbStamp
  refine boxIssue_canon h ?_
  intro x t h1
  split
  · exact goOn_canon ((State.recordBox_canon h1).of_eq ‹_›)
  · exact h

theorem execSbEmit_canon {d : BitVec 3} {a : BitVec 4} (h : s.Canon) : (execSbEmit d a s).Canon :=
  boxIssue_canon h (fun _ _ h1 => canon_ite (kernelTrap_canon h1) (goOn_canon h1))

/-! ### Boundary -/

theorem State.eachCore_canon {f : State → State} (h : s.Canon) (hf : ∀ (t : State), t.Canon → (f t).Canon) :
    (s.eachCore f).Canon := State.focusCore_canon (canon_foldl h (fun _ _ h1 => hf _ (State.focusCore_canon h1)))

theorem State.loadTile_canon {t : Tile} {cs : List (CoreId × Core)} (h : s.Canon) (ht : t.Canon) :
    (s.loadTile t cs).Canon := ⟨ht, h.wafer⟩

theorem Wafer.setWaybill_canon {w : Wafer} {l : TileNo} {f : Waybill → Waybill} (hw : w.Canon)
    (hf : ∀ b : Waybill, b.Canon → (f b).Canon) : (w.setWaybill l f).Canon :=
  ⟨hw.hbm, hw.host, hw.peer, hw.sites, List.forall_mem_map.mpr fun b hb =>
    canon_ite (hf b (hw.healing.waybills b hb)) (hw.healing.waybills b hb), hw.healing.away⟩

theorem State.mapWaybill_canon {f : Waybill → Waybill} (h : s.Canon) (hf : ∀ (x : Waybill), x.Canon → (f x).Canon) :
    (s.mapWaybill f).Canon := ⟨h.tile, Wafer.setWaybill_canon h.wafer hf⟩

theorem State.requestBoundary_canon (h : s.Canon) : s.requestBoundary.Canon := canon_ite h (State.updCores_canon h)

theorem State.askStaging_canon (h : s.Canon) : s.askStaging.Canon :=
  canon_foldl h (fun _ _ h1 => State.atSite_canon h1 (fun _ h2 => State.requestBoundary_canon h2))

theorem execIntervalTimer_canon {site : SiteId} (h : s.Canon) : (execIntervalTimer site s).Canon :=
  canon_ite (State.requestBoundary_canon (State.focusSite_canon h)) (State.focusSite_canon h)

theorem execCloseRequestArrival_canon {id : ℕ} (h : s.Canon) : (execCloseRequestArrival id s).Canon := by
  unfold execCloseRequestArrival
  split
  · exact State.takeAtJunction_canon h (fun x t h1 => canon_ite (State.requestBoundary_canon h1) h1)
  · exact h

theorem execCkpt_canon (h : s.Canon) : (execCkpt s).Canon := by
  have ht : ((s.skip 4).retire).Canon := State.retire_canon (State.skip_canon h)
  unfold execCkpt
  show State.Canon _
  exact canon_ite (State.requestBoundary_canon ht) ht

theorem withdrawWaits_canon (h : s.Canon) : (withdrawWaits s).Canon :=
  ⟨(canon_foldl h (fun _ _ h1 => abandonFetch_canon h1)).tile, (canon_foldl h (fun _ _ h1 => abandonFetch_canon
    h1)).wafer⟩

theorem settleCore_canon (h : s.Canon) : (settleCore s).Canon := State.flushAll_canon (withdrawWaits_canon h)

theorem drainSlice_canon {k n : ℕ} (h : s.Canon) : (drainSlice k n s).Canon := by
  induction n generalizing s with
  | zero => exact h
  | succ n ih => exact canon_ite (ih (applyNext_canon h)) h

theorem drainSlices_canon (h : s.Canon) : (drainSlices s).Canon := canon_foldl h (fun _ _ h1 => drainSlice_canon h1)

theorem State.image_canon {n : ℕ} (h : s.Canon) : (s.image n).Canon := h.tile

theorem State.reportMarks_canon (h : s.Canon) : s.reportMarks.Canon := State.mapWaybill_canon h (fun _ h1 => h1)

theorem Wafer.copyImage_canon {w : Wafer} {a n : ℕ} {m : Memory} (hw : w.Canon) : (w.copyImage a n m).Canon :=
  ⟨writeCells_wf _ (filter_wf _ hw.hbm), hw.host, hw.peer, hw.sites, hw.healing⟩

theorem Wafer.writeArea_canon {w : Wafer} {a : ℕ} {img : Image} (hw : w.Canon) : (w.writeArea a img).Canon :=
  ⟨writeCells_wf _ hw.hbm, hw.host, hw.peer, hw.sites, hw.healing⟩

theorem Wafer.writeRecord_canon {w : Wafer} {b : Waybill} {img : Image} (hw : w.Canon) :
    (w.writeRecord b img).Canon := by
  unfold Wafer.writeRecord
  dsimp only
  split
  · exact Wafer.copyImage_canon (Wafer.writeArea_canon hw)
  · exact Wafer.writeArea_canon hw

theorem Wafer.writeSlot_canon {w : Wafer} {b : Waybill} {epoch : BitVec 16} {img : Image} (hw : w.Canon) :
    (w.writeSlot b epoch img).Canon := Wafer.writeArea_canon (Wafer.copyImage_canon hw)

theorem State.writeDepot_canon {epoch : BitVec 16} {img : Image} (h : s.Canon) : (s.writeDepot epoch img).Canon := by
  unfold State.writeDepot
  split
  · exact ⟨h.tile, Wafer.writeSlot_canon h.wafer⟩
  · exact h

theorem takeDepot_canon {img : Image} (himg : img.Canon) (h : s.Canon) : (takeDepot img s).Canon := by
  unfold takeDepot
  split
  · split
    · refine State.writeDepot_canon (State.mapWaybill_canon ⟨h.tile, h.wafer⟩ fun b hb => ?_)
      refine ⟨hb.committed, hb.staged, List.forall_mem_append.mpr ⟨?_, List.forall_mem_singleton.mpr himg⟩⟩
      exact fun p hp => hb.depots p (List.mem_of_mem_filter hp)
    · exact h
  · exact h

theorem State.enterEpoch_canon (h : s.Canon) : s.enterEpoch.Canon := by
  unfold State.enterEpoch
  dsimp only
  split <;> exact h

theorem State.noteBoundary_canon (h : s.Canon) : s.noteBoundary.Canon := by
  unfold State.noteBoundary
  dsimp only
  split
  · exact h
  · exact State.noteDet_canon h

theorem State.nextInterval_canon (h : s.Canon) : s.nextInterval.Canon := h

theorem takeBoundary_canon (h : s.Canon) : (takeBoundary s).Canon := by
  unfold takeBoundary
  extract_lets n area live s1 s2 __src img s3 s4 s5 __src1
  have hs1 : s1.Canon := State.nextInterval_canon (State.enterEpoch_canon (State.noteBoundary_canon h))
  have hs2 : s2.Canon := canon_ite (State.reportMarks_canon hs1) hs1
  have h__src : __src.Canon := State.image_canon hs2
  have himg : img.Canon := h__src
  have hs3 : s3.Canon := State.updCores_canon hs2
  have hs4 : s4.Canon := canon_ite (takeDepot_canon h__src hs2) hs2
  have hs5 : s5.Canon := State.mapWaybill_canon hs4 (fun x h1 => ⟨h1.committed, h__src, h1.depots⟩)
  have h__src1 : __src1.Canon := hs4.tile
  exact hs5

theorem State.pause_canon (h : s.Canon) : s.pause.Canon := canon_ite h h

theorem State.resumeCores_canon (h : s.Canon) : s.resumeCores.Canon := h

theorem State.dropSaved_canon (h : s.Canon) : s.dropSaved.Canon := h

theorem boundaryStep_canon (h : s.Canon) : (boundaryStep s).Canon := by
  unfold boundaryStep
  extract_lets t
  have ht : t.Canon := State.pause_canon (drainSlices_canon (State.eachCore_canon (State.updCores_canon h) fun _ hz =>
    settleCore_canon hz))
  exact canon_ite (State.resumeCores_canon (State.dropSaved_canon (takeBoundary_canon ht))) ht

theorem execCheckpointBoundary_canon {site : SiteId} (h : s.Canon) : (execCheckpointBoundary site s).Canon := by
  unfold execCheckpointBoundary
  dsimp only
  split
  · exact State.focusSite_canon h
  · split <;> exact canon_ite (boundaryStep_canon (State.focusSite_canon h)) (State.focusSite_canon h)

theorem Wafer.appendDet_canon {w : Wafer} {b : Waybill} {d : Det} (hw : w.Canon) : (w.appendDet b d).Canon := by
  unfold Wafer.appendDet
  extract_lets cells v
  clear_value cells
  have hv : v.Canon := ⟨writeCells_wf cells hw.hbm, hw.host, hw.peer, hw.sites, hw.healing⟩
  exact Wafer.setWaybill_canon hv fun _ hx => ⟨hx.committed, hx.staged, hx.depots⟩

theorem noteMerge_canon {d : DomainKey} (h : s.Canon) : (noteMerge d s).Canon := by
  unfold noteMerge
  split
  · exact h
  next b _ =>
    extract_lets num det p w e
    have hw : w.Canon := Wafer.appendDet_canon h.wafer
    exact ⟨h.tile, hw.hbm, hw.host, hw.peer, hw.sites, hw.healing.waybills, hw.healing.away⟩

theorem mergeHere_canon {d : DomainKey} {ms : List (ℕ × CoreId)} (h : s.Canon) : (mergeHere d ms s).Canon :=
  mergeTile_canon (canon_ite (noteMerge_canon h) h)

theorem execDeterministicMerge_canon {d : DomainKey} (h : s.Canon) : (execDeterministicMerge d s).Canon := by
  unfold execDeterministicMerge
  show State.Canon _
  split
  · refine canon_ite ?_ h
    extract_lets ms t u
    have ht : t.Canon := State.atSites_canon h fun v hv => mergeHere_canon hv
    have hu : u.Canon := canon_foldl ht fun v a hv => mergeRim_canon hv
    exact canon_ite (releaseBarrier_canon hu) ⟨hu.tile, Wafer.setPhase_canon hu.wafer⟩
  · exact h

theorem sendNotices_canon {img : Image} (h : s.Canon) : (sendNotices img s).Canon := by
  refine canon_foldl h fun t c ht => ?_
  split <;> exact ht

theorem sendCovers_canon {img : Image} (h : s.Canon) : (sendCovers img s).Canon :=
  canon_foldl (canon_foldl h (fun _ _ h1 => canon_foldl h1 (fun _ _ h2 => canon_ite (State.launchPacket_canon h2)
    h2))) (fun _ _ h1 => canon_foldl h1 (fun _ _ h2 => canon_ite (State.launchPacket_canon h2) h2))

theorem Wafer.freeReplies_canon {w : Wafer} {l : TileNo} {n : ℕ} (hw : w.Canon) : (w.freeReplies l n).Canon := hw

theorem commitBoundary_canon {b : Waybill} {img : Image} {n : ℕ} (himg : img.Canon) (h : s.Canon) :
    (commitBoundary b img n s).Canon := by
  unfold commitBoundary
  extract_lets num t u v _ x
  have ht : t.Canon := State.mapWaybill_canon h fun b hb => ⟨himg, trivial, hb.depots⟩
  have hu : u.Canon := ⟨ht.tile, Wafer.writeRecord_canon ht.wafer⟩
  have hv : v.Canon := sendCovers_canon (sendNotices_canon hu)
  have hx : x.Canon := ⟨⟨hv.tile.mem, hv.tile.box⟩, Wafer.freeReplies_canon hv.wafer⟩
  clear_value x
  exact State.updCores_canon hx

theorem execBoundaryCommit_canon {site : SiteId} (h : s.Canon) : Result.Canon (execBoundaryCommit site s) := by
  unfold execBoundaryCommit
  extract_lets t
  have ht : t.Canon := State.focusSite_canon h
  show State.Canon _
  split
  next b hb =>
    split
    next img n hs =>
      have hb : b.Canon := (Wafer.waybill_canon ht.wafer).of_eq hb
      exact canon_ite ht (commitBoundary_canon (hb.staged.of_eq hs) ht)
    · exact ht
  · exact ht

theorem execShadowApplyComplete_canon {site : SiteId} (h : s.Canon) : Result.Canon (execShadowApplyComplete site s) :=
  ⟨h.tile, h.wafer.hbm, h.wafer.host, h.wafer.peer, h.wafer.sites,
    List.forall_mem_map.mpr fun b hb => canon_ite (P := Waybill.Canon) (h.wafer.healing.waybills b hb)
      (h.wafer.healing.waybills b hb), h.wafer.healing.away⟩

theorem execCommitNoticeArrival_canon {id : ℕ} (h : s.Canon) : (execCommitNoticeArrival id s).Canon := by
  unfold execCommitNoticeArrival
  dsimp only
  split
  · refine State.takeAtJunction_canon h ?_
    intro x t h1
    split
    · split
      · exact State.setRimMarks_canon h1
      · exact h1
    · exact h1
  · exact h

theorem performDeterminant_canon {p : Packet} (h : s.Canon) : (performDeterminant p s).Canon := by
  unfold performDeterminant
  split
  · split
    · exact h
    · extract_lets t u
      have ht : t.Canon := canon_ite ⟨h.tile, Wafer.appendDet_canon h.wafer⟩ h
      have hu : u.Canon := State.rimSend_canon ht
      split
      · exact canon_ite (State.atSite_canon hu fun v hv => State.requestBoundary_canon hv) hu
      · exact hu
  · exact h

theorem execDeterminantRecordArrival_canon {id : ℕ} (h : s.Canon) : (execDeterminantRecordArrival id s).Canon := by
  unfold execDeterminantRecordArrival
  split
  · split
    · exact canon_ite h (performDeterminant_canon (State.dropPacket_canon h))
    · exact h
  · exact h

theorem execDeterminantConfirmation_canon {id : ℕ} (h : s.Canon) : (execDeterminantConfirmation id s).Canon := by
  unfold execDeterminantConfirmation
  dsimp only
  split
  · exact State.takeAtJunction_canon h (fun x t h1 => h1)
  · exact h

theorem execOutputMarkReport_canon {site : SiteId} (h : s.Canon) : (execOutputMarkReport site s).Canon :=
  canon_ite (State.focusSite_canon h) (State.reportMarks_canon (State.focusSite_canon h))

theorem execHeartbeat_canon {site : SiteId} (h : s.Canon) : (execHeartbeat site s).Canon :=
  canon_ite (State.focusSite_canon h) (State.mapWaybill_canon ⟨⟨((State.focusSite_canon h).tile).mem,
    ((State.focusSite_canon h).tile).box⟩, (State.focusSite_canon h).wafer⟩ (fun _ h1 => h1))

/-! ### Healing -/

theorem State.turnBack_canon (h : s.Canon) : s.turnBack.Canon := h

theorem State.sendAgain_canon {ps : List Packet} (h : s.Canon) : (State.sendAgain ps s).Canon := h

theorem State.cutOff_canon (h : s.Canon) : s.cutOff.Canon := h

theorem State.resendHeld_canon (h : s.Canon) : s.resendHeld.Canon := by
  unfold State.resendHeld
  dsimp only
  split <;> exact State.sendAgain_canon h

theorem stopTile_canon (h : s.Canon) : (stopTile s).Canon :=
  State.cutOff_canon (State.resendHeld_canon (State.turnBack_canon h))

theorem State.noteFailure_canon (h : s.Canon) : s.noteFailure.Canon := State.mapWaybill_canon h (fun _ h1 => h1)

theorem holderLost_canon (h : s.Canon) : (holderLost s).Canon := by
  unfold holderLost
  dsimp only
  split
  · exact State.mapWaybill_canon h (fun x h1 => ⟨h1.committed, trivial, h1.depots⟩)
  · exact State.requestBoundary_canon (canon_foldl (State.mapWaybill_canon h (fun x h1 => ⟨h1.committed, trivial,
      h1.depots⟩)) (fun b a h1 => State.launchPacket_canon h1))

theorem fence_canon (h : s.Canon) : (fence s).Canon := by
  unfold fence
  extract_lets q __src s1 s2 __src1 l members r s3 h1 __src2 s4 s5
  have hs1 : s1.Canon := h
  have hs2 : s2.Canon := State.atSites_canon h (fun t h2 => holderLost_canon h2)
  have hs3 : s3.Canon := State.noteFailure_canon hs2
  have hh1 : h1.Canon := hs3.wafer.healing
  have h__src2 : __src2.Canon := hs3.wafer
  have hs4 : s4.Canon := hs3
  have hs5 : s5.Canon := stopTile_canon hs3
  exact canon_ite hs2 (canon_ite hs2 (canon_ite hs2 (State.atSites_canon hs5 (fun t h2 => stopTile_canon h2))))

theorem checkSite_canon {err : ErrorReport} (h : s.Canon) : (checkSite err s).Canon :=
  fence_canon (canon_ite h (State.machineCheck_canon h))

theorem checkJunction_canon {err : ErrorReport} (h : s.Canon) : (checkJunction err s).Canon := by
  unfold checkJunction
  extract_lets s1 h1 __src __src1
  have hs1 : s1.Canon := State.junctionError_canon h
  have hh1 : h1.Canon := hs1.wafer.healing
  have h__src1 : __src1.Canon := hs1.wafer
  exact canon_ite hs1 (fence_canon hs1)

theorem correctedError_canon {err : ErrorReport} (h : s.Canon) : (correctedError err s).Canon := by
  unfold correctedError
  dsimp only
  split
  · exact ⟨⟨((State.tileError_canon h).tile).mem, ((State.tileError_canon h).tile).box⟩, (State.tileError_canon
      h).wafer⟩
  · exact State.updCore_canon (State.tileError_canon h)
  · exact State.tileError_canon h

theorem hiddenError_canon {err : ErrorReport} (h : s.Canon) : (hiddenError err s).Canon :=
  canon_ite (State.atSites_canon (State.tileError_canon h) (fun _ h1 => State.requestBoundary_canon h1))
    (checkSite_canon h)

theorem breakSector_canon {err : ErrorReport} (h : s.Canon) : (breakSector err s).Canon := h

theorem execMachineCheck_canon {site : SiteId} {err : ErrorReport} (h : s.Canon) :
    (execMachineCheck site err s).Canon := by
  unfold execMachineCheck
  dsimp only
  split
  · exact State.junctionError_canon (State.focusSite_canon h)
  · exact checkJunction_canon (State.focusSite_canon h)
  · exact checkJunction_canon (State.focusSite_canon h)
  · exact State.controllerError_canon (State.focusSite_canon h)
  · exact breakSector_canon (State.focusSite_canon h)
  · exact breakSector_canon (State.focusSite_canon h)
  · exact State.tileError_canon (State.focusSite_canon h)
  · exact holderLost_canon (State.tileError_canon (State.focusSite_canon h))
  · exact State.focusSite_canon h
  · exact State.focusSite_canon h
  · exact hiddenError_canon (State.focusSite_canon h)
  · exact canon_ite (correctedError_canon (State.focusSite_canon h)) (canon_ite (checkSite_canon
      (State.focusSite_canon h)) (State.focusSite_canon h))

theorem execWatchdogTimeout_canon {site : SiteId} (h : s.Canon) : (execWatchdogTimeout site s).Canon := by
  unfold execWatchdogTimeout
  dsimp only
  split
  · exact canon_ite (checkSite_canon (State.focusSite_canon h)) (State.focusSite_canon h)
  · exact State.focusSite_canon h

theorem State.mapRecovery_canon {l : TileNo} {f : Recovery → Recovery} (h : s.Canon) : (s.mapRecovery l f).Canon := h

theorem State.post_canon {n : Notice} (h : s.Canon) : (s.post n).Canon := h

theorem execHoldComplete_canon {tile : TileNo} {place : Option SiteId} (h : s.Canon) :
    (execHoldComplete tile place s).Canon := by
  unfold execHoldComplete
  dsimp only
  split
  · split
    · exact h
    · split
      · exact State.mapRecovery_canon (State.post_canon h)
      · split
        · exact State.mapRecovery_canon h
        · exact State.mapRecovery_canon (State.post_canon h)
        · exact h
  · exact h

theorem addEntry_canon {k : DomainKey} {x : SiteId} (h : s.Canon) : OnSome State.Canon (addEntry k x s) :=
  OnSome.map fun _ => State.atSite_canon h fun _ ht => ht

theorem addTree_canon {k : DomainKey} {members : List SiteId} (h : s.Canon) :
    OnSome State.Canon (addTree k members s) := by
  unfold addTree
  split
  · exact h
  · exact canon_foldl (P := OnSome State.Canon) h fun o x ho => ho.bind fun _ ht => addEntry_canon ht

theorem rebuildTree_canon {k : DomainKey} {members : List SiteId} (h : s.Canon) : (rebuildTree k members s).Canon := by
  unfold rebuildTree
  split
  · exact h
  · exact canon_foldl h fun t x ht => canon_ite (canon_ite ht ((addEntry_canon ht).getD ht))
      (canon_ite (State.atSite_canon ht fun _ hu => hu) ht)

theorem rebuildTrees_canon {job : BitVec 6} {failed x : SiteId} (h : s.Canon) : (rebuildTrees job failed x s).Canon :=
  canon_foldl h (fun _ _ h1 => canon_ite (rebuildTree_canon h1) h1)

theorem movePoints_canon {r : Recovery} {x : SiteId} (h : s.Canon) : (movePoints r x s).Canon := by
  unfold movePoints
  extract_lets l ids old s1 s2 f away __src
  have hs1 : s1.Canon := State.atSites_canon h (fun t h1 => h1)
  have hs2 : s2.Canon := by
    dsimp only [s2]
    split
    · exact rebuildTrees_canon hs1
    · exact hs1
  have h__src : __src.Canon := hs2.wafer
  exact hs2

theorem execPointsChangeComplete_canon {tile : TileNo} (h : s.Canon) : (execPointsChangeComplete tile s).Canon := by
  unfold execPointsChangeComplete
  split
  · split
    · exact State.mapRecovery_canon (movePoints_canon h)
    · exact h
  · exact h

theorem restoreImage_canon {b : Waybill} {bank : ErrBank} {leave : Option Leave} (hb : b.Canon) (h : s.Canon) :
    (restoreImage b bank leave s).Canon := by
  unfold restoreImage
  extract_lets img _ t d f u _ v now
  have ht : t.Canon := ⟨hb.committed.tile.mem, hb.committed.tile.box⟩
  have hu : u.Canon := State.dropSaved_canon (State.loadTile_canon h ht)
  have hv : v.Canon :=
    ⟨hu.tile, writeCells_wf _ hu.wafer.hbm, hu.wafer.host, hu.wafer.peer, hu.wafer.sites, hu.wafer.healing⟩
  exact State.mapWaybill_canon hv fun x hx => ⟨hx.committed, trivial, hx.depots⟩

theorem resendUnrecorded_canon {b : Waybill} (h : s.Canon) : (resendUnrecorded b s).Canon := h

theorem restoreMember_canon {l : TileNo} (h : s.Canon) : (restoreMember l s).Canon := by
  unfold restoreMember
  split
  · exact State.atSite_canon h (fun t h1 => resendUnrecorded_canon (restoreImage_canon ((Wafer.waybill_canon
      h.wafer).of_eq ‹_›) h1))
  · exact h

theorem vacate_canon (h : s.Canon) : (vacate s).Canon := State.loadTile_canon h ⟨rfl, rfl, rfl, rfl⟩

theorem placeTile_canon {b : Waybill} {bank : ErrBank} {leave : Option Leave} (hb : b.Canon) (h : s.Canon) :
    (placeTile b bank leave s).Canon := by
  have ht : (restoreImage b bank leave s).Canon := restoreImage_canon hb h
  refine canon_ite ⟨h.tile, ht.wafer.hbm, ht.wafer.host, ht.wafer.peer, ht.wafer.sites, ht.wafer.healing.waybills, ?_⟩ ht
  exact List.forall_mem_append.mpr ⟨ht.wafer.healing.away, List.forall_mem_singleton.mpr ht.tile⟩

theorem execRestorationComplete_canon {tile : TileNo} (h : s.Canon) : (execRestorationComplete tile s).Canon := by
  unfold execRestorationComplete
  dsimp only
  split
  · split
    · exact canon_ite h (State.mapRecovery_canon (canon_foldl (State.atSite_canon (State.atSite_canon h (fun t h1 =>
        vacate_canon h1)) (fun t h1 => resendUnrecorded_canon (placeTile_canon ((Wafer.waybill_canon h.wafer).of_eq
        ‹_›) h1))) (fun b a h1 => restoreMember_canon h1)))
    · exact h
  · exact h

theorem replayAccumulate_canon {p : Packet} {q : AccReq} (h : s.Canon) :
    OnSome State.Canon (replayAccumulate p q s) :=
  canon_ite (performDeterministic_canon h) (performRequest_canon (State.setHomeMarks_canon h))

theorem replayReply_canon {p : Packet} {d : Det} (h : s.Canon) : OnSome State.Canon (replayReply p d s) := by
  have reply (o : Option ℕ) (q : ℕ → Packet) : OnSome State.Canon (o.bind fun f => performReply (q f) s) :=
    OnSome.bind (P := fun _ => True) (by cases o <;> trivial) fun _ _ => performReply_canon h
  unfold replayReply
  extract_lets c at_
  split
  · exact reply _ _
  · split
    · exact canon_ite (performFill_canon h) trivial
    · exact performFill_canon h
  · exact reply _ _
  · exact reply _ _
  · split
    · exact State.updCore_canon (s := s) h
    · trivial
  · trivial

theorem replayPacket_canon {p : Packet} {d : Det} (h : s.Canon) : OnSome State.Canon (replayPacket p d s) := by
  unfold replayPacket
  split
  · exact performMessage_canon h
  · exact performWindow_canon h
  · exact performWrite_canon h
  · exact performWrite_canon h
  · exact performWrite_canon h
  · exact performPut_canon h
  · exact performFullEmpty_canon h
  · exact performChunk_canon h
  · exact performChunk_canon h
  · exact performWindow_canon h
  · exact replayAccumulate_canon h
  · exact performRequest_canon h
  · exact performBounce_canon h
  · exact releaseAgain_canon h
  · exact mergeTile_canon h
  · exact replayReply_canon h

theorem replayFlow_canon {p : Packet} (h : s.Canon) : (replayFlow p s).Canon := by
  unfold replayFlow
  split
  · exact State.mapBox_canon h (fun x h1 => h1)
  · exact h

theorem askPayload_canon {p : Packet} {num : ℕ} (h : s.Canon) : (askPayload p num s).Canon :=
  canon_ite h (State.launchPacket_canon h)

theorem replayRecord_canon {p : Packet} {d : Det} (h : s.Canon) : OnSome State.Canon (replayRecord p d s) := by
  unfold replayRecord
  split
  · exact OnSome.bind (P := fun _ => True) (by cases s.delivered p <;> trivial) fun q _ =>
      replayPacket_canon (State.dropPacket_canon h)
  · exact replayPacket_canon h

theorem replayNext_canon (h : s.Canon) : OnSome State.Canon (replayNext s) := by
  unfold replayNext
  split
  next num d rest _ =>
    extract_lets drop
    have hdrop (t : State) (ht : t.Canon) : (drop t).Canon := ht
    split
    · trivial
    · split
      · exact canon_ite (P := OnSome State.Canon) (boundaryStep_canon h) trivial
      · split
        · exact hdrop _ h
        · split
          · exact hdrop _ (State.focusCore_canon (flushAged_canon (State.focusCore_canon h)))
          · split
            · exact hdrop _ h
            · split
              · exact canon_ite (P := OnSome State.Canon) trivial (askPayload_canon h)
              · split
                · exact hdrop _ (replayFlow_canon h)
                · exact (replayRecord_canon h).mapCanon hdrop
  · trivial

theorem Tile.live_canon {stop : ℕ} {t : Tile} (ht : t.Canon) : (Tile.live stop t).Canon := ht

theorem goLive_canon {stop : ℕ} (h : s.Canon) : (goLive stop s).Canon := canon_ite (State.requestBoundary_canon h) h

theorem resumeTile_canon {l : TileNo} (h : s.Canon) : (resumeTile l s).Canon := by
  unfold resumeTile
  extract_lets stop live
  have hlive (a : AwayTile) (ha : a.Canon) : (live a).Canon := canon_ite ha.image.tile ha
  split
  · exact State.atSite_canon h fun t ht => goLive_canon ht
  · exact ⟨h.tile, h.wafer.hbm, h.wafer.host, h.wafer.peer, h.wafer.sites, h.wafer.healing.waybills,
      List.forall_mem_map.mpr fun a ha => hlive a (h.wafer.healing.away a ha)⟩

theorem execReplayEnd_canon {tile : TileNo} (h : s.Canon) : Result.Canon (execReplayEnd tile s) := by
  unfold execReplayEnd
  show State.Canon _
  split
  next r _ =>
    extract_lets all t u g
    have ht : t.Canon := canon_foldl h fun _ _ hx => resumeTile_canon hx
    have hu : u.Canon := State.atSite_canon ht fun _ hx => hx
    exact canon_ite hu h
  · exact h

theorem execSendLogFetch_canon {id : ℕ} (h : s.Canon) : (execSendLogFetch id s).Canon := by
  unfold execSendLogFetch
  dsimp only
  split
  · refine State.takeAtJunction_canon h ?_
    intro x t h1
    split
    · exact State.atSite_canon h1 (fun t1 h2 => h2)
    · exact h1
  · exact h

theorem execHolderLoss_canon {site : SiteId} (h : s.Canon) : (execHolderLoss site s).Canon :=
  State.atSites_canon h (fun _ h1 => holderLost_canon h1)

theorem execFlitCrcFailure_canon {site : SiteId} {port : Port} {line : Line} {x : Bool} (h : s.Canon) :
    (execFlitCrcFailure site port line x s).Canon := by
  unfold execFlitCrcFailure
  extract_lets t retries _ u err
  have ht : t.Canon := State.focusSite_canon h
  have hu : u.Canon := ⟨ht.tile, ht.wafer.hbm, ht.wafer.host, ht.wafer.peer, ht.wafer.sites, ht.wafer.healing⟩
  show State.Canon _
  exact canon_ite (checkJunction_canon hu) (State.junctionError_canon hu)

theorem losePower_canon (h : s.Canon) : (losePower s).Canon := fence_canon h

theorem execPowerDomainFault_canon {domain : BitVec 6} {kind : PowerFault} (h : s.Canon) :
    (execPowerDomainFault domain kind s).Canon :=
  State.atSites_canon (State.atSites_canon (State.postError_canon h) (fun _ h1 => losePower_canon h1)) (fun _ h1 =>
    holderLost_canon h1)

/-! ### Depot -/

theorem Wafer.setJob_canon {w : Wafer} {j : BitVec 6} {f : Job → Job} (hw : w.Canon) : (w.setJob j f).Canon := hw

theorem askDepot_canon (h : s.Canon) : (askDepot s).Canon := State.requestBoundary_canon h

theorem execDepotRoundOpen_canon {job : BitVec 6} (h : s.Canon) : (execDepotRoundOpen job s).Canon := by
  unfold execDepotRoundOpen
  dsimp only
  split
  · exact h
  · exact canon_ite h (State.atSites_canon h (fun t h1 => askDepot_canon h1))

theorem execDepotInducedBoundary_canon {id : ℕ} (h : s.Canon) : (execDepotInducedBoundary id s).Canon := by
  unfold execDepotInducedBoundary
  dsimp only
  split
  · exact canon_ite h (canon_ite (State.focusSite_canon h) (boundaryStep_canon (askDepot_canon (State.focusSite_canon
      h))))
  · exact h

theorem execDepotRoundComplete_canon {job : BitVec 6} (h : s.Canon) :
    Result.Canon (execDepotRoundComplete job s) := by
  unfold execDepotRoundComplete
  show State.Canon _
  split
  · exact h
  next r _ =>
    extract_lets g mine rounds waybills _ t now
    have ht : t.Canon := by
      refine ⟨h.tile, h.wafer.hbm, h.wafer.host, h.wafer.peer, h.wafer.sites, ?_, h.wafer.healing.away⟩
      refine List.forall_mem_map.mpr fun b hb => ?_
      have hb : b.Canon := h.wafer.healing.waybills b hb
      exact canon_ite ⟨hb.committed, hb.staged, fun p hp => hb.depots p (List.mem_of_mem_filter hp)⟩ hb
    exact canon_ite ⟨ht.tile, Wafer.setJob_canon ht.wafer⟩ h

theorem moveFailed_canon {job : BitVec 6} (h : s.Canon) : OnSome State.Canon (moveFailed job s) := by
  refine canon_foldl (P := OnSome State.Canon) h fun o r ho => ho.bind fun t ht => ?_
  split
  · exact ht
  · split
    · exact ht
    · exact ht
    · split
      · exact State.mapRecovery_canon (movePoints_canon ht)
      · trivial

theorem Wafer.setBack_canon {w : Wafer} {r : DepotRound} (hw : w.Canon) : (w.setBack r).Canon :=
  ⟨writeCells_wf _ (writeCells_wf _ hw.hbm), hw.host, hw.peer, hw.sites, hw.healing⟩

theorem loadDepot_canon {b : Waybill} {img : Image} (himg : img.Canon) (h : s.Canon) :
    (loadDepot b img s).Canon := by
  unfold loadDepot
  extract_lets _ t d f u _ v now
  have ht : t.Canon := ⟨himg.tile.mem, himg.tile.box⟩
  have hu : u.Canon := State.loadTile_canon h ht
  have hv : v.Canon :=
    ⟨hu.tile, writeCells_wf _ hu.wafer.hbm, hu.wafer.host, hu.wafer.peer, hu.wafer.sites, hu.wafer.healing⟩
  exact State.mapWaybill_canon hv fun x hx =>
    ⟨himg, trivial, fun p hp => hx.depots p (List.mem_of_mem_filter hp)⟩

theorem deliverChannel_canon {l : List Packet} (h : s.Canon) : (deliverChannel l s).Canon :=
  canon_foldl h (fun _ _ h1 => h1)

theorem recoverTile_canon {epoch : BitVec 16} {b : Waybill} (h : s.Canon) (hb : b.Canon) :
    (recoverTile epoch s b).Canon := by
  unfold recoverTile
  split
  next x d _ hd =>
    extract_lets t
    have ht : t.Canon := by
      dsimp only [t]
      split
      · exact State.atSite_canon h fun u hu => vacate_canon ⟨hu.tile, hu.wafer⟩
      · exact h
    have hd : d.2.Canon := hb.depots d (List.mem_of_find?_eq_some hd)
    exact State.atSite_canon ht fun u hu => deliverChannel_canon (loadDepot_canon hd hu)
  · exact h

theorem countAgain_canon {job : BitVec 6} (h : s.Canon) : (countAgain job s).Canon :=
  State.atSites_canon h (fun _ h1 => State.eachCore_canon h1 (fun _ h2 => canon_foldl h2 (fun _ _ h3 => canon_ite
    ⟨h3.tile, Wafer.count_canon h3.wafer⟩ h3)))

theorem execDepotRecovery_canon {job : BitVec 6} (h : s.Canon) : Result.Canon (execDepotRecovery job s) := by
  unfold execDepotRecovery
  show State.Canon _
  split
  next r t _ hm =>
    have ht : t.Canon := (moveFailed_canon h).of_eq hm
    extract_lets bs ts u net rim slices _ v w g rounds _ x now
    have hu : u.Canon := ht
    have hv : v.Canon := ⟨hu.tile, Wafer.setBack_canon hu.wafer⟩
    have hw : w.Canon := List.foldlRecOn bs (recoverTile r.epoch) hv fun y hy b hb =>
      recoverTile_canon hy (ht.wafer.healing.waybills b (List.mem_of_mem_filter hb))
    have hx : x.Canon := ⟨hw.tile, hw.wafer.hbm, hw.wafer.host, hw.wafer.peer, hw.wafer.sites,
      hw.wafer.healing.waybills, hw.wafer.healing.away⟩
    exact countAgain_canon ⟨hx.tile, Wafer.setJob_canon hx.wafer⟩
  · exact h

theorem execPeerUnreachable_canon {peer : BitVec 8} (h : s.Canon) : Result.Canon (execPeerUnreachable peer s) := by
  unfold execPeerUnreachable
  extract_lets rim waits ps t
  refine canon_ite (P := State.Canon) h (canon_foldl h fun u p hu => ?_)
  split
  · exact State.rimSend_canon hu
  · exact hu

/-! ### Save -/

theorem State.saveCore_canon {save : ℕ} {ms : List Message} (h : s.Canon) : (s.saveCore save ms).Canon :=
  ⟨h.tile, Wafer.copyImage_canon h.wafer⟩

/-! ### Teams -/

theorem freshTile_canon {old : Tile} {job : BitVec 6} {prio : BitVec 2} {jt : TileNo} {jshape record : Word}
    {epoch : BitVec 16} {policy : Word × Word} {clock : ℕ} (hold : old.Canon) :
    (freshTile old job prio jt jshape record epoch policy clock).Canon := ⟨rfl, Box.emptied_canon hold.box⟩

theorem giveTile_canon {r : BindRecord} (h : s.Canon) : (giveTile r s).Canon :=
  canon_ite h (State.loadTile_canon h (freshTile_canon h.tile))

theorem claimTile_canon {r : BindRecord} {teamOf : CoreId → W32} (h : s.Canon) : (claimTile r teamOf s).Canon :=
  canon_ite (giveTile_canon h) ⟨Tile.readRecord_canon ((giveTile_canon h).tile), (giveTile_canon h).wafer⟩

theorem bindCore_canon {c : CoreId} {r : BindRecord} (h : s.Canon) : (bindCore c r s).Canon := by
  unfold bindCore
  extract_lets s1 n __src __src1 s2
  have hs1 : s1.Canon := claimTile_canon h
  have h__src : __src.Canon := hs1.tile
  have h__src1 : __src1.Canon := hs1.wafer
  have hs2 : s2.Canon := hs1
  exact State.updCore_canon hs1

theorem bindDraft_canon {r : BindRecord} (h : s.Canon) : (bindDraft r s).Canon := bindCore_canon h

theorem execBindRecordWrite_canon {site : SiteId} {core : CoreId} {r : Option BindRecord} (h : s.Canon) :
    (execBindRecordWrite site core r s).Canon := by
  unfold execBindRecordWrite
  dsimp only
  split
  · exact bindCore_canon (State.focusSite_canon h)
  · exact canon_ite (State.writeTileRecord_canon (State.updCore_canon (State.focusSite_canon h))) (State.updCore_canon
      (State.focusSite_canon h))

theorem splitMessages_canon {c : CoreId} {t : Tile} (ht : t.Canon) : (splitMessages c t).2.Canon := ht

theorem saveSlot_canon {p : CoreId × BindRecord} (h : s.Canon) : (saveSlot s p).Canon :=
  State.focusCore_canon (State.saveCore_canon ⟨splitMessages_canon ((State.focusCore_canon h).tile),
    (State.focusCore_canon h).wafer⟩)

theorem saveTeam_canon {team : W32} (h : s.Canon) : (saveTeam team s).Canon := by
  unfold saveTeam
  extract_lets slots cores t s1 s2 __src
  have hs1 : s1.Canon := canon_foldl h (fun b a h1 => saveSlot_canon h1)
  have hs2 : s2.Canon := State.emptySlots_canon hs1
  have h__src : __src.Canon := hs2.wafer
  exact hs2

theorem restoreSlot_canon {job : BitVec 6} {old : Core} {left : ℕ} {p : CoreId × BindRecord} (h : s.Canon) :
    (restoreSlot job old left s p).Canon := State.updCore_canon h

theorem restoreTeam_canon {t : SavedTeam} (h : s.Canon) : (restoreTeam t s).Canon := by
  unfold restoreTeam
  refine canon_ite ?_ h
  extract_lets u _ v x _ y
  have hu : u.Canon := by
    dsimp only [u]
    split
    · exact claimTile_canon h
    · exact h
  have hv : v.Canon := ⟨Tile.farEmpty_canon hu.tile, hu.wafer⟩
  have hx : x.Canon := canon_foldl hv fun _ _ hz => restoreSlot_canon hz
  have hy : y.Canon := ⟨hx.tile, hx.wafer.hbm, hx.wafer.host, hx.wafer.peer, hx.wafer.sites, hx.wafer.healing⟩
  exact canon_ite (State.requestBoundary_canon hy) hy

theorem execTeamRestore_canon {job : BitVec 6} {team : W32} (h : s.Canon) : (execTeamRestore job team s).Canon := by
  unfold execTeamRestore
  split
  · split
    · exact restoreTeam_canon (State.focusSite_canon h)
    · exact h
  · exact h

theorem swapTiles_canon {a : AwayTile} (ha : a.Canon) (h : s.Canon) : (swapTiles a s).Canon := by
  unfold swapTiles
  extract_lets t out g now _ u _ v slots x
  have ht : t.Canon := State.writeTileRecord_canon (canon_foldl h fun _ _ hz => saveSlot_canon hz)
  have hout : out.Canon := State.image_canon ht
  have hu : u.Canon :=
    ⟨ht.tile, ht.wafer.hbm, ht.wafer.host, ht.wafer.peer, ht.wafer.sites, ht.wafer.healing.waybills,
      List.forall_mem_append.mpr ⟨fun b hb => ht.wafer.healing.away b (List.mem_of_mem_filter hb),
        List.forall_mem_singleton.mpr hout⟩⟩
  have hv : v.Canon := State.loadTile_canon hu ⟨ha.image.tile.mem, ha.image.tile.box⟩
  have hx : x.Canon := ⟨Tile.readRecord_canon hv.tile, hv.wafer⟩
  exact canon_ite (canon_foldl hx fun _ _ hz => restoreSlot_canon hz) hv

theorem State.stay_canon (h : s.Canon) : s.stay.Canon := h

theorem State.settle_canon (h : s.Canon) : s.settle.Canon :=
  State.pause_canon (drainSlices_canon (State.eachCore_canon (State.updCores_canon h) (fun _ h1 => settleCore_canon
    h1)))

theorem leaveTeam_canon {team : W32} (h : s.Canon) : (leaveTeam team s).Canon := by
  unfold leaveTeam
  extract_lets t u v _
  have ht : t.Canon := State.settle_canon (State.requestBoundary_canon h)
  have hu : u.Canon := canon_ite (takeBoundary_canon ht) ht
  have hv : v.Canon := State.resumeCores_canon (State.stay_canon (saveTeam_canon hu))
  clear_value v
  refine canon_ite ?_ ht
  exact canon_ite (State.requestBoundary_canon hv) ⟨⟨hv.tile.mem, hv.tile.box⟩, hv.wafer⟩

theorem leaveSite_canon {a : AwayTile} (ha : a.Canon) (h : s.Canon) : (leaveSite a s).Canon := by
  unfold leaveSite
  extract_lets t
  have ht : t.Canon := State.settle_canon h
  exact canon_ite (State.resumeCores_canon (swapTiles_canon ha (State.stay_canon ht))) ht

theorem State.awayHere_canon (h : s.Canon) : OnSome AwayTile.Canon s.awayHere := canon_find h.wafer.healing.away

theorem pursueLeave_canon (h : s.Canon) : (pursueLeave s).Canon := by
  unfold pursueLeave
  split
  · exact h
  · split
    · exact h
    · split
      · exact canon_ite (State.stay_canon h) (leaveTeam_canon (callLeavers_canon h))
      · exact leaveSite_canon ((State.awayHere_canon h).of_eq ‹_›) (callLeavers_canon h)
      · exact State.stay_canon h

theorem execPreemptionRequest_canon {site : SiteId} {team : W32} (h : s.Canon) :
    (execPreemptionRequest site team s).Canon :=
  canon_ite (pursueLeave_canon (State.postLeave_canon (State.focusSite_canon h))) (pursueLeave_canon
    (State.focusSite_canon h))

theorem execTimeSliceExpiry_canon {site : SiteId} (h : s.Canon) : (execTimeSliceExpiry site s).Canon := by
  unfold execTimeSliceExpiry
  dsimp only
  split
  · exact State.focusSite_canon h
  · split
    · exact pursueLeave_canon (State.postLeave_canon (State.focusSite_canon h))
    · split
      · exact pursueLeave_canon (State.postLeave_canon (State.focusSite_canon h))
      · exact State.focusSite_canon h

theorem messageAway_canon {core : CoreId} (h : s.Canon) : (messageAway core s).Canon := by
  unfold messageAway
  dsimp only
  split
  · exact h
  · split
    · exact h
    · exact canon_ite h ⟨h.tile, writeCells_wf _ h.wafer.hbm, h.wafer.host, h.wafer.peer, h.wafer.sites,
        h.wafer.healing⟩

theorem State.complete_canon {tag : W32} {status : ℕ} {values : List ℕ} {bytes : List Byte} (h : s.Canon) :
    (s.complete tag status values bytes).Canon := h

theorem State.accept_canon {tag : W32} (h : s.Canon) : (s.accept tag).Canon := h

theorem State.turnDown_canon {tag : W32} {code : ℕ} (h : s.Canon) : (s.turnDown tag code).Canon := h

theorem resumeStopped_canon (h : s.Canon) : (resumeStopped s).Canon := by
  unfold resumeStopped
  dsimp only
  split <;> exact h

theorem endHalted_canon (h : s.Canon) : (endHalted s).Canon :=
  State.checkTeamEnd_canon (canon_ite (exitServer_canon h) (exitThread_canon h))

theorem execResumeCore_canon {tag : W32} {tile : TileNo} {order : ResumeOrder} (h : s.Canon) :
    (execResumeCore tag tile order s).Canon := by
  unfold execResumeCore
  dsimp only
  split
  · exact canon_ite (State.accept_canon (State.atSite_canon h (fun t h1 => State.focusCore_canon (canon_ite
      (endHalted_canon (State.focusCore_canon h1)) (resumeStopped_canon (State.focusCore_canon h1))))))
      (State.turnDown_canon h)
  · exact State.turnDown_canon h

theorem endThreads_canon {job : BitVec 6} {team : W32} {w : Wafer} (hw : w.Canon) : (endThreads job team w).Canon :=
  hw

theorem State.dropTasks_canon {tile : TileNo} {team : W32} (h : s.Canon) : (s.dropTasks tile team).Canon := by
  unfold State.dropTasks
  split
  · exact State.atSite_canon h fun t ht => State.setQueue_canon ht (Tile.freeTeam_canon ht.tile)
  · extract_lets g drop
    have hdrop (a : AwayTile) (ha : a.Canon) : (drop a).Canon := canon_ite (Tile.freeTeam_canon ha.image.tile) ha
    exact ⟨h.tile, h.wafer.hbm, h.wafer.host, h.wafer.peer, h.wafer.sites, h.wafer.healing.waybills,
      List.forall_mem_map.mpr fun a ha => hdrop a (h.wafer.healing.away a ha)⟩

theorem execEndTeam_canon {tag : W32} {job : BitVec 6} {team : W32} (h : s.Canon) :
    Result.Canon (execEndTeam tag job team s) := by
  unfold execEndTeam
  extract_lets t
  show State.Canon _
  split
  next k _ =>
    extract_lets u rest w
    have hu : u.Canon := State.dropTasks_canon h
    have hw : w.Canon := endThreads_canon
      ⟨hu.wafer.hbm, hu.wafer.host, hu.wafer.peer, hu.wafer.sites, hu.wafer.healing⟩
    exact State.accept_canon ⟨hu.tile, Wafer.tileEnded_canon hw⟩
  · split
    · refine canon_ite (State.turnDown_canon h) (State.accept_canon (State.atSite_canon h fun u hu => ?_))
      have hw : (endThreads job team u.wafer).Canon := endThreads_canon hu.wafer
      exact State.endTeamHere_canon ⟨hu.tile, hw⟩
    · exact State.turnDown_canon h

/-! ### Loader -/

theorem flowEntry_canon {b : List Byte} : (flowEntry b).Canon := ⟨writeCells_wf _ rfl, rfl, rfl⟩

theorem Box.install_canon {b d : Box} {f : BitVec 6} {e : ℕ} {job : BitVec 6} {ws : List ℕ} (hb : b.Canon) :
    (b.install d f e job ws).Canon := by
  unfold Box.install
  extract_lets ctl prog entry
  exact ⟨writeCells_wf _ hb.table, writeCells_wf _ hb.store, writeCells_wf _ hb.mem⟩

theorem execInstallFlow_canon {c : InstallCmd} (h : s.Canon) : (execInstallFlow c s).Canon := by
  unfold execInstallFlow
  dsimp only
  split
  · exact State.turnDown_canon h
  · split
    · split
      · exact State.complete_canon h
      · split
        · exact State.complete_canon h
        · split
          · exact State.turnDown_canon h
          · split
            · exact State.turnDown_canon h
            · split
              · exact State.complete_canon h
              · exact State.complete_canon (State.atSite_canon h (fun t h1 => State.mapBox_canon h1 (fun x h2 =>
                  Box.install_canon h2)))
    · exact State.turnDown_canon h

theorem execRemoveFlow_canon {tag : W32} {job : BitVec 6} {tile : TileNo} {flow : BitVec 6} (h : s.Canon) :
    (execRemoveFlow tag job tile flow s).Canon := by
  unfold execRemoveFlow
  dsimp only
  split
  · exact State.complete_canon h
  · exact canon_ite (State.accept_canon (State.atSite_canon h (fun t h1 => State.mapBox_canon h1 (fun x h2 =>
      Box.removeFlow_canon h2)))) (State.complete_canon h)

/-! ### Launch -/

theorem dissolveJob_canon {k : Job} (h : s.Canon) : (dissolveJob s k).Canon := by
  unfold dissolveJob
  extract_lets xs ts s1 h1 __src
  have hs1 : s1.Canon := State.atSites_canon h (fun t h2 => State.loadTile_canon h2 ⟨rfl, Box.emptied_canon
    h2.tile.box⟩)
  have hh1 : h1.Canon := hs1.wafer.healing
  have h__src : __src.Canon := hs1.wafer
  exact ⟨hs1.tile, hs1.wafer.hbm, hs1.wafer.host, hs1.wafer.peer, hs1.wafer.sites, fun p hp =>
    hs1.wafer.healing.waybills p (List.mem_of_mem_filter hp), fun p hp => hs1.wafer.healing.away p
    (List.mem_of_mem_filter hp)⟩

theorem Memory.clear_canon {m : Memory} {a n : ℕ} (hm : m.wf = true) : (m.clear a n).wf = true := filter_wf _ hm

theorem bindImage_canon {epoch : BitVec 16} (h : s.Canon) : (bindImage epoch s).Canon := by
  unfold bindImage
  extract_lets _ img t
  have himg : img.Canon := State.image_canon h
  have ht : t.Canon := State.mapWaybill_canon h fun b hb =>
    ⟨himg, hb.staged, List.forall_mem_singleton.mpr himg⟩
  split
  · exact ⟨ht.tile, Wafer.writeSlot_canon (Wafer.writeRecord_canon ht.wafer)⟩
  · exact ht

theorem giveJobTile_canon {j : Job} {a : LaunchHbm} {p : ℕ × SiteId} (h : s.Canon) :
    (giveJobTile j a s p).Canon := by
  unfold giveJobTile
  extract_lets n record
  refine State.atSite_canon h fun t ht => ?_
  extract_lets u v g b rest hbm _
  have hu : u.Canon := freshTile_canon ht.tile
  have hv : v.Canon := State.loadTile_canon ht hu
  refine bindImage_canon ⟨hv.tile, Memory.clear_canon (Memory.clear_canon hv.wafer.hbm), hv.wafer.host, hv.wafer.peer, hv.wafer.sites,
    List.forall_mem_append.mpr ⟨?_, List.forall_mem_singleton.mpr ?_⟩, hv.wafer.healing.away⟩
  · exact fun c hc => hv.wafer.healing.waybills c (List.mem_of_mem_filter hc)
  · exact ⟨State.image_canon hv, trivial, List.forall_mem_nil _⟩

theorem bindJob_canon {j : Job} {a : LaunchHbm} {ps : List (ℕ × SiteId)} (h : s.Canon) :
    (bindJob j a ps s).Canon := by
  unfold bindJob
  extract_lets now __src s1 s2 t r h1 __src1
  have h__src : __src.Canon := h.wafer
  have hs1 : s1.Canon := h
  have hs2 : s2.Canon := canon_foldl h (fun b a1 h2 => giveJobTile_canon h2)
  have ht : t.Canon := ⟨rfl, rfl, rfl, rfl⟩
  have hh1 : h1.Canon := hs2.wafer.healing
  have h__src1 : __src1.Canon := hs2.wafer
  exact hs2

theorem buildTrees_canon {l : Launch} {ps : List (ℕ × SiteId)} (h : s.Canon) : OnSome State.Canon (buildTrees l ps s) :=
  canon_foldl (P := OnSome State.Canon) h fun _ _ ho => ho.bind fun _ ht => addTree_canon ht

theorem queueTeam_canon {rs : List (CoreId × BindRecord)} (h : s.Canon) : (queueTeam rs s).Canon := by
  unfold queueTeam
  split
  · exact h
  · extract_lets n t k _
    have ht : t.Canon := by
      refine canon_foldl h fun u r hu => ?_
      extract_lets v saved
      have hv : v.Canon := State.focusCore_canon hu
      have hsaved : saved.Canon := State.saveCore_canon ⟨hv.tile, hv.wafer⟩
      exact State.focusCore_canon ⟨hsaved.tile, hsaved.wafer⟩
    exact ⟨ht.tile, ht.wafer.hbm, ht.wafer.host, ht.wafer.peer, ht.wafer.sites, ht.wafer.healing⟩

theorem bindTeam_canon {c : LaunchCmd} {d : LaunchDesc} {j : Job} {l : Launch} {a : LaunchHbm} {new : Bool}
    (h : s.Canon) : (bindTeam c d j l a new s).Canon := by
  unfold bindTeam
  extract_lets rs t
  have ht : t.Canon := canon_ite (canon_foldl h fun _ _ hz => bindCore_canon hz) (queueTeam_canon h)
  exact canon_ite (bindImage_canon ht) (canon_ite (State.requestBoundary_canon ht) ht)

theorem placeLaunch_canon {c : LaunchCmd} {d : LaunchDesc} {j : Job} {a : LaunchHbm} (h : s.Canon) :
    OnSome State.Canon (placeLaunch c d j a s) := by
  unfold placeLaunch
  extract_lets t new _
  have ht : t.Canon := canon_foldl h fun _ _ hz => dissolveJob_canon hz
  split
  · trivial
  · extract_lets u rect l w v
    have hu : u.Canon := canon_ite (bindJob_canon ht) ht
    have hw : w.Canon := ⟨hu.wafer.hbm, hu.wafer.host, hu.wafer.peer, hu.wafer.sites, hu.wafer.healing⟩
    have hv : v.Canon := ⟨hu.tile, Wafer.setJob_canon hw⟩
    exact (buildTrees_canon hv).mapCanon fun _ hx => canon_foldl hx fun _ _ hy =>
      State.atSite_canon hy fun _ hz => bindTeam_canon hz

theorem State.carry_canon {port : BitVec 3} (h : s.Canon) : (s.carry port).Canon := h

theorem launchNow_canon {c : LaunchCmd} (h : s.Canon) : (launchNow c s).Canon := by
  unfold launchNow
  dsimp only
  split
  · exact State.complete_canon h
  · split
    · exact State.turnDown_canon h
    · split
      · exact State.complete_canon h
      · split
        · exact State.complete_canon h
        · split
          · exact State.turnDown_canon h
          · split
            · exact State.accept_canon ((placeLaunch_canon h).of_eq ‹_›)
            · exact State.turnDown_canon h

theorem launchWaiting_canon (h : s.Canon) : (launchWaiting s).Canon :=
  canon_foldl h (fun _ _ h1 => launchNow_canon h1)

/-! ### Command -/

theorem resumeParked_canon {copy : Bool} {seq : BitVec 16} (h : s.Canon) :
    OnSome State.Canon (resumeParked copy seq s) :=
  canon_ite (OnSome.map fun _ => State.setJob_canon h) (OnSome.map fun _ => h)

theorem failParked_canon {copy : Bool} {seq : BitVec 16} (h : s.Canon) : OnSome State.Canon (failParked copy seq s) :=
  canon_ite (OnSome.map fun _ => State.setJob_canon h) (OnSome.map fun _ => endFaulted_canon h)

theorem answerParked_canon {tag : W32} {k : ParkedJob} {f : Bool → BitVec 16 → State → Option State}
    (hf : ∀ (x0 : Bool) (x1 : BitVec 16) (t : State), t.Canon → OnSome State.Canon (f x0 x1 t)) (h : s.Canon) :
    (answerParked tag k f s).Canon := by
  unfold answerParked
  split
  · exact State.turnDown_canon h
  · split
    · exact State.accept_canon (State.focus_canon ((hf _ _ _ (State.focus_canon h)).of_eq ‹_›))
    · exact State.turnDown_canon h

theorem execFaultAnswerResume_canon {tag : W32} {job : ParkedJob} (h : s.Canon) :
    (execFaultAnswerResume tag job s).Canon := answerParked_canon (fun _ _ _ h1 => resumeParked_canon h1) h

theorem execFaultAnswerFail_canon {tag : W32} {job : ParkedJob} (h : s.Canon) :
    (execFaultAnswerFail tag job s).Canon := answerParked_canon (fun _ _ _ h1 => failParked_canon h1) h

theorem execPageTableChange_canon {tag : W32} {job : BitVec 6} (h : s.Canon) :
    (execPageTableChange tag job s).Canon := State.accept_canon (State.atSites_canon h (fun _ h1 => h1))

theorem execClearFailedSite_canon {tag : W32} {site : SiteId} (h : s.Canon) :
    Result.Canon (execClearFailedSite tag site s) := by
  unfold execClearFailedSite
  extract_lets t u g
  have ht : t.Canon := State.atSite_canon h fun x hx =>
    (⟨(vacate_canon hx).tile, (vacate_canon hx).wafer⟩ : State.Canon { vacate x with junction := _ })
  have hu : u.Canon := State.atSites_canon ht fun x hx => hx
  exact canon_ite (P := State.Canon) (State.accept_canon (s := { u with wafer := _ }) ⟨hu.tile, hu.wafer⟩)
    (State.turnDown_canon h)

theorem execSetAccessCounterThreshold_canon {tag : W32} {unit : CounterUnit} {value : BitVec 16} (h : s.Canon) :
    (execSetAccessCounterThreshold tag unit value s).Canon := by
  unfold execSetAccessCounterThreshold
  dsimp only
  split
  · exact State.accept_canon h
  · exact State.turnDown_canon h

theorem execSetPowerLimit_canon {tag : W32} {watts : ℕ} (h : s.Canon) : (execSetPowerLimit tag watts s).Canon := by
  unfold execSetPowerLimit
  show State.Canon _
  exact canon_ite (State.accept_canon (h.withRim _)) (State.turnDown_canon h)

theorem execHostWindowWrite_canon (port window : BitVec 3) {span : BitVec 6} {offset : BitVec 36} {data : List Byte}
    (h : s.Canon) : Result.Canon (execHostWindowWrite port window span offset data s) := by
  unfold execHostWindowWrite
  extract_lets a
  split
  · exact ⟨h.tile, writeCells_wf _ h.wafer.hbm, h.wafer.host, h.wafer.peer, h.wafer.sites, h.wafer.healing⟩
  · trivial

theorem execConsumerIndexWrite_canon {ring : Ring} {index : ℕ} (h : s.Canon) :
    (execConsumerIndexWrite ring index s).Canon := by
  unfold execConsumerIndexWrite
  dsimp only
  split <;> exact h

/-! ### Boot -/

theorem execResetAssert_canon (h : s.Canon) : (execResetAssert s).Canon :=
  ⟨⟨rfl, rfl, rfl, rfl⟩, h.wafer.hbm, h.wafer.host, h.wafer.peer, List.forall_mem_nil _, List.forall_mem_nil _,
    List.forall_mem_nil _⟩

theorem bootTileOf_canon {q : BitVec 2} : (bootTileOf q).Canon :=
  ⟨show bootTile.mem.wf = true by decide +kernel, rfl, rfl, rfl⟩

theorem selfTested_canon {r : SelfTest} (h : s.Canon) : (selfTested r s).Canon := by
  unfold selfTested
  dsimp only
  split
  · exact State.loadTile_canon h bootTileOf_canon
  · exact h
  · exact h
  · exact h

theorem execSelfTestComplete_canon {site : SiteId} {result : SelfTest} (h : s.Canon) :
    (execSelfTestComplete site result s).Canon := by
  unfold execSelfTestComplete
  extract_lets t t1 b __src
  have ht : t.Canon := State.focusSite_canon h
  have ht1 : t1.Canon := selfTested_canon ht
  have h__src : __src.Canon := ht1.wafer
  exact canon_ite h (canon_ite ht1 ht1)

theorem State.begin_canon (h : s.Canon) : s.begin.Canon := h

theorem startCommand_canon {op : BitVec 4} {site : SiteId} {k : State → State}
    (hk : ∀ (t : State), t.Canon → (k t).Canon) (h : s.Canon) : (startCommand op site k s).Canon :=
  canon_ite (hk _ (State.begin_canon (State.focusSite_canon h))) h

theorem endCommand_canon {result : BitVec 8} (h : s.Canon) : (endCommand result s).Canon :=
  canon_ite h (State.post_canon h)

theorem sendThrough_canon {p : Port} {m : SiteId → Port → Msg} (h : s.Canon) : (sendThrough p m s).Canon := by
  unfold sendThrough
  split
  · exact State.launchPacket_canon h
  · exact h

theorem askThrough_canon {ps : List Port} (h : s.Canon) : (askThrough ps s).Canon :=
  canon_foldl h (fun _ _ h1 => sendThrough_canon h1)

theorem echoIfDone_canon (h : s.Canon) : (echoIfDone s).Canon := by
  unfold echoIfDone
  split
  · exact sendThrough_canon h
  · exact h

theorem execDiscover_canon {site : SiteId} (h : s.Canon) : (execDiscover site s).Canon := by
  refine startCommand_canon (fun t ht => ?_) h
  extract_lets u _ v
  have hu : u.Canon := State.atSites_canon ht fun _ hx => ⟨hx.tile, hx.wafer⟩
  have hv : v.Canon := ⟨hu.tile, hu.wafer⟩
  exact askThrough_canon hv

theorem discoverHere_canon {port : Port} (h : s.Canon) : (discoverHere port s).Canon :=
  canon_ite (sendThrough_canon h) (echoIfDone_canon (askThrough_canon h))

theorem execDiscoveryPacketArrival_canon {id : ℕ} (h : s.Canon) : (execDiscoveryPacketArrival id s).Canon := by
  unfold execDiscoveryPacketArrival
  dsimp only
  split
  · exact canon_ite (State.dropPacket_canon h) (canon_ite h (discoverHere_canon (State.dropPacket_canon
      (State.focusSite_canon h))))
  · exact h

theorem answered_canon {port : Port} {l : List (ℕ × BitVec 2)} (h : s.Canon) : (answered port l s).Canon :=
  canon_ite (echoIfDone_canon h) h

theorem execDiscoveryEchoArrival_canon {id : ℕ} (h : s.Canon) : (execDiscoveryEchoArrival id s).Canon := by
  unfold execDiscoveryEchoArrival
  split
  · exact answered_canon (State.dropPacket_canon (State.focusSite_canon h))
  · exact h

theorem execDiscoveryAnswerTimeout_canon {site : SiteId} {port : Port} (h : s.Canon) :
    (execDiscoveryAnswerTimeout site port s).Canon := by
  unfold execDiscoveryAnswerTimeout
  dsimp only
  split
  · exact canon_ite (answered_canon (State.focusSite_canon h)) h
  · exact h

theorem mergeEchoes_canon (h : s.Canon) : (mergeEchoes s).Canon := by
  unfold mergeEchoes
  exact ⟨h.tile, h.wafer⟩

theorem takeBlock_canon {points : List (ℕ × SiteId)} {map : List (ℕ × BitVec 2)} (h : s.Canon) :
    (takeBlock points map s).Canon := by
  unfold takeBlock
  dsimp only
  split <;> exact h

theorem startFlood_canon {f : Flood} (h : s.Canon) : (startFlood f s).Canon := by
  unfold startFlood
  extract_lets s1 b __src
  have hs1 : s1.Canon := takeBlock_canon h
  have h__src : __src.Canon := hs1.wafer
  exact hs1

theorem execPtflood_canon {site : SiteId} (h : s.Canon) : (execPtflood site s).Canon :=
  startCommand_canon (fun _ h1 => startFlood_canon h1) h

theorem holdBlock_canon {q : BitVec 2} (h : s.Canon) : (holdBlock q s).Canon := canon_ite h h

theorem execJoin_canon {site : SiteId} (h : s.Canon) : (execJoin site s).Canon :=
  startCommand_canon (fun _ h1 => startFlood_canon (holdBlock_canon h1)) h

theorem execPointsBlockArrival_canon {site : SiteId} {quadrant : BitVec 2} (h : s.Canon) :
    (execPointsBlockArrival site quadrant s).Canon := by
  unfold execPointsBlockArrival
  show State.Canon _
  split
  · exact h
  · extract_lets b floods _ u t
    have hu : u.Canon := ⟨h.tile, h.wafer.hbm, h.wafer.host, h.wafer.peer, h.wafer.sites, h.wafer.healing⟩
    have ht : t.Canon := takeBlock_canon (State.focusSite_canon hu)
    exact canon_ite (holdBlock_canon ht) ht

theorem lendSites_canon {q : BitVec 2} {pairs : List (ℕ × SiteId)} (h : s.Canon) : (lendSites q pairs s).Canon :=
  canon_foldl h (fun _ _ h1 => canon_ite h1 (State.atSite_canon h1 (fun _ h2 => startFlood_canon h2)))

theorem finishJoin_canon (h : s.Canon) : (finishJoin s).Canon := by
  unfold finishJoin
  dsimp only
  split
  · exact h
  · split
    · exact endCommand_canon h
    · exact canon_ite (endCommand_canon h) (lendSites_canon h)

theorem execLoadimg_canon {site : SiteId} (h : s.Canon) : Result.Canon (execLoadimg site s) := by
  refine startCommand_canon (fun t ht => ?_) h
  extract_lets _ u j result
  have hu : u.Canon := ⟨ht.tile, ht.wafer.hbm, ht.wafer.host, ht.wafer.peer, ht.wafer.sites, ht.wafer.healing⟩
  have hresult (n : BitVec 8) : (result n).Canon := ⟨hu.tile, hu.wafer⟩
  split
  · exact hresult 1
  · refine canon_ite (hresult 1) ?_
    extract_lets v
    have hv : v.Canon := State.writeOwn_canon hu
    exact ⟨hv.tile, hv.wafer.hbm, hv.wafer.host, hv.wafer.peer, hv.wafer.sites, hv.wafer.healing⟩

theorem execFlashResponseTimeout_canon {site : SiteId} (h : s.Canon) :
    (execFlashResponseTimeout site s).Canon := by
  unfold execFlashResponseTimeout
  extract_lets t b
  have ht : t.Canon := State.focusSite_canon h
  have hw (x : Boot) : ({ t.wafer with boot := x } : Wafer).Canon :=
    ⟨ht.wafer.hbm, ht.wafer.host, ht.wafer.peer, ht.wafer.sites, ht.wafer.healing⟩
  show State.Canon _
  exact canon_ite (canon_ite (endCommand_canon ⟨ht.tile, hw _⟩) ⟨ht.tile, hw _⟩) h

theorem execStationAndCraneFirmwareLoad_canon {unit : FirmwareUnit} (h : s.Canon) :
    (execStationAndCraneFirmwareLoad unit s).Canon := by
  unfold execStationAndCraneFirmwareLoad
  dsimp only
  split <;> split <;> exact h

theorem execHandoff_canon {site : SiteId} (h : s.Canon) : Result.Canon (execHandoff site s) := by
  refine startCommand_canon (fun t ht => ?_) h
  extract_lets q job u b _ v
  have hu : u.Canon := State.atSites_canon ht fun _ hx => ⟨⟨hx.tile.mem, hx.tile.box⟩, hx.wafer⟩
  have hv : v.Canon := ⟨hu.tile, hu.wafer.hbm, hu.wafer.host, hu.wafer.peer, hu.wafer.sites, hu.wafer.healing⟩
  exact canon_ite (launchWaiting_canon hv) hv

theorem execBootCommandCompletion_canon {site : SiteId} (h : s.Canon) :
    (execBootCommandCompletion site s).Canon := by
  unfold execBootCommandCompletion
  extract_lets t j
  have ht : t.Canon := State.focusSite_canon h
  show State.Canon _
  refine canon_ite h ?_
  split
  · exact canon_ite (endCommand_canon (mergeEchoes_canon ht)) h
  · exact canon_ite (endCommand_canon ht) h
  · exact finishJoin_canon ht
  · exact endCommand_canon ht

/-- Every instruction and event of the operation table keeps the memories in canonical form. -/
theorem exec_canon {i : Instr} (h : s.Canon) : Result.Canon (exec i s) := by
  cases i
  case add | sub | and | or | xor | sll | srl | sra | rol | slt | sltn | min | max | minn | maxn | mul | mulh | mulhn
      | div | divn | rem | remn =>
    exact alu2_canon h
  case addi | andi | ori | xori | slli | srli | srai | roli | slti | sltni => exact aluI_canon h
  case amoSwapW | amoSwapD | amoCasW | amoCasD | amoAddW | amoAddD | amoFaddF32 | amoMaxW | amoMinW =>
    exact atomic_canon h
  case accAddI32 | accAddI64 | accAddF32 | accMaxI32 | accMinI32 | accOrD | accAndD | accXorD =>
    exact accumulate_canon h
  case ldB | ldH | ldW | ldD | ldBn | ldHn | ldWn => exact load_canon h
  case vceq | vcne | vclt | vcle | vcgt | vcge | vcun => exact compare_canon h
  case sbAdd | sbSub | sbAnd | sbOr | sbXor | sbShl | sbShr => exact scalarOp_canon h
  case sbAddImm | sbSubImm | sbAndImm | sbOrImm | sbXorImm | sbShlImm | sbShrImm => exact scalarImm_canon h
  case lih | lipc | sdrd | sdst | pmovxToScalar | vext =>
    exact Issue.result_canon (State.next4_canon (State.setReg_canon h))
  case pand | por | pxor | pnot | pmov | pmovxToPredicate => exact predicate_canon h
  case resetRelease | craneTakeover | powerLimitExceeded | temperatureThrottle | fabricPortLoss | linkTraining =>
    exact h
  case ldf | ldfe | ste | ldtag | settag => exact fullEmpty_canon h
  case beq | bne | blt | bltn => exact branch_canon h
  case stB | stH | stW | stD => exact store_canon h
  case putsF | putsC | putvF | putvC => exact put_canon h
  case mma | mmaZ | mmaN | mmaZn => exact multiply_canon h
  case twait | tpoll | cwait | cpoll => exact awaitTicket_canon h
  case clz | ctz | popc => exact alu1_canon h
  case vredadd | vredmax | vredmin => exact reduction_canon h
  case sbVand | sbVor | sbVxor => exact vectorOp_canon h
  case nop | acq => exact Issue.result_canon (State.next4_canon h)
  case fenceE | sdwait => exact Issue.result_canon (canon_ite (State.next4_canon h) h)
  case sdfl | sdfla => exact Issue.result_canon (State.next4_canon (State.flushRows_canon h))
  case vcvt | vcvtSr => exact conversion_canon h
  case vaccF32 | vaccI32 => exact vectorAccumulate_canon h
  case tld | tst => exact tileMove_canon h
  case send | sendv => exact Issue.result_canon (sendMessage_canon h)
  case sbBfz | sbBfnz => exact boxBranch_canon h
  case attest | readCertificateChain => exact State.complete_canon h
  case andn => exact execAndn_canon h
  case sextB => exact execSextB_canon h
  case sextH => exact execSextH_canon h
  case sextW => exact execSextW_canon h
  case zextB => exact execZextB_canon h
  case zextH => exact execZextH_canon h
  case zextW => exact execZextW_canon h
  case mfc => exact execMfc_canon h
  case mtc => exact execMtc_canon h
  case bge => exact execBge_canon h
  case bgen => exact execBgen_canon h
  case jmp => exact execJmp_canon h
  case call => exact Issue.result_canon (outsideTrapWindow_canon h (callTo_canon h))
  case jr => exact Issue.result_canon (canon_ite h (State.jumpTo_canon h))
  case callr => exact execCallr_canon h
  case ret => exact execRet_canon h
  case trap => exact execTrap_canon h
  case rft => exact Issue.result_canon (canon_ite h (canon_ite h (returnFromTrap_canon h)))
  case halt => exact execHalt_canon h
  case wfi => exact Issue.result_canon (canon_ite h h)
  case yield => exact execYield_canon h
  case exit => exact execExit_canon h
  case couple => exact execCouple_canon h
  case uncouple => exact execUncouple_canon h
  case ckpt => exact execCkpt_canon h
  case prf => exact execPrf_canon h
  case stf => exact execStf_canon h
  case fence => exact execFence_canon h
  case fenceR => exact execFenceR_canon h
  case waitc => exact execWaitc_canon h
  case rel => exact execRel_canon h
  case vadd => exact execVadd_canon h
  case vsub => exact execVsub_canon h
  case vmul => exact execVmul_canon h
  case vfma => exact execVfma_canon h
  case vfms => exact execVfms_canon h
  case vnfma => exact execVnfma_canon h
  case vmax => exact execVmax_canon h
  case vmin => exact execVmin_canon h
  case vabs => exact execVabs_canon h
  case vneg => exact execVneg_canon h
  case vand => exact execVand_canon h
  case vandn => exact execVandn_canon h
  case vor => exact execVor_canon h
  case vxor => exact execVxor_canon h
  case vsll => exact execVsll_canon h
  case vsrl => exact execVsrl_canon h
  case vsra => exact execVsra_canon h
  case vmov => exact execVmov_canon h
  case vsel => exact execVsel_canon h
  case vaddC => exact execVaddC_canon h
  case vsubC => exact execVsubC_canon h
  case vmulC => exact execVmulC_canon h
  case vmaxC => exact execVmaxC_canon h
  case vminC => exact execVminC_canon h
  case vandC => exact execVandC_canon h
  case vandnC => exact execVandnC_canon h
  case vorC => exact execVorC_canon h
  case vxorC => exact execVxorC_canon h
  case vmovC => exact execVmovC_canon h
  case vabsC => exact execVabsC_canon h
  case vnegC => exact execVnegC_canon h
  case vsllC => exact execVsllC_canon h
  case vsrlC => exact execVsrlC_canon h
  case vsraC => exact execVsraC_canon h
  case vfmacC => exact execVfmacC_canon h
  case vtag => exact execVtag_canon h
  case vperm => exact execVperm_canon h
  case vslup => exact execVslup_canon h
  case vsldn => exact execVsldn_canon h
  case vbcast => exact execVbcast_canon h
  case vins => exact Issue.result_canon (State.next4_canon (State.setVec_canon h))
  case vzip => exact execVzip_canon h
  case vunzip => exact execVunzip_canon h
  case vld => exact execVld_canon h
  case vlds => exact execVlds_canon h
  case vldq => exact execVldq_canon h
  case vgth => exact execVgth_canon h
  case vst => exact execVst_canon h
  case vsts => exact execVsts_canon h
  case vstq => exact execVstq_canon h
  case vsct => exact execVsct_canon h
  case vrndi => exact execVrndi_canon h
  case vcvti => exact execVcvti_canon h
  case vfexp => exact execVfexp_canon h
  case vexpins => exact execVexpins_canon h
  case vgetexp => exact execVgetexp_canon h
  case vrcp => exact execVrcp_canon h
  case vrsq => exact execVrsq_canon h
  case vqnt => exact execVqnt_canon h
  case vcvts => exact execVcvts_canon h
  case vdq => exact execVdq_canon h
  case barq => exact execBarq_canon h
  case tzero => exact execTzero_canon h
  case tmov => exact Issue.result_canon (housekeeping_canon h)
  case ttr => exact execTtr_canon h
  case tcvt => exact execTcvt_canon h
  case tadd => exact execTadd_canon h
  case trowv => exact execTrowv_canon h
  case tvrow => exact execTvrow_canon h
  case twaitall => exact execTwaitall_canon h
  case copy => exact execCopy_canon h
  case copyc => exact execCopyc_canon h
  case mcast => exact execMcast_canon h
  case recv => exact Issue.result_canon (canon_ite (State.skip_canon (State.setReg_canon h)) h)
  case recvv => exact Issue.result_canon (canon_ite (State.skip_canon h) h)
  case qstat => exact execQstat_canon h
  case sync => exact execSync_canon h
  case arrive => exact execArrive_canon h
  case await => exact execAwait_canon h
  case waita => exact execWaita_canon h
  case cntinc => exact execCntinc_canon h
  case cntrst => exact execCntrst_canon h
  case cntwait => exact execCntwait_canon h
  case spawn => exact execSpawn_canon h
  case tjoin => exact execTjoin_canon h
  case tstat => exact execTstat_canon h
  case sbNop => exact boxOp_canon h
  case sbLi => exact execSbLi_canon h
  case sbLih => exact execSbLih_canon h
  case sbRpt => exact execSbRpt_canon h
  case sbDone => exact execSbDone_canon h
  case sbDrop => exact execSbDrop_canon h
  case sbReroute => exact execSbReroute_canon h
  case sbLdst => exact execSbLdst_canon h
  case sbStst => exact execSbStst_canon h
  case sbVldst => exact execSbVldst_canon h
  case sbVstst => exact execSbVstst_canon h
  case sbVrdp => exact execSbVrdp_canon h
  case sbVwrp => exact execSbVwrp_canon h
  case sbRdh => exact execSbRdh_canon h
  case sbVaddi => exact execSbVaddi_canon h
  case sbVaddf => exact execSbVaddf_canon h
  case sbVmulf => exact execSbVmulf_canon h
  case sbVmaxf => exact execSbVmaxf_canon h
  case sbVminf => exact execSbVminf_canon h
  case sbVmaxi => exact execSbVmaxi_canon h
  case sbVcvtbfF2b => exact execSbVcvtbfF2b_canon h
  case sbVcvtbfB2f => exact execSbVcvtbfB2f_canon h
  case sbVsum => exact execSbVsum_canon h
  case sbVcmpf => exact execSbVcmpf_canon h
  case sbVself => exact execSbVself_canon h
  case sbTrap => exact execSbTrap_canon h
  case sbStamp => exact execSbStamp_canon h
  case sbEmit => exact execSbEmit_canon h
  case ptbaseWrite => exact writePtbase_canon h
  case accmodeWrite => exact execAccmodeWrite_canon h
  case srseedWrite => exact writeSrseed_canon h
  case evcWrite => exact writeEvc_canon h
  case fflagsAccess => exact canon_ite h (canon_ite (State.cregStore_canon h) (State.setReg_canon h))
  case errdataClear => exact clearErrorRecord_canon h
  case pointsEntryWrite => exact writePointsEntry_canon h
  case bindRecordWrite => exact execBindRecordWrite_canon h
  case discover => exact execDiscover_canon h
  case ptflood => exact execPtflood_canon h
  case loadimg => exact execLoadimg_canon h
  case join => exact execJoin_canon h
  case handoff => exact execHandoff_canon h
  case plaUnlistedOp => exact canon_ite (unlistedOp_canon h) h
  case bootCommandCompletion => exact execBootCommandCompletion_canon h
  case discoveryPacketArrival => exact execDiscoveryPacketArrival_canon h
  case discoveryEchoArrival => exact execDiscoveryEchoArrival_canon h
  case discoveryAnswerTimeout => exact execDiscoveryAnswerTimeout_canon h
  case flashResponseTimeout => exact execFlashResponseTimeout_canon h
  case joinTimeout => exact canon_ite (endCommand_canon (State.focusSite_canon h)) h
  case pointsBlockArrival => exact execPointsBlockArrival_canon h
  case resetAssert => exact execResetAssert_canon h
  case selfTestComplete => exact execSelfTestComplete_canon h
  case launch => exact canon_ite (launchNow_canon (State.carry_canon h)) h
  case installFlow => exact execInstallFlow_canon h
  case removeFlow => exact execRemoveFlow_canon h
  case faultAnswerResume => exact execFaultAnswerResume_canon h
  case faultAnswerFail => exact execFaultAnswerFail_canon h
  case pageTableChange => exact execPageTableChange_canon h
  case resumeCore => exact execResumeCore_canon h
  case endTeam => exact execEndTeam_canon h
  case clearFailedSite => exact execClearFailedSite_canon h
  case setAccessCounterThreshold => exact execSetAccessCounterThreshold_canon h
  case setPowerLimit => exact execSetPowerLimit_canon h
  case hostWindowWrite port window _ _ _ => exact execHostWindowWrite_canon port window h
  case junctionPacketArrival => exact execJunctionPacketArrival_canon h
  case flitCrcFailure => exact execFlitCrcFailure_canon h
  case remoteStoreArrival => exact execRemoteStoreArrival_canon h
  case remoteLoadRequestArrival => exact execRemoteLoadRequestArrival_canon h
  case replyArrival => exact execReplyArrival_canon h
  case acknowledgementArrival => exact execAcknowledgementArrival_canon h
  case putArrival => exact execPutArrival_canon h
  case fullEmptyRequestArrival => exact execFullEmptyRequestArrival_canon h
  case fullEmptyResend => exact execFullEmptyResend_canon h
  case waitaRequestArrival => exact execWaitaRequestArrival_canon h
  case blockingAccessAbandon => exact execBlockingAccessAbandon_canon h
  case cancelArrival => exact execCancelArrival_canon h
  case cancelAnswerArrival => exact execCancelAnswerArrival_canon h
  case accumulateRequestArrival => exact execAccumulateRequestArrival_canon h
  case accumulateApply => exact execAccumulateApply_canon h
  case hbmAccumulateLineRead => exact execHbmAccumulateLineRead_canon h
  case quotaWindowReset => exact execQuotaWindowReset_canon h
  case atomicRequestArrival => exact execAtomicRequestArrival_canon h
  case junctionMerge => exact execJunctionMerge_canon h
  case mergedBounceSplit => exact execMergedBounceSplit_canon h
  case bounceArrival => exact execBounceArrival_canon h
  case bouncePark => exact execBouncePark_canon h
  case sidingAgeFlush => exact execSidingAgeFlush_canon h
  case deterministicRequestArrival => exact execDeterministicRequestArrival_canon h
  case barrierArrival => exact execBarrierArrival_canon h
  case barrierRootComplete => exact execBarrierRootComplete_canon h
  case deterministicMerge => exact execDeterministicMerge_canon h
  case catchUpRound => exact execCatchUpRound_canon h
  case barrierReleaseArrival => exact execBarrierReleaseArrival_canon h
  case messageArrival => exact execMessageArrival_canon h
  case messageBufferMove => exact moveMessage_canon (State.focusSite_canon h)
  case messageToSaveArea => exact messageAway_canon (State.focusSite_canon h)
  case farCacheFill => exact execFarCacheFill_canon h
  case instructionBufferFill => exact execInstructionBufferFill_canon h
  case pageWalkComplete => exact execPageWalkComplete_canon h
  case tileJobStart => exact execTileJobStart_canon h
  case tileJobRow => exact execTileJobRow_canon h
  case tileJobComplete => exact execTileJobComplete_canon h
  case copyJobStart => exact execCopyJobStart_canon h
  case copyChunk => exact execCopyChunk_canon h
  case copyChunkArrival => exact execCopyChunkArrival_canon h
  case copyJobEnd => exact execCopyJobEnd_canon h
  case taskClaim => exact execTaskClaim_canon h
  case taskWatchdog => exact canon_ite (watchdogTrap_canon (State.focus_canon h)) (State.focus_canon h)
  case breakpoint => exact execBreakpoint_canon h
  case coupleFollow => exact execCoupleFollow_canon h
  case preemptionRequest => exact execPreemptionRequest_canon h
  case teamRestore => exact execTeamRestore_canon h
  case timeSliceExpiry => exact execTimeSliceExpiry_canon h
  case intervalTimer => exact execIntervalTimer_canon h
  case closeRequestArrival => exact execCloseRequestArrival_canon h
  case checkpointBoundary => exact execCheckpointBoundary_canon h
  case boundaryCommit => exact execBoundaryCommit_canon h
  case commitNoticeArrival => exact execCommitNoticeArrival_canon h
  case determinantRecordArrival => exact execDeterminantRecordArrival_canon h
  case determinantConfirmation => exact execDeterminantConfirmation_canon h
  case outputMarkReport => exact execOutputMarkReport_canon h
  case heartbeat => exact execHeartbeat_canon h
  case watchdogTimeout => exact execWatchdogTimeout_canon h
  case machineCheck => exact execMachineCheck_canon h
  case holdComplete => exact execHoldComplete_canon h
  case pointsChangeComplete => exact execPointsChangeComplete_canon h
  case restorationComplete => exact execRestorationComplete_canon h
  case replayEnd => exact execReplayEnd_canon h
  case holderLoss => exact execHolderLoss_canon h
  case depotRoundOpen => exact execDepotRoundOpen_canon h
  case depotInducedBoundary => exact execDepotInducedBoundary_canon h
  case depotRoundComplete => exact execDepotRoundComplete_canon h
  case depotRecovery => exact execDepotRecovery_canon h
  case powerDomainFault => exact execPowerDomainFault_canon h
  case signalBoxPacketArrival => exact execSignalBoxPacketArrival_canon h
  case kernelRun => exact execKernelRun_canon h
  case trapRecordInject => exact execTrapRecordInject_canon h
  case stateWindowAccess => exact execStateWindowAccess_canon h
  case peerUnreachable => exact execPeerUnreachable_canon h
  case illegalInstruction => exact execIllegalInstruction_canon h
  case stationAndCraneFirmwareLoad => exact execStationAndCraneFirmwareLoad_canon h
  case supervisorLaunchEnableWrite => exact canon_ite h h
  case consumerIndexWrite => exact execConsumerIndexWrite_canon h
  case shadowApplyComplete => exact execShadowApplyComplete_canon h
  case sendLogFetch => exact execSendLogFetch_canon h
/-! ### Fetch -/

theorem State.useLine_canon {k : ℕ} {d : LineBits} {o : ℕ} (h : s.Canon) : (s.useLine k d o).Canon :=
  State.fillBuffer_canon h

theorem State.fetchHalf_canon {va : ℕ} (h : s.Canon) : (s.fetchHalf va).Canon := by
  unfold State.fetchHalf
  dsimp only
  split
  · exact trivial
  · exact State.startWalk_canon h
  · split
    · exact h
    · split
      · split
        · exact State.useLine_canon h
        · exact State.fillBuffer_canon h
      · split
        · exact State.useLine_canon h
        · exact canon_ite trivial h

theorem State.fetch_canon (h : s.Canon) : s.fetch.Canon := by
  unfold State.fetch
  split
  · split
    · split
      · exact (State.fetchHalf_canon ((State.fetchHalf_canon h).of_got ‹_›)).of_got ‹_›
      · exact State.fetchHalf_canon ((State.fetchHalf_canon h).of_got ‹_›)
    · exact (State.fetchHalf_canon h).of_got ‹_›
  · exact State.fetchHalf_canon h

theorem keepSkip_canon {s t : State} (ht : t.Canon) : (keepSkip s t).Canon := canon_ite ht ht

theorem noteIssue_canon {s t : State} (ht : t.Canon) : (noteIssue s t).Canon := canon_ite ht ht

theorem State.fallBehind_canon (h : s.Canon) : s.fallBehind.Canon := by
  unfold State.fallBehind
  split
  · exact State.uncouple_canon h
  · exact h

theorem keepPace_canon {s t : State} (ht : t.Canon) : (keepPace s t).Canon := by
  unfold keepPace
  dsimp only
  split
  · exact canon_ite (State.uncouple_canon ht) ht
  · exact ht

theorem issue_canon {i : Instr} (h : s.Canon) : Result.Canon (issue i s) := by
  have hi : Result.Canon (exec i { s with core := { s.core with trap := { s.core.trap with skip := false } } }) :=
    exec_canon ⟨h.tile, h.wafer⟩
  unfold issue
  split
  next t ht => exact canon_ite h (keepPace_canon (noteIssue_canon (keepSkip_canon (hi.of_eq ht))))
  next hn => exact hi

theorem issueBytes_canon {b : List Byte} (h : s.Canon) : Result.Canon (issueBytes b s) := by
  unfold issueBytes
  split
  · exact canon_ite (P := Result.Canon) (State.fallBehind_canon h) (issue_canon h)
  · exact exec_canon (i := .illegalInstruction _) h

theorem coreStep_canon (h : s.Canon) : Result.Canon (coreStep s) := by
  unfold coreStep
  split
  · cases s.core.draft with
    | none => exact h
    | some r => exact bindDraft_canon h
  · split
    · exact h
    · split
      · exact watchdogTrap_canon h
      · split
        · exact breakpointTrap_canon h
        · split
          next e => exact issueBytes_canon ((State.fetch_canon h).of_got e)
          next e => exact State.fallBehind_canon ((State.fetch_canon h).of_wait e)
          · exact takeTrap_canon h

theorem boxStep_canon {r : BoxRun} (h : s.Canon) : Result.Canon (boxStep r s) := by
  unfold boxStep
  extract_lets b w
  split
  · exact kernelTrap_canon h
  · rw [boxRow_eq]
    cases decodeBox w with
    | none => exact kernelTrap_canon h
    | some i => exact exec_canon h

theorem runTile_canon (h : s.Canon) : (runTile s).Canon := by
  unfold runTile
  split
  · exact h
  · split
    · exact boxStep_canon h
    · split
      · exact startRun_canon h
      · split
        · exact (replayNext_canon h).of_eq ‹_›
        · exact coreStep_canon h

theorem runFocus_canon (h : s.Canon) : (runFocus s).Canon := runTile_canon (pursueLeave_canon h)

/-! ### Step -/

theorem State.tick_canon (h : s.Canon) : s.tick.Canon := h

theorem State.turnTaken_canon (h : s.Canon) : s.turnTaken.Canon := h

theorem inTurn_canon {r : Result} (h : s.Canon) (hr : r.Canon) : (inTurn s r).Canon := by
  unfold inTurn
  split
  · exact canon_ite h hr
  · exact hr

theorem nextTurn_canon (h : s.Canon) : Result.Canon (nextTurn s) := by
  unfold nextTurn
  split
  · exact canon_ite (P := Result.Canon) (State.turnTaken_canon h)
      (inTurn_canon (State.turnTaken_canon h) (exec_canon (State.turnTaken_canon h)))
  · exact State.focus_canon (State.turnTaken_canon h)
  · exact runFocus_canon h

theorem step_canon (h : s.Canon) : Result.Canon (step s) :=
  nextTurn_canon (State.askStaging_canon (State.tick_canon h))

theorem step_canonical {s t : State} (h : s.canonical = true) (e : step s = .next t) : t.canonical = true :=
  (State.canonical_iff t).mpr ((step_canon ((State.canonical_iff s).mp h)).of_eq e)

end Sys2Proof.Machine

/-- Settles O57: every operation of the model keeps every memory canonical, since it changes one only by writing cells
or by taking listed cells away, and a step is made of such operations. -/
theorem memoriesStayCanonical : Obligations.MemoriesStayCanonical := fun _ _ => Sys2Proof.Machine.step_canonical
end

