-- ==== Sys2Proof/Proofs/ControlRegisters.lean ====
section
/-!
SUPPORT. The control registers: what a write of a register's fields leaves in it and in the others, and the
checks, reads and writes of mfc and mtc; then the obligations O9 and O10.
-/
namespace Sys2Proof.Machine

variable {s : State} {n m : ℕ} {v w : Word}

/-! ### Fields of a word -/

/-- The low bits of a word, widened again, are the word under their mask. -/
theorem zext64_setWidth (v : Word) {k : ℕ} (h : k < 64) : zext64 (v.setWidth k) = v &&& BitVec.ofNat 64 (2 ^ k - 1) := by
  apply BitVec.eq_of_toNat_eq
  have hk : 2 ^ k < 2 ^ 64 := Nat.pow_lt_pow_right (by norm_num) h
  have hv := Nat.mod_lt v.toNat (Nat.two_pow_pos k)
  simp only [zext64, BitVec.toNat_setWidth, BitVec.toNat_and, BitVec.toNat_ofNat]
  rw [Nat.mod_eq_of_lt (a := 2 ^ k - 1) (by omega), Nat.and_two_pow_sub_one_eq_mod, Nat.mod_eq_of_lt (by omega)]

theorem bit64_getLsbD (v : Word) : bit64 (v.getLsbD 0) = v &&& 1 := by
  apply BitVec.eq_of_toNat_eq
  have hv : (v &&& 1).toNat = v.toNat % 2 := Nat.and_two_pow_sub_one_eq_mod v.toNat 1
  rw [hv, BitVec.getLsbD, Nat.testBit_zero]
  rcases Nat.mod_two_eq_zero_or_one v.toNat with h | h <;> simp [bit64, h]

theorem toNat_and_bit16 (v : Word) : (v &&& 0x10000).toNat = v.toNat / 65536 % 2 * 65536 := by
  have h : v.toNat &&& 2 ^ 16 = (v.toNat.testBit 16).toNat * 2 ^ 16 := Nat.and_two_pow v.toNat 16
  rw [Nat.testBit_eq_decide_div_mod_eq] at h
  rw [show (v &&& 0x10000).toNat = v.toNat &&& 2 ^ 16 from rfl, h]
  norm_num
  rcases Nat.mod_two_eq_zero_or_one (v.toNat / 65536) with e | e <;> simp [e]

/-- MWGT is at least 1 (R127). -/
theorem mwgt_field (v : Word) :
    zext64 (BitVec.ofNat 4 (max 1 (field v 0 4))) = if v &&& 0xF = 0 then 1 else v &&& 0xF := by
  have hv : (v &&& 0xF).toNat = v.toNat % 16 := Nat.and_two_pow_sub_one_eq_mod v.toNat 4
  have hzero : v &&& 0xF = 0 ↔ v.toNat % 16 = 0 := by rw [← hv, ← BitVec.toNat_inj]; rfl
  have hf : field v 0 4 = v.toNat % 16 := by simp [field]
  apply BitVec.eq_of_toNat_eq
  simp only [hzero, zext64, BitVec.toNat_setWidth, BitVec.toNat_ofNat, hf]
  split
  · simp_all
  · rw [hv]; omega

/-- SDCTL keeps bit 16, and a threshold of at least 64 (R199). -/
theorem storedSdctl_eq (v : Word) :
    storedSdctl v = (v &&& 0x10000) + (if (v &&& 0xFFFF).toNat < 64 then 64 else v &&& 0xFFFF) := by
  have hlow : (v &&& 0xFFFF).toNat = v.toNat % 65536 := Nat.and_two_pow_sub_one_eq_mod v.toNat 16
  have hbit : field v 16 1 = v.toNat / 65536 % 2 := by simp [field]
  have hrest : field v 0 16 = v.toNat % 65536 := by simp [field]
  apply BitVec.eq_of_toNat_eq
  simp only [storedSdctl, hbit, hrest, BitVec.toNat_add, BitVec.toNat_ofNat, toNat_and_bit16]
  split
  next h => rw [hlow] at h; simp; omega
  next h => rw [hlow] at h ⊢; omega

/-! ### A write of a register's fields -/

theorem cregStore_shape (h : 0x010 ≤ n ∧ n ≤ 0x017) : s.cregStore n v = { s with core := { s.core with
    eng := { s.core.eng with tshape := vset s.core.eng.tshape (n - 0x010) (storedShape v) } } } := by
  obtain ⟨lo, hi⟩ := h
  interval_cases n <;> rfl

theorem cregValue_shape (h : 0x010 ≤ n ∧ n ≤ 0x017) : s.cregValue n = vget s.core.eng.tshape (n - 0x010) 0 := by
  obtain ⟨lo, hi⟩ := h
  interval_cases n <;> rfl

theorem cregStore_quota (h : 0x100 ≤ n ∧ n ≤ 0x107) : s.cregStore n v = { s with tile := { s.tile with
    slices := vset s.tile.slices (n - 0x100) { vget s.tile.slices (n - 0x100) {} with quota := v &&& 0x3FFF } } } := by
  obtain ⟨lo, hi⟩ := h
  interval_cases n <;> rfl

theorem cregValue_quota (h : 0x100 ≤ n ∧ n ≤ 0x107) : s.cregValue n = (vget s.tile.slices (n - 0x100) {}).quota := by
  obtain ⟨lo, hi⟩ := h
  interval_cases n <;> rfl

/-- A register holds the fields written to it. -/
theorem cregStore_self (h : fieldsWritten n (s.cregValue n) v = some w) : (s.cregStore n v).cregValue n = w := by
  generalize ho : s.cregValue n = old at h
  revert h
  fun_cases fieldsWritten n old v <;> intro h
  case case2 | case4 | case10 | case19 | case20 => 
    subst n
    exact (zext64_setWidth v (by decide)).trans (Option.some.inj h)
  case case6 => subst n; exact (mwgt_field v).trans (Option.some.inj h)
  case case8 => subst n; exact (storedSdctl_eq v).trans (Option.some.inj h)
  case case9 => subst n; exact (bit64_getLsbD v).trans (Option.some.inj h)
  case case5 e =>
    rw [cregStore_shape e, cregValue_shape e, vget_vset_same _ _ _ _ (by omega)]
    exact Option.some.inj h
  case case15 e =>
    rw [cregStore_quota e, cregValue_quota e, vget_vset_same _ _ _ _ (by omega)]
    exact Option.some.inj h
  case case7 e | case11 e => obtain rfl | rfl := e <;> exact Option.some.inj h
  case case14 => subst n ho; exact Option.some.inj h
  case case21 => cases h
  all_goals subst n; exact Option.some.inj h

/-! ### The other registers, by the part of the state that the written one lies in -/

theorem cregStore_other_float (hn : n ∈ [0x008, 0x009, 0x00A, 0x00B, 0x060]) (hm : m ≠ n) :
    (s.cregStore n v).cregValue m = s.cregValue m := by
  fin_cases hn <;> (unfold State.cregValue; split <;> first | contradiction | rfl)

theorem cregStore_other_control (hn : n ∈ [0x018, 0x020, 0x021, 0x050, 0x059]) (hm : m ≠ n) :
    (s.cregStore n v).cregValue m = s.cregValue m := by
  fin_cases hn <;> (unfold State.cregValue; split <;> first | contradiction | rfl)

theorem cregStore_other_trap (hn : n ∈ [0x070, 0x071, 0x072, 0x073, 0x074]) (hm : m ≠ n) :
    (s.cregStore n v).cregValue m = s.cregValue m := by
  fin_cases hn <;> (unfold State.cregValue; split <;> first | contradiction | rfl)

theorem cregStore_other_engine (hn : n ∈ [0x110, 0x111, 0x120]) (hm : m ≠ n) :
    (s.cregStore n v).cregValue m = s.cregValue m := by
  fin_cases hn <;> (unfold State.cregValue; split <;> first | contradiction | rfl)

theorem cregStore_other_row (hm : m ≠ 0x133) (hsel : m ≠ 0x134) :
    (s.cregStore 0x133 v).cregValue m = s.cregValue m := by
  unfold State.cregValue
  split <;> first | contradiction | rfl

theorem cregStore_other_errsel (hm : m ≠ 0x150) (hsel : m ≠ 0x151) :
    (s.cregStore 0x150 v).cregValue m = s.cregValue m := by
  unfold State.cregValue
  split <;> first | contradiction | rfl

theorem cregStore_other_shape (hn : 0x010 ≤ n ∧ n ≤ 0x017) (hm : m ≠ n) :
    (s.cregStore n v).cregValue m = s.cregValue m := by
  rw [cregStore_shape hn]
  by_cases hr : 0x010 ≤ m ∧ m ≤ 0x017
  · rw [cregValue_shape hr, cregValue_shape hr]
    exact vget_vset_other _ _ _ _ _ (by omega)
  · generalize vset s.core.eng.tshape _ _ = shapes
    unfold State.cregValue
    split
    case h_40 => simp only [if_neg hr]
    all_goals rfl

theorem cregStore_other_quota (hn : 0x100 ≤ n ∧ n ≤ 0x107) (hm : m ≠ n) :
    (s.cregStore n v).cregValue m = s.cregValue m := by
  rw [cregStore_quota hn]
  by_cases hr : 0x100 ≤ m ∧ m ≤ 0x107
  · rw [cregValue_quota hr, cregValue_quota hr]
    exact congrArg Slice.quota (vget_vset_other _ _ _ _ _ (by omega))
  · generalize vset s.tile.slices _ _ = slices
    unfold State.cregValue
    split
    case h_40 => simp only [if_neg hr]
    all_goals rfl

/-- Every other register that it does not select holds what it held. -/
theorem cregStore_other {old : Word} (h : fieldsWritten n old v = some w) (hm : m ≠ n) (hs : ¬selects n m) :
    (s.cregStore n v).cregValue m = s.cregValue m := by
  revert h
  fun_cases fieldsWritten n old v <;> intro h
  case case1 | case2 | case3 | case4 | case10 => exact cregStore_other_float (by simp; omega) hm
  case case5 e => exact cregStore_other_shape e hm
  case case6 | case7 | case8 | case9 => exact cregStore_other_control (by simp; omega) hm
  case case11 | case12 | case13 | case14 => exact cregStore_other_trap (by simp; omega) hm
  case case15 e => exact cregStore_other_quota e hm
  case case16 | case17 | case18 => exact cregStore_other_engine (by simp; omega) hm
  case case19 e => subst e; exact cregStore_other_row hm fun e => hs (.inl ⟨rfl, e⟩)
  case case20 e => subst e; exact cregStore_other_errsel hm fun e => hs (.inr ⟨rfl, e⟩)
  case case21 => cases h

theorem cregValue_retire_skip (k : ℕ) : ((s.skip k).retire).cregValue m = s.cregValue m := rfl

/-- What a write of a register's fields keeps besides the other registers. -/
structure OnlyRegister (s t : State) : Prop where
  pc : t.core.pc = s.core.pc
  retired : t.core.retired = s.core.retired
  regs : t.core.regs = s.core.regs
  mem : t.tile.mem = s.tile.mem
  wafer : t.wafer = s.wafer

theorem cregStore_keeps {old : Word} (h : fieldsWritten n old v = some w) : OnlyRegister s (s.cregStore n v) := by
  revert h
  fun_cases fieldsWritten n old v <;> intro h
  case case5 e => rw [cregStore_shape e]; exact ⟨rfl, rfl, rfl, rfl, rfl⟩
  case case15 e => rw [cregStore_quota e]; exact ⟨rfl, rfl, rfl, rfl, rfl⟩
  case case7 e | case11 e => obtain rfl | rfl := e <;> exact ⟨rfl, rfl, rfl, rfl, rfl⟩
  case case21 => cases h
  all_goals subst n; exact ⟨rfl, rfl, rfl, rfl, rfl⟩

theorem cregStore_readOnly (h : readOnlyRegister n = true) : s.cregStore n v = s := by
  have hn : n ≤ 0x004 ∨ n = 0x022 ∨ (0x030 ≤ n ∧ n ≤ 0x033) ∨ (0x040 ≤ n ∧ n ≤ 0x042) ∨ n = 0x051 ∨ n = 0x130 ∨
      n = 0x134 ∨ (0x137 ≤ n ∧ n ≤ 0x13F) := by
    simpa [readOnlyRegister, or_assoc] using h
  rcases hn with h | rfl | ⟨lo, hi⟩ | ⟨lo, hi⟩ | rfl | rfl | rfl | ⟨lo, hi⟩
  case inr.inl | inr.inr.inr.inr.inl | inr.inr.inr.inr.inr.inl | inr.inr.inr.inr.inr.inr.inl => rfl
  all_goals interval_cases n <;> rfl

/-! ### The checks of an access (R5, R97) -/

variable {word : Word} {may : CAccess → Bool} {unknown k : Issue} {a : CAccess}

theorem checked_may (h : cregAccess n = some a) (hm : may a = true) :
    cregAccessChecked word n may s unknown k = k := by simp [cregAccessChecked, h, hm]

theorem checked_barred (h : cregAccess n = some a) (hm : may a = false) :
    cregAccessChecked word n may s unknown k = .trap 2 word s := by simp [cregAccessChecked, h, hm]

theorem checked_unknown (h : cregAccess n = none) (hl : s.core.level = .M) :
    cregAccessChecked word n may s unknown k = unknown := by simp [cregAccessChecked, h, hl]

theorem checked_none (h : cregAccess n = none) (hl : s.core.level ≠ .M) :
    cregAccessChecked word n may s unknown k = .trap 1 word s := by simp [cregAccessChecked, h, hl]

theorem recordedCreg_access (h : recordedCreg n = true) : cregAccess n = some .jr := by
  simp only [recordedCreg, Bool.or_eq_true, beq_iff_eq] at h
  obtain ((rfl | rfl) | rfl) | rfl := h <;> rfl

theorem evc_access (h : 0x048 ≤ n ∧ n ≤ 0x04F) : cregAccess n = some .j := by
  obtain ⟨lo, hi⟩ := h
  interval_cases n <;> rfl

/-! ### mfc (R127) -/

theorem exec_mfc (x : BitVec 5) (c : BitVec 12) : exec (.mfc x c) s = execMfc x c s := rfl

theorem hasWord_mfc (x : BitVec 5) (c : BitVec 12) : HasWord (.mfc x c) (wordOf (.mfc x c)) := ⟨_, _, rfl, rfl⟩

/-- A read of a register that is neither recorded nor shared by the cores. -/
theorem execMfc_plain {x : BitVec 5} {c : BitVec 12} (ha : cregAccess c.toNat = some a)
    (hr : a.mayRead s.core.level = true) (hflags : c.toNat = 0x009 → s.core.flagsPending = false)
    (hrec : recordedCreg c.toNat = false) (hevc : ¬(0x048 ≤ c.toNat ∧ c.toNat ≤ 0x04F)) :
    execMfc x c s = ((s.setReg x (s.cregValue c.toNat)).next4).result := by
  have h9 : (decide (c.toNat = 0x009) && s.core.flagsPending) = false := by
    by_cases e : c.toNat = 0x009 <;> simp [e, hflags]
  have hc : (decide (0x048 ≤ c.toNat) && decide (c.toNat ≤ 0x04F)) = false := by
    rw [← Bool.decide_and, decide_eq_false hevc]
  unfold execMfc
  dsimp only
  rw [checked_may ha hr]
  simp [h9, hrec, hc]

/-- A read of a recorded register gives what `State.record` gives (R98). -/
theorem execMfc_recorded {x : BitVec 5} {c : BitVec 12} {v : Word} {u : State} (hrec : recordedCreg c.toNat = true)
    (hu : s.record (s.cregValue c.toNat) = some (v, u)) : execMfc x c s = ((u.setReg x v).next4).result := by
  have h9 : c.toNat ≠ 0x009 := fun e => by rw [e] at hrec; cases hrec
  unfold execMfc
  dsimp only
  rw [checked_may (recordedCreg_access hrec) rfl]
  simp [h9, hrec, hu]

/-- A read of an event counter leaves the note of an access (R425). -/
theorem execMfc_evc {x : BitVec 5} {c : BitVec 12} (hevc : 0x048 ≤ c.toNat ∧ c.toNat ≤ 0x04F)
    (hroom : s.detRoom = true) : execMfc x c s =
      (((s.touchEvc (c.toNat - 0x048) false).setReg x (s.cregValue c.toNat)).next4).result := by
  have h9 : c.toNat ≠ 0x009 := by omega
  have hrec : recordedCreg c.toNat = false := by
    simp only [recordedCreg, Bool.or_eq_false_iff, beq_eq_false_iff_ne]; omega
  unfold execMfc
  dsimp only
  rw [checked_may (evc_access hevc) rfl]
  simp [h9, hrec, hevc, hroom]

theorem noteDet_fills (s : State) (d : Det) : (s.noteDet d).tile.fills = s.tile.fills := by
  unfold State.noteDet
  split
  · rfl
  · split
    · rfl
    · unfold State.inject
      dsimp only
      split <;> rfl

theorem touch_fills (s : State) (src line : ℕ) (write : Bool) :
    (s.touch src line write).tile.fills = s.tile.fills := by
  unfold State.touch
  dsimp only
  split
  · split
    · exact noteDet_fills _ _
    · rfl
  · rfl

/-- An instruction that leaves the notes of an access, writes a register and moves on. -/
theorem noted_assigns {u t : State} {x : BitVec 5} {v : Word} (h : OnlyNotes s u) (hf : u.tile.fills = s.tile.fills)
    (e : ((u.setReg x v).next4).result = .next t) :
    WritesScalar x v s.core t.core ∧ Completed s t ∧ OnlyReadsHere s t := by
  obtain ⟨hwrites, hpc, hretired, -, -⟩ := assigns_next4 x v u t e
  rw [h.core] at hwrites hpc hretired
  simp only [next4_result, Host.Outcome.next.injEq] at e
  subst e
  refine ⟨hwrites, ⟨hpc, hretired⟩, h.others, h.place, ?_, h.wafer, ?_⟩
  · have ht : ((u.setReg x v).skip 4).retire.tile = u.tile := rfl
    have hlines : u.tile.lines = s.tile.lines := by
      have e := congrArg Tile.lines h.tile
      exact e
    rw [ht, hlines]
    exact h.tile.trans (by rw [hf])
  · exact ⟨fun b => congrArg (·.mem.read b) h.tile, fun b => congrArg (·.hbm.read b) h.wafer,
      fun b => congrArg (·.host.read b) h.wafer, fun b => congrArg (·.peer.read b) h.wafer,
      congrArg (·.sites) h.wafer⟩

/-- In a run, a recorded value is the value itself, and a determinant notes it (R98). -/
theorem record_run (hreplay : s.tile.replay = none) (hroom : s.detRoom = true) (v : Word) :
    ∃ u, s.record v = some (v, u) ∧ OnlyNotes s u ∧ u.tile.fills = s.tile.fills := by
  simp only [State.record, hreplay, hroom, if_true]
  exact ⟨_, rfl, noteDet_onlyNotes _ _, noteDet_fills _ _⟩

/-- In a replay, it is the value recorded next (R343). -/
theorem record_replay {r : Word} (h : s.nextRecorded = some r) (v : Word) :
    ∃ ds, s.record v = some (r, { s with tile := { s.tile with replay := some ds } }) := by
  unfold State.nextRecorded at h
  unfold State.record
  cases hr : s.tile.replay with
  | none => simp [hr] at h
  | some ds =>
    cases ht : takeRecorded s.coreNo ds with
    | none => simp [hr, ht] at h
    | some p =>
      obtain ⟨w, rest⟩ := p
      simp only [hr, ht, Option.bind_some, Option.map_some, Option.some.injEq] at h
      subst h
      exact ⟨rest, by simp [ht]⟩

/-- The fields of WHOAMI (R340). -/
theorem whoami_fields (s : State) :
    field s.whoami 0 4 = s.coreNo.toNat ∧ field s.whoami 4 12 = s.tile.jt.toNat ∧
      field s.whoami 16 6 = (s.tile.job.getD 0).toNat ∧ field s.whoami 22 2 = s.tile.prio.toNat ∧
      field s.whoami 32 12 = s.tile.tile.toNat ∧
      field s.whoami 48 1 = (if s.core.task.inTask then 1 else 0) := by
  have hcore := s.coreNo.isLt
  have hjt := s.tile.jt.isLt
  have hjob := (s.tile.job.getD 0).isLt
  have hprio := s.tile.prio.isLt
  have htile := s.tile.tile.isLt
  simp only [field, State.whoami, BitVec.toNat_ofNat]
  split <;> refine ⟨?_, ?_, ?_, ?_, ?_, ?_⟩ <;> omega

/-- The fields of WDEPTH (R120). -/
theorem wdepth_fields (c : Core) :
    field c.wdepth 0 16 = c.win.depth.toNat ∧ field c.wdepth 16 4 = c.win.res.toNat ∧
      field c.wdepth 24 4 = c.win.cwp.toNat ∧ field c.wdepth 32 16 = c.win.spills.toNat ∧
      field c.wdepth 48 16 = c.win.fills.toNat := by
  have hdepth := c.win.depth.isLt
  have hres := c.win.res.isLt
  have hcwp := c.win.cwp.isLt
  have hspills := c.win.spills.isLt
  have hfills := c.win.fills.isLt
  simp only [field, Core.wdepth, BitVec.toNat_ofNat]
  refine ⟨?_, ?_, ?_, ?_, ?_⟩ <;> omega

/-! ### mtc (R127) -/

theorem exec_mtc (x : BitVec 5) (c : BitVec 12) : exec (.mtc x c) s = execMtc x c s := rfl

theorem hasWord_mtc (x : BitVec 5) (c : BitVec 12) : HasWord (.mtc x c) (wordOf (.mtc x c)) := ⟨_, _, rfl, rfl⟩

/-- An mtc that may write and does not wait, to a register without an operation of its own. -/
theorem execMtc_store {x : BitVec 5} {c : BitVec 12} (ha : cregAccess c.toNat = some a)
    (hw : a.mayWrite s.core.level = true) (hflags : c.toNat = 0x009 → s.core.flagsPending = false)
    (hmode : c.toNat ≠ 0x058) (hevc : ¬(0x048 ≤ c.toNat ∧ c.toNat ≤ 0x04F)) :
    execMtc x c s = .next (((s.cregStore c.toNat (s.reg x)).skip 4).retire) := by
  have h9 : (decide (c.toNat = 0x009) && s.core.flagsPending) = false := by
    by_cases e : c.toNat = 0x009 <;> simp [e, hflags]
  have hc : (decide (0x048 ≤ c.toNat) && decide (c.toNat ≤ 0x04F) && !s.detRoom) = false := by
    rw [← Bool.decide_and, decide_eq_false hevc]; rfl
  unfold execMtc
  dsimp only
  rw [checked_may ha hw]
  simp [h9, hmode, hc]

theorem fieldsWritten_plain {old : Word} (h : fieldsWritten n old v = some w) :
    n ≠ 0x058 ∧ ¬(0x048 ≤ n ∧ n ≤ 0x04F) := by
  revert h
  fun_cases fieldsWritten n old v <;> intro h
  case case21 => cases h
  all_goals omega

theorem readOnlyRegister_plain (h : readOnlyRegister n = true) :
    n ≠ 0x058 ∧ ¬(0x048 ≤ n ∧ n ≤ 0x04F) ∧ n ≠ 0x009 := by
  simp only [readOnlyRegister, Bool.or_eq_true, Bool.and_eq_true, decide_eq_true_eq, beq_iff_eq] at h
  omega

/-- What an mtc of a register's fields leaves. -/
theorem cregStore_completed (h : fieldsWritten n (s.cregValue n) v = some w) :
    let t := ((s.cregStore n v).skip 4).retire
    t.cregValue n = w ∧ (∀ m, m < 4096 → m ≠ n → ¬selects n m → t.cregValue m = s.cregValue m) ∧
      (n = 0x120 → t.core.tlb = []) ∧ Completed s t ∧ t.core.regs = s.core.regs ∧ KeepsMemory s t := by
  have hk := cregStore_keeps (s := s) h
  refine ⟨cregStore_self h, fun m _ hm hs => cregStore_other h hm hs, ?_, ⟨?_, ?_⟩, hk.regs, ?_⟩
  · rintro rfl; rfl
  · exact congrArg (· + 4) hk.pc
  · exact congrArg (· + 1) hk.retired
  · constructor <;> simp [hk.mem, hk.wafer]

end Sys2Proof.Machine

open Sys2Proof.Machine in
/-- Settles O9: the access table decides, then the register is read as it is, as recorded, or with the note of an
access. -/
theorem controlRegisterReads : Obligations.ControlRegisterReads := by
  intro x c s n v
  refine ⟨fun a ha hr hflags hrec hevc => ?_, fun h hroom => ?_, fun r hrec hr => ?_, fun a ha hr => ?_, fun ha hl => ?_,
    fun ha hl => ?_, fun e => ?_, fun e => ?_⟩
  · have he := execMfc_plain (x := x) ha hr hflags hrec hevc
    exact ⟨_, he, assigns_next4 _ _ _ _ rfl⟩
  · rcases h with ⟨hrec, hreplay⟩ | hevc
    · obtain ⟨u, hu, hnotes, hfills⟩ := record_run hreplay hroom v
      exact ⟨_, execMfc_recorded hrec hu, noted_assigns hnotes hfills rfl⟩
    · exact ⟨_, execMfc_evc hevc hroom, noted_assigns (touch_onlyNotes _ _ _ _) (touch_fills _ _ _ _) rfl⟩
  · obtain ⟨ds, hu⟩ := record_replay hr v
    have ht := assigns_next4 x r { s with tile := { s.tile with replay := some ds } } _ rfl
    exact ⟨_, execMfc_recorded hrec hu, ht.result, ⟨ht.pc, ht.retired⟩, rfl⟩
  · exact ⟨_, hasWord_mfc x c, by rw [exec_mfc, execMfc, checked_barred ha hr]; rfl⟩
  · exact ⟨_, hasWord_mfc x c, by rw [exec_mfc, execMfc, checked_none ha hl]; rfl⟩
  · exact ⟨_, by rw [exec_mfc, execMfc, checked_unknown ha hl]; rfl, assigns_next4 _ _ _ _ rfl⟩
  · rw [show v = s.whoami by simp only [v, e]; rfl]
    exact whoami_fields s
  · rw [show v = s.core.wdepth by simp only [v, e]; rfl]
    exact wdepth_fields s.core

open Sys2Proof.Machine in
/-- Settles O10: one register's write reaches the fields of that register alone, by the cases of the field table. -/
theorem controlRegisterWrites : Obligations.ControlRegisterWrites := by
  intro x c s n v
  refine ⟨fun a w ha hw hflags h => ?_, fun a ha hw h => ?_, fun a ha hw => ?_, fun ha hl => ?_, fun ha hl => ?_⟩
  · obtain ⟨hmode, hevc⟩ := fieldsWritten_plain h
    exact ⟨_, execMtc_store ha hw hflags hmode hevc, cregStore_completed h⟩
  · obtain ⟨hmode, hevc, h9⟩ := readOnlyRegister_plain h
    refine ⟨_, execMtc_store ha hw (fun e => absurd e h9) hmode hevc, ?_⟩
    rw [cregStore_readOnly h]
    rfl
  · exact ⟨_, hasWord_mtc x c, by rw [exec_mtc, execMtc, checked_barred ha hw]; rfl⟩
  · exact ⟨_, hasWord_mtc x c, by rw [exec_mtc, execMtc, checked_none ha hl]; rfl⟩
  · exact ⟨_, by rw [exec_mtc, execMtc, checked_unknown ha hl]; rfl, rfl⟩

end

