-- ==== Sys2Proof/Proofs/StepRuns.lean ====
section
/-!
SUPPORT. What the next step runs (R8, R10, R70 to R72, R387): the turn of the agenda, the word of a kernel run, or what
the core fetches, and what the model notes of an issue; then the obligation O60.
-/
namespace Sys2Proof.Machine

variable {s u w v : State}

/-! ### What is noted of an issue -/

/-- A state that differs from another by what is noted of an issue alone. -/
def NotesOnly (w v : State) : Prop :=
  v.tile = w.tile ∧ v.wafer = w.wafer ∧ v.core.regs = w.core.regs ∧ v.core.pc = w.core.pc ∧
    v.core.retired = w.core.retired ∧ v.core.win = w.core.win

/-- The couplings of the tile are those of another state. -/
def SameCouplings (w v : State) : Prop := v.others = w.others ∧ v.core.coupling = w.core.coupling

theorem NotesOnly.refl (w : State) : NotesOnly w w := ⟨rfl, rfl, rfl, rfl, rfl, rfl⟩

theorem NotesOnly.trans (h : NotesOnly u v) (k : NotesOnly v w) : NotesOnly u w := by
  obtain ⟨tile, wafer, regs, pc, retired, win⟩ := k
  obtain ⟨tile', wafer', regs', pc', retired', win'⟩ := h
  exact ⟨tile.trans tile', wafer.trans wafer', regs.trans regs', pc.trans pc', retired.trans retired', win.trans win'⟩

theorem SameCouplings.trans (h : SameCouplings u v) (k : SameCouplings v w) : SameCouplings u w :=
  ⟨k.1.trans h.1, k.2.trans h.2⟩

theorem keepSkip_notes (u w : State) : NotesOnly w (keepSkip u w) ∧ SameCouplings w (keepSkip u w) := by
  unfold keepSkip
  split
  · exact ⟨⟨rfl, rfl, rfl, rfl, rfl, rfl⟩, rfl, rfl⟩
  · exact ⟨.refl w, rfl, rfl⟩

theorem noteIssue_notes (u w : State) : NotesOnly w (noteIssue u w) ∧ SameCouplings w (noteIssue u w) := by
  unfold noteIssue
  split
  · exact ⟨.refl w, rfl, rfl⟩
  · exact ⟨⟨rfl, rfl, rfl, rfl, rfl, rfl⟩, rfl, rfl⟩

theorem uncouple_notes (w : State) : NotesOnly w w.uncouple := by
  unfold State.uncouple Core.unfollow
  split <;> exact ⟨rfl, rfl, rfl, rfl, rfl, rfl⟩

theorem keepPace_notes (u w : State) : NotesOnly w (keepPace u w) := by
  unfold keepPace
  split
  · dsimp only
    split
    · exact uncouple_notes w
    · exact .refl w
  · exact .refl w

/-- Only a follower is uncoupled (R134). -/
theorem keepPace_of_not_following (h : ∀ n, u.core.coupling ≠ .following n) (w : State) : keepPace u w = w := by
  unfold keepPace
  split
  · exact absurd ‹_› (h _)
  · rfl

/-- What an issue leaves is what its instruction left and the notes of the issue. -/
theorem noted_notes (u w : State) : NotesOnly w (keepPace u (noteIssue u (keepSkip u w))) :=
  ((keepSkip_notes u w).1.trans (noteIssue_notes u _).1).trans (keepPace_notes u _)

theorem noted_couplings (h : ∀ n, u.core.coupling ≠ .following n) (w : State) :
    SameCouplings w (keepPace u (noteIssue u (keepSkip u w))) := by
  rw [keepPace_of_not_following h]
  exact (keepSkip_notes u w).2.trans (noteIssue_notes u _).2

/-! ### Fetching -/

/-- A state whose core has another instruction buffer. -/
def State.withBuffer (s : State) (l : List (Nat × LineBits)) : State := { s with core := { s.core with ibuf := l } }

/-- Fetching a halfword changes the instruction buffer alone. -/
theorem fetchHalf_got {va : Nat} {b : List Byte} (e : s.fetchHalf va = .got b u) : ∃ l, u = s.withBuffer l := by
  have key : ∀ c k d, Fetched.got c (s.fillBuffer k d) = .got b u → ∃ l, u = s.withBuffer l := by
    intro c k d e
    injection e with _ e
    exact ⟨_, e.symm⟩
  unfold State.fetchHalf at e
  split at e
  · cases e
  · cases e
  · split at e
    · cases e
    · split at e
      · split at e
        · exact key _ _ _ e
        · exact key _ _ _ e
      · split at e
        · exact key _ _ _ e
        · split at e <;> cases e

theorem fetch_got {b : List Byte} (e : s.fetch = .got b u) : ∃ l, u = s.withBuffer l := by
  unfold State.fetch at e
  split at e
  · obtain ⟨l, rfl⟩ := fetchHalf_got ‹_›
    split at e
    · split at e
      · obtain ⟨l', rfl⟩ := fetchHalf_got ‹_›
        injection e with _ e
        exact ⟨l', e.symm⟩
      · rename_i hno
        exact absurd e (hno b u)
    · injection e with _ e
      exact ⟨l, e.symm⟩
  · rename_i hno
    exact absurd e (hno b u)

/-! ### Fetching from the own scratchpad -/

theorem leNat_div (l : List Byte) (o : Nat) : leNat l / 256 ^ o = leNat (l.drop o) := by
  induction o generalizing l with
  | zero => simp
  | succ o ih =>
    cases l with
    | nil => simp [leNat]
    | cons b r =>
      have hb := b.isLt
      rw [Nat.pow_succ, Nat.mul_comm, ← Nat.div_div_eq_div_mul, List.drop_succ_cons, ← ih]
      congr 1
      simp only [leNat]
      omega

theorem drop_readBytes (m : Memory) (a o n : Nat) (h : o < n) :
    ∃ r, (m.readBytes a n).drop o = m.read (a + o) :: r := by
  induction o generalizing a n with
  | zero =>
    obtain ⟨k, rfl⟩ := Nat.exists_eq_succ_of_ne_zero (Nat.ne_of_gt h)
    exact ⟨_, rfl⟩
  | succ o ih =>
    obtain ⟨k, rfl⟩ := Nat.exists_eq_succ_of_ne_zero (Nat.ne_of_gt (Nat.zero_lt_of_lt h))
    have hstep : a + 1 + o = a + (o + 1) := by omega
    rw [← hstep]
    exact ih (a + 1) k (by omega)

/-- Eight bits of a number kept in a wider word. -/
theorem extract_ofNat {k : Nat} (x j : Nat) (h : j + 8 ≤ k) :
    (BitVec.ofNat k x).extractLsb' j 8 = BitVec.ofNat 8 (x / 2 ^ j) := by
  apply BitVec.eq_of_getLsbD_eq
  intro i hi
  have hin : j + i < k := by omega
  simp only [BitVec.getLsbD_extractLsb', BitVec.getLsbD_ofNat, Nat.testBit_div_two_pow, hi, hin, Nat.add_comm i j,
    decide_true, Bool.true_and]

/-- A byte of a line read from memory is the byte there. -/
theorem byteOf_bytesLine (m : Memory) (a o : Nat) (h : o < 256) :
    (bytesLine (m.readBytes a 256)).extractLsb' (8 * o) 8 = m.read (a + o) := by
  obtain ⟨r, hr⟩ := drop_readBytes m a o 256 h
  have hpow : (2 : Nat) ^ (8 * o) = 256 ^ o := by rw [Nat.pow_mul]
  have hbyte := (m.read (a + o)).isLt
  rw [bytesLine, extract_ofNat _ _ (by omega), hpow, leNat_div, hr, leNat]
  apply BitVec.eq_of_toNat_eq
  rw [BitVec.toNat_ofNat]
  omega

/-- A halfword of a line read from memory is the halfword there. -/
theorem halfAt_bytesLine (m : Memory) (a : Nat) (heven : a % 2 = 0) :
    halfAt (bytesLine (m.readBytes (a / 256 * 256) 256)) (a % 256) = m.readBytes a 2 := by
  have ha : a / 256 * 256 + a % 256 = a := Nat.div_add_mod' a 256
  have ha1 : a / 256 * 256 + (a % 256 + 1) = a + 1 := by omega
  rw [halfAt, byteOf_bytesLine _ _ _ (by omega), byteOf_bytesLine _ _ _ (by omega), ha, ha1]
  rfl

/-- Every buffered line of the own scratchpad holds what the memory holds. -/
def State.bufferFresh (s : State) : Prop :=
  ∀ k d, findLine s.core.ibuf k = some d → d = bytesLine (s.tile.mem.readBytes (k * 256) 256)

/-- A halfword of the own scratchpad that no footprint overlaps; its line is then buffered. -/
theorem fetchHalf_own {va : Nat} (heven : va % 2 = 0) (h : va < 0x600000) (hfree : s.footprintStall va 2 false = false)
    (hfresh : s.bufferFresh) :
    ∃ d, d = bytesLine (s.tile.mem.readBytes (va / 256 * 256) 256) ∧
      s.fetchHalf va = .got (s.tile.mem.readBytes va 2) (s.fillBuffer (va / 256) d) := by
  refine ⟨_, rfl, ?_⟩
  simp only [State.fetchHalf, translate_own _ va s h, hfree, Bool.false_eq_true, if_false]
  cases hline : findLine s.core.ibuf (va / 256) with
  | none => rfl
  | some d =>
    obtain rfl := hfresh _ _ hline
    simp only [State.useLine, halfAt_bytesLine _ _ heven]

theorem bufferFresh_of_nil (h : s.core.ibuf = []) : s.bufferFresh := by
  intro k d e
  rw [h] at e
  cases e

theorem bufferFresh_fillBuffer (h : s.core.ibuf = []) {k : Nat} {d : LineBits}
    (hd : d = bytesLine (s.tile.mem.readBytes (k * 256) 256)) : (s.fillBuffer k d).bufferFresh := by
  intro j b e
  simp only [State.fillBuffer, h, List.filter_nil, List.take_succ_cons, List.take_nil, findLine] at e
  split at e
  · rename_i hkj
    exact hkj ▸ (Option.some.inj e).symm.trans hd
  · cases e

/-- The bytes of an instruction at the pc: its low halfword alone decides the length (R70). -/
theorem fetch_own (heven : s.core.pc.toNat % 2 = 0) (hend : s.core.pc.toNat + 4 ≤ 0x600000) (hnil : s.core.ibuf = [])
    (hfree : s.footprintStall s.core.pc.toNat 2 false = false)
    (hfree' : s.footprintStall (s.core.pc.toNat + 2) 2 false = false) :
    ∃ l, s.fetch = .got (if (s.tile.mem.read s.core.pc.toNat).getLsbD 0 then s.tile.mem.readBytes s.core.pc.toNat 4
      else s.tile.mem.readBytes s.core.pc.toNat 2) (s.withBuffer l) := by
  obtain ⟨d, hd, hlo⟩ := fetchHalf_own heven (by omega) hfree (bufferFresh_of_nil hnil)
  obtain ⟨d', -, hhi⟩ := fetchHalf_own (s := s.fillBuffer _ d) (va := s.core.pc.toNat + 2) (by omega) (by omega) hfree'
    (bufferFresh_fillBuffer hnil hd)
  have hpc : ∀ k, (s.fillBuffer k d).core.pc = s.core.pc := fun _ => rfl
  unfold State.fetch
  simp only [hlo, Memory.readBytes, List.headD_cons, hpc, hhi]
  split <;> exact ⟨_, rfl⟩

/-- Bytes after a compact instruction do not change what is decoded. -/
theorem decodeCore_half {b0 b1 : Byte} {r : List Byte} (h : b0.getLsbD 0 = false) :
    decodeCore (b0 :: b1 :: r) = decodeCore [b0, b1] := by
  have heven : b0.toNat % 2 = 0 := by
    simp only [BitVec.getLsbD, Nat.testBit_zero, decide_eq_false_iff_not] at h
    omega
  simp only [decodeCore, heven, if_true]

/-- An instruction in the own scratchpad is fetched as it stands there. -/
theorem fetch_decodes {i : Instr} {n : Nat} (heven : s.core.pc.toNat % 2 = 0) (hend : s.core.pc.toNat + 4 ≤ 0x600000)
    (hnil : s.core.ibuf = []) (hfree : s.footprintStall s.core.pc.toNat 2 false = false)
    (hfree' : s.footprintStall (s.core.pc.toNat + 2) 2 false = false)
    (hdec : decodeCore (s.tile.mem.readBytes s.core.pc.toNat 4) = some (i, n)) :
    ∃ b l, s.fetch = .got b (s.withBuffer l) ∧ decodeCore b = some (i, n) := by
  obtain ⟨l, hl⟩ := fetch_own heven hend hnil hfree hfree'
  refine ⟨_, l, hl, ?_⟩
  split
  · exact hdec
  · rename_i hbit
    rw [← hdec]
    exact (decodeCore_half (Bool.eq_false_iff.mpr hbit)).symm

/-! ### Issuing -/

/-- The state in which an instruction is executed: the check for breakpoints is on again (R363). -/
def State.pastSkip (u : State) : State := { u with core := { u.core with trap := { u.core.trap with skip := false } } }

theorem outOfTurn_of_live (h : u.tile.replay = none) (w : State) : u.outOfTurn w = false := by
  simp only [State.outOfTurn, h]

/-- A result is what an instruction does at its issue in a state, and what is noted of it. -/
def IssuedAs (i : Instr) (u : State) (r : Result) : Prop :=
  (∀ w, exec i u.pastSkip = .next w → r = .next (keepPace u (noteIssue u (keepSkip u w)))) ∧
    (∀ f, exec i u.pastSkip = .fault f → r = .fault f) ∧ (∀ f, exec i u.pastSkip = .refused f → r = .refused f)

theorem issue_issuedAs (h : u.tile.replay = none) (i : Instr) : IssuedAs i u (issue i u) := by
  unfold issue
  refine ⟨fun w e => ?_, fun f e => ?_, fun f e => ?_⟩
  all_goals rw [State.pastSkip] at e
  · simp [e, outOfTurn_of_live h]
  · simp [e]
  · simp [e]

/-! ### The turn that is due -/

/-- The tile in focus runs: no turn of the agenda is due, and nothing stops, replays or leaves. -/
def State.live (s : State) : Prop :=
  s.wafer.agenda = [] ∧ s.tile.stopped = false ∧ s.tile.replay = none ∧ s.tile.leaving = none

/-- The core in focus has the turn. -/
def State.coreTurn (s : State) : Prop := s.live ∧ s.tile.box.run = none ∧ s.core.drafted = false

/-- The core in focus issues. -/
def State.issues (s : State) : Prop :=
  s.coreTurn ∧ s.mayIssue = true ∧ s.watchdogDue = false ∧ s.breakpointHit = false

/-- With an empty agenda the focus runs. -/
theorem nextTurn_live (h : s.live) : nextTurn s = runTile s := by
  obtain ⟨hagenda, -, -, hleaving⟩ := h
  simp only [nextTurn, hagenda, runFocus, pursueLeave, hleaving]

theorem nextTurn_kernel {r : BoxRun} (h : s.live) (hrun : s.tile.box.run = some r) : nextTurn s = boxStep r s := by
  rw [nextTurn_live h]
  obtain ⟨-, hstopped, -, -⟩ := h
  simp only [runTile, hstopped, hrun, Bool.false_eq_true, if_false]

theorem nextTurn_core (h : s.coreTurn) : nextTurn s = coreStep s := by
  obtain ⟨hlive, hrun, -⟩ := h
  rw [nextTurn_live hlive]
  obtain ⟨-, hstopped, hreplay, -⟩ := hlive
  simp [runTile, hstopped, hrun, hreplay, replayNext]

theorem nextTurn_stays (h : s.coreTurn) (hmay : s.mayIssue = false) : nextTurn s = .next s := by
  simp [nextTurn_core h, coreStep, h.2.2, hmay]

theorem nextTurn_watchdog (h : s.coreTurn) (hmay : s.mayIssue = true) (hdue : s.watchdogDue = true) :
    nextTurn s = .next (watchdogTrap s) := by
  simp [nextTurn_core h, coreStep, h.2.2, hmay, hdue]

theorem nextTurn_breakpoint (h : s.coreTurn) (hmay : s.mayIssue = true) (hdue : s.watchdogDue = false)
    (hhit : s.breakpointHit = true) : nextTurn s = .next (breakpointTrap s) := by
  simp [nextTurn_core h, coreStep, h.2.2, hmay, hdue, hhit]

/-- A core that issues does with what it fetches what its fetch tells. -/
theorem nextTurn_got {b : List Byte} (h : s.issues) (e : s.fetch = .got b u) : nextTurn s = issueBytes b u := by
  obtain ⟨hturn, hmay, hdue, hhit⟩ := h
  simp [nextTurn_core hturn, coreStep, hturn.2.2, hmay, hdue, hhit, e]

theorem nextTurn_wait (h : s.issues) (e : s.fetch = .wait u) : nextTurn s = .next u.fallBehind := by
  obtain ⟨hturn, hmay, hdue, hhit⟩ := h
  simp [nextTurn_core hturn, coreStep, hturn.2.2, hmay, hdue, hhit, e]

theorem nextTurn_fetchFault {c va : Nat} (h : s.issues) (e : s.fetch = .fault c va) :
    nextTurn s = .next (takeTrap c (BitVec.ofNat 64 va) { s with core := { s.core with fetchBad := none } }) := by
  obtain ⟨hturn, hmay, hdue, hhit⟩ := h
  simp [nextTurn_core hturn, coreStep, hturn.2.2, hmay, hdue, hhit, e]

/-- Fetched bytes that decode to an instruction which the scoreboard does not hold run as that instruction. -/
theorem nextTurn_issued {b : List Byte} {i : Instr} {n : Nat} (h : s.issues) (e : s.fetch = .got b u)
    (hdec : decodeCore b = some (i, n)) (hfree : u.core.holds i = false) : IssuedAs i u (nextTurn s) := by
  obtain ⟨l, rfl⟩ := fetch_got e
  obtain ⟨⟨⟨-, -, hreplay, -⟩, -⟩, -⟩ := id h
  simpa [nextTurn_got h e, issueBytes, hdec, hfree] using issue_issuedAs (u := s.withBuffer l) hreplay i

theorem nextTurn_held {b : List Byte} {i : Instr} {n : Nat} (h : s.issues) (e : s.fetch = .got b u)
    (hdec : decodeCore b = some (i, n)) (hheld : u.core.holds i = true) : nextTurn s = .next u.fallBehind := by
  simp [nextTurn_got h e, issueBytes, hdec, hheld]

theorem nextTurn_illegal {b : List Byte} (h : s.issues) (e : s.fetch = .got b u) (hdec : decodeCore b = none) :
    nextTurn s = exec (.illegalInstruction (BitVec.ofNat 32 (leNat b))) u := by
  rw [nextTurn_got h e]
  simp only [issueBytes, hdec]
  rfl

/-- An instruction that stands at the pc in the own scratchpad runs. -/
theorem nextTurn_own {i : Instr} {n : Nat} (h : s.issues) (heven : s.core.pc.toNat % 2 = 0)
    (hend : s.core.pc.toNat + 4 ≤ 0x600000) (hnil : s.core.ibuf = [])
    (hfree : s.footprintStall s.core.pc.toNat 2 false = false)
    (hfree' : s.footprintStall (s.core.pc.toNat + 2) 2 false = false)
    (hdec : decodeCore (s.tile.mem.readBytes s.core.pc.toNat 4) = some (i, n)) (hheld : s.core.holds i = false) :
    ∃ l, IssuedAs i (s.withBuffer l) (nextTurn s) := by
  obtain ⟨b, l, e, hb⟩ := fetch_decodes heven hend hnil hfree hfree' hdec
  exact ⟨l, nextTurn_issued h e hb hheld⟩

/-! ### A kernel's word (R387) -/

theorem boxStep_past {r : BoxRun} (h : s.tile.box.stop r.flow ≤ r.pc) : boxStep r s = .next (kernelTrap r 4 0 s) := by
  simp only [boxStep, h, if_true]

/-- A word of the kernel runs as the instruction that the decoder reads from it, and traps where it reads none. -/
theorem boxStep_within {r : BoxRun} (h : r.pc < s.tile.box.stop r.flow) :
    boxStep r s = ((decodeBox (s.tile.box.storeWord r.pc).toNat).map exec).elim
      (.next (kernelTrap r 4 (s.tile.box.storeWord r.pc).toNat s)) (fun f => f s) := by
  simp only [boxStep, Nat.not_le.mpr h, if_false, boxRow_eq]
  cases (decodeBox (s.tile.box.storeWord r.pc).toNat) <;> rfl

/-! ### The turns of the agenda -/

theorem nextTurn_event {i : Instr} {r : List Turn} (h : s.wafer.agenda = .event i :: r) (hword : encode i = none) :
    (∀ w, exec i s.turnTaken = .next w →
      nextTurn s = .next (if (s.turnTaken.focusSite w.site).outOfTurn w then s.turnTaken else w)) ∧
    (∀ f, exec i s.turnTaken = .fault f → nextTurn s = .fault f) ∧
    (∀ f, exec i s.turnTaken = .refused f → nextTurn s = .refused f) := by
  have hturn : nextTurn s = inTurn s.turnTaken (exec i s.turnTaken) := by simp [nextTurn, h, hword]
  rw [hturn]
  refine ⟨fun w e => ?_, fun f e => by rw [e]; rfl, fun f e => by rw [e]; rfl⟩
  rw [e]
  simp only [inTurn]
  split <;> rfl

theorem nextTurn_word {i : Instr} {r : List Turn} (h : s.wafer.agenda = .event i :: r)
    (hword : (encode i).isSome = true) : nextTurn s = .next s.turnTaken := by
  simp only [nextTurn, h, hword, if_true]

theorem nextTurn_focus {x : SiteId} {c : CoreId} {r : List Turn} (h : s.wafer.agenda = .core x c :: r) :
    nextTurn s = .next (s.turnTaken.focus x c) := by
  simp only [nextTurn, h]

/-! ### The clock and the boundaries that are asked for -/

theorem tick_clock (s : State) : s.wafer.clock < s.tick.wafer.clock := by
  simp only [State.tick]
  omega

theorem askStaging_of_none_due (h : ∀ x ∈ s.siteIds, (s.focusSite x).stagingDue = false) : s.askStaging = s := by
  have hnone : s.siteIds.filter (fun x => (s.focusSite x).stagingDue) = [] := by
    simpa [List.filter_eq_nil_iff] using h
  simp only [State.askStaging, hnone, List.foldl_nil]

end Sys2Proof.Machine

open Sys2Proof.Machine in
/-- Settles O60: the cases of `nextTurn`, of the tile in focus and of its core, each by its lemma; the bytes at the pc
reach the decoder whether the second halfword comes from the buffered line or from the memory. -/
theorem stepRunsInstructions : Obligations.StepRunsInstructions := by
  intro s t turned live turn issues pc past noted ran word
  refine ⟨⟨rfl, tick_clock s⟩, askStaging_of_none_due, fun u w => ?_, fun b u i n h e => nextTurn_issued h e,
    fun b u i n h e => nextTurn_held h e, fun b u h e => nextTurn_illegal h e, fun i n h => nextTurn_own h,
    fun u h e => nextTurn_wait h e, fun c va h e => nextTurn_fetchFault h e, nextTurn_stays, nextTurn_watchdog,
    nextTurn_breakpoint, fun r i h hrun hin hdec => ?_, fun r h hrun hin hdec => ?_, fun r h hrun hout => ?_,
    fun i r h => nextTurn_event h, fun i r h => nextTurn_word h, fun x c r h => nextTurn_focus h⟩
  · obtain ⟨tile, wafer, regs, pc, retired, win⟩ := noted_notes u w
    exact ⟨tile, wafer, regs, pc, retired, win, fun h => noted_couplings h w⟩
  · exact (nextTurn_kernel h hrun).trans (by rw [boxStep_within hin, hdec]; rfl)
  · exact (nextTurn_kernel h hrun).trans (by rw [boxStep_within hin, hdec]; rfl)
  · exact (nextTurn_kernel h hrun).trans (boxStep_past hout)
end

