-- ==== Sys2Proof/Proofs/Sites.lean ====
section
/-!
SUPPORT. The sites and the focus: what the machine is apart from its focus, that bringing a site or a core into focus leaves
it, and what a change at one site or at several leaves of the others.
-/
namespace Sys2Proof.Machine

set_option Elab.async false

/-! ### The machine apart from its focus -/

/-- The tiles, junctions and cores by site, and the wafer without its list of sites. -/
structure View where
  tile : SiteId → Tile
  junction : SiteId → Site
  core : SiteId → CoreId → Core
  wafer : Wafer

/-- What of a state does not depend on the focus. -/
def State.view (s : State) : View :=
  { tile := s.tileAt, junction := s.junctionAt, core := s.coreOfSite, wafer := { s.wafer with sites := [] } }

theorem findCore_dropCore (l : List (CoreId × Core)) (c d : CoreId) :
    findCore (dropCore l c) d = if d = c then {} else findCore l d := by
  induction l with
  | nil => exact (ite_self _).symm
  | cons p r ih =>
    obtain ⟨k, x⟩ := p
    rw [dropCore, List.filter_cons]
    rw [dropCore] at ih
    by_cases h : k = c
    · subst h
      simp only [bne_self_eq_false, Bool.false_eq_true, if_false, ih, findCore]
      split_ifs <;> simp_all
    · simp only [bne_iff_ne, ne_eq, h, not_false_eq_true, if_true, findCore, ih]
      split_ifs <;> simp_all

theorem findSite_dropSite (l : List (SiteId × SiteRec)) (x y : SiteId) (h : y ≠ x) :
    findSite (dropSite l x) y = findSite l y := by
  induction l with
  | nil => rfl
  | cons p r ih =>
    obtain ⟨k, v⟩ := p
    rw [dropSite, List.filter_cons]
    rw [dropSite] at ih
    by_cases e : k = x
    · simp [e, findSite, ih, Ne.symm h]
    · simp [e, findSite, ih]

/-! ### A core in focus -/

theorem focusCore_coreAt (s : State) (c d : CoreId) : (s.focusCore c).coreAt d = s.coreAt d := by
  unfold State.focusCore
  split_ifs with h
  · rfl
  · by_cases e : d = c
    · simp [State.coreAt, e, h]
    · by_cases g : d = s.coreNo
      · simp [State.coreAt, g, Ne.symm h]
      · simp [State.coreAt, e, g, findCore_dropCore]

@[simp] theorem coreOfSite_site (s : State) (c : CoreId) : s.coreOfSite s.site c = s.coreAt c := by
  simp [State.coreOfSite]

@[simp] theorem tileAt_site (s : State) : s.tileAt s.site = s.tile := by simp [State.tileAt]

@[simp] theorem junctionAt_site (s : State) : s.junctionAt s.site = s.junction := by simp [State.junctionAt]

theorem tileAt_of_site {s : State} {x : SiteId} (h : s.site = x) : s.tileAt x = s.tile := by rw [← h, tileAt_site]

theorem junctionAt_of_site {s : State} {x : SiteId} (h : s.site = x) : s.junctionAt x = s.junction := by
  rw [← h, junctionAt_site]

theorem coreOfSite_of_site {s : State} {x : SiteId} (h : s.site = x) (c : CoreId) : s.coreOfSite x c = s.coreAt c := by
  rw [← h, coreOfSite_site]

theorem coreAt_coreNo (s : State) : s.coreAt s.coreNo = s.core := by simp [State.coreAt]

theorem focusCore_view (s : State) (c : CoreId) : (s.focusCore c).view = s.view := by
  simp only [State.view, View.mk.injEq, focusCore_wafer, and_true]
  refine ⟨?_, ?_, ?_⟩
  · funext y; simp [State.tileAt]
  · funext y; simp [State.junctionAt]
  · funext y k; simp [State.coreOfSite, focusCore_coreAt]

/-! ### A site in focus -/

/-- Bringing a core of a site into focus changes nothing but the focus. -/
@[simp] theorem focus_view (s : State) (x : SiteId) (c : CoreId) : (s.focus x c).view = s.view := by
  unfold State.focus
  split_ifs with h
  · exact focusCore_view s c
  · simp only [State.view, View.mk.injEq, and_true]
    refine ⟨?_, ?_, ?_⟩
    · funext y
      by_cases e : y = x
      · simp [State.tileAt, e, h]
      · by_cases g : y = s.site
        · simp [State.tileAt, g, Ne.symm h]
        · simp [State.tileAt, e, g, findSite_dropSite]
    · funext y
      by_cases e : y = x
      · simp [State.junctionAt, e, h]
      · by_cases g : y = s.site
        · simp [State.junctionAt, g, Ne.symm h]
        · simp [State.junctionAt, e, g, findSite_dropSite]
    · funext y k
      by_cases e : y = x
      · by_cases g : k = c <;> simp [State.coreOfSite, State.coreAt, e, h, g, findCore_dropCore]
      · by_cases g : y = s.site
        · simp [State.coreOfSite, State.coreAt, g, Ne.symm h]
        · simp [State.coreOfSite, e, g, findSite_dropSite]

@[simp] theorem focus_site (s : State) (x : SiteId) (c : CoreId) : (s.focus x c).site = x := by
  unfold State.focus
  split_ifs with h
  · rw [focusCore_site, h]
  · rfl

@[simp] theorem focus_coreNo (s : State) (x : SiteId) (c : CoreId) : (s.focus x c).coreNo = c := by
  unfold State.focus
  split_ifs with h
  · exact focusCore_coreNo s c
  · rfl

@[simp] theorem focusSite_view (s : State) (x : SiteId) : (s.focusSite x).view = s.view := by
  unfold State.focusSite
  split_ifs
  · rfl
  · exact focus_view s x _

@[simp] theorem focusSite_site (s : State) (x : SiteId) : (s.focusSite x).site = x := by
  unfold State.focusSite
  split_ifs with h
  · exact h.symm
  · exact focus_site s x _

theorem focusSite_self (s : State) : s.focusSite s.site = s := by simp [State.focusSite]

/-! ### What equal views share -/

section
variable {s u : State} (h : u.view = s.view)
include h

theorem tileAt_of_view (y : SiteId) : u.tileAt y = s.tileAt y := congrFun (congrArg View.tile h) y

theorem junctionAt_of_view (y : SiteId) : u.junctionAt y = s.junctionAt y := congrFun (congrArg View.junction h) y

theorem coreOfSite_of_view (y : SiteId) (k : CoreId) : u.coreOfSite y k = s.coreOfSite y k :=
  congrFun (congrFun (congrArg View.core h) y) k

theorem wafer_of_view : u.wafer = { s.wafer with sites := u.wafer.sites } := by
  have e : ({ u.wafer with sites := [] } : Wafer) = { s.wafer with sites := [] } := congrArg View.wafer h
  have g := congrArg (fun w : Wafer => { w with sites := u.wafer.sites }) e
  exact g

end

@[simp] theorem focus_tileAt (s : State) (x y : SiteId) (c : CoreId) : (s.focus x c).tileAt y = s.tileAt y :=
  tileAt_of_view (focus_view s x c) y

@[simp] theorem focus_junctionAt (s : State) (x y : SiteId) (c : CoreId) : (s.focus x c).junctionAt y = s.junctionAt y :=
  junctionAt_of_view (focus_view s x c) y

@[simp] theorem focus_coreOfSite (s : State) (x y : SiteId) (c k : CoreId) :
    (s.focus x c).coreOfSite y k = s.coreOfSite y k := coreOfSite_of_view (focus_view s x c) y k

@[simp] theorem focusSite_tileAt (s : State) (x y : SiteId) : (s.focusSite x).tileAt y = s.tileAt y :=
  tileAt_of_view (focusSite_view s x) y

@[simp] theorem focusSite_junctionAt (s : State) (x y : SiteId) : (s.focusSite x).junctionAt y = s.junctionAt y :=
  junctionAt_of_view (focusSite_view s x) y

@[simp] theorem focusSite_coreOfSite (s : State) (x y : SiteId) (k : CoreId) :
    (s.focusSite x).coreOfSite y k = s.coreOfSite y k := coreOfSite_of_view (focusSite_view s x) y k

@[simp] theorem focusSite_tile (s : State) (x : SiteId) : (s.focusSite x).tile = s.tileAt x := by
  have h := tileAt_site (s.focusSite x)
  rwa [focusSite_site, focusSite_tileAt, eq_comm] at h

@[simp] theorem focusSite_junction (s : State) (x : SiteId) : (s.focusSite x).junction = s.junctionAt x := by
  have h := junctionAt_site (s.focusSite x)
  rwa [focusSite_site, focusSite_junctionAt, eq_comm] at h

@[simp] theorem focusSite_coreAt (s : State) (x : SiteId) (k : CoreId) : (s.focusSite x).coreAt k = s.coreOfSite x k := by
  have h := coreOfSite_site (s.focusSite x) k
  rwa [focusSite_site, focusSite_coreOfSite, eq_comm] at h

theorem focusSite_wafer (s : State) (x : SiteId) :
    (s.focusSite x).wafer = { s.wafer with sites := (s.focusSite x).wafer.sites } := wafer_of_view (focusSite_view s x)

theorem focus_wafer (s : State) (x : SiteId) (c : CoreId) :
    (s.focus x c).wafer = { s.wafer with sites := (s.focus x c).wafer.sites } := wafer_of_view (focus_view s x c)

/-! ### The wafer outside its sites -/

@[simp] theorem focus_hbm (s : State) (x : SiteId) (c : CoreId) : (s.focus x c).wafer.hbm = s.wafer.hbm :=
  congrArg (fun v => v.wafer.hbm) (focus_view s x c)
@[simp] theorem focus_host (s : State) (x : SiteId) (c : CoreId) : (s.focus x c).wafer.host = s.wafer.host :=
  congrArg (fun v => v.wafer.host) (focus_view s x c)
@[simp] theorem focus_peer (s : State) (x : SiteId) (c : CoreId) : (s.focus x c).wafer.peer = s.wafer.peer :=
  congrArg (fun v => v.wafer.peer) (focus_view s x c)
@[simp] theorem focus_net (s : State) (x : SiteId) (c : CoreId) : (s.focus x c).wafer.net = s.wafer.net :=
  congrArg (fun v => v.wafer.net) (focus_view s x c)
@[simp] theorem focus_nextId (s : State) (x : SiteId) (c : CoreId) : (s.focus x c).wafer.nextId = s.wafer.nextId :=
  congrArg (fun v => v.wafer.nextId) (focus_view s x c)
@[simp] theorem focus_clock (s : State) (x : SiteId) (c : CoreId) : (s.focus x c).wafer.clock = s.wafer.clock :=
  congrArg (fun v => v.wafer.clock) (focus_view s x c)
@[simp] theorem focus_free (s : State) (x : SiteId) (c : CoreId) : (s.focus x c).wafer.free = s.wafer.free :=
  congrArg (fun v => v.wafer.free) (focus_view s x c)
@[simp] theorem focus_jobs (s : State) (x : SiteId) (c : CoreId) : (s.focus x c).wafer.jobs = s.wafer.jobs :=
  congrArg (fun v => v.wafer.jobs) (focus_view s x c)
@[simp] theorem focus_launches (s : State) (x : SiteId) (c : CoreId) : (s.focus x c).wafer.launches = s.wafer.launches :=
  congrArg (fun v => v.wafer.launches) (focus_view s x c)
@[simp] theorem focus_saved (s : State) (x : SiteId) (c : CoreId) : (s.focus x c).wafer.saved = s.wafer.saved :=
  congrArg (fun v => v.wafer.saved) (focus_view s x c)
@[simp] theorem focus_notices (s : State) (x : SiteId) (c : CoreId) : (s.focus x c).wafer.notices = s.wafer.notices :=
  congrArg (fun v => v.wafer.notices) (focus_view s x c)
@[simp] theorem focus_faults (s : State) (x : SiteId) (c : CoreId) : (s.focus x c).wafer.faults = s.wafer.faults :=
  congrArg (fun v => v.wafer.faults) (focus_view s x c)
@[simp] theorem focus_completions (s : State) (x : SiteId) (c : CoreId) : (s.focus x c).wafer.completions = s.wafer.completions :=
  congrArg (fun v => v.wafer.completions) (focus_view s x c)
@[simp] theorem focus_healing (s : State) (x : SiteId) (c : CoreId) : (s.focus x c).wafer.healing = s.wafer.healing :=
  congrArg (fun v => v.wafer.healing) (focus_view s x c)
@[simp] theorem focus_rim (s : State) (x : SiteId) (c : CoreId) : (s.focus x c).wafer.rim = s.wafer.rim :=
  congrArg (fun v => v.wafer.rim) (focus_view s x c)
@[simp] theorem focus_boot (s : State) (x : SiteId) (c : CoreId) : (s.focus x c).wafer.boot = s.wafer.boot :=
  congrArg (fun v => v.wafer.boot) (focus_view s x c)

@[simp] theorem focusSite_hbm (s : State) (x : SiteId) : (s.focusSite x).wafer.hbm = s.wafer.hbm :=
  congrArg (fun v => v.wafer.hbm) (focusSite_view s x)
@[simp] theorem focusSite_host (s : State) (x : SiteId) : (s.focusSite x).wafer.host = s.wafer.host :=
  congrArg (fun v => v.wafer.host) (focusSite_view s x)
@[simp] theorem focusSite_peer (s : State) (x : SiteId) : (s.focusSite x).wafer.peer = s.wafer.peer :=
  congrArg (fun v => v.wafer.peer) (focusSite_view s x)
@[simp] theorem focusSite_net (s : State) (x : SiteId) : (s.focusSite x).wafer.net = s.wafer.net :=
  congrArg (fun v => v.wafer.net) (focusSite_view s x)
@[simp] theorem focusSite_nextId (s : State) (x : SiteId) : (s.focusSite x).wafer.nextId = s.wafer.nextId :=
  congrArg (fun v => v.wafer.nextId) (focusSite_view s x)
@[simp] theorem focusSite_clock (s : State) (x : SiteId) : (s.focusSite x).wafer.clock = s.wafer.clock :=
  congrArg (fun v => v.wafer.clock) (focusSite_view s x)
@[simp] theorem focusSite_free (s : State) (x : SiteId) : (s.focusSite x).wafer.free = s.wafer.free :=
  congrArg (fun v => v.wafer.free) (focusSite_view s x)
@[simp] theorem focusSite_jobs (s : State) (x : SiteId) : (s.focusSite x).wafer.jobs = s.wafer.jobs :=
  congrArg (fun v => v.wafer.jobs) (focusSite_view s x)
@[simp] theorem focusSite_launches (s : State) (x : SiteId) : (s.focusSite x).wafer.launches = s.wafer.launches :=
  congrArg (fun v => v.wafer.launches) (focusSite_view s x)
@[simp] theorem focusSite_saved (s : State) (x : SiteId) : (s.focusSite x).wafer.saved = s.wafer.saved :=
  congrArg (fun v => v.wafer.saved) (focusSite_view s x)
@[simp] theorem focusSite_notices (s : State) (x : SiteId) : (s.focusSite x).wafer.notices = s.wafer.notices :=
  congrArg (fun v => v.wafer.notices) (focusSite_view s x)
@[simp] theorem focusSite_faults (s : State) (x : SiteId) : (s.focusSite x).wafer.faults = s.wafer.faults :=
  congrArg (fun v => v.wafer.faults) (focusSite_view s x)
@[simp] theorem focusSite_completions (s : State) (x : SiteId) : (s.focusSite x).wafer.completions = s.wafer.completions :=
  congrArg (fun v => v.wafer.completions) (focusSite_view s x)
@[simp] theorem focusSite_healing (s : State) (x : SiteId) : (s.focusSite x).wafer.healing = s.wafer.healing :=
  congrArg (fun v => v.wafer.healing) (focusSite_view s x)
@[simp] theorem focusSite_rim (s : State) (x : SiteId) : (s.focusSite x).wafer.rim = s.wafer.rim :=
  congrArg (fun v => v.wafer.rim) (focusSite_view s x)
@[simp] theorem focusSite_boot (s : State) (x : SiteId) : (s.focusSite x).wafer.boot = s.wafer.boot :=
  congrArg (fun v => v.wafer.boot) (focusSite_view s x)

/-! ### The list of sites -/

theorem mem_keys_putSite (l : List (SiteId × SiteRec)) (x y : SiteId) (v : SiteRec) :
    y ∈ (putSite l x v).map (·.1) ↔ y = x ∨ y ∈ l.map (·.1) := by
  induction l with
  | nil => simp [putSite]
  | cons p r ih =>
    obtain ⟨k, w⟩ := p
    by_cases e : k = x
    · simp [putSite, e]
    · by_cases g : x.toNat < k.toNat
      · simp [putSite, e, g]
      · simp only [putSite, e, g, if_false, List.map_cons, List.mem_cons, ih]
        tauto

theorem mem_siteIds_focus (s : State) (x y : SiteId) (c : CoreId) :
    y ∈ (s.focus x c).siteIds ↔ y = x ∨ y ∈ s.siteIds := by
  unfold State.focus
  split_ifs with h
  · simp only [State.siteIds, focusCore_site, focusCore_wafer, List.mem_cons]
    rw [h]; tauto
  · simp only [State.siteIds, List.mem_cons, mem_keys_putSite]
    have d : y ∈ (dropSite s.wafer.sites x).map (·.1) ↔ y ≠ x ∧ y ∈ s.wafer.sites.map (·.1) := by
      simp only [dropSite, List.mem_map, List.mem_filter, bne_iff_ne]
      constructor
      · rintro ⟨p, ⟨hp, hx⟩, rfl⟩; exact ⟨hx, p, hp, rfl⟩
      · rintro ⟨hx, p, hp, rfl⟩; exact ⟨p, ⟨hp, hx⟩, rfl⟩
    rw [d]; tauto

theorem mem_siteIds_focusSite (s : State) (x y : SiteId) : y ∈ (s.focusSite x).siteIds ↔ y = x ∨ y ∈ s.siteIds := by
  unfold State.focusSite
  split_ifs with h
  · subst h; simp [State.siteIds]
  · exact mem_siteIds_focus s x y _

/-- A site that is not listed stands at reset. -/
theorem junctionAt_of_not_mem (s : State) (x : SiteId) (h : x ∉ s.siteIds) : s.junctionAt x = {} := by
  have f : ∀ l : List (SiteId × SiteRec), x ∉ l.map (·.1) → findSite l x = {} := by
    intro l
    induction l with
    | nil => intro _; rfl
    | cons p r ih =>
      intro g
      simp only [List.map_cons, List.mem_cons, not_or] at g
      simp [findSite, Ne.symm g.1, ih g.2]
  simp only [State.siteIds, List.mem_cons, not_or] at h
  simp [State.junctionAt, h.1, f _ h.2]

/-! ### Changes that stay at the site in focus -/

/-- The focus stays at its site, and no other site changes. -/
structure Stays (s u : State) : Prop where
  site : u.site = s.site
  sites : u.wafer.sites = s.wafer.sites

theorem Stays.refl (s : State) : Stays s s := ⟨rfl, rfl⟩

theorem Stays.trans {s t u : State} (h : Stays s t) (k : Stays t u) : Stays s u :=
  ⟨k.site.trans h.site, k.sites.trans h.sites⟩

section
variable {s u : State} (h : Stays s u)
include h

theorem Stays.tileAt (y : SiteId) : u.tileAt y = if y = s.site then u.tile else s.tileAt y := by
  simp only [State.tileAt, h.site, h.sites]
  split_ifs <;> rfl

theorem Stays.junctionAt (y : SiteId) : u.junctionAt y = if y = s.site then u.junction else s.junctionAt y := by
  simp only [State.junctionAt, h.site, h.sites]
  split_ifs <;> rfl

theorem Stays.coreOfSite (y : SiteId) (k : CoreId) :
    u.coreOfSite y k = if y = s.site then u.coreAt k else s.coreOfSite y k := by
  simp only [State.coreOfSite, h.site, h.sites]
  split_ifs <;> rfl

theorem Stays.tileAt_kept (hk : u.tile = s.tile) (y : SiteId) : u.tileAt y = s.tileAt y := by
  rw [h.tileAt]
  split_ifs with e
  · rw [e, tileAt_site, hk]
  · rfl

theorem Stays.junctionAt_kept (hk : u.junction = s.junction) (y : SiteId) : u.junctionAt y = s.junctionAt y := by
  rw [h.junctionAt]
  split_ifs with e
  · rw [e, junctionAt_site, hk]
  · rfl

theorem Stays.coreOfSite_kept (hk : ∀ k, u.coreAt k = s.coreAt k) (y : SiteId) (k : CoreId) :
    u.coreOfSite y k = s.coreOfSite y k := by
  rw [h.coreOfSite]
  split_ifs with e
  · rw [e, coreOfSite_site, hk]
  · rfl

theorem Stays.siteIds : u.siteIds = s.siteIds := by simp [State.siteIds, h.site, h.sites]

end

/-! ### A change at one site -/

theorem atSite_view (s : State) (x : SiteId) (f : State → State) : (s.atSite x f).view = (f (s.focusSite x)).view :=
  focus_view _ _ _

@[simp] theorem atSite_site (s : State) (x : SiteId) (f : State → State) : (s.atSite x f).site = s.site :=
  focus_site _ _ _

@[simp] theorem atSite_coreNo (s : State) (x : SiteId) (f : State → State) : (s.atSite x f).coreNo = s.coreNo :=
  focus_coreNo _ _ _

@[simp] theorem atSite_tileAt (s : State) (x y : SiteId) (f : State → State) :
    (s.atSite x f).tileAt y = (f (s.focusSite x)).tileAt y := tileAt_of_view (atSite_view s x f) y

@[simp] theorem atSite_junctionAt (s : State) (x y : SiteId) (f : State → State) :
    (s.atSite x f).junctionAt y = (f (s.focusSite x)).junctionAt y := junctionAt_of_view (atSite_view s x f) y

@[simp] theorem atSite_coreOfSite (s : State) (x y : SiteId) (k : CoreId) (f : State → State) :
    (s.atSite x f).coreOfSite y k = (f (s.focusSite x)).coreOfSite y k := coreOfSite_of_view (atSite_view s x f) y k

theorem atSite_wafer (s : State) (x : SiteId) (f : State → State) :
    (s.atSite x f).wafer = { (f (s.focusSite x)).wafer with sites := (s.atSite x f).wafer.sites } :=
  wafer_of_view (atSite_view s x f)

@[simp] theorem atSite_hbm (s : State) (x : SiteId) (f : State → State) :
    (s.atSite x f).wafer.hbm = (f (s.focusSite x)).wafer.hbm := congrArg (fun v => v.wafer.hbm) (atSite_view s x f)
@[simp] theorem atSite_host (s : State) (x : SiteId) (f : State → State) :
    (s.atSite x f).wafer.host = (f (s.focusSite x)).wafer.host := congrArg (fun v => v.wafer.host) (atSite_view s x f)
@[simp] theorem atSite_peer (s : State) (x : SiteId) (f : State → State) :
    (s.atSite x f).wafer.peer = (f (s.focusSite x)).wafer.peer := congrArg (fun v => v.wafer.peer) (atSite_view s x f)
@[simp] theorem atSite_net (s : State) (x : SiteId) (f : State → State) :
    (s.atSite x f).wafer.net = (f (s.focusSite x)).wafer.net := congrArg (fun v => v.wafer.net) (atSite_view s x f)
@[simp] theorem atSite_nextId (s : State) (x : SiteId) (f : State → State) :
    (s.atSite x f).wafer.nextId = (f (s.focusSite x)).wafer.nextId := congrArg (fun v => v.wafer.nextId) (atSite_view s x f)
@[simp] theorem atSite_clock (s : State) (x : SiteId) (f : State → State) :
    (s.atSite x f).wafer.clock = (f (s.focusSite x)).wafer.clock := congrArg (fun v => v.wafer.clock) (atSite_view s x f)
@[simp] theorem atSite_free (s : State) (x : SiteId) (f : State → State) :
    (s.atSite x f).wafer.free = (f (s.focusSite x)).wafer.free := congrArg (fun v => v.wafer.free) (atSite_view s x f)
@[simp] theorem atSite_jobs (s : State) (x : SiteId) (f : State → State) :
    (s.atSite x f).wafer.jobs = (f (s.focusSite x)).wafer.jobs := congrArg (fun v => v.wafer.jobs) (atSite_view s x f)
@[simp] theorem atSite_launches (s : State) (x : SiteId) (f : State → State) :
    (s.atSite x f).wafer.launches = (f (s.focusSite x)).wafer.launches := congrArg (fun v => v.wafer.launches) (atSite_view s x f)
@[simp] theorem atSite_saved (s : State) (x : SiteId) (f : State → State) :
    (s.atSite x f).wafer.saved = (f (s.focusSite x)).wafer.saved := congrArg (fun v => v.wafer.saved) (atSite_view s x f)
@[simp] theorem atSite_notices (s : State) (x : SiteId) (f : State → State) :
    (s.atSite x f).wafer.notices = (f (s.focusSite x)).wafer.notices := congrArg (fun v => v.wafer.notices) (atSite_view s x f)
@[simp] theorem atSite_faults (s : State) (x : SiteId) (f : State → State) :
    (s.atSite x f).wafer.faults = (f (s.focusSite x)).wafer.faults := congrArg (fun v => v.wafer.faults) (atSite_view s x f)
@[simp] theorem atSite_completions (s : State) (x : SiteId) (f : State → State) :
    (s.atSite x f).wafer.completions = (f (s.focusSite x)).wafer.completions := congrArg (fun v => v.wafer.completions) (atSite_view s x f)
@[simp] theorem atSite_healing (s : State) (x : SiteId) (f : State → State) :
    (s.atSite x f).wafer.healing = (f (s.focusSite x)).wafer.healing := congrArg (fun v => v.wafer.healing) (atSite_view s x f)
@[simp] theorem atSite_rim (s : State) (x : SiteId) (f : State → State) :
    (s.atSite x f).wafer.rim = (f (s.focusSite x)).wafer.rim := congrArg (fun v => v.wafer.rim) (atSite_view s x f)
@[simp] theorem atSite_boot (s : State) (x : SiteId) (f : State → State) :
    (s.atSite x f).wafer.boot = (f (s.focusSite x)).wafer.boot := congrArg (fun v => v.wafer.boot) (atSite_view s x f)

/-! ### Changes at several sites -/

@[simp] theorem atSites_nil (s : State) (f : State → State) : s.atSites f [] = s := rfl

theorem atSites_cons (s : State) (f : State → State) (x : SiteId) (l : List SiteId) :
    s.atSites f (x :: l) = (s.atSite x f).atSites f l := rfl

@[simp] theorem atSites_site (s : State) (f : State → State) (l : List SiteId) : (s.atSites f l).site = s.site := by
  induction l generalizing s with
  | nil => rfl
  | cons x r ih => rw [atSites_cons, ih, atSite_site]

@[simp] theorem atSites_coreNo (s : State) (f : State → State) (l : List SiteId) :
    (s.atSites f l).coreNo = s.coreNo := by
  induction l generalizing s with
  | nil => rfl
  | cons x r ih => rw [atSites_cons, ih, atSite_coreNo]

/-- A property that does not depend on the focus, and that a change keeps wherever it is made, is kept at several sites. -/
theorem atSites_keeps {P : View → Prop} {f : State → State} {l : List SiteId} (s : State)
    (hf : ∀ u : State, P u.view → P (f u).view) (h : P s.view) : P (s.atSites f l).view := by
  induction l generalizing s with
  | nil => exact h
  | cons x r ih =>
    refine ih _ ?_
    rw [atSite_view]
    exact hf _ (by rwa [focusSite_view])

/-- What each site of a list is changed to, when a change acts there and nowhere else, and twice is once. -/
theorem atSites_acts {α : Type} {look : State → SiteId → α} {f : State → State} {g : α → α} (idem : ∀ a, g (g a) = g a)
    (acts : ∀ s x y, look (s.atSite x f) y = if y = x then g (look s y) else look s y) (l : List SiteId) (s : State)
    (y : SiteId) : look (s.atSites f l) y = if y ∈ l then g (look s y) else look s y := by
  induction l generalizing s with
  | nil => simp
  | cons x r ih =>
    rw [atSites_cons, ih, acts]
    by_cases e : y = x <;> by_cases m : y ∈ r <;> simp [e, m, idem]

section
variable {f : State → State} (stays : ∀ u, Stays u (f u)) (s : State) (x y : SiteId)
include stays

theorem atSite_junctionAt_acts {g : Site → Site} (acts : ∀ u, (f u).junction = g u.junction) :
    (s.atSite x f).junctionAt y = if y = x then g (s.junctionAt y) else s.junctionAt y := by
  rw [atSite_junctionAt, (stays _).junctionAt, acts, focusSite_site, focusSite_junctionAt, focusSite_junction]
  split_ifs with e
  · rw [e]
  · rfl

theorem atSite_tileAt_acts {g : Tile → Tile} (acts : ∀ u, (f u).tile = g u.tile) :
    (s.atSite x f).tileAt y = if y = x then g (s.tileAt y) else s.tileAt y := by
  rw [atSite_tileAt, (stays _).tileAt, acts, focusSite_site, focusSite_tileAt, focusSite_tile]
  split_ifs with e
  · rw [e]
  · rfl

theorem atSite_coreOfSite_acts {g : Core → Core} {k : CoreId} (acts : ∀ u : State, (f u).coreAt k = g (u.coreAt k)) :
    (s.atSite x f).coreOfSite y k = if y = x then g (s.coreOfSite y k) else s.coreOfSite y k := by
  rw [atSite_coreOfSite, (stays _).coreOfSite, acts, focusSite_site, focusSite_coreOfSite, focusSite_coreAt]
  split_ifs with e
  · rw [e]
  · rfl

end

section
variable {f : State → State} (l : List SiteId) (s : State) (y : SiteId)

theorem atSites_junctionAt_acts {g : Site → Site} (idem : ∀ a, g (g a) = g a)
    (acts : ∀ u, Stays u (f u) ∧ (f u).junction = g u.junction) :
    (s.atSites f l).junctionAt y = if y ∈ l then g (s.junctionAt y) else s.junctionAt y :=
  atSites_acts (look := State.junctionAt) idem
    (fun s x y => atSite_junctionAt_acts (fun u => (acts u).1) s x y (fun u => (acts u).2)) l s y

theorem atSites_tileAt_acts {g : Tile → Tile} (idem : ∀ a, g (g a) = g a)
    (acts : ∀ u, Stays u (f u) ∧ (f u).tile = g u.tile) :
    (s.atSites f l).tileAt y = if y ∈ l then g (s.tileAt y) else s.tileAt y :=
  atSites_acts (look := State.tileAt) idem
    (fun s x y => atSite_tileAt_acts (fun u => (acts u).1) s x y (fun u => (acts u).2)) l s y

theorem atSites_coreOfSite_acts {g : Core → Core} {k : CoreId} (idem : ∀ a, g (g a) = g a)
    (acts : ∀ u : State, Stays u (f u) ∧ (f u).coreAt k = g (u.coreAt k)) :
    (s.atSites f l).coreOfSite y k = if y ∈ l then g (s.coreOfSite y k) else s.coreOfSite y k :=
  atSites_acts (look := fun s y => s.coreOfSite y k) idem
    (fun s x y => atSite_coreOfSite_acts (fun u => (acts u).1) s x y (fun u => (acts u).2)) l s y

end

end Sys2Proof.Machine
end

