-- ==== Sys2Proof/Proofs/Traffic.lean ====
section
/-!
SUPPORT. The tables of a junction after a write, and the packets that a state has sent.
-/
namespace Sys2Proof.Machine

set_option Elab.async false

/-! ### Points tables and site state maps (R16, R459) -/

theorem findPoint_insertPoint (l : Nat) (x : SiteId) (r : List (Nat × SiteId)) (k : Nat) (h : ∀ e ∈ r, e.1 ≠ l) :
    findPoint (insertPoint l x r) k = if k = l then some x else findPoint r k := by
  induction r with
  | nil => simp [insertPoint, findPoint, eq_comm]
  | cons p r ih =>
    obtain ⟨m, y⟩ := p
    have hm : m ≠ l := h (m, y) List.mem_cons_self
    have hr := ih (fun e he => h e (List.mem_cons_of_mem _ he))
    simp only [insertPoint]
    split_ifs with g e e
    · simp [findPoint, e]
    · simp [findPoint, Ne.symm e]
    · subst e; simpa [findPoint, Ne.symm hm, hm] using hr
    · simp [findPoint, hr, e]

/-- A points table after a write of one entry. -/
theorem findPoint_setPoint (l : Nat) (x : SiteId) (t : List (Nat × SiteId)) (k : Nat) :
    findPoint (setPoint l (some x) t) k = if k = l then some x else findPoint t k := by
  have h : ∀ e ∈ t.filter (fun p => p.1 != l), e.1 ≠ l := fun e he => by simpa using (List.mem_filter.mp he).2
  simp only [setPoint, findPoint_insertPoint l x _ k h, findPoint_filter]
  split_ifs <;> rfl

theorem mapState_filter (m : List (Nat × BitVec 2)) (x y : Nat) :
    mapState (m.filter (fun p => p.1 != x)) y = if y = x then 0 else mapState m y := by
  induction m with
  | nil => exact (ite_self _).symm
  | cons p r ih =>
    obtain ⟨k, v⟩ := p
    rw [List.filter_cons]
    by_cases h : k = x
    · subst h
      simp only [bne_self_eq_false, Bool.false_eq_true, if_false, ih, mapState]
      split_ifs <;> simp_all
    · simp only [bne_iff_ne, ne_eq, h, not_false_eq_true, if_true, mapState, ih]
      split_ifs <;> simp_all

theorem mapState_insertState (x : Nat) (v : BitVec 2) (r : List (Nat × BitVec 2)) (y : Nat) (h : ∀ e ∈ r, e.1 ≠ x) :
    mapState (insertState x v r) y = if y = x then v else mapState r y := by
  induction r with
  | nil => simp [insertState, mapState, eq_comm]
  | cons p r ih =>
    obtain ⟨k, w⟩ := p
    have hk : k ≠ x := h (k, w) List.mem_cons_self
    have hr := ih (fun e he => h e (List.mem_cons_of_mem _ he))
    simp only [insertState]
    split_ifs with g e e
    · simp [mapState, e]
    · simp [mapState, Ne.symm e]
    · subst e; simpa [mapState, hk, Ne.symm hk] using hr
    · simp [mapState, hr, e]

/-- A site state map after a write of one state. -/
theorem mapState_setMap (x : Nat) (v : BitVec 2) (m : List (Nat × BitVec 2)) (y : Nat) :
    mapState (setMap x v m) y = if y = x then v else mapState m y := by
  have h : ∀ e ∈ m.filter (fun p => p.1 != x), e.1 ≠ x := fun e he => by simpa using (List.mem_filter.mp he).2
  simp only [setMap]
  split_ifs with hv e e
  · rw [mapState_filter, if_pos e, hv]
  · rw [mapState_filter, if_neg e]
  · rw [mapState_insertState _ _ _ _ h, if_pos e]
  · rw [mapState_insertState _ _ _ _ h, if_neg e, mapState_filter, if_neg e]

/-! ### Packets sent -/

/-- Packets have been sent, under new numbers, and nothing else has changed. -/
structure OnlySends (s u : State) : Prop where
  only : u = { s with wafer := { s.wafer with net := u.wafer.net, nextId := u.wafer.nextId } }
  ids : s.wafer.nextId ≤ u.wafer.nextId
  adds : ∃ l : List Packet, u.wafer.net = s.wafer.net ++ l ∧ ∀ q ∈ l, s.wafer.nextId ≤ q.id

theorem OnlySends.refl (s : State) : OnlySends s s := ⟨rfl, le_refl _, [], by simp, by simp⟩

theorem OnlySends.trans {s t u : State} (h : OnlySends s t) (k : OnlySends t u) : OnlySends s u := by
  obtain ⟨l, hl, hlid⟩ := h.adds
  obtain ⟨m, hm, hmid⟩ := k.adds
  refine ⟨by rw [k.only, h.only], h.ids.trans k.ids, l ++ m, by rw [hm, hl, List.append_assoc], fun q hq => ?_⟩
  rcases List.mem_append.mp hq with g | g
  · exact hlid q g
  · exact h.ids.trans (hmid q g)

theorem OnlySends.foldl {α : Type} {f : State → α → State} (hf : ∀ s a, OnlySends s (f s a)) (l : List α) (s : State) :
    OnlySends s (l.foldl f s) := by
  induction l generalizing s with
  | nil => exact .refl s
  | cons a r ih => exact (hf s a).trans (ih _)

theorem launchPacket_onlySends (s : State) (l : Line) (d : Dest) (x : Option Nat) (m : Msg) :
    OnlySends s (s.launchPacket l d x m) :=
  ⟨rfl, Nat.le_succ _, [_], rfl, fun q hq => by rw [List.mem_singleton.mp hq]⟩

section
variable {s u : State} (h : OnlySends s u)
include h

theorem OnlySends.core : u.core = s.core := by rw [h.only]
theorem OnlySends.coreNo : u.coreNo = s.coreNo := by rw [h.only]
theorem OnlySends.others : u.others = s.others := by rw [h.only]
theorem OnlySends.tile : u.tile = s.tile := by rw [h.only]
theorem OnlySends.junction : u.junction = s.junction := by rw [h.only]
theorem OnlySends.site : u.site = s.site := by rw [h.only]
theorem OnlySends.wafer : u.wafer = { s.wafer with net := u.wafer.net, nextId := u.wafer.nextId } := by
  conv_lhs => rw [h.only]
theorem OnlySends.sites : u.wafer.sites = s.wafer.sites := by rw [h.wafer]
theorem OnlySends.stays : Stays s u := ⟨h.site, h.sites⟩

/-- What has been sent stays in flight while more is sent. -/
theorem OnlySends.sent {x : SiteId} {l : Line} {d : Dest} {m : Msg} {t : State} (hs : Sent x l d m t s) :
    Sent x l d m t u := by
  obtain ⟨q, hq, r⟩ := hs
  obtain ⟨k, hk, -⟩ := h.adds
  exact ⟨q, by rw [hk]; exact List.mem_append_left _ hq, r⟩

/-- A packet that has gone does not come back. -/
theorem OnlySends.gone {id : Nat} {t : State} (hg : Gone id t s) (hid : t.wafer.nextId ≤ s.wafer.nextId) :
    Gone id t u := by
  intro lt q hq
  obtain ⟨k, hk, hkid⟩ := h.adds
  rw [hk] at hq
  rcases List.mem_append.mp hq with g | g
  · exact hg lt q g
  · have := hkid q g
    omega

end

/-- A packet that joins the network has been sent. -/
theorem launchPacket_sent (s t : State) (l : Line) (d : Dest) (x : Option Nat) (m : Msg)
    (h : t.wafer.nextId ≤ s.wafer.nextId) : Sent s.site l d m t (s.launchPacket l d x m) := by
  obtain ⟨p, hl, hd, hm, ho, -, hid, hw⟩ := launchPacket_adds s l d x m
  exact ⟨p, by rw [hw]; simp, by omega, ho, hl, hd, hm⟩

/-- A packet taken out of the network has gone. -/
theorem dropPacket_gone (s t : State) (id : Nat) : Gone id t (s.dropPacket id) := by
  intro _ q hq
  simpa using (List.mem_filter.mp hq).2

/-- A fold that sends a packet for each of a list has sent each. -/
theorem foldl_sent {α : Type} {f : State → α → State} (hf : ∀ s a, OnlySends s (f s a)) {x : SiteId} {ln : Line}
    {d : Dest} {m : Msg} {t : State} {a : α} {l : List α} (ha : a ∈ l)
    (hsent : ∀ u : State, t.wafer.nextId ≤ u.wafer.nextId → u.site = t.site → Sent x ln d m t (f u a)) (s : State)
    (hid : t.wafer.nextId ≤ s.wafer.nextId) (hsite : s.site = t.site) : Sent x ln d m t (l.foldl f s) := by
  induction l generalizing s with
  | nil => cases ha
  | cons b r ih =>
    rcases List.mem_cons.mp ha with rfl | h
    · exact (OnlySends.foldl hf r _).sent (hsent s hid hsite)
    · exact ih h _ (hid.trans (hf s b).ids) ((hf s b).site.trans hsite)

/-! ### The tile in focus is replaced -/

/-- The cores of a tile that is loaded are those it is loaded with. -/
theorem loadTile_coreAt (s : State) (t : Tile) (cs : List (CoreId × Core)) (k : CoreId) :
    (s.loadTile t cs).coreAt k = findCore cs k := by
  by_cases h : k = s.coreNo
  · simp [State.loadTile, State.coreAt, h]
  · simp [State.loadTile, State.coreAt, h, findCore_dropCore]

end Sys2Proof.Machine
end

