-- ==== Sys2Proof/Proofs/Launches.lean ====
section
/-!
SUPPORT. What placing a launch leaves as it is: the boot, the junctions but for their tree entries, the commands that are
complete and the launches that live (R329, R344 to R348).
-/
namespace Sys2Proof.Machine

set_option Elab.async false

/-! ### What is done at one site -/

/-- What binding a team to the tile in focus may change: the tile and its cores, HBM, waybills and saved teams. -/
structure OnlyBinds (s u : State) : Prop where
  site : u.site = s.site
  junction : u.junction = s.junction
  wafer : u.wafer = { s.wafer with
    hbm := u.wafer.hbm, free := u.wafer.free, saved := u.wafer.saved,
    healing := { s.wafer.healing with waybills := u.wafer.healing.waybills } }

theorem OnlyBinds.refl (s : State) : OnlyBinds s s := ⟨rfl, rfl, rfl⟩

theorem OnlyBinds.trans {s t u : State} (h : OnlyBinds s t) (k : OnlyBinds t u) : OnlyBinds s u :=
  ⟨k.site.trans h.site, k.junction.trans h.junction, by rw [k.wafer, h.wafer]⟩

theorem OnlyBinds.stays {s u : State} (h : OnlyBinds s u) : Stays s u := ⟨h.site, by rw [h.wafer]⟩

theorem OnlyBinds.foldl {α : Type} {f : State → α → State} (hf : ∀ s a, OnlyBinds s (f s a)) (l : List α) (s : State) :
    OnlyBinds s (l.foldl f s) := by
  induction l generalizing s with
  | nil => exact .refl s
  | cons a r ih => exact (hf s a).trans (ih _)

theorem giveTile_onlyBinds (r : BindRecord) (s : State) : OnlyBinds s (giveTile r s) := by
  unfold giveTile
  split <;> exact ⟨rfl, rfl, rfl⟩

theorem claimTile_onlyBinds (r : BindRecord) (g : CoreId → W32) (s : State) : OnlyBinds s (claimTile r g s) := by
  unfold claimTile
  split
  · exact giveTile_onlyBinds r s
  · exact (giveTile_onlyBinds r s).trans ⟨rfl, rfl, rfl⟩

theorem updCore_onlyBinds (c : CoreId) (f : Core → Core) (s : State) : OnlyBinds s (s.updCore c f) :=
  ⟨by simp, by simp, by simp⟩

theorem focusCore_onlyBinds (c : CoreId) (s : State) : OnlyBinds s (s.focusCore c) := ⟨by simp, by simp, by simp⟩

theorem bindCore_onlyBinds (c : CoreId) (r : BindRecord) (s : State) : OnlyBinds s (bindCore c r s) := by
  unfold bindCore
  refine OnlyBinds.trans ?_ (updCore_onlyBinds _ _ _)
  exact (claimTile_onlyBinds r _ s).trans ⟨rfl, rfl, rfl⟩

theorem requestBoundary_onlyBinds (s : State) : OnlyBinds s s.requestBoundary := by
  unfold State.requestBoundary
  dsimp only
  split <;> exact ⟨rfl, rfl, rfl⟩

/-- Writing images to HBM changes HBM alone. -/
theorem writeArea_only (w : Wafer) (a : Nat) (i : Image) :
    w.writeArea a i = { w with hbm := (w.writeArea a i).hbm, free := (w.writeArea a i).free } := rfl

theorem writeRecord_only (w : Wafer) (b : Waybill) (i : Image) :
    w.writeRecord b i = { w with hbm := (w.writeRecord b i).hbm, free := (w.writeRecord b i).free } := by
  unfold Wafer.writeRecord
  cases b.holder <;> rfl

theorem writeSlot_only (w : Wafer) (b : Waybill) (e : BitVec 16) (i : Image) :
    w.writeSlot b e i = { w with hbm := (w.writeSlot b e i).hbm, free := (w.writeSlot b e i).free } := rfl

theorem bindImage_onlyBinds (e : BitVec 16) (s : State) : OnlyBinds s (bindImage e s) := by
  unfold bindImage
  dsimp only
  split
  · refine ⟨rfl, rfl, ?_⟩
    rw [writeSlot_only, writeRecord_only]
    rfl
  · exact ⟨rfl, rfl, rfl⟩

theorem queueTeam_onlyBinds (rs : List (CoreId × BindRecord)) (s : State) : OnlyBinds s (queueTeam rs s) := by
  have one (n : Nat) (s : State) (r : CoreId × BindRecord) : OnlyBinds s
      (let t := s.focusCore r.1
       let saved := ({ t with core := startedCore r.2 n }).saveCore r.2.save.toNat []
       ({ saved with core := t.core }).focusCore s.coreNo) := by
    refine OnlyBinds.trans ?_ (focusCore_onlyBinds _ _)
    exact (focusCore_onlyBinds r.1 s).trans ⟨rfl, rfl, rfl⟩
  unfold queueTeam
  split
  · exact .refl s
  · exact (OnlyBinds.foldl (one s.wafer.free) _ s).trans ⟨rfl, rfl, rfl⟩

theorem bindTeam_onlyBinds (c : LaunchCmd) (d : LaunchDesc) (j : Job) (l : Launch) (a : LaunchHbm) (new : Bool)
    (s : State) : OnlyBinds s (bindTeam c d j l a new s) := by
  have bound (rs : List (CoreId × BindRecord)) : OnlyBinds s
      (if rs.all (fun r => (s.coreAt r.1).slot.isNone) then rs.foldl (fun s r => bindCore r.1 r.2 s) s
       else queueTeam rs s) := by
    split
    · exact OnlyBinds.foldl (f := fun s (r : CoreId × BindRecord) => bindCore r.1 r.2 s)
        (fun s r => bindCore_onlyBinds r.1 r.2 s) rs s
    · exact queueTeam_onlyBinds _ s
  unfold bindTeam
  extract_lets rs t
  have hbound : OnlyBinds s t := bound rs
  split
  · exact hbound.trans (bindImage_onlyBinds _ _)
  · split
    · exact hbound.trans (requestBoundary_onlyBinds _)
    · exact hbound

/-! ### What is done over the wafer -/

/-- The focus stays at its site, the boot goes on, and no junction changes but in its tree entries. -/
structure BootKept (s u : State) : Prop where
  site : u.site = s.site
  boot : u.wafer.boot = s.wafer.boot
  junctions : ∀ y, u.junctionAt y = { s.junctionAt y with trees := (u.junctionAt y).trees }

theorem BootKept.refl (s : State) : BootKept s s := ⟨rfl, rfl, fun _ => rfl⟩

theorem BootKept.trans {s t u : State} (h : BootKept s t) (k : BootKept t u) : BootKept s u :=
  ⟨k.site.trans h.site, k.boot.trans h.boot, fun y => by rw [k.junctions, h.junctions]⟩

/-- The same, and the launches and completed commands are what they were. -/
structure Places (s u : State) : Prop extends BootKept s u where
  launches : u.wafer.launches = s.wafer.launches
  completions : u.wafer.completions = s.wafer.completions

theorem Places.refl (s : State) : Places s s := ⟨.refl s, rfl, rfl⟩

theorem Places.trans {s t u : State} (h : Places s t) (k : Places t u) : Places s u :=
  ⟨h.toBootKept.trans k.toBootKept, k.launches.trans h.launches, k.completions.trans h.completions⟩

theorem OnlyBinds.places {s u : State} (h : OnlyBinds s u) : Places s u where
  site := h.site
  boot := by rw [h.wafer]
  junctions y := by rw [h.stays.junctionAt_kept h.junction]
  launches := by rw [h.wafer]
  completions := by rw [h.wafer]

/-- A change of the wafer outside its sites that keeps boot, launches and completions. -/
theorem Places.of_wafer (s : State) (w : Wafer) (hs : w.sites = s.wafer.sites) (hb : w.boot = s.wafer.boot)
    (hl : w.launches = s.wafer.launches) (hc : w.completions = s.wafer.completions) : Places s { s with wafer := w } where
  site := rfl
  boot := hb
  junctions y := by simp [State.junctionAt, hs]
  launches := hl
  completions := hc

theorem Places.atSite {s : State} {x : SiteId} {f : State → State} (h : Places (s.focusSite x) (f (s.focusSite x))) :
    Places s (s.atSite x f) where
  site := atSite_site s x f
  boot := by simpa using h.boot
  junctions y := by simpa using h.junctions y
  launches := by simpa using h.launches
  completions := by simpa using h.completions

theorem Places.foldl {α : Type} {f : State → α → State} (hf : ∀ s a, Places s (f s a)) (l : List α) (s : State) :
    Places s (l.foldl f s) := by
  induction l generalizing s with
  | nil => exact .refl s
  | cons a r ih => exact (hf s a).trans (ih _)

theorem Places.atSites {f : State → State} (hf : ∀ s, Places s (f s)) (l : List SiteId) (s : State) :
    Places s (s.atSites f l) := by
  induction l generalizing s with
  | nil => exact .refl s
  | cons x r ih => exact (Places.atSite (hf _)).trans (ih _)

theorem dissolveJob_places (s : State) (k : Job) : Places s (dissolveJob s k) := by
  unfold dissolveJob
  refine (Places.atSites (fun s => OnlyBinds.places ?_) _ s).trans (.of_wafer _ _ rfl rfl rfl rfl)
  exact ⟨rfl, rfl, rfl⟩

theorem giveJobTile_places (j : Job) (a : LaunchHbm) (s : State) (p : Nat × SiteId) : Places s (giveJobTile j a s p) := by
  unfold giveJobTile
  refine Places.atSite (OnlyBinds.places (OnlyBinds.trans ?_ (bindImage_onlyBinds _ _)))
  exact ⟨rfl, rfl, rfl⟩

theorem bindJob_places (j : Job) (a : LaunchHbm) (ps : List (Nat × SiteId)) (s : State) :
    Places s (bindJob j a ps s) := by
  unfold bindJob
  extract_lets now w s₁ s₂ t r h
  have hstart : Places s s₁ := .of_wafer s _ rfl rfl rfl rfl
  have hgiven : Places s₁ s₂ := .foldl (giveJobTile_places j a) ps s₁
  exact (hstart.trans hgiven).trans (.of_wafer _ _ rfl rfl rfl rfl)

/-! ### Combining trees -/

/-- Nothing but tree entries of junctions has changed. -/
structure OnlyTrees (s u : State) : Prop where
  site : u.site = s.site
  tiles : ∀ y, u.tileAt y = s.tileAt y
  cores : ∀ y k, u.coreOfSite y k = s.coreOfSite y k
  junctions : ∀ y, u.junctionAt y = { s.junctionAt y with trees := (u.junctionAt y).trees }
  wafer : u.view.wafer = s.view.wafer

theorem OnlyTrees.refl (s : State) : OnlyTrees s s := ⟨rfl, fun _ => rfl, fun _ _ => rfl, fun _ => rfl, rfl⟩

theorem OnlyTrees.trans {s t u : State} (h : OnlyTrees s t) (k : OnlyTrees t u) : OnlyTrees s u :=
  ⟨k.site.trans h.site, fun y => (k.tiles y).trans (h.tiles y), fun y c => (k.cores y c).trans (h.cores y c),
    fun y => by rw [k.junctions, h.junctions], k.wafer.trans h.wafer⟩

theorem OnlyTrees.places {s u : State} (h : OnlyTrees s u) : Places s u :=
  ⟨⟨h.site, (congrArg Wafer.boot h.wafer :), h.junctions⟩, (congrArg Wafer.launches h.wafer :),
    (congrArg Wafer.completions h.wafer :)⟩

theorem OnlyTrees.atSite (s : State) (x : SiteId) (g : State → Vector (Option DomainKey) 16) :
    OnlyTrees s (s.atSite x (fun s => { s with junction := { s.junction with trees := g s } })) := by
  have stays (u : State) : Stays u { u with junction := { u.junction with trees := g u } } := ⟨rfl, rfl⟩
  refine ⟨atSite_site .., fun y => ?_, fun y k => ?_, fun y => ?_, ?_⟩
  · rw [atSite_tileAt, (stays _).tileAt_kept rfl, focusSite_tileAt]
  · rw [atSite_coreOfSite, (stays _).coreOfSite_kept (fun _ => rfl), focusSite_coreOfSite]
  · rw [atSite_junctionAt, (stays _).junctionAt]
    split_ifs with e
    · simp [e]
    · simp
  · exact (congrArg View.wafer (atSite_view s x _)).trans (congrArg View.wafer (focusSite_view s x) :)

theorem addEntry_onlyTrees {k : DomainKey} {x : SiteId} {s u : State} (h : addEntry k x s = some u) : OnlyTrees s u := by
  simp only [addEntry, Option.map_eq_some_iff] at h
  obtain ⟨i, -, rfl⟩ := h
  exact OnlyTrees.atSite s x _

theorem foldl_bind_none {α : Type} {g : α → State → Option State} (l : List α) :
    l.foldl (fun o a => o.bind (g a)) none = none := by
  induction l with
  | nil => rfl
  | cons a r ih => exact ih

theorem OnlyTrees.foldl_bind {α : Type} {g : α → State → Option State} {l : List α} {s u : State}
    (hg : ∀ a s u, g a s = some u → OnlyTrees s u)
    (h : l.foldl (fun o a => o.bind (g a)) (some s) = some u) : OnlyTrees s u := by
  induction l generalizing s with
  | nil => cases h; exact .refl _
  | cons a r ih =>
    rw [List.foldl_cons, Option.bind_some] at h
    cases e : g a s with
    | none => rw [e, foldl_bind_none] at h; cases h
    | some t => rw [e] at h; exact (hg a s t e).trans (ih h)

theorem addTree_onlyTrees {k : DomainKey} {ms : List SiteId} {s u : State} (h : addTree k ms s = some u) :
    OnlyTrees s u := by
  unfold addTree at h
  split at h
  · cases h; exact .refl s
  · exact OnlyTrees.foldl_bind (fun _ _ _ => addEntry_onlyTrees) h

theorem buildTrees_onlyTrees {l : Launch} {ps : List (Nat × SiteId)} {s u : State} (h : buildTrees l ps s = some u) :
    OnlyTrees s u := OnlyTrees.foldl_bind (fun _ _ _ => addTree_onlyTrees) h

/-! ### Launches -/

/-- A launch joins those that live, and its number is its job's last (R347). -/
def State.withLaunch (s : State) (j : Job) (l : Launch) : State :=
  let w := { s.wafer with launches := s.wafer.launches ++ [l] }
  { s with wafer := w.setJob j.job (fun j => { j with lastLaunch := l.num }) }

/-- A placed launch (R344): the tiles of its job, with no other job in the way and the job bound if it was not; the launch,
its trees, and its teams on its tiles. -/
theorem placeLaunch_steps {c : LaunchCmd} {d : LaunchDesc} {j : Job} {a : LaunchHbm} {s v : State}
    (h : placeLaunch c d j a s = some v) :
    let s₀ := (s.inTheWay j).foldl dissolveJob s
    ∃ ps : List (Nat × SiteId), s₀.sitesOf j = some ps ∧
      let new := (s₀.wafer.job j.job).isNone
      let s₁ := if new then bindJob j a ps s₀ else s₀
      ∃ (l : Launch) (s₃ : State), l.job = j.job ∧ l.num = s₁.wafer.nextLaunch j ∧ l.mailbox = c.mailbox ∧
        l.cores = d.cores ∧ l.w = d.w ∧ l.h = d.h ∧ l.live = d.tiles ({ jshape := j.jshape : Tile }).width ∧
        l.split = c.elastic.map (fun _ => max 1 (min c.split (d.w * d.h))) ∧
        OnlyTrees (s₁.withLaunch j l) s₃ ∧
        v = (ps.filter (fun p => l.live.contains p.1)).foldl (fun s p => s.atSite p.2 (bindTeam c d j l a new)) s₃ := by
  unfold placeLaunch at h
  dsimp only at h
  split at h
  · cases h
  · rename_i ps hps
    obtain ⟨s₃, hs₃, rfl⟩ := Option.map_eq_some_iff.mp h
    exact ⟨ps, hps, _, s₃, rfl, rfl, rfl, rfl, rfl, rfl, rfl, rfl, buildTrees_onlyTrees hs₃, rfl⟩

theorem bindTeams_places (c : LaunchCmd) (d : LaunchDesc) (j : Job) (l : Launch) (a : LaunchHbm) (new : Bool)
    (ps : List (Nat × SiteId)) (s : State) :
    Places s (ps.foldl (fun s p => s.atSite p.2 (bindTeam c d j l a new)) s) :=
  Places.foldl (fun _ _ => Places.atSite (bindTeam_onlyBinds ..).places) ps s

/-- A placed launch is one launch more; commands, boot and junctions stay. -/
theorem placeLaunch_keeps {c : LaunchCmd} {d : LaunchDesc} {j : Job} {a : LaunchHbm} {s v : State}
    (h : placeLaunch c d j a s = some v) : BootKept s v ∧ v.wafer.completions = s.wafer.completions ∧
      ∃ l : Launch, v.wafer.launches = s.wafer.launches ++ [l] ∧ l.job = j.job ∧ (∃ w : Wafer, l.num = w.nextLaunch j) ∧
        l.mailbox = c.mailbox ∧ l.cores = d.cores ∧ l.w = d.w ∧ l.h = d.h ∧
        l.split = c.elastic.map (fun _ => max 1 (min c.split (d.w * d.h))) := by
  obtain ⟨ps, -, l, s₃, hj, hn, hm, hc, hw, hh, -, hs, htrees, rfl⟩ := placeLaunch_steps h
  have hdissolved : Places s ((s.inTheWay j).foldl dissolveJob s) := .foldl dissolveJob_places _ s
  generalize (s.inTheWay j).foldl dissolveJob s = s₀ at *
  have hbound : Places s (if (s₀.wafer.job j.job).isNone then bindJob j a ps s₀ else s₀) := by
    split
    · exact hdissolved.trans (bindJob_places j a ps s₀)
    · exact hdissolved
  generalize (if (s₀.wafer.job j.job).isNone then bindJob j a ps s₀ else s₀) = s₁ at *
  have hlaunched : BootKept s₁ (s₁.withLaunch j l) := ⟨rfl, rfl, fun _ => rfl⟩
  have hteams : Places (s₁.withLaunch j l) _ := htrees.places.trans
    (bindTeams_places c d j l a (s₀.wafer.job j.job).isNone (ps.filter (fun p => l.live.contains p.1)) s₃)
  refine ⟨(hbound.toBootKept.trans hlaunched).trans hteams.toBootKept,
    hteams.completions.trans hbound.completions, l, ?_, hj, ⟨_, hn⟩, hm, hc, hw, hh, hs⟩
  exact hteams.launches.trans (congrArg (· ++ [l]) hbound.launches)

theorem launchNow_bootKept (c : LaunchCmd) (s : State) : BootKept s (launchNow c s) := by
  have complete (u : State) (tag : W32) (k : Nat) (vs : List Nat) (bs : List Byte) :
      BootKept u (u.complete tag k vs bs) := ⟨rfl, rfl, fun _ => rfl⟩
  unfold launchNow
  dsimp only
  split
  · exact complete ..
  · split
    · exact complete ..
    · split
      · exact complete ..
      · split
        · exact complete ..
        · split
          · exact complete ..
          · split
            · rename_i v hv
              exact (placeLaunch_keeps hv).1.trans (complete ..)
            · exact complete ..

/-- Taking up the launches that waited leaves none waiting, and the boot and the junctions otherwise as they were. -/
theorem launchWaiting_bootKept (s : State) :
    BootKept { s with wafer := { s.wafer with boot := { s.wafer.boot with waiting := [] } } } (launchWaiting s) := by
  unfold launchWaiting
  generalize s.wafer.boot.waiting = l
  generalize ({ s with wafer := { s.wafer with boot := { s.wafer.boot with waiting := [] } } } : State) = u
  induction l generalizing u with
  | nil => exact .refl u
  | cons c r ih => exact (launchNow_bootKept c u).trans (ih _)

end Sys2Proof.Machine
end

