-- ==== Sys2Proof/Proofs/Boot.lean ====
section
/-!
SUPPORT. Reset and boot: how boot commands begin and end, what a self-test makes of a site, discovery, the points floods,
the stage-two image, and the hand-off (R456 to R467, R475, R476).
-/
namespace Sys2Proof.Machine

set_option Elab.async false

/-! ### Reset and self-tests (R456 to R458) -/

/-- The boot corners are the four corners of the wafer. -/
theorem isCorner_iff (x : SiteId) : isCorner x = true ↔ x ∈ ([0x000, 0x03F, 0xFC0, 0xFFF] : List SiteId) := by
  have corners : ∀ q : BitVec 2, cornerOf q ∈ ([0x000, 0x03F, 0xFC0, 0xFFF] : List SiteId) := by decide
  have each : ∀ x ∈ ([0x000, 0x03F, 0xFC0, 0xFFF] : List SiteId), isCorner x = true := by decide
  refine ⟨fun h => ?_, each x⟩
  rw [← eq_of_beq h]
  exact corners _

/-- A self-test that is due does its work at its site; a corner that is not good is noted (R458). -/
theorem selfTest_due (site : SiteId) (r : SelfTest) (s : State) (held : s.wafer.boot.held = false)
    (untested : (s.focusSite site).junction.status = .untested) (notFused : isCorner site = true → r ≠ .fused) :
    execSelfTestComplete site r s = .next (
      let t := selfTested r (s.focusSite site)
      if isCorner site && r != .passed then
        { t with wafer := { t.wafer with boot := { t.wafer.boot with
          failed := t.wafer.boot.failed ++ [quadrant site] } } }
      else t) := by
  have hf : (isCorner site && r == .fused) = false := by
    cases hc : isCorner site
    · rfl
    · simpa using notFused hc
  simp only [execSelfTestComplete, held, untested, hf, bne_self_eq_false, Bool.or_self, Bool.false_eq_true, if_false]

/-- A self-test of a held wafer, or of a site that is tested, changes nothing. -/
theorem selfTest_idle (site : SiteId) (r : SelfTest) (s : State)
    (h : s.wafer.boot.held = true ∨ (s.focusSite site).junction.status ≠ .untested) :
    execSelfTestComplete site r s = .next s := by
  have : (s.wafer.boot.held || (s.focusSite site).junction.status != .untested ||
      (isCorner site && r == .fused)) = true := by
    rcases h with h | h
    · simp [h]
    · rw [bne_iff_ne.mpr h, Bool.or_true, Bool.true_or]
  simp only [execSelfTestComplete, this, if_true]

/-- At reset every measurement register is zero. -/
theorem resetMeasured : ∀ k < 12, vget ({} : Boot).measured k 0 = 0 := by
  intro k hk
  simp [vget, hk]

/-! ### How a boot command begins and ends (R460, R461) -/

theorem starts_iff (j : Site) (op : BitVec 4) :
    j.starts op = true ↔ j.plaBusy = true ∧ j.plaBegun = false ∧ j.plaOp.toNat = op.toNat := by
  simp [Site.starts, BitVec.toNat_inj, and_assoc]

theorem startCommand_begins {op : BitVec 4} {site : SiteId} {s : State} (k : State → State)
    (h : (s.focusSite site).junction.starts op = true) :
    startCommand op site k s = .next (k (s.focusSite site).begin) := by
  simp only [startCommand, h, if_true]

theorem startCommand_waits {op : BitVec 4} {site : SiteId} {s : State} (k : State → State)
    (h : ¬(s.focusSite site).junction.starts op = true) : startCommand op site k s = .next s := by
  simp only [startCommand, h, if_false, Bool.false_eq_true]

/-- The corner in focus stays so, and the command there goes on. -/
structure CommandKept (t u : State) : Prop where
  site : u.site = t.site
  begun : u.junction.plaBegun = t.junction.plaBegun
  busy : u.junction.plaBusy = t.junction.plaBusy

theorem CommandKept.trans {s t u : State} (h : CommandKept s t) (k : CommandKept t u) : CommandKept s u :=
  ⟨k.site.trans h.site, k.begun.trans h.begun, k.busy.trans h.busy⟩

/-- A command that was due has begun, when what follows keeps it going. -/
theorem CommandKept.of_begin {t u : State} (h : CommandKept t.begin u) (busy : t.junction.plaBusy = true) :
    u.junction.plaBegun = true ∧ u.junction.plaBusy = true ∧ u.site = t.site := ⟨h.begun, h.busy.trans busy, h.site⟩

/-- A command ends with its result, which a failure shows in the boot status. -/
theorem endCommand_ends (r : BitVec 8) {t s : State} (site : s.site = t.site)
    (op : s.junction.plaOp = t.junction.plaOp) : EndsCommand r t (endCommand r s) := by
  unfold endCommand
  split_ifs with h
  · exact ⟨rfl, rfl, fun n => absurd h n⟩
  · refine ⟨rfl, rfl, fun _ => ?_⟩
    simp [State.post, site, op]

/-- The end of a command leaves the site state map. -/
theorem endCommand_map (r : BitVec 8) (s : State) : (endCommand r s).junction.map = s.junction.map := by
  unfold endCommand
  split_ifs <;> rfl

/-! ### Discovery (R462) -/

theorem mem_quadrantPorts (x : SiteId) (p : Port) :
    p ∈ quadrantPorts x ↔ ∃ y, neighbour x p = some y ∧ quadrant y = quadrant x := by
  have all : p ∈ [Port.west, Port.east, Port.north, Port.south] := by cases p <;> decide
  simp only [quadrantPorts, List.mem_filter, all, true_and]
  cases neighbour x p <;> simp

/-- A send through a port sends, and through a port without a neighbour it does nothing. -/
theorem sendThrough_onlySends (p : Port) (m : SiteId → Port → Msg) (s : State) : OnlySends s (sendThrough p m s) := by
  unfold sendThrough
  split
  · exact launchPacket_onlySends ..
  · exact .refl s

theorem sendThrough_sent {p : Port} {s t : State} {y : SiteId} (m : SiteId → Port → Msg)
    (h : neighbour s.site p = some y) (hid : t.wafer.nextId ≤ s.wafer.nextId) :
    Sent s.site .relief (.site y) (m y (facing p)) t (sendThrough p m s) := by
  simp only [sendThrough, h]
  exact launchPacket_sent _ _ _ _ _ _ hid

/-- The junction waits for answers through some ports. -/
def State.awaiting (s : State) (ps : List Port) : State :=
  { s with junction := { s.junction with asked := ps, since := s.wafer.clock } }

/-- Asking through ports sends, once the junction waits for their answers. -/
theorem askThrough_onlySends (ps : List Port) (s : State) : OnlySends (s.awaiting ps) (askThrough ps s) :=
  OnlySends.foldl (fun _ _ => sendThrough_onlySends ..) ps _

/-- Every port asked through carries a discovery packet to its neighbour. -/
theorem askThrough_sent {ps : List Port} {s t : State} {x y : SiteId} {p : Port} (site : s.site = x) (hp : p ∈ ps)
    (h : neighbour x p = some y) (hid : t.wafer.nextId ≤ s.wafer.nextId) :
    Sent x .relief (.site y) (.discovery (quadrant x) y (facing p)) t (askThrough ps s) := by
  subst site
  refine foldl_sent (t := { s with wafer := { s.wafer with nextId := t.wafer.nextId } })
    (fun _ _ => sendThrough_onlySends ..) hp (fun u hu us => ?_) _ hid rfl
  rw [← show u.site = s.site from us] at h ⊢
  exact sendThrough_sent (fun y f => .discovery (quadrant u.site) y f) h hu

/-- An echo, if one is due, is all that is sent. -/
theorem echoIfDone_onlySends (s : State) : OnlySends s (echoIfDone s) := by
  unfold echoIfDone
  split
  · exact sendThrough_onlySends ..
  · exact .refl s

/-- With every answer in, the subtree goes to the parent. -/
theorem echoIfDone_sent {s t : State} {up : Port} {y : SiteId} (done : s.junction.asked = [])
    (parent : s.junction.parent = some up) (h : neighbour s.site up = some y)
    (hid : t.wafer.nextId ≤ s.wafer.nextId) :
    Sent s.site .relief (.site y) (.discoveryEcho y (facing up) s.junction.subtree) t (echoIfDone s) := by
  simp only [echoIfDone, done, parent]
  exact sendThrough_sent (fun y f => .discoveryEcho y f s.junction.subtree) h hid

/-! ### A change of junctions alone -/

/-- Changing the junctions of several sites changes those junctions. -/
theorem atSites_junctionAt {g : Site → Site} (idem : ∀ j, g (g j) = g j) (l : List SiteId) (s : State) (y : SiteId) :
    (s.atSites (fun s => { s with junction := g s.junction }) l).junctionAt y =
      if y ∈ l then g (s.junctionAt y) else s.junctionAt y :=
  atSites_junctionAt_acts l s y idem (fun _ => ⟨⟨rfl, rfl⟩, rfl⟩)

/-- What a change at several sites does not touch outside them stays. -/
theorem atSites_outside {α : Type} (field : View → α) {f : State → State} (l : List SiteId) (s : State)
    (hf : ∀ u : State, field (f u).view = field u.view) : field (s.atSites f l).view = field s.view :=
  atSites_keeps (P := fun v => field v = field s.view) s (fun u h => (hf u).trans h) rfl

/-! ### Points floods (R457, R463 to R465) -/

theorem findPoint_foldl_setPoint (ps : List (Nat × SiteId)) (t : List (Nat × SiteId)) (l : Nat) :
    findPoint (ps.foldl (fun t e => setPoint e.1 (some e.2) t) t) l =
      ps.foldl (fun r e => if e.1 = l then some e.2 else r) (findPoint t l) := by
  induction ps generalizing t with
  | nil => rfl
  | cons e r ih => simp only [List.foldl_cons, ih, findPoint_setPoint, eq_comm]

theorem mapState_foldl_setMap (m : List (Nat × BitVec 2)) (t : List (Nat × BitVec 2)) (y : Nat) :
    mapState (m.foldl (fun t e => setMap e.1 e.2 t) t) y =
      m.foldl (fun r e => if e.1 = y then e.2 else r) (mapState t y) := by
  induction m generalizing t with
  | nil => rfl
  | cons e r ih => simp only [List.foldl_cons, ih, mapState_setMap, eq_comm]

/-- Taking a block changes the table, the map and the status of the junction, and L and JT of the tile. -/
theorem takeBlock_only (ps : List (Nat × SiteId)) (m : List (Nat × BitVec 2)) (s : State) :
    takeBlock ps m s = { s with
      junction := { s.junction with
        points := ps.foldl (fun l e => setPoint e.1 (some e.2) l) s.junction.points
        map := m.foldl (fun l e => setMap e.1 e.2 l) s.junction.map
        status := (takeBlock ps m s).junction.status }
      tile := { s.tile with tile := (takeBlock ps m s).tile.tile, jt := (takeBlock ps m s).tile.jt } } := by
  unfold takeBlock
  dsimp only
  split <;> rfl

theorem takeBlock_takes (ps : List (Nat × SiteId)) (m : List (Nat × BitVec 2)) (s : State) :
    TakesBlock ps m s (takeBlock ps m s) := by
  refine ⟨fun l => ?_, fun y => ?_, fun e he => ?_, fun he => ?_, ?_⟩
  · rw [takeBlock_only, ← findPoint_foldl_setPoint]
  · rw [takeBlock_only, ← mapState_foldl_setMap]
  · simp only [takeBlock, he, blockJobTile, and_self]
  · simp only [takeBlock, he, and_self]
  · rw [takeBlock_only]
    exact ⟨fun _ => rfl, fun _ => rfl, fun _ => rfl, fun _ => rfl, rfl⟩

/-- A junction that takes a block goes on with its command, and holds the blocks that it held. -/
theorem takeBlock_command (ps : List (Nat × SiteId)) (m : List (Nat × BitVec 2)) (s : State) :
    CommandKept s (takeBlock ps m s) ∧ (takeBlock ps m s).junction.blocks = s.junction.blocks := by
  rw [takeBlock_only]
  exact ⟨⟨rfl, rfl, rfl⟩, rfl⟩

/-- What a block bears on is the same in both states. -/
structure BlockSame (s u : State) : Prop where
  site : u.site = s.site
  points : u.junction.points = s.junction.points
  map : u.junction.map = s.junction.map
  status : u.junction.status = s.junction.status
  tile : u.tile = s.tile
  hbm : u.wafer.hbm = s.wafer.hbm
  host : u.wafer.host = s.wafer.host
  peer : u.wafer.peer = s.wafer.peer
  sites : u.wafer.sites = s.wafer.sites

theorem TakesBlock.of_same {ps : List (Nat × SiteId)} {m : List (Nat × BitVec 2)} {t t' u u' : State}
    (h : TakesBlock ps m t u) (before : BlockSame t t') (after : BlockSame u u') : TakesBlock ps m t' u' where
  entries l := by rw [after.points, before.points, h.entries]
  states y := by rw [after.map, before.map, h.states]
  named e he := by rw [after.status, after.tile]; exact h.named e (before.site ▸ he)
  unnamed he := by rw [after.status, after.tile, before.status, before.tile]; exact h.unnamed (before.site ▸ he)
  memory := ⟨fun a => by rw [after.tile, before.tile, h.memory.own], fun a => by rw [after.hbm, before.hbm, h.memory.hbm],
    fun a => by rw [after.host, before.host, h.memory.host], fun a => by rw [after.peer, before.peer, h.memory.peer],
    by rw [after.sites, before.sites, h.memory.sites]⟩

theorem BlockSame.refl (s : State) : BlockSame s s := ⟨rfl, rfl, rfl, rfl, rfl, rfl, rfl, rfl, rfl⟩

theorem BlockSame.symm {s u : State} (h : BlockSame s u) : BlockSame u s :=
  ⟨h.site.symm, h.points.symm, h.map.symm, h.status.symm, h.tile.symm, h.hbm.symm, h.host.symm, h.peer.symm, h.sites.symm⟩

theorem begin_same (t : State) : BlockSame t t.begin := ⟨rfl, rfl, rfl, rfl, rfl, rfl, rfl, rfl, rfl⟩

/-- A flood that starts has been taken by its own junction, where the command goes on, and is one more. -/
theorem startFlood_takes (f : Flood) (s : State) : TakesBlock f.points f.map s (startFlood f s) ∧
    CommandKept s (startFlood f s) ∧ (startFlood f s).junction.blocks = s.junction.blocks ∧
    (startFlood f s).wafer.boot.floods = s.wafer.boot.floods ++ [f] := by
  obtain ⟨command, blocks⟩ := takeBlock_command f.points f.map s
  have wafer : (takeBlock f.points f.map s).wafer = s.wafer := by rw [takeBlock_only]
  refine ⟨(takeBlock_takes f.points f.map s).of_same (.refl s) ⟨rfl, rfl, rfl, rfl, rfl, rfl, rfl, rfl, rfl⟩,
    ⟨command.site, command.begun, command.busy⟩, blocks, ?_⟩
  simp only [startFlood, wafer]

/-- Holding a block changes the list of blocks. -/
theorem holdBlock_only (q : BitVec 2) (s : State) :
    holdBlock q s = { s with junction := { s.junction with blocks := (holdBlock q s).junction.blocks } } := by
  unfold holdBlock
  split_ifs <;> rfl

theorem holdBlock_same (q : BitVec 2) (s : State) : BlockSame s (holdBlock q s) := by
  rw [holdBlock_only]
  exact ⟨rfl, rfl, rfl, rfl, rfl, rfl, rfl, rfl, rfl⟩

theorem holdBlock_command (q : BitVec 2) (s : State) : CommandKept s (holdBlock q s) := by
  rw [holdBlock_only]
  exact ⟨rfl, rfl, rfl⟩

theorem mem_holdBlock (q : BitVec 2) (s : State) : q ∈ (holdBlock q s).junction.blocks := by
  unfold holdBlock
  split_ifs with h
  · simpa using h
  · simp

/-- The entries of a quadrant's block. -/
theorem mem_blockPoints (q : BitVec 2) (l : List (Nat × SiteId)) (e : Nat × SiteId) :
    e ∈ blockPoints q l ↔ e ∈ l ∧ e.1 < 3840 ∧ blockOf e.1 = q := by
  simp [blockPoints]

/-- The junctions that a flood reaches depend on statuses alone. -/
theorem liveSites_of_status {s u : State} (h : Stays s u) (status : u.junction.status = s.junction.status)
    (dead : u.wafer.healing.dead = s.wafer.healing.dead) : u.liveSites = s.liveSites := by
  have same (x : SiteId) : (u.junctionAt x).status = (s.junctionAt x).status := by
    rw [h.junctionAt]
    split_ifs with e
    · rw [e, junctionAt_site, status]
    · rfl
  simp only [State.liveSites, h.siteIds, dead, same]

/-- PTFLOOD (R464). -/
theorem ptflood_floods {site : SiteId} {s : State} (h : (s.focusSite site).junction.starts 2 = true) :
    let t := s.focusSite site
    let q := quadrant site
    Runs (.ptflood site) s (fun u => CommandKept t.begin u ∧ ∃ f, u.wafer.boot.floods = s.wafer.boot.floods ++ [f] ∧
      f.quadrant = q ∧ f.wide = false ∧ (∀ e, e ∈ f.points ↔ e ∈ t.junction.points ∧ e.1 < 3840 ∧ blockOf e.1 = q) ∧
      (∀ x, x ∈ f.pending ↔ x ∈ t.liveSites ∧ quadrant x = q ∧ x ≠ site) ∧ TakesBlock f.points f.map t u) := by
  intro t q
  have run : exec (.ptflood site) s = execPtflood site s := rfl
  refine ⟨_, run.trans (startCommand_begins _ h), ?_⟩
  have live : t.begin.liveSites = t.liveSites := liveSites_of_status ⟨rfl, rfl⟩ rfl rfl
  obtain ⟨takes, command, -, floods⟩ := startFlood_takes
    { quadrant := q, wide := false, points := blockPoints q t.junction.points, map := quadrantMap q t.junction.map
      pending := t.begin.liveSites.filter (fun x => quadrant x == q && x != site) } t.begin
  refine ⟨command, _, floods.trans ?_, rfl, rfl, mem_blockPoints q _, fun x => ?_,
    takes.of_same (begin_same t).symm (.refl _)⟩
  · rw [← focusSite_boot s site]; rfl
  · simp [live]

/-- JOIN (R465). -/
theorem join_floods {site : SiteId} {s : State} (h : (s.focusSite site).junction.starts 4 = true) :
    let t := s.focusSite site
    let q := quadrant site
    Runs (.join site) s (fun u => CommandKept t.begin u ∧ q ∈ u.junction.blocks ∧
      ∃ f, u.wafer.boot.floods = s.wafer.boot.floods ++ [f] ∧ f.quadrant = q ∧ f.wide = true ∧
        (∀ e, e ∈ f.points ↔ e ∈ t.junction.points ∧ e.1 < 3840 ∧ blockOf e.1 = q) ∧
        (∀ x, x ∈ f.pending ↔ x ∈ t.liveSites ∧ x ≠ site) ∧ TakesBlock f.points f.map t u) := by
  intro t q
  have run : exec (.join site) s = execJoin site s := rfl
  refine ⟨_, run.trans (startCommand_begins _ h), ?_⟩
  have live : t.begin.liveSites = t.liveSites := liveSites_of_status ⟨rfl, rfl⟩ rfl rfl
  have same := holdBlock_same q t.begin
  obtain ⟨takes, command, blocks, floods⟩ := startFlood_takes
    { quadrant := q, wide := true, points := blockPoints q t.junction.points, map := quadrantMap q t.junction.map
      pending := t.begin.liveSites.filter (fun x => x != site) } (holdBlock q t.begin)
  refine ⟨(holdBlock_command q t.begin).trans command, blocks ▸ mem_holdBlock q t.begin, _, floods.trans ?_, rfl, rfl,
    mem_blockPoints q _, fun x => ?_, (takes.of_same same.symm (.refl _)).of_same (begin_same t).symm (.refl _)⟩
  · rw [holdBlock_only, ← focusSite_boot s site]; rfl
  · simp [live]

/-- A change of the wafer outside its sites may be made before or after the focus moves. -/
theorem focusSite_mapWafer {f : Wafer → Wafer} (hf : ∀ w l, f { w with sites := l } = { f w with sites := l })
    (s : State) (x : SiteId) : (s.mapWafer f).focusSite x = (s.focusSite x).mapWafer f := by
  have sites : (f s.wafer).sites = s.wafer.sites := by
    have h := congrArg Wafer.sites (hf s.wafer s.wafer.sites)
    exact h
  by_cases h : x = s.site
  · simp only [State.focusSite, mapWafer_site, h, if_true]
  · rw [State.focusSite, State.focusSite, mapWafer_site, if_neg h, if_neg h]
    unfold State.focus
    rw [mapWafer_wafer, mapWafer_site, sites, if_neg h, if_neg h]
    simp only [State.mk.injEq, State.mapWafer]
    exact ⟨trivial, trivial, trivial, trivial, trivial, trivial, (hf s.wafer _).symm⟩

/-- A flooded block arrives (R464, R465). -/
theorem pointsBlockArrival_takes {site : SiteId} {k : BitVec 2} {f : Flood} {s : State}
    (h : s.wafer.boot.floods.find? (fun f => f.quadrant == k && f.pending.contains site) = some f) :
    Runs (.pointsBlockArrival site k) s (fun u => TakesBlock f.points f.map (s.focusSite site) u ∧
      { f with pending := f.pending.filter (· != site) } ∈ u.wafer.boot.floods ∧
      (f.wide = true → k ∈ u.junction.blocks)) := by
  have run : execPointsBlockArrival site k s = .next (
      let gone := fun g : Flood => if g = f then { g with pending := g.pending.filter (· != site) } else g
      let t := takeBlock f.points f.map ((s.mapWafer (fun w => { w with boot := { w.boot with
        floods := w.boot.floods.map gone } })).focusSite site)
      if f.wide then holdBlock k t else t) := by
    simp only [execPointsBlockArrival, h]
    rfl
  refine ⟨_, run, ?_⟩
  extract_lets gone t
  have member : { f with pending := f.pending.filter (· != site) } ∈ (s.wafer.boot.floods.map gone) :=
    List.mem_map.mpr ⟨f, List.mem_of_find?_eq_some h, by simp [gone]⟩
  have takes : TakesBlock f.points f.map (s.focusSite site) t := by
    refine (takeBlock_takes f.points f.map _).of_same ?_ (.refl t)
    rw [focusSite_mapWafer (fun _ _ => rfl)]
    exact ⟨rfl, rfl, rfl, rfl, rfl, rfl, rfl, rfl, rfl⟩
  have floods : t.wafer.boot.floods = s.wafer.boot.floods.map gone := by
    rw [show t = _ from takeBlock_only .., focusSite_mapWafer (fun _ _ => rfl)]
    simp
  split_ifs with wide
  · refine ⟨takes.of_same (.refl _) (holdBlock_same k t), ?_, fun _ => mem_holdBlock k t⟩
    rw [holdBlock_only]
    exact floods ▸ member
  · exact ⟨takes, floods ▸ member, fun w => absurd w wide⟩

/-! ### DISCOVER and its packets (R462) -/

/-- DISCOVER. -/
theorem discover_begins {site : SiteId} {s : State} (h : (s.focusSite site).junction.starts 1 = true) :
    let t := s.focusSite site
    let q := quadrant site
    let port (p : Port) (y : SiteId) : Prop := neighbour site p = some y ∧ quadrant y = q
    Runs (.discover site) s (fun u => CommandKept t.begin u ∧ u.junction.found = true ∧ u.junction.parent = none ∧
      u.junction.subtree = [(site.toNat, echoState t.junction)] ∧ (∀ p, p ∈ u.junction.asked ↔ ∃ y, port p y) ∧
      (∀ p y, port p y → Sent site .relief (.site y) (.discovery q y (facing p)) t u) ∧
      ∀ x ∈ s.siteIds, x ≠ site → quadrant x = q → (u.junctionAt x).found = false ∧ (u.junctionAt x).asked = []) := by
  intro t q port
  have run : exec (.discover site) s = execDiscover site s := rfl
  refine ⟨_, run.trans (startCommand_begins _ h), ?_⟩
  let forget (j : Site) : Site := { j with found := false, parent := none, asked := [] }
  let l := t.begin.siteIds.filter (fun x => quadrant x == quadrant site)
  let s₁ := t.begin.atSites (fun s => { s with junction := forget s.junction }) l
  let s₂ : State := { s₁ with junction := { s₁.junction with
    found := true, subtree := [(s₁.site.toNat, echoState s₁.junction)] } }
  change CommandKept t.begin (askThrough (quadrantPorts s₂.site) s₂) ∧ _
  have site₁ : s₁.site = site := (atSites_site ..).trans (focusSite_site s site)
  have junctions (y : SiteId) : s₁.junctionAt y = if y ∈ l then forget (t.begin.junctionAt y) else t.begin.junctionAt y :=
    atSites_junctionAt (g := forget) (fun _ => rfl) l t.begin y
  have next : s₁.wafer.nextId = t.wafer.nextId :=
    atSites_outside (fun v => v.wafer.nextId) l t.begin (fun _ => rfl)
  have asks := askThrough_onlySends (quadrantPorts s₂.site) s₂
  have stays : Stays s₁ (askThrough (quadrantPorts s₂.site) s₂) := ⟨asks.site, asks.sites⟩
  have own : s₁.junction = forget t.begin.junction := by
    rw [← junctionAt_site, site₁, junctions, if_pos]
    · rw [← focusSite_site s site]; exact congrArg forget (junctionAt_site _)
    · simp [l, t, State.siteIds, State.begin]
  refine ⟨⟨?_, ?_, ?_⟩, ?_, ?_, ?_, fun p => ?_, fun p y h => ?_, fun x hx hne hq => ?_⟩
  · rw [asks.site]; exact atSites_site ..
  · rw [asks.junction]; change s₁.junction.plaBegun = _; rw [own]
  · rw [asks.junction]; change s₁.junction.plaBusy = _; rw [own]
  · rw [asks.junction]; rfl
  · rw [asks.junction]; change s₁.junction.parent = _; rw [own]
  · rw [asks.junction]; change [(s₁.site.toNat, echoState s₁.junction)] = _; rw [own, site₁]; rfl
  · rw [asks.junction]; change p ∈ quadrantPorts s₁.site ↔ _; rw [site₁]; exact mem_quadrantPorts site p
  · exact askThrough_sent site₁ ((mem_quadrantPorts s₂.site p).mpr ⟨y, by rw [show s₂.site = site from site₁]; exact h⟩)
      h.1 next.ge
  · have listed : x ∈ l := by
      refine List.mem_filter.mpr ⟨(mem_siteIds_focusSite s site x).mpr (.inr hx), ?_⟩
      rw [hq]; exact beq_self_eq_true q
    have forgot : (askThrough (quadrantPorts s₂.site) s₂).junctionAt x = forget (t.begin.junctionAt x) := by
      rw [stays.junctionAt, if_neg (by rwa [site₁]), junctions, if_pos listed]
    rw [forgot]
    exact ⟨rfl, rfl⟩

/-- What of a site a discovery packet that arrives there finds. -/
theorem discoverHere_found {port : Port} {s : State} (h : s.junction.found = true) :
    discoverHere port s = sendThrough port (fun y f => .discoveryEcho y f []) s := by
  simp only [discoverHere, h, if_true]

/-- A junction that is reached for the first time. -/
def State.foundThrough (s : State) (port : Port) : State :=
  { s with junction := { s.junction with
      located := true, found := true, parent := some port, subtree := [(s.site.toNat, echoState s.junction)] } }

theorem discoverHere_new {port : Port} {s : State} (h : s.junction.found = false) :
    discoverHere port s = echoIfDone (askThrough ((quadrantPorts s.site).filter (· != port)) (s.foundThrough port)) := by
  simp only [discoverHere, h, Bool.false_eq_true, if_false]
  rfl

/-- A discovery packet that arrives for the first time. -/
theorem discoverHere_asks {port : Port} {s : State} (h : s.junction.found = false) :
    let u := discoverHere port s
    let x := s.site
    let others (r : Port) (y : SiteId) : Prop := r ≠ port ∧ neighbour x r = some y ∧ quadrant y = quadrant x
    OnlySends ((s.foundThrough port).awaiting ((quadrantPorts x).filter (· != port))) u ∧
    (∀ r, r ∈ u.junction.asked ↔ ∃ y, others r y) ∧
    (∀ r y, others r y → Sent x .relief (.site y) (.discovery (quadrant x) y (facing r)) s u) ∧
    ((∀ r y, ¬others r y) → ∀ y, neighbour x port = some y →
      Sent x .relief (.site y) (.discoveryEcho y (facing port) [(x.toNat, echoState s.junction)]) s u) := by
  intro u x others
  have run : u = _ := discoverHere_new h
  let ps := (quadrantPorts x).filter (· != port)
  have asks : OnlySends ((s.foundThrough port).awaiting ps) (askThrough ps (s.foundThrough port)) := askThrough_onlySends ps _
  have echoes := echoIfDone_onlySends (askThrough ps (s.foundThrough port))
  have ports (r : Port) : r ∈ ps ↔ ∃ y, others r y := by
    simp only [ps, List.mem_filter, mem_quadrantPorts, bne_iff_ne, others]
    tauto
  have only : OnlySends ((s.foundThrough port).awaiting ps) u := run ▸ asks.trans echoes
  refine ⟨only, fun r => ?_, fun r y hr => ?_, fun none y hy => ?_⟩
  · rw [only.junction]
    exact ports r
  · rw [run]
    exact echoes.sent (askThrough_sent rfl ((ports r).mpr ⟨y, hr⟩) hr.2.1 (le_refl _))
  · have empty : ps = [] := List.eq_nil_iff_forall_not_mem.mpr (fun r hr => by
      obtain ⟨y, hy⟩ := (ports r).mp hr
      exact none r y hy)
    have sent := echoIfDone_sent (s := askThrough ps (s.foundThrough port)) (t := s) (up := port) (y := y)
      (by rw [asks.junction]; exact empty) (by rw [asks.junction]; rfl) (by rw [asks.site]; exact hy) asks.ids
    rw [asks.site, asks.junction] at sent
    rw [run]
    exact sent

/-- An answer that was awaited. -/
theorem answered_awaited {port : Port} {l : List (Nat × BitVec 2)} {s : State} (h : port ∈ s.junction.asked) :
    let u := answered port l s
    let j := s.junction
    OnlySends { s with junction := { j with asked := j.asked.erase port, subtree := j.subtree ++ l } } u ∧
    (j.asked.erase port = [] → ∀ up, j.parent = some up → ∀ y, neighbour s.site up = some y →
      Sent s.site .relief (.site y) (.discoveryEcho y (facing up) (j.subtree ++ l)) s u) := by
  intro u j
  have run : u = echoIfDone { s with junction := { j with asked := j.asked.erase port, subtree := j.subtree ++ l } } := by
    simp only [u, answered, List.contains_iff_mem, h, if_true]
    rfl
  rw [run]
  exact ⟨echoIfDone_onlySends _, fun done up parent y hy => echoIfDone_sent done parent hy (le_refl _)⟩

/-- An answer that was not awaited. -/
theorem answered_other {port : Port} {s : State} (l : List (Nat × BitVec 2)) (h : port ∉ s.junction.asked) :
    answered port l s = s := by
  simp only [answered, List.contains_iff_mem, h, if_false]

theorem discoveryPacketArrival_runs {id : Nat} {p : Packet} {s : State} {k : BitVec 2} {x : SiteId} {port : Port}
    (hp : s.packet id = some p) (hm : p.msg = .discovery k x port) :
    execDiscoveryPacketArrival id s = .next (if s.wafer.healing.dead.contains x then s.dropPacket id
      else if (s.focusSite x).junction.status = .untested then s
      else discoverHere port ((s.focusSite x).dropPacket id)) := by
  unfold execDiscoveryPacketArrival
  rw [hp]
  cases p
  cases hm
  rfl

theorem discoveryEchoArrival_runs {id : Nat} {p : Packet} {s : State} {x : SiteId} {port : Port}
    {l : List (Nat × BitVec 2)} (hp : s.packet id = some p) (hm : p.msg = .discoveryEcho x port l) :
    execDiscoveryEchoArrival id s = .next (answered port l ((s.focusSite x).dropPacket id)) := by
  unfold execDiscoveryEchoArrival
  rw [hp]
  cases p
  cases hm
  rfl

/-! ### The ends of boot commands (R461) -/

theorem mem_quadrantSites (q : BitVec 2) (x : SiteId) : x ∈ quadrantSites q ↔ quadrant x = q := by
  have all : x ∈ (List.range 4096).map (BitVec.ofNat 12) :=
    List.mem_map.mpr ⟨x.toNat, List.mem_range.mpr x.isLt, by simp⟩
  simp [quadrantSites, all]

/-- A map in which the states of some sites are set. -/
theorem mapState_setSites (g : SiteId → BitVec 2) (l : List SiteId) (m : List (Nat × BitVec 2)) (x : SiteId) :
    mapState (l.foldl (fun m y => setMap y.toNat (g y) m) m) x.toNat = if x ∈ l then g x else mapState m x.toNat := by
  induction l generalizing m with
  | nil => simp
  | cons y r ih =>
    rw [List.foldl_cons, ih, mapState_setMap]
    by_cases e : x = y
    · subst e; simp
    · simp [e, BitVec.toNat_inj]

/-- The map holds the site's own word, or failed (R462). -/
theorem mergeEchoes_map (s : State) (x : SiteId) (h : quadrant x = quadrant s.site) :
    mapState (mergeEchoes s).junction.map x.toNat =
      ((s.junction.subtree.filter (fun k => k.1 == x.toNat && k.2 != 3)).map (·.2)).headD 3 := by
  unfold mergeEchoes
  dsimp only
  rw [mapState_setSites, if_pos ((mem_quadrantSites _ x).mpr h)]
  have both : s.junction.subtree.filter (fun k => k.1 == x.toNat && k.2 != 3) =
      (s.junction.subtree.filter (fun k => k.1 == x.toNat)).filter (fun k => k.2 != 3) := by
    rw [List.filter_filter]
    exact List.filter_congr (fun _ _ => Bool.and_comm _ _)
  rw [both, List.headD_eq_head?_getD, List.head?_map, List.head?_filter]
  cases (s.junction.subtree.filter (fun k => k.1 == x.toNat)).find? (fun k => k.2 != 3) <;> rfl

theorem mergeEchoes_keeps (s : State) :
    (mergeEchoes s).site = s.site ∧ (mergeEchoes s).junction.plaOp = s.junction.plaOp := by
  unfold mergeEchoes
  exact ⟨rfl, rfl⟩

theorem flooded_iff (b : Boot) (q : BitVec 2) :
    b.flooded q = true ↔ ∀ f ∈ b.floods, f.quadrant = q → f.pending = [] := by
  simp [Boot.flooded, List.all_eq_true, or_iff_not_imp_left]

theorem mem_missingTiles (s : State) (q : BitVec 2) (l : Nat) :
    l ∈ s.missingTiles q ↔ ∃ k < 960, blockTile q k = l ∧ findPoint s.junction.points l = none := by
  simp only [State.missingTiles, List.mem_filter, List.mem_map, List.mem_range, Option.isNone_iff_eq_none]
  tauto

/-- Every junction that a flood reaches holds every block. -/
def State.joined (s : State) : Prop := ∀ x ∈ s.liveSites, ∀ k : BitVec 2, k ∈ (s.junctionAt x).blocks

theorem joined_iff (s : State) :
    s.liveSites.all (fun x => ([0, 1, 2, 3] : List (BitVec 2)).all (fun k => (s.junctionAt x).blocks.contains k)) = true ↔
      s.joined := by
  have every : ∀ k : BitVec 2, k ∈ ([0, 1, 2, 3] : List (BitVec 2)) := by decide
  simp only [List.all_eq_true, List.contains_iff_mem, State.joined, every, true_imp_iff]

/-- JOIN goes on while a flood is under way or a junction lacks a block. -/
theorem finishJoin_waits {s : State} (h : ¬(s.wafer.boot.flooded (quadrant s.site) = true ∧ s.joined)) :
    finishJoin s = s := by
  rw [← joined_iff, and_comm, ← Bool.and_eq_true, Bool.not_eq_true, ← Bool.not_eq_true', Bool.not_and] at h
  unfold finishJoin
  exact if_pos h

/-- JOIN goes to its end with every block everywhere. -/
theorem finishJoin_guard {s : State} (flooded : s.wafer.boot.flooded (quadrant s.site) = true) (joined : s.joined) :
    (!(s.liveSites.all (fun x => ([0, 1, 2, 3] : List (BitVec 2)).all (fun k => (s.junctionAt x).blocks.contains k))) ||
      !s.wafer.boot.flooded (quadrant s.site)) = false := by
  rw [(joined_iff s).mpr joined, flooded]
  rfl

/-- JOIN ends with every block everywhere and no tile missing. -/
theorem finishJoin_whole {s : State} (flooded : s.wafer.boot.flooded (quadrant s.site) = true) (joined : s.joined)
    (whole : s.missingTiles (quadrant s.site) = []) : finishJoin s = endCommand 0 s := by
  simp only [finishJoin, finishJoin_guard flooded joined, whole, Bool.false_eq_true, if_false]

/-- JOIN fails when a tile is missing and no quadrant has a reserve to lend. -/
theorem finishJoin_short {s : State} (flooded : s.wafer.boot.flooded (quadrant s.site) = true) (joined : s.joined)
    (missing : s.missingTiles (quadrant s.site) ≠ []) (lent : s.lentSites (quadrant s.site) = []) :
    finishJoin s = endCommand 1 s := by
  obtain ⟨l, r, tiles⟩ := List.exists_cons_of_ne_nil missing
  simp only [finishJoin, finishJoin_guard flooded joined, tiles, lent, Bool.false_eq_true, if_false, List.length_nil,
    List.length_cons, Nat.succ_pos, if_true]

/-! ### Measurements and LOADIMG (R461, R476) -/

/-- A measurement register extended by a record. -/
theorem measure_measured (b : Boot) (i : Nat) (r : FlashRecord) (k : Nat) (hk : k < 12) :
    vget (b.measure i r).measured k 0 = if k = i then Config.sha384 (natBytes (vget b.measured k 0).toNat 48 ++
      natBytes (Config.sha384 r.bytes).toNat 48) else vget b.measured k 0 := by
  unfold Boot.measure
  split_ifs with h
  · subst h
    exact vget_vset_same _ _ _ _ hk
  · exact vget_vset_other _ _ _ _ _ (Ne.symm h)

/-- LOADIMG with no valid image ends with 1. -/
theorem loadimg_missing {site : SiteId} {s : State} (h : (s.focusSite site).junction.starts 3 = true)
    (none : s.wafer.boot.image 1 = none) :
    let t := s.focusSite site
    Runs (.loadimg site) s (fun u => CommandKept t.begin u ∧ u.junction.plaNext = 1 ∧ KeepsMemory t u) := by
  intro t
  have run : exec (.loadimg site) s = execLoadimg site s := rfl
  refine ⟨_, run.trans (startCommand_begins _ h), ?_⟩
  have image : ((s.focusSite site).begin.wafer.boot.answered (quadrant site)).image 1 = Option.none := by
    rw [← none, ← focusSite_boot s site]; rfl
  simp only [image]
  exact ⟨⟨rfl, rfl, rfl⟩, trivial, fun _ => rfl, fun _ => rfl, fun _ => rfl, fun _ => rfl, rfl⟩

/-- LOADIMG with an image that fits places its body and measures it. -/
theorem loadimg_loads {site : SiteId} {s : State} {r : FlashRecord} (h : (s.focusSite site).junction.starts 3 = true)
    (image : s.wafer.boot.image 1 = some r)
    (fits : (s.focusSite site).junction.plaArg.toNat + r.body.length ≤ 0x600000) :
    let t := s.focusSite site
    let q := quadrant site
    Runs (.loadimg site) s (fun u => CommandKept t.begin u ∧ StoresHere t.junction.plaArg.toNat r.body t u ∧
      u.junction.plaArg = BitVec.ofNat 64 r.body.length ∧ u.junction.plaNext = t.junction.plaNext ∧
      ∀ k < 12, vget u.wafer.boot.measured k 0 =
        if k = q.toNat then Config.sha384 (natBytes (vget s.wafer.boot.measured k 0).toNat 48 ++
          natBytes (Config.sha384 r.bytes).toNat 48) else vget s.wafer.boot.measured k 0) := by
  intro t q
  have run : exec (.loadimg site) s = execLoadimg site s := rfl
  refine ⟨_, run.trans (startCommand_begins _ h), ?_⟩
  let t₁ : State := { t.begin with wafer := { t.begin.wafer with boot := t.begin.wafer.boot.answered q } }
  have image₁ : ((s.focusSite site).begin.wafer.boot.answered (quadrant site)).image 1 = some r := by
    rw [← image, ← focusSite_boot s site]; rfl
  have fits₁ : ¬spadSize < (s.focusSite site).begin.junction.plaArg.toNat + r.body.length := Nat.not_lt.mpr fits
  obtain ⟨mem, -, place, -, -, wafer⟩ := writeOwn_memory t₁ (cellsAt t.junction.plaArg.toNat r.body) false
  simp only [image₁, if_neg fits₁]
  change CommandKept t.begin { t₁.writeOwn (cellsAt t.junction.plaArg.toNat r.body) false with junction := _, wafer := _ } ∧ _
  refine ⟨⟨place, rfl, rfl⟩, ⟨fun b => ?_, ?_, ?_, ?_, ?_⟩, trivial, rfl, fun k hk => ?_⟩
  · exact (congrArg (Memory.read · b) mem).trans (read_writeCells_cellsAt ..)
  · exact (congrArg Wafer.hbm wafer :)
  · exact (congrArg Wafer.host wafer :)
  · exact (congrArg Wafer.peer wafer :)
  · exact (congrArg Wafer.sites wafer :)
  · have boot : (t₁.writeOwn (cellsAt t.junction.plaArg.toNat r.body) false).wafer.boot.measured = s.wafer.boot.measured := by
      rw [wafer, ← focusSite_boot s site]
      rfl
    refine (measure_measured _ _ r k hk).trans ?_
    exact boot ▸ rfl

/-- The units that load firmware: each with the kind of its record and its measurement register (R475, R476). -/
def firmwareUnits : List (FirmwareUnit × Nat × Nat) :=
  (List.range 4).map (fun n => (FirmwareUnit.station (BitVec.ofNat 2 n), 2, 4 + n)) ++
    (List.range 4).map (fun n => (FirmwareUnit.crane (BitVec.ofNat 2 n), 3, 8 + n))

/-- A unit loads a record of its kind into its register. -/
theorem firmware_runs {unit : FirmwareUnit} {kind i : Nat} (h : (unit, kind, i) ∈ firmwareUnits) (s : State) :
    execStationAndCraneFirmwareLoad unit s = .next ((s.wafer.boot.image kind).elim s (fun r =>
      { s with wafer := { s.wafer with boot := s.wafer.boot.measure i r } })) := by
  simp only [firmwareUnits, List.mem_append, List.mem_map, List.mem_range, Prod.mk.injEq] at h
  rcases h with ⟨n, hn, rfl, rfl, rfl⟩ | ⟨n, hn, rfl, rfl, rfl⟩
  · have num : (BitVec.ofNat 2 n).toNat = n := by simpa using Nat.mod_eq_of_lt hn
    simp only [execStationAndCraneFirmwareLoad, num]
    cases s.wafer.boot.image 2 <;> rfl
  · have num : (BitVec.ofNat 2 n).toNat = n := by simpa using Nat.mod_eq_of_lt hn
    simp only [execStationAndCraneFirmwareLoad, num]
    cases s.wafer.boot.image 3 <;> rfl

theorem firmware_loads {unit : FirmwareUnit} {kind i : Nat} {s : State} {r : FlashRecord}
    (h : (unit, kind, i) ∈ firmwareUnits) (image : s.wafer.boot.image kind = some r) :
    execStationAndCraneFirmwareLoad unit s =
      .next { s with wafer := { s.wafer with boot := s.wafer.boot.measure i r } } := by
  rw [firmware_runs h, image]
  rfl

theorem firmware_missing {unit : FirmwareUnit} {kind i : Nat} {s : State}
    (h : (unit, kind, i) ∈ firmwareUnits) (none : s.wafer.boot.image kind = none) :
    execStationAndCraneFirmwareLoad unit s = .next s := by
  rw [firmware_runs h, none]
  rfl

/-! ### HANDOFF (R457, R461, R467) -/

/-- The stations are ready when all four quadrants have handed off. -/
theorem stationsReady_iff (s : State) : s.stationsReady = true ↔ ∀ k : BitVec 2, k ∈ s.wafer.boot.handedOff := by
  have every : ∀ k : BitVec 2, k ∈ ([0, 1, 2, 3] : List (BitVec 2)) := by decide
  simp only [State.stationsReady, List.all_eq_true, List.contains_iff_mem, every, true_imp_iff]

/-- The tiles of a list of sites lose their job, and no other. -/
theorem atSites_endJob (l : List SiteId) (s : State) (y : SiteId) :
    ((s.atSites (fun s => { s with tile := { s.tile with job := none } }) l).tileAt y).job =
      if y ∈ l then none else (s.tileAt y).job := by
  refine (congrArg Tile.job (atSites_tileAt_acts (g := fun t => { t with job := none }) l s y (fun _ => rfl) ?_)).trans ?_
  · exact fun _ => ⟨⟨rfl, rfl⟩, rfl⟩
  · split_ifs <;> rfl

/-- The boot jobs of a quadrant's tiles end, and the quadrant has handed off. -/
def State.handedOver (s : State) (q : BitVec 2) : State :=
  let s := s.atSites (fun s => { s with tile := { s.tile with job := none } }) (s.jobSites (60 + q.setWidth 6))
  { s with wafer := { s.wafer with boot := { s.wafer.boot with handedOff := s.wafer.boot.handedOff ++ [q] } } }

theorem handoff_runs {site : SiteId} {s : State} (h : (s.focusSite site).junction.starts 5 = true) :
    let v := (s.focusSite site).begin.handedOver (quadrant site)
    exec (.handoff site) s = .next (if v.stationsReady then launchWaiting (v.post .bootReady) else v) := by
  have run : exec (.handoff site) s = execHandoff site s := rfl
  exact run.trans (startCommand_begins _ h)

/-- The hand-off of a quadrant adds it to those that have handed off, and ends the jobs of its tiles. -/
theorem handedOver_changes (s : State) (q : BitVec 2) :
    (s.handedOver q).wafer.boot = { s.wafer.boot with handedOff := s.wafer.boot.handedOff ++ [q] } ∧
    (s.handedOver q).wafer.notices = s.wafer.notices ∧ CommandKept s (s.handedOver q) ∧
    ∀ x ∈ s.jobSites (60 + q.setWidth 6), ((s.handedOver q).tileAt x).job = none := by
  let l := s.jobSites (60 + q.setWidth 6)
  let v := s.atSites (fun s => { s with tile := { s.tile with job := none } }) l
  have boot : v.wafer.boot = s.wafer.boot := atSites_outside (fun v => v.wafer.boot) l s (fun _ => rfl)
  have notices : v.wafer.notices = s.wafer.notices := atSites_outside (fun v => v.wafer.notices) l s (fun _ => rfl)
  have junctions : v.junctionAt = s.junctionAt := atSites_outside (fun v => v.junction) l s (fun _ => rfl)
  have site : v.site = s.site := atSites_site ..
  have junction : v.junction = s.junction := by rw [← junctionAt_site v, junctions, site, junctionAt_site]
  refine ⟨?_, notices, ⟨site, congrArg Site.plaBegun junction, congrArg Site.plaBusy junction⟩, fun x hx => ?_⟩
  · rw [← boot]; rfl
  · exact (atSites_endJob l s x).trans (if_pos hx)

/-- With no launch waiting, taking up those that wait changes nothing. -/
theorem launchWaiting_none {s : State} (h : s.wafer.boot.waiting = []) : launchWaiting s = s := by
  have same : { s with wafer := { s.wafer with boot := { s.wafer.boot with waiting := [] } } } = s := by
    rw [← h]
  unfold launchWaiting
  rw [h, same]
  rfl

/-- A change that keeps the boot and the junctions lets a command go on. -/
theorem BootKept.command {s u : State} (h : BootKept s u) : CommandKept s u := by
  have junction := h.junctions s.site
  rw [← h.site, junctionAt_site, h.site, junctionAt_site] at junction
  exact ⟨h.site, (congrArg Site.plaBegun junction :), (congrArg Site.plaBusy junction :)⟩

/-- HANDOFF. -/
theorem handoff_ends {site : SiteId} {s : State} (h : (s.focusSite site).junction.starts 5 = true) :
    let t := s.focusSite site
    let q := quadrant site
    let boot := s.wafer.boot
    let last : Prop := ∀ k, k = q ∨ k ∈ boot.handedOff
    Runs (.handoff site) s (fun u => CommandKept t.begin u ∧ q ∈ u.wafer.boot.handedOff ∧
      (last → u.wafer.boot.waiting = []) ∧ (¬last → u.wafer.boot.waiting = boot.waiting) ∧
      (¬last ∨ boot.waiting = [] → ∀ x ∈ t.jobSites (60 + q.setWidth 6), (u.tileAt x).job = none) ∧
      (last → boot.waiting = [] → u.wafer.notices = s.wafer.notices ++ [.bootReady])) := by
  intro t q boot last
  let v := t.begin.handedOver q
  refine ⟨_, handoff_runs h, ?_⟩
  change CommandKept t.begin (if v.stationsReady then launchWaiting (v.post .bootReady) else v) ∧ _
  obtain ⟨hboot, hnotices, hcommand, hjobs⟩ := handedOver_changes t.begin q
  have handed : v.wafer.boot.handedOff = boot.handedOff ++ [q] := by
    rw [hboot]; exact congrArg (fun b => Boot.handedOff b ++ [q]) (focusSite_boot s site)
  have waiting : v.wafer.boot.waiting = boot.waiting := by
    rw [hboot]; exact (congrArg Boot.waiting (focusSite_boot s site) :)
  have notices : v.wafer.notices = s.wafer.notices := hnotices.trans (focusSite_notices s site)
  have ready : v.stationsReady = true ↔ last := by
    rw [stationsReady_iff, handed]
    exact forall_congr' (fun k => by rw [List.mem_append, List.mem_singleton, or_comm])
  by_cases isLast : last
  · rw [if_pos (ready.mpr isLast)]
    have kept : BootKept _ (launchWaiting (v.post .bootReady)) := launchWaiting_bootKept (v.post .bootReady)
    have command : CommandKept v (launchWaiting (v.post .bootReady)) :=
      ⟨kept.command.site, kept.command.begun, kept.command.busy⟩
    have idle (h : boot.waiting = []) : launchWaiting (v.post .bootReady) = v.post .bootReady :=
      launchWaiting_none (waiting.trans h)
    refine ⟨hcommand.trans command, ?_, fun _ => ?_, fun n => absurd isLast n, fun none x hx => ?_, fun _ none => ?_⟩
    · rw [kept.boot]
      change q ∈ v.wafer.boot.handedOff
      simp [handed]
    · rw [kept.boot]
    · rw [idle (none.resolve_left (not_not_intro isLast))]
      exact hjobs x hx
    · rw [idle none]
      exact congrArg (· ++ [Notice.bootReady]) notices
  · rw [if_neg (fun r => isLast (ready.mp r))]
    refine ⟨hcommand, by simp [handed], fun l => absurd l isLast, fun _ => waiting, fun _ => hjobs,
      fun l => absurd l isLast⟩

/-! ### Self-tests and completions, outcome by outcome -/

/-- A self-test that passes (R456). -/
theorem selfTest_passed {site : SiteId} {s : State} (held : s.wafer.boot.held = false)
    (untested : (s.focusSite site).junction.status = .untested) :
    execSelfTestComplete site .passed s = .next (selfTested .passed (s.focusSite site)) := by
  rw [selfTest_due site .passed s held untested (fun _ => nofun)]
  simp

/-- The rectangle of a quadrant's boot job (R457): 32 by 30 tiles, at the quadrant's place. -/
theorem bootTileOf_shape : ∀ q : BitVec 2, field (bootTileOf q).jshape 0 7 = 32 ∧ field (bootTileOf q).jshape 8 6 = 30 ∧
    field (bootTileOf q).jshape 16 6 = 32 * (q.toNat % 2) ∧ field (bootTileOf q).jshape 24 6 = 30 * (q.toNat / 2) := by
  decide

/-- A site that passes is a reserve under the boot binding, its core 0 at the boot ROM and the others unbound. -/
theorem selfTested_passed (s : State) :
    let u := selfTested .passed s
    u.junction.status = .reserve ∧ u.junction.located = isCorner s.site ∧ u.tile = bootTileOf (quadrant s.site) ∧
    u.coreAt 0 = bootCore ∧ ∀ k : CoreId, k ≠ 0 → (u.coreAt k).run = .unbound := by
  have cores (k : CoreId) : (selfTested .passed s).coreAt k = findCore [(0, bootCore)] k := loadTile_coreAt _ _ _ k
  refine ⟨rfl, rfl, rfl, cores 0, fun k hk => ?_⟩
  rw [cores, findCore, if_neg (Ne.symm hk)]
  rfl

/-- A self-test that does not pass: a corner leaves its quadrant without boot (R458). -/
theorem selfTest_bad {site : SiteId} {s : State} {r : SelfTest} (held : s.wafer.boot.held = false)
    (untested : (s.focusSite site).junction.status = .untested) (bad : r ≠ .passed)
    (fused : isCorner site = true → r ≠ .fused) :
    ∃ u, execSelfTestComplete site r s = .next u ∧ u.junction = (selfTested r (s.focusSite site)).junction ∧
      u.wafer.healing = (selfTested r (s.focusSite site)).wafer.healing ∧
      (isCorner site = true → quadrant site ∈ u.wafer.boot.failed) := by
  have due := selfTest_due site r s held untested fused
  by_cases corner : isCorner site = true
  · simp only [corner, bne_iff_ne.mpr bad, Bool.and_self, if_true] at due
    exact ⟨_, due, rfl, rfl, fun _ => by simp⟩
  · simp only [corner, Bool.false_and, Bool.false_eq_true, if_false] at due
    exact ⟨_, due, rfl, rfl, fun c => absurd c corner⟩

section
variable {site : SiteId} {s : State} (busy : (s.focusSite site).junction.plaBusy = true)
  (begun : (s.focusSite site).junction.plaBegun = true)
include busy begun

/-- A command under way is looked at. -/
theorem completion_guard :
    (!(s.focusSite site).junction.plaBusy || !(s.focusSite site).junction.plaBegun) = false := by
  rw [busy, begun]
  rfl

theorem discover_completion (op : (s.focusSite site).junction.plaOp = 1) :
    execBootCommandCompletion site s = .next (if (s.focusSite site).junction.asked.isEmpty then
      endCommand 0 (mergeEchoes (s.focusSite site)) else s) := by
  simp only [execBootCommandCompletion, completion_guard busy begun, op, Bool.false_eq_true, if_false]
  rfl

theorem ptflood_completion (op : (s.focusSite site).junction.plaOp = 2) :
    execBootCommandCompletion site s = .next (if s.wafer.boot.flooded (quadrant site) then
      endCommand 0 (s.focusSite site) else s) := by
  simp only [execBootCommandCompletion, completion_guard busy begun, op, Bool.false_eq_true, if_false]
  rfl

theorem join_completion (op : (s.focusSite site).junction.plaOp = 4) :
    execBootCommandCompletion site s = .next (finishJoin (s.focusSite site)) := by
  simp only [execBootCommandCompletion, completion_guard busy begun, op, Bool.false_eq_true, if_false]
  rfl

theorem other_completion (op : (s.focusSite site).junction.plaOp = 3 ∨ (s.focusSite site).junction.plaOp = 5) :
    execBootCommandCompletion site s =
      .next (endCommand (s.focusSite site).junction.plaNext (s.focusSite site)) := by
  rcases op with op | op
  · simp only [execBootCommandCompletion, completion_guard busy begun, op, Bool.false_eq_true, if_false]
    rfl
  · simp only [execBootCommandCompletion, completion_guard busy begun, op, Bool.false_eq_true, if_false]
    rfl

end

/-! ### Timeouts (R461, R462) -/

theorem answerTimeout_due {x y : SiteId} {port : Port} {s : State} (hy : neighbour x port = some y)
    (asked : port ∈ (s.focusSite x).junction.asked) (late : (s.focusSite x).junction.since + 2 ^ 12 ≤ s.wafer.clock) :
    execDiscoveryAnswerTimeout x port s = .next (answered port [(y.toNat, 3)] (s.focusSite x)) := by
  simp only [execDiscoveryAnswerTimeout, hy, List.contains_iff_mem.mpr asked, late, decide_true, Bool.and_self, if_true]

theorem answerTimeout_early {x y : SiteId} {port : Port} {s : State} (hy : neighbour x port = some y)
    (h : ¬(port ∈ (s.focusSite x).junction.asked ∧ (s.focusSite x).junction.since + 2 ^ 12 ≤ s.wafer.clock)) :
    execDiscoveryAnswerTimeout x port s = .next s := by
  have guard : ((s.focusSite x).junction.asked.contains port &&
      decide ((s.focusSite x).junction.since + 2 ^ 12 ≤ s.wafer.clock)) = false := by
    rw [← Bool.not_eq_true, Bool.and_eq_true, List.contains_iff_mem, decide_eq_true_eq]
    exact h
  simp only [execDiscoveryAnswerTimeout, hy, guard, Bool.false_eq_true, if_false]

theorem joinTimeout_due {site : SiteId} {s : State} (op : (s.focusSite site).junction.plaOp = 4)
    (busy : (s.focusSite site).junction.plaBusy = true)
    (late : (s.focusSite site).junction.since + 2 ^ 24 ≤ s.wafer.clock) :
    execJoinTimeout site s = .next (endCommand 1 (s.focusSite site)) := by
  simp only [execJoinTimeout, op, busy, late, beq_self_eq_true, decide_true, Bool.and_self, if_true]

theorem joinTimeout_early {site : SiteId} {s : State} (h : (s.focusSite site).junction.plaBusy = false ∨
    (s.focusSite site).junction.plaOp ≠ 4 ∨ s.wafer.clock < (s.focusSite site).junction.since + 2 ^ 24) :
    execJoinTimeout site s = .next s := by
  have guard : ((s.focusSite site).junction.plaBusy && (s.focusSite site).junction.plaOp == 4 &&
      decide ((s.focusSite site).junction.since + 2 ^ 24 ≤ s.wafer.clock)) = false := by
    rcases h with h | h | h
    · rw [h]; rfl
    · rw [beq_eq_false_iff_ne.mpr h, Bool.and_false, Bool.false_and]
    · rw [decide_eq_false (Nat.not_le.mpr h), Bool.and_false]
  simp only [execJoinTimeout, guard, Bool.false_eq_true, if_false]

theorem flashTimeout_retries {site : SiteId} {s : State} (h : (s.focusSite site).junction.starts 3 = true)
    (late : (s.focusSite site).junction.since + 2 ^ 20 ≤ s.wafer.clock) (first : quadrant site ∉ s.wafer.boot.retried) :
    execFlashResponseTimeout site s = .next { s.focusSite site with
      junction := { (s.focusSite site).junction with since := s.wafer.clock }
      wafer := { (s.focusSite site).wafer with boot := { s.wafer.boot with
        retried := s.wafer.boot.retried ++ [quadrant site] } } } := by
  simp only [execFlashResponseTimeout, h, late, decide_true, Bool.and_self, if_true, List.contains_iff_mem, first, if_false]

theorem flashTimeout_fails {site : SiteId} {s : State} (h : (s.focusSite site).junction.starts 3 = true)
    (late : (s.focusSite site).junction.since + 2 ^ 20 ≤ s.wafer.clock) (again : quadrant site ∈ s.wafer.boot.retried) :
    execFlashResponseTimeout site s = .next (endCommand 2 { s.focusSite site with
      wafer := { (s.focusSite site).wafer with boot := s.wafer.boot.answered (quadrant site) } }) := by
  simp only [execFlashResponseTimeout, h, late, decide_true, Bool.and_self, if_true, List.contains_iff_mem, again]

theorem flashTimeout_early {site : SiteId} {s : State} (h : ¬(s.focusSite site).junction.starts 3 = true ∨
    s.wafer.clock < (s.focusSite site).junction.since + 2 ^ 20) : execFlashResponseTimeout site s = .next s := by
  have guard : ((s.focusSite site).junction.starts 3 &&
      decide ((s.focusSite site).junction.since + 2 ^ 20 ≤ s.wafer.clock)) = false := by
    rcases h with h | h
    · rw [Bool.not_eq_true] at h
      rw [h, Bool.false_and]
    · rw [decide_eq_false (Nat.not_le.mpr h), Bool.and_false]
  simp only [execFlashResponseTimeout, guard, Bool.false_eq_true, if_false]

/-- The end of a command leaves the retries of the flash. -/
theorem endCommand_retried (r : BitVec 8) (s : State) : (endCommand r s).wafer.boot.retried = s.wafer.boot.retried := by
  unfold endCommand
  split_ifs <;> rfl

end Sys2Proof.Machine

open Sys2Proof.Machine in
/-- Settles O55: each clause is the lemma about its operation, at the states that the statement names. -/
theorem bootAndReset : Obligations.BootAndReset := by
  unfold Obligations.BootAndReset
  refine ⟨fun s => ⟨?_, ?_⟩, fun site s => ?_, fun site s => ?_, fun id p s x hp => ?_, fun x y port s hy => ?_,
    fun unit kind i s hi => ?_⟩
  · refine ⟨_, rfl, rfl, rfl, rfl, rfl, rfl, rfl, rfl, rfl, rfl, rfl, rfl, rfl, fun k hk => ?_⟩
    exact resetMeasured k hk
  · exact ⟨_, rfl, rfl, rfl, rfl, ⟨fun _ => rfl, fun _ => rfl, fun _ => rfl, fun _ => rfl, rfl⟩⟩
  · intro t q tests corner
    refine ⟨fun held untested => ?_, fun notCorner held untested => ?_, fun held untested => ?_, fun held untested => ?_,
      fun idle r => ⟨s, selfTest_idle site r s idle, rfl⟩⟩
    · have place : (s.focusSite site).site = site := focusSite_site s site
      obtain ⟨status, located, tile, core, others⟩ := selfTested_passed (s.focusSite site)
      obtain ⟨columns, rows, column, row⟩ := bootTileOf_shape q
      rw [place] at located tile
      exact ⟨_, selfTest_passed held untested, status, by rw [located]; exact isCorner_iff site,
        by rw [tile]; rfl, by rw [tile]; rfl, by rw [tile]; exact columns, by rw [tile]; exact rows,
        by rw [tile]; exact column, by rw [tile]; exact row, by rw [core]; rfl, by rw [core]; rfl, by rw [core]; rfl,
        by rw [core]; rfl, by rw [core]; rfl, others⟩
    · obtain ⟨u, run, junction, -, -⟩ := selfTest_bad (r := .fused) held untested nofun
        (fun c => absurd ((isCorner_iff site).mp c) notCorner)
      refine ⟨u, run, ?_, ?_⟩
      · rw [junction]; rfl
      · rw [junction]; rfl
    · obtain ⟨u, run, junction, -, failed⟩ := selfTest_bad (r := .failed) held untested nofun (fun _ => nofun)
      refine ⟨u, run, ?_, ?_, fun c => failed ((isCorner_iff site).mpr c)⟩
      · rw [junction]; rfl
      · rw [junction]; rfl
    · obtain ⟨u, run, junction, healing, failed⟩ :=
        selfTest_bad (r := .deadJunction) held untested nofun (fun _ => nofun)
      refine ⟨u, run, ?_, ?_, fun c => failed ((isCorner_iff site).mpr c)⟩
      · rw [junction]; rfl
      · rw [healing]; simp [selfTested]
  · intro t j q boot starts begun port
    have due (op : BitVec 4) (h : starts op.toNat) : t.junction.starts op = true := (starts_iff j op).mpr h
    have goesOn {u : State} (h : CommandKept t.begin u) (op : Nat) (d : starts op) : begun u := h.of_begin d.1
    refine ⟨fun h => ?_, fun h => ?_, fun h => ⟨fun none => ?_, fun r image fits => ?_⟩, fun h => ?_, fun h => ?_, ?_, ?_,
      ?_, ?_, ?_, ?_, fun k f hf => pointsBlockArrival_takes hf⟩
    · obtain ⟨u, run, command, rest⟩ := discover_begins (due 1 h)
      exact ⟨u, run, goesOn command 1 h, rest⟩
    · obtain ⟨u, run, command, rest⟩ := ptflood_floods (due 2 h)
      exact ⟨u, run, goesOn command 2 h, rest⟩
    · obtain ⟨u, run, command, rest⟩ := loadimg_missing (due 3 h) none
      exact ⟨u, run, goesOn command 3 h, rest⟩
    · obtain ⟨u, run, command, rest⟩ := loadimg_loads (due 3 h) image fits
      exact ⟨u, run, goesOn command 3 h, rest⟩
    · obtain ⟨u, run, command, rest⟩ := join_floods (due 4 h)
      exact ⟨u, run, goesOn command 4 h, rest⟩
    · obtain ⟨u, run, command, rest⟩ := handoff_ends (due 5 h)
      exact ⟨u, run, goesOn command 5 h, rest⟩
    · have idle (op : BitVec 4) (h : ¬starts op.toNat) : ¬t.junction.starts op = true := fun g => h ((starts_iff j op).mp g)
      simp only [List.mem_cons, List.not_mem_nil, or_false, forall_eq_or_imp, forall_eq]
      exact ⟨fun h => ⟨s, (show exec (.discover site) s = execDiscover site s from rfl).trans (startCommand_waits _ (idle 1 h)), rfl⟩,
        fun h => ⟨s, (show exec (.ptflood site) s = execPtflood site s from rfl).trans (startCommand_waits _ (idle 2 h)), rfl⟩,
        fun h => ⟨s, (show exec (.loadimg site) s = execLoadimg site s from rfl).trans (startCommand_waits _ (idle 3 h)), rfl⟩,
        fun h => ⟨s, (show exec (.join site) s = execJoin site s from rfl).trans (startCommand_waits _ (idle 4 h)), rfl⟩,
        fun h => ⟨s, (show exec (.handoff site) s = execHandoff site s from rfl).trans (startCommand_waits _ (idle 5 h)), rfl⟩⟩
    · intro busy under e quiet joined missing
      have place : t.site = site := focusSite_site s site
      have quietIff : s.wafer.boot.flooded q = true ↔ quiet := flooded_iff _ _
      have floodedIff : t.wafer.boot.flooded (quadrant t.site) = true ↔ quiet := by
        rw [focusSite_boot, place]; exact quietIff
      have joinRuns (op : j.plaOp = 4) : exec e s = .next (finishJoin t) := join_completion busy under op
      refine ⟨fun op done => ?_, fun op waits => ?_, fun op h => ?_, fun op h => ?_, fun op => ?_, fun op h all whole => ?_,
        fun op h all short lent => ?_, fun op h => ?_⟩
      · refine ⟨endCommand 0 (mergeEchoes t), (discover_completion busy under op).trans (by rw [if_pos (List.isEmpty_iff.mpr done)]),
          endCommand_ends 0 (mergeEchoes_keeps t).1 (mergeEchoes_keeps t).2, fun x hx => ?_⟩
        rw [endCommand_map]
        exact mergeEchoes_map t x (by rw [place]; exact hx)
      · exact ⟨s, (discover_completion busy under op).trans (by rw [if_neg (fun h => waits (List.isEmpty_iff.mp h))]), rfl⟩
      · exact ⟨endCommand 0 t, (ptflood_completion busy under op).trans (by rw [if_pos (quietIff.mpr h)]), endCommand_ends 0 rfl rfl⟩
      · exact ⟨s, (ptflood_completion busy under op).trans (by rw [if_neg (fun g => h (quietIff.mp g))]), rfl⟩
      · exact ⟨_, other_completion busy under op, endCommand_ends _ rfl rfl⟩
      · have none : t.missingTiles (quadrant t.site) = [] := List.eq_nil_iff_forall_not_mem.mpr (fun l hl =>
          whole l ((mem_missingTiles t q l).mp (by rw [place] at hl; exact hl)))
        exact ⟨endCommand 0 t, (joinRuns op).trans (by rw [finishJoin_whole (floodedIff.mpr h) all none]), endCommand_ends 0 rfl rfl⟩
      · obtain ⟨l, hl⟩ := short
        have some : t.missingTiles (quadrant t.site) ≠ [] :=
          List.ne_nil_of_mem (a := l) (by rw [place]; exact (mem_missingTiles t q l).mpr hl)
        exact ⟨endCommand 1 t, (joinRuns op).trans (by rw [finishJoin_short (floodedIff.mpr h) all some (place.symm ▸ lent)]),
          endCommand_ends 1 rfl rfl⟩
      · exact ⟨t, (joinRuns op).trans (by rw [finishJoin_waits (fun g => h ⟨floodedIff.mp g.1, g.2⟩)]), rfl⟩
    · intro op busy late
      exact ⟨_, joinTimeout_due op busy late, endCommand_ends 1 rfl rfl⟩
    · intro h
      exact ⟨s, joinTimeout_early h, rfl⟩
    · intro h late
      refine ⟨fun first => ?_, fun again => ?_⟩
      · exact ⟨_, flashTimeout_retries (due 3 h) late first, by simp [q], rfl, rfl⟩
      · exact ⟨_, flashTimeout_fails (due 3 h) late again, endCommand_ends 2 rfl rfl, by
          rw [endCommand_retried]; simp [Boot.answered, q]⟩
    · intro h
      exact ⟨s, flashTimeout_early (h.imp (fun n g => n ((starts_iff j 3).mp g)) id), rfl⟩
  · intro t j q others echo
    have place : (t.dropPacket id).site = x := focusSite_site s x
    have gone : Gone id t (t.dropPacket id) := dropPacket_gone t t id
    refine ⟨fun k port hm => ?_, fun port l hm => ?_⟩
    · intro e
      have run := discoveryPacketArrival_runs hp hm
      refine ⟨fun dead => ⟨s.dropPacket id, ?_, dropPacket_gone s s id, rfl⟩, fun alive untested => ⟨s, ?_, rfl⟩,
        fun alive tested => ⟨fun found => ?_, fun new => ?_⟩⟩
      · exact run.trans (by rw [if_pos (List.contains_iff_mem.mpr dead)])
      · exact run.trans (by rw [if_neg (fun h => alive (List.contains_iff_mem.mp h)), if_pos untested])
      · rw [if_neg (fun h => alive (List.contains_iff_mem.mp h)), if_neg tested, discoverHere_found (s := t.dropPacket id) found] at run
        have sends := sendThrough_onlySends port (fun y f => .discoveryEcho y f []) (t.dropPacket id)
        refine ⟨_, run, fun y hy => ?_, sends.junction, sends.gone gone (le_refl _)⟩
        have sent := sendThrough_sent (s := t.dropPacket id) (t := t) (fun y f => .discoveryEcho y f [])
          (by rw [place]; exact hy) (le_refl _)
        rw [place] at sent
        exact sent
      · rw [if_neg (fun h => alive (List.contains_iff_mem.mp h)), if_neg tested] at run
        obtain ⟨only, asked, sent, echoes⟩ := discoverHere_asks (port := port) (s := t.dropPacket id) new
        rw [place] at only asked sent echoes
        refine ⟨_, run, ?_, ?_, ?_, ?_, asked, sent, echoes, only.gone gone (le_refl _)⟩
        · rw [only.junction]; rfl
        · rw [only.junction]; rfl
        · rw [only.junction]; rfl
        · rw [only.junction]
          exact congrArg (fun y : Sys2Proof.SiteId => [(y.toNat, echoState j)]) place
    · intro e
      have run := discoveryEchoArrival_runs hp hm
      refine ⟨fun awaited => ?_, fun other => ?_⟩
      · obtain ⟨only, echoes⟩ := answered_awaited (l := l) (s := t.dropPacket id) awaited
        rw [place] at echoes
        exact ⟨_, run, only.junction, only.gone gone (le_refl _), echoes⟩
      · rw [answered_other (s := t.dropPacket id) l other] at run
        exact ⟨_, run, rfl, gone⟩
  · intro t j due
    refine ⟨fun h => ?_, fun h => ⟨s, ?_, rfl⟩⟩
    · exact ⟨_, answerTimeout_due hy h.1 h.2, (answered_awaited h.1).1.junction⟩
    · exact answerTimeout_early hy h
  · intro old
    refine ⟨fun r image => ?_, fun none => ⟨s, firmware_missing hi none, rfl⟩⟩
    exact ⟨_, firmware_loads hi image, fun k hk => measure_measured s.wafer.boot i r k hk, rfl, rfl,
      fun _ => rfl, fun _ => rfl, fun _ => rfl, fun _ => rfl, rfl⟩

end

