-- ==== Sys2Proof/Proofs/LaunchTeams.lean ====
section
/-!
SUPPORT. The launch command: its checks in their order, the teams of a placed launch at their sites, and the cores that they
start (R105, R344 to R348).
-/
namespace Sys2Proof.Machine

set_option Elab.async false

/-! ### Completions (R472) -/

theorem complete_completes {s v : State} (h : v.wafer.completions = s.wafer.completions) (tag : W32) (k : Nat)
    (vs : List Nat) (bs : List Byte) : Completes tag k s (v.complete tag k vs bs) :=
  ⟨_, congrArg (· ++ _) h, rfl, rfl⟩

theorem accept_completes {s v : State} (h : v.wafer.completions = s.wafer.completions) (tag : W32) :
    Completes tag 0 s (v.accept tag) := complete_completes h tag 0 [] []

theorem turnDown_completes (s : State) (tag : W32) (code : Nat) : ∃ k, Completes tag k s (s.turnDown tag code) :=
  ⟨_, complete_completes rfl tag _ [] []⟩

/-! ### The checks of a launch (R344, R346) -/

theorem carry_focusSite (s : State) (p : BitVec 3) (x : SiteId) : (s.carry p).focusSite x = (s.focusSite x).carry p :=
  focusSite_mapWafer (f := fun w => { w with rim := { w.rim with carried := w.rim.carried ||| (1 <<< p.toNat) } })
    (fun _ _ => rfl) s x

theorem idleJob_carry (s : State) (p : BitVec 3) (k : Job) : (s.carry p).idleJob k = s.idleJob k := by
  simp only [State.idleJob, carry_focusSite]
  rfl

theorem jobBytes_carry (s : State) (p : BitVec 3) : (s.carry p).jobBytes = s.jobBytes := rfl

theorem launchStatus_carry (s : State) (p : BitVec 3) : (s.carry p).launchStatus = s.launchStatus := rfl

/-- A launch that the stations take up. -/
theorem launch_taken (c : LaunchCmd) {s : State} (ready : ∀ q, q ∈ s.wafer.boot.handedOff) :
    exec (.launch c) s = .next (launchNow c (s.carry c.port)) := by
  have h : (s.carry c.port).stationsReady = true := (stationsReady_iff _).mpr ready
  have run : exec (.launch c) s = execLaunch c s := rfl
  rw [run, execLaunch]
  simp only [h, if_true]

/-- A launch that waits for the last hand-off. -/
theorem launch_waits (c : LaunchCmd) {s : State} {q : BitVec 2} (h : q ∉ s.wafer.boot.handedOff) :
    exec (.launch c) s = .next { s.carry c.port with wafer := { (s.carry c.port).wafer with
      boot := { s.wafer.boot with waiting := s.wafer.boot.waiting ++ [c] } } } := by
  have notReady : (s.carry c.port).stationsReady = false :=
    Bool.eq_false_iff.mpr (fun r => h ((stationsReady_iff _).mp r q))
  have run : exec (.launch c) s = execLaunch c s := rfl
  rw [run, execLaunch]
  simp only [notReady, Bool.false_eq_true, if_false]
  rfl

theorem levelOk_iff (s : State) (c : LaunchCmd) :
    s.levelOk c = true ↔ c.level = 0 ∨ (c.level = 1 ∧ s.wafer.rim.supervisor.getLsbD c.port.toNat = true) := by
  simp [State.levelOk]

theorem launchNow_level {c : LaunchCmd} {s : State} (h : ¬s.levelOk c = true) :
    launchNow c s = s.complete c.tag 8 [] [] := by
  simp only [launchNow, h, Bool.not_false, if_true]

section
variable {c : LaunchCmd} {s : State} {b : List Byte} (level : s.levelOk c = true)
  (bytes : s.jobBytes (s.jobFor c).root (s.jobFor c).jshape c.desc.toNat 128 = some b)
include level bytes

/-- A launch whose descriptor fails a check ends with the status of the first. -/
theorem launchNow_fails (h : s.launchStatus c (readDesc b) (s.jobFor c) ≠ 0) :
    launchNow c s = s.complete c.tag (s.launchStatus c (readDesc b) (s.jobFor c)) [] [] := by
  simp only [launchNow, level, Bool.not_true, Bool.false_eq_true, if_false, bytes]
  cases c.hbm
  · rfl
  · exact if_pos h

/-- A launch that passes its checks and finds its sites is placed. -/
theorem launchNow_places {a : LaunchHbm} {v : State} (hbm : c.hbm = some a)
    (status : s.launchStatus c (readDesc b) (s.jobFor c) = 0)
    (idle : (s.inTheWay (s.jobFor c)).all s.idleJob = true)
    (placed : placeLaunch c (readDesc b) (s.jobFor c) a s = some v) : launchNow c s = v.accept c.tag := by
  simp only [launchNow, level, Bool.not_true, Bool.false_eq_true, if_false, bytes, hbm, status, ne_eq, not_true_eq_false,
    idle, placed]

end

section
variable {c : LaunchCmd} {d : LaunchDesc} {j : Job} {s : State}

theorem launchStatus_magic (h : ¬(d.magic = 0x51444553 ∧ d.version = 1)) : s.launchStatus c d j = 1 := by
  have : (decide (d.magic ≠ 0x51444553) || decide (d.version ≠ 1)) = true := by
    simpa [or_iff_not_imp_left] using h
  simp only [State.launchStatus, this, if_true]

theorem launchStatus_reserved (h : d.magic = 0x51444553 ∧ d.version = 1) (clean : d.clean = false) :
    s.launchStatus c d j = 2 := by
  simp [State.launchStatus, h, clean]

theorem launchStatus_cores (h : d.magic = 0x51444553 ∧ d.version = 1) (clean : d.clean = true) (none : d.cores = 0) :
    s.launchStatus c d j = 3 := by
  simp [State.launchStatus, h, clean, none]

theorem launchStatus_odd (h : d.magic = 0x51444553 ∧ d.version = 1) (clean : d.clean = true) (some : d.cores ≠ 0)
    (odd : ¬(d.entry.getLsbD 0 = false ∧ c.handler.getLsbD 0 = false)) : s.launchStatus c d j = 4 := by
  have bit : (d.entry.getLsbD 0 || c.handler.getLsbD 0) = true := by
    rw [← Bool.not_eq_false, Bool.or_eq_false_iff]
    exact odd
  simp only [State.launchStatus, h, clean, some, bit, ne_eq, not_true_eq_false, decide_false, Bool.or_false,
    Bool.not_true, Bool.false_eq_true, if_false, if_true]

/-- A launch that passes its checks has a rectangle, and window stacks within the scratchpad (R17, R105). -/
theorem launchStatus_zero (h : s.launchStatus c d j = 0) :
    rectOk { jshape := j.jshape } = true ∧ d.wstackOk = true ∧ d.w ≠ 0 ∧ d.h ≠ 0 := by
  unfold State.launchStatus at h
  dsimp only at h
  split_ifs at h
  simp_all

end

/-- A launch number is never zero (R347). -/
theorem nextLaunch_ne_zero (w : Wafer) (j : Job) : w.nextLaunch j ≠ 0 := by
  have nonzero (k : Nat) : BitVec.ofNat 20 ((j.lastLaunch.toNat + k) % (2 ^ 20 - 1) + 1) ≠ 0 := by
    have lt : (j.lastLaunch.toNat + k) % (2 ^ 20 - 1) < 2 ^ 20 - 1 := Nat.mod_lt _ (by decide)
    intro h
    have := congrArg BitVec.toNat h
    rw [BitVec.toNat_ofNat, Nat.mod_eq_of_lt (by omega)] at this
    exact Nat.succ_ne_zero _ this
  unfold Wafer.nextLaunch
  extract_lets n
  rcases hf : ((List.range (w.launches.length + 1)).map n).find? (fun m => (w.launch j.job m).isNone) with _ | m
  · exact nonzero 0
  · obtain ⟨k, -, rfl⟩ := List.mem_map.mp (List.mem_of_find?_eq_some hf)
    exact nonzero k

/-! ### The core that a bind record starts (R348, R353) -/

theorem setReg_regs (c : Core) (r : BitVec 5) (v : Word) : c.setReg r v = { c with regs := (c.setReg r v).regs } := by
  unfold Core.setReg
  split_ifs <;> rfl

/-- The first input register of a core outside a trap reads what was written to it. -/
theorem reg_setReg_a0 (c : Core) (v : Word) (h : c.inTrap = false) : (c.setReg 8 v).reg 8 = v := by
  have cwp := c.win.cwp.isLt
  have trap : (c.setReg 8 v).inTrap = false := by rw [setReg_regs]; exact h
  have win : (c.setReg 8 v).win = c.win := by rw [setReg_regs]
  have small : frameIndex c.win.cwp 8 < 256 := by
    simp only [frameIndex]
    simp
    omega
  simp only [Core.reg, trap, win]
  simp only [Core.setReg, h]
  simpa using vget_vset_same _ _ _ _ small

/-- The core that a record starts, but for its registers. -/
theorem startedCore_fields (r : BindRecord) (n : Nat) :
    let c := startedCore r n
    c.pc = r.entry ∧ c.level = levelOf n r.level ∧ c.run = (if r.server then .idleServer else .running) ∧
    c.win.wsp = storedWindow (zext64 r.wbase) ∧ c.win.wslim = storedWindow (zext64 r.wlimit) ∧
    c.trap.tvec = storedAddr r.tvec ∧ c.slot = some r ∧ c.reg 8 = r.arg := by
  refine ⟨?_, ?_, ?_, ?_, ?_, ?_, ?_, reg_setReg_a0 _ _ (by simp [Core.inTrap])⟩ <;> rw [startedCore, setReg_regs]

/-! ### Binding the cores of a team (R347, R348) -/

/-- The tile in focus is one of the job's. -/
def State.isTileOf (s : State) (job : BitVec 6) (jshape : Word) : Prop := s.tile.job = some job ∧ s.tile.jshape = jshape

theorem belongs_iff (s : State) (r : BindRecord) : s.belongs r = true ↔ s.isTileOf r.job r.jshape := by
  simp [State.belongs, State.isTileOf]

theorem claimTile_isTileOf (r : BindRecord) (g : CoreId → W32) (s : State) : (claimTile r g s).isTileOf r.job r.jshape := by
  have given : (giveTile r s).isTileOf r.job r.jshape := by
    unfold giveTile
    split_ifs with h
    · exact h
    · exact ⟨rfl, rfl⟩
  unfold claimTile
  split_ifs
  · exact given
  · exact given

theorem claimTile_free (r : BindRecord) (g : CoreId → W32) (s : State) : (claimTile r g s).wafer = s.wafer := by
  unfold claimTile giveTile
  split_ifs <;> rfl

/-- A tile that is the job's stays as it is, but for the class, the job tile, the record and the far cache. -/
theorem claimTile_belongs {r : BindRecord} {s : State} (g : CoreId → W32) (h : s.isTileOf r.job r.jshape) :
    claimTile r g s =
      { s with tile := { s.tile with prio := r.prio, jt := r.team.setWidth 12, record := r.tileRecord }.farEmpty } := by
  rw [claimTile, if_pos ((belongs_iff s r).mpr h), giveTile]
  exact if_pos h

/-- A core that is bound is the one that its record starts, and the tile is the job's. -/
theorem bindCore_binds (c : CoreId) (r : BindRecord) (s : State) :
    (bindCore c r s).isTileOf r.job r.jshape ∧ (bindCore c r s).coreAt c = startedCore r s.wafer.free := by
  have tile := claimTile_isTileOf r (fun _ => r.team) s
  unfold bindCore
  refine ⟨⟨by rw [updCore_tile]; exact tile.1, by rw [updCore_tile]; exact tile.2⟩, ?_⟩
  rw [coreAt_updCore, if_pos rfl, claimTile_free]

/-- On a tile of the job, binding a core keeps the other cores, the memory, and the job tile that the record names. -/
theorem bindCore_belongs {r : BindRecord} {s : State} (c : CoreId) (h : s.isTileOf r.job r.jshape) :
    (∀ k, k ≠ c → (bindCore c r s).coreAt k = s.coreAt k) ∧ (bindCore c r s).tile.mem = s.tile.mem ∧
    (bindCore c r s).tile.jt = r.team.setWidth 12 := by
  unfold bindCore
  rw [claimTile_belongs _ h]
  refine ⟨fun k hk => ?_, by rw [updCore_tile]; rfl, by rw [updCore_tile]; rfl⟩
  rw [coreAt_updCore, if_neg hk]
  rfl

section
variable {job : BitVec 6} {jshape : Word} {f : CoreId → BindRecord}
  (hf : ∀ n, (f n).job = job ∧ (f n).jshape = jshape)
include hf

/-- A core that has been bound stays so while the other cores of the team are bound. -/
theorem bindCores_keep (ns : List CoreId) (n : CoreId) (s : State) (tile : s.isTileOf job jshape)
    (bound : ∃ k, s.coreAt n = startedCore (f n) k) :
    ∃ k, (ns.foldl (fun s m => bindCore m (f m) s) s).coreAt n = startedCore (f n) k := by
  induction ns generalizing s with
  | nil => exact bound
  | cons m r ih =>
    obtain ⟨hjob, hshape⟩ := hf m
    obtain ⟨tile', core⟩ := bindCore_binds m (f m) s
    rw [hjob, hshape] at tile'
    refine ih _ tile' ?_
    by_cases e : n = m
    · subst e; exact ⟨_, core⟩
    · rw [(bindCore_belongs m (by rw [hjob, hshape]; exact tile)).1 n e]
      exact bound

/-- Every core of the team is the one that its record starts. -/
theorem bindCores_bind {ns : List CoreId} {n : CoreId} (hn : n ∈ ns) (s : State) :
    ∃ k, (ns.foldl (fun s m => bindCore m (f m) s) s).coreAt n = startedCore (f n) k := by
  induction ns generalizing s with
  | nil => cases hn
  | cons m r ih =>
    by_cases e : n = m
    · subst e
      obtain ⟨hjob, hshape⟩ := hf n
      obtain ⟨tile, core⟩ := bindCore_binds n (f n) s
      rw [hjob, hshape] at tile
      exact bindCores_keep hf r n _ tile ⟨_, core⟩
    · exact ih ((List.mem_cons.mp hn).resolve_left e) _

/-- Binding the cores of a team keeps the memory and the job tile of a tile that is the job's. -/
theorem bindCores_tile {ns : List CoreId} {jt : TileNo} (s : State) (tile : s.isTileOf job jshape) (hjt : s.tile.jt = jt)
    (team : ∀ n, (f n).team.setWidth 12 = jt) :
    let u := ns.foldl (fun s m => bindCore m (f m) s) s
    u.isTileOf job jshape ∧ u.tile.jt = jt ∧ u.tile.mem = s.tile.mem := by
  induction ns generalizing s with
  | nil => exact ⟨tile, hjt, rfl⟩
  | cons m r ih =>
    obtain ⟨hjob, hshape⟩ := hf m
    obtain ⟨-, mem, jt'⟩ := bindCore_belongs m (s := s) (r := f m) (by rw [hjob, hshape]; exact tile)
    obtain ⟨tile', -⟩ := bindCore_binds m (f m) s
    rw [hjob, hshape] at tile'
    obtain ⟨a, b, c⟩ := ih _ tile' (jt'.trans (team m))
    exact ⟨a, b, c.trans mem⟩

end

/-! ### The team of a launch at a site (R347, R348) -/

/-- The record of a core names the job tile on which it was made. -/
theorem launchRecord_jt (s : State) (c : LaunchCmd) (d : LaunchDesc) (j : Job) (l : Launch) (a : LaunchHbm) (n : CoreId) :
    (s.launchRecord c d j l a n).team.setWidth 12 = s.tile.jt := by
  apply BitVec.eq_of_toNat_eq
  have lt := s.tile.jt.isLt
  simp only [State.launchRecord, BitVec.toNat_setWidth, BitVec.toNat_ofNat]
  omega

/-- Queueing a team changes nothing of the tile. -/
theorem queueTeam_tile (rs : List (CoreId × BindRecord)) (s : State) : (queueTeam rs s).tile = s.tile := by
  have fold (n : Nat) (l : List (CoreId × BindRecord)) (s : State) :
      (l.foldl (fun (s : State) (r : CoreId × BindRecord) =>
        let t := s.focusCore r.1
        let saved := ({ t with core := startedCore r.2 n }).saveCore r.2.save.toNat []
        ({ saved with core := t.core }).focusCore s.coreNo) s).tile = s.tile := by
    induction l generalizing s with
    | nil => rfl
    | cons r l ih =>
      rw [List.foldl_cons, ih, focusCore_tile]
      exact focusCore_tile s r.1
  unfold queueTeam
  split
  · rfl
  · exact fold _ _ s

theorem bindImage_keeps (e : BitVec 16) (s : State) :
    (bindImage e s).tile = s.tile ∧ ∀ k, (bindImage e s).coreAt k = s.coreAt k := by
  unfold bindImage
  dsimp only
  split <;> exact ⟨rfl, fun _ => rfl⟩

/-- Of a list of cores that are changed each is the changed one, or was and is at reset. -/
theorem findCore_map (f : Core → Core) (k : CoreId) (l : List (CoreId × Core)) :
    findCore (l.map (fun p => (p.1, f p.2))) k = f (findCore l k) ∨
      (findCore l k = {} ∧ findCore (l.map (fun p => (p.1, f p.2))) k = {}) := by
  induction l with
  | nil => exact .inr ⟨rfl, rfl⟩
  | cons p r ih =>
    simp only [List.map_cons, findCore]
    split_ifs
    · exact .inl rfl
    · exact ih

/-- A change of every core of the tile changes each core, but for one that is not listed and stands at reset. -/
theorem updCores_coreAt (s : State) (f : Core → Core) (k : CoreId) :
    (s.updCores f).coreAt k = f (s.coreAt k) ∨ (s.coreAt k = {} ∧ (s.updCores f).coreAt k = {}) := by
  by_cases h : k = s.coreNo
  · exact .inl (by simp [State.updCores, State.coreAt, h])
  · rw [show s.coreAt k = findCore s.others k from if_neg h,
      show (s.updCores f).coreAt k = findCore (s.others.map (fun p => (p.1, f p.2))) k from if_neg h]
    exact findCore_map f k s.others

/-- A request for a boundary only asks the cores to stop. -/
theorem requestBoundary_coreAt (s : State) (k : CoreId) :
    ∃ b, s.requestBoundary.coreAt k = { s.coreAt k with stopAsked := b } := by
  unfold State.requestBoundary
  dsimp only
  split_ifs
  · exact ⟨(s.coreAt k).stopAsked, rfl⟩
  · rcases updCores_coreAt { s with tile := { s.tile with closeAsked := true } } Core.askStop k with h | ⟨h, g⟩
    · exact ⟨true, h⟩
    · exact ⟨false, by rw [g, show s.coreAt k = {} from h]⟩

theorem requestBoundary_tile (s : State) : s.requestBoundary.tile = { s.tile with closeAsked := true } := by
  unfold State.requestBoundary
  dsimp only
  split_ifs <;> rfl

section
variable (c : LaunchCmd) (d : LaunchDesc) (j : Job) (l : Launch) (a : LaunchHbm) (new : Bool) {s : State}

/-- The team bound, or queued for its slots, before its tile commits or takes a boundary. -/
def State.boundTeam (s : State) : State :=
  let rs := (coresOf d.cores).map (fun n => (n, s.launchRecord c d j l a n))
  if rs.all (fun r => (s.coreAt r.1).slot.isNone) then rs.foldl (fun s r => bindCore r.1 r.2 s) s else queueTeam rs s

theorem bindTeam_eq (s : State) : bindTeam c d j l a new s =
    let t := s.boundTeam c d j l a
    if new then bindImage j.epoch t else if t.keepsWaybill then t.requestBoundary else t := rfl

/-- The team's tile stays the job's, with its job tile and its memory. -/
theorem bindTeam_tile (tile : s.isTileOf j.job j.jshape) :
    let u := bindTeam c d j l a new s
    u.isTileOf j.job j.jshape ∧ u.tile.jt = s.tile.jt ∧ u.tile.mem = s.tile.mem := by
  have bound : (s.boundTeam c d j l a).isTileOf j.job j.jshape ∧ (s.boundTeam c d j l a).tile.jt = s.tile.jt ∧
      (s.boundTeam c d j l a).tile.mem = s.tile.mem := by
    unfold State.boundTeam
    dsimp only
    split_ifs
    · rw [List.foldl_map]
      exact bindCores_tile (f := s.launchRecord c d j l a) (fun _ => ⟨rfl, rfl⟩) s tile rfl (launchRecord_jt s c d j l a)
    · rw [State.isTileOf, queueTeam_tile]
      exact ⟨tile, rfl, rfl⟩
  rw [bindTeam_eq]
  dsimp only
  split_ifs
  · rw [State.isTileOf, (bindImage_keeps _ _).1]
    exact bound
  · rw [State.isTileOf, requestBoundary_tile]
    exact bound
  · exact bound

/-- With free slots, each core of the team is the one that its record starts, at most asked to stop. -/
theorem bindTeam_core {n : CoreId} (hn : n ∈ coresOf d.cores) (free : ∀ m ∈ coresOf d.cores, (s.coreAt m).slot = none) :
    ∃ k b, (bindTeam c d j l a new s).coreAt n = { startedCore (s.launchRecord c d j l a n) k with stopAsked := b } := by
  have all : ((coresOf d.cores).map (fun n => (n, s.launchRecord c d j l a n))).all
      (fun r => (s.coreAt r.1).slot.isNone) = true := by
    simpa [List.all_eq_true] using free
  obtain ⟨k, hk⟩ : ∃ k, (s.boundTeam c d j l a).coreAt n = startedCore (s.launchRecord c d j l a n) k := by
    rw [State.boundTeam, if_pos all, List.foldl_map]
    exact bindCores_bind (f := s.launchRecord c d j l a) (fun _ => ⟨rfl, rfl⟩) hn s
  rw [bindTeam_eq]
  dsimp only
  split_ifs
  · exact ⟨k, _, by rw [(bindImage_keeps _ _).2, hk]⟩
  · obtain ⟨b, hb⟩ := requestBoundary_coreAt (s.boundTeam c d j l a) n
    exact ⟨k, b, by rw [hb, hk]⟩
  · exact ⟨k, _, hk⟩

end

/-! ### The sites of a launch -/

/-- The tiles of a job that all stand somewhere, in their order. -/
theorem mapM_pairs {g : Nat → Option SiteId} {l : List Nat} {ps : List (Nat × SiteId)}
    (h : l.mapM (fun n => (g n).map (fun x => (n, x))) = some ps) : ps.map (·.1) = l ∧ ∀ p ∈ ps, g p.1 = some p.2 := by
  induction l generalizing ps with
  | nil =>
    cases h
    exact ⟨rfl, fun _ h => absurd h List.not_mem_nil⟩
  | cons n r ih =>
    simp only [List.mapM_cons, Option.bind_eq_bind, Option.bind_eq_some_iff, Option.map_eq_some_iff] at h
    obtain ⟨p, ⟨x, hx, rfl⟩, qs, hqs, hps⟩ := h
    cases hps
    obtain ⟨keys, each⟩ := ih hqs
    refine ⟨by rw [List.map_cons, keys], fun p hp => ?_⟩
    rcases List.mem_cons.mp hp with rfl | hp
    · exact hx
    · exact each p hp

/-- The site of job tile 0, among the sites of a job with tiles. -/
theorem sitesOf_first {j : Job} {s : State} {ps : List (Nat × SiteId)} {x : SiteId} (h : s.sitesOf j = some ps)
    (tiles : 0 < ({ jshape := j.jshape } : Tile).tiles)
    (hx : s.standsAt (({ jshape := j.jshape } : Tile).logical 0) = some x) :
    ps.filter (fun p => [0].contains p.1) = [(0, x)] := by
  obtain ⟨keys, each⟩ := mapM_pairs h
  obtain ⟨m, hm⟩ := Nat.exists_eq_succ_of_ne_zero (Nat.pos_iff_ne_zero.mp tiles)
  rw [hm, List.range_succ_eq_map] at keys
  cases ps with
  | nil => cases keys
  | cons p r =>
    rw [List.map_cons, List.cons.injEq] at keys
    obtain ⟨zero, others⟩ := keys
    have site : p.2 = x := by
      have := each p List.mem_cons_self
      rw [zero, hx] at this
      exact (Option.some.inj this).symm
    have rest : r.filter (fun p => [0].contains p.1) = [] := by
      rw [List.filter_eq_nil_iff]
      intro q hq
      have hmem : q.1 ∈ (List.range m).map Nat.succ := others ▸ List.mem_map_of_mem hq
      obtain ⟨k, -, hk⟩ := List.mem_map.mp hmem
      simp [← hk]
    rw [List.filter_cons, rest, zero]
    simp [← site, ← zero]

/-! ### Placed launches -/

/-- The tiles of a placed launch's job, and a job that is bound already or has nobody in its way. -/
theorem inTheWay_of_bound {s : State} {j : Job} (h : (s.wafer.job j.job).isSome = true) : s.inTheWay j = [] := by
  rw [State.inTheWay, if_pos h]

/-- A bound job's launch on one tile: the cores of its team there (R348). -/
theorem placeLaunch_core {c : LaunchCmd} {d : LaunchDesc} {j : Job} {a : LaunchHbm} {s v : State} {x : SiteId}
    {n : CoreId} (h : placeLaunch c d j a s = some v) (bound : (s.wafer.job j.job).isSome = true)
    (tiles : 0 < ({ jshape := j.jshape } : Tile).tiles) (hw : d.w = 1) (hh : d.h = 1)
    (hx : s.standsAt (({ jshape := j.jshape } : Tile).logical 0) = some x) (hn : n ∈ coresOf d.cores)
    (free : ∀ m ∈ coresOf d.cores, (s.coreOfSite x m).slot = none) :
    ∃ (t : State) (l : Launch) (k : Nat) (b : Bool),
      v.coreOfSite x n = { startedCore (t.launchRecord c d j l a n) k with stopAsked := b } := by
  obtain ⟨ps, hps, l, s₃, -, -, -, -, -, -, hlive, -, trees, rfl⟩ := placeLaunch_steps h
  rw [inTheWay_of_bound bound, List.foldl_nil] at hps trees ⊢
  have old : (s.wafer.job j.job).isNone = false := by rw [← Option.not_isSome, bound]; rfl
  rw [old] at trees ⊢
  have live : l.live = [0] := by rw [hlive]; simp [LaunchDesc.tiles, hw, hh]
  rw [live, sitesOf_first hps tiles hx, List.foldl_cons, List.foldl_nil, atSite_coreOfSite]
  have place := (bindTeam_onlyBinds c d j l a false (s₃.focusSite x)).site
  rw [focusSite_site] at place
  rw [coreOfSite_of_site place]
  have free₃ : ∀ m ∈ coresOf d.cores, ((s₃.focusSite x).coreAt m).slot = none := fun m hm => by
    rw [focusSite_coreAt, trees.cores]
    exact free m hm
  obtain ⟨k, b, core⟩ := bindTeam_core c d j l a false hn free₃
  exact ⟨_, l, k, b, core⟩

/-- A tile that is job tile 0 of a job, and cleared. -/
structure Tile.Given (t : Tile) (j : Job) : Prop where
  job : t.job = some j.job
  jshape : t.jshape = j.jshape
  jt : t.jt = 0
  mem : t.mem = []

/-- A tile that has just been given to a job. -/
theorem giveJobTile_tile (j : Job) (a : LaunchHbm) (s : State) (x : SiteId) :
    ((giveJobTile j a s (0, x)).tileAt x).Given j := by
  generalize ht : (giveJobTile j a s (0, x)).tileAt x = t
  have tile : t = freshTile (s.focusSite x).tile j.job j.prio 0 j.jshape (BitVec.ofNat 64 (a.record + 0x80000 * 0)) j.epoch
      (j.quota, j.ckctl) (s.focusSite x).wafer.clock := by
    refine ht.symm.trans ((atSite_tileAt _ _ _ _).trans ((tileAt_of_site ?_).trans (bindImage_keeps _ _).1))
    exact ((bindImage_onlyBinds _ _).site).trans (focusSite_site s x)
  rw [tile]
  exact ⟨rfl, rfl, rfl, rfl⟩

/-- The tiles of a job that is bound are those that it is given. -/
theorem bindJob_tileAt (j : Job) (a : LaunchHbm) (ps : List (Nat × SiteId)) (s : State) (y : SiteId) :
    (bindJob j a ps s).tileAt y = (ps.foldl (giveJobTile j a)
      { s with wafer := { s.wafer with jobs := s.wafer.jobs ++ [{ j with depotAt := s.wafer.clock }] } }).tileAt y := by
  have outside (v : State) (w : Wafer) (h : w.sites = v.wafer.sites) : ({ v with wafer := w } : State).tileAt y = v.tileAt y := by
    simp only [State.tileAt, h]
  unfold bindJob
  exact outside _ _ rfl

theorem withLaunch_tileAt (s : State) (j : Job) (l : Launch) (y : SiteId) : (s.withLaunch j l).tileAt y = s.tileAt y := rfl

/-- A new job of one tile: the tile where it stands is its own, and cleared (R17, R347). -/
theorem placeLaunch_tile {c : LaunchCmd} {d : LaunchDesc} {j : Job} {a : LaunchHbm} {s v : State} {x : SiteId}
    (h : placeLaunch c d j a s = some v) (new : s.wafer.job j.job = none) (alone : s.inTheWay j = [])
    (tiles : ({ jshape := j.jshape } : Tile).tiles = 1)
    (hx : s.standsAt (({ jshape := j.jshape } : Tile).logical 0) = some x) :
    (v.tileAt x).Given j := by
  obtain ⟨ps, hps, l, s₃, -, -, -, -, -, -, -, -, trees, rfl⟩ := placeLaunch_steps h
  clear h
  rw [alone, List.foldl_nil] at hps trees ⊢
  rw [new, Option.isNone_none] at trees ⊢
  rw [if_pos rfl] at trees
  obtain ⟨keys, each⟩ := mapM_pairs hps
  rw [tiles, List.range_one] at keys
  obtain ⟨p, rfl, zero⟩ := List.map_eq_singleton_iff.mp keys
  have site : p = (0, x) := by
    have := each p List.mem_cons_self
    rw [zero, hx] at this
    exact Prod.ext zero (Option.some.inj this).symm
  subst site
  have given : (s₃.tileAt x).Given j := by
    rw [trees.tiles, withLaunch_tileAt, bindJob_tileAt]
    exact giveJobTile_tile ..
  have team : ((s₃.atSite x (bindTeam c d j l a true)).tileAt x).Given j := by
    have place := (bindTeam_onlyBinds c d j l a true (s₃.focusSite x)).site
    rw [focusSite_site] at place
    rw [← focusSite_tile] at given
    obtain ⟨⟨job, shape⟩, jt, mem⟩ := bindTeam_tile c d j l a true (s := s₃.focusSite x) ⟨given.job, given.jshape⟩
    rw [atSite_tileAt, tileAt_of_site place]
    exact ⟨job, shape, jt.trans given.jt, mem.trans given.mem⟩
  rw [List.filter_cons]
  split_ifs
  · exact team
  · exact given

theorem rectOk_tiles {t : Tile} (h : rectOk t = true) : 0 < t.tiles := by
  simp only [rectOk, Bool.and_eq_true, decide_eq_true_eq] at h
  obtain ⟨⟨⟨⟨⟨wide, -⟩, high⟩, -⟩, -⟩, -⟩ := h
  exact Nat.mul_pos wide high

/-- The level of a launch's cores (R346). -/
theorem launch_level (k : Nat) {n : Nat} (h : n = 0 ∨ n = 1) :
    levelOf k (BitVec.ofNat 2 n) = if n = 1 then .S else .J := by
  rcases h with rfl | rfl <;> rfl

/-! ### Window stacks (R105, R345) -/

/-- An address of whole lines within the scratchpad fits a window register. -/
theorem storedWindow_toNat {v : Nat} (small : v ≤ 0x600000) (lines : v % 128 = 0) :
    (storedWindow (zext64 (BitVec.ofNat 32 v))).toNat = v := by
  obtain ⟨k, rfl⟩ := Nat.dvd_of_mod_eq_zero lines
  have mask : (128 * k) &&& 0x7FFF80 = 128 * k := by
    have h := Nat.shiftLeft_and_distrib (a := k) (b := 0xFFFF) (i := 7)
    rw [show (0xFFFF : Nat) = 2 ^ 16 - 1 from rfl, Nat.and_two_pow_sub_one_eq_mod, Nat.mod_eq_of_lt (by omega)] at h
    simp only [Nat.shiftLeft_eq] at h
    norm_num at h
    rw [Nat.mul_comm 128 k]
    exact h.symm
  simp only [storedWindow, zext64, BitVec.toNat_and, BitVec.toNat_setWidth, BitVec.toNat_ofNat]
  rw [Nat.mod_eq_of_lt (by omega : 128 * k < 2 ^ 32), Nat.mod_eq_of_lt (by omega : 128 * k < 2 ^ 64)]
  exact mask

/-- The window registers of a launch's core (R345). -/
theorem launch_windows {d : LaunchDesc} {n : CoreId} (ok : d.wstackOk = true) (hn : n ∈ coresOf d.cores) :
    (storedWindow (zext64 (BitVec.ofNat 32 (windowRegion n d.wstack).1))).toNat = 0x600000 - (n.toNat + 1) * d.wstack ∧
    (storedWindow (zext64 (BitVec.ofNat 32 (windowRegion n d.wstack).2))).toNat = 0x600000 - n.toNat * d.wstack := by
  simp only [LaunchDesc.wstackOk, Bool.and_eq_true, beq_iff_eq, decide_eq_true_eq, List.all_eq_true] at ok
  obtain ⟨⟨⟨lines, -⟩, -⟩, fits⟩ := ok
  have fit := fits n hn
  have whole (m : Nat) : (m * d.wstack) % 128 = 0 := by rw [Nat.mul_mod, lines]; rfl
  have low := whole (n.toNat + 1)
  have high := whole n.toNat
  have less : n.toNat * d.wstack ≤ (n.toNat + 1) * d.wstack := Nat.mul_le_mul_right _ (Nat.le_succ _)
  exact ⟨storedWindow_toNat (Nat.sub_le _ _) (by change (0x600000 - _) % 128 = 0; omega),
    storedWindow_toNat (Nat.sub_le _ _) (by change (0x600000 - _) % 128 = 0; omega)⟩

end Sys2Proof.Machine
end

