-- ==== Sys2Proof/Proofs/Commands.lean ====
section
/-!
SUPPORT. The other commands of the host: answers to fault records, page-table changes, cleared sites, attestation,
thresholds and the power limit, and what the host writes (R144, R146, R286, R312, R452, R470 to R477).
-/
namespace Sys2Proof.Machine

set_option Elab.async false

/-! ### Cells in a memory -/

theorem cellByte_foldl (l : List Host.Cell) (b : Nat) (r : Option Byte) :
    l.foldl (fun r c => if c.1 = b then some c.2 else r) r = (cellByte l b).or r := by
  induction l generalizing r with
  | nil => rfl
  | cons c l ih =>
    rw [cellByte, List.foldl_cons, List.foldl_cons, ih, ih, Option.or_assoc]
    split_ifs <;> simp

theorem cellByte_cons (a : Nat) (v : Byte) (l : List Host.Cell) (b : Nat) :
    cellByte ((a, v) :: l) b = (cellByte l b).or (if a = b then some v else none) := cellByte_foldl l b _

/-- Writing cells leaves in the memory what the cells say. -/
theorem writeCells_holds (m : Memory) (l : List Host.Cell) : HoldsCells l m (m.writeCells l) := by
  induction l generalizing m with
  | nil => exact fun _ => rfl
  | cons c l ih =>
    intro b
    obtain ⟨a, v⟩ := c
    rw [writeCells_cons, ih, read_write, cellByte_cons]
    cases cellByte l b
    · by_cases h : a = b
      · simp [h]
      · simp [h, Ne.symm h]
    · rfl

/-! ### Answers to fault records (R286, R312) -/

theorem focus_core (s : State) (x : SiteId) (c : CoreId) : (s.focus x c).core = s.coreOfSite x c := by
  have h := coreOfSite_of_site (focus_site s x c) c
  rw [focus_coreOfSite] at h
  rw [h, ← coreAt_coreNo, focus_coreNo]

section
variable {tag : W32} {k : ParkedJob} {s : State} {x : SiteId} (hx : s.carrier k.tile = some x)
include hx

/-- An answer that finds its job is accepted, and its core is changed as the answer says. -/
theorem answerParked_found {f : Bool → BitVec 16 → State → Option State} {t : State}
    (h : f k.copy k.seq (s.focus x k.core) = some t) (site : t.site = x) (coreNo : t.coreNo = k.core)
    (completions : t.wafer.completions = s.wafer.completions) :
    let u := answerParked tag k f s
    Completes tag 0 s u ∧ u.coreOfSite x k.core = t.core := by
  simp only [answerParked, hx, h]
  refine ⟨accept_completes ((focus_completions _ _ _).trans completions) tag, ?_⟩
  refine (focus_coreOfSite t s.site x s.coreNo k.core).trans ?_
  rw [coreOfSite_of_site site, ← coreNo, coreAt_coreNo]

/-- An answer that finds no such job is turned down. -/
theorem answerParked_unknown {f : Bool → BitVec 16 → State → Option State}
    (h : f k.copy k.seq (s.focus x k.core) = none) : answerParked tag k f s = s.turnDown tag 4 := by
  simp only [answerParked, hx, h]

end

/-- The note of an end changes no core, and sends at most a packet. -/
theorem noteCompletion_keeps (s : State) (num : Nat) (b : List Byte) :
    (s.noteCompletion num b).core = s.core ∧ (s.noteCompletion num b).site = s.site ∧
    (s.noteCompletion num b).coreNo = s.coreNo ∧
    (s.noteCompletion num b).wafer.completions = s.wafer.completions := by
  unfold State.noteCompletion
  split
  · have notes := noteDet_onlyNotes s (coreDet s .engine s.coreNo s.me (BitVec.ofNat 32 num) b)
    exact ⟨notes.core, notes.place.2.1, notes.place.1, (congrArg Wafer.completions notes.wafer :)⟩
  · exact ⟨rfl, rfl, rfl, rfl⟩

/-- The end of a card with a fault: the card is gone and its ticket tells why. -/
theorem endFaulted_ends {k : TileCard} {seq : BitVec 16} (cause : BitVec 4) (va : Word) (s : State)
    (h : k.seq = some seq) :
    let u := endFaulted k cause va s
    u.core = (s.core.dropCard k.num).endSlot .matrix seq 0 cause va ∧ u.site = s.site ∧ u.coreNo = s.coreNo ∧
    u.wafer.completions = s.wafer.completions := by
  simp only [endFaulted, h]
  exact noteCompletion_keeps _ _ _

/-- A parked card that the host fails. -/
theorem faultAnswerFail_card {tag : W32} {p : ParkedJob} {s : State} {x : SiteId} {k : TileCard} {why : BitVec 4 × Word}
    (hx : s.carrier p.tile = some x) (card : p.copy = false) (hk : (s.coreOfSite x p.core).parkedCard p.seq = some k)
    (fault : k.fault = some why) (seq : k.seq = some p.seq) (cause : why.1 ≠ 0) :
    Runs (.faultAnswerFail tag p) s (fun u => Completes tag 0 s u ∧
      (∀ q, q ∈ (u.coreOfSite x p.core).eng.cards ↔ q ∈ (s.coreOfSite x p.core).eng.cards ∧ q.num ≠ k.num) ∧
      vget (u.coreOfSite x p.core).eng.slots (p.seq.toNat % 16) {} =
        { seq := p.seq, state := 2, fault := true, flags := 0, cause := why.1, addr := why.2.setWidth 48 }) := by
  have run : failParked p.copy p.seq (s.focus x p.core) = some (endFaulted k why.1 why.2 (s.focus x p.core)) := by
    simp only [failParked, card, Bool.false_eq_true, if_false, focus_core, hk, fault, Option.map_some, Option.getD_some]
  obtain ⟨core, site, coreNo, completions⟩ := endFaulted_ends why.1 why.2 (s.focus x p.core) seq
  obtain ⟨completes, now⟩ := answerParked_found (tag := tag) hx run (site.trans (focus_site ..))
    (coreNo.trans (focus_coreNo ..)) (completions.trans (focus_completions ..))
  rw [core, focus_core] at now
  refine ⟨_, rfl, completes, fun q => ?_, ?_⟩
  · rw [now]
    exact List.mem_filter.trans (and_congr_right (fun _ => bne_iff_ne))
  · rw [now]
    refine (vget_vset_same _ _ _ _ (Nat.mod_lt _ (by decide))).trans ?_
    rw [bne_iff_ne.mpr cause]

/-- A parked card that the host lets go on. -/
theorem faultAnswerResume_card {tag : W32} {p : ParkedJob} {s : State} {x : SiteId} {k : TileCard}
    (hx : s.carrier p.tile = some x) (card : p.copy = false) (hk : (s.coreOfSite x p.core).parkedCard p.seq = some k) :
    Runs (.faultAnswerResume tag p) s (fun u => Completes tag 0 s u ∧ (u.coreOfSite x p.core).eng.cards =
      (s.coreOfSite x p.core).eng.cards.map
        (fun q => if q.num = k.num then { q with state := .started, fault := none } else q)) := by
  have run : resumeParked p.copy p.seq (s.focus x p.core) = some { s.focus x p.core with
      core := (s.coreOfSite x p.core).setCard k.num (fun k => { k with state := .started, fault := none }) } := by
    simp only [resumeParked, card, Bool.false_eq_true, if_false, focus_core, hk, Option.map_some]
  obtain ⟨completes, now⟩ := answerParked_found (tag := tag) hx run (focus_site ..) (focus_coreNo ..) (focus_completions ..)
  exact ⟨_, rfl, completes, (congrArg (fun c : Core => c.eng.cards) now :)⟩

/-- A parked copy job that the host lets go on. -/
theorem faultAnswerResume_job {tag : W32} {p : ParkedJob} {s : State} {x : SiteId} {j : CopyJob}
    (hx : s.carrier p.tile = some x) (copy : p.copy = true) (hj : (s.coreOfSite x p.core).parkedJob p.seq = some j) :
    Runs (.faultAnswerResume tag p) s (fun u => Completes tag 0 s u ∧ (u.coreOfSite x p.core).cpy.jobs =
      (s.coreOfSite x p.core).cpy.jobs.map
        (fun q => if q.num = j.num then { q with state := .started, fault := none } else q)) := by
  have run : resumeParked p.copy p.seq (s.focus x p.core) = some
      ((s.focus x p.core).setJob j.num (fun j => { j with state := .started, fault := none })) := by
    simp only [resumeParked, copy, if_true, focus_core, hj, Option.map_some]
  obtain ⟨completes, now⟩ := answerParked_found (tag := tag) hx run (focus_site ..) (focus_coreNo ..) (focus_completions ..)
  refine ⟨_, rfl, completes, ?_⟩
  refine (congrArg (fun c : Core => c.cpy.jobs) now :).trans ?_
  rw [← focus_core]
  rfl

/-- A parked copy job that the host fails. -/
theorem faultAnswerFail_job {tag : W32} {p : ParkedJob} {s : State} {x : SiteId} {j : CopyJob} {why : BitVec 4 × Word}
    (hx : s.carrier p.tile = some x) (copy : p.copy = true) (hj : (s.coreOfSite x p.core).parkedJob p.seq = some j)
    (fault : j.fault = some why) :
    Runs (.faultAnswerFail tag p) s (fun u => Completes tag 0 s u ∧
      ∃ q ∈ (u.coreOfSite x p.core).cpy.jobs, q.num = j.num ∧ q.ending = some why.1 ∧
        q.endAddr = if j.checked then j.dst + BitVec.ofNat 64 (4096 * j.prog) else why.2) := by
  have run : failParked p.copy p.seq (s.focus x p.core) = some ((s.focus x p.core).setJob j.num (fun q =>
      { q with state := .started, fault := none }.end_ why.1 (if j.checked then j.chunkVa else why.2))) := by
    simp only [failParked, copy, if_true, focus_core, hj, Option.map_some, fault, Option.getD_some]
  obtain ⟨completes, now⟩ := answerParked_found (tag := tag) hx run (focus_site ..) (focus_coreNo ..) (focus_completions ..)
  have member : j ∈ (s.coreOfSite x p.core).cpy.jobs := List.mem_of_find?_eq_some hj
  rw [← focus_core] at member
  refine ⟨_, rfl, completes, { j with state := .started, fault := none }.end_ why.1
    (if j.checked then j.chunkVa else why.2), ?_, rfl, rfl, rfl⟩
  rw [now]
  exact List.mem_map.mpr ⟨j, member, if_pos rfl⟩

/-- An answer to a record of no parked job does nothing. -/
theorem faultAnswer_unknown {tag : W32} {p : ParkedJob} {s : State} {x : SiteId} (hx : s.carrier p.tile = some x)
    (none : (p.copy = false ∧ (s.coreOfSite x p.core).parkedCard p.seq = none) ∨
      (p.copy = true ∧ (s.coreOfSite x p.core).parkedJob p.seq = none)) :
    exec (.faultAnswerResume tag p) s = .next (s.turnDown tag 4) ∧
    exec (.faultAnswerFail tag p) s = .next (s.turnDown tag 4) := by
  have resume : resumeParked p.copy p.seq (s.focus x p.core) = Option.none := by
    rcases none with ⟨copy, h⟩ | ⟨copy, h⟩ <;> simp [resumeParked, copy, focus_core, h]
  have fail : failParked p.copy p.seq (s.focus x p.core) = Option.none := by
    rcases none with ⟨copy, h⟩ | ⟨copy, h⟩ <;> simp [failParked, copy, focus_core, h]
  exact ⟨congrArg Host.Outcome.next (answerParked_unknown hx resume), congrArg Host.Outcome.next (answerParked_unknown hx fail)⟩

/-! ### Page tables (R144) -/

theorem dropPages_idem (job : BitVec 6) (c : Core) : (c.dropPages job).dropPages job = c.dropPages job := by
  simp only [Core.dropPages, List.filter_filter, Bool.and_self, Core.mk.injEq, true_and]
  cases c.walk with
  | none => simp
  | some w => by_cases h : w.job = job ∧ w.failed = true <;> simp [h]

theorem dropPages_coreAt (s : State) (job : BitVec 6) (k : CoreId) :
    (s.updCores (fun c => c.dropPages job)).coreAt k = (s.coreAt k).dropPages job := by
  rcases updCores_coreAt s (fun c => c.dropPages job) k with h | ⟨h, g⟩
  · exact h
  · rw [g, h]
    rfl

/-- A tile without the job's translations. -/
def Tile.dropPages (t : Tile) (job : BitVec 6) : Tile := { t with tlb := t.tlb.filter (fun e => e.job != job) }

theorem Tile.dropPages_idem (job : BitVec 6) (t : Tile) : (t.dropPages job).dropPages job = t.dropPages job := by
  simp only [Tile.dropPages, List.filter_filter, Bool.and_self]

/-- A page-table change drops the translations of every tile and core of the job. -/
theorem pageTableChange_drops (tag : W32) (job : BitVec 6) (s : State) :
    Runs (.pageTableChange tag job) s (fun u => Completes tag 0 s u ∧
      ∀ x ∈ s.jobSites job, u.tileAt x = (s.tileAt x).dropPages job ∧
        ∀ k, u.coreOfSite x k = (s.coreOfSite x k).dropPages job) := by
  let f (s : State) : State :=
    let t := s.updCores (fun c => c.dropPages job)
    { t with tile := t.tile.dropPages job }
  have stays (u : State) : Stays u (f u) := ⟨rfl, rfl⟩
  have completions : (s.atSites f (s.jobSites job)).wafer.completions = s.wafer.completions :=
    atSites_outside (fun v => v.wafer.completions) _ s (fun _ => rfl)
  refine ⟨(s.atSites f (s.jobSites job)).accept tag, rfl, accept_completes completions tag,
    fun x hx => ⟨?_, fun k => ?_⟩⟩
  · exact (atSites_tileAt_acts (g := fun t => t.dropPages job) _ s x (Tile.dropPages_idem job) (fun u => ⟨stays u, rfl⟩)).trans (if_pos hx)
  · refine (atSites_coreOfSite_acts (g := fun c => c.dropPages job) _ s x (dropPages_idem job) (fun u => ⟨stays u, ?_⟩)).trans (if_pos hx)
    exact dropPages_coreAt u job k

/-! ### Cleared sites (R14, R452) -/

theorem mem_siteIds_atSite {s : State} {x : SiteId} {f : State → State} (stays : Stays (s.focusSite x) (f (s.focusSite x)))
    (y : SiteId) : y ∈ (s.atSite x f).siteIds ↔ y = s.site ∨ y = x ∨ y ∈ s.siteIds := by
  rw [State.atSite, mem_siteIds_focus, stays.siteIds, mem_siteIds_focusSite]

/-- A site as it is cleared: nobody's tile, a reserve in service. -/
def State.cleared (s : State) : State :=
  { vacate s with junction := { s.junction with status := .reserve, passThrough := false } }

theorem cleared_stays (s : State) : Stays s s.cleared := ⟨rfl, rfl⟩

theorem cleared_junctionAt (s : State) (x y : SiteId) : (s.atSite x State.cleared).junctionAt y =
    if y = x then { s.junctionAt y with status := .reserve, passThrough := false } else s.junctionAt y :=
  atSite_junctionAt_acts (g := fun j => { j with status := .reserve, passThrough := false }) cleared_stays s x y
    (fun _ => rfl)

theorem cleared_map (s : State) (x y : SiteId) :
    ((s.atSite x State.cleared).junctionAt y).map = (s.junctionAt y).map := by
  rw [cleared_junctionAt]
  split_ifs <;> rfl

/-- A junction whose map holds a site for a reserve. -/
def State.marking (site : SiteId) (s : State) : State :=
  { s with junction := { s.junction with map := setMap site.toNat 2 s.junction.map } }

theorem marking_stays (site : SiteId) (s : State) : Stays s (s.marking site) := ⟨rfl, rfl⟩

/-- Marking a site in maps leaves everything else of a junction. -/
theorem marking_junctionAt (site : SiteId) (s : State) (y : SiteId) :
    ((s.marking site).junctionAt y).status = (s.junctionAt y).status ∧
    ((s.marking site).junctionAt y).passThrough = (s.junctionAt y).passThrough := by
  rw [(marking_stays site s).junctionAt]
  split_ifs with e
  · rw [e, junctionAt_site]
    exact ⟨rfl, rfl⟩
  · exact ⟨rfl, rfl⟩

/-- Every map of a list of sites holds the site for a reserve. -/
theorem atSites_marking_map (site : SiteId) (l : List SiteId) (s : State) (x : SiteId) (k : Nat) (hx : x ∈ l) :
    mapState ((s.atSites (State.marking site) l).junctionAt x).map k =
      if k = site.toNat then 2 else mapState (s.junctionAt x).map k := by
  have acts := atSites_acts (look := fun s y k => mapState (s.junctionAt y).map k) (f := State.marking site)
    (g := fun m k => if k = site.toNat then 2 else m k)
    (fun m => by funext k; by_cases h : k = site.toNat <;> simp [h])
    (fun u x y => by
      funext k
      rw [atSite_junctionAt_acts (g := fun j => { j with map := setMap site.toNat 2 j.map }) (marking_stays site) u x y
        (fun _ => rfl)]
      split_ifs
      · exact (mapState_setMap site.toNat 2 (u.junctionAt y).map k :)
      · rfl) l s x
  rw [if_pos hx] at acts
  exact congrFun acts k

/-- A failed site is a reserve again, in its junction and in every map. -/
theorem clearFailedSite_clears {tag : W32} {site : SiteId} {s : State} (failed : (s.junctionAt site).status = .failed) :
    Runs (.clearFailedSite tag site) s (fun u => Completes tag 0 s u ∧
      (u.junctionAt site).status = .reserve ∧ (u.junctionAt site).passThrough = false ∧ (u.tileAt site).job = none ∧
      (∀ x ∈ s.siteIds, ∀ k, mapState (u.junctionAt x).map k =
        if k = site.toNat then 2 else mapState (s.junctionAt x).map k) ∧ site ∉ u.wafer.healing.dead) := by
  let s₁ := s.atSite site State.cleared
  let s₂ := s₁.atSites (State.marking site) s₁.siteIds
  have run : exec (.clearFailedSite tag site) s = .next (({ s₂ with wafer := { s₂.wafer with
      healing := { s₂.wafer.healing with dead := s₂.wafer.healing.dead.filter (· != site) } } } : State).accept tag) := by
    have e : exec (.clearFailedSite tag site) s = execClearFailedSite tag site s := rfl
    rw [e, execClearFailedSite, if_pos failed]
    rfl
  have outside {α : Type} (field : View → α) (h : ∀ u : State, field (u.marking site).view = field u.view) :
      field s₂.view = field s₁.view := atSites_outside field _ s₁ h
  have completions₁ : s₁.wafer.completions = s.wafer.completions :=
    (atSite_completions s site State.cleared).trans (focusSite_completions s site)
  have completions : s₂.wafer.completions = s.wafer.completions :=
    (outside (fun v => v.wafer.completions) (fun _ => rfl)).trans completions₁
  have junction₁ := (cleared_junctionAt s site site).trans (if_pos rfl)
  have status : (s₂.junctionAt site).status = .reserve := by
    refine (outside (fun v => (v.junction site).status) (fun u => (marking_junctionAt site u site).1)).trans ?_
    exact congrArg Site.status junction₁
  have passThrough : (s₂.junctionAt site).passThrough = false := by
    refine (outside (fun v => (v.junction site).passThrough) (fun u => (marking_junctionAt site u site).2)).trans ?_
    exact congrArg Site.passThrough junction₁
  have job : (s₂.tileAt site).job = none := by
    refine (outside (fun v => (v.tile site).job) (fun u => congrArg Tile.job ((marking_stays site u).tileAt_kept rfl site))).trans ?_
    exact congrArg Tile.job ((atSite_tileAt_acts (g := fun t => { bank := t.bank }) cleared_stays s site site
      (fun _ => rfl)).trans (if_pos rfl))
  have maps (x : SiteId) (hx : x ∈ s.siteIds) (k : Nat) : mapState (s₂.junctionAt x).map k =
      if k = site.toNat then 2 else mapState (s.junctionAt x).map k := by
    have listed : x ∈ s₁.siteIds := (mem_siteIds_atSite (cleared_stays _) x).mpr (.inr (.inr hx))
    exact (atSites_marking_map site _ s₁ x k listed).trans (by rw [cleared_map])
  clear_value s₂
  exact ⟨_, run, accept_completes completions tag, status, passThrough, job, maps,
    fun h => bne_iff_ne.mp (List.mem_filter.mp h).2 rfl⟩

/-- A site that is not failed stays as it is. -/
theorem clearFailedSite_other {tag : W32} {site : SiteId} {s : State} (h : (s.junctionAt site).status ≠ .failed) :
    exec (.clearFailedSite tag site) s = .next (s.turnDown tag 8) := by
  have e : exec (.clearFailedSite tag site) s = execClearFailedSite tag site s := rfl
  rw [e, execClearFailedSite, if_neg h]

/-! ### Attestation (R476) -/

theorem take_flatMap_natBytes (l : List (BitVec 384)) (k : Nat) (hk : k < l.length) :
    ((l.flatMap (fun m => natBytes m.toNat 48)).drop (48 * k)).take 48 = natBytes l[k].toNat 48 := by
  induction l generalizing k with
  | nil => simp at hk
  | cons m r ih =>
    cases k with
    | zero => simp
    | succ k =>
      have h := ih k (by simpa using hk)
      rw [List.flatMap_cons, Nat.mul_succ, Nat.add_comm, ← List.drop_drop, List.drop_left' (natBytes_length ..)]
      simpa using h

theorem length_flatMap_natBytes (l : List (BitVec 384)) : (l.flatMap (fun m => natBytes m.toNat 48)).length = 48 * l.length := by
  induction l with
  | nil => rfl
  | cons m r ih => rw [List.flatMap_cons, List.length_append, ih, natBytes_length, List.length_cons]; omega

/-- The parts of a report: its length, the nonce, and each measurement register. -/
theorem reportBody_parts (nonce : BitVec 384) (w : Wafer) :
    (reportBody nonce w).length = 800 ∧ ((reportBody nonce w).drop 32).take 48 = natBytes nonce.toNat 48 ∧
    ∀ k < 12, ((reportBody nonce w).drop (80 + 48 * k)).take 48 = natBytes (vget w.boot.measured k 0).toNat 48 := by
  let names := natBytes Config.reportHeader.toNat 16 ++ natBytes Config.deviceSerial.toNat 16
  let asked := natBytes nonce.toNat 48
  let measured := w.boot.measured.toList.flatMap (fun m => natBytes m.toNat 48)
  let rest := natBytes Config.svnMinimums.toNat 16 ++ List.replicate 128 0
  have body : reportBody nonce w = names ++ (asked ++ (measured ++ rest)) := by
    simp only [reportBody, names, asked, measured, rest, List.append_assoc]
  have namesLength : names.length = 32 := by simp [names]
  have askedLength : asked.length = 48 := natBytes_length ..
  have measuredLength : measured.length = 576 := by rw [length_flatMap_natBytes]; simp
  have restLength : rest.length = 144 := by simp [rest]
  refine ⟨?_, ?_, fun k hk => ?_⟩
  · simp only [body, List.length_append, namesLength, askedLength, measuredLength, restLength]
  · rw [body, List.drop_left' namesLength, List.take_left' askedLength]
  · have held : (w.boot.measured.toList[k]'(by simpa using hk)) = vget w.boot.measured k 0 := by simp [vget, hk]
    rw [body, ← List.append_assoc, ← List.drop_drop, List.drop_left' (by simp [namesLength, askedLength]),
      List.drop_append_of_le_length (by omega), List.take_append_of_le_length (by rw [List.length_drop]; omega),
      take_flatMap_natBytes _ k (by simpa using hk), held]

/-! ### Thresholds (R146) -/

theorem find_putKey {α : Type} (l : List (Nat × α)) (k : Nat) (v : α) :
    (putKey l k v).find? (fun p => p.1 == k) = some (k, v) ∧
    ∀ m, m ≠ k → (putKey l k v).find? (fun p => p.1 == m) = l.find? (fun p => p.1 == m) := by
  refine ⟨by simp [putKey], fun m hm => ?_⟩
  rw [putKey, List.find?_cons_of_neg (by simpa using hm.symm), List.find?_filter]
  congr 1
  funext p
  by_cases h : p.1 = m
  · simp [h, hm]
  · simp [h]

/-- The units that count accesses, by number. -/
theorem counterKey_of {unit : CounterUnit} {k : Nat}
    (h : (unit, k) ∈ (List.range 40).map (fun n => (CounterUnit.controller (BitVec.ofNat 6 n), n)) ++
      (List.range 8).map (fun n => (CounterUnit.hostPort (BitVec.ofNat 3 n), 40 + n))) : counterKey unit = some k := by
  simp only [List.mem_append, List.mem_map, List.mem_range, Prod.mk.injEq] at h
  rcases h with ⟨n, hn, rfl, rfl⟩ | ⟨n, hn, rfl, rfl⟩
  · have num : (BitVec.ofNat 6 n).toNat = n := by simpa using Nat.mod_eq_of_lt (by omega : n < 64)
    simp [counterKey, num, hn]
  · have num : (BitVec.ofNat 3 n).toNat = n := by simpa using Nat.mod_eq_of_lt hn
    simp [counterKey, num]

theorem setThreshold_runs {unit : CounterUnit} {k : Nat} (h : counterKey unit = some k) (tag : W32) (v : BitVec 16)
    (s : State) : exec (.setAccessCounterThreshold tag unit v) s = .next (({ s with wafer := { s.wafer with
      rim := { s.wafer.rim with limits := putKey s.wafer.rim.limits k v.toNat } } } : State).accept tag) := by
  have run : exec (.setAccessCounterThreshold tag unit v) s = execSetAccessCounterThreshold tag unit v s := rfl
  rw [run, execSetAccessCounterThreshold, h]

/-- No controller has a number from 40. -/
theorem setThreshold_refuses {c : BitVec 6} (h : 40 ≤ c.toNat) (tag : W32) (v : BitVec 16) (s : State) :
    exec (.setAccessCounterThreshold tag (.controller c) v) s = .next (s.turnDown tag 11) := by
  have run : exec (.setAccessCounterThreshold tag (.controller c) v) s =
      execSetAccessCounterThreshold tag (.controller c) v s := rfl
  rw [run, execSetAccessCounterThreshold, counterKey, if_neg (Nat.not_lt.mpr h)]

/-! ### The supervisor-launch enables (R346, R470) -/

theorem supervisor_bits (r : BitVec 8) (port : BitVec 3) (v : Bool) :
    ∀ k < 8, (if v then r ||| ((1 : BitVec 8) <<< port.toNat) else r &&& ~~~((1 : BitVec 8) <<< port.toNat)).getLsbD k =
      if k = port.toNat then v else r.getLsbD k := by
  intro k hk
  have bit : ((1 : BitVec 8) <<< port.toNat).getLsbD k = decide (k = port.toNat) := by
    rcases Nat.lt_trichotomy k port.toNat with h | h | h
    · simp [h, h.ne]
    · simp [h, h ▸ hk]
    · simp [Nat.sub_ne_zero_of_lt h, h.ne']
  cases v
  · simp only [Bool.false_eq_true, if_false, BitVec.getLsbD_and, BitVec.getLsbD_not, bit]
    by_cases h : k = port.toNat <;> simp [h, hk]
  · simp only [if_true, BitVec.getLsbD_or, bit]
    by_cases h : k = port.toNat <;> simp [h]

end Sys2Proof.Machine

open Sys2Proof.Machine in
/-- Settles O54: the launch by its checks and by what a placed launch does, and each other command by its lemma. -/
theorem hostCommands : Obligations.HostCommands := by
  unfold Obligations.HostCommands
  refine ⟨fun c s q hq => ?_, fun c s ready => ?_, fun tag job s x hx => ?_, fun tag job s => ?_, fun tag site s => ?_,
    fun tag s => ?_, fun port window span offset data s => ?_, fun port v ring index s => ?_⟩
  · exact ⟨_, launch_waits c hq, rfl, rfl, rfl, rfl, ⟨fun _ => rfl, fun _ => rfl, fun _ => rfl, fun _ => rfl, rfl⟩⟩
  · intro level ends
    have levelIff : (s.carry c.port).levelOk c = true ↔ level := levelOk_iff _ c
    have taken := launch_taken c ready
    have ended (k : Nat) (h : launchNow c (s.carry c.port) = (s.carry c.port).complete c.tag k [] []) : ends k :=
      ⟨_, taken.trans (congrArg Host.Outcome.next h), complete_completes rfl c.tag k [] [], rfl, rfl, rfl, rfl,
        ⟨fun _ => rfl, fun _ => rfl, fun _ => rfl, fun _ => rfl, rfl⟩⟩
    refine ⟨fun h => ended 8 (launchNow_level (fun ok => h (levelIff.mp ok))), ?_⟩
    rintro j b hlevel rfl bytes d magic even st
    have ok := levelIff.mpr hlevel
    have fails (h : st ≠ 0) : ends st := ended st (launchNow_fails ok bytes h)
    refine ⟨fun h => ?_, fun h clean => ?_, fun h clean none => ?_, fun h clean some odd => ?_, fails,
      fun a v hbm zero idle placed => ?_⟩
    · have one : st = 1 := launchStatus_magic h
      exact one ▸ fails (by rw [one]; decide)
    · have two : st = 2 := launchStatus_reserved h clean
      exact two ▸ fails (by rw [two]; decide)
    · have three : st = 3 := launchStatus_cores h clean none
      exact three ▸ fails (by rw [three]; decide)
    · have four : st = 4 := launchStatus_odd h clean some odd
      exact four ▸ fails (by rw [four]; decide)
    · have idle' : ((s.carry c.port).inTheWay (s.jobFor c)).all (s.carry c.port).idleJob = true := by
        rw [funext (idleJob_carry s c.port)]
        exact idle
      have run := taken.trans (congrArg Host.Outcome.next (launchNow_places ok bytes hbm zero idle' placed))
      obtain ⟨-, completions, l, launches, hjob, ⟨w, hnum⟩, mailbox, cores, hw, hh, split⟩ := placeLaunch_keeps placed
      refine ⟨_, run, accept_completes completions c.tag, ⟨l, launches, hjob, mailbox, cores, hw, hh, ?_, fun e => ?_,
        fun f e => ?_⟩, fun x unbound alone tiles hx => ?_, fun x n bound w1 h1 hx hn free => ?_⟩
      · rw [hnum]; exact nextLaunch_ne_zero w _
      · rw [split, e]; rfl
      · exact ⟨_, by rw [split, e]; rfl, Nat.le_max_left .., by omega⟩
      · have number : (s.jobFor c).job = c.job := by rw [State.jobFor, unbound]
        have given := placeLaunch_tile placed (by rw [number]; exact unbound) alone tiles hx
        exact ⟨given.job, given.jshape, given.jt, given.mem⟩
      · obtain ⟨rect, wstack, -, -⟩ := launchStatus_zero zero
        have same : (s.jobFor c).job = c.job := eq_of_beq (List.find?_some (p := fun k : Job => k.job == c.job) bound)
        obtain ⟨t, l, k, b, core⟩ := placeLaunch_core placed (by rw [same]; exact Option.isSome_of_eq_some bound)
          (rectOk_tiles rect) w1 h1 hx hn free
        obtain ⟨pc, lv, run, wsp, wslim, tvec, slot, a0⟩ := startedCore_fields (t.launchRecord c d (s.jobFor c) l a n) k
        obtain ⟨low, high⟩ := launch_windows wstack hn
        intro e
        have now : e = _ := core
        rw [now]
        exact ⟨pc, run, lv.trans (launch_level k (hlevel.imp_right And.left)), a0,
          tvec.trans ((BitVec.and_assoc _ _ _).trans (congrArg _ BitVec.and_self)), (congrArg BitVec.toNat wslim).trans high,
          (congrArg BitVec.toNat wsp).trans low, _, slot, rfl, rfl, rfl, rfl⟩
  · intro c now unknown
    refine ⟨fun k card hk => ⟨faultAnswerResume_card hx card hk, fun why fault seq cause =>
        faultAnswerFail_card hx card hk fault seq cause⟩,
      fun j copy hj => ⟨faultAnswerResume_job hx copy hj, fun why fault => faultAnswerFail_job hx copy hj fault⟩,
      fun none => ?_⟩
    obtain ⟨resume, fail⟩ := faultAnswer_unknown (tag := tag) hx none
    exact ⟨⟨_, resume, turnDown_completes s tag 4, rfl⟩, ⟨_, fail, turnDown_completes s tag 4, rfl⟩⟩
  · obtain ⟨u, run, completes, drops⟩ := pageTableChange_drops tag job s
    refine ⟨u, run, completes, fun x hx => ?_⟩
    obtain ⟨tile, cores⟩ := drops x hx
    refine ⟨fun e => ?_, fun k e => ?_⟩
    · rw [tile]
      exact List.mem_filter.trans (and_congr_right (fun _ => bne_iff_ne))
    · rw [cores]
      exact List.mem_filter.trans (and_congr_right (fun _ => bne_iff_ne))
  · exact ⟨clearFailedSite_clears, fun other => ⟨_, clearFailedSite_other other, turnDown_completes s tag 8, rfl⟩⟩
  · intro stays
    have kept (u : State) (h : u = { s with wafer := { s.wafer with completions := u.wafer.completions, rim := u.wafer.rim } }) :
        stays u := by
      rw [h]
      exact ⟨rfl, rfl, rfl, ⟨fun _ => rfl, fun _ => rfl, fun _ => rfl, fun _ => rfl, rfl⟩⟩
    refine ⟨fun nonce => ?_, ⟨_, rfl, kept _ rfl, _, rfl, rfl, rfl, rfl⟩, fun unit k v hk => ?_, fun c v hc => ?_,
      fun watts => ⟨fun h => ?_, fun h => ?_⟩⟩
    · obtain ⟨length, asked, registers⟩ := reportBody_parts nonce s.wafer
      refine ⟨_, rfl, kept _ rfl, _, rfl, rfl, rfl, ?_, ?_, fun k hk => ?_, ?_⟩
      · simp [length]
      · rw [List.drop_append_of_le_length (by omega), List.take_append_of_le_length (by rw [List.length_drop]; omega), asked]
      · rw [List.drop_append_of_le_length (by omega), List.take_append_of_le_length (by rw [List.length_drop]; omega),
          registers k hk]
      · rw [List.drop_left' length, List.take_left' length]
    · obtain ⟨here, others⟩ := find_putKey s.wafer.rim.limits k v.toNat
      exact ⟨_, setThreshold_runs (counterKey_of hk) tag v s, kept _ rfl, accept_completes rfl tag, here, others⟩
    · exact ⟨_, setThreshold_refuses hc tag v s, kept _ rfl, turnDown_completes s tag 11, rfl⟩
    · have run : exec (.setPowerLimit tag watts) s = execSetPowerLimit tag watts s := rfl
      exact ⟨_, run.trans (congrArg Host.Outcome.next (if_pos h)), kept _ rfl, accept_completes rfl tag, rfl⟩
    · have run : exec (.setPowerLimit tag watts) s = execSetPowerLimit tag watts s := rfl
      exact ⟨_, run.trans (congrArg Host.Outcome.next (if_neg h)), kept _ rfl, turnDown_completes s tag 12, rfl⟩
  · intro a e
    have run : exec e s = execHostWindowWrite port window span offset data s := rfl
    refine ⟨fun fits => ?_, fun beyond => ?_⟩
    · exact ⟨_, run.trans (if_pos fits), writeCells_holds s.wafer.hbm _, rfl⟩
    · exact run.trans (if_neg (Nat.not_le.mpr beyond))
  · intro e bits left r
    have run : exec e s = execSupervisorLaunchEnableWrite port v s := rfl
    refine ⟨fun free => ?_, fun carried => ?_, ?_⟩
    · refine ⟨_, run.trans (congrArg Host.Outcome.next (if_neg (by rw [free]; decide))), ?_, rfl, rfl⟩
      exact supervisor_bits s.wafer.rim.supervisor port v
    · exact ⟨s, run.trans (congrArg Host.Outcome.next (if_pos carried)), rfl⟩
    · cases ring <;> exact ⟨_, rfl, rfl, rfl, ⟨rfl, rfl⟩, ⟨rfl, rfl⟩, ⟨rfl, rfl⟩⟩

end

