-- ==== Sys2Proof/Proofs/Fence.lean ====
section
/-!
SUPPORT. Errors in their banks, tiles that are stopped or lose their holder, and the fence (R420, R432 to R436, R439).
-/
namespace Sys2Proof.Machine

set_option Elab.async false

/-! ### Error banks (R435, R436) -/

theorem find_four (p : Nat → Bool) (i : Nat) (hi : i < 4) (hp : p i = true) (before : ∀ k < i, p k = false) :
    [0, 1, 2, 3].find? p = some i := by
  interval_cases i <;> simp_all [List.find?]

theorem find_four_none (p : Nat → Bool) (h : ∀ k < 4, p k = false) : [0, 1, 2, 3].find? p = none := by
  simp [List.find?, h]

theorem ErrRec.below_iff (a b : ErrRec) : a.below b = true ↔
    a.sev.toNat < b.sev.toNat ∨ (a.sev = b.sev ∧ a.clock.toNat < b.clock.toNat) := by
  simp [ErrRec.below]

/-- A record does not rank above another, and where they rank alike is not newer (R436). -/
def ErrRec.AtMost (a b : ErrRec) : Prop :=
  a.sev.toNat < b.sev.toNat ∨ (a.sev = b.sev ∧ a.clock.toNat ≤ b.clock.toNat)

theorem ErrRec.AtMost.refl (a : ErrRec) : a.AtMost a := .inr ⟨rfl, le_refl _⟩

theorem ErrRec.AtMost.trans {a b c : ErrRec} (h : a.AtMost b) (k : b.AtMost c) : a.AtMost c := by
  unfold ErrRec.AtMost at *
  rw [← BitVec.toNat_inj] at *
  omega

theorem ErrRec.atMost_of_below {a b : ErrRec} (h : a.below b = true) : a.AtMost b := by
  rcases (ErrRec.below_iff a b).mp h with g | ⟨g, k⟩
  · exact .inl g
  · exact .inr ⟨g, k.le⟩

theorem ErrRec.atMost_of_not_below {a b : ErrRec} (h : ¬a.below b = true) : b.AtMost a := by
  rw [ErrRec.below_iff] at h
  unfold ErrRec.AtMost
  rw [← BitVec.toNat_inj] at *
  omega

/-- The record that a bank gives up first ranks lowest, and is the oldest of those (R436). -/
theorem ErrBank.lowest_atMost (b : ErrBank) :
    b.lowest < 4 ∧ ∀ k < 4, (vget b b.lowest ({} : ErrRec)).AtMost (vget b k {}) := by
  have step (l : List Nat) : ∀ m : Nat, m < 4 → (∀ i ∈ l, i < 4) →
      let n := l.foldl (fun m i => if ErrRec.below (vget b i {}) (vget b m {}) then i else m) m
      n < 4 ∧ (vget b n ({} : ErrRec)).AtMost (vget b m {}) ∧ ∀ i ∈ l, (vget b n ({} : ErrRec)).AtMost (vget b i {}) := by
    induction l with
    | nil => intro m hm _; exact ⟨hm, .refl _, by simp⟩
    | cons i r ih =>
      intro m hm hl
      rw [List.foldl_cons]
      split_ifs with h
      · obtain ⟨hn, hi, hr⟩ := ih i (hl i List.mem_cons_self) (fun j hj => hl j (List.mem_cons_of_mem _ hj))
        refine ⟨hn, hi.trans (ErrRec.atMost_of_below h), fun j hj => ?_⟩
        rcases List.mem_cons.mp hj with rfl | hj
        · exact hi
        · exact hr j hj
      · obtain ⟨hn, hm, hr⟩ := ih m hm (fun j hj => hl j (List.mem_cons_of_mem _ hj))
        refine ⟨hn, hm, fun j hj => ?_⟩
        rcases List.mem_cons.mp hj with rfl | hj
        · exact hm.trans (ErrRec.atMost_of_not_below h)
        · exact hr j hj
  obtain ⟨hn, h0, hr⟩ := step [1, 2, 3] 0 (by omega) (by simp)
  refine ⟨hn, fun k hk => ?_⟩
  interval_cases k
  · exact h0
  all_goals exact hr _ (by simp)

theorem vset_only (b : ErrBank) (i : Nat) (v : ErrRec) :
    ∀ k < 4, vget (vset b i v) k ({} : ErrRec) = if k = i then v else vget b k {} := by
  intro k hk
  split_ifs with h
  · rw [h, vget_vset_same _ _ _ _ (h ▸ hk)]
  · exact vget_vset_other _ _ _ _ _ (fun e => h e.symm)

/-- A bank takes an error as R436 says. -/
theorem ErrBank.add_records (b : ErrBank) (e : ErrRec) : RecordsError e b (b.add e).1 := by
  have hsame (i : Nat) : ((vget b i ({} : ErrRec)).valid && (vget b i ({} : ErrRec)).sev == e.sev &&
      (vget b i ({} : ErrRec)).src == e.src && (vget b i ({} : ErrRec)).addr == e.addr) = true ↔
      ((vget b i ({} : ErrRec)).valid = true ∧ (vget b i ({} : ErrRec)).sev = e.sev ∧
        (vget b i ({} : ErrRec)).src = e.src ∧ (vget b i ({} : ErrRec)).addr = e.addr) := by
    simp [and_assoc]
  refine ⟨fun i hi h before => ?_, fun i hi none h before => ?_, fun full => ?_⟩
  · have f : b.first (fun r => r.valid && r.sev == e.sev && r.src == e.src && r.addr == e.addr) = some i :=
      find_four _ i hi ((hsame i).mpr h) (fun k hk => Bool.eq_false_iff.mpr (fun g => before k hk ((hsame k).mp g)))
    have more (n : BitVec 16) : countMore n = if n = 0xFFFF then 0xFFFF else n + 1 := by
      unfold countMore; split_ifs with e <;> simp [e]
    rw [ErrBank.add, f]
    dsimp only
    rw [more]
    exact vset_only b i _
  · have f : b.first (fun r => r.valid && r.sev == e.sev && r.src == e.src && r.addr == e.addr) = Option.none :=
      find_four_none _ (fun k hk => Bool.eq_false_iff.mpr (fun g => none k hk ((hsame k).mp g)))
    have g : b.first (fun r => !r.valid) = some i := find_four _ i hi (congrArg not h) (fun k hk => congrArg not (before k hk))
    rw [ErrBank.add, f, g]
    exact vset_only b i _
  · have f : b.first (fun r => r.valid && r.sev == e.sev && r.src == e.src && r.addr == e.addr) = Option.none :=
      find_four_none _ (fun k hk => Bool.eq_false_iff.mpr (fun g => (full k hk).1 ((hsame k).mp g)))
    have g : b.first (fun r => !r.valid) = Option.none := find_four_none _ (fun k hk => congrArg not (full k hk).2)
    obtain ⟨hl, low⟩ := b.lowest_atMost
    refine ⟨b.lowest, hl, low, ?_⟩
    rw [ErrBank.add, f, g]
    dsimp only
    split_ifs <;> exact vset_only b _ _

/-- An error of the tile in focus changes its bank, and may be posted. -/
theorem tileError_only (s : State) (e : ErrRec) : ∃ n, s.tileError e =
    { s with tile := { s.tile with bank := (s.tile.bank.add e).1 }, wafer := { s.wafer with notices := n } } := by
  unfold State.tileError State.postError
  dsimp only
  split_ifs <;> exact ⟨_, rfl⟩

/-- An error of the junction in focus changes its bank, and may be posted. -/
theorem junctionError_only (s : State) (e : ErrRec) : ∃ n, s.junctionError e =
    { s with junction := { s.junction with bank := (s.junction.bank.add e).1 },
             wafer := { s.wafer with notices := n } } := by
  unfold State.junctionError State.postError
  dsimp only
  split_ifs <;> exact ⟨_, rfl⟩

/-- An error of a controller changes its bank, and may be posted. -/
theorem controllerError_only (s : State) (c : Nat) (e : ErrRec) : ∃ n b, s.controllerError c e =
    { s with wafer := { s.wafer with notices := n, rim := { s.wafer.rim with banks := b } } } ∧
      RecordsIn c e s.wafer.rim.banks b := by
  unfold State.controllerError State.postError
  dsimp only
  have h : RecordsIn c e s.wafer.rim.banks (putKey s.wafer.rim.banks c
      (ErrBank.add (match s.wafer.rim.banks.find? (fun p => p.1 == c) with
        | some p => p.2
        | none => Vector.replicate 4 {}) e).1) :=
    ⟨_, List.mem_cons_self, ErrBank.add_records _ e⟩
  split_ifs
  · exact ⟨_, _, rfl, h⟩
  · exact ⟨s.wafer.notices, _, rfl, h⟩

/-! ### Waybills -/

/-- The waybills after a change of one of them. -/
theorem waybill_setWaybill (w : Wafer) (l k : TileNo) {f : Waybill → Waybill} (hf : ∀ b, (f b).tile = b.tile) :
    (w.setWaybill l f).waybill k = (w.waybill k).map (fun b => if k = l then f b else b) := by
  unfold Wafer.setWaybill Wafer.waybill
  dsimp only
  induction w.healing.waybills with
  | nil => rfl
  | cons b r ih =>
    have ht : (if b.tile = l then f b else b).tile = b.tile := by split_ifs <;> simp [hf]
    rw [List.map_cons, List.find?_cons, List.find?_cons, ht, ih]
    by_cases e : b.tile = k
    · simp only [e, beq_self_eq_true, Option.map_some]
    · simp only [beq_eq_false_iff_ne.mpr e]

/-- The holder of a tile was lost, and its HBM buddy holds it, with no boundary under way (R420). -/
def Waybill.IsLost (b : Waybill) : Prop := b.holder = .hbm ∧ b.lost = true ∧ b.staged = none

/-- A waybill that may have lost its holder, and is otherwise what it was. -/
structure Waybill.Loses (b c : Waybill) : Prop where
  tile : c.tile = b.tile
  committed : c.committed = b.committed
  log : c.log = b.log ∧ c.logBase = b.logBase
  region : c.region = b.region
  failures : c.failures = b.failures
  lost : b.IsLost → c.IsLost

theorem Waybill.Loses.refl (b : Waybill) : b.Loses b := ⟨rfl, rfl, ⟨rfl, rfl⟩, rfl, rfl, id⟩

theorem Waybill.Loses.trans {a b c : Waybill} (h : a.Loses b) (k : b.Loses c) : a.Loses c :=
  ⟨k.tile.trans h.tile, k.committed.trans h.committed, ⟨k.log.1.trans h.log.1, k.log.2.trans h.log.2⟩,
    k.region.trans h.region, k.failures.trans h.failures, fun g => k.lost (h.lost g)⟩

/-! ### Tiles that are stopped or lose their holder -/

theorem loses_refl (o : Option Waybill) : Option.Rel Waybill.Loses o o := by
  cases o with
  | none => exact .none
  | some b => exact .some (.refl b)

theorem loses_isSome {a b : Option Waybill} (h : Option.Rel Waybill.Loses a b) : b.isSome = a.isSome := by
  cases h <;> rfl

theorem loses_trans {a b c : Option Waybill} (h : Option.Rel Waybill.Loses a b) (k : Option.Rel Waybill.Loses b c) :
    Option.Rel Waybill.Loses a c := by
  cases h with
  | none => exact k
  | some h => cases k with
    | some k => exact .some (h.trans k)

/-- Tiles have been stopped or asked for a boundary, and waybills may have lost their holder; apart from cores, holds and
packets in flight nothing else has changed. -/
structure Halts (s u : State) : Prop where
  site : u.site = s.site
  tiles : ∀ y, ∃ c d, u.tileAt y = { s.tileAt y with closeAsked := c, stopped := d } ∧
    ((s.tileAt y).closeAsked = true → c = true) ∧ ((s.tileAt y).stopped = true → d = true)
  junctions : ∀ y, u.junctionAt y = s.junctionAt y
  wafer : u.view.wafer = { s.view.wafer with
    net := u.wafer.net, nextId := u.wafer.nextId,
    healing := { s.wafer.healing with waybills := u.wafer.healing.waybills, holds := u.wafer.healing.holds } }
  bills : ∀ l, Option.Rel Waybill.Loses (s.wafer.waybill l) (u.wafer.waybill l)
  holds : ∀ l ∈ s.wafer.healing.holds, l ∈ u.wafer.healing.holds

theorem Halts.refl (s : State) : Halts s s :=
  ⟨rfl, fun _ => ⟨_, _, rfl, id, id⟩, fun _ => rfl, rfl, fun _ => loses_refl _, fun _ => id⟩

section
variable {s u : State} (h : Halts s u)
include h

theorem Halts.hbm : u.wafer.hbm = s.wafer.hbm := (congrArg Wafer.hbm h.wafer :)
theorem Halts.host : u.wafer.host = s.wafer.host := (congrArg Wafer.host h.wafer :)
theorem Halts.peer : u.wafer.peer = s.wafer.peer := (congrArg Wafer.peer h.wafer :)
theorem Halts.clock : u.wafer.clock = s.wafer.clock := (congrArg Wafer.clock h.wafer :)
theorem Halts.boot : u.wafer.boot = s.wafer.boot := (congrArg Wafer.boot h.wafer :)
theorem Halts.healing : u.wafer.healing = { s.wafer.healing with
    waybills := u.wafer.healing.waybills, holds := u.wafer.healing.holds } := (congrArg Wafer.healing h.wafer :)
theorem Halts.recoveries : u.wafer.healing.recoveries = s.wafer.healing.recoveries := by rw [h.healing]
theorem Halts.cranes : u.wafer.healing.cranes = s.wafer.healing.cranes := by rw [h.healing]
theorem Halts.domainBanks : u.wafer.healing.domainBanks = s.wafer.healing.domainBanks := by rw [h.healing]

theorem Halts.tile : ∃ c d, u.tile = { s.tile with closeAsked := c, stopped := d } ∧
    (s.tile.closeAsked = true → c = true) ∧ (s.tile.stopped = true → d = true) := by
  have := h.tiles s.site
  rwa [tileAt_site, tileAt_of_site h.site] at this

theorem Halts.junction : u.junction = s.junction := by
  rw [← junctionAt_site u, h.site, h.junctions, junctionAt_site]

theorem Halts.tile_mem : u.tile.mem = s.tile.mem := by
  obtain ⟨c, d, e, -⟩ := h.tile
  rw [e]

theorem Halts.tile_bank : u.tile.bank = s.tile.bank := by
  obtain ⟨c, d, e, -⟩ := h.tile
  rw [e]

theorem Halts.tile_tile : u.tile.tile = s.tile.tile := by
  obtain ⟨c, d, e, -⟩ := h.tile
  rw [e]

theorem Halts.stopped (hs : s.tile.stopped = true) : u.tile.stopped = true := by
  obtain ⟨c, d, e, -, hd⟩ := h.tile
  rw [e]
  exact hd hs

theorem Halts.waybills (l : TileNo) (b : Waybill) (hb : s.wafer.waybill l = some b) :
    ∃ c, u.wafer.waybill l = some c ∧ b.Loses c := by
  have r := h.bills l
  rw [hb] at r
  cases r' : u.wafer.waybill l with
  | none => rw [r'] at r; cases r
  | some c =>
    rw [r'] at r
    cases r with
    | some r => exact ⟨c, rfl, r⟩

theorem Halts.keepsWaybill : u.keepsWaybill = s.keepsWaybill := by
  obtain ⟨c, d, e, -, -⟩ := h.tile
  have boots : u.booting = s.booting := by simp only [State.booting, e, h.boot, h.site]
  rw [State.keepsWaybill, State.keepsWaybill, boots, h.tile_tile, loses_isSome (h.bills s.tile.tile)]

theorem Halts.trans {t : State} (k : Halts u t) : Halts s t where
  site := k.site.trans h.site
  tiles y := by
    obtain ⟨c, d, e, hc, hd⟩ := h.tiles y
    obtain ⟨c', d', e', hc', hd'⟩ := k.tiles y
    rw [e] at e' hc' hd'
    exact ⟨c', d', e', fun g => hc' (hc g), fun g => hd' (hd g)⟩
  junctions y := (k.junctions y).trans (h.junctions y)
  wafer := by rw [k.wafer, h.wafer, h.healing]
  bills l := loses_trans (h.bills l) (k.bills l)
  holds l hl := k.holds l (h.holds l hl)

end

theorem Halts.atSite {s : State} {x : SiteId} {f : State → State} (h : Halts (s.focusSite x) (f (s.focusSite x))) :
    Halts s (s.atSite x f) where
  site := atSite_site s x f
  tiles y := by simpa using h.tiles y
  junctions y := by simpa using h.junctions y
  wafer := by
    rw [atSite_view, h.wafer, focusSite_view]
    simp
  bills l := by simpa [Wafer.waybill] using h.bills l
  holds := by simpa using h.holds

theorem Halts.atSites {f : State → State} (hf : ∀ s, Halts s (f s)) (l : List SiteId) (s : State) :
    Halts s (s.atSites f l) := by
  induction l generalizing s with
  | nil => exact .refl s
  | cons x r ih => exact (Halts.atSite (hf _)).trans (ih _)

/-- A change that stays at the tile in focus, and there only stops it or asks it for a boundary. -/
theorem Halts.of_stays {s u : State} (st : Stays s u)
    (tile : ∃ c d, u.tile = { s.tile with closeAsked := c, stopped := d } ∧
      (s.tile.closeAsked = true → c = true) ∧ (s.tile.stopped = true → d = true))
    (junction : u.junction = s.junction)
    (wafer : u.wafer = { s.wafer with
      net := u.wafer.net, nextId := u.wafer.nextId,
      healing := { s.wafer.healing with waybills := u.wafer.healing.waybills, holds := u.wafer.healing.holds } })
    (bills : ∀ l, Option.Rel Waybill.Loses (s.wafer.waybill l) (u.wafer.waybill l))
    (holds : ∀ l ∈ s.wafer.healing.holds, l ∈ u.wafer.healing.holds) : Halts s u where
  site := st.site
  tiles y := by
    rw [st.tileAt]
    split_ifs with e
    · rw [e, tileAt_site]; exact tile
    · exact ⟨_, _, rfl, id, id⟩
  junctions := st.junctionAt_kept junction
  wafer := by
    unfold State.view
    dsimp only
    conv_lhs => rw [wafer]
  bills := bills
  holds := holds

theorem OnlySends.halts {s u : State} (h : OnlySends s u) : Halts s u :=
  .of_stays h.stays ⟨_, _, h.tile, id, id⟩ h.junction (by rw [h.wafer]) (fun _ => by rw [h.wafer]; exact loses_refl _)
    (fun l hl => by rwa [h.wafer])

theorem requestBoundary_wafer (s : State) : s.requestBoundary.wafer = s.wafer := by
  unfold State.requestBoundary
  dsimp only
  split_ifs <;> rfl

theorem requestBoundary_halts (s : State) : Halts s s.requestBoundary :=
  .of_stays (requestBoundary_onlyBinds s).stays ⟨true, s.tile.stopped, requestBoundary_tile s, fun _ => rfl, id⟩
    (requestBoundary_onlyBinds s).junction (by rw [requestBoundary_wafer])
    (fun _ => by rw [requestBoundary_wafer]; exact loses_refl _) (fun l hl => by rwa [requestBoundary_wafer])

/-! ### The loss of a holder (R420) -/

/-- The waybill of a tile that takes its HBM buddy. -/
def Waybill.take (b : Waybill) : Waybill := { b with holder := .hbm, lost := true, staged := none, applying := false }

theorem Waybill.take_loses (b : Waybill) : b.Loses b.take := ⟨rfl, rfl, ⟨rfl, rfl⟩, rfl, rfl, fun _ => ⟨rfl, rfl, rfl⟩⟩

theorem take_halts (s : State) : Halts s (s.mapWaybill Waybill.take) :=
  .of_stays ⟨rfl, rfl⟩ ⟨_, _, rfl, id, id⟩ rfl rfl
    (fun l => by
      rw [State.mapWaybill, waybill_setWaybill (f := Waybill.take) _ _ _ (fun _ => rfl)]
      cases s.wafer.waybill l with
      | none => exact .none
      | some b =>
        refine .some ?_
        split_ifs
        · exact b.take_loses
        · exact .refl b)
    (fun _ => id)

/-- The records of the tile in focus go to its HBM buddy, one packet each. -/
def State.sendRecords (s : State) (b : Waybill) : State :=
  s.tile.dets.zipIdx.foldl (fun s d =>
    s.launchPacket .relief b.dest none (.determinant s.tile.tile (s.tile.detBase + d.2) d.1)) s

theorem sendRecords_onlySends (s : State) (b : Waybill) : OnlySends s (s.sendRecords b) :=
  OnlySends.foldl (fun s _ => launchPacket_onlySends s _ _ _ _) _ s

/-- What becomes of a tile whose holder is lost. -/
theorem holderLost_eq (s : State) : holderLost s = match s.wafer.waybill s.tile.tile with
    | none => s.mapWaybill Waybill.take
    | some b => ((s.mapWaybill Waybill.take).sendRecords b.take).requestBoundary := by
  have h : (s.mapWaybill Waybill.take).wafer.waybill s.tile.tile = (s.wafer.waybill s.tile.tile).map Waybill.take := by
    simp [State.mapWaybill, waybill_setWaybill (f := Waybill.take) _ _ _ (fun _ => rfl)]
  unfold holderLost
  dsimp only
  show (match (s.mapWaybill Waybill.take).wafer.waybill s.tile.tile with
    | none => _
    | some b => _) = _
  rw [h]
  cases s.wafer.waybill s.tile.tile <;> rfl

theorem holderLost_halts (s : State) : Halts s (holderLost s) := by
  rw [holderLost_eq]
  cases s.wafer.waybill s.tile.tile with
  | none => exact take_halts s
  | some b => exact ((take_halts s).trans (sendRecords_onlySends _ _).halts).trans (requestBoundary_halts _)

theorem holderLost_lost (s : State) {b : Waybill} (h : s.wafer.waybill s.tile.tile = some b) :
    ∃ c, (holderLost s).wafer.waybill s.tile.tile = some c ∧ c.IsLost := by
  rw [holderLost_eq, h]
  have k : (s.mapWaybill Waybill.take).wafer.waybill s.tile.tile = some b.take := by
    simp [State.mapWaybill, waybill_setWaybill (f := Waybill.take) _ _ _ (fun _ => rfl), h]
  obtain ⟨c, hc, e⟩ := ((sendRecords_onlySends (s.mapWaybill Waybill.take) b.take).halts.trans
    (requestBoundary_halts _)).waybills _ _ k
  exact ⟨c, hc, e.lost ⟨rfl, rfl, rfl⟩⟩

/-- A site that carries a tile stands for that tile. -/
theorem carrier_tile {s : State} {l : TileNo} {x : SiteId} (h : s.carrier l = some x) : (s.tileAt x).tile = l := by
  have := List.find?_some h
  simp only [Bool.and_eq_true, beq_iff_eq] at this
  exact this.2

theorem mem_tilesHeldBy {s : State} {l : TileNo} {b : Waybill} {x y : SiteId} (hb : s.wafer.waybill l = some b)
    (hh : b.holder = .buddy y) (hx : s.carrier l = some x) : x ∈ s.tilesHeldBy y := by
  have ht : b.tile = l := by simpa using List.find?_some hb
  exact List.mem_filterMap.mpr ⟨b, List.mem_filter.mpr ⟨List.mem_of_find?_eq_some hb, by simp [hh]⟩, by rw [ht, hx]⟩

/-- Of the tiles at some sites that take their HBM buddy, each has lost its holder. -/
theorem atSites_holderLost {x : SiteId} {l : TileNo} (xs : List SiteId) : ∀ s : State, x ∈ xs → (s.tileAt x).tile = l →
    (s.wafer.waybill l).isSome → ∃ c, (s.atSites holderLost xs).wafer.waybill l = some c ∧ c.IsLost := by
  induction xs with
  | nil => intro s h; cases h
  | cons y r ih =>
    intro s hx ht hw
    obtain ⟨b, hb⟩ := Option.isSome_iff_exists.mp hw
    have one := Halts.atSite (holderLost_halts (s.focusSite y))
    rw [atSites_cons]
    by_cases e : x = y
    · subst e
      obtain ⟨c, hc, lost⟩ := holderLost_lost (s.focusSite x) (b := b) (by simpa [ht, Wafer.waybill] using hb)
      have hc' : (s.atSite x holderLost).wafer.waybill l = some c := by simpa [ht, Wafer.waybill] using hc
      obtain ⟨d, hd, f⟩ := (Halts.atSites holderLost_halts r (s.atSite x holderLost)).waybills l c hc'
      exact ⟨d, hd, f.lost lost⟩
    · refine ih _ ((List.mem_cons.mp hx).resolve_left e) ?_ ?_
      · obtain ⟨c, d, g, -⟩ := one.tiles x
        rw [g]; exact ht
      · obtain ⟨c, hc, -⟩ := one.waybills l b hb
        simp [hc]

/-- The tiles that a site holds lose their holder (R420). -/
theorem tilesHeldBy_loses (s : State) (y : SiteId) : LosesHolder y s (s.atSites holderLost (s.tilesHeldBy y)) := by
  intro l b x hb hh hx b' hb'
  obtain ⟨c, hc, lost⟩ := atSites_holderLost _ s (mem_tilesHeldBy hb hh hx) (carrier_tile hx) (by simp [hb])
  exact ⟨c, hc, lost⟩

/-! ### A tile that stops for its recovery (R439, R445) -/

/-- Packets in flight have been changed or added, and nothing else. -/
def OnlyInFlight (s u : State) : Prop :=
  u = { s with wafer := { s.wafer with net := u.wafer.net, nextId := u.wafer.nextId } }

theorem OnlyInFlight.trans {s t u : State} (h : OnlyInFlight s t) (k : OnlyInFlight t u) : OnlyInFlight s u := by
  rw [OnlyInFlight] at *
  rw [k, h]

theorem sendAgain_onlyInFlight (ps : List Packet) (s : State) : OnlyInFlight s (s.sendAgain ps) := rfl

theorem turnBack_onlyInFlight (s : State) : OnlyInFlight s s.turnBack := rfl

theorem resendHeld_onlyInFlight (s : State) : OnlyInFlight s s.resendHeld := by
  unfold State.resendHeld
  dsimp only
  split <;> exact sendAgain_onlyInFlight _ s

theorem cutOff_onlyInFlight (s : State) : OnlyInFlight s s.cutOff := rfl

theorem OnlyInFlight.halts {s u : State} (h : OnlyInFlight s u) : Halts s u := by
  rw [h]
  exact .of_stays ⟨rfl, rfl⟩ ⟨_, _, rfl, id, id⟩ rfl rfl (fun _ => loses_refl _) (fun _ => id)

/-- The tile in focus is stopped, and held everywhere. -/
def State.holdTile (s : State) : State :=
  { s with tile := { s.tile with stopped := true },
           wafer := { s.wafer with healing := { s.wafer.healing with
             holds := stopTile.insertTile s.tile.tile s.wafer.healing.holds } } }

theorem mem_insertTile (l : TileNo) (ls : List TileNo) :
    l ∈ stopTile.insertTile l ls ∧ ∀ k ∈ ls, k ∈ stopTile.insertTile l ls := by
  unfold stopTile.insertTile
  split_ifs with h
  · exact ⟨by simpa using h, fun _ => id⟩
  · exact ⟨by simp, fun _ hk => List.mem_append_left _ hk⟩

theorem holdTile_halts (s : State) : Halts s s.holdTile :=
  .of_stays ⟨rfl, rfl⟩ ⟨_, _, rfl, id, fun _ => rfl⟩ rfl rfl (fun _ => loses_refl _) (mem_insertTile _ _).2

theorem stopTile_onlyInFlight (s : State) : OnlyInFlight s.holdTile (stopTile s) :=
  ((turnBack_onlyInFlight _).trans (resendHeld_onlyInFlight _)).trans (cutOff_onlyInFlight _)

theorem stopTile_halts (s : State) : Halts s (stopTile s) :=
  (holdTile_halts s).trans (stopTile_onlyInFlight s).halts

/-! ### The fence (R439 step 1) -/

/-- The junction in focus passes through. -/
def State.passing (s : State) : State := { s with junction := { s.junction with passThrough := true } }

/-- The tiles that the site in focus held have lost their holder. -/
def State.letGo (s : State) : State := s.atSites holderLost (s.tilesHeldBy s.site)

theorem letGo_halts (s : State) : Halts s s.letGo := Halts.atSites holderLost_halts _ _

/-- The recovery of the tile in focus begins, with some members, at the crane of a quadrant. -/
def State.recover (s : State) (q : BitVec 2) (ms : List TileNo) : State :=
  let l := s.tile.tile
  let r : Recovery := { tile := l, failed := s.site, crane := s.craneOf q, members := ms }
  let s := s.noteFailure
  { s with wafer := { s.wafer with healing := { s.wafer.healing with
      recoveries := s.wafer.healing.recoveries.filter (fun k => k.tile != l) ++ [r] } } }

/-- The tiles that roll back with the tile in focus. -/
def State.partners (s : State) : List TileNo := (s.widen 64 [s.tile.tile]).filter (· != s.tile.tile)

/-- A recovery of the tile in focus from this site is under way. -/
def State.recovering (s : State) : Bool :=
  s.wafer.healing.recoveries.any (fun r => r.tile == s.tile.tile && r.failed == s.site)

/-- The ways a fence can end. -/
theorem fence_cases (s : State) : let v := s.passing.letGo
    ((v.junction.status = .fused ∨ v.recovering = true) ∧ fence s = v) ∨
    (v.junction.status ≠ .fused ∧ v.recovering = false ∧ v.keepsWaybill = false ∧
      fence s = { v with junction := { v.junction with status := .failed } }) ∨
    (v.junction.status ≠ .fused ∧ v.recovering = false ∧ v.keepsWaybill = true ∧
      ∃ ms xs, fence s = (stopTile (v.recover (quadrant s.site) ms)).atSites stopTile xs) := by
  intro v
  unfold fence
  extract_lets q j p w j' l ms r n h f t u
  have hw : w = v := rfl
  have ht : t = v.recover q ms := rfl
  have hu : u = stopTile t := rfl
  clear_value u t
  subst hu ht
  clear_value ms v
  subst hw
  split_ifs with h₁ h₂ h₃
  · exact .inl ⟨.inl h₁, rfl⟩
  · exact .inl ⟨.inr h₂, rfl⟩
  · exact .inr (.inl ⟨h₁, Bool.eq_false_iff.mpr h₂, by simpa using h₃, rfl⟩)
  · exact .inr (.inr ⟨h₁, Bool.eq_false_iff.mpr h₂, by simpa using h₃, _, _, rfl⟩)

/-- The recovery that has begun, and what it leaves. -/
theorem recover_waybill (s : State) (q : BitVec 2) (ms : List TileNo) (l : TileNo) : (s.recover q ms).wafer.waybill l =
    (s.wafer.waybill l).map (fun b =>
      if l = s.tile.tile then { b with failures := b.failures ++ [s.wafer.clock] } else b) :=
  waybill_setWaybill (f := fun b => { b with failures := b.failures ++ [s.wafer.clock] }) _ _ _ (fun _ => rfl)

theorem recover_recovery (s : State) (q : BitVec 2) (ms : List TileNo) : (s.recover q ms).recovery s.tile.tile = some
    { tile := s.tile.tile, failed := s.site, crane := s.craneOf q, members := ms } := by
  have h : (s.wafer.healing.recoveries.filter (fun k => k.tile != s.tile.tile)).find?
      (fun r => r.tile == s.tile.tile) = none := by
    rw [List.find?_eq_none]
    intro r hr
    simpa using (List.mem_filter.mp hr).2
  have e : (s.recover q ms).wafer.healing.recoveries =
      s.wafer.healing.recoveries.filter (fun k => k.tile != s.tile.tile) ++
        [{ tile := s.tile.tile, failed := s.site, crane := s.craneOf q, members := ms }] := rfl
  rw [State.recovery, e, List.find?_append, h]
  simp

theorem carrier_congr {s u : State} (ids : u.siteIds = s.siteIds)
    (points : ∀ y, (u.junctionAt y).points = (s.junctionAt y).points)
    (tiles : ∀ y, (u.tileAt y).tile = (s.tileAt y).tile) (l : TileNo) : u.carrier l = s.carrier l := by
  unfold State.carrier
  rw [ids]
  congr 1
  funext x
  rw [points, tiles]

theorem passing_stays (s : State) : Stays s s.passing := ⟨rfl, rfl⟩

theorem passing_carrier (s : State) (l : TileNo) : s.passing.carrier l = s.carrier l :=
  carrier_congr (s := s) (u := s.passing) rfl
    (fun y => by
      rw [(passing_stays s).junctionAt]
      split_ifs with e
      · rw [e, junctionAt_site]; rfl
      · rfl)
    (fun y => by rw [(passing_stays s).tileAt_kept rfl y]) l

theorem WaybillStep.mono {l : TileNo} {s t u : State} {P : Waybill → Waybill → Prop} (h : WaybillStep l P s t)
    (k : Halts t u) (hP : ∀ b c d, P b c → c.Loses d → P b d) : WaybillStep l P s u := by
  intro b hb
  obtain ⟨c, hc, p⟩ := h b hb
  obtain ⟨d, hd, e⟩ := k.waybills l c hc
  exact ⟨d, hd, hP b c d p e⟩

/-- A fence does to the site in focus what R439 says. -/
theorem fence_fenced (s : State) : Fenced s (fence s) := by
  have hv : Halts s.passing s.passing.letGo := letGo_halts _
  have loses : LosesHolder s.site s s.passing.letGo := fun l b x hb hh hx =>
    tilesHeldBy_loses s.passing s.site l b x hb hh ((passing_carrier s l).trans hx)
  have hj : s.passing.letGo.junction = { s.junction with passThrough := true } := hv.junction
  have hk : s.passing.letGo.keepsWaybill = s.keepsWaybill := hv.keepsWaybill
  have hr : s.passing.letGo.recovering = true →
      ∃ r ∈ s.wafer.healing.recoveries, r.tile = s.tile.tile ∧ r.failed = s.site := fun h => by
    obtain ⟨r, hr, g⟩ := List.any_eq_true.mp h
    rw [hv.recoveries] at hr
    rw [hv.tile_tile, hv.site, Bool.and_eq_true_iff, beq_iff_eq, beq_iff_eq] at g
    exact ⟨r, hr, g⟩
  have hmem : s.passing.letGo.tile.mem = s.tile.mem := hv.tile_mem
  have hsite : s.passing.letGo.site = s.site := hv.site
  have htile : s.passing.letGo.tile.tile = s.tile.tile := hv.tile_tile
  have hclock : s.passing.letGo.wafer.clock = s.wafer.clock := hv.clock
  have hcranes : s.passing.letGo.wafer.healing.cranes = s.wafer.healing.cranes := hv.cranes
  have hfail : ∀ b, s.wafer.waybill s.tile.tile = some b →
      ∃ c, s.passing.letGo.wafer.waybill s.tile.tile = some c ∧ c.failures = b.failures := fun b hb =>
    let ⟨c, hc, e⟩ := hv.waybills s.tile.tile b hb
    ⟨c, hc, e.failures⟩
  have hcases := fence_cases s
  generalize s.passing.letGo = v at *
  rcases hcases with ⟨why, e⟩ | ⟨nf, nr, nk, e⟩ | ⟨nf, nr, k, ms, xs, e⟩
  · rw [e]
    refine ⟨by rw [hj], ⟨hmem, hsite⟩, loses, fun h => by rw [hj]; exact h, fun nf _ none => ?_, fun nf _ none => ?_⟩
    all_goals
      rw [hj] at why
      obtain ⟨r, hr, g⟩ := hr (why.resolve_left nf)
      exact absurd g (none r hr)
  · rw [e]
    rw [hj] at nf
    exact ⟨by rw [hj], ⟨hmem, hsite⟩, loses, fun h => absurd h nf, fun _ h => absurd (hk.symm.trans nk) (by simp [h]),
      fun _ _ _ => rfl⟩
  · rw [hj] at nf
    have h₁ := stopTile_onlyInFlight (v.recover (quadrant s.site) ms)
    have h₂ : Halts (v.recover (quadrant s.site) ms).holdTile (fence s) := by
      rw [e]; exact h₁.halts.trans (Halts.atSites stopTile_halts xs _)
    have h₃ := (holdTile_halts (v.recover (quadrant s.site) ms)).trans h₂
    have bill := recover_waybill v (quadrant s.site) ms
    refine ⟨?_, ⟨h₃.tile_mem.trans hmem, h₃.site.trans hsite⟩, ?_, fun h => absurd h nf, fun _ _ _ => ⟨?_, ?_, ?_, ?_⟩,
      fun _ h => absurd (hk.symm.trans k) (by simp [h])⟩
    · rw [h₃.junction]
      exact congrArg Site.passThrough hj
    · intro l b x hb hh hx
      refine WaybillStep.mono (t := v.recover (quadrant s.site) ms) ?_ h₃ (fun _ _ _ p l => l.lost p)
      intro b' hb'
      obtain ⟨c, hc, lost⟩ := loses l b x hb hh hx b' hb'
      refine ⟨_, by rw [bill, hc]; rfl, ?_⟩
      split_ifs <;> exact lost
    · exact h₂.stopped rfl
    · refine h₂.holds _ ?_
      rw [← htile]
      exact (mem_insertTile _ _).1
    · have hrec : (fence s).recovery s.tile.tile = (v.recover (quadrant s.site) ms).recovery v.tile.tile := by
        rw [State.recovery, State.recovery, h₃.recoveries, htile]
      exact ⟨_, hrec.trans (recover_recovery v _ ms), hsite, rfl, by rw [State.craneOf, hcranes]⟩
    · refine WaybillStep.mono (t := v.recover (quadrant s.site) ms) ?_ h₃ (fun _ _ _ p l => l.failures.trans p)
      intro b hb
      obtain ⟨c, hc, f⟩ := hfail b hb
      refine ⟨_, by rw [bill, hc]; rfl, ?_⟩
      simp only [if_pos htile.symm, hclock, f]

/-! ### What fences leave of the wafer -/

/-- Tiles stop, or are asked for a boundary; junctions pass through, or are failed; the banks stay. -/
structure Fences (s u : State) : Prop where
  tiles : ∀ y, ∃ c d, u.tileAt y = { s.tileAt y with closeAsked := c, stopped := d } ∧
    ((s.tileAt y).stopped = true → d = true)
  junctions : ∀ y, ∃ st p, u.junctionAt y = { s.junctionAt y with status := st, passThrough := p } ∧
    ((s.junctionAt y).passThrough = true → p = true)
  domainBanks : u.wafer.healing.domainBanks = s.wafer.healing.domainBanks

theorem Fences.trans {s t u : State} (h : Fences s t) (k : Fences t u) : Fences s u where
  tiles y := by
    obtain ⟨c, d, e, hd⟩ := h.tiles y
    obtain ⟨c', d', e', hd'⟩ := k.tiles y
    rw [e] at e' hd'
    exact ⟨c', d', e', fun g => hd' (hd g)⟩
  junctions y := by
    obtain ⟨c, d, e, hd⟩ := h.junctions y
    obtain ⟨c', d', e', hd'⟩ := k.junctions y
    rw [e] at e' hd'
    exact ⟨c', d', e', fun g => hd' (hd g)⟩
  domainBanks := k.domainBanks.trans h.domainBanks

theorem Halts.fences {s u : State} (h : Halts s u) : Fences s u where
  tiles y := let ⟨c, d, e, _, hd⟩ := h.tiles y
    ⟨c, d, e, hd⟩
  junctions y := ⟨_, _, h.junctions y, id⟩
  domainBanks := h.domainBanks

/-- A change at the site in focus that keeps its tile, and its junction but for its status and its passing through. -/
theorem Fences.of_stays {s u : State} (st : Stays s u) (tile : u.tile = s.tile)
    (junction : ∃ st p, u.junction = { s.junction with status := st, passThrough := p } ∧
      (s.junction.passThrough = true → p = true))
    (banks : u.wafer.healing.domainBanks = s.wafer.healing.domainBanks) : Fences s u where
  tiles y := ⟨_, _, st.tileAt_kept tile y, id⟩
  junctions y := by
    rw [st.junctionAt]
    split_ifs with e
    · rw [e, junctionAt_site]; exact junction
    · exact ⟨_, _, rfl, id⟩
  domainBanks := banks

theorem fence_fences (s : State) : Fences s (fence s) := by
  have hp : Fences s s.passing := .of_stays ⟨rfl, rfl⟩ rfl ⟨_, true, rfl, fun _ => rfl⟩ rfl
  have hv := hp.trans (letGo_halts s.passing).fences
  have hcases := fence_cases s
  generalize s.passing.letGo = v at *
  rcases hcases with ⟨-, e⟩ | ⟨-, -, -, e⟩ | ⟨-, -, -, ms, xs, e⟩
  · rw [e]; exact hv
  · rw [e]
    exact hv.trans (.of_stays ⟨rfl, rfl⟩ rfl ⟨_, _, rfl, id⟩ rfl)
  · rw [e]
    have hr : Fences v (v.recover (quadrant s.site) ms) := .of_stays ⟨rfl, rfl⟩ rfl ⟨_, _, rfl, id⟩ rfl
    exact (hv.trans hr).trans ((stopTile_halts _).trans (Halts.atSites stopTile_halts xs _)).fences

theorem fence_site (s : State) : (fence s).site = s.site := (fence_fenced s).memory.2

theorem fence_bank (s : State) : (fence s).tile.bank = s.tile.bank ∧ (fence s).junction.bank = s.junction.bank := by
  have h := fence_fences s
  obtain ⟨c, d, e, -⟩ := h.tiles s.site
  obtain ⟨p, q, f, -⟩ := h.junctions s.site
  rw [tileAt_of_site (fence_site s), tileAt_site] at e
  rw [junctionAt_of_site (fence_site s), junctionAt_site] at f
  rw [e, f]
  exact ⟨rfl, rfl⟩

/-- The state with other records in the banks in focus, its tile stopped or not, and other notices and free choices. -/
def State.noted (t : State) (a b : ErrBank) (st : Bool) (n : List Notice) (f : Nat) : State :=
  { t with tile := { t.tile with bank := a, stopped := st }, junction := { t.junction with bank := b },
           wafer := { t.wafer with notices := n, free := f } }

theorem noted_carrier (t : State) (a b : ErrBank) (st : Bool) (n : List Notice) (f : Nat) (l : TileNo) :
    (t.noted a b st n f).carrier l = t.carrier l := by
  have hs : Stays t (t.noted a b st n f) := ⟨rfl, rfl⟩
  refine carrier_congr hs.siteIds (fun y => ?_) (fun y => ?_) l
  · rw [hs.junctionAt]
    split_ifs with e
    · rw [e, junctionAt_site]; rfl
    · rfl
  · rw [hs.tileAt]
    split_ifs with e
    · rw [e, tileAt_site]; rfl
    · rfl

/-- A fence that comes with records of its own is a fence. -/
theorem Fenced.of_noted {t u : State} {a b : ErrBank} {st : Bool} {n : List Notice} {f : Nat}
    (h : Fenced (t.noted a b st n f) u) : Fenced t u where
  junction := h.junction
  memory := h.memory
  shadows l b x hb hh hx := h.shadows l b x hb hh ((noted_carrier ..).trans hx)
  fused := h.fused
  tile := h.tile
  bare := h.bare

/-! ### A change that reaches a site -/

/-- What a change brings about at one of several sites, while an invariant holds, it brings about at all of them. -/
theorem atSites_reaches {I P : View → Prop} {f : State → State} {x : SiteId} (inv : ∀ u : State, I u.view → I (f u).view)
    (keeps : ∀ u : State, P u.view → P (f u).view) (reach : ∀ u : State, u.site = x → I u.view → P (f u).view)
    {l : List SiteId} (hx : x ∈ l) (s : State) (h : I s.view) : P (s.atSites f l).view := by
  induction l generalizing s with
  | nil => cases hx
  | cons y r ih =>
    rw [atSites_cons]
    by_cases e : x = y
    · refine atSites_keeps _ keeps ?_
      rw [atSite_view]
      exact reach _ (by simp [e]) (by rwa [focusSite_view])
    · refine ih ((List.mem_cons.mp hx).resolve_left e) _ ?_
      rw [atSite_view]
      exact inv _ (by rwa [focusSite_view])

/-- Where a boundary is asked for, it stays asked for while others are. -/
theorem atSites_closeAsked {f : State → State} (hf : ∀ s, Halts s (f s)) {x : SiteId}
    (reach : ∀ u : State, u.site = x → (f u).tile.closeAsked = true) {l : List SiteId} (hx : x ∈ l) (s : State) :
    ((s.atSites f l).tileAt x).closeAsked = true := by
  refine atSites_reaches (I := fun _ => True) (P := fun v => (v.tile x).closeAsked = true) (fun _ => id)
    (fun u h => ?_) (fun u h _ => ?_) hx s trivial
  · obtain ⟨c, d, e, hc, -⟩ := (hf u).tiles x
    have g : (f u).view.tile x = { u.tileAt x with closeAsked := c, stopped := d } := e
    rw [g]
    exact hc h
  · have g : (f u).view.tile x = (f u).tile := tileAt_of_site ((hf u).site.trans h)
    rw [g]
    exact reach u h

end Sys2Proof.Machine
end

