-- ==== Sys2Proof/Proofs/MachineChecks.lean ====
section
/-!
SUPPORT. Machine checks by their source (R432 to R437).
-/
namespace Sys2Proof.Machine

set_option Elab.async false

/-! ### Records of the unit in focus -/

theorem tileError_records (t : State) (e : ErrRec) : RecordsError e t.tile.bank (t.tileError e).tile.bank := by
  obtain ⟨n, h⟩ := tileError_only t e
  rw [h]
  exact ErrBank.add_records _ e

theorem junctionError_records (t : State) (e : ErrRec) : RecordsError e t.junction.bank (t.junctionError e).junction.bank := by
  obtain ⟨n, h⟩ := junctionError_only t e
  rw [h]
  exact ErrBank.add_records _ e

/-! ### Checks that fence -/

/-- A machine check of the tile in focus fences its site, and records the error unless the tile stands already. -/
theorem checkSite_fences (err : ErrorReport) (t : State) : Fenced t (checkSite err t) ∧
    (t.tile.stopped = false →
      RecordsError (newError 3 true false err t.clock) t.tile.bank (checkSite err t).tile.bank) ∧
    (t.tile.stopped = true → (checkSite err t).tile.bank = t.tile.bank) := by
  unfold checkSite
  split_ifs with h
  · exact ⟨fence_fenced t, fun g => by simp [h] at g, fun _ => (fence_bank t).1⟩
  · refine ⟨?_, fun _ => ?_, fun g => absurd g h⟩
    · obtain ⟨n, e⟩ := tileError_only t (newError 3 true false err t.clock)
      have m : t.machineCheck false err =
          t.noted (t.tile.bank.add (newError 3 true false err t.clock)).1 t.junction.bank true n t.wafer.free := by
        unfold State.machineCheck
        dsimp only
        rw [e]
        rfl
      rw [m]
      exact (fence_fenced _).of_noted
    · rw [(fence_bank _).1]
      exact tileError_records t _

/-- A machine check of the junction in focus records the error, and fences what can be fenced. -/
theorem checkJunction_checks (err : ErrorReport) (t : State) :
    RecordsError (newError 3 true false err t.clock) t.junction.bank (checkJunction err t).junction.bank ∧
      JunctionChecked t (checkJunction err t) := by
  obtain ⟨n, e⟩ := junctionError_only t (newError 3 true false err t.clock)
  have r := junctionError_records t (newError 3 true false err t.clock)
  unfold checkJunction
  dsimp only
  generalize t.junctionError (newError 3 true false err t.clock) = u at *
  have same : u.junction.status = t.junction.status := by rw [e]
  have either : (u.junction.status = .fused || u.junction.status = .failed) = true ↔
      t.junction.status = .fused ∨ t.junction.status = .failed := by simp [same]
  by_cases h : t.junction.status = .fused ∨ t.junction.status = .failed
  · rw [if_pos (either.mpr h)]
    refine ⟨r, ?_⟩
    have site : u.site = t.site := by rw [e]
    rw [JunctionChecked, if_pos h, site]
    refine ⟨rfl, ?_, by rw [e], by rw [e]⟩
    dsimp only
    split_ifs with d
    · simpa using d
    · simp
  · rw [if_neg (fun g => h (either.mp g)), (fence_bank u).2, JunctionChecked, if_neg h]
    refine ⟨r, ?_⟩
    have m : u = t.noted t.tile.bank (t.junction.bank.add (newError 3 true false err t.clock)).1 t.tile.stopped n
        t.wafer.free := e
    rw [m]
    exact (fence_fenced _).of_noted

/-! ### Checks by source -/

section
variable {site : SiteId} {err : ErrorReport} {s : State}

theorem machineCheck_corrected_link (hn : err.src.toNat = 10) (hc : err.corrected = true) :
    Runs (.machineCheck site err) s (fun u =>
      RecordsError (newError 1 false false err (s.focusSite site).clock) (s.focusSite site).junction.bank
        u.junction.bank ∧
      u.tile = (s.focusSite site).tile ∧ u.core = (s.focusSite site).core ∧
      u.others = (s.focusSite site).others ∧ KeepsMemory (s.focusSite site) u) := by
  have run : exec (.machineCheck site err) s = execMachineCheck site err s := rfl
  refine ⟨_, run.trans (by unfold execMachineCheck; simp only [hn, hc]), junctionError_records _ _, ?_⟩
  obtain ⟨n, e⟩ := junctionError_only (s.focusSite site) (newError 1 false false err (s.focusSite site).clock)
  rw [e]
  exact ⟨rfl, rfl, rfl, ⟨fun _ => rfl, fun _ => rfl, fun _ => rfl, fun _ => rfl, rfl⟩⟩

theorem machineCheck_junction (h : err.src.toNat = 13 ∨ (err.src.toNat = 10 ∧ err.corrected = false)) :
    Runs (.machineCheck site err) s (fun u =>
      RecordsError (newError 3 true false err (s.focusSite site).clock) (s.focusSite site).junction.bank
        u.junction.bank ∧ JunctionChecked (s.focusSite site) u) := by
  have run : exec (.machineCheck site err) s = execMachineCheck site err s := rfl
  refine ⟨checkJunction err (s.focusSite site), run.trans ?_, checkJunction_checks err _⟩
  unfold execMachineCheck
  rcases h with hn | ⟨hn, hc⟩
  · simp only [hn]
  · simp only [hn, hc]

theorem machineCheck_corrected_hbm (hn : err.src.toNat = 14) (hc : err.corrected = true) :
    Runs (.machineCheck site err) s (fun u =>
      (u.tile = (s.focusSite site).tile ∧ u.core = (s.focusSite site).core ∧
        u.others = (s.focusSite site).others ∧ KeepsMemory (s.focusSite site) u) ∧
      RecordsIn (err.addr.toNat / 4096 % 40) (newError 1 false false err (s.focusSite site).clock)
        (s.focusSite site).wafer.rim.banks u.wafer.rim.banks) := by
  have run : exec (.machineCheck site err) s = execMachineCheck site err s := rfl
  refine ⟨(s.focusSite site).controllerError (err.addr.toNat / 4096 % 40)
    (newError 1 false false err (s.focusSite site).clock), run.trans (by unfold execMachineCheck; simp only [hn, hc]), ?_⟩
  obtain ⟨n, b, e, r⟩ := controllerError_only (s.focusSite site) (err.addr.toNat / 4096 % 40)
    (newError 1 false false err (s.focusSite site).clock)
  rw [e]
  exact ⟨⟨rfl, rfl, rfl, ⟨fun _ => rfl, fun _ => rfl, fun _ => rfl, fun _ => rfl, rfl⟩⟩, r⟩

theorem machineCheck_sector (h : err.src.toNat = 15 ∨ (err.src.toNat = 14 ∧ err.corrected = false)) :
    exec (.machineCheck site err) s = .next (breakSector err (s.focusSite site)) := by
  have run : exec (.machineCheck site err) s = execMachineCheck site err s := rfl
  rw [run, execMachineCheck]
  rcases h with hn | ⟨hn, hc⟩
  · simp only [hn]
  · simp only [hn, hc]

theorem machineCheck_none (h : err.src.toNat = 11 ∨ err.src.toNat = 17) :
    exec (.machineCheck site err) s = .next (s.focusSite site) := by
  have run : exec (.machineCheck site err) s = execMachineCheck site err s := rfl
  rw [run, execMachineCheck]
  rcases h with hn | hn <;> simp only [hn]

/-- An error of the shadow of a tile, corrected or not (source 16). -/
theorem machineCheck_shadow (hn : err.src.toNat = 16) : Runs (.machineCheck site err) s (fun u =>
    u.tile.mem = (s.focusSite site).tile.mem ∧ u.junction = (s.focusSite site).junction ∧
      RecordsError (newError (if err.corrected then 1 else 2) false false err (s.focusSite site).clock)
        (s.focusSite site).tile.bank u.tile.bank ∧
      (err.corrected = false → WaybillStep (s.focusSite site).tile.tile
        (fun _ c => c.holder = .hbm ∧ c.lost = true ∧ c.staged = none) (s.focusSite site) u)) := by
  have run : exec (.machineCheck site err) s = execMachineCheck site err s := rfl
  generalize ht : s.focusSite site = t
  cases hc : err.corrected with
  | true =>
    refine ⟨t.tileError (newError 1 false false err t.clock),
      run.trans (by unfold execMachineCheck; simp only [hn, hc, ht]), ?_, ?_, tileError_records _ _, fun h => by cases h⟩
    all_goals
      obtain ⟨n, e⟩ := tileError_only t (newError 1 false false err t.clock)
      rw [e]
  | false =>
    refine ⟨holderLost (t.tileError (newError 2 false false err t.clock)),
      run.trans (by unfold execMachineCheck; simp only [hn, hc, ht]), ?_⟩
    obtain ⟨n, e⟩ := tileError_only t (newError 2 false false err t.clock)
    have r := tileError_records t (newError 2 false false err t.clock)
    generalize t.tileError (newError 2 false false err t.clock) = v at *
    have h := holderLost_halts v
    refine ⟨h.tile_mem.trans (by rw [e]), h.junction.trans (by rw [e]), by rw [h.tile_bank]; exact r, fun _ b hb => ?_⟩
    have tile : v.tile.tile = t.tile.tile := by rw [e]
    obtain ⟨c, hc, lost⟩ := holderLost_lost v (b := b) (by rw [tile, e]; exact hb)
    exact ⟨c, by rwa [← tile], lost⟩

/-- An uncorrectable error in the shadow and the staging that a site holds (source 2). -/
theorem hiddenError_shadow (t : State) (hs : t.site = site) (ha : err.addr.toNat < 7 * 2 ^ 20) :
    RecordsError (newError 2 false false err t.clock) t.tile.bank (hiddenError err t).tile.bank ∧
      (hiddenError err t).tile.mem = t.tile.mem ∧ (hiddenError err t).junction = t.junction ∧
      ∀ l b x, t.wafer.waybill l = some b → b.holder = .buddy site → t.carrier l = some x →
        ((hiddenError err t).tileAt x).closeAsked = true := by
  rw [hiddenError, if_pos ha]
  dsimp only
  obtain ⟨n, e⟩ := tileError_only t (newError 2 false false err t.clock)
  have r := tileError_records t (newError 2 false false err t.clock)
  have hcar (l : TileNo) : (t.tileError (newError 2 false false err t.clock)).carrier l = t.carrier l := by
    rw [e]
    exact noted_carrier t (t.tile.bank.add (newError 2 false false err t.clock)).1 t.junction.bank t.tile.stopped n
      t.wafer.free l
  generalize t.tileError (newError 2 false false err t.clock) = v at *
  have h := Halts.atSites requestBoundary_halts (v.tilesHeldBy v.site) v
  refine ⟨by rw [h.tile_bank]; exact r, h.tile_mem.trans (by rw [e]), h.junction.trans (by rw [e]), ?_⟩
  intro l b x hb hh hx
  have vs : v.site = site := by rw [e]; exact hs
  refine atSites_closeAsked requestBoundary_halts (fun u _ => by rw [requestBoundary_tile]) ?_ v
  exact mem_tilesHeldBy (b := b) (l := l) (by rw [e]; exact hb) (by rw [vs]; exact hh) ((hcar l).trans hx)

theorem machineCheck_hidden (hn : err.src.toNat = 2) (hc : err.corrected = false) :
    exec (.machineCheck site err) s = .next (hiddenError err (s.focusSite site)) := by
  have run : exec (.machineCheck site err) s = execMachineCheck site err s := rfl
  rw [run, execMachineCheck]
  simp only [hn, hc]

/-- The error reports of the other sources. -/
theorem machineCheck_other (hn : err.src.toNat ∉ [10, 11, 13, 14, 15, 16, 17])
    (h2 : err.src.toNat = 2 → err.corrected = true) : exec (.machineCheck site err) s = .next
      (if err.corrected || err.src.toNat = 3 || err.src.toNat = 5 then correctedError err (s.focusSite site)
       else if errorDiffers err then checkSite err (s.focusSite site) else s.focusSite site) := by
  have run : exec (.machineCheck site err) s = execMachineCheck site err s := rfl
  rw [run, execMachineCheck]
  simp only [List.mem_cons, List.not_mem_nil, or_false, not_or] at hn
  split <;> simp_all

/-- What a corrected error changes (R432). -/
theorem correctedError_corrects (t : State) : let u := correctedError err t
    RecordsError (newError 1 false false err t.clock) t.tile.bank u.tile.bank ∧
      u.tile = { t.tile with bank := u.tile.bank, far := u.tile.far } ∧
      u.tile.far = (if err.src.toNat = 3 then t.tile.far.eraseIdx (field err.addr 0 10) else t.tile.far) ∧
      u.junction = t.junction ∧ (∀ c, ∃ ib, u.coreAt c = { t.coreAt c with ibuf := ib }) ∧ KeepsMemory t u := by
  obtain ⟨n, e⟩ := tileError_only t (newError 1 false false err t.clock)
  have r := tileError_records t (newError 1 false false err t.clock)
  unfold correctedError
  dsimp only
  generalize t.tileError (newError 1 false false err t.clock) = v at *
  have keeps : KeepsMemory t v := by rw [e]; exact ⟨fun _ => rfl, fun _ => rfl, fun _ => rfl, fun _ => rfl, rfl⟩
  have core (c : CoreId) : v.coreAt c = t.coreAt c := by rw [e]; rfl
  split
  next h3 =>
    refine ⟨r, by rw [e], ?_, by rw [e], fun c => ⟨_, core c⟩, ⟨keeps.own, keeps.hbm, keeps.host, keeps.peer, keeps.sites⟩⟩
    rw [if_pos h3, e]
  next h5 =>
    refine ⟨by rw [updCore_tile]; exact r, by rw [updCore_tile, e], ?_, by rw [updCore_junction, e], fun c => ?_, ?_⟩
    · rw [if_neg (by omega), updCore_tile, e]
    · rw [coreAt_updCore]
      split_ifs with hc
      · rw [hc, core]; exact ⟨_, rfl⟩
      · exact ⟨_, core c⟩
    · exact ⟨by simpa using keeps.own, by simpa using keeps.hbm, by simpa using keeps.host, by simpa using keeps.peer,
        by simpa using keeps.sites⟩
  next h3 _ =>
    exact ⟨r, by rw [e], by rw [if_neg h3, e], by rw [e], fun c => ⟨_, core c⟩, keeps⟩

end

/-! ### The watchdog and the link retries (R25, R434) -/

theorem watchdogTimeout_due {site : SiteId} {s : State} {b : Waybill}
    (hb : (s.focusSite site).wafer.waybill (s.focusSite site).tile.tile = some b) :
    exec (.watchdogTimeout site) s = .next
      (if (s.focusSite site).keepsWaybill = true ∧
          b.beatAt + field (s.focusSite site).tile.ckctl 32 16 * 1024 ≤ (s.focusSite site).wafer.clock then
        checkSite { src := 12, addr := 0, synd := BitVec.ofNat 64 b.beat } (s.focusSite site)
       else s.focusSite site) := by
  have run : exec (.watchdogTimeout site) s = execWatchdogTimeout site s := rfl
  rw [run, execWatchdogTimeout]
  simp only [hb, Bool.and_eq_true, decide_eq_true_eq]

/-- The report of a flit that failed its check. -/
def flitReport (t : State) (port : Port) (line : Line) : ErrorReport :=
  { src := 10, addr := BitVec.ofNat 64 (portNo port + (if line = .relief then 4 else 0)),
    synd := Config.hopRetries t.wafer.free }

theorem flitReport_addr (t : State) (port : Port) (line : Line) :
    (flitReport t port line).addr.toNat = portNo port + (if line = .relief then 4 else 0) := by
  unfold flitReport
  cases port <;> split_ifs <;> rfl

/-- The state after one more retry count has been drawn. -/
def State.retried (t : State) : State := { t with wafer := { t.wafer with free := t.wafer.free + 1 } }

theorem retried_checked {t u : State} (h : JunctionChecked t.retried u) : JunctionChecked t u := by
  have same : t.retried.junction = t.junction := rfl
  unfold JunctionChecked at h ⊢
  rw [same] at h
  split_ifs at h ⊢
  · exact h
  · exact Fenced.of_noted (a := t.tile.bank) (b := t.junction.bank) (st := t.tile.stopped) (n := t.wafer.notices)
      (f := t.wafer.free + 1) h

theorem flitCrcFailure_records (site : SiteId) (port : Port) (line : Line) (exhausted : Bool) (s : State) :
    Runs (.flitCrcFailure site port line exhausted) s (fun u =>
      (∃ e : ErrRec, e.src = 10 ∧ e.sev = (if exhausted then 3 else 1) ∧ e.mc = exhausted ∧
        e.addr.toNat = portNo port + (if line = .relief then 4 else 0) ∧
        RecordsError e (s.focusSite site).junction.bank u.junction.bank) ∧
      (exhausted = true → JunctionChecked (s.focusSite site) u) ∧
      (exhausted = false → u.tile = (s.focusSite site).tile ∧ u.core = (s.focusSite site).core)) := by
  have run : exec (.flitCrcFailure site port line exhausted) s =
      .next (if exhausted then checkJunction (flitReport (s.focusSite site) port line) (s.focusSite site).retried
        else (s.focusSite site).retried.junctionError
          (newError 1 false false (flitReport (s.focusSite site) port line) (s.focusSite site).retried.clock)) := rfl
  refine ⟨_, run, ?_⟩
  generalize s.focusSite site = t
  cases exhausted with
  | true =>
    obtain ⟨r, c⟩ := checkJunction_checks (flitReport t port line) t.retried
    exact ⟨⟨_, rfl, rfl, rfl, flitReport_addr t port line, r⟩, fun _ => retried_checked c, fun h => (by cases h)⟩
  | false =>
    refine ⟨⟨_, rfl, rfl, rfl, flitReport_addr t port line, junctionError_records t.retried _⟩, fun h => (by cases h),
      fun _ => ?_⟩
    obtain ⟨n, e⟩ := junctionError_only t.retried (newError 1 false false (flitReport t port line) t.retried.clock)
    rw [if_neg (by simp), e]
    exact ⟨rfl, rfl⟩

end Sys2Proof.Machine
end

