-- ==== Sys2Proof/Proofs/Losses.lean ====
section
/-!
SUPPORT. The hold and the choice of a reserve, and the losses of holders, cranes and power domains (R420, R432, R441, R447,
R449).
-/
namespace Sys2Proof.Machine

set_option Elab.async false

/-! ### Recoveries -/

theorem find_map_keeping {α : Type} {p : α → Bool} {f : α → α} (hf : ∀ a, p (f a) = p a) (l : List α) :
    (l.map f).find? p = (l.find? p).map f := by
  rw [List.find?_map]
  congr 1
  exact congrArg (l.find? ·) (funext hf)

theorem recovery_tile {s : State} {l : TileNo} {r : Recovery} (h : s.recovery l = some r) : r.tile = l := by
  simpa using List.find?_some h

/-- The recovery of a tile after a change of it. -/
theorem mapRecovery_recovery {s u : State} {l : TileNo} {r : Recovery} {f : Recovery → Recovery}
    (hf : ∀ r, (f r).tile = r.tile) (hu : u.wafer.healing.recoveries = s.wafer.healing.recoveries)
    (h : s.recovery l = some r) : (u.mapRecovery l f).recovery l = some (f r) := by
  have e : (u.mapRecovery l f).recovery l =
      (u.wafer.healing.recoveries.map (fun r => if r.tile = l then f r else r)).find? (fun r => r.tile == l) := rfl
  rw [State.recovery] at h
  rw [e, hu, find_map_keeping (fun r => by split_ifs <;> simp [hf]), h, Option.map_some,
    if_pos (recovery_tile h)]

/-! ### The hold and the reserve (R441, R449) -/

theorem hold_powerDomain (x : SiteId) (o : Option SiteId) : (o.map powerDomain != some (powerDomain x)) = true ↔
    ∀ y, o = some y → (field x 9 3, field x 3 3) ≠ (field y 9 3, field y 3 3) := by
  cases o with
  | none => simp
  | some y =>
    simp only [powerDomain, field, Option.map_some, bne_iff_ne, ne_eq, Option.some.injEq, Prod.mk.injEq, forall_eq']
    omega

theorem buddy_iff (b : Waybill) (y : SiteId) : b.buddy = some y ↔ b.holder = .buddy y := by
  unfold Waybill.buddy
  cases b.holder <;> simp

theorem unclaimed_iff (s : State) (x : SiteId) : s.wafer.healing.recoveries.any (fun r => r.site == some x) = false ↔
    ∀ k ∈ s.wafer.healing.recoveries, k.site ≠ some x := by
  simp

/-- What makes a site a reserve for a tile (R418, R441). -/
theorem mem_reserves (s : State) (b : Waybill) (x : SiteId) : x ∈ s.reserves b ↔
    (s.junctionAt x).status = .reserve ∧ (s.junctionAt x).located = true ∧ (s.junctionAt x).passThrough = false ∧
      (∀ k ∈ s.wafer.healing.recoveries, k.site ≠ some x) ∧
      ∀ y, b.holder = .buddy y → (field x 9 3, field x 3 3) ≠ (field y 9 3, field y 3 3) := by
  have listed : (s.junctionAt x).status = .reserve → x ∈ s.siteIds := fun h => by
    by_contra no
    rw [junctionAt_of_not_mem s x no] at h
    cases h
  rw [State.reserves, List.mem_filter]
  simp only [Bool.and_eq_true, unclaimed_iff, hold_powerDomain, buddy_iff, beq_iff_eq, Bool.not_eq_true']
  exact ⟨fun ⟨_, h⟩ => by tauto, fun h => ⟨listed h.1, by tauto⟩⟩

theorem mayCarry_iff (s : State) (b : Waybill) (failed x : SiteId) : s.mayCarry b failed x = true ↔ x ≠ failed ∧
    ((s.junctionAt x).status = .reserve ∨ (s.junctionAt x).status = .logical) ∧ (s.junctionAt x).passThrough = false ∧
    (∀ k ∈ s.wafer.healing.recoveries, k.site ≠ some x) ∧
    ∀ y, b.holder = .buddy y → (field x 9 3, field x 3 3) ≠ (field y 9 3, field y 3 3) := by
  have other : (x != failed) = true ↔ x ≠ failed := bne_iff_ne
  rw [State.mayCarry]
  simp only [Bool.and_eq_true, unclaimed_iff, hold_powerDomain, buddy_iff, beq_iff_eq, Bool.not_eq_true', other,
    Bool.or_eq_true]
  tauto

theorem nearer_iff (c a b : SiteId) : nearer c a b = true ↔
    hops c a < hops c b ∨ (hops c a = hops c b ∧ a.toNat < b.toNat) := by
  simp [nearer]

/-- The nearest of some sites is the one that is nearer than every other. -/
theorem nearest_eq {c x : SiteId} {l : List SiteId} (hx : x ∈ l) (best : ∀ y ∈ l, y ≠ x → nearer c x y = true) :
    nearest c l = some x := by
  have not_nearer {y : SiteId} (h : y ≠ x → nearer c x y = true) : nearer c y x = false := by
    rw [Bool.eq_false_iff, ne_eq, nearer_iff]
    by_cases e : y = x
    · subst e; omega
    · have := (nearer_iff c x y).mp (h e)
      omega
  let pick (m : Option SiteId) (y : SiteId) : Option SiteId := match m with
    | none => some y
    | some z => if nearer c y z then some y else some z
  have stays (k : List SiteId) (best : ∀ y ∈ k, y ≠ x → nearer c x y = true) : k.foldl pick (some x) = some x := by
    induction k with
    | nil => rfl
    | cons y r ih =>
      have h : pick (some x) y = some x := by
        simp [pick, not_nearer (best y List.mem_cons_self)]
      rw [List.foldl_cons, h]
      exact ih (fun y hy => best y (List.mem_cons_of_mem _ hy))
  have finds (k : List SiteId) : ∀ m : Option SiteId, x ∈ k → (∀ y ∈ k, y ≠ x → nearer c x y = true) →
      (∀ y, m = some y → y ≠ x → nearer c x y = true) → k.foldl pick m = some x := by
    induction k with
    | nil => intro m h; cases h
    | cons y r ih =>
      intro m hx best hm
      rw [List.foldl_cons]
      have rest : ∀ z ∈ r, z ≠ x → nearer c x z = true := fun z hz => best z (List.mem_cons_of_mem _ hz)
      by_cases e : y = x
      · subst e
        have h : pick m y = some y := by
          cases m with
          | none => rfl
          | some z =>
            by_cases g : z = y
            · subst g; simp [pick]
            · simp [pick, hm z rfl g]
        rw [h]
        exact stays r rest
      · refine ih _ ((List.mem_cons.mp hx).resolve_left (Ne.symm e)) rest (fun z hz hzx => ?_)
        cases m with
        | none =>
          obtain rfl : y = z := by simpa [pick] using hz
          exact best y List.mem_cons_self hzx
        | some w =>
          by_cases g : nearer c y w = true
          · obtain rfl : y = z := by simpa [pick, g] using hz
            exact best y List.mem_cons_self hzx
          · obtain rfl : w = z := by simpa [pick, g] using hz
            exact hm w rfl hzx
  exact finds l none hx best (fun y hy => by cases hy)

theorem findSome_quadrants {α : Type} (f : BitVec 2 → Option α) (k : BitVec 2) (x : α) (hk : f k = some x)
    (before : ∀ j : BitVec 2, j.toNat < k.toNat → f j = none) :
    ([0, 1, 2, 3] : List (BitVec 2)).findSome? f = some x := by
  have four : ∀ k : BitVec 2, k = 0 ∨ k = 1 ∨ k = 2 ∨ k = 3 := by decide
  have miss (j : BitVec 2) (l : List (BitVec 2)) (h : j.toNat < k.toNat) : (j :: l).findSome? f = l.findSome? f := by
    rw [List.findSome?_cons, before j h]
  have hit (l : List (BitVec 2)) : (k :: l).findSome? f = some x := by
    rw [List.findSome?_cons, hk]
  rcases four k with rfl | rfl | rfl | rfl
  · exact hit _
  · exact (miss 0 _ (by decide)).trans (hit _)
  · exact (miss 0 _ (by decide)).trans ((miss 1 _ (by decide)).trans (hit _))
  · exact (miss 0 _ (by decide)).trans ((miss 1 _ (by decide)).trans ((miss 2 _ (by decide)).trans (hit _)))

/-- How far a site's quadrant lies from that of a failed one, in turn (R441). -/
def turnTo (failed x : SiteId) : Nat := (quadrant x - quadrant failed).toNat

/-- The crane chooses the reserve that comes before every other, by quadrants in turn and then by distance (R441). -/
theorem chooseReserve_best {s : State} {b : Waybill} {failed x : SiteId} (hx : x ∈ s.reserves b)
    (best : ∀ y ∈ s.reserves b, y ≠ x → turnTo failed x < turnTo failed y ∨
      (turnTo failed x = turnTo failed y ∧ (hops failed x < hops failed y ∨
        (hops failed x = hops failed y ∧ x.toNat < y.toNat)))) : s.chooseReserve b failed = some x := by
  have inTurn (y : SiteId) (k : BitVec 2) : (quadrant y == quadrant failed + k) = true ↔ turnTo failed y = k.toNat := by
    rw [turnTo, BitVec.toNat_inj, beq_iff_eq]
    constructor
    · intro h; rw [h]; bv_omega
    · intro h; rw [← h]; bv_omega
  rw [State.chooseReserve]
  refine findSome_quadrants _ (quadrant x - quadrant failed) x ?_ (fun j hj => ?_)
  · refine nearest_eq (List.mem_filter.mpr ⟨hx, (inTurn _ _).mpr rfl⟩) (fun y hy hyx => ?_)
    obtain ⟨hy, hq⟩ := List.mem_filter.mp hy
    have same : turnTo failed y = turnTo failed x := (inTurn _ _).mp hq
    rw [nearer_iff]
    rcases best y hy hyx with h | h
    · omega
    · exact h.2
  · have empty : (s.reserves b).filter (fun x => quadrant x == quadrant failed + j) = [] := by
      rw [List.filter_eq_nil_iff]
      intro y hy hq
      have hj' : j.toNat < turnTo failed x := hj
      have same := (inTurn _ _).mp hq
      by_cases e : y = x
      · subst e; omega
      · have := best y hy e
        omega
    rw [empty]
    rfl

theorem chooseReserve_none {s : State} {b : Waybill} {failed : SiteId} (h : ∀ x, x ∉ s.reserves b) :
    s.chooseReserve b failed = none := by
  have empty : s.reserves b = [] := List.eq_nil_iff_forall_not_mem.mpr h
  simp [State.chooseReserve, empty, nearest]

theorem failsOften_iff (b : Waybill) (clock : Nat) :
    b.failsOften clock = true ↔ 3 ≤ b.failures.countP (fun t => decide (clock < t + 2 ^ 30)) := by
  rw [Waybill.failsOften, decide_eq_true_eq, List.countP_eq_length_filter]

/-- The recovery of a tile goes to a site. -/
def State.goTo (s : State) (tile : TileNo) (x : SiteId) : State :=
  s.mapRecovery tile (fun r => { r with phase := .held, site := some x })

theorem goTo_goes {s u : State} {tile : TileNo} {r : Recovery} (hr : s.recovery tile = some r)
    (hu : u = { s with wafer := { s.wafer with notices := u.wafer.notices } }) (x : SiteId) :
    (RecoveryAt tile .held (some x) r (u.goTo tile x) ∧ KeepsMemory s (u.goTo tile x)) ∧
      (u.goTo tile x).wafer.notices = u.wafer.notices := by
  refine ⟨⟨mapRecovery_recovery (fun _ => rfl) (by rw [hu]) hr, ?_⟩, rfl⟩
  rw [hu]
  exact ⟨fun _ => rfl, fun _ => rfl, fun _ => rfl, fun _ => rfl, rfl⟩

/-- Where a held tile goes (R441, R449). -/
theorem holdComplete_eq {tile : TileNo} {place : Option SiteId} {s : State} {r : Recovery} {b : Waybill}
    (hr : s.recovery tile = some r) (hb : s.wafer.waybill tile = some b) (hp : r.phase = .fenced) :
    exec (.holdComplete tile place) s = .next
      (if (b.failsOften s.wafer.clock && (place.filter (s.mayCarry b r.failed)).isSome) = true then
        (s.post (.replaced tile)).goTo tile ((place.filter (s.mayCarry b r.failed)).getD 0)
       else (s.chooseReserve b r.failed).elim
        ((place.filter (s.mayCarry b r.failed)).elim s
          ((s.post (.capacityLoss s.wafer.healing.holds.length)).goTo tile))
        (s.goTo tile)) := by
  have run : exec (.holdComplete tile place) s = execHoldComplete tile place s := rfl
  rw [run, execHoldComplete]
  simp only [hr, hb, hp, ne_eq, not_true_eq_false, if_false]
  congr 1
  split_ifs
  · rfl
  · cases s.chooseReserve b r.failed <;> cases place.filter (s.mayCarry b r.failed) <;> rfl

/-! ### Losses of holders (R420) -/

theorem sendRecords_eq (s : State) (b : Waybill) : s.sendRecords b = s.tile.dets.zipIdx.foldl (fun v d =>
    v.launchPacket .relief b.dest none (.determinant s.tile.tile (s.tile.detBase + d.2) d.1)) s := by
  have h (l : List (Det × Nat)) : ∀ v : State, v.tile = s.tile →
      l.foldl (fun v d =>
        v.launchPacket .relief b.dest none (.determinant v.tile.tile (v.tile.detBase + d.2) d.1)) v =
      l.foldl (fun v d =>
        v.launchPacket .relief b.dest none (.determinant s.tile.tile (s.tile.detBase + d.2) d.1)) v := by
    induction l with
    | nil => intro v _; rfl
    | cons d r ih =>
      intro v hv
      rw [List.foldl_cons, List.foldl_cons, hv]
      exact ih _ ((launchPacket_onlySends v _ _ _ _).tile.trans hv)
  exact h _ s rfl

/-- What a tile has before its holder is lost, and keeps while others lose theirs. -/
def HasRecords (x : SiteId) (t : Tile) (region n : Nat) (v : View) : Prop :=
  (v.tile x).dets = t.dets ∧ (v.tile x).detBase = t.detBase ∧ (v.tile x).tile = t.tile ∧
    (∃ c, v.wafer.waybill t.tile = some c ∧ c.region = region) ∧ n ≤ v.wafer.nextId

/-- Its records are on their way to the controller of its region, and a boundary is asked for. -/
def HasSentRecords (x : SiteId) (t : Tile) (region n : Nat) (v : View) : Prop :=
  (v.tile x).closeAsked = true ∧ ∀ i d, t.dets[i]? = some d → ∃ q ∈ v.wafer.net, n ≤ q.id ∧ q.origin = x ∧
    q.line = .relief ∧ q.dest = .controller (region / 4096 % 40) ∧ q.msg = .determinant t.tile (t.detBase + i) d

theorem holderLost_sends (s : State) : s.wafer.nextId ≤ (holderLost s).wafer.nextId ∧
    ∀ q ∈ s.wafer.net, q ∈ (holderLost s).wafer.net := by
  rw [holderLost_eq]
  cases s.wafer.waybill s.tile.tile with
  | none => exact ⟨le_refl _, fun _ => id⟩
  | some b =>
    have h := sendRecords_onlySends (s.mapWaybill Waybill.take) b.take
    dsimp only
    rw [requestBoundary_wafer]
    obtain ⟨l, hl, -⟩ := h.adds
    exact ⟨h.ids, fun q hq => by rw [hl]; exact List.mem_append_left _ hq⟩

theorem holderLost_hasRecords {x : SiteId} {t : Tile} {region n : Nat} (u : State)
    (h : HasRecords x t region n u.view) : HasRecords x t region n (holderLost u).view := by
  obtain ⟨hd, hb, ht, ⟨c, hc, hr⟩, hn⟩ := h
  have k := holderLost_halts u
  obtain ⟨p, q, e, -⟩ := k.tiles x
  obtain ⟨c', hc', l⟩ := k.waybills t.tile c hc
  have e' : (holderLost u).view.tile x = { u.tileAt x with closeAsked := p, stopped := q } := e
  exact ⟨by rw [e']; exact hd, by rw [e']; exact hb, by rw [e']; exact ht, ⟨c', hc', l.region.trans hr⟩,
    hn.trans (holderLost_sends u).1⟩

theorem holderLost_hasSentRecords {x : SiteId} {t : Tile} {region n : Nat} (u : State)
    (h : HasSentRecords x t region n u.view) : HasSentRecords x t region n (holderLost u).view := by
  obtain ⟨hc, hs⟩ := h
  obtain ⟨p, q, e, hp, -⟩ := (holderLost_halts u).tiles x
  have e' : (holderLost u).view.tile x = { u.tileAt x with closeAsked := p, stopped := q } := e
  refine ⟨by rw [e']; exact hp hc, fun i d hd => ?_⟩
  obtain ⟨q, hq, r⟩ := hs i d hd
  exact ⟨q, (holderLost_sends u).2 q hq, r⟩

theorem holderLost_reaches {x : SiteId} {t : Tile} {region n : Nat} (u : State) (hu : u.site = x)
    (h : HasRecords x t region n u.view) : HasSentRecords x t region n (holderLost u).view := by
  obtain ⟨hd, hb, ht, ⟨c, hc, hr⟩, hn⟩ := h
  have tile : u.view.tile x = u.tile := tileAt_of_site hu
  rw [tile] at hd hb ht
  have k := holderLost_halts u
  have tile' : (holderLost u).view.tile x = (holderLost u).tile := tileAt_of_site (k.site.trans hu)
  have hc' : u.wafer.waybill u.tile.tile = some c := by rw [ht]; exact hc
  unfold HasSentRecords
  rw [tile', holderLost_eq, hc']
  dsimp only
  refine ⟨by rw [requestBoundary_tile], fun i d hi => ?_⟩
  have hmem : (d, i) ∈ (u.mapWaybill Waybill.take).tile.dets.zipIdx := by
    rw [List.mem_zipIdx_iff_getElem?]
    exact (congrArg (·[i]?) hd).trans hi
  have sent : Sent x .relief (.controller (region / 4096 % 40)) (.determinant t.tile (t.detBase + i) d)
      (u.mapWaybill Waybill.take) ((u.mapWaybill Waybill.take).sendRecords c.take) := by
    rw [sendRecords_eq]
    refine foldl_sent (fun s _ => launchPacket_onlySends s _ _ _ _) hmem (fun v hv hsite => ?_) _ (le_refl _) rfl
    have h := launchPacket_sent v (u.mapWaybill Waybill.take) .relief c.take.dest none
      (.determinant u.tile.tile (u.tile.detBase + i) d) hv
    rw [← ht, ← hb, ← hr]
    rwa [hsite, show (u.mapWaybill Waybill.take).site = x from hu] at h
  obtain ⟨q, hq, hid, r⟩ := sent
  refine ⟨q, ?_, hn.trans hid, r⟩
  have e : ((u.mapWaybill Waybill.take).sendRecords c.take).requestBoundary.view.wafer.net =
    ((u.mapWaybill Waybill.take).sendRecords c.take).wafer.net := by
      rw [State.view, requestBoundary_wafer]
  rw [e]
  exact hq

/-- The buddy of a tile fails while the tile lives (R420). -/
theorem holderLoss_loses {site x : SiteId} {l : TileNo} {s : State} {b : Waybill} (hb : s.wafer.waybill l = some b)
    (hh : b.holder = .buddy site) (hx : s.carrier l = some x) : Runs (.holderLoss site) s (fun u =>
      WaybillStep l (fun b c => c.holder = .hbm ∧ c.lost = true ∧ c.staged = none ∧ c.committed = b.committed ∧
        c.log = b.log) s u ∧
      (∀ i d, (s.tileAt x).dets[i]? = some d → Sent x .relief (.controller (b.region / 4096 % 40))
        (.determinant l ((s.tileAt x).detBase + i) d) s u) ∧
      (u.tileAt x).closeAsked = true ∧ (u.tileAt x).mem = (s.tileAt x).mem ∧ u.wafer.hbm = s.wafer.hbm) := by
  refine ⟨s.atSites holderLost (s.tilesHeldBy site), rfl, ?_⟩
  have hm := mem_tilesHeldBy hb hh hx
  have ht := carrier_tile hx
  have h := Halts.atSites holderLost_halts (s.tilesHeldBy site) s
  obtain ⟨c, hc, lost⟩ := atSites_holderLost _ s hm ht (by simp [hb])
  have start : HasRecords x (s.tileAt x) b.region s.wafer.nextId s.view :=
    ⟨rfl, rfl, rfl, ⟨b, by rw [ht]; exact hb, rfl⟩, le_refl _⟩
  obtain ⟨asked, sent⟩ := atSites_reaches holderLost_hasRecords holderLost_hasSentRecords holderLost_reaches hm s start
  obtain ⟨p, q, e, -⟩ := h.tiles x
  refine ⟨fun b' hb' => ?_, fun i d hd => ?_, asked, by rw [e], h.hbm⟩
  · obtain ⟨c', hc', loses⟩ := h.waybills l b' hb'
    obtain rfl : c' = c := Option.some.inj (hc'.symm.trans hc)
    exact ⟨c', hc, lost.1, lost.2.1, lost.2.2, loses.committed, loses.log.1⟩
  · rw [← ht]
    exact sent i d hd

/-! ### The loss of a crane (R447) -/

theorem craneTakeover_takes (crane : BitVec 2) (s : State) : Runs (.craneTakeover crane) s (fun u =>
    (∀ q < 4, vget u.wafer.healing.cranes q 0 =
      if vget s.wafer.healing.cranes q 0 = crane then crane + 1 else vget s.wafer.healing.cranes q 0) ∧
    (∀ l r, s.recovery l = some r →
      u.recovery l = some { r with crane := if r.crane = crane then crane + 1 else r.crane }) ∧
    u.tile = s.tile ∧ u.core = s.core) := by
  have run : exec (.craneTakeover crane) s = execCraneTakeover crane s := rfl
  refine ⟨_, run, fun q hq => ?_, fun l r hr => ?_, rfl, rfl⟩
  · simp [vget, hq]
  · have h := find_map_keeping (p := fun r => r.tile == l)
      (f := fun r => if r.crane = crane then { r with crane := crane + 1 } else r)
      (fun r => by split_ifs <;> rfl) s.wafer.healing.recoveries
    rw [State.recovery] at hr
    refine h.trans ?_
    rw [hr, Option.map_some]
    split_ifs <;> rfl

/-! ### The loss of a power domain (R432, R477) -/

theorem mem_domainSites {domain : BitVec 6} {x : SiteId} (h : 8 * field x 9 3 + field x 3 3 = domain.toNat) :
    x ∈ domainSites domain.toNat := by
  have hx := x.isLt
  refine List.mem_map.mpr ⟨field x 6 3 * 8 + field x 0 3, List.mem_range.mpr (by simp only [field]; omega), ?_⟩
  apply BitVec.eq_of_toNat_eq
  rw [BitVec.toNat_ofNat, ← h]
  simp only [field]
  omega

theorem losePower_fences (s : State) : Fences s (losePower s) := by
  refine Fences.trans ?_ (fence_fences _)
  have h : Stays s { s with tile := { s.tile with stopped := true } } := ⟨rfl, rfl⟩
  refine ⟨fun y => ?_, fun y => ⟨_, _, h.junctionAt_kept rfl y, id⟩, rfl⟩
  rw [h.tileAt]
  split_ifs with e
  · rw [e, tileAt_site]; exact ⟨_, true, rfl, fun _ => rfl⟩
  · exact ⟨_, _, rfl, id⟩

/-- A site lies without power: its junction passes through, and its tile is stopped. -/
def WithoutPower (x : SiteId) (v : View) : Prop := (v.junction x).passThrough = true ∧ (v.tile x).stopped = true

theorem Fences.withoutPower {s u : State} {x : SiteId} (h : Fences s u) (k : WithoutPower x s.view) :
    WithoutPower x u.view := by
  obtain ⟨c, d, e, hd⟩ := h.tiles x
  obtain ⟨p, q, f, hq⟩ := h.junctions x
  have e' : u.view.tile x = { s.tileAt x with closeAsked := c, stopped := d } := e
  have f' : u.view.junction x = { s.junctionAt x with status := p, passThrough := q } := f
  exact ⟨by rw [f']; exact hq k.1, by rw [e']; exact hd k.2⟩

theorem losePower_withoutPower {x : SiteId} {s : State} (hs : s.site = x) : WithoutPower x (losePower s).view := by
  let t : State := { s with tile := { s.tile with stopped := true } }
  have hsite : (fence t).site = x := (fence_site t).trans hs
  obtain ⟨c, d, e, hd⟩ := (fence_fences t).tiles t.site
  rw [tileAt_of_site (fence_site t), tileAt_site] at e
  rw [tileAt_site] at hd
  have ej : (losePower s).view.junction x = (fence t).junction := junctionAt_of_site hsite
  have et : (losePower s).view.tile x = (fence t).tile := tileAt_of_site hsite
  exact ⟨by rw [ej]; exact (fence_fenced t).junction, by rw [et, e]; exact hd rfl⟩

theorem Fences.atSites {f : State → State} (hf : ∀ s, Fences s (f s)) (l : List SiteId) (s : State) :
    (s.atSites f l).wafer.healing.domainBanks = s.wafer.healing.domainBanks :=
  atSites_keeps (P := fun v => v.wafer.healing.domainBanks = s.wafer.healing.domainBanks) s
    (fun u h => (hf u).domainBanks.trans h) rfl

/-- The sites of a domain lie without power, and the banks are as they were. -/
theorem losePower_domain (s : State) (domain : BitVec 6) :
    (∀ x : SiteId, 8 * field x 9 3 + field x 3 3 = domain.toNat →
      WithoutPower x (s.atSites losePower (domainSites domain.toNat)).view) ∧
    (s.atSites losePower (domainSites domain.toNat)).wafer.healing.domainBanks = s.wafer.healing.domainBanks :=
  ⟨fun x hx => atSites_reaches (I := fun _ => True) (P := WithoutPower x) (fun _ => id)
      (fun u h => (losePower_fences u).withoutPower h) (fun _ hu _ => losePower_withoutPower hu) (mem_domainSites hx) s
      trivial,
    Fences.atSites losePower_fences _ s⟩

/-- The bank of a power domain, empty where it has none. -/
def State.domainBank (s : State) (d : Nat) : ErrBank :=
  match s.wafer.healing.domainBanks.find? (fun b => b.1 == d) with
  | some b => b.2
  | none => Vector.replicate 4 {}

/-- The record of the loss of a power domain. -/
def domainError (domain : BitVec 6) (kind : PowerFault) (s : State) : ErrRec :=
  newError 3 true false
    { src := 17, addr := BitVec.ofNat 64 domain.toNat, synd := BitVec.ofNat 64 (faultCode kind) } s.clock

/-- The bank of a power domain takes a record, before its sites lose their power. -/
def State.recordDomain (s : State) (d : Nat) (e : ErrRec) : State :=
  ({ s with wafer := { s.wafer with healing := { s.wafer.healing with
      domainBanks := putKey s.wafer.healing.domainBanks d ((s.domainBank d).add e).1 } } } : State).postError (8192 + d) e
    ((s.domainBank d).add e).2

theorem recordDomain_banks (s : State) (d : Nat) (e : ErrRec) : (s.recordDomain d e).wafer.healing.domainBanks =
    putKey s.wafer.healing.domainBanks d ((s.domainBank d).add e).1 := by
  unfold State.recordDomain State.postError
  split_ifs <;> rfl

theorem powerDomainFault_faults (domain : BitVec 6) (kind : PowerFault) (s : State) :
    Runs (.powerDomainFault domain kind) s (fun u =>
    (∀ x : SiteId, 8 * field x 9 3 + field x 3 3 = domain.toNat →
      (u.junctionAt x).passThrough = true ∧ (u.tileAt x).stopped = true) ∧
    ∃ (e : ErrRec) (b : ErrBank), (domain.toNat, b) ∈ u.wafer.healing.domainBanks ∧ e.src = 17 ∧ e.sev = 3 ∧
      e.addr.toNat = domain.toNat ∧ e.synd = BitVec.ofNat 64 (faultCode kind) ∧
      ∀ a, s.wafer.healing.domainBanks.find? (fun k => k.1 == domain.toNat) = some (domain.toNat, a) →
        RecordsError e a b) := by
  have run : exec (.powerDomainFault domain kind) s = .next
      (((s.recordDomain domain.toNat (domainError domain kind s)).atSites losePower (domainSites domain.toNat)).atSites
        holderLost ((domainSites domain.toNat).flatMap ((s.recordDomain domain.toNat
          (domainError domain kind s)).atSites losePower (domainSites domain.toNat)).tilesHeldBy)) := rfl
  obtain ⟨lost, banks⟩ := losePower_domain (s.recordDomain domain.toNat (domainError domain kind s)) domain
  rw [recordDomain_banks] at banks
  generalize (s.recordDomain domain.toNat (domainError domain kind s)).atSites losePower (domainSites domain.toNat) = v
    at *
  have h := Halts.atSites holderLost_halts ((domainSites domain.toNat).flatMap v.tilesHeldBy) v
  refine ⟨_, run, fun x hx => h.fences.withoutPower (lost x hx),
    domainError domain kind s, ((s.domainBank domain.toNat).add (domainError domain kind s)).1, ?_, rfl, rfl, ?_, rfl,
    fun a ha => ?_⟩
  · rw [h.domainBanks, banks]
    exact List.mem_cons_self
  · have addr : (domainError domain kind s).addr = BitVec.ofNat 64 domain.toNat := rfl
    rw [addr, BitVec.toNat_ofNat, Nat.mod_eq_of_lt (domain.isLt.trans (by decide))]
  · have hbank : s.domainBank domain.toNat = a := by rw [State.domainBank, ha]
    rw [hbank]
    exact ErrBank.add_records a _

end Sys2Proof.Machine
end

