-- ==== Sys2Proof/Proofs/PointsChange.lean ====
section
/-!
SUPPORT. The points change (R16, R329, R439 step 4).
-/
namespace Sys2Proof.Machine

set_option Elab.async false

/-! ### Trees that are built again (R329) -/

theorem OnlyTrees.foldl {α : Type} {f : State → α → State} (hf : ∀ s a, OnlyTrees s (f s a)) (l : List α) (s : State) :
    OnlyTrees s (l.foldl f s) := by
  induction l generalizing s with
  | nil => exact .refl s
  | cons a r ih => exact (hf s a).trans (ih _)

theorem rebuildTree_onlyTrees (k : DomainKey) (ms : List SiteId) (s : State) : OnlyTrees s (rebuildTree k ms s) := by
  unfold rebuildTree
  split
  · exact .refl s
  · refine OnlyTrees.foldl (fun s x => ?_) _ s
    dsimp only
    split_ifs
    · exact .refl s
    · cases h : addEntry k x s with
      | none => exact .refl s
      | some u => exact addEntry_onlyTrees h
    · exact OnlyTrees.atSite s x _
    · exact .refl s

theorem rebuildTrees_onlyTrees (job : BitVec 6) (failed x : SiteId) (s : State) :
    OnlyTrees s (rebuildTrees job failed x s) := by
  refine OnlyTrees.foldl (fun s d => ?_) _ s
  dsimp only
  split_ifs
  · exact rebuildTree_onlyTrees _ _ s
  · exact .refl s

theorem rebuildTrees_none {job : BitVec 6} {failed x : SiteId} {s : State}
    (h : ∀ l ∈ s.wafer.launches, job ≠ l.job) : rebuildTrees job failed x s = s := by
  have empty : s.wafer.launches.filter (fun l => l.job == job) = [] := by
    rw [List.filter_eq_nil_iff]
    intro l hl g
    exact h l hl (beq_iff_eq.mp g).symm
  rw [rebuildTrees, empty]
  rfl

/-! ### The junctions (R16, R459) -/

/-- The junction of a site that takes the new entry of a tile and the new states of two sites. -/
def Site.arranged (l : TileNo) (x failed y : SiteId) (j : Site) : Site :=
  let j := if !j.points.isEmpty || y == x then { j with points := setPoint l.toNat (some x) j.points } else j
  let j := { j with map := setMap x.toNat 1 (setMap failed.toNat 3 j.map) }
  if y = x then { j with status := .logical } else j

def arrange (l : TileNo) (x failed : SiteId) (s : State) : State :=
  { s with junction := s.junction.arranged l x failed s.site }

/-- What a junction's tables say, with its site. -/
structure Directory where
  site : SiteId
  full : Bool
  points : Nat → Option SiteId
  map : Nat → BitVec 2
  status : SiteStatus
  trees : Vector (Option DomainKey) 16

def State.directory (s : State) (y : SiteId) : Directory :=
  let j := s.junctionAt y
  { site := y, full := !j.points.isEmpty, points := findPoint j.points, map := mapState j.map, status := j.status,
    trees := j.trees }

/-- The directory with the new entry and the new states. -/
def Directory.arranged (l : TileNo) (x failed : SiteId) (d : Directory) : Directory :=
  let full := d.full || d.site == x
  { d with
    full := full
    points := if full then fun k => if k = l.toNat then some x else d.points k else d.points
    map := fun k => if k = x.toNat then 1 else if k = failed.toNat then 3 else d.map k
    status := if d.site = x then .logical else d.status }

theorem Directory.arranged_arranged (l : TileNo) (x failed : SiteId) (d : Directory) :
    (d.arranged l x failed).arranged l x failed = d.arranged l x failed := by
  simp only [Directory.arranged, Directory.mk.injEq, Bool.or_assoc, Bool.or_self, true_and, and_true]
  refine ⟨?_, ?_, ?_⟩
  · split_ifs
    · funext k
      by_cases e : k = l.toNat <;> simp [e]
    · rfl
  · funext k
    split_ifs <;> rfl
  · split_ifs <;> rfl

theorem insertPoint_ne_nil (l : Nat) (x : SiteId) (r : List (Nat × SiteId)) : insertPoint l x r ≠ [] := by
  cases r with
  | nil => simp [insertPoint]
  | cons p r => rw [insertPoint]; split_ifs <;> simp

theorem setPoint_isEmpty (l : Nat) (x : SiteId) (t : List (Nat × SiteId)) : (setPoint l (some x) t).isEmpty = false := by
  rw [List.isEmpty_eq_false_iff]
  exact insertPoint_ne_nil _ _ _

theorem arrange_directory (l : TileNo) (x failed z y : SiteId) (s : State) :
    (s.atSite z (arrange l x failed)).directory y =
      if y = z then (s.directory y).arranged l x failed else s.directory y := by
  have stays (u : State) : Stays u (arrange l x failed u) := ⟨rfl, rfl⟩
  have hj : (s.atSite z (arrange l x failed)).junctionAt y =
      if y = z then (s.junctionAt y).arranged l x failed y else s.junctionAt y := by
    rw [atSite_junctionAt, (stays _).junctionAt, focusSite_site, focusSite_junctionAt]
    split_ifs with e
    · rw [arrange, focusSite_junction, focusSite_site, e]
    · rfl
  unfold State.directory
  rw [hj]
  split_ifs with e
  · simp only [Directory.arranged, Site.arranged, Directory.mk.injEq, true_and]
    have map : mapState (setMap x.toNat 1#2 (setMap failed.toNat 3#2 (s.junctionAt y).map)) = fun k =>
        if k = x.toNat then 1#2 else if k = failed.toNat then 3#2 else mapState (s.junctionAt y).map k := by
      funext k; rw [mapState_setMap, mapState_setMap]
    have points : findPoint (setPoint l.toNat (some x) (s.junctionAt y).points) = fun k =>
        if k = l.toNat then some x else findPoint (s.junctionAt y).points k := by
      funext k; exact findPoint_setPoint _ _ _ _
    by_cases hx : y = x
    · subst hx
      simp [map, points, setPoint_isEmpty]
    · by_cases full : (s.junctionAt y).points = []
      · simp [hx, full, map]
      · simp [hx, full, map, points, setPoint_isEmpty]
  · rfl

/-- The directories after the points change. -/
theorem atSites_arrange_directory (l : TileNo) (x failed y : SiteId) (xs : List SiteId) (s : State) :
    (s.atSites (arrange l x failed) xs).directory y =
      if y ∈ xs then (s.directory y).arranged l x failed else s.directory y :=
  atSites_acts (look := State.directory) (Directory.arranged_arranged l x failed)
    (fun s z y => arrange_directory l x failed z y s) xs s y

/-- The sites that take the entry of a site: those listed, and the site itself. -/
def State.entrySites (s : State) (x : SiteId) : List SiteId := (if s.siteIds.contains x then [] else [x]) ++ s.siteIds

theorem mem_entrySites (s : State) (x y : SiteId) : y ∈ s.entrySites x ↔ y = x ∨ y ∈ s.siteIds := by
  unfold State.entrySites
  split_ifs with h
  · simp only [List.nil_append, iff_or_self]
    rintro rfl
    simpa using h
  · simp

/-- The trees of the job of a failed site are built again. -/
def moveTrees (r : Recovery) (x : SiteId) (s : State) : State :=
  match (s.tileAt r.failed).job with
  | some job => rebuildTrees job r.failed x s
  | none => s

theorem moveTrees_onlyTrees (r : Recovery) (x : SiteId) (s : State) : OnlyTrees s (moveTrees r x s) := by
  unfold moveTrees
  split
  · exact rebuildTrees_onlyTrees _ _ _ s
  · exact .refl s

theorem moveTrees_none {r : Recovery} {x : SiteId} {s : State}
    (h : ∀ l ∈ s.wafer.launches, (s.tileAt r.failed).job ≠ some l.job) : moveTrees r x s = s := by
  unfold moveTrees
  split
  next job hj => exact rebuildTrees_none (fun l hl e => h l hl (hj.trans (congrArg some e)))
  next => rfl

/-- The state once every junction has the new entry, before the trees and the packets. -/
def State.arranged (s : State) (r : Recovery) (x : SiteId) : State :=
  s.atSites (arrange r.tile x r.failed) (s.entrySites x)

theorem arranged_tileAt (s : State) (r : Recovery) (x y : SiteId) : (s.arranged r x).tileAt y = s.tileAt y :=
  atSites_keeps (P := fun v => v.tile y = s.tileAt y) s
    (fun u h => (Stays.tileAt_kept (u := arrange r.tile x r.failed u) ⟨rfl, rfl⟩ rfl _).trans h) rfl

theorem arranged_launches (s : State) (r : Recovery) (x : SiteId) : (s.arranged r x).wafer.launches = s.wafer.launches :=
  atSites_keeps (P := fun v => v.wafer.launches = s.wafer.launches) s (fun _ => id) rfl

theorem arranged_healing (s : State) (r : Recovery) (x : SiteId) : (s.arranged r x).wafer.healing = s.wafer.healing :=
  atSites_keeps (P := fun v => v.wafer.healing = s.wafer.healing) s (fun _ => id) rfl

theorem movePoints_eq (r : Recovery) (x : SiteId) (s : State) : ∃ saved, movePoints r x s =
    { moveTrees r x (s.arranged r x) with wafer := { (moveTrees r x (s.arranged r x)).wafer with
      saved := saved,
      net := (moveTrees r x (s.arranged r x)).wafer.net.map
        (fun p => if p.dest = .tile r.tile then { p with site := x } else p) } } := ⟨_, rfl⟩

/-- What the junctions say after a points change, and where the packets of the tile are. -/
theorem movePoints_moves (r : Recovery) (x : SiteId) (s : State) : let u := movePoints r x s
    u.wafer.healing.recoveries = s.wafer.healing.recoveries ∧
    (∀ y, y = x ∨ (y ∈ s.siteIds ∧ (s.junctionAt y).points ≠ []) →
      findPoint (u.junctionAt y).points r.tile.toNat = some x ∧
      ∀ k, k ≠ r.tile.toNat → findPoint (u.junctionAt y).points k = findPoint (s.junctionAt y).points k) ∧
    (∀ y, y = x ∨ y ∈ s.siteIds → ∀ k, mapState (u.junctionAt y).map k =
      if k = x.toNat then 1 else if k = r.failed.toNat then 3 else mapState (s.junctionAt y).map k) ∧
    (u.junctionAt x).status = .logical ∧
    ((∀ l ∈ s.wafer.launches, (s.tileAt r.failed).job ≠ some l.job) →
      ∀ y, (u.junctionAt y).trees = (s.junctionAt y).trees) ∧
    ∀ p ∈ u.wafer.net, p.dest = .tile r.tile → p.site = x := by
  obtain ⟨saved, run⟩ := movePoints_eq r x s
  have trees := moveTrees_onlyTrees r x (s.arranged r x)
  have same : (∀ l ∈ s.wafer.launches, (s.tileAt r.failed).job ≠ some l.job) →
      moveTrees r x (s.arranged r x) = s.arranged r x := fun h => moveTrees_none (by
    rw [arranged_tileAt, arranged_launches]
    exact h)
  have healing := arranged_healing s r x
  have dir (y : SiteId) : (s.arranged r x).directory y =
      if y = x ∨ y ∈ s.siteIds then (s.directory y).arranged r.tile x r.failed else s.directory y := by
    simp only [State.arranged, atSites_arrange_directory, mem_entrySites]
  generalize moveTrees r x (s.arranged r x) = t at *
  generalize s.arranged r x = v at *
  intro u
  have juncs (y : SiteId) : u.junctionAt y = { v.junctionAt y with trees := (t.junctionAt y).trees } := by
    have h : u.junctionAt y = t.junctionAt y := by
      show (movePoints r x s).junctionAt y = _
      rw [run]
      rfl
    rw [h, trees.junctions y]
  have points (y : SiteId) : findPoint (u.junctionAt y).points = (v.directory y).points := by rw [juncs]; rfl
  have maps (y : SiteId) : mapState (u.junctionAt y).map = (v.directory y).map := by rw [juncs]; rfl
  refine ⟨?_, fun y hy => ?_, fun y hy k => ?_, ?_, fun h y => ?_, fun p hp hd => ?_⟩
  · have h : u.wafer.healing = t.wafer.healing := by
      show (movePoints r x s).wafer.healing = _
      rw [run]
    have g : t.wafer.healing = v.wafer.healing := (congrArg Wafer.healing trees.wafer :)
    rw [h, g, healing]
  · have full : ((s.directory y).full || (s.directory y).site == x) = true := by
      rcases hy with rfl | ⟨-, hp⟩
      · exact Bool.or_eq_true_iff.mpr (.inr (beq_self_eq_true _))
      · exact Bool.or_eq_true_iff.mpr (.inl (by simp [State.directory, hp]))
    have h : (v.directory y).points = fun k => if k = r.tile.toNat then some x else (s.directory y).points k := by
      rw [dir, if_pos (hy.imp id And.left), Directory.arranged]
      simp only [full, if_true]
    rw [points, h]
    exact ⟨if_pos rfl, fun k hk => if_neg hk⟩
  · rw [maps, dir, if_pos hy]
    rfl
  · have h : (u.junctionAt x).status = (v.directory x).status := by rw [juncs]; rfl
    rw [h, dir, if_pos (.inl rfl)]
    exact if_pos rfl
  · have e : (u.junctionAt y).trees = (t.junctionAt y).trees := by rw [juncs]
    have g : (v.junctionAt y).trees = (v.directory y).trees := rfl
    rw [e, same h, g, dir]
    split_ifs <;> rfl
  · have hnet : u.wafer.net = t.wafer.net.map (fun p => if p.dest = .tile r.tile then { p with site := x } else p) := by
      show (movePoints r x s).wafer.net = _
      rw [run]
    rw [hnet] at hp
    obtain ⟨q, -, rfl⟩ := List.mem_map.mp hp
    split_ifs at hd ⊢
    · rfl
    · exact absurd hd ‹_›

theorem pointsChangeComplete_moves {tile : TileNo} {s : State} {r : Recovery} {x : SiteId} (hr : s.recovery tile = some r)
    (hp : r.phase = .held) (hx : r.site = some x) : Runs (.pointsChangeComplete tile) s (fun u =>
      RecoveryAt tile .moved (some x) r u ∧
      (∀ y, y = x ∨ (y ∈ s.siteIds ∧ (s.junctionAt y).points ≠ []) →
        findPoint (u.junctionAt y).points tile.toNat = some x ∧
        ∀ k, k ≠ tile.toNat → findPoint (u.junctionAt y).points k = findPoint (s.junctionAt y).points k) ∧
      (∀ y, y = x ∨ y ∈ s.siteIds → ∀ k, mapState (u.junctionAt y).map k =
        if k = x.toNat then 1 else if k = r.failed.toNat then 3 else mapState (s.junctionAt y).map k) ∧
      (u.junctionAt x).status = .logical ∧
      ((∀ l ∈ s.wafer.launches, (s.tileAt r.failed).job ≠ some l.job) →
        ∀ y, (u.junctionAt y).trees = (s.junctionAt y).trees) ∧
      ∀ p ∈ u.wafer.net, p.dest = .tile tile → p.site = x) := by
  have run : exec (.pointsChangeComplete tile) s = execPointsChangeComplete tile s := rfl
  obtain rfl := recovery_tile hr
  obtain ⟨recs, rest⟩ := movePoints_moves r x s
  refine ⟨(movePoints r x s).mapRecovery r.tile (fun r => { r with phase := .moved }), ?_, ?_, rest⟩
  · rw [run, execPointsChangeComplete]
    simp only [hr, hp, hx]
  · rw [RecoveryAt, ← hx]
    exact mapRecovery_recovery (f := fun r => { r with phase := .moved }) (fun _ => rfl) recs hr

end Sys2Proof.Machine
end

