-- ==== Sys2Proof/Proofs/Restoration.lean ====
section
/-!
SUPPORT. Restoration and the end of a replay (R439 steps 5 to 7, R442 to R445).
-/
namespace Sys2Proof.Machine

set_option Elab.async false

/-! ### The image of a tile (R439 step 5) -/

theorem findCore_of {P : Core → Prop} {l : List (CoreId × Core)} {k : CoreId} (reset : P {}) (h : ∀ p ∈ l, P p.2) :
    P (findCore l k) := by
  induction l with
  | nil => exact reset
  | cons p r ih =>
    rw [findCore]
    split_ifs
    · exact h p List.mem_cons_self
    · exact ih (fun q hq => h q (List.mem_cons_of_mem _ hq))

/-- A core as it is restored: disarmed, with its ages and its tree entries brought up to now. -/
def Core.revived (d : Nat) (f : Word → Word) (c : Core) : Core := ((c.disarm).shift d).retree f

theorem Core.revived_ofTeam (d : Nat) (f : Word → Word) (c : Core) (team : W32) :
    (c.revived d f).ofTeam team = c.ofTeam team := by
  have h : (c.revived d f).slot = c.slot.map (retreeRecord f) := rfl
  rw [Core.ofTeam, Core.ofTeam, h]
  cases c.slot <;> rfl

/-- What a restored core has of its image's core. -/
structure Core.IsRevived (c e : Core) : Prop where
  regs : e.regs = c.regs
  pc : e.pc = c.pc
  perturb : e.eng.perturb = c.eng.perturb &&& 0x7FFFFFFFFFFFFFFF

theorem Core.revived_isRevived (d : Nat) (f : Word → Word) (c : Core) : c.IsRevived (c.revived d f) := ⟨rfl, rfl, rfl⟩

theorem Core.reset_isRevived : Core.IsRevived {} {} := ⟨rfl, rfl, rfl⟩

/-- The tile that a waybill brings back. -/
def Waybill.revivedTile (b : Waybill) (bank : ErrBank) (leave : Option Leave) (s : State) : Tile :=
  { b.committed.tile with
    leaving := leave.map (fun l => { l with called := false }), detBase := b.logBase, confirmed := b.logBase,
    replay := some b.numbered, bank := bank, outMarks := b.marks.map (fun m => (m.core, m.aseq, m.mseq, m.oseq)),
    boxMark := some b.boxMark, boundaryAt := s.wafer.clock, beat := b.beat }

/-- What of the image the tile is, with the bank that stands there and the log to replay. -/
theorem revivedTile_fields (b : Waybill) (bank : ErrBank) (leave : Option Leave) (s : State) :
    let v := b.revivedTile bank leave s
    let img := b.committed.tile
    v.tile = img.tile ∧ v.mem = img.mem ∧ v.full = img.full ∧ v.evc = img.evc ∧ v.pool = img.pool ∧ v.bank = bank ∧
      v.replay = some b.numbered := ⟨rfl, rfl, rfl, rfl, rfl, rfl, rfl⟩

theorem restoreImage_tile (b : Waybill) (bank : ErrBank) (leave : Option Leave) (s : State) :
    (restoreImage b bank leave s).tile = b.revivedTile bank leave s := rfl

/-- What a restoration leaves of the rest of the machine. -/
theorem restoreImage_only (b : Waybill) (bank : ErrBank) (leave : Option Leave) (s : State) :
    let u := restoreImage b bank leave s
    u.site = s.site ∧ u.junction = s.junction ∧ u.wafer = { s.wafer with
      hbm := s.wafer.hbm.writeCells b.committed.tile.queueCells,
      healing := { s.wafer.healing with waybills := u.wafer.healing.waybills } } := ⟨rfl, rfl, rfl⟩

theorem restoreImage_coreAt {b : Waybill} {bank : ErrBank} {leave : Option Leave} {s : State}
    (h : ∀ k ∈ s.wafer.saved, ∀ p ∈ b.committed.cores, p.2.ofTeam k.team = false) (k : CoreId) :
    (findCore b.committed.cores k).IsRevived ((restoreImage b bank leave s).coreAt k) := by
  let d := s.wafer.clock - b.committed.clock
  let f := retree b.committed.trees s.junction.trees
  let cores := b.committed.cores.map (fun p => (p.1, p.2.revived d f))
  let v := s.loadTile (b.revivedTile bank leave s) cores
  have e : (restoreImage b bank leave s).coreAt k = (v.updCores (fun c => if v.savedSince c then {} else c)).coreAt k := rfl
  have loaded : v.coreAt k = findCore cores k := loadTile_coreAt s _ cores k
  have kept : v.savedSince (findCore cores k) = false := by
    have none (c : Core) (hc : ∀ t ∈ s.wafer.saved, c.ofTeam t.team = false) : v.savedSince c = false := by
      refine List.any_eq_false.mpr (fun t ht => ?_)
      simp [hc t ht]
    refine findCore_of (P := fun c => v.savedSince c = false) (none _ (fun _ _ => rfl)) (fun p hp => none _ (fun t ht => ?_))
    obtain ⟨q, hq, rfl⟩ := List.mem_map.mp hp
    rw [Core.revived_ofTeam]
    exact h t ht q hq
  have same : (v.updCores (fun c => if v.savedSince c then {} else c)).coreAt k = findCore cores k := by
    rcases updCores_coreAt v (fun c => if v.savedSince c then {} else c) k with g | ⟨g, g'⟩
    · rw [g, loaded, kept]; rfl
    · rw [g', ← loaded, g]
  rw [e, same]
  rcases findCore_map (Core.revived d f) k b.committed.cores with g | ⟨g, g'⟩
  · rw [show findCore cores k = _ from g]
    exact Core.revived_isRevived d f _
  · rw [show findCore cores k = _ from g', g]
    exact Core.reset_isRevived

/-- The log of a waybill, numbered from its base. -/
theorem numbered_log (b : Waybill) :
    b.numbered.map (·.2) = b.log ∧ b.numbered.map (·.1) = List.range' b.logBase b.log.length := by
  constructor
  · simp [Waybill.numbered, List.map_map, Function.comp_def]
  · apply List.ext_getElem
    · simp [Waybill.numbered]
    · simp [Waybill.numbered]

/-! ### Steps of a restoration -/

theorem resendUnrecorded_only (b : Waybill) (s : State) : let u := resendUnrecorded b s
    u = { s with wafer := { s.wafer with
      net := u.wafer.net, nextId := u.wafer.nextId, healing := { s.wafer.healing with sent := u.wafer.healing.sent } } } :=
  rfl

/-- A tile is brought back at the site in focus, and what it never recorded is sent to it again. -/
def bringBack (b : Waybill) (bank : ErrBank) (leave : Option Leave) (s : State) : State :=
  resendUnrecorded b (placeTile b bank leave s)

/-- The tile in focus is another than a waybill's, and lives. -/
def State.shares (s : State) (b : Waybill) : Prop := s.keepsWaybill = true ∧ s.tile.tile ≠ b.tile

theorem placeTile_alone {b : Waybill} {bank : ErrBank} {leave : Option Leave} {s : State} (h : ¬s.shares b) :
    placeTile b bank leave s = restoreImage b bank leave s :=
  if_neg (fun g => h (by simpa [State.shares] using g))

/-- A tile that comes beside another is saved there. -/
theorem placeTile_shared {b : Waybill} {bank : ErrBank} {leave : Option Leave} {s : State} (h : s.shares b) :
    ∃ a : AwayTile, (a.site = s.site ∧ a.image.tile = b.revivedTile bank leave s) ∧
      placeTile b bank leave s = { s with wafer := { (restoreImage b bank leave s).wafer with
        healing := { (restoreImage b bank leave s).wafer.healing with
          away := (restoreImage b bank leave s).wafer.healing.away ++ [a] } } } :=
  ⟨{ site := s.site, image := { tile := (restoreImage b bank leave s).tile,
                                cores := (restoreImage b bank leave s).coreList, clock := s.wafer.clock } },
    ⟨rfl, rfl⟩, if_pos (by simpa [State.shares] using h)⟩

/-- What bringing a tile back leaves of the rest of the machine. -/
structure BringsBack (b : Waybill) (s u : State) : Prop where
  stays : Stays s u
  hbm : u.wafer.hbm = s.wafer.hbm.writeCells b.committed.tile.queueCells
  host : u.wafer.host = s.wafer.host
  peer : u.wafer.peer = s.wafer.peer
  recoveries : u.wafer.healing.recoveries = s.wafer.healing.recoveries

theorem bringBack_bringsBack (b : Waybill) (bank : ErrBank) (leave : Option Leave) (s : State) :
    BringsBack b s (bringBack b bank leave s) := by
  unfold bringBack placeTile
  split_ifs <;> exact ⟨⟨rfl, rfl⟩, rfl, rfl, rfl, rfl⟩

/-- A tile that comes to a site of its own is its image. -/
theorem bringBack_alone {b : Waybill} {bank : ErrBank} {leave : Option Leave} {s : State} (h : ¬s.shares b) :
    (bringBack b bank leave s).tile = b.revivedTile bank leave s ∧
      ((∀ k ∈ s.wafer.saved, ∀ p ∈ b.committed.cores, p.2.ofTeam k.team = false) →
        ∀ k, (findCore b.committed.cores k).IsRevived ((bringBack b bank leave s).coreAt k)) := by
  rw [bringBack, placeTile_alone h]
  exact ⟨rfl, fun saved k => restoreImage_coreAt (bank := bank) (leave := leave) saved k⟩

theorem bringBack_shared {b : Waybill} {bank : ErrBank} {leave : Option Leave} {s : State} (h : s.shares b) :
    (bringBack b bank leave s).tile = s.tile ∧ ∃ a ∈ (bringBack b bank leave s).wafer.healing.away, a.site = s.site ∧
      a.image.tile = b.revivedTile bank leave s := by
  obtain ⟨a, ha, e⟩ := placeTile_shared (bank := bank) (leave := leave) h
  rw [bringBack, e]
  exact ⟨rfl, a, List.mem_append_right _ (List.mem_singleton.mpr rfl), ha⟩

theorem restoreMember_recoveries (l : TileNo) (s : State) :
    (restoreMember l s).wafer.healing.recoveries = s.wafer.healing.recoveries := by
  unfold restoreMember
  split
  next x b _ _ =>
    rw [atSite_healing]
    have same : (resendUnrecorded b (restoreImage b (s.focusSite x).tile.bank (s.focusSite x).tile.leaving
      (s.focusSite x))).wafer.healing.recoveries = (s.focusSite x).wafer.healing.recoveries := rfl
    rw [same, focusSite_healing]
  next => rfl

theorem restoreMembers_recoveries (ls : List TileNo) (s : State) :
    (ls.foldl (fun s l => restoreMember l s) s).wafer.healing.recoveries = s.wafer.healing.recoveries := by
  induction ls generalizing s with
  | nil => rfl
  | cons l r ih => exact (ih _).trans (restoreMember_recoveries l s)

theorem recordsSettled_of {s : State} {l : TileNo}
    (h : ∀ p ∈ s.wafer.net, ∀ k n d, p.msg = .determinant k n d → k ≠ l) : s.recordsSettled l = true := by
  rw [State.recordsSettled, Bool.not_eq_true', List.any_eq_false]
  intro p hp
  split
  next t n d e => simpa using h p hp t n d e
  next => simp

/-- The old site is cleared, and the tile comes to its new one. -/
def moveTile (b : Waybill) (failed x : SiteId) (s : State) : State :=
  (s.atSite failed vacate).atSite x (bringBack b (s.tileAt failed).bank (s.tileAt failed).leaving)

theorem restorationComplete_eq {tile : TileNo} {s : State} {r : Recovery} {b : Waybill} {x : SiteId}
    (hr : s.recovery tile = some r) (hb : s.wafer.waybill tile = some b) (hp : r.phase = .moved) (hx : r.site = some x)
    (hl : b.lost = false)
    (settled : ∀ p ∈ s.wafer.net, ∀ l n d, p.msg = .determinant l n d → l ≠ tile ∧ l ∉ r.members) :
    exec (.restorationComplete tile) s = .next
      ((r.members.foldl (fun s l => restoreMember l s) (moveTile b r.failed x s)).mapRecovery tile
        (fun r => { r with phase := .restored })) := by
  have run : exec (.restorationComplete tile) s = execRestorationComplete tile s := rfl
  have own : s.recordsSettled tile = true := recordsSettled_of (fun p hp l n d e => (settled p hp l n d e).1)
  have members : r.members.any (fun l => !s.recordsSettled l) = false := by
    rw [List.any_eq_false]
    intro l hl
    rw [recordsSettled_of (fun p hp k n d e h => (settled p hp k n d e).2 (h ▸ hl))]
    simp
  rw [run, execRestorationComplete]
  simp only [hr, hb, hp, hx, hl, own, members]
  rfl

/-- The site of the failed tile after it is cleared: its bank stays. -/
theorem vacate_tile (s : State) : (vacate s).tile = { bank := s.tile.bank } := rfl

/-- What is done when a tile comes to a site. -/
theorem moveTile_moves (b : Waybill) (failed x : SiteId) (s : State) :
    let h := s.focusSite x
    let shared : Prop := h.keepsWaybill = true ∧ h.tile.tile ≠ b.tile ∧ x ≠ failed
    let img := b.committed
    let u := moveTile b failed x s
    (u.wafer.healing.recoveries = s.wafer.healing.recoveries ∧ StoresInHbm img.tile.queueCells s u) ∧
    (¬shared → u.tileAt x = b.revivedTile (s.tileAt failed).bank (s.tileAt failed).leaving s ∧
      ((∀ k ∈ s.wafer.saved, ∀ p ∈ img.cores, p.2.ofTeam k.team = false) →
        ∀ k, (findCore img.cores k).IsRevived (u.coreOfSite x k))) ∧
    (shared → u.tileAt x = h.tile ∧ ∃ a ∈ u.wafer.healing.away, a.site = x ∧
      a.image.tile = b.revivedTile (s.tileAt failed).bank (s.tileAt failed).leaving s) ∧
    (x ≠ failed → u.tileAt failed = { bank := (s.tileAt failed).bank }) := by
  intro h shared img u
  generalize hv : (s.atSite failed vacate).focusSite x = v
  generalize hbank : (s.tileAt failed).bank = bank
  generalize hleave : (s.tileAt failed).leaving = leave
  have stays (w : State) : Stays w (vacate w) := ⟨rfl, rfl⟩
  have place : v.site = x := by rw [← hv, focusSite_site]
  have tile : v.tile = if x = failed then { bank := bank } else s.tileAt x := by
    rw [← hv, focusSite_tile, atSite_tileAt, (stays _).tileAt, vacate_tile, focusSite_site, focusSite_tileAt,
      focusSite_tile, hbank]
  have wafer : v.view.wafer = s.view.wafer := by
    rw [← hv, focusSite_view, atSite_view]
    have same : (vacate (s.focusSite failed)).view.wafer = (s.focusSite failed).view.wafer := rfl
    rw [same, focusSite_view]
  have boot : v.wafer.boot = s.wafer.boot := (congrArg Wafer.boot wafer :)
  have healing : v.wafer.healing = s.wafer.healing := (congrArg Wafer.healing wafer :)
  have saved : v.wafer.saved = s.wafer.saved := (congrArg Wafer.saved wafer :)
  have clock : v.wafer.clock = s.wafer.clock := (congrArg Wafer.clock wafer :)
  have shares : v.shares b ↔ shared := by
    by_cases e : x = failed
    · refine ⟨fun g => ?_, fun g => absurd e g.2.2⟩
      have job : v.tile.job = none := by rw [tile, if_pos e]
      have : v.keepsWaybill = false := by simp [State.keepsWaybill, State.booting, job]
      rw [State.shares, this] at g
      cases g.1
    · have same : v.tile = h.tile := by rw [tile, if_neg e]; exact (focusSite_tile s x).symm
      have hboot : h.wafer.boot = s.wafer.boot := focusSite_boot s x
      have hheal : h.wafer.healing = s.wafer.healing := focusSite_healing s x
      have keeps : v.keepsWaybill = h.keepsWaybill := by
        have hsite : h.site = x := focusSite_site s x
        simp only [State.keepsWaybill, State.booting, Wafer.waybill, same, boot, hboot, healing, hheal, place, hsite]
      rw [State.shares, keeps, same]
      exact ⟨fun g => ⟨g.1, g.2, e⟩, fun g => ⟨g.1, g.2.1⟩⟩
  have hu : u.view = (bringBack b bank leave v).view := by
    have e : u = (s.atSite failed vacate).atSite x (bringBack b bank leave) := by
      rw [← hbank, ← hleave]; rfl
    rw [e, atSite_view, hv]
  have back := bringBack_bringsBack b bank leave v
  have revived : b.revivedTile bank leave v = b.revivedTile bank leave s := by
    unfold Waybill.revivedTile; rw [clock]
  have site' : (bringBack b bank leave v).site = x := back.stays.site.trans place
  have tileAt : u.tileAt x = (bringBack b bank leave v).tile := (tileAt_of_view hu x).trans (tileAt_of_site site')
  have hhealing : u.wafer.healing = (bringBack b bank leave v).wafer.healing := (congrArg (fun v => v.wafer.healing) hu :)
  have hbm : u.wafer.hbm = _ := (congrArg (fun v => v.wafer.hbm) hu : _).trans back.hbm
  have vhbm : v.wafer.hbm = s.wafer.hbm := (congrArg Wafer.hbm wafer :)
  refine ⟨⟨by rw [hhealing, back.recoveries, healing], ?_, ?_, ?_⟩, fun g => ⟨?_, fun hs k => ?_⟩, fun g => ?_, fun ne => ?_⟩
  · rw [hbm, vhbm]
    exact writeCells_holds _ _
  · exact ((congrArg (fun v => v.wafer.host) hu : _).trans back.host).trans (congrArg Wafer.host wafer :)
  · exact ((congrArg (fun v => v.wafer.peer) hu : _).trans back.peer).trans (congrArg Wafer.peer wafer :)
  · rw [tileAt, (bringBack_alone (fun k => g (shares.mp k))).1, revived]
  · have c : u.coreOfSite x k = (bringBack b bank leave v).coreAt k :=
      (coreOfSite_of_view hu x k).trans (coreOfSite_of_site site' k)
    rw [c]
    exact (bringBack_alone (fun k => g (shares.mp k))).2 (by rw [saved]; exact hs) k
  · obtain ⟨t, a, ha, hsite, himg⟩ := bringBack_shared (bank := bank) (leave := leave) (shares.mpr g)
    refine ⟨?_, a, by rw [hhealing]; exact ha, hsite.trans place, by rw [himg, revived]⟩
    rw [tileAt, t, tile, if_neg g.2.2]
    exact (focusSite_tile s x).symm
  · rw [tileAt_of_view hu failed]
    have e : (bringBack b bank leave v).tileAt failed = v.tileAt failed := by
      rw [back.stays.tileAt, if_neg (by rw [place]; exact fun h => ne h.symm)]
    rw [e, ← hv, focusSite_tileAt, atSite_tileAt, (stays _).tileAt, focusSite_site, if_pos rfl, vacate_tile, focusSite_tile,
      hbank]

/-- Nothing but recoveries has changed. -/
structure OnlyRecoveries (s u : State) : Prop where
  tiles : ∀ y, u.tileAt y = s.tileAt y
  cores : ∀ y k, u.coreOfSite y k = s.coreOfSite y k
  hbm : u.wafer.hbm = s.wafer.hbm
  host : u.wafer.host = s.wafer.host
  peer : u.wafer.peer = s.wafer.peer
  away : u.wafer.healing.away = s.wafer.healing.away

theorem mapRecovery_onlyRecoveries (s : State) (l : TileNo) (f : Recovery → Recovery) :
    OnlyRecoveries s (s.mapRecovery l f) := ⟨fun _ => rfl, fun _ _ => rfl, rfl, rfl, rfl, rfl⟩

/-- The end of a restoration. -/
theorem restorationComplete_restores {tile : TileNo} {s : State} {r : Recovery} {b : Waybill} {x : SiteId}
    (hr : s.recovery tile = some r) (hb : s.wafer.waybill tile = some b) (hp : r.phase = .moved) (hx : r.site = some x)
    (hl : b.lost = false)
    (settled : ∀ p ∈ s.wafer.net, ∀ l n d, p.msg = .determinant l n d → l ≠ tile ∧ l ∉ r.members) :
    let h := s.focusSite x
    let shared : Prop := h.keepsWaybill = true ∧ h.tile.tile ≠ tile ∧ x ≠ r.failed
    let img := b.committed
    (∀ k ∈ s.wafer.saved, ∀ p ∈ img.cores, p.2.ofTeam k.team = false) →
      Runs (.restorationComplete tile) s (fun u => RecoveryAt tile .restored (some x) r u ∧
        (r.members = [] → StoresInHbm img.tile.queueCells s u) ∧
        (r.members = [] → ¬shared →
          let v := u.tileAt x
          v.tile = img.tile.tile ∧ v.mem = img.tile.mem ∧ v.full = img.tile.full ∧ v.evc = img.tile.evc ∧
          v.pool = img.tile.pool ∧ v.bank = (s.tileAt r.failed).bank ∧
          (∃ l, v.replay = some l ∧ l.map (·.2) = b.log ∧ l.map (·.1) = List.range' b.logBase b.log.length) ∧
          ∀ k, (u.coreOfSite x k).regs = (findCore img.cores k).regs ∧
            (u.coreOfSite x k).pc = (findCore img.cores k).pc ∧
            (u.coreOfSite x k).eng.perturb = (findCore img.cores k).eng.perturb &&& 0x7FFFFFFFFFFFFFFF) ∧
        (r.members = [] → shared → u.tileAt x = h.tile ∧ ∃ a ∈ u.wafer.healing.away, a.site = x ∧
          a.image.tile.tile = img.tile.tile ∧ a.image.tile.mem = img.tile.mem) ∧
        (r.members = [] → x ≠ r.failed →
          (u.tileAt r.failed).mem = [] ∧ (u.tileAt r.failed).bank = (s.tileAt r.failed).bank)) := by
  intro h shared img hsaved
  have ht : b.tile = tile := by simpa using List.find?_some hb
  obtain ⟨⟨recs, stores⟩, alone, beside, old⟩ := moveTile_moves b r.failed x s
  rw [ht] at alone beside
  have run := restorationComplete_eq hr hb hp hx hl settled
  have at_ : RecoveryAt tile .restored (some x) r ((r.members.foldl (fun s l => restoreMember l s)
      (moveTile b r.failed x s)).mapRecovery tile (fun r => { r with phase := .restored })) := by
    rw [RecoveryAt, ← hx]
    exact mapRecovery_recovery (f := fun r => { r with phase := .restored }) (fun _ => rfl)
      ((restoreMembers_recoveries _ _).trans recs) hr
  have only : r.members = [] → OnlyRecoveries (moveTile b r.failed x s) ((r.members.foldl (fun s l => restoreMember l s)
      (moveTile b r.failed x s)).mapRecovery tile (fun r => { r with phase := .restored })) := fun none => by
    rw [none]
    exact mapRecovery_onlyRecoveries _ _ _
  generalize (r.members.foldl (fun s l => restoreMember l s) (moveTile b r.failed x s)).mapRecovery tile
    (fun r => { r with phase := .restored }) = u at *
  generalize moveTile b r.failed x s = v at *
  refine ⟨u, run, at_, fun none => ?_, fun none g => ?_, fun none g => ?_, fun none ne => ?_⟩
  · obtain ⟨-, -, hbm, host, peer, -⟩ := only none
    exact ⟨by rw [hbm]; exact stores.hbm, host.trans stores.host, peer.trans stores.peer⟩
  · obtain ⟨tiles, cores, -⟩ := only none
    obtain ⟨tile', revived⟩ := alone g
    obtain ⟨f₁, f₂, f₃, f₄, f₅, f₆, f₇⟩ := revivedTile_fields b (s.tileAt r.failed).bank (s.tileAt r.failed).leaving s
    rw [← tile', ← tiles x] at f₁ f₂ f₃ f₄ f₅ f₆ f₇
    refine ⟨f₁, f₂, f₃, f₄, f₅, f₆, ⟨_, f₇, numbered_log b⟩, fun k => ?_⟩
    obtain ⟨c₁, c₂, c₃⟩ := revived hsaved k
    rw [cores]
    exact ⟨c₁, c₂, c₃⟩
  · obtain ⟨tiles, -, -, -, -, away⟩ := only none
    obtain ⟨tile', a, ha, hs, hi⟩ := beside g
    obtain ⟨f₁, f₂, -⟩ := revivedTile_fields b (s.tileAt r.failed).bank (s.tileAt r.failed).leaving s
    exact ⟨(tiles x).trans tile', a, by rw [away]; exact ha, hs, (congrArg Tile.tile hi).trans f₁,
      (congrArg Tile.mem hi).trans f₂⟩
  · obtain ⟨tiles, -⟩ := only none
    rw [tiles, old ne]
    exact ⟨rfl, rfl⟩

/-! ### The end of a replay (R439 step 7, R444) -/

/-- A tile runs live again, as its image of a replay was. -/
structure Tile.IsLive (t v : Tile) : Prop where
  replay : v.replay = none
  flagged : v.flagged = true
  mem : v.mem = t.mem

/-- The tile in focus after its replay, before what it was asked for is served. -/
def State.resumed (stop : Nat) (s : State) : State :=
  let s := { s with tile := s.tile.live stop }
  { s with tile := { s.tile with depotAsked := s.openRound.any (fun r => !(r.closed.contains s.tile.tile)) } }

theorem goLive_eq (stop : Nat) (s : State) :
    goLive stop s = s.resumed stop ∨ goLive stop s = (s.resumed stop).requestBoundary := by
  unfold goLive
  dsimp only
  split_ifs
  · exact .inr rfl
  · exact .inl rfl

theorem goLive_live (stop : Nat) (s : State) : s.tile.IsLive (goLive stop s).tile := by
  have h : s.tile.IsLive (s.resumed stop).tile := ⟨rfl, rfl, rfl⟩
  rcases goLive_eq stop s with e | e
  · rw [e]; exact h
  · rw [e, requestBoundary_tile]; exact ⟨h.replay, h.flagged, h.mem⟩

theorem goLive_wafer (stop : Nat) (s : State) : (goLive stop s).wafer = s.wafer := by
  rcases goLive_eq stop s with e | e
  · rw [e]; rfl
  · rw [e, requestBoundary_wafer]; rfl

theorem goLive_site (stop : Nat) (s : State) : (goLive stop s).site = s.site := by
  rcases goLive_eq stop s with e | e
  · rw [e]; rfl
  · rw [e, (requestBoundary_onlyBinds _).site]; rfl

/-- A tile of a recovery goes live at its site. -/
theorem resumeTile_carried {l : TileNo} {s : State} {x : SiteId} (h : s.carrier l = some x) :
    (s.tileAt x).IsLive ((resumeTile l s).tileAt x) := by
  have lives (stop : Nat) : (s.tileAt x).IsLive ((s.atSite x (goLive stop)).tileAt x) := by
    have live := goLive_live stop (s.focusSite x)
    rwa [focusSite_tile, ← tileAt_of_site ((goLive_site stop (s.focusSite x)).trans (focusSite_site s x)),
      ← atSite_tileAt] at live
  unfold resumeTile
  simp only [h]
  exact lives _

/-- A tile of a recovery goes live where it is saved. -/
theorem resumeTile_away {l : TileNo} {s : State} (h : s.carrier l = none) :
    ∀ a ∈ (resumeTile l s).wafer.healing.away, a.image.tile.tile = l → a.image.tile.replay = none := by
  unfold resumeTile
  simp only [h]
  intro a ha ht
  obtain ⟨c, -, rfl⟩ := List.mem_map.mp ha
  split_ifs at ht ⊢ with g
  · rfl
  · exact absurd ht g

/-- The site in focus is failed. -/
def failSite (s : State) : State := { s with junction := { s.junction with status := .failed } }

theorem failSite_stays (s : State) : Stays s (failSite s) := ⟨rfl, rfl⟩

/-- The holds of some tiles end, and the recovery of one of them. -/
def State.release (s : State) (tile : TileNo) (ls : List TileNo) : State :=
  { s with wafer := { s.wafer with healing := { s.wafer.healing with
      holds := s.wafer.healing.holds.filter (fun l => !(ls.contains l)),
      recoveries := s.wafer.healing.recoveries.filter (fun k => k.tile != tile) } } }

theorem release_keeps (s : State) (tile : TileNo) (ls : List TileNo) :
    (∀ y, (s.release tile ls).tileAt y = s.tileAt y) ∧ (∀ y, (s.release tile ls).junctionAt y = s.junctionAt y) ∧
      (s.release tile ls).wafer.healing.away = s.wafer.healing.away := ⟨fun _ => rfl, fun _ => rfl, rfl⟩

theorem replayEnd_eq {tile : TileNo} {s : State} {r : Recovery} (hr : s.recovery tile = some r) :
    exec (.replayEnd tile) s = .next
      (if r.phase = .restored ∧ (r.tile :: r.members).all s.replayDone = true then
        (((r.tile :: r.members).foldl (fun s l => resumeTile l s) s).atSite r.failed failSite).release tile
          (r.tile :: r.members)
       else s) := by
  have run : exec (.replayEnd tile) s = execReplayEnd tile s := rfl
  rw [run, execReplayEnd]
  simp only [hr]
  congr 1
  by_cases h : r.phase = .restored ∧ (r.tile :: r.members).all s.replayDone = true
  · rw [if_pos h]
    exact if_pos (by simpa using h)
  · rw [if_neg h]
    exact if_neg (fun g => h (by simpa using g))

/-- The holds end, the old site is failed, and the tile runs live. -/
theorem replayEnd_ends {tile : TileNo} {s : State} {r : Recovery} (hr : s.recovery tile = some r)
    (hp : r.phase = .restored) (done : ∀ l ∈ tile :: r.members, s.replayDone l = true) :
    Runs (.replayEnd tile) s (fun u =>
      (∀ k ∈ u.wafer.healing.recoveries, k.tile ≠ tile) ∧ (∀ l ∈ tile :: r.members, l ∉ u.wafer.healing.holds) ∧
      (u.junctionAt r.failed).status = .failed ∧
      (r.members = [] → ∀ x, s.carrier tile = some x →
        (u.tileAt x).replay = none ∧ (u.tileAt x).flagged = true ∧ (u.tileAt x).mem = (s.tileAt x).mem) ∧
      (r.members = [] → s.carrier tile = none → ∀ a ∈ u.wafer.healing.away, a.image.tile.tile = tile →
        a.image.tile.replay = none)) := by
  have run := replayEnd_eq hr
  obtain rfl := recovery_tile hr
  rw [if_pos ⟨hp, List.all_eq_true.mpr done⟩] at run
  have one : r.members = [] → (r.tile :: r.members).foldl (fun s l => resumeTile l s) s = resumeTile r.tile s := by
    intro none; rw [none]; rfl
  generalize (r.tile :: r.members).foldl (fun s l => resumeTile l s) s = v at *
  obtain ⟨tiles, juncs, away⟩ := release_keeps (v.atSite r.failed failSite) r.tile (r.tile :: r.members)
  have tileAt (y : SiteId) : (v.atSite r.failed failSite).tileAt y = v.tileAt y := by
    rw [atSite_tileAt, (failSite_stays _).tileAt_kept rfl, focusSite_tileAt]
  refine ⟨_, run, fun k hk => ?_, fun l hl hh => ?_, ?_, fun none x hx => ?_, fun none hx => ?_⟩
  · simpa using (List.mem_filter.mp hk).2
  · have out := (List.mem_filter.mp hh).2
    rw [List.contains_iff_mem.mpr hl] at out
    cases out
  · rw [juncs, atSite_junctionAt, (failSite_stays _).junctionAt, focusSite_site, if_pos rfl]
    rfl
  · rw [tiles, tileAt, one none]
    obtain ⟨replay, flagged, mem⟩ := resumeTile_carried hx
    exact ⟨replay, flagged, mem⟩
  · have away' : (v.atSite r.failed failSite).wafer.healing.away = v.wafer.healing.away := by
      rw [atSite_healing]
      exact congrArg Healing.away (focusSite_healing v r.failed)
    rw [away, away', one none]
    exact resumeTile_away hx

end Sys2Proof.Machine
end

