-- ==== Sys2Proof/Proofs/Healing.lean ====
section
/-!
SUPPORT. The failures, and what they come to (R432 to R449): one theorem for each group of operations, then the obligation.
-/
namespace Sys2Proof.Machine

set_option Elab.async false

/-- What the check of a site does, with the record that it leaves. -/
def ChecksSite (err : ErrorReport) (t u : State) : Prop :=
  Fenced t u ∧ (t.tile.stopped = false → RecordsError (newError 3 true false err t.clock) t.tile.bank u.tile.bank) ∧
    (t.tile.stopped = true → u.tile.bank = t.tile.bank)

/-- A machine check of a source that no other rule names. -/
theorem machineCheck_uncorrected {site : SiteId} {err : ErrorReport} {s : State}
    (hn : err.src.toNat ∉ [2, 3, 5, 10, 11, 13, 14, 15, 16, 17]) (hc : err.corrected = false) :
    exec (.machineCheck site err) s =
      .next (if errorDiffers err then checkSite err (s.focusSite site) else s.focusSite site) := by
  simp only [List.mem_cons, List.not_mem_nil, or_false, not_or] at hn
  rw [machineCheck_other (by simp [hn]) (fun h => absurd h hn.1)]
  simp [hc, hn]

/-- Where a held tile goes. -/
theorem holdComplete_goes {tile : TileNo} {place : Option SiteId} {s : State} {r : Recovery} {b : Waybill}
    {fit carries : SiteId → Prop} {often : Prop} (hr : s.recovery tile = some r) (hb : s.wafer.waybill tile = some b)
    (hp : r.phase = .fenced) (hfit : ∀ x, x ∈ s.reserves b ↔ fit x)
    (hcarries : ∀ x, s.mayCarry b r.failed x = true ↔ carries x) (hoften : b.failsOften s.wafer.clock = true ↔ often) :
    let better (x y : SiteId) : Prop := turnTo r.failed x < turnTo r.failed y ∨ (turnTo r.failed x = turnTo r.failed y ∧
      (hops r.failed x < hops r.failed y ∨ (hops r.failed x = hops r.failed y ∧ x.toNat < y.toNat)))
    let goes (x : SiteId) (u : State) : Prop := RecoveryAt tile .held (some x) r u ∧ KeepsMemory s u
    (∀ x, fit x → (∀ y, fit y → y ≠ x → better x y) → ¬(often ∧ ∃ y, place = some y ∧ carries y) →
      Runs (.holdComplete tile place) s (goes x)) ∧
    (∀ x, often → place = some x → carries x → Runs (.holdComplete tile place) s (fun u => goes x u ∧
      u.wafer.notices = s.wafer.notices ++ [.replaced tile])) ∧
    (∀ x, ¬often → (∀ y, ¬fit y) → place = some x → carries x → Runs (.holdComplete tile place) s (fun u => goes x u ∧
      ∃ n, u.wafer.notices = s.wafer.notices ++ [.capacityLoss n])) ∧
    ((∀ y, ¬fit y) → (∀ x, place = some x → ¬carries x) → Runs (.holdComplete tile place) s (· = s)) := by
  intro better goes
  have run := holdComplete_eq (place := place) hr hb hp
  have kept {x : SiteId} (h : place = some x) (c : carries x) : place.filter (s.mayCarry b r.failed) = some x := by
    rw [h, Option.filter_some, if_pos ((hcarries x).mpr c)]
  have gone (h : ∀ x, place = some x → ¬carries x) : place.filter (s.mayCarry b r.failed) = none := by
    cases place with
    | none => rfl
    | some x => rw [Option.filter_some, if_neg (fun c => h x rfl ((hcarries x).mp c))]
  refine ⟨fun x hx best no => ?_, fun x ho hpl c => ?_, fun x ho none hpl c => ?_, fun none no => ?_⟩
  · refine ⟨_, run, ?_⟩
    have first : (b.failsOften s.wafer.clock && (place.filter (s.mayCarry b r.failed)).isSome) = false := by
      by_cases ho : often
      · rw [gone (fun y hy c => no ⟨ho, y, hy, c⟩)]; simp
      · simp [Bool.eq_false_iff.mpr (fun h => ho (hoften.mp h))]
    rw [first, chooseReserve_best ((hfit x).mpr hx) (fun y hy => best y ((hfit y).mp hy))]
    exact (goTo_goes hr rfl x).1
  · have first : (b.failsOften s.wafer.clock && (place.filter (s.mayCarry b r.failed)).isSome) = true := by
      rw [kept hpl c]; simpa using hoften.mpr ho
    rw [if_pos first, kept hpl c] at run
    obtain ⟨g, n⟩ := goTo_goes (u := s.post (.replaced tile)) hr rfl x
    exact ⟨_, run, g, n⟩
  · have first : ¬(b.failsOften s.wafer.clock && (place.filter (s.mayCarry b r.failed)).isSome) = true := by
      simp [Bool.eq_false_iff.mpr (fun h => ho (hoften.mp h))]
    rw [if_neg first, chooseReserve_none (fun y hy => none y ((hfit y).mp hy)), kept hpl c] at run
    obtain ⟨g, n⟩ := goTo_goes (u := s.post (.capacityLoss s.wafer.healing.holds.length)) hr rfl x
    exact ⟨_, run, g, _, n⟩
  · rw [gone no, chooseReserve_none (fun y hy => none y ((hfit y).mp hy))] at run
    exact ⟨s, by simpa using run, rfl⟩

end Sys2Proof.Machine

open Sys2Proof Sys2Proof.Machine in
/-- Settles O51: machine checks record their errors in one bank and fence one site; the other operations of a recovery
change the tables, the sites and the waybills that their rules name. -/
theorem failuresAreRecovered : Obligations.FailuresAreRecovered := by
  unfold Obligations.FailuresAreRecovered
  refine ⟨fun site err s => ?_, fun tile place s r b hr hb => ?_, fun site x l s b hb hh hx => holderLoss_loses hb hh hx,
    craneTakeover_takes, fun domain kind s => ?_⟩
  · intro t n e same checked runs
    have checks (h : exec (.machineCheck site err) s = .next (checkSite err t)) : runs checked :=
      ⟨_, h, checkSite_fences err t⟩
    refine ⟨fun hn hc => machineCheck_corrected_link hn hc, fun h => machineCheck_junction h,
      fun hn hc => machineCheck_corrected_hbm hn hc, fun h => ⟨_, machineCheck_sector h, rfl⟩,
      fun hn => ?_, fun h => ⟨_, machineCheck_none h, rfl⟩, fun hn hc => ⟨fun ha => ?_, fun ha => ?_⟩,
      fun hn hc => ?_, fun hn hc => ⟨fun hd => ?_, fun hd => ?_⟩, fun b hb => ?_, fun port line exhausted =>
      flitCrcFailure_records site port line exhausted s⟩
    · have h := machineCheck_shadow (site := site) (s := s) hn
      cases hc : err.corrected <;> rw [hc] at h <;> exact h
    · exact ⟨_, machineCheck_hidden hn hc, hiddenError_shadow t (focusSite_site s site) ha⟩
    · refine checks ((machineCheck_hidden hn hc).trans ?_)
      rw [hiddenError, if_neg (by omega)]
    · refine ⟨_, machineCheck_other hn (fun h => ?_), ?_⟩
      · rcases hc with hc | hc | hc
        · exact hc
        · exact absurd (hc.symm.trans h) (by decide)
        · exact absurd (hc.symm.trans h) (by decide)
      · have h : (err.corrected || err.src.toNat = 3 || err.src.toNat = 5) = true := by simpa [or_assoc] using hc
        rw [if_pos h]
        exact correctedError_corrects t
    · exact checks ((machineCheck_uncorrected hn hc).trans (by rw [if_pos hd]))
    · exact ⟨_, (machineCheck_uncorrected hn hc).trans (by rw [if_neg (by simp [hd])]), rfl⟩
    · have run := watchdogTimeout_due hb
      refine ⟨fun due => ?_, fun no => ⟨_, run.trans (by rw [if_neg no]), rfl⟩⟩
      rw [if_pos due] at run
      obtain ⟨fenced, records, -⟩ := checkSite_fences
        { src := 12, addr := 0, synd := BitVec.ofNat 64 b.beat } (s.focusSite site)
      exact ⟨_, run, fenced, fun h => ⟨_, rfl, rfl, rfl, records h⟩⟩
  · intro turn domain fit carries better often goes
    refine ⟨fun hp => ?_, fun x hp hx => pointsChangeComplete_moves hr hp hx,
      fun x hp hx hl settled => restorationComplete_restores hr hb hp hx hl settled,
      fun hp done => replayEnd_ends hr hp done, fun hp => ⟨s, ?_, rfl⟩⟩
    · have hfit (x : SiteId) : x ∈ s.reserves b ↔ fit x := mem_reserves s b x
      have hcarries (x : SiteId) : s.mayCarry b r.failed x = true ↔ carries x := mayCarry_iff s b r.failed x
      have hoften : b.failsOften s.wafer.clock = true ↔ often := failsOften_iff b _
      exact holdComplete_goes (place := place) hr hb hp hfit hcarries hoften
    · rw [replayEnd_eq hr, if_neg (fun h => hp h.1)]
  · obtain ⟨u, run, sites, e, b, mem, src, sev, addr, synd, rec⟩ := powerDomainFault_faults domain kind s
    refine ⟨u, run, sites, e, b, mem, src, sev, addr, ?_, rec⟩
    rw [synd]
    cases kind <;> rfl
end

