-- ==== Sys2Proof/Proofs/Arrivals.lean ====
section
/-!
SUPPORT. Packets that a tile or a rim unit takes: what each step of an arrival leaves, and what is in flight after it (R24,
R148 to R152, R421, R427).
-/
namespace Sys2Proof.Machine

set_option Elab.async false

/-! ### What is in flight -/

/-- The same packet, but for the request that it answers. -/
def SamePacket (p q : Packet) : Prop := q = { p with asks := q.asks }

theorem SamePacket.refl (p : Packet) : SamePacket p p := rfl

theorem SamePacket.trans {p q r : Packet} (h : SamePacket p q) (k : SamePacket q r) : SamePacket p r := by
  unfold SamePacket at *
  rw [k, h]

theorem SamePacket.id {p q : Packet} (h : SamePacket p q) : q.id = p.id := by rw [show q = _ from h]

/-- The focus stays at its site, what is in flight stays so, and what comes to it has a new number. -/
structure Flies (s u : State) : Prop where
  site : u.site = s.site
  ids : s.wafer.nextId ≤ u.wafer.nextId
  keeps : ∀ p ∈ s.wafer.net, ∃ q ∈ u.wafer.net, SamePacket p q
  fresh : ∀ q ∈ u.wafer.net, s.wafer.nextId ≤ q.id ∨ ∃ p ∈ s.wafer.net, p.id = q.id

/-- Nothing has come to what is in flight. -/
theorem Flies.of_net {s u : State} (site : u.site = s.site) (net : u.wafer.net = s.wafer.net)
    (ids : u.wafer.nextId = s.wafer.nextId) : Flies s u :=
  ⟨site, ids.ge, fun p hp => ⟨p, by rw [net]; exact hp, .refl p⟩, fun q hq => .inr ⟨q, by rw [← net]; exact hq, rfl⟩⟩

theorem Flies.refl (s : State) : Flies s s := .of_net rfl rfl rfl

theorem Flies.trans {s t u : State} (h : Flies s t) (k : Flies t u) : Flies s u where
  site := k.site.trans h.site
  ids := h.ids.trans k.ids
  keeps p hp := by
    obtain ⟨q, hq, e⟩ := h.keeps p hp
    obtain ⟨r, hr, f⟩ := k.keeps q hq
    exact ⟨r, hr, e.trans f⟩
  fresh q hq := by
    rcases k.fresh q hq with g | ⟨p, hp, e⟩
    · exact .inl (h.ids.trans g)
    · rw [← e]
      exact h.fresh p hp

/-- Packets in flight are told which request they answer. -/
theorem Flies.of_map {s u : State} {f : Packet → Packet} (site : u.site = s.site)
    (net : u.wafer.net = s.wafer.net.map f) (ids : u.wafer.nextId = s.wafer.nextId) (hf : ∀ p, SamePacket p (f p)) :
    Flies s u := by
  refine ⟨site, ids.ge, fun p hp => ⟨f p, ?_, hf p⟩, fun q hq => .inr ?_⟩
  · rw [net]; exact List.mem_map_of_mem hp
  · rw [net] at hq
    obtain ⟨p, hp, rfl⟩ := List.mem_map.mp hq
    exact ⟨p, hp, (hf p).id.symm⟩

theorem launchPacket_flies (s : State) (l : Line) (d : Dest) (x : Option Nat) (m : Msg) :
    Flies s (s.launchPacket l d x m) := by
  obtain ⟨p, -, -, -, -, -, hid, hw⟩ := launchPacket_adds s l d x m
  refine ⟨rfl, by rw [hw]; exact Nat.le_succ _, fun q hq => ⟨q, ?_, .refl q⟩, fun q hq => ?_⟩
  · rw [hw]; exact List.mem_append_left _ hq
  · rw [hw] at hq
    rcases List.mem_append.mp hq with g | g
    · exact .inr ⟨q, g, rfl⟩
    · rw [List.mem_singleton.mp g, hid]
      exact .inl (le_refl _)

/-- A message that no tile keeps a fill for. -/
def Msg.plain : Msg → Bool
  | .line _ _ _ => false
  | _ => true

/-- A packet that is injected, or withheld by a replay, changes what is in flight. -/
theorem inject_flies (s : State) (l : Line) (d : Dest) {m : Msg} (hm : m.plain = true) : Flies s (s.inject l d m) ∧
    s.inject l d m = { s with wafer := { s.wafer with
      net := (s.inject l d m).wafer.net, nextId := (s.inject l d m).wafer.nextId } } := by
  have same : s.inject l d m = match s.tile.withheld m with
      | none => s.launchPacket l d none m
      | some none => { s with wafer := { s.wafer with nextId := s.wafer.nextId + 1 } }
      | some (some a) => s.launchPacket .relief (.site s.site) (some s.wafer.arrivals) a := by
    unfold State.inject
    split
    · cases hm
    · rfl
  rw [same]
  split
  · exact ⟨launchPacket_flies s _ _ _ _, rfl⟩
  · refine ⟨⟨rfl, Nat.le_succ _, fun p hp => ⟨p, hp, .refl p⟩, fun q hq => .inr ⟨q, hq, rfl⟩⟩, rfl⟩
  · exact ⟨launchPacket_flies s _ _ _ _, rfl⟩

/-- A packet that no replay withholds is in flight. -/
theorem inject_sent (s t : State) (l : Line) (d : Dest) (m : Msg) (h : s.tile.replay = none)
    (hid : t.wafer.nextId ≤ s.wafer.nextId) : Sent s.site l d m t (s.inject l d m) := by
  obtain ⟨p, hl, hd, hm, ho, -, hpid, hw⟩ := inject_sends s l d m h
  exact ⟨p, by rw [hw]; simp, by omega, ho, hl, hd, hm⟩

theorem Flies.sent {s u t : State} (h : Flies s u) {x : SiteId} {l : Line} {d : Dest} {m : Msg} (k : Sent x l d m t s) :
    Sent x l d m t u := by
  obtain ⟨p, hp, hid, ho, hl, hd, hm⟩ := k
  obtain ⟨q, hq, e⟩ := h.keeps p hp
  have e' : q = { p with asks := q.asks } := e
  exact ⟨q, hq, by rw [e']; exact hid, by rw [e']; exact ho, by rw [e']; exact hl, by rw [e']; exact hd,
    by rw [e']; exact hm⟩

/-- A packet that is taken out of the network does not come back. -/
theorem Flies.gone {id : Nat} {t u : State} (h : Flies (t.dropPacket id) u) : Gone id t u := by
  intro lt q hq
  rcases h.fresh q hq with g | ⟨p, hp, e⟩
  · have : t.wafer.nextId ≤ q.id := g
    omega
  · rw [← e]
    simpa using (List.mem_filter.mp hp).2

/-! ### What an access from another tile changes (R148 to R157, R335, R421) -/

theorem OnlyTraffic.refl (t : State) : OnlyTraffic t t := rfl

theorem OnlyTraffic.trans {s t u : State} (h : OnlyTraffic s t) (k : OnlyTraffic t u) : OnlyTraffic s u := by
  unfold OnlyTraffic at *
  rw [k, h]

theorem OnlyArrival.trans {s t u : State} (h : OnlyArrival s t) (k : OnlyArrival t u) : OnlyArrival s u where
  cores c := by
    obtain ⟨ib, pe, e⟩ := h.cores c
    obtain ⟨ib', pe', e'⟩ := k.cores c
    exact ⟨ib', pe', by rw [e', e]⟩
  place := ⟨k.place.1.trans h.place.1, k.place.2.1.trans h.place.2.1, k.place.2.2.trans h.place.2.2⟩
  tile := by rw [k.tile, h.tile]
  wafer := h.wafer.trans k.wafer

/-- What an access from another tile may change, and what is in flight meanwhile. -/
structure EntersHere (s u : State) : Prop where
  flies : Flies s u
  only : OnlyArrival s u

theorem EntersHere.trans {s t u : State} (h : EntersHere s t) (k : EntersHere t u) : EntersHere s u :=
  ⟨h.flies.trans k.flies, h.only.trans k.only⟩

/-- A change of the tile in focus alone, in what an access may change. -/
theorem EntersHere.of_tile {s : State} {t : Tile} (h : t = { s.tile with
    mem := t.mem, full := t.full, tagKnown := t.tagKnown, cntKnown := t.cntKnown, waiters := t.waiters,
    monitors := t.monitors, marks := t.marks, answers := t.answers, dirty := t.dirty, touched := t.touched, made := t.made,
    sliceCount := t.sliceCount, lines := t.lines, dets := t.dets }) : EntersHere s { s with tile := t } :=
  ⟨.of_net rfl rfl rfl, ⟨fun _ => ⟨_, _, rfl⟩, ⟨rfl, rfl, rfl⟩, h, rfl⟩⟩

theorem EntersHere.refl (s : State) : EntersHere s s := EntersHere.of_tile (t := s.tile) rfl

/-- A change of what is in flight. -/
theorem EntersHere.of_flies {s u : State} (h : Flies s u)
    (e : u = { s with wafer := { s.wafer with net := u.wafer.net, nextId := u.wafer.nextId } }) : EntersHere s u := by
  refine ⟨h, ?_⟩
  rw [e]
  exact ⟨fun _ => ⟨_, _, rfl⟩, ⟨rfl, rfl, rfl⟩, rfl, rfl⟩

theorem inject_entersHere (s : State) (l : Line) (d : Dest) {m : Msg} (hm : m.plain = true) : EntersHere s (s.inject l d m) :=
  .of_flies (inject_flies s l d hm).1 (inject_flies s l d hm).2

theorem noteDet_entersHere (s : State) (d : Det) : EntersHere s (s.noteDet d) := by
  unfold State.noteDet
  split_ifs
  · exact .refl s
  · split
    · exact .refl s
    · exact (EntersHere.of_tile (t := { s.tile with dets := s.tile.dets ++ [d] }) rfl).trans (inject_entersHere _ _ _ rfl)

theorem touch_entersHere (s : State) (src line : Nat) (write : Bool) : EntersHere s (s.touch src line write) := by
  have one : EntersHere s { s with tile := { s.tile with
      touched := (line, src, write) :: s.tile.touched.filter (fun p => p.1 != line),
      made := (src, s.tile.madeBy src + 1) :: s.tile.made.filter (fun p => p.1 != src),
      sliceCount := vset s.tile.sliceCount (line % 8) (vget s.tile.sliceCount (line % 8) 0 + 1) } } := .of_tile rfl
  simp only [State.touch]
  split
  · split_ifs
    · exact one.trans (noteDet_entersHere _ _)
    · exact one
  · exact one

theorem touchAll_entersHere (s : State) (src : Nat) (lines : List Nat) (write : Bool) :
    EntersHere s (lines.foldl (fun s l => s.touch src l write) s) := by
  induction lines generalizing s with
  | nil => exact .refl s
  | cons l r ih => exact (touch_entersHere s src l write).trans (ih _)

theorem noteLines_only (st : RaceStamp) (lines : List Nat) (t : Tile) :
    lines.foldl (fun t l => t.noteLine st l) t = { t with lines := (lines.foldl (fun t l => t.noteLine st l) t).lines } := by
  induction lines generalizing t with
  | nil => rfl
  | cons l r ih =>
    rw [List.foldl_cons, ih]
    rfl

theorem reach_entersHere (s : State) (r : Req) (lines : List Nat) (write : Bool) : EntersHere s (s.reach r lines write) := by
  have touched := touchAll_entersHere s (srcRemote r.src) lines write
  unfold State.reach
  dsimp only
  split
  · refine touched.trans ?_
    rw [noteLines_only]
    exact .of_tile rfl
  · exact touched

/-- What has been recorded of the packets that enter: a send-log entry. -/
theorem sentEntry_entersHere (s : State) (l : List SentEntry) :
    EntersHere s { s with wafer := { s.wafer with healing := { s.wafer.healing with sent := l } } } :=
  ⟨.of_net rfl rfl rfl, ⟨fun _ => ⟨_, _, rfl⟩, ⟨rfl, rfl, rfl⟩, rfl, rfl⟩⟩

theorem noteInput_entersHere (s : State) (kind : DetKind) (core : CoreId) (slice : BitVec 3) (pos : Nat) (src : CoreRef)
    (jt : TileNo) (seq : W32) (payload : List Byte) (p : Packet) (places : List Nat) (runs : Option Nat) :
    EntersHere s (s.noteInput kind core slice pos src jt seq payload p places runs) := by
  unfold State.noteInput
  split_ifs
  · exact .refl s
  · exact (sentEntry_entersHere s _).trans (noteDet_entersHere _ _)
  · exact (sentEntry_entersHere s _).trans (noteDet_entersHere _ _)

theorem noteWrite_entersHere (s : State) (r : Req) (a : Nat) (payload : List Byte) (p : Packet) :
    EntersHere s (s.noteWrite r a payload p) := noteInput_entersHere s _ _ _ _ _ _ _ _ _ _ _

theorem answerHere_entersHere (s : State) (c : CoreId) (f : Nat) (r : Reply) : EntersHere s (s.answerHere c f r) := by
  obtain ⟨tile, wafer, site, junction, coreNo⟩ := answerHere_keeps s c f r
  refine ⟨.of_net site (by rw [wafer]) (by rw [wafer]), fun d => ?_, ⟨coreNo, site, junction⟩, by rw [tile], ?_⟩
  · obtain ⟨pe, e⟩ := answerHere_coreAt s c d f r
    exact ⟨_, pe, e⟩
  · unfold OnlyTraffic; rw [wafer]

theorem answer_entersHere (s : State) (r : Req) (remote : Bool) (rep : Reply) (kind : DetKind) :
    EntersHere s (s.answer r remote rep kind) := by
  unfold State.answer
  split_ifs
  · exact inject_entersHere _ _ _ rfl
  · exact answerHere_entersHere _ _ _ _

/-- A packet is told which request it answers. -/
theorem setAsks_entersHere (s : State) (id : Nat) (m : Option Msg) :
    EntersHere s (s.setPacket id (fun p => { p with asks := m })) := by
  refine .of_flies (.of_map rfl rfl rfl (fun p => ?_)) rfl
  split_ifs <;> exact rfl

theorem wakeMonitors_entersHere (ms : List Monitor) (s : State) : EntersHere s (wakeMonitors ms s) := by
  induction ms generalizing s with
  | nil => exact .refl s
  | cons m r ih =>
    have woken (u : State) (rep : Reply) (id : Nat) (q : Option Msg) :
        EntersHere u ((u.answer m.req m.remote rep .reply).setPacket id (fun p => { p with asks := q })) :=
      (answer_entersHere u _ _ _ _).trans (setAsks_entersHere _ _ _)
    rw [wakeMonitors]
    refine EntersHere.trans ?_ (ih _)
    dsimp only
    split_ifs
    · exact (EntersHere.of_tile (t := ({ s.tile with monitors := s.tile.monitors.filter (· != m) } : Tile).keepAnswer m.req _)
        rfl).trans (woken _ _ _ _)
    · exact (EntersHere.of_tile (t := { s.tile with monitors := s.tile.monitors.filter (· != m) }) rfl).trans (woken _ _ _ _)
    · exact .refl s

/-- A write from another tile at the scratchpad in focus. -/
theorem writeOwn_entersHere (s : State) (cells : List Host.Cell) : EntersHere s (s.writeOwn cells false) :=
  (EntersHere.of_tile (t := { s.tile.markDirty (cells.foldl (fun l c => insertNat (c.1 / 256) l) []) with
    mem := s.tile.mem.writeCells cells }) rfl).trans (wakeMonitors_entersHere _ _)

theorem markOseq_entersHere (s : State) (r : Req) : EntersHere s { s with tile := s.tile.markOseq r } := .of_tile rfl

/-! ### Memory meanwhile -/

/-- Notes leave the scratchpad, its tags, marks, waiters and records of puts as they are. -/
structure OnlyNoted (s u : State) : Prop where
  enters : EntersHere s u
  mem : u.tile.mem = s.tile.mem
  full : u.tile.full = s.tile.full
  marks : u.tile.marks = s.tile.marks
  waiters : u.tile.waiters = s.tile.waiters
  cntKnown : u.tile.cntKnown = s.tile.cntKnown

theorem OnlyNoted.of_notes {s u : State} (h : EntersHere s u) (k : OnlyNotes s u) : OnlyNoted s u := by
  have e := k.tile
  exact ⟨h, by rw [e], by rw [e], by rw [e], by rw [e], by rw [e]⟩

theorem OnlyNoted.trans {s t u : State} (h : OnlyNoted s t) (k : OnlyNoted t u) : OnlyNoted s u :=
  ⟨h.enters.trans k.enters, k.mem.trans h.mem, k.full.trans h.full, k.marks.trans h.marks, k.waiters.trans h.waiters,
    k.cntKnown.trans h.cntKnown⟩

theorem reach_onlyNoted (s : State) (r : Req) (lines : List Nat) (write : Bool) : OnlyNoted s (s.reach r lines write) := by
  have touched := OnlyNoted.of_notes (touchAll_entersHere s (srcRemote r.src) lines write)
    (touchAll_onlyNotes s (srcRemote r.src) lines write)
  have same : (s.reach r lines write).tile =
      { (lines.foldl (fun s l => s.touch (srcRemote r.src) l write) s).tile with
        lines := (s.reach r lines write).tile.lines } := by
    unfold State.reach
    dsimp only
    split
    · exact noteLines_only _ _ _
    · rfl
  exact ⟨reach_entersHere s r lines write, by rw [same]; exact touched.mem, by rw [same]; exact touched.full,
    by rw [same]; exact touched.marks, by rw [same]; exact touched.waiters, by rw [same]; exact touched.cntKnown⟩

theorem noteWrite_onlyNoted (s : State) (r : Req) (a : Nat) (payload : List Byte) (p : Packet) :
    OnlyNoted s (s.noteWrite r a payload p) := by
  have noted (u : State) (d : Det) : OnlyNoted u (u.noteDet d) := .of_notes (noteDet_entersHere u d) (noteDet_onlyNotes u d)
  have entry (l : List SentEntry) :
      OnlyNoted s { s with wafer := { s.wafer with healing := { s.wafer.healing with sent := l } } } :=
    ⟨sentEntry_entersHere s l, rfl, rfl, rfl, rfl, rfl⟩
  unfold State.noteWrite State.noteInput
  dsimp only
  split_ifs
  · exact ⟨.refl s, rfl, rfl, rfl, rfl, rfl⟩
  · exact (entry _).trans (noted _ _)
  · exact (entry _).trans (noted _ _)

/-- A write from another tile is noted and reaches its lines, and its cells are written. -/
theorem writes_stores (s : State) (r : Req) (a : Nat) (payload : List Byte) (p : Packet) (cells : List Host.Cell)
    (lines : List Nat) :
    let u := ((s.noteWrite r a payload p).reach r lines true).writeOwn cells false
    EntersHere s u ∧ u.tile.mem = s.tile.mem.writeCells cells ∧ u.tile.full = s.tile.full := by
  have noted := (noteWrite_onlyNoted s r a payload p).trans (reach_onlyNoted _ r lines true)
  obtain ⟨mem, full, -⟩ := writeOwn_memory ((s.noteWrite r a payload p).reach r lines true) cells false
  exact ⟨noted.enters.trans (writeOwn_entersHere _ _), by rw [mem, noted.mem], by rw [full, noted.full]⟩

/-! ### Marks (R184, R427, R481) -/

theorem atMost_self (n : W32) : atMost n n = true := by simp [atMost]

theorem underMark_raiseMark (m : Option W32) (n : W32) : underMark (raiseMark m n) n = true := by
  cases m with
  | none => exact atMost_self n
  | some k =>
    rw [raiseMark]
    split_ifs with h
    · exact h
    · exact atMost_self n

/-- A mark that has taken in a request covers it. -/
theorem takeOseq_covers (m : Mark) (r : Req) :
    underMark (m.takeOseq r).oseq r.seq = true ∨ (m.takeOseq r).tookHalf r = true := by
  unfold Mark.takeOseq Mark.tookHalf
  split
  next => exact .inl (underMark_raiseMark _ _)
  next b hb _ => exact .inr (by simp [hb])
  next b q c hb hm =>
    split_ifs with hq hc
    · exact .inr (by simp [hb, hm, hq, hc])
    · rw [← hq]
      exact .inl (underMark_raiseMark _ _)
    · exact .inr (by simp [hb])

theorem takeOseq_src (m : Mark) (r : Req) : (m.takeOseq r).src = m.src := by
  unfold Mark.takeOseq
  split
  · rfl
  · rfl
  · split_ifs <;> rfl

/-- Marks after a source's mark has taken in its request. -/
theorem putMark_covers (l : List Mark) (r : Req) : CoveredBy (putMark l r.src (fun m => m.takeOseq r)) r := by
  have covers (m : Mark) : ∃ k, some (m.takeOseq r) = some k ∧ (underMark k.oseq r.seq = true ∨ k.tookHalf r = true) :=
    ⟨_, rfl, takeOseq_covers m r⟩
  unfold CoveredBy putMark
  cases h : findMark l r.src with
  | some m =>
    have e : findMark (l.map (fun k => if k.src == r.src then k.takeOseq r else k)) r.src = some (m.takeOseq r) := by
      rw [findMark] at h ⊢
      rw [find_map_keeping (fun k => by split_ifs <;> simp [takeOseq_src]), h, Option.map_some,
        if_pos (List.find?_some h)]
    dsimp only
    rw [e]
    exact covers m
  | none =>
    have e : findMark (l ++ [({ src := r.src } : Mark).takeOseq r]) r.src = some (({ src := r.src } : Mark).takeOseq r) := by
      rw [findMark] at h ⊢
      rw [List.find?_append, h]
      simp [takeOseq_src]
    dsimp only
    rw [e]
    exact covers _

end Sys2Proof.Machine
end

