-- ==== Sys2Proof/Proofs/Taking.lean ====
section
/-!
SUPPORT. The taking of packets at a tile and at a rim unit, and at the junctions before them (R16, R24, R26, R423).
-/
namespace Sys2Proof.Machine

set_option Elab.async false

/-! ### Taken at a tile -/

/-- A channel record keeps a packet whether or not it is in flight still. -/
theorem recordChannel_dropPacket (s : State) (p : Packet) (id : Nat) :
    (s.dropPacket id).recordChannel p = (s.recordChannel p).dropPacket id := by
  have round : (s.dropPacket id).openRound = s.openRound := rfl
  have tile : (s.dropPacket id).tile = s.tile := rfl
  unfold State.recordChannel
  rw [round, tile]
  cases s.openRound with
  | none => rfl
  | some r =>
    dsimp only
    split_ifs <;> rfl

theorem recordChannel_keeps (s : State) (p : Packet) : (s.recordChannel p).tile = s.tile ∧
    (s.recordChannel p).wafer.nextId = s.wafer.nextId ∧ (s.recordChannel p).site = s.site := by
  unfold State.recordChannel
  split
  · split_ifs <;> exact ⟨rfl, rfl, rfl⟩
  · exact ⟨rfl, rfl, rfl⟩

theorem asking_eq (s : State) (n : Nat) (m : Msg) : ∃ f : Packet → Packet, (∀ p, SamePacket p (f p)) ∧
    s.asking n m = { s with wafer := { s.wafer with net := s.wafer.net.map f } } := by
  unfold State.asking
  split_ifs
  · refine ⟨_, fun p => ?_, rfl⟩
    split_ifs <;> exact rfl
  · exact ⟨_, .refl, by simp⟩

/-- What the answers in flight answer is noted. -/
theorem asking_only (s : State) (n : Nat) (m : Msg) : Flies s (s.asking n m) ∧
    s.asking n m = { s with wafer := { s.wafer with net := (s.asking n m).wafer.net } } := by
  obtain ⟨f, hf, e⟩ := asking_eq s n m
  rw [e]
  exact ⟨.of_map rfl rfl rfl hf, rfl⟩

section
variable {id : Nat} {p : Packet} {s t : State} (h : Taken id p s t)
include h

/-- A packet of a tile is not a rim unit's. -/
theorem Taken.rim : p.rim = none := by
  rw [Packet.rim, if_neg (by simp [h.home])]

/-- A tile that replays takes no request. -/
theorem Taken.replay (hp : p.msg.passesReplay = false) : t.tile.replay = none := by
  obtain ⟨n, -, may⟩ := h.may
  have tile : t.tile = (s.focusSite p.site).tile := by rw [h.place]; exact (recordChannel_keeps _ p).1
  simp only [State.mayTake, State.mayEnter, Bool.and_eq_true, Bool.or_eq_true, hp, Bool.false_eq_true, or_false,
    Option.isNone_iff_eq_none] at may
  rw [tile]
  exact may.1.1.1.2

/-- The event performs what its rule does to the tile without the packet. -/
theorem Taken.runs {k : Packet → State → Option State} {u : State} (hk : k p (t.dropPacket id) = some u) :
    s.take id k = .next (u.asking t.wafer.nextId p.msg) := by
  obtain ⟨n, hn, may⟩ := h.may
  have ids : (s.focusSite p.site).wafer.nextId = t.wafer.nextId := by
    rw [h.place]; exact (recordChannel_keeps _ p).2.1.symm
  have hk' : k p (((s.focusSite p.site).dropPacket id).recordChannel p) = some u := by
    rw [recordChannel_dropPacket, ← h.place]; exact hk
  unfold State.take
  simp only [h.packet, hn, h.home, Bool.false_eq_true, if_false, may, if_true, hk', ids]

/-- A packet is performed, and an answer is sent last. -/
theorem Taken.answers {k : Packet → State → Option State} {x : State} {l : Line} {c : TileNo} {m : Msg}
    (hk : k p (t.dropPacket id) = some (x.inject l (.tile c) m)) (hx : Flies (t.dropPacket id) x)
    (hr : x.tile.replay = none) (hm : m.plain = true) :
    ∃ u, s.take id k = .next u ∧ Sent t.site l (.tile c) m t u ∧ Gone id t u ∧ Flies x u ∧
      u = { x with wafer := { x.wafer with net := u.wafer.net, nextId := u.wafer.nextId } } := by
  obtain ⟨flies, only⟩ := inject_flies x l (.tile c) hm
  obtain ⟨flies', only'⟩ := asking_only (x.inject l (.tile c) m) t.wafer.nextId p.msg
  have sent := inject_sent x t l (.tile c) m hr hx.ids
  have site : x.site = t.site := hx.site
  rw [site] at sent
  refine ⟨_, h.runs hk, flies'.sent sent, (hx.trans (flies.trans flies')).gone, flies.trans flies', ?_⟩
  rw [only', only]

/-- A packet whose performance only enters the tile, and answers last. -/
theorem Taken.enters {k : Packet → State → Option State} {x : State} {l : Line} {c : TileNo} {m : Msg}
    (hp : p.msg.passesReplay = false) (hk : k p (t.dropPacket id) = some (x.inject l (.tile c) m))
    (hx : EntersHere (t.dropPacket id) x) (hm : m.plain = true) :
    ∃ u, s.take id k = .next u ∧ Sent t.site l (.tile c) m t u ∧ OnlyArrival t u ∧ Gone id t u ∧ u.tile = x.tile := by
  have dropped : EntersHere (t.dropPacket id) (t.dropPacket id) := .refl _
  have replay : x.tile.replay = none := by
    rw [hx.only.tile]
    exact h.replay hp
  obtain ⟨u, run, sent, gone, flies, only⟩ := h.answers hk hx.flies replay hm
  have start : OnlyArrival t (t.dropPacket id) := ⟨fun _ => ⟨_, _, rfl⟩, ⟨rfl, rfl, rfl⟩, rfl, rfl⟩
  have finish := (EntersHere.of_flies flies only).only
  exact ⟨u, run, sent, start.trans (hx.only.trans finish), gone, by rw [only]⟩

end

/-- An arrival that leaves the scratchpad keeps all memory. -/
theorem OnlyArrival.keepsMemory {t u : State} (h : OnlyArrival t u) (mem : u.tile.mem = t.tile.mem) : KeepsMemory t u := by
  have w : u.wafer = _ := h.wafer
  exact ⟨fun a => by rw [mem], fun a => by rw [w], fun a => by rw [w], fun a => by rw [w], by rw [w]⟩

/-- An arrival that writes cells at the scratchpad stores them, and keeps all other memory. -/
theorem OnlyArrival.storesCells {t u : State} {cells : List Host.Cell} (h : OnlyArrival t u)
    (mem : u.tile.mem = t.tile.mem.writeCells cells) : StoresCells cells t u := by
  have w : u.wafer = _ := h.wafer
  exact ⟨by rw [mem]; exact writeCells_holds _ _, by rw [w], by rw [w], by rw [w], by rw [w]⟩

/-! ### Taken at a rim unit -/

theorem rimSend_sent (s t : State) (x : SiteId) (l : Line) (d : Dest) (m : Msg) (h : t.wafer.nextId ≤ s.wafer.nextId) :
    Sent x l d m t (s.rimSend x l d m) :=
  ⟨_, List.mem_append_right _ (List.mem_singleton.mpr rfl), h, rfl, rfl, rfl, rfl⟩

section
variable {id : Nat} {p : Packet} {s : State} (h : TakenAtRim id p s)
include h

theorem TakenAtRim.rim : p.rim = some p.site := by
  rw [Packet.rim, if_pos h.home]

/-- A packet is performed at a rim unit, and an answer is sent last. -/
theorem TakenAtRim.answers {k : Packet → State → Option State} {x : State} {l : Line} {d : Dest} {m : Msg}
    (hk : k p (s.dropPacket id) = some (x.sendAs p.rim l d m)) (net : x.wafer.net = (s.dropPacket id).wafer.net)
    (ids : x.wafer.nextId = s.wafer.nextId) :
    ∃ u, s.take id k = .next u ∧ Sent p.site l d m s u ∧ Gone id s u ∧
      u = { x with wafer := { x.wafer with net := u.wafer.net, nextId := u.wafer.nextId } } := by
  obtain ⟨n, hn, behind, order, queue⟩ := h.may
  rw [h.rim] at hk
  have run : s.take id k = .next (x.rimSend p.site l d m) := by
    have hk' : k p (s.dropPacket id) = some (x.rimSend p.site l d m) := hk
    unfold State.take
    simp only [h.packet, hn, h.home, if_true, behind, order, queue, Bool.or_self, Bool.false_eq_true, if_false, hk']
  refine ⟨_, run, rimSend_sent x s p.site l d m ids.ge, fun lt q hq => ?_, rfl⟩
  rcases List.mem_append.mp hq with g | g
  · rw [net] at g
    simpa using (List.mem_filter.mp g).2
  · rw [List.mem_singleton.mp g]
    show x.wafer.nextId ≠ id
    omega

end

/-! ### Junctions (R16, R24, R423, R428) -/

theorem setPacket_packet {s : State} {id : Nat} {p : Packet} (h : s.packet id = some p) {f : Packet → Packet}
    (hf : ∀ p, (f p).id = p.id) : (s.setPacket id f).packet id = some (f p) := by
  have e : (s.setPacket id f).packet id = (s.wafer.net.map (fun p => if p.id = id then f p else p)).find?
      (fun p => p.id == id) := rfl
  have hid : p.id = id := by simpa using List.find?_some h
  rw [State.packet] at h
  rw [e, find_map_keeping (fun p => by split_ifs <;> simp [hf]), h, Option.map_some, if_pos hid]

theorem arrive_arrives {s : State} {id : Nat} {p : Packet} (h : s.packet id = some p) :
    (s.arrive id).packet id = some { p with arrived := some s.wafer.arrivals } ∧
      s.arrive id = { s with wafer := { s.wafer with
        net := (s.arrive id).wafer.net, arrivals := s.wafer.arrivals + 1 } } :=
  ⟨setPacket_packet (f := fun p => { p with arrived := some s.wafer.arrivals }) h (fun _ => rfl), rfl⟩

theorem setSite_moves {s : State} {id : Nat} {p : Packet} (h : s.packet id = some p) (x : SiteId) :
    (s.setPacket id (fun p => { p with site := x })).packet id = some { p with site := x } ∧
      s.setPacket id (fun p => { p with site := x }) = { s with wafer := { s.wafer with
        net := (s.setPacket id (fun p => { p with site := x })).wafer.net } } :=
  ⟨setPacket_packet (f := fun p => { p with site := x }) h (fun _ => rfl), rfl⟩

/-- A packet in flight stays there while its sender asks for room. -/
theorem askClose_packet {s : State} {id : Nat} {p : Packet} (h : s.packet id = some p) :
    (s.askClose p).packet id = some p := by
  unfold State.askClose
  dsimp only
  split
  · exact h
  · split_ifs
    · exact h
    · rw [State.packet] at h ⊢
      obtain ⟨q, -, -, -, -, -, -, hw⟩ := launchPacket_adds (s.focusSite p.origin) .relief (.tile _) none (.closeRequest _)
      rw [atSite_net, hw]
      dsimp only
      rw [focusSite_net, List.find?_append, h]
      rfl

/-- A packet that reaches a site which its destination resolves to: it arrives, unless one before it has not. -/
def State.comeOrWait (s : State) (id : Nat) (p : Packet) : State := if s.overtakes p then s else s.arrive id

section
variable {id : Nat} {p : Packet} {s : State}

/-- A packet may go on: nothing holds it, its records are confirmed, and the log has room (R423, R428, R439). -/
structure MayGo (id : Nat) (p : Packet) (s : State) : Prop where
  packet : s.packet id = some p
  arrived : p.arrived = none
  held : s.heldBack p = false
  gate : p.gate ≤ (s.tileAt p.origin).confirmed
  log : s.logWaits p = false

theorem MayGo.stops (h : MayGo id p s) :
    (p.arrived.isSome || s.heldBack p || decide ((s.tileAt p.origin).confirmed < p.gate)) = false := by
  simp [h.arrived, h.held, h.gate]

theorem MayGo.toTile (h : MayGo id p s) {l : TileNo} (hd : p.dest = .tile l) :
    exec (.junctionPacketArrival id) s = .next ((findPoint (s.junctionAt p.site).points l.toNat).elim s (fun x =>
      if x = p.site then (if (s.junctionAt x).passThrough || s.overtakes p then s else s.arrive id)
      else s.setPacket id (fun p => { p with site := x }))) := by
  have run : exec (.junctionPacketArrival id) s = execJunctionPacketArrival id s := rfl
  rw [run, execJunctionPacketArrival]
  simp only [h.packet, h.stops, h.log, hd, Bool.false_eq_true, if_false]
  cases findPoint (s.junctionAt p.site).points l.toNat <;> rfl

theorem MayGo.toSite (h : MayGo id p s) {x : SiteId} (hd : p.dest = .site x) :
    exec (.junctionPacketArrival id) s = .next (s.comeOrWait id p) := by
  have run : exec (.junctionPacketArrival id) s = execJunctionPacketArrival id s := rfl
  rw [run, execJunctionPacketArrival]
  simp only [h.packet, h.stops, h.log, hd, Bool.false_eq_true, if_false, State.comeOrWait]

theorem MayGo.toRim (h : MayGo id p s) (hd : p.dest.rim = true) :
    exec (.junctionPacketArrival id) s = .next ((s.resolve p.dest).elim s (fun x =>
      if x = p.site then s.comeOrWait id p else s.setPacket id (fun p => { p with site := x }))) := by
  have run : exec (.junctionPacketArrival id) s = execJunctionPacketArrival id s := rfl
  rw [run, execJunctionPacketArrival]
  simp only [h.packet, h.stops, h.log, Bool.false_eq_true, if_false]
  cases e : p.dest with
  | tile l => rw [e] at hd; cases hd
  | site x => rw [e] at hd; cases hd
  | _ => dsimp only; cases s.resolve _ <;> rfl

end

end Sys2Proof.Machine
end

