-- ==== Sys2Proof/Proofs/RemoteAccess.lean ====
section
/-!
SUPPORT. Remote reads and writes, chunks, rows and device registers, at a tile and at a rim unit (R148, R149, R165, R175,
R266, R299, R437, R469).
-/
namespace Sys2Proof.Machine

set_option Elab.async false

/-! ### At a tile -/

section
variable {id : Nat} {p : Packet} {s t : State} (h : Taken id p s t)
include h

/-- A read of the scratchpad answers the bytes that stand there, or a race (R148, R175). -/
theorem Taken.reads {r : Req} {l : List Nat} {answer : State → Reply → State} {m : Reply → Msg}
    (hp : p.msg.passesReplay = false) (hk : ∀ u, performLoad p u = some (readHere r l answer u))
    (ha : ∀ u rep, answer u rep = u.inject .main (.tile r.src.tile) (m rep)) (hm : ∀ rep, (m rep).plain = true) :
    let ends (a : Reply) : Prop := Runs (.remoteLoadRequestArrival id) s (fun u =>
      Sent t.site .main (.tile r.src.tile) (m a) t u ∧ KeepsMemory t u ∧ OnlyArrival t u ∧ Gone id t u)
    (t.requestRaces r (l.map (· / 256)).eraseDups = false →
      ends (.data (l.map t.tile.mem.read) (l.flatMap (fun a => t.tile.counted a 1)).eraseDups)) ∧
    (t.requestRaces r (l.map (· / 256)).eraseDups = true → ends .race) := by
  intro ends
  have finish {a : Reply} {x : State} (hx : EntersHere (t.dropPacket id) x) (mem : x.tile.mem = t.tile.mem)
      (hk' : performLoad p (t.dropPacket id) = some (x.inject .main (.tile r.src.tile) (m a))) : ends a := by
    obtain ⟨u, run, sent, only, gone, tile⟩ := h.enters hp hk' hx (hm a)
    exact ⟨u, run, sent, only.keepsMemory (by rw [tile, mem]), only, gone⟩
  have races : (t.dropPacket id).requestRaces r (l.map (· / 256)).eraseDups =
      t.requestRaces r (l.map (· / 256)).eraseDups := rfl
  have read := hk (t.dropPacket id)
  unfold readHere at read
  dsimp only at read
  rw [races] at read
  refine ⟨fun no => ?_, fun yes => ?_⟩
  · have noted := reach_onlyNoted (t.dropPacket id) r (l.map (· / 256)).eraseDups false
    have counted (a : Nat) : ((t.dropPacket id).reach r (l.map (· / 256)).eraseDups false).tile.counted a 1 =
        t.tile.counted a 1 := by
      unfold Tile.counted
      rw [noted.cntKnown]
      rfl
    have cells : ((t.dropPacket id).reach r (l.map (· / 256)).eraseDups false).tile.cellsOf l = l.map t.tile.mem.read := by
      unfold Tile.cellsOf
      rw [noted.mem]
      rfl
    refine finish noted.enters noted.mem ?_
    rw [read, if_neg (by simp [no]), ha, cells]
    simp only [counted]
  · refine finish (.refl _) rfl ?_
    rw [read, if_pos yes, ha]

/-- What a posted write has come to at its tile (R152, R427). -/
def WriteEnds (r : Req) (cells : List Host.Cell) (m : Msg) (id : Nat) (t u : State) : Prop :=
  StoresCells cells t u ∧ Marked r u ∧ Sent t.site .relief (.tile r.src.tile) m t u ∧ u.tile.full = t.tile.full ∧
    OnlyArrival t u ∧ Gone id t u

/-- A posted write is noted, performed, marked and acknowledged. -/
theorem Taken.writes {r : Req} {a : Nat} {payload : List Byte} {cells : List Host.Cell} {m : Msg}
    {k : Packet → State → Option State} (hp : p.msg.passesReplay = false) (hm : m.plain = true)
    (hk : k p (t.dropPacket id) =
      let w := (((t.dropPacket id).noteWrite r a payload p).reach r (cellLines cells) true).writeOwn cells false
      some (({ w with tile := w.tile.markOseq r } : State).inject .relief (.tile r.src.tile) m)) :
    ∃ u, s.take id k = .next u ∧ WriteEnds r cells m id t u := by
  obtain ⟨enters, mem, full⟩ := writes_stores (t.dropPacket id) r a payload p cells (cellLines cells)
  generalize (((t.dropPacket id).noteWrite r a payload p).reach r (cellLines cells) true).writeOwn cells false = w at *
  obtain ⟨u, run, sent, only, gone, tile⟩ := h.enters hp hk (enters.trans (markOseq_entersHere w r)) hm
  refine ⟨u, run, only.storesCells (by rw [tile]; exact mem), ?_, sent, by rw [tile]; exact full, only, gone⟩
  rw [Marked, tile]
  exact putMark_covers w.tile.marks r

/-- An access that changes nothing is answered (R175). -/
theorem Taken.refuses {r : Req} {m : Msg} {l : Line} {k : Packet → State → Option State}
    (hp : p.msg.passesReplay = false) (hm : m.plain = true)
    (hk : k p (t.dropPacket id) = some ((t.dropPacket id).inject l (.tile r.src.tile) m)) :
    ∃ u, s.take id k = .next u ∧ Sent t.site l (.tile r.src.tile) m t u ∧ u.tile = t.tile ∧
      KeepsMemory t u ∧ OnlyArrival t u ∧ Gone id t u := by
  obtain ⟨u, run, sent, only, gone, tile⟩ := h.enters hp hk (.refl _) hm
  exact ⟨u, run, sent, tile, only.keepsMemory (by rw [tile]; rfl), only, gone⟩

end

theorem fresh_repeated {r : Req} (h : r.replay = false) (l : List Mark) (pick : Mark → Option W32) :
    repeated l r pick = false := by simp [repeated, h]

/-- A chunk at a tile. -/
theorem performChunk_tile {p : Packet} {r : Req} {l : TileNo} {c : Chunk} {s : State} (hm : p.msg = .chunk r (.spad l) c)
    (hr : p.rim = none) (fresh : FreshWrite r s) : performChunk p s =
      let ends := if crc32c 0 c.bytes = c.check then none else some (c.check, crc32c 0 c.bytes)
      let ack (raced : Bool) : Msg := .chunkAck r.src c.card r.fetch (if raced then none else ends) raced r.cls
      let cells := partCells c.bytes c.parts
      let w := ((s.noteWrite r (firstCell cells) c.bytes p).reach r (cellLines cells) true).writeOwn cells false
      if s.requestRaces r (cellLines cells) then some (s.inject .relief (.tile r.src.tile) (ack true))
      else some (({ w with tile := w.tile.markOseq r } : State).inject .relief (.tile r.src.tile) (ack false)) := by
  unfold performChunk
  simp only [hm, hr, State.sendAs, fresh_repeated fresh.1, fresh.2, Bool.false_eq_true, Bool.not_true, if_false]

/-- A row of a job at a tile. -/
theorem performWrite_row {p : Packet} {r : Req} {card : Nat} {l : TileNo} {cells : List Host.Cell} {s : State}
    (hm : p.msg = .rowStore r card (.spad l) cells) (fresh : FreshWrite r s) : performWrite p s =
      let ack (raced : Bool) : Msg := .rowAck r.src card r.fetch r.cls raced
      let w := ((s.noteWrite r (firstCell cells) (cells.map (·.2)) p).reach r (cellLines cells) true).writeOwn cells false
      if s.requestRaces r (cellLines cells) then some (s.inject .relief (.tile r.src.tile) (ack true))
      else some (({ w with tile := w.tile.markOseq r } : State).inject .relief (.tile r.src.tile) (ack false)) := by
  unfold performWrite
  simp only [hm, rowAtTile, fresh_repeated fresh.1, fresh.2, Bool.false_eq_true, Bool.not_true, if_false]

theorem serveWaiters_none {a : Nat} {s : State} (h : NoWaiter a s) (n : Nat) : serveWaiters a n s = s := by
  cases n with
  | zero => rfl
  | succ n =>
    have none : s.tile.nextWaiter a = none := by
      rw [Tile.nextWaiter, List.find?_eq_none]
      intro w hw
      simp [h w hw]
    rw [serveWaiters, none]

/-- A flag set at a tile. -/
theorem performChunk_flag {p : Packet} {r : Req} {card : Nat} {l : TileNo} {a : Nat} {s : State}
    (hm : p.msg = .setFlag r card l a) (fresh : FreshWrite r s) (no : NoWaiter a s) : performChunk p s =
      let w := s.noteWrite r a [] p
      some (({ w with tile := (w.tile.tagBy a true r.known).markOseq r } : State).inject .relief (.tile r.src.tile)
        (.chunkAck r.src card r.fetch none false r.cls)) := by
  have noted := noteWrite_onlyNoted s r a [] p
  have none : NoWaiter a { s.noteWrite r a [] p with tile := (s.noteWrite r a [] p).tile.tagBy a true r.known } := by
    intro w hw
    have hw' : w ∈ (s.noteWrite r a [] p).tile.waiters := hw
    rw [noted.waiters] at hw'
    exact no w hw'
  unfold performChunk
  simp only [hm, fresh_repeated fresh.1, fresh.2, Bool.false_eq_true, Bool.not_true, if_false, State.tagChanged,
    serveWaiters_none none]

theorem mem_insertNat (n k : Nat) (l : List Nat) : k ∈ insertNat n l ↔ k = n ∨ k ∈ l := by
  induction l with
  | nil => simp [insertNat]
  | cons m r ih =>
    rw [insertNat]
    split_ifs with e
    · subst e; simp
    · simp
    · rw [List.mem_cons, List.mem_cons, ih]
      tauto

theorem tagBy_isFull (t : Tile) (a b : Nat) (k : List AccessId) :
    (t.tagBy a true k).isFull b = if b = a then true else t.isFull b := by
  have h : (t.tagBy a true k).isFull b = (insertNat a t.full).contains b := rfl
  rw [h, Bool.eq_iff_iff, List.contains_iff_mem, mem_insertNat]
  by_cases e : b = a <;> simp [e, Tile.isFull]

/-! ### Device registers (R469) -/

/-- What a write of a device register leaves as it is. -/
structure DeviceKeeps (s u : State) : Prop where
  site : u.site = s.site
  mem : u.tile.mem = s.tile.mem
  replay : u.tile.replay = s.tile.replay
  wafer : u.wafer = { s.wafer with rim := u.wafer.rim }

theorem DeviceKeeps.refl (s : State) : DeviceKeeps s s := ⟨rfl, rfl, rfl, rfl⟩

theorem DeviceKeeps.core (s : State) (c : CoreId) (f : Core → Core) : DeviceKeeps s (s.updCore c f) :=
  ⟨by simp, by simp, by simp, by simp⟩

theorem DeviceKeeps.tile (s : State) (t : Tile) (mem : t.mem = s.tile.mem) (replay : t.replay = s.tile.replay) :
    DeviceKeeps s { s with tile := t } := ⟨rfl, mem, replay, rfl⟩

theorem DeviceKeeps.junction (s : State) (j : Site) : DeviceKeeps s { s with junction := j } := ⟨rfl, rfl, rfl, rfl⟩

theorem DeviceKeeps.rim (s : State) (r : Rim) : DeviceKeeps s { s with wafer := { s.wafer with rim := r } } :=
  ⟨rfl, rfl, rfl, rfl⟩

/-- A device register page holds no memory, and nothing behind the rim but its units. -/
theorem deviceWrite_keeps (s : State) (a : Nat) (v : Word) : DeviceKeeps s (s.deviceWrite a v) := by
  fun_cases State.deviceWrite
  case case1 | case2 => exact .core _ _ _
  case case4 | case5 | case7 | case9 | case10 | case11 => exact .tile _ _ rfl rfl
  case case8 => exact .junction _ _
  case case13 | case14 | case16 => exact .rim _ _
  all_goals exact .refl s

theorem updCore_dropPacket (s : State) (c : CoreId) (f : Core → Core) (id : Nat) :
    (s.dropPacket id).updCore c f = (s.updCore c f).dropPacket id := by
  unfold State.updCore
  have : (s.dropPacket id).coreNo = s.coreNo := rfl
  rw [this]
  split_ifs <;> rfl

/-- A write of a device register does not depend on what is in flight. -/
theorem deviceWrite_dropPacket (s : State) (a : Nat) (v : Word) (id : Nat) :
    (s.dropPacket id).deviceWrite a v = (s.deviceWrite a v).dropPacket id := by
  unfold State.deviceWrite
  generalize deviceFields a = d
  obtain ⟨cls, idx, page, o⟩ := d
  dsimp only
  split
  · split_ifs
    · exact updCore_dropPacket _ _ _ _
    · exact updCore_dropPacket _ _ _ _
    · rfl
  · split_ifs <;> rfl
  · rfl
  · rfl
  · split_ifs <;> rfl
  · split_ifs <;> rfl
  · have : (s.dropPacket id).wafer.rim = s.wafer.rim := rfl
    rw [this]
    split <;> rfl
  · rfl

/-! ### At a rim unit -/

/-- A rim unit has served an access: its records, the notices and the fault queue have changed. -/
def OnlyServes (s u : State) : Prop :=
  u = { s with wafer := { s.wafer with rim := u.wafer.rim, notices := u.wafer.notices, faults := u.wafer.faults } }

theorem OnlyServes.refl (s : State) : OnlyServes s s := rfl

theorem OnlyServes.trans {s t u : State} (h : OnlyServes s t) (k : OnlyServes t u) : OnlyServes s u := by
  unfold OnlyServes at *
  rw [k, h]

/-- What is in flight meanwhile, and that an access which is served changes no site and no memory. -/
theorem OnlyServes.keeps {s u v : State} {id : Nat} (h : OnlyServes (s.dropPacket id) v)
    (hu : u = { v with wafer := { v.wafer with net := u.wafer.net, nextId := u.wafer.nextId } }) :
    KeepsMemory s u ∧ OnlyAtRim s u := by
  rw [hu, h]
  exact ⟨⟨fun _ => rfl, fun _ => rfl, fun _ => rfl, fun _ => rfl, rfl⟩, ⟨rfl, rfl, rfl⟩, ⟨rfl, rfl, rfl⟩, rfl⟩

/-- An access that is counted (R146). -/
theorem countAccess_counts (s : State) (unit side a : Nat) (o : SiteId) (job : BitVec 6) :
    OnlyServes s (s.countAccess unit side a o job) ∧
      ∃ l, (s.countAccess unit side a o job).wafer.rim = { s.wafer.rim with hits := l } := by
  unfold State.countAccess
  dsimp only
  split_ifs
  · exact ⟨rfl, _, rfl⟩
  · exact ⟨rfl, _, rfl⟩
  · exact ⟨rfl, _, rfl⟩

theorem countFor_counts (s : State) (p : Packet) (sp : Space) (a : Nat) (job : BitVec 6) :
    OnlyServes s (s.countFor p sp a job) ∧ ∃ l, (s.countFor p sp a job).wafer.rim = { s.wafer.rim with hits := l } := by
  unfold State.countFor State.countSpace
  split
  · exact countAccess_counts _ _ _ _ _ _
  · exact countAccess_counts _ _ _ _ _ _
  · exact ⟨rfl, _, rfl⟩

theorem poisonPage_serves (job : BitVec 6) (src : CoreRef) (va : Word) (s : State) (b : BadSector) :
    OnlyServes s (State.poisonPage job src va s b) := by
  obtain ⟨n, k, e, -⟩ := controllerError_only s (b.a / 4096 % 40)
    (newError 3 false false { src := b.src, addr := BitVec.ofNat 64 (b.a / 32 * 32), synd := b.synd } s.clock)
  unfold State.poisonPage
  dsimp only
  rw [e]
  exact rfl

/-- A read that is not delivered leaves its records (R437). -/
theorem undelivered_serves {s t : State} {sp : Space} {l : List Nat} {job : BitVec 6} {src : CoreRef} {va : Word}
    (h : s.undelivered sp l job src va = some t) : OnlyServes s t := by
  have fold (bs : List BadSector) : ∀ s : State, OnlyServes s (bs.foldl (State.poisonPage job src va) s) := by
    induction bs with
    | nil => exact .refl
    | cons b r ih => exact fun s => (poisonPage_serves job src va s b).trans (ih _)
  unfold State.undelivered at h
  split_ifs at h
  rw [← Option.some.inj h]
  exact fold _ s

theorem undelivered_eq_none (s : State) (sp : Space) (l : List Nat) (job : BitVec 6) (src : CoreRef) (va : Word) :
    s.undelivered sp l job src va = none ↔ (decide (sp = .hbm) && s.wafer.rim.fails l) = false := by
  unfold State.undelivered
  split_ifs with h <;> simp [h]

/-- Whether a read is delivered does not depend on its count. -/
theorem counted_undelivered {s u : State} {l : List (Nat × Nat × Nat)} (h : u.wafer.rim = { s.wafer.rim with hits := l })
    (sp : Space) (x : List Nat) (job : BitVec 6) (src : CoreRef) (va : Word) :
    u.undelivered sp x job src va = none ↔ s.undelivered sp x job src va = none := by
  rw [undelivered_eq_none, undelivered_eq_none, h]
  exact Iff.rfl

section
variable {id : Nat} {p : Packet} {s : State} (h : TakenAtRim id p s)
include h

/-- An access that is served is answered, and changes no site and no memory. -/
theorem TakenAtRim.serves {k : Packet → State → Option State} {x : State} {l : Line} {d : Dest} {m : Msg}
    (hk : k p (s.dropPacket id) = some (x.sendAs p.rim l d m)) (hx : OnlyServes (s.dropPacket id) x) :
    ∃ u, s.take id k = .next u ∧ Sent p.site l d m s u ∧ KeepsMemory s u ∧ OnlyAtRim s u ∧ Gone id s u := by
  obtain ⟨u, run, sent, gone, only⟩ := h.answers hk (by rw [hx]) (by rw [hx]; rfl)
  obtain ⟨memory, place⟩ := hx.keeps only
  exact ⟨u, run, sent, memory, place, gone⟩

/-- A read behind the rim answers the bytes that stand there, or that it cannot be delivered (R310, R437). -/
theorem TakenAtRim.reads {r : Req} {sp : Space} {x : List Nat} {cause : Nat} {answer : State → Reply → State}
    {m : Reply → Msg} (hk : ∀ u, performLoad p u = some (readRim p r sp x cause answer u))
    (ha : ∀ u rep, answer u rep = u.sendAs p.rim .main (.tile r.src.tile) (m rep)) :
    let ends (a : Reply) : Prop := Runs (.remoteLoadRequestArrival id) s (fun u =>
      Sent p.site .main (.tile r.src.tile) (m a) s u ∧ KeepsMemory s u ∧ OnlyAtRim s u ∧ Gone id s u)
    (s.undelivered sp x r.job r.src r.va = none → ends (.data (s.wafer.cellsOf sp x) [])) ∧
    (s.undelivered sp x r.job r.src r.va ≠ none → ends (.fault cause)) := by
  obtain ⟨serves, hits, rim⟩ := countFor_counts (s.dropPacket id) p sp (x.headD 0) r.job
  have same := counted_undelivered (s := s) rim sp x r.job r.src r.va
  have read := hk (s.dropPacket id)
  unfold readRim at read
  dsimp only at read
  have cells : ((s.dropPacket id).countFor p sp (x.headD 0) r.job).wafer.cellsOf sp x = s.wafer.cellsOf sp x := by
    rw [show (s.dropPacket id).countFor p sp (x.headD 0) r.job = _ from serves]
    rfl
  generalize (s.dropPacket id).countFor p sp (x.headD 0) r.job = v at *
  refine ⟨fun none => ?_, fun some => ?_⟩
  · rw [same.mpr none] at read
    exact h.serves (by rw [read, ha, cells]) serves
  · obtain ⟨t, ht⟩ := Option.ne_none_iff_exists'.mp (fun none => some (same.mp none))
    rw [ht] at read
    exact h.serves (read.trans (congrArg Option.some (ha t _))) (serves.trans (undelivered_serves ht))

/-- A line behind the rim is read whole (R163, R437). -/
theorem TakenAtRim.line {r : Req} {sp : Space} {base : Nat} (hm : p.msg = .line r sp base) :
    (s.undelivered sp (span base 256) r.job r.src r.va = none → Runs (.remoteLoadRequestArrival id) s (fun u =>
      Sent p.site .main (.tile r.src.tile)
        (.fill r.src r.fetch sp base (bytesLine (s.wafer.bytesAt sp base 256))) s u ∧
      KeepsMemory s u ∧ OnlyAtRim s u ∧ Gone id s u)) ∧
    (s.undelivered sp (span base 256) r.job r.src r.va ≠ none → Runs (.remoteLoadRequestArrival id) s (fun u =>
      Sent p.site .main (.tile r.src.tile) (.reply r.src r.fetch (.fault 4) .reply) s u ∧
      KeepsMemory s u ∧ OnlyAtRim s u ∧ Gone id s u)) := by
  obtain ⟨serves, hits, rim⟩ := countFor_counts (s.dropPacket id) p sp base r.job
  have same := counted_undelivered (s := s) rim sp (span base 256) r.job r.src r.va
  have read : performLoad p (s.dropPacket id) = performLoad p (s.dropPacket id) := rfl
  conv_rhs at read => unfold performLoad
  simp only [hm] at read
  have bytes : ((s.dropPacket id).countFor p sp base r.job).wafer.bytesAt sp base 256 = s.wafer.bytesAt sp base 256 := by
    rw [show (s.dropPacket id).countFor p sp base r.job = _ from serves]
    rfl
  generalize (s.dropPacket id).countFor p sp base r.job = v at *
  refine ⟨fun none => ?_, fun some => ?_⟩
  · rw [same.mpr none] at read
    exact h.serves (by rw [read, bytes]) serves
  · obtain ⟨t, ht⟩ := Option.ne_none_iff_exists'.mp (fun none => some (same.mp none))
    rw [ht] at read
    exact h.serves read (serves.trans (undelivered_serves ht))

end

/-- What a write behind the rim leaves: the other memories, the units, and what is in flight. -/
structure PutsBehind (sp : Space) (cells : List Host.Cell) (s u : State) : Prop where
  stores : StoresBehind sp cells s u
  place : OnlyAtRim s u
  net : u.wafer.net = s.wafer.net ∧ u.wafer.nextId = s.wafer.nextId
  marks : u.wafer.rim.marks = s.wafer.rim.marks

theorem rimWrite_puts {sp : Space} (hc : sp.cached = true) (s : State) (p : Packet) (job : BitVec 6)
    (cells : List Host.Cell) : PutsBehind sp cells s (s.rimWrite p sp job cells) := by
  obtain ⟨serves, l, rim⟩ := countFor_counts s p sp (firstCell cells) job
  have marks : (s.countFor p sp (firstCell cells) job).wafer.rim.marks = s.wafer.rim.marks := by rw [rim]
  unfold State.rimWrite
  dsimp only
  generalize s.countFor p sp (firstCell cells) job = v at *
  have e : v = _ := serves
  cases sp with
  | hbm =>
    refine ⟨⟨?_, by rw [e]; rfl, by rw [e]; rfl⟩, ⟨by rw [e]; exact ⟨rfl, rfl, rfl⟩, by rw [e]; exact ⟨rfl, rfl, rfl⟩,
      by rw [e]; rfl⟩, ⟨by rw [e]; rfl, by rw [e]; rfl⟩, marks⟩
    rw [e]; exact writeCells_holds _ _
  | host q =>
    refine ⟨⟨?_, by rw [e]; rfl, by rw [e]; rfl⟩, ⟨by rw [e]; exact ⟨rfl, rfl, rfl⟩, by rw [e]; exact ⟨rfl, rfl, rfl⟩,
      by rw [e]; rfl⟩, ⟨by rw [e]; rfl, by rw [e]; rfl⟩, marks⟩
    rw [e]; exact writeCells_holds _ _
  | peer q =>
    refine ⟨⟨?_, by rw [e]; rfl, by rw [e]; rfl⟩, ⟨by rw [e]; exact ⟨rfl, rfl, rfl⟩, by rw [e]; exact ⟨rfl, rfl, rfl⟩,
      by rw [e]; rfl⟩, ⟨by rw [e]; rfl, by rw [e]; rfl⟩, marks⟩
    rw [e]; exact writeCells_holds _ _
  | spad _ => cases hc
  | window _ => cases hc
  | device => cases hc

/-- A new posted write at a rim unit is performed, and at a controller its mark has taken it in (R427). -/
theorem rimOnce_fresh {p : Packet} {r : Req} {s : State} (fresh : FreshAtRim p r s) (again k : State → State) :
    ∃ b, s.rimOnce p r again k = some (k b) ∧ MarkedAtRim p r b ∧
      b = { s with wafer := { s.wafer with rim := { s.wafer.rim with marks := b.wafer.rim.marks } } } := by
  unfold State.rimOnce
  split
  next c hc =>
    obtain ⟨new, room⟩ := fresh c hc
    refine ⟨s.setRimMarks c (putMark (s.rimMarks c) r.src (fun m => m.takeOseq r)), ?_, ?_, rfl⟩
    · simp only [fresh_repeated new, room, Bool.false_eq_true, Bool.not_true, if_false]
    · intro d hd
      cases hc.symm.trans hd
      have marks : (s.setRimMarks c (putMark (s.rimMarks c) r.src (fun m => m.takeOseq r))).rimMarks c =
          putMark (s.rimMarks c) r.src (fun m => m.takeOseq r) := by
        simp [State.rimMarks, State.setRimMarks]
      rw [marks]
      exact putMark_covers _ r
  next other => exact ⟨s, rfl, fun c hc => absurd hc (other c), rfl⟩

/-- A posted write behind the rim is performed, marked and acknowledged (R152, R165, R427). -/
theorem TakenAtRim.writes {id : Nat} {p : Packet} {s : State} (h : TakenAtRim id p s) {r : Req} {sp : Space}
    {cells : List Host.Cell} {m : Msg} {k : Packet → State → Option State} (hc : sp.cached = true)
    (fresh : FreshAtRim p r s) (hk : k p (s.dropPacket id) =
      (s.dropPacket id).rimOnce p r (fun u => u.sendAs p.rim .relief (.tile r.src.tile) m)
        (fun u => (u.rimWrite p sp r.job cells).sendAs p.rim .relief (.tile r.src.tile) m)) :
    ∃ u, s.take id k = .next u ∧ StoresBehind sp cells s u ∧ MarkedAtRim p r u ∧
      Sent p.site .relief (.tile r.src.tile) m s u ∧ OnlyAtRim s u ∧ Gone id s u := by
  obtain ⟨b, once, covered, only⟩ := rimOnce_fresh (s := s.dropPacket id) fresh
    (fun u => u.sendAs p.rim .relief (.tile r.src.tile) m)
    (fun u => (u.rimWrite p sp r.job cells).sendAs p.rim .relief (.tile r.src.tile) m)
  obtain ⟨stores, place, ⟨net, ids⟩, marks⟩ := rimWrite_puts hc b p r.job cells
  obtain ⟨u, run, sent, gone, after⟩ := h.answers (hk.trans once) (by rw [net, only]) (by rw [ids, only]; rfl)
  generalize b.rimWrite p sp r.job cells = w at *
  have memory : b.wafer.hbm = s.wafer.hbm ∧ b.wafer.host = s.wafer.host ∧ b.wafer.peer = s.wafer.peer := by
    rw [only]
    exact ⟨rfl, rfl, rfl⟩
  obtain ⟨hbm, host, peer⟩ := memory
  refine ⟨u, run, ?_, fun c hd => ?_, sent, ?_, gone⟩
  · rw [after]
    unfold StoresBehind at stores ⊢
    dsimp only at stores
    rw [hbm, host, peer] at stores
    exact stores
  · have same : u.rimMarks c = b.rimMarks c := by
      have e : u.wafer.rim.marks = b.wafer.rim.marks := by rw [after]; exact marks
      unfold State.rimMarks
      rw [e]
    rw [same]
    exact covered c hd
  · obtain ⟨cores, site, sites⟩ := place
    rw [only] at cores site sites
    rw [after]
    exact ⟨cores, site, sites⟩

end Sys2Proof.Machine
end

