-- ==== Sys2Proof/Proofs/PacketsArrive.lean ====
section
/-!
SUPPORT. The parts of O40, and their assembly: packets at junctions, at a tile, and at a rim unit.
-/
namespace Sys2Proof.Machine

set_option Elab.async false

/-! ### Junctions -/

section
variable {id : Nat} {p : Packet} {s : State}

theorem heldBack_stays (packet : s.packet id = some p) (held : s.heldBack p = true) :
    Runs (.junctionPacketArrival id) s (· = s) := by
  have run : exec (.junctionPacketArrival id) s = execJunctionPacketArrival id s := rfl
  refine ⟨s, ?_, rfl⟩
  rw [run, execJunctionPacketArrival]
  simp [packet, held]

/-- A packet that its send log has no room for waits, and its sender asks for room (R428, R430). -/
theorem logWaits_stays (packet : s.packet id = some p) (arrived : p.arrived = none) (held : s.heldBack p = false)
    (gate : p.gate ≤ (s.tileAt p.origin).confirmed) (log : s.logWaits p = true) :
    Runs (.junctionPacketArrival id) s (fun u => u.packet id = some p) := by
  have run : exec (.junctionPacketArrival id) s = execJunctionPacketArrival id s := rfl
  refine ⟨s.askClose p, ?_, askClose_packet packet⟩
  rw [run, execJunctionPacketArrival]
  simp [packet, arrived, held, gate, log]

/-- A packet goes to the site that carries its logical tile, and arrives there (R16, R24, R433). -/
theorem MayGo.tiles (h : MayGo id p s) {l : TileNo} (hd : p.dest = .tile l) :
    let comes : Prop := Runs (.junctionPacketArrival id) s (fun u =>
      u.packet id = some { p with arrived := some s.wafer.arrivals } ∧
      u = { s with wafer := { s.wafer with net := u.wafer.net, arrivals := s.wafer.arrivals + 1 } })
    let moves (x : SiteId) : Prop := Runs (.junctionPacketArrival id) s (fun u =>
      u.packet id = some { p with site := x } ∧ u = { s with wafer := { s.wafer with net := u.wafer.net } })
    let stays : Prop := Runs (.junctionPacketArrival id) s (· = s)
    (findPoint (s.junctionAt p.site).points l.toNat = none → stays) ∧
    (∀ x, findPoint (s.junctionAt p.site).points l.toNat = some x → x ≠ p.site → moves x) ∧
    (findPoint (s.junctionAt p.site).points l.toNat = some p.site →
      ((s.junctionAt p.site).passThrough = true ∨ s.overtakes p = true → stays) ∧
      ((s.junctionAt p.site).passThrough = false → s.overtakes p = false → comes)) := by
  intro comes moves stays
  have run := h.toTile hd
  refine ⟨fun absent => ?_, fun x there other => ?_, fun here => ⟨fun waits => ?_, fun through first => ?_⟩⟩
  · rw [absent] at run
    exact ⟨s, run, rfl⟩
  · rw [there, Option.elim_some, if_neg other] at run
    exact ⟨_, run, setSite_moves h.packet x⟩
  · rw [here, Option.elim_some, if_pos rfl, if_pos (by simpa using waits)] at run
    exact ⟨s, run, rfl⟩
  · rw [here, Option.elim_some, if_pos rfl, if_neg (by simp [through, first])] at run
    exact ⟨_, run, arrive_arrives h.packet⟩

/-- A packet comes in order: one that overtakes none before it (R24). -/
theorem comeOrWait_comes (packet : s.packet id = some p)
    (run : exec (.junctionPacketArrival id) s = .next (s.comeOrWait id p)) :
    (s.overtakes p = true → Runs (.junctionPacketArrival id) s (· = s)) ∧
    (s.overtakes p = false → Runs (.junctionPacketArrival id) s (fun u =>
      u.packet id = some { p with arrived := some s.wafer.arrivals } ∧
      u = { s with wafer := { s.wafer with net := u.wafer.net, arrivals := s.wafer.arrivals + 1 } })) := by
  rw [State.comeOrWait] at run
  refine ⟨fun after => ?_, fun first => ?_⟩
  · rw [if_pos after] at run
    exact ⟨s, run, rfl⟩
  · rw [if_neg (by simp [first])] at run
    exact ⟨_, run, arrive_arrives packet⟩

/-- A packet for the rim goes to the junction of its unit, and arrives there (R26). -/
theorem MayGo.rims (h : MayGo id p s) (hd : p.dest.rim = true) :
    let comes : Prop := Runs (.junctionPacketArrival id) s (fun u =>
      u.packet id = some { p with arrived := some s.wafer.arrivals } ∧
      u = { s with wafer := { s.wafer with net := u.wafer.net, arrivals := s.wafer.arrivals + 1 } })
    let moves (x : SiteId) : Prop := Runs (.junctionPacketArrival id) s (fun u =>
      u.packet id = some { p with site := x } ∧ u = { s with wafer := { s.wafer with net := u.wafer.net } })
    let stays : Prop := Runs (.junctionPacketArrival id) s (· = s)
    (s.resolve p.dest = none → stays) ∧ (∀ x, s.resolve p.dest = some x → x ≠ p.site → moves x) ∧
    (s.resolve p.dest = some p.site → (s.overtakes p = true → stays) ∧ (s.overtakes p = false → comes)) := by
  intro comes moves stays
  have run := h.toRim hd
  refine ⟨fun absent => ?_, fun x there other => ?_, fun here => ?_⟩
  · rw [absent] at run
    exact ⟨s, run, rfl⟩
  · rw [there, Option.elim_some, if_neg other] at run
    exact ⟨_, run, setSite_moves h.packet x⟩
  · rw [here, Option.elim_some, if_pos rfl] at run
    exact comeOrWait_comes h.packet run

end

/-! ### Device registers -/

theorem DeviceKeeps.net {s u : State} (h : DeviceKeeps s u) (id : Nat) :
    (u.dropPacket id).wafer.net = (s.dropPacket id).wafer.net := by
  have net : u.wafer.net = s.wafer.net := by rw [h.wafer]
  unfold State.dropPacket
  rw [net]

theorem DeviceKeeps.nextId {s u : State} (h : DeviceKeeps s u) : u.wafer.nextId = s.wafer.nextId := by rw [h.wafer]

theorem DeviceKeeps.keepsMemory {s u : State} (h : DeviceKeeps s u) : KeepsMemory s u := by
  have wafer := h.wafer
  exact ⟨fun _ => by rw [h.mem], fun _ => by rw [wafer], fun _ => by rw [wafer], fun _ => by rw [wafer], by rw [wafer]⟩

/-! ### At a tile -/

section
variable {id : Nat} {p : Packet} {s t : State} (h : Taken id p s t)
include h

/-- A flag is set, its tag marked, and it is acknowledged (R308). -/
theorem Taken.flag {r : Req} {card : Nat} {l : TileNo} {a : Nat} (hm : p.msg = .setFlag r card l a)
    (fresh : FreshWrite r t) (no : NoWaiter a t) : Runs (.copyChunkArrival id) s (fun u =>
      SetsTag a true t u ∧ Marked r u ∧
      Sent t.site .relief (.tile r.src.tile) (.chunkAck r.src card r.fetch none false r.cls) t u ∧
      KeepsMemory t u ∧ OnlyArrival t u ∧ Gone id t u) := by
  have noted := noteWrite_onlyNoted (t.dropPacket id) r a [] p
  have performed := performChunk_flag (s := t.dropPacket id) hm fresh no
  dsimp only at performed
  generalize (t.dropPacket id).noteWrite r a [] p = w at *
  have tagged : EntersHere w { w with tile := (w.tile.tagBy a true r.known).markOseq r } := .of_tile rfl
  obtain ⟨u, run, sent, only, gone, tile⟩ :=
    h.enters (by simp [hm, Msg.passesReplay]) performed (noted.enters.trans tagged) rfl
  refine ⟨u, run, fun b => ?_, ?_, sent, only.keepsMemory (by rw [tile]; exact noted.mem), only, gone⟩
  · have full : u.tile.isFull b = (w.tile.tagBy a true r.known).isFull b := by rw [tile]; rfl
    have before : w.tile.isFull b = t.tile.isFull b := congrArg (·.contains b) noted.full
    rw [full, tagBy_isFull, before]
  · rw [Marked, tile]
    exact putMark_covers _ r

/-- A chunk is written, checked and acknowledged, or has raced (R175, R299, R303). -/
theorem Taken.chunk {r : Req} {l : TileNo} {c : Chunk} (hm : p.msg = .chunk r (.spad l) c) (fresh : FreshWrite r t) :
    let ends := if crc32c 0 c.bytes = c.check then none else some (c.check, crc32c 0 c.bytes)
    let cells := partCells c.bytes c.parts
    (t.requestRaces r (cellLines cells) = false → Runs (.copyChunkArrival id) s (fun u => StoresCells cells t u ∧
      Marked r u ∧ Sent t.site .relief (.tile r.src.tile) (.chunkAck r.src c.card r.fetch ends false r.cls) t u ∧
      u.tile.full = t.tile.full ∧ OnlyArrival t u ∧ Gone id t u)) ∧
    (t.requestRaces r (cellLines cells) = true → Runs (.copyChunkArrival id) s (fun u =>
      Sent t.site .relief (.tile r.src.tile) (.chunkAck r.src c.card r.fetch none true r.cls) t u ∧
      KeepsMemory t u ∧ OnlyArrival t u ∧ Gone id t u)) := by
  intro ends cells
  have performed := performChunk_tile (s := t.dropPacket id) hm h.rim fresh
  have plain : p.msg.passesReplay = false := by simp [hm, Msg.passesReplay]
  have races : (t.dropPacket id).requestRaces r (cellLines cells) = t.requestRaces r (cellLines cells) := rfl
  dsimp only at performed
  refine ⟨fun no => ?_, fun yes => ?_⟩
  · rw [if_neg (by rw [races, no]; simp)] at performed
    exact h.writes plain rfl performed
  · rw [if_pos (races.trans yes)] at performed
    obtain ⟨u, run, sent, -, read⟩ := h.refuses (r := r) plain rfl performed
    exact ⟨u, run, sent, read⟩

/-- A row of a job is written and acknowledged, or has raced (R175, R266). -/
theorem Taken.row {r : Req} {card : Nat} {l : TileNo} {cells : List Host.Cell}
    (hm : p.msg = .rowStore r card (.spad l) cells) (fresh : FreshWrite r t) :
    (t.requestRaces r (cellLines cells) = false → Runs (.remoteStoreArrival id) s (fun u => StoresCells cells t u ∧
      Marked r u ∧ Sent t.site .relief (.tile r.src.tile) (.rowAck r.src card r.fetch r.cls false) t u ∧
      OnlyArrival t u ∧ Gone id t u)) ∧
    (t.requestRaces r (cellLines cells) = true → Runs (.remoteStoreArrival id) s (fun u =>
      Sent t.site .relief (.tile r.src.tile) (.rowAck r.src card r.fetch r.cls true) t u ∧
      KeepsMemory t u ∧ OnlyArrival t u ∧ Gone id t u)) := by
  have performed := performWrite_row (s := t.dropPacket id) hm fresh
  have plain : p.msg.passesReplay = false := by simp [hm, Msg.passesReplay]
  have races : (t.dropPacket id).requestRaces r (cellLines cells) = t.requestRaces r (cellLines cells) := rfl
  dsimp only at performed
  refine ⟨fun no => ?_, fun yes => ?_⟩
  · rw [if_neg (by rw [races, no]; simp)] at performed
    obtain ⟨u, run, stores, marked, sent, -, rest⟩ := h.writes (r := r) plain rfl performed
    exact ⟨u, run, stores, marked, sent, rest⟩
  · rw [if_pos (races.trans yes)] at performed
    obtain ⟨u, run, sent, -, read⟩ := h.refuses (r := r) plain rfl performed
    exact ⟨u, run, sent, read⟩

/-- A device register is read (R469). -/
theorem Taken.deviceRead {r : Req} {a : Nat} (hm : p.msg = .device r a none) :
    Runs (.remoteLoadRequestArrival id) s (fun u =>
      Sent t.site .main (.tile r.src.tile)
        (.reply r.src r.fetch (.data (natBytes (t.deviceRead a).toNat 8) []) .reply) t u ∧
      u.tile = t.tile ∧ u.junction = t.junction ∧ KeepsMemory t u ∧ OnlyArrival t u ∧ Gone id t u) := by
  have performed : performLoad p (t.dropPacket id) = some ((t.dropPacket id).inject .main (.tile r.src.tile)
      (.reply r.src r.fetch (.data (natBytes (t.deviceRead a).toNat 8) []) .reply)) := by
    unfold performLoad
    simp only [hm, h.rim, State.replyTo, State.sendAs]
    rfl
  obtain ⟨u, run, sent, tile, memory, only, gone⟩ :=
    h.refuses (r := r) (by simp [hm, Msg.passesReplay]) rfl performed
  obtain ⟨-, -, junction⟩ := only.place
  exact ⟨u, run, sent, tile, junction, memory, only, gone⟩

/-- A device register is written (R469). -/
theorem Taken.deviceWrite {r : Req} {a : Nat} {v : Word} (hm : p.msg = .device r a (some v)) :
    Runs (.remoteStoreArrival id) s (fun u =>
      Sent t.site .relief (.tile r.src.tile) (.reply r.src r.fetch (.data [] []) .reply) t u ∧
      u.tile = (t.deviceWrite a v).tile ∧ u.junction = (t.deviceWrite a v).junction ∧
      (∀ c, u.coreAt c = (t.deviceWrite a v).coreAt c) ∧ KeepsMemory t u ∧ Gone id t u) := by
  have performed : performWrite p (t.dropPacket id) = some (((t.deviceWrite a v).dropPacket id).inject .relief
      (.tile r.src.tile) (.reply r.src r.fetch (.data [] []) .reply)) := by
    rw [← deviceWrite_dropPacket]
    unfold performWrite
    simp only [hm, h.rim, State.replyTo, State.sendAs]
  have keeps := deviceWrite_keeps t a v
  generalize t.deviceWrite a v = w at *
  have flies : Flies (t.dropPacket id) (w.dropPacket id) := .of_net keeps.site (keeps.net id) keeps.nextId
  obtain ⟨u, run, sent, gone, -, only⟩ := h.answers performed flies
    (show w.tile.replay = none from keeps.replay.trans (h.replay (by simp [hm, Msg.passesReplay]))) rfl
  refine ⟨u, run, sent, ?_, ?_, ?_, ?_, gone⟩
  · rw [only]; rfl
  · rw [only]; rfl
  · intro c; rw [only]; rfl
  · rw [only]
    obtain ⟨spad, hbm, host, peer, sites⟩ := keeps.keepsMemory
    exact ⟨spad, hbm, host, peer, sites⟩

end

/-! ### At a rim unit -/

section
variable {id : Nat} {p : Packet} {s : State} (h : TakenAtRim id p s)
include h

theorem TakenAtRim.deviceRead {r : Req} {a : Nat} (hm : p.msg = .device r a none) :
    Runs (.remoteLoadRequestArrival id) s (fun u =>
      Sent p.site .main (.tile r.src.tile)
        (.reply r.src r.fetch (.data (natBytes (s.deviceRead a).toNat 8) []) .reply) s u ∧
      KeepsMemory s u ∧ OnlyAtRim s u ∧ Gone id s u) := by
  have performed : performLoad p (s.dropPacket id) = some ((s.dropPacket id).sendAs p.rim .main (.tile r.src.tile)
      (.reply r.src r.fetch (.data (natBytes (s.deviceRead a).toNat 8) []) .reply)) := by
    unfold performLoad
    simp only [hm, State.replyTo]
    rfl
  exact h.serves performed (.refl _)

theorem TakenAtRim.deviceWrite {r : Req} {a : Nat} {v : Word} (hm : p.msg = .device r a (some v)) :
    Runs (.remoteStoreArrival id) s (fun u =>
      Sent p.site .relief (.tile r.src.tile) (.reply r.src r.fetch (.data [] []) .reply) s u ∧
      u.wafer.rim = (s.deviceWrite a v).wafer.rim ∧ KeepsMemory s u ∧ Gone id s u) := by
  have performed : performWrite p (s.dropPacket id) = some (((s.deviceWrite a v).dropPacket id).sendAs p.rim .relief
      (.tile r.src.tile) (.reply r.src r.fetch (.data [] []) .reply)) := by
    rw [← deviceWrite_dropPacket]
    unfold performWrite
    simp only [hm, State.replyTo]
  have keeps := deviceWrite_keeps s a v
  generalize s.deviceWrite a v = w at *
  obtain ⟨u, run, sent, gone, only⟩ := h.answers performed (keeps.net id) keeps.nextId
  refine ⟨u, run, sent, by rw [only]; rfl, ?_, gone⟩
  rw [only]
  obtain ⟨spad, hbm, host, peer, sites⟩ := keeps.keepsMemory
  exact ⟨spad, hbm, host, peer, sites⟩

end

/-- The memories behind the rim (R165). -/
theorem cached_spaces {sp : Space} (h : sp.cached = true) : sp = .hbm ∨ (∃ q, sp = .host q) ∨ ∃ x, sp = .peer x := by
  cases sp with
  | hbm => exact .inl rfl
  | host q => exact .inr (.inl ⟨q, rfl⟩)
  | peer x => exact .inr (.inr ⟨x, rfl⟩)
  | spad _ => cases h
  | window _ => cases h
  | device => cases h

section
variable {p : Packet} {r : Req} {sp : Space} (hc : sp.cached = true)
include hc

/-- The three reads of listed bytes, at a rim unit (R148, R266, R299). -/
theorem performLoad_load {x : List Nat} (hm : p.msg = .load r sp x) (u : State) : performLoad p u =
    some (readRim p r sp x 4 (fun s a => s.sendAs p.rim .main (.tile r.src.tile) (.reply r.src r.fetch a .reply)) u) := by
  unfold performLoad
  rw [hm]
  obtain rfl | ⟨q, rfl⟩ | ⟨q, rfl⟩ := cached_spaces hc <;> rfl

theorem performLoad_rowLoad {card : Nat} {x : List Nat} (hm : p.msg = .rowLoad r card sp x) (u : State) :
    performLoad p u = some (readRim p r sp x 4 (fun s a =>
      s.sendAs p.rim .main (.tile r.src.tile) (.rowReply r.src card r.fetch a)) u) := by
  unfold performLoad
  rw [hm]
  obtain rfl | ⟨q, rfl⟩ | ⟨q, rfl⟩ := cached_spaces hc <;> rfl

theorem performLoad_chunkRead {card base n : Nat} (hm : p.msg = .chunkRead r card sp base n) (u : State) :
    performLoad p u = some (readRim p r sp (span base n) 14 (fun s a =>
      s.sendAs p.rim .main (.tile r.src.tile) (.chunkData r.src card r.fetch a)) u) := by
  unfold performLoad
  rw [hm]
  obtain rfl | ⟨q, rfl⟩ | ⟨q, rfl⟩ := cached_spaces hc <;> rfl

/-- The three posted writes, at a rim unit (R149, R269, R299). -/
theorem performWrite_storeRim {cells : List Host.Cell} (hm : p.msg = .store r sp cells) (u : State) :
    performWrite p u =
      let ack (s : State) : State := s.sendAs p.rim .relief (.tile r.src.tile) (.ack r.src r.cls none false r.line)
      u.rimOnce p r ack (fun s => ack (s.rimWrite p sp r.job cells)) := by
  unfold performWrite
  rw [hm]
  obtain rfl | ⟨q, rfl⟩ | ⟨q, rfl⟩ := cached_spaces hc <;> rfl

theorem performWrite_rowRim {card : Nat} {cells : List Host.Cell} (hm : p.msg = .rowStore r card sp cells) (u : State) :
    performWrite p u =
      let ack (s : State) : State := s.sendAs p.rim .relief (.tile r.src.tile) (.rowAck r.src card r.fetch r.cls false)
      u.rimOnce p r ack (fun s => ack (s.rimWrite p sp r.job cells)) := by
  unfold performWrite
  rw [hm]
  obtain rfl | ⟨q, rfl⟩ | ⟨q, rfl⟩ := cached_spaces hc <;> rfl

theorem performChunk_rim {c : Chunk} (hm : p.msg = .chunk r sp c) (u : State) : performChunk p u =
      let ack (s : State) : State := s.sendAs p.rim .relief (.tile r.src.tile) (.chunkAck r.src c.card r.fetch
        (if crc32c 0 c.bytes = c.check then none else some (c.check, crc32c 0 c.bytes)) false r.cls)
      u.rimOnce p r ack (fun s => ack (s.rimWrite p sp r.job (partCells c.bytes c.parts))) := by
  unfold performChunk
  rw [hm]
  obtain rfl | ⟨q, rfl⟩ | ⟨q, rfl⟩ := cached_spaces hc <;> rfl

end

section
variable {p : Packet} {r : Req} {l : TileNo}

/-- The three reads of listed bytes, at a tile (R148, R266, R299). -/
theorem performLoad_loadTile (hr : p.rim = none) {x : List Nat} (hm : p.msg = .load r (.spad l) x) (u : State) :
    performLoad p u =
      some (readHere r x (fun s a => s.inject .main (.tile r.src.tile) (.reply r.src r.fetch a .reply)) u) := by
  unfold performLoad
  rw [hm, hr]
  rfl

theorem performLoad_rowLoadTile (hr : p.rim = none) {card : Nat} {x : List Nat}
    (hm : p.msg = .rowLoad r card (.spad l) x) (u : State) : performLoad p u =
      some (readHere r x (fun s a => s.inject .main (.tile r.src.tile) (.rowReply r.src card r.fetch a)) u) := by
  unfold performLoad
  rw [hm, hr]
  rfl

theorem performLoad_chunkReadTile (hr : p.rim = none) {card base n : Nat}
    (hm : p.msg = .chunkRead r card (.spad l) base n) (u : State) : performLoad p u =
      some (readHere r (span base n) (fun s a =>
        s.inject .main (.tile r.src.tile) (.chunkData r.src card r.fetch a)) u) := by
  unfold performLoad
  rw [hm, hr]
  rfl

end

end Sys2Proof.Machine

open Sys2Proof Sys2Proof.Machine in
/-- Settles O40: a junction passes a packet on, or marks its arrival; what a tile or a rim unit takes is performed on the
state without the packet, and its answer is sent last. -/
theorem packetsArrive : Obligations.PacketsArrive := by
  unfold Obligations.PacketsArrive
  refine ⟨fun id p s packet arrived => ⟨heldBack_stays packet, fun held gate =>
    ⟨logWaits_stays packet arrived held gate, fun log => ?_⟩⟩, fun id p s t h => ?_, fun id p s h => ?_⟩
  · have go : MayGo id p s := ⟨packet, arrived, held, gate, log⟩
    exact ⟨fun l hd => go.tiles hd, fun x hd => comeOrWait_comes packet (go.toSite hd), go.rims⟩
  · have passes {m : Msg} (hm : p.msg = m) (hp : m.passesReplay = false) : p.msg.passesReplay = false := by rw [hm, hp]
    exact ⟨fun r l x hm => h.reads (passes hm rfl) (performLoad_loadTile h.rim hm) (fun _ _ => rfl) (fun _ => rfl),
      fun r card l x hm =>
        h.reads (passes hm rfl) (performLoad_rowLoadTile h.rim hm) (fun _ _ => rfl) (fun _ => rfl),
      fun r card l base n hm =>
        h.reads (passes hm rfl) (performLoad_chunkReadTile h.rim hm) (fun _ _ => rfl) (fun _ => rfl),
      fun r l c hm fresh => h.chunk hm fresh, fun r card l a hm fresh no => h.flag hm fresh no,
      fun r card l cells hm fresh => h.row hm fresh, fun r a hm => h.deviceRead hm, fun r a v hm => h.deviceWrite hm⟩
  · exact ⟨fun r sp x hm hc => h.reads (performLoad_load hc hm) (fun _ _ => rfl), fun r sp base hm => h.line hm,
      fun r card sp x hm hc => h.reads (performLoad_rowLoad hc hm) (fun _ _ => rfl),
      fun r card sp base n hm hc => h.reads (performLoad_chunkRead hc hm) (fun _ _ => rfl),
      fun r sp cells hm hc fresh => h.writes hc fresh (performWrite_storeRim hc hm _),
      fun r card sp cells hm hc fresh => h.writes hc fresh (performWrite_rowRim hc hm _),
      fun r sp c hm hc fresh => h.writes hc fresh (performChunk_rim hc hm _),
      fun r a hm => h.deviceRead hm, fun r a v hm => h.deviceWrite hm⟩
end

