-- ==== Sys2Proof/Proofs/VectorRegisters.lean ====
section
/-!
SUPPORT. Vector registers as numbers: the elements of packed lanes and of a register with one lane rewritten, the flags of
a list of results, and what an instruction that writes one vector register changes.
-/
namespace Sys2Proof.Machine

variable {s t : State} {T : Tag} {d : BitVec 5} {w i j : ℕ}

/-! ### Lanes of a number (R43) -/

/-- Lane i of w bits. -/
def laneOfNat (w i x : ℕ) : ℕ := x / 2 ^ (w * i) % 2 ^ w

theorem laneOfNat_lt (w i x : ℕ) : laneOfNat w i x < 2 ^ w := Nat.mod_lt _ (Nat.two_pow_pos w)

theorem testBit_laneOfNat (w i x k : ℕ) : (laneOfNat w i x).testBit k = (decide (k < w) && x.testBit (w * i + k)) := by
  rw [laneOfNat, Nat.testBit_mod_two_pow, Nat.testBit_div_two_pow, Nat.add_comm]

/-- The lanes that lie in the low bits of a number are the lanes of its low bits. -/
theorem laneOfNat_mod {n : ℕ} (x : ℕ) (h : w * (i + 1) ≤ n) : laneOfNat w i (x % 2 ^ n) = laneOfNat w i x := by
  apply Nat.eq_of_testBit_eq
  intro k
  rw [Nat.mul_add_one] at h
  simp only [testBit_laneOfNat, Nat.testBit_mod_two_pow]
  by_cases hk : k < w
  · simp [hk, show w * i + k < n by omega]
  · simp [hk]

theorem laneOfNat_ofNat {n : ℕ} (x : ℕ) (h : w * (i + 1) ≤ n) :
    laneOfNat w i (BitVec.ofNat n x).toNat = laneOfNat w i x := by
  rw [BitVec.toNat_ofNat, laneOfNat_mod x h]

/-- A lane inside a wider one. -/
theorem laneOfNat_laneOfNat {n : ℕ} (x : ℕ) (h : i < n) :
    laneOfNat w i (laneOfNat (w * n) j x) = laneOfNat w (n * j + i) x := by
  have hin : w * i + w ≤ w * n := by
    calc w * i + w = w * (i + 1) := by ring
      _ ≤ w * n := Nat.mul_le_mul_left w h
  apply Nat.eq_of_testBit_eq
  intro k
  simp only [testBit_laneOfNat]
  by_cases hk : k < w
  · have e : w * n * j + (w * i + k) = w * (n * j + i) + k := by ring
    simp [hk, show w * i + k < w * n by omega, e]
  · simp [hk]

theorem packLanes_lane (w : ℕ) (l : List ℕ) (i : ℕ) : laneOfNat w i (packLanes w l) = l.getD i 0 % 2 ^ w := by
  induction l generalizing i with
  | nil => simp [packLanes, laneOfNat]
  | cons x r ih =>
    have hx := Nat.mod_lt x (Nat.two_pow_pos w)
    cases i with
    | zero => simp [packLanes, laneOfNat]
    | succ i =>
      have hdiv : packLanes w (x :: r) / 2 ^ w = packLanes w r := by
        rw [packLanes, Nat.add_mul_div_left _ _ (Nat.two_pow_pos w), Nat.div_eq_of_lt hx, Nat.zero_add]
      calc laneOfNat w (i + 1) (packLanes w (x :: r))
          = laneOfNat w i (packLanes w (x :: r) / 2 ^ w) := by
            rw [laneOfNat, laneOfNat, Nat.div_div_eq_div_mul, ← Nat.pow_add]; ring_nf
        _ = (x :: r).getD (i + 1) 0 % 2 ^ w := by rw [hdiv, ih]; rfl

theorem packLanes_range_lane {n : ℕ} (w : ℕ) (g : ℕ → ℕ) (h : i < n) :
    laneOfNat w i (packLanes w ((List.range n).map g)) = g i % 2 ^ w := by
  rw [packLanes_lane, List.getD_eq_getElem?_getD]
  simp [h]

/-- Rewriting a lane keeps the bits below and above it. -/
theorem testBit_setLane (w i x v k : ℕ) : (setLane w i x v).testBit k =
    if k < w * i then x.testBit k else if k < w * i + w then v.testBit (k - w * i) else x.testBit k := by
  have hw := Nat.two_pow_pos w
  have hlow : x % 2 ^ (w * i) < 2 ^ (w * i) := Nat.mod_lt _ (Nat.two_pow_pos _)
  have hx : x = 2 ^ (w * i) * (x / 2 ^ (w * i)) + x % 2 ^ (w * i) := (Nat.div_add_mod _ _).symm
  have hmid : x / 2 ^ (w * i) = 2 ^ w * (x / 2 ^ (w * i) / 2 ^ w) + x / 2 ^ (w * i) % 2 ^ w := (Nat.div_add_mod _ _).symm
  have hset : setLane w i x v =
      2 ^ (w * i) * (2 ^ w * (x / 2 ^ (w * i) / 2 ^ w) + v % 2 ^ w) + x % 2 ^ (w * i) := by
    have hsub : x - x / 2 ^ (w * i) % 2 ^ w * 2 ^ (w * i) =
        2 ^ (w * i) * (2 ^ w * (x / 2 ^ (w * i) / 2 ^ w)) + x % 2 ^ (w * i) := by
      conv_lhs => enter [1]; rw [hx, hmid]
      rw [Nat.mul_add, Nat.mul_comm (x / 2 ^ (w * i) % 2 ^ w)]
      omega
    rw [setLane, hsub]; ring
  rw [hset, Nat.testBit_two_pow_mul_add _ hlow, Nat.testBit_two_pow_mul_add _ (Nat.mod_lt _ hw)]
  simp only [Nat.testBit_mod_two_pow, Nat.testBit_div_two_pow]
  by_cases h1 : k < w * i
  · simp [h1]
  · by_cases h2 : k < w * i + w
    · simp [h1, h2, show k - w * i < w by omega]
    · simp [h1, h2, show ¬(k - w * i < w) by omega, show k - w * i - w + w + w * i = k by omega]

theorem setLane_lane (w i j x v : ℕ) :
    laneOfNat w j (setLane w i x v) = if j = i then v % 2 ^ w else laneOfNat w j x := by
  apply Nat.eq_of_testBit_eq
  intro k
  rw [testBit_laneOfNat, testBit_setLane]
  by_cases hk : k < w
  · rcases Nat.lt_trichotomy j i with h | rfl | h
    · have : w * j + w ≤ w * i := by rw [← Nat.mul_add_one]; exact Nat.mul_le_mul_left w h
      simp [Nat.ne_of_lt h, testBit_laneOfNat, show w * j + k < w * i by omega]
    · simp [hk, Nat.testBit_mod_two_pow]
    · have : w * i + w ≤ w * j := by rw [← Nat.mul_add_one]; exact Nat.mul_le_mul_left w h
      simp [Nat.ne_of_gt h, testBit_laneOfNat, show ¬(w * j + k < w * i) by omega,
        show ¬(w * j + k < w * i + w) by omega]
  · split_ifs <;> simp [hk, testBit_laneOfNat]

/-! ### Tags and elements (R36, R43) -/

theorem Tag.width_mul_lanes (T : Tag) : T.width * T.lanes = 512 := by cases T <;> rfl

theorem Tag.laneWidth_mul_predLanes (T : Tag) : T.laneWidth * T.predLanes = 512 := by cases T <;> rfl

theorem Tag.predLanes_le (T : Tag) : T.predLanes ≤ 64 := by cases T <;> decide

theorem Tag.lanes_le (h : T ≠ .b4) : T.lanes ≤ 64 := by
  cases T <;> first | contradiction | decide

theorem Tag.width_pos (T : Tag) : 0 < T.width := by cases T <;> decide

theorem lane_fits {n : ℕ} (hwn : w * n = 512) (h : i < n) : w * (i + 1) ≤ 512 := hwn ▸ Nat.mul_le_mul_left w h

@[simp] theorem make_tag (T : Tag) (x : ℕ) (sc : W32) : (VReg.make T x sc).tag = T := rfl
@[simp] theorem make_scales (T : Tag) (x : ℕ) (sc : W32) : (VReg.make T x sc).scales = sc := rfl

theorem VReg.elem_eq (r : VReg) (w i : ℕ) : r.elem w i = laneOfNat w i r.data.toNat := rfl

theorem VReg.elem_lt (r : VReg) (w i : ℕ) : r.elem w i < 2 ^ w := laneOfNat_lt _ _ _

theorem make_elem (T : Tag) (x : ℕ) (sc : W32) (h : w * (i + 1) ≤ 512) :
    (VReg.make T x sc).elem w i = laneOfNat w i x :=
  laneOfNat_ofNat x h

theorem scaleByte_lt (sc : W32) (j : ℕ) : scaleByte sc j < 256 := Nat.mod_lt _ (by decide)

theorem scaleByte_ofNat (x : ℕ) (h : j < 4) : scaleByte (BitVec.ofNat 32 x) j = laneOfNat 8 j x :=
  laneOfNat_ofNat x (by omega)

theorem VReg.source_scale_lt (r : VReg) (i : ℕ) : (r.source i).1 < 256 := by
  unfold VReg.source
  split
  · exact scaleByte_lt _ _
  · exact Nat.zero_lt_succ _

/-! ### An instruction that writes one vector register -/

/-- The end of an instruction of k bytes that writes vector register d, raises flags and leaves a generator state. -/
def State.endVec (s : State) (k : ℕ) (d : BitVec 5) (r : VReg) (f : FpFlags) (gs : Word) : State :=
  (State.skip { s with core := ((s.core.setVReg d r).raise f.bits).setGs gs } k).retire

theorem setVec_end (s : State) (k : ℕ) (d : BitVec 5) (r : VReg) (f : FpFlags) :
    ((s.setVec d r f).skip k).retire = s.endVec k d r f s.core.fp.gs := rfl

theorem endVec_vreg (s : State) (k : ℕ) (d u : BitVec 5) (r : VReg) (f : FpFlags) (gs : Word) :
    (s.endVec k d r f gs).core.vreg u = if u = d then r else s.core.vreg u := vreg_setVReg s.core d u r

@[simp] theorem endVec_vreg_same (s : State) (k : ℕ) (d : BitVec 5) (r : VReg) (f : FpFlags) (gs : Word) :
    (s.endVec k d r f gs).core.vreg d = r := by rw [endVec_vreg, if_pos rfl]

theorem endVec_fp (s : State) (k : ℕ) (d : BitVec 5) (r : VReg) (f : FpFlags) (gs : Word) :
    (s.endVec k d r f gs).core.fp = { s.core.fp with fflags := s.core.fp.fflags ||| f.bits, gs := gs } := rfl

@[simp] theorem endVec_gs (s : State) (k : ℕ) (d : BitVec 5) (r : VReg) (f : FpFlags) (gs : Word) :
    (s.endVec k d r f gs).core.fp.gs = gs := rfl

@[simp] theorem noFlags_bits : ({} : FpFlags).bits = 0#5 := rfl

theorem endVec_fp_quiet (s : State) (k : ℕ) (d : BitVec 5) (r : VReg) :
    (s.endVec k d r {} s.core.fp.gs).core.fp = s.core.fp := by
  rw [endVec_fp, noFlags_bits, BitVec.or_zero]

theorem endVec_writes (s : State) (k : ℕ) (d : BitVec 5) (r : VReg) (f : FpFlags) (gs : Word) :
    WritesOneVector k d s (s.endVec k d r f gs) where
  others v hv := by rw [endVec_vreg, if_neg hv]
  registers := rfl
  pc := rfl
  only := rfl
  memory := ⟨fun _ => rfl, fun _ => rfl, fun _ => rfl, fun _ => rfl, rfl⟩

/-- A register made of bits holds the elements of the bits. -/
theorem holds_make {f : ℕ → ℕ} {x : ℕ} {sc : W32} (hd : t.core.vreg d = VReg.make T x sc)
    (hx : ∀ i < T.lanes, laneOfNat T.width i x = f i % 2 ^ T.width) : Holds d T f sc t where
  tag := by rw [hd]; rfl
  elems i hi := by rw [hd, make_elem T x sc (lane_fits T.width_mul_lanes hi), hx i hi]
  scaleBytes := by rw [hd]; rfl
  special := by rw [hd]; rfl

/-- A register packed from lanes holds them. -/
theorem holds_packed {f g : ℕ → ℕ} {sc : W32}
    (hd : t.core.vreg d = VReg.make T (packLanes T.width ((List.range T.lanes).map g)) sc)
    (hg : ∀ i < T.lanes, g i % 2 ^ T.width = f i % 2 ^ T.width) : Holds d T f sc t :=
  holds_make hd fun i hi => by rw [packLanes_range_lane _ _ hi, hg i hi]

/-! ### Flags (R61, R62) -/

theorem FpFlags.or_bits (a b : FpFlags) (k : ℕ) :
    (a.or b).bits.getLsbD k = (a.bits.getLsbD k || b.bits.getLsbD k) := by
  have h : (a.or b).bits = a.bits ||| b.bits := by
    obtain ⟨a1, a2, a3, a4, a5⟩ := a
    obtain ⟨b1, b2, b3, b4, b5⟩ := b
    revert a1 a2 a3 a4 a5 b1 b2 b3 b4 b5
    decide
  rw [h, BitVec.getLsbD_or]

/-- The flags of a list are those of its results together. -/
theorem flagsOf_bits (l : List (ℕ × FpFlags)) (k : ℕ) :
    (flagsOf l).bits.getLsbD k = true ↔ ∃ x ∈ l, x.2.bits.getLsbD k = true := by
  have fold : ∀ f : FpFlags, (l.foldl (fun a x => a.or x.2) f).bits.getLsbD k = true ↔
      f.bits.getLsbD k = true ∨ ∃ x ∈ l, x.2.bits.getLsbD k = true := by
    induction l with
    | nil => simp
    | cons y r ih =>
      intro f
      simp only [List.foldl_cons, ih, FpFlags.or_bits, Bool.or_eq_true, List.mem_cons, exists_eq_or_imp, or_assoc]
  have h := fold {}
  rw [noFlags_bits] at h
  simpa [flagsOf] using h

theorem endVec_raises {n : ℕ} {active : ℕ → Bool} {g : ℕ → FpFlags} {f : FpFlags} (k : ℕ) (r : VReg) (gs : Word)
    (h : ∀ k, f.bits.getLsbD k = true ↔ ∃ i < n, active i = true ∧ (g i).bits.getLsbD k = true) :
    RaisesFlags n active g s (s.endVec k d r f gs) := by
  intro b
  rw [endVec_fp, BitVec.getLsbD_or, Bool.or_eq_true, h b]

/-! ### Tag checks (R46, R47) -/

variable {allow : Tag → Bool} {regs : List (BitVec 5)} {k : Tag → Issue}

theorem checkTags_agree (hne : regs ≠ []) (h : ∀ v ∈ regs, (s.core.vreg v).tag = T) (ha : allow T = true) :
    checkTags (regs.map fun v => (s.core.vreg v).tag) allow s k = k T := by
  obtain ⟨v, r, rfl⟩ := List.exists_cons_of_ne_nil hne
  have hv := h v List.mem_cons_self
  have hr : r.find? (fun q => (s.core.vreg q).tag != T) = none :=
    List.find?_eq_none.mpr fun q hq => by simp [h q (List.mem_cons_of_mem v hq)]
  simp [checkTags, hv, ha, List.find?_map, hr]

theorem checkTags_barred {v : BitVec 5} {r : List (BitVec 5)} (ha : allow (s.core.vreg v).tag = false) :
    checkTags ((v :: r).map fun q => (s.core.vreg q).tag) allow s k =
      .trap 6 (mismatchVal (s.core.vreg v).tag (s.core.vreg v).tag true) s := by
  simp [checkTags, ha]

theorem checkTags_disagree {u v : BitVec 5} {r : List (BitVec 5)} (ha : allow (s.core.vreg v).tag = true)
    (hu : r.find? (fun q => (s.core.vreg q).tag != (s.core.vreg v).tag) = some u) :
    checkTags ((v :: r).map fun q => (s.core.vreg q).tag) allow s k =
      .trap 6 (mismatchVal (s.core.vreg v).tag (s.core.vreg u).tag false) s := by
  simp [checkTags, ha, List.find?_map, hu]

theorem mismatchVal_barred (T : Tag) : mismatchVal T T true = BitVec.ofNat 64 (T.code + T.code * 2 ^ 8 + 2 ^ 13) := rfl

theorem mismatchVal_disagree (T U : Tag) : mismatchVal T U false = BitVec.ofNat 64 (T.code + U.code * 2 ^ 8) := rfl

/-! ### Masks (R218) -/

/-- A mask bit of a lane is what the statements call an active lane. -/
theorem mask_getLsbD (p : BitVec 3) (n : BitVec 1) (h : i < 64) : (s.core.mask p n).getLsbD i = s.active p n i := by
  unfold Core.mask State.active
  obtain rfl | rfl : n = 0 ∨ n = 1 := by revert n; decide
  · simp
  · simp [h]

end Sys2Proof.Machine
end

