-- ==== Sys2Proof/Proofs/VectorLanes.lean ====
section
/-!
SUPPORT. Lane instructions and moves of lanes: what a merging lane operation and a merging move leave, once each, and the
lane functions of the model beside those of the statements; then the obligation O19.
-/
namespace Sys2Proof.Machine

variable {s : State} {T : Tag}

/-! ### Lane functions: the model's against the statement's (R39, R226 to R229) -/

theorem intValue_eq {x : ℕ} (g : Bool) {w : ℕ} (hw : 0 < w) (hx : x < 2 ^ w) :
    intValue g w x = if g then Int.bmod x (2 ^ w) else (x : ℤ) := by
  obtain ⟨k, rfl⟩ : ∃ k, w = k + 1 := ⟨w - 1, by omega⟩
  have hmod : x % 2 ^ (k + 1) = x := Nat.mod_eq_of_lt hx
  have hpow : 2 ^ (k + 1) = 2 * 2 ^ k := by rw [pow_succ]; ring
  cases g with
  | false => simp [intValue, hmod]
  | true =>
    have hemod : (x : ℤ) % ((2 ^ (k + 1) : ℕ) : ℤ) = x := by rw [← Int.natCast_mod, hmod]
    have hhalf : (((2 ^ (k + 1) : ℕ) : ℤ) + 1) / 2 = ((2 ^ k : ℕ) : ℤ) := by rw [hpow]; push_cast; omega
    simp only [intValue, Nat.add_sub_cancel, Bool.true_and, decide_eq_true_eq, hmod, if_true, Int.bmod_def, hemod, hhalf]
    split_ifs <;> omega

theorem wrapInt_eq (w : ℕ) (x : ℤ) : wrapInt w x = (x % 2 ^ w).toNat := by rw [wrapInt]; push_cast; rfl

/-- A lane function of the model agrees with one of the statements on the elements of a tag. -/
def LaneAgree (allow : Tag → Bool) (f g : Tag → Rounding → ℕ → ℕ → ℕ → ℕ × FpFlags) : Prop :=
  ∀ T m x y z, allow T = true → x < 2 ^ T.width → y < 2 ^ T.width → z < 2 ^ T.width → f T m x y z = g T m x y z

theorem LaneAgree.refl (allow : Tag → Bool) (f : Tag → Rounding → ℕ → ℕ → ℕ → ℕ × FpFlags) : LaneAgree allow f f :=
  fun _ _ _ _ _ _ _ _ _ => rfl

/-- An operation with a floating and an integer form agrees when its integer forms do. -/
theorem arithOp_agree {fl : FloatFmt → Rounding → ℕ → ℕ → ℕ → ℕ × FpFlags} {f g : ℤ → ℤ → ℤ → ℤ}
    (h : ∀ x y z, f x y z = g x y z)
    (allow : Tag → Bool) : LaneAgree allow (arithOp fl f) (laneOf fl g) := by
  intro T m x y z _ hx hy hz
  unfold arithOp laneOf
  cases T.float with
  | some e => rfl
  | none => simp only [wrapInt_eq, h, intValue_eq T.isSigned T.width_pos hx, intValue_eq T.isSigned T.width_pos hy,
      intValue_eq T.isSigned T.width_pos hz]

theorem maxOp_agree : LaneAgree Tag.arith maxOp laneMax :=
  arithOp_agree (fun x y _ => by simp only [max_def]; split_ifs <;> omega) _

theorem minOp_agree : LaneAgree Tag.arith minOp laneMin :=
  arithOp_agree (fun x y _ => by simp only [min_def]; split_ifs <;> omega) _

theorem absOp_agree : LaneAgree Tag.arith absOp laneAbs :=
  arithOp_agree (fun x _ _ => by split_ifs <;> omega) _

theorem sllOp_agree : LaneAgree Tag.logic sllOp laneSll := fun T m x y z _ _ _ _ => by
  simp only [sllOp, laneSll, Nat.shiftLeft_eq]

theorem srlOp_agree : LaneAgree Tag.logic srlOp laneSrl := fun T m x y z _ _ _ _ => by
  simp only [srlOp, laneSrl, Nat.shiftRight_eq_div_pow]

theorem sraOp_agree : LaneAgree Tag.logic sraOp laneSra := fun T m x y z _ hx _ _ => by
  simp only [sraOp, laneSra, wrapInt_eq, intValue_eq true T.width_pos hx, if_true]

theorem quantisable_float (h : T.quantisable = true) : ∃ g, T.float = some g := by
  cases T <;> first | exact ⟨_, rfl⟩ | cases h

theorem unaryOp_agree (f : FloatFmt → Rounding → ℕ → ℕ × FpFlags) :
    LaneAgree Tag.quantisable (unaryOp f) (laneFloat f) := fun T m x y z h _ _ _ => by
  obtain ⟨g, hg⟩ := quantisable_float h
  simp [unaryOp, laneFloat, hg]

/-! ### Lane instructions (R219, R226) -/

/-- The registers whose tags a lane operation checks, in order (R46, R219). -/
def laneChecked (shape : Reads) (d a b : BitVec 5) (p : BitVec 3) (n : BitVec 1) : List (BitVec 5) :=
  [a] ++ (if shape = .one then [] else [b]) ++ (if shape == .three || isMasked p n then [d] else [])

theorem mergeCheck_eq (p : BitVec 3) (n : BitVec 1) (d : BitVec 5) :
    mergeCheck p n d = if isMasked p n then [d] else [] := by
  simp only [mergeCheck, isMasked, Bool.or_eq_true, bne_iff_ne, ite_not, ← not_and_or]

theorem laneChecked_one (d a b : BitVec 5) (p : BitVec 3) (n : BitVec 1) :
    laneChecked .one d a b p n = [a] ++ mergeCheck p n d := by simp [laneChecked, mergeCheck_eq]

theorem laneChecked_two (d a b : BitVec 5) (p : BitVec 3) (n : BitVec 1) :
    laneChecked .two d a b p n = [a, b] ++ mergeCheck p n d := by simp [laneChecked, mergeCheck_eq]

theorem laneChecked_three (d a b : BitVec 5) (p : BitVec 3) (n : BitVec 1) :
    laneChecked .three d a b p n = [a, b, d] := by simp [laneChecked]

/-- The lanes that a merging lane operation writes: the new element with its flags, or vd's own. -/
def mergedLane (f : ℕ → ℕ → ℕ → ℕ × FpFlags) (w : ℕ) (ra rb rd : VReg) (m : Word) (i : ℕ) : ℕ × FpFlags :=
  if m.getLsbD i then f (ra.elem w i) (rb.elem w i) (rd.elem w i) else (rd.elem w i, {})

theorem lanewise_eq (allow : Tag → Bool) (shape : Reads) (f : Tag → Rounding → ℕ → ℕ → ℕ → ℕ × FpFlags)
    (d a b : BitVec 5) (p : BitVec 3) (n : BitVec 1) (fin : State → Issue) :
    lanewise allow shape f d a b p n s fin =
      checkTags ((laneChecked shape d a b p n).map fun v => (s.core.vreg v).tag) allow s fun t =>
        let out := (List.range t.lanes).map
          (mergedLane (f t s.core.rounding) t.width (s.core.vreg a) (s.core.vreg b) (s.core.vreg d) (s.core.mask p n))
        fin (s.setVec d (VReg.make t (packLanes t.width (out.map (·.1))) (s.core.vreg d).scales) (flagsOf out)) := by
  have hops : (laneChecked shape d a b p n).map (fun v => (s.core.vreg v).tag) =
      [(s.core.vreg a).tag] ++ (if shape = .one then [] else [(s.core.vreg b).tag]) ++
        (if shape == .three || isMasked p n then [(s.core.vreg d).tag] else []) := by
    unfold laneChecked
    split_ifs <;> rfl
  rw [hops]
  rfl

/-- A lane operation of the model, under its tag checks, is the lane instruction of the statements (R46, R47, R219). -/
theorem LaneForm.Runs.of_lanewise {F : LaneForm} {shape : Reads} {f : Tag → Rounding → ℕ → ℕ → ℕ → ℕ × FpFlags}
    (he : exec F.instr s = (lanewise F.admits shape f F.d F.a F.b F.p F.n s fun u => .done (u.skip F.bytes)).result)
    (hc : laneChecked shape F.d F.a F.b F.p F.n = F.checked) (hl : LaneAgree F.admits f F.lane)
    (hb : ∀ T, F.admits T = true → T ≠ .b4) : F.Runs s := by
  rw [lanewise_eq, hc] at he
  refine ⟨fun T ha hne hT => ?_, fun v r hv => ⟨fun ha => ?_, fun u ha hu => ?_⟩⟩
  · rw [checkTags_agree hne hT ha, done_result, setVec_end] at he
    have merged : ∀ i < T.lanes, mergedLane (f T s.core.rounding) T.width (s.core.vreg F.a) (s.core.vreg F.b)
        (s.core.vreg F.d) (s.core.mask F.p F.n) i =
        if s.active F.p F.n i then F.lane T s.core.rounding ((s.core.vreg F.a).elem T.width i)
          ((s.core.vreg F.b).elem T.width i) ((s.core.vreg F.d).elem T.width i)
        else ((s.core.vreg F.d).elem T.width i, {}) := fun i hi => by
      rw [mergedLane, mask_getLsbD _ _ (lt_of_lt_of_le hi (Tag.lanes_le (hb T ha))),
        hl T _ _ _ _ ha (VReg.elem_lt _ _ _) (VReg.elem_lt _ _ _) (VReg.elem_lt _ _ _)]
    refine ⟨_, he, holds_packed (endVec_vreg_same _ _ _ _ _ _ |>.trans (by rw [List.map_map])) fun i hi => ?_,
      endVec_raises _ _ _ fun k => ?_, rfl, endVec_writes _ _ _ _ _ _⟩
    · simp only [Function.comp_apply, merged i hi]
      split_ifs <;> rfl
    · simp only [flagsOf_bits, List.mem_map, List.mem_range, exists_exists_and_eq_and]
      refine exists_congr fun i => and_congr_right fun hi => ?_
      rw [merged i hi]
      split_ifs with h <;> simp [h]
  · rw [hv, checkTags_barred ha] at he
    exact he
  · rw [hv, checkTags_disagree ha hu] at he
    exact he

theorem arith_ne_b4 : ∀ T : Tag, T.arith = true → T ≠ .b4 := by rintro T h rfl; cases h
theorem logic_ne_b4 : ∀ T : Tag, T.logic = true → T ≠ .b4 := by rintro T h rfl; cases h
theorem quantisable_ne_b4 : ∀ T : Tag, T.quantisable = true → T ≠ .b4 := by rintro T h rfl; cases h

section
variable {i : Instr} {k : ℕ} {d a b : BitVec 5} {p : BitVec 3} {n : BitVec 1}
  {f g : Tag → Rounding → ℕ → ℕ → ℕ → ℕ × FpFlags} {allow : Tag → Bool}

/-- A lane instruction on vs1, and on vd when masked. -/
theorem LaneForm.Runs.one (hb : ∀ T, allow T = true → T ≠ .b4) (hl : LaneAgree allow f g)
    (he : exec i s = (lanewise allow .one f d a b p n s fun u => .done (u.skip k)).result) :
    (⟨i, k, allow, [a] ++ mergeCheck p n d, d, a, b, p, n, g⟩ : LaneForm).Runs s :=
  LaneForm.Runs.of_lanewise he (laneChecked_one d a b p n) hl hb

/-- A lane instruction on vs1 and vs2, and on vd when masked. -/
theorem LaneForm.Runs.two (hb : ∀ T, allow T = true → T ≠ .b4) (hl : LaneAgree allow f g)
    (he : exec i s = (lanewise allow .two f d a b p n s fun u => .done (u.skip k)).result) :
    (⟨i, k, allow, [a, b] ++ mergeCheck p n d, d, a, b, p, n, g⟩ : LaneForm).Runs s :=
  LaneForm.Runs.of_lanewise he (laneChecked_two d a b p n) hl hb

/-- A lane instruction on vs1, vs2 and vd. -/
theorem LaneForm.Runs.three (hb : ∀ T, allow T = true → T ≠ .b4) (hl : LaneAgree allow f g)
    (he : exec i s = (lanewise allow .three f d a b p n s fun u => .done (u.skip k)).result) :
    (⟨i, k, allow, [a, b, d], d, a, b, p, n, g⟩ : LaneForm).Runs s :=
  LaneForm.Runs.of_lanewise he (laneChecked_three d a b p n) hl hb

end

/-- The lane instructions of 32 bits run as the statements say. -/
theorem laneForms_run (d a b : BitVec 5) (p : BitVec 3) (n : BitVec 1) (s : State) :
    ∀ F ∈ laneForms d a b p n, F.Runs s := by
  have arith {fl f} := arithOp_agree (fl := fl) (f := f) (fun _ _ _ => rfl) Tag.arith
  have logic (f) := LaneAgree.refl Tag.logic (logicOp f)
  simp only [laneForms, List.forall_mem_cons, List.not_mem_nil, false_imp_iff, implies_true, and_true]
  refine ⟨.two arith_ne_b4 arith rfl, .two arith_ne_b4 arith rfl, .two arith_ne_b4 arith rfl,
    .three arith_ne_b4 arith rfl, .three arith_ne_b4 arith rfl, .three arith_ne_b4 arith rfl,
    .two arith_ne_b4 maxOp_agree rfl, .two arith_ne_b4 minOp_agree rfl,
    .one arith_ne_b4 absOp_agree rfl, .one arith_ne_b4 arith rfl,
    .two logic_ne_b4 (logic _) rfl, .two logic_ne_b4 (logic _) rfl, .two logic_ne_b4 (logic _) rfl,
    .two logic_ne_b4 (logic _) rfl, .one logic_ne_b4 sllOp_agree rfl, .one logic_ne_b4 srlOp_agree rfl,
    .one logic_ne_b4 sraOp_agree rfl⟩

/-- So do the special functions that merge. -/
theorem mathForms_run (d a b : BitVec 5) (p : BitVec 3) (n : BitVec 1) (s : State) :
    ∀ F ∈ mathForms d a b p n, F.Runs s := by
  have scale : LaneAgree Tag.quantisable (fun t m x y _ => fpScale (t.float.getD .f32) m x y)
      (fun T m x y _ => match T.float with | some g => fpScale g m x y | none => (0, {})) := by
    intro T m x y z h _ _ _
    obtain ⟨g, hg⟩ := quantisable_float h
    simp [hg]
  have unary (f) : LaneAgree Tag.quantisable (unaryOp f) (laneFloat f) := unaryOp_agree f
  simp only [mathForms, List.forall_mem_cons, List.not_mem_nil, false_imp_iff, implies_true, and_true]
  exact ⟨.one quantisable_ne_b4 (unary _) rfl, .one quantisable_ne_b4 (unary _) rfl,
    .two quantisable_ne_b4 scale rfl, .one quantisable_ne_b4 (unary _) rfl,
    .one quantisable_ne_b4 (unary _) rfl, .one quantisable_ne_b4 (unary _) rfl⟩

theorem compactMask_eq (m : BitVec 1) : compactMask m = if m = 1 then 1 else 0 := by
  revert m; decide

/-- So do the compact instructions. -/
theorem compactForms_run (d v : BitVec 5) (m : BitVec 1) (s : State) : ∀ F ∈ compactForms d v m, F.Runs s := by
  have arith {fl f} := arithOp_agree (fl := fl) (f := f) (fun _ _ _ => rfl) Tag.arith
  have logic (f) := LaneAgree.refl Tag.logic (logicOp f)
  simp only [compactForms, ← compactMask_eq, List.forall_mem_cons, List.not_mem_nil, false_imp_iff, implies_true, and_true]
  exact ⟨.two arith_ne_b4 arith rfl, .two arith_ne_b4 arith rfl, .two arith_ne_b4 arith rfl,
    .two arith_ne_b4 maxOp_agree rfl, .two arith_ne_b4 minOp_agree rfl,
    .two logic_ne_b4 (logic _) rfl, .two logic_ne_b4 (logic _) rfl, .two logic_ne_b4 (logic _) rfl,
    .two logic_ne_b4 (logic _) rfl, .one arith_ne_b4 absOp_agree rfl, .one arith_ne_b4 arith rfl,
    .one logic_ne_b4 sllOp_agree rfl, .one logic_ne_b4 srlOp_agree rfl, .one logic_ne_b4 sraOp_agree rfl,
    .three arith_ne_b4 arith rfl⟩

/-! ### Moves of lanes (R219, R230, R240) -/

theorem VReg.lane_fst_lt (r : VReg) (T : Tag) (i : ℕ) : (r.lane T i).1 < 2 ^ T.laneWidth := VReg.elem_lt _ _ _

theorem VReg.lane_snd (r : VReg) (T : Tag) (i : ℕ) : (r.lane T i).2 = if T = .b4 then scaleByte r.scales i else 0 := by
  cases T <;> rfl

theorem VReg.lane_ext {r : VReg} {T : Tag} {i : ℕ} {x : ℕ × ℕ} (h : r.elem T.laneWidth i = x.1)
    (hs : (if T = .b4 then scaleByte r.scales i else 0) = x.2) : r.lane T i = x :=
  Prod.ext h ((r.lane_snd T i).trans hs)

/-- A register made of lanes of registers has those lanes. -/
theorem lane_ofLanes {i : ℕ} (sc : W32) (g : ℕ → ℕ × ℕ) (h : i < T.predLanes) (hg : ∃ r j, g i = VReg.lane r T j) :
    (VReg.ofLanes T sc ((List.range T.predLanes).map g)).lane T i = g i := by
  obtain ⟨r, j, hg⟩ := hg
  refine VReg.lane_ext ?_ ?_
  · unfold VReg.ofLanes
    rw [make_elem _ _ _ (lane_fits T.laneWidth_mul_predLanes h), List.map_map, packLanes_range_lane _ _ h,
      Function.comp_apply, hg, Nat.mod_eq_of_lt (VReg.lane_fst_lt r T j)]
  · rw [hg, VReg.lane_snd]
    by_cases hT : T = .b4
    · subst hT
      rw [if_pos rfl, if_pos rfl]
      calc scaleByte (VReg.ofLanes .b4 sc ((List.range Tag.b4.predLanes).map g)).scales i
          = laneOfNat 8 i (packLanes 8 (((List.range Tag.b4.predLanes).map g).map (·.2))) := scaleByte_ofNat _ h
        _ = (g i).2 % 2 ^ 8 := by rw [List.map_map, packLanes_range_lane _ _ h]; rfl
        _ = scaleByte r.scales j := by rw [hg]; exact Nat.mod_eq_of_lt (scaleByte_lt _ _)
    · rw [if_neg hT, if_neg hT]

theorem ofLanes_scales (sc : W32) (l : List (ℕ × ℕ)) (h : T ≠ .b4) : (VReg.ofLanes T sc l).scales = sc := by
  cases T <;> first | rfl | contradiction

/-- A merging move of the model is a move of the statements, when each lane taken is a lane of a register. -/
theorem MoveForm.Runs.of_laneMove {F : MoveForm} {f : Tag → ℕ → Option (ℕ × ℕ)}
    (he : exec F.instr s = (laneMove (F.checked.map fun v => (s.core.vreg v).tag) F.d F.p F.n f s
      fun u => .done (u.skip F.bytes)).result)
    (hf : ∀ T, ∀ i < T.predLanes, f T i = (F.source T i).map fun q => (s.core.vreg q.1).lane T q.2) : F.Runs s := by
  intro T hne hT
  rw [laneMove, checkTags_agree hne hT rfl, done_result, setVec_end] at he
  have lane : ∀ i < T.predLanes, (if (s.core.mask F.p F.n).getLsbD i then (f T i).getD ((s.core.vreg F.d).lane T i)
      else (s.core.vreg F.d).lane T i) =
      match (if s.active F.p F.n i then F.source T i else none) with
      | some q => (s.core.vreg q.1).lane T q.2
      | none => (s.core.vreg F.d).lane T i := fun i hi => by
    rw [mask_getLsbD _ _ (lt_of_lt_of_le hi T.predLanes_le), hf T i hi]
    split_ifs
    · cases F.source T i <;> rfl
    · rfl
  refine ⟨_, he, by rw [endVec_vreg_same]; rfl, fun i hi => ?_, fun hb => by rw [endVec_vreg_same, ofLanes_scales _ _ hb],
    endVec_fp_quiet _ _ _ _, endVec_writes _ _ _ _ _ _⟩
  rw [endVec_vreg_same]
  refine (lane_ofLanes _ _ hi ?_).trans (lane i hi)
  rw [lane i hi]
  split <;> exact ⟨_, _, rfl⟩

theorem maskedTag_eq (d : BitVec 5) (p : BitVec 3) (n : BitVec 1) :
    s.maskedTag d p n = (mergeCheck p n d).map fun v => (s.core.vreg v).tag := by
  rw [State.maskedTag, mergeCheck_eq]
  split_ifs <;> rfl

theorem isMasked_iff (p : BitVec 3) (n : BitVec 1) : isMasked p n = true ↔ p ≠ 0 ∨ n ≠ 0 := by
  simp [isMasked]

/-- A masked vmov moves lanes. -/
theorem vmov_masked {i : Instr} {k : ℕ} {d a : BitVec 5} {p : BitVec 3} {n : BitVec 1} (h : p ≠ 0 ∨ n ≠ 0)
    (he : exec i s = (vmovWith d a p n s fun u => .done (u.skip k)).result) :
    (⟨i, k, [a, d], d, p, n, fun _ i => some (a, i)⟩ : MoveForm).Runs s := by
  have hm := (isMasked_iff p n).mpr h
  refine MoveForm.Runs.of_laneMove (f := fun t i => some ((s.core.vreg a).lane t i)) (he.trans ?_) fun _ _ _ => rfl
  rw [vmovWith]
  simp only [hm, State.maskedTag, if_true]
  rfl

/-- An unmasked vmov moves the whole register with its side field (R230). -/
theorem vmov_whole {i : Instr} {k : ℕ} {d a : BitVec 5}
    (he : exec i s = (vmovWith d a 0 0 s fun u => .done (u.skip k)).result) :
    Runs i s fun t => t.core.vreg d = s.core.vreg a ∧ t.core.fp = s.core.fp ∧ WritesOneVector k d s t := by
  have hend : exec i s = .next (s.endVec k d (s.core.vreg a) {} s.core.fp.gs) := by
    rw [he, State.endVec, noFlags_bits]
    simp only [Core.raise, Core.setGs, BitVec.or_zero]
    rfl
  exact ⟨_, hend, endVec_vreg_same _ _ _ _ _ _, endVec_fp_quiet _ _ _ _, endVec_writes _ _ _ _ _ _⟩

/-- The moves of lanes run as the statements say. -/
theorem moveForms_run (d a b k : BitVec 5) (p : BitVec 3) (n : BitVec 1) (s : State) :
    ∀ F ∈ moveForms d a b k p n s, F.Runs s := by
  simp only [moveForms, List.forall_mem_cons, List.not_mem_nil, false_imp_iff, implies_true, and_true]
  have masked (l : List (BitVec 5)) : (l.map fun v => (s.core.vreg v).tag) ++ s.maskedTag d p n =
      (l ++ mergeCheck p n d).map fun v => (s.core.vreg v).tag := by rw [maskedTag_eq, List.map_append]
  refine ⟨.of_laneMove rfl fun T i hi => ?_, .of_laneMove (congrArg (Issue.result <| laneMove · _ _ _ _ _ _) (masked [a]))
      fun T i _ => ?_,
    .of_laneMove rfl fun T i _ => ?_, .of_laneMove rfl fun T i _ => ?_,
    .of_laneMove (congrArg (Issue.result <| laneMove · _ _ _ _ _ _) (masked [a])) fun T i _ => rfl,
    .of_laneMove (congrArg (Issue.result <| laneMove · _ _ _ _ _ _) (masked [a, b])) fun T i _ => ?_,
    .of_laneMove (congrArg (Issue.result <| laneMove · _ _ _ _ _ _) (masked [a, b])) fun T i _ => ?_⟩
  · rw [mask_getLsbD _ _ (lt_of_lt_of_le hi T.predLanes_le)]
    dsimp only [Option.map_some]
    split_ifs <;> rfl
  · cases T <;> rfl
  all_goals
    dsimp only
    split_ifs <;> rfl

/-! ### vext and vins (R239) -/

theorem elem_signed (T : Tag) {x : ℕ} (h : x < 2 ^ T.width) :
    BitVec.ofInt 64 (if T.isSigned then intValue true T.width x else (x : ℤ)) =
      if T.isSigned then BitVec.ofInt 64 (Int.bmod x (2 ^ T.width)) else BitVec.ofNat 64 x := by
  split_ifs
  · rw [intValue_eq true T.width_pos h, if_pos rfl]
  · exact BitVec.ofInt_natCast 64 x

/-- One element rewritten (R239). -/
theorem vins_holds {t : State} {d : BitVec 5} {k v : ℕ} (r : VReg)
    (h : t.core.vreg d = VReg.make r.tag (setLane r.tag.width k r.data.toNat v) r.scales) :
    Holds d r.tag (fun i => if i = k then v else r.elem r.tag.width i) r.scales t :=
  holds_make h fun i _ => by
    rw [setLane_lane]
    split_ifs
    · rfl
    · exact (Nat.mod_eq_of_lt (VReg.elem_lt r _ i)).symm

end Sys2Proof.Machine

open Sys2Proof Sys2Proof.Machine in
/-- Settles O19: a merging lane operation packs, lane by lane, what its row gives or what vd held; a move does so with lanes
of registers; the compact words are the same operations with another end. -/
theorem vectorLanesAndMoves : Obligations.VectorLanesAndMoves := by
  refine ⟨⟨fun d a b p n s => laneForms_run d a b p n s, fun d a b p n s => mathForms_run d a b p n s, fun d v m s =>
    ⟨compactForms_run d v m s, ?_, ?_⟩⟩, fun d a b k p n s =>
    ⟨moveForms_run d a b k p n s, fun h => vmov_masked h rfl, vmov_whole rfl, ?_, ?_⟩⟩
  · rintro rfl
    exact vmov_masked (.inl (by decide)) rfl
  · rintro rfl
    exact vmov_whole rfl
  · refine ⟨_, rfl, ?_⟩
    rw [← elem_signed _ (VReg.elem_lt _ _ _)]
    exact assigns_next4 _ _ _ _ rfl
  · exact ⟨_, congrArg Host.Outcome.next (setVec_end s 4 d _ {}), endVec_fp_quiet _ _ _ _, endVec_writes _ _ _ _ _ _,
      vins_holds _ (endVec_vreg_same _ _ _ _ _ _)⟩

end

