-- ==== Sys2Proof/Proofs/VectorConversions.lean ====
section
/-!
SUPPORT. Conversions of lanes with the draws of stochastic rounding: what a list of conversions leaves at each place, in the
flags and in the generator; the obligation O22.
-/
namespace Sys2Proof.Machine

variable {s : State} {T : Tag} {gs : Word}

/-! ### Draws along a list (R55) -/

/-- The rounding of an element: the mode, or the draw of the generator state that it finds. -/
def drawnRounding (draws : Bool) (m : Rounding) (gs : Word) : Rounding :=
  if draws then .stochastic (drawStep gs).2 else m

/-- The elements of a list that are converted. -/
def convertedIn (l : List (Option (ℕ × ℕ))) : ℕ := l.countP Option.isSome

/-- The generator when k elements have been converted. -/
def drawnState (draws : Bool) (k : ℕ) (gs : Word) : Word := if draws then generatorAfter k gs else gs

theorem drawnState_succ (draws : Bool) (k : ℕ) (gs : Word) :
    drawnState draws (k + 1) gs = drawnState draws k (if draws then (drawStep gs).1 else gs) := by
  cases draws <;> rfl

theorem generatorAfter_succ (k : ℕ) (gs : Word) : generatorAfter (k + 1) gs = generatorAfter k (drawStep gs).1 := rfl

section
variable (draws : Bool) (m : Rounding) (f : Rounding → ℕ × ℕ → ℕ × FpFlags)

/-- What a place of the list becomes: none is zeroed, an element is converted with the draw that it finds. -/
def drawnLane (gs : Word) : Option (ℕ × ℕ) → ℕ × FpFlags
  | none => (0, {})
  | some x => f (drawnRounding draws m gs) x

theorem drawMap_cons_some (x : ℕ × ℕ) (r : List (Option (ℕ × ℕ))) (gs : Word) :
    drawMap draws m f (some x :: r) gs =
      (let y := f (drawnRounding draws m gs) x
       let t := drawMap draws m f r (if draws then (drawStep gs).1 else gs)
       (y.1 :: t.1, y.2.or t.2.1, t.2.2)) := by
  cases draws <;> rfl

theorem drawMap_length (l : List (Option (ℕ × ℕ))) (gs : Word) : (drawMap draws m f l gs).1.length = l.length := by
  induction l generalizing gs with
  | nil => rfl
  | cons o r ih =>
    cases o with
    | none => simp [drawMap, ih]
    | some x => simp [drawMap_cons_some, ih]

/-- The generator takes one step for each converted element. -/
theorem drawMap_gs (l : List (Option (ℕ × ℕ))) (gs : Word) :
    (drawMap draws m f l gs).2.2 = drawnState draws (convertedIn l) gs := by
  induction l generalizing gs with
  | nil => cases draws <;> rfl
  | cons o r ih =>
    cases o with
    | none => simpa [drawMap, convertedIn] using ih gs
    | some x => rw [drawMap_cons_some, convertedIn, List.countP_cons_of_pos rfl, drawnState_succ, ← convertedIn, ← ih]

/-- A place becomes what its element gives after the draws of the elements before it. -/
theorem drawMap_getElem (l : List (Option (ℕ × ℕ))) (gs : Word) (i : ℕ) (h : i < l.length) :
    (drawMap draws m f l gs).1.getD i 0 = (drawnLane draws m f (drawnState draws (convertedIn (l.take i)) gs) l[i]).1 := by
  induction l generalizing gs i with
  | nil => simp at h
  | cons o r ih =>
    cases i with
    | zero => cases o <;> cases draws <;> rfl
    | succ i =>
      have hr := ih (i := i) (h := by simpa using h)
      cases o with
      | none => simpa [drawMap, convertedIn] using hr gs
      | some x =>
        rw [drawMap_cons_some, List.take_succ_cons, convertedIn, List.countP_cons_of_pos rfl, drawnState_succ,
          ← convertedIn]
        exact hr _

/-- The flags are those of every converted element. -/
theorem drawMap_flags (l : List (Option (ℕ × ℕ))) (gs : Word) (k : ℕ) :
    (drawMap draws m f l gs).2.1.bits.getLsbD k = true ↔
      ∃ i, ∃ h : i < l.length,
        (drawnLane draws m f (drawnState draws (convertedIn (l.take i)) gs) l[i]).2.bits.getLsbD k = true := by
  induction l generalizing gs with
  | nil => simp [drawMap]
  | cons o r ih =>
    have split {P : ∀ i, i < (o :: r).length → Prop} :
        (∃ i, ∃ h : i < (o :: r).length, P i h) ↔
          P 0 (by simp) ∨ ∃ i, ∃ h : i < r.length, P (i + 1) (by simpa using h) := by
      constructor
      · rintro ⟨_ | i, h, hp⟩
        · exact .inl hp
        · exact .inr ⟨i, by simpa using h, hp⟩
      · rintro (hp | ⟨i, h, hp⟩)
        · exact ⟨0, _, hp⟩
        · exact ⟨i + 1, _, hp⟩
    rw [split]
    cases o with
    | none => simpa [drawMap, drawnLane, convertedIn] using ih gs
    | some x =>
      rw [drawMap_cons_some]
      simp only [FpFlags.or_bits, Bool.or_eq_true, ih, List.take_succ_cons, convertedIn,
        List.countP_cons_of_pos (Option.isSome_some : (some x).isSome = true), drawnState_succ, List.getElem_cons_succ]
      cases draws <;> rfl

end

/-! ### The lanes of a conversion (R235) -/

/-- Lanes of which some are converted, each from its source. -/
def chosenLanes (n : ℕ) (on : ℕ → Bool) (x : ℕ → ℕ × ℕ) : List (Option (ℕ × ℕ)) :=
  (List.range n).map fun i => if on i then some (x i) else none

theorem convertedIn_chosenLanes (n : ℕ) (on : ℕ → Bool) (x : ℕ → ℕ × ℕ) :
    convertedIn (chosenLanes n on x) = converted on n := by
  rw [convertedIn, chosenLanes, List.countP_map, converted]
  refine List.countP_congr fun i _ => ?_
  by_cases h : on i = true <;> simp [h]

theorem chosenLanes_take {n i : ℕ} (on : ℕ → Bool) (x : ℕ → ℕ × ℕ) (h : i ≤ n) :
    (chosenLanes n on x).take i = chosenLanes i on x := by
  rw [chosenLanes, ← List.map_take, List.take_range, Nat.min_eq_left h, chosenLanes]

theorem converted_congr {n : ℕ} {on on' : ℕ → Bool} (h : ∀ i < n, on i = on' i) : converted on n = converted on' n :=
  List.countP_congr fun i hi => by rw [h i (List.mem_range.mp hi)]

theorem chosenLanes_congr {n : ℕ} {on on' : ℕ → Bool} {x : ℕ → ℕ × ℕ} (h : ∀ i < n, on i = on' i) :
    chosenLanes n on x = chosenLanes n on' x :=
  List.map_congr_left fun i hi => by rw [h i (List.mem_range.mp hi)]

theorem chosenLanes_length (n : ℕ) (on : ℕ → Bool) (x : ℕ → ℕ × ℕ) : (chosenLanes n on x).length = n := by
  simp [chosenLanes]

/-- The lanes of a list of conversions, with the draws of the active elements before them. -/
theorem drawnLane_chosenLanes {n i : ℕ} (draws : Bool) (m : Rounding) (f : Rounding → ℕ × ℕ → ℕ × FpFlags) (on : ℕ → Bool)
    (x : ℕ → ℕ × ℕ) (h : i < (chosenLanes n on x).length) :
    drawnLane draws m f (drawnState draws (convertedIn ((chosenLanes n on x).take i)) gs) (chosenLanes n on x)[i] =
      if on i then f (drawnRounding draws m (generatorAfter (converted on i) gs)) (x i) else (0, {}) := by
  have hn : i ≤ n := by rw [chosenLanes_length] at h; omega
  have hi : (chosenLanes n on x)[i] = if on i then some (x i) else none := by simp [chosenLanes]
  rw [chosenLanes_take _ _ hn, convertedIn_chosenLanes, hi]
  split_ifs
  · cases draws <;> rfl
  · rfl

/-- What a conversion of chosen lanes leaves: elements, flags, generator, and nothing else changed. -/
theorem setConverted_end (d : BitVec 5) (draws : Bool) (m : Rounding) (f : Rounding → ℕ × ℕ → ℕ × FpFlags)
    (on : ℕ → Bool) (x : ℕ → ℕ × ℕ) :
    let mode (i : ℕ) := drawnRounding draws m (generatorAfter (converted on i) s.core.fp.gs)
    let t := ((s.setConverted d T (drawMap draws m f (chosenLanes T.lanes on x) s.core.fp.gs)).skip 4).retire
    Holds d T (fun i => if on i then (f (mode i) (x i)).1 else 0) (s.core.vreg d).scales t ∧
      RaisesFlags T.lanes on (fun i => (f (mode i) (x i)).2) s t ∧
      t.core.fp.gs = drawnState draws (converted on T.lanes) s.core.fp.gs ∧ WritesOneVector 4 d s t := by
  intro mode t
  have hlen : (chosenLanes T.lanes on x).length = T.lanes := chosenLanes_length _ _ _
  have ht : t = s.endVec 4 d
      (VReg.make T (packLanes T.width (drawMap draws m f (chosenLanes T.lanes on x) s.core.fp.gs).1) (s.core.vreg d).scales)
      (drawMap draws m f (chosenLanes T.lanes on x) s.core.fp.gs).2.1
      (drawMap draws m f (chosenLanes T.lanes on x) s.core.fp.gs).2.2 := rfl
  rw [ht]
  refine ⟨holds_make (endVec_vreg_same _ _ _ _ _ _) fun i hi => ?_, endVec_raises _ _ _ fun k => ?_, ?_,
    endVec_writes _ _ _ _ _ _⟩
  · rw [packLanes_lane, drawMap_getElem _ _ _ _ _ _ (hlen.symm ▸ hi), drawnLane_chosenLanes]
    split_ifs <;> rfl
  · rw [drawMap_flags]
    constructor
    · rintro ⟨i, h, hk⟩
      rw [drawnLane_chosenLanes] at hk
      split_ifs at hk with ho
      · exact ⟨i, hlen ▸ h, ho, hk⟩
      · simp at hk
    · rintro ⟨i, h, ho, hk⟩
      exact ⟨i, hlen.symm ▸ h, by rw [drawnLane_chosenLanes, if_pos ho]; exact hk⟩
  · rw [endVec_gs, drawMap_gs, convertedIn_chosenLanes]

/-- The register that the model writes for a conversion is the one of the statements (R235). -/
theorem setConverted_converts {n : ℕ} {active on : ℕ → Bool} (d : BitVec 5) (draws : Bool) (m : Rounding)
    (f : Rounding → ℕ × ℕ → ℕ × FpFlags) (x : ℕ → ℕ × ℕ) (hon : ∀ i < T.lanes, on i = (decide (i < n) && active i)) :
    ConvertsTo d T n active draws m (fun r i => f r (x i)) s
      ((s.setConverted d T (drawMap draws m f (chosenLanes T.lanes on x) s.core.fp.gs)).skip 4).retire := by
  rw [chosenLanes_congr hon]
  exact setConverted_end d draws m f _ x

/-- The lanes that the model converts are the active ones below both lane counts (R235). -/
theorem convertLanes_converts (src : Tag) (hT : T ≠ .b4) (d : BitVec 5) (draws : Bool) (m : Rounding)
    (f : Rounding → ℕ × ℕ → ℕ × FpFlags) (ra : VReg) (p : BitVec 3) (n : BitVec 1) :
    ConvertsTo d T (min src.lanes T.lanes) (s.active p n) draws m (fun r i => f r (ra.source i)) s
      ((s.setConverted d T (drawMap draws m f (convertLanes src T ra (s.core.mask p n)) s.core.fp.gs)).skip 4).retire :=
  setConverted_converts d draws m f ra.source fun i hi => by rw [mask_getLsbD _ _ (lt_of_lt_of_le hi (Tag.lanes_le hT))]

/-- A check of the tag of one register that the operation admits. -/
theorem checkTags_one {allow : Tag → Bool} {k : Tag → Issue} {U : Tag} (h : allow U = true) :
    checkTags [U] allow s k = k U := by
  simp [checkTags, h]

theorem convertible_of_ne_raw (h : T ≠ .raw) : T.convertible = true := by cases T <;> first | rfl | contradiction

theorem ne_b4_of_float (h : T.float.isSome = true) : T ≠ .b4 := by rintro rfl; cases h

theorem cvtTarget_eq (h : T ≠ .raw) (hb : T ≠ .b4) : cvtTarget T = true := by cases T <;> first | rfl | contradiction

/-- vcvt and vcvt.sr (R234 to R236). -/
theorem conversion_converts {always : Bool} {w : Word} {admitted : Tag → Bool} {d a t : BitVec 5} (p : BitVec 3)
    (n : BitVec 1) (ht : Tag.ofBits t = some T) (hadm : admitted T = true) (hb : T ≠ .b4)
    (ha : (s.core.vreg a).tag ≠ .raw) :
    ∃ u, conversion always w admitted d a t p n s = .next u ∧
      ConvertsTo d T (min (s.core.vreg a).tag.lanes T.lanes) (s.active p n)
        (always || (s.core.stochastic && narrowing (s.core.vreg a).tag T)) s.core.rounding
        (fun r i => convert (s.core.vreg a).tag T r ((s.core.vreg a).source i)) s u := by
  refine ⟨_, ?_, convertLanes_converts _ hb d _ _ _ _ p n⟩
  simp only [conversion, ht, hadm, Bool.not_true, Bool.false_eq_true, if_false,
    checkTags_one (convertible_of_ne_raw ha), next4_result]

/-- vcvti (R243): the integer tag of a floating tag's width has as many lanes. -/
theorem integerOf_eq (T : Tag) :
    T.integerOf = (if T = .f32 then Tag.i32 else if T = .bf16 ∨ T = .f16 then .i16 else .i8) := by
  cases T <;> rfl

theorem integerOf_lanes (h : T.float.isSome = true) : min T.lanes T.integerOf.lanes = T.integerOf.lanes := by
  cases T <;> first | rfl | cases h

theorem integerOf_ne_b4 (h : T.float.isSome = true) : T.integerOf ≠ .b4 := by
  cases T <;> simp [Tag.float, Tag.integerOf] at h ⊢

theorem vcvti_converts {d a : BitVec 5} (p : BitVec 3) (n : BitVec 1) (h : (s.core.vreg a).tag.float.isSome = true) :
    Runs (.vcvti d a p n) s (ConvertsTo d (s.core.vreg a).tag.integerOf (s.core.vreg a).tag.integerOf.lanes (s.active p n)
      false .rtz
      (fun r i => convert (s.core.vreg a).tag (s.core.vreg a).tag.integerOf r ((s.core.vreg a).source i)) s) := by
  have hc := convertLanes_converts (s := s) (s.core.vreg a).tag (integerOf_ne_b4 h) d false .rtz
    (convert (s.core.vreg a).tag (s.core.vreg a).tag.integerOf) (s.core.vreg a) p n
  rw [integerOf_lanes h] at hc
  have he : exec (.vcvti d a p n) s = execVcvti d a p n s := rfl
  refine ⟨_, ?_, hc⟩
  simp only [he, execVcvti, checkTags_one (allow := fun t => t.float.isSome) h, next4_result]

theorem scaledTarget_ne_b4 (h : scaledTarget T = true) : T ≠ .b4 := by rintro rfl; cases h

/-- vcvts (R69, R248). -/
theorem vcvts_converts {d a b : BitVec 5} (p : BitVec 3) (n : BitVec 1) {g : FloatFmt} (hd : (s.core.vreg d).tag = T)
    (hT : scaledTarget T = true) (ha : (s.core.vreg a).tag.quantisable = true) (hg : (s.core.vreg a).tag.float = some g)
    (hb : (s.core.vreg b).tag = .f32) :
    Runs (.vcvts d a b p n) s (ConvertsTo d T (min (s.core.vreg a).tag.lanes T.lanes) (s.active p n)
      (T.float.isSome && s.core.stochastic) s.core.rounding
      (fun r i =>
        let x := g.value ((s.core.vreg a).source i).2
        let q := scaleQuotient x (FloatFmt.f32.value ((s.core.vreg b).elem 32 0))
        match T.float with
        | some h => quotientToFloat g h r x q
        | none => quotientToInt T.width r q) s) := by
  have he : exec (.vcvts d a b p n) s = execVcvts d a b p n s := rfl
  subst hd
  refine ⟨_, ?_, convertLanes_converts _ (scaledTarget_ne_b4 hT) d _ _ (fun r y =>
    match (s.core.vreg d).tag.float with
    | some h => quotientToFloat g h r (g.value y.2)
        (scaleQuotient (g.value y.2) (FloatFmt.f32.value ((s.core.vreg b).elem 32 0)))
    | none => quotientToInt (s.core.vreg d).tag.width r
        (scaleQuotient (g.value y.2) (FloatFmt.f32.value ((s.core.vreg b).elem 32 0)))) _ p n⟩
  rw [he, execVcvts]
  simp only [checkTags_one ha, checkTags_one (allow := (· == .f32)) (beq_iff_eq.mpr hb), checkTags_one hT, hg,
    Option.getD_some, next4_result] <;> rfl

/-- vtag (R237): the data under another tag. -/
theorem vtag_holds {d a t : BitVec 5} (ht : Tag.ofBits t = some T) :
    Runs (.vtag d a t) s fun u => (u.core.vreg d).data = (s.core.vreg a).data ∧
      Holds d T ((s.core.vreg a).elem T.width)
        (if T = .b4 then (s.core.vreg a).scales else (s.core.vreg d).scales) u ∧
      u.core.fp = s.core.fp ∧ WritesOneVector 4 d s u := by
  have he : exec (.vtag d a t) s = execVtag d a t s := rfl
  refine ⟨s.endVec 4 d (VReg.make T (s.core.vreg a).data.toNat
    (if T = .b4 then (s.core.vreg a).scales else (s.core.vreg d).scales)) {} s.core.fp.gs, ?_, ?_,
    holds_make (endVec_vreg_same _ _ _ _ _ _) fun i _ => ?_, endVec_fp_quiet _ _ _ _, endVec_writes _ _ _ _ _ _⟩
  · simp only [he, execVtag, ht, next4_result, setVec_end]
  · rw [endVec_vreg_same]
    exact BitVec.ofNat_toNat _ _ |>.trans (BitVec.setWidth_eq _)
  · exact (Nat.mod_eq_of_lt (laneOfNat_lt _ _ _)).symm

/-- Code i of group m of a b4 register, decoded (R249). -/
def decodedCode (r : VReg) (m : BitVec 3) (i : ℕ) : ℕ :=
  (b4ToFloat .f32 .rne (r.source (16 * m.toNat + i)).1 (r.source (16 * m.toNat + i)).2).1

/-- vdq (R249): 16 codes of a b4 register, decoded. -/
theorem vdq_holds {d a : BitVec 5} (m p : BitVec 3) (n : BitVec 1) (ha : (s.core.vreg a).tag = .b4) :
    Runs (.vdq d a m p n) s fun u =>
      Holds d .f32 (fun i => if s.active p n i then decodedCode (s.core.vreg a) m i else 0) (s.core.vreg d).scales u ∧
      u.core.fp = s.core.fp ∧ WritesOneVector 4 d s u := by
  have hend : exec (.vdq d a m p n) s = .next (s.endVec 4 d (VReg.make .f32 (packLanes Tag.f32.width
      ((List.range Tag.f32.lanes).map fun i =>
        if (s.core.mask p n).getLsbD i then decodedCode (s.core.vreg a) m i else 0)) (s.core.vreg d).scales) {}
      s.core.fp.gs) := by
    rw [show exec (.vdq d a m p n) s = execVdq d a m p n s from rfl, execVdq]
    simp only [checkTags_one (allow := (· == .b4)) (beq_iff_eq.mpr ha)]
    rfl
  refine ⟨_, hend, holds_packed (endVec_vreg_same _ _ _ _ _ _) fun i hi => ?_, endVec_fp_quiet _ _ _ _,
    endVec_writes _ _ _ _ _ _⟩
  rw [mask_getLsbD _ _ (lt_of_lt_of_le hi (by decide))]

end Sys2Proof.Machine

open Sys2Proof Sys2Proof.Machine in
/-- Settles O22: a conversion packs the list that the draws run through, an element at each active lane below both counts. -/
theorem vectorConversions : Obligations.VectorConversions := by
  intro d a b t m p n s A on rm
  refine ⟨fun T ht hA => ⟨fun hr hb => ?_, fun hf => ?_⟩, fun T ht => vtag_holds ht, ?_, ?_, vdq_holds m p n⟩
  · exact conversion_converts (always := false) p n ht (cvtTarget_eq hr hb) hb hA
  · exact conversion_converts (always := true) p n ht hf (ne_b4_of_float hf) hA
  · rintro T hf rfl
    rw [← integerOf_eq]
    exact vcvti_converts p n hf
  · intro T g hd hT ha hg hb
    exact vcvts_converts p n hd hT ha hg hb

end

