-- ==== Sys2Proof/Proofs/Quantisation.lean ====
section
/-!
SUPPORT. Quantised blocks and block maxima: one block of a b4 register rewritten, the exponent of a block, and the largest
of a list; then the obligation O23.
-/
namespace Sys2Proof.Machine

variable {s : State} {T : Tag} {j k i : ℕ}

/-! ### One block of a b4 register (R40, R43) -/

/-- A code of a register of which one block was rewritten. -/
theorem elem_blockWritten (x : ℕ) (l : List ℕ) (sc : W32) (hk : k < 4) (hi : i < 32) :
    (VReg.make .b4 (setLane 128 j x (packLanes 4 l)) sc).elem 4 (32 * k + i) =
      if k = j then l.getD i 0 % 16 else laneOfNat 4 (32 * k + i) x := by
  rw [make_elem _ _ _ (by omega), ← laneOfNat_laneOfNat (w := 4) _ hi, setLane_lane]
  split_ifs
  · rw [laneOfNat_mod _ (by omega), packLanes_lane]
    rfl
  · rw [laneOfNat_laneOfNat _ hi]

/-- A scale byte after one was rewritten. -/
theorem scaleByte_written (sc : W32) (v : ℕ) (hk : k < 4) :
    scaleByte (BitVec.ofNat 32 (setLane 8 j sc.toNat v)) k = if k = j then v % 256 else scaleByte sc k := by
  rw [scaleByte_ofNat _ hk, setLane_lane]
  rfl

/-! ### Quantising (R67, R68) -/

/-- The exponent of a block is the smallest that fits every element, or 62 (R67). -/
theorem blockExponent_spec (q : ℕ) (l : List FVal) :
    blockExponent q l ≤ 62 ∧ (∀ e < blockExponent q l, ∃ x ∈ l, fitsBlock q e x = false) ∧
      (blockExponent q l < 62 → ∀ x ∈ l, fitsBlock q (blockExponent q l) x = true) := by
  have fails {e : ℕ} (h : ¬(l.all (fitsBlock q e)) = true) : ∃ x ∈ l, fitsBlock q e x = false := by simpa using h
  unfold blockExponent
  cases h : (List.range 63).find? (fun e => l.all (fitsBlock q e)) with
  | none =>
    rw [List.find?_eq_none] at h
    exact ⟨le_rfl, fun e he => fails (h e (List.mem_range.mpr (lt_trans he (by decide)))), fun hlt => absurd hlt (lt_irrefl _)⟩
  | some e =>
    rw [List.find?_range_eq_some] at h
    obtain ⟨fit, hmem, least⟩ := h
    exact ⟨Nat.le_of_lt_succ (List.mem_range.mp hmem), fun e' he => fails (by simpa using least e' he),
      fun _ x hx => List.all_eq_true.mp fit x hx⟩

/-- The elements that vqnt reads (R247). -/
def qntSource (c : Core) (a : BitVec 5) (i : ℕ) : ℕ :=
  if (c.vreg a).tag = .f32 then (if i < 16 then (c.vreg a).elem 32 i else (c.vreg (a + 1)).elem 32 (i - 16))
  else (c.vreg a).elem 16 i

theorem qntSources_eq (c : Core) (a : BitVec 5) :
    qntSources c a (c.vreg a).tag = (List.range 32).map (qntSource c a) := by
  unfold qntSources qntSource
  by_cases h : (c.vreg a).tag = .f32
  · have halves : List.range 32 = List.range 16 ++ (List.range 16).map (16 + ·) := List.range_add (n := 16) (m := 16)
    have low : (List.range 16).map (fun i => if i < 16 then (c.vreg a).elem 32 i else (c.vreg (a + 1)).elem 32 (i - 16)) =
        (c.vreg a).elems 32 16 := List.map_congr_left fun i hi => if_pos (List.mem_range.mp hi)
    simp only [h, if_true, halves, List.map_append, List.map_map, low]
    exact congrArg ((c.vreg a).elems 32 16 ++ ·) (List.map_congr_left fun i _ => by simp)
  · simp only [h, if_false]
    rfl

theorem converted_all (n : ℕ) : converted (fun _ => true) n = n := by
  simp [converted]

/-- The elements of a block as lanes that are all converted. -/
theorem quantise_lanes (x : ℕ → ℕ) (n : ℕ) :
    ((List.range n).map x).map (fun y => some (0, y)) = chosenLanes n (fun _ => true) (fun i => (0, x i)) := by
  simp [chosenLanes, Function.comp_def]

/-- Converting every lane of a block: a code where rounding does not draw, and the steps of the generator (R55). -/
theorem drawMap_block (draws : Bool) (m : Rounding) (f : Rounding → ℕ × ℕ → ℕ × FpFlags) (x : ℕ → ℕ) (n : ℕ) (gs : Word) :
    (∀ i < n, (drawMap draws m f (((List.range n).map x).map fun y => some (0, y)) gs).1.getD i 0 =
      (f (drawnRounding draws m (generatorAfter i gs)) (0, x i)).1) ∧
    (drawMap draws m f (((List.range n).map x).map fun y => some (0, y)) gs).2.2 = drawnState draws n gs := by
  rw [quantise_lanes]
  refine ⟨fun i hi => ?_, by rw [drawMap_gs, convertedIn_chosenLanes, converted_all]⟩
  rw [drawMap_getElem _ _ _ _ _ _ ((chosenLanes_length _ _ _).symm ▸ hi), drawnLane_chosenLanes, if_pos rfl, converted_all]

/-- A block with a NaN or an infinity (R67). -/
theorem quantise_special (q : ℕ) (g : FloatFmt) (draws : Bool) (m : Rounding) (x : ℕ → ℕ) (gs : Word)
    (h : ∃ i < 32, (g.value (x i)).isSpecial = true) :
    (quantise q g draws m ((List.range 32).map x) gs).1 = 0x3F ∧
      (∀ i < 32, (quantise q g draws m ((List.range 32).map x) gs).2.1.getD i 0 = 0) ∧
      (quantise q g draws m ((List.range 32).map x) gs).2.2.2 = drawnState draws 32 gs := by
  have hany : (((List.range 32).map x).map g.value).any FVal.isSpecial = true := by
    obtain ⟨i, hi, hx⟩ := h
    simp only [List.any_map, List.any_eq_true, List.mem_range]
    exact ⟨i, hi, hx⟩
  obtain ⟨lanes, state⟩ := drawMap_block draws m (fun _ _ => (0, {})) x 32 gs
  simp only [quantise, hany, if_true]
  exact ⟨trivial, lanes, state⟩

/-- A block of finite elements: its scale, its codes, its draws (R67, R68). -/
theorem quantise_finite (q : ℕ) (g : FloatFmt) (draws : Bool) (m : Rounding) (x : ℕ → ℕ) (gs : Word)
    (h : ∀ i < 32, (g.value (x i)).isSpecial = false) :
    let e := blockExponent q (((List.range 32).map x).map g.value)
    (quantise q g draws m ((List.range 32).map x) gs).1 = q * 64 + e ∧
      (∀ i < 32, (quantise q g draws m ((List.range 32).map x) gs).2.1.getD i 0 =
        (qround q (drawnRounding draws m (generatorAfter i gs)) e (g.value (x i))).1) ∧
      (quantise q g draws m ((List.range 32).map x) gs).2.2.2 = drawnState draws 32 gs := by
  intro e
  have hany : (((List.range 32).map x).map g.value).any FVal.isSpecial = false := by
    simp only [List.any_map, List.any_eq_false, List.mem_range, Function.comp_apply]
    exact fun i hi => by simp [h i hi]
  obtain ⟨lanes, state⟩ := drawMap_block draws m (fun m y => qround q m e (g.value y.2)) x 32 gs
  simp only [quantise, hany, Bool.false_eq_true, if_false]
  exact ⟨rfl, lanes, state⟩

/-- The generator takes 32 steps, or none, whatever the block holds. -/
theorem quantise_state (q : ℕ) (g : FloatFmt) (draws : Bool) (m : Rounding) (x : ℕ → ℕ) (gs : Word) :
    (quantise q g draws m ((List.range 32).map x) gs).2.2.2 = drawnState draws 32 gs := by
  by_cases h : ∃ i < 32, (g.value (x i)).isSpecial = true
  · exact (quantise_special q g draws m x gs h).2.2
  · exact (quantise_finite q g draws m x gs (by simpa using h)).2.2

/-! ### vqnt (R247) -/

/-- What vqnt of a block leaves. -/
def qntResult (s : State) (a : BitVec 5) (g : FloatFmt) : ℕ × List ℕ × FpFlags × Word :=
  quantise s.core.fp.qtype.toNat g s.core.stochastic s.core.rounding ((List.range 32).map (qntSource s.core a)) s.core.fp.gs

/-- The destination of vqnt with block j rewritten. -/
def qntWritten (r : VReg) (j : ℕ) (q : ℕ × List ℕ × FpFlags × Word) : VReg :=
  VReg.make .b4 (setLane 128 j r.data.toNat (packLanes 4 q.2.1)) (BitVec.ofNat 32 (setLane 8 j r.scales.toNat q.1))

theorem qntWritten_elem (r : VReg) (q : ℕ × List ℕ × FpFlags × Word) (hk : k < 4) (hi : i < 32) :
    (qntWritten r j q).elem 4 (32 * k + i) = if k = j then q.2.1.getD i 0 % 16 else r.elem 4 (32 * k + i) :=
  elem_blockWritten _ _ _ hk hi

theorem qntWritten_scale (r : VReg) (q : ℕ × List ℕ × FpFlags × Word) (hk : k < 4) :
    scaleByte (qntWritten r j q).scales k = if k = j then q.1 % 256 else scaleByte r.scales k :=
  scaleByte_written _ _ hk

/-- The bits of an odd register number. -/
theorem getLsbD_zero_iff (a : BitVec 5) : a.getLsbD 0 = true ↔ a.toNat % 2 = 1 := by
  rw [BitVec.getLsbD, Nat.testBit_zero, decide_eq_true_eq]

theorem exec_vqnt {d a : BitVec 5} {j : BitVec 2} {g : FloatFmt} (hq : (s.core.vreg a).tag.quantisable = true)
    (hg : (s.core.vreg a).tag.float = some g)
    (hpair : (s.core.vreg a).tag = .f32 → a.toNat % 2 = 0 ∧ (s.core.vreg (a + 1)).tag = .f32) :
    exec (.vqnt d a j) s = .next (s.endVec 4 d (qntWritten (s.core.vreg d) j.toNat (qntResult s a g))
      (qntResult s a g).2.2.1 (qntResult s a g).2.2.2) := by
  have hodd : (decide ((s.core.vreg a).tag = .f32) && a.getLsbD 0) = false := by
    by_cases h : (s.core.vreg a).tag = .f32
    · have hz : a.getLsbD 0 = false :=
        Bool.eq_false_iff.mpr fun hb => by have := (getLsbD_zero_iff a).mp hb; have := (hpair h).1; omega
      rw [hz, Bool.and_false]
    · simp [h]
  have hcheck (k : Tag → Issue) : checkTags ([(s.core.vreg a).tag] ++
      (if (s.core.vreg a).tag = .f32 then [(s.core.vreg (a + 1)).tag] else [])) Tag.quantisable s k =
      k (s.core.vreg a).tag := by
    by_cases h : (s.core.vreg a).tag = .f32
    · rw [if_pos h]
      exact checkTags_agree (regs := [a, a + 1]) (by simp)
        (List.forall_mem_cons.mpr ⟨rfl, List.forall_mem_singleton.mpr ((hpair h).2.trans h.symm)⟩) hq
    · rw [if_neg h]
      exact checkTags_one hq
  rw [show exec (.vqnt d a j) s = execVqnt d a j s from rfl, execVqnt]
  simp only [hodd, hcheck, Bool.false_eq_true, if_false, hg, Option.getD_some, qntSources_eq]
  rfl

/-- The largest of a list of numbers. -/
theorem foldl_max_spec (l : List ℕ) (a : ℕ) :
    a ≤ l.foldl max a ∧ (∀ x ∈ l, x ≤ l.foldl max a) ∧ (l.foldl max a = a ∨ l.foldl max a ∈ l) := by
  induction l generalizing a with
  | nil => simp
  | cons y r ih =>
    obtain ⟨base, upper, attained⟩ := ih (max a y)
    simp only [List.foldl_cons, List.mem_cons, forall_eq_or_imp]
    refine ⟨le_trans (le_max_left _ _) base, ⟨le_trans (le_max_right _ _) base, upper⟩, ?_⟩
    rcases attained with h | h
    · rw [h]
      rcases max_choice a y with h | h <;> simp [h]
    · exact .inr (.inr h)

/-- The active elements of a register (R249). -/
def activeElems (s : State) (a : BitVec 5) (p : BitVec 3) (n : BitVec 1) : List ℕ :=
  (List.range (s.core.vreg a).tag.lanes).filterMap fun i =>
    if (s.core.mask p n).getLsbD i then some ((s.core.vreg a).elem (s.core.vreg a).tag.width i) else none

theorem mem_activeElems {a : BitVec 5} {p : BitVec 3} {n : BitVec 1} (hb : (s.core.vreg a).tag ≠ .b4) (x : ℕ) :
    x ∈ activeElems s a p n ↔ ∃ i < (s.core.vreg a).tag.lanes, s.active p n i = true ∧
      (s.core.vreg a).elem (s.core.vreg a).tag.width i = x := by
  simp only [activeElems, List.mem_filterMap, List.mem_range]
  refine exists_congr fun i => and_congr_right fun hi => ?_
  rw [mask_getLsbD _ _ (lt_of_lt_of_le hi (Tag.lanes_le hb))]
  split_ifs with h <;> simp [h]

theorem float_width {g : FloatFmt} (hg : T.float = some g) : g.width = T.width := by
  cases T <;> cases hg <;> rfl

/-- The largest magnitude of the active elements, 0 when there is none (R249). -/
def largestActive (s : State) (a : BitVec 5) (p : BitVec 3) (n : BitVec 1) : ℕ :=
  ((activeElems s a p n).map fun x => x % 2 ^ ((s.core.vreg a).tag.width - 1)).foldl max 0

theorem nanOperand_none {g : FloatFmt} {l : List ℕ} (h : ∀ x ∈ l, (g.value x).isNaN = false) : nanOperand g l = none := by
  have hf : l.find? (fun b => (g.value b).isNaN) = none := List.find?_eq_none.mpr fun x hx => by simp [h x hx]
  rw [nanOperand, hf]

/-- barq without a NaN: the largest magnitude of the active elements in every lane (R249). -/
theorem exec_barq {d a : BitVec 5} {p : BitVec 3} {n : BitVec 1} {g : FloatFmt}
    (hq : (s.core.vreg a).tag.quantisable = true) (hg : (s.core.vreg a).tag.float = some g)
    (hn : ∀ x ∈ activeElems s a p n, (g.value x).isNaN = false) :
    exec (.barq d a p n) s = .next (s.endVec 4 d (VReg.make (s.core.vreg a).tag
      (packLanes (s.core.vreg a).tag.width (List.replicate (s.core.vreg a).tag.lanes (largestActive s a p n)))
      (s.core.vreg d).scales) {} s.core.fp.gs) := by
  have hl : largestMagnitude g (activeElems s a p n) = (largestActive s a p n, {}) := by
    rw [largestMagnitude, nanOperand_none hn, largestActive, float_width hg]
  rw [show exec (.barq d a p n) s = execBarq d a p n s from rfl, execBarq]
  simp only [checkTags_one hq, hg, Option.getD_some]
  rw [← activeElems, hl]
  rfl

end Sys2Proof.Machine

open Sys2Proof Sys2Proof.Machine in
/-- Settles O23: vqnt rewrites one block with the result of the draws along its 32 elements, and barq repeats the largest
of the active magnitudes. -/
theorem quantiseAndBlockMaximum : Obligations.QuantiseAndBlockMaximum := by
  intro d a j p n s A src
  have hj := j.isLt
  refine ⟨fun g hq hg hpair => ⟨_, exec_vqnt hq hg hpair, ?_⟩, fun hA hodd => ?_, fun g hq hg hnan => ?_⟩
  · have code (i : ℕ) (hi : i < 32) := qntWritten_elem (k := j.toNat) (j := j.toNat) (s.core.vreg d) (qntResult s a g) hj hi
    have scale := qntWritten_scale (k := j.toNat) (j := j.toNat) (s.core.vreg d) (qntResult s a g) hj
    simp only [if_true] at code scale
    simp only [endVec_vreg_same, endVec_gs]
    refine ⟨rfl, fun i hi hne => ?_, fun k hk hne => ?_, fun hspecial => ?_, fun hfinite => ?_, ?_, endVec_writes _ _ _ _ _ _⟩
    · have h := qntWritten_elem (j := j.toNat) (s.core.vreg d) (qntResult s a g) (k := i / 32) (i := i % 32) (by omega) (by omega)
      rwa [if_neg hne, Nat.div_add_mod] at h
    · rw [qntWritten_scale _ _ hk, if_neg hne]
    · obtain ⟨hscale, hcodes, -⟩ := quantise_special s.core.fp.qtype.toNat g s.core.stochastic s.core.rounding
        (qntSource s.core a) s.core.fp.gs hspecial
      exact ⟨by rw [scale, qntResult, hscale], fun i hi => by rw [code i hi, qntResult, hcodes i hi]⟩
    · obtain ⟨hscale, hcodes, -⟩ := quantise_finite s.core.fp.qtype.toNat g s.core.stochastic s.core.rounding
        (qntSource s.core a) s.core.fp.gs hfinite
      obtain ⟨hle, least, fits⟩ := blockExponent_spec s.core.fp.qtype.toNat
        (((List.range 32).map (qntSource s.core a)).map g.value)
      have hqt := s.core.fp.qtype.isLt
      simp only [List.mem_map, List.mem_range, exists_exists_and_eq_and, forall_exists_index, and_imp,
        forall_apply_eq_imp_iff₂] at least fits
      refine ⟨_, hle, ?_, least, fits, fun hst i hi => ?_⟩
      · rw [scale, qntResult, hscale]
        omega
      · rw [code i hi, qntResult, hcodes i hi, hst]
        rfl
    · rw [qntResult, quantise_state]
      rfl
  · refine ⟨wordOf (.vqnt d a j), ⟨_, _, rfl, rfl⟩, ?_⟩
    have hbit := (getLsbD_zero_iff a).mpr hodd
    rw [show exec (.vqnt d a j) s = execVqnt d a j s from rfl, execVqnt]
    simp only [show (s.core.vreg a).tag = .f32 from hA, hbit, decide_true, Bool.and_true, if_true, trap_result]
  · have hb := quantisable_ne_b4 A hq
    have hmem := mem_activeElems (s := s) (a := a) (p := p) (n := n) hb
    obtain ⟨-, upper, attained⟩ := foldl_max_spec ((activeElems s a p n).map fun x => x % 2 ^ (A.width - 1)) 0
    refine ⟨_, exec_barq hq hg fun x hx => ?_, largestActive s a p n, holds_make (endVec_vreg_same _ _ _ _ _ _)
      fun i hi => ?_, fun i hi ha => ?_, ?_, endVec_fp_quiet _ _ _ _,
      endVec_writes _ _ _ _ _ _⟩
    · obtain ⟨i, hi, ha, rfl⟩ := (hmem x).mp hx
      exact hnan i hi ha
    · rw [packLanes_lane, List.getD_replicate _ hi]
    · exact upper _ (List.mem_map_of_mem ((hmem _).mpr ⟨i, hi, ha, rfl⟩))
    · refine attained.imp id fun h => ?_
      obtain ⟨x, hx, he⟩ := List.mem_map.mp h
      obtain ⟨i, hi, ha, rfl⟩ := (hmem x).mp hx
      exact ⟨i, hi, ha, he⟩

end

