-- ==== Sys2Proof/Proofs/MatrixJobs.lean ====
section
/-!
SUPPORT. Queueing jobs of the matrix engine: what a card, a ticket and a new tag of a tile register change, once each; then
the obligation O28.
-/
namespace Sys2Proof.Machine

variable {s t : State} {k : TileCard} {d : BitVec 5} {i : Instr} {w : ℕ}

/-! ### Tags and special flags of tile registers (R44, R45) -/

theorem specialOf_scaled (l : List ℕ) (sc : List ℕ) : specialOf .b4 l sc = sc.any (fun b => b % 64 == 63) := rfl

theorem specialOf_elems {T : Tag} (h : T ≠ .b4) (l : List ℕ) (sc : List ℕ) :
    specialOf T l sc = true ↔ ∃ g, T.float = some g ∧ ∃ x ∈ l, (g.value x).isSpecial = true := by
  cases T <;> simp [specialOf, Tag.float] at h ⊢

/-- The flag that the model computes for a tile register is what R44 says of its content. -/
theorem specialUnder_iff (r : TReg) (T : Tag) : r.specialUnder T = true ↔ r.HoldsSpecial T := by
  unfold TReg.specialUnder TReg.HoldsSpecial
  simp only [List.any_eq_true, List.mem_range]
  by_cases hT : T = .b4
  · subst hT
    have e (x : Word) (j : ℕ) : field x (8 * j) 8 % 64 = field x (8 * j) 6 :=
      Nat.mod_mod_of_dvd _ (show 64 ∣ 2 ^ 8 by decide)
    simp [specialOf_scaled, e]
  · simp only [if_neg hT, specialOf_elems hT, List.mem_map, List.mem_range, exists_exists_and_eq_and]
    constructor
    · rintro ⟨i, hi, g, hg, j, hj, h⟩
      exact ⟨g, hg, i, hi, j, hj, h⟩
    · rintro ⟨g, hg, i, hi, j, hj, h⟩
      exact ⟨i, hi, g, hg, j, hj, h⟩

/-- The core with the tag that a card gives a tile register, if it gives one. -/
def Core.retagged (c : Core) : Option (BitVec 3 × Tag) → Core
  | some x => c.retag x.1 x.2
  | none => c

theorem treg_retag (c : Core) (m r : BitVec 3) (T : Tag) :
    (c.retag m T).treg r = if r = m then { c.treg r with tag := T, special := (c.treg r).specialUnder T } else c.treg r := by
  rw [Core.retag, treg_setTReg]
  split_ifs with h
  · subst h; rfl
  · rfl

/-! ### A card, with or without a ticket (R258 to R260) -/

/-- The card of the tile's next job joins the queue. -/
def State.withCard (s : State) (k : TileCard) : State :=
  { s with
    core := { s.core with eng := { s.core.eng with cards := s.core.eng.cards ++ [{ k with num := s.tile.jobNo }] } },
    tile := { s.tile with jobNo := s.tile.jobNo + 1 } }

theorem queueCard_room (h : CardRoom s) (fin : State → Issue) : queueCard k s fin = fin (s.withCard k) :=
  if_neg (Nat.not_le.mpr h)

/-- What the claims ask of a queued card, from the queue, the tile registers and the parts that change. -/
theorem queuesCard_of {m : Option (BitVec 3 × Tag)} (cards : t.core.eng.cards = s.core.eng.cards ++ [{ k with num := s.tile.jobNo }])
    (tregs : ∀ r, t.core.treg r = (s.core.retagged m).treg r) (completed : Completed s t) (only : OnlyQueues s t)
    (memory : KeepsMemory s t) : QueuesCard k m s t := by
  refine ⟨cards, fun r => ?_, ?_, completed, only, memory⟩
  · rw [tregs]
    cases m with
    | none => rfl
    | some x =>
      simp only [Core.retagged, treg_retag]
      split_ifs <;> rfl
  · rintro x rfl
    rw [tregs]
    simp only [Core.retagged, treg_retag, if_true]
    exact specialUnder_iff _ _

/-- The end of an instruction that queued a card without a ticket. -/
def State.endCard (s : State) (k : TileCard) (m : Option (BitVec 3 × Tag)) (gs : Word) : State :=
  (State.skip { s.withCard k with core := ((s.withCard k).core.retagged m).setGs gs } 4).retire

theorem endCard_queues (s : State) (k : TileCard) (m : Option (BitVec 3 × Tag)) (gs : Word) :
    QueuesUnticketed k m s (s.endCard k m gs) ∧ (s.endCard k m gs).core.fp.gs = gs := by
  refine ⟨⟨queuesCard_of ?_ (fun r => ?_) ?_ ?_ ?_, ?_, ?_⟩, ?_⟩ <;> cases m
  case refine_5.none | refine_5.some => exact ⟨fun _ => rfl, fun _ => rfl, fun _ => rfl, fun _ => rfl, rfl⟩
  case refine_3.none | refine_3.some => exact ⟨rfl, rfl⟩
  case refine_6.none | refine_6.some | refine_7.none | refine_7.some => exact ⟨rfl, rfl, rfl⟩
  all_goals rfl

/-- The trap word and the card word of an instruction of 32 bits. -/
theorem wordOf_setWidth {n : ℕ} (h : encode i = some (n, w)) : (wordOf i).setWidth 32 = BitVec.ofNat 32 w := by
  rw [wordOf, h]
  exact BitVec.setWidth_ofNat_of_le (by decide) w

/-- An instruction that queues a card without a ticket meets its statement. -/
theorem card_runs {f : W32 → TileCard} {m : Option (BitVec 3 × Tag)} {gs : Word} (hw : encode i = some (32, w))
    (he : CardRoom s → exec i s = .next (s.endCard (f ((wordOf i).setWidth 32)) m gs)) :
    CardRoom s → ∃ w, encode i = some (32, w) ∧
      Runs i s (fun t => QueuesUnticketed (f (BitVec.ofNat 32 w)) m s t ∧ t.core.fp.gs = gs) := by
  intro h
  rw [wordOf_setWidth hw] at he
  exact ⟨w, hw, _, he h, endCard_queues _ _ _ _⟩

theorem housekeeping_room (h : CardRoom s) (m : BitVec 3) (T : Tag) :
    (housekeeping k m T s).result = .next (s.endCard k (some (m, T)) s.core.fp.gs) := by
  rw [housekeeping, queueCard_room h]
  rfl

/-! ### mma (R259, R270, R271, R275) -/

theorem WritesScalar.of_scalars {v : Word} {c e f : Core} (h : WritesScalar d v c e) (hk : KeepsScalars e f)
    (hw : f.win = e.win) (ht : f.trap = e.trap) : WritesScalar d v c f := by
  obtain ⟨hg, hf, hx⟩ := hk
  have cell (p : ScalarCell) : f.cell p = e.cell p := by cases p <;> simp [Core.cell, hg, hf, hx]
  have reg (r : BitVec 5) : f.reg r = e.reg r := by simp [Core.reg, Core.inTrap, hg, hf, hx, hw, ht]
  exact ⟨fun r => (reg r).trans (h.reads r), fun p hp => (cell p).trans (h.written p hp),
    fun p hp hn => (cell p).trans (h.others p hp hn)⟩

/-- A write of a scalar register and the engine's fields are apart. -/
theorem setReg_eng (c : Core) (e : Engine) (d : BitVec 5) (v : Word) :
    ({ c with eng := e } : Core).setReg d v = { c.setReg d v with eng := e } := by
  unfold Core.setReg Core.inTrap
  split_ifs <;> rfl

/-- The engine of a core that gave a ticket for a card. -/
def Engine.ticketed (e : Engine) (k : TileCard) : Engine :=
  { e with
    cards := e.cards ++ [k], slots := vset e.slots (e.mseq.toNat % 16) { seq := e.mseq, state := 1 }, mseq := e.mseq + 1 }

/-- The end of an mma of a card: the ticket in xd, the accumulator's tag, and PERTURB without its enable bit. -/
def State.endTicketed (s : State) (k : TileCard) (c : BitVec 3) (T : Tag) (d : BitVec 5) : State :=
  let e := s.core.eng.ticketed { k with num := s.tile.jobNo, seq := some s.core.eng.mseq }
  let x := Core.retag { s.core.setReg d (ticket .matrix s.coreNo s.core.eng.mseq) with
    eng := e, pc := s.core.pc + 4 } c T
  State.retire { s with
    core := { x with eng := { x.eng with perturb := x.eng.perturb &&& 0x7FFFFFFFFFFFFFFF } },
    tile := { s.tile with jobNo := s.tile.jobNo + 1 } }

theorem queueTicketed_room (h : TicketRoom s) : queueTicketed d k s = .done { s with
    core := { s.core.setReg d (ticket .matrix s.coreNo s.core.eng.mseq) with
      eng := s.core.eng.ticketed { k with num := s.tile.jobNo, seq := some s.core.eng.mseq }, pc := s.core.pc + 4 },
    tile := { s.tile with jobNo := s.tile.jobNo + 1 } } := by
  obtain ⟨room, free⟩ := h
  rw [queueTicketed, if_neg (show ¬(s.core.slotOf .matrix s.core.eng.mseq).state = 1 from free), queueCard_room room]
  simp only [State.next4, State.skip, State.setPc, State.setReg, Core.takeSlot, Core.setSlot, Core.setSlots, Core.slotsOf,
    State.withCard, setReg_eng, core_setReg_pc]
  rfl

theorem perturb_disarmed (p : Word) (j : ℕ) :
    (p &&& 0x7FFFFFFFFFFFFFFF).getLsbD j = (p.getLsbD j && decide (j < 63)) := by
  have h : (0x7FFFFFFFFFFFFFFF : Word).getLsbD j = decide (j < 63) := by
    rw [show (0x7FFFFFFFFFFFFFFF : Word) = BitVec.ofNat 64 (2 ^ 63 - 1) from rfl, BitVec.getLsbD_ofNat,
      Nat.testBit_two_pow_sub_one]
    by_cases hj : j < 63
    · simp [hj, show j < 64 by omega]
    · simp [hj]
  rw [BitVec.getLsbD_and, h]

theorem setReg_tregs (c : Core) (d : BitVec 5) (v : Word) : (c.setReg d v).regs.tregs = c.regs.tregs := by
  unfold Core.setReg
  split_ifs <;> rfl

theorem endTicketed_only (s : State) (k : TileCard) (c : BitVec 3) (T : Tag) (d : BitVec 5) :
    OnlyQueues s (s.endTicketed k c T d) := by
  unfold OnlyQueues State.endTicketed Core.setReg
  split_ifs <;> rfl

theorem endTicketed_queues (s : State) (k : TileCard) (c : BitVec 3) (T : Tag) (d : BitVec 5) :
    QueuesTicketed k (some (c, T)) d s (s.endTicketed k c T d) where
  queued := by
    refine queuesCard_of rfl (fun r => ?_) ⟨rfl, ?_⟩ (endTicketed_only s k c T d)
      ⟨fun _ => rfl, fun _ => rfl, fun _ => rfl, fun _ => rfl, rfl⟩
    · have same (r : BitVec 3) : (s.core.setReg d (ticket .matrix s.coreNo s.core.eng.mseq)).treg r = s.core.treg r := by
        rw [Core.treg, setReg_tregs]; rfl
      exact (treg_retag _ c r T).trans ((treg_retag s.core c r T) ▸ by rw [← same]; rfl)
    · exact congrArg (· + 1) (core_setReg_retired s.core d _)
  mseq := rfl
  slots j hj := by
    refine (vget_vset _ _ _ _ _).trans (if_congr ?_ rfl rfl)
    constructor
    · exact fun h => h.1.symm
    · exact fun h => ⟨h.symm, by omega⟩
  ticket := (setReg_writes s.core d (ticket .matrix s.coreNo s.core.eng.mseq)).of_scalars ⟨rfl, rfl, rfl⟩ rfl rfl

section
variable {zero neg : Bool} {c a b : BitVec 3}

theorem mmaInput_iff (T : Tag) : mmaInput T = true ↔ T ∈ [Tag.bf16, .f16, .e4m3, .e5m2, .i8, .b4] := by
  cases T <;> decide

/-- The card of an mma. -/
def mmaCard (s : State) (zero neg : Bool) (c a b : BitVec 3) (word : W32) : TileCard :=
  { num := 0, job := .mma c a b zero neg, word := word,
    perturb := if s.core.eng.perturb.getLsbD 63 then s.core.eng.perturb else 0, srcTag := (s.core.treg a).tag,
    dstTag := accumulatorTag (s.core.treg a).tag }

theorem multiply_queues (w : Word) (ha : c ≠ a) (hb : c ≠ b) (hin : mmaInput (s.core.treg a).tag = true)
    (hB : (s.core.treg b).tag = (s.core.treg a).tag)
    (hC : zero = false → (s.core.treg c).tag = accumulatorTag (s.core.treg a).tag) (room : TicketRoom s) :
    multiply zero neg w c a b d s = .next (s.endTicketed (mmaCard s zero neg c a b (w.setWidth 32)) c
      (accumulatorTag (s.core.treg a).tag) d) := by
  have hz : (!zero && (s.core.treg c).tag != accumulatorTag (s.core.treg a).tag) = false := by
    cases zero
    · simp [hC rfl]
    · rfl
  rw [multiply]
  simp only [ha, hb, hin, hB, hz, or_self, if_false, Bool.not_true, Bool.false_eq_true, ne_eq, not_true_eq_false,
    queueTicketed_room room]
  rfl

theorem multiply_overlap (w : Word) (h : c = a ∨ c = b) :
    multiply zero neg w c a b d s = .next (takeTrap 1 w s) := by
  rw [multiply]
  simp only [h, if_true, trap_result]

theorem multiply_barred (w : Word) (h : ¬(c = a ∨ c = b)) (hin : mmaInput (s.core.treg a).tag = false) :
    multiply zero neg w c a b d s =
      .next (takeTrap 6 (mismatchVal (s.core.treg a).tag (s.core.treg a).tag true) s) := by
  rw [multiply]
  simp only [h, if_false, hin, Bool.not_false, if_true, trap_result]

theorem multiply_disagree (w : Word) (h : ¬(c = a ∨ c = b)) (hin : mmaInput (s.core.treg a).tag = true)
    (hB : (s.core.treg b).tag ≠ (s.core.treg a).tag) : multiply zero neg w c a b d s =
      .next (takeTrap 6 (mismatchVal (s.core.treg a).tag (s.core.treg b).tag false) s) := by
  rw [multiply]
  simp only [h, if_false, hin, Bool.not_true, Bool.false_eq_true, hB, ne_eq, not_false_eq_true, if_true, trap_result]

theorem multiply_wrongSum (w : Word) (h : ¬(c = a ∨ c = b)) (hin : mmaInput (s.core.treg a).tag = true)
    (hB : (s.core.treg b).tag = (s.core.treg a).tag)
    (hC : (s.core.treg c).tag ≠ accumulatorTag (s.core.treg a).tag) : multiply false neg w c a b d s =
      .next (takeTrap 6 (mismatchVal (s.core.treg a).tag (s.core.treg c).tag true) s) := by
  rw [multiply]
  simp only [h, if_false, hin, Bool.not_true, Bool.not_false, Bool.false_eq_true, hB, ne_eq, not_true_eq_false,
    Bool.true_and, bne_iff_ne.mpr hC, if_true, trap_result]

end

/-! ### Housekeeping (R276 to R279) -/

theorem hasWord_of_encode {n : ℕ} (h : encode i = some (n, w)) : HasWord i (wordOf i) :=
  ⟨n, w, h, by rw [wordOf, h]⟩

/-- A tag trap of the model is one of the statements. -/
theorem trapsOnTags_of {T U : Tag} {wrong : Bool} (h : exec i s = .next (takeTrap 6 (mismatchVal T U wrong) s)) :
    TrapsOnTags i T U wrong s := h

theorem tcvtTarget_iff (T : Tag) : tcvtTarget T = true ↔ T ∉ [Tag.raw, .b4, .n32, .n16, .n8] := by
  cases T <;> decide

theorem drawSteps_eq (n : ℕ) (gs : Word) : drawSteps n gs = generatorAfter n gs := by
  induction n generalizing gs with
  | zero => rfl
  | succ n ih => exact ih _

/-- The cards of the housekeeping instructions, by their words (R276 to R279). -/
def tzeroCard (m : BitVec 3) (T : Tag) (word : W32) : TileCard := { num := 0, job := .tzero m, word := word, dstTag := T }

def tcvtCard (s : State) (m a : BitVec 3) (T : Tag) (word : W32) : TileCard :=
  { num := 0, job := .tcvt m a, word := word, shape := s.core.tshape m, srcTag := (s.core.treg a).tag, dstTag := T,
    frm := s.core.fp.frm, gs := s.core.fp.gs }

/-- A job that keeps the tag of its source: tmov, ttr and tadd. -/
def sameTagCard (s : State) (job : TileJob) (a : BitVec 3) (word : W32) : TileCard :=
  { num := 0, job := job, word := word, srcTag := (s.core.treg a).tag, dstTag := (s.core.treg a).tag }

def trowvCard (s : State) (a : BitVec 3) (x v : BitVec 5) (word : W32) : TileCard :=
  { num := 0, job := .trowv a v, word := word, base := s.reg x, srcTag := (s.core.treg a).tag }

def tvrowCard (s : State) (m : BitVec 3) (x v : BitVec 5) (word : W32) : TileCard :=
  { num := 0, job := .tvrow m v, word := word, base := s.reg x, srcTag := (s.core.treg m).tag,
    dstTag := (s.core.treg m).tag, vec := s.core.vreg v }

/-- A check of two tags that agree, and of two that do not. -/
theorem checkTags_pair {allow : Tag → Bool} {f : Tag → Issue} {T U : Tag} (h : allow T = true) (hU : U = T) :
    checkTags [T, U] allow s f = f T := by
  simp [checkTags, h, hU]

theorem checkTags_pair_disagree {allow : Tag → Bool} {f : Tag → Issue} {T U : Tag} (h : allow T = true) (hU : U ≠ T) :
    checkTags [T, U] allow s f = .trap 6 (mismatchVal T U false) s := by
  simp [checkTags, h, hU]

section
variable {m a b : BitVec 3} {T : Tag}

theorem shapeFmt_eq (h : ShapeIs m T s) : shapeFmt (s.core.tshape m) = some T := h

theorem shapeFmt_none (h : ∀ F, ¬ShapeIs m F s) : shapeFmt (s.core.tshape m) = none := by
  cases e : shapeFmt (s.core.tshape m) with
  | none => rfl
  | some F => exact absurd e (h F)

theorem exec_tzero (h : ShapeIs m T s) (room : CardRoom s) : exec (.tzero m) s =
    .next (s.endCard (tzeroCard m T ((wordOf (.tzero m)).setWidth 32)) (some (m, T)) s.core.fp.gs) := by
  rw [show exec (.tzero m) s = execTzero m s from rfl, execTzero, shapeFmt_eq h]
  exact housekeeping_room room m T

theorem exec_tcvt (h : ShapeIs m T s) (hT : tcvtTarget T = true) (hA : (s.core.treg a).tag ≠ .raw) (room : CardRoom s) :
    exec (.tcvt m a) s = .next (s.endCard (tcvtCard s m a T ((wordOf (.tcvt m a)).setWidth 32)) (some (m, T))
      (if s.core.stochastic && narrowing (s.core.treg a).tag T then
        generatorAfter (shapeRows (s.core.tshape m) * min (s.core.treg a).tag.rowLanes T.rowLanes) s.core.fp.gs
      else s.core.fp.gs)) := by
  rw [show exec (.tcvt m a) s = execTcvt m a s from rfl, execTcvt]
  simp only [shapeFmt_eq h, hT, Bool.not_true, Bool.false_eq_true, if_false, checkTags_one (convertible_of_ne_raw hA),
    queueCard_room room, drawSteps_eq]
  split_ifs <;> rfl

theorem exec_tadd (hA : (s.core.treg a).tag = .f32 ∨ (s.core.treg a).tag = .i32)
    (hB : (s.core.treg b).tag = (s.core.treg a).tag) (room : CardRoom s) : exec (.tadd m a b) s =
    .next (s.endCard (sameTagCard s (.tadd m a b) a ((wordOf (.tadd m a b)).setWidth 32)) (some (m, (s.core.treg a).tag))
      s.core.fp.gs) := by
  rw [show exec (.tadd m a b) s = execTadd m a b s from rfl, execTadd]
  have hA' : ((s.core.treg a).tag == .f32 || (s.core.treg a).tag == .i32) = true := by simpa using hA
  rw [checkTags_pair hA' hB]
  exact housekeeping_room room m _

theorem exec_ttr (hA : (s.core.treg a).tag ≠ .b4) (room : CardRoom s) : exec (.ttr m a) s =
    .next (s.endCard (sameTagCard s (.ttr m a) a ((wordOf (.ttr m a)).setWidth 32)) (some (m, (s.core.treg a).tag))
      s.core.fp.gs) := by
  rw [show exec (.ttr m a) s = execTtr m a s from rfl, execTtr, checkTags_one (allow := (· != .b4)) (bne_iff_ne.mpr hA)]
  exact housekeeping_room room m _

theorem exec_trowv {x v : BitVec 5} (room : CardRoom s) : exec (.trowv a x v) s =
    .next (s.endCard (trowvCard s a x v ((wordOf (.trowv a x v)).setWidth 32)) none s.core.fp.gs) := by
  rw [show exec (.trowv a x v) s = execTrowv a x v s from rfl, execTrowv, queueCard_room room]
  rfl

theorem exec_tvrow {x v : BitVec 5} (h : (s.core.vreg v).tag = (s.core.treg m).tag) (room : CardRoom s) :
    exec (.tvrow m x v) s =
      .next (s.endCard (tvrowCard s m x v ((wordOf (.tvrow m x v)).setWidth 32)) none s.core.fp.gs) := by
  rw [show exec (.tvrow m x v) s = execTvrow m x v s from rfl, execTvrow]
  simp only [h, checkTags_pair (allow := anyTag) rfl rfl, queueCard_room room]
  rfl

/-! ### Where they trap (R47, R48) -/

theorem tzero_reserved (h : shapeFmt (s.core.tshape m) = none) :
    exec (.tzero m) s = .next (takeTrap 1 (wordOf (.tzero m)) s) := by
  rw [show exec (.tzero m) s = execTzero m s from rfl, execTzero, h]
  rfl

theorem tcvt_reserved (h : shapeFmt (s.core.tshape m) = none) :
    exec (.tcvt m a) s = .next (takeTrap 1 (wordOf (.tcvt m a)) s) := by
  rw [show exec (.tcvt m a) s = execTcvt m a s from rfl, execTcvt]
  simp only [h, trap_result]

theorem tcvt_target (h : ShapeIs m T s) (hT : tcvtTarget T = false) :
    exec (.tcvt m a) s = .next (takeTrap 6 (mismatchVal T T true) s) := by
  rw [show exec (.tcvt m a) s = execTcvt m a s from rfl, execTcvt]
  simp only [shapeFmt_eq h, hT, Bool.not_false, if_true, trap_result]

theorem tcvt_raw (h : ShapeIs m T s) (hT : tcvtTarget T = true) (hA : (s.core.treg a).tag = .raw) : exec (.tcvt m a) s =
    .next (takeTrap 6 (mismatchVal (s.core.treg a).tag (s.core.treg a).tag true) s) := by
  rw [show exec (.tcvt m a) s = execTcvt m a s from rfl, execTcvt]
  simp only [shapeFmt_eq h, hT, Bool.not_true, Bool.false_eq_true, if_false, hA]
  rfl

theorem ttr_b4 (hA : (s.core.treg a).tag = .b4) : exec (.ttr m a) s =
    .next (takeTrap 6 (mismatchVal (s.core.treg a).tag (s.core.treg a).tag true) s) := by
  rw [show exec (.ttr m a) s = execTtr m a s from rfl, execTtr, hA]
  rfl

theorem tadd_barred (hf : (s.core.treg a).tag ≠ .f32) (hi : (s.core.treg a).tag ≠ .i32) : exec (.tadd m a b) s =
    .next (takeTrap 6 (mismatchVal (s.core.treg a).tag (s.core.treg a).tag true) s) := by
  have hno : ((s.core.treg a).tag == .f32 || (s.core.treg a).tag == .i32) = false := by simp [hf, hi]
  rw [show exec (.tadd m a b) s = execTadd m a b s from rfl, execTadd]
  simp only [checkTags, hno, Bool.not_false, if_true, trap_result]

theorem tadd_disagree (hA : (s.core.treg a).tag = .f32 ∨ (s.core.treg a).tag = .i32)
    (hB : (s.core.treg b).tag ≠ (s.core.treg a).tag) : exec (.tadd m a b) s =
    .next (takeTrap 6 (mismatchVal (s.core.treg a).tag (s.core.treg b).tag false) s) := by
  have hA' : ((s.core.treg a).tag == .f32 || (s.core.treg a).tag == .i32) = true := by simpa using hA
  rw [show exec (.tadd m a b) s = execTadd m a b s from rfl, execTadd, checkTags_pair_disagree hA' hB]
  rfl

theorem tvrow_disagree {x v : BitVec 5} (h : (s.core.vreg v).tag ≠ (s.core.treg m).tag) : exec (.tvrow m x v) s =
    .next (takeTrap 6 (mismatchVal (s.core.vreg v).tag (s.core.treg m).tag false) s) := by
  rw [show exec (.tvrow m x v) s = execTvrow m x v s from rfl, execTvrow]
  simp only [checkTags_pair_disagree (allow := anyTag) rfl h.symm, trap_result]

end

end Sys2Proof.Machine

open Sys2Proof Sys2Proof.Machine in
/-- Settles O28: with room the checks of an instruction leave one card in the queue; the tags decide which trap it is
otherwise. -/
theorem matrixJobsQueue : Obligations.MatrixJobsQueue := by
  constructor
  · intro c a b d s A B C sum input p F hF
    obtain ⟨i, zero, neg⟩ := F
    obtain ⟨w, hw, he⟩ : ∃ w, encode i = some (32, w) ∧ exec i s = multiply zero neg (wordOf i) c a b d s := by
      simp only [List.mem_cons, Prod.mk.injEq, List.not_mem_nil, or_false] at hF
      obtain ⟨rfl, rfl, rfl⟩ | ⟨rfl, rfl, rfl⟩ | ⟨rfl, rfl, rfl⟩ | ⟨rfl, rfl, rfl⟩ := hF <;> exact ⟨_, rfl, rfl⟩
    have apart (ha : c ≠ a) (hb : c ≠ b) : ¬(c = a ∨ c = b) := not_or.mpr ⟨ha, hb⟩
    have barred (hin : ¬input) : mmaInput A = false := Bool.eq_false_iff.mpr (mt (mmaInput_iff A).mp hin)
    refine ⟨fun ha hb hin hB hC room => ?_, fun h => ?_, fun ha hb hin => ?_, fun ha hb hin hB => ?_,
      fun ha hb hin hB hz hC => ?_⟩
    · refine ⟨w, hw, _, he.trans (multiply_queues (wordOf i) ha hb ((mmaInput_iff A).mpr hin) hB hC room), ?_⟩
      rw [wordOf_setWidth hw]
      refine ⟨endTicketed_queues _ _ _ _ _, fun k hk => ?_, ?_⟩
      · exact (perturb_disarmed p k).trans (by simp [hk])
      · exact (perturb_disarmed p 63).trans (by simp)
    · exact ⟨_, hasWord_of_encode hw, he.trans (multiply_overlap _ h)⟩
    · exact he.trans (multiply_barred _ (apart ha hb) (barred hin))
    · exact he.trans (multiply_disagree _ (apart ha hb) ((mmaInput_iff A).mpr hin) hB)
    · obtain rfl : zero = false := hz
      exact he.trans (multiply_wrongSum _ (apart ha hb) ((mmaInput_iff A).mpr hin) hB hC)
  · intro d a b x v s A B D card same
    refine ⟨fun F hF => ⟨card_runs (i := .tzero d) (f := tzeroCard d F) rfl (exec_tzero hF), fun hT hA => ?_,
        fun hT => ?_, fun hT hA => ?_⟩, fun hF => ⟨?_, ?_⟩,
      card_runs (i := .tmov d a) (f := sameTagCard s (.tmov d a) a) rfl fun room => housekeeping_room room d A,
      fun hA => ?_, fun hA => ?_, fun hA hB => ?_, fun hf hi => ?_,
      fun hA hB => ?_, card_runs (i := .trowv a x v) (f := trowvCard s a x v) rfl exec_trowv, fun h => ?_, fun h => ?_⟩
    · exact card_runs (i := .tcvt d a) (f := tcvtCard s d a F) rfl (exec_tcvt hF ((tcvtTarget_iff F).mpr hT) hA)
    · have hno : tcvtTarget F = false := Bool.eq_false_iff.mpr fun h => (tcvtTarget_iff F).mp h hT
      exact trapsOnTags_of (tcvt_target hF hno)
    · exact trapsOnTags_of (tcvt_raw hF ((tcvtTarget_iff F).mpr hT) hA)
    · exact ⟨_, hasWord_of_encode rfl, tzero_reserved (shapeFmt_none hF)⟩
    · exact ⟨_, hasWord_of_encode rfl, tcvt_reserved (shapeFmt_none hF)⟩
    · exact card_runs (i := .ttr d a) (f := sameTagCard s (.ttr d a) a) rfl (exec_ttr hA)
    · exact trapsOnTags_of (ttr_b4 hA)
    · exact card_runs (i := .tadd d a b) (f := sameTagCard s (.tadd d a b) a) rfl (exec_tadd hA hB)
    · exact trapsOnTags_of (tadd_barred hf hi)
    · exact trapsOnTags_of (tadd_disagree hA hB)
    · exact card_runs (i := .tvrow d x v) (f := tvrowCard s d x v) rfl (exec_tvrow h)
    · exact trapsOnTags_of (tvrow_disagree h)

end

