-- ==== Sys2Proof/Proofs/ResetValues.lean ====
section
/-!
SUPPORT. The machine right after reset: memories laid out from words are canonical and end where the words end; then the
obligation O56.
-/
namespace Sys2Proof.Machine

variable {a lo : ℕ} {l : List ℕ}

/-! ### Words laid out as cells -/

/-- The cell of a byte, if it is not zero, before cells of higher addresses. -/
theorem wfFrom_filter_cons (v : Byte) (m : Memory) (h : m.wfFrom (a + 1) = true) :
    Memory.wfFrom a ([(a, v)].filter (fun c => c.2 != 0) ++ m) = true := by
  by_cases hv : v = 0#8
  · simpa [hv] using wfFrom_mono h (Nat.le_succ a)
  · simp [hv, Memory.wfFrom, h]

/-- Words laid out from an address are a canonical memory. -/
theorem wordCells_wfFrom (a : ℕ) (l : List ℕ) : Memory.wfFrom a (wordCells a l) = true := by
  induction l generalizing a with
  | nil => rfl
  | cons w r ih =>
    have split (x y z u : Host.Cell) : [x, y, z, u].filter (fun c => c.2 != 0) ++ wordCells (a + 4) r =
        [x].filter (fun c => c.2 != 0) ++ ([y].filter (fun c => c.2 != 0) ++
          ([z].filter (fun c => c.2 != 0) ++ ([u].filter (fun c => c.2 != 0) ++ wordCells (a + 4) r))) := by
      rw [show [x, y, z, u] = [x] ++ [y] ++ [z] ++ [u] from rfl]
      simp only [List.filter_append, List.append_assoc]
    rw [wordCells, split]
    exact wfFrom_filter_cons _ _ (wfFrom_filter_cons _ _ (wfFrom_filter_cons _ _ (wfFrom_filter_cons _ _ (ih (a + 4)))))

/-- Beyond its last cell a memory reads zero. -/
theorem read_beyond {m : Memory} {b : ℕ} (h : ∀ c ∈ m, c.1 < b) : m.read b = 0 := by
  induction m with
  | nil => rfl
  | cons c r ih =>
    obtain ⟨hc, hr⟩ := List.forall_mem_cons.mp h
    rw [Memory.read, if_neg (Nat.ne_of_lt hc), ih hr]

theorem wordCells_below (a : ℕ) (l : List ℕ) : ∀ c ∈ wordCells a l, c.1 < a + 4 * l.length := by
  induction l generalizing a with
  | nil => simp [wordCells]
  | cons w r ih =>
    intro c hc
    rw [wordCells, List.mem_append, List.mem_filter] at hc
    rw [List.length_cons]
    rcases hc with ⟨hc, -⟩ | hc
    · simp only [List.mem_cons, List.not_mem_nil, or_false] at hc
      obtain rfl | rfl | rfl | rfl := hc <;> dsimp only <;> omega
    · have := ih (a + 4) c hc
      omega

/-! ### The state after reset (R456, R457) -/

theorem bootRom_wf : Memory.wf bootRom = true := wordCells_wfFrom 0 bootWords

theorem bootRom_beyond (h : 0x2000 ≤ a) : Memory.read bootRom a = 0 :=
  read_beyond fun c hc => lt_of_lt_of_le (wordCells_below 0 bootWords c hc) (le_trans (by decide) h)

theorem reset_canonical : State.reset.canonical = true := by
  have h : State.reset.memories = [bootRom, [], [], [], [], [], []] := rfl
  rw [State.canonical, h]
  simpa [Memory.wf, Memory.wfFrom] using bootRom_wf

theorem bootRom_first : Memory.readNat bootRom 0 4 = 0x00260095 := by decide +kernel

theorem reset_others {k : CoreId} (h : k ≠ 0) : State.reset.coreAt k = {} := if_neg h

end Sys2Proof.Machine

open Sys2Proof Sys2Proof.Machine in
/-- Settles O56: the registers are the defaults of the boot corner's records, and its scratchpad is laid out from the words
of the boot ROM. -/
theorem resetState : Obligations.ResetState := by
  refine ⟨reset_canonical, rfl, rfl, rfl, rfl, rfl, fun k hk => by rw [reset_others hk], rfl, rfl, rfl, rfl, rfl, rfl, rfl, rfl,
    rfl, rfl, fun k hk => ?_, ?_, fun k hk => ?_, rfl, fun a ha => bootRom_beyond ha, bootRom_first, rfl, rfl, rfl, rfl⟩
  · interval_cases k <;> rfl
  · simp only [List.forall_mem_cons, List.not_mem_nil, false_imp_iff, implies_true, and_true]
    exact ⟨rfl, rfl, rfl, rfl, rfl, rfl, rfl, rfl, rfl, rfl, rfl, rfl, rfl, rfl, rfl, rfl, rfl, rfl, rfl⟩
  · interval_cases k <;> exact ⟨rfl, rfl⟩

end

