-- ==== Sys2Proof/Proofs/RegisterEffects.lean ====
section
/-!
SUPPORT. Writes of control registers that do more than hold their fields: the boot registers, the error banks, and
the registers that are their fields.
-/
namespace Sys2Proof.Machine

variable {s : State} {n m : ℕ} {v w : Word}

/-! ### A write that is done at once -/

/-- A write of a register meets its claim when the stored state does, at once and at the end of an mtc. -/
theorem writesRegister_of {es : List (Word → Instr)} {when_ : Word → Prop} {post : Word → State → Prop}
    (hn : n < 4096) (h9 : n ≠ 0x009) (h58 : n ≠ 0x058) (hevc : ¬(0x048 ≤ n ∧ n ≤ 0x04F))
    (he : ∀ e ∈ es, ∀ v, when_ v → exec (e v) s = .next (s.cregStore n v))
    (hs : ∀ v, when_ v → OnlyRegister s (s.cregStore n v))
    (hp : ∀ v, when_ v → post v (s.cregStore n v) ∧ post v ((s.cregStore n v).skip 4).retire) :
    WritesRegister n es when_ post s := by
  have hnum : (BitVec.ofNat 12 n).toNat = n := by rw [BitVec.toNat_ofNat]; exact Nat.mod_eq_of_lt hn
  refine ⟨fun x a ha hw hv => ?_, fun e hmem v hv => ?_⟩
  · obtain ⟨hpc, hret, hregs, hmem, hwafer⟩ := hs _ hv
    have hx := execMtc_store (s := s) (x := x) (c := BitVec.ofNat 12 n) (hnum.symm ▸ ha) hw
      (fun h => absurd (hnum ▸ h) h9) (hnum.symm ▸ h58) (hnum.symm ▸ hevc)
    rw [hnum] at hx
    refine ⟨_, hx, (hp _ hv).2, ⟨congrArg (· + 4) hpc, congrArg (· + 1) hret⟩, hregs, ?_⟩
    constructor <;> simp [hmem, hwafer]
  · obtain ⟨hpc, hret, hregs, hm, hwafer⟩ := hs v hv
    refine ⟨_, he e hmem v hv, (hp v hv).1, hpc, hret, hregs, ?_⟩
    constructor <;> simp [hm, hwafer]

/-- The registers outside a list read as before. -/
def KeepsRegisters (l : List ℕ) (s u : State) : Prop := ∀ m < 4096, m ∉ l → u.cregValue m = s.cregValue m

/-! ### SRSEED, PTBASE, CKCTL (R56, R143, R409) -/

theorem cregValue_setCkctl (hm : m ≠ 0x140) :
    State.cregValue { s with tile := { s.tile with ckctl := w } } m = s.cregValue m := by
  unfold State.cregValue
  split <;> first | contradiction | rfl

/-- The bits of CKCTL that hold a field. -/
theorem ckctl_mask : ∀ i < 64, (0x0000FFFF1FFF001F : Word).getLsbD i =
    if i < 32 then if i < 16 then decide (i < 5) else decide (i - 16 < 13) else decide (i - 32 < 16) := by
  decide

/-- A bit set below the width of its value stands for a value below the power. -/
theorem testBit_and_not_below {a k i : ℕ} (h : a < 2 ^ k) : (a.testBit i && !decide (i < k)) = false := by
  by_cases hi : i < k
  · simp [hi]
  · rw [Nat.testBit_lt_two_pow (h.trans_le (Nat.pow_le_pow_right (by decide) (Nat.le_of_not_lt hi)))]
    rfl

/-- Three fields packed at their places have no bit elsewhere. -/
theorem ckctl_packed {a b c : ℕ} (ha : a < 2 ^ 16) (hb : b < 2 ^ 13) (hc : c < 2 ^ 5) :
    BitVec.ofNat 64 (a * 2 ^ 32 + b * 2 ^ 16 + c) &&& ~~~0x0000FFFF1FFF001F = (0 : Word) := by
  refine BitVec.eq_of_getLsbD_eq fun i hi => Eq.trans ?_ BitVec.getLsbD_zero.symm
  have hlow : b * 2 ^ 16 + c < 2 ^ 32 := by omega
  rw [BitVec.getLsbD_and, BitVec.getLsbD_not, ckctl_mask i hi, BitVec.getLsbD_ofNat, Nat.add_assoc, Nat.mul_comm a,
    Nat.testBit_two_pow_mul_add _ hlow, Nat.mul_comm b, Nat.testBit_two_pow_mul_add _ (hc.trans (by decide))]
  simp only [hi, decide_true, Bool.true_and]
  split_ifs
  · exact testBit_and_not_below hc
  · exact testBit_and_not_below hb
  · exact testBit_and_not_below ha

/-- CKCTL holds its clamped fields and nothing else (R409). -/
theorem storedCkctl_fields (v : Word) :
    field (storedCkctl v) 32 16 = max 1 (field v 32 16) ∧
      field (storedCkctl v) 16 13 = max 256 (min 4096 (field v 16 13)) ∧
      field (storedCkctl v) 0 5 = max 12 (min 30 (field v 0 5)) ∧ storedCkctl v &&& ~~~0x0000FFFF1FFF001F = 0 := by
  have hi : field v 32 16 < 2 ^ 16 := Nat.mod_lt _ (by decide)
  have hv : (storedCkctl v).toNat =
      (max 1 (field v 32 16) * 2 ^ 32 + max 256 (min 4096 (field v 16 13)) * 2 ^ 16 + max 12 (min 30 (field v 0 5))) := by
    rw [storedCkctl, BitVec.toNat_ofNat]
    exact Nat.mod_eq_of_lt (by simp only [clamp]; omega)
  refine ⟨?_, ?_, ?_, ?_⟩
  · simp only [field, hv] at *; omega
  · simp only [field, hv] at *; omega
  · simp only [field, hv] at *; omega
  · exact ckctl_packed (by omega) (by simp only [clamp]; omega) (by simp only [clamp]; omega)

/-! ### ERRDATA (R438) -/

theorem cregValue_banks (a b : Vector ErrRec 4) (hm : m ≠ 0x151) :
    State.cregValue { s with tile := { s.tile with bank := a }, junction := { s.junction with bank := b } } m =
      s.cregValue m := by
  unfold State.cregValue
  split <;> first | contradiction | rfl

/-- Clearing the selected record: the bank that ERRSEL selects loses it. -/
theorem clearErrorRecord_eq (s : State) : clearErrorRecord s = { s with
    tile := { s.tile with
      bank := if s.core.errsel.getLsbD 4 then s.tile.bank else vset s.tile.bank (field s.core.errsel 2 2) {} },
    junction := { s.junction with
      bank := if s.core.errsel.getLsbD 4 then vset s.junction.bank (field s.core.errsel 2 2) {} else s.junction.bank } } := by
  unfold clearErrorRecord
  dsimp only
  split_ifs <;> rfl

/-! ### The boot registers (R459, R460) -/

/-- Writes of the boot registers have an effect at a boot corner before the hand-off, while no command runs. -/
theorem plaOpen_iff (s : State) : s.plaOpen = true ↔ s.site ∈ ([0x000, 0x03F, 0xFC0, 0xFFF] : List SiteId) ∧
    s.junction.plaBusy = false ∧ quadrant s.site ∉ s.wafer.boot.handedOff := by
  rw [State.plaOpen, Bool.and_eq_true, Bool.and_eq_true, isCorner_iff, and_assoc, Bool.not_eq_true', Bool.not_eq_true',
    ← Bool.not_eq_true, ← Bool.not_eq_true, List.contains_iff_mem]

/-- The fields of PLA1 (R459). -/
theorem pla1_fields (j : Site) : field j.pla1 63 1 = (if j.plaBusy then 1 else 0) ∧ field j.pla1 0 4 = j.plaOp.toNat ∧
    field j.pla1 48 8 = j.plaResult.toNat := by
  have hr := j.plaResult.isLt
  have ho := j.plaOp.isLt
  simp only [field, Site.pla1, BitVec.toNat_ofNat]
  split_ifs <;> refine ⟨?_, ?_, ?_⟩ <;> omega

theorem cregValue_pla1 (op : BitVec 4) (busy begun : Bool) (next : BitVec 8) (since : ℕ) (result : BitVec 8)
    (hm : m ≠ 0x131) :
    State.cregValue { s with junction := { s.junction with
      plaOp := op, plaBusy := busy, plaBegun := begun, plaNext := next, since := since, plaResult := result } } m =
      s.cregValue m := by
  unfold State.cregValue
  split <;> first | contradiction | rfl

theorem cregValue_plaArg (hm : m ≠ 0x132) :
    State.cregValue { s with junction := { s.junction with plaArg := v } } m = s.cregValue m := by
  unfold State.cregValue
  split <;> first | contradiction | rfl

theorem cregValue_plaIdx (i : BitVec 12) (h1 : m ≠ 0x135) (h2 : m ≠ 0x136) :
    State.cregValue { s with junction := { s.junction with plaIdx := i } } m = s.cregValue m := by
  unfold State.cregValue
  split <;> first | contradiction | rfl

theorem cregValue_points (p : List (ℕ × SiteId)) (l : List (ℕ × BitVec 2)) (h1 : m ≠ 0x134) (h2 : m ≠ 0x136) :
    State.cregValue { s with junction := { s.junction with points := p, map := l } } m = s.cregValue m := by
  unfold State.cregValue
  split <;> first | contradiction | rfl

/-- A closed boot register keeps everything (R460). -/
theorem cregStore_closed (h : s.plaOpen = false) (hn : n ∈ [0x131, 0x132, 0x135, 0x136]) : s.cregStore n v = s := by
  fin_cases hn <;> simp [State.cregStore, writePla1, writePointsEntry, h]

theorem cregStore_bootKeeps (hn : n ∈ [0x131, 0x132, 0x135, 0x136]) : OnlyRegister s (s.cregStore n v) := by
  fin_cases hn <;> simp only [State.cregStore, writePla1, writePointsEntry, unlistedOp] <;> split_ifs <;>
    exact ⟨rfl, rfl, rfl, rfl, rfl⟩

/-! ### The claims of these writes -/

/-- A register whose write is its fields alone. -/
theorem writesRegister_fields {es : List (Word → Instr)} {f : Word → Word} (hn : n < 4096) (h9 : n ≠ 0x009)
    (hsel : ∀ m, ¬selects n m) (hf : ∀ v, fieldsWritten n (s.cregValue n) v = some (f v))
    (he : ∀ e ∈ es, ∀ v, exec (e v) s = .next (s.cregStore n v)) :
    WritesRegister n es (fun _ => True) (fun v u => u.cregValue n = f v ∧ KeepsRegisters [n] s u) s := by
  obtain ⟨h58, hevc⟩ := fieldsWritten_plain (hf 0)
  refine writesRegister_of hn h9 h58 hevc (fun e hmem v _ => he e hmem v) (fun v _ => cregStore_keeps (hf v)) fun v _ => ?_
  have h : (s.cregStore n v).cregValue n = f v ∧ KeepsRegisters [n] s (s.cregStore n v) :=
    ⟨cregStore_self (hf v), fun m _ hm => cregStore_other (hf v) (by simpa using hm) (hsel m)⟩
  exact ⟨h, h⟩

theorem srseed_written (s : State) : WritesRegister 0x00A [.srseedWrite] (fun _ => True) (fun v u =>
    u.cregValue 0x00A = (if v = 0 then 0x9E3779B97F4A7C15 else v) ∧ KeepsRegisters [0x00A] s u) s :=
  writesRegister_fields (by decide) (by decide) (by simp [selects]) (fun _ => rfl)
    fun e he v => by rw [List.mem_singleton.mp he]; rfl

theorem ptbase_written (s : State) : WritesRegister 0x120 [.ptbaseWrite] (fun _ => True) (fun v u =>
    u.cregValue 0x120 = v &&& 0x0000FFFFFFFFF000 ∧ u.core.tlb = [] ∧ KeepsRegisters [0x120] s u) s := by
  have hf (v : Word) : fieldsWritten 0x120 (s.cregValue 0x120) v = some (v &&& 0x0000FFFFFFFFF000) := rfl
  refine writesRegister_of (by decide) (by decide) (by decide) (by decide)
    (fun e he v _ => by rw [List.mem_singleton.mp he]; rfl) (fun v _ => cregStore_keeps (hf v)) fun v _ => ?_
  have hm : KeepsRegisters [0x120] s (s.cregStore 0x120 v) :=
    fun m _ hm => cregStore_other (hf v) (by simpa using hm) (by simp [selects])
  exact ⟨⟨rfl, rfl, hm⟩, rfl, rfl, hm⟩

/-- The stored word is named, not computed: what a write of CKCTL keeps is seen without its value. -/
theorem cregStore_ckctl (s : State) (v : Word) :
    ∃ w, w = storedCkctl v ∧ s.cregStore 0x140 v = { s with tile := { s.tile with ckctl := w } } := ⟨_, rfl, rfl⟩

theorem ckctl_written (s : State) : WritesRegister 0x140 [] (fun _ => True) (fun v u =>
    field u.tile.ckctl 32 16 = max 1 (field v 32 16) ∧
    field u.tile.ckctl 16 13 = max 256 (min 4096 (field v 16 13)) ∧
    field u.tile.ckctl 0 5 = max 12 (min 30 (field v 0 5)) ∧ u.tile.ckctl &&& ~~~0x0000FFFF1FFF001F = 0 ∧
    KeepsRegisters [0x140] s u) s := by
  refine writesRegister_of (by decide) (by decide) (by decide) (by decide) (fun e he => absurd he List.not_mem_nil)
    (fun v _ => ?_) fun v _ => ?_ <;> obtain ⟨w, hw, hs⟩ := cregStore_ckctl s v <;> rw [hs]
  · exact ⟨rfl, rfl, rfl, rfl, rfl⟩
  obtain ⟨beat, line, interval, rest⟩ := hw ▸ storedCkctl_fields v
  have hm : KeepsRegisters [0x140] s { s with tile := { s.tile with ckctl := w } } :=
    fun m _ hm => cregValue_setCkctl (by simpa using hm)
  exact ⟨⟨beat, line, interval, rest, hm⟩, beat, line, interval, rest, hm⟩

/-- The record that ERRSEL selects has been cleared, and no other (R438). -/
def ClearsChosen (s u : State) : Prop :=
  let unit := s.core.errsel.getLsbD 4
  let chosen := field s.core.errsel 2 2
  KeepsRegisters [0x151] s u ∧
    (∀ k < 4, vget u.tile.bank k {} = if unit = false ∧ k = chosen then {} else vget s.tile.bank k {}) ∧
    ∀ k < 4, vget u.junction.bank k {} = if unit = true ∧ k = chosen then {} else vget s.junction.bank k {}

theorem clearErrorRecord_clears (s : State) : ClearsChosen s (clearErrorRecord s) := by
  have hbank (a : Vector ErrRec 4) {i k : ℕ} (hk : k < 4) :
      vget (vset a i {}) k {} = if k = i then {} else vget a k {} := by
    rw [vget_vset]
    by_cases h : i = k
    · rw [if_pos ⟨h, h ▸ hk⟩, if_pos h.symm]
    · rw [if_neg fun e => h e.1, if_neg (Ne.symm h)]
  rw [clearErrorRecord_eq]
  refine ⟨fun m _ hm => cregValue_banks _ _ (by simpa using hm), fun k hk => ?_, fun k hk => ?_⟩
  · cases s.core.errsel.getLsbD 4
    · simpa only [Bool.false_eq_true, if_false, true_and] using hbank s.tile.bank hk
    · simp
  · cases s.core.errsel.getLsbD 4
    · simp
    · simpa only [if_true, true_and] using hbank s.junction.bank hk

theorem errdata_cleared (s : State) : WritesRegister 0x151 [fun _ => .errdataClear] (fun v => v.getLsbD 0 = true)
    (fun _ u => ClearsChosen s u) s := by
  have hs {v : Word} (hv : v.getLsbD 0 = true) : s.cregStore 0x151 v = clearErrorRecord s := if_pos hv
  refine writesRegister_of (by decide) (by decide) (by decide) (by decide)
    (fun e he v hv => by rw [List.mem_singleton.mp he, hs hv]; rfl) (fun v hv => ?_) fun v hv => ?_
  · rw [hs hv, clearErrorRecord_eq]
    exact ⟨rfl, rfl, rfl, rfl, rfl⟩
  · rw [hs hv]
    exact ⟨clearErrorRecord_clears s, clearErrorRecord_clears s⟩

/-- A write of a register that keeps the state keeps every register. -/
theorem writesRegister_nothing {es : List (Word → Instr)} {when_ : Word → Prop} (hn : n < 4096) (h9 : n ≠ 0x009)
    (h58 : n ≠ 0x058) (hevc : ¬(0x048 ≤ n ∧ n ≤ 0x04F)) (hs : ∀ v, when_ v → s.cregStore n v = s)
    (he : ∀ e ∈ es, ∀ v, when_ v → exec (e v) s = .next s) :
    WritesRegister n es when_ (fun _ u => KeepsRegisters [] s u) s := by
  refine writesRegister_of hn h9 h58 hevc (fun e hmem v hv => by rw [hs v hv, he e hmem v hv]) (fun v hv => ?_)
    fun v hv => ?_ <;> rw [hs v hv]
  · exact ⟨rfl, rfl, rfl, rfl, rfl⟩
  · exact ⟨fun _ _ _ => rfl, fun _ _ _ => rfl⟩

theorem errdata_kept (s : State) : WritesRegister 0x151 [] (fun v => v.getLsbD 0 = false)
    (fun _ u => KeepsRegisters [] s u) s :=
  writesRegister_nothing (by decide) (by decide) (by decide) (by decide)
    (fun v hv => if_neg (ne_true_of_eq_false hv)) fun e he => absurd he List.not_mem_nil

/-- A write of a boot register meets its claim when the stored state does. -/
theorem writesRegister_boot {es : List (Word → Instr)} {when_ : Word → Prop} {post : Word → State → Prop}
    (hn : n ∈ [0x131, 0x132, 0x135, 0x136]) (he : ∀ e ∈ es, ∀ v, when_ v → exec (e v) s = .next (s.cregStore n v))
    (hp : ∀ v, when_ v → post v (s.cregStore n v) ∧ post v ((s.cregStore n v).skip 4).retire) :
    WritesRegister n es when_ post s := by
  have hr : 0x131 ≤ n ∧ n ≤ 0x136 := by fin_cases hn <;> decide
  exact writesRegister_of (by omega) (by omega) (by omega) (by omega) he (fun v _ => cregStore_bootKeeps hn) hp

theorem field_low (v : Word) : (v.setWidth 4 : BitVec 4).toNat = field v 0 4 := by
  simp [field, BitVec.toNat_setWidth]

theorem pla1_listed (h : s.plaOpen = true) : WritesRegister 0x131 [] (fun v => 1 ≤ field v 0 4 ∧ field v 0 4 ≤ 5)
    (fun v u => field (u.cregValue 0x131) 63 1 = 1 ∧ field (u.cregValue 0x131) 0 4 = field v 0 4 ∧
      field (u.cregValue 0x131) 48 8 = field (s.cregValue 0x131) 48 8 ∧ KeepsRegisters [0x131] s u) s := by
  refine writesRegister_boot (by decide) (fun e he => absurd he List.not_mem_nil) fun v hv => ?_
  have hs : s.cregStore 0x131 v = { s with junction := { s.junction with
      plaOp := v.setWidth 4, plaBusy := true, plaBegun := false, plaNext := 0, since := s.wafer.clock } } := by
    simp only [State.cregStore, writePla1, h, if_true, field_low, if_pos hv]
  obtain ⟨busy, op, result⟩ := pla1_fields (s.cregStore 0x131 v).junction
  obtain ⟨-, -, before⟩ := pla1_fields s.junction
  rw [hs] at busy op result ⊢
  have hm := fun m (_ : m < 4096) (hm : m ∉ [0x131]) => cregValue_pla1 (s := s) (v.setWidth 4) true false 0 s.wafer.clock
    s.junction.plaResult (m := m) (by simpa using hm)
  exact ⟨⟨busy, op.trans (field_low v), result.trans before.symm, hm⟩,
    busy, op.trans (field_low v), result.trans before.symm, hm⟩

theorem pla1_unlisted (h : s.plaOpen = true) : WritesRegister 0x131 [fun v => .plaUnlistedOp (v.setWidth 4)]
    (fun v => ¬(1 ≤ field v 0 4 ∧ field v 0 4 ≤ 5)) (fun _ u => field (u.cregValue 0x131) 48 8 = 0xFF ∧
      field (u.cregValue 0x131) 63 1 = 0 ∧ KeepsRegisters [0x131] s u) s := by
  have hs {v : Word} (hv : ¬(1 ≤ field v 0 4 ∧ field v 0 4 ≤ 5)) :
      s.cregStore 0x131 v = unlistedOp (v.setWidth 4) s := by
    simp only [State.cregStore, writePla1, h, if_true, field_low, if_neg hv]
  refine writesRegister_boot (by decide) (fun e he v hv => ?_) fun v hv => ?_
  · rw [List.mem_singleton.mp he, hs hv]
    refine if_pos ?_
    rw [h, field_low, ← Bool.decide_and, decide_eq_false hv]
    rfl
  · obtain ⟨busy, -, result⟩ := pla1_fields (unlistedOp (v.setWidth 4) s).junction
    rw [hs hv]
    have idle : s.junction.plaBusy = false := ((plaOpen_iff s).mp h).2.1
    have busy := busy.trans (if_neg (by simp [unlistedOp, idle]))
    have hm := fun m (_ : m < 4096) (hm : m ∉ [0x131]) => cregValue_pla1 (s := s) (v.setWidth 4) s.junction.plaBusy
      s.junction.plaBegun s.junction.plaNext s.junction.since 0xFF (m := m) (by simpa using hm)
    exact ⟨⟨result, busy, hm⟩, result, busy, hm⟩

theorem plaArg_written (h : s.plaOpen = true) : WritesRegister 0x132 [] (fun _ => True)
    (fun v u => u.cregValue 0x132 = v ∧ KeepsRegisters [0x132] s u) s := by
  refine writesRegister_boot (by decide) (fun e he => absurd he List.not_mem_nil) fun v _ => ?_
  rw [show s.cregStore 0x132 v = _ from if_pos h]
  have hm := fun m (_ : m < 4096) (hm : m ∉ [0x132]) => cregValue_plaArg (s := s) (v := v) (m := m) (by simpa using hm)
  exact ⟨⟨rfl, hm⟩, rfl, hm⟩

theorem plaIdx_written (h : s.plaOpen = true) : WritesRegister 0x135 [] (fun _ => True)
    (fun v u => u.cregValue 0x135 = v &&& 0xFFF ∧ KeepsRegisters [0x135, 0x136] s u) s := by
  refine writesRegister_boot (by decide) (fun e he => absurd he List.not_mem_nil) fun v _ => ?_
  rw [show s.cregStore 0x135 v = _ from if_pos h]
  have hv : zext64 (v.setWidth 12) = v &&& 0xFFF := zext64_setWidth v (by decide)
  have hm := fun m (_ : m < 4096) (hm : m ∉ [0x135, 0x136]) => cregValue_plaIdx (s := s) (v.setWidth 12) (m := m)
    (fun e => hm (by simp [e])) (fun e => hm (by simp [e]))
  exact ⟨⟨hv, hm⟩, hv, hm⟩

/-- A write of PLA6 sets or clears the selected entry, and a site that it names becomes logical in the map (R460). -/
theorem points_written (h : s.plaOpen = true) : WritesRegister 0x136 [.pointsEntryWrite] (fun _ => True) (fun v u =>
    let x : SiteId := v.setWidth 12
    let j := s.junction
    let names : Prop := v.getLsbD 12 = true ∧ j.plaIdx.toNat < 3840
    (names → (∀ k, findPoint u.junction.points k = if k = j.plaIdx.toNat then some x else findPoint j.points k) ∧
      ∀ y, mapState u.junction.map y = if y = x.toNat then 1 else mapState j.map y) ∧
    (¬names → (∀ k, findPoint u.junction.points k = if k = j.plaIdx.toNat then none else findPoint j.points k) ∧
      u.junction.map = j.map) ∧
    KeepsRegisters [0x134, 0x136] s u) s := by
  refine writesRegister_boot (by decide) (fun e he v _ => by rw [List.mem_singleton.mp he]; rfl) fun v _ => ?_
  have hm (p l) : KeepsRegisters [0x134, 0x136] s { s with junction := { s.junction with points := p, map := l } } :=
    fun m _ hm => cregValue_points p l (fun e => hm (by simp [e])) (fun e => hm (by simp [e]))
  by_cases hn : v.getLsbD 12 = true ∧ s.junction.plaIdx.toNat < 3840
  · have hs : s.cregStore 0x136 v = { s with junction := { s.junction with
        points := setPoint s.junction.plaIdx.toNat (some (v.setWidth 12)) s.junction.points,
        map := setMap (v.setWidth 12 : SiteId).toNat 1 s.junction.map } } := by
      simp only [State.cregStore, writePointsEntry, h, if_true, hn.1, hn.2, decide_true, Bool.true_and]
    rw [hs]
    have hset := And.intro (findPoint_setPoint s.junction.plaIdx.toNat (v.setWidth 12) s.junction.points)
      (mapState_setMap (v.setWidth 12 : SiteId).toNat 1 s.junction.map)
    exact ⟨⟨fun _ => hset, fun hnot => absurd hn hnot, hm _ _⟩, fun _ => hset, fun hnot => absurd hn hnot, hm _ _⟩
  · have hs : s.cregStore 0x136 v = { s with junction := { s.junction with
        points := setPoint s.junction.plaIdx.toNat none s.junction.points, map := s.junction.map } } := by
      simp only [State.cregStore, writePointsEntry, h, if_true]
      rw [if_neg (by simpa using hn)]
    rw [hs]
    have hset := And.intro (fun k => findPoint_filter s.junction.points s.junction.plaIdx.toNat k)
      (Eq.refl s.junction.map)
    exact ⟨⟨fun hyes => absurd hyes hn, fun _ => hset, hm _ _⟩, fun hyes => absurd hyes hn, fun _ => hset, hm _ _⟩

/-- Where the boot registers are closed a write of one changes nothing (R460). -/
theorem boot_closed (h : s.plaOpen = false) :
    ∀ e ∈ [(0x131, [fun v : Word => Instr.plaUnlistedOp (v.setWidth 4)]), (0x132, []), (0x135, []),
      (0x136, [.pointsEntryWrite])], WritesRegister e.1 e.2 (fun _ => True) (fun _ u => KeepsRegisters [] s u) s := by
  have closed {n : ℕ} {es : List (Word → Instr)} (hn : n ∈ [0x131, 0x132, 0x135, 0x136])
      (he : ∀ e ∈ es, ∀ v, exec (e v) s = .next s) :
      WritesRegister n es (fun _ => True) (fun _ u => KeepsRegisters [] s u) s := by
    have hr : 0x131 ≤ n ∧ n ≤ 0x136 := by fin_cases hn <;> decide
    exact writesRegister_nothing (by omega) (by omega) (by omega) (by omega) (fun v _ => cregStore_closed h hn)
      fun e hmem v _ => he e hmem v
  have hop (op : BitVec 4) : exec (.plaUnlistedOp op) s = .next s := if_neg (by simp [h])
  have hentry (v : Word) : exec (.pointsEntryWrite v) s = .next s :=
    congrArg _ (cregStore_closed (v := v) h (n := 0x136) (by decide))
  intro e he
  simp only [List.mem_cons, List.not_mem_nil, or_false] at he
  obtain rfl | rfl | rfl | rfl := he
  · exact closed (by decide) fun e he v => by rw [List.mem_singleton.mp he]; exact hop _
  · exact closed (by decide) fun e he => absurd he List.not_mem_nil
  · exact closed (by decide) fun e he => absurd he List.not_mem_nil
  · exact closed (by decide) fun e he v => by rw [List.mem_singleton.mp he]; exact hentry v

end Sys2Proof.Machine
end

