-- ==== Sys2Proof/Proofs/EventCounterWrites.lean ====
section
/-!
SUPPORT. A write of an event counter (R337, R338): the word, the cores that it wakes, and the waits that it releases.
-/
namespace Sys2Proof.Machine

variable {s t u : State} {n m : ℕ} {v w old : Word} {c : BitVec 3} {x : Core} {known : List AccessId}

/-! ### What the control registers read of a counter, of notes, and of a core that was woken -/

/-- A core that was woken, learnt of accesses, or had its cntwait released is otherwise as it was. -/
def OnlyWoken (x y : Core) : Prop :=
  y = { x with
    wake := y.wake, race := { x.race with known := y.race.known }, sync := { x.sync with cnt := y.sync.cnt } }

theorem updCores_cregValue {f : Core → Core} (hf : ∀ x, OnlyWoken x (f x)) :
    (s.updCores f).cregValue m = s.cregValue m := by
  rw [State.updCores, hf s.core]
  unfold State.cregValue
  split <;> rfl

theorem OnlyNotes.eq (h : OnlyNotes s t) : t = { s with
    tile := { s.tile with
      touched := t.tile.touched, made := t.tile.made, sliceCount := t.tile.sliceCount, dets := t.tile.dets,
      fills := t.tile.fills },
    wafer := { s.wafer with net := t.wafer.net, nextId := t.wafer.nextId } } := by
  obtain ⟨hcore, hothers, ⟨hno, hsite, hj⟩, htile, hwafer⟩ := h
  rw [← htile, ← hwafer, ← hcore, ← hothers, ← hno, ← hsite, ← hj]

theorem OnlyNotes.cregValue (h : OnlyNotes s t) : t.cregValue m = s.cregValue m := by
  rw [h.eq]
  unfold State.cregValue
  split <;> rfl

theorem OnlyNotes.keepsMemory (h : OnlyNotes s t) : KeepsMemory s t := by
  rw [h.eq]
  exact ⟨fun _ => rfl, fun _ => rfl, fun _ => rfl, fun _ => rfl, rfl⟩

theorem cregValue_evc (h : 0x048 ≤ n ∧ n ≤ 0x04F) : s.cregValue n = vget s.tile.evc (n - 0x048) 0 := by
  obtain ⟨lo, hi⟩ := h
  interval_cases n <;> rfl

theorem cregValue_setEvc (hm : m ≠ 0x048 + c.toNat) :
    State.cregValue { s with tile := { s.tile with evc := vset s.tile.evc c.toNat w } } m = s.cregValue m := by
  by_cases hr : 0x048 ≤ m ∧ m ≤ 0x04F
  · rw [cregValue_evc hr, cregValue_evc hr]
    exact vget_vset_other _ _ _ _ _ (by omega)
  · generalize vset s.tile.evc _ _ = counters
    unfold State.cregValue
    split
    case h_40 => simp only [if_neg hr]
    all_goals rfl

/-! ### The word and the cores -/

/-- The word that a write leaves in a counter (R337). -/
def evcWord (old v : Word) : Word :=
  BitVec.ofNat 64 (field v 0 32 + (if old.getLsbD 32 && !v.getLsbD 32 then 2 ^ 32 else 0))

theorem evcWord_fields (old v : Word) : field (evcWord old v) 0 32 = field v 0 32 ∧
    (evcWord old v).getLsbD 32 = (old.getLsbD 32 && !v.getLsbD 32) := by
  have hv : field v 0 32 < 2 ^ 32 := Nat.mod_lt _ (by decide)
  have hbit : (evcWord old v).getLsbD 32 = decide ((evcWord old v).toNat / 2 ^ 32 % 2 = 1) :=
    Nat.testBit_eq_decide_div_mod_eq
  rw [hbit, field, evcWord, BitVec.toNat_ofNat]
  cases old.getLsbD 32 && !v.getLsbD 32
  · simp only [Bool.false_eq_true, if_false, decide_eq_false_iff_not]; omega
  · simp only [if_true, decide_eq_true_eq]; omega

/-- A new value of a counter wakes a core (R132). -/
def evcNotice (old v : Word) (x : Core) : Core := if field old 0 32 = field v 0 32 then x else x.wakeUp

/-- What a write that takes a counter from `old` to `v` does to a core of the tile: a new value wakes it, and a rise
releases its cntwait where the bound is met. -/
def evcWakes (c : BitVec 3) (old v : Word) (known : List AccessId) (x : Core) : Core :=
  if field old 0 32 < field v 0 32 then
    if (evcNotice old v x).armedOn c (fun b => decide (b ≤ field v 0 32)) then (evcNotice old v x).releaseCnt 0 known
    else evcNotice old v x
  else evcNotice old v x

theorem OnlyWoken.refl (x : Core) : OnlyWoken x x := rfl

theorem wakeUp_onlyWoken (x : Core) : OnlyWoken x x.wakeUp := rfl

theorem releaseCnt_onlyWoken (x : Core) (r : BitVec 1) : OnlyWoken x (x.releaseCnt r known) := rfl

theorem OnlyWoken.trans {y z : Core} (h : OnlyWoken x y) (k : OnlyWoken y z) : OnlyWoken x z := by
  rw [OnlyWoken] at *
  rw [k, h]

theorem evcNotice_onlyWoken (old v : Word) (x : Core) : OnlyWoken x (evcNotice old v x) := by
  unfold evcNotice
  split_ifs
  · exact .refl x
  · exact wakeUp_onlyWoken x

theorem evcNotice_cnt : (evcNotice old v x).sync.cnt = x.sync.cnt := by
  unfold evcNotice
  split_ifs <;> rfl

theorem evcNotice_wake (h : field old 0 32 ≠ field v 0 32) : (evcNotice old v x).wake = true := by
  rw [evcNotice, if_neg h]
  rfl

theorem evcWakes_onlyWoken (c : BitVec 3) (old v : Word) (known : List AccessId) (x : Core) :
    OnlyWoken x (evcWakes c old v known x) := by
  unfold evcWakes
  split_ifs
  · exact (evcNotice_onlyWoken old v x).trans (releaseCnt_onlyWoken _ _)
  · exact evcNotice_onlyWoken old v x
  · exact evcNotice_onlyWoken old v x

theorem evcWakes_wake (h : field old 0 32 ≠ field v 0 32) : (evcWakes c old v known x).wake = true := by
  unfold evcWakes
  split_ifs
  · exact evcNotice_wake (x := x) h
  · exact evcNotice_wake h
  · exact evcNotice_wake h

/-- The bounds that a write which takes a counter from `old` to `v` meets. -/
def EvcMeets (old v : Word) (b : ℕ) : Prop := field old 0 32 < field v 0 32 ∧ b ≤ field v 0 32

theorem evcWakes_cnt_none (h : x.sync.cnt = none) : (evcWakes c old v known x).sync.cnt = none := by
  have hcnt : (evcNotice old v x).sync.cnt = none := evcNotice_cnt.trans h
  unfold evcWakes
  split_ifs
  · exact congrArg (Option.map _) hcnt
  · exact hcnt
  · exact hcnt

theorem armedOn_iff {sel : ℕ → Bool} {a : CntWait} (h : x.sync.cnt = some a) :
    x.armedOn c sel = true ↔ a.c = c ∧ a.status = none ∧ sel a.bound.toNat = true := by
  simp [Core.armedOn, h, and_assoc]

theorem evcWakes_cnt_some {a : CntWait} (h : x.sync.cnt = some a) :
    (a.c = c ∧ a.status = none ∧ EvcMeets old v a.bound.toNat →
      (evcWakes c old v known x).sync.cnt = some { a with status := some 0 }) ∧
    (¬(a.c = c ∧ a.status = none ∧ EvcMeets old v a.bound.toNat) →
      (evcWakes c old v known x).sync.cnt = some a) := by
  have hcnt : (evcNotice old v x).sync.cnt = some a := evcNotice_cnt.trans h
  unfold evcWakes
  constructor
  · rintro ⟨hc, hs, hlt, hle⟩
    rw [if_pos hlt, if_pos ((armedOn_iff hcnt).mpr ⟨hc, hs, decide_eq_true hle⟩)]
    exact congrArg (Option.map _) hcnt
  · intro hno
    split_ifs with hlt harm
    · obtain ⟨hc, hs, hle⟩ := (armedOn_iff hcnt).mp harm
      exact absurd ⟨hc, hs, hlt, of_decide_eq_true hle⟩ hno
    all_goals exact hcnt

/-! ### The write -/

theorem updCores_updCores (s : State) (f g : Core → Core) : (s.updCores f).updCores g = s.updCores fun x => g (f x) := by
  simp [State.updCores, Function.comp_def]

theorem updCores_id (s : State) : s.updCores (fun x => x) = s := by simp [State.updCores]

/-- A write leaves notes, the word, and changes to the cores of the tile. -/
theorem writeEvc_shape (c : BitVec 3) (v : Word) (s : State) : ∃ t known, OnlyNotes s t ∧
    writeEvc c v s = State.updCores { t with tile := { t.tile with
      evc := vset s.tile.evc c.toNat (evcWord (vget s.tile.evc c.toNat 0) v) } }
      (evcWakes c (vget s.tile.evc c.toNat 0) v known) := by
  have hn := touch_onlyNotes s (srcCore s.coreNo) (2 ^ 32 + c.toNat) true
  have hevc : (s.touchEvc c.toNat true).tile.evc = s.tile.evc := by rw [State.touchEvc, hn.tile]
  refine ⟨s.touchEvc c.toNat true, ?known, hn, ?_⟩
  case known =>
    let z := State.updCores { s.touchEvc c.toNat true with tile := { (s.touchEvc c.toNat true).tile with
      evc := vset s.tile.evc c.toNat (evcWord (vget s.tile.evc c.toNat 0) v) } } Core.wakeUp
    exact z.publish z.tile.tile
  unfold writeEvc evcWakes evcNotice
  dsimp only
  rw [hevc]
  by_cases heq : field (vget s.tile.evc c.toNat 0) 0 32 = field v 0 32
  · simp only [heq, if_true, lt_irrefl, if_false]
    exact (updCores_id _).symm
  · by_cases hlt : field (vget s.tile.evc c.toNat 0) 0 32 < field v 0 32
    · simp only [heq, hlt, if_true, if_false, releaseWaiters, updCores_updCores]
      rfl
    · simp only [heq, hlt, if_false]
      rfl

/-- What a write of a counter leaves (R337, R338). -/
def EvcWritten (c : BitVec 3) (v : Word) (s u : State) : Prop :=
  let old := vget s.tile.evc c.toNat 0
  let new := vget u.tile.evc c.toNat 0
  field new 0 32 = field v 0 32 ∧ new.getLsbD 32 = (old.getLsbD 32 && !v.getLsbD 32) ∧
    Releases c (EvcMeets old v) 0 s u ∧
    (field old 0 32 ≠ field v 0 32 → u.core.wake = true ∧ ∀ p ∈ u.others, p.2.wake = true) ∧
    KeepsRegisters [0x048 + c.toNat] s u

/-- A state whose cores were changed by a write releases the waits whose bound is met. -/
theorem releases_updCores (hcores : ∀ k, t.coreAt k = s.coreAt k) :
    Releases c (EvcMeets old v) 0 s (t.updCores (evcWakes c old v known)) := by
  intro k
  obtain h | ⟨hreset, h⟩ := updCores_coreAt t (evcWakes c old v known) k
  · rw [h, hcores k]
    cases hcnt : (s.coreAt k).sync.cnt with
    | none => exact evcWakes_cnt_none hcnt
    | some a => exact evcWakes_cnt_some hcnt
  · rw [h, ← hcores k, hreset]

theorem writeEvc_written (c : BitVec 3) (v : Word) (s : State) : EvcWritten c v s (writeEvc c v s) := by
  obtain ⟨t, known, hn, hw⟩ := writeEvc_shape c v s
  have hnew : vget (writeEvc c v s).tile.evc c.toNat 0 = evcWord (vget s.tile.evc c.toNat 0) v := by
    rw [hw]
    exact vget_vset_same _ _ _ _ c.isLt
  obtain ⟨hvalue, hovf⟩ := evcWord_fields (vget s.tile.evc c.toNat 0) v
  have hevc : t.tile.evc = s.tile.evc := by rw [hn.tile]
  refine ⟨hnew ▸ hvalue, hnew ▸ hovf, ?_, fun hne => ?_, fun m _ hm => ?_⟩
  · rw [hw]
    refine releases_updCores fun k => ?_
    simp only [State.coreAt, hn.core, hn.others, hn.place.1]
  · rw [hw]
    refine ⟨evcWakes_wake hne, fun p hp => ?_⟩
    obtain ⟨q, -, rfl⟩ := List.mem_map.mp hp
    exact evcWakes_wake hne
  · rw [hw, updCores_cregValue (evcWakes_onlyWoken c _ v known), ← hevc]
    exact (cregValue_setEvc (by simpa using hm)).trans hn.cregValue

/-- What a write of a counter keeps. -/
theorem writeEvc_keeps (c : BitVec 3) (v : Word) (s : State) :
    (writeEvc c v s).core.pc = s.core.pc ∧ (writeEvc c v s).core.retired = s.core.retired ∧
      (writeEvc c v s).core.regs = s.core.regs ∧ KeepsMemory s (writeEvc c v s) := by
  obtain ⟨t, known, hn, hw⟩ := writeEvc_shape c v s
  have hcore : (writeEvc c v s).core = evcWakes c (vget s.tile.evc c.toNat 0) v known s.core := by
    rw [hw, ← hn.core]; rfl
  have hmem : KeepsMemory s (writeEvc c v s) := by
    obtain ⟨own, hbm, host, peer, sites⟩ := hn.keepsMemory
    rw [hw]
    exact ⟨own, hbm, host, peer, sites⟩
  rw [hcore, evcWakes_onlyWoken c (vget s.tile.evc c.toNat 0) v known s.core]
  exact ⟨rfl, rfl, rfl, hmem⟩

theorem EvcWritten.after (h : EvcWritten c v s u) : EvcWritten c v s (u.skip 4).retire := by
  obtain ⟨hvalue, hovf, hrel, hwake, hkeeps⟩ := h
  refine ⟨hvalue, hovf, fun k => ?_, hwake, hkeeps⟩
  have hsync : (((u.skip 4).retire).coreAt k).sync = (u.coreAt k).sync := by
    change (if k = u.coreNo then _ else findCore u.others k).sync = (if k = u.coreNo then u.core else _).sync
    split_ifs <;> rfl
  rw [hsync]
  exact hrel k

theorem cregStore_evc (c : BitVec 3) (v : Word) (s : State) : s.cregStore (0x048 + c.toNat) v = writeEvc c v s := by
  have hc : BitVec.ofNat 3 c.toNat = c := by simp
  have hlt := c.isLt
  generalize c.toNat = k at *
  rw [← hc]
  interval_cases k <;> rfl

/-- An mtc of an event counter, with room for the note of the access (R425). -/
theorem execMtc_evc {a : CAccess} {r : BitVec 5} {i : BitVec 12} (ha : cregAccess i.toNat = some a)
    (hw : a.mayWrite s.core.level = true) (hevc : 0x048 ≤ i.toNat ∧ i.toNat ≤ 0x04F) (hroom : s.detRoom = true) :
    execMtc r i s = .next (((s.cregStore i.toNat (s.reg r)).skip 4).retire) := by
  have h9 : i.toNat ≠ 0x009 := by omega
  have h58 : i.toNat ≠ 0x058 := by omega
  unfold execMtc
  dsimp only
  rw [checked_may ha hw]
  simp [h9, h58, hroom]

theorem evc_written (s : State) (c : BitVec 3) (hroom : s.detRoom = true) :
    WritesRegister (0x048 + c.toNat) [.evcWrite c] (fun _ => True) (fun v u => EvcWritten c v s u) s := by
  have hlt := c.isLt
  have hnum : (BitVec.ofNat 12 (0x048 + c.toNat)).toNat = 0x048 + c.toNat := by
    rw [BitVec.toNat_ofNat]; omega
  refine ⟨fun r a ha hw _ => ?_, fun e hmem v _ => ?_⟩
  · have hx := execMtc_evc (r := r) (i := BitVec.ofNat 12 (0x048 + c.toNat)) (hnum.symm ▸ ha) hw (by omega) hroom
    rw [hnum, cregStore_evc] at hx
    obtain ⟨hpc, hret, hregs, hm⟩ := writeEvc_keeps c (s.reg r) s
    exact ⟨_, hx, (writeEvc_written c _ s).after, ⟨congrArg (· + 4) hpc, congrArg (· + 1) hret⟩, hregs,
      hm.own, hm.hbm, hm.host, hm.peer, hm.sites⟩
  · rw [List.mem_singleton.mp hmem]
    exact ⟨_, rfl, writeEvc_written c v s, writeEvc_keeps c v s⟩

end Sys2Proof.Machine
end

