-- ==== Sys2Proof/Proofs/AccumulateMode.lean ====
section
/-!
SUPPORT. A write of ACCMODE (R203): what flushing the siding keeps, when the siding is quiet, and that one that is not
stays so; then the accesses of FFLAGS (R280) and the obligation O49.
-/
namespace Sys2Proof.Machine

variable {s t u : State} {m k : ℕ} {r : Row}

/-! ### A quiet siding (R202) -/

theorem mem_validRows {c : Core} : (k, r) ∈ c.validRows ↔ k < 32 ∧ c.row k = some r := by
  simp [Core.validRows]

theorem row_below {c : Core} (h : c.row k = some r) : k < 32 := by
  by_contra hk
  rw [Core.row, vget, Array.getD_eq_getD_getElem?, Array.getElem?_eq_none (by simpa using hk)] at h
  cases h

/-- The core has no relaxed row, no flush in flight and no relaxed bounce to park. -/
def Quiet (c : Core) : Prop :=
  (∀ k r, c.row k = some r → r.det = true) ∧ c.acc.flight = 0 ∧ ∀ b ∈ c.acc.inbound, b.det = true

theorem sidingQuiet_iff (c : Core) : c.sidingQuiet = true ↔ Quiet c := by
  have hrows : c.relaxedRows = false ↔ ∀ k r, c.row k = some r → r.det = true := by
    simp only [Core.relaxedRows, List.any_eq_false, Prod.forall, mem_validRows, Bool.not_eq_true',
      Bool.not_eq_false, and_imp]
    exact ⟨fun h k r hr => h k r (row_below hr) hr, fun h k r _ hr => h k r hr⟩
  have hin : c.relaxedInbound = false ↔ ∀ b ∈ c.acc.inbound, b.det = true := by
    simp [Core.relaxedInbound]
  rw [Core.sidingQuiet, Bool.and_eq_true, Bool.and_eq_true, Bool.not_eq_true', Bool.not_eq_true', beq_iff_eq, hrows, hin,
    and_assoc, Quiet]

/-! ### What a flush keeps (R196) -/

/-- The siding has been flushed for a while: the core's instruction, registers and memory stay, and a relaxed row either
stays or is in flight. -/
structure Drains (s t : State) : Prop where
  pc : t.core.pc = s.core.pc
  retired : t.core.retired = s.core.retired
  regs : t.core.regs = s.core.regs
  accmode : t.core.acc.accmode = s.core.acc.accmode
  inbound : t.core.acc.inbound = s.core.acc.inbound
  memory : KeepsMemory s t
  flight : s.core.acc.flight ≤ t.core.acc.flight
  rows : ∀ k r, s.core.row k = some r → t.core.row k = some r ∨ 0 < t.core.acc.flight

theorem KeepsMemory.refl (s : State) : KeepsMemory s s := ⟨fun _ => rfl, fun _ => rfl, fun _ => rfl, fun _ => rfl, rfl⟩

theorem keepsMemory_core (s : State) (c : Core) : KeepsMemory s { s with core := c } :=
  ⟨fun _ => rfl, fun _ => rfl, fun _ => rfl, fun _ => rfl, rfl⟩

theorem KeepsMemory.trans (h : KeepsMemory s t) (k : KeepsMemory t u) : KeepsMemory s u :=
  ⟨fun a => (k.own a).trans (h.own a), fun a => (k.hbm a).trans (h.hbm a), fun a => (k.host a).trans (h.host a),
    fun a => (k.peer a).trans (h.peer a), k.sites.trans h.sites⟩

theorem Drains.refl (s : State) : Drains s s :=
  ⟨rfl, rfl, rfl, rfl, rfl, .refl s, le_refl _, fun _ _ h => .inl h⟩

theorem Drains.trans (h : Drains s t) (k : Drains t u) : Drains s u where
  pc := k.pc.trans h.pc
  retired := k.retired.trans h.retired
  regs := k.regs.trans h.regs
  accmode := k.accmode.trans h.accmode
  inbound := k.inbound.trans h.inbound
  memory := h.memory.trans k.memory
  flight := h.flight.trans k.flight
  rows i r hr := (h.rows i r hr).elim (k.rows i r) fun hf => .inr (hf.trans_le k.flight)

/-- The state with other events that have rows to flush. -/
def withFlushing (s : State) (f : List (List (BitVec 5))) : State :=
  { s with core := { s.core with acc := { s.core.acc with flushing := f } } }

theorem withFlushing_drains (s : State) (f : List (List (BitVec 5))) : Drains s (withFlushing s f) :=
  ⟨rfl, rfl, rfl, rfl, rfl, keepsMemory_core s _, le_refl _, fun _ _ h => .inl h⟩

theorem withFlushing_cregValue (s : State) (f : List (List (BitVec 5))) :
    (withFlushing s f).cregValue m = s.cregValue m := by
  unfold State.cregValue
  split <;> rfl

/-- A flush is one packet of a core that keeps its place in the program and counts one flush more in flight. -/
theorem flushRow_eq (s : State) (k : ℕ) (r : Row) :
    ∃ c d q, s.flushRow k r = State.inject { s with core := c } .relief d (.acc q) ∧ c.pc = s.core.pc ∧
      c.retired = s.core.retired ∧ c.regs = s.core.regs ∧ c.acc.accmode = s.core.acc.accmode ∧
      c.acc.inbound = s.core.acc.inbound ∧ c.acc.flight = s.core.acc.flight + 1 := by
  unfold State.flushRow State.sendAcc
  refine ⟨_, _, _, rfl, ?_⟩
  simp only [Core.countUp, Core.clearRow, Core.setRow, Core.nextAseq, and_self]

theorem flushRow_drains (s : State) (k : ℕ) (r : Row) : Drains s (s.flushRow k r) := by
  obtain ⟨c, d, q, hs, hpc, hret, hregs, hmode, hin, hflight⟩ := flushRow_eq s k r
  have hn := inject_onlyNotes { s with core := c } .relief d (.acc q)
  have hcore : (s.flushRow k r).core = c := hs ▸ hn.core
  obtain ⟨own, hbm, host, peer, sites⟩ := hn.keepsMemory
  constructor
  case memory => rw [hs]; exact ⟨own, hbm, host, peer, sites⟩
  case rows => exact fun i row _ => .inr (by rw [hcore, hflight]; omega)
  case flight => rw [hcore, hflight]; omega
  all_goals rw [hcore]; assumption

theorem drainRows_drains (l : List (BitVec 5)) (s : State) : Drains s (drainRows l s).2 := by
  induction l generalizing s with
  | nil => exact .refl s
  | cons k l ih =>
    unfold drainRows
    split
    · exact ih s
    · split_ifs
      · exact ih s
      · exact (flushRow_drains s _ _).trans (ih _)
      · exact .refl s

theorem drainEvents_drains (l : List (List (BitVec 5))) (s : State) : Drains s (drainEvents l s).2 := by
  induction l generalizing s with
  | nil => exact .refl s
  | cons k l ih => exact (drainRows_drains k s).trans (ih _)

/-- To drain is to send the rows of the events, and to note what is left of them. -/
theorem drain_eq (s : State) :
    ∃ f, s.drain = withFlushing (drainEvents s.core.acc.flushing (withFlushing s [])).2 f := ⟨_, rfl⟩

theorem drain_drains (s : State) : Drains s s.drain := by
  obtain ⟨f, hf⟩ := drain_eq s
  rw [hf]
  exact (withFlushing_drains s []).trans ((drainEvents_drains _ _).trans (withFlushing_drains _ f))

theorem flushEvent_eq (s : State) (ks : List (BitVec 5)) :
    ∃ f, { s with core := s.core.flushEvent ks } = withFlushing s f := by
  unfold Core.flushEvent
  split_ifs
  · exact ⟨s.core.acc.flushing, rfl⟩
  · exact ⟨_, rfl⟩

theorem flushAll_eq (s : State) : ∃ f, s.flushAll = (withFlushing s f).drain := by
  obtain ⟨f, hf⟩ := flushEvent_eq s
    ((s.core.selectRows (fun _ => true)).filter (fun k => !(s.core.acc.flushing.flatten.contains k)))
  exact ⟨f, congrArg State.drain hf⟩

theorem flushAll_drains (s : State) : Drains s s.flushAll := by
  obtain ⟨f, hf⟩ := flushAll_eq s
  rw [hf]
  exact (withFlushing_drains s f).trans (drain_drains _)

/-- A siding that is not quiet does not become so by flushing: what it sends is in flight. -/
theorem Drains.not_quiet (h : Drains s t) (hs : ¬Quiet s.core) : ¬Quiet t.core := by
  rintro ⟨hrows, hflight, hin⟩
  refine hs ⟨fun k r hr => ?_, Nat.le_zero.mp (hflight ▸ h.flight), fun b hb => hin b (h.inbound.symm ▸ hb)⟩
  obtain hrow | hpos := h.rows k r hr
  · exact hrows k r hrow
  · omega

/-! ### Nothing to flush -/

theorem drainRows_quiet (h : ∀ k r, s.core.row k = some r → r.det = true) (l : List (BitVec 5)) :
    (drainRows l s).2 = s := by
  induction l with
  | nil => rfl
  | cons k l ih =>
    unfold drainRows
    split
    · exact ih
    next r hr =>
      rw [if_pos (h _ _ hr)]
      exact ih

theorem drainEvents_quiet (h : ∀ k r, s.core.row k = some r → r.det = true) (l : List (List (BitVec 5))) :
    (drainEvents l s).2 = s := by
  induction l with
  | nil => rfl
  | cons k l ih => exact (congrArg (fun z => (drainEvents l z).2) (drainRows_quiet h k)).trans ih

/-- Flushing a siding without relaxed rows only settles its events. -/
theorem flushAll_quiet (h : ∀ k r, s.core.row k = some r → r.det = true) : ∃ f, s.flushAll = withFlushing s f := by
  obtain ⟨e, he⟩ := flushAll_eq s
  obtain ⟨f, hf⟩ := drain_eq (withFlushing s e)
  rw [drainEvents_quiet (s := withFlushing (withFlushing s e) []) h] at hf
  exact ⟨f, he.trans hf⟩

/-! ### The write of ACCMODE (R203) -/

theorem cregValue_accmode (a : BitVec 2) (hm : m ≠ 0x058) :
    State.cregValue { s with core := { s.core with acc := { s.core.acc with accmode := a } } } m = s.cregValue m := by
  unfold State.cregValue
  split <;> first | contradiction | rfl

/-- What a write of ACCMODE leaves when the siding is quiet. -/
def accmodeState (s : State) (f : List (List (BitVec 5))) (v : Word) : State :=
  { withFlushing s f with core := { (withFlushing s f).core with acc := { (withFlushing s f).core.acc with
      accmode := v.setWidth 2 } } }

theorem writeAccmode_quiet (h : Quiet s.core) (v : Word) :
    ∃ f, ∀ k, writeAccmode v s k = k (accmodeState s f v) := by
  obtain ⟨f, hf⟩ := flushAll_quiet h.1
  refine ⟨f, fun k => ?_⟩
  have hq : (withFlushing s f).core.sidingQuiet = true := (sidingQuiet_iff _).mpr h
  unfold writeAccmode
  dsimp only
  rw [hf, if_pos hq]
  rfl

theorem writeAccmode_waits (h : ¬Quiet s.core) (v : Word) (k : State → Issue) :
    writeAccmode v s k = .wait s.flushAll := by
  have hq : ¬s.flushAll.core.sidingQuiet = true := fun e => (flushAll_drains s).not_quiet h ((sidingQuiet_iff _).mp e)
  unfold writeAccmode
  dsimp only
  rw [if_neg hq]

theorem execMtc_accmode {a : CAccess} {x : BitVec 5} (ha : cregAccess 0x058 = some a)
    (hw : a.mayWrite s.core.level = true) :
    execMtc x (BitVec.ofNat 12 0x058) s = (writeAccmode (s.reg x) s State.next4).result := by
  have hnum : (BitVec.ofNat 12 0x058).toNat = 0x058 := rfl
  unfold execMtc
  dsimp only
  rw [hnum, checked_may ha hw, if_neg (by simp), if_pos rfl]

theorem accmodeState_written (s : State) (f : List (List (BitVec 5))) (v : Word) :
    (accmodeState s f v).cregValue 0x058 = v &&& 3 ∧ KeepsRegisters [0x058] s (accmodeState s f v) :=
  ⟨zext64_setWidth v (by decide),
    fun m _ hm => (cregValue_accmode _ (by simpa using hm)).trans (withFlushing_cregValue s f)⟩

theorem accmode_written (h : Quiet s.core) : WritesRegister 0x058 [.accmodeWrite] (fun _ => True)
    (fun v u => u.cregValue 0x058 = v &&& 3 ∧ KeepsRegisters [0x058] s u) s := by
  refine ⟨fun x a ha hw _ => ?_, fun e he v _ => ?_⟩
  · obtain ⟨f, hf⟩ := writeAccmode_quiet h (s.reg x)
    have hx := (execMtc_accmode (x := x) ha hw).trans (congrArg Issue.result (hf _))
    exact ⟨_, hx, accmodeState_written s f _, ⟨rfl, rfl⟩, rfl, keepsMemory_core s _⟩
  · obtain ⟨f, hf⟩ := writeAccmode_quiet h v
    have hx : execAccmodeWrite v s = .next (accmodeState s f v) := by rw [execAccmodeWrite, hf]
    rw [List.mem_singleton.mp he]
    exact ⟨_, hx, accmodeState_written s f v, rfl, rfl, rfl, keepsMemory_core s _⟩

/-- A write of ACCMODE while the siding drains waits at its instruction. -/
theorem accmode_waits (h : ¬Quiet s.core) :
    (∀ x, Runs (.mtc x 0x058) s (fun u => Waits s u ∧ u.cregValue 0x058 = s.cregValue 0x058)) ∧
      ∀ v, Runs (.accmodeWrite v) s (fun u => Waits s u ∧ u.cregValue 0x058 = s.cregValue 0x058) := by
  have hd := flushAll_drains s
  have hpost : Waits s s.flushAll ∧ s.flushAll.cregValue 0x058 = s.cregValue 0x058 :=
    ⟨⟨hd.pc, hd.retired, hd.regs, hd.memory⟩, congrArg zext64 hd.accmode⟩
  refine ⟨fun x => ⟨_, ?_, hpost⟩, fun v => ⟨_, ?_, hpost⟩⟩
  · exact (execMtc_accmode (a := .j) (x := x) rfl rfl).trans (congrArg Issue.result (writeAccmode_waits h _ _))
  · change execAccmodeWrite v s = _
    rw [execAccmodeWrite, writeAccmode_waits h]

/-! ### FFLAGS (R280) -/

theorem fflags_accessed (write : Bool) (x : BitVec 5) (s : State) :
    (s.core.flagsPending = true → Runs (.fflagsAccess write x) s (· = s)) ∧
    (s.core.flagsPending = false → write = true → Runs (.fflagsAccess write x) s (fun u =>
      u.cregValue 0x009 = s.reg x &&& 0x1F ∧ KeepsRegisters [0x009] s u ∧ u.core.regs = s.core.regs ∧
      KeepsMemory s u)) ∧
    (s.core.flagsPending = false → write = false → Runs (.fflagsAccess write x) s (fun u =>
      WritesScalar x (s.cregValue 0x009) s.core u.core ∧ u = { s with core := { s.core with regs := u.core.regs } } ∧
      KeepsMemory s u)) := by
  refine ⟨fun h => ⟨s, if_pos h, rfl⟩, fun h hw => ?_, fun h hw => ?_⟩
  · have hf : fieldsWritten 0x009 (s.cregValue 0x009) (s.reg x) = some (s.reg x &&& 0x1F) := rfl
    refine ⟨s.cregStore 0x009 (s.reg x), ?_, cregStore_self hf, fun m _ hm => ?_, (cregStore_keeps hf).regs, keepsMemory_core s _⟩
    · subst hw
      exact if_neg (ne_true_of_eq_false h)
    · exact cregStore_other hf (by simpa using hm) (by simp [selects])
  · refine ⟨s.setReg x (s.cregValue 0x009), ?_, setReg_writes _ _ _, ?_, keepsMemory_core s _⟩
    · subst hw
      exact if_neg (ne_true_of_eq_false h)
    · exact congrArg (fun c => { s with core := c }) (setReg_regs s.core x (s.cregValue 0x009))

end Sys2Proof.Machine

open Sys2Proof Sys2Proof.Machine in
/-- Settles O49: a write is stored at once, and the stored state gives its claim; ACCMODE is stored once the siding is
quiet, which flushing alone never makes it. -/
theorem registerWritesWithEffects : Obligations.RegisterWritesWithEffects := by
  intro s
  refine ⟨fun c hroom => evc_written s c hroom, srseed_written s, ptbase_written s, accmode_written, accmode_waits,
    ckctl_written s, errdata_cleared s, errdata_kept s, fun may => ?_, fun may => ?_,
    fun write x => fflags_accessed write x s⟩
  · have hopen : s.plaOpen = true := (plaOpen_iff s).mpr may
    exact ⟨pla1_listed hopen, pla1_unlisted hopen, plaArg_written hopen, plaIdx_written hopen, points_written hopen⟩
  · exact boot_closed (Bool.eq_false_iff.mpr fun h => may ((plaOpen_iff s).mp h))

end
